-- ==== Sys2Proof/Word.lean ====
section
/-!
DEFINITION. The words of the machine and the types of the commands' operands.
-/
namespace Sys2Proof

abbrev Byte := BitVec 8

/-- A word is 40 bits unless a different width is stated (00_scope.md, Numbers). -/
abbrev Word := BitVec 40

/-- A region, 0 to 15 (R43). -/
abbrev RegionId := Fin 16
/-- A PCIe function: 0 the PF, 1 to 16 the VFs (R270). -/
abbrev FnId := Fin 17
/-- A Fuist port (R159). -/
abbrev PortId := Fin 8
/-- An Awl core (R199). -/
abbrev CoreId := Fin 64
/-- A level of an Awl core (R203). -/
abbrev LevelId := Fin 8
/-- A ring station (R310). -/
abbrev StationId := Fin 21
/-- A leaf number (R12). -/
abbrev LeafNo := Fin 32
/-- A DRAM channel (R332). -/
abbrev ChannelId := Fin 16
/-- A stream (R243). -/
abbrev StreamId := Fin 4096
/-- A queue set (R273). -/
abbrev QueueSetId := Fin 64
/-- A Collator timer (R260). -/
abbrev TimerId := Fin 64
/-- A power domain (R426). -/
abbrev DomainId := Fin 10
/-- A loader context: R0 to R15, D (16), F (17) (R359). -/
abbrev ContextId := Fin 18

/-- A cell (R46): quadrant, and its coordinates in the quadrant. -/
structure CellAddr where
  q : Fin 4
  x : Fin 256
  y : Fin 256
  deriving DecidableEq, Repr

/-- A gathering (R46): quadrant and its coordinates. -/
structure GthAddr where
  q : Fin 4
  gx : Fin 32
  gy : Fin 32
  deriving DecidableEq, Repr

/-- A codeword as it arrives on a port (R164): the 68 symbols of each logical lane, and the lane on which a failure is found. -/
structure Codeword where
  lanes : List (List (BitVec 10))
  lane : Fin 68
  deriving DecidableEq, Repr

/-- The slots of a station's two rings that pass it in an NCLK cycle (R310). -/
structure SlotPair where
  a : Fin 42
  b : Fin 42
  deriving DecidableEq, Repr

/-- What a port's training found (R186, R193): the peer's device and port, the largest latency, the spares that
trained with it and the peer's spare that each is cabled to, and where the peer's codewords stand: the count of the next one
and the scrambled bits before it. -/
structure TrainedPeer where
  dev : BitVec 6
  port : BitVec 3
  hopPs : BitVec 16
  spareOk : BitVec 4
  spareIdx : BitVec 8
  count : BitVec 12 := 0
  scr : BitVec 58 := 0
  deriving DecidableEq, Repr

/-- The end of the time that a training has (R193): the lanes that have failed, and what was found of the spares. -/
structure TrainingEnd where
  failed : BitVec 8
  peer : TrainedPeer
  deriving DecidableEq, Repr

/-- A write of QCT_CTL with RETRY, and the copies of a capture that fail as the recomputation reads it (R23, R33). -/
structure RetryWrite where
  v : BitVec 64
  bad : BitVec 2
  deriving DecidableEq, Repr

/-- The entry read from a submission queue, and whether the write of its record fails on the way (R275, R281). -/
structure SqEntry where
  desc : BitVec 256
  fails : Bool
  deriving DecidableEq, Repr

/-- A catchword to retire, and whether the write of its record fails on the way (R281, R295). -/
structure Retirement where
  cw : Word
  fails : Bool
  deriving DecidableEq, Repr

/-- A queue set that delivers a result, and whether that write fails on the way (R279, R281). -/
structure Delivery where
  m : QueueSetId
  fails : Bool
  deriving DecidableEq, Repr

/-- A channel that has failed, or whose copy of the ledger has been rebuilt in another (R302). -/
structure LedgerChannel where
  ch : ChannelId
  done : Bool
  deriving DecidableEq, Repr

/-- A reading of a domain's current sense (R464): mV, and units of 10 mA. -/
structure CurrentSense where
  mv : Nat
  cur : Int
  deriving DecidableEq, Repr

/-- The two I3C targets of the package (R484). -/
inductive BusTarget where
  | hub
  | meter
  deriving DecidableEq, Repr

end Sys2Proof
end

