-- ==== Sys2Proof/Syntax.lean ====
section
/-!
DEFINITION. The commands: one constructor per row of spec/opcode_table.json, with the row's operands.
-/
namespace Sys2Proof

inductive Instr where
  /-- `COMMIT_VOTE` (R16). -/
  | commitVote (r : RegionId) (pads : BitVec 192) (bad : BitVec 2)
  /-- `TOKEN_TIMEOUT` (R27). -/
  | tokenTimeout (r : RegionId)
  /-- `QCT_RETRY` (R33). -/
  | qctRetry (fn : FnId) (r : RegionId) (v : RetryWrite)
  /-- `QCT_INJECT` (R42). -/
  | qctInject (fn : FnId) (r : RegionId) (v : BitVec 64)
  /-- `CELL_NOP` (R106). -/
  | cellNop (c : CellAddr) (k : LeafNo)
  /-- `CELL_HOLD` (R106). -/
  | cellHold (c : CellAddr) (k : LeafNo)
  /-- `CELL_MOV` (R106). -/
  | cellMov (c : CellAddr) (k : LeafNo)
  /-- `CELL_ADD` (R81). -/
  | cellAdd (c : CellAddr) (k : LeafNo)
  /-- `CELL_SUB` (R82). -/
  | cellSub (c : CellAddr) (k : LeafNo)
  /-- `CELL_CMP` (R82). -/
  | cellCmp (c : CellAddr) (k : LeafNo)
  /-- `CELL_LTU` (R83). -/
  | cellLtu (c : CellAddr) (k : LeafNo)
  /-- `CELL_LTS` (R83). -/
  | cellLts (c : CellAddr) (k : LeafNo)
  /-- `CELL_EQ` (R83). -/
  | cellEq (c : CellAddr) (k : LeafNo)
  /-- `CELL_LUT3` (R86). -/
  | cellLut3 (c : CellAddr) (k : LeafNo)
  /-- `CELL_AND` (R87). -/
  | cellAnd (c : CellAddr) (k : LeafNo)
  /-- `CELL_OR` (R87). -/
  | cellOr (c : CellAddr) (k : LeafNo)
  /-- `CELL_XOR` (R87). -/
  | cellXor (c : CellAddr) (k : LeafNo)
  /-- `CELL_ANDN` (R87). -/
  | cellAndn (c : CellAddr) (k : LeafNo)
  /-- `CELL_SHL` (R89). -/
  | cellShl (c : CellAddr) (k : LeafNo)
  /-- `CELL_SHR` (R89). -/
  | cellShr (c : CellAddr) (k : LeafNo)
  /-- `CELL_SAR` (R89). -/
  | cellSar (c : CellAddr) (k : LeafNo)
  /-- `CELL_ROL` (R89). -/
  | cellRol (c : CellAddr) (k : LeafNo)
  /-- `CELL_EXT` (R89). -/
  | cellExt (c : CellAddr) (k : LeafNo)
  /-- `CELL_EXTS` (R89). -/
  | cellExts (c : CellAddr) (k : LeafNo)
  /-- `CELL_INS` (R89). -/
  | cellIns (c : CellAddr) (k : LeafNo)
  /-- `CELL_FSH` (R89). -/
  | cellFsh (c : CellAddr) (k : LeafNo)
  /-- `CELL_SEL` (R90). -/
  | cellSel (c : CellAddr) (k : LeafNo)
  /-- `CELL_BSEL` (R90). -/
  | cellBsel (c : CellAddr) (k : LeafNo)
  /-- `CELL_MAXU` (R90). -/
  | cellMaxu (c : CellAddr) (k : LeafNo)
  /-- `CELL_MINU` (R90). -/
  | cellMinu (c : CellAddr) (k : LeafNo)
  /-- `CELL_MAXS` (R90). -/
  | cellMaxs (c : CellAddr) (k : LeafNo)
  /-- `CELL_MINS` (R90). -/
  | cellMins (c : CellAddr) (k : LeafNo)
  /-- `CELL_RDOR` (R91). -/
  | cellRdor (c : CellAddr) (k : LeafNo)
  /-- `CELL_RDAND` (R91). -/
  | cellRdand (c : CellAddr) (k : LeafNo)
  /-- `CELL_RDXOR` (R91). -/
  | cellRdxor (c : CellAddr) (k : LeafNo)
  /-- `CELL_LZC` (R91). -/
  | cellLzc (c : CellAddr) (k : LeafNo)
  /-- `CELL_POPC` (R91). -/
  | cellPopc (c : CellAddr) (k : LeafNo)
  /-- `CELL_TZC` (R91). -/
  | cellTzc (c : CellAddr) (k : LeafNo)
  /-- `CELL_FLD` (R94). -/
  | cellFld (c : CellAddr) (k : LeafNo)
  /-- `CELL_FST` (R94). -/
  | cellFst (c : CellAddr) (k : LeafNo)
  /-- `CELL_FPUSH` (R94). -/
  | cellFpush (c : CellAddr) (k : LeafNo)
  /-- `CELL_FPOP` (R94). -/
  | cellFpop (c : CellAddr) (k : LeafNo)
  /-- `CELL_FPEEK` (R94). -/
  | cellFpeek (c : CellAddr) (k : LeafNo)
  /-- `CELL_PPUT` (R99). -/
  | cellPput (c : CellAddr) (k : LeafNo)
  /-- `CELL_PGET` (R100). -/
  | cellPget (c : CellAddr) (k : LeafNo)
  /-- `CELL_QEMPTY` (R101). -/
  | cellQempty (c : CellAddr) (k : LeafNo)
  /-- `CELL_QFULL` (R101). -/
  | cellQfull (c : CellAddr) (k : LeafNo)
  /-- `CELL_QHIGH` (R101). -/
  | cellQhigh (c : CellAddr) (k : LeafNo)
  /-- `CELL_QLOW` (R101). -/
  | cellQlow (c : CellAddr) (k : LeafNo)
  /-- `CELL_QCOUNT` (R101). -/
  | cellQcount (c : CellAddr) (k : LeafNo)
  /-- `CELL_HIN` (R102). -/
  | cellHin (c : CellAddr) (k : LeafNo)
  /-- `CELL_PIN` (R103). -/
  | cellPin (c : CellAddr) (k : LeafNo)
  /-- `CELL_HSTAT` (R104). -/
  | cellHstat (c : CellAddr) (k : LeafNo)
  /-- `PNOP` (R145). -/
  | pnop (g : GthAddr) (p : Fin 2) (k : LeafNo)
  /-- `PMUL` (R145). -/
  | pmul (g : GthAddr) (p : Fin 2) (k : LeafNo)
  /-- `PMAC` (R145). -/
  | pmac (g : GthAddr) (p : Fin 2) (k : LeafNo)
  /-- `PMSU` (R145). -/
  | pmsu (g : GthAddr) (p : Fin 2) (k : LeafNo)
  /-- `PEXT` (R148). -/
  | pext (g : GthAddr) (p : Fin 2) (k : LeafNo)
  /-- `PCLR` (R145). -/
  | pclr (g : GthAddr) (p : Fin 2) (k : LeafNo)
  /-- `EXCHANGE_SEND` (R173). -/
  | exchangeSend
  /-- `TOKEN_SEND` (R180). -/
  | tokenSend
  /-- `CODEWORD_RX` (R165). -/
  | codewordRx (p : PortId) (cw : Codeword)
  /-- `EXCHANGE_FRAME` (R174). -/
  | exchangeFrame (p : PortId)
  /-- `TOKEN_FRAME` (R180). -/
  | tokenFrame (p : PortId) (pads : BitVec 192) (bad : BitVec 2)
  /-- `POISON_FRAME` (R175). -/
  | poisonFrame (p : PortId)
  /-- `ASYNC_DATA_FRAME` (R187). -/
  | asyncDataFrame (p : PortId)
  /-- `LINK_CONTROL_FRAME` (R185). -/
  | linkControlFrame (p : PortId)
  /-- `LINK_CONTROL_SEND` (R185). -/
  | linkControlSend (p : PortId)
  /-- `ASYNC_RESEND_TIMEOUT` (R184). -/
  | asyncResendTimeout (p : PortId)
  /-- `SYSCMD_START` (R189). -/
  | syscmdStart (p : PortId)
  /-- `SYSCMD_RETRY` (R189). -/
  | syscmdRetry (p : PortId)
  /-- `SYSCMD_RELEASE` (R189). -/
  | syscmdRelease (p : PortId)
  /-- `TOKEN_REQ` (R183). -/
  | tokenReq (p : PortId)
  /-- `TOKEN_RESP` (R183). -/
  | tokenResp (p : PortId) (pads : BitVec 192) (bad : BitVec 2)
  /-- `SYSCMD_ACT` (R190). -/
  | syscmdAct (pads : BitVec 192) (bad : BitVec 2)
  /-- `LANE_SWITCH_TX` (R186). -/
  | laneSwitchTx (p : PortId)
  /-- `LANE_SWITCH_RX` (R186). -/
  | laneSwitchRx (p : PortId)
  /-- `LANE_SUB_TIMEOUT` (R186). -/
  | laneSubTimeout (p : PortId)
  /-- `LANE_SIGNAL_LOSS` (R469). -/
  | laneSignalLoss (p : PortId) (lane : Fin 8)
  /-- `UPK_LANE_GO` (R469). -/
  | upkLaneGo (v : BitVec 64)
  /-- `PORT_TRAIN` (R193). -/
  | portTrain (p : PortId) (v : BitVec 64)
  /-- `TRAINING_TIMEOUT` (R193). -/
  | trainingTimeout (p : PortId) (failed : TrainingEnd)
  /-- `SYNCPORT_LOCK_LOSS` (R191). -/
  | syncportLockLoss
  /-- `BOUND_RISE_QUALIFIED` (R195). -/
  | boundRiseQualified
  /-- `BOUND_WAIT_TIMEOUT` (R196). -/
  | boundWaitTimeout
  /-- `START_WAIT_TIMEOUT` (R196). -/
  | startWaitTimeout
  /-- `BOUND_N_FALL` (R196). -/
  | boundNFall
  /-- `AWL_NOP` (R230). -/
  | awlNop (c : CoreId)
  /-- `AWL_ADD` (R231). -/
  | awlAdd (c : CoreId)
  /-- `AWL_SUB` (R231). -/
  | awlSub (c : CoreId)
  /-- `AWL_ADC` (R231). -/
  | awlAdc (c : CoreId)
  /-- `AWL_SBC` (R231). -/
  | awlSbc (c : CoreId)
  /-- `AWL_CMP` (R231). -/
  | awlCmp (c : CoreId)
  /-- `AWL_AND` (R231). -/
  | awlAnd (c : CoreId)
  /-- `AWL_OR` (R231). -/
  | awlOr (c : CoreId)
  /-- `AWL_XOR` (R231). -/
  | awlXor (c : CoreId)
  /-- `AWL_ANDN` (R231). -/
  | awlAndn (c : CoreId)
  /-- `AWL_SHL` (R231). -/
  | awlShl (c : CoreId)
  /-- `AWL_SHR` (R231). -/
  | awlShr (c : CoreId)
  /-- `AWL_SAR` (R231). -/
  | awlSar (c : CoreId)
  /-- `AWL_ROL` (R231). -/
  | awlRol (c : CoreId)
  /-- `AWL_MINS` (R231). -/
  | awlMins (c : CoreId)
  /-- `AWL_MAXS` (R231). -/
  | awlMaxs (c : CoreId)
  /-- `AWL_ABS` (R231). -/
  | awlAbs (c : CoreId)
  /-- `AWL_NEG` (R231). -/
  | awlNeg (c : CoreId)
  /-- `AWL_MOV` (R231). -/
  | awlMov (c : CoreId)
  /-- `AWL_RSB` (R231). -/
  | awlRsb (c : CoreId)
  /-- `AWL_BSC` (R223). -/
  | awlBsc (c : CoreId)
  /-- `AWL_LZC` (R231). -/
  | awlLzc (c : CoreId)
  /-- `AWL_POPC` (R231). -/
  | awlPopc (c : CoreId)
  /-- `AWL_ADDI` (R230). -/
  | awlAddi (c : CoreId)
  /-- `AWL_ANDI` (R230). -/
  | awlAndi (c : CoreId)
  /-- `AWL_ORI` (R230). -/
  | awlOri (c : CoreId)
  /-- `AWL_XORI` (R230). -/
  | awlXori (c : CoreId)
  /-- `AWL_SHLI` (R230). -/
  | awlShli (c : CoreId)
  /-- `AWL_SHRI` (R230). -/
  | awlShri (c : CoreId)
  /-- `AWL_SARI` (R230). -/
  | awlSari (c : CoreId)
  /-- `AWL_CMPI` (R230). -/
  | awlCmpi (c : CoreId)
  /-- `AWL_MOVI` (R230). -/
  | awlMovi (c : CoreId)
  /-- `AWL_MOVHI` (R230). -/
  | awlMovhi (c : CoreId)
  /-- `AWL_LD` (R230). -/
  | awlLd (c : CoreId)
  /-- `AWL_ST` (R230). -/
  | awlSt (c : CoreId)
  /-- `AWL_LDX` (R230). -/
  | awlLdx (c : CoreId)
  /-- `AWL_STX` (R230). -/
  | awlStx (c : CoreId)
  /-- `AWL_STM` (R215). -/
  | awlStm (c : CoreId)
  /-- `AWL_LDM` (R215). -/
  | awlLdm (c : CoreId)
  /-- `AWL_B` (R232). -/
  | awlB (c : CoreId)
  /-- `AWL_CALL` (R210). -/
  | awlCall (c : CoreId)
  /-- `AWL_RET` (R210). -/
  | awlRet (c : CoreId)
  /-- `AWL_JR` (R230). -/
  | awlJr (c : CoreId)
  /-- `AWL_REP` (R221). -/
  | awlRep (c : CoreId)
  /-- `AWL_MUL` (R216). -/
  | awlMul (c : CoreId)
  /-- `AWL_MAC` (R216). -/
  | awlMac (c : CoreId)
  /-- `AWL_MSU` (R216). -/
  | awlMsu (c : CoreId)
  /-- `AWL_EXT` (R219). -/
  | awlExt (c : CoreId)
  /-- `AWL_ACLR` (R216). -/
  | awlAclr (c : CoreId)
  /-- `AWL_MACP` (R216). -/
  | awlMacp (c : CoreId)
  /-- `AWL_MSUP` (R216). -/
  | awlMsup (c : CoreId)
  /-- `AWL_XGET` (R224). -/
  | awlXget (c : CoreId)
  /-- `AWL_XPUT` (R224). -/
  | awlXput (c : CoreId)
  /-- `AWL_XWAIT` (R225). -/
  | awlXwait (c : CoreId)
  /-- `AWL_XSTAT` (R225). -/
  | awlXstat (c : CoreId)
  /-- `AWL_TAKE` (R254). -/
  | awlTake (c : CoreId)
  /-- `AWL_GIVE` (R226). -/
  | awlGive (c : CoreId)
  /-- `AWL_DONE` (R226). -/
  | awlDone (c : CoreId)
  /-- `AWL_DEFER` (R255). -/
  | awlDefer (c : CoreId)
  /-- `AWL_LOCK` (R262). -/
  | awlLock (c : CoreId)
  /-- `AWL_UNLOCK` (R261). -/
  | awlUnlock (c : CoreId)
  /-- `AWL_YIELD` (R255). -/
  | awlYield (c : CoreId)
  /-- `AWL_SRD` (R207). -/
  | awlSrd (c : CoreId)
  /-- `AWL_SWR` (R207). -/
  | awlSwr (c : CoreId)
  /-- `AWL_BGET` (R214). -/
  | awlBget (c : CoreId)
  /-- `AWL_BPUT` (R214). -/
  | awlBput (c : CoreId)
  /-- `AWL_BEXP` (R223). -/
  | awlBexp (c : CoreId)
  /-- `AWL_BFIX` (R223). -/
  | awlBfix (c : CoreId)
  /-- `AWL_PRIV` (R208). -/
  | awlPriv (c : CoreId)
  /-- `LEVEL_SWITCH` (R205). -/
  | levelSwitch (c : CoreId)
  /-- `COLLATOR_RESPONSE_TIMEOUT` (R227). -/
  | collatorResponseTimeout (c : CoreId) (lv : LevelId)
  /-- `TRANSFER_TIMEOUT` (R225). -/
  | transferTimeout (c : CoreId) (lv : LevelId) (tag : Fin 16)
  /-- `AWL_HOLDRST` (R234). -/
  | awlHoldrst (c : CoreId) (v : BitVec 64)
  /-- `AWL_UNFREEZE` (R234). -/
  | awlUnfreeze (c : CoreId) (v : BitVec 64)
  /-- `AWL_MDATA_READ` (R236). -/
  | awlMdataRead (c : CoreId)
  /-- `AWL_MDATA_WRITE` (R236). -/
  | awlMdataWrite (c : CoreId) (v : BitVec 64)
  /-- `COLLATOR_PLACE` (R252). -/
  | collatorPlace
  /-- `AFF_HOLD_EXPIRY` (R252). -/
  | affHoldExpiry (st : StreamId) (cw : Word)
  /-- `DELAY_ENTRY_DUE` (R258). -/
  | delayEntryDue (l : Fin 4)
  /-- `CALENDAR_WRAP` (R257). -/
  | calendarWrap (l : Fin 4)
  /-- `TIMER_DUE` (R260). -/
  | timerDue (t : TimerId)
  /-- `TIMER_ARM` (R260). -/
  | timerArm (t : TimerId) (v : BitVec 64)
  /-- `TIMER_INSERT_RETRY` (R259). -/
  | timerInsertRetry (t : TimerId)
  /-- `YIELD_READY` (R255). -/
  | yieldReady (c : CoreId) (lv : LevelId)
  /-- `LOCK_WAIT_TIMEOUT` (R263). -/
  | lockWaitTimeout (c : CoreId) (lv : LevelId)
  /-- `STREAM_RESUME` (R256). -/
  | streamResume (fn : FnId) (st : StreamId) (v : BitVec 64)
  /-- `STREAM_CANCEL` (R256). -/
  | streamCancel (fn : FnId) (st : StreamId) (v : BitVec 64)
  /-- `HUB_LOGIC_RECOVERY` (R302). -/
  | hubLogicRecovery
  /-- `ITEM_RETIRE` (R295). -/
  | itemRetire (st : StreamId) (cw : Retirement)
  /-- `LEDGER_CHANNEL_REBUILD` (R302). -/
  | ledgerChannelRebuild (ch : LedgerChannel)
  /-- `ABANDON` (R305). -/
  | abandon (fn : FnId) (st : StreamId) (v : BitVec 64)
  /-- `COL_ACC_WRITE` (R307). -/
  | colAccWrite (fn : FnId) (st : StreamId) (v : BitVec 64)
  /-- `SQ_ENTRY_READ` (R275). -/
  | sqEntryRead (m : QueueSetId) (desc : SqEntry)
  /-- `DOORBELL_SQT` (R282). -/
  | doorbellSqt (fn : FnId) (m : QueueSetId) (v : BitVec 64)
  /-- `DOORBELL_AQH` (R282). -/
  | doorbellAqh (fn : FnId) (m : QueueSetId) (v : BitVec 64)
  /-- `DOORBELL_RQH` (R282). -/
  | doorbellRqh (fn : FnId) (m : QueueSetId) (v : BitVec 64)
  /-- `DOORBELL_XQH` (R282). -/
  | doorbellXqh (fn : FnId) (m : QueueSetId) (v : BitVec 64)
  /-- `QUEUE_SET_CFG_WRITE` (R281). -/
  | queueSetCfgWrite (fn : FnId) (m : QueueSetId) (v : BitVec 64)
  /-- `RESULT_DELIVERY` (R279). -/
  | resultDelivery (m : Delivery)
  /-- `INTERRUPT_INTERVAL_END` (R280). -/
  | interruptIntervalEnd (m : QueueSetId)
  /-- `BAR2_READ` (R283). -/
  | bar2Read (fn : FnId) (size : Nat) (off : Nat) (len : Nat)
  /-- `BAR2_WRITE` (R284). -/
  | bar2Write (fn : FnId) (size : Nat) (off : Nat) (bytes : List Byte)
  /-- `BAR0_BAD_ACCESS` (R6). -/
  | bar0BadAccess (fn : FnId) (off : BitVec 26) (len : Nat) (write : Bool)
  /-- `REGISTER_WRITE` (R496). -/
  | registerWrite (fn : FnId) (off : BitVec 26) (v : BitVec 64)
  /-- `VF_FLR` (R269). -/
  | vfFlr (f : Fin 16)
  /-- `RD` (R314). -/
  | rd (mc : Fin 2) (glitch : Nat)
  /-- `WR` (R314). -/
  | wr (mc : Fin 2) (glitch : Nat)
  /-- `QPUSH` (R314). -/
  | qpush (k : StationId)
  /-- `QPOP` (R314). -/
  | qpop (k : StationId)
  /-- `FRD` (R314). -/
  | frd (k : StationId)
  /-- `FWR` (R314). -/
  | fwr (k : StationId)
  /-- `CMSG` (R314). -/
  | cmsg
  /-- `DSP` (R314). -/
  | dsp (k : StationId)
  /-- `RDATA` (R314). -/
  | rdata (k : StationId) (cl : Fin 8)
  /-- `RACK` (R314). -/
  | rack (k : StationId) (cl : Fin 8)
  /-- `CRSP` (R314). -/
  | crsp (k : StationId) (cl : Fin 8)
  /-- `FLIT_ARRIVE` (R313). -/
  | flitArrive (ring : Fin 4) (slot : Fin 42) (k : StationId)
  /-- `FLIT_INJECT` (R317). -/
  | flitInject (k : StationId) (cls : Fin 2) (slots : SlotPair)
  /-- `REGULATOR_TOKEN` (R318). -/
  | regulatorToken (k : StationId) (cl : Fin 8)
  /-- `RING_RESEND_TIMEOUT` (R324). -/
  | ringResendTimeout (k : StationId) (cl : Fin 8) (tag : BitVec 8)
  /-- `KEPT_RESPONSE_EXPIRY` (R324). -/
  | keptResponseExpiry (k : StationId) (src : StationId) (cl : Fin 8) (tag : BitVec 8)
  /-- `STATION_BYPASS` (R326). -/
  | stationBypass (k : StationId) (v : BitVec 64)
  /-- `DRAIN_COMPLETE` (R326). -/
  | drainComplete (k : StationId)
  /-- `TRACE_READ` (R329). -/
  | traceRead
  /-- `SCRUB_READ` (R343). -/
  | scrubRead (glitch : Nat)
  /-- `RETRAIN_STEP` (R344). -/
  | retrainStep
  /-- `RETRAIN_STEP_TIMEOUT` (R344). -/
  | retrainStepTimeout
  /-- `SECTOR_CLEAR` (R342). -/
  | sectorClear (fn : FnId) (v : BitVec 64)
  /-- `RETIRE_GO` (R345). -/
  | retireGo (v : BitVec 64)
  /-- `MIGRATION_LINE_COPY` (R346). -/
  | migrationLineCopy
  /-- `MIGRATION_COMPLETE` (R347). -/
  | migrationComplete
  /-- `PARTITION_WRITE` (R349). -/
  | partitionWrite (p : FnId) (v : BitVec 64)
  /-- `LOAD_GO` (R359). -/
  | loadGo (fn : FnId) (x : ContextId) (v : BitVec 64)
  /-- `LOAD_SERVICE_START` (R360). -/
  | loadServiceStart (bytes : List Byte)
  /-- `FRAME_RECORD` (R360). -/
  | frameRecord (bytes : List Byte)
  /-- `LOAD_STALL_TIMEOUT` (R364). -/
  | loadStallTimeout
  /-- `LOAD_SOURCE_ERROR` (R364). -/
  | loadSourceError (short : Bool)
  /-- `LOAD_ABORT_CMD` (R364). -/
  | loadAbortCmd (fn : FnId) (x : ContextId) (v : BitVec 64)
  /-- `CASEIN` (R367). -/
  | casein (fn : FnId) (r : RegionId) (v : BitVec 64)
  /-- `FREE` (R361). -/
  | free (fn : FnId) (r : RegionId) (v : BitVec 64)
  /-- `FLASH_WRITE_GO` (R372). -/
  | flashWriteGo (v : BitVec 64) (bytes : List Byte)
  /-- `FLASH_COMMIT_RECORD` (R372). -/
  | flashCommitRecord
  /-- `HOLD_REQUEST` (R375). -/
  | holdRequest (fn : FnId) (r : RegionId) (v : BitVec 64)
  /-- `HOLD_RELEASE` (R379). -/
  | holdRelease (fn : FnId) (r : RegionId) (v : BitVec 64) (pads : BitVec 192)
  /-- `READBACK_GO` (R381). -/
  | readbackGo (fn : FnId) (r : RegionId) (v : BitVec 64)
  /-- `READBACK_DONE` (R384). -/
  | readbackDone (r : RegionId) (pads : BitVec 192)
  /-- `BOOKMARK_TAKE` (R386). -/
  | bookmarkTake (fn : FnId) (r : RegionId) (v : BitVec 64)
  /-- `BOOKMARK_RESTORE` (R390). -/
  | bookmarkRestore (fn : FnId) (r : RegionId) (v : BitVec 64)
  /-- `BOOKMARK_ENGINE_START` (R389). -/
  | bookmarkEngineStart (r : RegionId)
  /-- `BOOKMARK_CAPTURE_DONE` (R387). -/
  | bookmarkCaptureDone (r : RegionId) (pads : BitVec 192)
  /-- `BOOKMARK_RESTORE_DONE` (R391). -/
  | bookmarkRestoreDone (r : RegionId)
  /-- `METER_SAMPLE` (R398). -/
  | meterSample
  /-- `BINDING_MESSAGE_SEND` (R395). -/
  | bindingMessageSend
  /-- `BINDING_MESSAGE` (R395). -/
  | bindingMessage (crcOk : Bool)
  /-- `BINDING_STALE` (R395). -/
  | bindingStale
  /-- `METER_NV_WRITE` (R399). -/
  | meterNvWrite
  /-- `MVDD_FALL` (R399). -/
  | mvddFall
  /-- `METER_POWER_ON` (R399). -/
  | meterPowerOn (addr : BitVec 3) (good : BitVec 2)
  /-- `METER_INTERVAL_RECORD` (R400). -/
  | meterIntervalRecord
  /-- `METER_RECORD_SIGNED` (R404). -/
  | meterRecordSigned
  /-- `METER_STATUS_FRAME` (R402). -/
  | meterStatusFrame
  /-- `SETPTR` (R409). -/
  | setptr (off : BitVec 32)
  /-- `RECORD_NOW` (R400). -/
  | recordNow
  /-- `SEALED` (R407). -/
  | sealed (bytes : List Byte)
  /-- `METER_PRIVATE_READ` (R409). -/
  | meterPrivateRead (n : Nat)
  /-- `METER_RUN_LOW` (R397). -/
  | meterRunLow
  /-- `OTP_PROGRAM` (R415). -/
  | otpProgram (v : BitVec 64)
  /-- `OTP_REVOKE` (R415). -/
  | otpRevoke (v : BitVec 64)
  /-- `OTP_PROGRAM_DONE` (R415). -/
  | otpProgramDone (readback : BitVec 256)
  /-- `ATTESTATION_GO` (R420). -/
  | attestationGo (fn : FnId) (f : FnId) (v : BitVec 64)
  /-- `ATTESTATION_SERVICE` (R420). -/
  | attestationService
  /-- `ATTESTATION_WRITTEN` (R422). -/
  | attestationWritten
  /-- `DOMAIN_VOTE_WRITE` (R430). -/
  | domainVoteWrite (fn : FnId) (d : DomainId) (v : BitVec 64)
  /-- `DOMAIN_POWER_UP` (R427). -/
  | domainPowerUp (d : DomainId)
  /-- `DOMAIN_POWER_DOWN` (R429). -/
  | domainPowerDown (d : DomainId)
  /-- `POWER_GOOD_TIMEOUT` (R427). -/
  | powerGoodTimeout (d : DomainId)
  /-- `FUIST_PARTNER_VOTE_CLEAR` (R430). -/
  | fuistPartnerVoteClear
  /-- `OP_WRITE` (R433). -/
  | opWrite (v : BitVec 64)
  /-- `OP_SWITCH` (R434). -/
  | opSwitch (pads : BitVec 192)
  /-- `ARRAY_LOOP_RELOCK` (R434). -/
  | arrayLoopRelock
  /-- `VSET_WRITE` (R433). -/
  | vsetWrite (v : BitVec 64)
  /-- `VARR_SETTLED` (R433). -/
  | varrSettled (code : BitVec 8)
  /-- `THERMAL_COMPARE` (R435). -/
  | thermalCompare
  /-- `THERMAL_TRIP` (R436). -/
  | thermalTrip (sensor : Fin 64) (temp : BitVec 8)
  /-- `AO_TEMP_SAMPLE` (R437). -/
  | aoTempSample (temp : Int)
  /-- `LOOP_LOCK_LOSS` (R439). -/
  | loopLockLoss (array : Bool)
  /-- `PAD_RELEASE` (R440). -/
  | padRelease (fn : FnId) (v : BitVec 64)
  /-- `WAKE_ADDRESS_MATCH` (R442). -/
  | wakeAddressMatch
  /-- `AO_TIMER_EXPIRY` (R441). -/
  | aoTimerExpiry
  /-- `WAKE_N_ASSERT` (R441). -/
  | wakeNAssert
  /-- `WAKE_SEQUENCE` (R443). -/
  | wakeSequence (stop : Nat) (durUs : BitVec 32)
  /-- `WAKE_STEP_TIMEOUT` (R443). -/
  | wakeStepTimeout (stop : Nat) (durUs : BitVec 32)
  /-- `WAKE_ACK` (R444). -/
  | wakeAck (v : BitVec 64)
  /-- `TIME_CALIBRATE` (R446). -/
  | timeCalibrate (count : Nat)
  /-- `TCLK_RESUME` (R446). -/
  | tclkResume (n : Nat)
  /-- `TIM_ADJ` (R447). -/
  | timAdj (fn : FnId) (v : BitVec 64)
  /-- `POWER_ON_RESET` (R448). -/
  | powerOnReset (straps : BitVec 3) (stop : Nat) (durMs : BitVec 32)
  /-- `RESET_N_QUALIFIED` (R449). -/
  | resetNQualified
  /-- `RESET_N_RELEASE` (R449). -/
  | resetNRelease (stop : Nat) (durMs : BitVec 32)
  /-- `VIN_LOSS` (R450). -/
  | vinLoss
  /-- `VSB_LOSS` (R450). -/
  | vsbLoss
  /-- `WARM_RESET` (R451). -/
  | warmReset (fn : FnId) (v : BitVec 64) (stop : Nat) (durMs : BitVec 32)
  /-- `PCIE_HOT_RESET` (R269). -/
  | pcieHotReset (flr : Bool) (stop : Nat) (durMs : BitVec 32)
  /-- `BOOT_STEP_TIMEOUT` (R455). -/
  | bootStepTimeout (stop : Nat) (durMs : BitVec 32)
  /-- `PERST_N_RISE` (R454). -/
  | perstNRise
  /-- `PARAMETER_SAVE` (R456). -/
  | parameterSave (fn : FnId) (v : BitVec 64) (ok : Bool)
  /-- `FRAME_CHECK_WALK` (R59). -/
  | frameCheckWalk
  /-- `FOLIO_PARITY_SWEEP` (R132). -/
  | folioParitySweep
  /-- `SERDES_ADAPT_STEP` (R463). -/
  | serdesAdaptStep (p : PortId) (lane : Fin 8) (dir : Bool)
  /-- `SERDES_ADAPT_REVIEW` (R463). -/
  | serdesAdaptReview (p : PortId) (lane : Fin 8) (before : Nat) (after : Nat)
  /-- `REGULATOR_TRIM_STEP` (R463). -/
  | regulatorTrimStep (rail : Fin 16) (errMv : Int)
  /-- `TELEMETRY_UPDATE` (R464). -/
  | telemetryUpdate (temps : List Int) (currents : List CurrentSense)
  /-- `WEAR_LEVEL_CHECK` (R463). -/
  | wearLevelCheck
  /-- `COLMAP_WRITE` (R49). -/
  | colmapWrite (q : Fin 4) (v : BitVec 64)
  /-- `COLREP_GO` (R466). -/
  | colrepGo (v : BitVec 64)
  /-- `COLREP_CAPTURE_DONE` (R467). -/
  | colrepCaptureDone
  /-- `LOG_UNFREEZE` (R473). -/
  | logUnfreeze (v : BitVec 64)
  /-- `LOG_READ` (R473). -/
  | logRead
  /-- `HUB_STATUS_CMD` (R485). -/
  | hubStatusCmd
  /-- `HUB_VOTE_CMD` (R485). -/
  | hubVoteCmd (arg : BitVec 16)
  /-- `ENTDAA` (R484). -/
  | entdaa (t : BusTarget) (da : BitVec 7)
  /-- `SETDASA` (R484). -/
  | setdasa (t : BusTarget) (da : BitVec 7)
  /-- `SETNEWDA` (R484). -/
  | setnewda (t : BusTarget) (da : BitVec 7)
  /-- `RSTDAA` (R484). -/
  | rstdaa
  /-- `GETPID` (R484). -/
  | getpid (t : BusTarget)
  /-- `GETBCR` (R484). -/
  | getbcr (t : BusTarget)
  /-- `GETDCR` (R484). -/
  | getdcr (t : BusTarget)
  /-- `GETSTATUS` (R484). -/
  | getstatus (t : BusTarget)
  /-- `GETMWL` (R484). -/
  | getmwl (t : BusTarget)
  /-- `GETMRL` (R484). -/
  | getmrl (t : BusTarget)
  /-- `JTAG_BYPASS` (R487). -/
  | jtagBypass
  /-- `SAMPLE_PRELOAD` (R487). -/
  | samplePreload (pins : BitVec 589) (preload : BitVec 589)
  /-- `IDCODE` (R487). -/
  | idcode
  /-- `EXTEST` (R487). -/
  | extest (preload : BitVec 589)
  /-- `CLAMP` (R487). -/
  | clamp
  /-- `HIGHZ` (R487). -/
  | highz
  /-- `BNDSTREAM` (R489). -/
  | bndstream (b : Byte)
  /-- `BNDSTAT` (R489). -/
  | bndstat
  /-- `LOOP_RELOCK` (R439). -/
  | loopRelock (array : Bool)
  /-- `VIN_RETURN` (R450). -/
  | vinReturn (stop : Nat) (durMs : BitVec 32)
  /-- `BANK_RAMP_DONE` (R483). -/
  | bankRampDone (b : Fin 8)
  /-- `PORT_TRAINING_DONE` (R193). -/
  | portTrainingDone (p : PortId) (peer : TrainedPeer)
  /-- `DOMAIN_POWER_GOOD` (R427). -/
  | domainPowerGood (d : DomainId)
  /-- `DOMAIN_RAMPDOWN_DONE` (R427). -/
  | domainRampdownDone (d : DomainId)
  /-- `SQ_READ_TIMEOUT` (R281). -/
  | sqReadTimeout (m : QueueSetId)
  /-- `STATUS_LINK_LOSS` (R410). -/
  | statusLinkLoss
  deriving DecidableEq, Repr

end Sys2Proof
end

