-- ==== Sys2Proof/Decode.lean ====
section
/-!
DEFINITION. The command that a word spells. The rows of the opcode table give no bits, so no word spells one.
-/
namespace Sys2Proof

/-- No row of spec/opcode_table.json gives a command bits: no word of any length is a command. -/
def decodeTableWord (_nbits _w : Nat) : Option Instr := none

end Sys2Proof
end

