-- ==== Sys2Proof/Machine/Sparse.lean ====
section
/-!
DEFINITION. Sparse data by key: a list of (key, value) pairs in one canonical form, keys strictly rising and no entry
equal to what an unlisted key reads as. Registers, stores, tables and memories of State are held so.
-/
namespace Sys2Proof.Machine

/-- A table with a value for every key, of which only those that differ from the unlisted value are listed. -/
structure Sparse (α : Type) where
  entries : List (Nat × α) := []
  deriving DecidableEq, Repr, Inhabited

/-- The value listed at a key of a rising list. -/
def lookupKey {α : Type} : List (Nat × α) → Nat → Option α
  | [], _ => none
  | (k, v) :: es, i => if k = i then some v else lookupKey es i

/-- Insertion that keeps the keys rising. -/
def insertKey {α : Type} : List (Nat × α) → Nat → α → List (Nat × α)
  | [], i, x => [(i, x)]
  | (k, v) :: es, i, x =>
    if i < k then (i, x) :: (k, v) :: es
    else if i = k then (i, x) :: es
    else (k, v) :: insertKey es i x

/-- Removal of a key. -/
def eraseKey {α : Type} (es : List (Nat × α)) (i : Nat) : List (Nat × α) :=
  es.filter fun e => e.1 != i

/-- The canonical form: keys strictly rising, no listed value equal to the unlisted one. -/
def canonicalFrom {α : Type} [DecidableEq α] (d : Nat → α) : Nat → List (Nat × α) → Bool
  | _, [] => true
  | lo, (k, v) :: es => decide (lo ≤ k) && decide (v ≠ d k) && canonicalFrom d (k + 1) es

/-- The value at a key, where an unlisted key `k` reads as `d k`. -/
def Sparse.get {α : Type} (d : Nat → α) (m : Sparse α) (i : Nat) : α :=
  (lookupKey m.entries i).getD (d i)

/-- A write, which keeps the canonical form. -/
def Sparse.set {α : Type} [DecidableEq α] (d : Nat → α) (m : Sparse α) (i : Nat) (x : α) : Sparse α :=
  ⟨if x = d i then eraseKey m.entries i else insertKey m.entries i x⟩

def Sparse.wf {α : Type} [DecidableEq α] (d : Nat → α) (m : Sparse α) : Bool := canonicalFrom d 0 m.entries

/-- The value at a key of a table whose unlisted value is the type's own default. -/
def Sparse.at {α : Type} [Inhabited α] (m : Sparse α) (i : Nat) : α := m.get (fun _ => default) i

def Sparse.put {α : Type} [Inhabited α] [DecidableEq α] (m : Sparse α) (i : Nat) (x : α) : Sparse α :=
  m.set (fun _ => default) i x

/-- The value at a key changed by a function. -/
def Sparse.upd {α : Type} [Inhabited α] [DecidableEq α] (m : Sparse α) (i : Nat) (f : α → α) : Sparse α :=
  m.put i (f (m.at i))

/-- The keys listed. -/
def Sparse.keys {α : Type} (m : Sparse α) : List Nat := m.entries.map Prod.fst

/-- Every key of a list changed by a function, once each. -/
def Sparse.updAll {α : Type} [Inhabited α] [DecidableEq α] (m : Sparse α) (ks : List Nat) (f : α → α) : Sparse α :=
  ks.eraseDups.foldl (fun m k => m.upd k f) m

/-- A table from a list of values, key 0 first. -/
def Sparse.ofList {α : Type} [Inhabited α] [DecidableEq α] (xs : List α) : Sparse α :=
  (xs.zipIdx).foldl (fun m p => m.put p.2 p.1) {}

end Sys2Proof.Machine
end

