-- ==== Sys2Proof/Machine/ArrayState.lean ====
section
/-!
DEFINITION. The state of the array: cells, switch boxes, folio blocks, queue controllers, press blocks and the quire
state of each region that no register holds (01_quire_model.md to 05_gatherings.md).

A STAMP is 64 × (number of the computation in the region) + leaf + 1: it says at the end of which leaf a value came to be;
64 × the number alone is the edge that opens the computation.
-/
namespace Sys2Proof.Machine

/-- A word with its residue code (R68). -/
structure RWord where
  d : Word := 0
  r : BitVec 2 := 0
  deriving DecidableEq, Repr, Inhabited

/-- The working flag set with its residue (R50). -/
structure FlagSet where
  c : Bool := false
  z : Bool := false
  n : Bool := false
  v : Bool := false
  r : BitVec 2 := 0
  deriving DecidableEq, Repr, Inhabited

/-- Three versions of an object (R14); no pending version where none exists. -/
structure Ver (α : Type) where
  com : α
  pend : Option α := none
  work : α
  deriving DecidableEq, Repr, Inhabited

/-- A value read as it stood at the start of a leaf: the newest value and the one before it, each with the stamp of
the leaf at whose end it came to be. -/
structure Lag (α : Type) where
  new : α
  newAt : Nat := 0
  old : α
  oldAt : Nat := 0
  deriving DecidableEq, Repr, Inhabited

/-- An unversioned word and the stamp of its last write. -/
structure Stamped where
  w : RWord := {}
  at_ : Nat := 0
  deriving DecidableEq, Repr, Inhabited

/-- The course of a word within one leaf (R124): cell operations, segments of each kind, and whether a long was read,
turned or passed on. -/
structure Path where
  ops : Nat := 0
  short : Nat := 0
  span : Nat := 0
  long : Nat := 0
  pastLong : Bool := false
  deriving DecidableEq, Repr, Inhabited

/-- The word on a segment: the stamp of its leaf, and the paths that lead to it. -/
structure SegWord where
  w : RWord := {}
  at_ : Nat := 0
  paths : List Path := []
  deriving DecidableEq, Repr, Inhabited

/-- A bit that travels with its complement (R73). -/
structure CarryPair where
  t : Bool := false
  f : Bool := true
  deriving DecidableEq, Repr, Inhabited

/-- A word on its way from a folio block to a cell (R95): the leaf that issued the read, its DST, CW, cadence enable
and the word. -/
structure FolioReturn where
  at_ : Nat
  dst : BitVec 6
  cw : Bool
  w : RWord
  deriving DecidableEq, Repr

/-- The versioned objects of a cell (R14). -/
structure CellWords where
  s : Sparse RWord := {}
  f : FlagSet := {}
  deriving DecidableEq, Repr, Inhabited

/-- A cell with its switch box (R50, R111). -/
structure Cell where
  v : Ver CellWords := ⟨{}, none, {}⟩
  t : Sparse Stamped := {}
  outA : Stamped := {}
  outB : Stamped := {}
  /-- Pipeline registers of the 48 terminals. -/
  term : Sparse (Lag RWord) := {}
  /-- The word on each of the 48 segments that leave the box, in the leaf of its stamp. -/
  seg : Sparse SegWord := {}
  /-- The paths that end in the cell operation of the last leaf (R124). -/
  paths : List Path := []
  leaf : Sparse (BitVec 208) := {}
  /-- Stamp of the last leaf executed. -/
  last : Nat := 0
  /-- Computation in which a `hold` took effect (R106); 0: none. -/
  heldIn : Nat := 0
  carry : CarryPair := {}
  carryAt : Nat := 0
  returns : List FolioReturn := []
  deriving DecidableEq, Repr, Inhabited

/-- An entry of a folio write buffer (R129). -/
structure FolioEntry where
  addr : Nat
  w : BitVec 44
  at_ : Nat
  deriving DecidableEq, Repr

/-- A versioned queue pointer with its residue code (R28, R69). -/
structure QPtr where
  p : Nat := 0
  r : BitVec 2 := 0
  deriving DecidableEq, Repr, Inhabited

/-- A folio queue's pointers (R138) and the event condition last found (R142). -/
structure FolioQueue where
  apCom : QPtr := {}
  apPend : Option QPtr := none
  apWork : Lag QPtr := ⟨{}, 0, {}, 0⟩
  rp : Nat := 0
  /-- RP as captured at the last fresh quire start (R139). -/
  crp : Nat := 0
  cond : Bool := false
  deriving DecidableEq, Repr, Inhabited

/-- The accumulator of a press block (R143). -/
structure Acc where
  v : BitVec 88 := 0
  rl : BitVec 2 := 0
  rh : BitVec 2 := 0
  deriving DecidableEq, Repr, Inhabited

/-- An accumulate stage on its way (R147): the leaf of its product, the operation, mode and product. -/
structure AccStage where
  at_ : Nat
  pop : Nat
  cpx : Bool
  p : BitVec 88
  enabled : Bool
  deriving DecidableEq, Repr

/-- The operands of a press block. -/
structure PressOps where
  x : Stamped := {}
  y : Stamped := {}
  xd : Stamped := {}
  yd : Stamped := {}
  deriving DecidableEq, Repr, Inhabited

structure Press where
  leaf : Sparse (BitVec 64) := {}
  ops : Lag PressOps := ⟨{}, 0, {}, 0⟩
  acc : Ver Acc := ⟨{}, none, {}⟩
  stages : List AccStage := []
  rw : Sparse (Lag RWord) := {}
  last : Nat := 0
  deriving DecidableEq, Repr, Inhabited

/-- The first design check of a quire (R156): leaf and cell. -/
structure DesignCheck where
  leaf : Nat
  cell : Nat
  deriving DecidableEq, Repr

/-- A gathering (R128 to R157). -/
structure Gth where
  /-- The GTH_CTL frame (R151). -/
  frame : BitVec 2048 := 0
  access : Sparse (BitVec 64) := {}
  store : Sparse (BitVec 44) := {}
  /-- What a FOLIO_INIT frame gave the store, until the load completes (R154). -/
  init : Sparse (BitVec 44) := {}
  working : List FolioEntry := []
  pending : List FolioEntry := []
  draining : List FolioEntry := []
  queue : Sparse FolioQueue := {}
  press : Sparse Press := {}
  kettle : Sparse (Lag CarryPair) := {}
  checkW : Option DesignCheck := none
  checkP : Option DesignCheck := none
  sdirty : Bool := false
  fdirty : Bool := false
  /-- What the working and the pending quire wrote: state and folio (R385). -/
  wroteSW : Bool := false
  wroteFW : Bool := false
  wroteSP : Bool := false
  wroteFP : Bool := false
  /-- XPLAN entries: 64 send, 64 receive (R170). -/
  xplan : Sparse (BitVec 64) := {}
  deriving DecidableEq, Repr, Inhabited

/-- A failure charged to a quire (R20, R32). -/
structure Fail where
  quire : Nat
  dev : Nat
  cause : Nat
  gth : Nat
  deriving DecidableEq, Repr

/-- The word and status of a hinge channel at a capture edge (R102, R104). -/
structure HingeIn where
  assigned : Bool := false
  running : Bool := false
  w : RWord := {}
  deriving DecidableEq, Repr, Inhabited

/-- The inputs captured for a quire (R22, R23). -/
structure Capture where
  quire : Nat := 0
  pads : BitVec 192 := 0
  hinges : Sparse HingeIn := {}
  crp : Sparse Nat := {}
  wm : Sparse (Nat × Nat) := {}
  deriving DecidableEq, Repr, Inhabited

/-- The merged status token of a quire (R179, R180), of one attempt at it. -/
structure Token where
  quire : Nat := 0
  att : Nat := 0
  ok : BitVec 64 := 0
  rp : BitVec 64 := 0
  fault : Option Fail := none
  holdq : Option Nat := none
  deriving DecidableEq, Repr, Inhabited

/-- A held exchange frame (R174); a poison frame has `poison` set and no words. -/
structure XFrame where
  src : Nat
  dst : Nat
  slot : Nat
  quire : Nat
  att : Nat
  nwords : Nat
  words : List Word
  poison : Bool
  deriving DecidableEq, Repr

/-- A frame that has come, received or relayed (R176); QUIRE has 13 bits. -/
structure SeenFrame where
  quire : Nat
  src : Nat
  dst : Nat
  slot : Nat
  att : Nat
  deriving DecidableEq, Repr

/-- The quire state of a region that no register holds. -/
structure Region where
  /-- Number of the computation in progress; leaves may execute in it while `live`. -/
  comp : Nat := 0
  live : Bool := false
  fails : List Fail := []
  caps : List Capture := []
  tokens : List Token := []
  finals : List Token := []
  frames : List XFrame := []
  /-- Frames that have come, of the quires still to be voted on. -/
  seen : List SeenFrame := []
  desc : BitVec 512 := 0
  /-- Hinge channels kept while the far region is UNBOUND (R366). -/
  kept : Sparse HingeIn := {}
  /-- Paused at a commit edge for a change of operating point (R434). -/
  paused : Bool := false
  /-- A pause is asked for at the next commit edge (R434). -/
  pauseReq : Bool := false
  /-- While paused: the quire to open, and whether it captures its inputs afresh. -/
  next : Nat := 0
  nextFresh : Bool := true
  /-- A commit point was reached with a token or frame missing (R25, R176). -/
  waiting : Bool := false
  /-- A REPLAY vote or a RETRY was taken, and the recomputed quire has not committed yet (R34). -/
  recomputes : Bool := false
  /-- From a commit edge to the capture that follows it: the region's output pads and their levels before that edge. -/
  shown : Option (BitVec 192 × BitVec 192) := none
  /-- ANCHOR of the image that the region holds (R422). -/
  anchor : Nat := 0
  /-- CASE_GAP of the casing-in in progress (R367). -/
  caseGap : Nat := 0
  deriving DecidableEq, Repr, Inhabited

/-- The array. -/
structure ArrayState where
  cells : Sparse Cell := {}
  gths : Sparse Gth := {}
  regions : Sparse Region := {}
  /-- XRELAY entries, 4,096 (R171). -/
  relay : Sparse (BitVec 32) := {}
  deriving DecidableEq, Repr, Inhabited

end Sys2Proof.Machine
end

