-- ==== Sys2Proof/Machine/Flags.lean ====
section
/-!
DEFINITION. Residues and every flag computation of the cell and core opcodes (R68, R81 to R91, R148, R222, R231).
-/
namespace Sys2Proof.Machine

/-! ### Residue codes (R68) -/

/-- The code of a number modulo 3. -/
def resCode (n : Nat) : BitVec 2 := BitVec.ofNat 2 (n % 3)

/-- The code of the value that `n` stands for, where a sum may be negative. -/
def resCodeInt (n : Int) : BitVec 2 := BitVec.ofNat 2 (n % 3).toNat

/-- The code that is never valid. -/
def badRes : BitVec 2 := 3#2

/-- A word with the residue generated from its data. -/
def gen (d : Word) : RWord := ⟨d, resCode d.toNat⟩

/-- The check of a word's carried code. -/
def RWord.ok (w : RWord) : Bool := w.r == resCode w.d.toNat

/-- A queue pointer with the residue of its value, and the check of its carried code (R28, R69). -/
def mkPtr (p : Nat) : QPtr := ⟨p, resCode p⟩

def QPtr.ok (q : QPtr) : Bool := q.r == resCode q.p

def FlagSet.bits (f : FlagSet) : Nat := f.c.toNat * 8 + f.z.toNat * 4 + f.n.toNat * 2 + f.v.toNat

def FlagSet.ok (f : FlagSet) : Bool := f.r == resCode f.bits

def mkFlags (c z n v : Bool) : FlagSet :=
  let f : FlagSet := { c, z, n, v }
  { f with r := resCode f.bits }

/-- The flag set as a source word (R63). -/
def FlagSet.word (f : FlagSet) : RWord := ⟨BitVec.ofNat 40 f.bits, f.r⟩

/-- Four parity bits, one for each ten data bits (R128). -/
def parity4 (d : Word) : BitVec 4 :=
  (List.range 4).foldl (fun p j =>
    if (List.range 10).foldl (fun b i => b != d.getLsbD (10 * j + i)) false then p ||| (1#4 <<< j) else p) 0#4

/-- A stored word of 44 bits with good parity: data in bits 39:0. -/
def store44 (d : Word) : BitVec 44 := d.setWidth 44 ||| ((parity4 d).setWidth 44 <<< 40)

/-- A stored word with all four parity bits inverted. -/
def store44Bad (d : Word) : BitVec 44 := d.setWidth 44 ||| ((~~~(parity4 d)).setWidth 44 <<< 40)

def data44 (w : BitVec 44) : Word := w.setWidth 40

/-- The slices whose parity fails. -/
def badSlices (w : BitVec 44) : BitVec 4 := (w.extractLsb' 40 4) ^^^ parity4 (data44 w)

/-! ### The adder (R81 to R83) -/

/-- The 41-bit sum. -/
def sum41 (a b : Word) (cin : Bool) : BitVec 41 := a.setWidth 41 + b.setWidth 41 + (if cin then 1 else 0)

def sumOf (a b : Word) (cin : Bool) : Word := (sum41 a b cin).setWidth 40
def coutOf (a b : Word) (cin : Bool) : Bool := (sum41 a b cin).getLsbD 40

/-- V of A + B. -/
def addV (a b : Word) (cin : Bool) : Bool :=
  a.getLsbD 39 == b.getLsbD 39 && (sumOf a b cin).getLsbD 39 != a.getLsbD 39

/-- V of A + NOT B: A and B differ in sign, and so do S and A. -/
def subV (a b : Word) (cin : Bool) : Bool :=
  a.getLsbD 39 != b.getLsbD 39 && (sumOf a (~~~b) cin).getLsbD 39 != a.getLsbD 39

def zOf (d : Word) : Bool := d == 0
def nOf (d : Word) : Bool := d.getLsbD 39

/-- The flags of A + B + cin. -/
def addFlags (a b : Word) (cin : Bool) : FlagSet :=
  mkFlags (coutOf a b cin) (zOf (sumOf a b cin)) (nOf (sumOf a b cin)) (addV a b cin)

/-- The flags of A + NOT B + cin. -/
def subFlags (a b : Word) (cin : Bool) : FlagSet :=
  mkFlags (coutOf a (~~~b) cin) (zOf (sumOf a (~~~b) cin)) (nOf (sumOf a (~~~b) cin)) (subV a b cin)

/-- The predicted residue of a sum, and of a difference: (ra ± rb + cin − cout) mod 3. -/
def predAdd (a b : RWord) (cin : Bool) : BitVec 2 :=
  resCodeInt (a.r.toNat + b.r.toNat + cin.toNat - (coutOf a.d b.d cin).toNat)

def predSub (a b : RWord) (cin : Bool) : BitVec 2 :=
  resCodeInt ((a.r.toNat : Int) - b.r.toNat + cin.toNat - (coutOf a.d (~~~b.d) cin).toNat)

/-- The flags with Z and N of a result, C and V kept. -/
def FlagSet.withZN (f : FlagSet) (d : Word) : FlagSet := mkFlags f.c (zOf d) (nOf d) f.v

def FlagSet.withCZN (f : FlagSet) (c : Bool) (d : Word) : FlagSet := mkFlags c (zOf d) (nOf d) f.v

/-! ### Shifts and fields (R89); the C of a shift is the last bit out -/

def shlWord (a : Word) (s : Nat) : Word := if s < 40 then a <<< s else 0
def shrWord (a : Word) (s : Nat) : Word := if s < 40 then a >>> s else 0
def sarWord (a : Word) (s : Nat) : Word := if s < 40 then a.sshiftRight s else (if a.getLsbD 39 then -1 else 0)
def rolWord (a : Word) (s : Nat) : Word := a.rotateLeft (s % 40)

def shlC (a : Word) (s : Nat) : Bool := if s = 0 then false else if s ≤ 40 then a.getLsbD (40 - s) else false
def shrC (a : Word) (s : Nat) : Bool := if s = 0 then false else if s ≤ 40 then a.getLsbD (s - 1) else false
def sarC (a : Word) (s : Nat) : Bool :=
  if s = 0 then false else if s < 40 then a.getLsbD (s - 1) else a.getLsbD 39
def rolC (a : Word) (s : Nat) : Bool := if s % 40 = 0 then false else (rolWord a s).getLsbD 0

/-- `w` ones. -/
def onesWord (w : Nat) : Word := BitVec.ofNat 40 (2 ^ w - 1)

def extWord (a : Word) (s w : Nat) : Word := if s < 40 then (a >>> s) &&& onesWord w else 0

def extsWord (a : Word) (s w : Nat) : Word :=
  let e := extWord a s w
  if e.getLsbD (w - 1) then e ||| ~~~(onesWord w) else e

/-- B with bits min(s + w, 40) − 1 to s replaced by the low bits of A. -/
def insWord (a b : Word) (s w : Nat) : Word :=
  if s < 40 then
    let m := onesWord w <<< s
    (b &&& ~~~m) ||| ((a <<< s) &&& m)
  else b

/-- Bits 79:40 of ({A, B} << s). -/
def fshWord (a b : Word) (s : Nat) : Word := ((a ++ b : BitVec 80) <<< s).extractLsb' 40 40

/-! ### Select and reduction (R90, R91) -/

def lut3Word (imm a b c : Word) : Word :=
  (List.range 40).foldl (fun r i =>
    if imm.getLsbD (4 * (a.getLsbD i).toNat + 2 * (b.getLsbD i).toNat + (c.getLsbD i).toNat) then
      r ||| (1#40 <<< i) else r) 0#40

def bool40 (b : Bool) : Word := if b then 1 else 0

def onesCount (d : Word) : Nat := (List.range 40).foldl (fun n i => n + (d.getLsbD i).toNat) 0

/-- Zeros from bit 39 downward, 40 for zero. -/
def leadZeros (d : Word) : Nat := (((List.range 40).find? fun i => d.getLsbD (39 - i))).getD 40

/-- Zeros from bit 0 upward, 40 for zero. -/
def trailZeros (d : Word) : Nat := ((List.range 40).find? fun i => d.getLsbD i).getD 40

/-- Bits below bit 39 that equal bit 39 before the first that differs (R223). -/
def redundantSigns (d : Word) : Nat := leadZeros (if d.getLsbD 39 then ~~~d else d) - 1

/-! ### Rounding (R148) -/

/-- floor(v / 2^s) rounded half to even. -/
def roundShift (v : Int) (s : Nat) : Int :=
  let p : Int := 2 ^ s
  let q := v / p
  let r := v - q * p
  if s = 0 then q
  else
    let half : Int := 2 ^ (s - 1)
    if r > half ∨ (r = half ∧ q % 2 ≠ 0) then q + 1 else q

end Sys2Proof.Machine
end

