-- ==== Sys2Proof/Config.lean ====
section
/-!
DEFINITION. What the spec leaves open: the free values. They are opaque, so no proof can see what they are.
-/
namespace Sys2Proof.Config

/-- The `n`-th free value drawn (log entry 1), `w` bits. -/
opaque freeBits (w : Nat) : Nat → BitVec w

/-- The signature that a device key makes over a message with the given one-time index (R407, R418): the keys are
secret and no rule gives them, so nothing is known of the bytes. -/
opaque signature (key : Nat) : Nat → List Byte → List Byte

/-- Equaliser steps from the middle of a lane's range to its end (R463): no rule states the range. -/
opaque eqRange : Nat

/-- The bytes of a target's provisioned ID, characteristics and length limits (R484): no rule states them (log entry 18). -/
opaque busByte (t : BusTarget) (ccc byte : Nat) : Byte

end Sys2Proof.Config
end

