-- ==== Sys2Proof/Machine/Regs.lean ====
section
/-!
DEFINITION. The register map of BAR0 (R8, R9, R272 and the register tables of every chapter): one constructor of
`RegId` per register table of the spec, one `Field` per row of such a table (place, access code, reset value, the
events it survives), and the offset of every register. Where a reset value is not a number of the spec's table,
the value here is the one the assumption log names.
-/
namespace Sys2Proof.Machine

/-- The access codes of R8. -/
inductive Access where
  | ro | rw | wo | w1c | w1s | rc | rwl
  deriving DecidableEq, Repr

/-- The clock or power domain whose loss resets a register (the D of R9). -/
inductive RegDomain where
  | hub | mem | ao | quadrant
  deriving DecidableEq, Repr

/-- One constructor per register table of the spec; arrays of registers are told apart by an index. -/
inductive RegId where
  | hubId | hubB2win | hubReset | hubBoot | hubBootpol | hubBrsel
  | hubBrdata | hubHqCfg | hubHqSq | hubHqAq | hubHqRq | hubHqXq
  | hubHqXstg | hubHqStat | hubDbSqt | hubDbAqh | hubDbRqh | hubDbXqh
  | hubMsixTbl | hubMsixPba | colCtl | colStatus | colAffHold | colLedger
  | colDlCfg | colFn | colEv | colTim | colLock | colStrCfg
  | colStrStat | colTskCfg | colTskCores | colStrAcc | colStrRet | colStrRsb
  | colStrHoles | spnErr | spnTrcCtl | spnTrcAddr | spnTrcDlo | spnTrcDhi
  | spnSta | spnRg | spnPrbCfg | spnPrbMatch | spnPrbMask | spnPrbCnt
  | memStat | memScrub | memRetrain | memRetire | memSecclr | memPart
  | memChStat | bndCtl | bndSrc | bndCmd | bndStat | bndCase
  | bndLimit | bndHash | qctCfg | qctCommitted | qctExec | qctStatus
  | qctReplays | qctStretch | qctFault | qctTokenTo | qctCtl | qctHold
  | qctRbSel | qctRbDst | qctRbStat | qctBmkCtl | qctBmkDst | qctBmkStat
  | qctBmkSize | qctBmkValid | qctCadPat | qctCadLen | fstSys | fstSysmask
  | fstTiming | fstBound | fstPortCfg | fstPortStat | fstPortMap | fstPortErr
  | fstSpare | fstRoute | pwrDom | clkAclk | pwrVarr | clkStat
  | pwrStatus | pwrWakecfg | pwrWake | pwrAotmr | pwrAotemp | timSpine
  | timUncert | timCal | timAdj | logCtl | logAddr | logDlo
  | logDhi | truAnchorStat | truAnchorHash | truOtpdata | truOtpcmd | truIdstat
  | truAttNonce | truAttCmd | truAttStat | mtrStat | mtrSeq | mtrParam
  | mtrAudit | mtrRg | upkEng | upkTemp | upkCur | upkColmap
  | upkColrep | upkColrepDst | upkLane | padBank | padHold | padI3c
  | awlCtl | awlStat | awlFault | awlMaddr | awlMdata | gthCfg
  | gthDchk | gthFerr | gthQdesc | gthQwm | gthQptr | gthCrc
  deriving DecidableEq, Repr

/-- One field of a register, `w` bits at `lo`: its access code, reset value and the events it survives (R9), as the
bits N 16, H 8, W 4, D 2, Q 1. -/
structure Field (w : Nat) where
  reg : RegId
  lo : Nat
  acc : Access
  rst : Nat
  surv : Nat
  deriving DecidableEq, Repr

/-- A field with its width forgotten. -/
structure FieldRow where
  width : Nat
  lo : Nat
  acc : Access
  rst : Nat
  surv : Nat
  deriving DecidableEq, Repr

def Field.row {w : Nat} (f : Field w) : FieldRow := ⟨w, f.lo, f.acc, f.rst, f.surv⟩

namespace F

-- HUB_ID (00_scope.md R3)
def hubId_sealed : Field 1 := ⟨.hubId, 34, .ro, 1, 16⟩
def hubId_grade : Field 2 := ⟨.hubId, 32, .ro, 0, 16⟩
def hubId_sirev_maj : Field 4 := ⟨.hubId, 28, .ro, 1, 16⟩
def hubId_sirev_min : Field 4 := ⟨.hubId, 24, .ro, 0, 16⟩
def hubId_family : Field 8 := ⟨.hubId, 16, .ro, 0x01, 16⟩
def hubId_device : Field 16 := ⟨.hubId, 0, .ro, 0x2410, 16⟩

-- HUB_B2WIN (09_host_interface.md R284)
def hubB2win_sbase : Field 11 := ⟨.hubB2win, 32, .rw, 0, 1⟩
def hubB2win_wbase : Field 14 := ⟨.hubB2win, 0, .rw, 0, 1⟩

-- HUB_RESET (18_start_and_reset.md R460)
def hubReset_warm : Field 1 := ⟨.hubReset, 0, .wo, 0, 0⟩

-- HUB_BOOT (18_start_and_reset.md R460)
def hubBoot_bootnum : Field 32 := ⟨.hubBoot, 16, .ro, 0, 3⟩
def hubBoot_kind : Field 4 := ⟨.hubBoot, 12, .ro, 0, 3⟩
def hubBoot_step : Field 4 := ⟨.hubBoot, 8, .ro, 0, 3⟩
def hubBoot_fail_ev : Field 1 := ⟨.hubBoot, 7, .w1c, 0, 3⟩
def hubBoot_state : Field 2 := ⟨.hubBoot, 0, .ro, 0, 3⟩

-- HUB_BOOTPOL (18_start_and_reset.md R460)
def hubBootpol_rej : Field 1 := ⟨.hubBootpol, 63, .w1c, 0, 1⟩
def hubBootpol_save : Field 1 := ⟨.hubBootpol, 62, .wo, 0, 0⟩
def hubBootpol_warmload : Field 1 := ⟨.hubBootpol, 2, .rw, 1, 31⟩
def hubBootpol_s11skip : Field 1 := ⟨.hubBootpol, 1, .rw, 0, 31⟩
def hubBootpol_s7skip : Field 1 := ⟨.hubBootpol, 0, .rw, 1, 31⟩

-- HUB_BRSEL (18_start_and_reset.md R460)
def hubBrsel_index : Field 6 := ⟨.hubBrsel, 0, .rw, 0, 3⟩

-- HUB_BRDATA (18_start_and_reset.md R460)
def hubBrdata_data : Field 64 := ⟨.hubBrdata, 0, .ro, 0, 31⟩

-- HUB_HQ_CFG (09_host_interface.md R281)
def hubHqCfg_xqvec : Field 11 := ⟨.hubHqCfg, 46, .rw, 0, 1⟩
def hubHqCfg_rqvec : Field 11 := ⟨.hubHqCfg, 35, .rw, 0, 1⟩
def hubHqCfg_aqvec : Field 11 := ⟨.hubHqCfg, 24, .rw, 0, 1⟩
def hubHqCfg_itr_us : Field 8 := ⟨.hubHqCfg, 16, .rw, 0, 1⟩
def hubHqCfg_log2n : Field 5 := ⟨.hubHqCfg, 11, .rw, 4, 1⟩
def hubHqCfg_err : Field 3 := ⟨.hubHqCfg, 8, .ro, 0, 1⟩
def hubHqCfg_stop : Field 1 := ⟨.hubHqCfg, 7, .ro, 0, 1⟩
def hubHqCfg_xen : Field 1 := ⟨.hubHqCfg, 6, .rw, 0, 1⟩
def hubHqCfg_en : Field 1 := ⟨.hubHqCfg, 5, .rw, 0, 1⟩
def hubHqCfg_fn : Field 5 := ⟨.hubHqCfg, 0, .rw, 0, 1⟩

-- HUB_HQ_SQ (09_host_interface.md R281)
def hubHqSq_addr : Field 52 := ⟨.hubHqSq, 12, .rw, 0, 1⟩

-- HUB_HQ_AQ (09_host_interface.md R281)
def hubHqAq_addr : Field 52 := ⟨.hubHqAq, 12, .rw, 0, 1⟩

-- HUB_HQ_RQ (09_host_interface.md R281)
def hubHqRq_addr : Field 52 := ⟨.hubHqRq, 12, .rw, 0, 1⟩

-- HUB_HQ_XQ (09_host_interface.md R281)
def hubHqXq_addr : Field 52 := ⟨.hubHqXq, 12, .rw, 0, 1⟩

-- HUB_HQ_XSTG (09_host_interface.md R281)
def hubHqXstg_base : Field 34 := ⟨.hubHqXstg, 4, .rw, 0, 1⟩

-- HUB_HQ_STAT (09_host_interface.md R281)
def hubHqStat_xqtail : Field 16 := ⟨.hubHqStat, 48, .ro, 0, 1⟩
def hubHqStat_rqtail : Field 16 := ⟨.hubHqStat, 32, .ro, 0, 1⟩
def hubHqStat_aqtail : Field 16 := ⟨.hubHqStat, 16, .ro, 0, 1⟩
def hubHqStat_sqhead : Field 16 := ⟨.hubHqStat, 0, .ro, 0, 1⟩

-- HUB_DB_SQT (09_host_interface.md R282)
def hubDbSqt_index : Field 16 := ⟨.hubDbSqt, 0, .rw, 0, 1⟩

-- HUB_DB_AQH (09_host_interface.md R282)
def hubDbAqh_index : Field 16 := ⟨.hubDbAqh, 0, .rw, 0, 1⟩

-- HUB_DB_RQH (09_host_interface.md R282)
def hubDbRqh_index : Field 16 := ⟨.hubDbRqh, 0, .rw, 0, 1⟩

-- HUB_DB_XQH (09_host_interface.md R282)
def hubDbXqh_index : Field 16 := ⟨.hubDbXqh, 0, .rw, 0, 1⟩

-- HUB_MSIX_TBL (09_host_interface.md R273)

-- HUB_MSIX_PBA (09_host_interface.md R273)

-- COL_CTL (08_collator.md R266)
def colCtl_lock_to_us : Field 24 := ⟨.colCtl, 24, .rw, 0, 15⟩
def colCtl_yield_cyc : Field 16 := ⟨.colCtl, 8, .rw, 256, 15⟩
def colCtl_fault_max : Field 4 := ⟨.colCtl, 0, .rw, 3, 15⟩

-- COL_STATUS (08_collator.md R266)
def colStatus_stall_ev : Field 1 := ⟨.colStatus, 49, .w1c, 0, 1⟩
def colStatus_rej : Field 1 := ⟨.colStatus, 48, .w1c, 0, 1⟩
def colStatus_dlfull : Field 24 := ⟨.colStatus, 24, .rc, 0, 1⟩
def colStatus_deadlocks : Field 24 := ⟨.colStatus, 0, .rc, 0, 1⟩

-- COL_AFF_HOLD (08_collator.md R266)
def colAffHold_hold : Field 10 := ⟨.colAffHold, 0, .rw, 128, 15⟩

-- COL_LEDGER (10_catchwords_and_ledger.md R307)
def colLedger_remir_ev : Field 1 := ⟨.colLedger, 57, .w1c, 0, 15⟩
def colLedger_remir : Field 1 := ⟨.colLedger, 56, .ro, 0, 15⟩
def colLedger_openrng : Field 13 := ⟨.colLedger, 43, .ro, 0, 31⟩
def colLedger_ams : Field 17 := ⟨.colLedger, 26, .ro, 0, 31⟩
def colLedger_used : Field 25 := ⟨.colLedger, 0, .ro, 0, 15⟩

-- COL_DL_CFG (08_collator.md R266)
def colDlCfg_used : Field 23 := ⟨.colDlCfg, 41, .ro, 0, 1⟩
def colDlCfg_cap : Field 23 := ⟨.colDlCfg, 18, .rw, 1048576, 15⟩
def colDlCfg_tick : Field 17 := ⟨.colDlCfg, 0, .rw, 100, 15⟩

-- COL_FN (08_collator.md R266)
def colFn_maxlvl : Field 3 := ⟨.colFn, 0, .rw, 5, 15⟩

-- COL_EV (08_collator.md R266)
def colEv_raises : Field 24 := ⟨.colEv, 24, .rc, 0, 1⟩
def colEv_pend : Field 1 := ⟨.colEv, 16, .ro, 0, 1⟩
def colEv_en : Field 1 := ⟨.colEv, 15, .rw, 0, 15⟩
def colEv_stream : Field 12 := ⟨.colEv, 0, .rw, 0, 15⟩

-- COL_TIM (08_collator.md R266)
def colTim_interval : Field 24 := ⟨.colTim, 16, .rw, 0, 15⟩
def colTim_miss : Field 1 := ⟨.colTim, 4, .w1c, 0, 1⟩
def colTim_list : Field 2 := ⟨.colTim, 2, .rw, 0, 15⟩
def colTim_periodic : Field 1 := ⟨.colTim, 1, .rw, 0, 15⟩
def colTim_en : Field 1 := ⟨.colTim, 0, .rw, 0, 15⟩

-- COL_LOCK (08_collator.md R266)
def colLock_waiters : Field 10 := ⟨.colLock, 18, .ro, 0, 1⟩
def colLock_hlvl : Field 3 := ⟨.colLock, 15, .ro, 0, 1⟩
def colLock_hcore : Field 6 := ⟨.colLock, 9, .ro, 0, 1⟩
def colLock_held : Field 1 := ⟨.colLock, 8, .ro, 0, 1⟩
def colLock_owner : Field 5 := ⟨.colLock, 0, .rw, 0, 15⟩

-- COL_STR_CFG (08_collator.md R266)
def colStrCfg_owner : Field 5 := ⟨.colStrCfg, 32, .rw, 0, 15⟩
def colStrCfg_task : Field 14 := ⟨.colStrCfg, 16, .rw, 0, 15⟩
def colStrCfg_limit : Field 7 := ⟨.colStrCfg, 8, .rw, 1, 15⟩
def colStrCfg_kind : Field 1 := ⟨.colStrCfg, 7, .rw, 0, 15⟩
def colStrCfg_prio : Field 3 := ⟨.colStrCfg, 4, .rw, 0, 15⟩
def colStrCfg_priosrc : Field 1 := ⟨.colStrCfg, 3, .rw, 0, 15⟩
def colStrCfg_class : Field 2 := ⟨.colStrCfg, 1, .rw, 0, 15⟩
def colStrCfg_en : Field 1 := ⟨.colStrCfg, 0, .rw, 0, 15⟩

-- COL_STR_STAT (08_collator.md R266)
def colStrStat_cancel : Field 1 := ⟨.colStrStat, 55, .wo, 0, 0⟩
def colStrStat_resume : Field 1 := ⟨.colStrStat, 54, .wo, 0, 0⟩
def colStrStat_faults : Field 4 := ⟨.colStrStat, 48, .ro, 0, 1⟩
def colStrStat_lcvalid : Field 1 := ⟨.colStrStat, 47, .ro, 0, 1⟩
def colStrStat_lastcore : Field 6 := ⟨.colStrStat, 40, .ro, 0, 1⟩
def colStrStat_queued : Field 24 := ⟨.colStrStat, 16, .ro, 0, 1⟩
def colStrStat_inflight : Field 7 := ⟨.colStrStat, 8, .ro, 0, 1⟩
def colStrStat_state : Field 3 := ⟨.colStrStat, 0, .ro, 0, 1⟩

-- COL_TSK_CFG (08_collator.md R266)
def colTskCfg_owner : Field 5 := ⟨.colTskCfg, 32, .rw, 0, 15⟩
def colTskCfg_dlist : Field 2 := ⟨.colTskCfg, 16, .rw, 0, 15⟩
def colTskCfg_en : Field 1 := ⟨.colTskCfg, 15, .rw, 0, 15⟩
def colTskCfg_entry : Field 15 := ⟨.colTskCfg, 0, .rw, 0, 15⟩

-- COL_TSK_CORES (08_collator.md R266)
def colTskCores_cores : Field 64 := ⟨.colTskCores, 0, .rw, 0, 15⟩

-- COL_STR_ACC (10_catchwords_and_ledger.md R307)
def colStrAcc_acc : Field 40 := ⟨.colStrAcc, 0, .rw, 0, 31⟩

-- COL_STR_RET (10_catchwords_and_ledger.md R307)
def colStrRet_ret : Field 40 := ⟨.colStrRet, 0, .ro, 0, 31⟩

-- COL_STR_RSB (10_catchwords_and_ledger.md R307)
def colStrRsb_abandon : Field 1 := ⟨.colStrRsb, 63, .wo, 0, 0⟩
def colStrRsb_open : Field 1 := ⟨.colStrRsb, 62, .ro, 0, 31⟩
def colStrRsb_repq : Field 6 := ⟨.colStrRsb, 56, .rw, 0, 31⟩
def colStrRsb_first : Field 40 := ⟨.colStrRsb, 0, .ro, 0, 31⟩

-- COL_STR_HOLES (10_catchwords_and_ledger.md R307)
def colStrHoles_count : Field 25 := ⟨.colStrHoles, 0, .ro, 0, 31⟩

-- SPN_ERR (11_spine_rings.md R330)
def spnErr_hcrc : Field 16 := ⟨.spnErr, 48, .rc, 0, 1⟩
def spnErr_pcrc : Field 16 := ⟨.spnErr, 32, .rc, 0, 1⟩
def spnErr_resend : Field 16 := ⟨.spnErr, 16, .rc, 0, 1⟩

-- SPN_TRC_CTL (11_spine_rings.md R330)
def spnTrcCtl_stopfull : Field 1 := ⟨.spnTrcCtl, 13, .rw, 0, 5⟩
def spnTrcCtl_wrap : Field 1 := ⟨.spnTrcCtl, 12, .ro, 0, 1⟩
def spnTrcCtl_wptr : Field 12 := ⟨.spnTrcCtl, 0, .ro, 0, 1⟩

-- SPN_TRC_ADDR (11_spine_rings.md R330)
def spnTrcAddr_addr : Field 12 := ⟨.spnTrcAddr, 0, .rw, 0, 1⟩

-- SPN_TRC_DLO (11_spine_rings.md R330)
def spnTrcDlo_data : Field 64 := ⟨.spnTrcDlo, 0, .ro, 0, 1⟩

-- SPN_TRC_DHI (11_spine_rings.md R330)
def spnTrcDhi_data : Field 64 := ⟨.spnTrcDhi, 0, .ro, 0, 1⟩

-- SPN_STA (11_spine_rings.md R330)
def spnSta_rej : Field 1 := ⟨.spnSta, 7, .w1c, 0, 1⟩
def spnSta_deny : Field 1 := ⟨.spnSta, 6, .ro, 0, 1⟩
def spnSta_byp : Field 1 := ⟨.spnSta, 2, .rw, 0, 5⟩
def spnSta_state : Field 2 := ⟨.spnSta, 0, .ro, 0, 1⟩

-- SPN_RG (11_spine_rings.md R330)
def spnRg_tokens : Field 8 := ⟨.spnRg, 40, .ro, 0, 1⟩
def spnRg_burst : Field 6 := ⟨.spnRg, 16, .rw, 8, 5⟩
def spnRg_rate : Field 11 := ⟨.spnRg, 0, .rw, 128, 5⟩

-- SPN_PRB_CFG (11_spine_rings.md R330)
def spnPrbCfg_rej : Field 1 := ⟨.spnPrbCfg, 55, .w1c, 0, 1⟩
def spnPrbCfg_ev : Field 1 := ⟨.spnPrbCfg, 54, .w1c, 0, 1⟩
def spnPrbCfg_thresh : Field 22 := ⟨.spnPrbCfg, 32, .rw, 0, 5⟩
def spnPrbCfg_mode : Field 3 := ⟨.spnPrbCfg, 8, .rw, 0, 5⟩
def spnPrbCfg_ring : Field 2 := ⟨.spnPrbCfg, 5, .rw, 0, 5⟩
def spnPrbCfg_station : Field 5 := ⟨.spnPrbCfg, 0, .rw, 0, 5⟩

-- SPN_PRB_MATCH (11_spine_rings.md R330)
def spnPrbMatch_value : Field 64 := ⟨.spnPrbMatch, 0, .rw, 0, 5⟩

-- SPN_PRB_MASK (11_spine_rings.md R330)
def spnPrbMask_value : Field 64 := ⟨.spnPrbMask, 0, .rw, 0, 5⟩

-- SPN_PRB_CNT (11_spine_rings.md R330)
def spnPrbCnt_cnt : Field 48 := ⟨.spnPrbCnt, 0, .rc, 0, 1⟩

-- MEM_STAT (12_memory.md R349)
def memStat_usable : Field 13 := ⟨.memStat, 16, .ro, 4096, 31⟩
def memStat_retired_v : Field 1 := ⟨.memStat, 15, .ro, 0, 31⟩
def memStat_retired : Field 4 := ⟨.memStat, 11, .ro, 0, 31⟩
def memStat_mig : Field 1 := ⟨.memStat, 10, .ro, 0, 31⟩
def memStat_speed : Field 1 := ⟨.memStat, 0, .ro, 0, 3⟩

-- MEM_SCRUB (12_memory.md R349)
def memScrub_passes : Field 16 := ⟨.memScrub, 48, .rc, 0, 1⟩
def memScrub_pos : Field 30 := ⟨.memScrub, 18, .ro, 0, 1⟩
def memScrub_period_h : Field 8 := ⟨.memScrub, 1, .rw, 24, 5⟩
def memScrub_en : Field 1 := ⟨.memScrub, 0, .rw, 1, 5⟩

-- MEM_RETRAIN (12_memory.md R349)
def memRetrain_failstep : Field 16 := ⟨.memRetrain, 48, .rc, 0, 1⟩
def memRetrain_steps : Field 16 := ⟨.memRetrain, 32, .rc, 0, 1⟩
def memRetrain_period_ms : Field 16 := ⟨.memRetrain, 5, .rw, 1000, 5⟩
def memRetrain_en : Field 1 := ⟨.memRetrain, 0, .rw, 1, 5⟩

-- MEM_RETIRE (12_memory.md R349)
def memRetire_rej : Field 1 := ⟨.memRetire, 63, .w1c, 0, 1⟩
def memRetire_migu : Field 26 := ⟨.memRetire, 22, .ro, 0, 31⟩
def memRetire_go : Field 1 := ⟨.memRetire, 5, .wo, 0, 0⟩
def memRetire_ch : Field 4 := ⟨.memRetire, 0, .rw, 0, 5⟩

-- MEM_SECCLR (12_memory.md R349)
def memSecclr_rej : Field 1 := ⟨.memSecclr, 63, .w1c, 0, 1⟩
def memSecclr_sector : Field 30 := ⟨.memSecclr, 0, .wo, 0, 0⟩

-- MEM_PART (12_memory.md R349)
def memPart_rej : Field 1 := ⟨.memPart, 63, .w1c, 0, 1⟩
def memPart_size : Field 13 := ⟨.memPart, 16, .rw, 0, 31⟩
def memPart_base : Field 13 := ⟨.memPart, 0, .rw, 0, 31⟩

-- MEM_CH_STAT (12_memory.md R349)
def memChStat_failrd : Field 16 := ⟨.memChStat, 48, .rc, 0, 1⟩
def memChStat_recov : Field 16 := ⟨.memChStat, 32, .rc, 0, 1⟩
def memChStat_reread : Field 16 := ⟨.memChStat, 16, .rc, 0, 1⟩
def memChStat_state : Field 2 := ⟨.memChStat, 0, .ro, 0, 1⟩

-- BND_CTL (13_binding_images.md R373)
def bndCtl_stream_to_ms : Field 16 := ⟨.bndCtl, 8, .rw, 100, 5⟩
def bndCtl_rej : Field 1 := ⟨.bndCtl, 0, .w1c, 0, 1⟩

-- BND_SRC (13_binding_images.md R373)
def bndSrc_addr : Field 64 := ⟨.bndSrc, 0, .rw, 0, 1⟩

-- BND_CMD (13_binding_images.md R373)
def bndCmd_len : Field 30 := ⟨.bndCmd, 32, .rw, 0, 1⟩
def bndCmd_free : Field 1 := ⟨.bndCmd, 9, .wo, 0, 0⟩
def bndCmd_slot : Field 1 := ⟨.bndCmd, 8, .rw, 0, 1⟩
def bndCmd_srcsel : Field 2 := ⟨.bndCmd, 6, .rw, 0, 1⟩
def bndCmd_repair : Field 1 := ⟨.bndCmd, 5, .rw, 0, 1⟩
def bndCmd_autocase : Field 1 := ⟨.bndCmd, 4, .rw, 1, 1⟩
def bndCmd_casein : Field 1 := ⟨.bndCmd, 3, .wo, 0, 0⟩
def bndCmd_abort : Field 1 := ⟨.bndCmd, 2, .wo, 0, 0⟩
def bndCmd_go : Field 1 := ⟨.bndCmd, 0, .wo, 0, 0⟩

-- BND_STAT (13_binding_images.md R373)
def bndStat_rej : Field 1 := ⟨.bndStat, 63, .w1c, 0, 1⟩
def bndStat_fail_ev : Field 1 := ⟨.bndStat, 62, .w1c, 0, 1⟩
def bndStat_done_ev : Field 1 := ⟨.bndStat, 61, .w1c, 0, 1⟩
def bndStat_frames : Field 24 := ⟨.bndStat, 16, .ro, 0, 1⟩
def bndStat_code : Field 8 := ⟨.bndStat, 8, .ro, 0, 1⟩
def bndStat_state : Field 3 := ⟨.bndStat, 0, .ro, 0, 1⟩

-- BND_CASE (13_binding_images.md R373)
def bndCase_stage : Field 2 := ⟨.bndCase, 8, .ro, 0, 1⟩
def bndCase_gap : Field 8 := ⟨.bndCase, 0, .rw, 4, 5⟩

-- BND_LIMIT (13_binding_images.md R373)
def bndLimit_rej : Field 1 := ⟨.bndLimit, 63, .w1c, 0, 1⟩
def bndLimit_banks : Field 8 := ⟨.bndLimit, 24, .rw, 0, 5⟩
def bndLimit_qmask : Field 4 := ⟨.bndLimit, 20, .rw, 0, 5⟩
def bndLimit_gy1 : Field 5 := ⟨.bndLimit, 15, .rw, 0, 5⟩
def bndLimit_gy0 : Field 5 := ⟨.bndLimit, 10, .rw, 0, 5⟩
def bndLimit_gx1 : Field 5 := ⟨.bndLimit, 5, .rw, 0, 5⟩
def bndLimit_gx0 : Field 5 := ⟨.bndLimit, 0, .rw, 0, 5⟩

-- BND_HASH (13_binding_images.md R373)
def bndHash_hash : Field 64 := ⟨.bndHash, 0, .ro, 0, 1⟩

-- QCT_CFG (01_quire_model.md R44)
def qctCfg_mode : Field 1 := ⟨.qctCfg, 18, .rw, 0, 1⟩
def qctCfg_gap : Field 12 := ⟨.qctCfg, 6, .rw, 0, 1⟩
def qctCfg_len : Field 6 := ⟨.qctCfg, 0, .rw, 0, 1⟩

-- QCT_COMMITTED (01_quire_model.md R44)
def qctCommitted_count : Field 64 := ⟨.qctCommitted, 0, .ro, 0, 1⟩

-- QCT_EXEC (01_quire_model.md R44)
def qctExec_count : Field 64 := ⟨.qctExec, 0, .ro, 0, 1⟩

-- QCT_STATUS (01_quire_model.md R45)
def qctStatus_token_lost_ev : Field 1 := ⟨.qctStatus, 15, .w1c, 0, 1⟩
def qctStatus_qfault_ev : Field 1 := ⟨.qctStatus, 14, .w1c, 0, 1⟩
def qctStatus_cfg_rej : Field 1 := ⟨.qctStatus, 13, .w1c, 0, 1⟩
def qctStatus_attempt : Field 2 := ⟨.qctStatus, 8, .ro, 0, 1⟩
def qctStatus_lastvote : Field 2 := ⟨.qctStatus, 6, .ro, 0, 1⟩
def qctStatus_state : Field 3 := ⟨.qctStatus, 0, .ro, 0, 1⟩

-- QCT_REPLAYS (01_quire_model.md R45)
def qctReplays_count : Field 32 := ⟨.qctReplays, 0, .rc, 0, 1⟩

-- QCT_STRETCH (01_quire_model.md R45)
def qctStretch_cycles : Field 48 := ⟨.qctStretch, 0, .rc, 0, 1⟩

-- QCT_FAULT (01_quire_model.md R45)
def qctFault_device : Field 6 := ⟨.qctFault, 58, .ro, 0, 1⟩
def qctFault_cause : Field 6 := ⟨.qctFault, 52, .ro, 0, 1⟩
def qctFault_gth : Field 12 := ⟨.qctFault, 40, .ro, 0, 1⟩
def qctFault_quire : Field 40 := ⟨.qctFault, 0, .ro, 0, 1⟩

-- QCT_TOKEN_TO (01_quire_model.md R45)
def qctTokenTo_to_us : Field 24 := ⟨.qctTokenTo, 0, .rw, 1000, 1⟩

-- QCT_CTL (01_quire_model.md R45)
def qctCtl_inject : Field 1 := ⟨.qctCtl, 1, .wo, 0, 0⟩
def qctCtl_retry : Field 1 := ⟨.qctCtl, 0, .wo, 0, 0⟩

-- QCT_HOLD (14_readback_and_bookmarks.md R392)
def qctHold_hold : Field 1 := ⟨.qctHold, 63, .wo, 0, 0⟩
def qctHold_release : Field 1 := ⟨.qctHold, 62, .wo, 0, 0⟩
def qctHold_pend : Field 1 := ⟨.qctHold, 61, .ro, 0, 1⟩
def qctHold_quire : Field 40 := ⟨.qctHold, 0, .rw, 0, 1⟩

-- QCT_RB_SEL (14_readback_and_bookmarks.md R392)
def qctRbSel_go : Field 1 := ⟨.qctRbSel, 63, .wo, 0, 0⟩
def qctRbSel_auto : Field 1 := ⟨.qctRbSel, 62, .rw, 0, 1⟩
def qctRbSel_parts : Field 3 := ⟨.qctRbSel, 56, .rw, 0, 1⟩
def qctRbSel_qmask : Field 4 := ⟨.qctRbSel, 48, .rw, 0, 1⟩
def qctRbSel_gy1 : Field 5 := ⟨.qctRbSel, 43, .rw, 0, 1⟩
def qctRbSel_gy0 : Field 5 := ⟨.qctRbSel, 38, .rw, 0, 1⟩
def qctRbSel_gx1 : Field 5 := ⟨.qctRbSel, 33, .rw, 0, 1⟩
def qctRbSel_gx0 : Field 5 := ⟨.qctRbSel, 28, .rw, 0, 1⟩

-- QCT_RB_DST (14_readback_and_bookmarks.md R392)
def qctRbDst_sector : Field 30 := ⟨.qctRbDst, 0, .rw, 0, 1⟩

-- QCT_RB_STAT (14_readback_and_bookmarks.md R392)
def qctRbStat_rej : Field 1 := ⟨.qctRbStat, 63, .w1c, 0, 1⟩
def qctRbStat_done_ev : Field 1 := ⟨.qctRbStat, 62, .w1c, 0, 1⟩
def qctRbStat_perr : Field 1 := ⟨.qctRbStat, 61, .ro, 0, 1⟩
def qctRbStat_quire : Field 40 := ⟨.qctRbStat, 16, .ro, 0, 1⟩
def qctRbStat_code : Field 8 := ⟨.qctRbStat, 8, .ro, 0, 1⟩
def qctRbStat_state : Field 3 := ⟨.qctRbStat, 0, .ro, 0, 1⟩

-- QCT_BMK_CTL (14_readback_and_bookmarks.md R392)
def qctBmkCtl_take : Field 1 := ⟨.qctBmkCtl, 63, .wo, 0, 0⟩
def qctBmkCtl_restore : Field 1 := ⟨.qctBmkCtl, 62, .wo, 0, 0⟩
def qctBmkCtl_auto : Field 1 := ⟨.qctBmkCtl, 61, .rw, 0, 1⟩
def qctBmkCtl_full : Field 1 := ⟨.qctBmkCtl, 60, .rw, 0, 1⟩
def qctBmkCtl_slot : Field 6 := ⟨.qctBmkCtl, 48, .rw, 0, 1⟩

-- QCT_BMK_DST (14_readback_and_bookmarks.md R392)
def qctBmkDst_sector : Field 30 := ⟨.qctBmkDst, 0, .rw, 0, 1⟩

-- QCT_BMK_STAT (14_readback_and_bookmarks.md R392)
def qctBmkStat_rej : Field 1 := ⟨.qctBmkStat, 63, .w1c, 0, 1⟩
def qctBmkStat_done_ev : Field 1 := ⟨.qctBmkStat, 62, .w1c, 0, 1⟩
def qctBmkStat_rbad : Field 1 := ⟨.qctBmkStat, 61, .ro, 0, 1⟩
def qctBmkStat_lvalid : Field 1 := ⟨.qctBmkStat, 60, .ro, 0, 15⟩
def qctBmkStat_lastslot : Field 6 := ⟨.qctBmkStat, 54, .ro, 0, 15⟩
def qctBmkStat_state : Field 3 := ⟨.qctBmkStat, 51, .ro, 0, 1⟩
def qctBmkStat_quire : Field 40 := ⟨.qctBmkStat, 8, .ro, 0, 1⟩
def qctBmkStat_code : Field 8 := ⟨.qctBmkStat, 0, .ro, 0, 1⟩

-- QCT_BMK_SIZE (14_readback_and_bookmarks.md R392)
def qctBmkSize_sectors : Field 30 := ⟨.qctBmkSize, 32, .ro, 0, 1⟩
def qctBmkSize_dirtyf : Field 13 := ⟨.qctBmkSize, 16, .ro, 0, 1⟩
def qctBmkSize_dirtys : Field 13 := ⟨.qctBmkSize, 0, .ro, 0, 1⟩

-- QCT_BMK_VALID (14_readback_and_bookmarks.md R392)
def qctBmkValid_valid : Field 64 := ⟨.qctBmkValid, 0, .ro, 0, 15⟩

-- QCT_CAD_PAT (01_quire_model.md R45)
def qctCadPat_pat : Field 64 := ⟨.qctCadPat, 0, .rw, 0, 1⟩

-- QCT_CAD_LEN (01_quire_model.md R45)
def qctCadLen_len : Field 7 := ⟨.qctCadLen, 0, .rw, 0, 1⟩

-- FST_SYS (06_fuist_and_bound.md R198)
def fstSys_rej : Field 1 := ⟨.fstSys, 23, .w1c, 0, 1⟩
def fstSys_linkdown_ev : Field 1 := ⟨.fstSys, 22, .w1c, 0, 1⟩
def fstSys_syncloss_ev : Field 1 := ⟨.fstSys, 21, .w1c, 0, 1⟩
def fstSys_syncstate : Field 2 := ⟨.fstSys, 19, .ro, 0, 1⟩
def fstSys_root : Field 1 := ⟨.fstSys, 18, .rw, 0, 5⟩
def fstSys_syncport : Field 3 := ⟨.fstSys, 15, .rw, 0, 5⟩
def fstSys_altport : Field 3 := ⟨.fstSys, 12, .rw, 0, 5⟩
def fstSys_alten : Field 1 := ⟨.fstSys, 11, .rw, 0, 5⟩
def fstSys_devidx : Field 6 := ⟨.fstSys, 0, .rw, 0, 5⟩

-- FST_SYSMASK (06_fuist_and_bound.md R198)
def fstSysmask_mask : Field 64 := ⟨.fstSysmask, 0, .rw, 0, 5⟩

-- FST_TIMING (06_fuist_and_bound.md R198)
def fstTiming_diam : Field 6 := ⟨.fstTiming, 58, .ro, 0, 1⟩
def fstTiming_hopmax_ps : Field 16 := ⟨.fstTiming, 42, .ro, 0, 1⟩
def fstTiming_xlat : Field 12 := ⟨.fstTiming, 30, .ro, 0, 1⟩
def fstTiming_toklat : Field 12 := ⟨.fstTiming, 12, .ro, 0, 1⟩
def fstTiming_gfloor : Field 12 := ⟨.fstTiming, 0, .ro, 0, 1⟩

-- FST_BOUND (06_fuist_and_bound.md R198)
def fstBound_wait_to_ms : Field 24 := ⟨.fstBound, 16, .rw, 10000, 5⟩
def fstBound_pu : Field 1 := ⟨.fstBound, 11, .rw, 0, 5⟩
def fstBound_line : Field 1 := ⟨.fstBound, 10, .ro, 0, 1⟩
def fstBound_timeout_ev : Field 1 := ⟨.fstBound, 9, .w1c, 0, 1⟩
def fstBound_start_ev : Field 1 := ⟨.fstBound, 8, .w1c, 0, 1⟩
def fstBound_state : Field 3 := ⟨.fstBound, 0, .ro, 0, 1⟩

-- FST_PORT_CFG (06_fuist_and_bound.md R198)
def fstPortCfg_peerdev : Field 6 := ⟨.fstPortCfg, 10, .rw, 0, 5⟩
def fstPortCfg_peerport : Field 3 := ⟨.fstPortCfg, 7, .rw, 0, 5⟩
def fstPortCfg_dateline : Field 1 := ⟨.fstPortCfg, 4, .rw, 0, 5⟩
def fstPortCfg_test : Field 2 := ⟨.fstPortCfg, 2, .rw, 0, 5⟩
def fstPortCfg_en : Field 1 := ⟨.fstPortCfg, 0, .rw, 0, 5⟩

-- FST_PORT_STAT (06_fuist_and_bound.md R198)
def fstPortStat_hoplat_ps : Field 16 := ⟨.fstPortStat, 48, .ro, 0, 1⟩
def fstPortStat_lanedown : Field 8 := ⟨.fstPortStat, 40, .ro, 0, 1⟩
def fstPortStat_state : Field 3 := ⟨.fstPortStat, 0, .ro, 0, 1⟩

-- FST_PORT_MAP (06_fuist_and_bound.md R198)
def fstPortMap_lane0 : Field 7 := ⟨.fstPortMap, 0, .ro, 0, 31⟩
def fstPortMap_lane1 : Field 7 := ⟨.fstPortMap, 7, .ro, 0, 31⟩
def fstPortMap_lane2 : Field 7 := ⟨.fstPortMap, 14, .ro, 0, 31⟩
def fstPortMap_lane3 : Field 7 := ⟨.fstPortMap, 21, .ro, 0, 31⟩
def fstPortMap_lane4 : Field 7 := ⟨.fstPortMap, 28, .ro, 0, 31⟩
def fstPortMap_lane5 : Field 7 := ⟨.fstPortMap, 35, .ro, 0, 31⟩
def fstPortMap_lane6 : Field 7 := ⟨.fstPortMap, 42, .ro, 0, 31⟩
def fstPortMap_lane7 : Field 7 := ⟨.fstPortMap, 49, .ro, 0, 31⟩

-- FST_PORT_ERR (06_fuist_and_bound.md R198)
def fstPortErr_uncorr : Field 16 := ⟨.fstPortErr, 48, .rc, 0, 1⟩
def fstPortErr_crcf : Field 16 := ⟨.fstPortErr, 32, .rc, 0, 1⟩
def fstPortErr_resend : Field 16 := ⟨.fstPortErr, 16, .rc, 0, 1⟩
def fstPortErr_corrsym : Field 16 := ⟨.fstPortErr, 0, .rc, 0, 1⟩

-- FST_SPARE (06_fuist_and_bound.md R198)
def fstSpare_homeport : Field 3 := ⟨.fstSpare, 9, .rw, 0, 5⟩
def fstSpare_homeen : Field 1 := ⟨.fstSpare, 8, .rw, 0, 5⟩
def fstSpare_inuse : Field 1 := ⟨.fstSpare, 7, .ro, 0, 31⟩
def fstSpare_forport : Field 3 := ⟨.fstSpare, 4, .ro, 0, 31⟩
def fstSpare_forlane : Field 3 := ⟨.fstSpare, 0, .ro, 0, 31⟩

-- FST_ROUTE (06_fuist_and_bound.md R198)
def fstRoute_alt : Field 3 := ⟨.fstRoute, 5, .rw, 0, 5⟩
def fstRoute_alten : Field 1 := ⟨.fstRoute, 4, .rw, 0, 5⟩
def fstRoute_pri : Field 3 := ⟨.fstRoute, 1, .rw, 0, 5⟩
def fstRoute_valid : Field 1 := ⟨.fstRoute, 0, .rw, 0, 5⟩

-- PWR_DOM (17_power_clocks_time.md R430)
def pwrDom_state : Field 3 := ⟨.pwrDom, 36, .ro, 2, 1⟩
def pwrDom_holdup : Field 1 := ⟨.pwrDom, 35, .ro, 0, 1⟩
def pwrDom_vote : Field 21 := ⟨.pwrDom, 0, .rw, 0x00001, 3⟩

-- CLK_ACLK (17_power_clocks_time.md R437)
def clkAclk_rej : Field 1 := ⟨.clkAclk, 39, .w1c, 0, 1⟩
def clkAclk_code : Field 4 := ⟨.clkAclk, 32, .ro, 0, 1⟩
def clkAclk_pend : Field 1 := ⟨.clkAclk, 7, .ro, 0, 1⟩
def clkAclk_active : Field 3 := ⟨.clkAclk, 4, .ro, 1, 1⟩
def clkAclk_op : Field 3 := ⟨.clkAclk, 0, .rw, 1, 1⟩

-- PWR_VARR (17_power_clocks_time.md R437)
def pwrVarr_rej : Field 1 := ⟨.pwrVarr, 63, .w1c, 0, 1⟩
def pwrVarr_vnow : Field 8 := ⟨.pwrVarr, 16, .ro, 20, 1⟩
def pwrVarr_vok : Field 1 := ⟨.pwrVarr, 15, .ro, 1, 1⟩
def pwrVarr_vset : Field 6 := ⟨.pwrVarr, 0, .rw, 20, 1⟩

-- CLK_STAT (17_power_clocks_time.md R439)
def clkStat_loss_ev : Field 1 := ⟨.clkStat, 7, .w1c, 0, 1⟩
def clkStat_aband : Field 1 := ⟨.clkStat, 6, .ro, 0, 1⟩
def clkStat_rband : Field 1 := ⟨.clkStat, 5, .ro, 0, 1⟩
def clkStat_alock : Field 1 := ⟨.clkStat, 4, .ro, 0, 1⟩
def clkStat_rlock : Field 1 := ⟨.clkStat, 3, .ro, 0, 1⟩
def clkStat_hold : Field 1 := ⟨.clkStat, 2, .ro, 0, 1⟩
def clkStat_avco : Field 2 := ⟨.clkStat, 0, .ro, 0, 1⟩

-- PWR_STATUS (17_power_clocks_time.md R437)
def pwrStatus_pwr_w : Field 16 := ⟨.pwrStatus, 48, .ro, 0, 1⟩
def pwrStatus_tjmax : Field 8 := ⟨.pwrStatus, 40, .ro, 0, 1⟩
def pwrStatus_thr : Field 12 := ⟨.pwrStatus, 28, .ro, 0, 1⟩
def pwrStatus_trip_ev : Field 1 := ⟨.pwrStatus, 25, .w1c, 0, 15⟩
def pwrStatus_thr_ev : Field 1 := ⟨.pwrStatus, 24, .w1c, 0, 1⟩
def pwrStatus_point : Field 3 := ⟨.pwrStatus, 18, .ro, 0, 1⟩
def pwrStatus_cap_w : Field 9 := ⟨.pwrStatus, 9, .rw, 450, 5⟩

-- PWR_WAKECFG (17_power_clocks_time.md R444)
def pwrWakecfg_domains : Field 10 := ⟨.pwrWakecfg, 38, .rw, 0x3FC, 7⟩
def pwrWakecfg_ack : Field 1 := ⟨.pwrWakecfg, 3, .wo, 0, 0⟩
def pwrWakecfg_en_tmr : Field 1 := ⟨.pwrWakecfg, 2, .rw, 1, 7⟩
def pwrWakecfg_en_i3c : Field 1 := ⟨.pwrWakecfg, 1, .rw, 1, 7⟩
def pwrWakecfg_en_waken : Field 1 := ⟨.pwrWakecfg, 0, .rw, 1, 7⟩

-- PWR_WAKE (17_power_clocks_time.md R444)
def pwrWake_fail : Field 1 := ⟨.pwrWake, 63, .ro, 0, 15⟩
def pwrWake_done_ev : Field 1 := ⟨.pwrWake, 62, .w1c, 0, 15⟩
def pwrWake_count : Field 8 := ⟨.pwrWake, 40, .rc, 0, 15⟩
def pwrWake_step : Field 4 := ⟨.pwrWake, 36, .ro, 0, 15⟩
def pwrWake_alt : Field 1 := ⟨.pwrWake, 35, .ro, 0, 15⟩
def pwrWake_cause : Field 3 := ⟨.pwrWake, 32, .ro, 0, 15⟩
def pwrWake_dur_us : Field 32 := ⟨.pwrWake, 0, .ro, 0, 15⟩

-- PWR_AOTMR (17_power_clocks_time.md R444)
def pwrAotmr_armed : Field 1 := ⟨.pwrAotmr, 40, .rw, 0, 15⟩
def pwrAotmr_count : Field 40 := ⟨.pwrAotmr, 0, .rw, 0, 15⟩

-- PWR_AOTEMP (17_power_clocks_time.md R437)
def pwrAotemp_impl : Field 1 := ⟨.pwrAotemp, 8, .ro, 0, 15⟩
def pwrAotemp_temp : Field 8 := ⟨.pwrAotemp, 0, .ro, 0, 15⟩

-- TIM_SPINE (17_power_clocks_time.md R447)
def timSpine_count : Field 64 := ⟨.timSpine, 0, .ro, 0, 15⟩

-- TIM_UNCERT (17_power_clocks_time.md R447)
def timUncert_ns : Field 48 := ⟨.timUncert, 0, .rw, 0xFFFFFFFFFFFF, 15⟩

-- TIM_CAL (17_power_clocks_time.md R447)
def timCal_valid : Field 1 := ⟨.timCal, 40, .ro, 0, 15⟩
def timCal_ratio : Field 40 := ⟨.timCal, 0, .ro, 0x61A8000000, 15⟩

-- TIM_ADJ (17_power_clocks_time.md R447)
def timAdj_ofs : Field 64 := ⟨.timAdj, 0, .wo, 0, 0⟩

-- LOG_CTL (19_upkeep.md R473)
def logCtl_unfreeze : Field 1 := ⟨.logCtl, 63, .wo, 0, 0⟩
def logCtl_freeze_ev : Field 1 := ⟨.logCtl, 62, .w1c, 0, 15⟩
def logCtl_frozen : Field 1 := ⟨.logCtl, 61, .ro, 0, 15⟩
def logCtl_wrap : Field 1 := ⟨.logCtl, 60, .ro, 0, 15⟩
def logCtl_lost : Field 16 := ⟨.logCtl, 44, .rc, 0, 15⟩
def logCtl_frzidx : Field 12 := ⟨.logCtl, 28, .ro, 0, 15⟩
def logCtl_freeze_level : Field 3 := ⟨.logCtl, 12, .rw, 6, 15⟩
def logCtl_wptr : Field 12 := ⟨.logCtl, 0, .ro, 0, 15⟩

-- LOG_ADDR (19_upkeep.md R473)
def logAddr_addr : Field 12 := ⟨.logAddr, 0, .rw, 0, 15⟩

-- LOG_DLO (19_upkeep.md R473)
def logDlo_data : Field 64 := ⟨.logDlo, 0, .ro, 0, 15⟩

-- LOG_DHI (19_upkeep.md R473)
def logDhi_data : Field 64 := ⟨.logDhi, 0, .ro, 0, 15⟩

-- TRU_ANCHOR_STAT (16_trust_and_attestation.md R424)
def truAnchorStat_revoked : Field 1 := ⟨.truAnchorStat, 1, .ro, 0, 31⟩
def truAnchorStat_filled : Field 1 := ⟨.truAnchorStat, 0, .ro, 0, 31⟩

-- TRU_ANCHOR_HASH (16_trust_and_attestation.md R424)
def truAnchorHash_hash : Field 64 := ⟨.truAnchorHash, 0, .ro, 0, 31⟩

-- TRU_OTPDATA (16_trust_and_attestation.md R424)
def truOtpdata_hash : Field 64 := ⟨.truOtpdata, 0, .rw, 0, 1⟩

-- TRU_OTPCMD (16_trust_and_attestation.md R424)
def truOtpcmd_rej : Field 1 := ⟨.truOtpcmd, 63, .w1c, 0, 1⟩
def truOtpcmd_done_ev : Field 1 := ⟨.truOtpcmd, 62, .w1c, 0, 1⟩
def truOtpcmd_slot : Field 2 := ⟨.truOtpcmd, 2, .rw, 0, 1⟩
def truOtpcmd_revoke : Field 1 := ⟨.truOtpcmd, 1, .wo, 0, 0⟩
def truOtpcmd_program : Field 1 := ⟨.truOtpcmd, 0, .wo, 0, 0⟩

-- TRU_IDSTAT (16_trust_and_attestation.md R424)
def truIdstat_keylow : Field 1 := ⟨.truIdstat, 63, .ro, 0, 31⟩
def truIdstat_keyfail : Field 1 := ⟨.truIdstat, 62, .ro, 0, 31⟩
def truIdstat_used : Field 31 := ⟨.truIdstat, 0, .ro, 0, 31⟩

-- TRU_ATT_NONCE (16_trust_and_attestation.md R424)
def truAttNonce_nonce : Field 64 := ⟨.truAttNonce, 0, .rw, 0, 1⟩

-- TRU_ATT_CMD (16_trust_and_attestation.md R424)
def truAttCmd_go : Field 1 := ⟨.truAttCmd, 63, .wo, 0, 0⟩
def truAttCmd_scope : Field 1 := ⟨.truAttCmd, 62, .rw, 0, 1⟩
def truAttCmd_sector : Field 30 := ⟨.truAttCmd, 0, .rw, 0, 1⟩

-- TRU_ATT_STAT (16_trust_and_attestation.md R424)
def truAttStat_rej : Field 1 := ⟨.truAttStat, 63, .w1c, 0, 1⟩
def truAttStat_done_ev : Field 1 := ⟨.truAttStat, 62, .w1c, 0, 1⟩
def truAttStat_seq : Field 32 := ⟨.truAttStat, 16, .ro, 0, 1⟩
def truAttStat_code : Field 8 := ⟨.truAttStat, 8, .ro, 0, 1⟩
def truAttStat_state : Field 2 := ⟨.truAttStat, 0, .ro, 0, 1⟩

-- MTR_STAT (15_waila_meter.md R410)
def mtrStat_newest : Field 4 := ⟨.mtrStat, 16, .ro, 0, 1⟩
def mtrStat_nrec : Field 5 := ⟨.mtrStat, 11, .ro, 0, 1⟩
def mtrStat_keylow : Field 1 := ⟨.mtrStat, 10, .ro, 0, 1⟩
def mtrStat_sealstate : Field 2 := ⟨.mtrStat, 8, .ro, 0, 1⟩
def mtrStat_stale : Field 1 := ⟨.mtrStat, 7, .ro, 0, 1⟩
def mtrStat_meter_run : Field 1 := ⟨.mtrStat, 6, .ro, 0, 1⟩
def mtrStat_linkok : Field 1 := ⟨.mtrStat, 5, .ro, 0, 1⟩

-- MTR_SEQ (15_waila_meter.md R410)
def mtrSeq_seq : Field 64 := ⟨.mtrSeq, 0, .ro, 0, 1⟩

-- MTR_PARAM (15_waila_meter.md R410)
def mtrParam_unit : Field 32 := ⟨.mtrParam, 32, .ro, 0, 1⟩
def mtrParam_interval_s : Field 12 := ⟨.mtrParam, 0, .ro, 0, 1⟩

-- MTR_AUDIT (15_waila_meter.md R410)
def mtrAudit_rejcnt : Field 32 := ⟨.mtrAudit, 32, .ro, 0, 1⟩
def mtrAudit_audit : Field 32 := ⟨.mtrAudit, 0, .ro, 0, 1⟩

-- MTR_RG (15_waila_meter.md R410)
def mtrRg_valid : Field 1 := ⟨.mtrRg, 39, .ro, 0, 1⟩
def mtrRg_wire : Field 4 := ⟨.mtrRg, 32, .ro, 0, 1⟩
def mtrRg_running : Field 1 := ⟨.mtrRg, 31, .ro, 0, 1⟩
def mtrRg_nb : Field 19 := ⟨.mtrRg, 0, .ro, 0, 1⟩

-- UPK_ENG (19_upkeep.md R464)
def upkEng_rej : Field 1 := ⟨.upkEng, 63, .w1c, 0, 1⟩
def upkEng_finds : Field 16 := ⟨.upkEng, 40, .rc, 0, 1⟩
def upkEng_passes : Field 16 := ⟨.upkEng, 24, .rc, 0, 1⟩
def upkEng_period_ms : Field 23 := ⟨.upkEng, 1, .rw, 0, 5⟩
def upkEng_en : Field 1 := ⟨.upkEng, 0, .rw, 1, 5⟩

-- UPK_TEMP (19_upkeep.md R464)
def upkTemp_impl : Field 1 := ⟨.upkTemp, 8, .ro, 0, 1⟩
def upkTemp_temp : Field 8 := ⟨.upkTemp, 0, .ro, 0, 1⟩

-- UPK_CUR (19_upkeep.md R464)
def upkCur_impl : Field 1 := ⟨.upkCur, 32, .ro, 0, 1⟩
def upkCur_mv : Field 16 := ⟨.upkCur, 16, .ro, 0, 1⟩
def upkCur_cur : Field 16 := ⟨.upkCur, 0, .ro, 0, 1⟩

-- UPK_COLMAP (02_cells_and_leaves.md R48)
def upkColmap_rej : Field 1 := ⟨.upkColmap, 7, .w1c, 0, 15⟩
def upkColmap_skip : Field 6 := ⟨.upkColmap, 0, .rw, 32, 31⟩

-- UPK_COLREP (19_upkeep.md R468)
def upkColrep_go : Field 1 := ⟨.upkColrep, 63, .wo, 0, 0⟩
def upkColrep_rej : Field 1 := ⟨.upkColrep, 62, .w1c, 0, 1⟩
def upkColrep_done_ev : Field 1 := ⟨.upkColrep, 61, .w1c, 0, 1⟩
def upkColrep_code : Field 8 := ⟨.upkColrep, 48, .ro, 0, 1⟩
def upkColrep_pending : Field 11 := ⟨.upkColrep, 32, .ro, 0, 1⟩
def upkColrep_state : Field 2 := ⟨.upkColrep, 8, .ro, 0, 1⟩
def upkColrep_q : Field 2 := ⟨.upkColrep, 6, .rw, 0, 1⟩
def upkColrep_pg : Field 6 := ⟨.upkColrep, 0, .rw, 0, 1⟩

-- UPK_COLREP_DST (19_upkeep.md R468)
def upkColrepDst_sector : Field 30 := ⟨.upkColrepDst, 0, .rw, 0, 1⟩

-- UPK_LANE (19_upkeep.md R469)
def upkLane_go : Field 1 := ⟨.upkLane, 63, .wo, 0, 0⟩
def upkLane_rej : Field 1 := ⟨.upkLane, 62, .w1c, 0, 1⟩
def upkLane_auto : Field 1 := ⟨.upkLane, 61, .rw, 1, 5⟩
def upkLane_code : Field 2 := ⟨.upkLane, 10, .ro, 0, 1⟩
def upkLane_spare : Field 2 := ⟨.upkLane, 8, .rw, 0, 1⟩
def upkLane_port : Field 3 := ⟨.upkLane, 3, .rw, 0, 1⟩
def upkLane_lane : Field 3 := ⟨.upkLane, 0, .rw, 0, 1⟩

-- PAD_BANK (20_package_and_board.md R483)
def padBank_rej : Field 1 := ⟨.padBank, 63, .w1c, 0, 7⟩
def padBank_vsel : Field 2 := ⟨.padBank, 10, .ro, 0, 7⟩
def padBank_pwrgood : Field 1 := ⟨.padBank, 9, .ro, 0, 7⟩
def padBank_filt : Field 2 := ⟨.padBank, 6, .rw, 0, 7⟩
def padBank_slew : Field 2 := ⟨.padBank, 4, .rw, 1, 7⟩
def padBank_drive : Field 2 := ⟨.padBank, 2, .rw, 1, 7⟩

-- PAD_HOLD (17_power_clocks_time.md R440)
def padHold_rej : Field 1 := ⟨.padHold, 16, .w1c, 0, 15⟩
def padHold_release : Field 8 := ⟨.padHold, 8, .wo, 0, 0⟩
def padHold_held : Field 8 := ⟨.padHold, 0, .ro, 0, 15⟩

-- PAD_I3C (20_package_and_board.md R486)
def padI3c_dynaddr : Field 7 := ⟨.padI3c, 9, .ro, 0, 7⟩
def padI3c_pu : Field 1 := ⟨.padI3c, 0, .rw, 0, 31⟩

-- AWL_CTL (07_awl_cores.md R235)
def awlCtl_unfreeze : Field 8 := ⟨.awlCtl, 16, .wo, 0, 0⟩
def awlCtl_rej : Field 1 := ⟨.awlCtl, 2, .w1c, 0, 1⟩
def awlCtl_excl : Field 1 := ⟨.awlCtl, 1, .rw, 0, 31⟩
def awlCtl_holdrst : Field 1 := ⟨.awlCtl, 0, .rw, 1, 1⟩

-- AWL_STAT (07_awl_cores.md R235)
def awlStat_frozen : Field 8 := ⟨.awlStat, 24, .ro, 0, 1⟩
def awlStat_wait : Field 8 := ⟨.awlStat, 16, .ro, 0, 1⟩
def awlStat_ready : Field 8 := ⟨.awlStat, 8, .ro, 0, 1⟩
def awlStat_inreset : Field 1 := ⟨.awlStat, 4, .ro, 1, 1⟩
def awlStat_running : Field 1 := ⟨.awlStat, 3, .ro, 0, 1⟩
def awlStat_runlvl : Field 3 := ⟨.awlStat, 0, .ro, 0, 1⟩

-- AWL_FAULT (07_awl_cores.md R235)
def awlFault_valid : Field 1 := ⟨.awlFault, 63, .w1c, 0, 1⟩
def awlFault_double : Field 1 := ⟨.awlFault, 62, .ro, 0, 1⟩
def awlFault_level : Field 3 := ⟨.awlFault, 59, .ro, 0, 1⟩
def awlFault_cause : Field 8 := ⟨.awlFault, 48, .ro, 0, 1⟩
def awlFault_count : Field 8 := ⟨.awlFault, 40, .rc, 0, 1⟩
def awlFault_pc : Field 15 := ⟨.awlFault, 24, .ro, 0, 1⟩
def awlFault_addr : Field 16 := ⟨.awlFault, 0, .ro, 0, 1⟩

-- AWL_MADDR (07_awl_cores.md R236)
def awlMaddr_perr : Field 1 := ⟨.awlMaddr, 20, .w1c, 0, 1⟩
def awlMaddr_inc : Field 1 := ⟨.awlMaddr, 19, .rw, 0, 1⟩
def awlMaddr_space : Field 2 := ⟨.awlMaddr, 16, .rw, 0, 1⟩
def awlMaddr_addr : Field 16 := ⟨.awlMaddr, 0, .rw, 0, 1⟩

-- AWL_MDATA (07_awl_cores.md R236)
def awlMdata_data : Field 40 := ⟨.awlMdata, 0, .rw, 0, 1⟩

-- GTH_CFG (05_gatherings.md R155)
def gthCfg_ring_cap : Field 13 := ⟨.gthCfg, 32, .ro, 0, 1⟩
def gthCfg_ring_need : Field 12 := ⟨.gthCfg, 16, .ro, 0, 1⟩
def gthCfg_unloaded : Field 1 := ⟨.gthCfg, 8, .ro, 0, 1⟩
def gthCfg_inuse : Field 1 := ⟨.gthCfg, 7, .ro, 0, 1⟩
def gthCfg_region : Field 4 := ⟨.gthCfg, 0, .ro, 0, 1⟩

-- GTH_DCHK (05_gatherings.md R156)
def gthDchk_count : Field 16 := ⟨.gthDchk, 48, .rc, 0, 1⟩
def gthDchk_pend : Field 1 := ⟨.gthDchk, 44, .w1c, 0, 1⟩
def gthDchk_cell : Field 6 := ⟨.gthDchk, 38, .ro, 0, 1⟩
def gthDchk_leaf : Field 5 := ⟨.gthDchk, 33, .ro, 0, 1⟩
def gthDchk_quire : Field 32 := ⟨.gthDchk, 0, .ro, 0, 1⟩

-- GTH_FERR (05_gatherings.md R156)
def gthFerr_count : Field 16 := ⟨.gthFerr, 48, .rc, 0, 1⟩
def gthFerr_valid : Field 1 := ⟨.gthFerr, 45, .w1c, 0, 1⟩
def gthFerr_port : Field 1 := ⟨.gthFerr, 44, .ro, 0, 1⟩
def gthFerr_slices : Field 4 := ⟨.gthFerr, 40, .ro, 0, 1⟩
def gthFerr_addr : Field 11 := ⟨.gthFerr, 0, .ro, 0, 1⟩

-- GTH_QDESC (05_gatherings.md R156)
def gthQdesc_evcond : Field 2 := ⟨.gthQdesc, 34, .ro, 0, 1⟩
def gthQdesc_evsrc : Field 10 := ⟨.gthQdesc, 24, .ro, 0, 1⟩
def gthQdesc_dir : Field 1 := ⟨.gthQdesc, 23, .ro, 0, 1⟩
def gthQdesc_size : Field 12 := ⟨.gthQdesc, 11, .ro, 0, 1⟩
def gthQdesc_base : Field 11 := ⟨.gthQdesc, 0, .ro, 0, 1⟩

-- GTH_QWM (05_gatherings.md R157)
def gthQwm_rej : Field 1 := ⟨.gthQwm, 24, .w1c, 0, 1⟩
def gthQwm_high : Field 12 := ⟨.gthQwm, 12, .rw, 0, 1⟩
def gthQwm_low : Field 12 := ⟨.gthQwm, 0, .rw, 0, 1⟩

-- GTH_QPTR (05_gatherings.md R157)
def gthQptr_rcount : Field 12 := ⟨.gthQptr, 36, .ro, 0, 1⟩
def gthQptr_crp : Field 12 := ⟨.gthQptr, 24, .ro, 0, 1⟩
def gthQptr_rp : Field 12 := ⟨.gthQptr, 12, .ro, 0, 1⟩
def gthQptr_apc : Field 12 := ⟨.gthQptr, 0, .ro, 0, 1⟩

-- GTH_CRC (05_gatherings.md R157)
def gthCrc_crc : Field 32 := ⟨.gthCrc, 0, .ro, 0, 1⟩

end F

/-- The fields of a register, as its table gives them. -/
def RegId.fields : RegId → List FieldRow
  | .hubId => [F.hubId_sealed.row, F.hubId_grade.row, F.hubId_sirev_maj.row, F.hubId_sirev_min.row, F.hubId_family.row, F.hubId_device.row]
  | .hubB2win => [F.hubB2win_sbase.row, F.hubB2win_wbase.row]
  | .hubReset => [F.hubReset_warm.row]
  | .hubBoot => [F.hubBoot_bootnum.row, F.hubBoot_kind.row, F.hubBoot_step.row, F.hubBoot_fail_ev.row, F.hubBoot_state.row]
  | .hubBootpol => [F.hubBootpol_rej.row, F.hubBootpol_save.row, F.hubBootpol_warmload.row, F.hubBootpol_s11skip.row, F.hubBootpol_s7skip.row]
  | .hubBrsel => [F.hubBrsel_index.row]
  | .hubBrdata => [F.hubBrdata_data.row]
  | .hubHqCfg => [F.hubHqCfg_xqvec.row, F.hubHqCfg_rqvec.row, F.hubHqCfg_aqvec.row, F.hubHqCfg_itr_us.row, F.hubHqCfg_log2n.row, F.hubHqCfg_err.row, F.hubHqCfg_stop.row, F.hubHqCfg_xen.row, F.hubHqCfg_en.row, F.hubHqCfg_fn.row]
  | .hubHqSq => [F.hubHqSq_addr.row]
  | .hubHqAq => [F.hubHqAq_addr.row]
  | .hubHqRq => [F.hubHqRq_addr.row]
  | .hubHqXq => [F.hubHqXq_addr.row]
  | .hubHqXstg => [F.hubHqXstg_base.row]
  | .hubHqStat => [F.hubHqStat_xqtail.row, F.hubHqStat_rqtail.row, F.hubHqStat_aqtail.row, F.hubHqStat_sqhead.row]
  | .hubDbSqt => [F.hubDbSqt_index.row]
  | .hubDbAqh => [F.hubDbAqh_index.row]
  | .hubDbRqh => [F.hubDbRqh_index.row]
  | .hubDbXqh => [F.hubDbXqh_index.row]
  | .hubMsixTbl => []
  | .hubMsixPba => []
  | .colCtl => [F.colCtl_lock_to_us.row, F.colCtl_yield_cyc.row, F.colCtl_fault_max.row]
  | .colStatus => [F.colStatus_stall_ev.row, F.colStatus_rej.row, F.colStatus_dlfull.row, F.colStatus_deadlocks.row]
  | .colAffHold => [F.colAffHold_hold.row]
  | .colLedger => [F.colLedger_remir_ev.row, F.colLedger_remir.row, F.colLedger_openrng.row, F.colLedger_ams.row, F.colLedger_used.row]
  | .colDlCfg => [F.colDlCfg_used.row, F.colDlCfg_cap.row, F.colDlCfg_tick.row]
  | .colFn => [F.colFn_maxlvl.row]
  | .colEv => [F.colEv_raises.row, F.colEv_pend.row, F.colEv_en.row, F.colEv_stream.row]
  | .colTim => [F.colTim_interval.row, F.colTim_miss.row, F.colTim_list.row, F.colTim_periodic.row, F.colTim_en.row]
  | .colLock => [F.colLock_waiters.row, F.colLock_hlvl.row, F.colLock_hcore.row, F.colLock_held.row, F.colLock_owner.row]
  | .colStrCfg => [F.colStrCfg_owner.row, F.colStrCfg_task.row, F.colStrCfg_limit.row, F.colStrCfg_kind.row, F.colStrCfg_prio.row, F.colStrCfg_priosrc.row, F.colStrCfg_class.row, F.colStrCfg_en.row]
  | .colStrStat => [F.colStrStat_cancel.row, F.colStrStat_resume.row, F.colStrStat_faults.row, F.colStrStat_lcvalid.row, F.colStrStat_lastcore.row, F.colStrStat_queued.row, F.colStrStat_inflight.row, F.colStrStat_state.row]
  | .colTskCfg => [F.colTskCfg_owner.row, F.colTskCfg_dlist.row, F.colTskCfg_en.row, F.colTskCfg_entry.row]
  | .colTskCores => [F.colTskCores_cores.row]
  | .colStrAcc => [F.colStrAcc_acc.row]
  | .colStrRet => [F.colStrRet_ret.row]
  | .colStrRsb => [F.colStrRsb_abandon.row, F.colStrRsb_open.row, F.colStrRsb_repq.row, F.colStrRsb_first.row]
  | .colStrHoles => [F.colStrHoles_count.row]
  | .spnErr => [F.spnErr_hcrc.row, F.spnErr_pcrc.row, F.spnErr_resend.row]
  | .spnTrcCtl => [F.spnTrcCtl_stopfull.row, F.spnTrcCtl_wrap.row, F.spnTrcCtl_wptr.row]
  | .spnTrcAddr => [F.spnTrcAddr_addr.row]
  | .spnTrcDlo => [F.spnTrcDlo_data.row]
  | .spnTrcDhi => [F.spnTrcDhi_data.row]
  | .spnSta => [F.spnSta_rej.row, F.spnSta_deny.row, F.spnSta_byp.row, F.spnSta_state.row]
  | .spnRg => [F.spnRg_tokens.row, F.spnRg_burst.row, F.spnRg_rate.row]
  | .spnPrbCfg => [F.spnPrbCfg_rej.row, F.spnPrbCfg_ev.row, F.spnPrbCfg_thresh.row, F.spnPrbCfg_mode.row, F.spnPrbCfg_ring.row, F.spnPrbCfg_station.row]
  | .spnPrbMatch => [F.spnPrbMatch_value.row]
  | .spnPrbMask => [F.spnPrbMask_value.row]
  | .spnPrbCnt => [F.spnPrbCnt_cnt.row]
  | .memStat => [F.memStat_usable.row, F.memStat_retired_v.row, F.memStat_retired.row, F.memStat_mig.row, F.memStat_speed.row]
  | .memScrub => [F.memScrub_passes.row, F.memScrub_pos.row, F.memScrub_period_h.row, F.memScrub_en.row]
  | .memRetrain => [F.memRetrain_failstep.row, F.memRetrain_steps.row, F.memRetrain_period_ms.row, F.memRetrain_en.row]
  | .memRetire => [F.memRetire_rej.row, F.memRetire_migu.row, F.memRetire_go.row, F.memRetire_ch.row]
  | .memSecclr => [F.memSecclr_rej.row, F.memSecclr_sector.row]
  | .memPart => [F.memPart_rej.row, F.memPart_size.row, F.memPart_base.row]
  | .memChStat => [F.memChStat_failrd.row, F.memChStat_recov.row, F.memChStat_reread.row, F.memChStat_state.row]
  | .bndCtl => [F.bndCtl_stream_to_ms.row, F.bndCtl_rej.row]
  | .bndSrc => [F.bndSrc_addr.row]
  | .bndCmd => [F.bndCmd_len.row, F.bndCmd_free.row, F.bndCmd_slot.row, F.bndCmd_srcsel.row, F.bndCmd_repair.row, F.bndCmd_autocase.row, F.bndCmd_casein.row, F.bndCmd_abort.row, F.bndCmd_go.row]
  | .bndStat => [F.bndStat_rej.row, F.bndStat_fail_ev.row, F.bndStat_done_ev.row, F.bndStat_frames.row, F.bndStat_code.row, F.bndStat_state.row]
  | .bndCase => [F.bndCase_stage.row, F.bndCase_gap.row]
  | .bndLimit => [F.bndLimit_rej.row, F.bndLimit_banks.row, F.bndLimit_qmask.row, F.bndLimit_gy1.row, F.bndLimit_gy0.row, F.bndLimit_gx1.row, F.bndLimit_gx0.row]
  | .bndHash => [F.bndHash_hash.row]
  | .qctCfg => [F.qctCfg_mode.row, F.qctCfg_gap.row, F.qctCfg_len.row]
  | .qctCommitted => [F.qctCommitted_count.row]
  | .qctExec => [F.qctExec_count.row]
  | .qctStatus => [F.qctStatus_token_lost_ev.row, F.qctStatus_qfault_ev.row, F.qctStatus_cfg_rej.row, F.qctStatus_attempt.row, F.qctStatus_lastvote.row, F.qctStatus_state.row]
  | .qctReplays => [F.qctReplays_count.row]
  | .qctStretch => [F.qctStretch_cycles.row]
  | .qctFault => [F.qctFault_device.row, F.qctFault_cause.row, F.qctFault_gth.row, F.qctFault_quire.row]
  | .qctTokenTo => [F.qctTokenTo_to_us.row]
  | .qctCtl => [F.qctCtl_inject.row, F.qctCtl_retry.row]
  | .qctHold => [F.qctHold_hold.row, F.qctHold_release.row, F.qctHold_pend.row, F.qctHold_quire.row]
  | .qctRbSel => [F.qctRbSel_go.row, F.qctRbSel_auto.row, F.qctRbSel_parts.row, F.qctRbSel_qmask.row, F.qctRbSel_gy1.row, F.qctRbSel_gy0.row, F.qctRbSel_gx1.row, F.qctRbSel_gx0.row]
  | .qctRbDst => [F.qctRbDst_sector.row]
  | .qctRbStat => [F.qctRbStat_rej.row, F.qctRbStat_done_ev.row, F.qctRbStat_perr.row, F.qctRbStat_quire.row, F.qctRbStat_code.row, F.qctRbStat_state.row]
  | .qctBmkCtl => [F.qctBmkCtl_take.row, F.qctBmkCtl_restore.row, F.qctBmkCtl_auto.row, F.qctBmkCtl_full.row, F.qctBmkCtl_slot.row]
  | .qctBmkDst => [F.qctBmkDst_sector.row]
  | .qctBmkStat => [F.qctBmkStat_rej.row, F.qctBmkStat_done_ev.row, F.qctBmkStat_rbad.row, F.qctBmkStat_lvalid.row, F.qctBmkStat_lastslot.row, F.qctBmkStat_state.row, F.qctBmkStat_quire.row, F.qctBmkStat_code.row]
  | .qctBmkSize => [F.qctBmkSize_sectors.row, F.qctBmkSize_dirtyf.row, F.qctBmkSize_dirtys.row]
  | .qctBmkValid => [F.qctBmkValid_valid.row]
  | .qctCadPat => [F.qctCadPat_pat.row]
  | .qctCadLen => [F.qctCadLen_len.row]
  | .fstSys => [F.fstSys_rej.row, F.fstSys_linkdown_ev.row, F.fstSys_syncloss_ev.row, F.fstSys_syncstate.row, F.fstSys_root.row, F.fstSys_syncport.row, F.fstSys_altport.row, F.fstSys_alten.row, F.fstSys_devidx.row]
  | .fstSysmask => [F.fstSysmask_mask.row]
  | .fstTiming => [F.fstTiming_diam.row, F.fstTiming_hopmax_ps.row, F.fstTiming_xlat.row, F.fstTiming_toklat.row, F.fstTiming_gfloor.row]
  | .fstBound => [F.fstBound_wait_to_ms.row, F.fstBound_pu.row, F.fstBound_line.row, F.fstBound_timeout_ev.row, F.fstBound_start_ev.row, F.fstBound_state.row]
  | .fstPortCfg => [F.fstPortCfg_peerdev.row, F.fstPortCfg_peerport.row, F.fstPortCfg_dateline.row, F.fstPortCfg_test.row, F.fstPortCfg_en.row]
  | .fstPortStat => [F.fstPortStat_hoplat_ps.row, F.fstPortStat_lanedown.row, F.fstPortStat_state.row]
  | .fstPortMap => [F.fstPortMap_lane0.row, F.fstPortMap_lane1.row, F.fstPortMap_lane2.row, F.fstPortMap_lane3.row, F.fstPortMap_lane4.row, F.fstPortMap_lane5.row, F.fstPortMap_lane6.row, F.fstPortMap_lane7.row]
  | .fstPortErr => [F.fstPortErr_uncorr.row, F.fstPortErr_crcf.row, F.fstPortErr_resend.row, F.fstPortErr_corrsym.row]
  | .fstSpare => [F.fstSpare_homeport.row, F.fstSpare_homeen.row, F.fstSpare_inuse.row, F.fstSpare_forport.row, F.fstSpare_forlane.row]
  | .fstRoute => [F.fstRoute_alt.row, F.fstRoute_alten.row, F.fstRoute_pri.row, F.fstRoute_valid.row]
  | .pwrDom => [F.pwrDom_state.row, F.pwrDom_holdup.row, F.pwrDom_vote.row]
  | .clkAclk => [F.clkAclk_rej.row, F.clkAclk_code.row, F.clkAclk_pend.row, F.clkAclk_active.row, F.clkAclk_op.row]
  | .pwrVarr => [F.pwrVarr_rej.row, F.pwrVarr_vnow.row, F.pwrVarr_vok.row, F.pwrVarr_vset.row]
  | .clkStat => [F.clkStat_loss_ev.row, F.clkStat_aband.row, F.clkStat_rband.row, F.clkStat_alock.row, F.clkStat_rlock.row, F.clkStat_hold.row, F.clkStat_avco.row]
  | .pwrStatus => [F.pwrStatus_pwr_w.row, F.pwrStatus_tjmax.row, F.pwrStatus_thr.row, F.pwrStatus_trip_ev.row, F.pwrStatus_thr_ev.row, F.pwrStatus_point.row, F.pwrStatus_cap_w.row]
  | .pwrWakecfg => [F.pwrWakecfg_domains.row, F.pwrWakecfg_ack.row, F.pwrWakecfg_en_tmr.row, F.pwrWakecfg_en_i3c.row, F.pwrWakecfg_en_waken.row]
  | .pwrWake => [F.pwrWake_fail.row, F.pwrWake_done_ev.row, F.pwrWake_count.row, F.pwrWake_step.row, F.pwrWake_alt.row, F.pwrWake_cause.row, F.pwrWake_dur_us.row]
  | .pwrAotmr => [F.pwrAotmr_armed.row, F.pwrAotmr_count.row]
  | .pwrAotemp => [F.pwrAotemp_impl.row, F.pwrAotemp_temp.row]
  | .timSpine => [F.timSpine_count.row]
  | .timUncert => [F.timUncert_ns.row]
  | .timCal => [F.timCal_valid.row, F.timCal_ratio.row]
  | .timAdj => [F.timAdj_ofs.row]
  | .logCtl => [F.logCtl_unfreeze.row, F.logCtl_freeze_ev.row, F.logCtl_frozen.row, F.logCtl_wrap.row, F.logCtl_lost.row, F.logCtl_frzidx.row, F.logCtl_freeze_level.row, F.logCtl_wptr.row]
  | .logAddr => [F.logAddr_addr.row]
  | .logDlo => [F.logDlo_data.row]
  | .logDhi => [F.logDhi_data.row]
  | .truAnchorStat => [F.truAnchorStat_revoked.row, F.truAnchorStat_filled.row]
  | .truAnchorHash => [F.truAnchorHash_hash.row]
  | .truOtpdata => [F.truOtpdata_hash.row]
  | .truOtpcmd => [F.truOtpcmd_rej.row, F.truOtpcmd_done_ev.row, F.truOtpcmd_slot.row, F.truOtpcmd_revoke.row, F.truOtpcmd_program.row]
  | .truIdstat => [F.truIdstat_keylow.row, F.truIdstat_keyfail.row, F.truIdstat_used.row]
  | .truAttNonce => [F.truAttNonce_nonce.row]
  | .truAttCmd => [F.truAttCmd_go.row, F.truAttCmd_scope.row, F.truAttCmd_sector.row]
  | .truAttStat => [F.truAttStat_rej.row, F.truAttStat_done_ev.row, F.truAttStat_seq.row, F.truAttStat_code.row, F.truAttStat_state.row]
  | .mtrStat => [F.mtrStat_newest.row, F.mtrStat_nrec.row, F.mtrStat_keylow.row, F.mtrStat_sealstate.row, F.mtrStat_stale.row, F.mtrStat_meter_run.row, F.mtrStat_linkok.row]
  | .mtrSeq => [F.mtrSeq_seq.row]
  | .mtrParam => [F.mtrParam_unit.row, F.mtrParam_interval_s.row]
  | .mtrAudit => [F.mtrAudit_rejcnt.row, F.mtrAudit_audit.row]
  | .mtrRg => [F.mtrRg_valid.row, F.mtrRg_wire.row, F.mtrRg_running.row, F.mtrRg_nb.row]
  | .upkEng => [F.upkEng_rej.row, F.upkEng_finds.row, F.upkEng_passes.row, F.upkEng_period_ms.row, F.upkEng_en.row]
  | .upkTemp => [F.upkTemp_impl.row, F.upkTemp_temp.row]
  | .upkCur => [F.upkCur_impl.row, F.upkCur_mv.row, F.upkCur_cur.row]
  | .upkColmap => [F.upkColmap_rej.row, F.upkColmap_skip.row]
  | .upkColrep => [F.upkColrep_go.row, F.upkColrep_rej.row, F.upkColrep_done_ev.row, F.upkColrep_code.row, F.upkColrep_pending.row, F.upkColrep_state.row, F.upkColrep_q.row, F.upkColrep_pg.row]
  | .upkColrepDst => [F.upkColrepDst_sector.row]
  | .upkLane => [F.upkLane_go.row, F.upkLane_rej.row, F.upkLane_auto.row, F.upkLane_code.row, F.upkLane_spare.row, F.upkLane_port.row, F.upkLane_lane.row]
  | .padBank => [F.padBank_rej.row, F.padBank_vsel.row, F.padBank_pwrgood.row, F.padBank_filt.row, F.padBank_slew.row, F.padBank_drive.row]
  | .padHold => [F.padHold_rej.row, F.padHold_release.row, F.padHold_held.row]
  | .padI3c => [F.padI3c_dynaddr.row, F.padI3c_pu.row]
  | .awlCtl => [F.awlCtl_unfreeze.row, F.awlCtl_rej.row, F.awlCtl_excl.row, F.awlCtl_holdrst.row]
  | .awlStat => [F.awlStat_frozen.row, F.awlStat_wait.row, F.awlStat_ready.row, F.awlStat_inreset.row, F.awlStat_running.row, F.awlStat_runlvl.row]
  | .awlFault => [F.awlFault_valid.row, F.awlFault_double.row, F.awlFault_level.row, F.awlFault_cause.row, F.awlFault_count.row, F.awlFault_pc.row, F.awlFault_addr.row]
  | .awlMaddr => [F.awlMaddr_perr.row, F.awlMaddr_inc.row, F.awlMaddr_space.row, F.awlMaddr_addr.row]
  | .awlMdata => [F.awlMdata_data.row]
  | .gthCfg => [F.gthCfg_ring_cap.row, F.gthCfg_ring_need.row, F.gthCfg_unloaded.row, F.gthCfg_inuse.row, F.gthCfg_region.row]
  | .gthDchk => [F.gthDchk_count.row, F.gthDchk_pend.row, F.gthDchk_cell.row, F.gthDchk_leaf.row, F.gthDchk_quire.row]
  | .gthFerr => [F.gthFerr_count.row, F.gthFerr_valid.row, F.gthFerr_port.row, F.gthFerr_slices.row, F.gthFerr_addr.row]
  | .gthQdesc => [F.gthQdesc_evcond.row, F.gthQdesc_evsrc.row, F.gthQdesc_dir.row, F.gthQdesc_size.row, F.gthQdesc_base.row]
  | .gthQwm => [F.gthQwm_rej.row, F.gthQwm_high.row, F.gthQwm_low.row]
  | .gthQptr => [F.gthQptr_rcount.row, F.gthQptr_crp.row, F.gthQptr_rp.row, F.gthQptr_apc.row]
  | .gthCrc => [F.gthCrc_crc.row]

/-- Where a register lies in BAR0: its base, its index dimensions (count, stride) from the outermost, or a shape of
its own. -/
inductive RegPlace where
  /-- `base`, and a list of (count, stride). -/
  | at (base : Nat) (dims : List (Nat × Nat))
  /-- One copy in each function's BAR0 (R273), `words` registers of 8 bytes from `base`. -/
  | perFunction (base words : Nat)
  /-- One per loader context (R373): regions 0 to 15, D (16), F (17); `rel` inside the context. -/
  | perContext (rel : Nat)
  deriving DecidableEq, Repr

def RegId.place : RegId → RegPlace
  | .hubId => .at 0x0 []
  | .hubB2win => .perFunction 0x100 1
  | .hubReset => .at 0x200 []
  | .hubBoot => .at 0x208 []
  | .hubBootpol => .at 0x210 []
  | .hubBrsel => .at 0x218 []
  | .hubBrdata => .at 0x220 [(4, 0x8)]
  | .hubHqCfg => .at 0x1000 [(64, 0x40)]
  | .hubHqSq => .at 0x1008 [(64, 0x40)]
  | .hubHqAq => .at 0x1010 [(64, 0x40)]
  | .hubHqRq => .at 0x1018 [(64, 0x40)]
  | .hubHqXq => .at 0x1020 [(64, 0x40)]
  | .hubHqXstg => .at 0x1028 [(64, 0x40)]
  | .hubHqStat => .at 0x1030 [(64, 0x40)]
  | .hubDbSqt => .at 0x10000 [(64, 0x1000)]
  | .hubDbAqh => .at 0x10008 [(64, 0x1000)]
  | .hubDbRqh => .at 0x10010 [(64, 0x1000)]
  | .hubDbXqh => .at 0x10018 [(64, 0x1000)]
  | .hubMsixTbl => .perFunction 0xf0000 512
  | .hubMsixPba => .perFunction 0xf8000 4
  | .colCtl => .at 0x100000 []
  | .colStatus => .at 0x100008 []
  | .colAffHold => .at 0x100010 []
  | .colLedger => .at 0x100018 []
  | .colDlCfg => .at 0x100100 [(4, 0x8)]
  | .colFn => .at 0x100200 [(17, 0x8)]
  | .colEv => .at 0x102000 [(1024, 0x8)]
  | .colTim => .at 0x104000 [(64, 0x8)]
  | .colLock => .at 0x105000 [(256, 0x8)]
  | .colStrCfg => .at 0x120000 [(4096, 0x10)]
  | .colStrStat => .at 0x120008 [(4096, 0x10)]
  | .colTskCfg => .at 0x140000 [(16384, 0x10)]
  | .colTskCores => .at 0x140008 [(16384, 0x10)]
  | .colStrAcc => .at 0x180000 [(4096, 0x20)]
  | .colStrRet => .at 0x180008 [(4096, 0x20)]
  | .colStrRsb => .at 0x180010 [(4096, 0x20)]
  | .colStrHoles => .at 0x180018 [(4096, 0x20)]
  | .spnErr => .at 0x200000 []
  | .spnTrcCtl => .at 0x200010 []
  | .spnTrcAddr => .at 0x200018 []
  | .spnTrcDlo => .at 0x200020 []
  | .spnTrcDhi => .at 0x200028 []
  | .spnSta => .at 0x200100 [(21, 0x8)]
  | .spnRg => .at 0x201000 [(21, 0x40), (8, 0x8)]
  | .spnPrbCfg => .at 0x204000 [(16, 0x20)]
  | .spnPrbMatch => .at 0x204008 [(16, 0x20)]
  | .spnPrbMask => .at 0x204010 [(16, 0x20)]
  | .spnPrbCnt => .at 0x204018 [(16, 0x20)]
  | .memStat => .at 0x300000 []
  | .memScrub => .at 0x300008 []
  | .memRetrain => .at 0x300010 []
  | .memRetire => .at 0x300018 []
  | .memSecclr => .at 0x300020 []
  | .memPart => .at 0x300100 [(17, 0x8)]
  | .memChStat => .at 0x300200 [(16, 0x8)]
  | .bndCtl => .at 0x400000 []
  | .bndSrc => .perContext 0x0
  | .bndCmd => .perContext 0x8
  | .bndStat => .perContext 0x10
  | .bndCase => .at 0x401018 [(16, 0x100)]
  | .bndLimit => .at 0x401020 [(16, 0x100)]
  | .bndHash => .at 0x401040 [(16, 0x100), (4, 0x8)]
  | .qctCfg => .at 0x500000 [(16, 0x10000)]
  | .qctCommitted => .at 0x500008 [(16, 0x10000)]
  | .qctExec => .at 0x500010 [(16, 0x10000)]
  | .qctStatus => .at 0x500018 [(16, 0x10000)]
  | .qctReplays => .at 0x500020 [(16, 0x10000)]
  | .qctStretch => .at 0x500028 [(16, 0x10000)]
  | .qctFault => .at 0x500030 [(16, 0x10000)]
  | .qctTokenTo => .at 0x500038 [(16, 0x10000)]
  | .qctCtl => .at 0x500040 [(16, 0x10000)]
  | .qctHold => .at 0x500048 [(16, 0x10000)]
  | .qctRbSel => .at 0x500050 [(16, 0x10000)]
  | .qctRbDst => .at 0x500058 [(16, 0x10000)]
  | .qctRbStat => .at 0x500060 [(16, 0x10000)]
  | .qctBmkCtl => .at 0x500068 [(16, 0x10000)]
  | .qctBmkDst => .at 0x500070 [(16, 0x10000)]
  | .qctBmkStat => .at 0x500078 [(16, 0x10000)]
  | .qctBmkSize => .at 0x500080 [(16, 0x10000)]
  | .qctBmkValid => .at 0x500088 [(16, 0x10000)]
  | .qctCadPat => .at 0x500400 [(16, 0x10000), (64, 0x10)]
  | .qctCadLen => .at 0x500408 [(16, 0x10000), (64, 0x10)]
  | .fstSys => .at 0x600000 []
  | .fstSysmask => .at 0x600008 []
  | .fstTiming => .at 0x600010 []
  | .fstBound => .at 0x600018 []
  | .fstPortCfg => .at 0x600100 [(8, 0x20)]
  | .fstPortStat => .at 0x600108 [(8, 0x20)]
  | .fstPortMap => .at 0x600110 [(8, 0x20)]
  | .fstPortErr => .at 0x600118 [(8, 0x20)]
  | .fstSpare => .at 0x600200 [(4, 0x8)]
  | .fstRoute => .at 0x600400 [(64, 0x8)]
  | .pwrDom => .at 0x700000 [(10, 0x8)]
  | .clkAclk => .at 0x700100 []
  | .pwrVarr => .at 0x700108 []
  | .clkStat => .at 0x700110 []
  | .pwrStatus => .at 0x700200 []
  | .pwrWakecfg => .at 0x700300 []
  | .pwrWake => .at 0x700308 []
  | .pwrAotmr => .at 0x700310 []
  | .pwrAotemp => .at 0x700318 []
  | .timSpine => .at 0x800000 []
  | .timUncert => .at 0x800008 []
  | .timCal => .at 0x800010 []
  | .timAdj => .at 0x800018 []
  | .logCtl => .at 0x900000 []
  | .logAddr => .at 0x900008 []
  | .logDlo => .at 0x900010 []
  | .logDhi => .at 0x900018 []
  | .truAnchorStat => .at 0xa00000 [(4, 0x40)]
  | .truAnchorHash => .at 0xa00008 [(4, 0x40), (4, 0x8)]
  | .truOtpdata => .at 0xa00100 [(4, 0x8)]
  | .truOtpcmd => .at 0xa00120 []
  | .truIdstat => .at 0xa00200 []
  | .truAttNonce => .at 0xa01000 [(17, 0x40), (4, 0x8)]
  | .truAttCmd => .at 0xa01020 [(17, 0x40)]
  | .truAttStat => .at 0xa01028 [(17, 0x40)]
  | .mtrStat => .at 0xb00000 []
  | .mtrSeq => .at 0xb00008 []
  | .mtrParam => .at 0xb00010 []
  | .mtrAudit => .at 0xb00018 []
  | .mtrRg => .at 0xb00100 [(16, 0x8)]
  | .upkEng => .at 0xc00100 [(6, 0x8)]
  | .upkTemp => .at 0xc00400 [(64, 0x8)]
  | .upkCur => .at 0xc00600 [(10, 0x8)]
  | .upkColmap => .at 0xc01000 [(4, 0x8)]
  | .upkColrep => .at 0xc01040 []
  | .upkColrepDst => .at 0xc01048 []
  | .upkLane => .at 0xc01080 []
  | .padBank => .at 0xd00000 [(8, 0x8)]
  | .padHold => .at 0xd00f00 []
  | .padI3c => .at 0xd00f08 []
  | .awlCtl => .at 0x1000000 [(64, 0x40000)]
  | .awlStat => .at 0x1000008 [(64, 0x40000)]
  | .awlFault => .at 0x1000010 [(64, 0x40000)]
  | .awlMaddr => .at 0x1000018 [(64, 0x40000)]
  | .awlMdata => .at 0x1000020 [(64, 0x40000)]
  | .gthCfg => .at 0x2000000 [(4096, 0x2000)]
  | .gthDchk => .at 0x2000008 [(4096, 0x2000)]
  | .gthFerr => .at 0x2000010 [(4096, 0x2000)]
  | .gthQdesc => .at 0x2000040 [(4096, 0x2000), (4, 0x20)]
  | .gthQwm => .at 0x2000048 [(4096, 0x2000), (4, 0x20)]
  | .gthQptr => .at 0x2000050 [(4096, 0x2000), (4, 0x20)]
  | .gthCrc => .at 0x2000100 [(4096, 0x2000), (8, 0x8)]

/-- The power domain of a register's block (R426). R426 does not name the blocks of PWR_, CLK_, UPK_ and the hub's MTR_
registers: which of them lie in AO and which in HUB is the model's choice (log entry 105). -/
def RegId.domain : RegId → RegDomain
  | .hubId => .hub
  | .hubB2win => .hub
  | .hubReset => .hub
  | .hubBoot => .hub
  | .hubBootpol => .hub
  | .hubBrsel => .hub
  | .hubBrdata => .hub
  | .hubHqCfg => .hub
  | .hubHqSq => .hub
  | .hubHqAq => .hub
  | .hubHqRq => .hub
  | .hubHqXq => .hub
  | .hubHqXstg => .hub
  | .hubHqStat => .hub
  | .hubDbSqt => .hub
  | .hubDbAqh => .hub
  | .hubDbRqh => .hub
  | .hubDbXqh => .hub
  | .hubMsixTbl => .hub
  | .hubMsixPba => .hub
  | .colCtl => .hub
  | .colStatus => .hub
  | .colAffHold => .hub
  | .colLedger => .hub
  | .colDlCfg => .hub
  | .colFn => .hub
  | .colEv => .hub
  | .colTim => .hub
  | .colLock => .hub
  | .colStrCfg => .hub
  | .colStrStat => .hub
  | .colTskCfg => .hub
  | .colTskCores => .hub
  | .colStrAcc => .hub
  | .colStrRet => .hub
  | .colStrRsb => .hub
  | .colStrHoles => .hub
  | .spnErr => .hub
  | .spnTrcCtl => .hub
  | .spnTrcAddr => .hub
  | .spnTrcDlo => .hub
  | .spnTrcDhi => .hub
  | .spnSta => .hub
  | .spnRg => .hub
  | .spnPrbCfg => .hub
  | .spnPrbMatch => .hub
  | .spnPrbMask => .hub
  | .spnPrbCnt => .hub
  | .memStat => .mem
  | .memScrub => .mem
  | .memRetrain => .mem
  | .memRetire => .mem
  | .memSecclr => .mem
  | .memPart => .mem
  | .memChStat => .mem
  | .bndCtl => .hub
  | .bndSrc => .hub
  | .bndCmd => .hub
  | .bndStat => .hub
  | .bndCase => .hub
  | .bndLimit => .hub
  | .bndHash => .hub
  | .qctCfg => .hub
  | .qctCommitted => .hub
  | .qctExec => .hub
  | .qctStatus => .hub
  | .qctReplays => .hub
  | .qctStretch => .hub
  | .qctFault => .hub
  | .qctTokenTo => .hub
  | .qctCtl => .hub
  | .qctHold => .hub
  | .qctRbSel => .hub
  | .qctRbDst => .hub
  | .qctRbStat => .hub
  | .qctBmkCtl => .hub
  | .qctBmkDst => .hub
  | .qctBmkStat => .hub
  | .qctBmkSize => .hub
  | .qctBmkValid => .hub
  | .qctCadPat => .hub
  | .qctCadLen => .hub
  | .fstSys => .hub
  | .fstSysmask => .hub
  | .fstTiming => .hub
  | .fstBound => .hub
  | .fstPortCfg => .hub
  | .fstPortStat => .hub
  | .fstPortMap => .hub
  | .fstPortErr => .hub
  | .fstSpare => .hub
  | .fstRoute => .hub
  | .pwrDom => .ao
  | .clkAclk => .hub
  | .pwrVarr => .hub
  | .clkStat => .hub
  | .pwrStatus => .hub
  | .pwrWakecfg => .ao
  | .pwrWake => .ao
  | .pwrAotmr => .ao
  | .pwrAotemp => .ao
  | .timSpine => .ao
  | .timUncert => .ao
  | .timCal => .ao
  | .timAdj => .ao
  | .logCtl => .ao
  | .logAddr => .ao
  | .logDlo => .ao
  | .logDhi => .ao
  | .truAnchorStat => .hub
  | .truAnchorHash => .hub
  | .truOtpdata => .hub
  | .truOtpcmd => .hub
  | .truIdstat => .hub
  | .truAttNonce => .hub
  | .truAttCmd => .hub
  | .truAttStat => .hub
  | .mtrStat => .hub
  | .mtrSeq => .hub
  | .mtrParam => .hub
  | .mtrAudit => .hub
  | .mtrRg => .hub
  | .upkEng => .hub
  | .upkTemp => .hub
  | .upkCur => .hub
  | .upkColmap => .hub
  | .upkColrep => .hub
  | .upkColrepDst => .hub
  | .upkLane => .hub
  | .padBank => .ao
  | .padHold => .ao
  | .padI3c => .ao
  | .awlCtl => .quadrant
  | .awlStat => .quadrant
  | .awlFault => .quadrant
  | .awlMaddr => .quadrant
  | .awlMdata => .quadrant
  | .gthCfg => .quadrant
  | .gthDchk => .quadrant
  | .gthFerr => .quadrant
  | .gthQdesc => .quadrant
  | .gthQwm => .quadrant
  | .gthQptr => .quadrant
  | .gthCrc => .quadrant

/-- Every register, in the order of its offset. -/
def RegId.all : List RegId :=
  List.flatten [
    ([.hubId, .hubB2win, .hubReset, .hubBoot, .hubBootpol, .hubBrsel, .hubBrdata, .hubHqCfg, .hubHqSq, .hubHqAq, .hubHqRq, .hubHqXq] : List RegId),
    ([.hubHqXstg, .hubHqStat, .hubDbSqt, .hubDbAqh, .hubDbRqh, .hubDbXqh, .hubMsixTbl, .hubMsixPba, .colCtl, .colStatus, .colAffHold, .colLedger] : List RegId),
    ([.colDlCfg, .colFn, .colEv, .colTim, .colLock, .colStrCfg, .colStrStat, .colTskCfg, .colTskCores, .colStrAcc, .colStrRet, .colStrRsb] : List RegId),
    ([.colStrHoles, .spnErr, .spnTrcCtl, .spnTrcAddr, .spnTrcDlo, .spnTrcDhi, .spnSta, .spnRg, .spnPrbCfg, .spnPrbMatch, .spnPrbMask, .spnPrbCnt] : List RegId),
    ([.memStat, .memScrub, .memRetrain, .memRetire, .memSecclr, .memPart, .memChStat, .bndCtl, .bndSrc, .bndCmd, .bndStat, .bndCase] : List RegId),
    ([.bndLimit, .bndHash, .qctCfg, .qctCommitted, .qctExec, .qctStatus, .qctReplays, .qctStretch, .qctFault, .qctTokenTo, .qctCtl, .qctHold] : List RegId),
    ([.qctRbSel, .qctRbDst, .qctRbStat, .qctBmkCtl, .qctBmkDst, .qctBmkStat, .qctBmkSize, .qctBmkValid, .qctCadPat, .qctCadLen, .fstSys, .fstSysmask] : List RegId),
    ([.fstTiming, .fstBound, .fstPortCfg, .fstPortStat, .fstPortMap, .fstPortErr, .fstSpare, .fstRoute, .pwrDom, .clkAclk, .pwrVarr, .clkStat] : List RegId),
    ([.pwrStatus, .pwrWakecfg, .pwrWake, .pwrAotmr, .pwrAotemp, .timSpine, .timUncert, .timCal, .timAdj, .logCtl, .logAddr, .logDlo] : List RegId),
    ([.logDhi, .truAnchorStat, .truAnchorHash, .truOtpdata, .truOtpcmd, .truIdstat, .truAttNonce, .truAttCmd, .truAttStat, .mtrStat, .mtrSeq, .mtrParam] : List RegId),
    ([.mtrAudit, .mtrRg, .upkEng, .upkTemp, .upkCur, .upkColmap, .upkColrep, .upkColrepDst, .upkLane, .padBank, .padHold, .padI3c] : List RegId),
    ([.awlCtl, .awlStat, .awlFault, .awlMaddr, .awlMdata, .gthCfg, .gthDchk, .gthFerr, .gthQdesc, .gthQwm, .gthQptr, .gthCrc] : List RegId)]

/-- The index of a register inside its dimensions, `none` where `rel` is no register of the array. -/
def dimIndex : List (Nat × Nat) → Nat → Nat → Option Nat
  | [], rel, acc => if rel = 0 then some acc else none
  | (n, st) :: ds, rel, acc =>
    if rel / st < n then dimIndex ds (rel % st) (acc * n + rel / st) else none

/-- The index of register `r` at BAR0 offset `off` as function `fn` sees it. -/
def RegId.indexAt (r : RegId) (fn off : Nat) : Option Nat :=
  match r.place with
  | .at base dims => if off < base then none else dimIndex dims (off - base) 0
  | .perFunction base words =>
    if off < base ∨ base + 8 * words ≤ off ∨ (off - base) % 8 ≠ 0 then none
    else some (fn * words + (off - base) / 8)
  | .perContext rel =>
    if off = 0x400100 + rel then some 16
    else if off = 0x400200 + rel then some 17
    else if 0x401000 + rel ≤ off ∧ (off - 0x401000 - rel) % 0x100 = 0 ∧ (off - 0x401000 - rel) / 0x100 < 16 then
      some ((off - 0x401000 - rel) / 0x100)
    else none

/-- The register and index at an offset of BAR0 (R272, R273). -/
def regAt (fn off : Nat) : Option (RegId × Nat) :=
  RegId.all.findSome? fun r => (r.indexAt fn off).map fun i => (r, i)

/-- The offset of entry `idx` of an array of registers. -/
def dimOffset : List (Nat × Nat) → Nat → Nat
  | [], _ => 0
  | (n, st) :: ds, idx =>
    let inner := (ds.map Prod.fst).foldl (· * ·) 1
    (idx / inner % n) * st + dimOffset ds (idx % inner)

/-- The BAR0 offset of a register (for the log entries of R472). -/
def RegId.offset (r : RegId) (idx : Nat) : Nat :=
  match r.place with
  | .at base dims => base + dimOffset dims idx
  | .perFunction base words => base + 8 * (idx % words)
  | .perContext rel =>
    if idx = 16 then 0x400100 + rel else if idx = 17 then 0x400200 + rel else 0x401000 + 0x100 * idx + rel

/-- Bits `lo` to `lo + w - 1`. -/
def bitMask (w lo : Nat) : BitVec 64 := BitVec.ofNat 64 ((2 ^ w - 1) * 2 ^ lo)

/-- The bits of a register that satisfy a test of their field's row. -/
def RegId.maskOf (r : RegId) (p : FieldRow → Bool) : BitVec 64 :=
  r.fields.foldl (fun m f => if p f then m ||| bitMask f.width f.lo else m) 0

def Access.stores (a : Access) : Bool := a == .rw || a == .rwl

/-- The reset value of a register: its table's column, and the values that depend on the index. -/
def RegId.resetVal (r : RegId) (idx : Nat) : BitVec 64 :=
  match r with
  | .hubMsixTbl => if idx % 2 = 1 then BitVec.ofNat 64 (2 ^ 32) else 0
  | .colFn => if idx = 0 then 7 else 5
  | .pwrDom => BitVec.ofNat 64 (2 * 2 ^ 36 + if idx < 2 then 0 else 1)
  | .spnRg => if idx = 33 then BitVec.ofNat 64 (1024 + 8 * 2 ^ 16) else BitVec.ofNat 64 (128 + 8 * 2 ^ 16)
  | .bndLimit => if idx = 0 then 0xFFFF83E0 else 0
  | .fstPortMap => (List.range 8).foldl (fun m j => m ||| BitVec.ofNat 64 ((8 * idx + j) * 2 ^ (7 * j))) 0
  | .upkEng =>
    BitVec.ofNat 64 (1 + 2 * ([60000, 60000, 100, 1000, 1, 3600000].getD idx 0))
  | .truAnchorStat => if idx = 0 then 1 else 0
  | .truAttCmd => if idx = 0 then 0 else BitVec.ofNat 64 (2 ^ 62)
  | _ => r.fields.foldl (fun m f => m ||| BitVec.ofNat 64 (f.rst * 2 ^ f.lo)) 0

end Sys2Proof.Machine
end

