-- ==== Sys2Proof/Machine/AwlState.lean ====
section
/-!
DEFINITION. The state of the 64 Awl cores (07_awl_cores.md) and of the spine rings (11_spine_rings.md).
-/
namespace Sys2Proof.Machine

/-! ### Awl cores -/

/-- What a level in WAIT waits for (R203). -/
inductive WaitFor where
  /-- The Collator's response to an instruction (R226, in table order) that writes RD. -/
  | collator (op rd : Nat)
  /-- Tags of a mask to be free (R225). -/
  | tags (mask : BitVec 16)
  /-- A lock whose request the Collator has acknowledged and queued (R263). -/
  | lock (rd : Nat)
  /-- A `yield` that the Collator has acknowledged. -/
  | yielded
  deriving DecidableEq, Repr

inductive LevelState where
  | idle
  | ready
  | wait (w : WaitFor)
  | frozen
  deriving DecidableEq, Repr, Inhabited

/-- A press accumulation on its way (R217): the accumulator, operation, mode CPX, saturation, product, and the level's
own cycle in which it was issued; after a level switch, the completed value (R218). -/
structure PressFlight where
  acc : Nat
  pop : Nat
  cpx : Bool
  sat : Bool
  p : Int
  /-- Imaginary lane in CPX. -/
  pi : Int
  issued : Nat
  shadow : Option Acc := none
  deriving DecidableEq, Repr

/-- A transfer tag (R225). -/
structure XferTag where
  busy : Bool := false
  status : Nat := 0
  count : Nat := 0
  get : Bool := false
  dmem : Nat := 0
  /-- Responses awaited, and the first failure that one of them reported. -/
  left : Nat := 0
  fail : Nat := 0
  /-- Remote address and words of a second packet that waits for the response to the first (R224). -/
  rest : Option (Word × List Word) := none
  deriving DecidableEq, Repr, Inhabited

/-- A level: its bank and its state (R202, R203). -/
structure Level where
  state : LevelState := .idle
  g : Sparse RWord := {}
  /-- Four physical windows of 16, keyed 16 × window + register. -/
  win : Sparse RWord := {}
  link : Sparse Nat := {}
  acc : Sparse Acc := {}
  p : Sparse RWord := {}
  pcfg : Sparse RWord := {}
  st : RWord := {}
  wstat : RWord := ⟨4, 1⟩
  lsm : RWord := {}
  bexp : RWord := ⟨39, 0⟩
  sparea : RWord := {}
  bankwin : RWord := {}
  pc : Nat := 0
  flights : List PressFlight := []
  tags : Sparse XferTag := {}
  /-- Own cycles of the level's instruction stream (R218). -/
  own : Nat := 0
  /-- Destination of a load in the last instruction (R230). -/
  loaded : Option Nat := none
  /-- The activation has a current item (R226, R227). -/
  hasItem : Bool := false
  deriving DecidableEq, Repr, Inhabited

structure AwlCore where
  running : Option Nat := none
  /-- The level that ran last: a level that waits and goes on without another one between makes no switch (R205). -/
  last : Option Nat := none
  cycle : BitVec 40 := 0
  /-- Repetitions left of the instruction at the PC (R221). -/
  rep : Option Nat := none
  imem : Sparse (BitVec 44) := {}
  dmem : Sparse (BitVec 44) := {}
  levels : Sparse Level := {}
  deriving DecidableEq, Repr, Inhabited

/-! ### Spine rings -/

/-- A flit: header and payload sector (R310, R312). The model's own marks say which request it belongs to or answers, and
at which sending of it (log entry 114). -/
structure Flit where
  h : BitVec 64
  p : BitVec 512
  id : Nat := 0
  turn : Nat := 0
  deriving DecidableEq, Repr, Inhabited

/-- A request sent and not yet answered (R322, R324). -/
structure OutReq where
  id : Nat := 0
  client : Nat
  tag : Nat
  dst : Nat
  kind : Nat
  flits : List Flit
  resends : Nat := 0
  /-- Response flits reserved for it in the buffer of its client (R322). -/
  held : Nat := 0
  /-- Its response is to be discarded (R228, R234). -/
  void : Bool := false
  deriving DecidableEq, Repr

/-- A response kept for a resend (R324). -/
structure KeptResp where
  kind : Nat := 0
  src : Nat
  client : Nat
  tag : Nat
  flits : List Flit
  deriving DecidableEq, Repr

/-- The fraction counter and tokens of a regulator (R318); the tokens are the register's field. -/
structure Regulator where
  frac : Nat := 0
  deriving DecidableEq, Repr, Inhabited

/-- A request flit in an ejection queue: its ring, and NCLK as it came. -/
structure Ejected where
  ring : Nat
  at_ : BitVec 40
  flit : Flit
  deriving DecidableEq, Repr

structure Station where
  /-- The request ejection queues of the two request rings, in order of ejection. -/
  ej : List Ejected := []
  /-- Flits that the consumers have taken from the queues, of packets not whole yet (R325 stage 4). -/
  parts : List Flit := []
  /-- Response flits that wait for their client, by client. -/
  resp : Sparse (List Flit) := {}
  /-- The ring that the packet being injected took, by 2 × client + class (R310). -/
  ringOf : Sparse Nat := {}
  /-- Request flits that wait for injection, by client; response flits likewise. -/
  inj : Sparse (List Flit) := {}
  injResp : Sparse (List Flit) := {}
  out : List OutReq := []
  kept : List KeptResp := []
  reg : Sparse Regulator := {}
  deriving DecidableEq, Repr, Inhabited

structure RingState where
  /-- Keyed 42 × ring + slot. -/
  slots : Sparse (Option Flit) := {}
  stations : Sparse Station := {}
  trace : Sparse (BitVec 128) := {}
  /-- WPTR wrapped to 0 with STOPFULL = 1: nothing is written until STOPFULL is 0 (R329). -/
  traceFull : Bool := false
  /-- Requests sent so far. -/
  sent : Nat := 0
  /-- NCLK cycles since hard reset, modulo 2^40 (R329). -/
  nclk : BitVec 40 := 0
  deriving DecidableEq, Repr, Inhabited

end Sys2Proof.Machine
end

