-- ==== Sys2Proof/Machine/CollState.lean ====
section
/-!
DEFINITION. The state of the Collator, the acceptance ledger and the host queue sets that no register holds
(08_collator.md, 09_host_interface.md, 10_catchwords_and_ledger.md).
-/
namespace Sys2Proof.Machine

/-- Where a work item stands. -/
inductive ItemPos where
  | queued
  | delayed
  | flight (core level : Nat)
  /-- `done` came early under PIPELINED order and is held (R248). -/
  | early
  | completed
  | retired
  deriving DecidableEq, Repr

/-- A queue mark of an entry (R291, R294); `lost`: voided before a commit met it (R302). -/
structure Mark where
  queue : Nat
  rp : Nat
  valid : Bool
  lost : Bool := false
  deriving DecidableEq, Repr

/-- A work item with its ledger entry (R246, R291); an event item has no ledger entry (R240). -/
structure Item where
  id : Nat
  desc : BitVec 256
  fn : Nat
  srcq : Option Nat
  pos : ItemPos
  /-- Returned by `defer` or a task fault: still in flight for STRICT and PIPELINED order (R248). -/
  inFlight : Bool := false
  /-- Placed at the head of its stream's order (R256). -/
  faultCore : Option Nat := none
  heldOut : Bool := false
  marks : List Mark := []
  children : List (Nat × Word) := []
  result : BitVec 16 := 0
  xstaged : Bool := false
  xdone : Bool := false
  /-- The place of its entry in the ledger: sectors 2 × slot and 2 × slot + 1 of each copy (log entry 118). -/
  slot : Nat := 0
  deriving DecidableEq, Repr

inductive DelayWhat where
  | item (id : Nat)
  | timer (t : Nat)
  deriving DecidableEq, Repr

structure DelayEntry where
  due : Nat
  what : DelayWhat
  deriving DecidableEq, Repr

/-- A delay list (R257): the calendar in order of insertion, the sorted tail, the current tick. -/
structure DelayList where
  now : Nat := 0
  calendar : List DelayEntry := []
  tail : List DelayEntry := []
  deriving DecidableEq, Repr, Inhabited

/-- An open activation (R254, R298): its task, current item, last stream and the gives counted. -/
structure Activation where
  task : Nat
  item : Option Nat
  stream : Nat
  gives : Nat := 0
  /-- Owner of the stream of the current or last item (R225, R261). -/
  owner : Nat := 0
  /-- CORES and DLIST of the task as the dispatch found them (R245). -/
  cores : BitVec 64 := 0
  dlist : Nat := 0
  /-- Cause of a task fault whose report waits for a message posted before it. -/
  closing : Option Nat := none
  deriving DecidableEq, Repr

/-- A retirement-queue record (R277, R306). -/
structure RqRecord where
  cw : Word
  stream : Nat
  kind : Nat
  result : BitVec 16
  /-- The item whose retirement the record ends (R295), where there is one. -/
  item : Option Nat := none
  deriving DecidableEq, Repr

/-- What a queue set holds beside its registers (R274 to R282). -/
structure QueueSet where
  /-- Records written that the host has not freed. -/
  aqOut : Nat := 0
  rqOut : Nat := 0
  xqOut : Nat := 0
  aqPhase : Bool := true
  rqPhase : Bool := true
  xqPhase : Bool := true
  /-- Next slot of the staging ring. -/
  xslot : Nat := 0
  /-- Records that wait for a free RQ slot. -/
  rqWait : List RqRecord := []
  /-- Vectors with an interval running, and those signalled when it ends (R280). -/
  itrOpen : List Nat := []
  itrWait : List Nat := []
  deriving DecidableEq, Repr, Inhabited

structure CollState where
  /-- The tables have been restored since the last reset, and no mirrored object has been lost since (R238, R302, R341). -/
  live : Bool := false
  items : List Item := []
  nextId : Nat := 1
  /-- The items that became ready, in that order (R250); a list of one level is what is of that level. -/
  ready : List Nat := []
  delays : Sparse DelayList := {}
  /-- Keyed 8 × core + level. -/
  acts : Sparse (Option Activation) := {}
  waiters : Sparse (List Nat) := {}
  /-- The above-mark set: catchwords with their streams (R295). -/
  ams : List (Nat × Word) := []
  /-- The holes of each stream's open range as runs, lowest first (R303). -/
  holes : Sparse (List (Word × Nat)) := {}
  /-- Runs of abandoned catchwords that RET has not passed and for which the above-mark set has no space yet: stream, first,
  count (log entry 39). -/
  abandoned : List (Nat × Word × Nat) := []
  /-- The channel that failed, until the ledger copy that it held has been rebuilt in another (R302). -/
  lost : Option Nat := none
  /-- Streams whose range has not been reported to its queue set yet (R303). -/
  unreported : List Nat := []
  /-- Timers that wait to insert because their list is full (R259), with the tick at which each is due. -/
  missed : List (Nat × Nat) := []
  queueSets : Sparse QueueSet := {}
  deriving DecidableEq, Repr, Inhabited

end Sys2Proof.Machine
end

