-- ==== Sys2Proof/Machine/FuistState.lean ====
section
/-!
DEFINITION. The state of the Fuist ports and of the aligned start that no register holds (06_fuist_and_bound.md).
-/
namespace Sys2Proof.Machine

/-- A frame, bit 1279 first (R166). -/
abbrev Frame := BitVec 1280

/-- A lane substitution in progress on a port (R186). -/
structure LaneSub where
  requester : Bool
  lane : Nat
  /-- This end's spare and the peer's spare it is cabled to. -/
  spare : Nat
  pspare : Nat
  /-- This end's switch codeword count, and the peer's once known. -/
  swcw : Nat
  peerSwcw : Option Nat
  txMoved : Bool := false
  rxMoved : Bool := false
  /-- ACCEPT has come from the responder. -/
  accepted : Bool := false
  peerDone : Bool := false
  doneSent : Bool := false
  /-- The register writes of step 5 are made. -/
  noted : Bool := false
  deriving DecidableEq, Repr

/-- An ASYNC transaction being assembled (R187): its virtual channel, source device, stream and catchword. -/
structure AsyncPart where
  vc : Nat
  src : Nat
  stream : Nat
  cw : Word
  words : List Word
  deriving DecidableEq, Repr

structure Port where
  /-- Codeword counts, transmitted and expected (R165). -/
  txCount : Nat := 0
  rxCount : Nat := 0
  /-- The last 58 scrambled bits sent and received (R163). -/
  txScr : BitVec 58 := 0
  rxScr : BitVec 58 := 0
  /-- Good frames received and not yet taken, oldest first, with their position. -/
  rx : List (Nat × Frame) := []
  /-- Frames that wait for a position, oldest first, by class (R169). -/
  txToken : List Frame := []
  txSys : List Frame := []
  txExch : List Frame := []
  txData : List Frame := []
  linkDue : Bool := false
  /-- SEQ of the next frame, SEQ expected, frames not acknowledged with their SEQ, resends without an advance. -/
  seq : Nat := 0
  expSeq : Nat := 0
  unacked : List (Nat × Frame) := []
  resends : Nat := 0
  /-- Frames to be sent again, oldest first (R184). -/
  again : List (Nat × Frame) := []
  nak : Option Nat := none
  /-- Credit held of the peer for VC0 and VC1 (R185). -/
  cred0 : Nat := 256
  cred1 : Nat := 256
  parts : List AsyncPart := []
  sub : Option LaneSub := none
  /-- A REQUEST to be refused: its lane, this end's spare and the peer's. -/
  refuse : Option (Nat × Nat × Nat) := none
  /-- The peer a training found: device, port (R193). -/
  peer : Option (Nat × Nat) := none
  peerPwr : Bool := false
  deriving DecidableEq, Repr, Inhabited

/-- A spare lane as trained (R186): the peer's spare index. -/
structure SpareLane where
  trained : Bool := false
  peerSpare : Nat := 0
  peerDev : Nat := 0
  deriving DecidableEq, Repr, Inhabited

/-- A system command that waits for its moment, `due` in ps of SPINE_TIME (R190). -/
structure SysCmd where
  cmd : Nat
  origin : Nat
  cseq : Nat
  w1 : Word
  due : Int
  deriving DecidableEq, Repr

structure FuistState where
  ports : Sparse Port := {}
  spares : Sparse SpareLane := {}
  /-- System commands seen, (ORIGIN, CSEQ) (R189). -/
  seenCmds : List (Nat × Nat) := []
  cseq : Nat := 0
  scheduled : List SysCmd := []
  /-- The device pulls BOUND_N low (R194). -/
  pull : Bool := true
  deriving DecidableEq, Repr, Inhabited

end Sys2Proof.Machine
end

