-- ==== Sys2Proof/Machine/SysState.lean ====
section
/-!
DEFINITION. The state of the loader, pads, bookmarks, meter, trust engine, power, boot, upkeep engines and test ports
that no register holds (13_binding_images.md to 20_package_and_board.md).
-/
namespace Sys2Proof.Machine

/-- What stands on a pad: high impedance with weak pull-down, or a driven level. -/
inductive PadDrive where
  | hiZ
  | low
  | high
  deriving DecidableEq, Repr, Inhabited

/-- A user pad (R357, R366, R440). -/
structure Pad where
  /-- Its entry in the PAD frame last written for the region that claims it. -/
  entry : Option (BitVec 64) := none
  /-- The level shown when the load began, for SAFE = 0b11. -/
  kept : PadDrive := .hiZ
  /-- The drive latched in AO. -/
  latch : PadDrive := .hiZ
  deriving DecidableEq, Repr, Inhabited

/-- A request of a load context (R359). -/
structure LoadJob where
  ctx : Nat
  fn : Nat
  srcsel : Nat
  src : Nat
  len : Nat
  autocase : Bool
  repair : Bool
  /-- A boot load, which signals no requester. -/
  boot : Bool := false
  /-- Of a flash write (context F): the slot it names. -/
  slot : Nat := 0
  deriving DecidableEq, Repr

/-- A manifest entry (R354). -/
structure ManifestEntry where
  fa : Nat
  len : Nat
  digest : List Byte
  deriving DecidableEq, Repr

/-- A region descriptor of an image (R353): its first 64 bytes, its cadence patterns and lengths. -/
structure RegionDesc where
  d : BitVec 512
  pat : List (BitVec 64)
  len : List Nat
  deriving DecidableEq, Repr

/-- The load being served (R360, R362). -/
structure Serving where
  job : LoadJob
  kind : Nat
  anchor : Nat
  descs : List RegionDesc
  manifest : List ManifestEntry
  /-- SHA-256 of the header and manifest. -/
  hash : List Byte
  /-- Byte offset of the next frame record. -/
  offset : Nat
  /-- Manifest entries taken. -/
  taken : Nat := 0
  wrote : Bool := false
  deriving DecidableEq, Repr

/-- A flash write in progress (R372). -/
structure FlashJob where
  slot : Nat
  image : List Byte
  fn : Nat
  deriving DecidableEq, Repr

/-- What the loader recorded for a core (R421). -/
structure CoreImage where
  loaded : Bool := false
  imemw : Bool := false
  hash : List Byte := List.replicate 32 0
  deriving DecidableEq, Repr, Inhabited

inductive OpKind where
  | readback
  | capture
  | restore
  deriving DecidableEq, Repr

/-- A readback, capture or restore in progress (R381 to R391). -/
structure RegionOp where
  kind : OpKind
  /-- The hold it waits for, or waited for, was the device's own (R382). -/
  ownHold : Bool := false
  slot : Nat := 0
  full : Bool := false
  /-- The owner's function that asked for it. -/
  fn : Nat := 0
  /-- A restore that began in UNBOUND (R391). -/
  unbound : Bool := false
  /-- The bookmark engine has started (R389). -/
  started : Bool := false
  deriving DecidableEq, Repr

/-- An index of a bookmark (R388), held as data (log entry 13). -/
structure BookIndex where
  quire : Nat
  incr : Bool
  parent : Option Nat
  ngth : Nat
  dst : Nat
  sectors : Nat
  hash : List (BitVec 64)
  /-- First sector of each part: two entries for each gathering, none where the parent's is taken. -/
  entries : List (Option Nat)
  deriving DecidableEq, Repr

/-- The counters that the meter keeps in its store (R399). -/
structure MeterCounts where
  runUs : Sparse (BitVec 64) := {}
  acc : Sparse (BitVec 96) := {}
  mt : BitVec 64 := 0
  seq : BitVec 64 := 0
  poweron : BitVec 32 := 0
  audit : BitVec 32 := 0
  rejcnt : BitVec 32 := 0
  deriving DecidableEq, Repr, Inhabited

/-- Sealed parameters accepted and not yet in effect (R405, R407). -/
structure SealParams where
  intervalS : BitVec 32
  unit : BitVec 32
  wiring : List (Bool × Nat)
  deriving DecidableEq, Repr

/-- A snapshot that waits to be signed (R400): reason and the body of its record. -/
structure MeterSnap where
  reason : Nat
  body : List Byte
  deriving DecidableEq, Repr

/-- The Waila meter (R394 to R409). -/
structure Meter where
  cnt : MeterCounts := {}
  /-- The two non-volatile copies with their generation numbers, of which the newer is first. -/
  nv : List (Nat × MeterCounts) := [(0, {}), (0, {})]
  nb : Sparse (BitVec 19) := {}
  stale : Bool := false
  intervalS : BitVec 32 := 60
  unit : BitVec 32 := 1000000
  /-- VALID and WIRE of each channel (R405). -/
  wiring : List (Bool × Nat) := (List.range 16).map fun r => (true, r)
  sampled : BitVec 16 := 0
  /-- Counters lost (R399). -/
  fault : Bool := false
  factoryAudit : BitVec 32 := 0
  serial : BitVec 64 := 0
  authHash : List Byte := List.replicate 32 0
  /-- The device's meter public key (R403). -/
  pubKey : List Byte := List.replicate 60 0
  snaps : List MeterSnap := []
  /-- The last 16 records by slot, and the slot of the newest. -/
  records : Sparse (List Byte) := {}
  nrec : Nat := 0
  newest : Nat := 0
  lastMt : Option (BitVec 64) := none
  /-- MT of the last interval record. -/
  intervalAt : Option (BitVec 64) := none
  sealQueue : List SealParams := []
  /-- Next signature index (R404). -/
  leafIndex : Nat := 0
  rptr : Nat := 0
  powered : Bool := true
  addr : BitVec 3 := 7
  dynAddr : BitVec 7 := 0
  /-- Records that the hub has received, by slot, the public key as it shows it, and the slot sent next (R402, R410). -/
  shown : Sparse (List Byte) := {}
  shownKey : List Byte := []
  shownNext : Nat := 0
  deriving DecidableEq, Repr, Inhabited

/-- A binding message on its way (R395). -/
structure BindingMsg where
  seq : Nat
  ng : List Nat
  deriving DecidableEq, Repr

/-- A wake sequence in progress (R443): the step that hangs (10 + d: domain d of W7), whether it was retried, the steps
after it. -/
structure Wake where
  step : Nat
  retried : Bool := false
  left : List Nat := []
  deriving DecidableEq, Repr

/-- A boot in progress (R454, R455). -/
structure Boot where
  kind : Nat
  /-- The step that hangs, or S12 that waits, with its attempts; 0: none. -/
  step : Nat := 0
  attempt : Nat := 0
  /-- The steps after it. -/
  left : List Nat := []
  /-- The slot S4 chose: 0 A, 1 B, 2 endpaper, 3 none; whether R459 chose it. -/
  slot : Nat := 3
  flip : Bool := false
  deriving DecidableEq, Repr

/-- An attestation request (R420). -/
structure AttRequest where
  fn : Nat
  scope : Bool
  sector : Nat
  deriving DecidableEq, Repr

/-- A column move (R467): quadrant, first sector, and the gatherings captured in order. -/
structure ColMove where
  q : Nat
  pg : Nat
  dst : Nat
  gths : List Nat
  /-- Gatherings whose write-back is still to come; none before the capture completes. -/
  left : List Nat := []
  deriving DecidableEq, Repr

/-- The place of Completion Timeout in the AER uncorrectable error status, as PCI Express gives it (log entry 8). -/
def completionTimeout : Nat := 14

/-- A function's PCIe configuration space as far as a command reads or changes it (R268, R452): the size that its Resizable
BAR capability sets for BAR2, and the uncorrectable errors that AER reports. -/
structure PcieFn where
  bar2Size : Nat := 2 ^ 30
  uncor : BitVec 32 := 0
  deriving DecidableEq, Repr, Inhabited

/-- The JTAG instruction in force (R487). -/
inductive Jtag where
  | bypass
  | sample
  | idcode
  | extest
  | clamp
  | highz
  | bndstream
  | bndstat
  deriving DecidableEq, Repr, Inhabited

structure SysState where
  pads : Sparse Pad := {}
  /-- The VSEL that a latched bank takes at its release (R483). -/
  bankNext : Sparse (Option Nat) := {}
  /-- Flash bytes; an unlisted one is erased, 0xFF (R371). -/
  flash : Sparse (BitVec 8) := {}
  jobs : List LoadJob := []
  /-- The request being served, and what steps 0 to 3 of R360 made of it. -/
  current : Option LoadJob := none
  serving : Option Serving := none
  /-- Bytes of the image that have arrived from the host or JTAG and are not yet consumed. -/
  inBuf : List Byte := []
  flashJob : Option FlashJob := none
  /-- Slots whose commit record was written since the last boot (R459). -/
  fresh : List Nat := []
  cores : Sparse CoreImage := {}
  ops : Sparse (Option RegionOp) := {}
  /-- Bookmark indexes by 64 × region + slot. -/
  indexes : Sparse (Option BookIndex) := {}
  meter : Meter := {}
  bindSeq : Nat := 0
  bindMsg : Option BindingMsg := none
  attWait : List AttRequest := []
  attBody : Option (AttRequest × List Byte) := none
  /-- Slots of OTP being programmed, oldest first (R415). -/
  otpBusy : List Nat := []
  /-- The identity public key (R417). -/
  idKey : List Byte := List.replicate 60 0
  /-- Domains retried with the alternate regulator phase set (R427). -/
  retriedDom : List Nat := []
  /-- The device is tripped (R436). -/
  tripped : Bool := false
  wake : Option Wake := none
  /-- Wake events that came while the device powered down or was tripped. -/
  wakeWait : Option Nat := none
  /-- Step and attempts of the last sequence that ended in WAKE_FAIL, as MRAM keeps them (R444). -/
  wakeFailed : Option (Nat × Nat) := none
  /-- AO clock phase, in AO cycles × 100 (R438). -/
  aoPhase : Nat := 0
  /-- TCLK runs. -/
  tclk : Bool := false
  /-- Readings of a domain's current in the last 1 s, newest first; none for an implausible one (R464). -/
  recentCur : Sparse (List (Option Nat)) := {}
  boot : Option Boot := none
  /-- Boot entries, newest first: four words, word 0 lowest (R457). -/
  bootRecs : List (BitVec 256) := []
  /-- PCIe link (S10): 0 down, 1 due and waiting for PERST_N, 2 and 4 training hangs at its first or second attempt, 3 up. -/
  link : Nat := 0
  /-- A trip stopped a boot, which resumes as a hard reset (R461). -/
  bootAfter : Bool := false
  /-- Lanes that failed in a training since the last boot, port and lane (R459). -/
  laneFails : List (Nat × Nat) := []
  /-- BOOTNUM under which a channel was retired (R459). -/
  retiredAt : Option Nat := none
  powerLost : Bool := true
  /-- Power removal lost the ledger, and DRAM has not been opened since (R303). -/
  ledgerLost : Bool := true
  perst : Bool := false
  resetLow : Bool := false
  vin : Bool := true
  vsb : Bool := true
  straps : BitVec 3 := 7
  walkPos : Nat := 0
  sweepPos : Nat := 0
  /-- Equaliser position of a lane, and the step last applied to it, by 8 × port + lane. -/
  eqPos : Sparse Int := {}
  eqLast : Sparse Int := {}
  /-- Lanes that have had their step in this pass. -/
  eqDone : List Nat := []
  /-- Offset of each internal rail's regulator in mV, and the rails trimmed in this pass. -/
  railOfs : Sparse Int := {}
  railDone : List Nat := []
  colMove : Option ColMove := none
  statusRead : Bool := false
  /-- By function. -/
  pcie : Sparse PcieFn := {}
  jtag : Jtag := .bypass
  boundary : BitVec 589 := 0
  deriving DecidableEq, Repr, Inhabited

end Sys2Proof.Machine
end

