-- ==== Sys2Proof/Machine/State.lean ====
section
/-!
DEFINITION. The state of the machine: plain data that holds all the spec gives it.
-/
namespace Sys2Proof.Machine

/-- Why the machine stops. -/
inductive Fault where
  /-- Raised by `exec` for a command that is not well formed (WellFormed.lean): no sender can make it. Safe. -/
  | illFormed
  deriving DecidableEq, Repr

/-- Why a command has no meaning. -/
inductive Refusal where
  /-- Raised by an arm of `exec` whose command has no meaning yet. Safe. -/
  | notModelled (mnemonic : String)
  deriving DecidableEq, Repr

/-- What the device sends outward. -/
inductive Out where
  /-- An MSI-X message of a function's vector (R268, R271). -/
  | msix (fn vec : Nat)
  /-- A DMA write to host memory by a function (R275 to R279). -/
  | hostWrite (fn : Nat) (addr : BitVec 64) (bytes : List Byte)
  /-- The completion of a BAR read. -/
  | readData (fn : Nat) (bytes : List Byte)
  /-- A poisoned completion (R284). -/
  | poisoned (fn : Nat)
  /-- Bytes that a private read or a CCC returns on I3C or I2C (R409, R484, R485). -/
  | busRead (target : BusTarget) (bytes : List Byte)
  /-- What Capture-DR loads into the data register that the JTAG instruction selects (R487): bits, and their number. -/
  | capture (bits : Nat) (v : Nat)
  /-- A codeword transmitted on a Fuist port: the symbols of each physical lane (R164). -/
  | codeword (port : Nat) (lanes : List (Nat × List (BitVec 10)))
  deriving DecidableEq, Repr

/-- The state of the machine. -/
structure State where
  /-- The commands that wait, first in first out. -/
  pending : List Instr := []
  /-- The model's own: how many free values have been drawn (log entry 1). -/
  free : Nat := 0
  /-- What has been sent outward, newest first. -/
  outs : List Out := []
  /-- BAR0 registers, keyed 256 × index + register; unlisted: the reset value. -/
  regs : Sparse (BitVec 64) := {}
  /-- Colophon log entries by index (R471). -/
  log : Sparse (BitVec 128) := {}
  /-- Entries written since the log froze (R473). -/
  logSince : Nat := 0
  arr : ArrayState := {}
  fst : FuistState := {}
  col : CollState := {}
  awl : Sparse AwlCore := {}
  ring : RingState := {}
  sys : SysState := {}
  /-- DRAM bytes by 64 × sector + byte: Host.Cell pairs, unlisted ones zero words with a good CRC (R333, R497). -/
  dram : Sparse (BitVec 8) := {}
  /-- The channel that migrates, and its lines copied (R346), of which MIGU records every multiple of 65,536. -/
  migrating : Option Nat := none
  migLine : Nat := 0
  /-- Next channel of a retraining step (R344). -/
  retrainNext : Nat := 0
  deriving DecidableEq, Repr, Inhabited

/-- The machine right after reset: every register at its reset value, everything else at the value its field names. -/
def State.reset : State := {}

end Sys2Proof.Machine
end

