-- ==== Sys2Proof/Machine/Ops.lean ====
section
/-!
DEFINITION. The named operations over registers, the colophon log, MSI-X vectors and the free values, and the work
items that an event source makes: what the meanings of every family share.
-/
namespace Sys2Proof.Machine

/-! ### Outcomes -/

/-- The outcome of a command that goes on. -/
abbrev Result := Host.Outcome State Fault Refusal

/-! ### Lists -/

def insertBy {α : Type} (le : α → α → Bool) (x : α) : List α → List α
  | [] => [x]
  | y :: l => if le x y then x :: y :: l else y :: insertBy le x l

/-- A list in order. -/
def sortBy {α : Type} (le : α → α → Bool) (l : List α) : List α := l.foldr (insertBy le) []

/-! ### Records inside the state -/

def State.onSys (s : State) (f : SysState → SysState) : State := { s with sys := f s.sys }

def State.onArr (s : State) (f : ArrayState → ArrayState) : State := { s with arr := f s.arr }

/-! ### Registers -/

def regKey (r : RegId) (i : Nat) : Nat := 256 * i + r.ctorIdx

/-- What an unlisted register reads as. -/
def regDefault (key : Nat) : BitVec 64 :=
  match RegId.all[key % 256]? with
  | some r => r.resetVal (key / 256)
  | none => 0

/-- A register's 64 bits. -/
def State.reg (s : State) (r : RegId) (i : Nat) : BitVec 64 := s.regs.get regDefault (regKey r i)

def State.setReg (s : State) (r : RegId) (i : Nat) (v : BitVec 64) : State :=
  { s with regs := s.regs.set regDefault (regKey r i) v }

/-- The indices at which an array of registers holds another value than its reset value, in rising order. -/
def State.listed (s : State) (r : RegId) : List Nat :=
  s.regs.entries.filterMap fun e => if e.1 % 256 = r.ctorIdx then some (e.1 / 256) else none

/-- Bits `lo` to `lo + w - 1` replaced. -/
def putBits {n : Nat} (x : BitVec n) (lo w : Nat) (v : BitVec w) : BitVec n :=
  (x &&& ~~~(BitVec.ofNat n ((2 ^ w - 1) * 2 ^ lo))) ||| (v.setWidth n <<< lo)

/-- A field of a register. -/
def State.getF {w : Nat} (s : State) (f : Field w) (i : Nat) : BitVec w :=
  (s.reg f.reg i).extractLsb' f.lo w

def State.putF {w : Nat} (s : State) (f : Field w) (i : Nat) (v : BitVec w) : State :=
  s.setReg f.reg i (putBits (s.reg f.reg i) f.lo w v)

def State.getN {w : Nat} (s : State) (f : Field w) (i : Nat) : Nat := (s.getF f i).toNat

def State.putN {w : Nat} (s : State) (f : Field w) (i : Nat) (v : Nat) : State := s.putF f i (BitVec.ofNat w v)

def State.bitF (s : State) (f : Field 1) (i : Nat) : Bool := s.getF f i == 1#1

def State.setF (s : State) (f : Field 1) (i : Nat) : State := s.putF f i 1#1

def State.clrF (s : State) (f : Field 1) (i : Nat) : State := s.putF f i 0#1

/-- A count that stops at all ones. -/
def State.addF {w : Nat} (s : State) (f : Field w) (i n : Nat) : State :=
  s.putN f i (min (s.getN f i + n) (2 ^ w - 1))

/-! ### Free values and outputs -/

/-- A free value, and the counter advanced (log entry 1). -/
def State.draw (s : State) (w : Nat) : BitVec w × State :=
  (Config.freeBits w s.free, { s with free := s.free + 1 })

def State.emit (s : State) (o : Out) : State := { s with outs := o :: s.outs }

/-! ### MSI-X (R268, R271; the table's layout is log entry 8) -/

/-- Signals vector `vec` of function `fn`: a message, or the pending bit where the vector is masked. -/
def State.signal (s : State) (fn vec : Nat) : State :=
  if (s.reg .hubMsixTbl (fn * 512 + 2 * vec + 1)).getLsbD 32 then
    let i := fn * 4 + vec / 64
    s.setReg .hubMsixPba i (s.reg .hubMsixPba i ||| (1#64 <<< (vec % 64)))
  else s.emit (.msix fn vec)

/-- The event vector of a function (R271). -/
def State.signalOwner (s : State) (fn : Nat) : State := s.signal fn 0

/-! ### Serial numbers (R286, R287) -/

/-- The successor of a catchword. -/
def cwNext (c : Word) : Word := if c = 0xFF_FFFF_FFFF#40 then 1 else c + 1

/-- (b − a) mod 2^40. -/
def cwDist (a b : Word) : Nat := (b - a).toNat

/-- b is at or beyond a (R287). -/
def cwAtOrBeyond (a b : Word) : Bool := cwDist a b < 2 ^ 39

/-! ### Work items -/

namespace D
/-! The fields of a descriptor (R246). -/
def catchword (d : BitVec 256) : Word := d.extractLsb' 0 40
def paddr (d : BitVec 256) : Nat := (d.extractLsb' 40 38).toNat
def afterCw (d : BitVec 256) : Word := d.extractLsb' 80 40
def stream (d : BitVec 256) : Nat := (d.extractLsb' 120 12).toNat
def afterStream (d : BitVec 256) : Nat := (d.extractLsb' 132 12).toNat
def afterEn (d : BitVec 256) : Bool := d.getLsbD 144
def cls (d : BitVec 256) : Nat := (d.extractLsb' 145 2).toNat
def prio (d : BitVec 256) : Nat := (d.extractLsb' 147 3).toNat
def len (d : BitVec 256) : Nat := (d.extractLsb' 160 24).toNat
def user (d : BitVec 256) : Nat := (d.extractLsb' 200 40).toNat
def src (d : BitVec 256) : Nat := (d.extractLsb' 240 10).toNat
def event (d : BitVec 256) : Bool := d.getLsbD 250
def redo (d : BitVec 256) : Bool := d.getLsbD 251
end D

/-- G0 to G6 from a descriptor (R204, R246). -/
def descWords (d : BitVec 256) : List Word :=
  (List.range 7).map fun i => if i < 6 then d.extractLsb' (40 * i) 40 else (d.extractLsb' 240 16).setWidth 40

def State.item? (s : State) (id : Nat) : Option Item := s.col.items.find? fun x => x.id == id

def State.mapItems (s : State) (f : Item → Item) : State := { s with col := { s.col with items := s.col.items.map f } }

def State.updItem (s : State) (id : Nat) (f : Item → Item) : State :=
  s.mapItems fun x => if x.id == id then f x else x

def State.dropItem (s : State) (id : Nat) : State :=
  { s with col := { s.col with
      items := s.col.items.filter (fun x => x.id != id), ready := s.col.ready.filter (· != id) } }

def Item.stream (x : Item) : Nat := D.stream x.desc
def Item.cw (x : Item) : Word := D.catchword x.desc
def Item.event (x : Item) : Bool := D.event x.desc

def Item.setRedo (x : Item) : Item := { x with desc := putBits x.desc 251 1 1#1 }

/-- Not yet dispatched, and not on a delay list. -/
def Item.waiting (x : Item) : Bool := x.pos == .queued

/-- Completed: nothing of the item is left to run. -/
def Item.finished (x : Item) : Bool := x.pos == .completed || x.pos == .retired

/-- KIND of the record that retires the item: VOIDED where a mark was voided before a commit met it, 0 otherwise (R302, R306). -/
def Item.retireKind (x : Item) : Nat := if x.marks.any Mark.lost then 3 else 0

/-- STATE of the item's ledger entry (R291): 1 while it has never been dispatched, 2 while a dispatch of it has not ended in
a recorded completion. -/
def Item.ledgerState (x : Item) : Nat :=
  match x.pos with
  | .queued => if x.inFlight then 2 else 1
  | .delayed | .flight _ _ | .early => 2
  | .completed => 3
  | .retired => 4

/-- The 24 words of an item's ledger entry (R291). -/
def Item.ledgerWords (x : Item) : List Word :=
  let w7 := x.ledgerState + x.fn * 2 ^ 3 + x.srcq.getD 0 * 2 ^ 8 + x.srcq.isSome.toNat * 2 ^ 14 + x.xstaged.toNat * 2 ^ 15 +
    x.xdone.toNat * 2 ^ 16 + x.marks.length * 2 ^ 17 + x.children.length * 2 ^ 21 + x.result.toNat * 2 ^ 24
  let mark (m : Mark) : Word := BitVec.ofNat 40 (m.queue + m.rp * 2 ^ 14 + m.valid.toNat * 2 ^ 39)
  let child (j : Nat) : List Word := match x.children[j]? with
    | some c => [BitVec.ofNat 40 c.1, c.2]
    | none => [0, 0]
  descWords x.desc ++ [BitVec.ofNat 40 w7] ++ ((x.marks.map mark) ++ List.replicate 8 0).take 8 ++
    (List.range 4).flatMap child

def strict : Nat := 0
def pipelined : Nat := 1

/-- Items in flight of a stream (R248). -/
def State.inflight (s : State) (st : Nat) : Nat :=
  (s.col.items.filter fun x =>
    x.stream == st && (x.inFlight || (match x.pos with | .flight _ _ => true | _ => false) || x.pos == .early)).length

/-- Whether `y` comes before `x` in the order of their stream: by catchword for ledger items, by arrival for events. -/
def State.before (s : State) (y x : Item) : Bool :=
  if x.event then decide (y.id < x.id)
  else
    let ret := s.getF F.colStrRet_ret x.stream
    decide (cwDist ret y.cw < cwDist ret x.cw)

/-- R249: the retired watermark of AFTER_STREAM is at or beyond AFTER_CW. -/
def State.afterMet (s : State) (x : Item) : Bool :=
  !D.afterEn x.desc || cwAtOrBeyond (D.afterCw x.desc) (s.getF F.colStrRet_ret (D.afterStream x.desc))

/-- R304: a STRICT or PIPELINED stream dispatches no item at or beyond its lowest hole. -/
def State.belowHoles (s : State) (x : Item) : Bool :=
  match (s.col.holes.at x.stream).head? with
  | none => true
  | some (h, _) =>
    let ret := s.getF F.colStrRet_ret x.stream
    decide (cwDist ret x.cw < cwDist ret h)

/-- Whether R248, R249, R304, R244, R245 and R256 permit the dispatch of a queued item. -/
def State.permitted (s : State) (x : Item) : Bool :=
  let st := x.stream
  let cl := s.getN F.colStrCfg_class st
  let others := s.col.items.filter fun y => y.stream == st && y.id != x.id && !y.finished
  let order :=
    if cl = strict then
      others.all (fun y => !s.before y x) &&
        (x.inFlight || others.all fun y => !(y.inFlight || (match y.pos with | .flight _ _ => true | _ => false)))
    else if cl = pipelined then
      others.all (fun y => !(y.waiting && s.before y x)) &&
        (x.inFlight || decide (s.inflight st < s.getN F.colStrCfg_limit st))
    else true
  x.waiting && s.bitF F.colStrCfg_en st && s.getN F.colStrStat_state st != 2 &&
    s.bitF F.colTskCfg_en (s.getN F.colStrCfg_task st) &&
    (x.event || (s.afterMet x && (cl == 2 || s.belowHoles x))) && order

/-- Items that became ready together: lowest stream first, then catchword (R250). -/
def insertReady (s : State) (x : Item) : List Item → List Item
  | [] => [x]
  | y :: ys =>
    if x.stream < y.stream ∨ (x.stream = y.stream ∧ s.before x y) then x :: y :: ys else y :: insertReady s x ys

/-- The ready lists brought up to date: items newly permitted join at the tail, items no longer waiting leave. -/
def State.refreshReady (s : State) : State :=
  let fresh := (s.col.items.filter fun x => s.permitted x && !s.col.ready.contains x.id).foldl
    (fun acc x => insertReady s x acc) []
  let kept := s.col.ready.filter fun id => match s.item? id with
    | some x => x.waiting
    | none => false
  { s with col := { s.col with ready := kept ++ fresh.map (·.id) } }

/-- The state a stream reports (R249, R256, R265). A STALLED stream stays so until RESUME or CANCEL, disabled or not. -/
def State.refreshStream (s : State) (st : Nat) : State :=
  let blocked := s.getN F.colStrCfg_class st ≠ 2 ∧
    (s.col.items.any fun x => x.stream == st && x.waiting && !x.event && !s.afterMet x) = true
  let code := if s.getN F.colStrStat_state st = 2 then 2
    else if s.bitF F.colStrCfg_en st = false then 0
    else if blocked then 3 else 1
  let mine := s.col.items.filter fun x => x.stream == st && !x.event
  let queued := (mine.filter fun x => x.pos == .queued && !x.inFlight).length
  ((s.putN F.colStrStat_state st code).putN F.colStrStat_queued st queued).putN F.colStrStat_inflight st
    (min (s.inflight st) 127)

/-- What the Collator reports of the streams that hold items, and its ready lists, brought up to date. -/
def State.settle (s : State) : State :=
  (s.col.items.map Item.stream).eraseDups.foldl State.refreshStream s.refreshReady

/-- An event item of source `m` that has not been dispatched (R241). -/
def Item.undispatched (x : Item) (m : Nat) : Bool := x.event && D.src x.desc == m && x.pos == .queued && !x.inFlight

/-- The descriptor of an event item (R240). -/
def eventDesc (src stream count : Nat) : BitVec 256 :=
  BitVec.ofNat 256 (stream * 2 ^ 120 + count * 2 ^ 200 + src * 2 ^ 240 + 2 ^ 250)

/-- Raises Collator event source `m` (R239 to R241). -/
def State.raise (s : State) (m : Nat) : State :=
  let s := s.addF F.colEv_raises m 1
  if s.bitF F.colEv_en m = false then s
  else
    match s.col.items.find? (fun x => x.undispatched m) with
    | some x =>
      s.updItem x.id fun y =>
        { y with desc := putBits y.desc 200 16 (BitVec.ofNat 16 (min (D.user y.desc % 2 ^ 16 + 1) 0xFFFF)) }
    | none =>
      let st := s.getN F.colEv_stream m
      let x : Item := { id := s.col.nextId, desc := eventDesc m st 1, fn := 0, srcq := none, pos := .queued }
      ({ s with col := { s.col with items := s.col.items ++ [x], nextId := s.col.nextId + 1 } }.setF
        F.colEv_pend m).refreshReady

/-! ### The colophon log (R471 to R473) -/

/-- The SRC of a register's offset (R471). -/
def srcOfOffset (off : Nat) : Nat :=
  if off < 0x0100_0000 then (let b := off / 0x10_0000; if b ≥ 14 then 0x0F else b)
  else if off < 0x0200_0000 then 0x10 + (off - 0x0100_0000) / 0x40000
  else 0x0E

/-- Writes an entry: SRC, CODE and ARG under the time, and freezes the log where CODE's level says so. -/
def State.logEntry (s : State) (src code arg : Nat) : State :=
  let e : BitVec 128 := BitVec.ofNat 128
    ((s.reg .timSpine 0).toNat % 2 ^ 56 + src * 2 ^ 56 + code * 2 ^ 64 + (arg % 2 ^ 48) * 2 ^ 80)
  let w := s.getN F.logCtl_wptr 0
  let frozen := s.bitF F.logCtl_frozen 0
  let level := code / 2 ^ 13
  let fl := s.getN F.logCtl_freeze_level 0
  if frozen && decide (2048 ≤ s.logSince) then s.addF F.logCtl_lost 0 1
  else
    let s := { s with log := s.log.put w e, logSince := if frozen then s.logSince + 1 else 0 }
    let s := (s.putN F.logCtl_wptr 0 ((w + 1) % 4096))
    let s := if w = 4095 then s.setF F.logCtl_wrap 0 else s
    if !frozen && decide (fl ≠ 0) && decide (fl ≤ level) then
      (((s.setF F.logCtl_frozen 0).setF F.logCtl_freeze_ev 0).putN F.logCtl_frzidx 0 w).raise 922
    else s

/-- An entry of CODE 0x4003, OTHER: the register that records the event (R472). -/
def State.logOther (s : State) (r : RegId) (i : Nat) : State :=
  s.logEntry (srcOfOffset (r.offset i)) 0x4003 (r.offset i)

/-- An entry of CODE 0x2001, REFUSED: offset and function (R472, R496). -/
def State.logRefused (s : State) (fn : Nat) (off : Nat) : State :=
  s.logEntry (srcOfOffset off) 0x2001 (off + fn * 2 ^ 26)

/-! ### A register write as a whole (R8, R496) -/

/-- What the fields of a register take from a written value: RW fields store, W1C bits clear, W1S bits set. -/
def RegId.rwMask (r : RegId) : BitVec 64 := r.maskOf fun f => f.acc.stores
def RegId.w1cMask (r : RegId) : BitVec 64 := r.maskOf fun f => f.acc == .w1c
def RegId.woMask (r : RegId) : BitVec 64 := r.maskOf fun f => f.acc == .wo

def RegId.rcMask (r : RegId) : BitVec 64 := r.maskOf fun f => f.acc == .rc

/-- What a read leaves of a register: its RC fields take their reset values. -/
def State.clearRc (s : State) (r : RegId) (i : Nat) : State :=
  s.setReg r i ((s.reg r i &&& ~~~r.rcMask) ||| (r.resetVal i &&& r.rcMask))

def State.clearW1c (s : State) (r : RegId) (i : Nat) (v : BitVec 64) : State :=
  s.setReg r i (s.reg r i &&& ~~~(v &&& r.w1cMask))

def State.storeRw (s : State) (r : RegId) (i : Nat) (v : BitVec 64) : State :=
  s.setReg r i ((s.reg r i &&& ~~~r.rwMask) ||| (v &&& r.rwMask))

/-- The write changes no stored field and asks for no action: never refused (R496). -/
def State.idleWrite (s : State) (r : RegId) (i : Nat) (v : BitVec 64) : Bool :=
  (v &&& r.rwMask) == (s.reg r i &&& r.rwMask) && (v &&& r.woMask) == 0

/-- R496: the W1C bits first, then either the refusal as a whole with its log entry and status bit, or the stored
fields and the action. -/
def State.writeReg (s : State) (fn : Nat) (r : RegId) (i : Nat) (v : BitVec 64) (refused : Bool)
    (rej : State → State) (act : State → State) : State :=
  let c := s.clearW1c r i v
  if s.idleWrite r i v then c
  else if refused then rej (c.logRefused fn (r.offset i))
  else act (c.storeRw r i v)

/-- The link's domain is on and the device answers on PCIe (R429). -/
def State.hostOn (s : State) : Bool := s.getN F.pwrDom_state 5 == 2

/-- An access of BAR0 reaches its block: until STATE is DONE, only HUB_, TIM_ and LOG_ answer (R455). -/
def State.barOpen (s : State) (off : Nat) : Bool :=
  s.hostOn && (s.getN F.hubBoot_state 0 != 0 ||
    (decide (off < 0x0100_0000) && (off / 0x10_0000 == 0 || off / 0x10_0000 == 8 || off / 0x10_0000 == 9)))

/-- A write of a register through BAR0; one that does not reach its block is discarded without a log entry (R455). -/
def State.bar (s : State) (r : RegId) (i : Nat) (f : State → State) : State :=
  if s.barOpen (r.offset i) then f s else s

/-- A read of a register through BAR0: zero while its block does not answer, nothing while the link is down. -/
def State.barRead (s : State) (fn : Nat) (r : RegId) (i : Nat) (f : State → State) : State :=
  if s.barOpen (r.offset i) then f s
  else if s.hostOn then s.emit (.readData fn (List.replicate 8 0))
  else s

/-- A field of a value that is being written. -/
def fieldOf {w : Nat} (f : Field w) (v : BitVec 64) : Nat := (v.extractLsb' f.lo w).toNat

/-- The write of a function to a register that is not open to it: ignored and logged with the offset and the
function (R265, R272). -/
def State.ignored (s : State) (fn : Nat) (r : RegId) (i : Nat) : State := s.logRefused fn (r.offset i)

end Sys2Proof.Machine
end

