-- ==== Sys2Proof/Machine/Operands.lean ====
section
/-!
DEFINITION. The array's geometry, the operands of a leaf (R63, R66, R117), the words of threads (R110 to R123), and
the destinations of a result (R62).
-/
namespace Sys2Proof.Machine

/-! ### Geometry (R46, R110) -/

/-- Gathering address 1,024q + 32gy + gx. -/
def gthNo (q gx gy : Nat) : Nat := 1024 * q + 32 * gy + gx

def gthAddrNo (g : GthAddr) : Nat := gthNo g.q g.gx g.gy

/-- Number of a cell: 64 × gathering + 8 × ly + lx. -/
def cellNo (q x y : Nat) : Nat := 64 * gthNo q (x / 8) (y / 8) + 8 * (y % 8) + x % 8

def cellAddrNo (c : CellAddr) : Nat := cellNo c.q c.x c.y

def gthQ (g : Nat) : Nat := g / 1024
def gthX (g : Nat) : Nat := g % 32
def gthY (g : Nat) : Nat := g / 32 % 32
def cellX (k : Nat) : Nat := 8 * gthX (k / 64) + k % 8
def cellY (k : Nat) : Nat := 8 * gthY (k / 64) + k / 8 % 8

/-- The neighbour of a gathering by side code: 1 north, 2 east, 3 south, 4 west, 0 itself (R92, R133). -/
def gthSide (g side : Nat) : Option Nat :=
  match side with
  | 0 => some g
  | 1 => if gthY g < 31 then some (g + 32) else none
  | 2 => if gthX g < 31 then some (g + 1) else none
  | 3 => if 0 < gthY g then some (g - 32) else none
  | 4 => if 0 < gthX g then some (g - 1) else none
  | _ => none

/-- Length of a track (R110). -/
def trackLen (k : Nat) : Nat := if k < 6 then 1 else if k < 9 then 4 else if k < 11 then 16 else 64

/-- The cell at the downstream end of segment `seg` of cell `key`. -/
def downCell (key seg : Nat) : Option Nat :=
  let len := trackLen (seg % 12)
  let q := key / 64 / 1024
  let x := cellX key
  let y := cellY key
  match seg / 12 with
  | 0 => if y + len < 256 then some (cellNo q x (y + len)) else none
  | 1 => if x + len < 256 then some (cellNo q (x + len) y) else none
  | 2 => if len ≤ y then some (cellNo q x (y - len)) else none
  | _ => if len ≤ x then some (cellNo q (x - len) y) else none

/-- The cell at the upstream end of the segment that arrives at a terminal. -/
def upCell (key term : Nat) : Option Nat := downCell key (12 * ((term / 12 + 2) % 4) + term % 12)

/-! ### Objects of the array -/

def State.cell (s : State) (key : Nat) : Cell := s.arr.cells.at key
def State.setCell (s : State) (key : Nat) (c : Cell) : State :=
  { s with arr := { s.arr with cells := s.arr.cells.put key c } }
def State.updCell (s : State) (key : Nat) (f : Cell → Cell) : State := s.setCell key (f (s.cell key))

def State.gth (s : State) (g : Nat) : Gth := s.arr.gths.at g
def State.setGth (s : State) (g : Nat) (x : Gth) : State :=
  { s with arr := { s.arr with gths := s.arr.gths.put g x } }
def State.updGth (s : State) (g : Nat) (f : Gth → Gth) : State := s.setGth g (f (s.gth g))

def State.region (s : State) (r : Nat) : Region := s.arr.regions.at r
def State.setRegion (s : State) (r : Nat) (x : Region) : State :=
  { s with arr := { s.arr with regions := s.arr.regions.put r x } }
def State.updRegion (s : State) (r : Nat) (f : Region → Region) : State := s.setRegion r (f (s.region r))

/-- The region of a gathering in use (R151, R155). -/
def State.regionOf (s : State) (g : Nat) : Option Nat :=
  if s.bitF F.gthCfg_inuse g then some (s.getN F.gthCfg_region g) else none

/-- Two gatherings of one region. -/
def State.sameRegion (s : State) (g h : Nat) : Bool :=
  match s.regionOf g, s.regionOf h with
  | some a, some b => a == b
  | _, _ => false

/-- The gatherings of region `r`, in rising order: those whose GTH_CFG names it. -/
def State.gthsOf (s : State) (r : Nat) : List Nat := (s.listed .gthCfg).filter fun g => s.regionOf g == some r

/-- Cells of region `r` that hold anything. -/
def State.cellsOf (s : State) (r : Nat) : List Nat := s.arr.cells.keys.filter fun k => s.regionOf (k / 64) == some r

/-! ### The quire of a region -/

namespace Q
/-! State codes of R34. -/
def unbound : Nat := 0
def casing : Nat := 1
def run : Nat := 2
def stretch : Nat := 3
def replay : Nat := 4
def held : Nat := 5
def qfault : Nat := 6
def tokenLost : Nat := 7
end Q

def State.qstate (s : State) (r : Nat) : Nat := s.getN F.qctStatus_state r
def State.exec (s : State) (r : Nat) : Nat := s.getN F.qctExec_count r
def State.len (s : State) (r : Nat) : Nat := s.getN F.qctCfg_len r
def State.systemMode (s : State) (r : Nat) : Bool := s.bitF F.qctCfg_mode r
def State.stage (s : State) (r : Nat) : Nat := s.getN F.bndCase_stage r

/-- The running wire (R34). -/
def State.running (s : State) (r : Nat) : Bool :=
  (s.qstate r == Q.run || s.qstate r == Q.stretch || s.qstate r == Q.replay)

/-- Leaves execute (R34), in an open computation. -/
def State.executes (s : State) (r : Nat) : Bool :=
  (s.region r).live && !(s.region r).paused &&
    (s.qstate r == Q.casing || s.qstate r == Q.run || s.qstate r == Q.replay)

/-- The stamp of leaf `k` of the computation in progress; 64 × computation is the edge that opens it. -/
def State.stamp (s : State) (r k : Nat) : Nat := 64 * (s.region r).comp + k + 1

/-- This device's index in a vote: 0 in LOCAL mode (R32). -/
def State.ownDev (s : State) (r : Nat) : Nat := if s.systemMode r then s.getN F.fstSys_devidx 0 else 0

/-- QCT_FAULT takes a failure of quire `n` (R32, R181). -/
def State.recordFail (s : State) (r n : Nat) (f : Fail) : State :=
  (((s.putN F.qctFault_device r f.dev).putN F.qctFault_cause r f.cause).putN F.qctFault_gth r f.gth).putN F.qctFault_quire r n

/-- The order of R32 among the failures of a quire, those of an older quire first. -/
def Fail.before (a b : Fail) : Bool :=
  decide (a.quire < b.quire ∨ (a.quire = b.quire ∧ (a.dev < b.dev ∨ (a.dev = b.dev ∧
    (a.cause < b.cause ∨ (a.cause = b.cause ∧ a.gth < b.gth))))))

/-- A failed check charged to a quire (R20, R28). QCT_FAULT of a SYSTEM region takes it as it is found, where no failure that
comes before it has been found (R32, R175; log entry 113); that of a LOCAL region takes it at the vote. -/
def State.chargeTo (s : State) (r quire cause gth : Nat) : State :=
  let f : Fail := { quire, dev := s.ownDev r, cause, gth }
  let first := !(s.region r).fails.any fun o => o.before f
  let s := s.updRegion r fun x => if x.fails.contains f then x else { x with fails := f :: x.fails }
  if s.systemMode r && first then s.recordFail r quire f else s

/-- A failed check of the quire being computed. -/
def State.charge (s : State) (r cause gth : Nat) : State := s.chargeTo r (s.exec r) cause gth

def State.chargeIf (s : State) (bad : Bool) (r cause gth : Nat) : State := if bad then s.charge r cause gth else s

/-- R38, and the suppression of every write in casing-in stage OUT (R367). -/
def State.cadenceOn (s : State) (r cad : Nat) : Bool :=
  let len := s.getN F.qctCadLen_len (64 * r + cad)
  s.stage r != 1 && len != 0 && (s.reg .qctCadPat (64 * r + cad)).getLsbD (s.exec r % len)

def State.cellCadence (s : State) (key : Nat) : Nat :=
  ((s.gth (key / 64)).frame.extractLsb' (32 + 6 * (key % 64)) 6).toNat

/-- Cadences of the units of R151: press 0 and 1, plain folio words, queues 0 to 3. -/
def Gth.unitCadence (x : Gth) (u : Nat) : Nat := (x.frame.extractLsb' (416 + 6 * u) 6).toNat

/-- The capture in use: that of the quire being computed (R24). -/
def State.capture (s : State) (r : Nat) : Capture :=
  ((s.region r).caps.find? fun c => c.quire == s.exec r).getD {}

/-! ### Values as they stood at the start of a leaf -/

def Lag.read {α : Type} (l : Lag α) (t : Nat) : α × Nat := if l.newAt < t then (l.new, l.newAt) else (l.old, l.oldAt)

def Lag.write {α : Type} (l : Lag α) (t : Nat) (x : α) : Lag α :=
  if l.newAt = t then { l with new := x } else { new := x, newAt := t, old := l.new, oldAt := l.newAt }

/-- A word no rule defines: 40 free data bits and two free residue bits. -/
def State.drawWord (s : State) : RWord × State :=
  let (d, s) := s.draw 40
  let (r, s) := s.draw 2
  (⟨d, r⟩, s)

/-- The word, or a free one where no leaf of this quire wrote it (R52, R53, R123). -/
def State.defined (s : State) (t : Nat) (w : RWord) (at_ : Nat) : RWord × State :=
  if at_ / 64 = t / 64 then (w, s) else s.drawWord

/-! ### The leaf's fields (R60, R114) -/

namespace Leaf
def op (l : BitVec 208) : Nat := (l.extractLsb' 73 7).toNat
def pred (l : BitVec 208) : Nat := (l.extractLsb' 70 3).toNat
def dst (l : BitVec 208) : BitVec 6 := l.extractLsb' 64 6
def srcA (l : BitVec 208) : Nat := (l.extractLsb' 58 6).toNat
def srcB (l : BitVec 208) : Nat := (l.extractLsb' 52 6).toNat
def srcC (l : BitVec 208) : Nat := (l.extractLsb' 46 6).toNat
def cw (l : BitVec 208) : Bool := l.getLsbD 45
def flg (l : BitVec 208) : Bool := l.getLsbD 44
def cin (l : BitVec 208) : Nat := (l.extractLsb' 42 2).toNat
def dck (l : BitVec 208) : Bool := l.getLsbD 41
def kex (l : BitVec 208) : Bool := l.getLsbD 40
def imm (l : BitVec 208) : Word := l.extractLsb' 0 40
def insel (l : BitVec 208) (i : Nat) : BitVec 5 := l.extractLsb' (80 + 5 * i) 5
/-- Drive entry j: SEG, REG and CAND (R115). -/
def drive (l : BitVec 208) (j : Nat) : BitVec 11 := l.extractLsb' (140 + 11 * j) 11
def swTop (l : BitVec 208) : BitVec 2 := l.extractLsb' 206 2
end Leaf

def driveSeg (d : BitVec 11) : Nat := (d.extractLsb' 5 6).toNat
def driveReg (d : BitVec 11) : Bool := d.getLsbD 4
def driveCand (d : BitVec 11) : Nat := (d.extractLsb' 0 4).toNat

/-- The terminal that a candidate of R116 names for a segment, where it names one. -/
def candTerm (seg cand : Nat) : Option Nat :=
  if cand < 12 then some (12 * (seg / 12) + cand)
  else if cand = 14 then some (12 * ((seg / 12 + 1) % 4) + seg % 12)
  else if cand = 15 then some (12 * ((seg / 12 + 3) % 4) + seg % 12)
  else none

/-- The terminal that INSELi names (R117). -/
def inselTerm (i c : Nat) : Nat := 12 * (c / 4) + (i + 3 * (c % 4)) % 12

/-- The entry that drives a segment in a leaf: the lowest that names it (R118). -/
def driverOf (l : BitVec 208) (seg : Nat) : Option (BitVec 11) :=
  (List.range 6).findSome? fun j => if driveSeg (Leaf.drive l j) = seg then some (Leaf.drive l j) else none

/-! ### Folio words that arrive at a cell (R95) -/

/-- A word written to a destination (R62): a state word where `sw`, a temporary, the outputs. -/
def Cell.write (c : Cell) (dst : BitVec 6) (sw : Bool) (w : RWord) (t : Nat) : Cell :=
  let i := (dst.extractLsb' 0 4).toNat
  match (dst.extractLsb' 4 2).toNat with
  | 0 => if sw then { c with v := { c.v with work := { c.v.work with s := c.v.work.s.put i w } } } else c
  | 1 => { c with t := c.t.put i ⟨w, t⟩ }
  | 2 =>
    let c := if sw then { c with v := { c.v with work := { c.v.work with s := c.v.work.s.put i w } } } else c
    { c with outA := ⟨w, t⟩ }
  | _ =>
    match i with
    | 0 => { c with outA := ⟨w, t⟩ }
    | 1 => { c with outB := ⟨w, t⟩ }
    | 2 => { c with outA := ⟨w, t⟩, outB := ⟨w, t⟩ }
    | _ => c

/-- The returns due before leaf stamp `t`, written on the edge that ends the leaf after theirs. -/
def Cell.settle (c : Cell) (t : Nat) : Cell :=
  let due := c.returns.filter fun r => r.at_ + 2 ≤ t
  let c := due.foldl (fun c r => c.write r.dst r.cw r.w (r.at_ + 1)) c
  { c with returns := c.returns.filter fun r => t < r.at_ + 2 }

/-! ### Threads (R109 to R123) -/

/-- Where a segment exists and is not cut, the cell at its end (R112). -/
def State.segEnd (s : State) (key seg : Nat) : Option Nat :=
  match downCell key seg with
  | some d => if s.sameRegion (key / 64) (d / 64) then some d else none
  | none => none

/-- A terminal's upstream cell, `none` for an absent or cut terminal (R112). -/
def State.termSource (s : State) (key term : Nat) : Option Nat :=
  match upCell key term with
  | some u => if s.sameRegion (key / 64) (u / 64) then some u else none
  | none => none

/-- A value found undefined in leaf stamp `t` is `x` from the edge that opens the computation on. -/
def Lag.found {α : Type} (l : Lag α) (t : Nat) (x : α) : Lag α :=
  if l.newAt < t then ⟨x, t / 64 * 64, x, t / 64 * 64⟩ else { l with old := x, oldAt := t / 64 * 64 }

/-- The register of a terminal at the start of leaf stamp `t` (R121). One that no leaf of the quire has captured holds a free
word (R123), the same for whoever reads it (R127). -/
def State.regWord (s : State) (key term t : Nat) : RWord × State :=
  match s.termSource key term with
  | none => ({}, s)
  | some _ =>
    let (w, at_) := ((s.cell key).term.at term).read t
    if at_ / 64 = t / 64 then (w, s)
    else
      let (w, s) := s.drawWord
      (w, s.updCell key fun c => { c with term := c.term.upd term fun l => l.found t w })

/-- A state-word tap (R116): S0 or S1 as earlier leaves left it. -/
def State.tapWord (s : State) (r key t i : Nat) : RWord × State :=
  let w := ((s.cell key).settle t).v.work.s.at i
  (w, s.chargeIf (!w.ok) r 0x05 (key / 64))

/-- Whether a destination names OUTA (`b = false`) or OUTB. -/
def dstOut (dst : BitVec 6) (b : Bool) : Bool :=
  let i := (dst.extractLsb' 0 4).toNat
  match (dst.extractLsb' 4 2).toNat with
  | 2 => !b
  | 3 => i == 2 || i == (if b then 1 else 0)
  | _ => false

/-- What a segment carries in a leaf: a word; the result of a leaf whose command is still to come, which that command puts
there; or nothing that a rule defines, on a closed loop (R126). -/
inductive Live where
  | word (w : RWord)
  | later
  | loop
  deriving DecidableEq, Repr

/-- The live word of a terminal in leaf stamp `t`: what its segment carries in that leaf. Where the upstream cell's
command has come, the word it drove; where it has not, the word its setting selects, followed upstream. -/
def State.liveWord (s : State) (r k t : Nat) : Nat → Nat → Nat → Live × State
  | 0, _, _ => (.loop, s)
  | fuel + 1, key, term =>
    match s.termSource key term with
    | none => (.word {}, s)
    | some u =>
      let cu := (s.cell u).settle t
      let sg := cu.seg.at term
      if sg.at_ = t then (.word sg.w, s)
      else
        let l := cu.leaf.at k
        match driverOf l term with
        | none => (.word {}, s)
        | some d =>
          match candTerm term (driveCand d), driveReg d with
          | some m, true => let (w, s) := s.regWord u m t; (.word w, s)
          | some m, false => s.liveWord r k t fuel u m
          | none, true => let (w, s) := s.tapWord r u t (driveCand d - 12); (.word w, s)
          | none, false =>
            let b := driveCand d == 13
            let o := if b then cu.outB else cu.outA
            if cu.last < t && dstOut (Leaf.dst l) b then (.later, s)
            else let (w, s) := s.defined t o.w o.at_; (.word w, s)

/-! ### Leaf reach (R124, R125) -/

/-- A path that the table of R124 permits. -/
def Path.permitted (p : Path) : Bool :=
  !p.pastLong &&
    match p.ops with
    | 0 => (p.long == 0 && p.span == 0 && decide (p.short ≤ 5)) || (p.long == 0 && p.span == 1 && decide (p.short ≤ 2)) ||
        (p.long == 1 && p.span == 0 && decide (p.short ≤ 1))
    | 1 => (p.long == 0 && p.span == 0 && decide (p.short ≤ 3)) || (p.short == 0 && p.long + p.span == 1)
    | _ => false

/-- The path with the segment of an index at its end. -/
def Path.step (p : Path) (seg : Nat) : Path :=
  let p := { p with pastLong := p.pastLong || decide (0 < p.long) }
  if seg % 12 < 9 then { p with short := p.short + 1 }
  else if seg % 12 < 11 then { p with span := p.span + 1 }
  else { p with long := p.long + 1 }

/-- The path with a cell operation at its end. -/
def Path.operate (p : Path) : Path := { p with ops := p.ops + 1, pastLong := p.pastLong || decide (0 < p.long) }

def reaches (ps : List Path) : Bool := ps.all Path.permitted

/-- The paths of the live word of a terminal, followed as `liveWord` follows the word. The zero of an idle or absent terminal
counts as a start point (log entry 110); a closed loop is no path that R124 permits. -/
def State.livePaths (s : State) (k t : Nat) : Nat → Nat → Nat → List Path
  | 0, _, _ => [{ ops := 2 }]
  | fuel + 1, key, term =>
    match s.termSource key term with
    | none => [{}]
    | some u =>
      let cu := (s.cell u).settle t
      let sg := cu.seg.at term
      if sg.at_ = t then sg.paths
      else match driverOf (cu.leaf.at k) term with
        | none => [{}]
        | some d =>
          match candTerm term (driveCand d), driveReg d with
          | some m, false => (s.livePaths k t fuel u m).map (·.step term)
          | none, false => (if (if driveCand d = 13 then cu.outB else cu.outA).at_ = t then cu.paths else [{}]).map (·.step term)
          | _, true => [({} : Path).step term]

/-- A register's capture (R120): the word checked, or a free word where a path to it breaks R124. -/
def State.captureTerm (s : State) (r t d term : Nat) (ok : Bool) (w : RWord) : State :=
  let (w, s) := if ok then (w, s) else s.drawWord
  let s := s.chargeIf (!w.ok) r 0x02 (d / 64)
  let cap : RWord := if w.ok then w else { w with r := badRes }
  s.updCell d fun c => { c with term := c.term.upd term fun x => x.write t cap }

/-- A word put on a segment: recorded at its upstream end, captured and checked by the register at its downstream end
(R120), and carried on through the boxes that pass the terminal's live value on. -/
def State.driveWord (r k t : Nat) : Nat → State → Nat → Nat → List Path → RWord → State
  | 0, s, key, seg, _, _ =>
    match s.segEnd key seg with
    | none => s
    | some d => s.captureTerm r t d seg false {}
  | fuel + 1, s, key, seg, ps, w =>
    match s.segEnd key seg with
    | none => s
    | some d =>
      let ps := (ps.map (·.step seg)).eraseDups
      let s := s.updCell key fun c => { c with seg := c.seg.put seg ⟨w, t, ps⟩ }
      let s := s.captureTerm r t d seg (reaches ps) w
      let l := (s.cell d).leaf.at k
      (List.range 6).foldl (fun (s : State) j =>
        let e := Leaf.drive l j
        if driveSeg e < 48 && !driveReg e && candTerm (driveSeg e) (driveCand e) == some seg &&
            driverOf l (driveSeg e) == some e then
          State.driveWord r k t fuel s d (driveSeg e) ps w
        else s) s

/-! ### Operands -/

/-- A cell that executes leaf `k` of region `r` at stamp `t`. -/
structure CellAt where
  key : Nat
  r : Nat
  k : Nat
  t : Nat
  leaf : BitVec 208
  deriving DecidableEq, Repr

def CellAt.g (x : CellAt) : Nat := x.key / 64

/-- INi in this leaf, checked as it is read (R54, R69). -/
def State.inputWord (s : State) (x : CellAt) (i : Nat) : RWord × State :=
  let sel := Leaf.insel x.leaf i
  let term := inselTerm i (sel.extractLsb' 0 4).toNat
  let (w, s) :=
    if sel.getLsbD 4 then s.regWord x.key term x.t
    else
      match s.liveWord x.r x.k x.t 8 x.key term with
      | (.word w, s) => if reaches ((s.livePaths x.k x.t 8 x.key term).map Path.operate) then (w, s) else s.drawWord
      | (_, s) => s.drawWord
  (w, s.chargeIf (!w.ok) x.r 0x02 x.g)

/-- The paths that end in an operation with a source of this code. -/
def State.sourcePaths (s : State) (x : CellAt) (code : Nat) : List Path :=
  let sel := Leaf.insel x.leaf (code - 0x20)
  if 0x20 ≤ code ∧ code < 0x2C ∧ sel.getLsbD 4 = false then
    (s.livePaths x.k x.t 8 x.key (inselTerm (code - 0x20) (sel.extractLsb' 0 4).toNat)).map Path.operate
  else [({} : Path).operate]

/-- The source that a code names (R63), read and checked (R69). -/
def State.source (s : State) (x : CellAt) (code : Nat) : RWord × State :=
  let c := s.cell x.key
  if code < 0x10 then
    let w := c.v.work.s.at code
    (w, s.chargeIf (!w.ok) x.r 0x05 x.g)
  else if code < 0x20 then
    let (w, s) := s.defined x.t (c.t.at (code - 0x10)).w (c.t.at (code - 0x10)).at_
    (w, s.chargeIf (!w.ok) x.r 0x01 x.g)
  else if code < 0x2C then s.inputWord x (code - 0x20)
  else if code = 0x2C then
    let (w, s) := s.defined x.t c.outA.w c.outA.at_
    (w, s.chargeIf (!w.ok) x.r 0x01 x.g)
  else if code = 0x2D then
    let (w, s) := s.defined x.t c.outB.w c.outB.at_
    (w, s.chargeIf (!w.ok) x.r 0x01 x.g)
  else if code = 0x2E then (gen (Leaf.imm x.leaf), s)
  else if code = 0x30 then (c.v.work.f.word, s.chargeIf (!c.v.work.f.ok) x.r 0x05 x.g)
  else ({}, s)

/-- The chain carry into the cell (R70 to R73): the pair, and whether it is complementary. -/
def State.chainCarry (s : State) (x : CellAt) : CarryPair × State :=
  if x.key % 8 ≠ 0 then
    let w := s.cell (x.key - 1)
    (if w.carryAt = x.t then w.carry else {}, s)
  else if gthX x.g % 4 = 0 ∨ s.sameRegion x.g (x.g - 1) = false ∨ s.qstate x.r = Q.unbound then ({}, s)
  else
    let (p, at_) := ((s.gth (x.g - 1)).kettle.at (x.key % 64 / 8)).read x.t
    if at_ / 64 = x.t / 64 then (p, s)
    else
      let (b, s) := s.draw 2
      (⟨b.getLsbD 0, b.getLsbD 1⟩, s)

/-- The carry-in of R64, whether its pair or flag set failed, and the state with the failure charged. -/
def State.carryIn (s : State) (x : CellAt) : Bool × Bool × Bool × State :=
  match Leaf.cin x.leaf with
  | 0 => (false, false, false, s)
  | 1 => (true, false, false, s)
  | 2 =>
    let (p, s) := s.chainCarry x
    let bad := p.t == p.f
    (p.t, bad, false, s.chargeIf bad x.r 0x01 x.g)
  | _ =>
    let f := (s.cell x.key).v.work.f
    (f.c, false, f.r == badRes, s.chargeIf (!f.ok) x.r 0x05 x.g)

end Sys2Proof.Machine
end

