-- ==== Sys2Proof/Machine/AwlBase.lean ====
section
/-!
DEFINITION. The levels of an Awl core as the Collator and the core itself see them (R202, R203), the registers of a
bank, and AWL_STAT.
-/
namespace Sys2Proof.Machine

/-- What AWL_STAT reports of a core (R234). -/
def statusBits (x : AwlCore) (inReset : Bool) : Nat :=
  let bits (p : LevelState → Bool) : Nat := (List.range 8).foldl (fun n v => if p (x.levels.at v).state then n + 2 ^ v else n) 0
  bits (fun st => match st with | .frozen => true | _ => false) * 2 ^ 24 +
    bits (fun st => match st with | .wait _ => true | _ => false) * 2 ^ 16 +
    bits (fun st => match st with | .ready => true | _ => false) * 2 ^ 8 + inReset.toNat * 16 +
    (match x.running with | some v => 8 + v | none => 0)

def State.core (s : State) (c : Nat) : AwlCore := s.awl.at c

def State.holdrst (s : State) (c : Nat) : Bool := s.bitF F.awlCtl_holdrst c

def State.setCore (s : State) (c : Nat) (x : AwlCore) : State :=
  { s with awl := s.awl.put c x }.setReg .awlStat c (BitVec.ofNat 64 (statusBits x (s.holdrst c)))

def State.updCore (s : State) (c : Nat) (f : AwlCore → AwlCore) : State := s.setCore c (f (s.core c))

def State.level (s : State) (c v : Nat) : Level := (s.core c).levels.at v

def State.updLevel (s : State) (c v : Nat) (f : Level → Level) : State :=
  s.updCore c fun x => { x with levels := x.levels.upd v f }

/-- No level is READY, in RUN or in WAIT. -/
def AwlCore.quiet (x : AwlCore) : Bool :=
  (List.range 8).all fun v => match (x.levels.at v).state with
    | .idle | .frozen => true
    | _ => false

/-- A level leaves READY, WAIT or IDLE for another state; a running level that is no longer READY stops running. Where no other
level is READY then, no switch follows, and the press unit runs its three cycles out while the level waits (R217; log entry
116). An excluded core that becomes quiet raises 921 (R465). -/
def State.setLevelState (s : State) (c v : Nat) (st : LevelState) : State :=
  let was := (s.core c).quiet
  let s := s.updCore c fun x =>
    let stops := decide (x.running = some v ∧ st ≠ .ready)
    let alone := (List.range 8).all fun u => u == v || (x.levels.at u).state != .ready
    { x with levels := x.levels.upd v (fun l => { l with state := st, own := if stops && alone then l.own + 3 else l.own }),
             running := if stops then none else x.running }
  if !was && (s.core c).quiet && s.bitF F.awlCtl_excl c then s.raise 921 else s

/-! ### The registers of a bank (R202) -/

def Level.cwp (l : Level) : Nat := (l.wstat.d.extractLsb' 0 2).toNat
def Level.res (l : Level) : Nat := (l.wstat.d.extractLsb' 2 3).toNat
def Level.spilled (l : Level) : Nat := (l.wstat.d.extractLsb' 8 12).toNat

def mkWstat (cwp res spilled : Nat) : RWord := gen (BitVec.ofNat 40 (cwp + res * 4 + spilled * 256))

/-- G0 to G31: from G16 on, those of a physical window. -/
def Level.gRead (l : Level) (i : Nat) : RWord := if i < 16 then l.g.at i else l.win.at (16 * l.cwp + (i - 16))

def Level.gWrite (l : Level) (i : Nat) (w : RWord) : Level :=
  if i < 16 then { l with g := l.g.put i w } else { l with win := l.win.put (16 * l.cwp + (i - 16)) w }

/-- ST with bits replaced, its residue generated. -/
def Level.putSt (l : Level) (lo w : Nat) (v : BitVec w) : Level := { l with st := gen (putBits l.st.d lo w v) }

def Level.setZ (l : Level) (z : Bool) : Level := l.putSt 2 1 (BitVec.ofBool z)

/-- A descriptor from its seven words. -/
def wordsDesc (ws : List Word) : BitVec 256 :=
  (ws.take 7).reverse.foldl (fun acc w => (acc <<< 40) ||| w.setWidth 256) 0#256

def Level.loadDesc (l : Level) (ws : List Word) : Level :=
  (List.range 7).foldl (fun l i => l.gWrite i (gen (ws.getD i 0))) l

/-- What a dispatch does to an IDLE level (R204). -/
def Level.dispatched (l : Level) (entry : Nat) (ws : List Word) : Level :=
  ({ l with state := .ready, pc := entry, st := gen (l.st.d &&& 0x7F00_0000#40), wstat := mkWstat 0 1 0, lsm := gen 0,
            bexp := gen 39, loaded := none, hasItem := true }).loadDesc ws

end Sys2Proof.Machine
end

