-- ==== Sys2Proof/Machine/Folio.lean ====
section
/-!
DEFINITION. Folio blocks and their queue controllers (R128 to R142): the versions of a word, the access leaves, the
pointers and counts of a queue, the ring side, and the events a queue raises.
-/
namespace Sys2Proof.Machine

/-! ### Words (R128 to R132) -/

/-- The newest version of a word that a read in leaf stamp `t` returns (R130). -/
def Gth.folioRead (x : Gth) (t addr : Nat) : BitVec 44 :=
  match (x.working ++ x.pending ++ x.draining).find? fun e => e.addr == addr && decide (e.at_ < t) with
  | some e => e.w
  | none => x.store.at addr

/-- The committed version (R130). -/
def Gth.folioCommitted (x : Gth) (addr : Nat) : BitVec 44 :=
  match x.draining.find? fun e => e.addr == addr with
  | some e => e.w
  | none => x.store.at addr

/-- A write to the working version at the end of leaf `t` (R129). Of two writes of one word in one leaf, on ports A and B,
the one whose command comes later holds (log entry 107). -/
def Gth.folioWrite (x : Gth) (t addr : Nat) (w : BitVec 44) : Gth :=
  { x with working := ⟨addr, w, t⟩ :: x.working, wroteFW := true }

/-- The word as the block stores it: with good parity, or with all parity bits inverted where its residue fails. -/
def storedForm (w : RWord) : BitVec 44 := if w.ok then store44 w.d else store44Bad w.d

/-- The draining buffer merged into the store, oldest write of a word first. -/
def Gth.merge (x : Gth) : Gth :=
  { x with store := x.draining.reverse.foldl (fun m e => m.put e.addr e.w) x.store, draining := [] }

/-! ### Queues (R137, R138) -/

def State.qBase (s : State) (g n : Nat) : Nat := s.getN F.gthQdesc_base (4 * g + n)
def State.qSize (s : State) (g n : Nat) : Nat := s.getN F.gthQdesc_size (4 * g + n)
def State.qOut (s : State) (g n : Nat) : Bool := s.bitF F.gthQdesc_dir (4 * g + n)

/-- The word address of pointer value `p`. -/
def State.qAddr (s : State) (g n p : Nat) : Nat := s.qBase g n + p % s.qSize g n

/-- An address inside an enabled queue. -/
def State.inQueue (s : State) (g addr : Nat) : Bool :=
  (List.range 4).any fun n => decide (s.qBase g n ≤ addr ∧ addr < s.qBase g n + s.qSize g n)

/-- (a − b) mod 2S. -/
def modDist (a b size : Nat) : Nat := if size = 0 then 0 else (a + 2 * size - b % (2 * size)) % (2 * size)

/-- The array count of a queue whose array pointer is `ap` and captured ring pointer `crp`. -/
def State.arrayCount (s : State) (g n ap crp : Nat) : Nat :=
  if s.qOut g n then modDist ap crp (s.qSize g n) else modDist crp ap (s.qSize g n)

/-- The ring count. -/
def State.ringCount (s : State) (g n : Nat) : Nat :=
  let q := (s.gth g).queue.at n
  if s.qOut g n then modDist q.apCom.p q.rp (s.qSize g n) else modDist q.rp q.apCom.p (s.qSize g n)

/-- HIGH and LOW of a queue in use (R141): those captured at the last fresh quire start of its region, the register's own
before the first one. -/
def State.waterMarks (s : State) (g n : Nat) : Nat × Nat :=
  let i := 4 * g + n
  let live := (s.getN F.gthQwm_high i, s.getN F.gthQwm_low i)
  match s.regionOf g with
  | none => live
  | some r =>
    match (s.region r).caps with
    | [] => live
    | c :: _ => c.wm.at i

/-- EVCOND (R142), with the watermarks in use. -/
def State.queueCondition (s : State) (g n : Nat) : Bool :=
  let i := 4 * g + n
  let c := s.ringCount g n
  let wm := s.waterMarks g n
  if s.qSize g n = 0 then false
  else match s.getN F.gthQdesc_evcond i, s.qOut g n with
    | 1, false => decide (c ≤ wm.2)
    | 1, true => decide (1 ≤ c)
    | 2, false => decide (c = 0)
    | 2, true => decide (wm.1 ≤ c)
    | _, _ => false

/-- The condition evaluated: a change from false to true raises source 64 + EVSRC (R142). -/
def State.queueEvent (s : State) (g n : Nat) : State :=
  let now := s.queueCondition g n
  let was := ((s.gth g).queue.at n).cond
  let s := s.updGth g fun x => { x with queue := x.queue.upd n fun q => { q with cond := now } }
  let src := s.getN F.gthQdesc_evsrc (4 * g + n)
  if now && !was && decide (src < 512) then s.raise (64 + src) else s

/-- The conditions of a gathering's queues, which its block evaluates after every port-1 grant (R142). -/
def State.gthEvents (s : State) (g : Nat) : State :=
  (List.range 4).foldl (fun s n => if s.qSize g n = 0 then s else s.queueEvent g n) s

/-! ### Requests of the array (R133, R134, R140) -/

/-- Whether an access leaf names the cell on a port: side, position and enable (R133). -/
def accessNames (acc : BitVec 64) (portB : Bool) (target req pos : Nat) : Bool :=
  let lo := if portB then 44 else 54
  acc.getLsbD (if portB then 53 else 63) &&
    gthSide target (acc.extractLsb' (lo + 6) 3).toNat == some req &&
    (acc.extractLsb' lo 6).toNat == pos

/-- The target of a folio request, where it exists, lies in the region and names the cell (R92, R107). -/
def State.folioTarget (s : State) (x : CellAt) (tgt : Nat) (portB : Bool) : Option Nat :=
  match gthSide x.g tgt with
  | none => none
  | some h =>
    if s.sameRegion x.g h && accessNames ((s.gth h).access.at x.k) portB h x.g (x.key % 64) then some h else none

/-- Both the cell's cadence and that of unit `u` of the target are enabled (R98). -/
def State.folioWrites (s : State) (x : CellAt) (h u : Nat) : Bool :=
  s.cadenceOn x.r (s.cellCadence x.key) && s.cadenceOn x.r ((s.gth h).unitCadence u)

/-- The working pointer that a request on a port acts on: port B after port A, whose request of the same leaf has been
decided (R94, `State.portFirst`). A request on B after an `fpeek` on A, which moves no pointer, acts on the head that A
left where it was (log entry 106). -/
def FolioQueue.pointer (q : FolioQueue) (portB : Bool) (t : Nat) : QPtr :=
  if portB then q.apWork.new else (q.apWork.read t).1

/-- The captured RP of a queue (R139). -/
def State.captured (s : State) (r g n : Nat) : Nat := (s.capture r).crp.at (4 * g + n)

def State.movePointer (s : State) (g n t ap : Nat) : State :=
  s.updGth g fun x =>
    { x with wroteSW := true, queue := x.queue.upd n fun q => { q with apWork := q.apWork.write t (mkPtr ap) } }

/-! ### The ring port (R139, R140): one word at a time -/

/-- A word read on port 1 or 0, with its parity failure recorded (R132): the word and whether its parity is good. -/
def State.portRead (s : State) (g addr : Nat) (ring : Bool) : BitVec 44 × Bool × State :=
  let w := (s.gth g).folioCommitted addr
  let bad := badSlices w
  if bad = 0 then (w, true, s)
  else
    let s := s.addF F.gthFerr_count g 1
    let s := if s.bitF F.gthFerr_valid g then s
      else ((((s.setF F.gthFerr_valid g).putF F.gthFerr_port g (if ring then 1 else 0)).putF
        F.gthFerr_slices g bad).putN F.gthFerr_addr g addr)
    let s := s.logEntry 0x0E 0x6002 (g + addr * 2 ^ 12 + bad.toNat * 2 ^ 23 + (if ring then 2 ^ 27 else 0))
    (w, false, s.raise 913)

/-- A word pushed into an IN queue by the ring, at RP (R138): the store takes it at once. -/
def State.ringPush (s : State) (g n : Nat) (d : Word) : State :=
  let q := (s.gth g).queue.at n
  let addr := s.qAddr g n q.rp
  let rp := (q.rp + 1) % (2 * s.qSize g n)
  s.updGth g fun x =>
    { x with store := x.store.put addr (store44 d), draining := x.draining.filter (fun e => e.addr != addr),
             fdirty := true, sdirty := true, queue := x.queue.upd n fun q => { q with rp := rp } }

/-- RP moved past a word popped from an OUT queue by the ring. -/
def State.ringAdvance (s : State) (g n : Nat) : State :=
  let rp := (((s.gth g).queue.at n).rp + 1) % (2 * s.qSize g n)
  s.updGth g fun x => { x with sdirty := true, queue := x.queue.upd n fun q => { q with rp := rp } }

end Sys2Proof.Machine
end

