-- ==== Sys2Proof/Machine/Memory.lean ====
section
/-!
DEFINITION. DRAM as sectors of twelve words with a CRC-32C (R332 to R341): bytes, checks, placement, partitions.
-/
namespace Sys2Proof.Machine

/-- The bytes of a number, least significant first. -/
def leBytes (n : Nat) : Nat → List Byte
  | 0 => []
  | k + 1 => BitVec.ofNat 8 n :: leBytes (n / 256) k

def ofBytes : List Byte → Nat
  | [] => 0
  | b :: bs => b.toNat + 256 * ofBytes bs

/-! ### CRC-32C (R333) -/

def crc32cBit (c : BitVec 32) : BitVec 32 := if c.getLsbD 0 then (c >>> 1) ^^^ 0x82F6_3B78#32 else c >>> 1

def crc32cByte (c : BitVec 32) (b : Byte) : BitVec 32 :=
  (List.range 8).foldl (fun c _ => crc32cBit c) (c ^^^ b.setWidth 32)

def crc32c (bs : List Byte) : BitVec 32 := ~~~(bs.foldl crc32cByte 0xFFFF_FFFF#32)

/-- The CRC of a sector's 60 data bytes at sector number `n`. -/
def sectorCrc (data : List Byte) (n : Nat) : BitVec 32 := crc32c (data ++ leBytes n 4)

def zeroData : List Byte := List.replicate 60 0

/-- Word i in bits 40i + 39 to 40i. -/
def wordsToBytes (ws : List Word) : List Byte := ws.flatMap fun w => leBytes w.toNat 5

def bytesToWords (bs : List Byte) : List Word :=
  (List.range (bs.length / 5)).map fun i => BitVec.ofNat 40 (ofBytes ((bs.drop (5 * i)).take 5))

/-! ### Bytes: what nothing has written is zero words with a good CRC (R497) -/

def dramDefault (a : Nat) : Byte :=
  if a % 64 < 60 then 0
  else (sectorCrc zeroData (a / 64)).extractLsb' (8 * (a % 64 - 60)) 8

/-- The canonical form of DRAM: addresses strictly rising, no listed byte equal to what an unlisted one reads as. -/
def Memory.wf (m : Sparse (BitVec 8)) : Bool := m.wf dramDefault

def State.dramByte (s : State) (a : Nat) : Byte := s.dram.get dramDefault a

/-- First sector of the Collator partition's layout (R339). -/
def collS0 : Nat := 871366656

/-- A sector of a copy of the ledger: its place in that copy. The ledger is the first 2^25 sectors of copy A (log entry 118). -/
def ledgerPlace (n : Nat) : Option Nat :=
  if collS0 ≤ n ∧ n < collS0 + 2 ^ 25 then some (n - collS0)
  else if collS0 + 2 ^ 26 + 8 ≤ n ∧ n < collS0 + 2 ^ 26 + 8 + 2 ^ 25 then some (n - collS0 - 2 ^ 26 - 8)
  else none

/-- The twelve words of a sector of either ledger copy that an entry in use occupies (R291, R292). -/
def State.ledgerSector (s : State) (n : Nat) : Option (List Word) :=
  (ledgerPlace n).bind fun k =>
    (s.col.items.find? fun x => !x.event && x.slot == k / 2).map fun x => (x.ledgerWords.drop (12 * (k % 2))).take 12

/-- The words of a bookmark index of region `r` (R388): its header, then an entry word for each part. -/
def BookIndex.words (x : BookIndex) (r : Nat) : List Word :=
  let hash := (x.hash.zipIdx).foldl (fun n p => n + p.1.toNat * 2 ^ (64 * p.2)) 0
  let w2 := r + x.incr.toNat * 2 ^ 4 + x.parent.getD 0 * 2 ^ 5 + x.parent.isSome.toNat * 2 ^ 11 + x.ngth * 2 ^ 12
  [0x42_4D4B_0001#40, BitVec.ofNat 40 x.quire, BitVec.ofNat 40 w2, BitVec.ofNat 40 x.dst, BitVec.ofNat 40 x.sectors] ++
    (List.range 7).map (fun i => BitVec.ofNat 40 (hash / 2 ^ (40 * i))) ++
    x.entries.map fun e => match e with
      | some sec => BitVec.ofNat 40 (2 ^ 39 + sec)
      | none => 0

/-- The twelve words of a sector of either copy that a bookmark index occupies (R388, R339): in each copy the index of slot k
of region r begins 2^25 + 1,024 × (64r + k) sectors on (log entry 118). -/
def State.indexSector (s : State) (n : Nat) : Option (List Word) :=
  let place (k : Nat) : Option (List Word) :=
    if k < 2 ^ 25 ∨ 2 ^ 25 + 2 ^ 20 ≤ k then none
    else
      let slot := (k - 2 ^ 25) / 1024
      let i := k % 1024
      (s.sys.indexes.at slot).bind fun x =>
        let ws := x.words (slot / 64)
        if ws.length ≤ 12 * i then none
        else some ((List.range 12).map fun j => ws.getD (12 * i + j) 0)
  if collS0 ≤ n ∧ n < collS0 + 2 ^ 26 then place (n - collS0)
  else if collS0 + 2 ^ 26 + 8 ≤ n ∧ n < collS0 + 2 ^ 27 + 8 then place (n - collS0 - 2 ^ 26 - 8)
  else none

/-- A sector that the ledger or a bookmark index occupies. -/
def State.mirroredSector (s : State) (n : Nat) : Option (List Word) := (s.ledgerSector n).orElse fun _ => s.indexSector n

/-- A sector's 64 bytes. The entries of the ledger and the bookmark indexes are held as structures: their sectors in both copies
are those that R291 and R388 lay out, each with its own CRC. -/
def State.sectorBytes (s : State) (n : Nat) : List Byte :=
  match s.mirroredSector n with
  | some ws => wordsToBytes ws ++ leBytes (sectorCrc (wordsToBytes ws) n).toNat 4
  | none => (List.range 64).map fun i => s.dramByte (64 * n + i)

def sectorGood (bs : List Byte) (n : Nat) : Bool :=
  ofBytes (bs.drop 60) == (sectorCrc (bs.take 60) n).toNat

def State.putBytes (s : State) (a : Nat) (bs : List Byte) : State :=
  { s with dram := (bs.zipIdx).foldl (fun m p => m.set dramDefault (a + p.2) p.1) s.dram }

/-- A whole sector written: 60 data bytes and their CRC. -/
def State.writeSector (s : State) (n : Nat) (data : List Byte) : State :=
  s.putBytes (64 * n) (data ++ leBytes (sectorCrc data n).toNat 4)

/-! ### Placement (R334, R335) -/

def uPrime : Nat := 62914560

/-- The i-th channel other than `r`. -/
def survivor (r i : Nat) : Nat := if i < r then i else i + 1

/-- The other copy of a mirrored sector (R339). -/
def otherCopy (n : Nat) : Option Nat :=
  if collS0 ≤ n ∧ n < collS0 + 2 ^ 26 then some (n + 2 ^ 26 + 8)
  else if collS0 + 2 ^ 26 + 8 ≤ n ∧ n < collS0 + 2 ^ 27 + 8 then some (n - 2 ^ 26 - 8)
  else none

/-- The channel of the other copy of every mirrored sector in slot `r`. -/
def partnerChannel (r : Nat) : Nat := (r + 8) % 16

/-- Both copies of a mirrored sector of slot `r` would lie in one channel with channel `r` retired (R340). -/
def sharedPair (r n : Nat) : Bool :=
  (otherCopy n).isSome && n % 16 == r && survivor r (n / 16 % 15) == partnerChannel r

/-- The spill sector of a shared pair's copy in slot `r`: the copies take, in order, the sectors of the spill range behind its
table that lie neither in slot `r` nor in the partner's channel (log entry 119). -/
def spillSector (r n : Nat) : Nat :=
  let p := partnerChannel r
  let idx := if p < r then p else p - 1
  let rank := (n / 16 - idx) / 15 - (collS0 / 16 + 14 - idx) / 15
  let slots := (List.range 16).filter fun k => k != r && k != p
  collS0 + 2 ^ 27 + 16 + 2 ^ 17 + 16 * (rank / 14) + slots.getD (rank % 14) 0

/-- The channel and line that hold a sector (R334, R335, R340, R346). -/
def State.placeOf (s : State) (n : Nat) : Nat × Nat :=
  let j := n % 16
  let u := n / 16
  let away (r : Nat) : Nat × Nat := (survivor r (u % 15), uPrime + u / 15)
  if s.bitF F.memStat_retired_v 0 = true ∧ j = s.getN F.memStat_retired 0 then
    if sharedPair j n then (spillSector j n % 16, spillSector j n / 16) else away j
  else if s.migrating = some j ∧ u < s.migLine then away j
  else (j, u)

/-- The channel that holds a sector. -/
def State.channelOf (s : State) (n : Nat) : Nat := (s.placeOf n).1

/-- STATE of the channels that MRAM names, once the memory has power again (R346, R347). -/
def State.markChannels (s : State) : State :=
  let s := if s.bitF F.memStat_retired_v 0 then s.putN F.memChStat_state (s.getN F.memStat_retired 0) 3 else s
  match s.migrating with
  | some k => { s.putN F.memChStat_state k 2 with migLine := s.getN F.memRetire_migu 0 }
  | none => s

/-- First sector beyond the usable capacity. -/
def State.usableSectors (s : State) : Nat := s.getN F.memStat_usable 0 * 2 ^ 18

/-- Sectors of a function's partition: first and one past the last (R337). -/
def State.partSectors (s : State) (p : Nat) : Nat × Nat :=
  let b := s.getN F.memPart_base p * 2 ^ 18
  (b, b + s.getN F.memPart_size p * 2 ^ 18)

/-- A sector of the Collator partition: granules 3,324 to 3,839 (R337). -/
def inCollator (n : Nat) : Bool := decide (3324 * 2 ^ 18 ≤ n ∧ n < 3840 * 2 ^ 18)

/-- Words `w` to `w + len − 1` all lie in partition `p` (R338). -/
def State.inPartition (s : State) (p w len : Nat) : Bool :=
  let (lo, hi) := s.partSectors p
  len == 0 || decide (12 * lo ≤ w ∧ w + len ≤ 12 * hi)

def State.inUsable (s : State) (w len : Nat) : Bool := decide (w + len ≤ 12 * s.usableSectors)

/-! ### Checked reads (R341) -/

/-- A failed sector's log entry and event (R341, R472). -/
def State.sectorEvent (s : State) (code n : Nat) : State :=
  let k := s.channelOf n
  (s.logEntry 0x03 code (n + k * 2 ^ 30)).raise (640 + k)

/-- The ledger copy in a failed channel, until it has been rebuilt in another (R302). -/
def State.copyLost (s : State) (n : Nat) : Bool := (otherCopy n).isSome && s.col.lost == some (s.channelOf n)

/-- A failing copy rewritten with its 60 data bytes; a ledger entry or an index stands as it is held. -/
def State.rewrite (s : State) (n : Nat) (data : List Byte) : State :=
  if (s.mirroredSector n).isSome then s else s.writeSector n data

/-- The three tries of a sector, the first `glitch` of which fail on the way: whether one passes. -/
def State.triesPass (s : State) (n glitch : Nat) : Bool :=
  sectorGood (s.sectorBytes n) n && decide (glitch < 3) && !s.copyLost n

/-- No copy of a sector passes: counted and reported; with a mirrored object the Collator loses its tables (R302). -/
def State.readFails (s : State) (n : Nat) : State :=
  let s := (s.addF F.memChStat_failrd (s.channelOf n) 1).sectorEvent 0xA003 n
  if (otherCopy n).isSome then { s with col := { s.col with live := false } } else s

/-- A sector read (R341): its 60 data bytes where a try passes or the other copy of a mirrored sector does, `none` otherwise.
Of the tries, the first `glitch` fail on the way: three of this copy, then three of the other. -/
def State.readSector (s : State) (n glitch : Nat) : Option (List Byte) × State :=
  let k := s.channelOf n
  if s.triesPass n glitch then
    (some ((s.sectorBytes n).take 60), if glitch = 0 then s else s.addF F.memChStat_reread k 1)
  else
    match otherCopy n with
    | some o =>
      if s.triesPass o (glitch - 3) then
        let ob := (s.sectorBytes o).take 60
        let s := if 3 < glitch then s.addF F.memChStat_reread (s.channelOf o) 1 else s
        (some ob, ((s.rewrite n ob).addF F.memChStat_recov k 1).sectorEvent 0x4002 n)
      else (none, s.readFails n)
    | none => (none, s.readFails n)

/-- Words `w` to `w + len − 1`, or `none` where a sector fails. -/
def State.readWords (s : State) (w len glitch : Nat) : Option (List Word) × State :=
  if len = 0 then (some [], s)
  else
    let first := w / 12
    let last := (w + len - 1) / 12
    let (ok, s) := (List.range (last + 1 - first)).foldl (fun (acc : Option (List Word) × State) i =>
      match acc.1 with
      | none => acc
      | some ws =>
        match acc.2.readSector (first + i) glitch with
        | (some bs, s) => (some (ws ++ bytesToWords bs), s)
        | (none, s) => (none, s)) (some [], s)
    (ok.map fun ws => (ws.drop (w % 12)).take len, s)

/-- Words written from word address `w`: a sector covered whole without a read, any other by a read-modify-write
(R342). The count is that of the words written; where a read failed, those of the sectors before it. -/
def State.writeWords (s : State) (w : Nat) (ws : List Word) (glitch : Nat) : Nat × State :=
  let first := w / 12
  let n := if ws.isEmpty then 0 else (w + ws.length - 1) / 12 + 1 - first
  let (_, k, s) := (List.range n).foldl (fun (acc : Bool × Nat × State) i =>
    let (go, k, s) := acc
    if !go then acc
    else
      let sec := first + i
      let base := 12 * sec
      let inside (j : Nat) : Bool := decide (w ≤ base + j ∧ base + j < w + ws.length)
      let here := ((List.range 12).filter inside).length
      let pick (old : List Word) : List Word :=
        (List.range 12).map fun j => if inside j then ws.getD (base + j - w) 0 else old.getD j 0
      if here = 12 then (true, k + 12, s.writeSector sec (wordsToBytes (pick [])))
      else
        match s.readSector sec glitch with
        | (some bs, s) => (true, k + here, s.writeSector sec (wordsToBytes (pick (bytesToWords bs))))
        | (none, s) => (false, k, s)) (true, 0, s)
  (k, s)

end Sys2Proof.Machine
end

