-- ==== Sys2Proof/Machine/RingOps.lean ====
section
/-!
DEFINITION. Flits and packets (R310 to R315), the queues of a station, and how a client sends a request and a
destination answers it (R322, R324).
-/
namespace Sys2Proof.Machine

/-! ### Headers (R312) -/

namespace FL
def dst (h : BitVec 64) : Nat := (h.extractLsb' 59 5).toNat
def src (h : BitVec 64) : Nat := (h.extractLsb' 54 5).toNat
def scl (h : BitVec 64) : Nat := (h.extractLsb' 51 3).toNat
def response (h : BitVec 64) : Bool := h.getLsbD 50
def kind (h : BitVec 64) : Nat := (h.extractLsb' 46 4).toNat
def len (h : BitVec 64) : Nat := (h.extractLsb' 43 3).toNat
def fidx (h : BitVec 64) : Nat := (h.extractLsb' 40 3).toNat
def tag (h : BitVec 64) : Nat := (h.extractLsb' 32 8).toNat
def stream (h : BitVec 64) : Nat := (h.extractLsb' 20 12).toNat
def fn (h : BitVec 64) : Nat := (h.extractLsb' 15 5).toNat
def age (h : BitVec 64) : Nat := (h.extractLsb' 12 3).toNat
def rs (h : BitVec 64) : Bool := h.getLsbD 11
def stat (h : BitVec 64) : Nat := (h.extractLsb' 8 3).toNat
def moved (h : BitVec 64) : Nat := (h.extractLsb' 20 6).toNat
end FL

/-- CRC-8, polynomial x^8 + x^2 + x + 1, initial value 0, over bits 63:8 with bit 63 first. -/
def crc8 (h : BitVec 64) : BitVec 8 :=
  (List.range 56).foldl (fun c i =>
    if c.getLsbD 7 != h.getLsbD (63 - i) then (c <<< 1) ^^^ 0x07#8 else c <<< 1) 0#8

def sealHeader (h : BitVec 64) : BitVec 64 := putBits h 0 8 (crc8 h)

def mkHeader (dst src scl : Nat) (resp : Bool) (kind len fidx tag mid fn stat : Nat) : BitVec 64 :=
  sealHeader (BitVec.ofNat 64 (dst * 2 ^ 59 + src * 2 ^ 54 + scl * 2 ^ 51 + resp.toNat * 2 ^ 50 + kind * 2 ^ 46 +
    len * 2 ^ 43 + fidx * 2 ^ 40 + tag * 2 ^ 32 + mid * 2 ^ 20 + fn * 2 ^ 15 + stat * 2 ^ 8))

/-- A header that R313 removes: CRC, DST, KIND, LEN or FIDX. -/
def badHeader (h : BitVec 64) : Bool :=
  h.extractLsb' 0 8 != crc8 h || decide (20 < FL.dst h) || decide (0xA < FL.kind h) ||
    FL.len h == 0 || decide (5 < FL.len h) || decide (FL.len h ≤ FL.fidx h)

/-- A payload sector of twelve words, with the CRC for s = 0 (R310, R333). -/
def mkPayload (ws : List Word) : BitVec 512 :=
  let data := (wordsToBytes (ws.take 12) ++ zeroData).take 60
  BitVec.ofNat 512 (ofBytes (data ++ leBytes (sectorCrc data 0).toNat 4))

def payloadOk (p : BitVec 512) : Bool := sectorGood (leBytes p.toNat 64) 0

def Flit.words (f : Flit) : List Word := (List.range 12).map fun i => f.p.extractLsb' (40 * i) 40

/-- A packet: its words cut into flits of twelve. -/
def mkPacket (id turn dst src scl : Nat) (resp : Bool) (kind tag mid fn stat : Nat) (ws : List Word) : List Flit :=
  let n := max 1 ((ws.length + 11) / 12)
  (List.range n).map fun i =>
    { h := mkHeader dst src scl resp kind n i tag mid fn stat, p := mkPayload (ws.drop (12 * i)), id, turn }

/-! ### Stations -/

def State.station (s : State) (k : Nat) : Station := s.ring.stations.at k
def State.updStation (s : State) (k : Nat) (f : Station → Station) : State :=
  { s with ring := { s.ring with stations := s.ring.stations.upd k f } }

/-- Ring station of a core, and its client position (R199, R309). -/
def coreStation (c : Nat) : Nat := let q := c / 16; let s := c / 4 % 4; 5 * q + s
def corePos (c : Nat) : Nat := c % 4

/-- The core at a position of a quadrant station. -/
def stationCore (k pos : Nat) : Nat :=
  let q := if k < 4 then 0 else if k < 9 then 1 else if k < 14 then 2 else 3
  16 * q + 4 * (k - 5 * q) + pos

/-- Ring station of a gathering's ring port. -/
def gthStation (g : Nat) : Nat := 5 * gthQ g + gthY g / 8

def quadrantStation (k : Nat) : Bool := k != 4 && k != 9 && k != 14 && k != 19 && decide (k < 20)

/-- Response flits that a request asks for (R314). -/
def responseFlits (kind count : Nat) : Nat :=
  if kind = 0 ∨ kind = 3 ∨ kind = 4 then max 1 ((count + 11) / 12) else 1

/-- A client's request queued for injection; the request is kept for resends. -/
def State.request (s : State) (k cl : Nat) (dst kind tag stream fn : Nat) (ws : List Word) : State :=
  let id := s.ring.sent
  let fl := mkPacket id 0 dst k cl false kind tag stream fn 0 ws
  let o : OutReq := { id, client := cl, tag, dst, kind, flits := fl }
  ({ s with ring := { s.ring with sent := id + 1 } }).updStation k fun x =>
    { x with inj := x.inj.upd cl (· ++ fl), out := x.out ++ [o] }

/-- Response flits for which a client's buffer holds space (R322). -/
def Station.reserved (x : Station) (cl : Nat) : Nat := ((x.out.filter fun o => o.client == cl).map (·.held)).sum

/-- The client that responses of a station come from (R316). -/
def respClient (k : Nat) : Nat := if k = 4 then 1 else 0

/-- A request as its destination sees it: header and words, where every payload check passes. -/
structure Request where
  h : BitVec 64
  ws : List Word
  id : Nat := 0
  turn : Nat := 0
  deriving DecidableEq, Repr

/-- The word at a place of a request's words. -/
def Request.word (q : Request) (i : Nat) : Word := q.ws.getD i 0
def Request.count (q : Request) : Nat := ((q.word 1).extractLsb' 0 6).toNat

/-- Data words of a request: from word 2 of flit 0 on. -/
def Request.data (q : Request) : List Word := (q.ws.drop 2).take q.count

/-- Responses that are kept for resends (R324): those to QPUSH, QPOP, CMSG and DSP. -/
def keepsResponse (kind : Nat) : Bool := kind == 2 || kind == 3 || kind == 6 || kind == 7

/-- A kept response is one to the request with this header: kind, source, client and tag. -/
def KeptResp.answers (y : KeptResp) (h : BitVec 64) : Bool :=
  y.kind == FL.kind h && y.src == FL.src h && y.client == FL.scl h && y.tag == FL.tag h

/-- A response queued for injection at the responding station, and kept where R324 says so. -/
def State.respond (s : State) (k : Nat) (q : Request) (kind stat moved : Nat) (ws : List Word) : State :=
  let req := q.h
  let fl := mkPacket q.id q.turn (FL.src req) k (FL.scl req) true kind (FL.tag req) moved (FL.fn req) stat ws
  s.updStation k fun x =>
    { x with injResp := x.injResp.upd (respClient k) (· ++ fl),
             kept := if keepsResponse (FL.kind req) then
                 { kind := FL.kind req, src := FL.src req, client := FL.scl req, tag := FL.tag req, flits := fl } ::
                   x.kept.filter fun y => !y.answers req
               else x.kept }

/-! ### Packets from flits -/

/-- Flits of one sending of one packet. -/
def Flit.same (f g : Flit) : Bool := f.id == g.id && f.turn == g.turn

/-- The packet of a flit in flit-index order, where all its flits are among `q`. -/
def packetOf (q : List Flit) (f : Flit) : Option (List Flit) :=
  let mine := (List.range (FL.len f.h)).filterMap fun i => q.find? fun g => g.same f && FL.fidx g.h == i
  if mine.length = FL.len f.h then some mine else none

/-- The whole packets among `q`, in the order in which they became whole. -/
def wholePackets (q : List Flit) : List (List Flit) :=
  (q.zipIdx).filterMap fun p => if (packetOf (q.take p.2) p.1).isSome then none else packetOf (q.take (p.2 + 1)) p.1

def packetHeader (p : List Flit) : BitVec 64 := (p.head?.getD default).h

/-- What stays of `q` once a packet is taken: its own flits go, and with them those of sendings of the same request that
are not whole. -/
def dropPacket (q : List Flit) (p : List Flit) (g : Flit) : Bool :=
  match p.head? with
  | none => false
  | some f => g.id == f.id && (g.same f || (packetOf q g).isNone)

/-- The gathering whose ring port a request waits at (R134), where it is a folio request. -/
def portOf (p : List Flit) : Option Nat :=
  let w := ((p.head?.getD default).words).getD 0 0
  match FL.kind (packetHeader p) with
  | 2 | 3 => some ((w.extractLsb' 2 12).toNat)
  | 4 | 5 => some ((w.extractLsb' 11 12).toNat)
  | _ => none

/-- The oldest whole request of a kind that waits at a station, behind no older one at the same ring port (R134); its space
is freed. Where there is none, the consumers take the flits of unfinished packets out of the queues, so that these always
drain (R325). -/
def State.takeRequest (s : State) (k kind : Nat) : Option (List Flit) × State :=
  let st := s.station k
  let q := st.parts ++ st.ej.map (·.flit)
  let ps := wholePackets q
  match (ps.zipIdx).find? fun p => FL.kind (packetHeader p.1) == kind &&
      !((ps.take p.2).any fun y => (portOf y).isSome && portOf y == portOf p.1) with
  | some p => (some p.1, s.updStation k fun x =>
      { x with parts := x.parts.filter (fun g => !dropPacket q p.1 g), ej := x.ej.filter fun g => !dropPacket q p.1 g.flit })
  | none => (none, s.updStation k fun x =>
      { x with parts := x.parts ++ (x.ej.map (·.flit)).filter (fun g => (packetOf q g).isNone),
               ej := x.ej.filter fun g => (packetOf q g.flit).isSome })

/-- What a destination does with a packet taken from its queue (R324): a failed payload discards it; a resend that
matches a kept response is answered with that response; any other request is acted on. -/
inductive Taken where
  | done (s : State)
  | act (q : Request) (s : State)

def State.serve (s : State) (k kind : Nat) : Taken :=
  match s.takeRequest k kind with
  | (none, s) => .done s
  | (some fl, s) =>
    let f := fl.head?.getD default
    if fl.all (fun f => payloadOk f.p) = false then .done (s.addF F.spnErr_pcrc 0 1)
    else
      match (s.station k).kept.find? (fun y => FL.rs f.h && y.answers f.h) with
      | some y =>
        let again := y.flits.map fun g => { g with id := f.id, turn := f.turn }
        .done (s.updStation k fun x => { x with injResp := x.injResp.upd (respClient k) (· ++ again) })
      | none => .act { h := f.h, ws := fl.flatMap Flit.words, id := f.id, turn := f.turn } s

/-- The response of a kind that waits for a client, whole. -/
def State.takeResponse (s : State) (k cl kind : Nat) : Option (List Flit × State) :=
  let q := (s.station k).resp.at cl
  match (wholePackets q).find? fun p => FL.kind (packetHeader p) == kind with
  | none => none
  | some p => some (p, s.updStation k fun x => { x with resp := x.resp.put cl (q.filter fun g => !dropPacket q p g) })

/-- The outstanding requests of a station that are not of `p`: those that end free their space. -/
def State.endRequests (s : State) (k : Nat) (p : OutReq → Bool) : State :=
  s.updStation k fun x => { x with out := x.out.filter fun o => !p o }

/-- A request that its requester gives up (R327): what of it was not injected never is. -/
def State.abandonRequests (s : State) (k : Nat) (p : OutReq → Bool) : State :=
  let ids := ((s.station k).out.filter p).map (·.id)
  (s.endRequests k p).updStation k fun x =>
    { x with inj := x.inj.updAll x.inj.keys fun q => q.filter fun f => !ids.contains f.id }

/-- Requests whose responses will be discarded. -/
def State.voidRequests (s : State) (k : Nat) (p : OutReq → Bool) : State :=
  s.updStation k fun x => { x with out := x.out.map fun o => if p o then { o with void := true } else o }

/-- A flit of a sending again, with RS = 1 (R324). -/
def resend (turn : Nat) (f : Flit) : Flit := { f with h := sealHeader (putBits f.h 11 1 1#1), turn }

/-- A request sent again on the same reservation (R324), ahead of its client's other requests but behind the rest of a
packet under way; what came of an earlier response is dropped. -/
def State.sendAgain (s : State) (k : Nat) (o : OutReq) : State :=
  let s := s.addF F.spnErr_resend 0 1
  s.updStation k fun x =>
    { x with inj := x.inj.upd o.client (fun q =>
               q.takeWhile (fun f => FL.fidx f.h != 0) ++ o.flits.map (resend (o.resends + 1)) ++
                 q.dropWhile fun f => FL.fidx f.h != 0),
             resp := x.resp.upd o.client fun q => q.filter fun f => f.id != o.id,
             out := x.out.map fun y => if y.id = o.id then { y with resends := y.resends + 1 } else y }

/-- A response handed to its requester (R324): a failed payload discards it and sends the request again at once; one
that no outstanding request awaits is discarded, and so is one to a request given up; any other ends its request and frees
its space. -/
def State.accept (s : State) (k cl kind : Nat) : Option (Request × State) × State :=
  match s.takeResponse k cl kind with
  | none => (none, s)
  | some (fl, s) =>
    let f := fl.head?.getD default
    match (s.station k).out.find? fun o => o.id == f.id with
    | none => (none, s)
    | some o =>
      if fl.all (fun f => payloadOk f.p) then
        let t := s.endRequests k fun y => y.id == f.id
        if o.void then (none, t) else (some ({ h := f.h, ws := fl.flatMap Flit.words, id := f.id, turn := f.turn }, t), s)
      else (none, (s.addF F.spnErr_pcrc 0 1).sendAgain k o)

end Sys2Proof.Machine
end

