-- ==== Sys2Proof/Machine/HostRings.lean ====
section
/-!
DEFINITION. The rings of the host queue sets: record writes, their vectors, and the staging slots (R274 to R280).
-/
namespace Sys2Proof.Machine

def State.hq (s : State) (m : Nat) : QueueSet := s.col.queueSets.at m
def State.updHq (s : State) (m : Nat) (f : QueueSet → QueueSet) : State :=
  { s with col := { s.col with queueSets := s.col.queueSets.upd m f } }

/-- Entries of each ring of a set (R274). -/
def State.hqN (s : State) (m : Nat) : Nat := 2 ^ s.getN F.hubHqCfg_log2n m
def State.hqFn (s : State) (m : Nat) : Nat := s.getN F.hubHqCfg_fn m

/-- The set is enabled and has not stopped (R281). -/
def State.hqOn (s : State) (m : Nat) : Bool := s.bitF F.hubHqCfg_en m && !s.bitF F.hubHqCfg_stop m

def State.hqStop (s : State) (m err : Nat) : State := (s.putN F.hubHqCfg_err m err).setF F.hubHqCfg_stop m

/-- Signals a ring's vector, at most once in an interval (R280). -/
def State.signalRing (s : State) (m vec : Nat) : State :=
  if s.getN F.hubHqCfg_itr_us m = 0 then s.signal (s.hqFn m) vec
  else if (s.hq m).itrOpen.contains vec then
    s.updHq m fun q => { q with itrWait := if q.itrWait.contains vec then q.itrWait else vec :: q.itrWait }
  else (s.signal (s.hqFn m) vec).updHq m fun q => { q with itrOpen := vec :: q.itrOpen }

/-- Slot `i` of the ring whose base register is `r`. -/
def State.slotAddr (s : State) (r : RegId) (m i size : Nat) : BitVec 64 :=
  (s.reg r m &&& ~~~0xFFF#64) + BitVec.ofNat 64 (size * i)

/-- The AQ record of R277, at the tail. -/
def State.writeAq (s : State) (m : Nat) (cw : Word) (stream code : Nat) : State :=
  let i := s.getN F.hubHqStat_aqtail m
  let next := (i + 1) % s.hqN m
  let record := cw.toNat + stream * 2 ^ 40 + code * 2 ^ 52 + (s.hq m).aqPhase.toNat * 2 ^ 63
  ((((s.emit (.hostWrite (s.hqFn m) (s.slotAddr .hubHqAq m i 16) (leBytes record 16))).putN F.hubHqStat_aqtail m next).updHq
    m fun q => { q with aqOut := q.aqOut + 1, aqPhase := if next = 0 then !q.aqPhase else q.aqPhase })).signalRing m
      (s.getN F.hubHqCfg_aqvec m)

/-- An entry freed in both copies (R292, R295). -/
def State.freeEntry (s : State) (id : Nat) : State :=
  match s.item? id with
  | none => s
  | some _ => (s.dropItem id).putN F.colLedger_used 0 (s.getN F.colLedger_used 0 - 1)

/-- The RQ record of R277, at the tail; it ends the retirement of its item. -/
def State.writeRq (s : State) (m : Nat) (r : RqRecord) : State :=
  let i := s.getN F.hubHqStat_rqtail m
  let next := (i + 1) % s.hqN m
  let record := r.cw.toNat + r.stream * 2 ^ 40 + r.kind * 2 ^ 60 + (s.hq m).rqPhase.toNat * 2 ^ 63 + r.result.toNat * 2 ^ 64
  let s := ((((s.emit (.hostWrite (s.hqFn m) (s.slotAddr .hubHqRq m i 16) (leBytes record 16))).putN F.hubHqStat_rqtail m
    next).updHq m fun q => { q with rqOut := q.rqOut + 1, rqPhase := if next = 0 then !q.rqPhase else q.rqPhase })).signalRing
      m (s.getN F.hubHqCfg_rqvec m)
  match r.item with
  | some id => s.freeEntry id
  | none => s

/-- The records that wait, written while slots are free (R276). -/
def State.drainRq (s : State) (m : Nat) : State :=
  (List.range (s.hq m).rqWait.length).foldl (fun s _ =>
    match (s.hq m).rqWait with
    | [] => s
    | r :: rest =>
      if s.hqOn m && decide ((s.hq m).rqOut < s.hqN m) then
        (s.updHq m fun q => { q with rqWait := rest }).writeRq m r
      else s) s

def State.sendRq (s : State) (m : Nat) (r : RqRecord) : State :=
  (s.updHq m fun q => { q with rqWait := q.rqWait ++ [r] }).drainRq m

/-- A record sent whose write fails on the way: the set stops with ERR = 2 and the record waits (R281). -/
def State.failRq (s : State) (m : Nat) (r : RqRecord) : State :=
  if s.hqOn m then (s.updHq m fun q => { q with rqWait := q.rqWait ++ [r] }).hqStop m 2 else s.sendRq m r

/-! ### Runs of catchwords (R303) -/

/-- Steps of succession from `a` to `b` (R286: 0 is passed over). -/
def cwSteps (a b : Word) : Nat := if b.toNat < a.toNat then cwDist a b - 1 else cwDist a b

/-- The catchword `n` steps after `a`. -/
def cwPlus (a : Word) (n : Nat) : Word :=
  if a.toNat + n < 2 ^ 40 then BitVec.ofNat 40 (a.toNat + n) else BitVec.ofNat 40 (a.toNat + n + 1)

/-- A run cut into runs of at most 65,535. -/
def cutRun (first : Word) (n : Nat) : List (Word × Nat) :=
  (List.range ((n + 65534) / 65535)).map fun i => (cwPlus first (65535 * i), min 65535 (n - 65535 * i))

/-- One record for each cut of each run, to a queue set (R303, R305). -/
def State.reportRuns (s : State) (m st kind : Nat) (runs : List (Word × Nat)) : State :=
  (runs.flatMap fun r => cutRun r.1 r.2).foldl (fun s r =>
    s.sendRq m { cw := r.1, stream := st, kind, result := BitVec.ofNat 16 r.2 }) s

/-! ### The staging ring (R278, R279) -/

def State.stagingBase (s : State) (m : Nat) : Nat := 16 * s.getN F.hubHqXstg_base m

/-- A word of DRAM as it stands, whatever its sector's CRC says. -/
def State.rawWord (s : State) (w : Nat) : Word :=
  (bytesToWords ((s.sectorBytes (w / 12)).take 60)).getD (w % 12) 0

/-- A slot holds a valid record of this stream and catchword. -/
def State.slotHolds (s : State) (m slot stream : Nat) (cw : Word) : Bool :=
  let a := s.stagingBase m + 16 * slot
  (s.rawWord a).getLsbD 39 && ((s.rawWord a).extractLsb' 0 12).toNat == stream && s.rawWord (a + 1) == cw

/-- A result record of the item stands in the staging ring of a set that delivers results, whether or not the set has
stopped or its EN is 0. -/
def State.stagedIn (s : State) (x : Item) (m : Nat) : Bool :=
  s.bitF F.hubHqCfg_xen m && (List.range (s.hqN m)).any fun i => s.slotHolds m i x.stream x.cw

/-- A result record of the item was staged: in the set that it came from or, where it came from none, in a set of its
stream's owner. -/
def State.staged (s : State) (x : Item) : Bool :=
  match x.srcq with
  | some m => s.stagedIn x m
  | none => (List.range 64).any fun m => s.hqFn m == s.getN F.colStrCfg_owner x.stream && s.stagedIn x m

/-- The XQ record of R279 from the sixteen words of a slot, at the tail. -/
def State.writeXq (s : State) (m : Nat) (ws : List Word) : State :=
  let i := s.getN F.hubHqStat_xqtail m
  let next := (i + 1) % s.hqN m
  let phase := if (s.hq m).xqPhase then 2 ^ 63 else 0
  let bytes := (ws.zipIdx).flatMap fun p => leBytes (p.1.toNat + if p.2 = 0 then phase else 0) 8
  ((((s.emit (.hostWrite (s.hqFn m) (s.slotAddr .hubHqXq m i 128) bytes)).putN F.hubHqStat_xqtail m next).updHq
    m fun q => { q with xqOut := q.xqOut + 1, xqPhase := if next = 0 then !q.xqPhase else q.xqPhase })).signalRing m
      (s.getN F.hubHqCfg_xqvec m)

end Sys2Proof.Machine
end

