-- ==== Sys2Proof/Machine/Ledger.lean ====
section
/-!
DEFINITION. The acceptance ledger: submission (R247, R288, R290), completion (R248), retirement (R293 to R295), the
holes of an open resubmission range (R303 to R305), and the commands over them.
-/
namespace Sys2Proof.Machine

def State.ret (s : State) (st : Nat) : Word := s.getF F.colStrRet_ret st
def State.acc (s : State) (st : Nat) : Word := s.getF F.colStrAcc_acc st
def State.strOwner (s : State) (st : Nat) : Nat := s.getN F.colStrCfg_owner st

/-- A reserved bit of a submitted descriptor is set (R246). -/
def reservedSet (d : BitVec 256) : Bool :=
  d.extractLsb' 78 2 != 0 || d.extractLsb' 150 10 != 0 || d.extractLsb' 198 2 != 0 || d.extractLsb' 252 4 != 0

/-- R247: the refusal code of a submission on source `m`, 0 where every check passes. `owner`: the function that
submits, where the rules name one. -/
def State.refusal (s : State) (m : Nat) (owner : Option Nat) (d : BitVec 256) : Nat :=
  let st := D.stream d
  let af := D.afterStream d
  if !s.bitF F.colEv_en m || !s.bitF F.colStrCfg_en st || s.bitF F.colStrCfg_kind st then 1
  else if (match owner with | some f => f != s.strOwner st | none => false) then 2
  else if s.getN F.colStrStat_state st = 2 then 3
  else if reservedSet d || D.cls d != s.getN F.colStrCfg_class st ||
      !s.inPartition (s.strOwner st) (D.paddr d) (D.len d) ||
      (D.afterEn d && (af == st || !s.bitF F.colStrCfg_en af || s.strOwner af != s.strOwner st)) then 4
  else if D.afterEn d && decide (2 ^ 39 ≤ cwDist (s.ret af) (D.afterCw d)) then 5
  else if 16777216 ≤ s.getN F.colLedger_used 0 then 6
  else 0

/-! ### The open range of a stream (R303, R304) -/

/-- The place of a catchword in a run. -/
def withinRun (r : Word × Nat) (c : Word) : Bool := decide (cwSteps r.1 c < r.2) && c != 0

def removeFromRuns (c : Word) (rs : List (Word × Nat)) : List (Word × Nat) :=
  rs.flatMap fun r =>
    if withinRun r c then
      let k := cwSteps r.1 c
      [(r.1, k), (cwNext c, r.2 - k - 1)].filter fun x => x.2 != 0
    else [r]

def State.isHole (s : State) (st : Nat) (c : Word) : Bool := (s.col.holes.at st).any fun r => withinRun r c

/-- The holes of a stream set, with the registers that report them; the range closes with its last hole. -/
def State.setHoles (s : State) (st : Nat) (rs : List (Word × Nat)) : State :=
  let was := s.bitF F.colStrRsb_open st
  let n := (rs.map (·.2)).foldl (· + ·) 0
  let s := { s with col := { s.col with holes := s.col.holes.put st rs } }
  let s := (s.putN F.colStrHoles_count st (min n (2 ^ 25 - 1))).putF F.colStrRsb_first st ((rs.head?.map (·.1)).getD 0)
  let s := s.putF F.colStrRsb_open st (BitVec.ofBool (!rs.isEmpty))
  match was, rs.isEmpty with
  | false, false => s.addF F.colLedger_openrng 0 1
  | true, true => s.putN F.colLedger_openrng 0 (s.getN F.colLedger_openrng 0 - 1)
  | _, _ => s

/-! ### The above-mark set (R295) -/

def State.setAms (s : State) (l : List (Nat × Word)) : State :=
  { s with col := { s.col with ams := l } }.putN F.colLedger_ams 0 (min l.length (2 ^ 17 - 1))

def State.inAms (s : State) (st : Nat) (c : Word) : Bool := s.col.ams.contains (st, c)

/-- Catchwords that the above-mark set holds (R295). -/
def amsSize : Nat := 65536

/-- RET past every consecutive catchword of the set, which leave it. -/
def State.advanceRet (s : State) (st : Nat) : State :=
  (List.range s.col.ams.length).foldl (fun s _ =>
    let n := cwNext (s.ret st)
    if s.inAms st n then (s.setAms (s.col.ams.erase (st, n))).putF F.colStrRet_ret st n else s) s

/-- An abandoned run: RET passes it where it is next, and otherwise as much of it as there is space for enters the set. -/
def State.retireRun (s : State) (r : Nat × Word × Nat) : State :=
  let (st, c, n) := r
  let keep (s : State) (l : List (Nat × Word × Nat)) : State :=
    { s with col := { s.col with abandoned := s.col.abandoned ++ l } }
  if c = cwNext (s.ret st) then (s.putF F.colStrRet_ret st (cwPlus c (n - 1))).advanceRet st
  else
    let k := min n (amsSize - s.col.ams.length)
    let s := s.setAms (s.col.ams ++ (List.range k).map fun i => (st, cwPlus c i))
    if k = n then s else keep s [(st, cwPlus c k, n - k)]

/-- The abandoned runs that wait, taken in order until none can move on. -/
def State.retireRuns (s : State) : State :=
  (List.range (s.col.abandoned.length + 1)).foldl (fun (s : State) _ =>
    let runs := s.col.abandoned
    runs.foldl State.retireRun { s with col := { s.col with abandoned := [] } }) s

/-- A retired catchword recorded (R295 steps 2 and 3). -/
def State.retireCw (s : State) (st : Nat) (c : Word) : State :=
  if c = cwNext (s.ret st) then ((s.putF F.colStrRet_ret st c).advanceRet st).retireRuns
  else s.setAms (s.col.ams ++ [(st, c)])

/-- The catchword has retired: at or below RET, in the above-mark set, or in an abandoned run that waits to enter it. -/
def State.hasRetired (s : State) (st : Nat) (c : Word) : Bool :=
  cwDist (s.ret st) c = 0 || decide (2 ^ 39 ≤ cwDist (s.ret st) c) || s.inAms st c || s.col.abandoned.any fun r => r.1 == st && withinRun r.2 c

/-! ### Submission (R288, R290) -/

/-- A new entry at a catchword. -/
def State.newEntry (s : State) (m fn : Nat) (srcq : Option Nat) (d : BitVec 256) (c : Word) : State :=
  let d := putBits (putBits (putBits (putBits d 0 40 c) 184 14 0#14) 240 10 (BitVec.ofNat 10 m)) 250 2 0#2
  let used := (s.col.items.filter fun x => !x.event).map Item.slot
  let slot := ((List.range (used.length + 1)).find? fun k => !used.contains k).getD 0
  let x : Item := { id := s.col.nextId, desc := d, fn, srcq, pos := .queued, slot }
  (({ s with col := { s.col with items := s.col.items ++ [x], nextId := s.col.nextId + 1 } }).addF F.colLedger_used
    0 1).settle

def State.assign (s : State) (m fn : Nat) (srcq : Option Nat) (d : BitVec 256) : Word × State :=
  let st := D.stream d
  let c := cwNext (s.acc st)
  (c, (s.putF F.colStrAcc_acc st c).newEntry m fn srcq d c)

/-- What a submission is answered: its code and catchword, whether it made an entry, and whether the claimed catchword has
retired, so that a DUP record is to follow the acceptance record (R288). -/
structure Submitted where
  code : Nat
  cw : Word
  made : Bool := false
  dup : Bool := false

/-- A submission on source `m` (R247, R288): its answer, and what it does. -/
def State.submit (s : State) (m : Nat) (owner srcq : Option Nat) (d : BitVec 256) : Submitted × State :=
  let code := s.refusal m owner d
  let st := D.stream d
  let c := D.catchword d
  let fn := s.strOwner st
  if code ≠ 0 then ({ code, cw := 0 }, s)
  else if c = 0 then let (c, s) := s.assign m fn srcq d; ({ code, cw := c, made := true }, s)
  else if s.hasRetired st c then ({ code, cw := c, dup := true }, s)
  else if cwDist (s.ret st) c ≤ cwDist (s.ret st) (s.acc st) then
    if s.isHole st c then
      ({ code, cw := c, made := true },
        (s.setHoles st (removeFromRuns c (s.col.holes.at st))).newEntry m fn srcq d c)
    else ({ code, cw := c }, s)
  else
    let (a, s) := s.assign m fn srcq d
    ({ code, cw := a, made := true }, s.logOther .colStrAcc st)

/-! ### Completion (R248) -/

def State.recordDone (s : State) (id : Nat) : State :=
  s.updItem id fun x => { x with pos := .completed, inFlight := false, faultCore := none, heldOut := false }

/-- An older item of the stream is not recorded yet. -/
def State.olderOpen (s : State) (x : Item) : Bool :=
  s.col.items.any fun y => y.stream == x.stream && y.id != x.id && !y.finished && s.before y x

/-- A `done` that came early is recorded once every older item is. -/
def State.recordEarly (s : State) (st : Nat) : State :=
  (List.range s.col.items.length).foldl (fun s _ =>
    match s.col.items.find? (fun x => x.stream == st && x.pos == .early && !s.olderOpen x) with
    | some x => s.recordDone x.id
    | none => s) s

/-- An item completed with a result code: an event item is closed (R240), an item of a PIPELINED stream is held until
every older one is recorded. -/
def State.complete (s : State) (id : Nat) (result : BitVec 16) : State :=
  match s.item? id with
  | none => s
  | some x =>
    let st := x.stream
    if x.event then ((s.dropItem id).settle).refreshStream st
    else
      let s := if x.faultCore.isSome then s.putN F.colStrStat_faults st 0 else s
      let s := s.updItem id fun y => { y with result, xstaged := s.staged x }
      let s := if s.getN F.colStrCfg_class st = pipelined ∧ s.olderOpen x = true then
          s.updItem id fun y => { y with pos := .early, faultCore := none }
        else s.recordDone id
      ((s.recordEarly st).settle).refreshStream st

/-! ### Retirement (R293, R295) -/

/-- The last word that the item pushed into the mark's queue has been popped by a committed quire. -/
def State.markMet (s : State) (m : Mark) : Bool :=
  let g := m.queue / 4
  let n := m.queue % 4
  let q := (s.gth g).queue.at n
  let size := s.qSize g n
  !m.valid || decide (modDist q.rp q.apCom.p size ≤ modDist q.rp m.rp size)

/-- Every condition of R293 holds, and where the item has a host queue set that is on, its RQ has a free slot (R276). -/
def State.canRetire (s : State) (x : Item) : Bool :=
  x.pos == .completed && x.marks.all s.markMet && (!x.xstaged || x.xdone) &&
    (match x.srcq with
     | some m => !s.hqOn m || (decide ((s.hq m).rqOut < s.hqN m) && (s.hq m).rqWait.isEmpty)
     | none => true) &&
    (x.cw == cwNext (s.ret x.stream) || decide (s.col.ams.length < amsSize))

/-- Retirement (R295); `fails`: the write of its record fails on the way. -/
def State.retire (s : State) (x : Item) (fails : Bool) : State :=
  let s := s.updItem x.id fun y => { y with pos := .retired }
  let s := s.retireCw x.stream x.cw
  let s := match x.srcq with
    | some m =>
      let r : RqRecord := { cw := x.cw, stream := x.stream, kind := x.retireKind, result := x.result, item := some x.id }
      if fails then s.failRq m r else s.sendRq m r
    | none => s.freeEntry x.id
  s.settle.refreshStream x.stream

/-! ### The commands -/

/-- ITEM_RETIRE (R295): retirement of an item whose conditions all hold. -/
def execItemRetire (st : StreamId) (e : Retirement) (s : State) : Result :=
  .next <| match s.col.items.find? (fun x => !x.event && x.stream == st.val && x.cw == e.cw) with
    | some x => if s.canRetire x then s.retire x e.fails else s
    | none => s

/-- LEDGER_CHANNEL_REBUILD (R302): a channel failed, and the rebuild of the ledger copy that it held begins; or, with
`done`, that rebuild is complete in another channel. -/
def execLedgerChannelRebuild (e : LedgerChannel) (s : State) : Result :=
  .next <| match e.done, s.col.lost with
    | false, none => { s.setF F.colLedger_remir 0 with col := { s.col with lost := some e.ch.val } }
    | true, some c =>
      if c = e.ch.val then
        { (s.clrF F.colLedger_remir 0).setF F.colLedger_remir_ev 0 with col := { s.col with lost := none } }
      else s
    | _, _ => s

/-- A function may write the registers of a stream (R265). -/
def State.ownsStream (s : State) (fn st : Nat) : Bool := fn == 0 || fn == s.strOwner st

/-- The COL_ registers' refusal (R266): COL_STATUS.REJ. -/
def State.colRej (s : State) : State := s.setF F.colStatus_rej 0

/-- Every remaining hole retired, from the lowest on (R305). -/
def State.abandonHoles (s : State) (st : Nat) : State :=
  let runs := s.col.holes.at st
  let s := s.reportRuns (s.getN F.colStrRsb_repq st) st 4 runs
  let s := s.setHoles st []
  let s := { s with col := { s.col with abandoned := s.col.abandoned ++ runs.map fun r => (st, r) } }.retireRuns
  s.settle.refreshStream st

/-- A write of COL_STRs_RSB: REPQ, and ABANDON where a range is open. -/
def State.writeRsb (s : State) (fn st : Nat) (v : BitVec 64) : State :=
  if s.ownsStream fn st then
    s.writeReg fn .colStrRsb st v false id fun s =>
      if v.getLsbD 63 && s.bitF F.colStrRsb_open st then s.abandonHoles st else s
  else s.ignored fn .colStrRsb st

/-- ABANDON (R305). -/
def execAbandon (fn : FnId) (st : StreamId) (v : BitVec 64) (s : State) : Result :=
  .next (s.bar .colStrRsb st fun s => s.writeRsb fn st v)

/-- A write of COL_STRs_ACC (R307): ACC and RET on a disabled stream with no entry and no open range. -/
def State.writeAcc (s : State) (fn st : Nat) (v : BitVec 64) : State :=
  if s.ownsStream fn st then
    let busy := s.bitF F.colStrCfg_en st || s.bitF F.colStrRsb_open st ||
      s.col.items.any fun x => !x.event && x.stream == st
    let s := s.writeReg fn .colStrAcc st v busy State.colRej id
    if busy then s
    else
      { s.putF F.colStrRet_ret st (BitVec.ofNat 40 (fieldOf F.colStrAcc_acc v)) with
        col := { s.col with abandoned := s.col.abandoned.filter fun r => r.1 != st } }
  else s.ignored fn .colStrAcc st

/-- COL_ACC_WRITE (R307). -/
def execColAccWrite (fn : FnId) (st : StreamId) (v : BitVec 64) (s : State) : Result :=
  .next (s.bar .colStrAcc st fun s => s.writeAcc fn st v)

/-- The resubmission range of a stream, opened at the first power-on after power removal (R303): what lies beyond RET, at
or below ACC, and outside the above-mark set. -/
def State.openRange (s : State) (st : Nat) : State :=
  let ret := s.ret st
  let held := (s.col.ams.filter fun a => a.1 == st).map fun a => cwSteps ret a.2
  let sorted := sortBy (fun a b => decide (a ≤ b)) held ++ [cwSteps ret (s.acc st) + 1]
  let (runs, _) := sorted.foldl (fun (acc : List (Word × Nat) × Nat) p =>
    (if acc.2 < p then acc.1 ++ [(cwPlus ret acc.2, p - acc.2)] else acc.1, p + 1)) ([], 1)
  if runs.isEmpty then s
  else { s.setHoles st runs with col := { (s.setHoles st runs).col with
    unreported := (s.setHoles st runs).col.unreported.filter (· != st) ++ [st] } }

/-- The RESUB records of the streams that report to a queue set just enabled (R303). -/
def State.reportResub (s : State) (m : Nat) : State :=
  let mine := s.col.unreported.filter fun st => s.getN F.colStrRsb_repq st == m
  let s := mine.foldl (fun s st => s.reportRuns m st 2 (s.col.holes.at st)) s
  { s with col := { s.col with unreported := s.col.unreported.filter fun st => !mine.contains st } }

end Sys2Proof.Machine
end

