-- ==== Sys2Proof/Machine/CollatorOps.lean ====
section
/-!
DEFINITION. The Collator's operations (R250 to R264): eligibility and placement, dispatch, the delay lists, the locks,
task faults, and the answers to the Collator instructions of a core.
-/
namespace Sys2Proof.Machine

/-! ### Eligibility and placement (R243, R250 to R252) -/

/-- The effective level of an item. -/
def State.itemLevel (s : State) (x : Item) : Nat :=
  let p := if s.bitF F.colStrCfg_priosrc x.stream then D.prio x.desc else s.getN F.colStrCfg_prio x.stream
  min p (s.getN F.colFn_maxlvl (s.strOwner x.stream))

def State.act (s : State) (c v : Nat) : Option Activation := s.col.acts.at (8 * c + v)
def State.setAct (s : State) (c v : Nat) (a : Option Activation) : State :=
  { s with col := { s.col with acts := s.col.acts.put (8 * c + v) a } }

/-- READY or RUN, or a dispatch on its way there. -/
def State.levelReady (s : State) (c v : Nat) : Bool :=
  match (s.level c v).state with
  | .ready => true
  | .idle => (s.act c v).isSome
  | _ => false

def State.levelWaits (s : State) (c v : Nat) : Bool :=
  match (s.level c v).state with
  | .wait _ => true
  | _ => false

/-- R251: one of `cores`, neither excluded nor in reset. -/
def State.coreOpen (s : State) (c : Nat) (cores : BitVec 64) : Bool :=
  cores.getLsbD c && !s.bitF F.awlCtl_excl c && !s.holdrst c

def State.eligible (s : State) (c v task : Nat) : Bool :=
  s.coreOpen c (s.reg .colTskCores task) && (s.level c v).state == .idle && (s.act c v).isNone

def State.coreFree (s : State) (c v task : Nat) : Bool :=
  s.eligible c v task && (List.range 8).all fun u => u ≤ v || !s.levelReady c u

def State.coreIdle (s : State) (c : Nat) : Bool :=
  (List.range 8).all fun u => !s.levelReady c u && !s.levelWaits c u

/-- One more than the highest READY or RUN level of a core; 0 where there is none. -/
def State.topReady (s : State) (c : Nat) : Nat :=
  (List.range 8).foldl (fun n u => if s.levelReady c u then u + 1 else n) 0

/-- The core that R252 places an item of level `v` on. -/
def State.place (s : State) (x : Item) (v : Nat) : Option Nat :=
  let task := s.getN F.colStrCfg_task x.stream
  let idle := (List.range 64).filter fun c => s.coreIdle c && s.eligible c v task
  let any := match idle.head? with
    | some d => some d
    | none =>
      ((List.range 64).filter fun c => s.coreFree c v task).foldl (fun (best : Option Nat) c =>
        match best with
        | none => some c
        | some b => if s.topReady c < s.topReady b then some c else some b) none
  if s.bitF F.colStrStat_lcvalid x.stream then
    let c := s.getN F.colStrStat_lastcore x.stream
    if s.coreFree c v task && x.faultCore != some c then some c
    else
      match idle.find? (fun d => d / 16 == c / 16) with
      | some d => some d
      | none => if !x.heldOut && decide (s.getN F.colAffHold_hold 0 ≠ 0) then none else any
  else any

/-! ### Dispatch (R246, R253) -/

/-- The descriptor as a dispatch gives it: TASK of the stream, REDO where the item was dispatched before. -/
def State.dispatchDesc (s : State) (x : Item) : BitVec 256 :=
  putBits x.desc 184 14 (s.getF F.colStrCfg_task x.stream)

/-- PEND of a source: an event item of it that has not been dispatched exists (R241, R266). -/
def State.refreshPend (s : State) (m : Nat) : State :=
  s.putF F.colEv_pend m (BitVec.ofBool (s.col.items.any fun x => x.undispatched m))

/-- The item leaves its ready list for a level of a core. -/
def State.takeOff (s : State) (x : Item) (c v : Nat) : State :=
  let st := x.stream
  let s := s.updItem x.id fun y => { y with pos := .flight c v, inFlight := true, heldOut := false }
  let s := if x.event then s.refreshPend (D.src x.desc) else s
  let s := { s with col := { s.col with ready := s.col.ready.filter (· != x.id) } }
  ((s.setF F.colStrStat_lcvalid st).putN F.colStrStat_lastcore st c).refreshStream st

/-- The dispatch of an item to level `v` of core `c`: its activation, and the DSP packet. -/
def State.dispatch (s : State) (x : Item) (c v : Nat) : State :=
  let task := s.getN F.colStrCfg_task x.stream
  let owner := s.strOwner x.stream
  let d := s.dispatchDesc x
  let s := (s.takeOff x c v).setAct c v (some
    { task, item := some x.id, stream := x.stream, owner, cores := s.reg .colTskCores task,
      dlist := s.getN F.colTskCfg_dlist task })
  s.request 4 1 (coreStation c) 7 (8 * corePos c + v) x.stream owner
    ([BitVec.ofNat 40 v, BitVec.ofNat 40 (s.getN F.colTskCfg_entry task)] ++ descWords d)

/-- The first item of a level's ready list that can be placed. -/
def State.placeable (s : State) (v : Nat) : Option (Item × Nat) :=
  s.col.ready.findSome? fun id =>
    match s.item? id with
    | none => none
    | some x => if s.itemLevel x = v ∧ s.permitted x = true then (s.place x v).map fun c => (x, c) else none

/-! ### Delay lists (R257 to R260) -/

def State.delayList (s : State) (l : Nat) : DelayList := s.col.delays.at l

def State.updDelay (s : State) (l : Nat) (f : DelayList → DelayList) : State :=
  let d := f (s.delayList l)
  { s with col := { s.col with delays := s.col.delays.put l d } }.putN F.colDlCfg_used l
    (d.calendar.length + d.tail.length)

/-- The current tick of a list. -/
def State.tickNow (s : State) (l : Nat) : Nat :=
  max (s.delayList l).now ((s.reg .timSpine 0).toNat / max 1 (s.getN F.colDlCfg_tick l))

/-- An entry behind those of the same tick. -/
def insertDue (e : DelayEntry) : List DelayEntry → List DelayEntry
  | [] => [e]
  | x :: xs => if x.due ≤ e.due then x :: insertDue e xs else e :: x :: xs

def State.delayFull (s : State) (l : Nat) : Bool :=
  decide (s.getN F.colDlCfg_cap l ≤ (s.delayList l).calendar.length + (s.delayList l).tail.length)

/-- An entry goes into the calendar or, due 4,096 ticks ahead or later, into the tail. -/
def State.insertDelay (s : State) (l : Nat) (e : DelayEntry) : State :=
  let now := s.tickNow l
  s.updDelay l fun d =>
    if e.due < now + 4096 then { d with now, calendar := insertDue e d.calendar }
    else { d with now, tail := insertDue e d.tail }

def State.removeDelay (s : State) (w : DelayWhat) : State :=
  (List.range 4).foldl (fun s l =>
    s.updDelay l fun d =>
      { d with calendar := d.calendar.filter (fun e => e.what != w), tail := d.tail.filter (fun e => e.what != w) }) s

/-- A timer's entry at tick `due`, or the MISS bit where its list is at CAP (R259). -/
def State.insertTimer (s : State) (t due : Nat) : State :=
  let l := s.getN F.colTim_list t
  let s := { s with col := { s.col with missed := s.col.missed.filter fun m => m.1 != t } }
  if s.delayFull l then
    { s with col := { s.col with missed := s.col.missed ++ [(t, due)] } }.setF F.colTim_miss t
  else s.insertDelay l { due, what := .timer t }

def State.dropTimer (s : State) (t : Nat) : State :=
  let s := s.removeDelay (.timer t)
  { s with col := { s.col with missed := s.col.missed.filter fun m => m.1 != t } }

/-- An item joins the tail of its ready list with REDO = 1 (R255, R258, R259). -/
def State.rejoin (s : State) (id : Nat) : State :=
  (s.updItem id fun x => { x.setRedo with pos := .queued }).settle

/-- `defer` of an item by a number of ticks, on the delay list that its activation found in its task (R245, R255, R259). -/
def State.deferItem (s : State) (id l ticks : Nat) : State :=
  if ticks = 0 then s.rejoin id
  else if s.delayFull l then ((s.addF F.colStatus_dlfull 0 1).logOther .colStatus 0).rejoin id
  else
    let s := s.updItem id fun x => { x with pos := .delayed }
    (s.insertDelay l { due := s.tickNow l + ticks, what := .item id }).settle

/-! ### Locks (R261 to R264); a requester is 8 × core + level -/

def State.lockHolder (s : State) (l : Nat) : Option Nat :=
  if s.bitF F.colLock_held l then some (8 * s.getN F.colLock_hcore l + s.getN F.colLock_hlvl l) else none

def State.lockWaiters (s : State) (l : Nat) : List Nat := s.col.waiters.at l

def State.setWaiters (s : State) (l : Nat) (ws : List Nat) : State :=
  { s with col := { s.col with waiters := s.col.waiters.put l ws } }.putN F.colLock_waiters l (min ws.length 1023)

def State.setHolder (s : State) (l : Nat) (h : Option Nat) : State :=
  match h with
  | some a => ((s.setF F.colLock_held l).putN F.colLock_hcore l (a / 8)).putN F.colLock_hlvl l (a % 8)
  | none => ((s.clrF F.colLock_held l).putN F.colLock_hcore l 0).putN F.colLock_hlvl l 0

/-- The lock that a requester waits on. -/
def State.waitsOn (s : State) (a : Nat) : Option Nat := (List.range 256).find? fun l => (s.lockWaiters l).contains a

/-- The walk of R262 from a lock's holder: 0 to queue, 1 for a cycle, 2 for a chain of more than 64 links. -/
def State.lockWalk (s : State) (a : Nat) : Nat → Nat → Nat
  | 0, _ => 2
  | fuel + 1, o =>
    match s.waitsOn o with
    | none => 0
    | some m =>
      if fuel = 0 then 2
      else
        match s.lockHolder m with
        | none => 0
        | some h => if h = a then 1 else s.lockWalk a fuel h

/-- The answer to a lock request reaches the level that waits for it: RD, Z and READY. -/
def State.answerLock (s : State) (a rd : Nat) : State :=
  let c := a / 8
  let v := a % 8
  let give (r : Nat) : State :=
    (s.updLevel c v fun l => (l.gWrite r (gen (BitVec.ofNat 40 rd))).setZ (rd == 0)).setLevelState c v .ready
  match (s.level c v).state with
  | .wait (.lock r) => give r
  | .wait (.collator op r) => if op = 4 then give r else s
  | _ => s

/-- The waiter granted first: the highest level, and among its waiters the earliest. -/
def nextWaiter (ws : List Nat) : Option Nat :=
  ws.foldl (fun (b : Option Nat) a => match b with
    | none => some a
    | some x => if x % 8 < a % 8 then some a else some x) none

/-- A lock released, and granted to the waiter that comes first. -/
def State.releaseLock (s : State) (l : Nat) : State :=
  match nextWaiter (s.lockWaiters l) with
  | none => s.setHolder l none
  | some a => ((s.setWaiters l ((s.lockWaiters l).erase a)).setHolder l (some a)).answerLock a 0

/-- A requester that no longer waits. -/
def State.withdraw (s : State) (a : Nat) : State :=
  match s.waitsOn a with
  | some l => s.setWaiters l ((s.lockWaiters l).erase a)
  | none => s

/-- Every lock of an activation that ends is released, each with a log entry (R264). -/
def State.releaseAll (s : State) (a : Nat) : State :=
  (List.range 256).foldl (fun s l =>
    if s.lockHolder l = some a then (s.logOther .colLock l).releaseLock l else s) s

/-- What a lock request is answered: `none` where the requester is queued. -/
def State.requestLock (s : State) (a l : Nat) (owner : Option Nat) : Option Nat × State :=
  if owner ≠ some (s.getN F.colLock_owner l) ∨ s.lockHolder l = some a then (some 2, s)
  else
    match s.lockHolder l with
    | none => (some 0, s.setHolder l (some a))
    | some h =>
      match s.lockWalk a 65 h with
      | 0 => (none, s.setWaiters l (s.lockWaiters l ++ [a]))
      | 1 => (some 1, s.addF F.colStatus_deadlocks 0 1)
      | _ => (some 2, s)

/-! ### Task faults (R213, R228, R256, R264) -/

/-- A stream's FAULTS advanced; at FAULT_MAX it enters STALLED, where it is not yet (R256). -/
def State.countFault (s : State) (st : Nat) (cw : Word) : State :=
  let s := s.addF F.colStrStat_faults st 1
  if s.getN F.colStrStat_faults st < s.getN F.colCtl_fault_max 0 ∨ s.getN F.colStrStat_state st = 2 then s
  else
    (((s.putN F.colStrStat_state st 2).setF F.colStatus_stall_ev 0).logEntry 0x01 0x8002
      (st + (cw.toNat % 2 ^ 36) * 2 ^ 12)).signalOwner (s.strOwner st)

/-- The item of an activation that faulted returns to its stream; an event item is closed. -/
def State.returnItem (s : State) (id core cause : Nat) : State :=
  match s.item? id with
  | none => s
  | some x =>
    let st := x.stream
    let s := if x.event then s.dropItem id
      else s.updItem id fun y => { y.setRedo with pos := .queued, inFlight := true, faultCore := some core }
    let s := if cause = 0x0A then s else s.countFault st x.cw
    s.settle.refreshStream st

/-- What the Collator does on a reported task fault once it has every message of the activation: the item returns, the locks
are released except those of a FROZEN level, and the activation is closed. -/
def State.closeFaulted (s : State) (c v cause : Nat) : State :=
  let a := 8 * c + v
  let s := s.withdraw a
  let s := if cause = 8 then s else s.releaseAll a
  match s.act c v with
  | none => s
  | some act =>
    let s := s.setAct c v none
    match act.item with
    | some id => s.returnItem id c cause
    | none => s

/-- The report of a task fault reaches the Collator behind a `done` or `defer` that the level posted before it: the activation
closes once that message has been served. -/
def State.reportFault (s : State) (c v cause : Nat) : State :=
  match s.act c v with
  | some a =>
    if a.item.isSome && !(s.level c v).hasItem then s.setAct c v (some { a with closing := some cause })
    else s.closeFaulted c v cause
  | none => s.closeFaulted c v cause

/-- An activation whose fault waited for the message just served is closed. -/
def State.closeReported (s : State) (c v : Nat) : State :=
  match s.act c v with
  | some a => match a.closing with
    | some cause => s.closeFaulted c v cause
    | none => s
  | none => s

/-- AWL_FAULT holds the first fault; COUNT counts them all. -/
def State.recordTaskFault (s : State) (c v cause pc addr : Nat) : State :=
  let s := s.addF F.awlFault_count c 1
  if s.bitF F.awlFault_valid c then s
  else
    (((((s.setF F.awlFault_valid c).putF F.awlFault_double c (BitVec.ofBool (cause == 8))).putN F.awlFault_level c
      v).putN F.awlFault_cause c cause).putN F.awlFault_pc c pc).putN F.awlFault_addr c addr

/-- A task fault of a level (R213, R228). -/
def State.taskFault (s : State) (c v cause pc addr : Nat) : State :=
  let s := (s.recordTaskFault c v cause pc addr).logEntry (0x10 + c) (if cause = 8 then 0xA002 else 0x8004)
    (c + v * 2 ^ 6 + cause * 2 ^ 9 + (pc % 2 ^ 15) * 2 ^ 17)
  let ran := (s.core c).running == some v
  let s := s.voidRequests (coreStation c) fun o => o.client == corePos c && o.kind == 6 && o.tag / 16 == v
  let s := s.setLevelState c v (if cause = 8 then .frozen else .idle)
  let s := if ran then s.updCore c fun x => { x with rep := none } else s
  s.reportFault c v cause

/-! ### The Collator instructions (R226, R254, R255, R298); an answer is the words of CRSP -/

/-- CRSP: the value for RD, Z, and a descriptor. -/
def answer (rd : Nat) (z : Bool) : List Word := [BitVec.ofNat 40 rd, bool40 z]

/-- The wait acknowledgement of R263 (log entry 17). -/
def waitAck : List Word := [0, 2]

/-- `take` (R254). -/
def State.colTake (s : State) (c v : Nat) : List Word × State :=
  match s.act c v with
  | none => (answer 0 true, s)
  | some a =>
    if a.item.isSome || !s.coreOpen c a.cores then (answer 0 true, s)
    else
      let fits (x : Item) : Bool := s.itemLevel x == v && s.getN F.colStrCfg_task x.stream == a.task && s.permitted x
      let items := (s.col.ready.filterMap s.item?).filter fits
      match (items.find? fun x => x.stream == a.stream).or items.head? with
      | none => (answer 0 true, s)
      | some x =>
        let d := s.dispatchDesc x
        (answer 0 false ++ descWords d, (s.takeOff x c v).setAct c v
          (some { a with item := some x.id, stream := x.stream, gives := 0, owner := s.strOwner x.stream }))

/-- The child links of an entry with that of the k-th `give` set: it stands at place k − 1, and a place whose `give` was
refused holds catchword 0, which is never assigned (log entry 117). -/
def putChild (kids : List (Nat × Word)) (k : Nat) (link : Nat × Word) : List (Nat × Word) :=
  (kids ++ List.replicate (k - kids.length) (0, 0)).set (k - 1) link

/-- `give` (R226, R298). -/
def State.colGive (s : State) (c v imm : Nat) (d : BitVec 256) : List Word × State :=
  match s.act c v with
  | none => (answer 2 true, s)
  | some a =>
    let k := a.gives + 1
    let s := s.setAct c v (some { a with gives := k })
    let item := a.item.bind s.item?
    let old := (item.bind fun x => if D.redo x.desc then x.children[k - 1]? else none).getD (0, 0)
    if old.2 ≠ 0 ∧ old.1 = D.stream d then (answer old.2.toNat false, s)
    else
      let (r, s) := s.submit (768 + 2 * c + imm % 2) (some a.owner) none d
      if r.code ≠ 0 then (answer r.code true, s)
      else
        let s := match item with
          | some x => if !x.event && decide (k ≤ 4) then
              s.updItem x.id fun y => { y with children := putChild y.children k (D.stream d, r.cw) } else s
          | none => s
        (answer r.cw.toNat false, s)

/-- An activation ends: its locks are released (R264). -/
def State.endActivation (s : State) (c v : Nat) : State := (s.releaseAll (8 * c + v)).setAct c v none

/-- `done` (R226, R255). -/
def State.colDone (s : State) (c v : Nat) (result : BitVec 16) (ends : Bool) : State :=
  match s.act c v with
  | none => s
  | some a =>
    match a.item with
    | none => s
    | some id =>
      let s := (s.setAct c v (some { a with item := none })).complete id result
      (if ends then (s.endActivation c v).settle else s).closeReported c v

/-- `defer` (R255). -/
def State.colDefer (s : State) (c v ticks : Nat) (ends : Bool) : State :=
  match s.act c v with
  | none => s
  | some a =>
    match a.item with
    | none => s
    | some id =>
      let s := (s.setAct c v (some { a with item := none })).deferItem id a.dlist ticks
      (if ends then s.endActivation c v else s).closeReported c v

/-- `lock` (R261 to R263): the requester's owner is that of its current item's stream. -/
def State.colLock (s : State) (c v imm : Nat) : List Word × State :=
  let owner := (s.act c v).bind fun a => a.item.map fun _ => a.owner
  match s.requestLock (8 * c + v) (imm % 256) owner with
  | (some rd, s) => (answer rd (rd == 0), s)
  | (none, s) => (waitAck, s)

/-- `unlock`: the holder's release. -/
def State.colUnlock (s : State) (c v imm : Nat) : State :=
  if s.lockHolder (imm % 256) = some (8 * c + v) then s.releaseLock (imm % 256) else s

/-- A CMSG of level `v` of core `c` (R314): the answer, and what it does. -/
def State.collatorMessage (s : State) (c v : Nat) (q : Request) : List Word × State :=
  let w0 := q.word 0
  let op := (w0.extractLsb' 0 3).toNat
  let ends := w0.getLsbD 3
  let x := q.word 1
  match op with
  | 0 => s.colTake c v
  | 1 => s.colGive c v x.toNat (wordsDesc (q.ws.drop 2))
  | 2 => (answer 0 false, s.colDone c v (x.extractLsb' 0 16) ends)
  | 3 => (answer 0 false, s.colDefer c v (x.extractLsb' 0 22).toNat ends)
  | 4 => s.colLock c v x.toNat
  | 5 => (answer 0 false, s.colUnlock c v x.toNat)
  | _ => (waitAck, s)

/-! ### The restore of R238, R242, R297 -/

/-- An entry as the rebuild finds it: in flight, it returns to the head of its stream's order with REDO = 1. -/
def Item.rebuilt (x : Item) : Item :=
  match x.pos with
  | .flight _ _ | .early => { x.setRedo with pos := .queued, inFlight := true }
  | _ => x

/-- The items rebuilt from the ledger; event items, activations and the state of the locks are gone. -/
def State.rebuildItems (s : State) : State :=
  let s := (s.col.items.filter Item.event).foldl (fun (s : State) x => s.clrF F.colEv_pend (D.src x.desc)) s
  let s := { s with col := { s.col with
    items := (s.col.items.filter fun x => !x.event).map Item.rebuilt, ready := [], acts := {}, missed := [] } }
  (List.range 256).foldl (fun (s : State) l => (s.setWaiters l []).setHolder l none) s

/-- The delay lists with the entries of their items, and every enabled timer inserted anew. -/
def State.rebuildDelays (s : State) : State :=
  let keep (e : DelayEntry) : Bool := match e.what with
    | .item id => (s.item? id).isSome
    | .timer _ => false
  let s := (List.range 4).foldl (fun (s : State) l => s.updDelay l fun d =>
    { d with calendar := d.calendar.filter keep, tail := d.tail.filter keep }) s
  (List.range 64).foldl (fun (s : State) t =>
    if s.bitF F.colTim_en t then s.insertTimer t (s.tickNow (s.getN F.colTim_list t) + s.getN F.colTim_interval t)
    else s) s

/-- The event sources of folio queues whose condition holds, each once. -/
def State.dueSources (s : State) : List Nat :=
  ((s.listed .gthQdesc).filterMap fun i =>
    let src := s.getN F.gthQdesc_evsrc i
    if s.queueCondition (i / 4) (i % 4) && decide (src < 512) then some src else none).eraseDups

/-- Every folio-queue source whose condition holds, raised once (R242). -/
def State.raiseQueues (s : State) : State := s.dueSources.foldl (fun (s : State) src => s.raise (64 + src)) s

/-- An entry in STATE 4 whose record no queue holds any more completes its retirement, with the record it had (R297). -/
def State.finishRetired (s : State) : State :=
  (s.col.items.filter fun x => x.pos == .retired).foldl (fun (s : State) x =>
    match x.srcq with
    | none => s.freeEntry x.id
    | some m =>
      if (s.hq m).rqWait.any (fun r => r.item == some x.id) then s
      else s.sendRq m { cw := x.cw, stream := x.stream, kind := x.retireKind, result := x.result, item := some x.id }) s

/-- What the enabled streams report, with or without items. -/
def State.refreshStreams (s : State) : State :=
  ((s.listed .colStrCfg).filter fun st => s.bitF F.colStrCfg_en st).foldl State.refreshStream s

/-- The Collator's tables restored from the mirror: from here on it dispatches. -/
def State.restoreCollator (s : State) : State :=
  let s := s.rebuildItems.rebuildDelays.raiseQueues.finishRetired.settle.refreshStreams
  { s with col := { s.col with live := true } }

end Sys2Proof.Machine
end

