-- ==== Sys2Proof/Machine/CellBase.lean ====
section
/-!
DEFINITION. How a cell executes a leaf: decoding (R61, R76, R77), predicate (R66, R67), the writes of a result (R62,
R64), the design check (R65), the carry chain (R70, R71) and the switch box (R114 to R119). Each cell opcode's own
part is in CellAlu.lean and CellFolio.lean.
-/
namespace Sys2Proof.Machine

/-- The cell opcodes of R76. -/
inductive CellOp where
  | nop | hold | mov | add | sub | cmp | ltu | lts | eq | lut3 | and | or | xor | andn
  | shl | shr | sar | rol | ext | exts | ins | fsh | sel | bsel | maxu | minu | maxs | mins
  | rdor | rdand | rdxor | lzc | popc | tzc | fld | fst | fpush | fpop | fpeek | pput | pget
  | qempty | qfull | qhigh | qlow | qcount | hin | pin | hstat
  deriving DecidableEq, Repr

/-- The opcode map (R76). -/
def cellOpOf (op : Nat) : Option CellOp :=
  match op with
  | 0x00 => some .nop | 0x01 => some .hold | 0x02 => some .mov
  | 0x08 => some .add | 0x09 => some .sub | 0x0A => some .cmp
  | 0x0B => some .ltu | 0x0C => some .lts | 0x0D => some .eq
  | 0x10 => some .lut3 | 0x11 => some .and | 0x12 => some .or | 0x13 => some .xor | 0x14 => some .andn
  | 0x18 => some .shl | 0x19 => some .shr | 0x1A => some .sar | 0x1B => some .rol
  | 0x1C => some .ext | 0x1D => some .exts | 0x1E => some .ins | 0x1F => some .fsh
  | 0x20 => some .sel | 0x21 => some .bsel | 0x22 => some .maxu | 0x23 => some .minu
  | 0x24 => some .maxs | 0x25 => some .mins
  | 0x28 => some .rdor | 0x29 => some .rdand | 0x2A => some .rdxor
  | 0x2B => some .lzc | 0x2C => some .popc | 0x2D => some .tzc
  | 0x30 => some .fld | 0x31 => some .fst | 0x32 => some .fpush | 0x33 => some .fpop | 0x34 => some .fpeek
  | 0x38 => some .pput | 0x39 => some .pget
  | 0x40 => some .qempty | 0x41 => some .qfull | 0x42 => some .qhigh | 0x43 => some .qlow | 0x44 => some .qcount
  | 0x48 => some .hin | 0x49 => some .pin | 0x4A => some .hstat
  | _ => none

def CellOp.isShift : CellOp → Bool
  | .shl | .shr | .sar | .rol | .ext | .exts | .ins | .fsh => true
  | _ => false

/-- Produces a result for DST (R78). -/
def CellOp.hasResult : CellOp → Bool
  | .nop | .hold | .cmp | .fst | .fpush | .pput => false
  | _ => true

namespace Imm
/-! Control fields of IMM (R88, R92). -/
def amt (i : Word) : Nat := (i.extractLsb' 0 6).toNat
def dyn (i : Word) : Bool := i.getLsbD 6
def wid (i : Word) : Nat := (i.extractLsb' 7 6).toNat
def tgt (i : Word) : Nat := (i.extractLsb' 0 3).toNat
def portB (i : Word) : Bool := i.getLsbD 3
def ofs (i : Word) : Nat := (i.extractLsb' 4 11).toNat
def areg (i : Word) : Bool := i.getLsbD 15
def que (i : Word) : Nat := (i.extractLsb' 16 2).toNat
end Imm

/-- Sources the opcode reads (R76), A, B and C; C also for predicates 1 and 2 (R63). -/
def usesA (op : CellOp) (imm : Word) : Bool :=
  match op with
  | .nop | .hold | .fpush | .fpop | .fpeek | .pget | .qempty | .qfull | .qhigh | .qlow | .qcount
  | .hin | .pin | .hstat => false
  | .fld | .fst => Imm.areg imm
  | _ => true

def usesB (op : CellOp) : Bool :=
  match op with
  | .add | .sub | .cmp | .ltu | .lts | .eq | .lut3 | .and | .or | .xor | .andn | .ins | .fsh
  | .sel | .bsel | .maxu | .minu | .maxs | .mins | .fst | .fpush | .pput => true
  | _ => false

def usesC (op : CellOp) (imm : Word) (pred : Nat) : Bool :=
  (match op with
   | .lut3 | .sel | .bsel => true
   | _ => op.isShift && Imm.dyn imm) || (op != .nop && (pred == 1 || pred == 2))

/-- The IMM bits that the opcode's layout marks reserved (R77, R86, R88, R92, R99 to R104). -/
def reservedImm (op : CellOp) : Word :=
  match op with
  | .lut3 => 0xFF_FFFF_FF00
  | .ext | .exts | .ins => 0xFF_FFFF_E000
  | .shl | .shr | .sar | .rol | .fsh => 0xFF_FFFF_FF80
  | .fld | .fst => 0xFF_FFFF_0000
  | .fpush | .fpop | .fpeek => 0xFF_FFFC_FFF0
  | .qempty | .qfull | .qhigh | .qlow | .qcount => 0xFF_FFFC_FFF8
  | .pput => 0xFF_FFFF_FFFE
  | .pget | .pin => 0xFF_FFFF_FFF8
  | .hin | .hstat => 0xFF_FFFF_FFC0
  | _ => 0

/-- A reserved code in a control field that the opcode uses (R61, R77). -/
def reservedControl (op : CellOp) (imm : Word) : Bool :=
  match op with
  | .ext | .exts | .ins => Imm.wid imm == 0 || decide (40 < Imm.wid imm)
  | .fld | .fst | .fpush | .fpop | .fpeek | .qempty | .qfull | .qhigh | .qlow | .qcount => decide (4 < Imm.tgt imm)
  | _ => false

def reservedDst (dst : BitVec 6) : Bool := decide (0x34 ≤ dst.toNat)
def reservedSrc (c : Nat) : Bool := decide (0x31 ≤ c)

/-- The opcode that a leaf executes as (R61, R77). A source code 0x2E frees the reserved IMM bits where the opcode uses that
source (log entry 111). -/
def effectiveOp (l : BitVec 208) : CellOp :=
  match cellOpOf (Leaf.op l) with
  | none => .nop
  | some op =>
    let imm := Leaf.imm l
    let a := usesA op imm
    let b := usesB op
    let c := usesC op imm (Leaf.pred l)
    let immSource := (a && Leaf.srcA l == 0x2E) || (b && Leaf.srcB l == 0x2E) || (c && Leaf.srcC l == 0x2E)
    if (op.hasResult && reservedDst (Leaf.dst l)) || (a && reservedSrc (Leaf.srcA l)) ||
        (b && reservedSrc (Leaf.srcB l)) || (c && reservedSrc (Leaf.srcC l)) || reservedControl op imm ||
        (!immSource && (imm &&& reservedImm op) != 0) then .nop
    else op

/-- What an opcode's own part gives: the result, the flags its opcode defines, the carry-out, and the tested value of
the design check. -/
structure CellResult where
  value : Option RWord := none
  flags : Option FlagSet := none
  cout : Bool := false
  tested : Option Word := none
  deriving DecidableEq, Repr, Inhabited

/-- An opcode's own part: where it executes, its operands A, B and C, the state. -/
abbrev CellBody := CellAt → RWord → RWord → RWord → State → CellResult × State

/-- A design check of the quire in progress: the first, by leaf and then by cell, is kept (R65, R156). -/
def State.designCheck (s : State) (x : CellAt) : State :=
  if s.stage x.r = 1 then s
  else s.updGth x.g fun g =>
    let n : DesignCheck := ⟨x.k, x.key % 64⟩
    match g.checkW with
    | none => { g with checkW := some n }
    | some o => if n.leaf < o.leaf ∨ (n.leaf = o.leaf ∧ n.cell < o.cell) then { g with checkW := some n } else g

/-- PRED (R66): whether the leaf takes effect, with the check of the flag set it reads. -/
def State.predicate (s : State) (x : CellAt) (c : RWord) : Bool × State :=
  let f := (s.cell x.key).v.work.f
  let s' := s.chargeIf (!f.ok) x.r 0x05 x.g
  match Leaf.pred x.leaf with
  | 0 => (true, s)
  | 1 => (c.d.getLsbD 0, s)
  | 2 => (!c.d.getLsbD 0, s)
  | 3 => (f.c, s')
  | 4 => (f.z, s')
  | 5 => (!f.z, s')
  | 6 => (f.n, s')
  | _ => (!f.c, s')

/-- Whether the cell's state-word and flag writes take place: CW and an enabled cadence (R39, R64). -/
def State.cellWrites (s : State) (x : CellAt) : Bool :=
  Leaf.cw x.leaf && s.cadenceOn x.r (s.cellCadence x.key)

/-- The writes of a leaf that takes effect. -/
def State.writeBack (s : State) (x : CellAt) (o : CellResult) : State :=
  let sw := s.cellWrites x
  let s := match o.value with
    | some w => s.updCell x.key fun c => c.write (Leaf.dst x.leaf) sw w x.t
    | none => s
  let fl := sw && Leaf.flg x.leaf
  let s := match o.flags, fl with
    | some f, true => s.updCell x.key fun c => { c with v := { c.v with work := { c.v.work with f } } }
    | _, _ => s
  let wroteState := (o.value.isSome && sw && decide ((Leaf.dst x.leaf).toNat % 32 < 16) &&
      decide ((Leaf.dst x.leaf).toNat < 0x30)) || (o.flags.isSome && fl)
  let s := if wroteState then s.updGth x.g fun g => { g with wroteSW := true } else s
  let s := match o.tested with
    | some d => if Leaf.dck x.leaf && d != 0 then s.designCheck x else s
    | none => s
  let s := s.updCell x.key fun c => { c with carry := ⟨o.cout, !o.cout⟩, carryAt := x.t }
  if Leaf.kex x.leaf && x.key % 8 == 7 then
    s.updGth x.g fun g =>
      { g with kettle := g.kettle.upd (x.key % 64 / 8) fun l => l.write x.t ⟨o.cout, !o.cout⟩ }
  else s

/-- One drive entry of the box (R115, R116, R118): `c0` is the cell as it stood at the start of the leaf, `outA` and
`outB` what its outputs present in the leaf. -/
def State.driveEntry (s : State) (x : CellAt) (c0 : Cell) (j : Nat) : State :=
  let e := Leaf.drive x.leaf j
  let seg := driveSeg e
  if seg = 63 then s
  else if 48 ≤ seg ∨ (List.range j).any (fun i => driveSeg (Leaf.drive x.leaf i) == seg) ∨ s.segEnd x.key seg = none then
    s.charge x.r 0x02 x.g
  else
    match candTerm seg (driveCand e), driveReg e with
    | some m, true =>
      let (w, s) := s.regWord x.key m x.t
      State.driveWord x.r x.k x.t 8 s x.key seg [{}] w
    | some m, false =>
      if ((s.cell x.key).seg.at seg).at_ = x.t then s
      else
        match s.liveWord x.r x.k x.t 8 x.key m with
        | (.word w, s) => State.driveWord x.r x.k x.t 8 s x.key seg (s.livePaths x.k x.t 8 x.key m) w
        | (.later, s) => s
        | (.loop, s) =>
          let (w, s) := s.drawWord
          State.driveWord x.r x.k x.t 8 s x.key seg [{ ops := 2 }] w
    | none, true =>
      let w := c0.v.work.s.at (driveCand e - 12)
      State.driveWord x.r x.k x.t 8 (s.chargeIf (!w.ok) x.r 0x05 x.g) x.key seg [{}] w
    | none, false =>
      let o := if driveCand e = 13 then (s.cell x.key).outB else (s.cell x.key).outA
      let (w, s) := s.defined x.t o.w o.at_
      State.driveWord x.r x.k x.t 8 s x.key seg (if o.at_ = x.t then (s.cell x.key).paths else [{}]) w

/-- The switch box in a leaf (R114 to R119). -/
def State.switchBox (s : State) (x : CellAt) (c0 : Cell) : State :=
  let s := s.chargeIf (Leaf.swTop x.leaf != 0) x.r 0x02 x.g
  (List.range 6).foldl (fun s j => s.driveEntry x c0 j) s

/-- The opcode the cell executes in the leaf: `nop` after a `hold` of the same quire (R106). -/
def State.opAt (s : State) (x : CellAt) : CellOp :=
  if (s.cell x.key).heldIn = x.t / 64 then .nop else effectiveOp x.leaf

/-- The opcode takes the chain carry in this leaf (R64, R70, R83). -/
def takesChain (op : CellOp) (l : BitVec 208) : Bool := (op == .add || op == .sub || op == .cmp) && Leaf.cin l == 2

def CellOp.isArith : CellOp → Bool
  | .add | .sub | .cmp | .ltu | .lts | .eq => true
  | _ => false

def CellOp.isQueue : CellOp → Bool
  | .fpush | .fpop | .fpeek => true
  | _ => false

/-- The cell to the west has formed the chain carry that the leaf takes: it has executed the leaf, or its opcode forms none
(R70). -/
def State.chainFirst (s : State) (x : CellAt) : Bool :=
  let w : CellAt := { x with key := x.key - 1, leaf := (s.cell (x.key - 1)).leaf.at x.k }
  !(takesChain (s.opAt x) x.leaf && decide (x.key % 8 ≠ 0)) || decide (x.t ≤ (s.cell w.key).last) || !(s.opAt w).isArith

/-- Port A's request to a queue comes before port B's to the same queue in the same leaf (R94): the cell that port A of the
target names has executed the leaf, or requests nothing of that queue there. -/
def State.portFirst (s : State) (x : CellAt) : Bool :=
  let i := Leaf.imm x.leaf
  if (s.opAt x).isQueue && Imm.portB i then
    match gthSide x.g (Imm.tgt i) with
    | none => true
    | some h =>
      let acc := (s.gth h).access.at x.k
      match acc.getLsbD 63, gthSide h (acc.extractLsb' 60 3).toNat with
      | true, some g =>
        let key := 64 * g + (acc.extractLsb' 54 6).toNat
        let y : CellAt := { x with key, leaf := (s.cell key).leaf.at x.k }
        let j := Leaf.imm y.leaf
        decide (x.t ≤ (s.cell key).last) || !(s.sameRegion x.g g) || !(s.opAt y).isQueue || Imm.portB j ||
          gthSide g (Imm.tgt j) != some h || Imm.que j != Imm.que i
      | _, _ => true
  else true

/-- Where the command for leaf `k` of a cell runs: the region executes leaves, the leaf is one of the quire's, the cell has
not executed it yet, and what the same leaf decides first has been decided (log entry 2). -/
def State.cellReady (s : State) (key k : Nat) : Option CellAt :=
  match s.regionOf (key / 64) with
  | none => none
  | some r =>
    let t := s.stamp r k
    let x : CellAt := { key, r, k, t, leaf := (s.cell key).leaf.at k }
    if s.executes r && decide (k < s.len r) && decide ((s.cell key).last < t) && s.chainFirst x && s.portFirst x then some x
    else none

/-- The sources of the leaf, read and checked whether or not the predicate holds (R63, R67). -/
def State.operands (s : State) (x : CellAt) (op : CellOp) : RWord × RWord × RWord × State :=
  let imm := Leaf.imm x.leaf
  let (a, s) := if usesA op imm then s.source x (Leaf.srcA x.leaf) else ({}, s)
  let (b, s) := if usesB op then s.source x (Leaf.srcB x.leaf) else ({}, s)
  let (c, s) := if usesC op imm (Leaf.pred x.leaf) then s.source x (Leaf.srcC x.leaf) else ({}, s)
  (a, b, c, s)

/-- The paths that end in the operation of the leaf (R124); those into the cells further west of a chain, which is one
operation, among them (R70). -/
def State.opPaths (s : State) (x : CellAt) (op : CellOp) : List Path :=
  let imm := Leaf.imm x.leaf
  let of (used : Bool) (code : Nat) : List Path := if used then s.sourcePaths x code else []
  let w := s.cell (x.key - 1)
  let chain := if takesChain op x.leaf && decide (x.key % 8 ≠ 0) && decide (w.carryAt = x.t) then w.paths else []
  (({} : Path).operate :: (of (usesA op imm) (Leaf.srcA x.leaf) ++ of (usesB op) (Leaf.srcB x.leaf) ++
    of (usesC op imm (Leaf.pred x.leaf)) (Leaf.srcC x.leaf) ++ chain)).eraseDups

/-- A cell executes a leaf whose opcode is `op`, with that opcode's own part. A leaf that is another opcode, or that
the cell cannot execute now, is no event of this command: nothing changes. -/
def State.runCell (s : State) (op : CellOp) (body : CellBody) (key k : Nat) : State :=
  match s.cellReady key k with
  | none => s
  | some x =>
    let s := s.updCell key fun c => c.settle x.t
    if s.opAt x ≠ op then s
    else
      let c0 := s.cell key
      let ps := s.opPaths x op
      let (a, b, c, s) := s.operands x op
      let (p, s) := if op = .nop then (true, s) else s.predicate x c
      let s :=
        if op = .nop then s.updCell key fun c => { c with carry := {}, carryAt := x.t }
        else if p then let (o, s) := body x a b c s; s.writeBack x o
        else s.updCell key fun c => { c with carry := {}, carryAt := x.t }
      let s := (s.updCell key fun c => { c with paths := ps }).switchBox x c0
      s.updCell key fun c => { c with last := x.t }

end Sys2Proof.Machine
end

