-- ==== Sys2Proof/Machine/Press.lean ====
section
/-!
DEFINITION. Press blocks (R143 to R150): products, the accumulate stage, extraction, and the six press commands.
-/
namespace Sys2Proof.Machine

/-! ### Products (R146), shared with the press unit of a core (R216) -/

/-- The number that the low `w` bits of `n` stand for. -/
def halfInt (signed : Bool) (w n : Nat) : Int :=
  let m := n % 2 ^ w
  if signed && decide (2 ^ (w - 1) ≤ m) then (m : Int) - 2 ^ w else m

/-- Pattern of a number in `w` bits. -/
def patt (w : Nat) (v : Int) : BitVec w := BitVec.ofInt w v

def lo20 (d : Word) : Nat := d.toNat % 2 ^ 20
def hi20 (d : Word) : Nat := d.toNat / 2 ^ 20

/-- The two lanes of a CPX product: real and imaginary. -/
def cpxProduct (sx sy : Bool) (x y : Word) : Int × Int :=
  let xr := halfInt sx 20 (lo20 x)
  let xi := halfInt sx 20 (hi20 x)
  let yr := halfInt sy 20 (lo20 y)
  let yi := halfInt sy 20 (hi20 y)
  (xr * yr - xi * yi, xr * yi + xi * yr)

def m40Product (sx sy : Bool) (x y : Word) : Int := halfInt sx 40 x.toNat * halfInt sy 40 y.toNat

def m4Half (sx sy : Bool) (x y : Word) : Int :=
  halfInt sx 20 (lo20 x) * halfInt sy 20 (lo20 y) + halfInt sx 20 (hi20 x) * halfInt sy 20 (hi20 y)

def m2Half (sx sy : Bool) (x y : Word) : Int := halfInt sx 40 x.toNat * halfInt sy 20 (lo20 y)

/-! ### Press leaves (R144, R145) -/

namespace PLeaf
def pop (l : BitVec 64) : Nat := (l.extractLsb' 60 4).toNat
def mode (l : BitVec 64) : Nat := (l.extractLsb' 58 2).toNat
def sx (l : BitVec 64) : Bool := l.getLsbD 57
def sy (l : BitVec 64) : Bool := l.getLsbD 56
def shift (l : BitVec 64) : Nat := (l.extractLsb' 50 6).toNat
def lane (l : BitVec 64) : Bool := l.getLsbD 49
def rd (l : BitVec 64) : Nat := (l.extractLsb' 47 2).toNat
end PLeaf

/-- The operation a press leaf executes (R145). -/
def effectivePop (l : BitVec 64) : Nat :=
  let p := PLeaf.pop l
  if 5 < p ∨ l.extractLsb' 0 40 ≠ 0 ∨ (p = 4 ∧ 48 < PLeaf.shift l) then 0 else p

/-- A word of the accumulator with generated lane residues. -/
def mkAcc (v : BitVec 88) : Acc :=
  { v, rl := resCode (v.extractLsb' 0 44).toNat, rh := resCode (v.extractLsb' 44 44).toNat }

def Acc.ok (a : Acc) : Bool :=
  a.rl == resCode (a.v.extractLsb' 0 44).toNat && a.rh == resCode (a.v.extractLsb' 44 44).toNat

/-- Lane-wise or whole sum of 88-bit values (R146). -/
def accAdd (cpx : Bool) (a p : BitVec 88) : BitVec 88 :=
  if cpx then (a.extractLsb' 44 44 + p.extractLsb' 44 44) ++ (a.extractLsb' 0 44 + p.extractLsb' 0 44) else a + p

def accSub (cpx : Bool) (a p : BitVec 88) : BitVec 88 :=
  if cpx then (a.extractLsb' 44 44 - p.extractLsb' 44 44) ++ (a.extractLsb' 0 44 - p.extractLsb' 0 44) else a - p

/-- The accumulate stage of an operation: 1 set, 2 add, 3 subtract, 5 clear. -/
def accStep (pop : Nat) (cpx : Bool) (a p : BitVec 88) : BitVec 88 :=
  match pop with
  | 1 => p
  | 2 => accAdd cpx a p
  | 3 => accSub cpx a p
  | _ => 0

def lanes88 (re im : Int) : BitVec 88 := patt 44 im ++ patt 44 re

/-- The product of a press leaf, as its 88-bit pattern (R146). -/
def pressProduct (l : BitVec 64) (x y xd yd : Word) : BitVec 88 :=
  let sx := PLeaf.sx l
  let sy := PLeaf.sy l
  match PLeaf.mode l with
  | 0 => patt 88 (m40Product sx sy x y)
  | 1 => patt 88 (m2Half sx sy x y + m2Half sx sy xd yd)
  | 2 => patt 88 (m4Half sx sy x y + m4Half sx sy xd yd)
  | _ => let (re, im) := cpxProduct sx sy x y; lanes88 re im

/-- What `pext` extracts (R148): from the whole accumulator, or from a lane extended to 88 bits. -/
def extractInt (cpx lane signed : Bool) (a : BitVec 88) (s : Nat) : Int :=
  let v : BitVec 88 :=
    if cpx then
      let x := if lane then a.extractLsb' 44 44 else a.extractLsb' 0 44
      if signed then x.signExtend 88 else x.setWidth 88
    else a
  roundShift (if signed then v.toInt else (v.toNat : Int)) s

/-! ### The block -/

/-- The accumulate stages due before leaf stamp `t`, in order (R147); whether a carried residue failed (R149). -/
def Press.settle (p : Press) (t : Nat) : Press × Bool :=
  let due := p.stages.filter fun st => st.at_ + 2 ≤ t
  let (acc, bad) := due.foldl (fun (x : Acc × Bool) st =>
    (if st.enabled then mkAcc (accStep st.pop st.cpx x.1.v st.p) else x.1, x.2 || !x.1.ok)) (p.acc.work, false)
  ({ p with acc := { p.acc with work := acc }, stages := p.stages.filter fun st => t < st.at_ + 2 }, bad)

/-- The accumulate stages of a gathering's blocks completed, as before leaf stamp `t`. -/
def State.settlePress (s : State) (r g t : Nat) : State :=
  (List.range 2).foldl (fun s p =>
    let (pr, bad) := ((s.gth g).press.at p).settle t
    let s := s.updGth g fun x => { x with press := x.press.put p pr }
    s.chargeIf bad r 0x03 g) s

/-- Where the command for leaf `k` of a press block runs. -/
def State.pressReady (s : State) (g p k : Nat) : Option (Nat × Nat) :=
  match s.regionOf g with
  | none => none
  | some r =>
    let t := s.stamp r k
    if s.executes r && decide (k < s.len r) && decide (((s.gth g).press.at p).last < t) then some (r, t) else none

def State.updPress (s : State) (g p : Nat) (f : Press → Press) : State :=
  s.updGth g fun x => { x with press := x.press.upd p f }

/-- An operand as it stood at the start of the leaf, free where no `pput` of the quire wrote it. -/
def State.pressOperand (s : State) (r g t : Nat) (w : Stamped) : Word × State :=
  let (v, s) := s.defined t w.w w.at_
  (v.d, s.chargeIf (!v.ok) r 0x03 g)

/-- The multiply of a leaf and its accumulate stage, queued for the next leaf (R146, R147). -/
def multiply (pop g p r t : Nat) (l : BitVec 64) (s : State) : State :=
  let o := (((s.gth g).press.at p).ops.read t).1
  let (x, s) := s.pressOperand r g t o.x
  let (y, s) := s.pressOperand r g t o.y
  let dual := PLeaf.mode l = 1 ∨ PLeaf.mode l = 2
  let (xd, s) := if dual then s.pressOperand r g t o.xd else (0, s)
  let (yd, s) := if dual then s.pressOperand r g t o.yd else (0, s)
  let pv := pressProduct l x y xd yd
  let on := s.cadenceOn r ((s.gth g).unitCadence p)
  let s := if on then s.updGth g fun x => { x with wroteSW := true } else s
  s.updPress g p fun pr =>
    { pr with stages := pr.stages ++ [AccStage.mk t pop (PLeaf.mode l == 3) pv on] }

/-- A press leaf whose operation is `pop` executes, with that operation's own part; any other leaf, or one that the
block cannot execute now, is no event of this command. -/
def State.runPress (s : State) (pop : Nat) (body : Nat → Nat → Nat → Nat → BitVec 64 → State → State)
    (g p k : Nat) : State :=
  match s.pressReady g p k with
  | none => s
  | some (r, t) =>
    let l := ((s.gth g).press.at p).leaf.at k
    if effectivePop l ≠ pop then s
    else
      let (pr, bad) := ((s.gth g).press.at p).settle t
      let s := s.updPress g p fun _ => { pr with last := t }
      body g p r t l (s.chargeIf bad r 0x03 g)

def bodyPnop (_ _ _ _ : Nat) (_ : BitVec 64) (s : State) : State := s
def bodyPmul (g p r t : Nat) (l : BitVec 64) (s : State) : State := multiply 1 g p r t l s
def bodyPmac (g p r t : Nat) (l : BitVec 64) (s : State) : State := multiply 2 g p r t l s
def bodyPmsu (g p r t : Nat) (l : BitVec 64) (s : State) : State := multiply 3 g p r t l s

/-- The result word, of ACC as it stands at the start of the leaf; also in a disabled cadence (R147 to R149). -/
def bodyPext (g p r t : Nat) (l : BitVec 64) (s : State) : State :=
  let a := ((s.gth g).press.at p).acc.work
  let cpx := PLeaf.mode l == 3
  let okL := a.rl == resCode (a.v.extractLsb' 0 44).toNat
  let okH := a.rh == resCode (a.v.extractLsb' 44 44).toNat
  let good := if cpx then (if PLeaf.lane l then okH else okL) else okL && okH
  let d : Word := patt 40 (extractInt cpx (PLeaf.lane l) (PLeaf.sx l || PLeaf.sy l) a.v (PLeaf.shift l))
  let w : RWord := if good then gen d else ⟨d, badRes⟩
  (s.chargeIf (!good) r 0x03 g).updPress g p fun pr => { pr with rw := pr.rw.upd (PLeaf.rd l) fun x => x.write t w }

/-- ACC to 0, in the accumulate stage of the next leaf (R147). -/
def bodyPclr (g p r t : Nat) (_ : BitVec 64) (s : State) : State :=
  let on := s.cadenceOn r ((s.gth g).unitCadence p)
  let s := if on then s.updGth g fun x => { x with wroteSW := true } else s
  s.updPress g p fun pr =>
    { pr with stages := pr.stages ++ [AccStage.mk t 5 false 0 on] }

/-! ### The commands -/

def execPnop (g : GthAddr) (p : Fin 2) (k : LeafNo) (s : State) : Result :=
  .next (s.runPress 0 bodyPnop (gthAddrNo g) p k)
def execPmul (g : GthAddr) (p : Fin 2) (k : LeafNo) (s : State) : Result :=
  .next (s.runPress 1 bodyPmul (gthAddrNo g) p k)
def execPmac (g : GthAddr) (p : Fin 2) (k : LeafNo) (s : State) : Result :=
  .next (s.runPress 2 bodyPmac (gthAddrNo g) p k)
def execPmsu (g : GthAddr) (p : Fin 2) (k : LeafNo) (s : State) : Result :=
  .next (s.runPress 3 bodyPmsu (gthAddrNo g) p k)
def execPext (g : GthAddr) (p : Fin 2) (k : LeafNo) (s : State) : Result :=
  .next (s.runPress 4 bodyPext (gthAddrNo g) p k)
def execPclr (g : GthAddr) (p : Fin 2) (k : LeafNo) (s : State) : Result :=
  .next (s.runPress 5 bodyPclr (gthAddrNo g) p k)

end Sys2Proof.Machine
end

