-- ==== Sys2Proof/Machine/AwlOps.lean ====
section
/-!
DEFINITION. What the instructions of an Awl core share (R200 to R232): decoding, reading and writing a bank, DMEM and
pointers, the press unit, the ring transfers, and one instruction's execution.
-/
namespace Sys2Proof.Machine

/-! ### Decoding (R229 to R232) -/

/-- The instructions of R230 and R231. -/
inductive AwlOp where
  | nop | add | sub | adc | sbc | cmp | and | or | xor | andn | shl | shr | sar | rol | mins | maxs | abs | neg | mov | rsb
  | bsc | lzc | popc | addi | andi | ori | xori | shli | shri | sari | cmpi | movi | movhi | ld | st | ldx | stx | stm | ldm
  | b | call | ret | jr | rep | mul | mac | msu | ext | aclr | macp | msup | xget | xput | xwait | xstat | take | give | done
  | defer | lock | unlock | yield | srd | swr | bget | bput | bexp | bfix | priv
  deriving DecidableEq, Repr

namespace AI
/-! The fields of R229. -/
def op (w : Word) : Nat := (w.extractLsb' 34 6).toNat
def rd (w : Word) : Nat := (w.extractLsb' 29 5).toNat
def ra (w : Word) : Nat := (w.extractLsb' 24 5).toNat
def rb (w : Word) : Nat := (w.extractLsb' 19 5).toNat
def sR (w : Word) : Bool := w.getLsbD 18
def fn (w : Word) : Nat := (w.extractLsb' 12 6).toNat
def sI (w : Word) : Bool := w.getLsbD 23
def imm23 (w : Word) : BitVec 23 := w.extractLsb' 0 23
def pk (w : Word) : Nat := (w.extractLsb' 26 3).toNat
def am (w : Word) : Nat := (w.extractLsb' 24 2).toNat
def ofs (w : Word) : Int := (w.extractLsb' 0 16).toInt
def pkM (w : Word) : Nat := (w.extractLsb' 32 2).toNat
def mask (w : Word) : BitVec 32 := w.extractLsb' 0 32
def cc (w : Word) : Nat := (w.extractLsb' 30 4).toNat
def tgt (w : Word) : Nat := (w.extractLsb' 0 15).toNat
def ad (w : Word) : Nat := (w.extractLsb' 32 2).toNat
def raX (w : Word) : Nat := (w.extractLsb' 27 5).toNat
def rbX (w : Word) : Nat := (w.extractLsb' 22 5).toNat
def modeX (w : Word) : Nat := (w.extractLsb' 20 2).toNat
def saX (w : Word) : Bool := w.getLsbD 19
def sbX (w : Word) : Bool := w.getLsbD 18
def sX (w : Word) : Bool := w.getLsbD 17
def shift (w : Word) : Nat := (w.extractLsb' 11 6).toNat
def rdX (w : Word) : Nat := (w.extractLsb' 6 5).toNat
def pa (w : Word) : Nat := (w.extractLsb' 29 3).toNat
def pb (w : Word) : Nat := (w.extractLsb' 26 3).toNat
def modeP (w : Word) : Nat := (w.extractLsb' 24 2).toNat
def saP (w : Word) : Bool := w.getLsbD 23
def sbP (w : Word) : Bool := w.getLsbD 22
def sP (w : Word) : Bool := w.getLsbD 21
def tag (w : Word) : Nat := (w.extractLsb' 30 4).toNat
def raT (w : Word) : Nat := (w.extractLsb' 25 5).toNat
def rbT (w : Word) : Nat := (w.extractLsb' 20 5).toNat
def lenT (w : Word) : Nat := (w.extractLsb' 14 6).toNat
def imm19 (w : Word) : Nat := (w.extractLsb' 0 19).toNat
end AI

/-- The function of an ALU-group instruction, and whether its S bit is valid (R231). -/
def aluOp (fn : Nat) : Option (AwlOp × Bool) :=
  [(.add, true), (.sub, true), (.adc, true), (.sbc, true), (.cmp, false), (.and, false), (.or, false), (.xor, false),
   (.andn, false), (.shl, true), (.shr, false), (.sar, false), (.rol, false), (.mins, false), (.maxs, false), (.abs, true),
   (.neg, true), (.mov, false), (.rsb, false), (.bsc, true), (.lzc, false), (.popc, false)][fn]?

/-- An operation where a condition on its fields holds; task fault 0x01 otherwise. -/
def legal (o : AwlOp) (ok : Bool) : Option AwlOp := if ok then some o else none

/-- I-format operations: S is reserved except for `addi` and `shli`. -/
def decodeI (w : Word) : Option AwlOp :=
  let noS := !AI.sI w
  let short (n : Nat) : Bool := (AI.imm23 w).toNat < 2 ^ n
  match AI.op w with
  | 0x02 => some .addi
  | 0x03 => legal .andi noS
  | 0x04 => legal .ori noS
  | 0x05 => legal .xori noS
  | 0x06 => legal .shli (short 6)
  | 0x07 => legal .shri (noS && short 6)
  | 0x08 => legal .sari (noS && short 6)
  | 0x09 => legal .cmpi noS
  | 0x0A => legal .movi noS
  | 0x0B => legal .movhi (noS && short 17)
  | 0x12 => legal .ldx noS
  | 0x13 => legal .stx noS
  | 0x1B => legal .jr noS
  | 0x1C => legal .rep (noS && short 10)
  | _ => none

/-- X- and XP-format operations: MODE 0b01 is reserved, and so is the S of `aclr`. -/
def decodeX (w : Word) : Option AwlOp :=
  let x := w.extractLsb' 0 6 == 0 && AI.modeX w != 1
  let p := w.extractLsb' 0 21 == 0 && AI.modeP w != 1
  match AI.op w with
  | 0x20 => legal .mul x
  | 0x21 => legal .mac x
  | 0x22 => legal .msu x
  | 0x23 => legal .ext (x && decide (AI.shift w ≤ 48) && (AI.modeX w != 3 || AI.rbX w < 2))
  | 0x24 => legal .aclr (x && !AI.sX w)
  | 0x26 => legal .macp p
  | 0x27 => legal .msup p
  | _ => none

/-- C-format operations: every bit belongs to a field. -/
def decodeC (w : Word) : Option AwlOp :=
  match AI.op w with
  | 0x2A => some .xwait
  | 0x2B => some .xstat
  | 0x30 => some .take
  | 0x31 => some .give
  | 0x32 => some .done
  | 0x33 => some .defer
  | 0x34 => some .lock
  | 0x35 => some .unlock
  | 0x36 => some .yield
  | 0x38 => some .srd
  | 0x39 => some .swr
  | 0x3A => some .bget
  | 0x3B => some .bput
  | 0x3C => some .bexp
  | 0x3D => some .bfix
  | 0x3E => some .priv
  | _ => none

/-- The operation of an instruction word; `none` is task fault 0x01. -/
def decodeAwl (w : Word) : Option AwlOp :=
  let zero (hi : Nat) : Bool := w.toNat % 2 ^ hi == 0
  let len := AI.lenT w
  match AI.op w with
  | 0x00 => legal .nop (zero 34)
  | 0x01 => (aluOp (AI.fn w)).bind fun p => legal p.1 (zero 12 && (p.2 || !AI.sR w))
  | 0x10 => legal .ld (AI.am w != 3 && w.extractLsb' 16 8 == 0)
  | 0x11 => legal .st (AI.am w != 3 && w.extractLsb' 16 8 == 0)
  | 0x14 => some .stm
  | 0x15 => some .ldm
  | 0x18 => legal .b (w.extractLsb' 15 15 == 0 && AI.cc w != 0xF)
  | 0x19 => legal .call (w.extractLsb' 15 15 == 0 && AI.cc w == 0)
  | 0x1A => legal .ret (zero 34)
  | 0x28 => legal .xget (zero 14 && decide (1 ≤ len ∧ len ≤ 60))
  | 0x29 => legal .xput (zero 14 && decide (1 ≤ len ∧ len ≤ 60))
  | _ => ((decodeI w).or (decodeX w)).or (decodeC w)

/-- What `rep` may repeat (R221). -/
def repeatable (o : AwlOp) : Bool :=
  match o with
  | .nop | .stm | .ldm | .b | .call | .ret | .jr | .rep | .xget | .xput | .xwait | .xstat | .take | .give | .done | .defer
  | .lock | .unlock | .yield | .srd | .swr | .bget | .bput | .bexp | .bfix | .priv => false
  | _ => true

/-- The G registers that an instruction reads. -/
def readsG (o : AwlOp) (w : Word) : List Nat :=
  match o with
  | .add | .sub | .adc | .sbc | .cmp | .and | .or | .xor | .andn | .shl | .shr | .sar | .rol | .mins | .maxs =>
    [AI.ra w, AI.rb w]
  | .abs | .neg | .mov | .rsb | .bsc | .lzc | .popc => [AI.ra w]
  | .addi | .andi | .ori | .xori | .shli | .shri | .sari | .cmpi | .ldx | .jr => [AI.ra w]
  | .movhi | .st => [AI.rd w]
  | .stx => [AI.rd w, AI.ra w]
  | .mul | .mac | .msu => [AI.raX w, AI.rbX w]
  | .xget | .xput => [AI.raT w, AI.rbT w]
  | .give | .done | .defer | .swr | .bput => [AI.ra w]
  | _ => []

/-- The G registers that an instruction reads, and those it writes at its own end: G16 to G31 among them are found by CWP. -/
def namesG (o : AwlOp) (w : Word) : List Nat :=
  readsG o w ++ match o with
  | .add | .sub | .adc | .sbc | .and | .or | .xor | .andn | .shl | .shr | .sar | .rol | .mins | .maxs | .abs | .neg | .mov
  | .rsb | .bsc | .lzc | .popc | .addi | .andi | .ori | .xori | .shli | .shri | .sari | .movi | .movhi | .ld | .ldx | .xstat
  | .srd | .bget | .bexp => [AI.rd w]
  | .ext => [AI.rdX w]
  | _ => []

/-- ST and BEXP as block-exponent tracking reads them (R223). -/
def Level.tracked (l : Level) : List RWord := if l.st.d.getLsbD 8 then [l.st, l.bexp] else [l.st]

/-- The pointers and special registers that an instruction reads; WSTAT where it names a register of the current window. -/
def readsS (o : AwlOp) (w : Word) (l : Level) : List RWord :=
  (if (namesG o w).any fun r => 16 ≤ r then [l.wstat] else []) ++
  match o with
  | .adc | .sbc | .bsc => [l.st]
  | .b => if AI.cc w = 0 then [] else [l.st]
  | .ld => l.p.at (AI.pk w) :: if AI.am w = 0 then [] else [l.pcfg.at (AI.pk w)]
  | .st => (l.p.at (AI.pk w) :: if AI.am w = 0 then [] else [l.pcfg.at (AI.pk w)]) ++ l.tracked
  | .stx | .ext => l.tracked
  | .macp | .msup => [l.p.at (AI.pa w), l.pcfg.at (AI.pa w), l.p.at (AI.pb w), l.pcfg.at (AI.pb w)]
  | .stm => [l.lsm, l.p.at (4 + AI.pkM w)] ++ l.tracked
  | .ldm => [l.lsm, l.p.at (4 + AI.pkM w)]
  | .call | .ret => [l.wstat]
  | .bget | .bput => [l.st, l.bankwin]
  | .bexp | .bfix => [l.bexp]
  | .swr | .priv => [l.st]
  | _ => []

/-! ### Flags and results -/

def Level.flagC (l : Level) : Bool := l.st.d.getLsbD 3
def Level.flagZ (l : Level) : Bool := l.st.d.getLsbD 2
def Level.flagN (l : Level) : Bool := l.st.d.getLsbD 1
def Level.flagV (l : Level) : Bool := l.st.d.getLsbD 0
def Level.privileged (l : Level) : Bool := l.st.d.getLsbD 7

def Level.setFlags (l : Level) (c z n v : Bool) : Level :=
  l.putSt 0 4 (BitVec.ofNat 4 (c.toNat * 8 + z.toNat * 4 + n.toNat * 2 + v.toNat))

/-- Z and N of a result, C and V kept. -/
def Level.setZN (l : Level) (d : Word) : Level := l.setFlags l.flagC (zOf d) (nOf d) l.flagV

def Level.setCZN (l : Level) (c : Bool) (d : Word) : Level := l.setFlags c (zOf d) (nOf d) l.flagV

def Level.setSV (l : Level) : Level := l.putSt 6 1 1#1

/-- A result that sets Z and N only. -/
def Level.result (l : Level) (rd : Nat) (d : Word) : Level := (l.gWrite rd (gen d)).setZN d

def min40 : Int := -(2 ^ 39)
def max40 : Int := 2 ^ 39 - 1

/-- A result whose exact value is `v` (R222): clamped where `s`, wrapped otherwise; V, and SV where it clamps. -/
def Level.arith (l : Level) (rd : Nat) (v : Int) (c s : Bool) : Level :=
  let past := decide (v < min40 ∨ max40 < v)
  let d : Word := if s && past then (if v < min40 then patt 40 min40 else patt 40 max40) else patt 40 v
  let l := (l.gWrite rd (gen d)).setFlags c (zOf d) (nOf d) past
  if s && past then l.setSV else l

/-- As `arith`, with C kept. -/
def Level.arithNoC (l : Level) (rd : Nat) (v : Int) (s : Bool) : Level := l.arith rd v l.flagC s

/-! ### DMEM and pointers (R200, R209) -/

/-- What an instruction ends in: the core's next state and its CCLK cycles with the next PC, a part of it done, a repetition
set up, the same instruction again, or a task fault with its cause and address. -/
inductive Eff where
  | next (s : State) (cost : Nat) (pc : Option Nat)
  /-- One register of `stm` or `ldm` (R205, R215): a cycle, and the same instruction goes on. -/
  | part (s : State)
  | rep (n : Nat) (s : State)
  | again (s : State)
  | fault (cause addr : Nat) (s : State)

/-- A DMEM word read by execution. -/
def State.dmemRead (s : State) (c a : Nat) : Option Word :=
  let w := (s.core c).dmem.at (a % 65536)
  if badSlices w = 0 then some (data44 w) else none

def State.dmemWrite (s : State) (c a : Nat) (d : Word) : State :=
  s.updCore c fun x => { x with dmem := x.dmem.put (a % 65536) (store44 d) }

def revBits (m x : Nat) : Nat := (List.range m).foldl (fun r i => if x.testBit i then r + 2 ^ (m - 1 - i) else r) 0

/-- The log of a power of two from 2 to 65,536. -/
def log2Len (len : Nat) : Option Nat := (List.range 17).find? fun m => decide (1 ≤ m) && len == 2 ^ m

/-- A pointer after an update by `d` (R209): `none` is task fault 0x06. -/
def pointerStep (p : Nat) (cfg : Word) (d : Int) : Option Nat :=
  let base := (cfg.extractLsb' 0 16).toNat
  let len := let n := (cfg.extractLsb' 16 16).toNat; if n = 0 then 65536 else n
  let i := (p + 65536 - base) % 65536
  match (cfg.extractLsb' 32 2).toNat with
  | 0 => some ((p + d) % 65536).toNat
  | 1 => if len ≤ i then none else some ((base + ((i + d) % len)) % 65536).toNat
  | _ =>
    match log2Len len with
    | none => none
    | some m => if len ≤ i then none
      else some ((base + revBits m (((revBits m i : Int) + d) % len).toNat) % 65536)

def pcfgStep (cfg : Word) : Int := (cfg.extractLsb' 34 6).toInt

def Level.ptr (l : Level) (k : Nat) : Nat := ((l.p.at k).d.extractLsb' 0 16).toNat
def Level.setPtr (l : Level) (k p : Nat) : Level := { l with p := l.p.put k (gen (BitVec.ofNat 40 p)) }

/-- The address of a P-format access and the level after it (R230): `none` is task fault 0x06. -/
def Level.accessP (l : Level) (w : Word) : Option (Nat × Level) :=
  let k := AI.pk w
  let p := l.ptr k
  let cfg := (l.pcfg.at k).d
  match AI.am w with
  | 0 => some (((p + AI.ofs w) % 65536).toNat, l)
  | 1 => (pointerStep p cfg (AI.ofs w)).map fun q => (p, l.setPtr k q)
  | _ => (pointerStep p cfg (pcfgStep cfg)).map fun q => (p, l.setPtr k q)

/-- R223: block-exponent tracking of a word stored or extracted. -/
def Level.track (l : Level) (d : Word) : Level :=
  if l.st.d.getLsbD 8 then
    { l with bexp := gen (BitVec.ofNat 40 (min (l.bexp.d.extractLsb' 0 6).toNat (redundantSigns d))) }
  else l

/-! ### The press unit (R216 to R220) -/

def Level.accOf (l : Level) (a : Nat) : Acc := l.acc.at a

/-- A number clamped to the signed range of a width where `s`, wrapped otherwise; whether it was clamped. -/
def fitInt (w : Nat) (s : Bool) (v : Int) : BitVec w × Bool :=
  if s && decide (v < -(2 ^ (w - 1)) ∨ 2 ^ (w - 1) - 1 < v) then
    (if v < 0 then patt w (-(2 ^ (w - 1))) else patt w (2 ^ (w - 1) - 1), true)
  else (patt w v, false)

/-- The sum of an accumulate stage: 1 set, 2 add, 3 subtract, 5 clear. -/
def stageSum (pop : Nat) (a p : Int) : Int :=
  match pop with
  | 1 => p
  | 2 => a + p
  | 3 => a - p
  | _ => 0

/-- The accumulate stage of a flight. -/
def PressFlight.value (f : PressFlight) (a : BitVec 88) : BitVec 88 × Bool :=
  if f.cpx then
    let (re, x) := fitInt 44 f.sat (stageSum f.pop (a.extractLsb' 0 44).toInt f.p)
    let (im, y) := fitInt 44 f.sat (stageSum f.pop (a.extractLsb' 44 44).toInt f.pi)
    (im ++ re, x || y)
  else fitInt 88 f.sat (stageSum f.pop a.toInt f.p)

/-- A flight lands: its accumulator is written, or its shadow entry writes it. -/
def Level.land (l : Level) (f : PressFlight) : Level :=
  match f.shadow with
  | some a => { l with acc := l.acc.put f.acc a }
  | none =>
    let (v, clamped) := f.value (l.accOf f.acc).v
    let l := { l with acc := l.acc.put f.acc (mkAcc v) }
    if clamped then l.setSV else l

/-- A residue that a flight's landing checks fails (R201): of the accumulator that its stage reads, or of its shadow entry
as that is written. -/
def Level.landBad (l : Level) (f : PressFlight) : Bool :=
  match f.shadow with
  | some a => !a.ok
  | none => (f.pop == 2 || f.pop == 3) && !(l.accOf f.acc).ok

/-- Flights visible at the level's own cycle land, in the order of their issue; whether a residue failed. -/
def Level.landDue (l : Level) : Level × Bool :=
  let due := l.flights.filter fun f => f.issued + 3 ≤ l.own
  let l := { l with flights := l.flights.filter fun f => l.own < f.issued + 3 }
  due.foldl (fun (x : Level × Bool) f => (x.1.land f, x.2 || x.1.landBad f)) (l, false)

/-- What a level switch leaves of the flights: shadow entries that hold the completed values (R218); whether a residue
failed. -/
def Level.shadowed (l : Level) : Level × Bool :=
  let (l, bad) := l.landDue
  let (fl, done, bad) := l.flights.foldl (fun (x : List PressFlight × Level × Bool) f =>
    let m := x.2.1.land f
    (x.1 ++ [{ f with shadow := some (m.accOf f.acc) }], m, x.2.2 || x.2.1.landBad f)) ([], l, bad)
  ({ l with flights := fl, st := done.st }, bad)

/-- An X- or XP-format product (R216). -/
def awlProduct (mode : Nat) (sa sb : Bool) (a b : Word) : Int × Int :=
  match mode with
  | 0 => (m40Product sa sb a b, 0)
  | 2 => (m4Half sa sb a b, 0)
  | _ => cpxProduct sa sb a b

def Level.issue (l : Level) (acc pop mode : Nat) (s : Bool) (p : Int × Int) : Level :=
  { l with flights := l.flights ++
      [{ acc, pop, cpx := mode == 3, sat := s, p := p.1, pi := p.2, issued := l.own }] }

/-! ### Ring transfers (R224, R225) -/

def Level.tag (l : Level) (t : Nat) : XferTag := l.tags.at t
def Level.busyMask (l : Level) : BitVec 16 :=
  (List.range 16).foldl (fun m t => if (l.tag t).busy then m ||| (1#16 <<< t) else m) 0#16

/-- A level that waits for tags is READY once none of them is busy. -/
def State.wakeTags (s : State) (c v : Nat) : State :=
  match (s.level c v).state with
  | .wait (.tags m) => if m &&& (s.level c v).busyMask = 0 then s.setLevelState c v .ready else s
  | _ => s

/-- The station that serves a remote address, and the request kind of a get and a put; `none` is a reserved space. -/
def State.remote (s : State) (ra : Word) : Option (Nat × Nat × Nat) :=
  match (ra.extractLsb' 38 2).toNat with
  | 0 => some (if s.channelOf ((ra.extractLsb' 0 38).toNat / 12) < 8 then 9 else 19, 0, 1)
  | 1 => some (gthStation ((ra.extractLsb' 2 12).toNat), 3, 2)
  | 2 => some (gthStation ((ra.extractLsb' 11 12).toNat), 4, 5)
  | _ => none

/-- Stream of a level's current item, 0 where it has none, and the function that owns that stream (R312). -/
def State.xferOwner (s : State) (c v : Nat) : Nat × Nat :=
  match s.act c v with
  | some a => if (s.level c v).hasItem then (a.stream, a.owner) else (0, s.strOwner 0)
  | none => (0, s.strOwner 0)

/-- A remote address advanced by `n` words within its space. -/
def advanceRemote (ra : Word) (n : Nat) : Word :=
  match (ra.extractLsb' 38 2).toNat with
  | 0 => putBits ra 0 38 (BitVec.ofNat 38 ((ra.extractLsb' 0 38).toNat + n))
  | 2 => putBits ra 0 11 (BitVec.ofNat 11 ((ra.extractLsb' 0 11).toNat + n))
  | _ => ra

/-- One packet of a transfer: the request that it sends. -/
def State.sendPart (s : State) (c v tag : Nat) (get : Bool) (ra : Word) (len : Nat) (ws : List Word) : State :=
  match s.remote ra with
  | none => s
  | some (dst, kGet, kPut) =>
    s.request (coreStation c) (corePos c) dst (if get then kGet else kPut) (16 * v + tag) (s.xferOwner c v).1
      (s.xferOwner c v).2 ([ra, BitVec.ofNat 40 len] ++ ws)

/-- A transfer posted, and its tag BUSY. A put of 59 or 60 words takes two packets (R314): both at once, but of one to a
queue the second only once nothing of the first was refused, since a queue takes no word after a refusal (R224). -/
def State.post (s : State) (c v tag : Nat) (get : Bool) (ra : Word) (dmem len : Nat) (ws : List Word) : State :=
  let mark (t : XferTag) (s : State) : State := s.updLevel c v fun l => { l with tags := l.tags.put tag t }
  if (s.remote ra).isNone then mark { status := 5 } s
  else if get then (mark { busy := true, status := 1, get, dmem, left := 1 } s).sendPart c v tag true ra len []
  else if len ≤ 58 then (mark { busy := true, status := 1, dmem, left := 1 } s).sendPart c v tag false ra len ws
  else if ra.extractLsb' 38 2 = 1 then
    (mark { busy := true, status := 1, dmem, left := 1, rest := some (ra, ws.drop 58) } s).sendPart c v tag false ra 58
      (ws.take 58)
  else
    ((mark { busy := true, status := 1, dmem, left := 2 } s).sendPart c v tag false ra 58 (ws.take 58)).sendPart c v tag false
      (advanceRemote ra 58) (len - 58) (ws.drop 58)

/-! ### Collator instructions (R226, R314; the tag and IMM[0] of CMSG are log entry 17) -/

def State.postCmsg (s : State) (c v op : Nat) (ends : Bool) (x : Word) (desc : List Word) : State :=
  let (st, fn) := s.xferOwner c v
  s.request (coreStation c) (corePos c) 4 6 (16 * v + op) st fn
    ([BitVec.ofNat 40 (op + ends.toNat * 8), x] ++ desc)

/-- A Collator instruction that waits for its answer. -/
def State.askCollator (s : State) (c v op rd : Nat) (x : Word) (desc : List Word) : Eff :=
  .next ((s.postCmsg c v op false x desc).setLevelState c v (.wait (.collator op rd))) 1 none

/-! ### One instruction -/

/-- The level after an instruction of `cost` cycles: its own cycles, and the load that a next instruction may wait on. -/
def Level.passed (l : Level) (o : AwlOp) (w : Word) (cost : Nat) : Level :=
  { l with own := l.own + cost, loaded := match o with
      | .ld | .ldx => some (AI.rd w)
      | _ => none }

/-- CYCLE, the level's cycles and the PC after an instruction that completed; a repetition counts down. -/
def State.finish (s : State) (c v : Nat) (o : AwlOp) (w : Word) (rep : Option Nat) (cost : Nat) (pc : Option Nat) : State :=
  s.updCore c fun x =>
    let (stay, rep) := match rep with
      | some n => if n ≤ 1 then (false, none) else (true, some (n - 1))
      | none => (false, none)
    { x with
      cycle := x.cycle + BitVec.ofNat 40 cost, rep,
      levels := x.levels.upd v fun l =>
        { l.passed o w cost with pc := if stay then l.pc else pc.getD ((l.pc + 1) % 32768) } }

/-- The running level's instruction where it is `o`: fetched, checked and executed by `f`; a fetch failure, an illegal
word and a residue failure are task faults. Any other instruction there is no event of this command. -/
def State.runAwl (s : State) (c : Nat) (o : AwlOp) (f : Nat → Word → State → Eff) : State :=
  match (s.core c).running with
  | none => s
  | some v =>
    let l := s.level c v
    if s.holdrst c || l.state != .ready then s
    else
      let w44 := (s.core c).imem.at l.pc
      let w := data44 w44
      if badSlices w44 ≠ 0 then s.taskFault c v 4 l.pc l.pc
      else match decodeAwl w with
        | none => s.taskFault c v 1 l.pc 0
        | some d =>
          if d ≠ o then s
          else
            let stall := match l.loaded with
              | some r => if (readsG o w).contains r then 1 else 0
              | none => 0
            let rep := (s.core c).rep
            let s := s.updCore c fun x =>
              { x with cycle := x.cycle + BitVec.ofNat 40 stall,
                       levels := x.levels.upd v fun l => { l with own := l.own + stall } }
            let (l, accBad) := (s.level c v).landDue
            let s := s.updLevel c v fun _ => l
            if accBad || (readsG o w).any (fun r => !(l.gRead r).ok) || (readsS o w l).any (fun r => !r.ok) then
              s.taskFault c v 5 l.pc 0
            else match f v w s with
              | .next s cost pc => s.finish c v o w rep cost pc
              | .part s => s.finish c v o w none 1 (some l.pc)
              | .rep n s => (s.finish c v o w none 1 none).updCore c fun x => { x with rep := some n }
              | .again s => s
              | .fault cause addr s => s.taskFault c v cause l.pc addr

/-- An instruction whose whole effect is on its level, in one cycle. -/
def State.runLevel (s : State) (c : Nat) (o : AwlOp) (f : Word → Level → Level) : State :=
  s.runAwl c o fun v w s => .next (s.updLevel c v (f w)) 1 none

end Sys2Proof.Machine
end

