-- ==== Sys2Proof/Machine/AwlAlu.lean ====
section
/-!
DEFINITION. The ALU-group and immediate instructions of an Awl core (R222, R223, R230, R231).
-/
namespace Sys2Proof.Machine

def Level.rA (l : Level) (w : Word) : Word := (l.gRead (AI.ra w)).d
def Level.rB (l : Level) (w : Word) : Word := (l.gRead (AI.rb w)).d

/-- The sign-extended immediate of the I format. -/
def immWord (w : Word) : Word := (AI.imm23 w).signExtend 40

/-- A shift amount: RB[5:0]. -/
def amount (b : Word) : Nat := b.toNat % 64

/-- The flags of a difference, without its result. -/
def Level.subOnly (l : Level) (a b : Word) : Level :=
  let d := sumOf a (~~~b) true
  l.setFlags (coutOf a (~~~b) true) (zOf d) (nOf d) (subV a b true)

def Level.shifted (l : Level) (rd : Nat) (d : Word) (c : Bool) : Level := (l.gWrite rd (gen d)).setCZN c d

/-- AWL_NOP (R230). -/
def execAwlNop (c : CoreId) (s : State) : Result := .next (s.runLevel c .nop fun _ l => l)

/-- AWL_ADD (R231). -/
def execAwlAdd (c : CoreId) (s : State) : Result :=
  .next (s.runLevel c .add fun w l =>
    let a := l.rA w
    let b := l.rB w
    l.arith (AI.rd w) (a.toInt + b.toInt) (coutOf a b false) (AI.sR w))

/-- AWL_SUB (R231). -/
def execAwlSub (c : CoreId) (s : State) : Result :=
  .next (s.runLevel c .sub fun w l =>
    let a := l.rA w
    let b := l.rB w
    l.arith (AI.rd w) (a.toInt - b.toInt) (coutOf a (~~~b) true) (AI.sR w))

/-- AWL_ADC (R231). -/
def execAwlAdc (c : CoreId) (s : State) : Result :=
  .next (s.runLevel c .adc fun w l =>
    let a := l.rA w
    let b := l.rB w
    l.arith (AI.rd w) (a.toInt + b.toInt + l.flagC.toNat) (coutOf a b l.flagC) (AI.sR w))

/-- AWL_SBC (R231). -/
def execAwlSbc (c : CoreId) (s : State) : Result :=
  .next (s.runLevel c .sbc fun w l =>
    let a := l.rA w
    let b := l.rB w
    l.arith (AI.rd w) (a.toInt - b.toInt - 1 + l.flagC.toNat) (coutOf a (~~~b) l.flagC) (AI.sR w))

/-- AWL_CMP (R231). -/
def execAwlCmp (c : CoreId) (s : State) : Result :=
  .next (s.runLevel c .cmp fun w l =>
    let a := l.rA w
    let b := l.rB w
    l.subOnly a b)

/-- AWL_AND (R231). -/
def execAwlAnd (c : CoreId) (s : State) : Result :=
  .next (s.runLevel c .and fun w l =>
    let a := l.rA w
    let b := l.rB w
    l.result (AI.rd w) (a &&& b))

/-- AWL_OR (R231). -/
def execAwlOr (c : CoreId) (s : State) : Result :=
  .next (s.runLevel c .or fun w l =>
    let a := l.rA w
    let b := l.rB w
    l.result (AI.rd w) (a ||| b))

/-- AWL_XOR (R231). -/
def execAwlXor (c : CoreId) (s : State) : Result :=
  .next (s.runLevel c .xor fun w l =>
    let a := l.rA w
    let b := l.rB w
    l.result (AI.rd w) (a ^^^ b))

/-- AWL_ANDN (R231). -/
def execAwlAndn (c : CoreId) (s : State) : Result :=
  .next (s.runLevel c .andn fun w l =>
    let a := l.rA w
    let b := l.rB w
    l.result (AI.rd w) (a &&& ~~~b))

/-- AWL_SHL (R231). -/
def execAwlShl (c : CoreId) (s : State) : Result :=
  .next (s.runLevel c .shl fun w l =>
    let a := l.rA w
    let b := l.rB w
    l.arith (AI.rd w) (a.toInt * 2 ^ amount b) (shlC a (amount b)) (AI.sR w))

/-- AWL_SHR (R231). -/
def execAwlShr (c : CoreId) (s : State) : Result :=
  .next (s.runLevel c .shr fun w l =>
    let a := l.rA w
    let b := l.rB w
    l.shifted (AI.rd w) (shrWord a (amount b)) (shrC a (amount b)))

/-- AWL_SAR (R231). -/
def execAwlSar (c : CoreId) (s : State) : Result :=
  .next (s.runLevel c .sar fun w l =>
    let a := l.rA w
    let b := l.rB w
    l.shifted (AI.rd w) (sarWord a (amount b)) (sarC a (amount b)))

/-- AWL_ROL (R231). -/
def execAwlRol (c : CoreId) (s : State) : Result :=
  .next (s.runLevel c .rol fun w l =>
    let a := l.rA w
    let b := l.rB w
    l.result (AI.rd w) (rolWord a (amount b)))

/-- AWL_MINS (R231). -/
def execAwlMins (c : CoreId) (s : State) : Result :=
  .next (s.runLevel c .mins fun w l =>
    let a := l.rA w
    let b := l.rB w
    l.result (AI.rd w) (if a.toInt ≤ b.toInt then a else b))

/-- AWL_MAXS (R231). -/
def execAwlMaxs (c : CoreId) (s : State) : Result :=
  .next (s.runLevel c .maxs fun w l =>
    let a := l.rA w
    let b := l.rB w
    l.result (AI.rd w) (if a.toInt ≤ b.toInt then b else a))

/-- AWL_ABS (R231). -/
def execAwlAbs (c : CoreId) (s : State) : Result :=
  .next (s.runLevel c .abs fun w l =>
    let a := l.rA w
    l.arithNoC (AI.rd w) a.toInt.natAbs (AI.sR w))

/-- AWL_NEG (R231). -/
def execAwlNeg (c : CoreId) (s : State) : Result :=
  .next (s.runLevel c .neg fun w l =>
    let a := l.rA w
    l.arith (AI.rd w) (-a.toInt) (coutOf 0 (~~~a) true) (AI.sR w))

/-- AWL_MOV (R231). -/
def execAwlMov (c : CoreId) (s : State) : Result :=
  .next (s.runLevel c .mov fun w l =>
    let a := l.rA w
    l.result (AI.rd w) a)

/-- AWL_RSB (R231). -/
def execAwlRsb (c : CoreId) (s : State) : Result :=
  .next (s.runLevel c .rsb fun w l =>
    let a := l.rA w
    l.result (AI.rd w) (BitVec.ofNat 40 (redundantSigns a)))

/-- AWL_BSC (R223). -/
def execAwlBsc (c : CoreId) (s : State) : Result :=
  .next (s.runLevel c .bsc fun w l =>
    let a := l.rA w
    let n := (l.st.d.extractLsb' 24 7).toInt
    if 0 ≤ n then l.arithNoC (AI.rd w) (a.toInt * 2 ^ n.toNat) (AI.sR w)
    else l.arithNoC (AI.rd w) (roundShift a.toInt (-n).toNat) (AI.sR w))

/-- AWL_LZC (R231). -/
def execAwlLzc (c : CoreId) (s : State) : Result :=
  .next (s.runLevel c .lzc fun w l =>
    let a := l.rA w
    l.result (AI.rd w) (BitVec.ofNat 40 (leadZeros a)))

/-- AWL_POPC (R231). -/
def execAwlPopc (c : CoreId) (s : State) : Result :=
  .next (s.runLevel c .popc fun w l =>
    let a := l.rA w
    l.result (AI.rd w) (BitVec.ofNat 40 (onesCount a)))

/-- AWL_ADDI (R230). -/
def execAwlAddi (c : CoreId) (s : State) : Result :=
  .next (s.runLevel c .addi fun w l =>
    let a := l.rA w
    let i := immWord w
    l.arith (AI.rd w) (a.toInt + i.toInt) (coutOf a i false) (AI.sI w))

/-- AWL_ANDI (R230). -/
def execAwlAndi (c : CoreId) (s : State) : Result :=
  .next (s.runLevel c .andi fun w l =>
    let a := l.rA w
    let i := immWord w
    l.result (AI.rd w) (a &&& i))

/-- AWL_ORI (R230). -/
def execAwlOri (c : CoreId) (s : State) : Result :=
  .next (s.runLevel c .ori fun w l =>
    let a := l.rA w
    let i := immWord w
    l.result (AI.rd w) (a ||| i))

/-- AWL_XORI (R230). -/
def execAwlXori (c : CoreId) (s : State) : Result :=
  .next (s.runLevel c .xori fun w l =>
    let a := l.rA w
    let i := immWord w
    l.result (AI.rd w) (a ^^^ i))

/-- AWL_SHLI (R230). -/
def execAwlShli (c : CoreId) (s : State) : Result :=
  .next (s.runLevel c .shli fun w l =>
    let a := l.rA w
    let n := (AI.imm23 w).toNat % 64
    l.arith (AI.rd w) (a.toInt * 2 ^ n) (shlC a n) (AI.sI w))

/-- AWL_SHRI (R230). -/
def execAwlShri (c : CoreId) (s : State) : Result :=
  .next (s.runLevel c .shri fun w l =>
    let a := l.rA w
    let n := (AI.imm23 w).toNat % 64
    l.shifted (AI.rd w) (shrWord a n) (shrC a n))

/-- AWL_SARI (R230). -/
def execAwlSari (c : CoreId) (s : State) : Result :=
  .next (s.runLevel c .sari fun w l =>
    let a := l.rA w
    let n := (AI.imm23 w).toNat % 64
    l.shifted (AI.rd w) (sarWord a n) (sarC a n))

/-- AWL_CMPI (R230). -/
def execAwlCmpi (c : CoreId) (s : State) : Result :=
  .next (s.runLevel c .cmpi fun w l =>
    l.subOnly (l.rA w) (immWord w))

/-- AWL_MOVI (R230). -/
def execAwlMovi (c : CoreId) (s : State) : Result :=
  .next (s.runLevel c .movi fun w l =>
    l.result (AI.rd w) (immWord w))

/-- AWL_MOVHI (R230). -/
def execAwlMovhi (c : CoreId) (s : State) : Result :=
  .next (s.runLevel c .movhi fun w l =>
    l.result (AI.rd w) (putBits (l.gRead (AI.rd w)).d 23 17 (w.extractLsb' 0 17)))

end Sys2Proof.Machine
end

