-- ==== Sys2Proof/Machine/AwlMem.lean ====
section
/-!
DEFINITION. Loads and stores, branches and windows, repetition and the press unit of an Awl core (R209 to R221).
-/
namespace Sys2Proof.Machine

/-! ### Loads and stores (R215, R230) -/

/-- An access through a pointer: the address and the level after its update, or task fault 0x06. -/
def State.atPointer (s : State) (c v : Nat) (w : Word) (f : Nat → Level → Eff) : Eff :=
  match (s.level c v).accessP w with
  | none => .fault 6 ((s.level c v).ptr (AI.pk w)) s
  | some (a, l) => f a l

/-- A word loaded into a register, or task fault 0x03. -/
def State.load (s : State) (c v a rd : Nat) (l : Level) : Eff :=
  match s.dmemRead c a with
  | none => .fault 3 (a % 65536) s
  | some d => .next (s.updLevel c v fun _ => l.gWrite rd (gen d)) 1 none

/-- A word stored, and its block exponent tracked. -/
def State.store (s : State) (c v a : Nat) (d : Word) (l : Level) : Eff :=
  .next ((s.updLevel c v fun _ => l.track d).dmemWrite c a d) 1 none

/-- AWL_LD (R230). -/
def execAwlLd (c : CoreId) (s : State) : Result :=
  .next <| s.runAwl c .ld fun v w s => s.atPointer c v w fun a l => s.load c v a (AI.rd w) l

/-- AWL_ST (R230). -/
def execAwlSt (c : CoreId) (s : State) : Result :=
  .next <| s.runAwl c .st fun v w s => s.atPointer c v w fun a l => s.store c v a (l.gRead (AI.rd w)).d l

/-- The address (RA + IMM) mod 2^16. -/
def Level.indexed (l : Level) (w : Word) : Nat := (l.rA w + immWord w).toNat % 65536

/-- AWL_LDX (R230). -/
def execAwlLdx (c : CoreId) (s : State) : Result :=
  .next <| s.runAwl c .ldx fun v w s => s.load c v ((s.level c v).indexed w) (AI.rd w) (s.level c v)

/-- AWL_STX (R230). -/
def execAwlStx (c : CoreId) (s : State) : Result :=
  .next <| s.runAwl c .stx fun v w s =>
    let l := s.level c v
    s.store c v (l.indexed w) (l.gRead (AI.rd w)).d l

/-- Register i marked done in LSM_PROG. -/
def Level.mark (l : Level) (i : Nat) : Level := { l with lsm := gen (l.lsm.d ||| (1#40 <<< i)) }

/-- `stm` and `ldm` (R215), one register in a cycle: the lowest of MASK that LSM_PROG does not show done is transferred by
`f`, and a boundary follows; with the last one the pointer moves and LSM_PROG clears. A fault leaves both as they stand. -/
def State.multiple (s : State) (c v : Nat) (w : Word) (f : Nat → Nat → Except (Nat × Nat) State) : Eff :=
  let k := 4 + AI.pkM w
  let mask := AI.mask w
  let base := (s.level c v).ptr k
  let below (i : Nat) : Nat := ((List.range i).filter fun j => mask.getLsbD j).length
  let left := (List.range 32).filter fun i => mask.getLsbD i && !(s.level c v).lsm.d.getLsbD i
  let close (s : State) : Eff :=
    .next (s.updLevel c v fun l => { l.setPtr k ((base + below 32) % 65536) with lsm := gen 0 }) 1 none
  match left with
  | [] => close s
  | i :: rest =>
    match f i ((base + below i) % 65536) with
    | .error (cause, addr) => .fault cause addr s
    | .ok t => if rest.isEmpty then close t else .part (t.updLevel c v fun l => l.mark i)

/-- The current window is found by a WSTAT whose residue holds. -/
def Level.named (l : Level) (i : Nat) : Bool := decide (i < 16) || l.wstat.ok

/-- AWL_STM (R215, R223): the next register. -/
def execAwlStm (c : CoreId) (s : State) : Result :=
  .next <| s.runAwl c .stm fun v w s => s.multiple c v w fun i a =>
    let l := s.level c v
    if (l.gRead i).ok && l.named i then .ok ((s.updLevel c v fun l => l.track (l.gRead i).d).dmemWrite c a (l.gRead i).d)
    else .error (5, 0)

/-- AWL_LDM (R215): the next register. -/
def execAwlLdm (c : CoreId) (s : State) : Result :=
  .next <| s.runAwl c .ldm fun v w s => s.multiple c v w fun i a =>
    if (s.level c v).named i then
      match s.dmemRead c a with
      | some d => .ok (s.updLevel c v fun l => l.gWrite i (gen d))
      | none => .error (3, a)
    else .error (5, 0)

/-! ### Branches and windows (R210 to R213, R232) -/

/-- A condition of `b`. -/
def Level.condition (l : Level) (cc : Nat) : Bool :=
  let c := l.flagC
  let z := l.flagZ
  let n := l.flagN
  let v := l.flagV
  match cc with
  | 0x0 => true
  | 0x1 => z
  | 0x2 => !z
  | 0x3 => c
  | 0x4 => !c
  | 0x5 => n
  | 0x6 => !n
  | 0x7 => v
  | 0x8 => !v
  | 0x9 => c && !z
  | 0xA => !c || z
  | 0xB => n == v
  | 0xC => n != v
  | 0xD => !z && n == v
  | _ => z || n != v

/-- AWL_B (R232). -/
def execAwlB (c : CoreId) (s : State) : Result :=
  .next <| s.runAwl c .b fun v w s =>
    if (s.level c v).condition (AI.cc w) then .next s 2 (some (AI.tgt w)) else .next s 1 none

/-- Address of a frame of the spill area (R211). -/
def Level.frameAddr (l : Level) (i : Nat) : Nat := (l.sparea.d.extractLsb' 0 16).toNat + 17 * i

/-- First address beyond the spill area. -/
def Level.spillLimit (l : Level) : Nat :=
  let n := (l.sparea.d.extractLsb' 16 16).toNat
  if n = 0 then 65536 else n

/-- The oldest resident window stored as frame SPILLED (R211): `none` is the double fault of R213. -/
def State.spill (s : State) (c v : Nat) : Option State :=
  let l := s.level c v
  let wdw := (l.cwp + 1) % 4
  let a := l.frameAddr l.spilled
  let regs := (List.range 16).map fun i => l.win.at (16 * wdw + i)
  if !l.sparea.ok || l.spillLimit < a + 17 || regs.any (fun r => !r.ok) then none
  else
    let words := regs.map (·.d) ++ [BitVec.ofNat 40 (l.link.at wdw)]
    let s := (words.zipIdx).foldl (fun (s : State) p => s.dmemWrite c (a + p.2) p.1) s
    some (s.updLevel c v fun l => { l with wstat := mkWstat l.cwp 3 (l.spilled + 1) })

/-- Frame SPILLED − 1 loaded into the window below (R212): `none` is the double fault of R213. -/
def State.fill (s : State) (c v : Nat) : Option State :=
  let l := s.level c v
  let wdw := (l.cwp + 3) % 4
  let a := l.frameAddr (l.spilled - 1)
  let words := (List.range 17).map fun i => s.dmemRead c (a + i)
  if !l.sparea.ok || words.any Option.isNone then none
  else
    let ws := words.map fun x => x.getD 0
    some (s.updLevel c v fun l =>
      { l with
        win := ((ws.take 16).zipIdx).foldl (fun (m : Sparse RWord) p => m.put (16 * wdw + p.2) (gen p.1)) l.win,
        link := l.link.put wdw ((ws.getD 16 0).toNat % 32768), wstat := mkWstat l.cwp 2 (l.spilled - 1) })

/-- AWL_CALL (R210, R211, R213). -/
def execAwlCall (c : CoreId) (s : State) : Result :=
  .next <| s.runAwl c .call fun v w s =>
    let go (s : State) (cost : Nat) : Eff :=
      .next (s.updLevel c v fun l =>
        let n := (l.cwp + 1) % 4
        { l with link := l.link.put n ((l.pc + 1) % 32768), wstat := mkWstat n (l.res + 1) l.spilled }) cost
        (some (AI.tgt w))
    let l := s.level c v
    if l.res = 4 then match s.spill c v with
      | some t => go t 19
      | none => .fault 8 (l.frameAddr l.spilled % 65536) s
    else go s 2

/-- AWL_RET (R210, R212, R213). -/
def execAwlRet (c : CoreId) (s : State) : Result :=
  .next <| s.runAwl c .ret fun v _ s =>
    let go (s : State) (cost : Nat) : Eff :=
      let l := s.level c v
      .next (s.updLevel c v fun l => { l with wstat := mkWstat ((l.cwp + 3) % 4) (l.res - 1) l.spilled }) cost
        (some (l.link.at l.cwp))
    let l := s.level c v
    if l.res = 1 then
      if l.spilled = 0 then .fault 7 0 s
      else match s.fill c v with
        | some t => go t 19
        | none => .fault 8 (l.frameAddr (l.spilled - 1) % 65536) s
    else go s 2

/-- AWL_JR (R230). -/
def execAwlJr (c : CoreId) (s : State) : Result :=
  .next <| s.runAwl c .jr fun v w s => .next s 2 (some (((s.level c v).rA w).toNat % 32768))

/-- AWL_REP (R221): the next instruction is repeated, or the `rep` faults on one that may not be. -/
def execAwlRep (c : CoreId) (s : State) : Result :=
  .next <| s.runAwl c .rep fun v w s =>
    let next := (s.core c).imem.at (((s.level c v).pc + 1) % 32768)
    let ok := badSlices next != 0 || (match decodeAwl (data44 next) with
      | some o => repeatable o
      | none => false)
    if ok then .rep ((AI.imm23 w).toNat % 1024 + 1) s else .fault 1 0 s

/-! ### The press unit (R216 to R220) -/

/-- The issue of an X-format accumulation. -/
def Level.issueX (l : Level) (pop : Nat) (w : Word) : Level :=
  l.issue (AI.ad w) pop (AI.modeX w) (AI.sX w)
    (awlProduct (AI.modeX w) (AI.saX w) (AI.sbX w) (l.gRead (AI.raX w)).d (l.gRead (AI.rbX w)).d)

/-- AWL_MUL (R216). -/
def execAwlMul (c : CoreId) (s : State) : Result := .next (s.runLevel c .mul fun w l => l.issueX 1 w)

/-- AWL_MAC (R216). -/
def execAwlMac (c : CoreId) (s : State) : Result := .next (s.runLevel c .mac fun w l => l.issueX 2 w)

/-- AWL_MSU (R216). -/
def execAwlMsu (c : CoreId) (s : State) : Result := .next (s.runLevel c .msu fun w l => l.issueX 3 w)

/-- AWL_ACLR (R216). -/
def execAwlAclr (c : CoreId) (s : State) : Result :=
  .next (s.runLevel c .aclr fun w l => l.issue (AI.ad w) 5 0 false (0, 0))

/-- AWL_EXT (R219, R223). -/
def execAwlExt (c : CoreId) (s : State) : Result :=
  .next <| s.runAwl c .ext fun v w s =>
    let l := s.level c v
    let a := l.accOf (AI.ad w)
    if !a.ok then .fault 5 0 s
    else
      let signed := AI.saX w || AI.sbX w
      let x := extractInt (AI.modeX w == 3) (AI.rbX w == 1) signed a.v (AI.shift w)
      let lo : Int := if signed then min40 else 0
      let hi : Int := if signed then max40 else 2 ^ 40 - 1
      let past := AI.sX w && decide (x < lo ∨ hi < x)
      let d : Word := patt 40 (if past then (if x < lo then lo else hi) else x)
      let l := (l.result (AI.rdX w) d).track d
      .next (s.updLevel c v fun _ => if past then l.setSV else l) 1 none

/-- `macp` and `msup` (R216): operands through two pointers, each then stepped. -/
def State.accumulateP (s : State) (c v pop : Nat) (w : Word) : Eff :=
  let l := s.level c v
  let a := l.ptr (AI.pa w)
  let cfgA := (l.pcfg.at (AI.pa w)).d
  let cfgB := (l.pcfg.at (AI.pb w)).d
  match pointerStep a cfgA (pcfgStep cfgA) with
  | none => .fault 6 a s
  | some qa =>
    let b := l.ptr (AI.pb w)
    let l' := l.setPtr (AI.pa w) qa
    match pointerStep (l'.ptr (AI.pb w)) cfgB (pcfgStep cfgB) with
    | none => .fault 6 b s
    | some qb =>
      match s.dmemRead c a, s.dmemRead c b with
      | none, _ => .fault 3 a s
      | _, none => .fault 3 b s
      | some x, some y =>
        .next (s.updLevel c v fun _ =>
          (l'.setPtr (AI.pb w) qb).issue (AI.ad w) pop (AI.modeP w) (AI.sP w)
            (awlProduct (AI.modeP w) (AI.saP w) (AI.sbP w) x y)) 1 none

/-- AWL_MACP (R216). -/
def execAwlMacp (c : CoreId) (s : State) : Result := .next <| s.runAwl c .macp fun v w s => s.accumulateP c v 2 w

/-- AWL_MSUP (R216). -/
def execAwlMsup (c : CoreId) (s : State) : Result := .next <| s.runAwl c .msup fun v w s => s.accumulateP c v 3 w

end Sys2Proof.Machine
end

