-- ==== Sys2Proof/Machine/AwlSys.lean ====
section
/-!
DEFINITION. Ring transfers, Collator instructions, special registers and banks of an Awl core (R207, R208, R214, R223 to
R227), the change of level, and the host's commands to a core (R234 to R236).
-/
namespace Sys2Proof.Machine

/-! ### Transfers (R224, R225) -/

/-- A transfer on tag TAG: it waits while the tag is busy. -/
def State.onTag (s : State) (c v : Nat) (w : Word) (f : Nat → Eff) : Eff :=
  let t := AI.tag w
  if ((s.level c v).tag t).busy then .again (s.setLevelState c v (.wait (.tags (1#16 <<< t)))) else f t

/-- AWL_XGET (R224). -/
def execAwlXget (c : CoreId) (s : State) : Result :=
  .next <| s.runAwl c .xget fun v w s => s.onTag c v w fun t =>
    let l := s.level c v
    .next (s.post c v t true (l.gRead (AI.raT w)).d ((l.gRead (AI.rbT w)).d.toNat % 65536) (AI.lenT w) []) 1 none

/-- AWL_XPUT (R224). The transfer port reads DMEM without a check: R200 makes only the parity failure of an execution read a
fault, so a word that fails it is sent as it stands (log entry 115). -/
def execAwlXput (c : CoreId) (s : State) : Result :=
  .next <| s.runAwl c .xput fun v w s => s.onTag c v w fun t =>
    let l := s.level c v
    let a := (l.gRead (AI.rbT w)).d.toNat % 65536
    let ws := (List.range (AI.lenT w)).map fun i => data44 ((s.core c).dmem.at ((a + i) % 65536))
    .next (s.post c v t false (l.gRead (AI.raT w)).d a (AI.lenT w) ws) 1 none

/-- AWL_XWAIT (R225). -/
def execAwlXwait (c : CoreId) (s : State) : Result :=
  .next <| s.runAwl c .xwait fun v w s =>
    let m : BitVec 16 := w.extractLsb' 0 16
    if m &&& (s.level c v).busyMask = 0 then .next s 1 none
    else .next (s.setLevelState c v (.wait (.tags m))) 1 none

/-- AWL_XSTAT (R225). -/
def execAwlXstat (c : CoreId) (s : State) : Result :=
  .next <| s.runLevel c .xstat fun w l =>
    let t := l.tag (AI.imm19 w % 16)
    l.gWrite (AI.rd w) (gen (BitVec.ofNat 40 (t.status + 16 * t.count)))

/-! ### Collator instructions (R226, R227) -/

/-- AWL_TAKE (R226). -/
def execAwlTake (c : CoreId) (s : State) : Result :=
  .next <| s.runAwl c .take fun v _ s => s.askCollator c v 0 0 0 []

/-- AWL_GIVE (R226). -/
def execAwlGive (c : CoreId) (s : State) : Result :=
  .next <| s.runAwl c .give fun v w s =>
    let a := ((s.level c v).rA w).toNat % 65536
    let words := (List.range 7).map fun i => s.dmemRead c (a + i)
    match words.findIdx? Option.isNone with
    | some i => .fault 3 ((a + i) % 65536) s
    | none => s.askCollator c v 1 (AI.rd w) (BitVec.ofNat 40 (AI.imm19 w % 2)) (words.map fun x => x.getD 0)

/-- `done` and `defer`: posted, without a current item afterwards; the level becomes IDLE where the activation ends. -/
def State.closeItem (s : State) (c v op : Nat) (w : Word) (x : Word) : Eff :=
  if !(s.level c v).hasItem then .fault 0x0B 0 s
  else
    let ends := AI.imm19 w % 2 == 1
    let s := (s.postCmsg c v op ends x []).updLevel c v fun l => { l with hasItem := false }
    .next (if ends then s.setLevelState c v .idle else s) 1 none

/-- AWL_DONE (R226). -/
def execAwlDone (c : CoreId) (s : State) : Result :=
  .next <| s.runAwl c .done fun v w s => s.closeItem c v 2 w ((s.level c v).rA w)

/-- AWL_DEFER (R226, R255). -/
def execAwlDefer (c : CoreId) (s : State) : Result :=
  .next <| s.runAwl c .defer fun v w s => s.closeItem c v 3 w ((s.level c v).rA w)

/-- AWL_LOCK (R226, R261). -/
def execAwlLock (c : CoreId) (s : State) : Result :=
  .next <| s.runAwl c .lock fun v w s =>
    s.askCollator c v 4 (AI.rd w) (BitVec.ofNat 40 (AI.imm19 w % 256)) []

/-- AWL_UNLOCK (R226): posted. -/
def execAwlUnlock (c : CoreId) (s : State) : Result :=
  .next <| s.runAwl c .unlock fun v w s =>
    .next (s.postCmsg c v 5 false (BitVec.ofNat 40 (AI.imm19 w % 256)) []) 1 none

/-- AWL_YIELD (R226, R255). -/
def execAwlYield (c : CoreId) (s : State) : Result :=
  .next <| s.runAwl c .yield fun v _ s => s.askCollator c v 6 0 0 []

/-! ### Special registers (R207, R208) -/

/-- The special register of an index. -/
def AwlCore.special (x : AwlCore) (c v i : Nat) : Option RWord :=
  let l := x.levels.at v
  match i with
  | 0x00 => some l.st
  | 0x01 => some l.wstat
  | 0x02 => some l.lsm
  | 0x03 => some l.bexp
  | 0x04 => some l.sparea
  | 0x05 => some l.bankwin
  | 0x06 => some (gen (BitVec.ofNat 40 (v + 256 * c)))
  | 0x07 => some (gen x.cycle)
  | _ => if 8 ≤ i ∧ i < 16 then some (l.pcfg.at (i - 8)) else if 16 ≤ i ∧ i < 24 then some (l.p.at (i - 16)) else none

/-- ST as a write leaves it: PRIV and the reserved bits keep their values. -/
def Level.writeSt (l : Level) (d : Word) : Level :=
  { l with st := gen ((l.st.d &&& 0x80#40) ||| (d &&& 0x7F00_014F#40)) }

def Level.writeLsm (l : Level) (d : Word) : Level := { l with lsm := gen (d &&& 0xFFFF_FFFF#40) }
def Level.writeSparea (l : Level) (d : Word) : Level := { l with sparea := gen (d &&& 0xFFFF_FFFF#40) }
def Level.writeBankwin (l : Level) (d : Word) : Level := { l with bankwin := gen (d &&& 0xF#40) }
def Level.writePtr (l : Level) (k : Nat) (d : Word) : Level := { l with p := l.p.put k (gen (d &&& 0xFFFF#40)) }

/-- PCFGk, or task fault 0x01 for MODE 0b11. -/
def Level.writePcfg (l : Level) (k : Nat) (d : Word) : Option Level :=
  if d.extractLsb' 32 2 = 3 then none else some { l with pcfg := l.pcfg.put k (gen d) }

/-- AWL_SRD (R207). -/
def execAwlSrd (c : CoreId) (s : State) : Result :=
  .next <| s.runAwl c .srd fun v w s =>
    match (s.core c).special c v (AI.imm19 w % 256) with
    | none => .fault 1 0 s
    | some r => if r.ok then .next (s.updLevel c v fun l => l.gWrite (AI.rd w) (gen r.d)) 1 none else .fault 5 0 s

/-- The level after a write of a special register: `none` with the cause where it faults. -/
def Level.writeSpecial (l : Level) (i : Nat) (d : Word) : Except Nat Level :=
  match i with
  | 0x00 => .ok (l.writeSt d)
  | 0x02 => .ok (l.writeLsm d)
  | 0x04 => if l.privileged then .ok (l.writeSparea d) else .error 2
  | 0x05 => if l.privileged then .ok (l.writeBankwin d) else .error 2
  | _ =>
    if 8 ≤ i ∧ i < 16 then (match l.writePcfg (i - 8) d with
      | some l => .ok l
      | none => .error 1)
    else if 16 ≤ i ∧ i < 24 then .ok (l.writePtr (i - 16) d)
    else .error 1

/-- AWL_SWR (R207). -/
def execAwlSwr (c : CoreId) (s : State) : Result :=
  .next <| s.runAwl c .swr fun v w s =>
    match (s.level c v).writeSpecial (AI.imm19 w % 256) ((s.level c v).rA w) with
    | .ok l => .next (s.updLevel c v fun _ => l) 1 none
    | .error e => .fault e 0 s

/-! ### Another bank (R214) -/

/-- The accumulator piece of an index from 0x20 to 0x2B. -/
def accPiece (a : BitVec 88) (p : Nat) : Word :=
  match p with
  | 0 => a.extractLsb' 0 40
  | 1 => a.extractLsb' 40 40
  | _ => (a.extractLsb' 80 8).setWidth 40

def putPiece (a : BitVec 88) (p : Nat) (d : Word) : BitVec 88 :=
  match p with
  | 0 => putBits a 0 40 d
  | 1 => putBits a 40 40 d
  | _ => putBits a 80 8 (d.setWidth 8)

/-- The register of a bank at an index: its word and whether its residues are good. -/
def Level.bankRead (l : Level) (i : Nat) : Option (Word × Bool) :=
  let of (r : RWord) : Option (Word × Bool) := some (r.d, r.ok)
  if i < 0x20 then some ((l.gRead i).d, (l.gRead i).ok && (decide (i < 16) || l.wstat.ok))
  else if i < 0x2C then some (accPiece (l.accOf ((i - 0x20) / 3)).v ((i - 0x20) % 3), (l.accOf ((i - 0x20) / 3)).ok)
  else match i with
    | 0x30 => of l.st
    | 0x31 => of l.wstat
    | 0x32 => of l.lsm
    | 0x33 => of l.bexp
    | 0x34 => of l.sparea
    | 0x48 => some (BitVec.ofNat 40 l.pc, true)
    | _ => if 0x38 ≤ i ∧ i < 0x40 then of (l.p.at (i - 0x38))
      else if 0x40 ≤ i ∧ i < 0x48 then of (l.pcfg.at (i - 0x40)) else none

/-- A register of a bank written: `none` is task fault 0x01. -/
def Level.bankWrite (l : Level) (i : Nat) (d : Word) : Option Level :=
  if i < 0x20 then some (l.gWrite i (gen d))
  else if i < 0x2C then
    let a := (i - 0x20) / 3
    some { l with acc := l.acc.put a (mkAcc (putPiece (l.accOf a).v ((i - 0x20) % 3) d)) }
  else match i with
    | 0x30 => some (l.writeSt d)
    | 0x32 => some (l.writeLsm d)
    | 0x33 => some { l with bexp := gen (d &&& 0x3F#40) }
    | 0x34 => some (l.writeSparea d)
    | 0x48 => some { l with pc := d.toNat % 32768 }
    | _ => if 0x38 ≤ i ∧ i < 0x40 then some (l.writePtr (i - 0x38) d)
      else if 0x40 ≤ i ∧ i < 0x48 then l.writePcfg (i - 0x40) d else none

/-- The bank that BANKWIN opens to the level, or task fault 0x02. -/
def State.onBank (s : State) (c v : Nat) (f : Nat → Eff) : Eff :=
  let l := s.level c v
  if l.privileged && l.bankwin.d.getLsbD 3 then f (l.bankwin.d.toNat % 8) else .fault 2 0 s

/-- AWL_BGET (R214). -/
def execAwlBget (c : CoreId) (s : State) : Result :=
  .next <| s.runAwl c .bget fun v w s => s.onBank c v fun u =>
    match (s.level c u).bankRead (AI.imm19 w % 256) with
    | none => .fault 1 0 s
    | some (d, ok) => if ok then .next (s.updLevel c v fun l => l.gWrite (AI.rd w) (gen d)) 1 none else .fault 5 0 s

/-- AWL_BPUT (R214). -/
def execAwlBput (c : CoreId) (s : State) : Result :=
  .next <| s.runAwl c .bput fun v w s => s.onBank c v fun u =>
    let i := AI.imm19 w % 256
    if u = v ∧ i = 0x48 then .fault 1 0 s
    else if 16 ≤ i ∧ i < 0x20 ∧ (s.level c u).wstat.ok = false then .fault 5 0 s
    else match (s.level c u).bankWrite i ((s.level c v).rA w) with
      | none => .fault 1 0 s
      | some l => .next (s.updLevel c u fun _ => l) 1 none

/-! ### Block exponent and privilege (R208, R223) -/

/-- AWL_BEXP (R223). -/
def execAwlBexp (c : CoreId) (s : State) : Result :=
  .next <| s.runLevel c .bexp fun w l => { l.gWrite (AI.rd w) (gen (l.bexp.d &&& 0x3F#40)) with bexp := gen 39 }

/-- AWL_BFIX (R223). -/
def execAwlBfix (c : CoreId) (s : State) : Result :=
  .next <| s.runLevel c .bfix fun w l =>
    { l.putSt 24 7 (BitVec.ofInt 7 ((l.bexp.d.toNat % 64 : Nat) - (AI.imm19 w % 64 : Nat) : Int)) with bexp := gen 39 }

/-- AWL_PRIV (R208). -/
def execAwlPriv (c : CoreId) (s : State) : Result :=
  .next <| s.runAwl c .priv fun v w s =>
    let on := AI.imm19 w % 2 == 1
    if on && decide (v < 6) then .fault 2 0 s
    else .next (s.updLevel c v fun l => l.putSt 7 1 (BitVec.ofBool on)) 1 none

/-! ### Levels (R203, R205, R218, R225, R227) -/

/-- The highest READY level of a core. -/
def AwlCore.highest (x : AwlCore) : Option Nat :=
  (List.range 8).foldl (fun (b : Option Nat) v => if (x.levels.at v).state = .ready then some v else b) none

/-- LEVEL_SWITCH (R203, R205, R218): at a boundary the highest READY level runs. Where another level ran last, this is a
switch: it costs 1 + 2 cycles, and the press results in flight of the level left become shadow entries; a residue that fails
there is its task fault. -/
def execLevelSwitch (c : CoreId) (s : State) : Result :=
  let x := s.core c
  .next <| if s.holdrst c || x.rep.isSome then s
    else match x.highest with
      | none => s
      | some u =>
        if x.running = some u then s
        else match x.last with
          | none => s.setCore c { x with running := some u, last := some u, cycle := x.cycle + 3 }
          | some v =>
            if v = u then s.setCore c { x with running := some u }
            else
              let (l, bad) := (x.levels.at v).shadowed
              let s := s.setCore c { x with running := some u, last := some u, cycle := x.cycle + 3, levels := x.levels.put v l }
              if bad && (s.act c v).isSome then s.taskFault c v 5 l.pc 0 else s

/-- COLLATOR_RESPONSE_TIMEOUT (R227): task fault 0x09 of a level that still waits for an answer; its request is given up. -/
def execCollatorResponseTimeout (c : CoreId) (lv : LevelId) (s : State) : Result :=
  let l := s.level c lv
  .next <| match l.state with
    | .wait (.collator op _) =>
      (s.abandonRequests (coreStation c) fun o => o.client == corePos c && o.kind == 6 && o.tag == 16 * lv.val + op).taskFault
        c lv 9 ((l.pc + 32767) % 32768) 0
    | _ => s

/-- A busy tag ends with a status. -/
def State.endTag (s : State) (c v tag status : Nat) : State :=
  (s.updLevel c v fun l =>
    { l with tags := l.tags.upd tag fun t => { t with busy := false, status, left := 0, rest := none } }).wakeTags c v

/-- TRANSFER_TIMEOUT (R225, R327): the tag completes with status 7, and its requests are given up. -/
def execTransferTimeout (c : CoreId) (lv : LevelId) (tag : Fin 16) (s : State) : Result :=
  .next <| if ((s.level c lv).tag tag).busy then
      (s.abandonRequests (coreStation c) fun o => o.client == corePos c && o.tag == 16 * lv.val + tag.val && o.kind != 6).endTag
        c lv tag 7
    else s

/-! ### The host's commands (R234 to R236) -/

/-- HOLDRST set (R234): every open activation is task fault 0x0A, the responses to the core's requests are discarded, the
banks take their reset values, and the memories keep their contents. -/
def State.resetCore (s : State) (c : Nat) : State :=
  let s := s.voidRequests (coreStation c) fun o => o.client == corePos c
  let s := (List.range 8).foldl (fun (s : State) v =>
    if (s.act c v).isSome then s.taskFault c v 0x0A (s.level c v).pc 0 else s.releaseAll (8 * c + v)) s
  let x := s.core c
  s.setCore c { imem := x.imem, dmem := x.dmem }

/-- UNFREEZE (R234, R264): FROZEN levels become IDLE, their window stacks reset and their locks released. -/
def State.unfreeze (s : State) (c : Nat) (m : BitVec 8) : State :=
  (List.range 8).foldl (fun (s : State) v =>
    if m.getLsbD v && (s.level c v).state == .frozen then
      ((s.updLevel c v fun l => { l with wstat := mkWstat 0 1 0 }).setLevelState c v .idle).releaseAll (8 * c + v)
    else s) s

/-- A write of AWL_CTL (R234, R235): HOLDRST, EXCL with source 921 where the core is already quiet, and UNFREEZE. -/
def State.writeAwlCtl (s : State) (fn c : Nat) (v : BitVec 64) : State :=
  if fn = 0 then
    let held := s.holdrst c
    let out := s.bitF F.awlCtl_excl c
    s.writeReg fn .awlCtl c v false id fun s =>
      let s := s.setCore c (s.core c)
      let s := if !held && s.holdrst c then s.resetCore c else s
      let newX := !out && s.bitF F.awlCtl_excl c
      let s := if newX || (!held && s.holdrst c) then
          s.logEntry (0x10 + c) 0x6006 (c + (s.bitF F.awlCtl_excl c).toNat * 2 ^ 6 + (s.holdrst c).toNat * 2 ^ 7) else s
      let s := if newX && (s.core c).quiet then s.raise 921 else s
      s.unfreeze c (v.extractLsb' 16 8)
  else s.ignored fn .awlCtl c

/-- AWL_HOLDRST (R234): the PF's write of AWL_CTL. -/
def execAwlHoldrst (c : CoreId) (v : BitVec 64) (s : State) : Result :=
  .next (s.bar .awlCtl c fun s => s.writeAwlCtl 0 c v)

/-- AWL_UNFREEZE (R234): the PF's write of AWL_CTL. -/
def execAwlUnfreeze (c : CoreId) (v : BitVec 64) (s : State) : Result :=
  .next (s.bar .awlCtl c fun s => s.writeAwlCtl 0 c v)

/-- A write of AWL_MADDR (R236): a reserved SPACE is refused. -/
def State.writeMaddr (s : State) (fn c : Nat) (v : BitVec 64) : State :=
  if fn = 0 then
    s.writeReg fn .awlMaddr c v (decide (1 < fieldOf F.awlMaddr_space v)) (fun s => s.setF F.awlCtl_rej c) id
  else s.ignored fn .awlMaddr c

/-- ADDR after an access, modulo the size of its space. -/
def State.advanceMaddr (s : State) (c : Nat) : State :=
  if s.bitF F.awlMaddr_inc c then
    s.putN F.awlMaddr_addr c ((s.getN F.awlMaddr_addr c + 1) % (if s.getN F.awlMaddr_space c = 0 then 32768 else 65536))
  else s

/-- The word at AWL_MADDR (R236). -/
def State.mdataWord (s : State) (c : Nat) : BitVec 44 :=
  let a := s.getN F.awlMaddr_addr c
  if s.getN F.awlMaddr_space c = 0 then (s.core c).imem.at (a % 32768) else (s.core c).dmem.at a

/-- A read of AWL_MDATA (R236). -/
def State.readMdata (s : State) (c : Nat) : BitVec 64 × State :=
  let w := s.mdataWord c
  if badSlices w = 0 then ((data44 w).setWidth 64, s.advanceMaddr c)
  else (0, (s.setF F.awlMaddr_perr c).advanceMaddr c)

/-- AWL_MDATA_READ (R236). -/
def execAwlMdataRead (c : CoreId) (s : State) : Result :=
  .next (s.barRead 0 .awlMdata c fun s =>
    let (v, s) := s.readMdata c
    s.emit (.readData 0 (leBytes v.toNat 8)))

/-- A write of AWL_MDATA that R236 refuses: into IMEM outside reset, into DMEM while a level is not IDLE; never a write of
the word that is there (R496). -/
def State.mdataRefused (s : State) (c : Nat) (v : BitVec 64) : Bool :=
  s.mdataWord c != store44 (v.setWidth 40) &&
    (if s.getN F.awlMaddr_space c = 0 then !s.holdrst c else (List.range 8).any fun u => (s.level c u).state != .idle)

/-- A write of AWL_MDATA (R236): the word stored with its parity. -/
def State.writeMdata (s : State) (fn c : Nat) (v : BitVec 64) : State :=
  if fn ≠ 0 then s.ignored fn .awlMdata c
  else if s.mdataRefused c v then (s.logRefused fn (RegId.awlMdata.offset c)).setF F.awlCtl_rej c
  else
    let a := s.getN F.awlMaddr_addr c
    let w := store44 (v.setWidth 40)
    let s := if s.getN F.awlMaddr_space c = 0 then
        (s.onSys fun y => { y with cores := y.cores.upd c fun k => { k with imemw := k.imemw || k.loaded } }).updCore c
          fun x => { x with imem := x.imem.put (a % 32768) w }
      else s.updCore c fun x => { x with dmem := x.dmem.put a w }
    s.advanceMaddr c

/-- AWL_MDATA_WRITE (R236). -/
def execAwlMdataWrite (c : CoreId) (v : BitVec 64) (s : State) : Result :=
  .next (s.bar .awlMdata c fun s => s.writeMdata 0 c v)

end Sys2Proof.Machine
end

