-- ==== Sys2Proof/Machine/Hash.lean ====
section
/-!
DEFINITION. SHA-256 and the verification of HSS signatures, which R412 takes from FIPS 180-4 and RFC 8554 (PRESUMED, log
entry 23: the spec names the standards and gives none of their numbers but those of R412 and R413).
-/
namespace Sys2Proof.Machine

namespace Sha

def h0 : List (BitVec 32) :=
  [0x6a09e667, 0xbb67ae85, 0x3c6ef372, 0xa54ff53a, 0x510e527f, 0x9b05688c, 0x1f83d9ab, 0x5be0cd19]

def k : List (BitVec 32) := List.flatten [
  ([0x428a2f98, 0x71374491, 0xb5c0fbcf, 0xe9b5dba5, 0x3956c25b, 0x59f111f1, 0x923f82a4, 0xab1c5ed5] : List (BitVec 32)),
  ([0xd807aa98, 0x12835b01, 0x243185be, 0x550c7dc3, 0x72be5d74, 0x80deb1fe, 0x9bdc06a7, 0xc19bf174] : List (BitVec 32)),
  ([0xe49b69c1, 0xefbe4786, 0x0fc19dc6, 0x240ca1cc, 0x2de92c6f, 0x4a7484aa, 0x5cb0a9dc, 0x76f988da] : List (BitVec 32)),
  ([0x983e5152, 0xa831c66d, 0xb00327c8, 0xbf597fc7, 0xc6e00bf3, 0xd5a79147, 0x06ca6351, 0x14292967] : List (BitVec 32)),
  ([0x27b70a85, 0x2e1b2138, 0x4d2c6dfc, 0x53380d13, 0x650a7354, 0x766a0abb, 0x81c2c92e, 0x92722c85] : List (BitVec 32)),
  ([0xa2bfe8a1, 0xa81a664b, 0xc24b8b70, 0xc76c51a3, 0xd192e819, 0xd6990624, 0xf40e3585, 0x106aa070] : List (BitVec 32)),
  ([0x19a4c116, 0x1e376c08, 0x2748774c, 0x34b0bcb5, 0x391c0cb3, 0x4ed8aa4a, 0x5b9cca4f, 0x682e6ff3] : List (BitVec 32)),
  ([0x748f82ee, 0x78a5636f, 0x84c87814, 0x8cc70208, 0x90befffa, 0xa4506ceb, 0xbef9a3f7, 0xc67178f2] : List (BitVec 32))]

/-- Bytes of a number, most significant first. -/
def be (n : Nat) (w : Nat) : List Byte := (List.range w).map fun i => BitVec.ofNat 8 (n / 256 ^ (w - 1 - i))

def ofBe (bs : List Byte) : Nat := bs.foldl (fun n b => n * 256 + b.toNat) 0

def pad (bs : List Byte) : List Byte :=
  let n := bs.length
  bs ++ (0x80#8 :: List.replicate ((119 - n % 64) % 64) 0) ++ be (8 * n) 8

/-- The schedule, newest word first. -/
def schedule (block : List Byte) : List (BitVec 32) :=
  let w0 := (List.range 16).map fun i => BitVec.ofNat 32 (ofBe ((block.drop (4 * i)).take 4))
  ((List.range 48).foldl (fun (ws : List (BitVec 32)) _ =>
    let g (i : Nat) : BitVec 32 := ws.getD (i - 1) 0
    let a := g 15
    let b := g 2
    let s0 := a.rotateRight 7 ^^^ a.rotateRight 18 ^^^ (a >>> 3)
    let s1 := b.rotateRight 17 ^^^ b.rotateRight 19 ^^^ (b >>> 10)
    (s1 + g 7 + s0 + g 16) :: ws) w0.reverse).reverse

def round (v : List (BitVec 32)) (kw : BitVec 32) : List (BitVec 32) :=
  match v with
  | [a, b, c, d, e, f, g, h] =>
    let s1 := e.rotateRight 6 ^^^ e.rotateRight 11 ^^^ e.rotateRight 25
    let ch := (e &&& f) ^^^ (~~~e &&& g)
    let t1 := h + s1 + ch + kw
    let s0 := a.rotateRight 2 ^^^ a.rotateRight 13 ^^^ a.rotateRight 22
    let maj := (a &&& b) ^^^ (a &&& c) ^^^ (b &&& c)
    [t1 + (s0 + maj), a, b, c, d + t1, e, f, g]
  | _ => v

def block (h : List (BitVec 32)) (bs : List Byte) : List (BitVec 32) :=
  let v := ((k.zip (schedule bs)).map fun p => p.1 + p.2).foldl round h
  (h.zip v).map fun p => p.1 + p.2

end Sha

/-- SHA-256 of a byte string: 32 bytes. -/
def sha256 (bs : List Byte) : List Byte :=
  let p := Sha.pad bs
  let h := (List.range (p.length / 64)).foldl (fun h i => Sha.block h ((p.drop (64 * i)).take 64)) Sha.h0
  h.flatMap fun w => Sha.be w.toNat 4

namespace Lms

/-- W, P and the left shift of the checksum of an LM-OTS type (R412). -/
def ots (t : Nat) : Option (Nat × Nat × Nat) :=
  match t with
  | 1 => some (1, 265, 7)
  | 2 => some (2, 133, 6)
  | 3 => some (4, 67, 4)
  | 4 => some (8, 34, 0)
  | _ => none

/-- The height of an LMS type (R412). -/
def height (t : Nat) : Option Nat := if 5 ≤ t ∧ t ≤ 9 then some (5 * (t - 4)) else none

def slice (bs : List Byte) (at_ n : Nat) : List Byte := (bs.drop at_).take n
def u32 (bs : List Byte) (at_ : Nat) : Nat := Sha.ofBe (slice bs at_ 4)

/-- Digit `i` of width `w`. -/
def coef (bs : List Byte) (i w : Nat) : Nat :=
  let b := (bs.getD (i * w / 8) 0).toNat
  b / 2 ^ (8 - (w * (i % (8 / w)) + w)) % 2 ^ w

def checksum (q : List Byte) (w ls : Nat) : Nat :=
  ((List.range (256 / w)).foldl (fun n i => n + (2 ^ w - 1 - coef q i w)) 0) * 2 ^ ls % 2 ^ 16

/-- The public key that an LM-OTS signature of a message stands for. -/
def otsKey (id : List Byte) (q : Nat) (w p ls : Nat) (c : List Byte) (ys : List Byte) (msg : List Byte) : List Byte :=
  let pre := id ++ Sha.be q 4
  let d := sha256 (pre ++ Sha.be 0x8181 2 ++ c ++ msg)
  let d := d ++ Sha.be (checksum d w ls) 2
  let z := (List.range p).flatMap fun i =>
    let a := coef d i w
    (List.range (2 ^ w - 1 - a)).foldl (fun t j => sha256 (pre ++ Sha.be i 2 ++ Sha.be (a + j) 1 ++ t))
      (slice ys (32 * i) 32)
  sha256 (pre ++ Sha.be 0x8080 2 ++ z)

/-- Length of the LMS signature at the head of a byte string, by its types. -/
def sigLen (bs : List Byte) : Option Nat :=
  match ots (u32 bs 4) with
  | none => none
  | some (_, p, _) =>
    match height (u32 bs (40 + 32 * p)) with
    | none => none
    | some h => some (44 + 32 * p + 32 * h)

/-- The root that an LMS signature of a message leads to. -/
def root (id : List Byte) (h q : Nat) (leaf : List Byte) (path : List Byte) : List Byte :=
  ((List.range h).foldl (fun (x : Nat × List Byte) i =>
    let (n, t) := x
    let sib := slice path (32 * i) 32
    let pre := id ++ Sha.be (n / 2) 4 ++ Sha.be 0x8383 2
    (n / 2, sha256 (if n % 2 = 1 then pre ++ sib ++ t else pre ++ t ++ sib))) (2 ^ h + q, leaf)).2

/-- An LMS signature verifies under a 56-byte public key. -/
def verify (pub msg sig : List Byte) : Bool :=
  let lt := u32 pub 0
  let ot := u32 pub 4
  let id := slice pub 8 16
  match ots ot, height lt with
  | some (w, p, ls), some h =>
    let q := u32 sig 0
    let kc := otsKey id q w p ls (slice sig 8 32) (slice sig 40 (32 * p)) msg
    let leaf := sha256 (id ++ Sha.be (2 ^ h + q) 4 ++ Sha.be 0x8282 2 ++ kc)
    u32 sig 4 == ot && u32 sig (40 + 32 * p) == lt && decide (q < 2 ^ h) &&
      root id h q leaf (slice sig (44 + 32 * p) (32 * h)) == slice pub 24 32
  | _, _ => false

/-- L and every type code of a key and signature lie in R412, and the signature has the length that they give. -/
def shapeFrom : Nat → List Byte → Bool
  | 0, sig => sigLen sig == some sig.length
  | n + 1, sig =>
    match sigLen sig with
    | none => false
    | some l =>
      let rest := sig.drop l
      (ots (u32 rest 4)).isSome && (height (u32 rest 0)).isSome && decide (l + 56 ≤ sig.length) &&
        shapeFrom n (rest.drop 56)

def hssShape (key sig : List Byte) : Bool :=
  let l := u32 key 0
  key.length == 60 && decide (1 ≤ l ∧ l ≤ 3) && (height (u32 key 4)).isSome && (ots (u32 key 8)).isSome &&
    decide (4 ≤ sig.length) && shapeFrom (l - 1) (sig.drop 4)

def verifyFrom : Nat → List Byte → List Byte → List Byte → Bool
  | 0, pub, msg, sig => verify pub msg sig
  | n + 1, pub, msg, sig =>
    match sigLen sig with
    | none => false
    | some l =>
      let next := slice sig l 56
      verify pub next (sig.take l) && verifyFrom n next msg (sig.drop (l + 56))

/-- An HSS signature verifies under a 60-byte public key. -/
def hssVerify (key msg sig : List Byte) : Bool :=
  let l := u32 key 0
  hssShape key sig && u32 sig 0 + 1 == l && verifyFrom (l - 1) (key.drop 4) msg (sig.drop 4)

end Lms

end Sys2Proof.Machine
end

