-- ==== Sys2Proof/Machine/FuistBase.lean ====
section
/-!
DEFINITION. Fuist frames (R166 to R168), their words, the tokens they carry (R179) and the queues of a port.
-/
namespace Sys2Proof.Machine

/-- One bit through the CRC register, most significant bit first. -/
def crcStep (c : Nat) (b : Bool) : Nat :=
  if c.testBit 31 != b then (2 * c % 2 ^ 32) ^^^ 0x04C1_1DB7 else 2 * c % 2 ^ 32

/-- The register behind the lowest `n` bits of `v`, the highest of them first; it is below 2^32 throughout, and testing it is
what lets Lean's kernel evaluate it at each bit. -/
def crcRun (v c : Nat) : Nat → Nat
  | 0 => c
  | n + 1 => if c < 2 ^ 32 then crcRun v (crcStep c (v.testBit n)) n else 0

/-- The CRC-32 of a frame, over bits 1279:32 with bit 1279 first (R166). -/
def frameCrc (f : Frame) : BitVec 32 := ~~~(BitVec.ofNat 32 (crcRun (f.toNat / 2 ^ 32) 0xFFFF_FFFF 1248))

def frameOk (f : Frame) : Bool := f.extractLsb' 0 32 == frameCrc f

namespace FH
/-! Header fields: SCHEDULED (R167) and ASYNC (R168). -/
def head (f : Frame) : BitVec 48 := f.extractLsb' 1232 48
def cls (f : Frame) : Nat := ((head f).extractLsb' 46 2).toNat
def kind (f : Frame) : Nat := ((head f).extractLsb' 44 2).toNat
def slot (f : Frame) : Nat := ((head f).extractLsb' 32 12).toNat
def ssrc (f : Frame) : Nat := ((head f).extractLsb' 26 6).toNat
def sdst (f : Frame) : Nat := ((head f).extractLsb' 20 6).toNat
def snwords (f : Frame) : Nat := ((head f).extractLsb' 15 5).toNat
def att (f : Frame) : Nat := ((head f).extractLsb' 13 2).toNat
def quire (f : Frame) : Nat := ((head f).extractLsb' 0 13).toNat
def seq (f : Frame) : Nat := ((head f).extractLsb' 32 12).toNat
def ackseq (f : Frame) : Nat := ((head f).extractLsb' 20 12).toNat
def adst (f : Frame) : Nat := ((head f).extractLsb' 14 6).toNat
def asrc (f : Frame) : Nat := ((head f).extractLsb' 8 6).toNat
def anwords (f : Frame) : Nat := ((head f).extractLsb' 3 5).toNat
def vc (f : Frame) : Nat := ((head f).extractLsb' 2 1).toNat
end FH

/-- Payload word Wk (R166). -/
def frameWord (f : Frame) (k : Nat) : Word := f.extractLsb' (1192 - 40 * k) 40

def frameWords (f : Frame) (n : Nat) : List Word := (List.range n).map (frameWord f)

/-- A frame of a header and words, with its CRC. -/
def mkFrame (fh : Nat) (ws : List Word) : Frame :=
  let head : Frame := BitVec.ofNat 1280 (fh % 2 ^ 48) <<< 1232
  let body : Frame := (ws.zipIdx).foldl
    (fun f p => if p.2 < 30 then f ||| (BitVec.ofNat 1280 p.1.toNat <<< (1192 - 40 * p.2)) else f) head
  body ||| (frameCrc body).setWidth 1280

/-- A SCHEDULED frame (R167). -/
def schedFrame (kind slot src dst nwords att quire : Nat) (ws : List Word) : Frame :=
  mkFrame (2 ^ 46 + kind * 2 ^ 44 + slot * 2 ^ 32 + src * 2 ^ 26 + dst * 2 ^ 20 + nwords * 2 ^ 15 +
    att * 2 ^ 13 + quire % 2 ^ 13) ws

/-- An ASYNC frame, whose SEQ and ACKSEQ are filled as it is transmitted (R168). -/
def asyncFrame (kind dst src nwords vc : Nat) (ws : List Word) : Frame :=
  mkFrame (2 * 2 ^ 46 + kind * 2 ^ 44 + dst * 2 ^ 14 + src * 2 ^ 8 + nwords * 2 ^ 3 + vc * 2 ^ 2) ws

/-- The frame with another header. -/
def reframe (f : Frame) (lo w : Nat) (v : Nat) : Frame :=
  let b := putBits (f &&& ~~~(0xFFFF_FFFF : Frame)) (1232 + lo) w (BitVec.ofNat w v)
  b ||| (frameCrc b).setWidth 1280

/-! ### Ports -/

def State.port (s : State) (p : Nat) : Port := s.fst.ports.at p
def State.updPort (s : State) (p : Nat) (f : Port → Port) : State :=
  { s with fst := { s.fst with ports := s.fst.ports.upd p f } }

def State.portUp (s : State) (p : Nat) : Bool := s.getN F.fstPortStat_state p == 2
def State.portsUp (s : State) : List Nat := (List.range 8).filter s.portUp

def State.devIdx (s : State) : Nat := s.getN F.fstSys_devidx 0
def State.sysMask (s : State) : BitVec 64 := s.reg .fstSysmask 0

/-- The port toward a device: the primary, or the alternate where the primary is not up (R188, R198). -/
def State.route (s : State) (d : Nat) : Option Nat :=
  if s.bitF F.fstRoute_valid d = false then none
  else
    let p := s.getN F.fstRoute_pri d
    if s.portUp p then some p
    else if s.bitF F.fstRoute_alten d then some (s.getN F.fstRoute_alt d) else some p

/-- A frame queued for positions 1 to 3 on the primary port toward a device (R173). -/
def State.sendExch (s : State) (dst : Nat) (f : Frame) : State :=
  if s.bitF F.fstRoute_valid dst = false then s.logOther .fstRoute dst
  else s.updPort (s.getN F.fstRoute_pri dst) fun p => { p with txExch := p.txExch ++ [f] }

/-! ### Tokens (R179 to R183) -/

/-- The failure lowest in the order device, cause, gathering (R32). -/
def lowerFail (a b : Fail) : Fail :=
  if b.dev < a.dev ∨ (b.dev = a.dev ∧ (b.cause < a.cause ∨ (b.cause = a.cause ∧ b.gth < a.gth))) then b else a

def optFail (a b : Option Fail) : Option Fail :=
  match a, b with
  | some x, some y => some (lowerFail x y)
  | some x, none => some x
  | none, y => y

def optMin (a b : Option Nat) : Option Nat :=
  match a, b with
  | some x, some y => some (min x y)
  | some x, none => some x
  | none, y => y

/-- The merge of R180. -/
def Token.merge (a b : Token) : Token :=
  { quire := a.quire, att := a.att, ok := a.ok ||| b.ok, rp := a.rp ||| b.rp, fault := optFail a.fault b.fault,
    holdq := optMin a.holdq b.holdq }

/-- The token words W0 to W6 (R179). -/
def Token.words (t : Token) : List Word :=
  let w5 : Nat := (match t.fault with
    | some f => 2 ^ 24 + f.dev * 2 ^ 18 + f.cause * 2 ^ 12 + f.gth % 2 ^ 12
    | none => 0) + (if t.holdq.isSome then 2 ^ 25 else 0)
  [BitVec.ofNat 40 t.quire, t.ok.setWidth 40, (t.ok >>> 40).setWidth 40, t.rp.setWidth 40, (t.rp >>> 40).setWidth 40,
    BitVec.ofNat 40 w5, BitVec.ofNat 40 (t.holdq.getD 0)]

def tokenOfWords (ws : List Word) : Token :=
  let w (i : Nat) : Word := ws.getD i 0
  let w5 := w 5
  { quire := (w 0).toNat, ok := ((w 2).setWidth 24 ++ w 1 : BitVec 64), rp := ((w 4).setWidth 24 ++ w 3 : BitVec 64),
    fault := if w5.getLsbD 24 then
      some { quire := (w 0).toNat, dev := (w5.extractLsb' 18 6).toNat, cause := (w5.extractLsb' 12 6).toNat,
             gth := (w5.extractLsb' 0 12).toNat } else none,
    holdq := if w5.getLsbD 25 then some (w 6).toNat else none }

def Token.frame (t : Token) (src att : Nat) : Frame := schedFrame 1 0 src 0 7 att t.quire t.words

/-- A token sent on every port that is up, in the next position 0 (R180). -/
def State.sendToken (s : State) (t : Token) (att : Nat) : State :=
  s.portsUp.foldl (fun s p => s.updPort p fun x => { x with txToken := x.txToken ++ [t.frame s.devIdx att] }) s

/-- The first failure of a quire, in the order of R32. -/
def State.firstFail (s : State) (r q : Nat) : Option Fail :=
  ((s.region r).fails.filter fun f => f.quire == q).foldl (fun a f => optFail a (some f)) none

/-- The attempt at a quire that this device counts: ATTEMPT for the two that no COMMIT vote has followed yet, 0 beyond. -/
def State.attOf (s : State) (r q : Nat) : Nat :=
  if q ≤ s.getN F.qctCommitted_count r + 2 then s.getN F.qctStatus_attempt r else 0

/-- The attempt whose tokens count for a quire: ATTEMPT for the one that is due. -/
def State.tokenAtt (s : State) (r q : Nat) : Nat :=
  if q = s.getN F.qctCommitted_count r + 1 then s.getN F.qctStatus_attempt r else 0

/-- The device's own status for a quire of the region as a token (R180). -/
def State.ownToken (s : State) (r q : Nat) : Token :=
  let bit : BitVec 64 := 1#64 <<< s.devIdx
  let f := s.firstFail r q
  { quire := q, att := s.tokenAtt r q, ok := if f.isNone then bit else 0, rp := if f.isSome then bit else 0, fault := f,
    holdq := if s.bitF F.qctHold_pend r then some (s.getN F.qctHold_quire r) else none }

/-- The merged token of an attempt at a quire. -/
def State.heldToken (s : State) (r q att : Nat) : Token :=
  ((s.region r).tokens.find? fun t => t.quire == q % 2 ^ 40 && t.att == att).getD { quire := q % 2 ^ 40, att }

/-- The merged token of a quire. -/
def State.tokenOf (s : State) (r q : Nat) : Token := s.heldToken r q (s.tokenAtt r q)

def State.putToken (s : State) (r : Nat) (t : Token) : State :=
  s.updRegion r fun x =>
    { x with tokens := t :: x.tokens.filter fun u => u.quire != t.quire || u.att != t.att }

end Sys2Proof.Machine
end

