-- ==== Sys2Proof/Machine/Pads.lean ====
section
/-!
DEFINITION. User pads: which region claims a pad, what the device drives on it (R103, R105, R357, R366, R440, R487).
-/
namespace Sys2Proof.Machine

namespace Desc
/-- PADMASK of a region descriptor (R353). -/
def padmask (d : BitVec 512) : BitVec 192 := d.extractLsb' 192 192
def claims (d : BitVec 512) (p : Nat) : Bool := (padmask d).getLsbD p
end Desc

def State.pad (s : State) (p : Nat) : Pad := s.sys.pads.at p
def State.updPad (s : State) (p : Nat) (f : Pad → Pad) : State :=
  { s with sys := { s.sys with pads := s.sys.pads.upd p f } }

/-- The region that claims a pad (R361). -/
def State.padOwner (s : State) (p : Nat) : Option Nat :=
  (List.range 16).find? fun r => Desc.claims (s.region r).desc p

def State.bankHeld (s : State) (b : Nat) : Bool := (s.getF F.padHold_held 0).getLsbD b

namespace PadE
/-! Entry of a PAD frame (R357). -/
def valid (e : BitVec 64) : Bool := e.getLsbD 63
def out (e : BitVec 64) : Bool := e.getLsbD 62
def safe (e : BitVec 64) : Nat := (e.extractLsb' 60 2).toNat
def gth (e : BitVec 64) : Nat := (e.extractLsb' 16 12).toNat
def cell (e : BitVec 64) : Nat := (e.extractLsb' 8 6).toNat
def sw (e : BitVec 64) : Nat := (e.extractLsb' 0 4).toNat
end PadE

def padLevel (b : Bool) : PadDrive := if b then .high else .low

/-- Every region is UNBOUND: EXTEST, CLAMP and HIGHZ act only then (R487). -/
def State.allUnbound (s : State) : Bool := (List.range 16).all fun r => s.qstate r == Q.unbound

/-- The drive that the device gives a pad (R105, R366), latches apart. -/
def State.ownDrive (s : State) (p : Nat) : PadDrive :=
  if s.bitF F.padBank_pwrgood (p / 24) = false then .hiZ
  else
    match s.padOwner p with
    | none => .hiZ
    | some r =>
      match (s.pad p).entry with
      | none => .hiZ
      | some e =>
        if s.qstate r = Q.unbound then
          (match PadE.safe e with
           | 0 => .hiZ
           | 1 => .low
           | 2 => .high
           | _ => (s.pad p).kept)
        else if PadE.out e then
          padLevel (((s.cell (64 * PadE.gth e + PadE.cell e)).v.com.s.at (PadE.sw e)).d.getLsbD 0)
        else .hiZ

/-- What stands on a pad: the latch (R440), the boundary register (R487), or the device's own drive. -/
def State.padDrive (s : State) (p : Nat) : PadDrive :=
  if s.bankHeld (p / 24) then (s.pad p).latch
  else
    let boundary := if s.sys.boundary.getLsbD (3 * p + 2) then padLevel (s.sys.boundary.getLsbD (3 * p + 1)) else .hiZ
    match s.sys.jtag, s.allUnbound with
    | .extest, true => boundary
    | .clamp, true => boundary
    | .highz, true => .hiZ
    | _, _ => s.ownDrive p

/-- The pads that a region claims as outputs, and the levels on those that the device drives, as the synchroniser and the
glitch filter of the bank show them (R103, R482; log entry 112). -/
def State.outLevels (s : State) (r : Nat) : BitVec 192 × BitVec 192 :=
  let period := s.len r + s.getN F.qctCfg_gap r
  (List.range 192).foldl (fun (m : BitVec 192 × BitVec 192) p =>
    let output := match (s.pad p).entry with
      | some e => PadE.out e
      | none => false
    if Desc.claims (s.region r).desc p && output && decide (4 + 2 ^ s.getN F.padBank_filt (p / 24) ≤ period) then
      match s.padDrive p with
      | .hiZ => m
      | .low => (m.1 ||| (1#192 <<< p), m.2)
      | .high => (m.1 ||| (1#192 <<< p), m.2 ||| (1#192 <<< p))
    else m) (0, 0)

end Sys2Proof.Machine
end

