-- ==== Sys2Proof/Machine/Quire.lean ====
section
/-!
DEFINITION. The quire of a region: capture, versions, the vote, replay, stretch and token loss (R11 to R45), and what
a commit edge does in the gatherings (R129, R142, R156, R367, R368, R377, R385).
-/
namespace Sys2Proof.Machine

/-! ### Versions (R14 to R16) -/

/-- Working becomes committed, as in LOCAL mode (R18). -/
def Ver.commitLocal {α : Type} (v : Ver α) : Ver α := { com := v.work, pend := none, work := v.work }

/-- Pending becomes committed and working becomes pending (R16). -/
def Ver.rename {α : Type} (v : Ver α) : Ver α := { com := v.pend.getD v.com, pend := some v.work, work := v.work }

/-- Pending and working discarded (R29, R30). -/
def Ver.discard {α : Type} (v : Ver α) : Ver α := { com := v.com, pend := none, work := v.com }

def Lag.fixed {α : Type} (x : α) : Lag α := ⟨x, 0, x, 0⟩

def FolioQueue.commitLocal (q : FolioQueue) : FolioQueue := { q with apCom := q.apWork.new, apPend := none }
def FolioQueue.rename (q : FolioQueue) : FolioQueue :=
  { q with apCom := q.apPend.getD q.apCom, apPend := some q.apWork.new }
def FolioQueue.discard (q : FolioQueue) : FolioQueue := { q with apPend := none, apWork := Lag.fixed q.apCom }

/-- A function on every listed value. -/
def Sparse.mapVals {α : Type} [Inhabited α] [DecidableEq α] (m : Sparse α) (f : α → α) : Sparse α :=
  m.updAll m.keys f

def Gth.commitLocal (x : Gth) : Gth :=
  { x.merge with
    draining := x.working, pending := [], working := [],
    queue := x.queue.mapVals FolioQueue.commitLocal,
    press := x.press.mapVals fun p => { p with acc := p.acc.commitLocal },
    checkW := none, checkP := none,
    sdirty := x.sdirty || x.wroteSW, fdirty := x.fdirty || x.wroteFW,
    wroteSW := false, wroteFW := false, wroteSP := false, wroteFP := false }

def Gth.rename (x : Gth) : Gth :=
  { x.merge with
    draining := x.pending, pending := x.working, working := [],
    queue := x.queue.mapVals FolioQueue.rename,
    press := x.press.mapVals fun p => { p with acc := p.acc.rename },
    checkP := x.checkW, checkW := none,
    sdirty := x.sdirty || x.wroteSP, fdirty := x.fdirty || x.wroteFP,
    wroteSP := x.wroteSW, wroteFP := x.wroteFW, wroteSW := false, wroteFW := false }

def Gth.discard (x : Gth) : Gth :=
  { x with
    pending := [], working := [],
    queue := x.queue.mapVals FolioQueue.discard,
    press := x.press.mapVals fun p => { p with acc := p.acc.discard, stages := [] },
    checkP := none, checkW := none, wroteSW := false, wroteFW := false, wroteSP := false, wroteFP := false }

/-- A function on the versions of every cell and gathering of a region, in one edge. -/
def State.onVersions (s : State) (r : Nat) (fc : Ver CellWords → Ver CellWords) (fg : Gth → Gth) : State :=
  { s with arr := { s.arr with
      cells := s.arr.cells.updAll (s.cellsOf r) (fun c => { c with v := fc c.v }),
      gths := s.arr.gths.updAll (s.gthsOf r) fg } }

/-- Folio returns and accumulate stages still on their way when the leaves have ended (R95, R147). -/
def State.settleRegion (s : State) (r : Nat) : State :=
  let t := 64 * ((s.region r).comp + 1)
  let s := { s with arr := { s.arr with cells := s.arr.cells.updAll (s.cellsOf r) (fun c => c.settle t) } }
  (s.gthsOf r).foldl (fun s g => s.settlePress r g t) s

/-! ### Input capture (R22 to R24) -/

namespace Chan
/-! Entries CHm of a GTH_CTL frame (R151). -/
def entry (x : Gth) (m : Nat) : BitVec 16 := x.frame.extractLsb' (768 + 16 * m) 16
def valid (e : BitVec 16) : Bool := e.getLsbD 15
def out (e : BitVec 16) : Bool := e.getLsbD 14
def side (e : BitVec 16) : Nat := (e.extractLsb' 12 2).toNat
def far (e : BitVec 16) : Nat := (e.extractLsb' 0 6).toNat
def cell (e : BitVec 16) : Nat := (e.extractLsb' 4 6).toNat
def word (e : BitVec 16) : Nat := (e.extractLsb' 0 4).toNat
end Chan

namespace XP
/-! Entries of XPLAN (R170): receive entry m lies at 64 + m. -/
def valid (e : BitVec 64) : Bool := e.getLsbD 63
def dev (e : BitVec 64) : Nat := (e.extractLsb' 56 6).toNat
def slot (e : BitVec 64) : Nat := (e.extractLsb' 32 12).toNat
def word (e : BitVec 64) : Nat := (e.extractLsb' 24 5).toNat
def cell (e : BitVec 64) : Nat := (e.extractLsb' 8 6).toNat
def sw (e : BitVec 64) : Nat := (e.extractLsb' 0 4).toNat
end XP

/-- The hinge channel of a gathering as its neighbour presents it now (R102, R104, R151, R366). -/
def State.hingeNow (s : State) (r g m : Nat) : HingeIn :=
  let e := Chan.entry (s.gth g) m
  if !Chan.valid e || Chan.out e then {}
  else
    match gthSide g (Chan.side e + 1) with
    | none => {}
    | some h =>
      match s.regionOf h with
      | none => {}
      | some f =>
        if f = r then {}
        else if s.qstate f = Q.unbound then { (s.region r).kept.at (64 * g + m) with running := false }
        else
          let o := Chan.entry (s.gth h) (Chan.far e)
          if Chan.valid o && Chan.out o then
            { assigned := true, running := s.running f,
              w := (s.cell (64 * h + Chan.cell o)).v.com.s.at (Chan.word o) }
          else {}

/-- The exchange channels of a gathering, with the words of the frames of quire `q` (R172, R174); a word of a frame
that never came is free. -/
def State.exchangeIn (s : State) (r g q : Nat) (hs : Sparse HingeIn) : Sparse HingeIn × State :=
  (List.range 64).foldl (fun (acc : Sparse HingeIn × State) m =>
    let e := (acc.2.gth g).xplan.at (64 + m)
    if XP.valid e then
      match (acc.2.region r).frames.find? fun f =>
          f.src == XP.dev e && f.slot == XP.slot e && f.quire == q % 2 ^ 13 && !f.poison with
      | some f => (acc.1.put (64 * g + m) { assigned := true, running := true, w := gen (f.words.getD (XP.word e) 0) }, acc.2)
      | none =>
        let (d, s) := acc.2.draw 40
        (acc.1.put (64 * g + m) { assigned := true, running := true, w := gen d }, s)
    else acc) (hs, s)

/-- The levels captured on the pads that the region claims (R353), of powered banks (R103): `pads` on an input; on an output
its own level, which is the one of the quire that ends where a commit edge changes it now (R482). -/
def State.padInputs (s : State) (r : Nat) (pads : BitVec 192) : BitVec 192 :=
  let claimed : BitVec 192 := Desc.padmask (s.region r).desc
  let own := (s.region r).shown.getD (s.outLevels r)
  let pads := (pads &&& ~~~own.1) ||| own.2
  let powered : BitVec 192 := (List.range 8).foldl (fun m b =>
    if s.bitF F.padBank_pwrgood b then m ||| (BitVec.ofNat 192 (2 ^ 24 - 1) <<< (24 * b)) else m) 0
  pads &&& claimed &&& powered

/-- The capture that opens quire `n`: pads, hinges, CRP and watermarks, and the exchange words of quire n − 1; of the quires
before quire 1, which sent none, the words are free. -/
def State.captureAll (s : State) (r n : Nat) (pads : BitVec 192) : Capture × State :=
  let gs := s.gthsOf r
  let hs := gs.foldl (fun (m : Sparse HingeIn) g =>
    (List.range 64).foldl (fun m ch => m.put (64 * g + ch) (s.hingeNow r g ch)) m) {}
  let crp := gs.foldl (fun (m : Sparse Nat) g =>
    (List.range 4).foldl (fun m q => m.put (4 * g + q) ((s.gth g).queue.at q).rp) m) {}
  let wm := gs.foldl (fun (m : Sparse (Nat × Nat)) g =>
    (List.range 4).foldl (fun m q =>
      m.put (4 * g + q) (s.getN F.gthQwm_high (4 * g + q), s.getN F.gthQwm_low (4 * g + q))) m) {}
  let pads := s.padInputs r pads
  let (hs, s) := if s.systemMode r then
      gs.foldl (fun acc g => acc.2.exchangeIn r g (n - 1) acc.1) (hs, s) else (hs, s)
  ({ quire := n, pads, hinges := hs, crp, wm }, s)

/-! ### Casing-in stages and the reset word (R367, R368) -/

namespace Desc
/-! Fields of a region descriptor (R353). -/
def rstqEn (d : BitVec 512) : Bool := d.getLsbD 111
def rstqQue (d : BitVec 512) : Nat := (d.extractLsb' 96 2).toNat
def rstqGth (d : BitVec 512) : Nat := (d.extractLsb' 80 12).toNat
end Desc

/-- The stage that the quire about to open begins, where one begins. -/
def State.advanceStage (s : State) (r n : Nat) : State :=
  let gap := (s.region r).caseGap
  let toWe := s.stage r = 1 ∧ s.systemMode r = false ∧ n = 1 + gap
  let toRst := s.stage r = 2 ∧ n = (if s.systemMode r then 1 + gap else 1 + 2 * gap)
  if toWe then s.putN F.bndCase_stage r 2
  else if toRst then
    let s := (s.putN F.bndCase_stage r 3).putN F.bndStat_state r 6
    if s.qstate r = Q.casing then s.putN F.qctStatus_state r Q.run else s
  else s

/-- The reset word, pushed in the quire before the RST quire (R368). -/
def State.pushReset (s : State) (r n : Nat) : State :=
  let d := (s.region r).desc
  let gap := (s.region r).caseGap
  let due := n = (if s.systemMode r then gap else 2 * gap)
  if Desc.rstqEn d && s.stage r == 2 && decide due &&
      decide (s.ringCount (Desc.rstqGth d) (Desc.rstqQue d) < s.qSize (Desc.rstqGth d) (Desc.rstqQue d)) then
    (s.ringPush (Desc.rstqGth d) (Desc.rstqQue d) 1).gthEvents (Desc.rstqGth d)
  else s

/-! ### Opening a quire -/

/-- A new computation of quire `n`: a fresh capture, or the kept one with the exchange words sent again (R24). -/
def State.openQuire (s : State) (r n : Nat) (fresh : Bool) (pads : BitVec 192) : State :=
  let s := s.updRegion r fun x => { x with comp := x.comp + 1, live := true, waiting := false }
  let s := s.putN F.qctExec_count r n
  let s := s.advanceStage r n
  if fresh || !((s.region r).caps.any fun c => c.quire == n) then
    let (cap, s) := s.captureAll r n pads
    let s := s.updRegion r fun x => { x with caps := cap :: x.caps.filter (fun c => c.quire != n), shown := none }
    let s := { s with arr := { s.arr with gths := s.arr.gths.updAll (s.gthsOf r) fun g =>
      { g with queue := g.queue.mapVals fun q => { q with crp := q.rp } } } }
    s.pushReset r n
  else if s.systemMode r && decide (1 < n) && ((s.region r).frames.any fun f => f.quire == (n - 1) % 2 ^ 13) then
    let cap := s.capture r
    let (hs, s) := (s.gthsOf r).foldl (fun acc g => acc.2.exchangeIn r g (n - 1) acc.1) (cap.hinges, s)
    s.updRegion r fun x => { x with caps := { cap with hinges := hs } :: x.caps.filter fun c => c.quire != n }
  else s

/-- RUN, REPLAY or STRETCH. -/
def State.inRun (s : State) (r : Nat) : Bool :=
  s.qstate r == Q.run || s.qstate r == Q.replay || s.qstate r == Q.stretch

/-- THR idle cycles after a commit edge (R435), which count in QCT_STRETCH. -/
def State.throttled (s : State) (r : Nat) : State :=
  if s.inRun r then s.addF F.qctStretch_cycles r (s.getN F.pwrStatus_thr 0) else s

/-- The next quire after a commit edge, unless the region pauses there (R434). -/
def State.openNext (s : State) (r n : Nat) (fresh : Bool) (pads : BitVec 192) : State :=
  let s := s.throttled r
  if (s.region r).pauseReq then
    s.updRegion r fun x =>
      { x with paused := true, pauseReq := false, live := false, next := n, nextFresh := fresh, shown := none }
  else s.openQuire r n fresh pads

/-! ### The commit edge -/

/-- The design check of a committed quire (R156). -/
def State.recordCheck (s : State) (g n : Nat) (c : Option DesignCheck) : State :=
  match c with
  | none => s
  | some d =>
    let s := s.addF F.gthDchk_count g 1
    if s.bitF F.gthDchk_pend g then s
    else (((s.setF F.gthDchk_pend g).putN F.gthDchk_cell g d.cell).putN F.gthDchk_leaf g d.leaf).putN F.gthDchk_quire g n

/-- The events of a region's queues, evaluated after a commit edge (R142). -/
def State.queueEvents (s : State) (r : Nat) : State :=
  (s.gthsOf r).foldl (fun s g => s.gthEvents g) s

/-- A COMMIT vote that commits quire `n` (R16, R18): the versions renamed, the count, ATTEMPT and LASTVOTE. -/
def State.commitEdge (s : State) (r n : Nat) : State :=
  let sys := s.systemMode r
  let shown := s.outLevels r
  let s := s.updRegion r fun x => { x with shown := some shown }
  let s := (s.gthsOf r).foldl (fun s g =>
    s.recordCheck g n (if sys then (s.gth g).checkP else (s.gth g).checkW)) s
  let s := if sys then s.onVersions r Ver.rename Gth.rename else s.onVersions r Ver.commitLocal Gth.commitLocal
  let s := ((s.putN F.qctCommitted_count r n).putN F.qctStatus_attempt r 0).putN F.qctStatus_lastvote r 1
  let s := s.updRegion r fun x =>
    { x with fails := x.fails.filter (fun f => f.quire != n), caps := x.caps.filter fun c => decide (n < c.quire),
             recomputes := false }
  let s := if s.stage r = 3 ∧ s.qstate r ≠ Q.run then s.putN F.qctStatus_state r Q.run else s
  s.queueEvents r

/-- A readback or capture that waits for the region to execute no leaves begins (R382, R389). -/
def State.startOps (s : State) (r : Nat) : State :=
  let s := if s.getN F.qctRbStat_state r = 1 then s.putN F.qctRbStat_state r 2 else s
  if s.getN F.qctBmkStat_state r = 1 then s.putN F.qctBmkStat_state r 2 else s

/-- The region enters HELD (R377). -/
def State.enterHeld (s : State) (r : Nat) : State :=
  let s := s.onVersions r Ver.discard Gth.discard
  let s := (s.putN F.qctStatus_state r Q.held).clrF F.qctHold_pend r
  (s.updRegion r fun x =>
    { x with live := false, waiting := false, frames := [], seen := [], pauseReq := false, recomputes := false,
             shown := none }).startOps r

/-- A hold whose target the committed quire has reached (R375). -/
def State.holdDue (s : State) (r n : Nat) : Bool :=
  s.bitF F.qctHold_pend r &&
    (s.getF F.qctHold_quire r == 0 || cwAtOrBeyond (s.getF F.qctHold_quire r) (BitVec.ofNat 40 n))

/-! ### Replay, QFAULT and token loss (R29 to R32) -/

/-- The log entry of a vote: CODE, and REGION, CAUSE and the quire voted on (R32, R472). -/
def State.logVote (s : State) (code r n : Nat) : State :=
  s.logEntry 0x05 code (r + s.getN F.qctFault_cause r * 2 ^ 4 + (n % 2 ^ 38) * 2 ^ 10)

/-- QCT_FAULT takes a failure (R32, R181). -/
def State.recordFault (s : State) (r n : Nat) (f : Option Fail) : State :=
  match f with
  | none => s
  | some f => s.recordFail r n f

/-- QFAULT (R31): committed state and captured inputs kept, everything newer discarded. -/
def State.enterQfault (s : State) (r n : Nat) : State :=
  let s := s.onVersions r Ver.discard Gth.discard
  let pend := s.bitF F.qctHold_pend r
  let s := (s.putN F.qctStatus_state r Q.qfault).setF F.qctStatus_qfault_ev r
  let s := if pend then (s.clrF F.qctHold_pend r).setF F.qctStatus_cfg_rej r else s
  let s := s.updRegion r fun x => { x with live := false, waiting := false, frames := [], seen := [], fails := [], pauseReq := false }
  ((s.logVote 0x8001 r n).signalOwner (r + 1)).startOps r

/-- A recomputation that would read a capture of which both copies fail (R23). -/
def State.captureFault (s : State) (r n : Nat) : State :=
  let s := s.recordFault r n (some { quire := n, dev := s.ownDev r, cause := 0x08, gth := 0 })
  s.enterQfault r n

/-- What a REPLAY vote on quire `n` leaves of the frames that have come: none of quire n + 1, and of quire n those of the
recomputation, whose ATT is `att` (R174). -/
def attemptKept (n att q13 a : Nat) : Bool := q13 != (n + 1) % 2 ^ 13 && (q13 != n % 2 ^ 13 || decide (att ≤ a))

/-- A REPLAY vote on quire `n` (R29 to R32): recomputed, or QFAULT after three recomputations. -/
def State.replayVote (s : State) (r n : Nat) (f : Option Fail) (bad : BitVec 2) : State :=
  let s := s.recordFault r n f
  let s := (s.addF F.qctReplays_count r 1).putN F.qctStatus_lastvote r 2
  let s := s.logVote 0x4001 r n
  if s.getN F.qctStatus_attempt r = 3 then s.enterQfault r n
  else
    let s := s.onVersions r Ver.discard Gth.discard
    let att := s.getN F.qctStatus_attempt r + 1
    let s := s.putN F.qctStatus_attempt r att
    let s := if s.qstate r = Q.casing ∧ s.stage r ≠ 3 then s else s.putN F.qctStatus_state r Q.replay
    let s := s.updRegion r fun x =>
      { x with fails := [], recomputes := true,
               frames := x.frames.filter (fun f => attemptKept n att f.quire f.att),
               seen := x.seen.filter (fun e => attemptKept n att e.quire e.att),
               tokens := x.tokens.filter fun t =>
                 t.quire != (n + 1) % 2 ^ 40 && (t.quire != n % 2 ^ 40 || decide (att ≤ t.att)) }
    if bad = 3 then s.captureFault r n else s.openQuire r n false 0

/-! ### LOCAL vote (R18) -/

def State.localVote (s : State) (r : Nat) (pads : BitVec 192) (bad : BitVec 2) : State :=
  let n := s.exec r
  match s.firstFail r n with
  | some f => s.replayVote r n (some f) bad
  | none =>
    let s := s.commitEdge r n
    if s.holdDue r n && (s.qstate r == Q.run) then s.enterHeld r
    else s.openNext r (n + 1) true pads

/-! ### SYSTEM vote (R19 to R21, R30, R176, R181) -/

namespace Relay
def valid (e : BitVec 32) : Bool := e.getLsbD 31
def src (e : BitVec 32) : Nat := (e.extractLsb' 24 6).toNat
def dst (e : BitVec 32) : Nat := (e.extractLsb' 16 6).toNat
def slot (e : BitVec 32) : Nat := (e.extractLsb' 0 12).toNat
end Relay

/-- The frames that the device's receive and relay entries name: SRC, DST, SLOT (R176). -/
def State.expectedFrames (s : State) (r : Nat) : List (Nat × Nat × Nat) :=
  let recv := (s.gthsOf r).flatMap fun g => (List.range 64).filterMap fun m =>
    let e := (s.gth g).xplan.at (64 + m)
    if XP.valid e then some (XP.dev e, s.devIdx, XP.slot e) else none
  let relay := s.arr.relay.entries.filterMap fun p =>
    if Relay.valid p.2 then some (Relay.src p.2, Relay.dst p.2, Relay.slot p.2) else none
  recv ++ relay

def State.missingFrames (s : State) (r q : Nat) : List (Nat × Nat × Nat) :=
  let att := s.attOf r q
  (s.expectedFrames r).filter fun e => !((s.region r).seen.any fun f =>
    f.quire == q % 2 ^ 13 && f.src == e.1 && f.dst == e.2.1 && f.slot == e.2.2 && decide (att ≤ f.att))

/-- Quire `q` is charged with a failed exchange word (R175). -/
def State.exchangeCharged (s : State) (r q : Nat) : Bool :=
  (s.region r).fails.any fun f => f.quire == q && f.cause == 0x06

/-- Poison frames in place of the missing frames of a charged quire, toward where they would have been relayed
(R176). -/
def State.sendPoison (s : State) (r q : Nat) : State :=
  (s.missingFrames r q).foldl (fun s e =>
    let f : SeenFrame := { quire := q % 2 ^ 13, src := e.1, dst := e.2.1, slot := e.2.2, att := s.attOf r q }
    let s := s.updRegion r fun x => { x with seen := f :: x.seen }
    if e.2.1 = s.devIdx then s
    else s.sendExch e.2.1 (schedFrame 2 e.2.2 e.1 e.2.1 0 (s.getN F.qctStatus_attempt r) q [])) s

/-- The token complete with the device's own status (R180, R181). -/
def State.fullToken (s : State) (r n : Nat) : Token := (s.tokenOf r n).merge (s.ownToken r n)

/-- What the commit point that ends quire e = QCT_EXEC needs: every frame of e (or e charged), and the tokens for the
quire that is due. -/
def State.voteReady (s : State) (r : Nat) : Bool :=
  let e := s.exec r
  let framesOk := (s.missingFrames r e).isEmpty || s.exchangeCharged r e
  let due := s.getN F.qctCommitted_count r + 1
  let t := s.fullToken r due
  framesOk && (decide (due = e) || (t.ok ||| t.rp) == s.sysMask)

/-- QUIRE of the quires whose frames count while quire `e` is computed: the one before, for its recomputation, and two after. -/
def quiresOpen (e : Nat) : List Nat := [(e - 1) % 2 ^ 13, e % 2 ^ 13, (e + 1) % 2 ^ 13, (e + 2) % 2 ^ 13]

/-- The vote of a SYSTEM region taken: nothing to commit, COMMIT, or REPLAY. -/
def State.systemVote (s : State) (r : Nat) (pads : BitVec 192) (bad : BitVec 2) : State :=
  let e := s.exec r
  let s := s.sendPoison r e
  let n := s.getN F.qctCommitted_count r + 1
  let s := s.updRegion r fun x =>
    { x with waiting := false, seen := x.seen.filter fun f => (quiresOpen e).contains f.quire,
             frames := x.frames.filter fun f => (quiresOpen e).contains f.quire }
  let s := if s.qstate r = Q.stretch then s.putN F.qctStatus_state r (if (s.region r).recomputes then Q.replay else Q.run)
    else s
  if n = e then
    let s := s.onVersions r Ver.rename Gth.rename
    let s := s.putN F.qctStatus_lastvote r 3
    let fresh := !((s.region r).caps.any fun c => c.quire == e + 1)
    if !fresh && bad == 3 then s.captureFault r (e + 1) else s.openNext r (e + 1) fresh pads
  else
    let t := s.fullToken r n
    let s := s.updRegion r fun x =>
      { x with tokens := x.tokens.filter (fun u => u.quire != n % 2 ^ 40 || decide (t.att < u.att)),
               finals := (t :: x.finals.filter fun u => u.quire != t.quire).take 2 }
    if t.rp = 0 then
      let s := s.commitEdge r n
      match t.holdq with
      | some h => if h ≤ n then s.enterHeld r else s.openNext r (e + 1) true pads
      | none => s.openNext r (e + 1) true pads
    else s.replayVote r n t.fault bad

/-- A region that waits at its commit point votes once its last token or frame is there (R25). -/
def State.retryVote (s : State) (r : Nat) (pads : BitVec 192) (bad : BitVec 2) : State :=
  if (s.region r).waiting && s.voteReady r then s.systemVote r pads bad else s

/-- The commit point of a region (R12): LOCAL regions vote at once; a SYSTEM region votes when it has every token and
frame, and enters STRETCH otherwise (R25). In stage OUT a SYSTEM region takes no vote (R195, R367). A region that
already waits votes here once what it waits for has come. -/
def State.commitPoint (s : State) (r : Nat) (pads : BitVec 192) (bad : BitVec 2) : State :=
  if !s.executes r then s.retryVote r pads bad
  else
    let s := s.settleRegion r
    if s.systemMode r = false then s.localVote r pads bad
    else if s.stage r = 1 then
      (s.updRegion r fun x => { x with fails := [] }).openQuire r 0 true pads
    else if s.voteReady r then s.systemVote r pads bad
    else
      let s := s.updRegion r fun x => { x with live := false, waiting := true }
      if s.qstate r = Q.casing then s else s.putN F.qctStatus_state r Q.stretch

/-- The region in SYSTEM mode (R159). -/
def State.systemRegion (s : State) : Option Nat := (List.range 16).find? fun r => s.systemMode r && s.len r != 0

/-! ### Commands -/

/-- COMMIT_VOTE (R16). -/
def execCommitVote (r : RegionId) (pads : BitVec 192) (bad : BitVec 2) (s : State) : Result :=
  .next (s.commitPoint r pads bad)

/-- TOKEN_TIMEOUT (R27): a region that still waits enters TOKEN_LOST. -/
def State.tokenTimeout (s : State) (r : Nat) : State :=
  if (s.region r).waiting then
    let n := s.getN F.qctCommitted_count r + 1
    let s := (s.putN F.qctStatus_state r Q.tokenLost).setF F.qctStatus_token_lost_ev r
    let s := s.updRegion r fun x => { x with waiting := false, live := false, frames := [], seen := [] }
    (s.logVote 0xA001 r n).signalOwner (r + 1)
  else s

def execTokenTimeout (r : RegionId) (s : State) : Result := .next (s.tokenTimeout r)

/-- The PF, or the VF that owns region `r` (R43, R270). -/
def ownsRegion (fn : FnId) (r : RegionId) : Bool := fn.val == 0 || fn.val == r.val + 1

/-- RETRY in QFAULT or TOKEN_LOST (R33): recomputation from committed n − 1 with the kept inputs. -/
def State.retryRegion (s : State) (r : Nat) (bad : BitVec 2) : State :=
  let n := s.getN F.qctCommitted_count r + 1
  let s := s.onVersions r Ver.discard Gth.discard
  let s := s.putN F.qctStatus_attempt r 0
  let s := s.putN F.qctStatus_state r (if s.stage r = 1 ∨ s.stage r = 2 then Q.casing else Q.replay)
  let s := s.updRegion r fun x => { x with fails := [], tokens := [], recomputes := true }
  if bad = 3 then s.captureFault r n else s.openQuire r n false 0

/-- SPINE_TIME in ps. -/
def State.nowPs (s : State) : Int := 10000 * ((s.reg .timSpine 0).toNat : Int)

/-- The moment at which a system command acts whose W2 is `w2` here and now: DIAM × HOPMAX_PS − W2 ps on (R190). -/
def State.actsAt (s : State) (w2 : Nat) : Int :=
  s.nowPs + (s.getN F.fstTiming_diam 0 * s.getN F.fstTiming_hopmax_ps 0 : Nat) - (w2 : Int)

/-- A system command that waits for its moment. -/
def State.schedule (s : State) (c : SysCmd) : State :=
  { s with fst := { s.fst with scheduled := s.fst.scheduled ++ [c] } }

/-- W0 of a system command of this device (R189), and the count that it takes. -/
def State.commandHead (s : State) (cmd : Nat) : Word × State :=
  let q := s.fst.cseq
  (BitVec.ofNat 40 (cmd + s.devIdx * 2 ^ 8 + q * 2 ^ 24), { s with fst := { s.fst with cseq := (q + 1) % 2 ^ 16 } })

/-- A system command sent by this device on every port that is up, and scheduled here (R189, R190). -/
def State.sendSystem (s : State) (cmd : Nat) (w1 : Word) : State :=
  let d := s.devIdx
  let q := s.fst.cseq
  let (w0, s) := s.commandHead cmd
  let s := { s with fst := { s.fst with seenCmds := (d, q) :: s.fst.seenCmds } }.schedule
    { cmd, origin := d, cseq := q, w1, due := s.actsAt 0 }
  let f := asyncFrame 2 0 d 3 0 [w0, w1, 0]
  s.portsUp.foldl (fun s p => s.updPort p fun x => { x with txSys := x.txSys ++ [f] }) s

/-- QCT_RETRY (R33): ignored, with CFG_REJ and a log entry, in any other state; `bad` says which copies of the capture of a
LOCAL region fail as the recomputation reads it (R23). -/
def State.qctRetry (s : State) (fn : FnId) (r : RegionId) (v : BitVec 64) (bad : BitVec 2) : State :=
  if ownsRegion fn r = false then s.ignored fn .qctCtl r
  else if v.getLsbD 0 = false then s
  else if s.qstate r = Q.qfault ∨ s.qstate r = Q.tokenLost then
    if s.systemMode r then s.sendSystem 0x02 (BitVec.ofNat 40 (s.getN F.qctCommitted_count r + 1))
    else s.retryRegion r bad
  else (s.logRefused fn (RegId.qctCtl.offset r)).setF F.qctStatus_cfg_rej r

def execQctRetry (fn : FnId) (r : RegionId) (w : RetryWrite) (s : State) : Result :=
  .next (s.bar .qctCtl r fun s => s.qctRetry fn r w.v w.bad)

/-- QCT_INJECT (R41, R42): a failure of cause 0x09 charged to the quire in QCT_EXEC, whose commit point comes next. -/
def State.qctInject (s : State) (fn : FnId) (r : RegionId) (v : BitVec 64) : State :=
  if ownsRegion fn r = false then s.ignored fn .qctCtl r
  else if v.getLsbD 1 = false then s
  else
    let q := s.qstate r
    if q = Q.casing ∨ q = Q.run ∨ q = Q.stretch ∨ q = Q.replay then s.charge r 0x09 0
    else (s.logRefused fn (RegId.qctCtl.offset r)).setF F.qctStatus_cfg_rej r

def execQctInject (fn : FnId) (r : RegionId) (v : BitVec 64) (s : State) : Result :=
  .next (s.bar .qctCtl r fun s => s.qctInject fn r v)

end Sys2Proof.Machine
end

