-- ==== Sys2Proof/Machine/Regions.lean ====
section
/-!
DEFINITION. What a region holds and how it is taken out of service: descriptor, pads (R357, R366, R440), hold and release
(R375 to R380), UNBOUND (R34, R362), and the abort of a readback, capture or restore (R269, R393).
-/
namespace Sys2Proof.Machine

/-! ### The descriptor (R353) -/

namespace Desc
def region (d : BitVec 512) : Nat := (d.extractLsb' 0 8).toNat
def qmask (d : BitVec 512) : Nat := (d.extractLsb' 8 8).toNat
def gx0 (d : BitVec 512) : Nat := (d.extractLsb' 16 8).toNat
def gx1 (d : BitVec 512) : Nat := (d.extractLsb' 24 8).toNat
def gy0 (d : BitVec 512) : Nat := (d.extractLsb' 32 8).toNat
def gy1 (d : BitVec 512) : Nat := (d.extractLsb' 40 8).toNat
def len (d : BitVec 512) : Nat := (d.extractLsb' 48 8).toNat
def mode (d : BitVec 512) : Nat := (d.extractLsb' 56 8).toNat
def gap (d : BitVec 512) : Nat := (d.extractLsb' 64 16).toNat
def rstqWord (d : BitVec 512) : BitVec 32 := d.extractLsb' 80 32
def minGap (d : BitVec 512) : Nat := (d.extractLsb' 112 8).toNat
def diam (d : BitVec 512) : Nat := (d.extractLsb' 128 8).toNat
def hopmax (d : BitVec 512) : Nat := (d.extractLsb' 144 16).toNat
def xlatPs (d : BitVec 512) : Nat := (d.extractLsb' 160 32).toNat
def vsel (d : BitVec 512) (b : Nat) : Nat := (d.extractLsb' (384 + 8 * b) 8).toNat
def claimsBank (d : BitVec 512) (b : Nat) : Bool := (List.range 24).any fun i => claims d (24 * b + i)
end Desc

/-- A gathering of a rectangle repeated in the quadrants of a mask. -/
def inRect (qmask gx0 gx1 gy0 gy1 g : Nat) : Bool :=
  qmask.testBit (gthQ g) && decide (gx0 ≤ gthX g ∧ gthX g ≤ gx1 ∧ gy0 ≤ gthY g ∧ gthY g ≤ gy1)

def inDesc (d : BitVec 512) (g : Nat) : Bool :=
  inRect (Desc.qmask d) (Desc.gx0 d) (Desc.gx1 d) (Desc.gy0 d) (Desc.gy1 d) g

/-- The gatherings of a descriptor's rectangle, in increasing order. -/
def descGths (d : BitVec 512) : List Nat := (List.range 4096).filter (inDesc d)

/-- The south-west gathering, to which PAD and XRELAY frames are addressed (R356). -/
def southWest (d : BitVec 512) : Nat :=
  gthNo ((List.range 4).find? (fun q => (Desc.qmask d).testBit q) |>.getD 0) (Desc.gx0 d) (Desc.gy0 d)

/-! ### Pads: latches, voltages -/

/-- Every pad of a bank latches its level and direction in AO (R440). -/
def State.latchBank (s : State) (b : Nat) : State :=
  if s.bankHeld b then s
  else
    let s0 := s
    let s := (List.range 24).foldl (fun (s : State) i =>
      s.updPad (24 * b + i) fun x => { x with latch := s0.padDrive (24 * b + i) }) s
    s.putF F.padHold_held 0 (s.getF F.padHold_held 0 ||| (1#8 <<< b))

/-- A bank's voltage set (R483): a change takes PWRGOOD away until its ramp ends; a latched bank keeps its own. -/
def State.setBank (s : State) (b v : Nat) : State :=
  if s.bankHeld b then { s with sys := { s.sys with bankNext := s.sys.bankNext.put b (some v) } }
  else if s.getN F.padBank_vsel b = v then s
  else (s.putN F.padBank_vsel b v).clrF F.padBank_pwrgood b

/-- A bank in which no region claims a pad loses its voltage (R483). -/
def State.dropBanks (s : State) : State :=
  (List.range 8).foldl (fun (s : State) b =>
    if ((List.range 24).any fun i => (s.padOwner (24 * b + i)).isSome) = true then s else s.setBank b 0) s

/-! ### Meter run (R397) -/

/-- The METER_RUN line: the meter has power and an unused signature. -/
def State.meterRun (s : State) : Bool := s.sys.meter.powered && decide (s.sys.meter.leafIndex < 2 ^ 30)

/-! ### Hold and release (R375 to R380) -/

def State.op (s : State) (r : Nat) : Option RegionOp := s.sys.ops.at r
def State.setOp (s : State) (r : Nat) (o : Option RegionOp) : State :=
  { s with sys := { s.sys with ops := s.sys.ops.put r o } }

/-- A hold requested at a target quire. -/
def State.requestHold (s : State) (r q : Nat) : State := (s.setF F.qctHold_pend r).putN F.qctHold_quire r q

/-- A hold requested by the hub for a region that runs and has none pending (R397, R429). -/
def State.hubHold (s : State) (r : Nat) : State :=
  if s.inRun r && !s.bitF F.qctHold_pend r then s.requestHold r 0 else s

/-- R379, R397: a release is refused. -/
def State.releaseRefused (s : State) (r : Nat) : Bool :=
  s.qstate r != Q.held || (s.gthsOf r).any (fun g => s.bitF F.gthCfg_unloaded g) ||
    s.bitF F.qctBmkStat_rbad r || (s.op r).isSome || !s.meterRun

/-- Quire n + 1 opens: with a fresh capture in LOCAL mode, with the kept inputs in SYSTEM mode (R379). -/
def State.resume (s : State) (r : Nat) (pads : BitVec 192) : State :=
  let n := s.getN F.qctCommitted_count r
  let s := (s.putN F.qctStatus_attempt r 0).putN F.qctStatus_state r Q.run
  s.openQuire r (n + 1) (!s.systemMode r) pads

/-- RELEASE of a system, as it acts on this device (R380). -/
def State.releaseAct (s : State) (r w1 : Nat) (pads : BitVec 192) : State :=
  if s.qstate r = Q.held ∧ (s.getN F.qctCommitted_count r + 1) % 2 ^ 40 = w1 then s.resume r pads
  else s.logOther .qctHold r

/-- A free level for each pad: what stands on the pads as a capture opens that brings no levels of its own. -/
def State.freePads (s : State) : BitVec 192 × State := s.draw 192

/-- The end of an operation that had a hold of its own (R269, R382): a hold not yet in effect is withdrawn, one in effect is
released where R379 permits. -/
def State.endOwnHold (s : State) (r : Nat) (own : Bool) (pads : BitVec 192) : State :=
  if !own then s
  else if s.bitF F.qctHold_pend r then s.clrF F.qctHold_pend r
  else if s.releaseRefused r then s
  else s.resume r pads

/-! ### Bookmark slots -/

def State.index (s : State) (r k : Nat) : Option BookIndex := s.sys.indexes.at (64 * r + k)

/-- The chain of slots from `k` through its parents (R388). -/
def State.chain (s : State) (r : Nat) : Nat → Nat → List Nat
  | 0, _ => []
  | fuel + 1, k =>
    k :: match s.index r k with
      | some x => (match x.parent with
        | some p => s.chain r fuel p
        | none => [])
      | none => []

def State.slotValid (s : State) (r k : Nat) : Bool := (s.getF F.qctBmkValid_valid r).getLsbD k
def State.dropSlot (s : State) (r k : Nat) : State :=
  s.putF F.qctBmkValid_valid r (s.getF F.qctBmkValid_valid r &&& ~~~(1#64 <<< k))

/-! ### Abort of an operation (R269, R393) -/

/-- The operation of a region ends with CODE 0x05. -/
def State.abortOp (s : State) (r : Nat) (pads : BitVec 192) : State :=
  match s.op r with
  | none => s
  | some o =>
    let s := s.setOp r none
    match o.kind with
    | .readback =>
      let s := ((s.putN F.qctRbStat_state r 4).putN F.qctRbStat_code r 5).setF F.qctRbStat_done_ev r
      s.endOwnHold r o.ownHold pads
    | .capture =>
      let s := ((s.putN F.qctBmkStat_state r 5).putN F.qctBmkStat_code r 5).setF F.qctBmkStat_done_ev r
      (s.dropSlot r o.slot).endOwnHold r o.ownHold pads
    | .restore =>
      let s := ((s.putN F.qctBmkStat_state r 5).putN F.qctBmkStat_code r 5).setF F.qctBmkStat_done_ev r
      (s.setF F.qctBmkStat_rbad r).putN F.qctStatus_state r Q.held

/-! ### UNBOUND -/

/-- Every mark that names a queue of the region is voided; one that no commit has met is lost (R302). -/
def State.voidMarks (s : State) (r : Nat) : State :=
  let void (m : Mark) : Mark :=
    if s.regionOf (m.queue / 4) == some r then { m with valid := false, lost := m.lost || !s.markMet m } else m
  s.mapItems fun x => { x with marks := x.marks.map void }

/-- The neighbours keep what the region's hinge channels presented (R366). -/
def State.keepHinges (s : State) (r : Nat) : State :=
  if s.qstate r = Q.unbound then s
  else
    let s0 := s
    (List.range 16).foldl (fun (s : State) f =>
      if f = r then s
      else
        (s0.gthsOf f).foldl (fun (s : State) g =>
          (List.range 64).foldl (fun (s : State) m =>
            match gthSide g (Chan.side (Chan.entry (s0.gth g) m) + 1) with
            | some h =>
              if s0.regionOf h == some r then
                s.updRegion f fun x => { x with kept := x.kept.put (64 * g + m) (s0.hingeNow f g m) }
              else s
            | none => s) s) s) s

/-- Region r enters UNBOUND (R34): its wire falls, its quire state is gone, its marks are voided. -/
def State.unbind (s : State) (r : Nat) : State :=
  let s := s.keepHinges r
  let s := s.abortOp r 0
  let s := s.voidMarks r
  let s := ((s.putN F.qctStatus_state r Q.unbound).clrF F.qctHold_pend r).putN F.qctStatus_attempt r 0
  let s := ((s.putN F.qctStatus_lastvote r 0).putN F.qctCommitted_count r 0).putN F.qctExec_count r 0
  let s := s.putN F.bndCase_stage r 0
  let s := s.updRegion r fun x =>
    { x with live := false, waiting := false, paused := false, pauseReq := false, fails := [], caps := [],
             tokens := [], finals := [], frames := [], seen := [] }
  s.settle

/-! ### Casing-in (R367) -/

/-- R367, R397: casing-in does not begin. -/
def State.caseRefused (s : State) (r : Nat) : Bool :=
  decide (s.getN F.bndCase_gap r < Desc.minGap (s.region r).desc) || s.len r == 0 || !s.meterRun

/-- Stage OUT begins; a SYSTEM region releases BOUND_N (R194). -/
def State.beginCasing (s : State) (r : Nat) : State :=
  let (pads, s) := s.freePads
  let s := ((s.putN F.bndCase_stage r 1).putN F.bndStat_state r 5).putN F.qctStatus_state r Q.casing
  let s := ((s.putN F.qctCommitted_count r 0).putN F.qctStatus_attempt r 0).putN F.qctStatus_lastvote r 0
  let s := s.updRegion r fun x => { x with caseGap := s.getN F.bndCase_gap r }
  if s.systemMode r then
    let s := { s with fst := { s.fst with pull := false } }
    (s.putN F.fstBound_state 0 1).openQuire r 0 true pads
  else s.openQuire r 1 true pads

end Sys2Proof.Machine
end

