-- ==== Sys2Proof/Machine/Image.lean ====
section
/-!
DEFINITION. Binding images (R351 to R358): their parts, and the checks of steps 0 to 3 of R360 and of R416.
-/
namespace Sys2Proof.Machine

def bytesAt (bs : List Byte) (at_ n : Nat) : List Byte := (bs.drop at_).take n
def leAt (bs : List Byte) (at_ n : Nat) : Nat := ofBytes (bytesAt bs at_ n)

/-! ### Header (R352) -/

namespace Img
def magic : List Byte := [0x5A, 0x59, 0x42, 0x4E, 0x44, 0x49, 0x0D, 0x0A]
def kind (bs : List Byte) : Nat := leAt bs 13 1
def anchor (bs : List Byte) : Nat := leAt bs 16 1
def nreg (bs : List Byte) : Nat := leAt bs 17 1
def nframe (bs : List Byte) : Nat := leAt bs 20 4
def siglen (bs : List Byte) : Nat := leAt bs 24 4
def full : Nat := 0
def region : Nat := 1
def awl : Nat := 2
def endpaper : Nat := 3
/-- Where the manifest, the signature and the first frame record begin. -/
def manifestAt (bs : List Byte) : Nat := 32 + 1024 * nreg bs
def sigAt (bs : List Byte) : Nat := manifestAt bs + 40 * nframe bs
def framesAt (bs : List Byte) : Nat := sigAt bs + siglen bs
end Img

/-- Step 1 of R360 on the 32 fixed bytes, for context `x` and source `srcsel`, `src`: the CODE, 0 where all pass. -/
def State.headerCode (s : State) (x srcsel src : Nat) (bs : List Byte) : Nat :=
  let k := Img.kind bs
  let rev := s.getN F.hubId_sirev_maj 0 * 16 + s.getN F.hubId_sirev_min 0
  let kindOk :=
    if x < 16 then k == Img.region
    else k == Img.full || (x == 16 && k == Img.awl) || (x == 16 && k == Img.endpaper && srcsel == 2 && src == 2)
  let nregOk := if k = Img.region then Img.nreg bs == 1 else if k = Img.awl then Img.nreg bs == 0
    else decide (1 ≤ Img.nreg bs ∧ Img.nreg bs ≤ 16)
  if bytesAt bs 0 8 ≠ Img.magic ∨ leAt bs 8 2 ≠ 1 ∨ leAt bs 18 2 ≠ 0 ∨ leAt bs 28 4 ≠ 0 then 0x02
  else if leAt bs 10 2 ≠ s.getN F.hubId_device 0 ∨ leAt bs 12 1 ≠ s.getN F.hubId_family 0 then 0x03
  else if rev < leAt bs 14 1 ∨ leAt bs 15 1 < rev then 0x04
  else if 3 < k ∨ kindOk = false ∨ nregOk = false ∨ Img.nframe bs < 1 ∨ 1048576 < Img.nframe bs ∨
      Img.siglen bs < 1 ∨ 65536 < Img.siglen bs ∨ 3 < Img.anchor bs then 0x05
  else 0

/-- Step 2 (R416): the CODE of an image's signature. -/
def State.signatureCode (s : State) (bs : List Byte) : Nat :=
  let a := Img.anchor bs
  let key := bytesAt bs (Img.sigAt bs) 60
  let sig := bytesAt bs (Img.sigAt bs + 60) (Img.siglen bs - 60)
  let hash := (List.range 4).flatMap fun j => leBytes (s.reg .truAnchorHash (4 * a + j)).toNat 8
  if Img.siglen bs < 60 then 0x06
  else if s.bitF F.truAnchorStat_filled a = false ∨ s.bitF F.truAnchorStat_revoked a = true then 0x07
  else if sha256 key ≠ hash then 0x07
  else if Lms.hssShape key sig = false then 0x06
  else if Lms.hssVerify key (bs.take (Img.sigAt bs)) sig = false then 0x06
  else 0

/-! ### Descriptors and manifest -/

def rawDescs (bs : List Byte) : List (List Byte) :=
  (List.range (Img.nreg bs)).map fun i => bytesAt bs (32 + 1024 * i) 1024

def parseDesc (raw : List Byte) : RegionDesc :=
  { d := BitVec.ofNat 512 (ofBytes (raw.take 64)),
    pat := (List.range 64).map fun k => BitVec.ofNat 64 (leAt raw (64 + 8 * k) 8),
    len := (List.range 64).map fun k => leAt raw (576 + k) 1 }

def parseManifest (bs : List Byte) : List ManifestEntry :=
  (List.range (Img.nframe bs)).map fun i =>
    let at_ := Img.manifestAt bs + 40 * i
    { fa := leAt bs at_ 4, len := leAt bs (at_ + 4) 4, digest := bytesAt bs (at_ + 8) 32 }

/-- A descriptor field out of range (R353, R13), or a region that is not the context's. -/
def badDesc (x : Nat) (raw : List Byte) : Bool :=
  let r := parseDesc raw
  let d := r.d
  let zero (at_ n : Nat) : Bool := leAt raw at_ n == 0
  let rq := Desc.rstqWord d
  decide (15 < Desc.region d) || (x < 16 && Desc.region d != x) || Desc.qmask d == 0 || decide (15 < Desc.qmask d) ||
    decide (Desc.gx1 d < Desc.gx0 d) || decide (31 < Desc.gx1 d) || decide (Desc.gy1 d < Desc.gy0 d) ||
    decide (31 < Desc.gy1 d) || decide (Desc.len d < 4) || decide (32 < Desc.len d) || decide (1 < Desc.mode d) ||
    decide (4095 < Desc.gap d) || (Desc.mode d == 0 && decide (Desc.gap d < 2)) ||
    (rq &&& 0x7FFC_F000#32) != 0 ||
    (Desc.mode d == 0 && (Desc.diam d != 0 || Desc.hopmax d != 0 || Desc.xlatPs d != 0)) ||
    ((List.range 8).any fun b =>
      if Desc.claimsBank d b then !decide (1 ≤ Desc.vsel d b ∧ Desc.vsel d b ≤ 3) else Desc.vsel d b != 0) ||
    r.len.any (fun n => decide (64 < n)) || !zero 15 1 || !zero 17 1 || !zero 56 8 || !zero 640 384

/-- A descriptor outside BND_Rr_LIMIT. -/
def State.outsideLimit (s : State) (d : BitVec 512) : Bool :=
  let r := Desc.region d
  ((List.range 4).any fun q => (Desc.qmask d).testBit q && !(s.getF F.bndLimit_qmask r).getLsbD q) ||
    decide (Desc.gx0 d < s.getN F.bndLimit_gx0 r) || decide (s.getN F.bndLimit_gx1 r < Desc.gx1 d) ||
    decide (Desc.gy0 d < s.getN F.bndLimit_gy0 r) || decide (s.getN F.bndLimit_gy1 r < Desc.gy1 d) ||
    (List.range 8).any fun b => Desc.claimsBank d b && !(s.getF F.bndLimit_banks r).getLsbD b

def descsMeet (a b : BitVec 512) : Bool :=
  (Desc.padmask a &&& Desc.padmask b) != 0 || (List.range 4096).any fun g => inDesc a g && inDesc b g

/-- A gathering or pad that another region holds (R361). -/
def State.heldElsewhere (s : State) (ds : List (BitVec 512)) : Bool :=
  let named := ds.map Desc.region
  (ds.any fun d => (List.range 16).any fun r => !named.contains r && descsMeet d (s.region r).desc) ||
    (ds.zipIdx).any fun p => (ds.take p.2).any fun e => descsMeet p.1 e

/-- The reset queue's gathering lies outside its region, or the image makes a second SYSTEM region. -/
def State.badResetOrSystem (s : State) (ds : List (BitVec 512)) : Bool :=
  let named := ds.map Desc.region
  let systems := (ds.filter fun d => Desc.mode d == 1).length
  let others := (List.range 16).any fun r => !named.contains r && s.systemMode r && s.len r != 0
  ds.any (fun d => Desc.rstqEn d && !inDesc d (Desc.rstqGth d)) || decide (1 < systems) ||
    (decide (0 < systems) && others)

/-! ### Frame addresses (R356) -/

namespace FA
def kind (fa : Nat) : Nat := fa / 16 % 16
def idx (fa : Nat) : Nat := fa % 16
def gth (fa : Nat) : Nat := 1024 * (fa / 2 ^ 18 % 4) + fa / 256 % 1024
def core (fa : Nat) : Nat := 16 * (fa / 2 ^ 18 % 4) + fa / 256 % 16
/-- The address names a core (R356). -/
def namesCore (fa : Nat) : Bool := (kind fa == 8 || kind fa == 9) && fa / 2 ^ 12 % 64 == 0
/-- Number of indices and length of a kind. -/
def shape (k : Nat) : Nat × Nat :=
  match k with
  | 0 => (8, 6656)
  | 1 => (1, 512)
  | 2 => (1, 256)
  | 3 => (1, 10240)
  | 4 => (1, 256)
  | 5 => (8, 192)
  | 6 => (1, 1024)
  | 7 => (16, 1024)
  | 8 => (16, 10240)
  | 9 => (16, 20480)
  | _ => (0, 0)
end FA

/-- An FA of a manifest that R356 or R358 does not allow. -/
def badFa (kind : Nat) (ds : List (BitVec 512)) (e : ManifestEntry) : Bool :=
  let k := FA.kind e.fa
  let g := FA.gth e.fa
  let place :=
    if k < 5 ∨ k = 6 then ds.any fun d => inDesc d g
    else if k < 8 then ds.any fun d => southWest d == g
    else e.fa / 2 ^ 12 % 64 == 0
  decide (2 ^ 20 ≤ e.fa) || decide ((FA.shape k).1 ≤ FA.idx e.fa) || e.len != (FA.shape k).2 || !place ||
    (kind == Img.region && decide (8 ≤ k)) || (kind == Img.awl && decide (k < 8))

def rising : List ManifestEntry → Bool
  | a :: b :: l => decide (a.fa < b.fa) && rising (b :: l)
  | _ => true

/-- A frame that R358 requires is not listed. Which gatherings of a SYSTEM region exchange words only its XPLAN frames say
(R170): one of them must be there (log entry 60). -/
def missingFrame (ds : List (BitVec 512)) (m : List ManifestEntry) : Bool :=
  let has (q g k i : Nat) : Bool := m.any fun e => e.fa == q * 2 ^ 18 + g % 1024 * 256 + 16 * k + i
  ds.any fun d =>
    (descGths d).any (fun g =>
      !has (gthQ g) g 4 0 || (List.range 8).any fun i => !has (gthQ g) g 0 i) ||
    (Desc.mode d == 1 && !(descGths d).any fun g => has (gthQ g) g 6 0) ||
    (List.range 8).any fun b => Desc.claimsBank d b && !has (gthQ (southWest d)) (southWest d) 5 b

/-- Step 3 of R360. -/
def State.imageCode (s : State) (x : Nat) (bs : List Byte) : Nat :=
  let raws := rawDescs bs
  let ds := raws.map fun r => (parseDesc r).d
  let m := parseManifest bs
  if raws.any (badDesc x) || !(ds.map Desc.region).Nodup then 0x08
  else if ds.any s.outsideLimit then 0x09
  else if s.heldElsewhere ds then 0x0A
  else if s.badResetOrSystem ds then 0x0B
  else if m.any (badFa (Img.kind bs) ds) || !rising m then 0x0C
  else if missingFrame ds m then 0x0D
  else 0

/-- Step 0 of R360: a region that runs, or a core that is not in reset. -/
def State.busyCode (s : State) (x : Nat) (bs : List Byte) : Nat :=
  let free (r : Nat) : Bool :=
    let q := s.qstate r
    q == Q.unbound || q == Q.held || q == Q.qfault || q == Q.tokenLost
  let regions := if x < 16 then [x] else (rawDescs bs).map fun r => leAt r 0 1 % 16
  let cores := ((parseManifest bs).filter fun e => FA.namesCore e.fa).map fun e => FA.core e.fa
  if regions.any (fun r => !free r) || cores.any (fun c => !s.holdrst c) then 0x01 else 0

/-- Step 0 as far as the context itself names a region. -/
def State.contextCode (s : State) (x : Nat) : Nat :=
  let q := s.qstate x
  if x < 16 ∧ q ≠ Q.unbound ∧ q ≠ Q.held ∧ q ≠ Q.qfault ∧ q ≠ Q.tokenLost then 0x01 else 0

/-- Steps 0 to 3 on a whole header, manifest and signature. -/
def State.checkCode (s : State) (x : Nat) (bs : List Byte) : Nat :=
  if s.busyCode x bs ≠ 0 then s.busyCode x bs
  else if s.signatureCode bs ≠ 0 then s.signatureCode bs
  else s.imageCode x bs

/-- SHA-256 of the header and manifest. -/
def imageHash (bs : List Byte) : List Byte := sha256 (bs.take (Img.sigAt bs))

end Sys2Proof.Machine
end

