-- ==== Sys2Proof/Machine/PowerBase.lean ====
section
/-!
DEFINITION. Power domains (R426 to R431): their votes, why each is up, and the start of a power-up.
-/
namespace Sys2Proof.Machine

namespace Dom
def off : Nat := 0
def rampUp : Nat := 1
def on : Nat := 2
def rampDn : Nat := 3
def fail : Nat := 4
end Dom

/-- The domain that a domain needs (R426). -/
def needs (d : Nat) : Option Nat := if d = 2 then some 3 else if 4 ≤ d ∧ d ≤ 9 then some 2 else none

def dependents (d : Nat) : List Nat := (List.range 10).filter fun e => needs e == some d

def State.domState (s : State) (d : Nat) : Nat := s.getN F.pwrDom_state d
def State.domOn (s : State) (d : Nat) : Bool := s.domState d == Dom.on

def State.setVote (s : State) (d b : Nat) (v : Bool) : State :=
  if d < 2 ∨ 9 < d then s
  else
    let x := s.getF F.pwrDom_vote d
    s.putF F.pwrDom_vote d (if v then x ||| (1#21 <<< b) else x &&& ~~~(1#21 <<< b))

def State.loading (s : State) (x : Nat) : Bool :=
  let st := s.getN F.bndStat_state x
  decide (1 ≤ st ∧ st ≤ 3)

/-- A domain is held up (R428). -/
def State.holdUp (s : State) (d : Nat) : Bool :=
  let busy := (List.range 18).any s.loading || s.sys.flashJob.isSome || (List.range 16).any fun r => (s.op r).isSome
  let used := match s.systemRegion with
    | none => false
    | some r => s.qstate r != Q.unbound && (d == 2 || d == 4 || (decide (6 ≤ d) && (s.gthsOf r).any fun g => gthQ g == d - 6))
  (d == 2 && busy) || used

def State.ownReason (s : State) (d : Nat) : Bool := s.getN F.pwrDom_vote d != 0 || s.holdUp d

/-- A domain has a reason to be up (R427). -/
def State.wanted (s : State) : Nat → Nat → Bool
  | 0, d => s.ownReason d
  | fuel + 1, d =>
    s.ownReason d || (dependents d).any fun e =>
      let st := s.domState e
      (st != Dom.off && st != Dom.fail) || (st == Dom.off && s.wanted fuel e)

/-- Needed domains come first. -/
def domainOrder : List Nat := [3, 2, 4, 5, 6, 7, 8, 9]

/-- Power-ups that the wake sequence makes itself (R443), and those of a tripped, unpowered or halted device or one held in
reset, which wait. -/
def State.powerBarred (s : State) : Bool :=
  s.sys.tripped || s.sys.wake.isSome || s.sys.wakeWait.isSome || !s.sys.vin || !s.sys.vsb || s.sys.resetLow ||
    s.getN F.hubBoot_state 0 == 3

/-- A domain that is off and has a reason to be up ramps up once what it needs is on. -/
def State.startUp (s : State) (d : Nat) : State :=
  let ready := match needs d with
    | some e => s.domOn e
    | none => true
  if 2 ≤ d ∧ d ≤ 9 ∧ s.domState d = Dom.off ∧ s.wanted 3 d = true ∧ ready = true ∧ s.powerBarred = false then s.putN F.pwrDom_state d Dom.rampUp
  else s

def State.startUps (s : State) : State := domainOrder.foldl State.startUp s

/-- A domain without power: OFF or FAIL. -/
def State.domDown (s : State) (d : Nat) : Bool := s.domState d == Dom.off || s.domState d == Dom.fail

/-- Domains 2 to 9 are down: TCLK stands still and the device waits for a wake event (R431, R446). -/
def State.dormant (s : State) : Bool := (List.range 8).all fun i => s.domDown (i + 2)

/-- The named point (R431): a combination without MTR is no named one. -/
def State.point (s : State) : Nat :=
  if s.sys.meter.powered = false then 3
  else if (List.range 8).all fun i => s.domOn (i + 2) then 0
  else if ((List.range 4).all fun i => s.domOn (i + 2)) && (List.range 4).all fun i => s.domDown (i + 6) then 1
  else if s.dormant then 2
  else 3

/-- What the hardware itself shows of the domains: HOLDUP, the Collator's votes (bit 17 of R430), POINT. -/
def State.refreshPower (s : State) : State :=
  let busy := (s.col.items.any fun x => !x.event) || (List.range 64).any fun t => s.bitF F.colTim_en t
  let s := (s.setVote 2 17 busy).setVote 3 17 busy
  let s := domainOrder.foldl (fun (s : State) d => s.putN F.pwrDom_holdup d (if s.holdUp d then 1 else 0)) s
  s.putN F.pwrStatus_point 0 s.point

/-- A vote gained or given up: what has a reason now starts up; a domain in FAIL tries again on a new vote (R427). -/
def State.vote (s : State) (d b : Nat) (v : Bool) : State :=
  let gained := v && !(s.getF F.pwrDom_vote d).getLsbD b
  let s := s.setVote d b v
  let s := if gained && s.domState d == Dom.fail then s.putN F.pwrDom_state d Dom.off else s
  s.startUps.refreshPower

end Sys2Proof.Machine
end

