-- ==== Sys2Proof/Machine/Parts.lean ====
section
/-!
DEFINITION. The parts of a gathering (R383): its state, folio and leaf parts as words, and their way back (R391, R467).
-/
namespace Sys2Proof.Machine

/-! ### Values of every version alike -/

/-- A value in every version of its object. -/
def Ver.same {α : Type} (x : α) : Ver α := { com := x, pend := none, work := x }

/-! ### Out of the array -/

/-- Header word of a part. -/
def partHeader (g part : Nat) (perr : Bool) : Word :=
  BitVec.ofNat 40 (g + part * 2 ^ 12 + 2 ^ 16 + perr.toNat * 2 ^ 20)

def stateSectors : Nat := 88
def folioSectors : Nat := 171
def leafSectors : Nat := 902

/-- The committed words of a gathering's cells. -/
def State.cellWords (s : State) (g : Nat) : List RWord :=
  (List.range 64).flatMap fun i => (List.range 16).map fun j => (s.cell (64 * g + i)).v.com.s.at j

/-- A check of R384 on state words, flags or accumulators fails. -/
def State.stateBad (s : State) (g : Nat) : Bool :=
  (s.cellWords g).any (fun w => !w.ok) || ((List.range 64).any fun i => !(s.cell (64 * g + i)).v.com.f.ok) ||
    (List.range 2).any fun p => !((s.gth g).press.at p).acc.com.ok

/-- Words 1,026 on of the state part: flags by row, accumulators, pointers. -/
def State.stateTail (s : State) (g : Nat) : List Word :=
  let flags := (List.range 8).map fun ly =>
    BitVec.ofNat 40 ((List.range 8).foldl (fun n lx =>
      let f := (s.cell (64 * g + 8 * ly + lx)).v.com.f
      n + (f.c.toNat * 8 + f.z.toNat * 4 + f.n.toNat * 2 + f.v.toNat) * 2 ^ (4 * lx)) 0)
  let accs := (List.range 2).flatMap fun p =>
    let a := ((s.gth g).press.at p).acc.com.v
    [a.extractLsb' 0 40, a.extractLsb' 40 40, (a.extractLsb' 80 8).setWidth 40]
  let queues := (List.range 4).map fun n =>
    let q := (s.gth g).queue.at n
    BitVec.ofNat 40 (q.apCom.p + q.rp * 2 ^ 12)
  flags ++ accs ++ queues

/-- The state part, with the twelve words that end it. -/
def State.statePart (s : State) (r g : Nat) (last : List Word) : List Word :=
  [partHeader g 0 (s.stateBad g), (s.getF F.qctCommitted_count r).setWidth 40] ++ (s.cellWords g).map (·.d) ++
    s.stateTail g ++ last

def noExtra : List Word := List.replicate 12 0

/-- The CRP of a queue as a held region keeps it (R377). -/
def State.keptCrp (s : State) (r g n : Nat) : Nat :=
  match (s.region r).caps.find? fun c => c.quire == s.getN F.qctCommitted_count r + 1 with
  | some c => c.crp.at (4 * g + n)
  | none => ((s.gth g).queue.at n).crp

/-- What a column move adds to a state part (R467): kept CRPs and dirty bits. -/
def State.moveExtra (s : State) (r g : Nat) : List Word :=
  let x := s.gth g
  ((List.range 4).map fun n => BitVec.ofNat 40 (s.keptCrp r g n)) ++
    [BitVec.ofNat 40 (x.sdirty.toNat + 2 * x.fdirty.toNat)] ++ List.replicate 7 0

/-- Folio words read at the given addresses, last first, and whether one failed. -/
def State.folioWords (s : State) (g : Nat) (as : List Nat) : List Word × Bool × State :=
  as.foldl (fun (acc : List Word × Bool × State) a =>
    let (w, ok, s) := acc.2.2.portRead g a false
    (data44 w :: acc.1, acc.2.1 || !ok, s)) ([], false, s)

/-- The folio part, each word checked (R132, R384), and whether one failed. -/
def State.folioPart (s : State) (r g : Nat) : List Word × Bool × State :=
  let (ws, bad, s) := s.folioWords g (List.range 2048)
  ([partHeader g 1 bad, (s.getF F.qctCommitted_count r).setWidth 40] ++ ws.reverse ++ [0, 0], bad, s)

/-- The CELL_ROW frame of a row as the store holds it (R57). -/
def State.rowBytes (s : State) (g ly : Nat) : List Byte :=
  (List.range 8).flatMap fun lx => (List.range 32).flatMap fun k =>
    leBytes ((s.cell (64 * g + 8 * ly + lx)).leaf.at k).toNat 26

/-- The PRESS and FOLIO_LEAF frames (R153). -/
def State.pressBytes (s : State) (g : Nat) : List Byte :=
  (List.range 2).flatMap fun p => (List.range 32).flatMap fun k => leBytes (((s.gth g).press.at p).leaf.at k).toNat 8

def State.accessBytes (s : State) (g : Nat) : List Byte :=
  (List.range 32).flatMap fun k => leBytes ((s.gth g).access.at k).toNat 8

/-- The leaf part's words: header, committed count, ten zeros, then the byte stream, five bytes to a word. -/
def State.leafPart (s : State) (r g : Nat) : List Word :=
  let bytes := ((List.range 8).flatMap fun ly => s.rowBytes g ly) ++ s.pressBytes g ++ s.accessBytes g
  [partHeader g 2 false, (s.getF F.qctCommitted_count r).setWidth 40] ++ List.replicate 10 0 ++
    bytesToWords (bytes ++ List.replicate 44 0)

/-! ### Into the array -/

/-- A state part's values into every version, with fresh residues; `crp` gives the captured pointer of each queue. -/
def State.loadState (s : State) (g : Nat) (ws : List Word) (crp : Nat → Nat → Nat) : State :=
  let w (i : Nat) : Word := ws.getD i 0
  let s := (List.range 64).foldl (fun (s : State) i =>
    let row := w (1026 + i / 8)
    let b (j : Nat) : Bool := row.getLsbD (4 * (i % 8) + j)
    let cw : CellWords :=
      { s := Sparse.ofList ((List.range 16).map fun j => gen (w (2 + 16 * i + j))), f := mkFlags (b 3) (b 2) (b 1) (b 0) }
    s.updCell (64 * g + i) fun c => { c with v := Ver.same cw }) s
  s.updGth g fun x =>
    let acc (p : Nat) : Acc :=
      mkAcc ((w (1036 + 3 * p)).extractLsb' 0 8 ++ w (1035 + 3 * p) ++ w (1034 + 3 * p))
    let queue (n : Nat) : FolioQueue :=
      let v := w (1040 + n)
      let ap := (v.extractLsb' 0 12).toNat
      let rp := (v.extractLsb' 12 12).toNat
      { apCom := mkPtr ap, apPend := none, apWork := ⟨mkPtr ap, 0, mkPtr ap, 0⟩, rp, crp := crp n rp, cond := (x.queue.at n).cond }
    { x with
      press := (List.range 2).foldl (fun m p => m.upd p fun y => { y with acc := Ver.same (acc p), stages := [] }) x.press,
      queue := (List.range 4).foldl (fun m n => m.put n (queue n)) x.queue,
      checkW := none, checkP := none, wroteSW := false, wroteSP := false }

/-- A folio part's words into the store, with fresh parity; the write buffers are empty. -/
def State.loadFolio (s : State) (g : Nat) (ws : List Word) : State :=
  s.updGth g fun x =>
    { x with store := Sparse.ofList ((List.range 2048).map fun a => store44 (ws.getD (2 + a) 0)),
             working := [], pending := [], draining := [], wroteFW := false, wroteFP := false }

/-! ### Frame addresses of a gathering -/

/-- The FA of a gathering's frame. -/
def faOf (g k i : Nat) : Nat := gthQ g * 2 ^ 18 + g % 1024 * 256 + 16 * k + i

/-- ACLK in MHz of an operating point (R432). -/
def opMhz (op : Nat) : Nat :=
  match op with
  | 0 => 1600
  | 4 => 1400
  | 1 => 1200
  | 2 => 800
  | _ => 400

/-- ⌈ps × f⌉. -/
def psCycles (ps mhz : Nat) : Nat := (ps * mhz + 999999) / 1000000

/-- TOKLAT, XLAT and GFLOOR of a descriptor at a clock (R177). -/
def tokLat (d : BitVec 512) (mhz : Nat) : Nat := psCycles (Desc.diam d * Desc.hopmax d) mhz
def xLat (d : BitVec 512) (mhz : Nat) : Nat := psCycles (Desc.xlatPs d) mhz
def gFloor (d : BitVec 512) (mhz : Nat) : Nat := max (tokLat d mhz) (xLat d mhz) + 2

def State.aclkMhz (s : State) : Nat := opMhz (s.getN F.clkAclk_active 0)

/-- FST_TIMING at the present clock (R177). -/
def State.setTiming (s : State) (d : BitVec 512) : State :=
  let m := s.aclkMhz
  let cap (n : Nat) : Nat := min n 4095
  let s := ((s.putN F.fstTiming_diam 0 (Desc.diam d)).putN F.fstTiming_hopmax_ps 0 (Desc.hopmax d)).putN
    F.fstTiming_xlat 0 (cap (xLat d m))
  (s.putN F.fstTiming_toklat 0 (cap (tokLat d m))).putN F.fstTiming_gfloor 0 (cap (gFloor d m))

end Sys2Proof.Machine
end

