-- ==== Sys2Proof/Machine/Frames.lean ====
section
/-!
DEFINITION. The content of frames: the checks of R152, R172 and R357, the writes of each kind (R57, R151, R153, R170,
R171, R357, R363), and the ring capacity (R135).
-/
namespace Sys2Proof.Machine

/-! ### GTH_CTL (R151, R152) -/

namespace Ctl
def byte0 (f : BitVec 2048) : BitVec 8 := f.extractLsb' 0 8
def region (f : BitVec 2048) : Nat := (f.extractLsb' 0 4).toNat
def inuse (f : BitVec 2048) : Bool := f.getLsbD 7
def ringNeed (f : BitVec 2048) : Nat := (f.extractLsb' 16 12).toNat
def qdesc (f : BitVec 2048) (n : Nat) : BitVec 64 := f.extractLsb' (512 + 64 * n) 64
def base (d : BitVec 64) : Nat := (d.extractLsb' 0 11).toNat
def size (d : BitVec 64) : Nat := (d.extractLsb' 11 12).toNat
def high (d : BitVec 64) : Nat := (d.extractLsb' 23 12).toNat
def low (d : BitVec 64) : Nat := (d.extractLsb' 35 12).toNat
def dir (d : BitVec 64) : Bool := d.getLsbD 47
def evsrc (d : BitVec 64) : Nat := (d.extractLsb' 48 10).toNat
def evcond (d : BitVec 64) : Nat := (d.extractLsb' 58 2).toNat
end Ctl

/-- A reserved bit of a GTH_CTL frame is set. -/
def ctlReserved (f : BitVec 2048) : Bool :=
  f.extractLsb' 4 3 != 0 || f.extractLsb' 8 8 != 0 || f.extractLsb' 28 4 != 0 || f.extractLsb' 458 22 != 0 ||
    f.extractLsb' 480 32 != 0 || f.extractLsb' 1792 256 != 0 ||
    ((List.range 4).any fun n => (Ctl.qdesc f n).extractLsb' 60 4 != 0) ||
    (List.range 64).any fun m =>
      let e : BitVec 16 := f.extractLsb' (768 + 16 * m) 16
      if e.getLsbD 15 then (if e.getLsbD 14 then e.extractLsb' 10 4 != 0 else e.extractLsb' 6 6 != 0)
      else e.extractLsb' 0 15 != 0

/-- A GTH_CTL frame that R152 rejects, for region `r`. -/
def ctlBad (r : Nat) (f : BitVec 2048) : Bool :=
  let q (n : Nat) : BitVec 64 := Ctl.qdesc f n
  let on (n : Nat) : Bool := Ctl.size (q n) != 0
  let fin (n : Nat) : Nat := Ctl.base (q n) + Ctl.size (q n)
  ctlReserved f || Ctl.region f != r || !Ctl.inuse f ||
    ((List.range 4).any fun n => on n && decide (2048 < fin n)) ||
    ((List.range 4).any fun n => (List.range n).any fun m =>
      on n && on m && decide (Ctl.base (q n) < fin m ∧ Ctl.base (q m) < fin n)) ||
    (List.range 4).any fun n =>
      decide (Ctl.size (q n) < Ctl.high (q n)) || decide (Ctl.size (q n) < Ctl.low (q n)) ||
        decide (512 ≤ Ctl.evsrc (q n) ∧ Ctl.evsrc (q n) ≤ 1022) || Ctl.evcond (q n) == 3

/-! ### PAD (R357) -/

def padBad (d : BitVec 512) (b : Nat) (data : List Byte) : Bool :=
  (List.range 24).any fun i =>
    let e := BitVec.ofNat 64 (leAt data (8 * i) 8)
    PadE.valid e != Desc.claims d (24 * b + i) || e.extractLsb' 28 32 != 0 ||
      (if PadE.out e then e.extractLsb' 14 2 != 0 || e.extractLsb' 4 4 != 0 ||
          (PadE.valid e && !inDesc d (PadE.gth e))
       else e.extractLsb' 0 28 != 0)

/-! ### XPLAN and XRELAY (R170 to R172) -/

/-- A device that a plan may name as the other end. -/
def State.planDev (s : State) (n : Nat) : Bool := n != s.devIdx && s.sysMask.getLsbD n

def State.xplanBad (s : State) (d : BitVec 512) (g : Nat) (data : List Byte) : Bool :=
  Desc.mode d != 1 ||
    ((List.range 64).any fun m =>
      let e := BitVec.ofNat 64 (leAt data (8 * m) 8)
      e.getLsbD 62 || e.extractLsb' 44 12 != 0 || e.extractLsb' 29 3 != 0 || e.extractLsb' 14 10 != 0 ||
        e.extractLsb' 4 4 != 0 || (XP.valid e && (decide (29 < XP.word e) || !s.planDev (XP.dev e)))) ||
    (List.range 64).any fun m =>
      let e := BitVec.ofNat 64 (leAt data (512 + 8 * m) 8)
      e.getLsbD 62 || e.extractLsb' 44 12 != 0 || e.extractLsb' 29 3 != 0 || e.extractLsb' 0 24 != 0 ||
        (XP.valid e && (decide (29 < XP.word e) || !s.planDev (XP.dev e) || Chan.valid (Chan.entry (s.gth g) m)))

def State.relayBad (s : State) (d : BitVec 512) (data : List Byte) : Bool :=
  Desc.mode d != 1 ||
    (List.range 256).any fun i =>
      let e := BitVec.ofNat 32 (leAt data (4 * i) 4)
      e.getLsbD 30 || e.extractLsb' 22 2 != 0 || e.extractLsb' 12 4 != 0 ||
        (Relay.valid e && (Relay.src e == s.devIdx || Relay.dst e == s.devIdx))

/-- The rules of R172 that take all frames together: SLOT and WORD of two send entries, SLOT with two DSTs, two relay
entries for one frame. -/
def State.planClash (s : State) (r : Nat) : Bool :=
  let sends := (s.gthsOf r).flatMap fun g => (List.range 64).filterMap fun m =>
    let e := (s.gth g).xplan.at m
    if XP.valid e then some (XP.slot e, XP.word e, XP.dev e) else none
  let relays := s.arr.relay.entries.filterMap fun p =>
    if Relay.valid p.2 then some (Relay.src p.2, Relay.dst p.2, Relay.slot p.2) else none
  let clash (a b : Nat × Nat × Nat) : Bool := a.1 == b.1 && (a.2.1 == b.2.1 || a.2.2 != b.2.2)
  (sends.zipIdx.any fun p => (sends.take p.2).any (clash p.1)) || !relays.Nodup

/-! ### Whose frame it is -/

/-- The descriptor that a frame address names (R356). -/
def ownerDesc (ds : List RegionDesc) (fa : Nat) : Option RegionDesc :=
  let k := FA.kind fa
  if k < 5 ∨ k = 6 then ds.find? fun x => inDesc x.d (FA.gth fa)
  else if k < 8 then ds.find? fun x => southWest x.d == FA.gth fa
  else none

/-- Step 4's last check: content that R152, R172 or R357 rejects. -/
def State.contentBad (s : State) (ds : List RegionDesc) (fa : Nat) (data : List Byte) : Bool :=
  match ownerDesc ds fa, FA.kind fa with
  | some x, 4 => ctlBad (Desc.region x.d) (BitVec.ofNat 2048 (ofBytes data))
  | some x, 5 => padBad x.d (FA.idx fa) data
  | some x, 6 => s.xplanBad x.d (FA.gth fa) data
  | some x, 7 => s.relayBad x.d data
  | _, _ => false

/-! ### Writing -/

/-- CELL_ROW (R57), with its CRC-32C for the walk (R59). -/
def State.writeRow (s : State) (g ly : Nat) (data : List Byte) : State :=
  let s := (List.range 8).foldl (fun (s : State) lx =>
    s.updCell (64 * g + 8 * ly + lx) fun c =>
      { c with leaf := Sparse.ofList ((List.range 32).map fun k => BitVec.ofNat 208 (leAt data ((lx * 32 + k) * 26) 26)) }) s
  s.setReg .gthCrc (8 * g + ly) ((crc32c data).setWidth 64)

def State.writePress (s : State) (g : Nat) (data : List Byte) : State :=
  (List.range 2).foldl (fun (s : State) p => s.updPress g p fun y =>
    { y with leaf := Sparse.ofList ((List.range 32).map fun k => BitVec.ofNat 64 (leAt data ((32 * p + k) * 8) 8)) }) s

def State.writeAccess (s : State) (g : Nat) (data : List Byte) : State :=
  s.updGth g fun x => { x with access := Sparse.ofList ((List.range 32).map fun k => BitVec.ofNat 64 (leAt data (8 * k) 8)) }

def State.writeStore (s : State) (g : Nat) (data : List Byte) : State :=
  let words := Sparse.ofList ((List.range 2048).map fun a => store44 (BitVec.ofNat 40 (leAt data (5 * a) 5)))
  s.updGth g fun x => { x with store := words, init := words }

/-- GTH_CTL: the frame, and the registers that take their fields from it (R155). -/
def State.writeCtl (s : State) (g : Nat) (f : BitVec 2048) : State :=
  let s := s.updGth g fun x => { x with frame := f }
  let s := ((s.putN F.gthCfg_region g (Ctl.region f)).putN F.gthCfg_ring_need g (Ctl.ringNeed f)).setF F.gthCfg_inuse g
  (List.range 4).foldl (fun (s : State) n =>
    let d := Ctl.qdesc f n
    let i := 4 * g + n
    let s := ((s.putN F.gthQdesc_base i (Ctl.base d)).putN F.gthQdesc_size i (Ctl.size d)).putF F.gthQdesc_dir i
      (BitVec.ofBool (Ctl.dir d))
    let s := (s.putN F.gthQdesc_evsrc i (Ctl.evsrc d)).putN F.gthQdesc_evcond i (Ctl.evcond d)
    (s.putN F.gthQwm_high i (Ctl.high d)).putN F.gthQwm_low i (Ctl.low d)) s

def State.writePad (s : State) (b : Nat) (data : List Byte) : State :=
  (List.range 24).foldl (fun (s : State) i =>
    let e := BitVec.ofNat 64 (leAt data (8 * i) 8)
    s.updPad (24 * b + i) fun p => if PadE.valid e then { p with entry := some e } else p) s

def State.writeXplan (s : State) (g : Nat) (data : List Byte) : State :=
  s.updGth g fun x => { x with xplan := Sparse.ofList ((List.range 128).map fun m => BitVec.ofNat 64 (leAt data (8 * m) 8)) }

def State.writeRelay (s : State) (f : Nat) (data : List Byte) : State :=
  (List.range 256).foldl (fun (s : State) i =>
    { s with arr := { s.arr with relay := s.arr.relay.put (256 * f + i) (BitVec.ofNat 32 (leAt data (4 * i) 4)) } }) s

def State.writeImem (s : State) (c k : Nat) (data : List Byte) : State :=
  s.updCore c fun x => { x with imem := (List.range 2048).foldl (fun m i =>
    m.put (2048 * k + i) (store44 (BitVec.ofNat 40 (leAt data (5 * i) 5)))) x.imem }

def State.writeDmem (s : State) (c k : Nat) (data : List Byte) : State :=
  s.updCore c fun x => { x with dmem := (List.range 4096).foldl (fun m i =>
    m.put (4096 * k + i) (store44 (BitVec.ofNat 40 (leAt data (5 * i) 5)))) x.dmem }

/-- A frame written where its address names (R356, R363). -/
def State.writeFrame (s : State) (fa : Nat) (data : List Byte) : State :=
  let g := FA.gth fa
  let i := FA.idx fa
  match FA.kind fa with
  | 0 => s.writeRow g i data
  | 1 => s.writePress g data
  | 2 => s.writeAccess g data
  | 3 => s.writeStore g data
  | 4 => s.writeCtl g (BitVec.ofNat 2048 (ofBytes data))
  | 5 => s.writePad i data
  | 6 => s.writeXplan g data
  | 7 => s.writeRelay i data
  | 8 => s.writeImem (FA.core fa) i data
  | 9 => s.writeDmem (FA.core fa) i data
  | _ => s

/-! ### Ring capacity (R135) -/

/-- Requesters that an access leaf names (R133). -/
def requesters (a : BitVec 64) : Nat :=
  let named (en side : Nat) : Nat := if a.getLsbD en && decide ((a.extractLsb' side 3).toNat < 5) then 1 else 0
  named 63 60 + named 53 50

/-- C = G + N1. -/
def State.ringCap (s : State) (d : BitVec 512) (g : Nat) : Nat :=
  Desc.gap d + ((List.range (Desc.len d)).filter fun k => decide (requesters ((s.gth g).access.at k) ≤ 1)).length

end Sys2Proof.Machine
end

