-- ==== Sys2Proof/Machine/Loader.lean ====
section
/-!
DEFINITION. The loader (13_binding_images.md): its requests, the checks and writes of a load, completion, abort, repair
loads (R370, R467) and flash slots (R371, R372). Context r is that of region r, 16 is D and 17 is F.
-/
namespace Sys2Proof.Machine

/-! ### Flash (R371) -/

def slotAt (slot : Nat) : Nat := if slot = 0 then 0 else if slot = 1 then 0x0A00_0000 else 0x1400_0000
def slotSize : Nat := 160 * 2 ^ 20
def commitAt (slot : Nat) : Nat := slotAt slot + slotSize - 4096

/-- An erased byte reads 0xFF. -/
def flashDefault (_ : Nat) : Byte := 0xFF#8

def State.flashBytes (s : State) (a n : Nat) : List Byte := (List.range n).map fun i => s.sys.flash.get flashDefault (a + i)

def State.putFlash (s : State) (a : Nat) (bs : List Byte) : State :=
  s.onSys fun y => { y with flash := (bs.zipIdx).foldl (fun m p => m.set flashDefault (a + p.2) p.1) y.flash }

/-- A block of flash erased. -/
def State.eraseFlash (s : State) (a n : Nat) : State :=
  s.onSys fun y => { y with flash := ⟨y.flash.entries.filter fun e => decide (e.1 < a ∨ a + n ≤ e.1)⟩ }

/-- A commit record: SEQ, LEN, SHA-256 of header and manifest, CRC-32C (R371). -/
def commitRecord (seq len : Nat) (hash : List Byte) : List Byte :=
  let b := leBytes seq 4 ++ leBytes len 4 ++ hash
  b ++ leBytes (crc32c b).toNat 4

/-- The record of a slot as SEQ, LEN and hash, where its CRC passes. -/
def State.slotRecord (s : State) (slot : Nat) : Option (Nat × Nat × List Byte) :=
  let b := s.flashBytes (commitAt slot) 44
  if leAt b 40 4 = (crc32c (b.take 40)).toNat then some (leAt b 0 4, leAt b 4 4, bytesAt b 8 32) else none

/-! ### Sources (R359) -/

/-- What a source gives for `n` bytes at an offset of the image. -/
inductive Fetched where
  | ok (bs : List Byte) (s : State)
  | wait
  | short
  | bad (s : State)

/-- Bytes in the packed view (R283), 60 to a sector, inside the requester's partition; none where a sector fails. -/
def State.packedBytes (s : State) (fn sec off n : Nat) : Option (List Byte) × State :=
  let first := off / 60
  let last := (off + n - 1) / 60
  let (lo, hi) := s.partSectors fn
  if n = 0 then (some [], s)
  else if sec + first < lo ∨ hi ≤ sec + last ∨ s.usableSectors ≤ sec + last then (none, s)
  else
    let (r, s) := (List.range (last + 1 - first)).foldl (fun (acc : Option (List Byte) × State) i =>
      match acc.1 with
      | none => acc
      | some l =>
        match acc.2.readSector (sec + first + i) 0 with
        | (some bs, s) => (some (l ++ bs), s)
        | (none, s) => (none, s)) (some [], s)
    (r.map fun l => bytesAt l (off % 60) n, s)

/-- From the host and JTAG, the oldest bytes not consumed; from DRAM and flash, the bytes where they lie. -/
def State.fetch (s : State) (j : LoadJob) (off n : Nat) : Fetched :=
  if j.len < off + n then .short
  else if j.srcsel = 0 ∨ j.srcsel = 3 then
    if s.sys.inBuf.length < n then .wait else .ok (s.sys.inBuf.take n) s
  else if j.srcsel = 1 then
    match s.packedBytes j.fn j.src off n with
    | (some bs, s) => .ok bs s
    | (none, s) => .bad s
  else if slotSize < off + n then .bad s
  else .ok (s.flashBytes (slotAt j.src + off) n) s

def State.consume (s : State) (j : LoadJob) (n : Nat) : State :=
  if j.srcsel = 0 ∨ j.srcsel = 3 then (s.onSys fun y => { y with inBuf := y.inBuf.drop n }) else s

def State.arrive (s : State) (j : LoadJob) (bytes : List Byte) : State :=
  if j.srcsel = 0 then (s.onSys fun y => { y with inBuf := y.inBuf ++ bytes }) else s

/-! ### The end of a load that fails (R360, R364) -/

def hashZero (s : State) (r : Nat) : State :=
  (List.range 4).foldl (fun (s : State) k => s.setReg .bndHash (4 * r + k) 0) s

/-- A context enters FAILED; its requester, where it is not the boot, is signalled. -/
def State.failCtx (s : State) (x fn : Nat) (boot : Bool) (code fa : Nat) : State :=
  let s := ((s.putN F.bndStat_state x 7).putN F.bndStat_code x code).setF F.bndStat_fail_ev x
  let s := s.logEntry 0x04 0x8003 (x + code * 2 ^ 5 + fa % 2 ^ 20 * 2 ^ 13)
  if boot then s else s.signalOwner fn

/-- A region whose load aborts keeps its rectangle and pad claims; its pads are high-impedance and its hash zero. -/
def State.abortRegion (s : State) (d : BitVec 512) : State :=
  let s := (List.range 192).foldl (fun (s : State) p =>
    if Desc.claims d p then s.updPad p fun x => { x with entry := none } else s) s
  hashZero s (Desc.region d)

/-- The FA reached. -/
def Serving.nextFa (v : Serving) : Nat := match v.manifest[v.taken]? with
  | some e => e.fa
  | none => 0

/-- The pads and hashes of every region that an aborted load has written to. -/
def State.abortRegions (s : State) (j : LoadJob) (v : Serving) : State :=
  if v.wrote && !j.repair then v.descs.foldl (fun (s : State) (d : RegionDesc) => s.abortRegion d.d) s else s

/-- The served load ends in FAILED (R360 before the first write, R364 after it). -/
def State.failLoad (s : State) (code : Nat) : State :=
  match s.sys.current with
  | none => s
  | some j =>
    let (fa, s) := match s.sys.serving with
      | some v => (v.nextFa, s.abortRegions j v)
      | none => (0, s)
    let s := s.onSys fun y => { y with current := none, serving := none, inBuf := [] }
    s.failCtx j.ctx j.fn j.boot code fa

/-! ### Steps 0 to 3 (R360) -/

/-- The hash of a region as its registers hold it. -/
def State.hashBytes (s : State) (r : Nat) : List Byte :=
  (List.range 4).flatMap fun k => leBytes (s.reg .bndHash (4 * r + k)).toNat 8

/-- R370: a repair load of a region that is not HELD, or of another image. -/
def State.repairRefused (s : State) (j : LoadJob) (bs : List Byte) : Bool :=
  j.repair && (s.qstate j.ctx != Q.held || imageHash bs != s.hashBytes j.ctx)

/-- The image accepted: LOADING. -/
def State.beginLoading (s : State) (j : LoadJob) (bs : List Byte) : State :=
  let v : Serving :=
    { job := j, kind := Img.kind bs, anchor := Img.anchor bs, descs := (rawDescs bs).map parseDesc,
      manifest := parseManifest bs, hash := imageHash bs, offset := Img.framesAt bs }
  let s := ((s.putN F.bndStat_state j.ctx 3).putN F.bndStat_frames j.ctx 0).consume j (Img.framesAt bs)
  s.onSys fun y => { y with serving := some v }

/-- Header, manifest and signature checked as far as they have arrived. -/
def State.checkImage (s : State) (j : LoadJob) : State :=
  if s.contextCode j.ctx ≠ 0 then s.failLoad (s.contextCode j.ctx)
  else
    match s.fetch j 0 32 with
    | .wait => s
    | .short => s.failLoad 0x0E
    | .bad s => s.failLoad 0x16
    | .ok hdr s =>
      if s.headerCode j.ctx j.srcsel j.src hdr ≠ 0 then s.failLoad (s.headerCode j.ctx j.srcsel j.src hdr)
      else
        match s.fetch j 0 (Img.framesAt hdr) with
        | .wait => s
        | .short => s.failLoad 0x0E
        | .bad s => s.failLoad 0x16
        | .ok bs s =>
          if s.checkCode j.ctx bs ≠ 0 then s.failLoad (s.checkCode j.ctx bs)
          else if s.repairRefused j bs then s.failLoad 0x18
          else s.beginLoading j bs

/-- No load is served. -/
def State.endServing (s : State) : State := s.onSys fun y => { y with current := none, serving := none, inBuf := [] }

/-- The next request taken, where neither a load nor a flash write is served (R359). -/
def State.nextJob (s : State) : State :=
  match s.sys.current, s.sys.flashJob, s.sys.jobs with
  | none, none, j :: rest =>
    ((s.putN F.bndStat_state j.ctx 2).putN F.bndStat_frames j.ctx 0).onSys fun y =>
      { y with current := some j, jobs := rest, inBuf := [], serving := none }
  | _, _, _ => s

/-- The flash write ends in FAILED; its slot has no valid record. -/
def State.failFlash (s : State) (code : Nat) : State :=
  match s.sys.flashJob with
  | none => s
  | some j => (s.onSys fun y => { y with flashJob := none }).failCtx 17 j.fn false code 0

/-- The image that a flash write takes: from the host its bytes, from DRAM those of the partition (R372). -/
def State.flashImage (s : State) (j : LoadJob) (bytes : List Byte) : Option (List Byte) × State :=
  if j.srcsel = 1 then s.packedBytes j.fn j.src 0 j.len else (some (bytes.take j.len), s)

/-- The bytes of a slot that hold its image: all but the last sector. -/
def imageRoom : Nat := slotSize - 4096

/-- The image of a slot erased. -/
def State.eraseImage (s : State) (slot : Nat) : State := s.eraseFlash (slotAt slot) imageRoom

def State.setFlashJob (s : State) (j : FlashJob) : State := s.onSys fun y => { y with flashJob := some j }

/-- A flash write begins (R372): the commit record erased, then the image programmed. -/
def State.startFlash (s : State) (j : LoadJob) (bytes : List Byte) : State :=
  let s := s.putN F.bndStat_state 17 3
  let s := s.eraseFlash (commitAt j.slot) 4096
  let (img, s) := s.flashImage j bytes
  let s := (s.eraseImage j.slot).setFlashJob { slot := j.slot, image := img.getD [], fn := j.fn }
  match img with
  | none => s.failFlash 0x16
  | some b => if b.length < j.len then s.failFlash 0x0E else if imageRoom < j.len then s.failFlash 0x05
    else s.putFlash (slotAt j.slot) b

def State.serviceStart (s : State) (bytes : List Byte) : State :=
  let s := s.nextJob
  match s.sys.current, s.sys.serving with
  | some j, none => if j.ctx = 17 then s.endServing.startFlash j bytes else (s.arrive j bytes).checkImage j
  | _, _ => s

/-- LOAD_SERVICE_START (R360): `bytes` arrive from the host, where that is the source. -/
def execLoadServiceStart (bytes : List Byte) (s : State) : Result := .next (s.serviceStart bytes)

/-! ### The first write (R362) -/

/-- The level that a pad shows, for SAFE = 0b11: its drive, or what the board puts on it, which is free. -/
def State.keepLevels (s : State) (d : BitVec 512) : State :=
  let (board, s) := s.draw 192
  let s0 := s
  (List.range 192).foldl (fun (s : State) p =>
    if Desc.claims d p then
      let shown := match s0.padDrive p with
        | .hiZ => Sys2Proof.Machine.padLevel (board.getLsbD p)
        | x => x
      s.updPad p fun x => { x with kept := shown }
    else s) s

/-- Pads that the new image claims keep the previous image's entry, pads no longer claimed are released. -/
def State.handPads (s : State) (old new : BitVec 512) : State :=
  (List.range 192).foldl (fun (s : State) p =>
    if Desc.claims old p && !Desc.claims new p then s.updPad p fun x => { x with entry := none }
    else if !Desc.claims old p && Desc.claims new p then s.updPad p fun x => { x with entry := none }
    else s) s

/-- The gatherings of both rectangles as a load's first write leaves them: empty, those outside the new one not in use. -/
def State.clearGths (s : State) (r : Nat) (d : BitVec 512) : State :=
  let old := s.gthsOf r
  let s := old.foldl (fun (s : State) g =>
    let s := s.setReg .gthDchk g 0
    if inDesc d g then s else s.clrF F.gthCfg_inuse g) s
  (descGths d).foldl (fun (s : State) g =>
    let s := s.onArr fun y => { y with
      cells := ⟨y.cells.entries.filter fun e => e.1 / 64 != g⟩, gths := y.gths.put g {} }
    s.setReg .gthDchk g 0) s

/-- The first write of a load of one region (R34, R362, R483). -/
def State.startRegion (s : State) (d : BitVec 512) (anchor : Nat) : State :=
  let r := Desc.region d
  let s := s.keepLevels d
  let s := (s.handPads (s.region r).desc d).unbind r
  let s := (hashZero (s.clearGths r d) r).updRegion r fun x => { x with desc := d, anchor := anchor }
  let s := if Desc.mode d = 1 then
      { s.onArr fun y => { y with relay := {} } with fst := { s.fst with pull := true } }.putN F.fstBound_state 0 0
    else s
  ((List.range 8).foldl (fun (s : State) b => if Desc.claimsBank d b then s.setBank b (Desc.vsel d b) else s) s).dropBanks

/-! ### Completion (R362, R136, R177) -/

def State.rstqBad (s : State) (d : BitVec 512) : Bool :=
  Desc.rstqEn d && (s.qSize (Desc.rstqGth d) (Desc.rstqQue d) == 0 || s.qOut (Desc.rstqGth d) (Desc.rstqQue d))

def State.writeCaps (s : State) (d : BitVec 512) : State :=
  (descGths d).foldl (fun (s : State) g => s.putN F.gthCfg_ring_cap g (s.ringCap d g)) s

/-- The first gathering whose RING_NEED exceeds its capacity. -/
def State.capShort (s : State) (d : BitVec 512) : Option Nat :=
  (descGths d).find? fun g => decide (s.getN F.gthCfg_ring_cap g < s.getN F.gthCfg_ring_need g)

/-- Ports that the plan uses: the primary ports toward the devices of its send and relay entries. -/
def State.planPorts (s : State) (r : Nat) : List Nat :=
  let sends := (s.gthsOf r).flatMap fun g => (List.range 64).filterMap fun m =>
    let e := (s.gth g).xplan.at m
    if XP.valid e then some (XP.dev e) else none
  let relays := s.arr.relay.entries.filterMap fun p => if Relay.valid p.2 then some (Relay.dst p.2) else none
  ((sends ++ relays).filter fun v => s.bitF F.fstRoute_valid v).map fun v => s.getN F.fstRoute_pri v

/-- Step 4: G below GFLOOR, or a hop latency above HOPMAX_PS. -/
def State.timingBad (s : State) (d : BitVec 512) : Bool :=
  Desc.mode d == 1 && (decide (Desc.gap d < gFloor d s.aclkMhz) ||
    (s.planPorts (Desc.region d)).any fun p => decide (Desc.hopmax d < s.getN F.fstPortStat_hoplat_ps p))

/-- Steps 1 to 4 for one region: the CODE, 0 where all pass. -/
def State.completionCode (s : State) (d : BitVec 512) : Nat × State :=
  if s.rstqBad d then (0x13, s)
  else
    let s := s.writeCaps d
    match s.capShort d with
    | some g => (0x14, s.logOther .gthCfg g)
    | none =>
      if s.planClash (Desc.region d) then (0x13, s)
      else
        let s := if Desc.mode d = 1 then s.setTiming d else s
        if s.timingBad d then (0x15, s) else (0, s)

/-- A complete load ends what a column move still owed to the gatherings of the region (R467). -/
def State.dropMoved (s : State) (d : BitVec 512) : State :=
  s.onSys fun y => { y with colMove := y.colMove.map fun m => { m with left := m.left.filter fun g => !inDesc d g } }

/-- A gathering as a load leaves it (R154): the store holds what FOLIO_INIT gave it, write buffers are empty, queue pointers and
accumulators are zero, whatever the ring did to them while frames were still to come. -/
def Gth.initial (y : Gth) : Gth :=
  { y with store := y.init, init := {}, working := [], pending := [], draining := [], queue := {},
           press := y.press.mapVals fun p => { p with acc := ⟨{}, none, {}⟩, stages := [] }, sdirty := true, fdirty := true }

/-- Step 5: configuration, cadences, folio blocks, hash. -/
def State.configure (s : State) (x : RegionDesc) (hash : List Byte) : State :=
  let d := x.d
  let r := Desc.region d
  let s := ((s.putN F.qctCfg_len r (Desc.len d)).putN F.qctCfg_gap r (Desc.gap d)).putN F.qctCfg_mode r (Desc.mode d)
  let s := (List.range 64).foldl (fun (s : State) k =>
    (s.setReg .qctCadPat (64 * r + k) (x.pat.getD k 0)).putN F.qctCadLen_len (64 * r + k) (x.len.getD k 0)) s
  let s := (descGths d).foldl (fun (s : State) g =>
    (s.updGth g Gth.initial).clrF F.gthCfg_unloaded g) s
  let s := ((s.dropMoved d).clrF F.qctBmkStat_lvalid r).clrF F.qctBmkStat_rbad r
  (List.range 4).foldl (fun (s : State) k => s.setReg .bndHash (4 * r + k) (BitVec.ofNat 64 (leAt hash (8 * k) 8))) s

/-- A context enters LOADED. -/
def State.loaded (s : State) (x : Nat) : State := (s.putN F.bndStat_state x 4).setF F.bndStat_done_ev x

/-- Step 6 for one region. -/
def State.regionLoaded (s : State) (d : BitVec 512) (autocase : Bool) : State :=
  let r := Desc.region d
  let s := s.loaded r
  if autocase && !s.caseRefused r then s.beginCasing r else s

/-- The loader's record of a core that an image has loaded. -/
def State.markLoaded (s : State) (c : Nat) (hash : List Byte) : State :=
  s.onSys fun y => { y with cores := y.cores.put c { loaded := true, imemw := false, hash } }

/-- Cores of an image out of reset, with the hash recorded (R363, R421). -/
def State.releaseCores (s : State) (v : Serving) : State :=
  let cs := ((v.manifest.filter fun e => decide (8 ≤ FA.kind e.fa)).map fun e => FA.core e.fa).eraseDups
  cs.foldl (fun (s : State) c =>
    let s := s.clrF F.awlCtl_holdrst c
    (s.setCore c (s.core c)).markLoaded c v.hash) s

/-! ### Repair (R370, R467) -/

/-- Gatherings of a region that R49 marked unloaded. -/
def State.unloadedOf (s : State) (r : Nat) : List Nat := (s.gthsOf r).filter fun g => s.bitF F.gthCfg_unloaded g

/-- Sectors read one after the other as words; none where one fails. -/
def State.sectorWords (s : State) (sec n : Nat) : Option (List Word) × State :=
  (List.range n).foldl (fun (acc : Option (List Word) × State) i =>
    match acc.1 with
    | none => acc
    | some l =>
      match acc.2.readSector (sec + i) 0 with
      | (some bs, s) => (some (l ++ bytesToWords bs), s)
      | (none, s) => (none, s)) (some [], s)

/-- The values of a gathering from its slots in DRAM. -/
def State.takeBack (s : State) (r g sec : Nat) : State :=
  match s.sectorWords sec stateSectors with
  | (none, s) => s.setF F.qctBmkStat_rbad r
  | (some sw, s) =>
    match s.sectorWords (sec + stateSectors) folioSectors with
    | (none, s) => s.setF F.qctBmkStat_rbad r
    | (some fw, s) =>
      let dirty := sw.getD 1048 0
      let s := (s.loadState g sw fun n _ => (sw.getD (1044 + n) 0).toNat % 4096).loadFolio g fw
      s.updGth g fun x => { x with sdirty := dirty.getLsbD 0, fdirty := dirty.getLsbD 1 }

/-- A moved gathering takes its captured values back (R467). -/
def State.moveBack (s : State) (r g : Nat) : State :=
  match s.sys.colMove with
  | none => s
  | some m =>
    if m.left.contains g = false then s
    else
      let s := s.takeBack r g (m.dst + 259 * m.gths.idxOf g)
      let left := m.left.filter (· != g)
      let s := s.putN F.upkColrep_pending 0 left.length
      if left.isEmpty then
        ((s.putN F.upkColrep_state 0 0).raise 918).onSys fun y => { y with colMove := none }
      else s.onSys fun y => { y with colMove := some { m with left } }

/-- An unloaded gathering whose frames have all been written: leaves the image does not carry are zero. -/
def State.repaired (s : State) (v : Serving) (r g : Nat) : State :=
  let has (k : Nat) : Bool := v.manifest.any fun e => e.fa == faOf g k 0
  let s := if has 1 then s else s.writePress g []
  let s := if has 2 then s else s.writeAccess g []
  let s := s.putN F.gthCfg_ring_cap g (s.ringCap (s.region r).desc g)
  (s.moveBack r g).clrF F.gthCfg_unloaded g

/-- A repair load complete: the region stays HELD, its context is DONE. -/
def State.repairDone (s : State) (v : Serving) (r : Nat) : State :=
  let s := (s.unloadedOf r).foldl (fun (s : State) g => s.repaired v r g) s
  (s.putN F.bndStat_state r 6).setF F.bndStat_done_ev r

/-- A frame that a repair load writes. -/
def State.repairWrites (s : State) (fa : Nat) : Bool :=
  let k := FA.kind fa
  (k == 0 || k == 1 || k == 2 || k == 4) && s.bitF F.gthCfg_unloaded (FA.gth fa)

/-! ### Frames -/

/-- The last frame has been written (R362, R363, R370). -/
def State.completeLoad (s : State) (j : LoadJob) (v : Serving) : State :=
  if j.repair then s.endServing.repairDone v j.ctx
  else
    let (code, s) := v.descs.foldl (fun (acc : Nat × State) x =>
      if acc.1 ≠ 0 then acc else acc.2.completionCode x.d) (0, s)
    if code ≠ 0 then s.failLoad code
    else
      let s := s.endServing
      let s := v.descs.foldl (fun (s : State) x => s.configure x v.hash) s
      let s := s.releaseCores v
      let s := if j.ctx < 16 then s else s.loaded j.ctx
      v.descs.foldl (fun (s : State) x => s.regionLoaded x.d j.autocase) s

/-- Step 4 of R360 on a record: its CODE, 0 where it passes. -/
def State.recordCode (s : State) (v : Serving) (e : ManifestEntry) (rec : List Byte) : Nat :=
  let data := bytesAt rec 4 e.len
  if leAt rec 0 4 ≠ e.fa then 0x10
  else if leAt rec (4 + e.len) 4 ≠ (crc32c (rec.take (4 + e.len))).toNat then 0x11
  else if sha256 data ≠ e.digest then 0x12
  else if s.contentBad v.descs e.fa data then 0x13
  else 0

/-- The served load moves on past the record of entry `e`. -/
def State.advance (s : State) (j : LoadJob) (v : Serving) (e : ManifestEntry) (wrote : Bool) : State :=
  let v := { v with taken := v.taken + 1, offset := v.offset + 8 + e.len, wrote := v.wrote || wrote }
  let s := s.onSys fun y => { y with serving := some v }
  let s := if wrote then s.addF F.bndStat_frames j.ctx 1 else s
  if v.taken = v.manifest.length then s.completeLoad j v else s

/-- A record that passed step 4: written, the first write of the load taking effect first. -/
def State.acceptFrame (s : State) (j : LoadJob) (v : Serving) (e : ManifestEntry) (rec : List Byte) : State :=
  let data := bytesAt rec 4 e.len
  let s := s.consume j (8 + e.len)
  if j.repair then
    let w := s.repairWrites e.fa
    (if w then s.writeFrame e.fa data else s).advance j v e w
  else
    let s := if v.wrote then s else v.descs.foldl (fun (s : State) x => s.startRegion x.d v.anchor) s
    (s.writeFrame e.fa data).advance j v e true

def State.frameRecord (s : State) (bytes : List Byte) : State :=
  match s.sys.current, s.sys.serving with
  | some j, some v =>
    let s := s.arrive j bytes
    match v.manifest[v.taken]? with
    | none => s
    | some e =>
      match s.fetch j v.offset (8 + e.len) with
      | .wait => s
      | .short => s.failLoad 0x0E
      | .bad s => s.failLoad 0x16
      | .ok rec s =>
        if s.recordCode v e rec ≠ 0 then s.failLoad (s.recordCode v e rec) else s.acceptFrame j v e rec
  | _, _ => s

/-- FRAME_RECORD (R360): the next frame record, of which `bytes` arrive from the host, where that is the source. -/
def execFrameRecord (bytes : List Byte) (s : State) : Result := .next (s.frameRecord bytes)

/-- LOAD_STALL_TIMEOUT (R364): no byte of the served image for STREAM_TO_MS. -/
def execLoadStallTimeout (s : State) : Result := .next (s.failLoad 0x0F)

/-- LOAD_SOURCE_ERROR (R364): the source is short, or reports an error. -/
def execLoadSourceError (short : Bool) (s : State) : Result := .next (s.failLoad (if short then 0x0E else 0x16))

/-! ### Flash writes (R372) -/

/-- The CODE of an image for a slot: KIND FULL, steps 1, 2 and 4 of R360. The content of an XPLAN frame is checked against the
GTH_CTL frames of the same image, which a copy of the state takes for the check and which are then dropped. -/
def State.flashImageCode (s : State) (img : List Byte) : Nat :=
  if img.length < 32 then 0x0E
  else if s.headerCode 16 0 0 img ≠ 0 then s.headerCode 16 0 0 img
  else if Img.kind img ≠ Img.full then 0x05
  else if img.length < Img.framesAt img then 0x0E
  else if s.signatureCode img ≠ 0 then s.signatureCode img
  else
    let v : Serving :=
      { job := { ctx := 17, fn := 0, srcsel := 2, src := 0, len := img.length, autocase := false, repair := false },
        kind := 0, anchor := 0, descs := (rawDescs img).map parseDesc, manifest := [], hash := [], offset := 0 }
    ((parseManifest img).foldl (fun (acc : Nat × Nat × State) e =>
      let (code, at_, t) := acc
      let rec_ := bytesAt img at_ (8 + e.len)
      if code ≠ 0 then acc
      else if img.length < at_ + 8 + e.len then (0x0E, at_, t)
      else (t.recordCode v e rec_, at_ + 8 + e.len,
        if FA.kind e.fa = 4 then t.writeCtl (FA.gth e.fa) (BitVec.ofNat 2048 (ofBytes (bytesAt rec_ 4 e.len))) else t))
      (0, Img.framesAt img, s)).1

/-- FLASH_COMMIT_RECORD (R372): the image read back passes steps 1, 2 and 4, and the slot gets its record. -/
def State.flashCommit (s : State) : State :=
  match s.sys.flashJob with
  | none => s
  | some j =>
    let img := s.flashBytes (slotAt j.slot) j.image.length
    let code := s.flashImageCode img
    if code ≠ 0 then s.failFlash code
    else
      let seq := ((s.slotRecord (1 - j.slot)).map (·.1)).getD 0
      let s := s.putFlash (commitAt j.slot) (commitRecord ((seq + 1) % 2 ^ 32) img.length (imageHash img))
      let s := s.onSys fun y => { y with flashJob := none, fresh := j.slot :: y.fresh.filter (· != j.slot) }
      (s.putN F.bndStat_state 17 6).setF F.bndStat_done_ev 17

def execFlashCommitRecord (s : State) : Result := .next s.flashCommit

/-! ### BND_xCMD (R373) -/

/-- PF, and VF f for context R(f − 1). -/
def ownsCtx (fn x : Nat) : Bool := fn == 0 || (decide (x < 16) && fn == x + 1)

namespace Cmd
def go (v : BitVec 64) : Bool := v.getLsbD 0
def abort (v : BitVec 64) : Bool := v.getLsbD 2
def casein (v : BitVec 64) : Bool := v.getLsbD 3
def free (v : BitVec 64) : Bool := v.getLsbD 9
def srcsel (v : BitVec 64) : Nat := fieldOf F.bndCmd_srcsel v
def slot (v : BitVec 64) : Nat := fieldOf F.bndCmd_slot v
end Cmd

/-- IDLE, DONE, LOADED or FAILED. -/
def State.ctxAtRest (s : State) (x : Nat) : Bool :=
  let st := s.getN F.bndStat_state x
  st == 0 || st == 6 || st == 4 || st == 7

/-- The slot is the source of a load queued or served. -/
def State.slotBusy (s : State) (slot : Nat) : Bool :=
  (s.sys.jobs ++ s.sys.current.toList).any fun j => j.srcsel == 2 && j.src == slot

/-- A GO that R359, R372, R373 or R374 refuses. -/
def State.goRefused (s : State) (fn x : Nat) (v : BitVec 64) : Bool :=
  let src := s.reg .bndSrc x
  !s.ctxAtRest x || fieldOf F.bndCmd_len v == 0 || (Cmd.srcsel v == 0 && src.extractLsb' 0 6 != 0) ||
    (fn != 0 && decide (2 ≤ Cmd.srcsel v)) || (Cmd.srcsel v == 2 && decide (2 < src.toNat)) ||
    (x == 17 && (decide (2 ≤ Cmd.srcsel v) || s.sys.flashJob.isSome || s.slotBusy (Cmd.slot v)))

/-- A command that the context's state does not permit, or more than one at once. -/
def State.cmdRefused (s : State) (fn x : Nat) (v : BitVec 64) : Bool :=
  let st := s.getN F.bndStat_state x
  let asked := (Cmd.go v).toNat + (Cmd.abort v).toNat + (Cmd.casein v).toNat + (Cmd.free v).toNat
  decide (1 < asked) || (Cmd.go v && s.goRefused fn x v) ||
    (Cmd.abort v && !decide (1 ≤ st ∧ st ≤ 3)) ||
    (Cmd.casein v && (decide (16 ≤ x) || st != 4 || s.qstate x != Q.unbound || s.caseRefused x)) ||
    (Cmd.free v && (fn != 0 || decide (16 ≤ x) || s.qstate x != Q.unbound || !s.ctxAtRest x))

/-- GO accepted (R359). -/
def State.queueLoad (s : State) (fn x : Nat) : State :=
  let j : LoadJob :=
    { ctx := x, fn, srcsel := s.getN F.bndCmd_srcsel x, src := (s.reg .bndSrc x).toNat, len := s.getN F.bndCmd_len x,
      autocase := s.bitF F.bndCmd_autocase x, repair := decide (x < 16) && s.bitF F.bndCmd_repair x,
      slot := s.getN F.bndCmd_slot x }
  let s := (s.putN F.bndStat_state x 1).putN F.bndStat_code x 0
  s.onSys fun y => { y with jobs := y.jobs ++ [j] }

/-- A flash write whose request stands first in an idle loader begins at its GO; any other waits its turn (R359). -/
def State.flashTurn (s : State) (bytes : List Byte) : State :=
  match s.sys.current, s.sys.flashJob, s.sys.jobs with
  | none, none, [j] => (s.onSys fun y => { y with jobs := [] }).startFlash j bytes
  | _, _, _ => s

/-- A load of the context ends with CODE 0x17 (R364): withdrawn where it is queued. -/
def State.abortCtx (s : State) (x : Nat) : State :=
  if s.sys.current.map (·.ctx) = some x then s.failLoad 0x17
  else
    match s.sys.jobs.find? fun k => k.ctx == x with
    | some k => (s.onSys fun y => { y with jobs := y.jobs.filter fun k => k.ctx != x }).failCtx x k.fn k.boot 0x17 0
    | none => if x = 17 then s.failFlash 0x17 else s

/-- FREE (R361): the rectangle and pads released, the hash zero, the context IDLE. -/
def State.freeRegion (s : State) (r : Nat) : State :=
  let d := (s.region r).desc
  let s := (List.range 192).foldl (fun (s : State) p =>
    if Desc.claims d p then s.updPad p fun x => { x with entry := none } else s) s
  let s := (s.gthsOf r).foldl (fun (s : State) g => s.clrF F.gthCfg_inuse g) s
  let s := (hashZero s r).updRegion r fun x => { x with desc := 0 }
  (s.putN F.bndStat_state r 0).dropBanks

/-- A write of BND_xCMD; `bytes` is what the host holds at SRC, for a flash write. -/
def State.writeBndCmd (s : State) (fn x : Nat) (v : BitVec 64) (bytes : List Byte) : State :=
  if ownsCtx fn x = false then s.ignored fn .bndCmd x
  else
    let v := if x = 17 then v else v &&& ~~~0x100#64
    s.writeReg fn .bndCmd x v (s.cmdRefused fn x v) (fun s => s.setF F.bndStat_rej x) fun s =>
      if Cmd.go v then (if x = 17 then (s.queueLoad fn x).flashTurn bytes else s.queueLoad fn x)
      else if Cmd.abort v then s.abortCtx x
      else if Cmd.casein v then s.beginCasing x
      else if Cmd.free v then s.freeRegion x
      else s

/-- LOAD_GO (R359). -/
def execLoadGo (fn : FnId) (x : ContextId) (v : BitVec 64) (s : State) : Result :=
  .next (s.bar .bndCmd x fun s => s.writeBndCmd fn x v [])

/-- LOAD_ABORT_CMD (R364). -/
def execLoadAbortCmd (fn : FnId) (x : ContextId) (v : BitVec 64) (s : State) : Result :=
  .next (s.bar .bndCmd x fun s => s.writeBndCmd fn x v [])

/-- CASEIN (R367). -/
def execCasein (fn : FnId) (r : RegionId) (v : BitVec 64) (s : State) : Result :=
  .next (s.bar .bndCmd r fun s => s.writeBndCmd fn r v [])

/-- FREE (R361). -/
def execFree (fn : FnId) (r : RegionId) (v : BitVec 64) (s : State) : Result :=
  .next (s.bar .bndCmd r fun s => s.writeBndCmd fn r v [])

/-- FLASH_WRITE_GO (R372): the PF's write of BND_FCMD. -/
def execFlashWriteGo (v : BitVec 64) (bytes : List Byte) (s : State) : Result :=
  .next (s.bar .bndCmd 17 fun s => s.writeBndCmd 0 17 v bytes)

/-! ### The other loader registers -/

/-- A write of BND_xSRC. -/
def State.writeBndSrc (s : State) (fn x : Nat) (v : BitVec 64) : State :=
  if ownsCtx fn x then s.writeReg fn .bndSrc x v false id id else s.ignored fn .bndSrc x

/-- A write of BND_CTL: STREAM_TO_MS of 0 is out of range. -/
def State.writeBndCtl (s : State) (fn : Nat) (v : BitVec 64) : State :=
  if fn = 0 then
    s.writeReg fn .bndCtl 0 v (fieldOf F.bndCtl_stream_to_ms v == 0) (fun s => s.setF F.bndCtl_rej 0) id
  else s.ignored fn .bndCtl 0

/-- A write of BND_xSTAT: its W1C bits. -/
def State.writeBndStat (s : State) (fn x : Nat) (v : BitVec 64) : State :=
  if ownsCtx fn x then s.writeReg fn .bndStat x v false id id else s.ignored fn .bndStat x

/-- A write of BND_Rr_CASE. -/
def State.writeBndCase (s : State) (fn r : Nat) (v : BitVec 64) : State :=
  if ownsCtx fn r then
    s.writeReg fn .bndCase r v (fieldOf F.bndCase_gap v == 0) (fun s => s.setF F.bndStat_rej r) id
  else s.ignored fn .bndCase r

/-- A write of BND_Rr_LIMIT: only while the region is UNBOUND, and no bank of another region. -/
def State.writeBndLimit (s : State) (fn r : Nat) (v : BitVec 64) : State :=
  if fn = 0 then
    let banks : BitVec 8 := v.extractLsb' 24 8
    let meet := (List.range 16).any fun f => f != r && (s.getF F.bndLimit_banks f &&& banks) != 0
    s.writeReg fn .bndLimit r v (s.qstate r != Q.unbound || meet) (fun s => s.setF F.bndLimit_rej r) id
  else s.ignored fn .bndLimit r

end Sys2Proof.Machine
end

