-- ==== Sys2Proof/Machine/Hold.lean ====
section
/-!
DEFINITION. Holds and releases, readback, bookmarks and restores (14_readback_and_bookmarks.md).
-/
namespace Sys2Proof.Machine

/-! ### QCT_HOLD (R375 to R379) -/

/-- The region executes and has no hold pending. -/
def State.holdRefused (s : State) (r : Nat) : Bool := !s.inRun r || s.bitF F.qctHold_pend r

/-- A release that R379 permits: at once in LOCAL mode, by a system command in SYSTEM mode (R189). -/
def State.release (s : State) (r : Nat) (pads : BitVec 192) : State :=
  if s.systemMode r then s.sendSystem 0x03 (BitVec.ofNat 40 (s.getN F.qctCommitted_count r + 1)) else s.resume r pads

/-- A write of QCT_HOLD. -/
def State.writeHold (s : State) (fn : FnId) (r : RegionId) (v : BitVec 64) (pads : BitVec 192) : State :=
  if ownsRegion fn r = false then s.ignored fn .qctHold r
  else
    let hold := v.getLsbD 63
    let rel := v.getLsbD 62
    s.writeReg fn .qctHold r v ((hold && s.holdRefused r) || (rel && s.releaseRefused r))
      (fun s => s.setF F.qctStatus_cfg_rej r) fun s =>
        if hold then s.setF F.qctHold_pend r else if rel then s.release r pads else s

/-- HOLD_REQUEST (R375). -/
def execHoldRequest (fn : FnId) (r : RegionId) (v : BitVec 64) (s : State) : Result :=
  .next (s.bar .qctHold r fun s => s.writeHold fn r v 0)

/-- HOLD_RELEASE (R379). -/
def execHoldRelease (fn : FnId) (r : RegionId) (v : BitVec 64) (pads : BitVec 192) (s : State) : Result :=
  .next (s.bar .qctHold r fun s => s.writeHold fn r v pads)

/-! ### Readback (R381 to R384) -/

/-- The owner of region r: VF r + 1, whose partition takes the output. -/
def ownerOf (r : Nat) : Nat := r + 1

/-- The region executes no leaves and keeps committed state. -/
def State.atRest (s : State) (r : Nat) : Bool :=
  s.qstate r == Q.held || s.qstate r == Q.qfault || s.qstate r == Q.tokenLost

/-- CODE 0x01 of R381. -/
def State.stateRefused (s : State) (r : Nat) (auto : Bool) : Bool := !s.atRest r && !(auto && !s.systemMode r && s.inRun r)

namespace Sel
def auto (v : BitVec 64) : Bool := v.getLsbD 62
def part (v : BitVec 64) (p : Nat) : Bool := v.getLsbD (56 + p)
end Sel

/-- The gatherings that a written QCT_RB_SEL selects. -/
def State.selected (s : State) (r : Nat) (v : BitVec 64) : List Nat :=
  (s.gthsOf r).filter fun g => inRect (fieldOf F.qctRbSel_qmask v) (fieldOf F.qctRbSel_gx0 v) (fieldOf F.qctRbSel_gx1 v)
    (fieldOf F.qctRbSel_gy0 v) (fieldOf F.qctRbSel_gy1 v) g

/-- Sectors of the parts that a value of PARTS names. -/
def partsSize (v : BitVec 64) : Nat :=
  (if Sel.part v 0 then stateSectors else 0) + (if Sel.part v 1 then folioSectors else 0) +
    (if Sel.part v 2 then leafSectors else 0)

/-- The rectangle goes beyond the region's own. -/
def State.rectOutside (s : State) (r : Nat) (v : BitVec 64) : Bool :=
  let d := (s.region r).desc
  ((List.range 4).any fun q => (fieldOf F.qctRbSel_qmask v).testBit q && !(Desc.qmask d).testBit q) ||
    decide (fieldOf F.qctRbSel_gx0 v < Desc.gx0 d) || decide (Desc.gx1 d < fieldOf F.qctRbSel_gx1 v) ||
    decide (fieldOf F.qctRbSel_gy0 v < Desc.gy0 d) || decide (Desc.gy1 d < fieldOf F.qctRbSel_gy1 v)

/-- `n` sectors from `dst` on fit in the owner's partition. -/
def State.outputFits (s : State) (r dst n : Nat) : Bool :=
  let (lo, hi) := s.partSectors (ownerOf r)
  decide (lo ≤ dst ∧ dst + n ≤ hi ∧ dst + n ≤ s.usableSectors)

/-- A gathering of the region waits for its write-back by a column move (R468). -/
def State.moveHolds (s : State) (r : Nat) : Bool :=
  match s.sys.colMove with
  | some m => (if m.left.isEmpty then m.gths else m.left).any fun g => s.regionOf g == some r
  | none => false

/-- A readback or bookmark request that finds another operation of the region, or a column move, in progress (0x04). -/
def State.opBusy (s : State) (r : Nat) : Bool := (s.op r).isSome || s.moveHolds r

/-- CODE of a refused GO (R381), 0 where it is accepted. -/
def State.readbackCode (s : State) (r : Nat) (v : BitVec 64) : Nat :=
  let gs := s.selected r v
  if s.stateRefused r (Sel.auto v) then 1
  else if s.rectOutside r v || gs.isEmpty || partsSize v == 0 then 2
  else if !s.outputFits r (s.getN F.qctRbDst_sector r) (gs.length * partsSize v) then 3
  else if s.opBusy r then 4
  else 0

/-- A hold of the device's own where none is pending (R382); whether it is the device's own. -/
def State.autoHold (s : State) (r : Nat) : Bool × State :=
  if s.atRest r || s.bitF F.qctHold_pend r then (false, s) else (true, s.requestHold r 0)

/-- A write of QCT_RB_SEL. -/
def State.writeRbSel (s : State) (fn : FnId) (r : RegionId) (v : BitVec 64) : State :=
  if ownsRegion fn r = false then s.ignored fn .qctRbSel r
  else
    let go := v.getLsbD 63
    let code := s.readbackCode r v
    s.writeReg fn .qctRbSel r v (go && code != 0)
      (fun s => (s.setF F.qctRbStat_rej r).putN F.qctRbStat_code r code) fun s =>
        if go then
          let wait := !s.atRest r
          let (own, s) := s.autoHold r
          let s := (s.putN F.qctRbStat_state r (if wait then 1 else 2)).putN F.qctRbStat_code r 0
          s.setOp r (some { kind := .readback, ownHold := own, fn })
        else s

/-- READBACK_GO (R381). -/
def execReadbackGo (fn : FnId) (r : RegionId) (v : BitVec 64) (s : State) : Result :=
  .next (s.bar .qctRbSel r fun s => s.writeRbSel fn r v)

/-- Words written as sectors from a first sector on. -/
def State.putWords (s : State) (sec : Nat) (ws : List Word) : State :=
  (List.range (ws.length / 12)).foldl (fun (s : State) i => s.writeSector (sec + i) (wordsToBytes ((ws.drop (12 * i)).take 12))) s

/-- The words of one part, and whether a check failed. -/
def State.partWords (s : State) (r g part : Nat) : List Word × Bool × State :=
  if part = 0 then (s.statePart r g noExtra, s.stateBad g, s)
  else if part = 1 then s.folioPart r g
  else (s.leafPart r g, false, s)

def sectorsOfPart (part : Nat) : Nat :=
  if part = 0 then stateSectors else if part = 1 then folioSectors else leafSectors

/-- One part written: the sector after it, and whether a check failed. -/
def State.putPart (s : State) (r g part sec : Nat) : Nat × Bool × State :=
  let (ws, bad, s) := s.partWords r g part
  (sec + sectorsOfPart part, bad, s.putWords sec ws)

/-- Every selected part, in the order of R381. -/
def State.readParts (s : State) (r : Nat) : Bool × State :=
  let v := s.reg .qctRbSel r
  let jobs := (s.selected r v).flatMap fun g => ((List.range 3).filter (Sel.part v)).map fun p => (g, p)
  let (_, bad, s) := jobs.foldl (fun (acc : Nat × Bool × State) x =>
    let (sec, bad, s) := acc.2.2.putPart r x.1 x.2 acc.1
    (sec, acc.2.1 || bad, s)) (s.getN F.qctRbDst_sector r, false, s)
  (bad, s)

/-- READBACK_DONE (R384): the readback of a region at rest is complete. -/
def execReadbackDone (r : RegionId) (pads : BitVec 192) (s : State) : Result :=
  .next <| match s.op r with
    | some o =>
      if o.kind = .readback ∧ s.getN F.qctRbStat_state r = 2 then
        let (bad, s) := s.readParts r
        let s := ((s.putN F.qctRbStat_state r 3).setF F.qctRbStat_done_ev r).putF F.qctRbStat_perr r (BitVec.ofBool bad)
        let s := s.putF F.qctRbStat_quire r ((s.getF F.qctCommitted_count r).setWidth 40)
        (s.setOp r none).endOwnHold r o.ownHold pads
      else s
    | none => s

/-! ### Bookmarks (R386 to R389) -/

def State.lastSlot (s : State) (r : Nat) : Option Nat :=
  if s.bitF F.qctBmkStat_lvalid r then some (s.getN F.qctBmkStat_lastslot r) else none

/-- The slots of a chain: at most 64. -/
def State.chainOf (s : State) (r k : Nat) : List Nat := s.chain r 64 k

def State.ngth (s : State) (r : Nat) : Nat := (s.gthsOf r).length

/-- CODE of a refused TAKE (R386), 0 where it is accepted. -/
def State.takeCode (s : State) (r : Nat) (v : BitVec 64) : Nat :=
  let slot := fieldOf F.qctBmkCtl_slot v
  let incr := fieldOf F.qctBmkCtl_full v == 0
  let passes := match s.lastSlot r with
    | some l => incr && (s.chainOf r l).contains slot
    | none => false
  if s.stateRefused r (v.getLsbD 61) then 1
  else if s.ngth r = 0 then 2
  else if !s.outputFits r (s.getN F.qctBmkDst_sector r) (259 * s.ngth r) then 3
  else if s.opBusy r then 4
  else if passes then 6
  else 0

def State.regionHash (s : State) (r : Nat) : List (BitVec 64) := (List.range 4).map fun k => s.reg .bndHash (4 * r + k)

/-- CODE of a refused RESTORE (R390), 0 where it is accepted. -/
def State.restoreCode (s : State) (r slot : Nat) : Nat :=
  let chain := s.chainOf r slot
  if !(s.atRest r || (s.qstate r == Q.unbound && s.getN F.bndStat_state r == 4)) then 1
  else if s.opBusy r then 4
  else if chain.any fun k => !s.slotValid r k || (s.index r k).isNone then 7
  else match s.index r slot with
    | some x => if x.hash ≠ s.regionHash r ∨ x.ngth ≠ s.ngth r then 8 else 0
    | none => 7

/-- CODE of a written QCT_BMK_CTL: TAKE and RESTORE together are two operations of one region (0x04). -/
def State.bmkCode (s : State) (r : Nat) (v : BitVec 64) : Nat :=
  match v.getLsbD 63, v.getLsbD 62 with
  | true, true => 4
  | true, false => s.takeCode r v
  | false, true => s.restoreCode r (fieldOf F.qctBmkCtl_slot v)
  | false, false => 0

/-- TAKE accepted. -/
def State.startTake (s : State) (fn r : Nat) : State :=
  let wait := !s.atRest r
  let full := s.bitF F.qctBmkCtl_full r || !s.bitF F.qctBmkStat_lvalid r
  let (own, s) := s.autoHold r
  let s := (s.putN F.qctBmkStat_state r (if wait then 1 else 2)).putN F.qctBmkStat_code r 0
  s.setOp r (some { kind := .capture, ownHold := own, slot := s.getN F.qctBmkCtl_slot r, full, fn })

/-- RESTORE accepted. -/
def State.startRestore (s : State) (fn r : Nat) : State :=
  let s := (s.putN F.qctBmkStat_state r 3).putN F.qctBmkStat_code r 0
  s.setOp r (some { kind := .restore, slot := s.getN F.qctBmkCtl_slot r, fn, unbound := s.qstate r == Q.unbound })

/-- A write of QCT_BMK_CTL. -/
def State.writeBmkCtl (s : State) (fn : FnId) (r : RegionId) (v : BitVec 64) : State :=
  if ownsRegion fn r = false then s.ignored fn .qctBmkCtl r
  else
    let code := s.bmkCode r v
    s.writeReg fn .qctBmkCtl r v (code != 0)
      (fun s => (s.setF F.qctBmkStat_rej r).putN F.qctBmkStat_code r code) fun s =>
        if v.getLsbD 63 then s.startTake fn r else if v.getLsbD 62 then s.startRestore fn r else s

/-- BOOKMARK_TAKE (R386). -/
def execBookmarkTake (fn : FnId) (r : RegionId) (v : BitVec 64) (s : State) : Result :=
  .next (s.bar .qctBmkCtl r fun s => s.writeBmkCtl fn r v)

/-- BOOKMARK_RESTORE (R390). -/
def execBookmarkRestore (fn : FnId) (r : RegionId) (v : BitVec 64) (s : State) : Result :=
  .next (s.bar .qctBmkCtl r fun s => s.writeBmkCtl fn r v)

/-- The first write of a capture: every slot whose chain passes through the slot becomes invalid (R387). -/
def State.invalidateThrough (s : State) (r slot : Nat) : State :=
  let hit := (List.range 64).filter fun k => (s.chainOf r k).contains slot
  hit.foldl (fun (s : State) k => s.dropSlot r k) s

/-- BOOKMARK_ENGINE_START (R389). -/
def execBookmarkEngineStart (r : RegionId) (s : State) : Result :=
  .next <| match s.op r with
    | some o =>
      let due := (o.kind = .capture ∧ s.getN F.qctBmkStat_state r = 2) ∨ o.kind = .restore
      if due ∧ o.started = false then
        let s := s.setOp r (some { o with started := true })
        if o.kind = .capture then s.invalidateThrough r o.slot else s
      else s
    | none => s

/-! ### Capture -/

/-- The parts of a capture, gathering by gathering: state, then folio, where the bookmark holds them. -/
def State.captureJobs (s : State) (r : Nat) (full : Bool) : List (Nat × Nat × Bool) :=
  (s.gthsOf r).flatMap fun g =>
    let x := s.gth g
    [(g, 0, full || x.sdirty), (g, 1, full || x.fdirty)]

/-- Every part of a capture written: the index's entries, the next sector, and whether a check failed. -/
def State.captureParts (s : State) (r dst : Nat) (jobs : List (Nat × Nat × Bool)) : List (Option Nat) × Nat × Bool × State :=
  jobs.foldl (fun (acc : List (Option Nat) × Nat × Bool × State) x =>
    let (es, sec, bad, s) := acc
    if x.2.2 then
      let (next, b, s) := s.putPart r x.1 x.2.1 sec
      (es ++ [some sec], next, bad || b, s)
    else (es ++ [none], sec, bad, s)) ([], dst, false, s)

/-- The dirty bits of the captured parts cleared (R385). -/
def State.clearDirty (s : State) (jobs : List (Nat × Nat × Bool)) : State :=
  jobs.foldl (fun (s : State) x =>
    if x.2.2 then
      s.updGth x.1 fun y => if x.2.1 = 0 then { y with sdirty := false } else { y with fdirty := false }
    else s) s

/-- The whole capture, and what its completion records (R387, R388). -/
def State.captureDone (s : State) (r : Nat) (o : RegionOp) (pads : BitVec 192) : State :=
  let dst := s.getN F.qctBmkDst_sector r
  let quire := s.getN F.qctCommitted_count r
  let jobs := s.captureJobs r o.full
  let parent := if o.full then none else s.lastSlot r
  let (entries, next, bad, s) := s.captureParts r dst jobs
  let s := (s.setF F.qctBmkStat_done_ev r).putN F.qctBmkStat_quire r quire
  let s := (s.putN F.qctBmkSize_sectors r (next - dst)).setOp r none
  let s := if bad then (s.putN F.qctBmkStat_state r 5).putN F.qctBmkStat_code r 0x0A
    else
      let x : BookIndex := { quire, incr := !o.full, parent, ngth := s.ngth r, dst, sectors := next - dst,
                             hash := s.regionHash r, entries }
      let s := s.clearDirty jobs
      let s := s.onSys fun y => { y with indexes := y.indexes.put (64 * r + o.slot) (some x) }
      let s := ((s.putN F.qctBmkStat_lastslot r o.slot).setF F.qctBmkStat_lvalid r).putN F.qctBmkStat_state r 4
      s.putF F.qctBmkValid_valid r (s.getF F.qctBmkValid_valid r ||| (1#64 <<< o.slot))
  s.endOwnHold r o.ownHold pads

/-- BOOKMARK_CAPTURE_DONE (R387). -/
def execBookmarkCaptureDone (r : RegionId) (pads : BitVec 192) (s : State) : Result :=
  .next <| match s.op r with
    | some o => if o.kind = .capture ∧ o.started then s.captureDone r o pads else s
    | none => s

/-! ### Restore (R390, R391) -/

/-- The newest slot of a chain whose entry `i` is valid: its sector and quire. -/
def State.entryOf (s : State) (r : Nat) (chain : List Nat) (i : Nat) : Option (Nat × Nat) :=
  chain.findSome? fun k => match s.index r k with
    | some x => ((x.entries.getD i none).map fun sec => (sec, x.quire))
    | none => none

/-- A part read and checked against GTH, PART and QUIRE. -/
def State.fetchPart (s : State) (r g part : Nat) (chain : List Nat) (i : Nat) : Option (List Word) × State :=
  match s.entryOf r chain i with
  | none => (none, s)
  | some (sec, quire) =>
    match s.sectorWords sec (if part = 0 then stateSectors else folioSectors) with
    | (none, s) => (none, s)
    | (some ws, s) =>
      let h := ws.getD 0 0
      if (h.extractLsb' 0 12).toNat = g ∧ (h.extractLsb' 12 2).toNat = part ∧ ws.getD 1 0 = BitVec.ofNat 40 quire then
        (some ws, s)
      else (none, s)

/-- Every gathering's parts written back; false at the first that fails. -/
def State.restoreParts (s : State) (r slot : Nat) : Bool × State :=
  let chain := s.chainOf r slot
  (s.gthsOf r).zipIdx.foldl (fun (acc : Bool × State) p =>
    if !acc.1 then acc
    else
      match acc.2.fetchPart r p.1 0 chain (2 * p.2) with
      | (none, s) => (false, s)
      | (some sw, s) =>
        match s.fetchPart r p.1 1 chain (2 * p.2 + 1) with
        | (none, s) => (false, s)
        | (some fw, s) => (true, (s.loadState p.1 sw fun _ rp => rp).loadFolio p.1 fw)) (true, s)

/-- A restore that ends well: the region is HELD at the bookmark's quire. -/
def State.restored (s : State) (r : Nat) (o : RegionOp) (quire : Nat) : State :=
  let s := ((s.putN F.qctCommitted_count r quire).putN F.qctExec_count r quire).putN F.qctStatus_attempt r 0
  let s := (s.gthsOf r).foldl (fun (s : State) g => s.updGth g fun x => { x with sdirty := false, fdirty := false }) s
  let s := ((s.putN F.qctBmkStat_lastslot r o.slot).setF F.qctBmkStat_lvalid r).clrF F.qctBmkStat_rbad r
  let s := (s.voidMarks r).updRegion r fun x =>
    { x with live := false, waiting := false, caps := [], frames := [], seen := [], tokens := [], finals := [], fails := [],
             pauseReq := false, recomputes := false, shown := none }
  let s := (s.putN F.qctStatus_state r Q.held).putN F.qctBmkStat_state r 4
  let s := if o.unbound then (s.putN F.bndStat_state r 6).putN F.bndCase_stage r 3 else s
  (s.putN F.qctBmkStat_quire r quire).settle

/-- BOOKMARK_RESTORE_DONE (R391). -/
def execBookmarkRestoreDone (r : RegionId) (s : State) : Result :=
  .next <| match s.op r with
    | some o =>
      if o.kind = .restore ∧ o.started then
        let quire := ((s.index r o.slot).map (·.quire)).getD 0
        let (ok, s) := s.restoreParts r o.slot
        let s := (s.setOp r none).setF F.qctBmkStat_done_ev r
        if ok then s.restored r o quire
        else
          let s := ((s.putN F.qctBmkStat_state r 5).putN F.qctBmkStat_code r 9).setF F.qctBmkStat_rbad r
          s.putN F.qctStatus_state r Q.held
      else s
    | none => s

/-! ### The other registers of the block -/

/-- A write of QCT_RB_DST or QCT_BMK_DST. -/
def State.writeDst (s : State) (fn : FnId) (reg : RegId) (r : RegionId) (v : BitVec 64) : State :=
  if ownsRegion fn r then s.writeReg fn reg r v false id id else s.ignored fn reg r

end Sys2Proof.Machine
end

