-- ==== Sys2Proof/WellFormed.lean ====
section
/-!
DEFINITION. Which commands are well formed: what the types of their operands do not say already.
-/
namespace Sys2Proof

/-- A size of BAR2 that R283 allows the function: 1 GiB to 256 GiB for the PF, to 64 GiB for a VF. -/
def bar2SizeOk (fn size : Nat) : Bool := (List.range (if fn = 0 then 9 else 7)).any fun i => size == 2 ^ (30 + i)

/-- An access of at least one byte that lies in BAR2. -/
def bar2Inside (fn size off len : Nat) : Bool := bar2SizeOk fn size && decide (off + len ≤ size) && decide (0 < len)

/-- An access of BAR0 of at least one byte that is not 8 bytes wide at a multiple of 8 (R6). -/
def badShape (off len : Nat) : Bool := decide (0 < len) && !(len == 8 && off % 8 == 0)

/-- Readings of 64 temperature sensors (R464) and of the domains 2 to 9. -/
def telemetryShape (temps : List Int) (currents : List CurrentSense) : Bool := temps.length == 64 && currents.length == 8

/-- A command that some sender can make. -/
def Instr.wf (i : Instr) : Bool :=
  match i with
  | .bar2Read fn size off len => bar2Inside fn size off len
  | .bar2Write fn size off bytes => bar2Inside fn size off bytes.length
  | .bar0BadAccess _ off len write => badShape off.toNat len || (!write && decide (0 < len))
  | .registerWrite _ off _ => off.toNat % 8 == 0
  | .telemetryUpdate temps currents => telemetryShape temps currents
  | _ => true

end Sys2Proof
end

