-- ==== Sys2Proof/Machine/HostIf.lean ====
section
/-!
DEFINITION. The commands of the host interface (09_host_interface.md): the queue sets and their doorbells, result
delivery and BAR2.
-/
namespace Sys2Proof.Machine

/-! ### Submission queues (R275, R281) -/

/-- An SQ entry waits and its AQ slot is free. -/
def State.sqWaits (s : State) (m : Nat) : Bool :=
  s.hqOn m && s.getN F.hubHqStat_sqhead m != s.getN F.hubDbSqt_index m && decide ((s.hq m).aqOut < s.hqN m)

/-- SQ_ENTRY_READ (R275): the entry is accepted or refused, and its AQ record written, before a DUP record (R288). With
`fails` that write fails on the way: the set stops with ERR = 2 (R281), and an entry of the ledger stands (R290). -/
def execSqEntryRead (m : QueueSetId) (e : SqEntry) (s : State) : Result :=
  .next <| if s.sqWaits m = false then s
    else
      let s := s.putN F.hubHqStat_sqhead m ((s.getN F.hubHqStat_sqhead m + 1) % s.hqN m)
      let (r, s) := s.submit m (some (s.hqFn m)) (some m) e.desc
      if e.fails then s.hqStop m 2
      else
        let s := s.writeAq m r.cw (D.stream e.desc) r.code
        if r.dup then s.sendRq m { cw := r.cw, stream := D.stream e.desc, kind := 1, result := 0 } else s

/-- A function's part of the PCIe configuration space. -/
def State.updPcie (s : State) (fn : Nat) (f : PcieFn → PcieFn) : State :=
  { s with sys := { s.sys with pcie := s.sys.pcie.upd fn f } }

/-- SQ_READ_TIMEOUT (R281): the set stops with ERR = 1, and AER of its function reports the completion timeout (R268). -/
def execSqReadTimeout (m : QueueSetId) (s : State) : Result :=
  .next <| if s.sqWaits m then
      (s.hqStop m 1).updPcie (s.hqFn m) fun x => { x with uncor := x.uncor ||| (1#32 <<< completionTimeout) }
    else s

/-! ### Doorbells (R282) -/

/-- A function may write the registers of a queue set. -/
def State.ownsHq (s : State) (fn m : Nat) : Bool := fn == 0 || fn == s.hqFn m

/-- A doorbell of queue set `m` written: ignored and logged where the set is not the function's or not enabled, a stop
with ERR = 3 where the value is out of range or would free (`freed` of it) more than `left` slots, `act` otherwise. -/
def State.doorbell (s : State) (fn m : Nat) (f : Field 16) (v : BitVec 64) (left : Option Nat)
    (act : Nat → State → State) : State :=
  if !s.ownsHq fn m || !s.bitF F.hubHqCfg_en m then s.ignored fn f.reg m
  else
    let n := s.hqN m
    let i := fieldOf f v
    let freed := (i + n - s.getN f m % n) % n
    let s := s.putN f m i
    if n ≤ i then s.hqStop m 3
    else match left with
      | none => s
      | some k => if k < freed then s.hqStop m 3 else act freed s

/-- DOORBELL_SQT (R282). -/
def execDoorbellSqt (fn : FnId) (m : QueueSetId) (v : BitVec 64) (s : State) : Result :=
  .next (s.bar .hubDbSqt m fun s => s.doorbell fn m F.hubDbSqt_index v none fun _ s => s)

/-- DOORBELL_AQH (R282). -/
def execDoorbellAqh (fn : FnId) (m : QueueSetId) (v : BitVec 64) (s : State) : Result :=
  .next (s.bar .hubDbAqh m fun s => s.doorbell fn m F.hubDbAqh_index v (some (s.hq m).aqOut) fun k s =>
    s.updHq m fun q => { q with aqOut := q.aqOut - k })

/-- DOORBELL_RQH (R276, R282): freed slots take the records that wait. -/
def execDoorbellRqh (fn : FnId) (m : QueueSetId) (v : BitVec 64) (s : State) : Result :=
  .next (s.bar .hubDbRqh m fun s => s.doorbell fn m F.hubDbRqh_index v (some (s.hq m).rqOut) fun k s =>
    (s.updHq m fun q => { q with rqOut := q.rqOut - k }).drainRq m)

/-- DOORBELL_XQH (R282). -/
def execDoorbellXqh (fn : FnId) (m : QueueSetId) (v : BitVec 64) (s : State) : Result :=
  .next (s.bar .hubDbXqh m fun s => s.doorbell fn m F.hubDbXqh_index v (some (s.hq m).xqOut) fun k s =>
    s.updHq m fun q => { q with xqOut := q.xqOut - k })

/-! ### Configuration (R281) -/

/-- Every index of a set at 0, STOP and ERR clear. -/
def State.hqClear (s : State) (m : Nat) : State :=
  let s := ((s.putN F.hubHqCfg_err m 0).clrF F.hubHqCfg_stop m).setReg .hubHqStat m 0
  let s := (((s.setReg .hubDbSqt m 0).setReg .hubDbAqh m 0).setReg .hubDbRqh m 0).setReg .hubDbXqh m 0
  s.updHq m fun q => { q with aqOut := 0, rqOut := 0, xqOut := 0, xslot := 0, aqPhase := true, rqPhase := true,
                              xqPhase := true, itrOpen := [], itrWait := [] }

/-- Vectors of a function's MSI-X table (R268). -/
def tableSize (fn : Nat) : Nat := if fn = 0 then 256 else 112

/-- The bits of HUB_HQm_CFG that may change only while EN = 0. -/
def hqConfigMask : BitVec 64 := RegId.hubHqCfg.rwMask &&& ~~~0x20#64

/-- A write of HUB_HQm_CFG that R281 refuses. -/
def State.hqRefused (s : State) (fn m : Nat) (v : BitVec 64) : Bool :=
  let old := s.reg .hubHqCfg m
  let owner := fieldOf F.hubHqCfg_fn v
  let size := tableSize owner
  (s.bitF F.hubHqCfg_en m && (old &&& hqConfigMask) != (v &&& hqConfigMask)) ||
    (fn != 0 && owner != s.hqFn m) || decide (16 < owner) ||
    decide (fieldOf F.hubHqCfg_log2n v < 4) || decide (16 < fieldOf F.hubHqCfg_log2n v) ||
    decide (size ≤ fieldOf F.hubHqCfg_aqvec v) || decide (size ≤ fieldOf F.hubHqCfg_rqvec v) ||
    decide (size ≤ fieldOf F.hubHqCfg_xqvec v)

/-- A write of HUB_HQm_CFG. EN changed to 1 begins the first pass of every ring (R277). -/
def State.writeHqCfg (s : State) (fn m : Nat) (v : BitVec 64) : State :=
  let was := s.bitF F.hubHqCfg_en m
  if s.ownsHq fn m then
    s.writeReg fn .hubHqCfg m v (s.hqRefused fn m v) id fun s =>
      if s.bitF F.hubHqCfg_en m = false then s.hqClear m
      else
        let s := if was then s else s.updHq m fun q => { q with aqPhase := true, rqPhase := true, xqPhase := true }
        (s.reportResub m).drainRq m
  else s.ignored fn .hubHqCfg m

/-- QUEUE_SET_CFG_WRITE (R281). -/
def execQueueSetCfgWrite (fn : FnId) (m : QueueSetId) (v : BitVec 64) (s : State) : Result :=
  .next (s.bar .hubHqCfg m fun s => s.writeHqCfg fn m v)

/-- A write of a ring base or of the staging base: only while EN = 0 (R281). -/
def State.writeHqBase (s : State) (fn : Nat) (r : RegId) (m : Nat) (v : BitVec 64) : State :=
  if s.ownsHq fn m then s.writeReg fn r m v (s.bitF F.hubHqCfg_en m) id id else s.ignored fn r m

/-! ### Results and intervals (R279, R280, R299) -/

/-- A staging slot's header written to 0, and the next slot looked at from now on. -/
def State.passSlot (s : State) (m addr : Nat) : State :=
  (s.writeWords addr [0] 0).2.updHq m fun q => { q with xslot := (q.xslot + 1) % s.hqN m }

/-- A valid slot: delivered to the XQ, or passed over where its record was delivered before (R299); `fails`: the write of the
record fails on the way, which stops the set with ERR = 2 (R281). -/
def State.deliverSlot (s : State) (m addr : Nat) (ws : List Word) (fails : Bool) : State :=
  let w0 := ws.getD 0 0
  let st := (w0.extractLsb' 0 12).toNat
  let cw := ws.getD 1 0
  let old := cwAtOrBeyond cw (s.ret st) ||
    s.col.items.any fun x => !x.event && x.stream == st && x.cw == cw && x.xdone
  if old then s.passSlot m addr
  else if s.hqN m ≤ (s.hq m).xqOut then s
  else if fails then s.hqStop m 2
  else
    ((s.writeXq m ws).mapItems fun x =>
      if !x.event && x.stream == st && x.cw == cw then { x with xstaged := true, xdone := true } else x).passSlot m addr

/-- RESULT_DELIVERY (R279): the next staging slot examined. -/
def execResultDelivery (e : Delivery) (s : State) : Result :=
  let m := e.m
  .next <| if !s.hqOn m || !s.bitF F.hubHqCfg_xen m then s
    else
      let base := s.stagingBase m
      if s.inPartition (s.hqFn m) base (16 * s.hqN m) = false then s.hqStop m 4
      else
        let addr := base + 16 * (s.hq m).xslot
        match s.readWords addr 16 0 with
        | (none, s) => s
        | (some ws, s) =>
          let w0 := ws.getD 0 0
          if w0.getLsbD 39 = false then s
          else if 14 < (w0.extractLsb' 12 5).toNat then s.hqStop m 4
          else s.deliverSlot m addr ws e.fails

/-- INTERRUPT_INTERVAL_END (R280): the vectors with records since their last signal are signalled. -/
def execInterruptIntervalEnd (m : QueueSetId) (s : State) : Result :=
  let due := (s.hq m).itrWait
  .next <| due.foldl (fun s v => s.signal (s.hqFn m) v) (s.updHq m fun q => { q with itrOpen := due, itrWait := [] })

/-! ### BAR2 (R283, R284) -/

/-- Sector and byte of the sector that offset `o` of a function's BAR2 reaches; no byte for bytes 5 to 7 of the word
view. -/
def State.bar2Place (s : State) (fn size o : Nat) : Nat × Option Nat :=
  if o < size / 2 then
    let w := 2 ^ 20 * s.getN F.hubB2win_wbase fn + o / 8
    (w / 12, if o % 8 < 5 then some (w % 12 * 5 + o % 8) else none)
  else
    (2 ^ 20 * s.getN F.hubB2win_sbase fn + (o - size / 2) / 64, some ((o - size / 2) % 64))

/-- The sector is open to the function. -/
def State.bar2Open (s : State) (fn n : Nat) : Bool :=
  decide (n < s.usableSectors) && !inCollator n &&
    (fn == 0 || (let p := s.partSectors fn; decide (p.1 ≤ n ∧ n < p.2)))

/-- The sectors of an access. -/
def State.bar2Sectors (s : State) (fn size off len : Nat) : List Nat :=
  ((List.range len).map fun i => (s.bar2Place fn size (off + i)).1).eraseDups

/-- The size of a function's BAR2 as its Resizable BAR capability sets it when an access arrives (R283). -/
def State.setBar2 (s : State) (fn size : Nat) : State := s.updPcie fn fun x => { x with bar2Size := size }

/-- BAR2_READ (R283, R284). -/
def execBar2Read (fn : FnId) (size off len : Nat) (s : State) : Result :=
  if bar2Inside fn size off len = false then .fault .illFormed
  else if s.hostOn = false then .next s
  else
    let s := s.setBar2 fn size
    let open_ := (s.bar2Sectors fn size off len).filter (s.bar2Open fn)
    let (good, s) := open_.foldl (fun (acc : Bool × State) n =>
      let (r, s) := acc.2.readSector n 0
      (acc.1 && r.isSome, s)) (true, s)
    .next <| if good then
        s.emit (.readData fn ((List.range len).map fun i =>
          match s.bar2Place fn size (off + i) with
          | (n, some b) => if s.bar2Open fn n then s.dramByte (64 * n + b) else 0
          | (_, none) => 0))
      else s.emit (.poisoned fn)

/-- The bytes of a write that land in a sector: each byte's place and value. -/
def State.bar2Bytes (s : State) (fn size off : Nat) (bytes : List Byte) (n : Nat) : List (Nat × Byte) :=
  (bytes.zipIdx).filterMap fun p =>
    match s.bar2Place fn size (off + p.2) with
    | (k, some b) => if k = n ∧ b < 60 then some (b, p.1) else none
    | _ => none

/-- A BAR2 write that is discarded is logged. -/
def State.bar2Log (s : State) : State := s.logEntry 0x00 0x4003 0

/-- BAR2_WRITE (R283, R284): a read-modify-write of each sector it touches. -/
def execBar2Write (fn : FnId) (size off : Nat) (bytes : List Byte) (s : State) : Result :=
  if bar2Inside fn size off bytes.length = false then .fault .illFormed
  else if s.hostOn = false then .next s
  else
    .next <| (s.bar2Sectors fn size off bytes.length).foldl (fun (t : State) n =>
      if s.bar2Open fn n = false then t.bar2Log
      else match t.readSector n 0 with
        | (none, t) => t.bar2Log
        | (some data, t) =>
          t.writeSector n ((s.bar2Bytes fn size off bytes n).foldl (fun d p => d.set p.1 p.2) data)) (s.setBar2 fn size)

end Sys2Proof.Machine
end

