-- ==== Sys2Proof/Machine/BootBase.lean ====
section
/-!
DEFINITION. The boot record (R457) and the end of boot step S12 (R454), which the aligned start decides.
-/
namespace Sys2Proof.Machine

namespace Rec
/-! An entry of the boot record. -/
def stepLo (k : Nat) : Nat := if k ≤ 8 then 64 + 8 * (k - 1) else 128 + 8 * (k - 9)
def byte (e : BitVec 256) (k : Nat) : BitVec 8 := e.extractLsb' (stepLo k) 8
def out (e : BitVec 256) (k : Nat) : Nat := ((byte e k).extractLsb' 0 2).toNat
def att (e : BitVec 256) (k : Nat) : Nat := ((byte e k).extractLsb' 3 2).toNat
def alt (e : BitVec 256) (k : Nat) : Nat := ((byte e k).extractLsb' 5 3).toNat
def bootnum (e : BitVec 256) : Nat := (e.extractLsb' 0 32).toNat
def kind (e : BitVec 256) : Nat := (e.extractLsb' 32 4).toNat
/-- A step that failed, or ended no more (R458). -/
def failed (e : BitVec 256) (k : Nat) : Bool := out e k == 2 || (decide (0 < att e k) && out e k == 0)
/-- OUT, ALTUSED, ATT and ALT of a step byte. -/
def mkByte (out : Nat) (altUsed : Bool) (att alt : Nat) : BitVec 8 :=
  BitVec.ofNat 8 (out + altUsed.toNat * 4 + att % 4 * 8 + alt % 8 * 32)
end Rec

def State.updRec (s : State) (f : BitVec 256 → BitVec 256) : State :=
  match s.sys.bootRecs with
  | [] => s
  | e :: es => { s with sys := { s.sys with bootRecs := f e :: es } }

def State.setByte (s : State) (k : Nat) (b : BitVec 8) : State := s.updRec fun e => putBits e (Rec.stepLo k) 8 b

/-- A step starts an attempt: ATT advances, STEP names it (R458). -/
def State.startAttempt (s : State) (k n : Nat) : State :=
  (s.updRec fun e => putBits e (Rec.stepLo k + 3) 2 (BitVec.ofNat 2 (min n 3))).putN F.hubBoot_step 0 k

/-- A step ends: OUT with the way it ran; FAIL_EV where it failed or used its alternate. -/
def State.endStep (s : State) (k out : Nat) (altUsed : Bool) (att alt : Nat) : State :=
  let s := (s.setByte k (Rec.mkByte out altUsed att alt)).putN F.hubBoot_step 0 k
  if out = 2 ∨ altUsed = true then s.setF F.hubBoot_fail_ev 0 else s

def State.setBoot (s : State) (b : Option Boot) : State := { s with sys := { s.sys with boot := b } }

/-- S12 ends, and with it the boot: COMPLETE, and DUR_MS. -/
def State.endS12 (s : State) (pass : Bool) (durMs : BitVec 32) : State :=
  let s := s.endStep 12 (if pass then 1 else 2) false 1 0
  let s := s.updRec fun e => putBits (putBits e 36 1 1#1) 160 32 durMs
  (s.putN F.hubBoot_state 0 2).setBoot none

/-- The aligned start ends an S12 that waits for it, at a time that no command gives. -/
def State.startEnded (s : State) (pass : Bool) : State :=
  match s.sys.boot with
  | some b =>
    if b.step = 12 then
      let (d, s) := s.draw 32
      s.endS12 pass d
    else s
  | none => s

end Sys2Proof.Machine
end

