-- ==== Sys2Proof/Machine/FuistWire.lean ====
section
/-!
DEFINITION. The coding of a Fuist port's codewords (R163, R164): scrambler, RS(544,514) over GF(2^10), and the symbols of
the eight logical lanes. Field, generator and scrambler order are those of IEEE 802.3 Clause 119 (log entry 120).
-/
namespace Sys2Proof.Machine

/-! ### GF(2^10), with α a root of x^10 + x^3 + 1 -/

/-- A product with α. -/
def gfDouble (a : Nat) : Nat := if a < 512 then 2 * a else (2 * a) ^^^ 0x409

def gfMul (a b : Nat) : Nat :=
  ((List.range 10).foldl (fun (r : Nat × Nat) i => (if b.testBit i then r.1 ^^^ r.2 else r.1, gfDouble r.2)) (0, a)).1

/-- a^n for n below 1,024. -/
def gfPow (a n : Nat) : Nat :=
  ((List.range 10).foldl (fun (r : Nat × Nat) i =>
    (if n.testBit i then gfMul r.1 r.2 else r.1, gfMul r.2 r.2)) (1, a)).1

def gfInv (a : Nat) : Nat := gfPow a 1022

/-- The value of a polynomial, coefficients from the lowest on. -/
def gfEval (p : List Nat) (x : Nat) : Nat := p.foldr (fun c acc => c ^^^ gfMul acc x) 0

/-- A product of polynomials. -/
def gfPolyMul (p q : List Nat) : List Nat :=
  (List.range (p.length + q.length - 1)).map fun k =>
    (List.range (k + 1)).foldl (fun a i => a ^^^ gfMul (p.getD i 0) (q.getD (k - i) 0)) 0

/-! ### The code (R163) -/

/-- The generator polynomial without its leading 1, thirty symbols packed from the lowest coefficient on, times α^0 to α^9:
the product of x − α^j for j from 0 to 29. -/
def rsRows : List Nat := [
  0x8fe282ece68a0011b235468f99448417ad07bd81eb9f7dcd69c5262305881fcb927880d0a0b,
  0x1dc595d9cc16402360638d1f22ad082f1a9f7b02d57eebbed2884cd60b103f9724f100a341f,
  0x3b8b2bb3982c8046c0c6187e455a105e352ed60da8fd575dad12d9ac12297f2e49e20044c3e,
  0x771647473959008d818c30bc1ab029bc2add8c1353fa3ebb5a25b348045bfe1c13e4098987c,
  0xee2c8e8a7bb2010b27186138b544527a553b3c26a7b4fd56bd4b26102cb6fe7827c812114f8,
  0xde599d34ff6642066e39c231fa88a4f4aa665c4c4d697a8d73960cb0596cfef0df9024229f0,
  0xbef32a4dfecc840cd87b8663753548eb545cb8989a92753ee62e5960b2d8ffe13f0448453e0,
  0x7fe6d4bffc9b480994f60ec67a6a90d4e8a955303764ea79c55cb2c161b9fdc2fe2c908a3c9,
  0xff8d397bf134d0030dec1d8ce4f529abd1d28e606e8954d78ab92512c372f9c5ec7d201679b,
  0xfd5a62d7eb69a0061bd83b19c9ea5255e3a518c9dd12a9ab1d704ab582edf1cbc8de402cb3f]

/-- The generator polynomial times a symbol. -/
def rsTimes (x : Nat) : Nat := (rsRows.zipIdx).foldl (fun a p => if x.testBit p.2 then a ^^^ p.1 else a) 0

/-- The remainder behind further symbols; `r` is below 2^300 throughout, and testing it is what lets Lean's kernel evaluate it
at each symbol. -/
def rsDivide (r : Nat) : List Nat → Nat
  | [] => r
  | m :: ms => if r < 2 ^ 300 then rsDivide (((r * 1024) % 2 ^ 300) ^^^ rsTimes ((r / 2 ^ 290) ^^^ m)) ms else 0

/-- The remainder of symbols, highest first, times x^30 by the generator: thirty symbols packed. -/
def rsRemainder (syms : List Nat) : Nat := rsDivide 0 syms

/-- Symbols of a packed number, highest first. -/
def symbolsOf (n v : Nat) : List Nat := (List.range n).map fun i => v / 2 ^ (10 * (n - 1 - i)) % 1024

/-- The 544 symbols of a codeword: 514 of the message, then 30 of parity (R164). -/
def rsEncode (msg : Nat) : List Nat :=
  let m := symbolsOf 514 msg
  m ++ symbolsOf 30 (rsRemainder m)

/-- The remainder of 544 received symbols by the generator; 0 of a codeword. -/
def rsCheck (syms : List Nat) : Nat := rsRemainder (syms.take 514) ^^^ (syms.drop 514).foldl (fun a m => a * 1024 + m) 0

/-- The values of the received polynomial at α^0 to α^29, from its remainder. -/
def rsSyndromes (rem : Nat) : List Nat :=
  let p := (symbolsOf 30 rem).reverse
  (List.range 30).map fun j => gfEval p (gfPow 2 j)

/-- The error locator of the syndromes with its degree (Berlekamp and Massey). -/
def rsLocator (syn : List Nat) : List Nat × Nat :=
  let start : List Nat × List Nat × Nat × Nat × Nat := ([1], [1], 0, 1, 1)
  let (c, _, l, _, _) := (List.range 30).foldl (fun (acc : List Nat × List Nat × Nat × Nat × Nat) n =>
    let (c, b, l, m, last) := acc
    let d := (List.range (l + 1)).foldl (fun a i => a ^^^ gfMul (c.getD i 0) (syn.getD (n - i) 0)) 0
    if d = 0 then (c, b, l, m + 1, last)
    else
      let k := gfMul d (gfInv last)
      let c' := (List.range (max c.length (b.length + m))).map fun i =>
        c.getD i 0 ^^^ (if i < m then 0 else gfMul k (b.getD (i - m) 0))
      if 2 * l ≤ n then (c', c, n + 1 - l, 1, d) else (c', b, l, m + 1, last)) start
  (c, l)

/-- The error at degree `e` of the received polynomial, 0 where there is none (Forney). -/
def rsError (syn loc : List Nat) (e : Nat) : Nat :=
  let x := gfPow 2 e
  let xi := gfInv x
  if gfEval loc xi = 0 then
    let omega := (gfPolyMul syn loc).take 30
    let slope := (loc.drop 1).zipIdx.map fun p => if p.2 % 2 = 0 then p.1 else 0
    gfMul x (gfMul (gfEval omega xi) (gfInv (gfEval slope xi)))
  else 0

/-- A received codeword decoded: the message's symbols and the number of symbols corrected, at most fifteen; `none` where it
is uncorrectable. -/
def rsDecode (syms : List Nat) : Option (List Nat × Nat) :=
  let rem := rsCheck syms
  if rem = 0 then some (syms.take 514, 0)
  else
    let syn := rsSyndromes rem
    let (loc, l) := rsLocator syn
    let errs := (List.range 544).map fun i => rsError syn loc (543 - i)
    let fixed := (List.range 544).map fun i => syms.getD i 0 ^^^ errs.getD i 0
    if l ≤ 15 ∧ (errs.filter (· != 0)).length = l ∧ rsCheck fixed = 0 then some (fixed.take 514, l) else none

/-! ### The scrambler, 1 + x^39 + x^58 (R163) -/

/-- The message's 257 groups of twenty bits, highest first. -/
def groupsOf (msg : Nat) : List Nat := (List.range 257).map fun i => msg / 2 ^ (20 * (256 - i)) % 2 ^ 20

/-- What the 58 scrambled bits before a group add to it. -/
def scrambleMask (st : Nat) : Nat := (st / 2 ^ 19 % 2 ^ 20) ^^^ (st / 2 ^ 38 % 2 ^ 20)

/-- The last 58 scrambled bits after another group. -/
def scrambleNext (st g : Nat) : Nat := (st * 2 ^ 20 + g) % 2 ^ 58

/-- A message scrambled behind the bits `st`, and the bits after it. -/
def scramble (st : BitVec 58) (msg : Nat) : Nat × BitVec 58 :=
  let (m, t) := (groupsOf msg).foldl (fun (a : Nat × Nat) g =>
    let x := g ^^^ scrambleMask a.2
    (a.1 * 2 ^ 20 + x, scrambleNext a.2 x)) (0, st.toNat)
  (m, BitVec.ofNat 58 t)

def descramble (st : BitVec 58) (msg : Nat) : Nat × BitVec 58 :=
  let (m, t) := (groupsOf msg).foldl (fun (a : Nat × Nat) x =>
    (a.1 * 2 ^ 20 + (x ^^^ scrambleMask a.2), scrambleNext a.2 x)) (0, st.toNat)
  (m, BitVec.ofNat 58 t)

/-! ### Codewords (R164) -/

/-- The message: CWH and the four frames. -/
def cwMessage (cwh : BitVec 20) (fs : List Frame) : Nat := fs.foldl (fun a f => a * 2 ^ 1280 + f.toNat) cwh.toNat

/-- CWH of a message, and the frame of a position. -/
def cwHeader (msg : Nat) : BitVec 20 := BitVec.ofNat 20 (msg / 2 ^ 5120)
def cwFrame (msg i : Nat) : Frame := BitVec.ofNat 1280 (msg / 2 ^ (1280 * (3 - i)))

/-- Symbol i of a codeword travels on logical lane i mod 8. -/
def laneSymbols (syms : List Nat) (j : Nat) : List (BitVec 10) :=
  (List.range 68).map fun i => BitVec.ofNat 10 (syms.getD (8 * i + j) 0)

/-- The symbols of a codeword from those of its lanes. -/
def joinLanes (lanes : List (List (BitVec 10))) : List Nat :=
  (List.range 544).map fun i => ((lanes.getD (i % 8) []).getD (i / 8) 0).toNat

/-- A codeword as the decoder of a port hands it on (R165). -/
structure Decoded where
  uncorrectable : Bool
  corrected : Nat
  /-- Message bits, still scrambled. -/
  msg : Nat

def decodeLanes (lanes : List (List (BitVec 10))) : Decoded :=
  let syms := joinLanes lanes
  let pack (l : List Nat) : Nat := l.foldl (fun a m => a * 1024 + m) 0
  match rsDecode syms with
  | some (m, k) => ⟨false, k, pack m⟩
  | none => ⟨true, 0, pack (syms.take 514)⟩

end Sys2Proof.Machine
end

