-- ==== Sys2Proof/Machine/FuistLink.lean ====
section
/-!
DEFINITION. A Fuist port at work (R164 to R169, R183 to R188): codewords sent and received, SEQ and acknowledgement,
credits, resends, lane substitution, and a port that goes down.
-/
namespace Sys2Proof.Machine

namespace Pt
def off : Nat := 0
def training : Nat := 1
def up : Nat := 2
def down : Nat := 3
def test : Nat := 4
end Pt

/-- A change of a port's state raises source 592 + p (R239). -/
def State.setPortState (s : State) (p st : Nat) : State :=
  if s.getN F.fstPortStat_state p = st then s else (s.putN F.fstPortStat_state p st).raise (592 + p)

namespace AF
/-! Payloads of ASYNC frames (R185, R187, R189). -/
def isSeq (f : Frame) : Bool := FH.cls f == 2 && (FH.kind f == 0 || FH.kind f == 2)
def isData (f : Frame) : Bool := FH.cls f == 2 && FH.kind f == 0
def isLink (f : Frame) : Bool := FH.cls f == 2 && FH.kind f == 1
def isSys (f : Frame) : Bool := FH.cls f == 2 && FH.kind f == 2
def cmd (f : Frame) : Nat := ((frameWord f 0).extractLsb' 0 8).toNat
def origin (f : Frame) : Nat := ((frameWord f 0).extractLsb' 8 6).toNat
def cseq (f : Frame) : Nat := ((frameWord f 0).extractLsb' 24 16).toNat
def stream (f : Frame) : Nat := ((frameWord f 0).extractLsb' 0 12).toNat
def ndata (f : Frame) : Nat := ((frameWord f 0).extractLsb' 12 5).toNat
def first (f : Frame) : Bool := (frameWord f 0).getLsbD 17
def last (f : Frame) : Bool := (frameWord f 0).getLsbD 18
end AF

/-! ### Link control (R185, R186) -/

/-- Receive buffers of a virtual channel that are free: 256, less the frames that wait in it. -/
def Port.free (x : Port) (vc : Nat) : Nat := 256 - (x.rx.filter fun f => AF.isSeq f.2 && FH.vc f.2 == vc).length

/-- The substitution word W1. -/
def Port.subWord (x : Port) : Word :=
  match x.refuse with
  | some (lane, spare, pspare) =>
    BitVec.ofNat 40 (2 * 2 ^ 38 + 2 ^ 37 + lane * 2 ^ 34 + spare * 2 ^ 32 + pspare * 2 ^ 30)
  | none =>
    match x.sub with
    | none => 0
    | some u =>
      let op := if u.rxMoved then 3 else if u.requester then (if u.accepted then 0 else 1) else 2
      if op = 0 then 0
      else BitVec.ofNat 40 (op * 2 ^ 38 + u.lane * 2 ^ 34 + u.spare * 2 ^ 32 + u.pspare * 2 ^ 30 + u.swcw)

/-- The device asks its partner to stay powered: LNK holds a vote other than bit 19 (R430). -/
def State.pwrReq (s : State) : Bool := (s.getF F.pwrDom_vote 4 &&& ~~~(1#21 <<< 19)) != 0

def State.linkFrame (s : State) (p : Nat) : Frame :=
  let x := s.port p
  let w0 := (match x.nak with
    | some n => 2 ^ 39 + n * 2 ^ 20
    | none => 0) + (if s.pwrReq then 2 ^ 38 else 0) + x.free 1 * 2 ^ 9 + x.free 0
  asyncFrame 1 ((x.peer.map Prod.fst).getD 0) s.devIdx 2 0 [BitVec.ofNat 40 w0, x.subWord]

/-! ### Transmission (R165, R169, R184) -/

/-- Credit for a frame's virtual channel (R185). -/
def Port.credit (x : Port) (f : Frame) : Bool := decide (0 < (if FH.vc f = 0 then x.cred0 else x.cred1))

def Port.spend (x : Port) (f : Frame) : Port :=
  if FH.vc f = 0 then { x with cred0 := x.cred0 - 1 } else { x with cred1 := x.cred1 - 1 }

/-- A new frame takes the next SEQ and is kept until it is acknowledged (R184). -/
def Port.take (x : Port) (f : Frame) : (Nat × Frame) × Port :=
  ((x.seq, f), { x.spend f with seq := (x.seq + 1) % 4096, unacked := x.unacked ++ [(x.seq, f)] })

/-- The next numbered frame of a port: one sent again, else the oldest new one whose virtual channel has credit; system
commands only where `sys`. -/
def Port.nextSeq (x : Port) (sys : Bool) : Option (Nat × Frame) × Port :=
  match x.again with
  | (q, f) :: rest =>
    if AF.isSys f == sys && x.credit f then (some (q, f), { x.spend f with again := rest }) else (none, x)
  | [] =>
    let l := if sys then x.txSys else x.txData
    if 1024 ≤ x.unacked.length then (none, x)
    else match l.findIdx? x.credit with
      | none => (none, x)
      | some i =>
        let (n, x) := x.take (l.getD i 0)
        (some n, if sys then { x with txSys := l.eraseIdx i } else { x with txData := l.eraseIdx i })

/-- SEQ and ACKSEQ filled in (R168). -/
def Port.number (x : Port) (q : Nat) (f : Frame) : Frame :=
  reframe (reframe f 32 12 q) 20 12 ((x.expSeq + 4095) % 4096)

/-- The frame of one position (R169). -/
def State.fillPosition (s : State) (p i : Nat) : Frame × State :=
  let x := s.port p
  let set (y : Port) : State := s.updPort p fun _ => y
  let link : Option (Frame × State) :=
    if x.linkDue then
      let f := x.number 0 (s.linkFrame p)
      let sub := x.sub.map fun u => if u.rxMoved then { u with doneSent := true } else u
      let sub := match sub with
        | some u => if u.noted && u.doneSent then none else some u
        | none => none
      some (f, set { x with linkDue := false, nak := none, refuse := none, sub })
    else none
  let data (_ : Unit) : Frame × State :=
    match x.nextSeq false with
    | (some (q, f), y) => (y.number q f, set y)
    | (none, _) => (mkFrame 0 [], s)
  if i = 0 then
    match x.txToken with
    | f :: rest => (f, set { x with txToken := rest })
    | [] =>
      match x.nextSeq true with
      | (some (q, f), y) => (y.number q f, set y)
      | (none, _) => link.getD (data ())
  else
    match x.txExch with
    | f :: rest => (f, set { x with txExch := rest })
    | [] => link.getD (data ())

def mapField (j : Nat) : Field 7 :=
  [F.fstPortMap_lane0, F.fstPortMap_lane1, F.fstPortMap_lane2, F.fstPortMap_lane3, F.fstPortMap_lane4,
    F.fstPortMap_lane5, F.fstPortMap_lane6, F.fstPortMap_lane7].getD j F.fstPortMap_lane0

/-- The physical lanes on which a port drives logical lane `j`: the one of FST_PORTp_MAP, and during a substitution the spare
as well (R186). -/
def State.drivenLanes (s : State) (p j : Nat) : List Nat :=
  s.getN (mapField j) p :: (match (s.port p).sub with
    | some u => if u.lane = j ∧ u.txMoved = true ∧ u.noted = false then [64 + u.spare] else []
    | none => [])

/-- The codeword of a header and four frames as port `p` sends it: scrambled, coded, and striped over its lanes (R163, R164). -/
def State.sendCodeword (s : State) (p : Nat) (cwh : BitVec 20) (fs : List Frame) : State :=
  let (m, scr) := scramble (s.port p).txScr (cwMessage cwh fs)
  let syms := rsEncode m
  let lanes := (List.range 8).flatMap fun j => (s.drivenLanes p j).map fun k => (k, laneSymbols syms j)
  (s.emit (.codeword p lanes)).updPort p fun x => { x with txScr := scr }

/-- A codeword transmitted on a port that is up (R164, R165). -/
def State.transmit (s : State) (p : Nat) : State :=
  let (f0, s) := s.fillPosition p 0
  let (f1, s) := s.fillPosition p 1
  let (f2, s) := s.fillPosition p 2
  let (f3, s) := s.fillPosition p 3
  let n := (s.port p).txCount
  (s.sendCodeword p (BitVec.ofNat 20 (0xC5 * 2 ^ 12 + n)) [f0, f1, f2, f3]).updPort p fun x =>
    { x with txCount := (n + 1) % 4096 }

/-! ### Reception (R165, R166, R175, R183) -/

/-- The quire whose tokens a SYSTEM region lacks (R181, R183). -/
def State.outstanding (s : State) (r : Nat) : Option Nat :=
  let n := s.getN F.qctCommitted_count r + 1
  let t := s.fullToken r n
  if n < s.exec r ∧ (t.ok ||| t.rp) ≠ s.sysMask then some n else none

/-- A system command frame queued on one port. -/
def State.sendSys (s : State) (p n : Nat) (ws : List Word) : State :=
  let dst := ((s.port p).peer.map Prod.fst).getD 0
  s.updPort p fun x => { x with txSys := x.txSys ++ [asyncFrame 2 dst s.devIdx n 0 ws] }

/-- TOKEN_REQ or TOKEN_RESP to the peer of a port, with this device's index and count (R183, R189). -/
def State.askPeer (s : State) (p cmd : Nat) (ws : List Word) : State :=
  let (w0, s) := s.commandHead cmd
  s.sendSys p (ws.length + 1) (w0 :: ws)

/-- A frame of position `i` that failed. -/
def State.failedFrame (s : State) (p i lane : Nat) : State :=
  let s := s.addF F.fstPortErr_crcf p 1
  match s.systemRegion with
  | none => s
  | some r =>
    let q := s.qstate r
    if q = Q.unbound ∨ q = Q.held ∨ q = Q.qfault ∨ q = Q.tokenLost then s
    else if i = 0 then
      match s.outstanding r with
      | some n => s.askPeer p 0x04 [BitVec.ofNat 40 n]
      | none => s
    else s.charge r 0x06 lane

/-- A frame of a codeword: failed under R165 or R166, idle, reserved, or kept for its command. -/
def State.takeFrame (s : State) (p i lane : Nat) (bad : Bool) (f : Frame) : State :=
  if bad || !frameOk f || FH.cls f == 3 then s.failedFrame p i lane
  else if FH.cls f = 0 ∨ FH.kind f = 3 then s
  else s.updPort p fun x => { x with rx := x.rx ++ [(i, f)] }

/-- A codeword of an up port: its lanes joined and decoded, CWH compared with the count expected (R163 to R165). -/
def State.receive (s : State) (p : Nat) (c : Codeword) : State :=
  if s.portUp p = false then s
  else
    let d := decodeLanes c.lanes
    let (m, scr) := descramble (s.port p).rxScr d.msg
    let n := (s.port p).rxCount
    let bad := d.uncorrectable || cwHeader m != BitVec.ofNat 20 (0xC5 * 2 ^ 12 + n)
    let s := s.updPort p fun x => { x with rxCount := (n + 1) % 4096, rxScr := scr }
    let s := if d.uncorrectable then s.addF F.fstPortErr_uncorr p 1 else s
    let s := s.addF F.fstPortErr_corrsym p d.corrected
    (List.range 4).foldl (fun (s : State) i => s.takeFrame p i c.lane bad (cwFrame m i)) s

/-- The oldest received frame of a kind, taken off its port. -/
def State.takeRx (s : State) (p : Nat) (want : Frame → Bool) : Option Frame × State :=
  match (s.port p).rx.find? fun f => want f.2 with
  | none => (none, s)
  | some f => (some f.2, s.updPort p fun x => { x with rx := x.rx.erase f })

/-- An acknowledgement (R184): every frame up to SEQ `a` is let go. -/
def Port.ack (x : Port) (a : Nat) : Port :=
  match x.unacked.findIdx? fun f => f.1 == a with
  | none => x
  | some i => { x with unacked := x.unacked.drop (i + 1), resends := 0,
                       again := x.again.filter fun f => (x.unacked.drop (i + 1)).any fun g => g.1 == f.1 }

/-- Frames sent again from SEQ `n` (R184). -/
def State.resendFrom (s : State) (p n : Nat) : State :=
  let x := s.port p
  match x.unacked.findIdx? fun f => f.1 == n with
  | none => s
  | some i => (s.addF F.fstPortErr_resend p 1).updPort p fun x => { x with again := x.unacked.drop i }

/-- The SEQ of a received frame checked (R184): delivered in order, else discarded with a NAK. -/
def State.inOrder (s : State) (p : Nat) (f : Frame) : Bool × State :=
  let s := s.updPort p fun x => x.ack (FH.ackseq f)
  if FH.seq f = (s.port p).expSeq then
    (true, s.updPort p fun x => { x with expSeq := (x.expSeq + 1) % 4096 })
  else (false, s.updPort p fun x => { x with nak := some x.expSeq, linkDue := true })

/-- Unknown system commands at the head are taken, discarded and logged (R189). -/
def State.dropUnknown (s : State) (p : Nat) : State :=
  (s.port p).rx.foldl (fun (s : State) _ =>
    match (s.port p).rx.find? fun f => AF.isSeq f.2 with
    | some f =>
      if AF.isSys f.2 && (AF.cmd f.2 == 0 || decide (5 < AF.cmd f.2)) then
        let (ok, s) := (s.updPort p fun x => { x with rx := x.rx.erase f }).inOrder p f.2
        if ok then s.logOther .fstPortStat p else s
      else s
    | none => s) s

/-- The numbered frame at the head, where it is of the kind wanted: taken, and delivered where it is in order. -/
def State.takeSeq (s : State) (p : Nat) (want : Frame → Bool) : Option Frame × State :=
  let s := s.dropUnknown p
  match (s.port p).rx.find? fun f => AF.isSeq f.2 with
  | none => (none, s)
  | some f =>
    if want f.2 then
      let (ok, s) := (s.updPort p fun x => { x with rx := x.rx.erase f }).inOrder p f.2
      (if ok then some f.2 else none, s)
    else (none, s)

/-! ### A port that goes down (R184, R188) -/

def State.portDown (s : State) (p : Nat) : State :=
  let waiting := (s.port p).txData
  let s := s.updPort p fun x =>
    { x with rx := [], txToken := [], txSys := [], txExch := [], txData := [], linkDue := false, unacked := [],
             again := [], resends := 0, nak := none, parts := [], sub := none, refuse := none }
  let s := ((s.setPortState p Pt.down).setF F.fstSys_linkdown_ev 0).logEntry 0x06 0xA004
    (p + s.getN F.fstPortStat_lanedown p * 2 ^ 3)
  waiting.foldl (fun (s : State) f =>
    match s.route (FH.adst f) with
    | some q => if s.portUp q then s.updPort q fun x => { x with txData := x.txData ++ [f] } else s
    | none => s) s

/-- Every port of a domain that loses power is OFF, and its training is lost (R429, R452). -/
def State.portOff (s : State) (p : Nat) : State :=
  ((s.updPort p fun _ => {}).setPortState p Pt.off).putN F.fstPortStat_hoplat_ps p 0

/-! ### Lane substitution (R162, R186, R469) -/

def State.spare (s : State) (k : Nat) : SpareLane := s.fst.spares.at k

/-- The spare is cabled to the peer of port `p`, trained, and not in use. -/
def State.spareFits (s : State) (p k : Nat) : Bool :=
  s.bitF F.fstSpare_homeen k && !s.bitF F.fstSpare_inuse k && (s.spare k).trained &&
    s.getN F.fstPortCfg_peerdev (s.getN F.fstSpare_homeport k) == s.getN F.fstPortCfg_peerdev p &&
    ((List.range 8).all fun q => match (s.port q).sub with
      | some u => u.spare != k
      | none => true)

/-- The log entry of a substitution (R472): port, lane, physical lane. -/
def State.logLane (s : State) (p j phys : Nat) : State := s.logEntry 0x0C 0x6004 (p + j * 2 ^ 3 + phys * 2 ^ 6)

/-- A substitution starts: REQUEST (R186 step 1). -/
def State.startSub (s : State) (p j k : Nat) : State :=
  s.updPort p fun x =>
    { x with linkDue := true,
             sub := some { requester := true, lane := j, spare := k, pspare := (s.spare k).peerSpare,
                           swcw := (x.txCount + 256) % 4096, peerSwcw := none } }

/-- The substitution ends: registers written, source 919 raised (R186 step 5). -/
def State.finishSub (s : State) (p : Nat) (u : LaneSub) : State :=
  let s := s.putN (mapField u.lane) p (64 + u.spare)
  let s := s.putF F.fstPortStat_lanedown p (s.getF F.fstPortStat_lanedown p &&& ~~~(1#8 <<< u.lane))
  let s := ((s.setF F.fstSpare_inuse u.spare).putN F.fstSpare_forport u.spare p).putN F.fstSpare_forlane u.spare u.lane
  (s.logLane p u.lane (64 + u.spare)).raise 919

/-- What the moves of both ends amount to. -/
def State.checkSub (s : State) (p : Nat) : State :=
  match (s.port p).sub with
  | none => s
  | some u =>
    if u.peerDone && u.rxMoved && !u.noted then
      let s := s.finishSub p u
      s.updPort p fun x => { x with sub := if u.doneSent then none else some { u with noted := true }, linkDue := true }
    else s

/-- The substitution fails: the spare stops, the old lane stays (R186). -/
def State.failSub (s : State) (p : Nat) : State := (s.updPort p fun x => { x with sub := none }).raise 919

/-- The substitution word of a received link-control frame. -/
def State.takeSub (s : State) (p : Nat) (w : Word) : State :=
  let op := (w.extractLsb' 38 2).toNat
  let refuse := w.getLsbD 37
  let lane := (w.extractLsb' 34 3).toNat
  let spare := (w.extractLsb' 32 2).toNat
  let pspare := (w.extractLsb' 30 2).toNat
  let sw := (w.extractLsb' 0 12).toNat
  match op, (s.port p).sub with
  | 1, none =>
    if s.spareFits p pspare then
      s.updPort p fun x =>
        { x with linkDue := true,
                 sub := some { requester := false, lane, spare := pspare, pspare := spare,
                               swcw := (x.txCount + 256) % 4096, peerSwcw := some sw } }
    else s.updPort p fun x => { x with linkDue := true, refuse := some (lane, pspare, spare) }
  | 2, some u =>
    if u.requester && !u.accepted then
      if refuse then s.failSub p
      else s.updPort p fun x => { x with sub := some { u with accepted := true, peerSwcw := some sw } }
    else s
  | 3, some u => (s.updPort p fun x => { x with sub := some { u with peerDone := true } }).checkSub p
  | _, _ => s

end Sys2Proof.Machine
end

