-- ==== Sys2Proof/Machine/Fuist.lean ====
section
/-!
DEFINITION. The commands of Fuist and BOUND_N (06_fuist_and_bound.md): exchange, tokens, ASYNC traffic, system commands,
training, lanes and the aligned start.
-/
namespace Sys2Proof.Machine

/-! ### Exchange words (R173 to R175) -/

namespace XP
/-! Send entry (R170). -/
def sendDst (e : BitVec 64) : Nat := (e.extractLsb' 56 6).toNat
end XP

/-- The bound state words of the send entries: slot, destination, word, value, with each read's check (cause 0x05). -/
def State.sendWords (s : State) (r : Nat) : List (Nat × Nat × Nat × Word) × State :=
  let t := s.stamp r (s.len r)
  (s.gthsOf r).foldl (fun (acc : List (Nat × Nat × Nat × Word) × State) g =>
    (List.range 64).foldl (fun (acc : List (Nat × Nat × Nat × Word) × State) m =>
      let (l, s) := acc
      let e := (s.gth g).xplan.at m
      if XP.valid e then
        let w := ((s.cell (64 * g + XP.cell e)).settle t).v.work.s.at (XP.sw e)
        (l ++ [(XP.slot e, XP.sendDst e, XP.word e, w.d)], s.chargeIf (!w.ok) r 0x05 g)
      else (l, s)) acc) ([], s)

/-- The frame of a slot: NWORDS is its highest WORD plus 1, unbound words are zero (R173). -/
def slotFrame (src att quire slot : Nat) (ws : List (Nat × Nat × Nat × Word)) : Nat × Frame :=
  let mine := ws.filter fun w => w.1 == slot
  let dst := (mine.head?.map fun w => w.2.1).getD 0
  let n := mine.foldl (fun n w => max n (w.2.2.1 + 1)) 0
  let words := (List.range n).map fun i => ((mine.find? fun w => w.2.2.1 == i).map fun w => w.2.2.2).getD 0
  (dst, schedFrame 0 slot src dst n att quire words)

/-- The exchange frames of the quire being computed, in increasing SLOT order. -/
def State.exchangeSend (s : State) : State :=
  match s.systemRegion with
  | none => s
  | some r =>
    if !s.executes r || s.stage r == 1 then s
    else
      let (ws, s) := s.sendWords r
      let slots := (List.range 4096).filter fun k => ws.any fun w => w.1 == k
      slots.foldl (fun (s : State) k =>
        let (dst, f) := slotFrame s.devIdx (s.getN F.qctStatus_attempt r) (s.exec r) k ws
        s.sendExch dst f) s

/-- EXCHANGE_SEND (R173). -/
def execExchangeSend (s : State) : Result := .next s.exchangeSend

/-- The quire that 13 bits name: the one computed, the one before or the one after. -/
def State.resolveQuire (s : State) (r q13 : Nat) : Option Nat :=
  let e := s.exec r
  [e, e + 1, e - 1].find? fun q => q % 2 ^ 13 == q13

/-- The device names the frame in a receive entry. -/
def State.receives (s : State) (r : Nat) (f : Frame) : Bool :=
  FH.sdst f == s.devIdx && (s.gthsOf r).any fun g => (List.range 64).any fun m =>
    let e := (s.gth g).xplan.at (64 + m)
    XP.valid e && XP.dev e == FH.ssrc f && XP.slot e == FH.slot f

/-- The device names the frame in a relay entry (R171). -/
def State.relays (s : State) (f : Frame) : Bool :=
  s.arr.relay.entries.any fun p =>
    Relay.valid p.2 && Relay.src p.2 == FH.ssrc f && Relay.dst p.2 == FH.sdst f && Relay.slot p.2 == FH.slot f

/-- The device has captured the words of quire `n`: a later quire is open, and the frame is not of a recomputation of quire n
that has not begun here (R174). -/
def State.alreadyCaptured (s : State) (r n att : Nat) : Bool :=
  decide (n < s.exec r) && !(n == s.getN F.qctCommitted_count r + 1 && decide (s.getN F.qctStatus_attempt r < att))

/-- A received SCHEDULED frame for its quire, where R174 does not discard it: held, marked as seen, relayed. A held frame of a
later attempt is not replaced. -/
def State.takeExchange (s : State) (r : Nat) (f : Frame) (charge : Nat → State → State) : State :=
  let q := s.qstate r
  if q = Q.unbound ∨ q = Q.held ∨ q = Q.qfault ∨ q = Q.tokenLost then s
  else
    match s.resolveQuire r (FH.quire f) with
    | none => s
    | some n =>
      let recv := s.receives r f
      let rel := s.relays f
      if s.alreadyCaptured r n (FH.att f) || decide (FH.att f < s.attOf r n) || (!recv && !rel) then s
      else
        let e : SeenFrame := { quire := n % 2 ^ 13, src := FH.ssrc f, dst := FH.sdst f, slot := FH.slot f, att := FH.att f }
        let x : XFrame := { src := FH.ssrc f, dst := FH.sdst f, slot := FH.slot f, quire := FH.quire f, att := FH.att f,
                            nwords := FH.snwords f, words := frameWords f (FH.snwords f), poison := FH.kind f == 2 }
        let same (y : XFrame) : Bool := y.src == x.src && y.slot == x.slot && y.quire == x.quire
        let s := s.updRegion r fun y =>
          { y with seen := if y.seen.contains e then y.seen else e :: y.seen,
                   frames := if recv && !(y.frames.any fun z => same z && decide (x.att < z.att)) then
                       x :: y.frames.filter (fun z => !same z)
                     else y.frames }
        let s := charge n s
        if rel then s.sendExch (FH.sdst f) f else s

/-- EXCHANGE_FRAME (R174): the oldest exchange frame that the port holds. -/
def execExchangeFrame (p : PortId) (s : State) : Result :=
  .next <| match s.takeRx p (fun f => FH.cls f == 1 && FH.kind f == 0), s.systemRegion with
    | (none, _), _ => s
    | (some _, s), none => s
    | (some f, s), some r => s.takeExchange r f fun _ s => s

/-- POISON_FRAME (R175): the quire is charged with cause 0x06; the frame does not name the lane, which is free. -/
def execPoisonFrame (p : PortId) (s : State) : Result :=
  .next <| match s.takeRx p (fun f => FH.cls f == 1 && FH.kind f == 2), s.systemRegion with
    | (none, _), _ => s
    | (some _, s), none => s
    | (some f, s), some r => s.takeExchange r f fun n s =>
      let (lane, s) := s.draw 7
      s.chargeTo r n 0x06 lane.toNat

/-! ### Tokens (R180 to R183) -/

/-- TOKEN_SEND (R180): the device's own token for the quire whose computation has ended. -/
def execTokenSend (s : State) : Result :=
  .next <| match s.systemRegion with
    | none => s
    | some r =>
      let n := s.getN F.qctCommitted_count r + 1
      if s.executes r && decide (n < s.exec r) then
        let t := s.fullToken r n
        (s.putToken r t).sendToken t (s.getN F.qctStatus_attempt r)
      else s

/-- A token merged (R180): discarded where it carries a device outside the system or belongs to an attempt already voted on;
sent again where it grew and the device has sent its own; then the vote, where one waits. -/
def State.mergeToken (s : State) (r : Nat) (t : Token) (pads : BitVec 192) (bad : BitVec 2) : State :=
  let n := s.getN F.qctCommitted_count r + 1
  let att := s.getN F.qctStatus_attempt r
  if ((t.ok ||| t.rp) &&& ~~~s.sysMask) ≠ 0 then s
  else if (t.quire = n % 2 ^ 40 ∧ att ≤ t.att) ∨ t.quire = (n + 1) % 2 ^ 40 then
    let old := s.heldToken r t.quire t.att
    let new := old.merge t
    let s := s.putToken r new
    let own := (old.ok ||| old.rp).getLsbD s.devIdx
    let s := if own && new != old then s.sendToken new att else s
    s.retryVote r pads bad
  else s

/-- TOKEN_FRAME (R180). -/
def execTokenFrame (p : PortId) (pads : BitVec 192) (bad : BitVec 2) (s : State) : Result :=
  .next <| match s.takeRx p (fun f => FH.cls f == 1 && FH.kind f == 1), s.systemRegion with
    | (none, _), _ => s
    | (some _, s), none => s
    | (some f, s), some r => s.mergeToken r { tokenOfWords (frameWords f 7) with att := FH.att f } pads bad

def isCmd (c : Nat) (f : Frame) : Bool := AF.isSys f && AF.cmd f == c

/-- The merged token of a quire whose tokens are outstanding, and otherwise its final token, where the quire has been voted on
(R183). -/
def State.answerToken (s : State) (r q : Nat) : Token :=
  if q = s.getN F.qctCommitted_count r + 1 ∧ q < s.exec r then s.tokenOf r q
  else ((s.region r).finals.find? fun t => t.quire == q).getD (s.tokenOf r q)

/-- TOKEN_REQ (R183): answered with a TOKEN_RESP. -/
def execTokenReq (p : PortId) (s : State) : Result :=
  .next <| match s.takeSeq p (isCmd 0x04), s.systemRegion with
    | (none, s), _ => s
    | (some _, s), none => s
    | (some f, s), some r => s.askPeer p 0x05 (s.answerToken r (frameWord f 1).toNat).words

/-- TOKEN_RESP (R183): merged as a token of the attempt that the device is at, which the answer does not name. -/
def execTokenResp (p : PortId) (pads : BitVec 192) (bad : BitVec 2) (s : State) : Result :=
  .next <| match s.takeSeq p (isCmd 0x05), s.systemRegion with
    | (none, s), _ => s
    | (some _, s), none => s
    | (some f, s), some r =>
      let t := tokenOfWords ((frameWords f 8).drop 1)
      s.mergeToken r { t with att := s.tokenAtt r t.quire } pads bad

/-! ### Codewords and link control -/

/-- CODEWORD_RX (R165). -/
def execCodewordRx (p : PortId) (cw : Codeword) (s : State) : Result := .next (s.receive p cw)

/-- LINK_CONTROL_FRAME (R185): acknowledgement, credits, NAK, PWRREQ (R430), lane substitution. -/
def execLinkControlFrame (p : PortId) (s : State) : Result :=
  .next <| match s.takeRx p AF.isLink with
    | (none, _) => s
    | (some f, s) =>
      let w := frameWord f 0
      let s := s.updPort p fun x =>
        { x.ack (FH.ackseq f) with cred0 := (w.extractLsb' 0 9).toNat, cred1 := (w.extractLsb' 9 9).toNat,
                                   peerPwr := w.getLsbD 38 }
      let s := if w.getLsbD 39 then s.resendFrom p (w.extractLsb' 20 12).toNat else s
      let s := if w.getLsbD 38 && s.portUp p then s.vote 4 19 true else s
      s.takeSub p (frameWord f 1)

/-- LINK_CONTROL_SEND (R185): the port sends a link-control frame in its next free position. -/
def execLinkControlSend (p : PortId) (s : State) : Result :=
  .next (if s.portUp p then s.updPort p fun x => { x with linkDue := true } else s)

/-- ASYNC_RESEND_TIMEOUT (R184): a resend from the oldest frame not acknowledged; the sixteenth takes the port down. -/
def execAsyncResendTimeout (p : PortId) (s : State) : Result :=
  .next <| match s.portUp p, (s.port p).unacked with
    | true, (q, _) :: _ =>
      let s := (s.resendFrom p q).updPort p fun x => { x with resends := x.resends + 1 }
      if 16 ≤ (s.port p).resends then s.portDown p else s
    | _, _ => s

/-! ### ASYNC transactions (R187 to R189) -/

/-- A complete transaction submitted as a work item (R187, R289). The spec does not say where its words lie: PADDR is a free
value inside the partition of the stream's owner, PRIO and USER are free. -/
def State.deliverAsync (s : State) (p vc : Nat) (a : AsyncPart) : State :=
  let (lo, hi) := s.partSectors (s.strOwner a.stream)
  let n := a.words.length
  let room := 12 * (hi - lo) + 1 - n
  let (x, s) := s.draw 38
  let (prio, s) := s.draw 3
  let (user, s) := s.draw 40
  let paddr := 12 * lo + (if room = 0 then 0 else x.toNat % room)
  let d : BitVec 256 := BitVec.ofNat 256 (a.cw.toNat + paddr * 2 ^ 40 + a.stream * 2 ^ 120 +
    s.getN F.colStrCfg_class a.stream * 2 ^ 145 + prio.toNat * 2 ^ 147 + n * 2 ^ 160 + user.toNat * 2 ^ 200)
  let (r, s) := s.submit (576 + 2 * p + vc) none none d
  if r.made then (s.writeWords paddr a.words 0).2 else s

/-- A frame of a transaction: of its source, stream, catchword and virtual channel. -/
def AsyncPart.has (a : AsyncPart) (f : Frame) : Bool :=
  a.vc == FH.vc f && a.src == FH.asrc f && a.stream == AF.stream f && a.cw == frameWord f 1

/-- A data frame for this device joined to its transaction (R187); one that continues none is discarded. -/
def State.assemble (s : State) (p : Nat) (f : Frame) : State :=
  let ws := ((frameWords f 30).drop 2).take (AF.ndata f)
  let held : Option AsyncPart :=
    if AF.first f then some { vc := FH.vc f, src := FH.asrc f, stream := AF.stream f, cw := frameWord f 1, words := [] }
    else (s.port p).parts.find? fun a => a.has f
  match held with
  | none => s
  | some a =>
    let a := { a with words := a.words ++ ws }
    let s := s.updPort p fun x =>
      { x with parts := x.parts.filter (fun y => !y.has f) ++ if AF.last f then [] else [a] }
    if AF.last f then s.deliverAsync p (FH.vc f) a else s

/-- A data frame for another device forwarded (R185, R188, R198). -/
def State.forward (s : State) (p : Nat) (f : Frame) : State :=
  let f := if s.bitF F.fstPortCfg_dateline p then reframe f 2 1 1 else f
  match s.route (FH.adst f) with
  | some q => s.updPort q fun x => { x with txData := x.txData ++ [f] }
  | none => s.logOther .fstRoute (FH.adst f)

/-- ASYNC_DATA_FRAME (R187). -/
def execAsyncDataFrame (p : PortId) (s : State) : Result :=
  .next <| match s.takeSeq p AF.isData with
    | (none, s) => s
    | (some f, s) => if FH.adst f = s.devIdx then s.assemble p f else s.forward p f

/-! ### System commands (R189, R190) -/

/-- A START, RETRY or RELEASE received: forwarded once on every other up port and scheduled, W2 grown by the latency of the
port it came by. A START that comes while the device pulls BOUND_N low is ignored here and logged (R196). -/
def State.takeCommand (s : State) (p : Nat) (f : Frame) : State :=
  let key := (AF.origin f, AF.cseq f)
  if s.fst.seenCmds.contains key then s
  else
    let w2 : Word := frameWord f 2 + BitVec.ofNat 40 (s.getN F.fstPortStat_hoplat_ps p)
    let s := { s with fst := { s.fst with seenCmds := key :: s.fst.seenCmds } }
    let s := if AF.cmd f = 0x01 ∧ s.fst.pull = true then s.logOther .fstBound 0
      else s.schedule { cmd := AF.cmd f, origin := AF.origin f, cseq := AF.cseq f, w1 := frameWord f 1,
                        due := s.actsAt w2.toNat }
    (s.portsUp.filter (· != p)).foldl (fun (s : State) q =>
      s.sendSys q 3 [frameWord f 0, frameWord f 1, w2]) s

def State.syscmd (s : State) (p c : Nat) : State :=
  match s.takeSeq p (isCmd c) with
  | (none, s) => s
  | (some f, s) => s.takeCommand p f

def execSyscmdStart (p : PortId) (s : State) : Result := .next (s.syscmd p 0x01)
def execSyscmdRetry (p : PortId) (s : State) : Result := .next (s.syscmd p 0x02)
def execSyscmdRelease (p : PortId) (s : State) : Result := .next (s.syscmd p 0x03)

/-- START acts (R195, R196): ignored and logged while the device pulls the line low. -/
def State.startAct (s : State) (w1 : Nat) (pads : BitVec 192) : State :=
  if s.fst.pull then s.logOther .fstBound 0
  else
    let s := (s.putN F.fstBound_state 0 3).setF F.fstBound_start_ev 0
    match s.systemRegion with
    | none => s
    | some r =>
      if s.qstate r = Q.casing ∧ s.stage r = 1 then ((s.putN F.bndCase_stage r 2).openQuire r w1 true pads).startEnded true
      else s.logOther .fstBound 0

/-- RETRY acts on a device in QFAULT or TOKEN_LOST (R33, R190). It recomputes the quire after its own committed one; what a
device does whose count differs from W1 the spec does not say (log entry 121). -/
def State.retryAct (s : State) (bad : BitVec 2) : State :=
  match s.systemRegion with
  | none => s
  | some r => if s.qstate r = Q.qfault ∨ s.qstate r = Q.tokenLost then s.retryRegion r bad else s

/-- The scheduled command whose moment comes first, of several the one received first. -/
def firstDue (l : List SysCmd) : Option SysCmd :=
  l.foldl (fun (b : Option SysCmd) c => match b with
    | none => some c
    | some x => if c.due < x.due then some c else b) none

/-- SYSCMD_ACT (R190): the moment of the scheduled command that is due first has come. -/
def execSyscmdAct (pads : BitVec 192) (bad : BitVec 2) (s : State) : Result :=
  .next <| match firstDue s.fst.scheduled with
    | none => s
    | some c =>
      let s := { s with fst := { s.fst with scheduled := s.fst.scheduled.erase c } }
      match c.cmd, s.systemRegion with
      | 0x01, _ => s.startAct c.w1.toNat pads
      | 0x02, _ => s.retryAct bad
      | 0x03, some r => s.releaseAct r c.w1.toNat pads
      | _, _ => s

/-! ### Lane substitution (R186, R469) -/

/-- LANE_SWITCH_TX: at its own SWCW codeword the end drives the spare as well. -/
def execLaneSwitchTx (p : PortId) (s : State) : Result :=
  .next <| match (s.port p).sub with
    | some u =>
      if u.swcw = (s.port p).txCount then s.updPort p fun x => { x with sub := some { u with txMoved := true } } else s
    | none => s

/-- LANE_SWITCH_RX: at the codeword that the peer named the receive side moves, and the end sends DONE. -/
def execLaneSwitchRx (p : PortId) (s : State) : Result :=
  .next <| match (s.port p).sub with
    | some u =>
      if u.peerSwcw = some (s.port p).rxCount then
        (s.updPort p fun x => { x with sub := some { u with rxMoved := true }, linkDue := true }).checkSub p
      else s
    | none => s

/-- LANE_SUB_TIMEOUT: a requester to which no ACCEPT came in 1 ms. -/
def execLaneSubTimeout (p : PortId) (s : State) : Result :=
  .next <| match (s.port p).sub with
    | some u => if u.requester && !u.accepted then s.failSub p else s
    | none => s

/-- LANE_SIGNAL_LOSS (R469): with AUTO = 1 an up port takes a free cabled spare. -/
def execLaneSignalLoss (p : PortId) (lane : Fin 8) (s : State) : Result :=
  .next <|
    if s.portUp p then
      let s := s.putF F.fstPortStat_lanedown p (s.getF F.fstPortStat_lanedown p ||| (1#8 <<< lane.val))
      match s.bitF F.upkLane_auto 0, (s.port p).sub, (List.range 4).find? fun k => s.spareFits p k with
      | true, none, some k => s.startSub p lane k
      | _, _, _ => s
    else s

/-- CODE of a refused UPK_LANE.GO (R469, R474), 0 where it is accepted. -/
def State.laneCode (s : State) (v : BitVec 64) : Nat :=
  let p := fieldOf F.upkLane_port v
  let k := fieldOf F.upkLane_spare v
  let taken := (List.range 8).any fun q => match (s.port q).sub with
    | some u => u.spare == k || q == p
    | none => false
  if s.portUp p = false then 1
  else if s.bitF F.fstSpare_inuse k || !s.bitF F.fstSpare_homeen k || taken then 2
  else if s.getN F.fstPortCfg_peerdev (s.getN F.fstSpare_homeport k) ≠ s.getN F.fstPortCfg_peerdev p then 3
  else 0

/-- A write of UPK_LANE. -/
def State.writeLane (s : State) (fn : Nat) (v : BitVec 64) : State :=
  if fn ≠ 0 then s.ignored fn .upkLane 0
  else
    let go := v.getLsbD 63
    s.writeReg fn .upkLane 0 v (go && s.laneCode v != 0)
      (fun c => (c.setF F.upkLane_rej 0).putN F.upkLane_code 0 (s.laneCode v)) fun s =>
        if go then (s.putN F.upkLane_code 0 0).startSub (fieldOf F.upkLane_port v) (fieldOf F.upkLane_lane v)
          (fieldOf F.upkLane_spare v)
        else s

/-- UPK_LANE_GO (R469): the PF's write of UPK_LANE. -/
def execUpkLaneGo (v : BitVec 64) (s : State) : Result :=
  .next (s.bar .upkLane 0 fun s => s.writeLane 0 v)

/-! ### Training (R193) -/

/-- The SYSTEM region is in a state other than UNBOUND (R198). -/
def State.systemBound (s : State) : Bool :=
  (List.range 16).any fun r => s.systemMode r && s.qstate r != Q.unbound

/-- Training starts where the PHYs have power. -/
def State.trainPort (s : State) (p : Nat) : State :=
  if s.domOn 4 then ((s.updPort p fun _ => {}).putN F.fstPortStat_lanedown p 0).setPortState p Pt.training else s

/-- Fields of FST_PORTp_CFG that a bound SYSTEM region locks. -/
def portLocked : BitVec 64 := bitMask 6 10 ||| bitMask 3 7 ||| bitMask 1 4 ||| bitMask 2 2

/-- A write of FST_PORTp_CFG: EN rising starts training, EN falling is a link reset (R193, R448). -/
def State.writePortCfg (s : State) (fn p : Nat) (v : BitVec 64) : State :=
  if fn ≠ 0 then s.ignored fn .fstPortCfg p
  else
    let old := s.reg .fstPortCfg p
    let refused := fieldOf F.fstPortCfg_test v == 3 || (s.systemBound && ((old ^^^ v) &&& portLocked) != 0)
    s.writeReg fn .fstPortCfg p v refused (fun s => s.setF F.fstSys_rej 0) fun s =>
      if s.bitF F.fstPortCfg_en p = false then s.portOff p
      else if s.getN F.fstPortCfg_test p ≠ 0 then (s.updPort p fun _ => {}).setPortState p Pt.test
      else if old.getLsbD 0 = false ∨ s.getN F.fstPortStat_state p = Pt.test then s.trainPort p
      else s

/-- PORT_TRAIN (R193): the PF's write of FST_PORTp_CFG. -/
def execPortTrain (p : PortId) (v : BitVec 64) (s : State) : Result :=
  .next (s.bar .fstPortCfg p fun s => s.writePortCfg 0 p v)

/-- A failed lane takes a free spare cabled to the same peer (R193). -/
def State.replaceLane (s : State) (p j : Nat) : State :=
  match (List.range 4).find? fun k => s.spareFits p k with
  | some k =>
    let s := (s.putN (mapField j) p (64 + k)).setF F.fstSpare_inuse k
    ((s.putN F.fstSpare_forport k p).putN F.fstSpare_forlane k j).logLane p j (64 + k)
  | none => s.putF F.fstPortStat_lanedown p (s.getF F.fstPortStat_lanedown p ||| (1#8 <<< j))

/-- What a training learned of the spares cabled to the port's peer (R186). -/
def State.learnSpares (s : State) (p : Nat) (x : TrainedPeer) : State :=
  (List.range 4).foldl (fun (s : State) k =>
    if s.bitF F.fstSpare_homeen k &&
        s.getN F.fstPortCfg_peerdev (s.getN F.fstSpare_homeport k) == s.getN F.fstPortCfg_peerdev p then
      let y : SpareLane := { trained := x.spareOk.getLsbD k, peerSpare := (x.spareIdx.extractLsb' (2 * k) 2).toNat,
                             peerDev := x.dev.toNat }
      { s with fst := { s.fst with spares := s.fst.spares.put k y } }
    else s) s

/-- TRAINING_TIMEOUT (R193): the lanes that are not trained fail. -/
def execTrainingTimeout (p : PortId) (e : TrainingEnd) (s : State) : Result :=
  .next <|
    if s.getN F.fstPortStat_state p = Pt.training then
      let s := s.learnSpares p e.peer
      let lanes := (List.range 8).filter fun j => e.failed.getLsbD j
      let s := { s with sys := { s.sys with laneFails := s.sys.laneFails ++ lanes.map fun j => ((p : Nat), j) } }
      let s := lanes.foldl (fun (s : State) j => s.replaceLane p j) s
      if s.getF F.fstPortStat_lanedown p ≠ 0 ∨ e.failed = 0 then s.portDown p else s
    else s

/-- Where the root PLL runs from after a write of FST_SYS (R191): the root device from its own resonator; a device that is no
longer the root from SYNCPORT, where that port is up. -/
def State.syncLock (s : State) : State :=
  if s.bitF F.fstSys_root 0 then s.putN F.fstSys_syncstate 0 0
  else if s.getN F.fstSys_syncstate 0 = 0 ∧ s.portUp (s.getN F.fstSys_syncport 0) = true then s.putN F.fstSys_syncstate 0 1
  else s

/-- PORT_TRAINING_DONE (R193): up where the peer is the one expected, down otherwise. A device that is not the root locks
to SYNCPORT once that port is up (R191). -/
def execPortTrainingDone (p : PortId) (peer : TrainedPeer) (s : State) : Result :=
  .next <|
    if s.getN F.fstPortStat_state p = Pt.training then
      if peer.dev = s.getF F.fstPortCfg_peerdev p ∧ peer.port = s.getF F.fstPortCfg_peerport p then
        let s := (s.putF F.fstPortStat_hoplat_ps p peer.hopPs).updPort p fun _ =>
          { peer := some (peer.dev.toNat, peer.port.toNat), rxCount := peer.count.toNat, rxScr := peer.scr }
        let s := (s.learnSpares p peer).setPortState p Pt.up
        if s.bitF F.fstSys_root 0 = false ∧ s.getN F.fstSys_syncport 0 = p then s.putN F.fstSys_syncstate 0 1 else s
      else s.portDown p
    else s

/-- SYNCPORT_LOCK_LOSS (R191). -/
def execSyncportLockLoss (s : State) : Result :=
  .next <|
    if s.bitF F.fstSys_root 0 = false ∧ s.getN F.fstSys_syncstate 0 = 1 then
      let alt := s.bitF F.fstSys_alten 0
      let s := (s.putN F.fstSys_syncstate 0 (if alt then 2 else 3)).setF F.fstSys_syncloss_ev 0
      let s := if alt then s else s.setF F.clkStat_hold 0
      (s.logOther .fstSys 0).raise 600
    else s

/-! ### BOUND_N (R194 to R196) -/

/-- The device enters TIMEDOUT. -/
def State.boundTimeout (s : State) : State :=
  (((s.putN F.fstBound_state 0 4).setF F.fstBound_timeout_ev 0).logOther .fstBound 0).startEnded false

/-- BOUND_RISE_QUALIFIED (R195): the ROOT device sends START. -/
def execBoundRiseQualified (s : State) : Result :=
  .next <|
    if s.fst.pull then s
    else
      let s := s.setF F.fstBound_line 0
      let st := s.getN F.fstBound_state 0
      if st = 1 ∨ st = 4 then
        let s := s.putN F.fstBound_state 0 2
        if s.bitF F.fstSys_root 0 then s.sendSystem 0x01 1 else s
      else s

/-- BOUND_WAIT_TIMEOUT (R196). -/
def execBoundWaitTimeout (s : State) : Result :=
  .next (if s.getN F.fstBound_state 0 = 1 then s.boundTimeout else s)

/-- START_WAIT_TIMEOUT (R196). -/
def execStartWaitTimeout (s : State) : Result :=
  .next (if s.getN F.fstBound_state 0 = 2 then s.boundTimeout else s)

/-- BOUND_N_FALL (R196). -/
def execBoundNFall (s : State) : Result :=
  let t := s.clrF F.fstBound_line 0
  .next (if s.getN F.fstBound_state 0 = 3 then t.logOther .fstBound 0 else t)

end Sys2Proof.Machine
end

