-- ==== Sys2Proof/Machine/Ring.lean ====
section
/-!
DEFINITION. The commands of the spine rings (11_spine_rings.md): slots, injection, regulators, resends, bypass and
probes, and the packets that each destination serves.
-/
namespace Sys2Proof.Machine

/-! ### Slots (R309 to R311, R320) -/

def State.slot (s : State) (ring i : Nat) : Option Flit := s.ring.slots.at (42 * ring + i)
def State.setSlot (s : State) (ring i : Nat) (f : Option Flit) : State :=
  { s with ring := { s.ring with slots := s.ring.slots.put (42 * ring + i) f } }

/-- Rings A and C run clockwise, B and D counter-clockwise. -/
def clockwise (ring : Nat) : Bool := ring == 0 || ring == 2

/-- The slot directly upstream of a slot (log entry 14). -/
def upstream (ring i : Nat) : Nat := if clockwise ring then (i + 41) % 42 else (i + 1) % 42

/-- R320: empty, and so is the slot upstream of it. -/
def State.usable (s : State) (ring i : Nat) : Bool := (s.slot ring i).isNone && (s.slot ring (upstream ring i)).isNone

def State.staState (s : State) (k : Nat) : Nat := s.getN F.spnSta_state k
def State.bypassed (s : State) (k : Nat) : Bool := s.staState k == 2

/-- Stations strictly between a source and a destination. -/
def between (src dst : Nat) (cw : Bool) : List Nat :=
  let d := (dst + 21 - src) % 21
  if cw then (List.range (d - 1)).map fun i => (src + 1 + i) % 21
  else (List.range (20 - d)).map fun i => (src + 20 - i) % 21

/-- The ring that a flit takes (R311). -/
def State.ringFor (s : State) (src dst : Nat) (response : Bool) : Nat :=
  let cw := decide ((dst + 21 - src) % 21 ≤ 10)
  let barred (c : Bool) : Bool := (between src dst c).any s.bypassed
  let c := if barred cw && !barred (!cw) then !cw else cw
  (if c then 0 else 1) + (if response then 2 else 0)

/-! ### Probes (R328, R329) -/

/-- A trace entry written at WPTR; with STOPFULL = 1, writing stops when WPTR wraps to 0. -/
def State.trace (s : State) (h : BitVec 64) (k ring p : Nat) : State :=
  let w := s.getN F.spnTrcCtl_wptr 0
  if s.ring.traceFull then s
  else
    let e : BitVec 128 := BitVec.ofNat 128
      (s.ring.nclk.toNat + k * 2 ^ 40 + ring * 2 ^ 45 + p * 2 ^ 47 + h.toNat * 2 ^ 64)
    let s := { s with ring := { s.ring with
      trace := s.ring.trace.put w e, traceFull := decide (w = 4095) && s.bitF F.spnTrcCtl_stopfull 0 } }
    let s := s.putN F.spnTrcCtl_wptr 0 ((w + 1) % 4096)
    if w = 4095 then s.setF F.spnTrcCtl_wrap 0 else s

/-- A probe watches a ring at a station. -/
def State.watches (s : State) (p k ring : Nat) : Bool :=
  s.getN F.spnPrbCfg_station p == k && s.getN F.spnPrbCfg_ring p == ring

/-- CNT advanced; in mode EVENT, THRESH reached sets EV and raises 924 + p. -/
def State.countProbe (s : State) (p : Nat) : State :=
  let s := s.addF F.spnPrbCnt_cnt p 1
  if s.getN F.spnPrbCfg_mode p = 3 ∧ s.getN F.spnPrbCnt_cnt p = s.getN F.spnPrbCfg_thresh p then
    (s.setF F.spnPrbCfg_ev p).raise (924 + p)
  else s

/-- The probes that match a flit which passes or is ejected, lowest first. -/
def State.probeFlit (s : State) (k ring : Nat) (h : BitVec 64) : State :=
  (List.range 16).foldl (fun (s : State) p =>
    if s.watches p k ring && ((h ^^^ s.reg .spnPrbMatch p) &&& s.reg .spnPrbMask p) == 0 then
      match s.getN F.spnPrbCfg_mode p with
      | 1 | 3 => s.countProbe p
      | 2 => s.trace h k ring p
      | _ => s
    else s) s

/-- The probes in mode EMPTY count a usable slot that the station is offered. -/
def State.probeEmpty (s : State) (k ring i : Nat) : State :=
  if s.usable ring i then
    (List.range 16).foldl (fun (s : State) p =>
      if s.watches p k ring && s.getN F.spnPrbCfg_mode p == 4 then s.addF F.spnPrbCnt_cnt p 1 else s) s
  else s

/-! ### Arrival and injection (R313, R317, R320 to R322, R327) -/

/-- AGE advanced, and the header's CRC computed again. -/
def aged (f : Flit) : Flit :=
  { f with h := sealHeader (putBits f.h 12 3 (BitVec.ofNat 3 (min 7 (FL.age f.h + 1)))) }

/-- The requester of a lock request, 8 × core + level (R226, R314). -/
def lockRequester (f : Flit) : Option Nat :=
  if FL.kind f.h = 6 ∧ (f.words.getD 0 0).extractLsb' 0 3 = 4 then
    some (8 * stationCore (FL.src f.h) (FL.scl f.h) + FL.tag f.h / 16 % 8) else none

/-- A flit at the end of its queue; of two lock requests that come in one cycle, on the two rings, the one of the lower
core, then level, is first (R267). -/
def queueEjected (e : Ejected) (q : List Ejected) : List Ejected :=
  match q.getLast? with
  | some l =>
    match lockRequester e.flit, lockRequester l.flit with
    | some a, some b => if l.at_ = e.at_ ∧ l.ring ≠ e.ring ∧ a < b then q.dropLast ++ [e, l] else q ++ [e]
    | _, _ => q ++ [e]
  | none => [e]

/-- A flit at its destination: a response is always ejected, a request where the queue of its ring has room. -/
def State.ejectFlit (s : State) (ring i k : Nat) (f : Flit) : State :=
  if FL.response f.h then
    (s.updStation k fun x => { x with resp := x.resp.upd (FL.scl f.h) (· ++ [f]) }).setSlot ring i none
  else
    if ((s.station k).ej.filter fun g => g.ring == ring).length < 16 then
      (s.updStation k fun x => { x with ej := queueEjected ⟨ring, s.ring.nclk, f⟩ x.ej }).setSlot ring i none
    else s.setSlot ring i (some (aged f))

/-- FLIT_ARRIVE (R313, R321, R326, R328): the slot's flit at a station; one in BYPASS checks and probes it, and lets it
pass. -/
def execFlitArrive (ring : Fin 4) (slot : Fin 42) (k : StationId) (s : State) : Result :=
  .next <| match s.slot ring slot with
    | none => s
    | some f =>
      if badHeader f.h then
        ((s.setSlot ring slot none).addF F.spnErr_hcrc 0 1).logEntry 0x02 0x4003
          (RegId.spnErr.offset 0 + k * 2 ^ 26 + ring * 2 ^ 31)
      else
        let s := s.probeFlit k ring f.h
        if FL.dst f.h = k ∧ s.bypassed k = false then s.ejectFlit ring slot k f else s

/-- Space for response flits that a request flit reserves as it is injected: the first flit of a packet, but not of a
resend, which keeps its request's (R322, R324). -/
def Flit.needs (f : Flit) : Nat :=
  if FL.fidx f.h = 0 ∧ FL.rs f.h = false then responseFlits (FL.kind f.h) ((f.words.getD 1 0).toNat % 64) else 0

/-- A client may raise a request with its oldest flit (R318, R322, R327). -/
def State.mayRequest (s : State) (k cl : Nat) (f : Flit) : Bool :=
  decide (0 < s.getN F.spnRg_tokens (8 * k + cl)) && decide ((s.station k).reserved cl + f.needs ≤ 32) &&
    !s.bitF F.spnSta_deny (FL.dst f.h)

/-- The highest-numbered client that raises a request, with its oldest flit (R317). -/
def State.granted (s : State) (k : Nat) (response : Bool) : Option (Nat × Flit) :=
  (List.range 8).foldl (fun (b : Option (Nat × Flit)) cl =>
    let q := if response then (s.station k).injResp.at cl else (s.station k).inj.at cl
    match q.head? with
    | some f => if response || s.mayRequest k cl f then some (cl, f) else b
    | none => b) none

/-- The ring that a granted flit takes: the one of R311 for the first flit of a packet, the packet's for the others (R310). -/
def State.flitRing (s : State) (k cl : Nat) (response : Bool) (f : Flit) : Nat :=
  if FL.fidx f.h = 0 then s.ringFor k (FL.dst f.h) response else (s.station k).ringOf.at (2 * cl + response.toNat)

/-- The granted flit leaves its queue for a slot: a token is used and the response's space reserved. -/
def State.injectFlit (s : State) (k ring i cl : Nat) (response : Bool) (f : Flit) : State :=
  let s := (s.setSlot ring i (some f)).updStation k fun x => { x with ringOf := x.ringOf.put (2 * cl + response.toNat) ring }
  if response then s.updStation k fun x => { x with injResp := x.injResp.upd cl List.tail }
  else
    (s.putN F.spnRg_tokens (8 * k + cl) (s.getN F.spnRg_tokens (8 * k + cl) - 1)).updStation k fun x =>
      { x with inj := x.inj.upd cl List.tail,
               out := x.out.map fun o => if o.id = f.id then { o with held := o.held + f.needs } else o }

/-- FLIT_INJECT (R317): one class's injection in one NCLK cycle, where slots `a` and `b` of its two rings pass. -/
def execFlitInject (k : StationId) (cls : Fin 2) (slots : SlotPair) (s : State) : Result :=
  let response := cls.val == 1
  let first := 2 * cls.val
  let s := (s.probeEmpty k first slots.a).probeEmpty k (first + 1) slots.b
  .next <| if s.bypassed k then s
    else match s.granted k response with
      | none => s
      | some (cl, f) =>
        let ring := s.flitRing k cl response f
        let i : Nat := if ring % 2 = 0 then slots.a else slots.b
        if s.usable ring i then s.injectFlit k ring i cl response f else s

/-! ### Regulators and timers of the rings (R318, R324) -/

/-- REGULATOR_TOKEN (R318): the fraction counter reaches 1,024 and wraps, and a token is added. -/
def execRegulatorToken (k : StationId) (cl : Fin 8) (s : State) : Result :=
  let i := 8 * k.val + cl.val
  let rate := s.getN F.spnRg_rate i
  .next <| if rate = 0 then s
    else
      let frac := ((s.station k).reg.at cl).frac
      let cycles := (1024 - frac + rate - 1) / rate
      (s.updStation k fun x => { x with reg := x.reg.put cl { frac := frac + cycles * rate - 1024 } }).putN
        F.spnRg_tokens i (min (s.getN F.spnRg_tokens i + 1) (s.getN F.spnRg_burst i + 1))

/-- A response to an outstanding request waits at its station already, whole. -/
def State.answered (s : State) (k : Nat) (o : OutReq) : Bool :=
  (wholePackets ((s.station k).resp.at o.client)).any fun p => p.any fun f => f.id == o.id

/-- Every flit of a request has been injected. -/
def State.injected (s : State) (k : Nat) (o : OutReq) : Bool :=
  ((s.station k).inj.at o.client).all fun f => f.id != o.id

/-- RING_RESEND_TIMEOUT (R324): the request, 20 µs after its injection, is sent again, three times at most. -/
def execRingResendTimeout (k : StationId) (cl : Fin 8) (tag : BitVec 8) (s : State) : Result :=
  .next <| match (s.station k).out.find? fun o => o.client == cl.val && o.tag == tag.toNat && s.injected k o with
    | some o => if o.resends < 3 ∧ s.answered k o = false then s.sendAgain k o else s
    | none => s

/-- KEPT_RESPONSE_EXPIRY (R324). -/
def execKeptResponseExpiry (k src : StationId) (cl : Fin 8) (tag : BitVec 8) (s : State) : Result :=
  .next <| s.updStation k fun x =>
    { x with kept := x.kept.filter fun y => !(y.src == src.val && y.client == cl.val && y.tag == tag.toNat) }

/-! ### Bypass (R326) -/

/-- A station's change of state with source 920 and the BYPASS entry, where it enters or leaves BYPASS. -/
def State.setStation (s : State) (k st : Nat) : State :=
  let was := s.staState k
  let s := s.putN F.spnSta_state k st
  if was = 2 ∨ st = 2 then (s.logEntry 0x02 0x6005 (k + st * 2 ^ 5)).raise 920 else s

/-- A write of SPN_STAk: BYP = 1 puts a NORMAL station into DRAINING, BYP = 0 returns any to NORMAL. A write of BYP = 1 where
a warm reset has kept the bit and returned STATE to NORMAL (their Survives column) starts DRAINING too. -/
def State.writeSta (s : State) (fn k : Nat) (v : BitVec 64) : State :=
  if fn = 0 then
    let on := v.getLsbD 2
    let was := s.bitF F.spnSta_byp k
    let follow (s : State) : State :=
      if !on then (s.clrF F.spnSta_deny k).setStation k 0
      else if quadrantStation k && (!was || s.staState k == 0) then (s.setF F.spnSta_deny k).setStation k 1
      else s
    if s.idleWrite .spnSta k v then follow (s.clearW1c .spnSta k v)
    else s.writeReg fn .spnSta k v (on && !quadrantStation k) (fun s => s.setF F.spnSta_rej k) follow
  else s.ignored fn .spnSta k

/-- STATION_BYPASS (R326): the PF's write of SPN_STAk. -/
def execStationBypass (k : StationId) (v : BitVec 64) (s : State) : Result :=
  .next (s.bar .spnSta k fun s => s.writeSta 0 k v)

/-- A flit addressed to a station is on a ring. -/
def State.flitFor (s : State) (k : Nat) : Bool :=
  s.ring.slots.entries.any fun e => match e.2 with
    | some f => FL.dst f.h == k
    | none => false

/-- DRAIN_COMPLETE (R326): a DRAINING station whose clients hold no outstanding request, whose ejection queues are empty and
to which no flit is on its way enters BYPASS. -/
def execDrainComplete (k : StationId) (s : State) : Result :=
  let x := s.station k
  .next <| if s.staState k = 1 ∧ x.out.isEmpty = true ∧ x.ej.isEmpty = true ∧ s.flitFor k = false then s.setStation k 2
    else s

/-- What a read of SPN_TRC_DHI leaves (R329). -/
def State.advanceTrace (s : State) : State := s.putN F.spnTrcAddr_addr 0 ((s.getN F.spnTrcAddr_addr 0 + 1) % 4096)

/-- TRACE_READ (R329): a read of SPN_TRC_DHI, which advances ADDR. -/
def execTraceRead (s : State) : Result :=
  .next (s.barRead 0 .spnTrcDhi 0 fun s =>
    let e := s.ring.trace.at (s.getN F.spnTrcAddr_addr 0)
    (s.emit (.readData 0 (leBytes (e.toNat / 2 ^ 64) 8))).advanceTrace)

/-! ### DRAM requests (R323, R336, R338, R341, R342) -/

/-- The station of a memory controller. -/
def mcStation (mc : Nat) : Nat := if mc = 0 then 9 else 19

/-- The words of a request are open to it. -/
def State.dramOpen (s : State) (h : BitVec 64) (w n : Nat) : Bool :=
  let special := (FL.src h == 4 && FL.scl h == 0) || (FL.src h == 14 && FL.scl h == 1)
  s.inUsable w n &&
    (s.inPartition (FL.fn h) w n || (special && (List.range n).all fun i => inCollator ((w + i) / 12)))

def dramAddr (q : Request) : Nat := ((q.word 0).extractLsb' 0 38).toNat

/-- RD (R314, R341): a read request at its controller, whose sectors fail `glitch` tries each. -/
def execRd (mc : Fin 2) (glitch : Nat) (s : State) : Result :=
  let k := mcStation mc
  .next <| match s.serve k 0 with
    | .done s => s
    | .act q s =>
      let n := q.count
      if s.dramOpen q.h (dramAddr q) n = false then s.respond k q 8 5 0 (List.replicate n 0)
      else match s.readWords (dramAddr q) n glitch with
        | (some ws, s) => s.respond k q 8 0 n ws
        | (none, s) => s.respond k q 8 4 0 (List.replicate n 0)

/-- WR (R314, R342): a write request at its controller. -/
def execWr (mc : Fin 2) (glitch : Nat) (s : State) : Result :=
  let k := mcStation mc
  .next <| match s.serve k 1 with
    | .done s => s
    | .act q s =>
      let n := q.count
      if s.dramOpen q.h (dramAddr q) n = false then s.respond k q 9 5 0 []
      else
        let (m, s) := s.writeWords (dramAddr q) q.data glitch
        s.respond k q 9 (if m = q.data.length then 0 else 4) m []

/-! ### Folio requests (R132, R140, R294, R315, R323) -/

/-- The gathering is out of service: a column move of its HELD region is under way (R468). -/
def State.movedOut (s : State) (g : Nat) : Bool :=
  match s.regionOf g with
  | none => false
  | some r => s.qstate r == Q.held && (s.bitF F.gthCfg_unloaded g ||
      (s.getN F.upkColrep_state 0 == 1 && s.getN F.upkColrep_q 0 == gthQ g &&
        decide (s.getN F.upkColrep_pg 0 ≤ gthX g)))

/-- The gathering is not open to a function, or is out of service (R323). -/
def State.gthBarred (s : State) (h : BitVec 64) (g : Nat) : Bool :=
  (FL.fn h != 0 && s.regionOf g != some (FL.fn h - 1)) || s.movedOut g

/-- The item of the activation whose level sent a request (R294). -/
def State.senderItem (s : State) (h : BitVec 64) : Option Item :=
  if quadrantStation (FL.src h) && decide (FL.scl h < 4) then
    ((s.act (stationCore (FL.src h) (FL.scl h)) (FL.tag h / 16 % 8)).bind (·.item)).bind s.item?
  else none

/-- The item has its eight queue marks and this queue is none of them. -/
def ninthMark (x : Item) (queue : Nat) : Bool :=
  !x.event && decide (8 ≤ x.marks.length) && !x.marks.any fun m => m.queue == queue

/-- The item's mark of a queue set to RP. -/
def State.markItem (s : State) (x : Item) (queue rp : Nat) : State :=
  if x.event then s
  else s.updItem x.id fun y =>
    { y with marks := if y.marks.any (fun m => m.queue == queue) then
        y.marks.map (fun m => if m.queue == queue then { m with rp, valid := true } else m)
      else y.marks ++ [{ queue, rp, valid := true }] }

/-- Words pushed until the first refusal: how many, and status FULL where one was refused. -/
def State.pushWords (s : State) (g n : Nat) (ws : List Word) : Nat × Nat × State :=
  let (m, s) := ws.foldl (fun (acc : Nat × State) d =>
    if acc.2.ringCount g n < acc.2.qSize g n then (acc.1 + 1, (acc.2.ringPush g n d).gthEvents g) else acc) (0, s)
  if m = ws.length then (m, 0, s) else (m, 2, s.gthEvents g)

/-- A QPUSH request served (R138, R140, R294, R315). -/
def State.serveQpush (s : State) (k : Nat) : State :=
  match s.serve k 2 with
  | .done s => s
  | .act q s =>
    let queue := ((q.word 0).extractLsb' 0 14).toNat
    let g := queue / 4
    let n := queue % 4
    let x := s.senderItem q.h
    if s.gthBarred q.h g || s.qOut g n || s.qSize g n == 0 || (x.map fun i => ninthMark i queue).getD false then
      s.respond k q 9 5 0 []
    else
      let (m, st, s) := s.pushWords g n q.data
      let s := match x with
        | some i => if m = 0 then s else s.markItem i queue ((s.gth g).queue.at n).rp
        | none => s
      s.respond k q 9 st m []

/-- QPUSH. -/
def execQpush (k : StationId) (s : State) : Result := .next (s.serveQpush k)

/-- Words popped until the first refusal or parity failure: the words and the status. -/
def State.popWords (s : State) (g n count : Nat) : List Word × Nat × State :=
  (List.range count).foldl (fun (acc : List Word × Nat × State) _ =>
    let (ws, st, s) := acc
    if st ≠ 0 then acc
    else if s.ringCount g n = 0 then (ws, 3, s.gthEvents g)
    else
      let (w, good, s) := s.portRead g (s.qAddr g n ((s.gth g).queue.at n).rp) true
      (ws ++ [data44 w], if good then 0 else 6, (s.ringAdvance g n).gthEvents g)) ([], 0, s)

/-- A QPOP request served (R132, R138, R140, R315). -/
def State.serveQpop (s : State) (k : Nat) : State :=
  match s.serve k 3 with
  | .done s => s
  | .act q s =>
    let queue := ((q.word 0).extractLsb' 0 14).toNat
    let g := queue / 4
    let n := queue % 4
    if s.gthBarred q.h g || !s.qOut g n || s.qSize g n == 0 then s.respond k q 8 5 0 (List.replicate q.count 0)
    else
      let (ws, st, s) := s.popWords g n q.count
      s.respond k q 8 st ws.length (ws ++ List.replicate (q.count - ws.length) 0)

/-- QPOP. -/
def execQpop (k : StationId) (s : State) : Result := .next (s.serveQpop k)

/-- Gathering and first word of a plain-word address (R224). -/
def plainAddr (q : Request) : Nat × Nat := (((q.word 0).extractLsb' 11 12).toNat, ((q.word 0).extractLsb' 0 11).toNat)

/-- A FRD request served (R130, R132): committed words, up to and with one whose parity fails. -/
def State.serveFrd (s : State) (k : Nat) : State :=
  match s.serve k 4 with
  | .done s => s
  | .act q s =>
    let (g, a) := plainAddr q
    if s.gthBarred q.h g then s.respond k q 8 5 0 (List.replicate q.count 0)
    else
      let (ws, st, s) := (List.range q.count).foldl (fun (acc : List Word × Nat × State) i =>
        let (ws, st, s) := acc
        if st ≠ 0 then acc
        else
          let (w, good, s) := s.portRead g ((a + i) % 2048) true
          (ws ++ [data44 w], if good then 0 else 6, s.gthEvents g)) ([], 0, s)
      s.respond k q 8 st ws.length (ws ++ List.replicate (q.count - ws.length) 0)

/-- FRD. -/
def execFrd (k : StationId) (s : State) : Result := .next (s.serveFrd k)

/-- A plain word written by the ring: the store takes it at once. -/
def State.ringWrite (s : State) (g addr : Nat) (d : Word) : State :=
  s.updGth g fun x =>
    { x with store := x.store.put addr (store44 d), draining := x.draining.filter (fun e => e.addr != addr),
             fdirty := true }

/-- A FWR request served (R140): only into a gathering whose region is UNBOUND. -/
def State.serveFwr (s : State) (k : Nat) : State :=
  match s.serve k 5 with
  | .done s => s
  | .act q s =>
    let (g, a) := plainAddr q
    let bound := match s.regionOf g with
      | some r => s.qstate r != Q.unbound
      | none => false
    if s.gthBarred q.h g || bound then s.respond k q 9 5 0 []
    else
      let s := (q.data.zipIdx).foldl (fun (s : State) p => (s.ringWrite g ((a + p.2) % 2048) p.1).gthEvents g) s
      s.respond k q 9 0 q.data.length []

/-- FWR. -/
def execFwr (k : StationId) (s : State) : Result := .next (s.serveFwr k)

/-- The requests that wait at the ring ports of a quadrant, served and answered before its power-down begins (R134, R429). -/
def State.drainPorts (s : State) (q : Nat) : State :=
  (List.range 4).foldl (fun (s : State) i =>
    let k := 5 * q + i
    (List.range (wholePackets ((s.station k).parts ++ (s.station k).ej.map (·.flit))).length).foldl (fun (s : State) _ =>
      (((s.serveQpush k).serveQpop k).serveFrd k).serveFwr k) s) s

/-! ### Collator and core requests (R204, R226, R253) -/

/-- CMSG (R226, R314): the Collator acts on the request and answers with CRSP. -/
def execCmsg (s : State) : Result :=
  .next <| match s.serve 4 6 with
    | .done s => s
    | .act q s =>
      let c := stationCore (FL.src q.h) (FL.scl q.h)
      let (ws, s) := s.collatorMessage c (FL.tag q.h / 16 % 8) q
      s.respond 4 q 0xA 0 0 ws

/-- DSP (R204, R314): the level becomes READY at the entry PC with the descriptor. -/
def execDsp (k : StationId) (s : State) : Result :=
  .next <| match s.serve k 7 with
    | .done s => s
    | .act q s =>
      let c := stationCore k (FL.tag q.h / 8 % 4)
      let v := (q.word 0).toNat % 8
      let s := if (s.level c v).state == .idle && (s.act c v).isSome && !s.holdrst c then
          s.updLevel c v fun l => l.dispatched ((q.word 1).toNat % 32768) ((q.ws.drop 2).take 7)
        else s
      s.respond k q 9 0 0 []

/-! ### Responses (R225, R315, R324) -/

/-- One response of a core's transfer: its words into DMEM, the count, and the tag's status once all have come. A second
packet that waits is sent where nothing was refused (R224). -/
def State.transferDone (s : State) (c v tag : Nat) (h : BitVec 64) (ws : List Word) : State :=
  let t := (s.level c v).tag tag
  if t.busy = false then s
  else
    let moved := min (FL.moved h) ws.length
    let s := if t.get then
        ((ws.take moved).zipIdx).foldl (fun (s : State) p => s.dmemWrite c (t.dmem + t.count + p.2) p.1) s else s
    let fail := if t.fail = 0 then FL.stat h else t.fail
    match t.rest, fail with
    | some (ra, ws), 0 =>
      (s.updLevel c v fun l => { l with tags := l.tags.put tag { t with count := t.count + FL.moved h, rest := none } }).sendPart
        c v tag false ra ws.length ws
    | _, _ =>
      let left := t.left - 1
      let t := { t with count := t.count + FL.moved h, left, fail, busy := left != 0, rest := none,
                        status := if left = 0 then fail else 1 }
      (s.updLevel c v fun l => { l with tags := l.tags.put tag t }).wakeTags c v

/-- RDATA (R314, R324): handed to its requester. -/
def execRdata (k : StationId) (cl : Fin 8) (s : State) : Result :=
  .next <| match s.accept k cl 8 with
    | (none, s) => s
    | (some (q, s), _) =>
      if quadrantStation k && decide (cl.val < 4) then
        s.transferDone (stationCore k cl) (FL.tag q.h / 16 % 8) (FL.tag q.h % 16) q.h q.ws
      else s

/-- RACK (R314, R324): the requester's transfer, or the Collator's dispatch, is complete. -/
def execRack (k : StationId) (cl : Fin 8) (s : State) : Result :=
  .next <| match s.accept k cl 9 with
    | (none, s) => s
    | (some (q, s), _) =>
      if quadrantStation k && decide (cl.val < 4) then
        s.transferDone (stationCore k cl) (FL.tag q.h / 16 % 8) (FL.tag q.h % 16) q.h []
      else s

/-- The Collator's answer at the level that waits for it (R226, R263). -/
def State.collatorAnswer (s : State) (c v op : Nat) (ws : List Word) : State :=
  let rd := ws.getD 0 0
  let z := (ws.getD 1 0).getLsbD 0
  let ack := (ws.getD 1 0).getLsbD 1
  match (s.level c v).state with
  | .wait (.collator o r) =>
    if o ≠ op then s
    else match op, ack with
      | 0, _ =>
        (s.updLevel c v fun l =>
          if z then l.setZ true else { (l.loadDesc (ws.drop 2)).setZ false with hasItem := true }).setLevelState c v .ready
      | 4, true => s.setLevelState c v (.wait (.lock r))
      | 6, _ => s.setLevelState c v (.wait .yielded)
      | _, _ => (s.updLevel c v fun l => (l.gWrite r (gen rd)).setZ z).setLevelState c v .ready
  | _ => s

/-- CRSP (R226, R314). -/
def execCrsp (k : StationId) (cl : Fin 8) (s : State) : Result :=
  .next <| match s.accept k cl 0xA with
    | (none, s) => s
    | (some (q, s), _) =>
      if quadrantStation k && decide (cl.val < 4) then
        s.collatorAnswer (stationCore k cl) (FL.tag q.h / 16 % 8) (FL.tag q.h % 16) q.ws
      else s

end Sys2Proof.Machine
end

