-- ==== Sys2Proof/Machine/Meter.lean ====
section
/-!
DEFINITION. The Waila meter (15_waila_meter.md): counts, records, sealed parameters, its links and its view in BAR0.
-/
namespace Sys2Proof.Machine

def State.meter (s : State) : Meter := s.sys.meter
def State.updMeter (s : State) (f : Meter → Meter) : State := s.onSys fun y => { y with meter := f y.meter }

/-- The successor of a count that stops at all ones. -/
def satAdd {w : Nat} (a : BitVec w) (n : Nat) : BitVec w := BitVec.ofNat w (min (a.toNat + n) (2 ^ w - 1))

def signatures : Nat := 2 ^ 30
def Meter.left (m : Meter) : Nat := signatures - m.leafIndex
def Meter.keylow (m : Meter) : Bool := decide (m.left < 2 ^ 20)

/-- SEALSTATE (R408); a part without -S carries 0 whatever has happened. -/
def State.sealState (s : State) : Nat :=
  let m := s.meter
  if s.bitF F.hubId_sealed 0 = false then 0
  else if m.fault then 3
  else if m.cnt.audit = m.factoryAudit then 1 else 2

def Meter.wire (m : Meter) (r : Nat) : Bool × Nat := m.wiring.getD r (false, 0)

/-! ### Records (R400, R401) -/

/-- The 448-byte body of a record. -/
def State.recordBody (s : State) (reason : Nat) : List Byte :=
  let m := s.meter
  let c := m.cnt
  let flags := reason + s.sealState * 2 ^ 8 + m.stale.toNat * 2 ^ 10 + m.keylow.toNat * 2 ^ 11
  let channel (r : Nat) : List Byte :=
    let (v, w) := m.wire r
    leBytes (c.runUs.at r).toNat 8 ++ leBytes ((c.acc.at r).toNat / m.unit.toNat) 12 ++
      leBytes ((m.nb.at w).toNat + (m.sampled.getLsbD w).toNat * 2 ^ 31 + v.toNat * 2 ^ 30) 4
  ([0x57, 0x4D, 0x52, 0x01] : List Byte) ++ leBytes flags 4 ++ leBytes c.seq.toNat 8 ++ leBytes c.mt.toNat 8 ++
    leBytes c.audit.toNat 4 ++ leBytes c.poweron.toNat 4 ++ leBytes c.rejcnt.toNat 4 ++ leBytes m.intervalS.toNat 4 ++
    leBytes m.unit.toNat 4 ++ leBytes 0 4 ++ leBytes m.serial.toNat 8 ++ leBytes 0 8 ++
    (List.range 16).flatMap channel

/-- A snapshot, which waits to be signed; none where no signature is left (R404). -/
def State.snapshot (s : State) (reason : Nat) : State :=
  if s.meter.left = 0 then s
  else
    let s := s.updMeter fun m => { m with cnt := { m.cnt with seq := satAdd m.cnt.seq 1 }, lastMt := some m.cnt.mt }
    let body := s.recordBody reason
    s.updMeter fun m => { m with snaps := m.snaps ++ [{ reason, body }] }

/-! ### Sampling (R398) -/

def State.runningWires (s : State) : BitVec 16 :=
  (List.range 16).foldl (fun w r => if s.running r then w ||| (1#16 <<< r) else w) 0#16

/-- Sealed parameters in force. -/
def Meter.setParams (m : Meter) (p : SealParams) : Meter :=
  { m with intervalS := p.intervalS, unit := p.unit, wiring := p.wiring }

/-- The parameters that were accepted since the last microsecond, the last of them in force. -/
def Meter.takeParams (m : Meter) : Meter := { m.sealQueue.foldl Meter.setParams m with sealQueue := [] }

/-- A record for each sealed command that takes effect at this microsecond, with that command's parameters (R400, R407). -/
def State.sealedRecords (s : State) (q : List SealParams) : State :=
  q.foldl (fun (s : State) p => (s.updMeter fun m => m.setParams p).snapshot 3) s

/-- One channel counted. -/
def MeterCounts.count (c : MeterCounts) (m : Meter) (wires : BitVec 16) (r : Nat) : MeterCounts :=
  let (v, w) := m.wire r
  if v && wires.getLsbD w then
    { c with runUs := c.runUs.upd r (satAdd · 1), acc := c.acc.upd r (satAdd · (m.nb.at w).toNat) }
  else c

/-- A microsecond of the meter: MT, the parameters that now take effect, and the sample of the running wires. -/
def Meter.sample (m : Meter) (wires : BitVec 16) : Meter :=
  let m := m.takeParams
  { m with cnt := (List.range 16).foldl (fun c r => c.count m wires r) { m.cnt with mt := satAdd m.cnt.mt 1 },
           sampled := wires }

/-- METER_SAMPLE (R398): MT advances by one microsecond. -/
def execMeterSample (s : State) : Result :=
  .next <| if s.meter.powered = false then s
    else (s.updMeter fun m => m.sample s.runningWires).sealedRecords s.meter.sealQueue

/-! ### The binding link (R395) -/

/-- BINDING_MESSAGE_SEND (R395). -/
def execBindingMessageSend (s : State) : Result :=
  let ng := (List.range 16).map fun r => (s.gthsOf r).length
  .next <| if s.domOn 2 then
      s.onSys fun y => { y with bindMsg := some { seq := y.bindSeq, ng }, bindSeq := (y.bindSeq + 1) % 2 ^ 16 }
    else s

/-- BINDING_MESSAGE (R395): the message on its way arrives. -/
def execBindingMessage (crcOk : Bool) (s : State) : Result :=
  .next <| match s.sys.bindMsg with
    | none => s
    | some b =>
      let s := s.onSys fun y => { y with bindMsg := none }
      if crcOk && s.meter.powered then
        s.updMeter fun m =>
          { m with nb := Sparse.ofList ((List.range 16).map fun r => BitVec.ofNat 19 (64 * b.ng.getD r 0)), stale := false }
      else s

/-- BINDING_STALE (R395). -/
def execBindingStale (s : State) : Result :=
  .next (if s.meter.powered then s.updMeter fun m => { m with stale := true } else s)

/-! ### The non-volatile store (R399) -/

/-- The counters written in both copies. -/
def Meter.save (m : Meter) : Meter :=
  let g := (m.nv.map (·.1)).foldl max 0
  { m with nv := [(g + 1, m.cnt), (g + 1, m.cnt)] }

/-- METER_NV_WRITE (R399). -/
def execMeterNvWrite (s : State) : Result := .next (if s.meter.powered then s.updMeter Meter.save else s)

/-- MVDD_FALL (R399, R404): the counters are written, the meter loses power, and a record being signed is lost with its
leaf; accepted parameters have been written (R407) and are those it has at power-on. -/
def execMvddFall (s : State) : Result :=
  .next <| if s.meter.powered then
      s.updMeter fun m =>
        { m.takeParams.save with
          powered := false, snaps := []
          leafIndex := if m.snaps.isEmpty then m.leafIndex else m.leafIndex + 1 }
    else s

/-- The newest copy whose CRC passes: bit i of `good` says so of copy i. -/
def Meter.newestGood (m : Meter) (good : BitVec 2) : Option MeterCounts :=
  let ok := (m.nv.zipIdx.filter fun p => good.getLsbD p.2).map (·.1)
  (ok.foldl (fun (b : Option (Nat × MeterCounts)) c => match b with
    | some x => if x.1 < c.1 then some c else some x
    | none => some c) none).map (·.2)

/-- METER_POWER_ON (R399, R400): MVDD rises, which it can only where the meter has no power. -/
def execMeterPowerOn (addr : BitVec 3) (good : BitVec 2) (s : State) : Result :=
  let kept := s.meter.newestGood good
  let cnt := kept.getD {}
  .next <| if s.meter.powered then s else (s.updMeter fun m =>
    { m with powered := true, addr, dynAddr := 0, rptr := 0, fault := m.fault || kept.isNone, nb := {}, stale := false,
             snaps := [], sealQueue := [], sampled := 0, cnt := { cnt with poweron := satAdd cnt.poweron 1 } }).snapshot 2

/-! ### Interval records, signing, the status link -/

/-- METER_INTERVAL_RECORD (R400): MT has reached a whole multiple of the interval. -/
def execMeterIntervalRecord (s : State) : Result :=
  let m := s.meter
  let due := m.powered && m.cnt.mt != 0 && m.cnt.mt.toNat % (m.intervalS.toNat * 1000000) == 0 &&
    m.intervalAt != some m.cnt.mt
  .next (if due then (s.updMeter fun m => { m with intervalAt := some m.cnt.mt }).snapshot 1 else s)

/-- A byte string of a given length. -/
def fixLen (n : Nat) (l : List Byte) : List Byte := (List.range n).map fun i => l.getD i 0

/-- A record: body, SIGLEN, and the meter key's signature, whose bytes are free (log entry 12). -/
def signedRecord (index : Nat) (body : List Byte) : List Byte :=
  body ++ leBytes 5396 4 ++ fixLen 5396 (Config.signature 0 index body)

/-- METER_RECORD_SIGNED (R402, R404): the oldest snapshot takes the next signature and becomes the newest record. -/
def execMeterRecordSigned (s : State) : Result :=
  let m := s.meter
  .next <| match m.powered, m.snaps with
    | true, x :: rest =>
      if m.left = 0 then s.updMeter fun m => { m with snaps := rest }
      else
        let slot := if m.nrec = 0 then 0 else (m.newest + 1) % 16
        s.updMeter fun m =>
          { m with snaps := rest, leafIndex := m.leafIndex + 1, newest := slot, nrec := min (m.nrec + 1) 16,
                   records := m.records.put slot (signedRecord m.leafIndex x.body) }
    | _, _ => s

/-- SEQ of the newest record held. -/
def Meter.newestSeq (m : Meter) : BitVec 64 :=
  if m.nrec = 0 then 0 else BitVec.ofNat 64 (leAt (m.records.at m.newest) 8 8)

/-- MTR_STAT as the meter sends it. -/
def State.meterStat (s : State) (linkok : Bool) : Nat :=
  let m := s.meter
  m.newest * 2 ^ 16 + m.nrec * 2 ^ 11 + m.keylow.toNat * 2 ^ 10 + s.sealState * 2 ^ 8 + m.stale.toNat * 2 ^ 7 +
    s.meterRun.toNat * 2 ^ 6 + linkok.toNat * 2 ^ 5

def Meter.param (m : Meter) : Nat := m.unit.toNat * 2 ^ 32 + m.intervalS.toNat % 2 ^ 12
def Meter.auditWord (m : Meter) : Nat := m.cnt.rejcnt.toNat * 2 ^ 32 + m.cnt.audit.toNat
def Meter.rg (m : Meter) (r : Nat) : Nat :=
  let (v, w) := m.wire r
  v.toNat * 2 ^ 39 + w * 2 ^ 32 + (m.sampled.getLsbD w).toNat * 2 ^ 31 + (m.nb.at w).toNat

/-- METER_STATUS_FRAME (R402, R410): the hub's mirror of the status, and the next held record. -/
def execMeterStatusFrame (s : State) : Result :=
  .next <| if !s.meter.powered || !s.domOn 2 then s
    else
      let m := s.meter
      let w (r : RegId) (i n : Nat) (s : State) : State := s.setReg r i (BitVec.ofNat 64 n)
      let s := w .mtrStat 0 (s.meterStat true) s
      let s := w .mtrAudit 0 m.auditWord (w .mtrParam 0 m.param (s.setReg .mtrSeq 0 m.newestSeq))
      let s := (List.range 16).foldl (fun (s : State) r => w .mtrRg r (m.rg r) s) s
      let k := if m.nrec = 0 then 0 else m.shownNext % m.nrec
      s.updMeter fun m =>
        { m with shown := if m.nrec = 0 then m.shown else m.shown.put k (m.records.at k), shownKey := m.pubKey,
                 shownNext := k + 1 }

/-- STATUS_LINK_LOSS (R410). -/
def execStatusLinkLoss (s : State) : Result := .next (s.clrF F.mtrStat_linkok 0)

/-! ### Commands (R406, R407, R409) -/

/-- The meter has power, and so have the lines of the bus (R409, R484). -/
def State.meterAnswers (s : State) : Bool := s.sys.vsb && s.meter.powered

/-- SETPTR. -/
def execSetptr (off : BitVec 32) (s : State) : Result :=
  .next (if s.meterAnswers then s.updMeter fun m => { m with rptr := off.toNat } else s)

/-- RECORD_NOW (R400): refused within 1 s of MT of the previous record. -/
def execRecordNow (s : State) : Result :=
  let m := s.meter
  let young := match m.lastMt with
    | some t => decide (m.cnt.mt.toNat < t.toNat + 1000000)
    | none => false
  .next (if s.meterAnswers && !young then s.snapshot 4 else s)

/-- The parameters of a sealed body. -/
def sealParams (b : List Byte) : SealParams :=
  { intervalS := BitVec.ofNat 32 (leAt b 8 4), unit := BitVec.ofNat 32 (leAt b 12 4),
    wiring := (List.range 16).map fun r => (decide (128 ≤ leAt b (16 + r) 1), leAt b (16 + r) 1 % 16) }

/-- Every field of a sealed body is in range (R405, R406). -/
def sealInRange (b : List Byte) : Bool :=
  bytesAt b 0 4 == [0x57, 0x4D, 0x53, 0x01] && decide (1 ≤ leAt b 8 4 ∧ leAt b 8 4 ≤ 3600) && leAt b 12 4 != 0 &&
    ((List.range 16).all fun r => leAt b (16 + r) 1 / 16 % 8 == 0) && leAt b 32 32 == 0

/-- Every condition of R407. -/
def Meter.accepts (m : Meter) (bytes : List Byte) : Bool :=
  let key := bytesAt bytes 64 60
  decide (124 ≤ bytes.length) && sha256 key == m.authHash && Lms.hssVerify key (bytes.take 124) (bytes.drop 124) &&
    m.cnt.audit != 0xFFFF_FFFF#32 && leAt bytes 4 4 == m.cnt.audit.toNat + 1 && sealInRange (bytes.take 64)

/-- SEALED (R407). -/
def execSealed (bytes : List Byte) (s : State) : Result :=
  .next <| if s.meterAnswers = false then s
    else if s.meter.accepts bytes then
      s.updMeter fun m =>
        { { m with cnt := { m.cnt with audit := m.cnt.audit + 1 } }.save with
          sealQueue := m.sealQueue ++ [sealParams bytes] }
    else s.updMeter fun m => { m with cnt := { m.cnt with rejcnt := satAdd m.cnt.rejcnt 1 } }

/-- A byte of the meter's read space (R409, R410). The meter does not hold LINKOK, which is the hub's: it is free. -/
def State.meterByte (s : State) (linkok : Bool) (a : Nat) : Byte :=
  let m := s.meter
  let word (n : Nat) (i : Nat) : Byte := BitVec.ofNat 8 (n / 256 ^ i)
  if a < 8 then word (s.meterStat linkok) a
  else if a < 0x10 then word m.newestSeq.toNat (a - 8)
  else if a < 0x18 then word m.param (a - 0x10)
  else if a < 0x20 then word m.auditWord (a - 0x18)
  else if 0x100 ≤ a ∧ a < 0x180 then word (m.rg ((a - 0x100) / 8)) (a % 8)
  else if 0x1000 ≤ a ∧ a < 0x103C then m.pubKey.getD (a - 0x1000) 0
  else if 0x10000 ≤ a ∧ a < 0x30000 then (m.records.at ((a - 0x10000) / 0x2000)).getD (a % 0x2000) 0
  else 0

/-- METER_PRIVATE_READ (R409). -/
def execMeterPrivateRead (n : Nat) (s : State) : Result :=
  .next <| if s.meterAnswers = false then s
    else
      let (b, s) := s.draw 1
      let p := s.meter.rptr
      let s := s.emit (.busRead .meter ((List.range n).map fun i => s.meterByte (b == 1#1) ((p + i) % 2 ^ 32)))
      s.updMeter fun m => { m with rptr := (p + n) % 2 ^ 32 }

/-! ### METER_RUN (R397) -/

/-- METER_RUN_LOW (R397): every running region is held. -/
def execMeterRunLow (s : State) : Result :=
  .next <| if s.meterRun then s
    else (List.range 16).foldl (fun (s : State) r => s.hubHold r) (s.logOther .mtrStat 0)

end Sys2Proof.Machine
end

