-- ==== Sys2Proof/Machine/Trust.lean ====
section
/-!
DEFINITION. Trust anchors (R414, R415) and attestation (R417 to R423).
-/
namespace Sys2Proof.Machine

/-! ### OTP (R415) -/

def State.filled (s : State) (k : Nat) : Bool := s.bitF F.truAnchorStat_filled k
def State.revoked (s : State) (k : Nat) : Bool := s.bitF F.truAnchorStat_revoked k

/-- TRU_OTPDATA as 256 bits. -/
def State.otpData (s : State) : BitVec 256 :=
  BitVec.ofNat 256 ((List.range 4).foldl (fun n j => n + (s.reg .truOtpdata j).toNat * 2 ^ (64 * j)) 0)

/-- A command that R415 refuses; a slot that is being programmed counts as filled. -/
def State.otpRefused (s : State) (v : BitVec 64) : Bool :=
  let k := fieldOf F.truOtpcmd_slot v
  let prog := v.getLsbD 0
  let rev := v.getLsbD 1
  let left := (List.range 4).any fun j => j != k && s.filled j && !s.revoked j
  (prog && rev) || (prog && (k == 0 || s.filled k || s.sys.otpBusy.contains k || s.otpData == 0)) ||
    (rev && (!s.filled k || s.revoked k || !left))

/-- A write of TRU_OTPCMD. -/
def State.writeOtpCmd (s : State) (fn : Nat) (v : BitVec 64) : State :=
  if fn ≠ 0 then s.ignored fn .truOtpcmd 0
  else
    let k := fieldOf F.truOtpcmd_slot v
    s.writeReg fn .truOtpcmd 0 v (s.otpRefused v) (fun s => s.setF F.truOtpcmd_rej 0) fun s =>
      if v.getLsbD 0 then (s.onSys fun y => { y with otpBusy := y.otpBusy ++ [k] })
      else if v.getLsbD 1 then (s.setF F.truAnchorStat_revoked k).setF F.truOtpcmd_done_ev 0
      else s

/-- OTP_PROGRAM (R415): the PF's write of TRU_OTPCMD. -/
def execOtpProgram (v : BitVec 64) (s : State) : Result :=
  .next (s.bar .truOtpcmd 0 fun s => s.writeOtpCmd 0 v)

/-- OTP_REVOKE (R415): the PF's write of TRU_OTPCMD. -/
def execOtpRevoke (v : BitVec 64) (s : State) : Result :=
  .next (s.bar .truOtpcmd 0 fun s => s.writeOtpCmd 0 v)

/-- OTP_PROGRAM_DONE (R415): the slot holds what is read back, and is revoked where that is not what was asked for. -/
def execOtpProgramDone (readback : BitVec 256) (s : State) : Result :=
  .next <| match s.sys.otpBusy with
    | [] => s
    | k :: rest =>
      let bad := readback != s.otpData
      let s := s.onSys fun y => { y with otpBusy := rest }
      let s := (List.range 4).foldl (fun (s : State) j =>
        s.setReg .truAnchorHash (4 * k + j) (readback.extractLsb' (64 * j) 64)) s
      let s := (s.setF F.truAnchorStat_filled k).setF F.truOtpcmd_done_ev 0
      if bad then (s.setF F.truAnchorStat_revoked k).setF F.truOtpcmd_rej 0 else s

/-! ### Attestation (R420 to R423) -/

def reportSectors : Nat := 142

/-- CODE of a refused GO (R420), 0 where it is accepted. -/
def State.attCode (s : State) (f sector : Nat) : Nat :=
  let (lo, hi) := s.partSectors f
  let st := s.getN F.truAttStat_state f
  if st = 1 ∨ st = 2 then 1
  else if !decide (lo ≤ sector ∧ sector + reportSectors ≤ hi ∧ sector + reportSectors ≤ s.usableSectors) then 2
  else if s.bitF F.truIdstat_keyfail 0 then 3
  else 0

/-- A function may write the attestation block of f. -/
def ownsAtt (fn f : Nat) : Bool := fn == 0 || fn == f

/-- A write of TRU_ATTf_CMD: SCOPE stays 1 for a VF. -/
def State.writeAttCmd (s : State) (fn f : Nat) (v : BitVec 64) : State :=
  if ownsAtt fn f = false then s.ignored fn .truAttCmd f
  else
    let v := if f = 0 then v else v ||| BitVec.ofNat 64 (2 ^ 62)
    let go := v.getLsbD 63
    let code := s.attCode f (fieldOf F.truAttCmd_sector v)
    s.writeReg fn .truAttCmd f v (go && code != 0)
      (fun s => (s.setF F.truAttStat_rej f).putN F.truAttStat_code f code) fun s =>
        if go then
          let r : AttRequest := { fn := f, scope := s.bitF F.truAttCmd_scope f, sector := s.getN F.truAttCmd_sector f }
          ((s.putN F.truAttStat_state f 1).putN F.truAttStat_code f 0).onSys fun y => { y with attWait := y.attWait ++ [r] }
        else s

/-- ATTESTATION_GO (R420). -/
def execAttestationGo (fn : FnId) (f : FnId) (v : BitVec 64) (s : State) : Result :=
  .next (s.bar .truAttCmd f fun s => s.writeAttCmd fn f v)

/-- A write of TRU_ATTf_NONCEj, at 4f + j. -/
def State.writeNonce (s : State) (fn i : Nat) (v : BitVec 64) : State :=
  if ownsAtt fn (i / 4) then s.writeReg fn .truAttNonce i v false id id else s.ignored fn .truAttNonce i

/-- The cores that an enabled task of function f names (R423). -/
def State.taskCores (s : State) (f : Nat) : BitVec 64 :=
  (List.range 16384).foldl (fun (m : BitVec 64) t =>
    if s.bitF F.colTskCfg_en t && s.getN F.colTskCfg_owner t == f then m ||| s.reg .colTskCores t else m) 0#64

/-- The 3,072-byte body of a report with signature index `seq` (R422, R423). -/
def State.reportBody (s : State) (r : AttRequest) (seq : Nat) : List Byte :=
  let shows (x : Nat) : Bool := !r.scope || (r.fn != 0 && x == r.fn - 1)
  let mine := if r.scope then s.taskCores r.fn else 0
  let regionEntry (x : Nat) : List Byte :=
    if shows x then
      leBytes (s.qstate x) 1 ++ leBytes ((s.systemMode x).toNat + (s.region x).anchor * 2) 1 ++ leBytes 0 6 ++ s.hashBytes x
    else leBytes 0 40
  let coreEntry (c : Nat) : List Byte :=
    if !r.scope || mine.getLsbD c then
      let k := s.sys.cores.at c
      leBytes (k.loaded.toNat + k.imemw.toNat * 2 + (s.bitF F.awlCtl_excl c).toNat * 4) 4 ++ fixLen 32 k.hash
    else leBytes 0 36
  let anchors := (List.range 4).foldl (fun n k => n + (s.filled k).toNat * 2 ^ k + (s.revoked k).toNat * 2 ^ (4 + k)) 0
  ([0x5A, 0x41, 0x54, 0x01] : List Byte) ++ leBytes r.scope.toNat 1 ++ leBytes r.fn 1 ++ leBytes 0 2 ++ leBytes seq 8 ++
    leBytes ((s.reg .hubId 0).toNat % 2 ^ 35) 8 ++ sha256 s.sys.idKey ++
    ((List.range 4).flatMap fun j => leBytes (s.reg .truAttNonce (4 * r.fn + j)).toNat 8) ++
    leBytes (s.reg .timSpine 0).toNat 8 ++ leBytes anchors 1 ++ leBytes 0 31 ++
    (List.range 16).flatMap regionEntry ++ (List.range 64).flatMap coreEntry

/-- A request refused as its service begins: no signature is left (R418). -/
def State.refuseAtt (s : State) (f : Nat) : State :=
  ((s.setF F.truAttStat_rej f).putN F.truAttStat_code f 3).putN F.truAttStat_state f 0

/-- ATTESTATION_SERVICE (R418, R420): the oldest request's snapshot, and its signature index spent. -/
def execAttestationService (s : State) : Result :=
  .next <| match s.sys.attBody, s.sys.attWait with
    | none, r :: rest =>
      let seq := s.getN F.truIdstat_used 0
      if s.bitF F.truIdstat_keyfail 0 || decide (2 ^ 30 ≤ seq) then
        ((s.setF F.truIdstat_keyfail 0).refuseAtt r.fn).onSys fun y => { y with attWait := rest }
      else
        let body := s.reportBody r seq
        let s := s.putN F.truIdstat_used 0 (seq + 1)
        let s := if 2 ^ 30 < seq + 1 + 2 ^ 20 then s.setF F.truIdstat_keylow 0 else s
        let s := if seq + 1 = 2 ^ 30 then s.setF F.truIdstat_keyfail 0 else s
        let s := (s.putN F.truAttStat_state r.fn 2).putN F.truAttStat_seq r.fn seq
        s.onSys fun y => { y with attWait := rest, attBody := some (r, body) }
    | _, _ => s

/-- A report: body, SIGLEN, and the identity key's signature, whose bytes are free (log entry 12). -/
def signedReport (body : List Byte) : List Byte :=
  body ++ leBytes 5396 4 ++ fixLen 5396 (Config.signature 1 (leAt body 8 8) body)

/-- Bytes written to the packed view from a sector on; what the last sector holds beyond them stays. -/
def State.writePacked (s : State) (sec : Nat) (bytes : List Byte) : State :=
  (List.range ((bytes.length + 59) / 60)).foldl (fun (s : State) i =>
    let b := bytesAt bytes (60 * i) 60
    s.writeSector (sec + i) (b ++ ((s.sectorBytes (sec + i)).take 60).drop b.length)) s

/-- ATTESTATION_WRITTEN (R422). -/
def execAttestationWritten (s : State) : Result :=
  .next <| match s.sys.attBody with
    | none => s
    | some (r, body) =>
      let s := s.onSys fun y => { y with attBody := none }
      ((s.writePacked r.sector (signedReport body)).putN F.truAttStat_state r.fn 3).setF F.truAttStat_done_ev r.fn

end Sys2Proof.Machine
end

