-- ==== Sys2Proof/Machine/Power.lean ====
section
/-!
DEFINITION. Power domains, operating points, throttle, trip, loops and pad hold (R426 to R440).
-/
namespace Sys2Proof.Machine

/-! ### What a register keeps (R9) -/

namespace Ev
/-! The events of the Survives column. -/
def q : Nat := 0
def d : Nat := 1
def w : Nat := 2
def h : Nat := 3
def n : Nat := 4
end Ev

/-- The bits of a register that survive an event. -/
def RegId.survMask (r : RegId) (e : Nat) : BitVec 64 := r.maskOf fun f => f.surv.testBit e

/-- A register's value after an event: what does not survive takes its reset value. HUB_ID is loaded from OTP at power-on and
never changes afterwards: its reset value is what it holds (R2, R3). -/
def RegId.after (r : RegId) (e i : Nat) (v : BitVec 64) : BitVec 64 :=
  if r = .hubId then v else (v &&& r.survMask e) ||| (r.resetVal i &&& ~~~r.survMask e)

/-- The listed registers that an event concerns, after it. -/
def State.loseRegs (s : State) (e : Nat) (concerns : RegId → Nat → Bool) : State :=
  { s with regs := ⟨s.regs.entries.filterMap fun p =>
      match RegId.all[p.1 % 256]? with
      | none => some p
      | some r =>
        if concerns r (p.1 / 256) then
          let v := r.after e (p.1 / 256) p.2
          if v = regDefault p.1 then none else some (p.1, v)
        else some p⟩ }

/-- The quadrant of a register of a gathering or core. -/
def RegId.quadOf (r : RegId) (i : Nat) : Nat :=
  match r with
  | .gthQdesc => i / 4096
  | .gthQwm => i / 4096
  | .gthQptr => i / 4096
  | .gthCrc => i / 8192
  | .gthCfg => i / 1024
  | .gthDchk => i / 1024
  | .gthFerr => i / 1024
  | _ => i / 16

/-! ### Power-down (R429) -/

def State.setDom (s : State) (d st : Nat) : State := s.putN F.pwrDom_state d st

/-- Regions with a gathering in a quadrant that are in a state other than UNBOUND, or loaded and not cased in. -/
def State.regionsIn (s : State) (q : Nat) : List Nat :=
  (List.range 16).filter fun r =>
    (s.qstate r != Q.unbound || s.getN F.bndStat_state r == 4) && (s.gthsOf r).any fun g => gthQ g == q

/-- A core without power: activations end with 0x0A, both memories hold zero with good parity, no image is recorded. -/
def State.dropCore (s : State) (c : Nat) : State :=
  let s := (s.resetCore c).setCore c {}
  s.onSys fun y => { y with cores := y.cores.put c {} }

/-- The quadrant of a place: a gathering, or 4,096 + 32q + gy for the skipped column of quadrant q. -/
def placeQuad (g : Nat) : Nat := if g < 4096 then g / 1024 else (g - 4096) / 32

/-- A quadrant's cells and gatherings without contents. -/
def State.clearQuadrant (s : State) (q : Nat) : State :=
  s.onArr fun y => { y with
    cells := ⟨y.cells.entries.filter fun e => placeQuad (e.1 / 64) != q⟩
    gths := ⟨y.gths.entries.filter fun e => placeQuad e.1 != q⟩ }

/-- A region that loses its quadrant: UNBOUND, its context IDLE. -/
def State.loseRegion (s : State) (r : Nat) : State :=
  let s := s.unbind r
  if 4 ≤ s.getN F.bndStat_state r ∧ s.getN F.bndStat_state r ≤ 6 then s.putN F.bndStat_state r 0 else s

/-- The stations of a quadrant's cores and gatherings. -/
def quadStations (q : Nat) : List Nat := [5 * q, 5 * q + 1, 5 * q + 2, 5 * q + 3]

def State.dropQuadrant (s : State) (q : Nat) : State :=
  let s := (s.latchBank (2 * q)).latchBank (2 * q + 1)
  let s := (s.regionsIn q).foldl State.loseRegion s
  let s := (List.range 16).foldl (fun (s : State) c => s.dropCore (16 * q + c)) s
  let s := (s.clearQuadrant q).loseRegs Ev.d fun r i => r.domain == .quadrant && r.quadOf i == q
  let s := (List.range 16).foldl (fun (s : State) c => s.setCore (16 * q + c) {}) s
  (quadStations q).foldl (fun (s : State) k =>
    ((s.updStation k fun _ => {}).setF F.spnSta_deny k).setStation k 2) s

/-- What the hub holds outside its registers. -/
def State.clearHub (s : State) : State :=
  let pads := s.sys.pads.mapVals fun x => { x with entry := none }
  { s with
    ring := { nclk := s.ring.nclk }
    fst := {}
    arr := { s.arr with regions := {}, relay := {} }
    col := { s.col with queueSets := {}, waiters := {}, live := false }
    sys := { s.sys with jobs := [], current := none, serving := none, inBuf := [], flashJob := none, ops := {},
                        attWait := [], attBody := none, pads,
                        colMove := s.sys.colMove.filter fun m => !m.left.isEmpty,
                        meter := { s.sys.meter with shown := {}, shownKey := [], shownNext := 0 }, bindMsg := none } }

def State.dropHub (s : State) : State :=
  s.clearHub.loseRegs Ev.d fun r _ => r.domain == .hub

def State.dropLinks (s : State) : State := (List.range 8).foldl State.portOff s

/-- The effect of power-down (R429). HST's configuration space is in the registers that keep it; its link goes down, and at
power-up trains as at S10 once PERST_N is high. -/
def State.downEffect (s : State) (d : Nat) : State :=
  if d = 2 then s.dropHub
  else if d = 3 then s.loseRegs Ev.d fun r _ => r.domain == .mem
  else if d = 4 then s.dropLinks
  else if d = 5 then s.onSys fun y => { y with link := 0 }
  else if 6 ≤ d then s.dropQuadrant (d - 6)
  else s

/-- Regions that a power-down of a quadrant first brings to HELD. -/
def State.holdFirst (s : State) (d : Nat) : List Nat := if 6 ≤ d then (s.regionsIn (d - 6)).filter s.inRun else []

/-- TCLK stops in DORMANT (R446). -/
def State.stopTclk (s : State) : State := if s.dormant then (s.onSys fun y => { y with tclk := false }) else s

/-- A domain without a reason to be up goes down; a quadrant's ring ports first serve every request waiting at them (R134). -/
def State.powerDown (s : State) (d : Nat) : State :=
  let s := s.refreshPower
  if d < 2 ∨ s.domOn d = false ∨ s.wanted 3 d = true then s
  else if s.holdFirst d ≠ [] then (s.holdFirst d).foldl (fun (s : State) r => s.requestHold r 0) s
  else
    let s := if 6 ≤ d then s.drainPorts (d - 6) else s
    ((s.downEffect d).setDom d Dom.rampDn).refreshPower

/-- DOMAIN_POWER_DOWN (R429): a domain without a reason to be up. -/
def execDomainPowerDown (d : DomainId) (s : State) : Result := .next (s.powerDown d)

/-- DOMAIN_RAMPDOWN_DONE (R427). -/
def execDomainRampdownDone (d : DomainId) (s : State) : Result :=
  .next <| if s.domState d = Dom.rampDn then ((s.setDom d Dom.off).stopTclk.startUps).refreshPower else s

/-! ### Power-up (R427, R429) -/

/-- A quadrant up: its cores are in reset, its stations return to NORMAL. -/
def State.raiseQuadrant (s : State) (q : Nat) : State :=
  (quadStations q).foldl (fun (s : State) k => (s.clrF F.spnSta_deny k).setStation k 0) s

/-- Each port with EN = 1 trains (R193). -/
def State.trainPorts (s : State) : State :=
  (List.range 8).foldl (fun (s : State) p => if s.bitF F.fstPortCfg_en p then s.trainPort p else s) s

def State.upEffect (s : State) (d : Nat) : State :=
  if d = 2 then s.restoreCollator
  else if d = 3 then s.markChannels
  else if d = 4 then s.trainPorts
  else if d = 5 then s.onSys fun y => { y with link := if y.perst then 3 else 0 }
  else if 6 ≤ d then s.raiseQuadrant (d - 6)
  else s

/-- A domain reports power-good. -/
def State.powerGood (s : State) (d : Nat) : State :=
  let s := s.onSys fun y => { y with retriedDom := y.retriedDom.filter (· != d) }
  (((s.setDom d Dom.on).upEffect d).startUps).refreshPower

/-- DOMAIN_POWER_UP (R427): a domain that has a reason to be up ramps up. -/
def execDomainPowerUp (d : DomainId) (s : State) : Result := .next (s.startUp d).refreshPower

/-- DOMAIN_POWER_GOOD (R427). -/
def execDomainPowerGood (d : DomainId) (s : State) : Result :=
  .next <| if s.domState d = Dom.rampUp ∧ s.sys.wake.isNone = true then s.powerGood d else s

/-- A domain in FAIL: source 899 and a log entry. -/
def State.failDomain (s : State) (d : Nat) : State :=
  let s := s.onSys fun y => { y with retriedDom := y.retriedDom.filter (· != d) }
  ((((s.setDom d Dom.fail).raise 899).logOther .pwrDom d).startUps).refreshPower

/-- POWER_GOOD_TIMEOUT (R427): one retry with the alternate regulator phase set, then FAIL. -/
def execPowerGoodTimeout (d : DomainId) (s : State) : Result :=
  .next <| if s.domState d ≠ Dom.rampUp ∨ s.sys.wake.isSome = true then s
    else if s.sys.retriedDom.contains d then s.failDomain d
    else s.onSys fun y => { y with retriedDom := (d : Nat) :: y.retriedDom }

/-! ### Votes (R430) -/

/-- A write of PWR_DOMd by function `fn`: bit `fn` alone. -/
def State.writeDom (s : State) (fn d : Nat) (v : BitVec 64) : State :=
  if d < 2 then s else s.vote d fn (v.getLsbD fn)

/-- DOMAIN_VOTE_WRITE (R430). -/
def execDomainVoteWrite (fn : FnId) (d : DomainId) (v : BitVec 64) (s : State) : Result :=
  .next (s.bar .pwrDom d fun s => s.writeDom fn d v)

/-- FUIST_PARTNER_VOTE_CLEAR (R430): no UP port has asked for 10 ms. -/
def execFuistPartnerVoteClear (s : State) : Result :=
  .next <| if s.portsUp.any (fun p => (s.port p).peerPwr) then s else s.vote 4 19 false

/-! ### Operating points (R432 to R434) -/

def gradeB (s : State) : Bool := s.getN F.hubId_grade 0 == 1

/-- VARR minimum of a point for the part's grade, in the code of VSET; none where the grade refuses the point. -/
def State.opMin (s : State) (op : Nat) : Option Nat :=
  match op with
  | 0 => if gradeB s then none else some 40
  | 4 => some (if gradeB s then 40 else 30)
  | 1 => some 20
  | 2 => some 6
  | 3 => some 0
  | _ => none

/-- The array loop of a point: AVCO 1 at 4.2 GHz. -/
def opVco (op : Nat) : Nat := if op = 4 then 1 else 0

def State.opVmin (s : State) (op : Nat) : Nat := (s.opMin op).getD 0

/-- A SYSTEM region that keeps the point (R433, code 3). -/
def State.systemBusy (s : State) : Bool :=
  match s.systemRegion with
  | none => false
  | some r => !(s.qstate r == Q.unbound || s.qstate r == Q.held || s.qstate r == Q.qfault || s.qstate r == Q.tokenLost)

/-- CODE of an OP write, 0 where it is accepted. -/
def State.opCode (s : State) (op : Nat) : Nat :=
  let moves := opVco op != s.getN F.clkStat_avco 0
  if 5 ≤ op then 7
  else if s.opMin op = none then 1
  else if s.getN F.pwrVarr_vnow 0 < s.opVmin op ∨ s.bitF F.pwrVarr_vok 0 = false then 2
  else if s.systemBusy then 3
  else if ((s.systemRegion.map fun r =>
      decide (s.getN F.qctCfg_gap r < gFloor (s.region r).desc (opMhz op))).getD false) = true then 4
  else if moves = true ∧ ((List.range 16).any fun r => s.inRun r || s.qstate r == Q.casing) = true then 5
  else if s.bitF F.clkAclk_pend 0 then 6
  else 0

def State.pauseRegions (s : State) : State :=
  ((List.range 16).filter fun r => s.inRun r && !(s.region r).paused).foldl (fun (s : State) r =>
    s.updRegion r fun x => { x with pauseReq := true }) s

/-- A write of CLK_ACLK; the point in use is no change. -/
def State.writeAclk (s : State) (fn : Nat) (v : BitVec 64) : State :=
  if fn ≠ 0 then s.ignored fn .clkAclk 0
  else
    let op := fieldOf F.clkAclk_op v
    let code := s.opCode op
    s.writeReg fn .clkAclk 0 v (code != 0) (fun s => ((s.setF F.clkAclk_rej 0).putN F.clkAclk_code 0 code).raise 898)
      fun s =>
        let s := s.putN F.clkAclk_code 0 0
        if op = s.getN F.clkAclk_active 0 then s
        else
        let s := s.setF F.clkAclk_pend 0
        if opVco op = s.getN F.clkStat_avco 0 then s.pauseRegions else s

/-- OP_WRITE (R433): the PF's write of CLK_ACLK. -/
def execOpWrite (v : BitVec 64) (s : State) : Result :=
  .next (s.bar .clkAclk 0 fun s => s.writeAclk 0 v)

/-- The point takes effect: ACTIVE, and FST_TIMING at the new clock. -/
def State.switchPoint (s : State) : State :=
  let s := (s.putN F.clkAclk_active 0 (s.getN F.clkAclk_op 0)).clrF F.clkAclk_pend 0
  match s.systemRegion with
  | some r => s.setTiming (s.region r).desc
  | none => s

/-- A change that moves the array loop is pending. -/
def State.loopMoves (s : State) : Bool := opVco (s.getN F.clkAclk_op 0) != s.getN F.clkStat_avco 0

/-- Every paused region opens its next quire, with a fresh capture unless that quire keeps the one it has (R24). -/
def State.resumePaused (s : State) (pads : BitVec 192) : State :=
  ((List.range 16).filter fun r => (s.region r).paused).foldl (fun (s : State) r =>
    (s.updRegion r fun x => { x with paused := false }).openQuire r (s.region r).next (s.region r).nextFresh pads) s

/-- OP_SWITCH (R434): the divider switches once every running region has paused. -/
def execOpSwitch (pads : BitVec 192) (s : State) : Result :=
  .next <| if s.bitF F.clkAclk_pend 0 = false ∨ s.loopMoves = true then s
    else if ((List.range 16).any fun r => s.inRun r && !(s.region r).paused) = true then s.pauseRegions
    else s.switchPoint.resumePaused pads

/-- ARRAY_LOOP_RELOCK (R434). -/
def execArrayLoopRelock (s : State) : Result :=
  .next <| if s.bitF F.clkAclk_pend 0 = true ∧ s.loopMoves = true then
      ((s.putN F.clkStat_avco 0 (opVco (s.getN F.clkAclk_op 0))).switchPoint).raise 898
    else s

/-- VOK: VNOW within 10 mV of VSET, at or above it. -/
def State.setVok (s : State) : State :=
  let now := s.getN F.pwrVarr_vnow 0
  let set := s.getN F.pwrVarr_vset 0
  if set ≤ now ∧ now ≤ set + 2 then s.setF F.pwrVarr_vok 0 else s.clrF F.pwrVarr_vok 0

/-- A VSET below the minimum of the active point or of the one whose change is pending (R433). -/
def State.vsetBelow (s : State) (c : Nat) : Bool :=
  decide (c < s.opVmin (s.getN F.clkAclk_active 0)) ||
    (s.bitF F.clkAclk_pend 0 && decide (c < s.opVmin (s.getN F.clkAclk_op 0)))

/-- A VSET that is refused: beyond its range, or one that breaks the order of change. -/
def State.vsetRefused (s : State) (c : Nat) : Bool := decide (50 < c) || s.vsetBelow c

/-- A write of PWR_VARR; source 898 is raised for the order of change alone. -/
def State.writeVarr (s : State) (fn : Nat) (v : BitVec 64) : State :=
  if fn ≠ 0 then s.ignored fn .pwrVarr 0
  else
    let c := fieldOf F.pwrVarr_vset v
    s.writeReg fn .pwrVarr 0 v (s.vsetRefused c)
      (fun s => if s.vsetBelow c then (s.setF F.pwrVarr_rej 0).raise 898 else s.setF F.pwrVarr_rej 0) State.setVok

/-- VSET_WRITE (R433): the PF's write of PWR_VARR. -/
def execVsetWrite (v : BitVec 64) (s : State) : Result :=
  .next (s.bar .pwrVarr 0 fun s => s.writeVarr 0 v)

/-- VARR_SETTLED (R433): the regulator measures VARR. -/
def execVarrSettled (code : BitVec 8) (s : State) : Result := .next (s.putF F.pwrVarr_vnow 0 code).setVok

/-! ### Throttle and trip (R435 to R437) -/

/-- A temperature in eight bits: what a sensor can read plausibly is −20 to 130 °C, so a byte above 130 is negative. -/
def tempOf (b : BitVec 8) : Int := if b.toNat ≤ 130 then b.toNat else b.toInt

/-- THERMAL_COMPARE (R435). -/
def execThermalCompare (s : State) : Result :=
  let t := tempOf (s.getF F.pwrStatus_tjmax 0)
  let w := s.getN F.pwrStatus_pwr_w 0
  let cap := s.getN F.pwrStatus_cap_w 0
  let old := s.getN F.pwrStatus_thr 0
  let new := if 95 ≤ t ∨ cap < w then min (old + 16) 4095
    else if t ≤ 92 ∧ w + 10 ≤ cap then old - 16 else old
  .next <| if s.domOn 2 = false then s
    else
      let s := s.putN F.pwrStatus_thr 0 new
      if (old = 0) = (new = 0) then s else (s.setF F.pwrStatus_thr_ev 0).raise 896

/-- Power removed from domains 2 to 9, dependents first. -/
def State.allOff (s : State) : State :=
  [9, 8, 7, 6, 5, 4, 2, 3].foldl (fun (s : State) d =>
    if s.domState d = Dom.off ∨ s.domState d = Dom.fail then s else (s.downEffect d).setDom d Dom.off) s

/-- Every pad bank latched. -/
def State.latchAll (s : State) : State := (List.range 8).foldl State.latchBank s

/-- The trip (R436); a boot or wake sequence in progress stops (R445, R461). -/
def State.trip (s : State) (sensor temp : Nat) : State :=
  let s := s.latchAll.logEntry 0x07 0xC003 (sensor + temp * 2 ^ 6)
  let s := s.allOff
  let s := s.onSys fun y => { y with
    tripped := true, wake := none, wakeWait := none, retriedDom := [], boot := none, link := 0, bootAfter := y.boot.isSome }
  s.stopTclk.refreshPower

/-- THERMAL_TRIP (R436): a sensor has read 110 °C or more for 10 µs. -/
def execThermalTrip (sensor : Fin 64) (temp : BitVec 8) (s : State) : Result :=
  .next <| if 110 ≤ tempOf temp ∧ s.dormant = false ∧ s.sys.tripped = false then s.trip sensor temp.toNat else s

/-- AO_TEMP_SAMPLE (R437): a reading beyond what TEMP can hold shows the nearest value that it can. -/
def execAoTempSample (temp : Int) (s : State) : Result :=
  let t := s.putF F.pwrAotemp_temp 0 (BitVec.ofInt 8 (max (-128) (min temp 127)))
  .next <| if s.sys.vsb = false then s
    else if temp < -20 ∨ 130 < temp then t.setF F.pwrAotemp_impl 0 else t.clrF F.pwrAotemp_impl 0

/-- The AO temperature that ends a trip: 90 °C or less, and plausible. -/
def State.cool (s : State) : Bool := !s.bitF F.pwrAotemp_impl 0 && decide ((s.getF F.pwrAotemp_temp 0).toInt ≤ 90)

/-- ALERT_N asserted (R436, R444, R455). -/
def State.alert (s : State) : Bool :=
  s.sys.tripped || s.bitF F.pwrStatus_trip_ev 0 || s.bitF F.pwrWake_fail 0 || s.getN F.hubBoot_state 0 == 3

/-! ### Loops (R439) -/

def lockField (array : Bool) : Field 1 := if array then F.clkStat_alock else F.clkStat_rlock

/-- LOOP_LOCK_LOSS (R439): holdover, LOSS_EV and source 901. -/
def execLoopLockLoss (array : Bool) (s : State) : Result :=
  .next <| if s.bitF (lockField array) 0 = false then s
    else (((((s.clrF (lockField array) 0).setF F.clkStat_hold 0).setF F.clkStat_loss_ev 0).raise 901)).logOther .clkStat 0

/-- LOOP_RELOCK (R439): the loop's input has returned; holdover ends when both loops are locked. -/
def execLoopRelock (array : Bool) (s : State) : Result :=
  .next <| if s.bitF F.clkStat_hold 0 = false then s
    else
      let s := s.setF (lockField array) 0
      if s.bitF F.clkStat_alock 0 && s.bitF F.clkStat_rlock 0 then s.clrF F.clkStat_hold 0 else s

/-! ### Pad hold (R440) -/

/-- The banks that a function may release: BANKS of its region's limit. -/
def State.banksOf (s : State) (fn : Nat) : BitVec 8 := if fn = 0 then 0xFF else s.getF F.bndLimit_banks (fn - 1)

/-- A bank released: the VSEL asked for while it was latched takes effect (R483). -/
def State.releaseBank (s : State) (b : Nat) : State :=
  let s := s.putF F.padHold_held 0 (s.getF F.padHold_held 0 &&& ~~~(1#8 <<< b))
  match s.sys.bankNext.at b with
  | none => s
  | some v => (s.onSys fun y => { y with bankNext := y.bankNext.put b none }).setBank b v

/-- A write of PAD_HOLD. -/
def State.writePadHold (s : State) (fn : Nat) (v : BitVec 64) : State :=
  let rel := BitVec.ofNat 8 (fieldOf F.padHold_release v)
  let v := putBits v 8 8 (rel &&& s.banksOf fn)
  let banks := (List.range 8).filter fun b => (rel &&& s.banksOf fn).getLsbD b
  let bad := banks.any fun b => !s.bankHeld b || !s.domOn (6 + b / 2)
  s.writeReg fn .padHold 0 v bad (fun s => s.setF F.padHold_rej 0) fun s => banks.foldl State.releaseBank s

/-- PAD_RELEASE (R440). -/
def execPadRelease (fn : FnId) (v : BitVec 64) (s : State) : Result :=
  .next (s.bar .padHold 0 fun s => s.writePadHold fn v)

/-- BANK_RAMP_DONE (R483): the bank's voltage is in regulation. -/
def execBankRampDone (b : Fin 8) (s : State) : Result :=
  .next <| if s.getN F.padBank_vsel b = 0 then s else s.setF F.padBank_pwrgood b

/-- A write of CAP_W and of the W1C bits of PWR_STATUS: 100 to 450 W (R435). -/
def State.writePwrStatus (s : State) (fn : Nat) (v : BitVec 64) : State :=
  if fn ≠ 0 then s.ignored fn .pwrStatus 0
  else
    let cap := fieldOf F.pwrStatus_cap_w v
    s.writeReg fn .pwrStatus 0 v (decide (cap < 100 ∨ 450 < cap)) id id

end Sys2Proof.Machine
end

