-- ==== Sys2Proof/Machine/Boot.lean ====
section
/-!
DEFINITION. Resets and boot (18_start_and_reset.md): what each reset keeps, the boot steps, the boot record, the parameter
block, and the FLR of a VF (R269).
-/
namespace Sys2Proof.Machine

/-! ### What a reset does (R448 to R453) -/

/-- The operations in progress end: loads with 0x17, readbacks, captures and restores with 0x05. -/
def State.abortAll (s : State) : State :=
  let s := if s.sys.current.isSome then s.failLoad 0x17 else s
  let s := s.sys.jobs.foldl (fun (s : State) j => s.abortCtx j.ctx) s
  let s := if s.sys.flashJob.isSome then s.failFlash 0x17 else s
  (List.range 16).foldl (fun (s : State) r => s.abortOp r 0) s

/-- Every region UNBOUND, every activation ended: what the ledger sees of a reset. -/
def State.endAll (s : State) : State :=
  let s := ((List.range 16).filter fun r => s.qstate r != Q.unbound).foldl State.unbind s
  s.awl.keys.foldl State.dropCore s

/-- Array, cores, rings and ports empty. -/
def State.clearDie (s : State) : State :=
  { s.clearHub.onSys fun y => { y with
      cores := {}, wake := none, wakeWait := none, retriedDom := [], tripped := false, bootAfter := false,
      boot := none } with arr := {}, awl := {} }

/-- VSEL and PWRGOOD of a bank put back as they were in `old`. -/
def State.keepBank (s old : State) (b : Nat) : State :=
  (s.putN F.padBank_vsel b (old.getN F.padBank_vsel b)).putF F.padBank_pwrgood b (old.getF F.padBank_pwrgood b)

/-- Gatherings that wait for their write-back stay unloaded over a reset (R474). -/
def State.keepUnloaded (s : State) : State :=
  match s.sys.colMove with
  | some m => m.left.foldl (fun (s : State) g => s.setF F.gthCfg_unloaded g) s
  | none => s

/-- A hard reset: a latched bank keeps its voltage (R453, R483); the NCLK count starts anew, TCLK stops until the loops
lock. -/
def State.hardReset (s : State) : State :=
  let old := s
  let s := (s.abortAll.endAll.clearDie.loseRegs Ev.h fun _ _ => true).keepUnloaded
  let s := ((List.range 8).filter old.bankHeld).foldl (fun (s : State) b => s.keepBank old b) s
  { s with ring := {}, sys := { s.sys with tclk := false, bankNext := {}, statusRead := false, link := 0, pcie := {} } }

/-- A warm reset: the loops keep lock, every bank keeps its voltage. -/
def State.warmReset (s : State) : State :=
  let old := s
  let s := (s.abortAll.endAll.clearDie.loseRegs Ev.w fun _ _ => true).keepUnloaded
  let s := (s.putF F.clkStat_alock 0 (old.getF F.clkStat_alock 0)).putF F.clkStat_rlock 0 (old.getF F.clkStat_rlock 0)
  (s.putF F.clkStat_aband 0 (old.getF F.clkStat_aband 0)).putF F.clkStat_rband 0 (old.getF F.clkStat_rband 0)

/-- Removal of all power from everything but the meter: MRAM, flash and OTP stay (R450, R452). -/
def State.powerRemoval (s : State) : State :=
  let s := s.clearDie.loseRegs Ev.n fun _ _ => true
  { s with
    log := {}, logSince := 0, ring := {}, dram := {}
    col := { s.col with items := [], ready := [], delays := {}, acts := {}, holes := {}, unreported := [], missed := [],
                        abandoned := [], lost := none }
    sys := { s.sys with pads := {}, bankNext := {}, indexes := {}, tclk := false, statusRead := false, link := 0,
                        recentCur := {}, eqPos := {}, eqLast := {}, eqDone := [], railOfs := {}, railDone := [], aoPhase := 0,
                        jtag := .bypass, boundary := 0, colMove := none, pcie := {},
                        powerLost := true, ledgerLost := true } }

/-- Domains 2 to 9 without power. -/
def State.domainsOff (s : State) : State :=
  (domainOrder.foldl (fun (s : State) d => s.setDom d Dom.off) s).refreshPower

/-- Domains 2 to 9 with power. -/
def State.domainsUp (s : State) : State := domainOrder.foldl (fun (s : State) d => s.setDom d Dom.on) s

/-! ### How a boot runs its steps (R455, R459) -/

def State.prevs (s : State) : List (BitVec 256) := s.sys.bootRecs.drop 1

/-- S8 of the last boot failed on the slot that S4 chose, and no commit record was written to that slot since: the slot. -/
def State.slotToAvoid (s : State) : Option Nat :=
  match s.prevs with
  | e :: _ =>
    let x := Rec.alt e 4
    if x < 2 ∧ Rec.out e 4 = 1 ∧ 0 < Rec.att e 8 ∧ (Rec.failed e 8 = true ∨ Rec.alt e 8 ≠ x) ∧
        s.sys.fresh.contains x = false then some x else none
  | [] => none

/-- The slot whose valid record has the higher SEQ; 2 where neither has one. -/
def State.bestSlot (s : State) : Nat :=
  match s.slotRecord 0, s.slotRecord 1 with
  | some a, some b => if a.1 < b.1 then 1 else 0
  | some _, none => 0
  | none, some _ => 1
  | none, none => 2

def State.hasRecord (s : State) (x : Nat) : Bool := decide (x < 2) && (s.slotRecord x).isSome

/-- Slots that S4 tries, in order. -/
def State.slotOrder (s : State) : List Nat :=
  match s.slotToAvoid with
  | some x => if s.hasRecord (1 - x) then [1 - x, 2] else [2]
  | none =>
    let p := s.bestSlot
    if p = 2 then [2] else if s.hasRecord (1 - p) then [p, 1 - p, 2] else [p, 2]

/-- S4's check of a slot: its record, the SHA-256 against the record, steps 1 and 2 of R360. -/
def State.slotGood (s : State) (x : Nat) : Bool :=
  match s.slotRecord x with
  | none => false
  | some (_, _, hash) =>
    let hdr := s.flashBytes (slotAt x) 32
    s.headerCode 16 2 x hdr == 0 && decide (Img.framesAt hdr ≤ slotSize) &&
      (let bs := s.flashBytes (slotAt x) (Img.framesAt hdr)
       imageHash bs == hash && s.signatureCode bs == 0)

/-- Entries since the last one whose S6 did not end with ALT = 2. -/
def slowBoots : List (BitVec 256) → Nat
  | [] => 0
  | e :: es => if Rec.alt e 6 = 2 ∧ 0 < Rec.att e 6 then slowBoots es + 1 else 0

/-- S6 starts at 3,733 MT/s, but every eighth such boot tries 4,266 MT/s first. -/
def State.slowFirst (s : State) : Bool :=
  let n := slowBoots s.prevs
  decide (2 ≤ n) && decide ((n - 1) % 8 ≠ 0)

/-- S7's test may be skipped: the last three power-on boots passed it, and no channel was retired since. -/
def State.skipTest (s : State) : Bool :=
  let ps := (s.prevs.filter fun e => Rec.kind e == 0).take 3
  s.bitF F.hubBootpol_s7skip 0 && ps.length == 3 && ps.all (fun e => Rec.out e 7 == 1) &&
    match s.sys.retiredAt, ps.getLast? with
    | some n, some e => decide (n < Rec.bootnum e)
    | _, _ => true

def State.skipWalk (s : State) : Bool :=
  s.bitF F.hubBootpol_s11skip 0 && match s.prevs with
    | e :: _ => Rec.out e 11 == 1
    | [] => false

def State.bootKind (s : State) : Nat := match s.sys.boot with
  | some b => b.kind
  | none => 0

def State.bootSlot (s : State) : Nat := match s.sys.boot with
  | some b => b.slot
  | none => 3

/-- The ALT codes of a step's attempts, in order. -/
def State.ways (s : State) (k : Nat) : List Nat :=
  match k with
  | 4 => s.slotOrder
  | 5 => (match s.prevs with
    | e :: _ => if Rec.alt e 5 = 1 then [1, 1] else [0, 1]
    | [] => [0, 1])
  | 6 => if s.slowFirst then [2, 2] else if s.bootKind = 0 then [0, 1, 2] else [1, 2]
  | 8 =>
    let x := s.bootSlot
    if x < 2 then (if s.slotGood (1 - x) then [x, 1 - x, 2] else [x, 2]) else [2]
  | _ => [0, 0]

/-- R459 chose the step's alternate from the first attempt on. -/
def State.chosen (s : State) (k : Nat) : Bool :=
  match k with
  | 4 => s.slotToAvoid.isSome
  | 5 => (match s.prevs with
    | e :: _ => Rec.alt e 5 == 1
    | [] => false)
  | 6 => s.slowFirst
  | 8 => (match s.sys.boot with
    | some b => b.flip
    | none => false)
  | _ => false

/-- Steps that have an alternate. -/
def hasAlternate (k : Nat) : Bool := k == 4 || k == 5 || k == 6 || k == 8 || k == 9

def fatalStep (k : Nat) : Bool := k == 1 || k == 2 || k == 3 || k == 5 || k == 6

/-! ### The parameter block (R456) -/

def paramAt (c : Nat) : Nat := if c = 0 then 0x1E00_0000 else 0x1E80_0000

/-- SEQ and count of the copy at a flash address, where its magic and CRC are good. -/
def State.blockHeader (s : State) (a : Nat) : Option (Nat × Nat) :=
  let h := s.flashBytes a 16
  let n := leAt h 8 4
  if bytesAt h 0 4 ≠ [0x50, 0x42, 0x4C, 0x4B] ∨ 524287 < n then none
  else if leAt h 12 4 = (crc32c (h.take 12 ++ s.flashBytes (a + 16) (16 * n))).toNat then some (leAt h 4 4, n)
  else none

/-- The valid one with the higher SEQ of the copies at two addresses. -/
def State.newerCopy (s : State) (a b : Nat) : Option Nat :=
  match s.blockHeader a, s.blockHeader b with
  | some x, some y => if x.1 < y.1 then some 1 else some 0
  | some _, none => some 0
  | none, some _ => some 1
  | none, none => none

def State.paramHeader (s : State) (c : Nat) : Option (Nat × Nat) := s.blockHeader (paramAt c)

/-- The valid copy of the parameter block with the higher SEQ. -/
def State.paramCopy (s : State) : Option Nat := s.newerCopy (paramAt 0) (paramAt 1)

/-- The bytes of a copy: header and entries. -/
def blockBytes (seq : Nat) (es : List (List Byte)) : List Byte :=
  let h := [0x50#8, 0x42#8, 0x4C#8, 0x4B#8] ++ leBytes seq 4 ++ leBytes es.length 4
  h ++ leBytes (crc32c (h ++ es.flatten)).toNat 4 ++ es.flatten

/-- The place and the SEQ of a new copy, which replaces the older one. -/
def State.nextCopy (s : State) (a b : Nat) : Nat × Nat :=
  match s.newerCopy a b with
  | some 0 => (b, ((s.blockHeader a).map (·.1)).getD 0 + 1)
  | some _ => (a, ((s.blockHeader b).map (·.1)).getD 0 + 1)
  | none => (a, 1)

/-- The fields that a block holds: RW fields whose Survives column contains W and not H. -/
def RegId.savedMask (r : RegId) : BitVec 64 :=
  r.maskOf fun f => f.acc == .rw && f.surv.testBit Ev.w && !f.surv.testBit Ev.h

/-- S3 applies a block, or logs that there is none. -/
def State.applyParams (s : State) : State :=
  match s.paramCopy with
  | none => s.logEntry 0x50 0x4003 0
  | some c =>
    let n := ((s.paramHeader c).map (·.2)).getD 0
    (List.range n).foldl (fun (s : State) i =>
      let e := s.flashBytes (paramAt c + 16 + 16 * i) 16
      match regAt 0 (leAt e 0 8) with
      | none => s
      | some (r, j) =>
        s.setReg r j ((s.reg r j &&& ~~~r.savedMask) ||| (BitVec.ofNat 64 (leAt e 8 8) &&& r.savedMask))) s

/-- Entries of a new block: the registers of which a saved field differs from its reset value. -/
def State.paramEntries (s : State) : List (List Byte) :=
  s.regs.entries.filterMap fun p =>
    match RegId.all[p.1 % 256]? with
    | none => none
    | some r =>
      if (p.2 &&& r.savedMask) = (r.resetVal (p.1 / 256) &&& r.savedMask) then none
      else some (leBytes (r.offset (p.1 / 256)) 8 ++ leBytes (p.2 &&& r.savedMask).toNat 8)

/-- A new copy over the older one; where flash fails to program, that copy is not valid. -/
def State.saveParams (s : State) (ok : Bool) : State :=
  let (a, seq) := s.nextCopy (paramAt 0) (paramAt 1)
  let es := s.paramEntries
  let s := s.eraseFlash a 0x80_0000
  if ok then s.putFlash a (blockBytes seq es) else s.setF F.hubBootpol_rej 0

/-- Copy c of the DRAM training record of a rate (R456): 0 for 4,266 MT/s, 1 for 3,733 MT/s (log entry 123). -/
def trainAt (c rate : Nat) : Nat := (if c = 0 then 0x1F00_0000 else 0x1F40_0000) + rate * 0x20_0000

/-- A full training stores what it found, which is free, over the older copy of its rate. -/
def State.storeTraining (s : State) (rate : Nat) : State :=
  let (x, s) := s.draw 128
  let (a, seq) := s.nextCopy (trainAt 0 rate) (trainAt 1 rate)
  (s.eraseFlash a 0x20_0000).putFlash a (blockBytes seq [leBytes x.toNat 16])

/-- The full trainings of S6: a power-on at 4,266 MT/s, and the last way of every boot. -/
def State.train (s : State) (way : Nat) : State :=
  if way = 0 then s.storeTraining 0 else if way = 2 then s.storeTraining 1 else s

/-- A write of HUB_BOOTPOL. -/
def State.writeBootpol (s : State) (fn : Nat) (v : BitVec 64) (ok : Bool) : State :=
  if fn ≠ 0 then s.ignored fn .hubBootpol 0
  else s.writeReg fn .hubBootpol 0 v false id fun s => if v.getLsbD 62 then s.saveParams ok else s

/-- PARAMETER_SAVE (R456). -/
def execParameterSave (fn : FnId) (v : BitVec 64) (ok : Bool) (s : State) : Result :=
  .next (s.bar .hubBootpol 0 fun s => s.writeBootpol fn v ok)

/-! ### The actions of the steps -/

/-- A loop on its alternate band: which one failed is not told. -/
def State.altBand (s : State) : State :=
  let (b, s) := s.draw 2
  let a := b.getLsbD 0
  let s := if a then s.setF F.clkStat_aband 0 else s
  if b.getLsbD 1 || !a then s.setF F.clkStat_rband 0 else s

def State.lockLoops (s : State) (alt : Bool) : State :=
  let s := (s.setF F.clkStat_alock 0).setF F.clkStat_rlock 0
  if alt then s.altBand else s

/-- The streams whose registers are listed. -/
def State.listedStreams (s : State) : List Nat :=
  s.regs.entries.filterMap fun p =>
    if RegId.all[p.1 % 256]? = some .colStrAcc then some (p.1 / 256) else none

/-- S6: DRAM open; a migration resumes from MIGU (R346); the Collator restores (R238), and after a power removal the
resubmission ranges open (R303). -/
def State.openDram (s : State) (way : Nat) : State :=
  let s := if way = 2 then s.setF F.memStat_speed 0 else s
  let s := { s.markChannels with retrainNext := 0 }
  let s := if s.sys.ledgerLost then s.listedStreams.foldl State.openRange s else s
  (s.onSys fun y => { y with ledgerLost := false }).restoreCollator

/-- S7's fill: every usable sector holds zero words (R497). -/
def State.fillDram (s : State) : State := { s with dram := {} }

/-- S8 from a slot, through context D; whether it ended in LOADED. -/
def State.bootLoad (s : State) (x : Nat) : Bool × State :=
  let len := match s.slotRecord x with
    | some (_, n, _) => n
    | none => slotSize
  let j : LoadJob := { ctx := 16, fn := 0, srcsel := 2, src := x, len, autocase := false, repair := false, boot := true }
  let s := (s.putN F.bndStat_state 16 2).onSys fun y => { y with current := some j, serving := none, inBuf := [] }
  let s := s.serviceStart []
  let n := match s.sys.serving with
    | some v => v.manifest.length
    | none => 0
  let s := (List.range n).foldl (fun (s : State) _ => s.frameRecord []) s
  (s.getN F.bndStat_state 16 == 4, s)

/-- R459: spares with the home of the port replace the lanes that failed at the last boot. -/
def State.replaceFailed (s : State) : State :=
  let s := s.sys.laneFails.foldl (fun (s : State) e =>
    match (List.range 4).find? fun k => s.bitF F.fstSpare_homeen k && !s.bitF F.fstSpare_inuse k &&
        s.getN F.fstPortCfg_peerdev (s.getN F.fstSpare_homeport k) == s.getN F.fstPortCfg_peerdev e.1 with
    | some k =>
      let s := (s.putN (mapField e.2) e.1 (64 + k)).setF F.fstSpare_inuse k
      (s.putN F.fstSpare_forport k e.1).putN F.fstSpare_forlane k e.2
    | none => s) s
  s.onSys fun y => { y with laneFails := [] }

def State.sparesUsed (s : State) : Nat := ((List.range 4).filter fun k => s.bitF F.fstSpare_inuse k).length

/-- A finding of an engine: FINDS, and its source. -/
def State.finding (s : State) (k : Nat) : State := (s.addF F.upkEng_finds k 1).raise (912 + k)

/-- The gatherings with INUSE = 1, in rising order. -/
def State.inUse (s : State) : List Nat :=
  s.regs.entries.filterMap fun p =>
    if RegId.all[p.1 % 256]? = some .gthCfg ∧ s.bitF F.gthCfg_inuse (p.1 / 256) = true then some (p.1 / 256) else none

/-- The CRC-32C of a CELL_ROW frame is the loader's. -/
def State.rowGood (s : State) (g ly : Nat) : Bool :=
  (crc32c (s.rowBytes g ly)).setWidth 64 == s.reg .gthCrc (8 * g + ly)

/-- A CELL_ROW frame whose CRC-32C differs from the loader's (R59). -/
def State.walkFrame (s : State) (g ly : Nat) : State :=
  if s.rowGood g ly then s
  else (s.finding 0).logEntry 0x0E 0x6001 (faOf g 0 ly)

/-- S11's walk of every loaded gathering (R455). -/
def State.walkAll (s : State) : State :=
  s.inUse.foldl (fun (s : State) g => (List.range 8).foldl (fun (s : State) ly => s.walkFrame g ly) s) s

/-- Every CELL_ROW frame of a region is as it was loaded. -/
def State.framesGood (s : State) (r : Nat) : Bool := (s.gthsOf r).all fun g => (List.range 8).all fun ly => s.rowGood g ly

/-- S11's casing-in of the regions with AUTOCASE = 1 that have no failed frame. -/
def State.caseAll (s : State) : State :=
  (List.range 16).foldl (fun (s : State) r =>
    if s.getN F.bndStat_state r = 4 ∧ s.bitF F.bndCmd_autocase r = true ∧ s.caseRefused r = false ∧ s.framesGood r = true then
      s.beginCasing r
    else s) s

/-- The action of a step, run one way: whether it passed. -/
def State.act1 (s : State) (k way : Nat) : Bool × State :=
  match k with
  | 1 => (s.sys.vin && s.sys.vsb, s)
  | 3 => (true, if s.bootKind < 2 then s.applyParams else s)
  | 4 => (s.slotGood way, match s.sys.boot with
    | some b => if s.slotGood way then s.setBoot (some { b with slot := way, flip := s.slotToAvoid.isSome }) else s
    | none => s)
  | 5 => (true, let s := s.lockLoops (way == 1)
      if s.bootKind = 0 then (s.onSys fun y => { y with tclk := true }) else s)
  | 6 => (true, (s.train way).openDram way)
  | 7 => (true, s.fillDram)
  | 8 => s.bootLoad way
  | 9 => (true, s.replaceFailed.trainPorts)
  | 11 => (true, s.walkAll.caseAll)
  | _ => (true, s)

/-- What a step that has failed for good leaves behind. -/
def State.failed1 (s : State) (k : Nat) : State :=
  match k with
  | 7 =>
    let (m, s) := s.fillDram.draw 16
    ((List.range 16).filter fun c => m.getLsbD c).foldl (fun (s : State) c => (s.raise (640 + c)).logOther .memChStat c) s
  | 9 => ((List.range 8).filter fun p => s.getN F.fstPortStat_state p == Pt.training).foldl State.portDown s
  | _ => s

/-! ### Running the steps (R454) -/

inductive StepEnd where
  | hung (s : State)
  | ended (pass : Bool) (s : State)

/-- The attempts of a step from number `n` on; the first of them hangs where `stop` names the step. -/
def State.attempts (stop k : Nat) : List Nat → Nat → State → StepEnd
  | [], n, s => .ended false ((s.endStep k 2 (hasAlternate k) (n - 1) (if k = 4 ∨ k = 8 then 3 else 0)).failed1 k)
  | w :: ws, n, s =>
    let s := s.startAttempt k n
    if stop = k then .hung s
    else
      let chosen := s.chosen k
      let (ok, s) := s.act1 k w
      if ok then
        .ended true (s.endStep k 1 (chosen || (hasAlternate k && decide (1 < n))) n (if k = 9 then s.sparesUsed else w))
      else State.attempts stop k ws (n + 1) s

/-- DONE once S10 and S11 have completed (R454). -/
def State.checkDone (s : State) : State :=
  if s.getN F.hubBoot_state 0 = 0 ∧ s.sys.link ≠ 1 ∧ s.sys.link ≠ 2 ∧ s.sys.link ≠ 4 ∧
      (match s.sys.boot with
       | some b => !b.left.contains 11 && b.step != 11
       | none => true) = true then s.putN F.hubBoot_state 0 1
  else s

/-- HALT (R455): AO and MTR stay up; the boot record keeps the entry unless S2 itself failed. -/
def State.halt (s : State) (k : Nat) : State :=
  let att := match s.sys.bootRecs with
    | e :: _ => Rec.att e k
    | [] => 0
  let s := if k = 2 ∨ (k = 1 ∧ s.bootKind = 0) then (s.onSys fun y => { y with bootRecs := y.bootRecs.drop 1 })
    else s.logEntry 0x50 0xC001 (k + att * 2 ^ 4)
  ((s.putN F.hubBoot_state 0 3).setBoot none).domainsOff

/-- How far S10 and the link are. -/
def State.setLink (s : State) (n : Nat) : State := s.onSys fun y => { y with link := n }

/-- S10 where PERST_N is high; where it is low, S10 waits for it. -/
def State.linkStep (s : State) (stop : Nat) : State :=
  if s.sys.perst = false then s.setLink 1
  else if stop = 10 then (s.startAttempt 10 1).setLink 2
  else (((s.startAttempt 10 1).endStep 10 1 false 1 0).setLink 3).checkDone

/-- S12: immediate without a SYSTEM region, of which the device then releases BOUND_N (R194). -/
def State.beginS12 (s : State) (dur : BitVec 32) : State :=
  let s := s.startAttempt 12 1
  match s.sys.boot with
  | none => s
  | some b =>
    if s.systemRegion.isSome then s.setBoot (some { b with step := 12, attempt := 1, left := [] })
    else ({ s with fst := { s.fst with pull := false } }.putN F.fstBound_state 0 1).endS12 true dur

/-- A step that does not run: OUT 3, and whether R459 chose so. -/
def State.skipStep (s : State) (k : Nat) (alt : Bool) (att : Nat) : State :=
  let s := if k = 7 ∧ alt = true then s.fillDram else s
  s.endStep k 3 alt att (if k = 8 then 3 else 0)

/-- A step that this boot skips: by its kind, by WARMLOAD, or under R459 (true). -/
def State.skips (s : State) (k : Nat) : Option Bool :=
  if (k = 2 ∨ k = 7) ∧ s.bootKind = 1 then some false
  else if k = 7 ∧ s.skipTest = true then some true
  else if k = 8 ∧ (s.bootSlot = 3 ∨ (2 ≤ s.bootKind ∧ s.bitF F.hubBootpol_warmload 0 = false)) then some false
  else if k = 11 ∧ s.skipWalk = true then some true
  else none

/-- What follows the end of a step: a bank without a claim loses its voltage after S8 (R483). -/
def State.afterStep (s : State) (k : Nat) : State :=
  if k = 8 then s.dropBanks else if k = 11 then s.checkDone else s

def State.leave (s : State) (ks : List Nat) : State :=
  match s.sys.boot with
  | some b => s.setBoot (some { b with step := 0, left := ks })
  | none => s

def State.hangs (s : State) (k n : Nat) (ks : List Nat) : State :=
  match s.sys.boot with
  | some b => s.setBoot (some { b with step := k, attempt := n, left := ks })
  | none => s

/-- The steps of a list in order. -/
def State.runSteps (stop : Nat) (dur : BitVec 32) : List Nat → State → State
  | [], s => s
  | k :: ks, s =>
    let s := s.leave ks
    if k = 10 then State.runSteps stop dur ks (s.linkStep stop)
    else if k = 12 then s.beginS12 dur
    else match s.skips k with
      | some alt => State.runSteps stop dur ks ((s.skipStep k alt 0).afterStep k)
      | none =>
        match s.attempts stop k (s.ways k) 1 with
        | .hung s => s.hangs k 1 ks
        | .ended pass s =>
          if pass = false ∧ fatalStep k = true then s.halt k else State.runSteps stop dur ks (s.afterStep k)

/-- The steps of each kind of boot (R448). -/
def bootSteps (kind : Nat) : List Nat :=
  if kind < 2 then [1, 2, 3, 4, 5, 10, 6, 7, 8, 9, 11, 12]
  else if kind = 3 then [4, 10, 6, 8, 9, 11, 12]
  else [4, 6, 8, 9, 11, 12]

/-- A boot begins: a new entry, HUB_BOOT, and the steps. -/
def State.startBoot (s : State) (kind stop : Nat) (dur : BitVec 32) : State :=
  let num := match s.sys.bootRecs with
    | e :: _ => (Rec.bootnum e + 1) % 2 ^ 32
    | [] => 1
  let e : BitVec 256 := BitVec.ofNat 256 (num + kind * 2 ^ 32 + s.sys.powerLost.toNat * 2 ^ 37 +
    (s.reg .timSpine 0).toNat % 2 ^ 56 * 2 ^ 192)
  let s := s.onSys fun y => { y with bootRecs := (e :: y.bootRecs).take 64, boot := some { kind } }
  let s := ((s.putN F.hubBoot_bootnum 0 num).putN F.hubBoot_kind 0 kind).putN F.hubBoot_state 0 0
  let s := State.runSteps stop dur (bootSteps kind) s.refreshPower
  s.onSys fun y => { y with powerLost := false, fresh := [] }

/-! ### The commands -/

/-- POWER_ON_RESET (R448): VSB rises; `stop` names the first step that hangs, where one does. -/
def execPowerOnReset (straps : BitVec 3) (stop : Nat) (durMs : BitVec 32) (s : State) : Result :=
  .next <| if s.sys.powerLost = false then s
    else (s.onSys fun y => { y with straps, vsb := true, vin := true, resetLow := false }).domainsUp.startBoot 0 stop durMs

/-- RESET_N_QUALIFIED (R449): domains 2 to 9 are held in reset. -/
def execResetNQualified (s : State) : Result :=
  .next <| if s.sys.vsb = false ∨ s.sys.resetLow = true then s
    else
      let s := s.hardReset.onSys fun y => { y with resetLow := true }
      if s.sys.vin then s else s.domainsOff

/-- RESET_N_RELEASE (R449): boot begins at S1. -/
def execResetNRelease (stop : Nat) (durMs : BitVec 32) (s : State) : Result :=
  .next <| if s.sys.resetLow = false then s
    else
      let s := s.onSys fun y => { y with resetLow := false }
      if s.sys.vin && s.sys.vsb then s.startBoot 1 stop durMs else s

/-- VIN_LOSS (R450): power is removed from domains 2 to 9, and the device waits in S1 as a hard reset. -/
def execVinLoss (s : State) : Result :=
  .next <| if s.sys.vin = false ∨ s.sys.vsb = false then s
    else
      let halted := s.getN F.hubBoot_state 0 == 3
      let s := s.hardReset
      let s := if halted then s.putN F.hubBoot_state 0 3 else s
      (s.onSys fun y => { y with vin := false }).domainsOff

/-- VIN_RETURN (R450): the boot that waited in S1 runs, as a hard reset; a device in HALT stays there (R455). -/
def execVinReturn (stop : Nat) (durMs : BitVec 32) (s : State) : Result :=
  .next <| if s.sys.vin || !s.sys.vsb then s
    else
      let s := s.onSys fun y => { y with vin := true }
      if s.sys.resetLow || s.getN F.hubBoot_state 0 == 3 then s
      else s.domainsUp.startBoot 1 stop durMs

/-- VSB_LOSS (R450): a power removal for every class of state. -/
def execVsbLoss (s : State) : Result :=
  .next <| if s.sys.vsb = false then s
    else (s.powerRemoval.onSys fun y => { y with vsb := false, resetLow := false, perst := false }).domainsOff

/-- The device answers commands: it is powered, not held in reset, and not in HALT. -/
def State.alive (s : State) : Bool := s.sys.vin && s.sys.vsb && !s.sys.resetLow && s.getN F.hubBoot_state 0 != 3

/-- A warm reset of a kind. -/
def State.warmBoot (s : State) (kind stop : Nat) (dur : BitVec 32) : State := s.warmReset.startBoot kind stop dur

/-- A write of HUB_RESET (R451). -/
def State.writeReset (s : State) (fn : Nat) (v : BitVec 64) (stop : Nat) (dur : BitVec 32) : State :=
  if fn ≠ 0 then s.ignored fn .hubReset 0
  else if v.getLsbD 0 && s.alive then s.warmBoot 2 stop dur
  else s

/-- WARM_RESET (R451). -/
def execWarmReset (fn : FnId) (v : BitVec 64) (stop : Nat) (durMs : BitVec 32) (s : State) : Result :=
  .next (s.bar .hubReset 0 fun s => s.writeReset fn v stop durMs)

/-- The MSI-X table and pending bits of a function, and its BAR2 window, at their reset values. -/
def State.resetConfig (s : State) (fn : Nat) : State :=
  { s with regs := ⟨s.regs.entries.filter fun p =>
      match RegId.all[p.1 % 256]? with
      | some .hubMsixTbl => p.1 / 256 / 512 != fn
      | some .hubMsixPba => p.1 / 256 / 4 != fn
      | some .hubB2win => p.1 / 256 != fn
      | _ => true⟩ }

/-- The PCIe configuration space of every function at its reset values (R451, R452). -/
def State.resetPcie (s : State) : State := s.onSys fun y => { y with pcie := {} }

/-- PCIE_HOT_RESET (R269, R451): a hot reset, or an FLR of the PF. During a warm reset by HUB_RESET, a hot reset adds S10 to
that reset (R461). -/
def execPcieHotReset (flr : Bool) (stop : Nat) (durMs : BitVec 32) (s : State) : Result :=
  .next <| if s.alive = false ∨ s.domOn 5 = false then s
    else if flr then s.warmBoot 4 stop durMs
    else
      let t := ((List.range 17).foldl State.resetConfig s).resetPcie
      match t.sys.boot with
      | some b => if b.kind = 2 then t.linkStep stop else t.warmBoot 3 stop durMs
      | none => t.warmBoot 3 stop durMs

/-- The rest of a boot after the step that hung. -/
def State.resumeBoot (s : State) (b : Boot) (stop : Nat) (dur : BitVec 32) : State :=
  if b.step = 11 then State.runSteps stop dur b.left (((s.leave b.left).skipStep 11 true 2).afterStep 11)
  else
    match s.attempts stop b.step ((s.ways b.step).drop b.attempt) (b.attempt + 1) with
    | .hung s => s.hangs b.step (b.attempt + 1) b.left
    | .ended pass s =>
      let s := s.leave b.left
      if pass = false ∧ fatalStep b.step = true then s.halt b.step
      else State.runSteps stop dur b.left (s.afterStep b.step)

/-- S10 that hung: retried once. -/
def State.retryLink (s : State) (stop : Nat) : State :=
  if s.sys.link = 2 then
    if stop = 10 then (s.startAttempt 10 2).setLink 4
    else (((s.startAttempt 10 2).endStep 10 1 false 2 0).setLink 3).checkDone
  else if s.sys.link = 4 then ((s.endStep 10 2 false 2 0).setLink 0).checkDone
  else s

/-- BOOT_STEP_TIMEOUT (R455): the step that hangs is retried, by its alternate where it has one, and then fails. -/
def execBootStepTimeout (stop : Nat) (durMs : BitVec 32) (s : State) : Result :=
  .next <| match s.sys.boot with
    | none => s.retryLink stop
    | some b =>
      if b.step = 0 then s.retryLink stop
      else if b.step = 12 then (if s.getN F.fstBound_state 0 = 1 then s.boundTimeout else s.endS12 false durMs)
      else s.resumeBoot b stop durMs

/-- PERST_N_RISE (R454, R455): S10 runs where it is due; a link that failed trains again. -/
def execPerstNRise (s : State) : Result :=
  let s := s.onSys fun y => { y with perst := true }
  .next <| if s.alive = false then s
    else if s.sys.link = 1 then s.linkStep 0
    else if s.sys.boot.isSome ∧ s.getN F.hubBoot_step 0 ≤ 5 then s
    else if s.sys.link = 0 then s.setLink 3
    else s

/-! ### FLR of a VF (R269) -/

def State.vfFlr (s : State) (f : Nat) : State :=
  let sets := (List.range 64).filter fun m => s.hqFn m == f
  let s := sets.foldl (fun (s : State) m => s.clrF F.hubHqCfg_en m) s
  let s := s.resetConfig f
  let s := s.abortCtx (f - 1)
  let (pads, s) := s.freePads
  let s := s.abortOp (f - 1) pads
  let s := s.onSys fun y => { y with
    attWait := y.attWait.filter (fun r => r.fn != f)
    attBody := y.attBody.filter fun r => r.1.fn != f }
  if s.getN F.truAttStat_state f = 1 ∨ s.getN F.truAttStat_state f = 2 then s.putN F.truAttStat_state f 0 else s

/-- VF_FLR (R269) of VF f + 1. -/
def execVfFlr (f : Fin 16) (s : State) : Result := .next (if s.hostOn then s.vfFlr (f + 1) else s)

end Sys2Proof.Machine
end

