-- ==== Sys2Proof/Machine/Collator.lean ====
section
/-!
DEFINITION. The commands of the Collator (08_collator.md): dispatch decisions, delay lists, timers, yields, lock waits,
stalled streams and the recovery of the hub logic.
-/
namespace Sys2Proof.Machine

/-- COLLATOR_PLACE (R250 to R253): a decision considers levels 7 down to 0, each ready list in order, and dispatches the
first item that can be placed; before the Collator has restored its tables it dispatches nothing (R238). -/
def execCollatorPlace (s : State) : Result :=
  let s := s.settle
  .next <| if s.col.live = false then s
    else match (List.range 8).findSome? fun i => (s.placeable (7 - i)).map fun p => (p, 7 - i) with
    | some ((x, c), v) => s.dispatch x c v
    | none => s

/-- AFF_HOLD_EXPIRY (R252): the ready item, of several the one that has been ready longest, is held no longer for its last
core's quadrant. -/
def execAffHoldExpiry (st : StreamId) (cw : Word) (s : State) : Result :=
  .next <| match (s.col.ready.filterMap s.item?).find? fun x => x.stream == st.val && x.cw == cw && x.waiting && !x.heldOut with
    | some x => s.updItem x.id fun y => { y with heldOut := true }
    | none => s

/-- DELAY_ENTRY_DUE (R258): the first entry of the list's calendar, a deferred item, falls due and joins the tail of its
ready list. -/
def execDelayEntryDue (l : Fin 4) (s : State) : Result :=
  .next <| match (s.delayList l).calendar.head? with
    | none => s
    | some e => match e.what with
      | .timer _ => s
      | .item id => ((s.removeDelay (.item id)).updDelay l fun d => { d with now := max d.now e.due }).rejoin id

/-- CALENDAR_WRAP (R257): tail entries due within the next 4,096 ticks move into the buckets. -/
def execCalendarWrap (l : Fin 4) (s : State) : Result :=
  let now := (s.tickNow l + 4095) / 4096 * 4096
  .next <| s.updDelay l fun d =>
    { now, calendar := (d.tail.filter fun e => decide (e.due < now + 4096)).foldl (fun c e => insertDue e c) d.calendar,
      tail := d.tail.filter fun e => !decide (e.due < now + 4096) }

/-- A timer's list and due tick, where its entry is the first of a calendar: entries take effect in that order. -/
def State.timerEntry (s : State) (t : Nat) : Option (Nat × Nat) :=
  (List.range 4).findSome? fun l =>
    match (s.delayList l).calendar.head? with
    | some e => if e.what = .timer t then some (l, e.due) else none
    | none => none

/-- TIMER_DUE (R258, R260): the timer raises source 704 + t and is inserted again, or clears EN. -/
def execTimerDue (t : TimerId) (s : State) : Result :=
  .next <| match s.timerEntry t with
    | none => s
    | some (l, due) =>
      let s := (s.removeDelay (.timer t)).updDelay l fun d => { d with now := max d.now due }
      let s := s.raise (704 + t)
      if s.bitF F.colTim_periodic t then s.insertTimer t (due + s.getN F.colTim_interval t) else s.clrF F.colTim_en t

/-- A write of COL_TIMt (R260, R266): EN changed to 1 arms the timer, to 0 disarms it. -/
def State.writeTim (s : State) (fn t : Nat) (v : BitVec 64) : State :=
  if fn = 0 then
    let was := s.bitF F.colTim_en t
    s.writeReg fn .colTim t v (fieldOf F.colTim_interval v == 0) State.colRej fun s =>
      match was, s.bitF F.colTim_en t with
      | false, true => s.insertTimer t (s.tickNow (s.getN F.colTim_list t) + s.getN F.colTim_interval t)
      | true, false => s.dropTimer t
      | _, _ => s
  else s.ignored fn .colTim t

/-- TIMER_ARM (R260): the PF's write of COL_TIMt. -/
def execTimerArm (t : TimerId) (v : BitVec 64) (s : State) : Result :=
  .next (s.bar .colTim t fun s => s.writeTim 0 t v)

/-- TIMER_INSERT_RETRY (R259): at a tick, the insertion that found the list at CAP is tried again. -/
def execTimerInsertRetry (t : TimerId) (s : State) : Result :=
  .next <| match s.col.missed.find? fun m => m.1 == t.val with
    | some m => s.insertTimer t m.2
    | none => s

/-- YIELD_READY (R255): the level that yielded is READY again. -/
def execYieldReady (c : CoreId) (lv : LevelId) (s : State) : Result :=
  .next <| match (s.level c lv).state with
    | .wait .yielded => s.setLevelState c lv .ready
    | .wait (.collator 6 _) => s.setLevelState c lv .ready
    | _ => s

/-- LOCK_WAIT_TIMEOUT (R263): the queued request is withdrawn with RD = 2. -/
def execLockWaitTimeout (c : CoreId) (lv : LevelId) (s : State) : Result :=
  let a := 8 * c.val + lv.val
  .next <| match s.waitsOn a with
    | some _ => if s.getN F.colCtl_lock_to_us 0 = 0 then s else (s.withdraw a).answerLock a 2
    | none => s

/-- The stream leaves STALLED (R256). -/
def State.resumeStream (s : State) (st : Nat) : State :=
  (((s.putN F.colStrStat_faults st 0).putN F.colStrStat_state st 1).settle).refreshStream st

/-- The faulted item completed with 0xFFFF (R256). -/
def State.cancelFaulted (s : State) (st : Nat) : State :=
  match s.col.items.find? fun x => x.stream == st && !x.event && x.faultCore.isSome && x.pos == .queued with
  | some x => s.complete x.id 0xFFFF
  | none => s

/-- A write of COL_STRs_STAT (R256, R265): RESUME and CANCEL act in STALLED only. -/
def State.writeStrStat (s : State) (fn st : Nat) (v : BitVec 64) : State :=
  if s.ownsStream fn st then
    s.writeReg fn .colStrStat st v false id fun s =>
      if s.getN F.colStrStat_state st ≠ 2 then s
      else if v.getLsbD 55 then (s.cancelFaulted st).resumeStream st
      else if v.getLsbD 54 then s.resumeStream st
      else s
  else s.ignored fn .colStrStat st

/-- STREAM_RESUME (R256). -/
def execStreamResume (fn : FnId) (st : StreamId) (v : BitVec 64) (s : State) : Result :=
  .next (s.bar .colStrStat st fun s => s.writeStrStat fn st v)

/-- STREAM_CANCEL (R256). -/
def execStreamCancel (fn : FnId) (st : StreamId) (v : BitVec 64) (s : State) : Result :=
  .next (s.bar .colStrStat st fun s => s.writeStrStat fn st v)

/-- HUB_LOGIC_RECOVERY (R302): the working copies are discarded and restored from the mirror, once DRAM is open. -/
def execHubLogicRecovery (s : State) : Result :=
  .next <| if s.sys.ledgerLost || s.getN F.pwrDom_state 2 != 2 then s else s.restoreCollator

end Sys2Proof.Machine
end

