-- ==== Sys2Proof/Machine/MemCmds.lean ====
section
/-!
DEFINITION. The commands of in-package memory (12_memory.md): scrub, retraining, sector clear, channel retirement and the
partitions.
-/
namespace Sys2Proof.Machine

/-- SCRUB_READ (R343): the next sector read, whose tries fail `glitch` times. -/
def execScrubRead (glitch : Nat) (s : State) : Result :=
  .next <| if s.bitF F.memScrub_en 0 = false then s
    else
      let pos := s.getN F.memScrub_pos 0
      let n := if pos < s.usableSectors then pos else 0
      let s := (s.readSector n glitch).2
      if n + 1 < s.usableSectors then s.putN F.memScrub_pos 0 (n + 1)
      else (s.putN F.memScrub_pos 0 0).addF F.memScrub_passes 0 1

/-- The channel of the next retraining step: neither retired nor migrating (R344). -/
def State.retrainChannel (s : State) : Option Nat :=
  ((List.range 16).map fun i => (s.retrainNext + i) % 16).find? fun k => decide (s.getN F.memChStat_state k < 2)

/-- RETRAIN_STEP (R344): a step on the next channel, complete. -/
def execRetrainStep (s : State) : Result :=
  .next <| if s.bitF F.memRetrain_en 0 = false then s
    else match s.retrainChannel with
      | some k => { s.addF F.memRetrain_steps 0 1 with retrainNext := (k + 1) % 16 }
      | none => s

/-- RETRAIN_STEP_TIMEOUT (R344): a step on the next channel, abandoned. -/
def execRetrainStepTimeout (s : State) : Result :=
  .next <| if s.bitF F.memRetrain_en 0 = false then s
    else match s.retrainChannel with
      | some k =>
        { ((s.addF F.memRetrain_failstep 0 1).logOther .memRetrain 0).raise (640 + k) with retrainNext := (k + 1) % 16 }
      | none => s

/-- A write of MEM_SECCLR (R342): with bit 63 clear, a sector of zero words. -/
def State.writeSecclr (s : State) (fn : Nat) (v : BitVec 64) : State :=
  if v.getLsbD 63 then s.clrF F.memSecclr_rej 0
  else
    let n := fieldOf F.memSecclr_sector v
    let p := s.partSectors fn
    if inCollator n || decide (s.usableSectors ≤ n) || (fn != 0 && !decide (p.1 ≤ n ∧ n < p.2)) then
      (s.logRefused fn (RegId.memSecclr.offset 0)).setF F.memSecclr_rej 0
    else s.writeSector n zeroData

/-- SECTOR_CLEAR (R342). -/
def execSectorClear (fn : FnId) (v : BitVec 64) (s : State) : Result :=
  .next (s.bar .memSecclr 0 fun s => s.writeSecclr fn v)

/-- A write of MEM_RETIRE (R345): GO starts the migration of channel CH. -/
def State.writeRetire (s : State) (fn : Nat) (v : BitVec 64) : State :=
  if fn = 0 then
    let high := (List.range 17).any fun p =>
      decide (0 < s.getN F.memPart_size p ∧ 3840 < s.getN F.memPart_base p + s.getN F.memPart_size p)
    let go := v.getLsbD 5
    s.writeReg fn .memRetire 0 v (go && (s.bitF F.memStat_retired_v 0 || s.bitF F.memStat_mig 0 || high))
      (fun s => s.setF F.memRetire_rej 0) fun s =>
        if go then
          let k := s.getN F.memRetire_ch 0
          { ((s.setF F.memStat_mig 0).putN F.memRetire_migu 0 0).putN F.memChStat_state k 2 with
            migrating := some k, migLine := 0 }
        else s
  else s.ignored fn .memRetire 0

/-- RETIRE_GO (R345): the PF's write of MEM_RETIRE. -/
def execRetireGo (v : BitVec 64) (s : State) : Result :=
  .next (s.bar .memRetire 0 fun s => s.writeRetire 0 v)

/-- MIGRATION_LINE_COPY (R346): a copied sector keeps its bytes, but a mirrored sector that fails is taken from its other
copy; MIGU records every multiple of 65,536 lines. -/
def execMigrationLineCopy (s : State) : Result :=
  .next <| match s.migrating with
    | none => s
    | some k =>
      if uPrime ≤ s.migLine then s
      else
        let n := 16 * s.migLine + k
        let s := if sectorGood (s.sectorBytes n) n then s
          else match otherCopy n with
            | some o => if sectorGood (s.sectorBytes o) o then s.writeSector n ((s.sectorBytes o).take 60) else s
            | none => s
        let s := { s with migLine := s.migLine + 1 }
        if s.migLine % 65536 = 0 then s.putN F.memRetire_migu 0 s.migLine else s

/-- MIGRATION_COMPLETE (R347): the last line has been copied and the channel is retired. -/
def execMigrationComplete (s : State) : Result :=
  .next <| match s.migrating with
    | none => s
    | some k =>
      if s.migLine < uPrime then s
      else
        let s := (((s.clrF F.memStat_mig 0).setF F.memStat_retired_v 0).putN F.memStat_retired 0 k).putN F.memStat_usable
          0 3840
        let s := { (s.putN F.memRetire_migu 0 uPrime).putN F.memChStat_state k 3 with
          migrating := none, sys := { s.sys with retiredAt := some (s.getN F.hubBoot_bootnum 0) } }
        (s.logEntry 0x03 0x6007 (k + uPrime * 2 ^ 4)).raise (640 + k)

/-- Two granule ranges overlap. -/
def granulesMeet (b n b' n' : Nat) : Bool := decide (0 < n ∧ 0 < n' ∧ b < b' + n' ∧ b' < b + n)

/-- A write of MEM_PARTp that R349 refuses. -/
def State.partRefused (s : State) (p : Nat) (v : BitVec 64) : Bool :=
  let b := fieldOf F.memPart_base v
  let n := fieldOf F.memPart_size v
  decide (4095 < b) || decide (4096 < n) ||
    (List.range 17).any (fun q => q != p && granulesMeet b n (s.getN F.memPart_base q) (s.getN F.memPart_size q)) ||
    granulesMeet b n 3324 516 || decide (0 < n ∧ s.getN F.memStat_usable 0 < b + n) ||
    (List.range 4096).any (fun st => s.bitF F.colStrCfg_en st && s.getN F.colStrCfg_owner st == p) ||
    (List.range 64).any (fun m => s.bitF F.hubHqCfg_en m && s.getN F.hubHqCfg_fn m == p)

/-- A write of MEM_PARTp. -/
def State.writePart (s : State) (fn p : Nat) (v : BitVec 64) : State :=
  if fn = 0 then s.writeReg fn .memPart p v (s.partRefused p v) (fun s => s.setF F.memPart_rej p) id
  else s.ignored fn .memPart p

/-- PARTITION_WRITE (R349): the PF's write of MEM_PARTp. -/
def execPartitionWrite (p : FnId) (v : BitVec 64) (s : State) : Result :=
  .next (s.bar .memPart p fun s => s.writePart 0 p v)

end Sys2Proof.Machine
end

