-- ==== Sys2Proof/Machine/Wake.lean ====
section
/-!
DEFINITION. Wake from DORMANT (R441 to R445) and time across sleep (R446, R447).
-/
namespace Sys2Proof.Machine

/-! ### Wake events -/

/-- Every domain is down or on its way down. -/
def State.goingDown (s : State) : Bool :=
  domainOrder.all fun d => let st := s.domState d; st == Dom.off || st == Dom.fail || st == Dom.rampDn

/-- Vote bit 20 on the domains of DOMAINS (R430); a domain in FAIL that gains it tries again. -/
def State.wakeVotes (s : State) : State :=
  domainOrder.foldl (fun (s : State) d =>
    if (s.getF F.pwrWakecfg_domains 0).getLsbD d then
      let gained := !(s.getF F.pwrDom_vote d).getLsbD 20
      let s := s.setVote d 20 true
      if gained && s.domState d == Dom.fail then s.setDom d Dom.off else s
    else s) s

/-- A wake event of a cause (R441): ignored while the device is tripped and hot (R436); from DORMANT, or on the way to it,
the wake sequence follows. -/
def State.wakeEvent (s : State) (cause : Nat) : State :=
  if s.alive = false ∨ (s.sys.tripped = true ∧ s.cool = false) then s
  else
    let s := s.wakeVotes
    if s.goingDown then
      s.onSys fun y => { y with wakeWait := some (match y.wakeWait with
          | some c => min c cause
          | none => cause) }
    else s.startUps.refreshPower

/-- WAKE_ADDRESS_MATCH (R442). -/
def execWakeAddressMatch (s : State) : Result :=
  .next (if s.bitF F.pwrWakecfg_en_i3c 0 then s.wakeEvent 1 else s)

/-- AO_TIMER_EXPIRY (R441): ARMED clears. -/
def State.aoExpiry (s : State) : State :=
  if s.bitF F.pwrAotmr_armed 0 = false then s
  else
    let s := (s.clrF F.pwrAotmr_armed 0).putN F.pwrAotmr_count 0 0
    if s.bitF F.pwrWakecfg_en_tmr 0 then s.wakeEvent 2 else s

def execAoTimerExpiry (s : State) : Result := .next s.aoExpiry

/-- WAKE_N_ASSERT (R441): WAKE_N has passed its filter. -/
def execWakeNAssert (s : State) : Result :=
  .next (if s.bitF F.pwrWakecfg_en_waken 0 then s.wakeEvent 3 else s)

/-! ### The wake sequence (R443): steps 1 to 6, and 10 + d for domain d of W7 -/

def wakeSteps : List Nat := [1, 2, 3, 4, 5, 6, 14, 15, 16, 17, 18, 19]

/-- The number of the step in the table. -/
def wakeNo (k : Nat) : Nat := if 7 ≤ k then 7 else k

def wakeHasAlt (k : Nat) : Bool := k == 2 || k == 3 || k == 5 || decide (7 ≤ k)

def State.setWake (s : State) (w : Option Wake) : State := s.onSys fun y => { y with wake := w }

/-- The action of a step, or of its alternate. W4 is TCLK_RESUME's. -/
def State.wakeAct (s : State) (k : Nat) (alt : Bool) : State :=
  match k with
  | 2 => (s.setDom 3 Dom.on).setDom 2 Dom.on
  | 3 => s.lockLoops alt
  | 5 => (if alt then s.setF F.memStat_speed 0 else s).markChannels
  | 6 => s.restoreCollator
  | _ => if 12 ≤ k then (s.setDom (k - 10) Dom.on).upEffect (k - 10) else s

/-- The sequence completes: DONE_EV, DUR_US, COUNT, source 900; after a trip TRIP_EV and source 897. -/
def State.wakeDone (s : State) (dur : BitVec 32) : State :=
  let s := (((s.setF F.pwrWake_done_ev 0).putF F.pwrWake_dur_us 0 dur).addF F.pwrWake_count 0 1).raise 900
  let s := if s.sys.tripped then (s.setF F.pwrStatus_trip_ev 0).raise 897 else s
  (((s.setWake none).onSys fun y => { y with tripped := false }).startUps).refreshPower

/-- The steps of a list in order; `stop` names the first that hangs, which W4 cannot. -/
def State.runWake (stop : Nat) (dur : BitVec 32) : List Nat → State → State
  | [], s => s.wakeDone dur
  | k :: ks, s =>
    if 10 ≤ k ∧ s.wanted 3 (k - 10) = false then State.runWake stop dur ks s
    else if k = stop ∧ k ≠ 4 then
      (if 10 ≤ k then s.setDom (k - 10) Dom.rampUp else s).setWake (some { step := k, left := ks })
    else State.runWake stop dur ks (s.wakeAct k false)

/-- WAKE_FAIL (R444): the step and its attempts are recorded, AO and MTR stay up. -/
def State.wakeFail (s : State) (k att : Nat) : State :=
  let s := (s.setF F.pwrWake_fail 0).logEntry 0x50 0xC002 (wakeNo k + att * 2 ^ 4)
  let s := s.allOff.setWake none
  ((s.onSys fun y => { y with wakeFailed := some (wakeNo k, att) }).stopTclk).refreshPower

/-- WAKE_SEQUENCE (R443): from DORMANT after a wake event. A boot that a trip stopped resumes as a hard reset (R461). -/
def execWakeSequence (stop : Nat) (durUs : BitVec 32) (s : State) : Result :=
  .next <| match s.sys.wakeWait with
    | none => s
    | some c =>
      if s.dormant = false ∨ s.sys.wake.isSome = true ∨ s.alive = false then s
      else
        let s := s.onSys fun y => { y with wakeWait := none }
        if s.sys.bootAfter then ((s.setF F.pwrStatus_trip_ev 0).hardReset.domainsUp.startBoot 1 0 0).raise 897
        else
          let s := ((s.clrF F.pwrWake_fail 0).putN F.pwrWake_cause 0 c).putN F.pwrWake_step 0 0
          State.runWake stop durUs wakeSteps ((s.clrF F.pwrWake_alt 0).setWake (some { step := 0 }))

/-- WAKE_STEP_TIMEOUT (R443): the step that hangs is retried once with its alternate; a step without one, or a second
failure, ends in WAKE_FAIL, but a domain of W7 enters FAIL and the sequence goes on. -/
def execWakeStepTimeout (stop : Nat) (durUs : BitVec 32) (s : State) : Result :=
  .next <| match s.sys.wake with
    | none => s
    | some w =>
      if w.step = 0 then s
      else if !w.retried && wakeHasAlt w.step then
        let s := (s.putN F.pwrWake_step 0 (wakeNo w.step)).setF F.pwrWake_alt 0
        if stop = w.step then s.setWake (some { w with retried := true })
        else State.runWake stop durUs w.left ((s.wakeAct w.step true).setWake (some { step := 0 }))
      else if 10 ≤ w.step then
        State.runWake stop durUs w.left ((s.failDomain (w.step - 10)).setWake (some { step := 0 }))
      else s.wakeFail w.step (if w.retried then 2 else 1)

/-- A write of PWR_WAKECFG: ACK clears vote bit 20 on every domain (R430). -/
def State.writeWakecfg (s : State) (fn : Nat) (v : BitVec 64) : State :=
  if fn ≠ 0 then s.ignored fn .pwrWakecfg 0
  else s.writeReg fn .pwrWakecfg 0 v false id fun s =>
    if v.getLsbD 3 then (domainOrder.foldl (fun (s : State) d => s.setVote d 20 false) s).refreshPower else s

/-- WAKE_ACK (R430, R444): the PF's write of PWR_WAKECFG. -/
def execWakeAck (v : BitVec 64) (s : State) : Result :=
  .next (s.bar .pwrWakecfg 0 fun s => s.writeWakecfg 0 v)

/-! ### Time (R446, R447) -/

/-- TIME_CALIBRATE (R446): `count` TCLK cycles in a window of 2^20 AO cycles, while the root loop is locked. -/
def execTimeCalibrate (count : Nat) (s : State) : Result :=
  .next <| if s.bitF F.clkStat_rlock 0 && s.sys.tclk then (s.putN F.timCal_ratio 0 (count * 2 ^ 12)).setF F.timCal_valid 0 else s

/-- TCLK_RESUME (R446): SPINE_TIME and TIME_UNCERT after `n` bridged AO cycles. -/
def execTclkResume (n : Nat) (s : State) : Result :=
  .next <| if s.sys.tclk || !s.bitF F.clkStat_rlock 0 then s
    else
      let t := s.getN F.timSpine_count 0 + n * s.getN F.timCal_ratio 0 / 2 ^ 32
      let s := (s.putN F.timSpine_count 0 t).addF F.timUncert_ns 0 ((10 * n + 2047) / 2048 + 1000)
      s.onSys fun y => { y with tclk := true }

/-- A write of TIM_ADJ: the signed offset added, and logged. -/
def State.writeTimAdj (s : State) (fn : Nat) (v : BitVec 64) : State :=
  if fn ≠ 0 then s.ignored fn .timAdj 0
  else (s.putF F.timSpine_count 0 (s.getF F.timSpine_count 0 + v)).logEntry 0x08 0x0001 v.toNat

/-- TIM_ADJ (R447). -/
def execTimAdj (fn : FnId) (v : BitVec 64) (s : State) : Result :=
  .next (s.bar .timAdj 0 fun s => s.writeTimAdj fn v)

/-- A write of TIM_UNCERT (R447). -/
def State.writeTimUncert (s : State) (fn : Nat) (v : BitVec 64) : State :=
  if fn ≠ 0 then s.ignored fn .timUncert 0 else s.writeReg fn .timUncert 0 v false id id

end Sys2Proof.Machine
end

