-- ==== Sys2Proof/Machine/Upkeep.lean ====
section
/-!
DEFINITION. Upkeep (19_upkeep.md): the background engines, telemetry, column moves, and the registers of the colophon log.
-/
namespace Sys2Proof.Machine

/-! ### Engines (R462, R463) -/

/-- An engine is on, and the hub up. -/
def State.engineOn (s : State) (k : Nat) : Bool := s.bitF F.upkEng_en k && s.domOn 2

def State.passDone (s : State) (k : Nat) : State := s.addF F.upkEng_passes k 1

/-- The log entry of a finding that names a sensor or lane (R472). -/
def State.logEngine (s : State) (k part : Nat) : State := s.logEntry 0x0C 0x6008 (k + part % 256 * 2 ^ 3)

/-- The next of a rising list of positions at or after `at_`, or the first; and whether it is the last. -/
def nextOf (at_ : Nat) (l : List Nat) : Option (Nat × Bool) :=
  match l.find? (fun n => decide (at_ ≤ n)), l.head? with
  | some n, _ => some (n, l.getLast? == some n)
  | none, some n => some (n, l.getLast? == some n)
  | none, none => none

/-- The frame that the walk reads next, as 8 · gathering + row; it skips gatherings with UNLOADED = 1 (R474). -/
def State.walkNext (s : State) : Option (Nat × Bool) :=
  nextOf s.sys.walkPos
    ((s.inUse.filter fun g => !s.bitF F.gthCfg_unloaded g).flatMap fun g => (List.range 8).map fun ly => 8 * g + ly)

/-- One frame of the walk, `last` in a pass. -/
def State.walkAt (s : State) (n : Nat) (last : Bool) : State :=
  let s := s.walkFrame (n / 8) (n % 8)
  let s := s.onSys fun y => { y with walkPos := if last then 0 else n + 1 }
  if last then s.passDone 0 else s

/-- FRAME_CHECK_WALK (R59). -/
def execFrameCheckWalk (s : State) : Result :=
  .next <| if s.engineOn 0 = false then s
    else match s.walkNext with
      | none => s
      | some p => s.walkAt p.1 p.2

/-- FOLIO_PARITY_SWEEP (R132): the next word read through port 0, which reports what fails. -/
def execFolioParitySweep (s : State) : Result :=
  .next <| if s.engineOn 1 = false then s
    else match nextOf (s.sys.sweepPos / 2048) s.inUse with
      | none => s
      | some (g, last) =>
        let a := if g = s.sys.sweepPos / 2048 then s.sys.sweepPos % 2048 else 0
        let (_, ok, s) := s.portRead g a false
        let s := if ok then s else s.addF F.upkEng_finds 1 1
        let ends := last && a == 2047
        let s := s.onSys fun y => { y with sweepPos := if ends then 0 else 2048 * g + a + 1 }
        if ends then s.passDone 1 else s

/-- A lane's step counted; the pass ends when every lane of every UP port has had one. -/
def State.laneDone (s : State) (n : Nat) : State :=
  let done := n :: s.sys.eqDone.filter (· != n)
  let all := s.portsUp.flatMap fun p => (List.range 8).map fun j => 8 * p + j
  if all.all done.contains then (s.onSys fun y => { y with eqDone := [] }).passDone 2
  else s.onSys fun y => { y with eqDone := done }

def State.setEq (s : State) (n : Nat) (pos last : Int) : State :=
  s.onSys fun y => { y with eqPos := y.eqPos.put n pos, eqLast := y.eqLast.put n last }

/-- SERDES_ADAPT_STEP (R463): one step up or down; at the end of the range it raises the finding. A step that meets a
substitution of the lane is dropped (R474). -/
def execSerdesAdaptStep (p : PortId) (lane : Fin 8) (dir : Bool) (s : State) : Result :=
  let n := 8 * p.val + lane.val
  let sub := match (s.port p).sub with
    | some u => u.lane == lane.val
    | none => false
  .next <| if s.engineOn 2 = false ∨ s.portUp p = false ∨ sub = true then s
    else
      let step : Int := if dir then 1 else -1
      let pos := s.sys.eqPos.at n
      let room := decide ((pos + step).natAbs ≤ Config.eqRange)
      let s := if room then s.setEq n (pos + step) step else s.setEq n pos 0
      let s := if pos.natAbs ≠ Config.eqRange ∧ (s.sys.eqPos.at n).natAbs = Config.eqRange then (s.finding 2).logEngine 2 n else s
      s.laneDone n

/-- SERDES_ADAPT_REVIEW (R463): corrected symbols in the 10 ms before and after the step. -/
def execSerdesAdaptReview (p : PortId) (lane : Fin 8) (before after : Nat) (s : State) : Result :=
  let n := 8 * p.val + lane.val
  .next <| if 2 * before < after then s.setEq n (s.sys.eqPos.at n - s.sys.eqLast.at n) 0 else s.setEq n (s.sys.eqPos.at n) 0

/-- REGULATOR_TRIM_STEP (R463): `errMv` is the rail less its setting. -/
def execRegulatorTrimStep (rail : Fin 16) (errMv : Int) (s : State) : Result :=
  .next <| if s.engineOn 3 = false then s
    else
      let old := s.sys.railOfs.at rail
      let want := if errMv < 0 then old + 1 else if 0 < errMv then old - 1 else old
      let new := if 25 < want.natAbs then old else want
      let s := s.onSys fun y => { y with railOfs := y.railOfs.put rail new }
      let s := if new.natAbs = 25 ∧ old.natAbs ≠ 25 then (s.finding 3).logEngine 3 rail else s
      let done := rail.val :: s.sys.railDone.filter (· != rail.val)
      if done.length = 16 then (s.onSys fun y => { y with railDone := [] }).passDone 3
      else s.onSys fun y => { y with railDone := done }

/-- WEAR_LEVEL_CHECK (R463): whether a group has no spare location left is free: no rule counts the spares. -/
def execWearLevelCheck (s : State) : Result :=
  .next <| if s.engineOn 5 = false then s
    else
      let (f, s) := (s.passDone 5).draw 1
      if f = 1#1 then (s.finding 5).logEngine 5 0 else s

/-! ### Telemetry (R464) -/

/-- The sensors of a die. -/
def dieSensors (d : Nat) : List Nat := if d < 4 then (List.range 14).map (14 * d + ·) else (List.range 8).map (56 + ·)

def sensorDie (i : Nat) : Nat := if i < 56 then i / 14 else 4

/-- The median of an odd number of readings. -/
def median (l : List Int) : Int := (sortBy (fun a b => decide (a ≤ b)) l).getD (l.length / 2) 0

def implausible (temps : List Int) (i : Nat) : Bool :=
  let t := temps.getD i 0
  let m := median (((dieSensors (sensorDie i)).filter (· != i)).map fun j => temps.getD j 0)
  decide (t < -20) || decide (130 < t) || decide (15 < (t - m).natAbs)

/-- More than half the sensors of a die are implausible. -/
def dieLost (temps : List Int) (d : Nat) : Bool :=
  decide ((dieSensors d).length < 2 * ((dieSensors d).filter (implausible temps)).length)

def tjMax (temps : List Int) : Int :=
  let good := ((List.range 64).filter fun i => !implausible temps i).map fun i => temps.getD i 0
  let lost := if (List.range 5).any (dieLost temps) = true then [(110 : Int)] else []
  match good ++ lost with
  | [] => 0
  | t :: ts => ts.foldl max t

def badCurrent (c : CurrentSense) : Bool := decide (c.cur < 0 ∨ 40000 < c.cur)

/-- A domain's current for PWR_W: the reading, or 1.25 times the largest plausible one of the last second; free where there
was none. -/
def State.currentOf (s : State) (d : Nat) (c : CurrentSense) : Nat × State :=
  let old := s.sys.recentCur.at d
  let now : Option Nat := if badCurrent c then none else some c.cur.toNat
  let s := s.onSys fun y => { y with recentCur := y.recentCur.put d ((now :: old).take 1000) }
  match now with
  | some x => (x, s)
  | none =>
    match old.filterMap id with
    | [] => let (x, s) := s.draw 16; (x.toNat, s)
    | x :: xs => (5 * xs.foldl max x / 4, s)

/-- TJMAX and PWR_W, which R435 compares whatever EN is. -/
def State.telemetry (s : State) (temps : List Int) (currents : List CurrentSense) : State :=
  let s := s.putF F.pwrStatus_tjmax 0 (BitVec.ofInt 8 (tjMax temps))
  let (w, s) := (currents.zipIdx).foldl (fun (acc : Nat × State) p =>
    let (x, s) := acc.2.currentOf (p.2 + 2) p.1
    (acc.1 + p.1.mv * x, s)) (0, s)
  s.putN F.pwrStatus_pwr_w 0 (min (w / 100000) 65535)

/-- The upkeep registers, and a finding for each implausible reading. -/
def State.showReadings (s : State) (temps : List Int) (currents : List CurrentSense) : State :=
  let s := (List.range 64).foldl (fun (s : State) i =>
    let bad := implausible temps i
    let s := s.putF F.upkTemp_temp i (BitVec.ofInt 8 (temps.getD i 0))
    if bad then ((s.setF F.upkTemp_impl i).finding 4).logEngine 4 i else s.clrF F.upkTemp_impl i) s
  let s := (currents.zipIdx).foldl (fun (s : State) p =>
    let d := p.2 + 2
    let s := (s.putN F.upkCur_mv d (p.1.mv % 65536)).putF F.upkCur_cur d (BitVec.ofInt 16 p.1.cur)
    if badCurrent p.1 then ((s.setF F.upkCur_impl d).finding 4).logEngine 4 (64 + d) else s.clrF F.upkCur_impl d) s
  s.passDone 4

/-- TELEMETRY_UPDATE (R464): a die that has lost its sensors counts as 110 °C, and trips (R436). -/
def execTelemetryUpdate (temps : List Int) (currents : List CurrentSense) (s : State) : Result :=
  if telemetryShape temps currents = false then .fault .illFormed
  else
    .next <| if s.domOn 2 = false then s
      else
        let s := s.telemetry temps currents
        let s := if s.bitF F.upkEng_en 4 then s.showReadings temps currents else s
        match (List.range 5).find? (dieLost temps) with
        | some d => if s.sys.tripped then s else s.trip ((dieSensors d).headD 0) 110
        | none => s

/-! ### The column map (R46 to R49) -/

def State.skip (s : State) (q : Nat) : Nat := s.getN F.upkColmap_skip q

/-- The physical column of logical column gx. -/
def physCol (skip gx : Nat) : Nat := if gx < skip then gx else gx + 1

/-- The place of a physical column's row: the gathering in it, or the place kept for the skipped column. -/
def placeOf (q gy skip pg : Nat) : Nat :=
  if pg = skip then 4096 + 32 * q + gy else gthNo q (if pg < skip then pg else pg - 1) gy

/-- Where the contents of a place of quadrant q stand after SKIP changes. -/
def movePlace (q old new g : Nat) : Nat :=
  if g < 4096 then placeOf q (gthY g) new (physCol old (gthX g)) else placeOf q ((g - 4096) % 32) new old

/-- What a cell and a gathering keep as they change places: leaves and versions; nothing of a leaf in progress. -/
def Cell.settled (x : Cell) : Cell := { v := x.v, leaf := x.leaf }
def Gth.settled (x : Gth) : Gth :=
  { x with kettle := {}, press := x.press.mapVals fun p => { leaf := p.leaf, acc := p.acc } }

/-- Leaf contents and state stay in their physical columns. -/
def State.moveColumns (s : State) (q old new : Nat) : State :=
  let cells := s.arr.cells.entries.foldl (fun (m : Sparse Cell) e =>
    if placeQuad (e.1 / 64) = q then m.put (64 * movePlace q old new (e.1 / 64) + e.1 % 64) e.2.settled
    else m.put e.1 e.2) {}
  let gths := s.arr.gths.entries.foldl (fun (m : Sparse Gth) e =>
    if placeQuad e.1 = q then m.put (movePlace q old new e.1) e.2.settled else m.put e.1 e.2) {}
  s.onArr fun y => { y with cells, gths }

/-- The gatherings whose physical column changes. -/
def movedGths (q old new : Nat) : List Nat :=
  (List.range 1024).filterMap fun i =>
    if physCol old (i % 32) = physCol new (i % 32) then none else some (1024 * q + i)

/-- SKIP written: every moved gathering is unloaded. -/
def State.applySkip (s : State) (q new : Nat) : State :=
  let old := s.skip q
  if old = new then s
  else
    let s := (s.moveColumns q old new).putN F.upkColmap_skip q new
    (movedGths q old new).foldl (fun (s : State) g => s.setF F.gthCfg_unloaded g) s

/-- A gathering's region may not lose it: it is neither UNBOUND nor HELD. -/
def State.gthRuns (s : State) (g : Nat) : Bool :=
  match s.regionOf g with
  | none => false
  | some r => s.qstate r != Q.unbound && s.qstate r != Q.held

/-- A write of UPK_COLMAPq. -/
def State.writeColmap (s : State) (fn q : Nat) (v : BitVec 64) : State :=
  if fn ≠ 0 then s.ignored fn .upkColmap q
  else
    let new := fieldOf F.upkColmap_skip v
    let bad := decide (32 < new) || (movedGths q (s.skip q) new).any s.gthRuns
    let c := s.clearW1c .upkColmap q v
    if new = s.skip q then c
    else if bad then (c.logRefused fn (RegId.upkColmap.offset q)).setF F.upkColmap_rej q
    else c.applySkip q new

/-- COLMAP_WRITE (R49): the PF's write of UPK_COLMAPq. -/
def execColmapWrite (q : Fin 4) (v : BitVec 64) (s : State) : Result :=
  .next (s.bar .upkColmap q fun s => s.writeColmap 0 q v)

/-! ### Column moves (R466 to R468) -/

/-- The gatherings that a move captures, in order. -/
def State.toCapture (s : State) (q pg : Nat) : List Nat :=
  ((List.range 1024).map (1024 * q + ·)).filter fun g =>
    decide (pg ≤ gthX g) && match s.regionOf g with
      | some r => s.qstate r == Q.held
      | none => false

/-- CODE of a GO, 0 where it is accepted. -/
def State.colrepCode (s : State) (q pg : Nat) : Nat :=
  let gs := (List.range 1024).map (1024 * q + ·)
  let nh := (s.toCapture q pg).length
  let dst := s.getN F.upkColrepDst_sector 0
  let (lo, hi) := s.partSectors 0
  if (gs.any fun g => decide (pg ≤ gthX g) && s.gthRuns g) = true then 1
  else if nh ≠ 0 ∧ !decide (lo ≤ dst ∧ dst + 259 * nh ≤ hi) = true then 2
  else if s.getN F.upkColrep_state 0 ≠ 0 then 3
  else if 31 < pg ∨ s.skip q ≠ 32 then 4
  else 0

/-- A write of UPK_COLREP. -/
def State.writeColrep (s : State) (fn : Nat) (v : BitVec 64) : State :=
  if fn ≠ 0 then s.ignored fn .upkColrep 0
  else
    let go := v.getLsbD 63
    let q := fieldOf F.upkColrep_q v
    let pg := fieldOf F.upkColrep_pg v
    let code := s.colrepCode q pg
    s.writeReg fn .upkColrep 0 v ((go && code != 0) || decide (31 < pg))
      (fun s => (s.setF F.upkColrep_rej 0).putN F.upkColrep_code 0 (if go then code else 0)) fun s =>
        if go then
          let m : ColMove := { q, pg, dst := s.getN F.upkColrepDst_sector 0, gths := s.toCapture q pg }
          let s := s.onSys fun y => { y with colMove := some m }
          (s.putN F.upkColrep_code 0 0).putN F.upkColrep_state 0 1
        else s

/-- COLREP_GO (R466): the PF's write of UPK_COLREP. -/
def execColrepGo (v : BitVec 64) (s : State) : Result :=
  .next (s.bar .upkColrep 0 fun s => s.writeColrep 0 v)

/-- The state and folio parts of one gathering, from a sector on. -/
def State.captureGth (s : State) (g sec : Nat) : State :=
  let r := (s.regionOf g).getD 0
  let s := s.putWords sec (s.statePart r g (s.moveExtra r g))
  let p := s.folioPart r g
  p.2.2.putWords (sec + stateSectors) p.1

/-- PENDING at 0: the move is over. -/
def State.moveOver (s : State) : State :=
  ((s.onSys fun y => { y with colMove := none }).putN F.upkColrep_state 0 0).raise 918

/-- COLREP_CAPTURE_DONE (R467): the parts stand in DRAM, SKIP moves, and the move waits for its repair loads. -/
def execColrepCaptureDone (s : State) : Result :=
  .next <| match s.sys.colMove with
    | none => s
    | some m =>
      if s.getN F.upkColrep_state 0 ≠ 1 then s
      else
        let s := (m.gths.zipIdx).foldl (fun (s : State) p => s.captureGth p.1 (m.dst + 259 * p.2)) s
        let s := s.applySkip m.q m.pg
        let s := s.onSys fun y => { y with colMove := some { m with left := m.gths } }
        let s := ((s.putN F.upkColrep_pending 0 m.gths.length).putN F.upkColrep_state 0 2).setF F.upkColrep_done_ev 0
        let s := (s.raise 918).logEntry 0x0C 0x6003 (m.q + m.pg * 2 ^ 2 + m.gths.length * 2 ^ 8)
        if m.gths.isEmpty then s.moveOver else s

/-- A write of UPK_ENGk: PERIOD_MS in its range (R464). -/
def State.writeEng (s : State) (fn k : Nat) (v : BitVec 64) : State :=
  if fn ≠ 0 then s.ignored fn .upkEng k
  else
    let p := fieldOf F.upkEng_period_ms v
    let lo := [50, 100, 10, 10, 1, 60000].getD k 0
    let hi := [8388607, 8388607, 60000, 60000, 1000, 8388607].getD k 0
    s.writeReg fn .upkEng k v (decide (p < lo ∨ hi < p)) (fun s => s.setF F.upkEng_rej k) id

/-! ### The log registers (R473) -/

/-- The log takes entries again. -/
def State.logUnfreeze (s : State) : State := { s.clrF F.logCtl_frozen 0 with logSince := 0 }

/-- A write of LOG_CTL. -/
def State.writeLogCtl (s : State) (fn : Nat) (v : BitVec 64) : State :=
  if fn ≠ 0 then s.ignored fn .logCtl 0
  else s.writeReg fn .logCtl 0 v (fieldOf F.logCtl_freeze_level v == 7) id fun s =>
    if v.getLsbD 63 then s.logUnfreeze else s

/-- LOG_UNFREEZE (R473): the PF's write of LOG_CTL. -/
def execLogUnfreeze (v : BitVec 64) (s : State) : Result :=
  .next (s.bar .logCtl 0 fun s => s.writeLogCtl 0 v)

/-- The entry at LOG_ADDR. -/
def State.logAt (s : State) : BitVec 128 := s.log.at (s.getN F.logAddr_addr 0)

/-- What a read of LOG_DHI leaves (R473). -/
def State.advanceLog (s : State) : State := s.putN F.logAddr_addr 0 (s.getN F.logAddr_addr 0 + 1)

/-- LOG_READ (R473): a read of LOG_DHI. -/
def execLogRead (s : State) : Result :=
  .next (s.barRead 0 .logDhi 0 fun s =>
    s.advanceLog.emit (.readData 0 (leBytes (s.logAt.extractLsb' 64 64).toNat 8)))

end Sys2Proof.Machine
end

