-- ==== Sys2Proof/Machine/Bar0.lean ====
section
/-!
DEFINITION. Reads and writes of BAR0 registers (R5 to R9, R272, R496 and the Meaning columns of every chapter).
-/
namespace Sys2Proof.Machine

/-! ### What a register reads as -/

/-- The 64 bits that a register returns: those that show other state are made from it. -/
def State.readReg (s : State) (r : RegId) (i : Nat) : BitVec 64 :=
  match r with
  | .hubBrdata =>
    match s.sys.bootRecs[s.getN F.hubBrsel_index 0]? with
    | some e => e.extractLsb' (64 * i) 64
    | none => 0
  | .spnTrcDlo => (s.ring.trace.at (s.getN F.spnTrcAddr_addr 0)).extractLsb' 0 64
  | .spnTrcDhi => (s.ring.trace.at (s.getN F.spnTrcAddr_addr 0)).extractLsb' 64 64
  | .logDlo => s.logAt.extractLsb' 0 64
  | .logDhi => s.logAt.extractLsb' 64 64
  | .gthQptr =>
    let q := (s.gth (i / 4)).queue.at (i % 4)
    BitVec.ofNat 64 (q.apCom.p + q.rp * 2 ^ 12 + q.crp * 2 ^ 24 + s.ringCount (i / 4) (i % 4) * 2 ^ 36)
  | .pwrDom =>
    if i = 1 then s.refreshPower.reg r i &&& ~~~(BitVec.ofNat 64 (7 * 2 ^ 36)) |||
      BitVec.ofNat 64 (if s.sys.meter.powered then 2 * 2 ^ 36 else 0)
    else s.refreshPower.reg r i
  | .pwrStatus => s.refreshPower.reg r i
  | .qctBmkSize =>
    let gs := s.gthsOf i
    s.reg r i ||| BitVec.ofNat 64
      ((gs.filter fun g => (s.gth g).sdirty).length + (gs.filter fun g => (s.gth g).fdirty).length * 2 ^ 16)
  | _ => s.reg r i

/-! ### Which function may access a register (R43, R155, R265, R272, R373, R424, R483) -/

/-- The gathering of a gathering's register. -/
def RegId.gthOf (r : RegId) (i : Nat) : Nat :=
  match r with
  | .gthQdesc | .gthQwm | .gthQptr => i / 4
  | .gthCrc => i / 8
  | _ => i

/-- The rules of a register open it to VF `fn`. -/
def State.opensVf (s : State) (fn : Nat) (r : RegId) (i : Nat) : Bool :=
  match r with
  | .hubId | .hubB2win | .hubMsixTbl | .hubMsixPba | .timSpine | .timUncert | .timCal | .timAdj | .mtrStat | .mtrSeq
  | .mtrParam | .mtrAudit | .mtrRg | .pwrDom | .memStat | .memSecclr => true
  | .hubHqCfg | .hubHqSq | .hubHqAq | .hubHqRq | .hubHqXq | .hubHqXstg | .hubHqStat | .hubDbSqt | .hubDbAqh | .hubDbRqh
  | .hubDbXqh => fn == s.hqFn i
  | .colStrCfg | .colStrStat | .colStrAcc | .colStrRet | .colStrRsb | .colStrHoles => fn == s.strOwner i
  | .colTskCfg | .colTskCores => fn == s.getN F.colTskCfg_owner i
  | .colLock => fn == s.getN F.colLock_owner i
  | .memPart => fn == i
  | .bndSrc | .bndCmd | .bndStat | .bndCase | .bndLimit => decide (i < 16) && fn == i + 1
  | .bndHash => fn == i / 4 + 1
  | .qctCfg | .qctCommitted | .qctExec | .qctStatus | .qctReplays | .qctStretch | .qctFault | .qctTokenTo | .qctCtl
  | .qctHold | .qctRbSel | .qctRbDst | .qctRbStat | .qctBmkCtl | .qctBmkDst | .qctBmkStat | .qctBmkSize
  | .qctBmkValid => fn == i + 1
  | .qctCadPat | .qctCadLen => fn == i / 64 + 1
  | .truAttNonce => fn == i / 4
  | .truAttCmd | .truAttStat => fn == i
  | .padBank => (s.banksOf fn).getLsbD i
  | .padHold => true
  | .gthCfg | .gthDchk | .gthFerr | .gthQdesc | .gthQwm | .gthQptr | .gthCrc =>
    s.regionOf (r.gthOf i) == some (fn - 1)
  | _ => false

/-- Registers that a VF reads and the PF alone writes. -/
def RegId.pfWrites (r : RegId) : Bool :=
  match r with
  | .timUncert | .timAdj | .colLock | .memStat | .memPart | .bndLimit => true
  | _ => false

/-- A function may write a register. -/
def State.opens (s : State) (fn : Nat) (r : RegId) (i : Nat) : Bool :=
  fn == 0 || (s.opensVf fn r i && !r.pfWrites)

/-! ### Reads (R6, R8, R272) -/

/-- A function may read a register: what is open to it, but MEM_SECCLR, which a VF only writes (R348). -/
def State.readable (s : State) (fn : Nat) (r : RegId) (i : Nat) : Bool :=
  fn == 0 || (s.opensVf fn r i && r != .memSecclr)

/-- Eight bytes of the MTR_ window behind its registers (R410): the public key and the records that the hub has received. -/
def State.meterWindow (s : State) (o : Nat) : BitVec 64 :=
  let m := s.sys.meter
  if 0x1000 ≤ o ∧ o < 0x1040 then BitVec.ofNat 64 (leAt (m.shownKey.take 60) (o - 0x1000) 8)
  else if 0x10000 ≤ o ∧ o < 0x30000 then BitVec.ofNat 64 (leAt (m.shown.at ((o - 0x10000) / 0x2000)) (o % 0x2000) 8)
  else 0

/-- Eight bytes of a place in BAR0 that holds no register: the identity public key (R424), the MTR_ window (R410), or zero. -/
def State.windowRead (s : State) (off : Nat) : BitVec 64 :=
  if 0x00A0_0300 ≤ off ∧ off < 0x00A0_0340 then BitVec.ofNat 64 (leAt (s.sys.idKey.take 60) (off - 0x00A0_0300) 8)
  else if 0x00B0_0000 ≤ off ∧ off < 0x00C0_0000 then s.meterWindow (off - 0x00B0_0000)
  else 0

/-- What an aligned 8-byte read of BAR0 returns, and what it leaves: a register that is not open to the function and an
offset without a register reads what its window holds (R410, R424), else zero; RC fields take their reset values (R8);
LOG_DHI, SPN_TRC_DHI and AWL_MDATA advance their address (R473, R329, R236); of PAD_HOLD a function reads its own banks
(R440). -/
def State.readBar0 (s : State) (fn off : Nat) : BitVec 64 × State :=
  match regAt fn off with
  | none => (s.windowRead off, s)
  | some (r, i) =>
    if s.readable fn r i = false then (0, s)
    else match r with
      | .logDhi => (s.readReg r i, s.advanceLog)
      | .spnTrcDhi => (s.readReg r i, s.advanceTrace)
      | .awlMdata => s.readMdata i
      | .padHold => (s.readReg r i &&& (BitVec.ofNat 64 (2 ^ 16) ||| (s.banksOf fn).setWidth 64), s)
      | _ => (s.readReg r i, s.clearRc r i)

/-- BAR0_BAD_ACCESS (R6): an access of BAR0 that is not 8 bytes wide or not 8-byte aligned reads zero or is discarded, with
a BADACCESS entry; until STATE is DONE a write to a block that does not answer yet is discarded without one (R455). The
read of the right shape, which has no row of its own, is the plain read of R8 (log entry 98). -/
def execBar0BadAccess (fn : FnId) (off : BitVec 26) (len : Nat) (write : Bool) (s : State) : Result :=
  let o := off.toNat
  if s.hostOn = false then .next s
  else if badShape o len then
    let logged := !write || s.barOpen o || srcOfOffset o == 0x0F
    let s := if logged then s.logEntry (srcOfOffset o) 0x2002 (o + fn * 2 ^ 26 + write.toNat * 2 ^ 31) else s
    .next (if write then s else s.emit (.readData fn (List.replicate len 0)))
  else if write then .fault .illFormed
  else if s.barOpen o = false then .next (s.emit (.readData fn (List.replicate 8 0)))
  else
    let (v, s) := s.readBar0 fn o
    .next (s.emit (.readData fn (leBytes v.toNat 8)))

/-! ### Writes that a Meaning column or a rule refuses -/

/-- A stream's TASK, CLASS, KIND or OWNER changes. -/
def State.bindingChanges (s : State) (st : Nat) (v : BitVec 64) : Bool :=
  fieldOf F.colStrCfg_class v != s.getN F.colStrCfg_class st || fieldOf F.colStrCfg_kind v != s.getN F.colStrCfg_kind st ||
    fieldOf F.colStrCfg_task v != s.getN F.colStrCfg_task st || fieldOf F.colStrCfg_owner v != s.getN F.colStrCfg_owner st

/-- A source that delivers work items (R239). -/
def itemSource (m : Nat) : Bool := decide (m < 64) || decide (576 ≤ m ∧ m < 592) || decide (768 ≤ m ∧ m < 896)

/-- The floor of GAP in a mode (R13, R177). -/
def State.gapFloor (s : State) (mode : Nat) : Nat := if mode = 0 then 2 else max 2 (s.getN F.fstTiming_gfloor 0)

/-- QCT_CFG refused (R13, R44); a second region never becomes SYSTEM (R159). -/
def State.cfgRefused (s : State) (r : Nat) (v : BitVec 64) : Bool :=
  let l := fieldOf F.qctCfg_len v
  s.qstate r != Q.unbound ||
    (fieldOf F.qctCfg_mode v == 1 && l != 0 && (List.range 16).any fun k => k != r && s.systemMode k && s.len k != 0) || (l != 0 && (decide (l < 4 ∨ 32 < l) ||
    decide (fieldOf F.qctCfg_gap v < s.gapFloor (fieldOf F.qctCfg_mode v))))

/-- The sum of the four delay-list capacities with CAP of list `i` replaced (R257). -/
def State.dlCapsWith (s : State) (i cap : Nat) : Nat :=
  ((List.range 4).map fun k => if k = i then cap else s.getN F.colDlCfg_cap k).sum

/-- A write by a function that may make it is refused. -/
def State.rangeRefused (s : State) (fn : Nat) (r : RegId) (i : Nat) (v : BitVec 64) : Bool :=
  match r with
  | .hubB2win => decide (1023 < fieldOf F.hubB2win_sbase v ∨ 12287 < fieldOf F.hubB2win_wbase v)
  | .colCtl => fieldOf F.colCtl_yield_cyc v == 0 || fieldOf F.colCtl_fault_max v == 0
  | .colDlCfg =>
    let t := fieldOf F.colDlCfg_tick v
    decide (4194304 < s.dlCapsWith i (fieldOf F.colDlCfg_cap v) ∨ t < 10 ∨ 100000 < t) ||
      (t != s.getN F.colDlCfg_tick i && s.getN F.colDlCfg_used i != 0)
  | .colEv => !itemSource i && !s.bitF F.colStrCfg_kind (fieldOf F.colEv_stream v)
  | .colLock => decide (16 < fieldOf F.colLock_owner v) || s.bitF F.colLock_held i || s.getN F.colLock_waiters i != 0
  | .colStrCfg =>
    let o := fieldOf F.colStrCfg_owner v
    let l := fieldOf F.colStrCfg_limit v
    decide (16 < o) || fieldOf F.colStrCfg_class v == 3 || decide (l < 1 ∨ 64 < l) ||
      s.getN F.colTskCfg_owner (fieldOf F.colStrCfg_task v) != o ||
      (s.bitF F.colStrCfg_en i && s.bindingChanges i v) || (fn != 0 && o != s.getN F.colStrCfg_owner i)
  | .colTskCfg =>
    let o := fieldOf F.colTskCfg_owner v
    decide (16 < o) || (fn != 0 && o != s.getN F.colTskCfg_owner i)
  | .spnRg => decide (1024 < fieldOf F.spnRg_rate v)
  | .spnPrbCfg =>
    fieldOf F.spnPrbCfg_thresh v == 0 || decide (4 < fieldOf F.spnPrbCfg_mode v ∨ 20 < fieldOf F.spnPrbCfg_station v)
  | .memScrub => fieldOf F.memScrub_period_h v == 0
  | .memRetrain => fieldOf F.memRetrain_period_ms v == 0
  | .qctCfg => s.cfgRefused i v
  | .qctCadPat => s.qstate (i / 64) != Q.unbound
  | .qctCadLen => s.qstate (i / 64) != Q.unbound || decide (64 < fieldOf F.qctCadLen_len v)
  | .qctTokenTo => fieldOf F.qctTokenTo_to_us v == 0
  | .fstSys =>
    s.systemBound && (fieldOf F.fstSys_devidx v != s.getN F.fstSys_devidx 0 || fieldOf F.fstSys_root v != s.getN F.fstSys_root 0 ||
      fieldOf F.fstSys_syncport v != s.getN F.fstSys_syncport 0)
  | .fstSysmask => s.systemBound || !v.getLsbD s.devIdx
  | .fstBound => fieldOf F.fstBound_wait_to_ms v == 0
  | .padBank => fieldOf F.padBank_slew v == 3 || fieldOf F.padBank_drive v == 3
  | .gthQwm =>
    let n := s.getN F.gthQdesc_size i
    decide (n < fieldOf F.gthQwm_high v ∨ n < fieldOf F.gthQwm_low v)
  | _ => false

/-- The status bit that records a refusal, where the register or its block has one. -/
def State.rejBit (s : State) (r : RegId) (i : Nat) : State :=
  match r with
  | .colCtl | .colDlCfg | .colEv | .colLock | .colStrCfg | .colTskCfg => s.colRej
  | .spnPrbCfg => s.setF F.spnPrbCfg_rej i
  | .qctCfg | .qctTokenTo => s.setF F.qctStatus_cfg_rej i
  | .qctCadPat | .qctCadLen => s.setF F.qctStatus_cfg_rej (i / 64)
  | .fstSys | .fstSysmask | .fstBound => s.setF F.fstSys_rej 0
  | .padBank => s.setF F.padBank_rej i
  | .gthQwm => s.setF F.gthQwm_rej i
  | _ => s

/-- What follows an accepted write: the Collator looks at its streams again; a delay list starts its ticks anew; a
regulator's TOKENS are cut to BURST + 1 (R331); with STOPFULL = 0 the trace goes on (R329). -/
def State.afterWrite (s : State) (r : RegId) (i : Nat) : State :=
  match r with
  | .colStrCfg => s.settle.refreshStream i
  | .fstSys => s.syncLock
  | .spnRg => s.putN F.spnRg_tokens i (min (s.getN F.spnRg_tokens i) (s.getN F.spnRg_burst i + 1))
  | .spnTrcCtl => if s.bitF F.spnTrcCtl_stopfull 0 then s else { s with ring := { s.ring with traceFull := false } }
  | .colFn | .colTskCfg | .colTskCores => s.settle
  | .colDlCfg => s.updDelay i fun d => if d.calendar.isEmpty && d.tail.isEmpty then { d with now := 0 } else d
  | _ => s

/-- Item sources ignore STREAM (R266). -/
def maskedValue (r : RegId) (i : Nat) (v : BitVec 64) : BitVec 64 :=
  if r = .colEv ∧ itemSource i = true then v &&& ~~~0xFFF#64 else v

/-- A write of a register whose rules give it no action of its own. -/
def State.writePlain (s : State) (fn : Nat) (r : RegId) (i : Nat) (v : BitVec 64) : State :=
  if s.opens fn r i then
    s.writeReg fn r i (maskedValue r i v) (s.rangeRefused fn r i v) (fun s => s.rejBit r i) fun s => s.afterWrite r i
  else s.ignored fn r i

/-- A word of a function's MSI-X table (the layout is log entry 8): a vector unmasked while it pends is signalled. -/
def State.writeMsix (s : State) (fn i : Nat) (v : BitVec 64) : State :=
  let vec := i % 512 / 2
  if tableSize fn ≤ vec then s
  else
    let s := s.setReg .hubMsixTbl i (if i % 2 = 0 then v &&& ~~~3#64 else v &&& 0x1_FFFF_FFFF#64)
    let p := fn * 4 + vec / 64
    if i % 2 = 1 ∧ v.getLsbD 32 = false ∧ (s.reg .hubMsixPba p).getLsbD (vec % 64) = true then
      (s.setReg .hubMsixPba p (s.reg .hubMsixPba p &&& ~~~(1#64 <<< (vec % 64)))).signal fn vec
    else s

/-- A write of QCT_CTL: RETRY and INJECT are never both permitted. -/
def State.writeQctCtl (s : State) (fn : FnId) (r : RegionId) (v : BitVec 64) : State :=
  if v.getLsbD 0 && v.getLsbD 1 then
    if ownsRegion fn r then (s.logRefused fn (RegId.qctCtl.offset r)).setF F.qctStatus_cfg_rej r else s.ignored fn .qctCtl r
  else if v.getLsbD 0 then
    let (bad, s) := s.draw 2
    s.qctRetry fn r v bad
  else s.qctInject fn r v

/-- Free bytes: what the host's memory holds, where the command does not say. -/
def State.drawBytes (s : State) (n : Nat) : List Byte × State :=
  let (b, s) := s.draw (8 * n)
  (leBytes b.toNat n, s)

/-- A write of a register, whichever it is. -/
def State.writeAny (s : State) (fn : FnId) (r : RegId) (i : Nat) (v : BitVec 64) : State :=
  let rg : RegionId := Fin.ofNat 16 i
  match r with
  | .hubMsixTbl => s.writeMsix fn i v
  | .hubMsixPba => s
  | .hubHqCfg => s.writeHqCfg fn i v
  | .hubHqSq | .hubHqAq | .hubHqRq | .hubHqXq | .hubHqXstg => s.writeHqBase fn r i v
  | .hubDbSqt => s.doorbell fn i F.hubDbSqt_index v none fun _ s => s
  | .hubDbAqh =>
    s.doorbell fn i F.hubDbAqh_index v (some (s.hq i).aqOut) fun k s => s.updHq i fun q => { q with aqOut := q.aqOut - k }
  | .hubDbRqh =>
    s.doorbell fn i F.hubDbRqh_index v (some (s.hq i).rqOut) fun k s =>
      (s.updHq i fun q => { q with rqOut := q.rqOut - k }).drainRq i
  | .hubDbXqh =>
    s.doorbell fn i F.hubDbXqh_index v (some (s.hq i).xqOut) fun k s => s.updHq i fun q => { q with xqOut := q.xqOut - k }
  | .hubReset => s.writeReset fn v 0 0
  | .hubBootpol => if v.getLsbD 62 then (s.draw 1).2.writeBootpol fn v ((s.draw 1).1 == 1#1) else s.writeBootpol fn v true
  | .colTim => s.writeTim fn i v
  | .colStrStat => s.writeStrStat fn i v
  | .colStrRsb => s.writeRsb fn i v
  | .colStrAcc => s.writeAcc fn i v
  | .spnSta => s.writeSta fn i v
  | .memRetire => s.writeRetire fn v
  | .memSecclr => s.writeSecclr fn v
  | .memPart => s.writePart fn i v
  | .bndCtl => s.writeBndCtl fn v
  | .bndSrc => s.writeBndSrc fn i v
  | .bndCmd =>
    if i = 17 ∧ Cmd.go v = true then
      (s.drawBytes (fieldOf F.bndCmd_len v)).2.writeBndCmd fn i v (s.drawBytes (fieldOf F.bndCmd_len v)).1
    else s.writeBndCmd fn i v []
  | .bndStat => s.writeBndStat fn i v
  | .bndCase => s.writeBndCase fn i v
  | .bndLimit => s.writeBndLimit fn i v
  | .qctCtl => s.writeQctCtl fn rg v
  | .qctHold => if v.getLsbD 62 then (s.draw 192).2.writeHold fn rg v (s.draw 192).1 else s.writeHold fn rg v 0
  | .qctRbSel => s.writeRbSel fn rg v
  | .qctRbDst | .qctBmkDst => s.writeDst fn r rg v
  | .qctBmkCtl => s.writeBmkCtl fn rg v
  | .fstPortCfg => s.writePortCfg fn i v
  | .pwrDom => s.writeDom fn i v
  | .clkAclk => s.writeAclk fn v
  | .pwrVarr => s.writeVarr fn v
  | .pwrStatus => s.writePwrStatus fn v
  | .pwrWakecfg => s.writeWakecfg fn v
  | .timAdj => s.writeTimAdj fn v
  | .timUncert => s.writeTimUncert fn v
  | .logCtl => s.writeLogCtl fn v
  | .truOtpcmd => s.writeOtpCmd fn v
  | .truAttCmd => s.writeAttCmd fn i v
  | .truAttNonce => s.writeNonce fn i v
  | .upkEng => s.writeEng fn i v
  | .upkColmap => s.writeColmap fn i v
  | .upkColrep => s.writeColrep fn v
  | .upkLane => s.writeLane fn v
  | .padHold => s.writePadHold fn v
  | .awlCtl => s.writeAwlCtl fn i v
  | .awlMaddr => s.writeMaddr fn i v
  | .awlMdata => s.writeMdata fn i v
  | _ => s.writePlain fn r i v

/-- A write to the meter's window is ignored and logged, whichever function makes it (R410). -/
def inMeterWindow (off : Nat) : Bool := off / 0x10_0000 == 0xB

/-- REGISTER_WRITE: an aligned 8-byte write of BAR0; offsets without a register ignore it. -/
def execRegisterWrite (fn : FnId) (off : BitVec 26) (v : BitVec 64) (s : State) : Result :=
  let o := off.toNat
  if o % 8 ≠ 0 then .fault .illFormed
  else
    .next <| if s.barOpen o = false then s
      else if inMeterWindow o then s.logRefused fn o
      else match regAt fn o with
        | some (r, i) => s.writeAny fn r i v
        | none => s

end Sys2Proof.Machine
end

