-- ==== Sys2Proof/Machine/Bus.lean ====
section
/-!
DEFINITION. The commands of the I3C and I2C bus and of the JTAG port (20_package_and_board.md R484 to R489).
-/
namespace Sys2Proof.Machine

/-! ### The hub target (R485) -/

/-- A target answers: the hub's once HUB is up, the meter's while the meter runs; neither while VSB is absent. -/
def State.targetUp (s : State) : BusTarget → Bool
  | .hub => s.sys.vsb && s.domOn 2
  | .meter => s.meterAnswers

/-- What STATUS makes the next private read of the hub target return: 24 bytes. -/
def State.statusBytes (s : State) : List Byte :=
  leBytes (s.refreshPower.reg .pwrStatus 0).toNat 8 ++ leBytes (s.reg .hubBoot 0).toNat 8 ++ leBytes (s.reg .pwrWake 0).toNat 8

/-- HUB_STATUS_CMD. -/
def execHubStatusCmd (s : State) : Result :=
  .next (if s.targetUp .hub then (s.onSys fun y => { y with statusRead := true }) else s)

/-- HUB_VOTE_CMD: vote bit 18 of each domain in bits 9:0, to bit 15. -/
def execHubVoteCmd (arg : BitVec 16) (s : State) : Result :=
  .next <| if s.targetUp .hub then
      ((List.range 10).filter fun d => arg.getLsbD d && decide (2 ≤ d)).foldl (fun (s : State) d =>
        s.vote d 18 (arg.getLsbD 15)) s
    else s

/-! ### Dynamic addresses (R484) -/

/-- A target's dynamic address, 0 where it has none. -/
def State.busAddr (s : State) : BusTarget → BitVec 7
  | .hub => s.getF F.padI3c_dynaddr 0
  | .meter => s.meter.dynAddr

def State.setBusAddr (s : State) (t : BusTarget) (a : BitVec 7) : State :=
  match t with
  | .hub => s.putF F.padI3c_dynaddr 0 a
  | .meter => s.updMeter fun m => { m with dynAddr := a }

/-- A dynamic address is given to a target that has none. -/
def State.assignAddr (s : State) (t : BusTarget) (da : BitVec 7) : State :=
  if s.targetUp t && s.busAddr t == 0 then s.setBusAddr t da else s

/-- ENTDAA. -/
def execEntdaa (t : BusTarget) (da : BitVec 7) (s : State) : Result := .next (s.assignAddr t da)

/-- SETDASA: to a target that still keeps its static address. -/
def execSetdasa (t : BusTarget) (da : BitVec 7) (s : State) : Result := .next (s.assignAddr t da)

/-- SETNEWDA: to a target that has a dynamic address. -/
def execSetnewda (t : BusTarget) (da : BitVec 7) (s : State) : Result :=
  .next (if s.targetUp t && s.busAddr t != 0 && da != 0 then s.setBusAddr t da else s)

/-- RSTDAA: every target that answers keeps its static address again. -/
def execRstdaa (s : State) : Result :=
  .next <| ([.hub, .meter] : List BusTarget).foldl (fun (s : State) t =>
    if s.targetUp t then s.setBusAddr t 0 else s) s

/-- The answer of a target to a CCC. -/
def State.ccc (s : State) (t : BusTarget) (bytes : List Byte) : State :=
  if s.targetUp t then s.emit (.busRead t bytes) else s

def busBytes (t : BusTarget) (ccc n : Nat) : List Byte := (List.range n).map (Config.busByte t ccc)

/-- GETPID: six bytes. -/
def execGetpid (t : BusTarget) (s : State) : Result := .next (s.ccc t (busBytes t 0x8D 6))
/-- GETBCR. -/
def execGetbcr (t : BusTarget) (s : State) : Result := .next (s.ccc t (busBytes t 0x8E 1))
/-- GETDCR. -/
def execGetdcr (t : BusTarget) (s : State) : Result := .next (s.ccc t (busBytes t 0x8F 1))
/-- GETMWL: two bytes. -/
def execGetmwl (t : BusTarget) (s : State) : Result := .next (s.ccc t (busBytes t 0x8B 2))
/-- GETMRL: two bytes. -/
def execGetmrl (t : BusTarget) (s : State) : Result := .next (s.ccc t (busBytes t 0x8C 2))

/-- GETSTATUS: two bytes, which no rule states. -/
def execGetstatus (t : BusTarget) (s : State) : Result :=
  .next <| if s.targetUp t then
      let (b, s) := s.draw 16
      s.ccc t (leBytes b.toNat 2)
    else s

/-! ### JTAG (R487 to R489) -/

/-- The lands of the port are powered. -/
def State.withJtag (s : State) (f : State → State) : State := if s.sys.vsb then f s else s

def State.setJtag (s : State) (j : Jtag) : State := s.onSys fun y => { y with jtag := j }

/-- The one-bit bypass register, which captures 0. -/
def State.bypass (s : State) (j : Jtag) : State := (s.setJtag j).emit (.capture 1 0)

/-- JTAG_BYPASS. -/
def execJtagBypass (s : State) : Result := .next (s.withJtag fun s => s.bypass .bypass)

/-- IDCODE. -/
def execIdcode (s : State) : Result :=
  .next <| s.withJtag fun s =>
    (s.setJtag .idcode).emit (.capture 32 (s.getN F.hubId_sirev_maj 0 * 2 ^ 28 + 0x2410 * 2 ^ 12 + 0x0E9 * 2 + 1))

/-- Output cells of pads that nothing drives are not told: `idle` fills them. SCL and SDA are released between transfers. -/
def State.outputCell (s : State) (idle : BitVec 192) (c : Nat) : Bool :=
  if c < 576 then
    match s.padDrive (c / 3) with
    | .hiZ => c % 3 == 1 && idle.getLsbD (c / 3)
    | .low => c % 3 == 2
    | .high => true
  else if c = 581 then !s.fst.pull
  else if c = 583 then !s.alert
  else true

/-- An input cell of the boundary register (R488). -/
def inputCell (c : Nat) : Bool := (decide (c < 576) && c % 3 == 0) || (decide (576 ≤ c) && (c % 2 == 0 || decide (584 ≤ c)))

/-- What Capture-DR samples: input cells from the lands, the others from what the device drives. -/
def State.sample (s : State) (pins : BitVec 589) (idle : BitVec 192) : Nat :=
  (List.range 589).foldl (fun n c =>
    n + (if inputCell c then pins.getLsbD c else s.outputCell idle c).toNat * 2 ^ c) 0

/-- The boundary register captured, and its update cells loaded. -/
def State.boundaryScan (s : State) (j : Jtag) (pins preload : BitVec 589) : State :=
  let (idle, s) := s.draw 192
  let v := s.sample pins idle
  (s.onSys fun y => { y with jtag := j, boundary := preload }).emit (.capture 589 v)

/-- SAMPLE_PRELOAD. -/
def execSamplePreload (pins preload : BitVec 589) (s : State) : Result :=
  .next (s.withJtag fun s => s.boundaryScan .sample pins preload)

/-- EXTEST: while every region is UNBOUND; what stands on the lands at its capture is not told. -/
def execExtest (preload : BitVec 589) (s : State) : Result :=
  .next <| s.withJtag fun s =>
    if s.allUnbound then
      let (pins, s) := s.draw 589
      s.boundaryScan .extest pins preload
    else s.bypass .bypass

/-- CLAMP: outputs from the boundary register, the bypass register selected. -/
def execClamp (s : State) : Result :=
  .next (s.withJtag fun s => s.bypass (if s.allUnbound then .clamp else .bypass))

/-- HIGHZ. -/
def execHighz (s : State) : Result :=
  .next (s.withJtag fun s => s.bypass (if s.allUnbound then .highz else .bypass))

/-- The context whose load is served from JTAG (R489). -/
def State.jtagCtx (s : State) : Option Nat :=
  match s.sys.current with
  | some j => if j.srcsel = 3 then some j.ctx else none
  | none => none

/-- BNDSTREAM: one byte of the image. -/
def execBndstream (b : Byte) (s : State) : Result :=
  .next <| s.withJtag fun s =>
    let s := s.setJtag .bndstream
    if s.jtagCtx.isSome then (s.onSys fun y => { y with inBuf := y.inBuf ++ [b] }) else s

/-- BNDSTAT: BND_xSTAT of the context served from JTAG, or zero. -/
def execBndstat (s : State) : Result :=
  .next <| s.withJtag fun s =>
    (s.setJtag .bndstat).emit (.capture 64 (match s.jtagCtx with
      | some x => (s.reg .bndStat x).toNat
      | none => 0))

end Sys2Proof.Machine
end

