-- ==== Sys2Proof/Machine/CellAlu.lean ====
section
/-!
DEFINITION. The cell opcodes of the no-operation, arithmetic, logic, shift, select and reduction groups
(R81 to R91, R106).
-/
namespace Sys2Proof.Machine

/-! ### Parts shared by opcodes -/

/-- The outcome of a CELL command: the cell's leaf executes. -/
def cellNext (s : State) (op : CellOp) (body : CellBody) (c : CellAddr) (k : LeafNo) : Result :=
  .next (s.runCell op body (cellAddrNo c) k)

/-- A result whose residue is generated from the first logic-unit copy (R68), with Z and N of it. -/
def generated (x : CellAt) (s : State) (d : Word) : CellResult :=
  { value := some (gen d), flags := some ((s.cell x.key).v.work.f.withZN d), tested := some d }

/-- A shift: Z and N of the result, C the last bit out (R89). -/
def shifted (x : CellAt) (s : State) (d : Word) (c : Bool) : CellResult :=
  { value := some (gen d), flags := some ((s.cell x.key).v.work.f.withCZN c d), tested := some d }

/-- The amount or position that R88 selects. -/
def shiftAmt (x : CellAt) (c : RWord) : Nat :=
  if Imm.dyn (Leaf.imm x.leaf) then (c.d.extractLsb' 0 6).toNat else Imm.amt (Leaf.imm x.leaf)

/-- A comparison by the internal sum A + NOT B + 1, whose flags it writes; the adder's predicted residue is checked
against the residue of the sum (R80, R83). -/
def compared (x : CellAt) (a b : RWord) (s : State) (d : Word) : CellResult × State :=
  let cout := coutOf a.d (~~~b.d) true
  let bad := (a.r == badRes || b.r == badRes) || predSub a b true != resCode (sumOf a.d (~~~b.d) true).toNat
  ({ value := some (if bad then ⟨d, badRes⟩ else gen d), flags := some (subFlags a.d b.d true), cout, tested := some d },
    s.chargeIf bad x.r 0x01 x.g)

/-! ### No-operation, hold and move (R106) -/

def bodyNop : CellBody := fun _ _ _ _ s => ({}, s)

def bodyHold : CellBody := fun x _ _ _ s => ({}, s.updCell x.key fun c => { c with heldIn := x.t / 64 })

/-- A to DST with A's residue unchanged. -/
def bodyMov : CellBody := fun x a _ _ s =>
  ({ value := some a, flags := some ((s.cell x.key).v.work.f.withZN a.d), tested := some a.d }, s)

/-! ### Arithmetic and compare (R81 to R85) -/

def bodyAdd : CellBody := fun x a b _ s =>
  let (cin, pairBad, flagBad, s) := s.carryIn x
  let d := sumOf a.d b.d cin
  let r := if a.r = badRes ∨ b.r = badRes ∨ flagBad ∨ pairBad then badRes else predAdd a b cin
  ({ value := some ⟨d, r⟩, flags := some (addFlags a.d b.d cin), cout := coutOf a.d b.d cin, tested := some d }, s)

def bodySub : CellBody := fun x a b _ s =>
  let (cin, pairBad, flagBad, s) := s.carryIn x
  let d := sumOf a.d (~~~b.d) cin
  let r := if a.r = badRes ∨ b.r = badRes ∨ flagBad ∨ pairBad then badRes else predSub a b cin
  ({ value := some ⟨d, r⟩, flags := some (subFlags a.d b.d cin), cout := coutOf a.d (~~~b.d) cin, tested := some d }, s)

/-- No result; its flags, and the check of its predicted residue in the cell itself (R80, R82). -/
def bodyCmp : CellBody := fun x a b _ s =>
  let (cin, _, flagBad, s) := s.carryIn x
  let d := sumOf a.d (~~~b.d) cin
  let bad := a.r == badRes || b.r == badRes || flagBad || predSub a b cin != resCode d.toNat
  ({ flags := some (subFlags a.d b.d cin), cout := coutOf a.d (~~~b.d) cin, tested := some d },
    s.chargeIf bad x.r 0x01 x.g)

def bodyLtu : CellBody := fun x a b _ s => compared x a b s (bool40 (!coutOf a.d (~~~b.d) true))

def bodyLts : CellBody := fun x a b _ s =>
  compared x a b s (bool40 (nOf (sumOf a.d (~~~b.d) true) != subV a.d b.d true))

def bodyEq : CellBody := fun x a b _ s => compared x a b s (bool40 (zOf (sumOf a.d (~~~b.d) true)))

/-! ### Logic (R86, R87) -/

def bodyLut3 : CellBody := fun x a b c s => (generated x s (lut3Word (Leaf.imm x.leaf) a.d b.d c.d), s)
def bodyAnd : CellBody := fun x a b _ s => (generated x s (a.d &&& b.d), s)
def bodyOr : CellBody := fun x a b _ s => (generated x s (a.d ||| b.d), s)
def bodyXor : CellBody := fun x a b _ s => (generated x s (a.d ^^^ b.d), s)
def bodyAndn : CellBody := fun x a b _ s => (generated x s (a.d &&& ~~~b.d), s)

/-! ### Shift and field (R88, R89) -/

def bodyShl : CellBody := fun x a _ c s => (shifted x s (shlWord a.d (shiftAmt x c)) (shlC a.d (shiftAmt x c)), s)
def bodyShr : CellBody := fun x a _ c s => (shifted x s (shrWord a.d (shiftAmt x c)) (shrC a.d (shiftAmt x c)), s)
def bodySar : CellBody := fun x a _ c s => (shifted x s (sarWord a.d (shiftAmt x c)) (sarC a.d (shiftAmt x c)), s)
def bodyRol : CellBody := fun x a _ c s => (shifted x s (rolWord a.d (shiftAmt x c)) (rolC a.d (shiftAmt x c)), s)
def bodyExt : CellBody := fun x a _ c s =>
  (generated x s (extWord a.d (shiftAmt x c) (Imm.wid (Leaf.imm x.leaf))), s)
def bodyExts : CellBody := fun x a _ c s =>
  (generated x s (extsWord a.d (shiftAmt x c) (Imm.wid (Leaf.imm x.leaf))), s)
def bodyIns : CellBody := fun x a b c s =>
  (generated x s (insWord a.d b.d (shiftAmt x c) (Imm.wid (Leaf.imm x.leaf))), s)
def bodyFsh : CellBody := fun x a b c s => (generated x s (fshWord a.d b.d (shiftAmt x c)), s)

/-! ### Select (R90) -/

def bodySel : CellBody := fun x a b c s => (generated x s (if c.d.getLsbD 0 then a.d else b.d), s)
def bodyBsel : CellBody := fun x a b c s => (generated x s ((a.d &&& c.d) ||| (b.d &&& ~~~c.d)), s)
def bodyMaxu : CellBody := fun x a b _ s => (generated x s (if a.d.ult b.d then b.d else a.d), s)
def bodyMinu : CellBody := fun x a b _ s => (generated x s (if b.d.ult a.d then b.d else a.d), s)
def bodyMaxs : CellBody := fun x a b _ s => (generated x s (if a.d.slt b.d then b.d else a.d), s)
def bodyMins : CellBody := fun x a b _ s => (generated x s (if b.d.slt a.d then b.d else a.d), s)

/-! ### Reduction (R91) -/

/-- A AND IMM. -/
def masked (x : CellAt) (a : RWord) : Word := a.d &&& Leaf.imm x.leaf

def bodyRdor : CellBody := fun x a _ _ s => (generated x s (bool40 (masked x a != 0)), s)
def bodyRdand : CellBody := fun x a _ _ s => (generated x s (bool40 (masked x a == Leaf.imm x.leaf)), s)
def bodyRdxor : CellBody := fun x a _ _ s => (generated x s (bool40 (onesCount (masked x a) % 2 == 1)), s)
def bodyLzc : CellBody := fun x a _ _ s => (generated x s (BitVec.ofNat 40 (leadZeros (masked x a))), s)
def bodyPopc : CellBody := fun x a _ _ s => (generated x s (BitVec.ofNat 40 (onesCount (masked x a))), s)
def bodyTzc : CellBody := fun x a _ _ s => (generated x s (BitVec.ofNat 40 (trailZeros (masked x a))), s)

/-! ### The commands -/

def execCellNop (c : CellAddr) (k : LeafNo) (s : State) : Result := cellNext s .nop bodyNop c k
def execCellHold (c : CellAddr) (k : LeafNo) (s : State) : Result := cellNext s .hold bodyHold c k
def execCellMov (c : CellAddr) (k : LeafNo) (s : State) : Result := cellNext s .mov bodyMov c k
def execCellAdd (c : CellAddr) (k : LeafNo) (s : State) : Result := cellNext s .add bodyAdd c k
def execCellSub (c : CellAddr) (k : LeafNo) (s : State) : Result := cellNext s .sub bodySub c k
def execCellCmp (c : CellAddr) (k : LeafNo) (s : State) : Result := cellNext s .cmp bodyCmp c k
def execCellLtu (c : CellAddr) (k : LeafNo) (s : State) : Result := cellNext s .ltu bodyLtu c k
def execCellLts (c : CellAddr) (k : LeafNo) (s : State) : Result := cellNext s .lts bodyLts c k
def execCellEq (c : CellAddr) (k : LeafNo) (s : State) : Result := cellNext s .eq bodyEq c k
def execCellLut3 (c : CellAddr) (k : LeafNo) (s : State) : Result := cellNext s .lut3 bodyLut3 c k
def execCellAnd (c : CellAddr) (k : LeafNo) (s : State) : Result := cellNext s .and bodyAnd c k
def execCellOr (c : CellAddr) (k : LeafNo) (s : State) : Result := cellNext s .or bodyOr c k
def execCellXor (c : CellAddr) (k : LeafNo) (s : State) : Result := cellNext s .xor bodyXor c k
def execCellAndn (c : CellAddr) (k : LeafNo) (s : State) : Result := cellNext s .andn bodyAndn c k
def execCellShl (c : CellAddr) (k : LeafNo) (s : State) : Result := cellNext s .shl bodyShl c k
def execCellShr (c : CellAddr) (k : LeafNo) (s : State) : Result := cellNext s .shr bodyShr c k
def execCellSar (c : CellAddr) (k : LeafNo) (s : State) : Result := cellNext s .sar bodySar c k
def execCellRol (c : CellAddr) (k : LeafNo) (s : State) : Result := cellNext s .rol bodyRol c k
def execCellExt (c : CellAddr) (k : LeafNo) (s : State) : Result := cellNext s .ext bodyExt c k
def execCellExts (c : CellAddr) (k : LeafNo) (s : State) : Result := cellNext s .exts bodyExts c k
def execCellIns (c : CellAddr) (k : LeafNo) (s : State) : Result := cellNext s .ins bodyIns c k
def execCellFsh (c : CellAddr) (k : LeafNo) (s : State) : Result := cellNext s .fsh bodyFsh c k
def execCellSel (c : CellAddr) (k : LeafNo) (s : State) : Result := cellNext s .sel bodySel c k
def execCellBsel (c : CellAddr) (k : LeafNo) (s : State) : Result := cellNext s .bsel bodyBsel c k
def execCellMaxu (c : CellAddr) (k : LeafNo) (s : State) : Result := cellNext s .maxu bodyMaxu c k
def execCellMinu (c : CellAddr) (k : LeafNo) (s : State) : Result := cellNext s .minu bodyMinu c k
def execCellMaxs (c : CellAddr) (k : LeafNo) (s : State) : Result := cellNext s .maxs bodyMaxs c k
def execCellMins (c : CellAddr) (k : LeafNo) (s : State) : Result := cellNext s .mins bodyMins c k
def execCellRdor (c : CellAddr) (k : LeafNo) (s : State) : Result := cellNext s .rdor bodyRdor c k
def execCellRdand (c : CellAddr) (k : LeafNo) (s : State) : Result := cellNext s .rdand bodyRdand c k
def execCellRdxor (c : CellAddr) (k : LeafNo) (s : State) : Result := cellNext s .rdxor bodyRdxor c k
def execCellLzc (c : CellAddr) (k : LeafNo) (s : State) : Result := cellNext s .lzc bodyLzc c k
def execCellPopc (c : CellAddr) (k : LeafNo) (s : State) : Result := cellNext s .popc bodyPopc c k
def execCellTzc (c : CellAddr) (k : LeafNo) (s : State) : Result := cellNext s .tzc bodyTzc c k

end Sys2Proof.Machine
end

