-- ==== Sys2Proof/Machine/CellFolio.lean ====
section
/-!
DEFINITION. The cell opcodes that use a folio block or a press block (R92 to R101, R107).
-/
namespace Sys2Proof.Machine

/-- The word of a read reaches its destination on the edge that ends the next leaf (R95); it is the tested value. -/
def folioReturn (x : CellAt) (w : RWord) (s : State) : CellResult × State :=
  let sw := s.cellWrites x
  let namesS := decide ((Leaf.dst x.leaf).toNat % 32 < 16 ∧ (Leaf.dst x.leaf).toNat < 0x30)
  let s := s.updCell x.key fun c =>
    { c with returns := c.returns ++ [{ at_ := x.t, dst := Leaf.dst x.leaf, cw := sw, w }] }
  let s := if sw && namesS then s.updGth x.g fun g => { g with wroteSW := true } else s
  ({ tested := some w.d }, s)

/-- A dropped request (R107, R140): cause 0x01, and a destination receives residue 0b11 with data no rule states. -/
def dropped (x : CellAt) (s : State) : State := s.charge x.r 0x01 x.g

def droppedRead (x : CellAt) (s : State) : CellResult × State :=
  let (d, s) := (dropped x s).draw 40
  folioReturn x ⟨d, badRes⟩ s

/-- The word of a stored entry as the block returns it: parity checked (cause 0x04), residue generated. -/
def checkedWord (x : CellAt) (h : Nat) (w : BitVec 44) (s : State) : RWord × State :=
  (gen (data44 w), s.chargeIf (badSlices w != 0) x.r 0x04 h)

/-- OFS, with A[10:0] added where AREG = 1 (R93). -/
def folioAddr (x : CellAt) (a : RWord) : Nat :=
  let i := Leaf.imm x.leaf
  if Imm.areg i then (Imm.ofs i + (a.d.extractLsb' 0 11).toNat) % 2048 else Imm.ofs i

def bodyFld : CellBody := fun x a _ _ s =>
  let i := Leaf.imm x.leaf
  match s.folioTarget x (Imm.tgt i) (Imm.portB i) with
  | none => droppedRead x s
  | some h =>
    if s.inQueue h (folioAddr x a) then droppedRead x s
    else
      let (w, s) := checkedWord x h ((s.gth h).folioRead x.t (folioAddr x a)) s
      folioReturn x w s

def bodyFst : CellBody := fun x a b _ s =>
  let i := Leaf.imm x.leaf
  match s.folioTarget x (Imm.tgt i) (Imm.portB i) with
  | none => ({}, dropped x s)
  | some h =>
    if s.inQueue h (folioAddr x a) then ({}, dropped x s)
    else
      let s := s.chargeIf (!b.ok) x.r 0x01 h
      if s.folioWrites x h 2 then ({}, s.updGth h fun g => g.folioWrite x.t (folioAddr x a) (storedForm b)) else ({}, s)

/-- The queue of a queue opcode, where it exists, is enabled and runs in the direction wanted (R140). -/
def queueTarget (x : CellAt) (out : Bool) (s : State) : Option Nat :=
  let i := Leaf.imm x.leaf
  match s.folioTarget x (Imm.tgt i) (Imm.portB i) with
  | none => none
  | some h => if s.qSize h (Imm.que i) ≠ 0 ∧ s.qOut h (Imm.que i) = out then some h else none

/-- The working pointer that a request acts on, its residue checked as the array reads it (R28, R69, R94). -/
def queuePointer (x : CellAt) (h n : Nat) (s : State) : Nat × State :=
  let q := ((s.gth h).queue.at n).pointer (Imm.portB (Leaf.imm x.leaf)) x.t
  (q.p, s.chargeIf (!q.ok) x.r 0x05 h)

/-- B at the working tail; a full queue takes nothing and raises a design check (R94, R97), also where a cadence
suppresses the request (log entry 108). -/
def bodyFpush : CellBody := fun x _ b _ s =>
  let n := Imm.que (Leaf.imm x.leaf)
  match queueTarget x true s with
  | none => ({}, dropped x s)
  | some h =>
    let (ap, s) := queuePointer x h n s
    if s.arrayCount h n ap (s.captured x.r h n) ≥ s.qSize h n then ({}, s.designCheck x)
    else
      let s := s.chargeIf (!b.ok) x.r 0x01 h
      if s.folioWrites x h (3 + n) then
        let s := s.updGth h fun g => g.folioWrite x.t (s.qAddr h n ap) (storedForm b)
        ({}, s.movePointer h n x.t ((ap + 1) % (2 * s.qSize h n)))
      else ({}, s)

/-- The word at the working head; the head advances where `pop` and no cadence suppresses it (R94, R97, R98). -/
def queueHead (pop : Bool) (x : CellAt) (s : State) : CellResult × State :=
  let n := Imm.que (Leaf.imm x.leaf)
  match queueTarget x false s with
  | none => droppedRead x s
  | some h =>
    let (ap, s) := queuePointer x h n s
    if s.arrayCount h n ap (s.captured x.r h n) = 0 then folioReturn x {} (s.designCheck x)
    else
      let (w, s) := checkedWord x h ((s.gth h).folioRead x.t (s.qAddr h n ap)) s
      let s := if pop && s.folioWrites x h (3 + n) then s.movePointer h n x.t ((ap + 1) % (2 * s.qSize h n)) else s
      folioReturn x w s

def bodyFpop : CellBody := fun x _ _ _ s => queueHead true x s
def bodyFpeek : CellBody := fun x _ _ _ s => queueHead false x s

/-! ### Press hand-off (R99, R100) -/

/-- A and B to the operand registers of a press block of the own gathering that names the cell. -/
def bodyPput : CellBody := fun x a b _ s =>
  let p := ((Leaf.imm x.leaf).extractLsb' 0 1).toNat
  let l := ((s.gth x.g).press.at p).leaf.at x.k
  if l.getLsbD 46 && (l.extractLsb' 40 6).toNat == x.key % 64 then
    let s := s.chargeIf (!a.ok || !b.ok) x.r 0x01 x.g
    ({}, s.updGth x.g fun g =>
      { g with press := g.press.upd p fun pr =>
          let o := (pr.ops.read x.t).1
          { pr with ops := pr.ops.write x.t { x := ⟨a, x.t⟩, y := ⟨b, x.t⟩, xd := o.x, yd := o.y } } })
  else ({}, dropped x s)

def bodyPget : CellBody := fun x _ _ _ s =>
  let i := Leaf.imm x.leaf
  let (w, at_) := ((((s.gth x.g).press.at (i.extractLsb' 0 1).toNat).rw.at (i.extractLsb' 1 2).toNat)).read x.t
  let (w, s) := s.defined x.t w at_
  let s := s.chargeIf (!w.ok) x.r 0x03 x.g
  ({ value := some w, flags := some ((s.cell x.key).v.work.f.withZN w.d), tested := some w.d }, s)

/-! ### Queue condition tests (R101) -/

/-- A test of the queue as it stands at the start of the leaf: of its count, size and watermarks in use. A test of a queue
beyond the quadrant, in another region or disabled is dropped as a request is (R107, R140; log entry 109). -/
def queueTest (f : Nat → Nat → Nat × Nat → Word) : CellBody := fun x _ _ _ s =>
  let i := Leaf.imm x.leaf
  let n := Imm.que i
  let flags (s : State) (d : Word) := some ((s.cell x.key).v.work.f.withZN d)
  match gthSide x.g (Imm.tgt i) with
  | some h =>
    if s.sameRegion x.g h ∧ s.qSize h n ≠ 0 then
      let ap := ((((s.gth h).queue.at n).apWork).read x.t).1
      let s := s.chargeIf (!ap.ok) x.r 0x05 h
      let d := f (s.arrayCount h n ap.p (s.captured x.r h n)) (s.qSize h n) ((s.capture x.r).wm.at (4 * h + n))
      ({ value := some (gen d), flags := flags s d, tested := some d }, s)
    else
      let (d, s) := (dropped x s).draw 40
      ({ value := some ⟨d, badRes⟩, flags := flags s d, tested := some d }, s)
  | none =>
    let (d, s) := (dropped x s).draw 40
    ({ value := some ⟨d, badRes⟩, flags := flags s d, tested := some d }, s)

def bodyQempty : CellBody := queueTest fun c _ _ => bool40 (c == 0)
def bodyQfull : CellBody := queueTest fun c sz _ => bool40 (c == sz)
def bodyQhigh : CellBody := queueTest fun c _ wm => bool40 (decide (wm.1 ≤ c))
def bodyQlow : CellBody := queueTest fun c _ wm => bool40 (decide (c ≤ wm.2))
def bodyQcount : CellBody := queueTest fun c _ _ => BitVec.ofNat 40 c

/-! ### Hinge and pad inputs (R102 to R104) -/

def hingeOf (x : CellAt) (s : State) : HingeIn :=
  (s.capture x.r).hinges.at (64 * x.g + ((Leaf.imm x.leaf).extractLsb' 0 6).toNat)

/-- A word formed where it is read, residue of its value. -/
def ofValue (x : CellAt) (s : State) (d : Word) : CellResult :=
  { value := some (gen d), flags := some ((s.cell x.key).v.work.f.withZN d), tested := some d }

def bodyHin : CellBody := fun x _ _ _ s =>
  let h := hingeOf x s
  let w := if h.assigned then h.w else {}
  ({ value := some w, flags := some ((s.cell x.key).v.work.f.withZN w.d), tested := some w.d },
    s.chargeIf (!w.ok) x.r 0x01 x.g)

def bodyPin : CellBody := fun x _ _ _ s =>
  let b := ((Leaf.imm x.leaf).extractLsb' 0 3).toNat
  (ofValue x s (((s.capture x.r).pads.extractLsb' (24 * b) 24).setWidth 40), s)

def bodyHstat : CellBody := fun x _ _ _ s =>
  let h := hingeOf x s
  (ofValue x s (if h.assigned then (if h.running then 3 else 1) else 0), s)

/-! ### The commands -/

def execCellFld (c : CellAddr) (k : LeafNo) (s : State) : Result := cellNext s .fld bodyFld c k
def execCellFst (c : CellAddr) (k : LeafNo) (s : State) : Result := cellNext s .fst bodyFst c k
def execCellFpush (c : CellAddr) (k : LeafNo) (s : State) : Result := cellNext s .fpush bodyFpush c k
def execCellFpop (c : CellAddr) (k : LeafNo) (s : State) : Result := cellNext s .fpop bodyFpop c k
def execCellFpeek (c : CellAddr) (k : LeafNo) (s : State) : Result := cellNext s .fpeek bodyFpeek c k
def execCellPput (c : CellAddr) (k : LeafNo) (s : State) : Result := cellNext s .pput bodyPput c k
def execCellPget (c : CellAddr) (k : LeafNo) (s : State) : Result := cellNext s .pget bodyPget c k
def execCellQempty (c : CellAddr) (k : LeafNo) (s : State) : Result := cellNext s .qempty bodyQempty c k
def execCellQfull (c : CellAddr) (k : LeafNo) (s : State) : Result := cellNext s .qfull bodyQfull c k
def execCellQhigh (c : CellAddr) (k : LeafNo) (s : State) : Result := cellNext s .qhigh bodyQhigh c k
def execCellQlow (c : CellAddr) (k : LeafNo) (s : State) : Result := cellNext s .qlow bodyQlow c k
def execCellQcount (c : CellAddr) (k : LeafNo) (s : State) : Result := cellNext s .qcount bodyQcount c k
def execCellHin (c : CellAddr) (k : LeafNo) (s : State) : Result := cellNext s .hin bodyHin c k
def execCellPin (c : CellAddr) (k : LeafNo) (s : State) : Result := cellNext s .pin bodyPin c k
def execCellHstat (c : CellAddr) (k : LeafNo) (s : State) : Result := cellNext s .hstat bodyHstat c k

end Sys2Proof.Machine
end

