-- ==== Sys2Proof/Machine/Dispatch.lean ====
section
/-!
DEFINITION. The one dispatch: every command, its meaning.
-/
namespace Sys2Proof.Machine

/-- The effect of a command on everything but the queue. -/
def exec (i : Instr) (s : State) : Host.Outcome State Fault Refusal :=
  match i with
  | .commitVote r pads bad => Sys2Proof.Machine.execCommitVote r pads bad s
  | .tokenTimeout r => Sys2Proof.Machine.execTokenTimeout r s
  | .qctRetry fn r v => Sys2Proof.Machine.execQctRetry fn r v s
  | .qctInject fn r v => Sys2Proof.Machine.execQctInject fn r v s
  | .cellNop c k => Sys2Proof.Machine.execCellNop c k s
  | .cellHold c k => Sys2Proof.Machine.execCellHold c k s
  | .cellMov c k => Sys2Proof.Machine.execCellMov c k s
  | .cellAdd c k => Sys2Proof.Machine.execCellAdd c k s
  | .cellSub c k => Sys2Proof.Machine.execCellSub c k s
  | .cellCmp c k => Sys2Proof.Machine.execCellCmp c k s
  | .cellLtu c k => Sys2Proof.Machine.execCellLtu c k s
  | .cellLts c k => Sys2Proof.Machine.execCellLts c k s
  | .cellEq c k => Sys2Proof.Machine.execCellEq c k s
  | .cellLut3 c k => Sys2Proof.Machine.execCellLut3 c k s
  | .cellAnd c k => Sys2Proof.Machine.execCellAnd c k s
  | .cellOr c k => Sys2Proof.Machine.execCellOr c k s
  | .cellXor c k => Sys2Proof.Machine.execCellXor c k s
  | .cellAndn c k => Sys2Proof.Machine.execCellAndn c k s
  | .cellShl c k => Sys2Proof.Machine.execCellShl c k s
  | .cellShr c k => Sys2Proof.Machine.execCellShr c k s
  | .cellSar c k => Sys2Proof.Machine.execCellSar c k s
  | .cellRol c k => Sys2Proof.Machine.execCellRol c k s
  | .cellExt c k => Sys2Proof.Machine.execCellExt c k s
  | .cellExts c k => Sys2Proof.Machine.execCellExts c k s
  | .cellIns c k => Sys2Proof.Machine.execCellIns c k s
  | .cellFsh c k => Sys2Proof.Machine.execCellFsh c k s
  | .cellSel c k => Sys2Proof.Machine.execCellSel c k s
  | .cellBsel c k => Sys2Proof.Machine.execCellBsel c k s
  | .cellMaxu c k => Sys2Proof.Machine.execCellMaxu c k s
  | .cellMinu c k => Sys2Proof.Machine.execCellMinu c k s
  | .cellMaxs c k => Sys2Proof.Machine.execCellMaxs c k s
  | .cellMins c k => Sys2Proof.Machine.execCellMins c k s
  | .cellRdor c k => Sys2Proof.Machine.execCellRdor c k s
  | .cellRdand c k => Sys2Proof.Machine.execCellRdand c k s
  | .cellRdxor c k => Sys2Proof.Machine.execCellRdxor c k s
  | .cellLzc c k => Sys2Proof.Machine.execCellLzc c k s
  | .cellPopc c k => Sys2Proof.Machine.execCellPopc c k s
  | .cellTzc c k => Sys2Proof.Machine.execCellTzc c k s
  | .cellFld c k => Sys2Proof.Machine.execCellFld c k s
  | .cellFst c k => Sys2Proof.Machine.execCellFst c k s
  | .cellFpush c k => Sys2Proof.Machine.execCellFpush c k s
  | .cellFpop c k => Sys2Proof.Machine.execCellFpop c k s
  | .cellFpeek c k => Sys2Proof.Machine.execCellFpeek c k s
  | .cellPput c k => Sys2Proof.Machine.execCellPput c k s
  | .cellPget c k => Sys2Proof.Machine.execCellPget c k s
  | .cellQempty c k => Sys2Proof.Machine.execCellQempty c k s
  | .cellQfull c k => Sys2Proof.Machine.execCellQfull c k s
  | .cellQhigh c k => Sys2Proof.Machine.execCellQhigh c k s
  | .cellQlow c k => Sys2Proof.Machine.execCellQlow c k s
  | .cellQcount c k => Sys2Proof.Machine.execCellQcount c k s
  | .cellHin c k => Sys2Proof.Machine.execCellHin c k s
  | .cellPin c k => Sys2Proof.Machine.execCellPin c k s
  | .cellHstat c k => Sys2Proof.Machine.execCellHstat c k s
  | .pnop g p k => Sys2Proof.Machine.execPnop g p k s
  | .pmul g p k => Sys2Proof.Machine.execPmul g p k s
  | .pmac g p k => Sys2Proof.Machine.execPmac g p k s
  | .pmsu g p k => Sys2Proof.Machine.execPmsu g p k s
  | .pext g p k => Sys2Proof.Machine.execPext g p k s
  | .pclr g p k => Sys2Proof.Machine.execPclr g p k s
  | .exchangeSend => Sys2Proof.Machine.execExchangeSend s
  | .tokenSend => Sys2Proof.Machine.execTokenSend s
  | .codewordRx p cw => Sys2Proof.Machine.execCodewordRx p cw s
  | .exchangeFrame p => Sys2Proof.Machine.execExchangeFrame p s
  | .tokenFrame p pads bad => Sys2Proof.Machine.execTokenFrame p pads bad s
  | .poisonFrame p => Sys2Proof.Machine.execPoisonFrame p s
  | .asyncDataFrame p => Sys2Proof.Machine.execAsyncDataFrame p s
  | .linkControlFrame p => Sys2Proof.Machine.execLinkControlFrame p s
  | .linkControlSend p => Sys2Proof.Machine.execLinkControlSend p s
  | .asyncResendTimeout p => Sys2Proof.Machine.execAsyncResendTimeout p s
  | .syscmdStart p => Sys2Proof.Machine.execSyscmdStart p s
  | .syscmdRetry p => Sys2Proof.Machine.execSyscmdRetry p s
  | .syscmdRelease p => Sys2Proof.Machine.execSyscmdRelease p s
  | .tokenReq p => Sys2Proof.Machine.execTokenReq p s
  | .tokenResp p pads bad => Sys2Proof.Machine.execTokenResp p pads bad s
  | .syscmdAct pads bad => Sys2Proof.Machine.execSyscmdAct pads bad s
  | .laneSwitchTx p => Sys2Proof.Machine.execLaneSwitchTx p s
  | .laneSwitchRx p => Sys2Proof.Machine.execLaneSwitchRx p s
  | .laneSubTimeout p => Sys2Proof.Machine.execLaneSubTimeout p s
  | .laneSignalLoss p lane => Sys2Proof.Machine.execLaneSignalLoss p lane s
  | .upkLaneGo v => Sys2Proof.Machine.execUpkLaneGo v s
  | .portTrain p v => Sys2Proof.Machine.execPortTrain p v s
  | .trainingTimeout p failed => Sys2Proof.Machine.execTrainingTimeout p failed s
  | .syncportLockLoss => Sys2Proof.Machine.execSyncportLockLoss s
  | .boundRiseQualified => Sys2Proof.Machine.execBoundRiseQualified s
  | .boundWaitTimeout => Sys2Proof.Machine.execBoundWaitTimeout s
  | .startWaitTimeout => Sys2Proof.Machine.execStartWaitTimeout s
  | .boundNFall => Sys2Proof.Machine.execBoundNFall s
  | .awlNop c => Sys2Proof.Machine.execAwlNop c s
  | .awlAdd c => Sys2Proof.Machine.execAwlAdd c s
  | .awlSub c => Sys2Proof.Machine.execAwlSub c s
  | .awlAdc c => Sys2Proof.Machine.execAwlAdc c s
  | .awlSbc c => Sys2Proof.Machine.execAwlSbc c s
  | .awlCmp c => Sys2Proof.Machine.execAwlCmp c s
  | .awlAnd c => Sys2Proof.Machine.execAwlAnd c s
  | .awlOr c => Sys2Proof.Machine.execAwlOr c s
  | .awlXor c => Sys2Proof.Machine.execAwlXor c s
  | .awlAndn c => Sys2Proof.Machine.execAwlAndn c s
  | .awlShl c => Sys2Proof.Machine.execAwlShl c s
  | .awlShr c => Sys2Proof.Machine.execAwlShr c s
  | .awlSar c => Sys2Proof.Machine.execAwlSar c s
  | .awlRol c => Sys2Proof.Machine.execAwlRol c s
  | .awlMins c => Sys2Proof.Machine.execAwlMins c s
  | .awlMaxs c => Sys2Proof.Machine.execAwlMaxs c s
  | .awlAbs c => Sys2Proof.Machine.execAwlAbs c s
  | .awlNeg c => Sys2Proof.Machine.execAwlNeg c s
  | .awlMov c => Sys2Proof.Machine.execAwlMov c s
  | .awlRsb c => Sys2Proof.Machine.execAwlRsb c s
  | .awlBsc c => Sys2Proof.Machine.execAwlBsc c s
  | .awlLzc c => Sys2Proof.Machine.execAwlLzc c s
  | .awlPopc c => Sys2Proof.Machine.execAwlPopc c s
  | .awlAddi c => Sys2Proof.Machine.execAwlAddi c s
  | .awlAndi c => Sys2Proof.Machine.execAwlAndi c s
  | .awlOri c => Sys2Proof.Machine.execAwlOri c s
  | .awlXori c => Sys2Proof.Machine.execAwlXori c s
  | .awlShli c => Sys2Proof.Machine.execAwlShli c s
  | .awlShri c => Sys2Proof.Machine.execAwlShri c s
  | .awlSari c => Sys2Proof.Machine.execAwlSari c s
  | .awlCmpi c => Sys2Proof.Machine.execAwlCmpi c s
  | .awlMovi c => Sys2Proof.Machine.execAwlMovi c s
  | .awlMovhi c => Sys2Proof.Machine.execAwlMovhi c s
  | .awlLd c => Sys2Proof.Machine.execAwlLd c s
  | .awlSt c => Sys2Proof.Machine.execAwlSt c s
  | .awlLdx c => Sys2Proof.Machine.execAwlLdx c s
  | .awlStx c => Sys2Proof.Machine.execAwlStx c s
  | .awlStm c => Sys2Proof.Machine.execAwlStm c s
  | .awlLdm c => Sys2Proof.Machine.execAwlLdm c s
  | .awlB c => Sys2Proof.Machine.execAwlB c s
  | .awlCall c => Sys2Proof.Machine.execAwlCall c s
  | .awlRet c => Sys2Proof.Machine.execAwlRet c s
  | .awlJr c => Sys2Proof.Machine.execAwlJr c s
  | .awlRep c => Sys2Proof.Machine.execAwlRep c s
  | .awlMul c => Sys2Proof.Machine.execAwlMul c s
  | .awlMac c => Sys2Proof.Machine.execAwlMac c s
  | .awlMsu c => Sys2Proof.Machine.execAwlMsu c s
  | .awlExt c => Sys2Proof.Machine.execAwlExt c s
  | .awlAclr c => Sys2Proof.Machine.execAwlAclr c s
  | .awlMacp c => Sys2Proof.Machine.execAwlMacp c s
  | .awlMsup c => Sys2Proof.Machine.execAwlMsup c s
  | .awlXget c => Sys2Proof.Machine.execAwlXget c s
  | .awlXput c => Sys2Proof.Machine.execAwlXput c s
  | .awlXwait c => Sys2Proof.Machine.execAwlXwait c s
  | .awlXstat c => Sys2Proof.Machine.execAwlXstat c s
  | .awlTake c => Sys2Proof.Machine.execAwlTake c s
  | .awlGive c => Sys2Proof.Machine.execAwlGive c s
  | .awlDone c => Sys2Proof.Machine.execAwlDone c s
  | .awlDefer c => Sys2Proof.Machine.execAwlDefer c s
  | .awlLock c => Sys2Proof.Machine.execAwlLock c s
  | .awlUnlock c => Sys2Proof.Machine.execAwlUnlock c s
  | .awlYield c => Sys2Proof.Machine.execAwlYield c s
  | .awlSrd c => Sys2Proof.Machine.execAwlSrd c s
  | .awlSwr c => Sys2Proof.Machine.execAwlSwr c s
  | .awlBget c => Sys2Proof.Machine.execAwlBget c s
  | .awlBput c => Sys2Proof.Machine.execAwlBput c s
  | .awlBexp c => Sys2Proof.Machine.execAwlBexp c s
  | .awlBfix c => Sys2Proof.Machine.execAwlBfix c s
  | .awlPriv c => Sys2Proof.Machine.execAwlPriv c s
  | .levelSwitch c => Sys2Proof.Machine.execLevelSwitch c s
  | .collatorResponseTimeout c lv => Sys2Proof.Machine.execCollatorResponseTimeout c lv s
  | .transferTimeout c lv tag => Sys2Proof.Machine.execTransferTimeout c lv tag s
  | .awlHoldrst c v => Sys2Proof.Machine.execAwlHoldrst c v s
  | .awlUnfreeze c v => Sys2Proof.Machine.execAwlUnfreeze c v s
  | .awlMdataRead c => Sys2Proof.Machine.execAwlMdataRead c s
  | .awlMdataWrite c v => Sys2Proof.Machine.execAwlMdataWrite c v s
  | .collatorPlace => Sys2Proof.Machine.execCollatorPlace s
  | .affHoldExpiry st cw => Sys2Proof.Machine.execAffHoldExpiry st cw s
  | .delayEntryDue l => Sys2Proof.Machine.execDelayEntryDue l s
  | .calendarWrap l => Sys2Proof.Machine.execCalendarWrap l s
  | .timerDue t => Sys2Proof.Machine.execTimerDue t s
  | .timerArm t v => Sys2Proof.Machine.execTimerArm t v s
  | .timerInsertRetry t => Sys2Proof.Machine.execTimerInsertRetry t s
  | .yieldReady c lv => Sys2Proof.Machine.execYieldReady c lv s
  | .lockWaitTimeout c lv => Sys2Proof.Machine.execLockWaitTimeout c lv s
  | .streamResume fn st v => Sys2Proof.Machine.execStreamResume fn st v s
  | .streamCancel fn st v => Sys2Proof.Machine.execStreamCancel fn st v s
  | .hubLogicRecovery => Sys2Proof.Machine.execHubLogicRecovery s
  | .itemRetire st cw => Sys2Proof.Machine.execItemRetire st cw s
  | .ledgerChannelRebuild ch => Sys2Proof.Machine.execLedgerChannelRebuild ch s
  | .abandon fn st v => Sys2Proof.Machine.execAbandon fn st v s
  | .colAccWrite fn st v => Sys2Proof.Machine.execColAccWrite fn st v s
  | .sqEntryRead m desc => Sys2Proof.Machine.execSqEntryRead m desc s
  | .doorbellSqt fn m v => Sys2Proof.Machine.execDoorbellSqt fn m v s
  | .doorbellAqh fn m v => Sys2Proof.Machine.execDoorbellAqh fn m v s
  | .doorbellRqh fn m v => Sys2Proof.Machine.execDoorbellRqh fn m v s
  | .doorbellXqh fn m v => Sys2Proof.Machine.execDoorbellXqh fn m v s
  | .queueSetCfgWrite fn m v => Sys2Proof.Machine.execQueueSetCfgWrite fn m v s
  | .resultDelivery m => Sys2Proof.Machine.execResultDelivery m s
  | .interruptIntervalEnd m => Sys2Proof.Machine.execInterruptIntervalEnd m s
  | .bar2Read fn size off len => Sys2Proof.Machine.execBar2Read fn size off len s
  | .bar2Write fn size off bytes => Sys2Proof.Machine.execBar2Write fn size off bytes s
  | .bar0BadAccess fn off len write => Sys2Proof.Machine.execBar0BadAccess fn off len write s
  | .registerWrite fn off v => Sys2Proof.Machine.execRegisterWrite fn off v s
  | .vfFlr f => Sys2Proof.Machine.execVfFlr f s
  | .rd mc glitch => Sys2Proof.Machine.execRd mc glitch s
  | .wr mc glitch => Sys2Proof.Machine.execWr mc glitch s
  | .qpush k => Sys2Proof.Machine.execQpush k s
  | .qpop k => Sys2Proof.Machine.execQpop k s
  | .frd k => Sys2Proof.Machine.execFrd k s
  | .fwr k => Sys2Proof.Machine.execFwr k s
  | .cmsg => Sys2Proof.Machine.execCmsg s
  | .dsp k => Sys2Proof.Machine.execDsp k s
  | .rdata k cl => Sys2Proof.Machine.execRdata k cl s
  | .rack k cl => Sys2Proof.Machine.execRack k cl s
  | .crsp k cl => Sys2Proof.Machine.execCrsp k cl s
  | .flitArrive ring slot k => Sys2Proof.Machine.execFlitArrive ring slot k s
  | .flitInject k cls slots => Sys2Proof.Machine.execFlitInject k cls slots s
  | .regulatorToken k cl => Sys2Proof.Machine.execRegulatorToken k cl s
  | .ringResendTimeout k cl tag => Sys2Proof.Machine.execRingResendTimeout k cl tag s
  | .keptResponseExpiry k src cl tag => Sys2Proof.Machine.execKeptResponseExpiry k src cl tag s
  | .stationBypass k v => Sys2Proof.Machine.execStationBypass k v s
  | .drainComplete k => Sys2Proof.Machine.execDrainComplete k s
  | .traceRead => Sys2Proof.Machine.execTraceRead s
  | .scrubRead glitch => Sys2Proof.Machine.execScrubRead glitch s
  | .retrainStep => Sys2Proof.Machine.execRetrainStep s
  | .retrainStepTimeout => Sys2Proof.Machine.execRetrainStepTimeout s
  | .sectorClear fn v => Sys2Proof.Machine.execSectorClear fn v s
  | .retireGo v => Sys2Proof.Machine.execRetireGo v s
  | .migrationLineCopy => Sys2Proof.Machine.execMigrationLineCopy s
  | .migrationComplete => Sys2Proof.Machine.execMigrationComplete s
  | .partitionWrite p v => Sys2Proof.Machine.execPartitionWrite p v s
  | .loadGo fn x v => Sys2Proof.Machine.execLoadGo fn x v s
  | .loadServiceStart bytes => Sys2Proof.Machine.execLoadServiceStart bytes s
  | .frameRecord bytes => Sys2Proof.Machine.execFrameRecord bytes s
  | .loadStallTimeout => Sys2Proof.Machine.execLoadStallTimeout s
  | .loadSourceError short => Sys2Proof.Machine.execLoadSourceError short s
  | .loadAbortCmd fn x v => Sys2Proof.Machine.execLoadAbortCmd fn x v s
  | .casein fn r v => Sys2Proof.Machine.execCasein fn r v s
  | .free fn r v => Sys2Proof.Machine.execFree fn r v s
  | .flashWriteGo v bytes => Sys2Proof.Machine.execFlashWriteGo v bytes s
  | .flashCommitRecord => Sys2Proof.Machine.execFlashCommitRecord s
  | .holdRequest fn r v => Sys2Proof.Machine.execHoldRequest fn r v s
  | .holdRelease fn r v pads => Sys2Proof.Machine.execHoldRelease fn r v pads s
  | .readbackGo fn r v => Sys2Proof.Machine.execReadbackGo fn r v s
  | .readbackDone r pads => Sys2Proof.Machine.execReadbackDone r pads s
  | .bookmarkTake fn r v => Sys2Proof.Machine.execBookmarkTake fn r v s
  | .bookmarkRestore fn r v => Sys2Proof.Machine.execBookmarkRestore fn r v s
  | .bookmarkEngineStart r => Sys2Proof.Machine.execBookmarkEngineStart r s
  | .bookmarkCaptureDone r pads => Sys2Proof.Machine.execBookmarkCaptureDone r pads s
  | .bookmarkRestoreDone r => Sys2Proof.Machine.execBookmarkRestoreDone r s
  | .meterSample => Sys2Proof.Machine.execMeterSample s
  | .bindingMessageSend => Sys2Proof.Machine.execBindingMessageSend s
  | .bindingMessage crcOk => Sys2Proof.Machine.execBindingMessage crcOk s
  | .bindingStale => Sys2Proof.Machine.execBindingStale s
  | .meterNvWrite => Sys2Proof.Machine.execMeterNvWrite s
  | .mvddFall => Sys2Proof.Machine.execMvddFall s
  | .meterPowerOn addr good => Sys2Proof.Machine.execMeterPowerOn addr good s
  | .meterIntervalRecord => Sys2Proof.Machine.execMeterIntervalRecord s
  | .meterRecordSigned => Sys2Proof.Machine.execMeterRecordSigned s
  | .meterStatusFrame => Sys2Proof.Machine.execMeterStatusFrame s
  | .setptr off => Sys2Proof.Machine.execSetptr off s
  | .recordNow => Sys2Proof.Machine.execRecordNow s
  | .sealed bytes => Sys2Proof.Machine.execSealed bytes s
  | .meterPrivateRead n => Sys2Proof.Machine.execMeterPrivateRead n s
  | .meterRunLow => Sys2Proof.Machine.execMeterRunLow s
  | .otpProgram v => Sys2Proof.Machine.execOtpProgram v s
  | .otpRevoke v => Sys2Proof.Machine.execOtpRevoke v s
  | .otpProgramDone readback => Sys2Proof.Machine.execOtpProgramDone readback s
  | .attestationGo fn f v => Sys2Proof.Machine.execAttestationGo fn f v s
  | .attestationService => Sys2Proof.Machine.execAttestationService s
  | .attestationWritten => Sys2Proof.Machine.execAttestationWritten s
  | .domainVoteWrite fn d v => Sys2Proof.Machine.execDomainVoteWrite fn d v s
  | .domainPowerUp d => Sys2Proof.Machine.execDomainPowerUp d s
  | .domainPowerDown d => Sys2Proof.Machine.execDomainPowerDown d s
  | .powerGoodTimeout d => Sys2Proof.Machine.execPowerGoodTimeout d s
  | .fuistPartnerVoteClear => Sys2Proof.Machine.execFuistPartnerVoteClear s
  | .opWrite v => Sys2Proof.Machine.execOpWrite v s
  | .opSwitch pads => Sys2Proof.Machine.execOpSwitch pads s
  | .arrayLoopRelock => Sys2Proof.Machine.execArrayLoopRelock s
  | .vsetWrite v => Sys2Proof.Machine.execVsetWrite v s
  | .varrSettled code => Sys2Proof.Machine.execVarrSettled code s
  | .thermalCompare => Sys2Proof.Machine.execThermalCompare s
  | .thermalTrip sensor temp => Sys2Proof.Machine.execThermalTrip sensor temp s
  | .aoTempSample temp => Sys2Proof.Machine.execAoTempSample temp s
  | .loopLockLoss array => Sys2Proof.Machine.execLoopLockLoss array s
  | .padRelease fn v => Sys2Proof.Machine.execPadRelease fn v s
  | .wakeAddressMatch => Sys2Proof.Machine.execWakeAddressMatch s
  | .aoTimerExpiry => Sys2Proof.Machine.execAoTimerExpiry s
  | .wakeNAssert => Sys2Proof.Machine.execWakeNAssert s
  | .wakeSequence stop durUs => Sys2Proof.Machine.execWakeSequence stop durUs s
  | .wakeStepTimeout stop durUs => Sys2Proof.Machine.execWakeStepTimeout stop durUs s
  | .wakeAck v => Sys2Proof.Machine.execWakeAck v s
  | .timeCalibrate count => Sys2Proof.Machine.execTimeCalibrate count s
  | .tclkResume n => Sys2Proof.Machine.execTclkResume n s
  | .timAdj fn v => Sys2Proof.Machine.execTimAdj fn v s
  | .powerOnReset straps stop durMs => Sys2Proof.Machine.execPowerOnReset straps stop durMs s
  | .resetNQualified => Sys2Proof.Machine.execResetNQualified s
  | .resetNRelease stop durMs => Sys2Proof.Machine.execResetNRelease stop durMs s
  | .vinLoss => Sys2Proof.Machine.execVinLoss s
  | .vsbLoss => Sys2Proof.Machine.execVsbLoss s
  | .warmReset fn v stop durMs => Sys2Proof.Machine.execWarmReset fn v stop durMs s
  | .pcieHotReset flr stop durMs => Sys2Proof.Machine.execPcieHotReset flr stop durMs s
  | .bootStepTimeout stop durMs => Sys2Proof.Machine.execBootStepTimeout stop durMs s
  | .perstNRise => Sys2Proof.Machine.execPerstNRise s
  | .parameterSave fn v ok => Sys2Proof.Machine.execParameterSave fn v ok s
  | .frameCheckWalk => Sys2Proof.Machine.execFrameCheckWalk s
  | .folioParitySweep => Sys2Proof.Machine.execFolioParitySweep s
  | .serdesAdaptStep p lane dir => Sys2Proof.Machine.execSerdesAdaptStep p lane dir s
  | .serdesAdaptReview p lane before after => Sys2Proof.Machine.execSerdesAdaptReview p lane before after s
  | .regulatorTrimStep rail errMv => Sys2Proof.Machine.execRegulatorTrimStep rail errMv s
  | .telemetryUpdate temps currents => Sys2Proof.Machine.execTelemetryUpdate temps currents s
  | .wearLevelCheck => Sys2Proof.Machine.execWearLevelCheck s
  | .colmapWrite q v => Sys2Proof.Machine.execColmapWrite q v s
  | .colrepGo v => Sys2Proof.Machine.execColrepGo v s
  | .colrepCaptureDone => Sys2Proof.Machine.execColrepCaptureDone s
  | .logUnfreeze v => Sys2Proof.Machine.execLogUnfreeze v s
  | .logRead => Sys2Proof.Machine.execLogRead s
  | .hubStatusCmd => Sys2Proof.Machine.execHubStatusCmd s
  | .hubVoteCmd arg => Sys2Proof.Machine.execHubVoteCmd arg s
  | .entdaa t da => Sys2Proof.Machine.execEntdaa t da s
  | .setdasa t da => Sys2Proof.Machine.execSetdasa t da s
  | .setnewda t da => Sys2Proof.Machine.execSetnewda t da s
  | .rstdaa => Sys2Proof.Machine.execRstdaa s
  | .getpid t => Sys2Proof.Machine.execGetpid t s
  | .getbcr t => Sys2Proof.Machine.execGetbcr t s
  | .getdcr t => Sys2Proof.Machine.execGetdcr t s
  | .getstatus t => Sys2Proof.Machine.execGetstatus t s
  | .getmwl t => Sys2Proof.Machine.execGetmwl t s
  | .getmrl t => Sys2Proof.Machine.execGetmrl t s
  | .jtagBypass => Sys2Proof.Machine.execJtagBypass s
  | .samplePreload pins preload => Sys2Proof.Machine.execSamplePreload pins preload s
  | .idcode => Sys2Proof.Machine.execIdcode s
  | .extest preload => Sys2Proof.Machine.execExtest preload s
  | .clamp => Sys2Proof.Machine.execClamp s
  | .highz => Sys2Proof.Machine.execHighz s
  | .bndstream b => Sys2Proof.Machine.execBndstream b s
  | .bndstat => Sys2Proof.Machine.execBndstat s
  | .loopRelock array => Sys2Proof.Machine.execLoopRelock array s
  | .vinReturn stop durMs => Sys2Proof.Machine.execVinReturn stop durMs s
  | .bankRampDone b => Sys2Proof.Machine.execBankRampDone b s
  | .portTrainingDone p peer => Sys2Proof.Machine.execPortTrainingDone p peer s
  | .domainPowerGood d => Sys2Proof.Machine.execDomainPowerGood d s
  | .domainRampdownDone d => Sys2Proof.Machine.execDomainRampdownDone d s
  | .sqReadTimeout m => Sys2Proof.Machine.execSqReadTimeout m s
  | .statusLinkLoss => Sys2Proof.Machine.execStatusLinkLoss s

end Sys2Proof.Machine
end

