-- ==== Sys2Proof/Machine/Tick.lean ====
section
/-!
DEFINITION. What one TCLK period does by itself (log entry 16): time, the AO timer, the counters of cycles, and the
codewords of the Fuist ports.
-/
namespace Sys2Proof.Machine

/-- One AO clock cycle of the AO timer (R441, R444). -/
def State.aoCycle (s : State) : State :=
  if s.bitF F.pwrAotmr_armed 0 = false then s
  else
    let n := s.getN F.pwrAotmr_count 0
    if n ≤ 1 then s.aoExpiry else s.putN F.pwrAotmr_count 0 (n - 1)

/-- 10 ns of the AO clock: 1.024 MHz, so 0.01024 of its cycle (R438). -/
def State.tickAo (s : State) : State :=
  let p := s.sys.aoPhase + 1024
  if p < 100000 then (s.onSys fun y => { y with aoPhase := p })
  else (s.onSys fun y => { y with aoPhase := p - 100000 }).aoCycle

/-- CYCLE of the cores that are out of reset: 12 CCLK cycles (R207, R438). -/
def State.tickCores (s : State) : State :=
  (List.range 64).foldl (fun (s : State) c =>
    if s.domOn (6 + c / 16) && !s.bitF F.awlCtl_holdrst c then s.updCore c fun x => { x with cycle := x.cycle + 12 }
    else s) s

/-- QCT_STRETCH of the regions that wait at a commit point, in STRETCH or in casing-in, and of those that pause for a change of
operating point (R34, R45, R434). -/
def State.tickStretch (s : State) : State :=
  (List.range 16).foldl (fun (s : State) r =>
    if (s.region r).waiting || (s.region r).paused then s.addF F.qctStretch_cycles r (s.aclkMhz / 100) else s) s

/-- One TCLK period: SPINE_TIME counts, NCLK runs 16 cycles, every port that is up transmits a codeword. -/
def State.tickClocked (s : State) : State :=
  let s := s.putF F.timSpine_count 0 (s.getF F.timSpine_count 0 + 1)
  let s := if s.domOn 2 then { s with ring := { s.ring with nclk := s.ring.nclk + 16 } } else s
  let s := s.tickCores.tickStretch
  s.portsUp.foldl State.transmit s

/-- 10 ns without a command; without power nothing happens. -/
def State.tick (s : State) : State :=
  if s.sys.powerLost || !s.sys.vsb then s
  else
    let s := s.tickAo
    if s.sys.tclk then s.tickClocked else s

end Sys2Proof.Machine
end

