-- ==== Sys2Proof/Safety.lean ====
section
/-!
DEFINITION. What claims are stated in: the canonical form of stored data, the parts of the state that a command may
leave alone, and a command that completes.
-/
namespace Sys2Proof.Machine

/-- Registers, log and DRAM are in their canonical form, so that equal contents are equal data. -/
def State.canonical (s : State) : Bool := s.regs.wf regDefault && s.log.wf (fun _ => default) && Memory.wf s.dram

/-- The parts of the state that a frame speaks of. -/
inductive Part where
  | queue | free | outs | log | cells | gatherings | regions | relay | fuist | collator | cores | ring | dram
  | migration | pads | flash | loader | bookmarks | meter | binding | trust | power | boot | upkeep | testPorts | pcie
  | reg (r : RegId)
  deriving DecidableEq, Repr

/-- A part of two states is the same. -/
def Part.same (p : Part) (s t : State) : Prop :=
  match p with
  | .queue => t.pending = s.pending
  | .free => t.free = s.free
  | .outs => t.outs = s.outs
  | .log => t.log = s.log ∧ t.logSince = s.logSince
  | .cells => t.arr.cells = s.arr.cells
  | .gatherings => t.arr.gths = s.arr.gths
  | .regions => t.arr.regions = s.arr.regions
  | .relay => t.arr.relay = s.arr.relay
  | .fuist => t.fst = s.fst
  | .collator => t.col = s.col
  | .cores => t.awl = s.awl
  | .ring => t.ring = s.ring
  | .dram => t.dram = s.dram
  | .migration => t.migrating = s.migrating ∧ t.migLine = s.migLine ∧ t.retrainNext = s.retrainNext
  | .pads => t.sys.pads = s.sys.pads ∧ t.sys.bankNext = s.sys.bankNext
  | .flash => t.sys.flash = s.sys.flash
  | .loader => t.sys.jobs = s.sys.jobs ∧ t.sys.current = s.sys.current ∧ t.sys.serving = s.sys.serving ∧
      t.sys.inBuf = s.sys.inBuf ∧ t.sys.flashJob = s.sys.flashJob ∧ t.sys.fresh = s.sys.fresh ∧ t.sys.cores = s.sys.cores
  | .bookmarks => t.sys.ops = s.sys.ops ∧ t.sys.indexes = s.sys.indexes
  | .meter => t.sys.meter = s.sys.meter
  | .binding => t.sys.bindSeq = s.sys.bindSeq ∧ t.sys.bindMsg = s.sys.bindMsg
  | .trust => t.sys.attWait = s.sys.attWait ∧ t.sys.attBody = s.sys.attBody ∧ t.sys.otpBusy = s.sys.otpBusy ∧
      t.sys.idKey = s.sys.idKey
  | .power => t.sys.retriedDom = s.sys.retriedDom ∧ t.sys.tripped = s.sys.tripped ∧ t.sys.wake = s.sys.wake ∧
      t.sys.wakeWait = s.sys.wakeWait ∧ t.sys.wakeFailed = s.sys.wakeFailed ∧ t.sys.aoPhase = s.sys.aoPhase ∧
      t.sys.tclk = s.sys.tclk ∧ t.sys.recentCur = s.sys.recentCur ∧ t.sys.powerLost = s.sys.powerLost ∧
      t.sys.ledgerLost = s.sys.ledgerLost ∧ t.sys.perst = s.sys.perst ∧ t.sys.resetLow = s.sys.resetLow ∧ t.sys.vin = s.sys.vin ∧ t.sys.vsb = s.sys.vsb ∧
      t.sys.straps = s.sys.straps
  | .boot => t.sys.boot = s.sys.boot ∧ t.sys.bootRecs = s.sys.bootRecs ∧ t.sys.link = s.sys.link ∧
      t.sys.bootAfter = s.sys.bootAfter ∧ t.sys.laneFails = s.sys.laneFails ∧ t.sys.retiredAt = s.sys.retiredAt
  | .upkeep => t.sys.walkPos = s.sys.walkPos ∧ t.sys.sweepPos = s.sys.sweepPos ∧ t.sys.eqPos = s.sys.eqPos ∧
      t.sys.eqLast = s.sys.eqLast ∧ t.sys.eqDone = s.sys.eqDone ∧ t.sys.railOfs = s.sys.railOfs ∧
      t.sys.railDone = s.sys.railDone ∧ t.sys.colMove = s.sys.colMove
  | .testPorts => t.sys.statusRead = s.sys.statusRead ∧ t.sys.jtag = s.sys.jtag ∧ t.sys.boundary = s.sys.boundary
  | .pcie => t.sys.pcie = s.sys.pcie
  | .reg r => ∀ i, t.reg r i = s.reg r i

/-- From `s` to `t` only the listed parts may change, and the canonical form is kept. -/
structure State.Only (ps : List Part) (s t : State) : Prop where
  same : ∀ p, p ∉ ps → p.same s t
  form : s.canonical = true → t.canonical = true

/-- A command completes in a state that has a property. -/
def Completes (i : Instr) (s : State) (p : State → Prop) : Prop := ∃ t, exec i s = .next t ∧ p t

/-- A run of the commands in the queue neither faults nor meets a command without a meaning. -/
def State.safe (s : State) : Prop := ∀ i ∈ s.pending, i.wf = true

end Sys2Proof.Machine
end

