-- ==== Sys2Proof/Safety/Awl.lean ====
section
/-!
DEFINITION. What claims about Awl cores are stated in: a level that executes an instruction, what that leaves, and the
words and addresses the rules give.
-/
namespace Sys2Proof.Machine

/-- Cycles that a load's destination, read by the next instruction, costs (R230). -/
def awlStall (l : Level) (o : AwlOp) (w : Word) : Nat :=
  match l.loaded with
  | some r => if r ∈ readsG o w then 1 else 0
  | none => 0

/-- Level `v` of core `c` runs and its PC holds a good word `w` of operation `o`, whose sources are good; `l` is its bank as
the instruction finds it, with the press results that are due (R217, R218). -/
structure AwlRun (s : State) (c : CoreId) (o : AwlOp) (v : Nat) (w : Word) (l : Level) : Prop where
  running : (s.core c).running = some v
  out : s.holdrst c = false
  ready : (s.level c v).state = .ready
  parity : badSlices ((s.core c).imem.at (s.level c v).pc) = 0
  fetched : data44 ((s.core c).imem.at (s.level c v).pc) = w
  decoded : decodeAwl w = some o
  landed : ({ s.level c v with own := (s.level c v).own + awlStall (s.level c v) o w } : Level).landDue = (l, false)
  goodG : ∀ r ∈ readsG o w, (l.gRead r).ok = true
  goodS : ∀ r ∈ readsS o w l, r.ok = true

/-- Repetitions of the instruction at the PC still to come after this one (R221). -/
def repLeft (s : State) (c : Nat) : Nat := ((s.core c).rep.getD 1) - 1

/-- The instruction left bank `m`, took `cost` cycles and goes on at `next`, or repeats (R221); the core's other levels and
its IMEM are as they were. -/
structure AwlAfter (s t : State) (c : CoreId) (v : Nat) (o : AwlOp) (w : Word) (l m : Level) (cost next : Nat) : Prop where
  level : t.level c v = { m.passed o w cost with pc := if repLeft s c = 0 then next else m.pc }
  rep : (t.core c).rep = if repLeft s c = 0 then none else some (repLeft s c)
  cycle : (t.core c).cycle = (s.core c).cycle + BitVec.ofNat 40 (awlStall (s.level c v) o w + cost)
  others : ∀ u, u ≠ v → t.level c u = s.level c u
  imem : (t.core c).imem = (s.core c).imem
  cores : ∀ d : CoreId, d ≠ c → t.core d = s.core d

/-- The address of the instruction that follows. -/
def Level.nextPc (l : Level) : Nat := (l.pc + 1) % 32768

/-- New values of C, Z, N, V and SV by their bit of ST; `none` keeps one. -/
def stBits (c z n v sv : Option Bool) (i : Nat) : Option Bool :=
  match i with
  | 0 => v
  | 1 => n
  | 2 => z
  | 3 => c
  | 6 => sv
  | _ => none

/-- Bank `m` is bank `l` with the named register of G0 to G31 and the named bits of ST written, and nothing else. -/
structure BankWrote (l m : Level) (rd : Option (Nat × Word)) (st : Nat → Option Bool) : Prop where
  regs : ∀ i, i < 32 → m.gRead i = match rd with
    | some (j, d) => if i = j then gen d else l.gRead i
    | none => l.gRead i
  windows : ∀ k, k < 64 → k / 16 ≠ l.cwp → m.win.at k = l.win.at k
  bits : ∀ i, i < 40 → m.st.d.getLsbD i = (st i).getD (l.st.d.getLsbD i)
  kept : (m.state, m.pc, m.acc, m.p, m.pcfg, m.wstat, m.lsm, m.bexp, m.sparea, m.bankwin, m.link, m.flights, m.tags,
    m.hasItem) = (l.state, l.pc, l.acc, l.p, l.pcfg, l.wstat, l.lsm, l.bexp, l.sparea, l.bankwin, l.link, l.flights, l.tags,
    l.hasItem)

/-- The word that an instruction of the ALU group gives for operands `a` and `b` and shift amount `n` (R231). -/
def AluWord (o : AwlOp) (n : Nat) (a b d : Word) : Prop :=
  match o with
  | .and => ∀ i, i < 40 → d.getLsbD i = (a.getLsbD i && b.getLsbD i)
  | .or => ∀ i, i < 40 → d.getLsbD i = (a.getLsbD i || b.getLsbD i)
  | .xor => ∀ i, i < 40 → d.getLsbD i = (a.getLsbD i != b.getLsbD i)
  | .andn => ∀ i, i < 40 → d.getLsbD i = (a.getLsbD i && !b.getLsbD i)
  | .shr => d.toNat = a.toNat / 2 ^ n
  | .sar => d.toInt = a.toInt / 2 ^ n
  | .rol => ∀ i, i < 40 → d.getLsbD ((i + n) % 40) = a.getLsbD i
  | .mins => d = if a.toInt ≤ b.toInt then a else b
  | .maxs => d = if a.toInt ≤ b.toInt then b else a
  | .mov => d = a
  | .movi => d = b
  | .movhi => d.toNat = b.toNat % 2 ^ 17 * 2 ^ 23 + a.toNat % 2 ^ 23
  | .rsb => d.toNat ≤ 39 ∧ (∀ i, i ≤ d.toNat → a.getLsbD (39 - i) = a.getLsbD 39) ∧
      (d.toNat < 39 → a.getLsbD (38 - d.toNat) ≠ a.getLsbD 39)
  | .lzc => d.toNat ≤ 40 ∧ (∀ i, i < d.toNat → a.getLsbD (39 - i) = false) ∧
      (d.toNat < 40 → a.getLsbD (39 - d.toNat) = true)
  | .popc => d.toNat = (List.range 40).countP fun i => a.getLsbD i
  | _ => False

/-- The last bit that a right shift moves out (R89). -/
def rightCarry (o : AwlOp) (n : Nat) (a : Word) : Bool :=
  match o with
  | .shr => decide (0 < n ∧ n ≤ 40) && a.getLsbD (n - 1)
  | _ => decide (0 < n) && a.getLsbD (min n 40 - 1)

/-- A pointer `p` under PCFG `cfg` moved by `d` comes to `q` (R209). -/
def PointerTo (p : Nat) (cfg : Word) (d : Int) (q : Nat) : Prop :=
  let base := cfg.toNat % 65536
  let len := if cfg.toNat / 65536 % 65536 = 0 then 65536 else cfg.toNat / 65536 % 65536
  let i := (p + 65536 - base) % 65536
  match cfg.toNat / 2 ^ 32 % 4 with
  | 0 => (q : Int) = (p + d) % 65536
  | 1 => i < len ∧ (q : Int) = (base + (i + d) % len) % 65536
  | 2 => ∃ k x y : Nat, 1 ≤ k ∧ k ≤ 16 ∧ len = 2 ^ k ∧ i < len ∧ x < len ∧ y < len ∧
      (∀ j, j < k → x.testBit j = i.testBit (k - 1 - j)) ∧ ((y : Int) = (x + d) % len) ∧
      ∃ z : Nat, z < len ∧ (∀ j, j < k → z.testBit j = y.testBit (k - 1 - j)) ∧ q = (base + z) % 65536
  | _ => False

/-- A good word of DMEM. -/
def State.DmemWord (s : State) (c : CoreId) (a : Nat) (d : Word) : Prop :=
  badSlices ((s.core c).dmem.at a) = 0 ∧ data44 ((s.core c).dmem.at a) = d

/-- The product of a mode (R216): the whole product or its real lane, and the imaginary lane of CPX. -/
def awlPress (mode : Nat) (sa sb : Bool) (a b : Word) : Int × Int :=
  let lo (d : Word) (x : Bool) : Int := halfInt x 20 d.toNat
  let hi (d : Word) (x : Bool) : Int := halfInt x 20 (d.toNat / 2 ^ 20)
  match mode with
  | 0 => (halfInt sa 40 a.toNat * halfInt sb 40 b.toNat, 0)
  | 2 => (lo a sa * lo b sb + hi a sa * hi b sb, 0)
  | _ => (lo a sa * lo b sb - hi a sa * hi b sb, lo a sa * hi b sb + hi a sa * lo b sb)

end Sys2Proof.Machine
end

