-- ==== Sys2Proof/Safety/Cells.lean ====
section
/-!
DEFINITION. What claims about cells are stated in: a cell that executes a leaf, and the words the rules give.
-/
namespace Sys2Proof.Machine

/-- A cell executes leaf `k`: the leaf is `x`, its opcode `op`, its sources read as `a`, `b` and `c`, and its predicate
holds (R63, R66); `s1` is the state its own part then starts from. -/
structure CellLeaf (s s1 : State) (ca : CellAddr) (k : LeafNo) (op : CellOp) (x : CellAt) (a b c : RWord) : Prop where
  ready : s.cellReady (cellAddrNo ca) k = some x
  opcode : (s.updCell x.key fun c => c.settle x.t).opAt x = op
  sources : ∃ s0, (s.updCell x.key fun c => c.settle x.t).operands x op = (a, b, c, s0) ∧
    (if op = .nop then (true, s0) else s0.predicate x c) = (true, s1)

/-- In `t` the cell of leaf `x` stands as the writes of outcome `o` on `s` leave it, with the carry out of R70. -/
def CellWrote (s t : State) (x : CellAt) (o : CellResult) : Prop :=
  let w := (s.writeBack x o).cell x.key
  let c := t.cell x.key
  c.v = w.v ∧ c.t = w.t ∧ c.outA = w.outA ∧ c.outB = w.outB ∧ c.carry = ⟨o.cout, !o.cout⟩ ∧ c.last = x.t

/-- The word that a logic, select or reduction opcode gives (R86, R87, R90, R91). -/
def LogicWord (op : CellOp) (imm a b c d : Word) : Prop :=
  let m := a &&& imm
  let ones := (List.range 40).countP fun i => m.getLsbD i
  match op with
  | .lut3 => ∀ i < 40, d.getLsbD i =
      imm.getLsbD (4 * (a.getLsbD i).toNat + 2 * (b.getLsbD i).toNat + (c.getLsbD i).toNat)
  | .and => ∀ i < 40, d.getLsbD i = (a.getLsbD i && b.getLsbD i)
  | .or => ∀ i < 40, d.getLsbD i = (a.getLsbD i || b.getLsbD i)
  | .xor => ∀ i < 40, d.getLsbD i = (a.getLsbD i != b.getLsbD i)
  | .andn => ∀ i < 40, d.getLsbD i = (a.getLsbD i && !b.getLsbD i)
  | .sel => d = if c.getLsbD 0 then a else b
  | .bsel => ∀ i < 40, d.getLsbD i = if c.getLsbD i then a.getLsbD i else b.getLsbD i
  | .maxu => d = if a.toNat < b.toNat then b else a
  | .minu => d = if b.toNat < a.toNat then b else a
  | .maxs => d = if a.toInt < b.toInt then b else a
  | .mins => d = if b.toInt < a.toInt then b else a
  | .rdor => d.toNat = if ones = 0 then 0 else 1
  | .rdand => d.toNat = if (List.range 40).all fun i => !imm.getLsbD i || a.getLsbD i then 1 else 0
  | .rdxor => d.toNat = ones % 2
  | .popc => d.toNat = ones
  | .lzc => d.toNat ≤ 40 ∧ (∀ i < d.toNat, m.getLsbD (39 - i) = false) ∧
      (d.toNat < 40 → m.getLsbD (39 - d.toNat) = true)
  | .tzc => d.toNat ≤ 40 ∧ (∀ i < d.toNat, m.getLsbD i = false) ∧ (d.toNat < 40 → m.getLsbD d.toNat = true)
  | _ => False

/-- The word that a shift opcode gives for amount `n` and width `w` (R89). -/
def ShiftWord (op : CellOp) (n w : Nat) (a b d : Word) : Prop :=
  match op with
  | .shl => d.toNat = a.toNat * 2 ^ n % 2 ^ 40
  | .shr => d.toNat = a.toNat / 2 ^ n
  | .sar => d.toInt = a.toInt / 2 ^ n
  | .rol => ∀ i < 40, d.getLsbD ((i + n) % 40) = a.getLsbD i
  | .ext => d.toNat = a.toNat / 2 ^ n % 2 ^ w
  | .exts => d.toInt = Int.bmod (a.toNat / 2 ^ n) (2 ^ w)
  | .ins => ∀ i < 40, d.getLsbD i = if n ≤ i ∧ i < n + w then a.getLsbD (i - n) else b.getLsbD i
  | .fsh => d.toNat = (a.toNat * 2 ^ 40 + b.toNat) * 2 ^ n / 2 ^ 40 % 2 ^ 40
  | _ => False

/-- The last bit that a shift moves out (R89). -/
def shiftCarry (op : CellOp) (n : Nat) (a d : Word) : Bool :=
  match op with
  | .shl => decide (0 < n ∧ n ≤ 40) && a.getLsbD (40 - n)
  | .shr => decide (0 < n ∧ n ≤ 40) && a.getLsbD (n - 1)
  | .sar => decide (0 < n) && a.getLsbD (min n 40 - 1)
  | .rol => decide (n % 40 ≠ 0) && d.getLsbD 0
  | _ => false

/-- What a leaf of one cell leaves of every other: all but the words that the threads carry past it. -/
structure CellKept (c d : Cell) : Prop where
  v : d.v = c.v
  t : d.t = c.t
  outA : d.outA = c.outA
  outB : d.outB = c.outB
  carry : d.carry = c.carry
  carryAt : d.carryAt = c.carryAt
  last : d.last = c.last
  heldIn : d.heldIn = c.heldIn
  returns : d.returns = c.returns
  leaf : d.leaf = c.leaf

/-- A gathering's folio block, queues and press blocks are as they were. -/
structure FolioKept (g h : Gth) : Prop where
  working : h.working = g.working
  pending : h.pending = g.pending
  draining : h.draining = g.draining
  store : h.store = g.store
  queue : h.queue = g.queue
  press : h.press = g.press

/-- The commands of one cell and leaf that use no folio block and hand nothing to a press block. -/
def plainLeaves (c : CellAddr) (k : LeafNo) : List Instr :=
  [.cellNop c k, .cellHold c k, .cellMov c k, .cellAdd c k, .cellSub c k, .cellCmp c k, .cellLtu c k, .cellLts c k,
    .cellEq c k, .cellLut3 c k, .cellAnd c k, .cellOr c k, .cellXor c k, .cellAndn c k, .cellShl c k, .cellShr c k,
    .cellSar c k, .cellRol c k, .cellExt c k, .cellExts c k, .cellIns c k, .cellFsh c k, .cellSel c k,
    .cellBsel c k] ++
  [.cellMaxu c k, .cellMinu c k, .cellMaxs c k, .cellMins c k, .cellRdor c k, .cellRdand c k, .cellRdxor c k,
    .cellLzc c k, .cellPopc c k, .cellTzc c k, .cellFld c k, .cellFpeek c k, .cellPget c k, .cellQempty c k,
    .cellQfull c k, .cellQhigh c k, .cellQlow c k, .cellQcount c k, .cellHin c k, .cellPin c k, .cellHstat c k]

/-- The commands of one cell and leaf. -/
def cellLeaves (c : CellAddr) (k : LeafNo) : List Instr :=
  plainLeaves c k ++ [.cellFst c k, .cellFpush c k, .cellFpop c k, .cellPput c k]

end Sys2Proof.Machine
end

