-- ==== Sys2Proof/Safety/Frames.lean ====
section
/-!
DEFINITION. The frame of each command: the parts of the state that it may change. Everything else stays, the queue of waiting
commands always.
-/
namespace Sys2Proof.Machine

/-- Every register. -/
def everyRegister : List Part := RegId.all.map .reg

/-- The parts that a command may change, whatever its operands and the state. -/
def frameOf (i : Instr) : List Part :=
  match i with
  | .commitVote .. | .tokenFrame .. | .tokenResp .. =>
      [.free, .outs, .log, .cells, .gatherings, .regions, .fuist, .collator, .reg .hubMsixPba, .reg .colEv,
        .reg .bndStat, .reg .bndCase, .reg .qctCommitted, .reg .qctExec, .reg .qctStatus, .reg .qctReplays,
        .reg .qctStretch, .reg .qctFault, .reg .qctHold, .reg .qctRbStat, .reg .qctBmkStat, .reg .logCtl,
        .reg .gthDchk]
  | .tokenTimeout .. =>
      [.outs, .log, .regions, .collator, .reg .hubMsixPba, .reg .colEv, .reg .qctStatus, .reg .logCtl]
  | .qctRetry .. =>
      [.free, .outs, .log, .cells, .gatherings, .regions, .fuist, .collator, .reg .hubMsixPba, .reg .colEv,
        .reg .bndStat, .reg .bndCase, .reg .qctExec, .reg .qctStatus, .reg .qctFault, .reg .qctHold, .reg .qctRbStat,
        .reg .qctBmkStat, .reg .logCtl]
  | .qctInject .. =>
      [.log, .regions, .collator, .reg .colEv, .reg .qctStatus, .reg .qctFault, .reg .logCtl]
  | .cellNop .. | .cellHold .. | .cellMov .. | .cellAdd .. | .cellSub .. | .cellCmp .. | .cellLtu .. | .cellLts ..
    | .cellEq .. | .cellLut3 .. | .cellAnd .. | .cellOr .. | .cellXor .. | .cellAndn .. | .cellShl .. | .cellShr ..
    | .cellSar .. | .cellRol .. | .cellExt .. | .cellExts .. | .cellIns .. | .cellFsh .. | .cellSel ..
    | .cellBsel .. | .cellMaxu .. | .cellMinu .. | .cellMaxs .. | .cellMins .. | .cellRdor .. | .cellRdand ..
    | .cellRdxor .. | .cellLzc .. | .cellPopc .. | .cellTzc .. | .cellFld .. | .cellFst .. | .cellFpush ..
    | .cellFpop .. | .cellFpeek .. | .cellPput .. | .cellPget .. | .cellQempty .. | .cellQfull .. | .cellQhigh ..
    | .cellQlow .. | .cellQcount .. | .cellHin .. | .cellPin .. | .cellHstat .. =>
      [.free, .cells, .gatherings, .regions, .reg .qctFault]
  | .pnop .. | .pmul .. | .pmac .. | .pmsu .. | .pext .. | .pclr .. =>
      [.free, .gatherings, .regions, .reg .qctFault]
  | .exchangeSend .. =>
      [.log, .regions, .fuist, .collator, .reg .colEv, .reg .qctFault, .reg .logCtl]
  | .tokenSend .. =>
      [.regions, .fuist]
  | .codewordRx .. =>
      [.regions, .fuist, .reg .qctFault, .reg .fstPortErr]
  | .exchangeFrame .. | .poisonFrame .. =>
      [.free, .log, .regions, .fuist, .collator, .reg .colEv, .reg .qctFault, .reg .logCtl]
  | .asyncDataFrame .. =>
      [.free, .log, .fuist, .collator, .dram, .reg .colLedger, .reg .colEv, .reg .colStrStat, .reg .colStrAcc,
        .reg .colStrRsb, .reg .colStrHoles, .reg .memChStat, .reg .logCtl]
  | .linkControlFrame .. =>
      [.log, .fuist, .collator, .reg .colEv, .reg .fstPortStat, .reg .fstPortMap, .reg .fstPortErr, .reg .fstSpare,
        .reg .pwrDom, .reg .pwrStatus, .reg .logCtl]
  | .linkControlSend .. | .laneSwitchTx .. =>
      [.fuist]
  | .asyncResendTimeout .. =>
      [.log, .fuist, .collator, .reg .colEv, .reg .fstSys, .reg .fstPortStat, .reg .fstPortErr, .reg .logCtl]
  | .syscmdStart .. | .syscmdRetry .. | .syscmdRelease .. | .tokenReq .. =>
      [.log, .fuist, .collator, .reg .colEv, .reg .logCtl]
  | .syscmdAct .. =>
      [.free, .outs, .log, .cells, .gatherings, .regions, .fuist, .collator, .boot, .reg .hubBoot, .reg .hubMsixPba,
        .reg .colEv, .reg .bndStat, .reg .bndCase, .reg .qctExec, .reg .qctStatus, .reg .qctFault, .reg .qctHold,
        .reg .qctRbStat, .reg .qctBmkStat, .reg .fstBound, .reg .logCtl]
  | .laneSwitchRx .. =>
      [.log, .fuist, .collator, .reg .colEv, .reg .fstPortStat, .reg .fstPortMap, .reg .fstSpare, .reg .logCtl]
  | .laneSubTimeout .. =>
      [.fuist, .collator, .reg .colEv]
  | .laneSignalLoss .. =>
      [.fuist, .reg .fstPortStat]
  | .upkLaneGo .. =>
      [.log, .fuist, .collator, .reg .colEv, .reg .logCtl, .reg .upkLane]
  | .portTrain .. =>
      [.log, .fuist, .collator, .reg .colEv, .reg .fstSys, .reg .fstPortCfg, .reg .fstPortStat, .reg .logCtl]
  | .trainingTimeout .. =>
      [.log, .fuist, .collator, .boot, .reg .colEv, .reg .fstSys, .reg .fstPortStat, .reg .fstPortMap,
        .reg .fstSpare, .reg .logCtl]
  | .syncportLockLoss .. =>
      [.log, .collator, .reg .colEv, .reg .fstSys, .reg .clkStat, .reg .logCtl]
  | .boundRiseQualified .. =>
      [.fuist, .reg .fstBound]
  | .boundWaitTimeout .. | .startWaitTimeout .. =>
      [.free, .log, .collator, .boot, .reg .hubBoot, .reg .colEv, .reg .fstBound, .reg .logCtl]
  | .boundNFall .. =>
      [.log, .collator, .reg .colEv, .reg .fstBound, .reg .logCtl]
  | .awlNop .. | .awlAdd .. | .awlSub .. | .awlAdc .. | .awlSbc .. | .awlCmp .. | .awlAnd .. | .awlOr ..
    | .awlXor .. | .awlAndn .. | .awlShl .. | .awlShr .. | .awlSar .. | .awlRol .. | .awlMins .. | .awlMaxs ..
    | .awlAbs .. | .awlNeg .. | .awlMov .. | .awlRsb .. | .awlBsc .. | .awlLzc .. | .awlPopc .. | .awlAddi ..
    | .awlAndi .. | .awlOri .. | .awlXori .. | .awlShli .. | .awlShri .. | .awlSari .. | .awlCmpi .. | .awlMovi ..
    | .awlMovhi .. | .awlLd .. | .awlSt .. | .awlLdx .. | .awlStx .. | .awlStm .. | .awlLdm .. | .awlB ..
    | .awlCall .. | .awlRet .. | .awlJr .. | .awlRep .. | .awlMul .. | .awlMac .. | .awlMsu .. | .awlExt ..
    | .awlAclr .. | .awlMacp .. | .awlMsup .. | .awlXget .. | .awlXput .. | .awlXwait .. | .awlXstat ..
    | .awlTake .. | .awlGive .. | .awlDone .. | .awlDefer .. | .awlLock .. | .awlUnlock .. | .awlYield ..
    | .awlSrd .. | .awlSwr .. | .awlBget .. | .awlBput .. | .awlBexp .. | .awlBfix .. | .awlPriv ..
    | .levelSwitch .. | .collatorResponseTimeout .. =>
      [.outs, .log, .collator, .cores, .ring, .reg .hubMsixPba, .reg .colStatus, .reg .colEv, .reg .colLock,
        .reg .colStrStat, .reg .logCtl, .reg .awlStat, .reg .awlFault]
  | .transferTimeout .. =>
      [.collator, .cores, .ring, .reg .colEv, .reg .awlStat]
  | .awlHoldrst .. | .awlUnfreeze .. =>
      [.outs, .log, .collator, .cores, .ring, .reg .hubMsixPba, .reg .colStatus, .reg .colEv, .reg .colLock,
        .reg .colStrStat, .reg .logCtl, .reg .awlCtl, .reg .awlStat, .reg .awlFault]
  | .awlMdataRead .. =>
      [.outs, .reg .awlMaddr]
  | .awlMdataWrite .. =>
      [.log, .collator, .cores, .loader, .reg .colEv, .reg .logCtl, .reg .awlCtl, .reg .awlStat, .reg .awlMaddr]
  | .collatorPlace .. =>
      [.collator, .ring, .reg .colEv, .reg .colStrStat]
  | .affHoldExpiry .. =>
      [.collator]
  | .delayEntryDue .. =>
      [.collator, .reg .colDlCfg, .reg .colStrStat]
  | .calendarWrap .. =>
      [.collator, .reg .colDlCfg]
  | .timerDue .. =>
      [.collator, .reg .colDlCfg, .reg .colEv, .reg .colTim]
  | .timerArm .. =>
      [.log, .collator, .reg .colStatus, .reg .colDlCfg, .reg .colEv, .reg .colTim, .reg .logCtl]
  | .timerInsertRetry .. =>
      [.collator, .reg .colDlCfg, .reg .colTim]
  | .yieldReady .. =>
      [.collator, .cores, .reg .colEv, .reg .awlStat]
  | .lockWaitTimeout .. =>
      [.collator, .cores, .reg .colEv, .reg .colLock, .reg .awlStat]
  | .streamResume .. | .streamCancel .. =>
      [.log, .collator, .reg .colEv, .reg .colStrStat, .reg .logCtl]
  | .hubLogicRecovery .. =>
      [.outs, .collator, .reg .hubHqStat, .reg .hubMsixPba, .reg .colLedger, .reg .colDlCfg, .reg .colEv,
        .reg .colTim, .reg .colLock, .reg .colStrStat]
  | .itemRetire .. =>
      [.outs, .collator, .reg .hubHqCfg, .reg .hubHqStat, .reg .hubMsixPba, .reg .colLedger, .reg .colStrStat,
        .reg .colStrRet]
  | .ledgerChannelRebuild .. =>
      [.collator, .reg .colLedger]
  | .abandon .. =>
      [.outs, .log, .collator, .reg .hubHqStat, .reg .hubMsixPba, .reg .colLedger, .reg .colEv, .reg .colStrStat,
        .reg .colStrRet, .reg .colStrRsb, .reg .colStrHoles, .reg .logCtl]
  | .colAccWrite .. =>
      [.log, .collator, .reg .colStatus, .reg .colEv, .reg .colStrAcc, .reg .colStrRet, .reg .logCtl]
  | .sqEntryRead .. =>
      [.outs, .log, .collator, .reg .hubHqCfg, .reg .hubHqStat, .reg .hubMsixPba, .reg .colLedger, .reg .colEv,
        .reg .colStrStat, .reg .colStrAcc, .reg .colStrRsb, .reg .colStrHoles, .reg .logCtl]
  | .doorbellSqt .. =>
      [.log, .collator, .reg .hubHqCfg, .reg .hubDbSqt, .reg .colEv, .reg .logCtl]
  | .doorbellAqh .. =>
      [.log, .collator, .reg .hubHqCfg, .reg .hubDbAqh, .reg .colEv, .reg .logCtl]
  | .doorbellRqh .. =>
      [.outs, .log, .collator, .reg .hubHqCfg, .reg .hubHqStat, .reg .hubDbRqh, .reg .hubMsixPba, .reg .colLedger,
        .reg .colEv, .reg .logCtl]
  | .doorbellXqh .. =>
      [.log, .collator, .reg .hubHqCfg, .reg .hubDbXqh, .reg .colEv, .reg .logCtl]
  | .queueSetCfgWrite .. =>
      [.outs, .log, .collator, .reg .hubHqCfg, .reg .hubHqStat, .reg .hubDbSqt, .reg .hubDbAqh, .reg .hubDbRqh,
        .reg .hubDbXqh, .reg .hubMsixPba, .reg .colLedger, .reg .colEv, .reg .logCtl]
  | .resultDelivery .. =>
      [.outs, .log, .collator, .dram, .reg .hubHqCfg, .reg .hubHqStat, .reg .hubMsixPba, .reg .colEv,
        .reg .memChStat, .reg .logCtl]
  | .interruptIntervalEnd .. =>
      [.outs, .collator, .reg .hubMsixPba]
  | .bar2Read .. =>
      [.outs, .log, .collator, .dram, .pcie, .reg .colEv, .reg .memChStat, .reg .logCtl]
  | .bar2Write .. =>
      [.log, .collator, .dram, .pcie, .reg .colEv, .reg .memChStat, .reg .logCtl]
  | .bar0BadAccess .. =>
      [.outs, .log, .collator] ++ everyRegister
  | .registerWrite .. | .warmReset .. =>
      [.free, .outs, .log, .cells, .gatherings, .regions, .relay, .fuist, .collator, .cores, .ring, .dram,
        .migration, .pads, .flash, .loader, .bookmarks, .meter, .binding, .trust, .power, .boot, .upkeep] ++ everyRegister
  | .vfFlr .. =>
      [.free, .outs, .log, .gatherings, .regions, .collator, .pads, .loader, .bookmarks, .trust, .reg .hubB2win,
        .reg .hubHqCfg, .reg .hubMsixTbl, .reg .hubMsixPba, .reg .colEv, .reg .bndStat, .reg .bndCase, .reg .bndHash,
        .reg .qctExec, .reg .qctStatus, .reg .qctHold, .reg .qctRbStat, .reg .qctBmkStat, .reg .qctBmkValid,
        .reg .logCtl, .reg .truAttStat]
  | .rd .. | .wr .. =>
      [.log, .collator, .ring, .dram, .reg .colEv, .reg .spnErr, .reg .memChStat, .reg .logCtl]
  | .qpush .. | .fwr .. =>
      [.gatherings, .collator, .ring, .reg .colEv, .reg .spnErr]
  | .qpop .. | .frd .. =>
      [.log, .gatherings, .collator, .ring, .reg .colEv, .reg .spnErr, .reg .logCtl, .reg .gthFerr]
  | .cmsg .. =>
      [.outs, .log, .collator, .cores, .ring, .reg .hubMsixPba, .reg .colStatus, .reg .colLedger, .reg .colDlCfg,
        .reg .colEv, .reg .colLock, .reg .colStrStat, .reg .colStrAcc, .reg .colStrRsb, .reg .colStrHoles,
        .reg .spnErr, .reg .logCtl, .reg .awlStat]
  | .dsp .. =>
      [.cores, .ring, .reg .spnErr, .reg .awlStat]
  | .rdata .. | .rack .. | .crsp .. =>
      [.collator, .cores, .ring, .reg .colEv, .reg .spnErr, .reg .awlStat]
  | .flitArrive .. =>
      [.log, .collator, .ring, .reg .colEv, .reg .spnErr, .reg .spnTrcCtl, .reg .spnPrbCfg, .reg .spnPrbCnt,
        .reg .logCtl]
  | .flitInject .. =>
      [.ring, .reg .spnRg, .reg .spnPrbCnt]
  | .regulatorToken .. =>
      [.ring, .reg .spnRg]
  | .ringResendTimeout .. =>
      [.ring, .reg .spnErr]
  | .keptResponseExpiry .. =>
      [.ring]
  | .stationBypass .. | .drainComplete .. =>
      [.log, .collator, .reg .colEv, .reg .spnSta, .reg .logCtl]
  | .traceRead .. =>
      [.outs, .reg .spnTrcAddr]
  | .scrubRead .. =>
      [.log, .collator, .dram, .reg .colEv, .reg .memScrub, .reg .memChStat, .reg .logCtl]
  | .retrainStep .. =>
      [.migration, .reg .memRetrain]
  | .retrainStepTimeout .. =>
      [.log, .collator, .migration, .reg .colEv, .reg .memRetrain, .reg .logCtl]
  | .sectorClear .. =>
      [.log, .collator, .dram, .reg .colEv, .reg .memSecclr, .reg .logCtl]
  | .retireGo .. =>
      [.log, .collator, .migration, .reg .colEv, .reg .memStat, .reg .memRetire, .reg .memChStat, .reg .logCtl]
  | .migrationLineCopy .. =>
      [.dram, .migration, .reg .memRetire]
  | .migrationComplete .. =>
      [.log, .collator, .migration, .boot, .reg .colEv, .reg .memStat, .reg .memRetire, .reg .memChStat, .reg .logCtl]
  | .partitionWrite .. =>
      [.log, .collator, .reg .colEv, .reg .memPart, .reg .logCtl]
  | .loadGo .. | .loadAbortCmd .. | .casein .. | .free .. | .flashWriteGo .. =>
      [.free, .outs, .log, .gatherings, .regions, .fuist, .collator, .dram, .pads, .flash, .loader, .reg .hubMsixPba,
        .reg .colEv, .reg .memChStat, .reg .bndCmd, .reg .bndStat, .reg .bndCase, .reg .bndHash, .reg .qctCommitted,
        .reg .qctExec, .reg .qctStatus, .reg .fstBound, .reg .logCtl, .reg .padBank, .reg .gthCfg]
  | .loadServiceStart .. =>
      [.outs, .log, .collator, .dram, .pads, .flash, .loader, .reg .hubMsixPba, .reg .colEv, .reg .memChStat,
        .reg .bndStat, .reg .bndHash, .reg .logCtl]
  | .frameRecord .. =>
      [.free, .outs, .log, .cells, .gatherings, .regions, .relay, .fuist, .collator, .cores, .dram, .pads, .loader,
        .bookmarks, .upkeep, .reg .hubMsixPba, .reg .colEv, .reg .colStrStat, .reg .memChStat, .reg .bndStat,
        .reg .bndCase, .reg .bndHash, .reg .qctCfg, .reg .qctCommitted, .reg .qctExec, .reg .qctStatus,
        .reg .qctHold, .reg .qctRbStat] ++
        [.reg .qctBmkStat, .reg .qctBmkValid, .reg .qctCadPat, .reg .qctCadLen, .reg .fstTiming, .reg .fstBound,
        .reg .logCtl, .reg .upkColrep, .reg .padBank, .reg .awlCtl, .reg .awlStat, .reg .gthCfg, .reg .gthDchk,
        .reg .gthQdesc, .reg .gthQwm, .reg .gthCrc]
  | .loadStallTimeout .. | .loadSourceError .. =>
      [.outs, .log, .collator, .pads, .loader, .reg .hubMsixPba, .reg .colEv, .reg .bndStat, .reg .bndHash,
        .reg .logCtl]
  | .flashCommitRecord .. =>
      [.outs, .log, .gatherings, .collator, .flash, .loader, .reg .hubMsixPba, .reg .colEv, .reg .bndStat,
        .reg .logCtl, .reg .gthCfg, .reg .gthQdesc, .reg .gthQwm]
  | .holdRequest .. | .holdRelease .. =>
      [.free, .log, .gatherings, .regions, .fuist, .collator, .reg .colEv, .reg .bndStat, .reg .bndCase,
        .reg .qctExec, .reg .qctStatus, .reg .qctHold, .reg .logCtl]
  | .readbackGo .. =>
      [.log, .collator, .bookmarks, .reg .colEv, .reg .qctHold, .reg .qctRbSel, .reg .qctRbStat, .reg .logCtl]
  | .readbackDone .. =>
      [.free, .log, .gatherings, .regions, .collator, .dram, .bookmarks, .reg .colEv, .reg .bndStat, .reg .bndCase,
        .reg .qctExec, .reg .qctStatus, .reg .qctHold, .reg .qctRbStat, .reg .logCtl, .reg .gthFerr]
  | .bookmarkTake .. | .bookmarkRestore .. =>
      [.log, .collator, .bookmarks, .reg .colEv, .reg .qctHold, .reg .qctBmkCtl, .reg .qctBmkStat, .reg .logCtl]
  | .bookmarkEngineStart .. =>
      [.bookmarks, .reg .qctBmkValid]
  | .bookmarkCaptureDone .. =>
      [.free, .log, .gatherings, .regions, .collator, .dram, .bookmarks, .reg .colEv, .reg .bndStat, .reg .bndCase,
        .reg .qctExec, .reg .qctStatus, .reg .qctHold, .reg .qctBmkStat, .reg .qctBmkSize, .reg .qctBmkValid,
        .reg .logCtl, .reg .gthFerr]
  | .bookmarkRestoreDone .. =>
      [.log, .cells, .gatherings, .regions, .collator, .dram, .bookmarks, .reg .colEv, .reg .colStrStat,
        .reg .memChStat, .reg .bndStat, .reg .bndCase, .reg .qctCommitted, .reg .qctExec, .reg .qctStatus,
        .reg .qctBmkStat, .reg .logCtl]
  | .meterSample .. | .bindingStale .. | .meterNvWrite .. | .mvddFall .. | .meterPowerOn ..
    | .meterIntervalRecord .. | .meterRecordSigned .. | .setptr .. | .recordNow .. | .sealed .. =>
      [.meter]
  | .bindingMessageSend .. =>
      [.binding]
  | .bindingMessage .. =>
      [.meter, .binding]
  | .meterStatusFrame .. =>
      [.meter, .reg .mtrStat, .reg .mtrSeq, .reg .mtrParam, .reg .mtrAudit, .reg .mtrRg]
  | .meterPrivateRead .. =>
      [.free, .outs, .meter]
  | .meterRunLow .. =>
      [.log, .collator, .reg .colEv, .reg .qctHold, .reg .logCtl]
  | .otpProgram .. | .otpRevoke .. =>
      [.log, .collator, .trust, .reg .colEv, .reg .logCtl, .reg .truAnchorStat, .reg .truOtpcmd]
  | .otpProgramDone .. =>
      [.trust, .reg .truAnchorStat, .reg .truAnchorHash, .reg .truOtpcmd]
  | .attestationGo .. =>
      [.log, .collator, .trust, .reg .colEv, .reg .logCtl, .reg .truAttCmd, .reg .truAttStat]
  | .attestationService .. =>
      [.trust, .reg .truIdstat, .reg .truAttStat]
  | .attestationWritten .. =>
      [.dram, .trust, .reg .truAttStat]
  | .domainVoteWrite .. | .domainPowerUp .. | .fuistPartnerVoteClear .. | .hubVoteCmd .. =>
      [.reg .pwrDom, .reg .pwrStatus]
  | .domainPowerDown .. =>
      [.free, .outs, .log, .cells, .gatherings, .regions, .relay, .fuist, .collator, .cores, .ring, .pads, .loader,
        .bookmarks, .meter, .binding, .trust, .boot, .upkeep] ++ everyRegister
  | .powerGoodTimeout .. =>
      [.log, .collator, .power, .reg .colEv, .reg .pwrDom, .reg .pwrStatus, .reg .logCtl]
  | .opWrite .. =>
      [.log, .regions, .collator, .reg .colEv, .reg .clkAclk, .reg .logCtl]
  | .opSwitch .. =>
      [.free, .gatherings, .regions, .collator, .reg .colEv, .reg .bndStat, .reg .bndCase, .reg .qctExec,
        .reg .qctStatus, .reg .fstTiming, .reg .clkAclk]
  | .arrayLoopRelock .. =>
      [.collator, .reg .colEv, .reg .fstTiming, .reg .clkAclk, .reg .clkStat]
  | .vsetWrite .. =>
      [.log, .collator, .reg .colEv, .reg .pwrVarr, .reg .logCtl]
  | .varrSettled .. =>
      [.reg .pwrVarr]
  | .thermalCompare .. =>
      [.collator, .reg .colEv, .reg .pwrStatus]
  | .thermalTrip .. | .telemetryUpdate .. =>
      [.free, .outs, .log, .cells, .gatherings, .regions, .relay, .fuist, .collator, .cores, .ring, .pads, .loader,
        .bookmarks, .meter, .binding, .trust, .power, .boot, .upkeep] ++ everyRegister
  | .aoTempSample .. =>
      [.reg .pwrAotemp]
  | .loopLockLoss .. =>
      [.log, .collator, .reg .colEv, .reg .clkStat, .reg .logCtl]
  | .padRelease .. =>
      [.log, .collator, .pads, .reg .colEv, .reg .logCtl, .reg .padBank, .reg .padHold]
  | .wakeAddressMatch .. | .wakeNAssert .. | .domainRampdownDone .. =>
      [.power, .reg .pwrDom, .reg .pwrStatus]
  | .aoTimerExpiry .. =>
      [.power, .reg .pwrDom, .reg .pwrStatus, .reg .pwrAotmr]
  | .wakeSequence .. =>
      [.free, .outs, .log, .cells, .gatherings, .regions, .relay, .fuist, .collator, .cores, .ring, .dram,
        .migration, .pads, .flash, .loader, .bookmarks, .meter, .binding, .trust, .power, .boot, .upkeep, .testPorts,
        .pcie] ++ everyRegister
  | .wakeStepTimeout .. =>
      [.free, .outs, .log, .cells, .gatherings, .regions, .relay, .fuist, .collator, .cores, .ring, .migration,
        .pads, .loader, .bookmarks, .meter, .binding, .trust, .power, .boot, .upkeep] ++ everyRegister
  | .wakeAck .. =>
      [.log, .collator, .reg .colEv, .reg .pwrDom, .reg .pwrStatus, .reg .pwrWakecfg, .reg .logCtl]
  | .timeCalibrate .. =>
      [.reg .timCal]
  | .tclkResume .. =>
      [.power, .reg .timSpine, .reg .timUncert]
  | .timAdj .. =>
      [.log, .collator, .reg .colEv, .reg .timSpine, .reg .logCtl]
  | .powerOnReset .. | .resetNRelease .. | .bootStepTimeout .. | .vinReturn .. =>
      [.free, .outs, .log, .cells, .gatherings, .regions, .relay, .fuist, .collator, .cores, .dram, .migration,
        .pads, .flash, .loader, .bookmarks, .power, .boot, .upkeep] ++ everyRegister
  | .resetNQualified .. | .vinLoss .. =>
      [.free, .outs, .log, .cells, .gatherings, .regions, .relay, .fuist, .collator, .cores, .ring, .pads, .loader,
        .bookmarks, .meter, .binding, .trust, .power, .boot, .upkeep, .testPorts, .pcie] ++ everyRegister
  | .vsbLoss .. =>
      [.log, .cells, .gatherings, .regions, .relay, .fuist, .collator, .cores, .ring, .dram, .pads, .loader,
        .bookmarks, .meter, .binding, .trust, .power, .boot, .upkeep, .testPorts, .pcie] ++ everyRegister
  | .pcieHotReset .. =>
      [.free, .outs, .log, .cells, .gatherings, .regions, .relay, .fuist, .collator, .cores, .ring, .dram,
        .migration, .pads, .flash, .loader, .bookmarks, .meter, .binding, .trust, .power, .boot, .upkeep, .pcie] ++ everyRegister
  | .perstNRise .. =>
      [.power, .boot, .reg .hubBoot]
  | .parameterSave .. =>
      [.log, .collator, .flash, .reg .hubBootpol, .reg .colEv, .reg .logCtl]
  | .frameCheckWalk .. | .serdesAdaptStep .. | .regulatorTrimStep .. =>
      [.log, .collator, .upkeep, .reg .colEv, .reg .logCtl, .reg .upkEng]
  | .folioParitySweep .. =>
      [.log, .collator, .upkeep, .reg .colEv, .reg .logCtl, .reg .upkEng, .reg .gthFerr]
  | .serdesAdaptReview .. =>
      [.upkeep]
  | .wearLevelCheck .. =>
      [.free, .log, .collator, .reg .colEv, .reg .logCtl, .reg .upkEng]
  | .colmapWrite .. =>
      [.log, .cells, .gatherings, .collator, .reg .colEv, .reg .logCtl, .reg .upkColmap, .reg .gthCfg]
  | .colrepGo .. =>
      [.log, .collator, .upkeep, .reg .colEv, .reg .logCtl, .reg .upkColrep]
  | .colrepCaptureDone .. =>
      [.log, .cells, .gatherings, .collator, .dram, .upkeep, .reg .colEv, .reg .logCtl, .reg .upkColmap,
        .reg .upkColrep, .reg .gthCfg, .reg .gthFerr]
  | .logUnfreeze .. =>
      [.log, .collator, .reg .colEv, .reg .logCtl]
  | .logRead .. =>
      [.outs, .reg .logAddr]
  | .hubStatusCmd .. =>
      [.testPorts]
  | .entdaa .. | .setdasa .. | .setnewda .. | .rstdaa .. =>
      [.meter, .reg .padI3c]
  | .getpid .. | .getbcr .. | .getdcr .. | .getmwl .. | .getmrl .. =>
      [.outs]
  | .getstatus .. =>
      [.free, .outs]
  | .jtagBypass .. | .idcode .. | .clamp .. | .highz .. | .bndstat .. =>
      [.outs, .testPorts]
  | .samplePreload .. | .extest .. =>
      [.free, .outs, .testPorts]
  | .bndstream .. =>
      [.loader, .testPorts]
  | .loopRelock .. =>
      [.reg .clkStat]
  | .bankRampDone .. =>
      [.reg .padBank]
  | .portTrainingDone .. =>
      [.log, .fuist, .collator, .reg .colEv, .reg .fstSys, .reg .fstPortStat, .reg .logCtl]
  | .domainPowerGood .. =>
      [.outs, .log, .fuist, .collator, .migration, .power, .boot, .reg .hubHqStat, .reg .hubMsixPba, .reg .colLedger,
        .reg .colDlCfg, .reg .colEv, .reg .colTim, .reg .colLock, .reg .colStrStat, .reg .spnSta, .reg .memChStat,
        .reg .fstPortStat, .reg .pwrDom, .reg .pwrStatus, .reg .logCtl]
  | .sqReadTimeout .. =>
      [.pcie, .reg .hubHqCfg]
  | .statusLinkLoss .. =>
      [.reg .mtrStat]

end Sys2Proof.Machine
end

