-- ==== Sys2Proof/Safety/Ring.lean ====
section
/-!
DEFINITION. What the claims about the spine rings are stated in: the response that a station queues, and the queues of a
station.
-/
namespace Sys2Proof.Machine

/-- From `s` to `t`, station `k` has queued the response of a kind to request `q` (R314, R315). -/
def Answered (s t : State) (k : Nat) (q : Request) (kind stat moved : Nat) (ws : List Word) : Prop :=
  (t.station k).injResp.at (respClient k) = (s.station k).injResp.at (respClient k) ++
    mkPacket q.id q.turn (FL.src q.h) k (FL.scl q.h) true kind (FL.tag q.h) moved (FL.fn q.h) stat ws

/-- The request ejection queue of a station for a request ring (R321). -/
def State.ejection (s : State) (k ring : Nat) : List Flit :=
  ((s.station k).ej.filter fun e => e.ring == ring).map (·.flit)

/-- Every ring holds an empty slot (R320). -/
def State.ringsOpen (s : State) : Prop := ∀ ring < 4, ∃ i < 42, s.slot ring i = none

end Sys2Proof.Machine
end

