-- ==== Sys2Proof/Certificates/Slice0/Obligations.lean ====
section
/-!
DEFINITION. The statements about the model, for the provers.
-/
open Sys2Proof Sys2Proof.Machine

/-- The step (log entry 16): with a command at the front of the queue it is that command on the state with the rest of
the queue; on an empty queue a TCLK period passes by itself, in which SPINE_TIME counts once and NCLK 16 times, where
no AO timer can expire in it; without TCLK neither counts. -/
def Obligations.StepRunsFront : Prop :=
  (∀ (c : Instr) (rest : List Instr) (s : State), s.pending = c :: rest →
    step s = exec c { s with pending := rest }) ∧
  ∀ (s : State), s.pending = [] → ∃ t, step s = .next t ∧ t.pending = [] ∧
    (s.sys.powerLost = false → s.sys.vsb = true → s.sys.tclk = true → s.bitF F.pwrAotmr_armed 0 = false →
      t.getF F.timSpine_count 0 = s.getF F.timSpine_count 0 + 1 ∧
      t.ring.nclk = if s.domOn 2 then s.ring.nclk + 16 else s.ring.nclk) ∧
    (s.sys.tclk = false → s.bitF F.pwrAotmr_armed 0 = false → t.ring.nclk = s.ring.nclk) ∧
    (s.sys.powerLost = true ∨ s.sys.vsb = false → t = s)

/-- Every well-formed command has its meaning: it answers a next state on every state; a command that no sender can
make is a fault (log entry 103). -/
def Obligations.CommandsComplete : Prop :=
  ∀ (i : Instr) (s : State), (i.wf = true → ∃ t, exec i s = .next t) ∧ (i.wf = false → exec i s = .fault .illFormed)

/-- Every command changes at most the parts of its frame: all other registers, the cells, gatherings, regions, cores,
rings, DRAM, meter and the rest stay, and so does the queue. -/
def Obligations.CommandFrames : Prop :=
  ∀ (i : Instr) (s t : State), exec i s = .next t → State.Only (frameOf i) s t ∧ t.pending = s.pending

/-- A leaf of a cell leaves every other cell as it was, but for the words on threads, and its own leaf store; a leaf
other than fst, fpush and fpop leaves every folio block and queue, and one other than pput every press block. -/
def Obligations.CellFrames : Prop :=
  ∀ (ca : CellAddr) (k : LeafNo) (s t : State),
    (∀ i ∈ cellLeaves ca k, exec i s = .next t →
      (∀ key, key ≠ cellAddrNo ca → CellKept (s.cell key) (t.cell key)) ∧
      (t.cell (cellAddrNo ca)).leaf = (s.cell (cellAddrNo ca)).leaf ∧
      ∀ g, (t.gth g).store = (s.gth g).store ∧ (t.gth g).pending = (s.gth g).pending ∧
        (t.gth g).draining = (s.gth g).draining ∧ (t.gth g).access = (s.gth g).access) ∧
    (∀ i ∈ plainLeaves ca k, exec i s = .next t → ∀ g, FolioKept (s.gth g) (t.gth g)) ∧
    (exec (.cellPput ca k) s = .next t → ∀ g, (t.gth g).working = (s.gth g).working ∧ (t.gth g).queue = (s.gth g).queue) ∧
    ∀ i ∈ ([.cellFst ca k, .cellFpush ca k, .cellFpop ca k] : List Instr), exec i s = .next t → ∀ g,
      (t.gth g).press = (s.gth g).press

/-- Which DRAM a command may write: the sectors of a ring request, of a BAR2 access, of the sweep, the migrating line,
an attestation report, a readback, a bookmark, a captured column and a result staging slot; every byte outside stays. -/
def Obligations.MemoryFrames : Prop :=
  ∀ (s : State),
    let outside (first n : Nat) (t : State) : Prop := ∀ a, a / 64 < first ∨ first + n ≤ a / 64 → t.dramByte a = s.dramByte a
    let words (w len : Nat) : State → Prop := outside (w / 12) ((w % 12 + len + 11) / 12)
    (∀ (mc : Fin 2) (glitch : Nat),
      (∀ q s1, s.serve (mcStation mc) 0 = .act q s1 → Completes (.rd mc glitch) s (words (dramAddr q) q.count)) ∧
      ∀ q s1, s.serve (mcStation mc) 1 = .act q s1 → Completes (.wr mc glitch) s (words (dramAddr q) q.data.length)) ∧
    (∀ (fn : FnId) (size off len : Nat), bar2Inside fn size off len = true → Completes (.bar2Read fn size off len) s fun t =>
      ∀ a, a / 64 ∉ s.bar2Sectors fn size off len → t.dramByte a = s.dramByte a) ∧
    (∀ (fn : FnId) (size off : Nat) (bytes : List Byte), bar2Inside fn size off bytes.length = true →
      Completes (.bar2Write fn size off bytes) s fun t =>
        ∀ a, a / 64 ∉ s.bar2Sectors fn size off bytes.length → t.dramByte a = s.dramByte a) ∧
    (∀ glitch, Completes (.scrubRead glitch) s (outside (s.getN F.memScrub_pos 0) 1)) ∧
    (∀ k, s.migrating = some k → Completes .migrationLineCopy s (outside (16 * s.migLine + k) 1)) ∧
    (∀ r body, s.sys.attBody = some (r, body) → Completes .attestationWritten s
      (outside r.sector (((signedReport body).length + 59) / 60))) ∧
    (∀ (m : QueueSetId) (fails : Bool), Completes (.resultDelivery ⟨m, fails⟩) s
      (words (s.stagingBase m + 16 * (s.hq m).xslot) 16)) ∧
    (∀ (r : RegionId) (pads : BitVec 192),
      Completes (.readbackDone r pads) s (outside (s.getN F.qctRbDst_sector r)
        ((s.selected r (s.reg .qctRbSel r)).length * partsSize (s.reg .qctRbSel r))) ∧
      Completes (.bookmarkCaptureDone r pads) s (outside (s.getN F.qctBmkDst_sector r)
        ((s.gthsOf r).length * (stateSectors + folioSectors)))) ∧
    ∀ m, s.sys.colMove = some m → Completes .colrepCaptureDone s
      (outside m.dst (m.gths.length * (stateSectors + folioSectors)))

/-- In every step registers, log and DRAM keep their canonical form. -/
def Obligations.FormIsKept : Prop :=
  ∀ (s t : State), s.canonical = true → step s = .next t → t.canonical = true

/-- R320: a ring that holds an empty slot holds one after every step, since a flit goes only into a slot whose
upstream slot is empty too. -/
def Obligations.RingsStayOpen : Prop :=
  (∀ (s t : State), s.ringsOpen → step s = .next t → t.ringsOpen) ∧
  ∀ (k : StationId) (cls : Fin 2) (slots : SlotPair) (s t : State), exec (.flitInject k cls slots) s = .next t →
    ∀ ring < 4, ∀ i < 42, s.slot ring i = none → t.slot ring i ≠ none → s.slot ring (upstream ring i) = none

/-- R3: HUB_ID stands at BAR0 offset 0 and tells the part's family and device; no step changes it, no reset and no
loss of power among them. -/
def Obligations.IdentityNeverChanges : Prop :=
  RegId.hubId.offset 0 = 0 ∧ State.reset.getN F.hubId_device 0 = 0x2410 ∧ State.reset.getN F.hubId_family 0 = 1 ∧
  ∀ (s t : State), s.canonical = true → step s = .next t → t.reg .hubId 0 = s.reg .hubId 0

/-- R394, R396: no command but the meter's own sampling, records, links, power and bus commands changes anything that
the meter holds: neither any reset, nor a power point, nor the loss of a domain (what the hub has received of its
records is the hub's, log entry 104). -/
def Obligations.MeterStandsAlone : Prop :=
  ∀ (i : Instr) (s t : State), exec i s = .next t →
    (match i with
      | .meterSample | .bindingMessage .. | .bindingStale | .meterStatusFrame | .meterNvWrite | .mvddFall
      | .meterPowerOn .. | .meterIntervalRecord | .meterRecordSigned | .setptr .. | .recordNow | .sealed ..
      | .meterPrivateRead .. | .entdaa .. | .setdasa .. | .setnewda .. | .rstdaa => False
      | _ => True) →
    { t.sys.meter with shown := {}, shownKey := [], shownNext := 0 } =
      ({ s.sys.meter with shown := {}, shownKey := [], shownNext := 0 } : Meter)

/-- Reset: the queue is empty, the state is in its canonical form, every ring has an empty slot, every region is
UNBOUND, no flit is under way, every sector of DRAM holds zero words with a good CRC, and fields with a stated reset
value hold it. -/
def Obligations.ResetValues : Prop :=
  State.reset.pending = [] ∧ State.reset.canonical = true ∧ State.reset.ringsOpen ∧
  (∀ r < 16, State.reset.getN F.qctStatus_state r = 0) ∧
  (∀ ring i, State.reset.slot ring i = none) ∧
  (∀ n, (State.reset.sectorBytes n).take 60 = zeroData ∧ sectorGood (State.reset.sectorBytes n) n = true) ∧
  (∀ x ∈ [(State.reset.getN F.pwrStatus_cap_w 0, 450), (State.reset.getN F.logCtl_freeze_level 0, 6),
      (State.reset.getN F.upkColmap_skip 3, 32), (State.reset.getN F.upkEng_period_ms 0, 60000),
      (State.reset.getN F.upkEng_period_ms 5, 3600000), (State.reset.getN F.colCtl_yield_cyc 0, 256),
      (State.reset.getN F.colCtl_fault_max 0, 3), (State.reset.getN F.colAffHold_hold 0, 128),
      (State.reset.getN F.colDlCfg_tick 0, 100), (State.reset.getN F.colFn_maxlvl 0, 7),
      (State.reset.getN F.colFn_maxlvl 1, 5), (State.reset.getN F.spnRg_rate 0, 128), (State.reset.getN F.spnRg_burst 0, 8),
      (State.reset.getN F.memScrub_period_h 0, 24), (State.reset.getN F.memRetrain_period_ms 0, 1000),
      (State.reset.getN F.bndCtl_stream_to_ms 0, 100), (State.reset.getN F.qctTokenTo_to_us 0, 1000),
      (State.reset.getN F.fstBound_wait_to_ms 0, 10000), (State.reset.getN F.clkAclk_op 0, 1),
      (State.reset.getN F.pwrVarr_vset 0, 20), (State.reset.getN F.awlCtl_holdrst 63, 1)], x.1 = x.2)

/-- R16, R18, R31 and R375: a LOCAL region whose quire had no failed check commits it. Every cell of the region
renames its versions on the one edge, and no other cell changes; the next quire opens, or a hold that is due takes
effect. R29, R31, R32 and R23: a LOCAL region whose quire had a failed check replays it. Pending and working of every
cell of the region are discarded, the first failure is recorded, and after three recomputations the region enters
QFAULT. -/
def Obligations.LocalQuires : Prop :=
  (∀ (r : RegionId) (pads : BitVec 192) (bad : BitVec 2) (s : State),
    let z := s.settleRegion r
    let n := s.getN F.qctExec_count r
    s.executes r = true → s.bitF F.qctCfg_mode r = false → z.firstFail r n = none →
    Completes (.commitVote r pads bad) s fun t =>
      t.getN F.qctCommitted_count r = n ∧ t.getN F.qctStatus_attempt r = 0 ∧ t.getN F.qctStatus_lastvote r = 1 ∧
      (∀ key, (t.cell key).v.com =
        if s.regionOf (key / 64) = some r.val then (z.cell key).v.work else (s.cell key).v.com) ∧
      if s.holdDue r n = true ∧ (s.getN F.qctStatus_state r = 2 ∨ s.getN F.bndCase_stage r = 3) then
        t.getN F.qctStatus_state r = 5 ∧ t.bitF F.qctHold_pend r = false
      else (s.region r).pauseReq = false → t.getN F.qctExec_count r = (n + 1) % 2 ^ 64) ∧
  (∀ (r : RegionId) (pads : BitVec 192) (bad : BitVec 2) (s : State) (f : Fail),
    let n := s.getN F.qctExec_count r
    let k := s.getN F.qctStatus_attempt r
    s.executes r = true → s.bitF F.qctCfg_mode r = false → (s.settleRegion r).firstFail r n = some f →
    Completes (.commitVote r pads bad) s fun t =>
      t.getN F.qctReplays_count r = min (s.getN F.qctReplays_count r + 1) (2 ^ 32 - 1) ∧
      t.getN F.qctStatus_lastvote r = 2 ∧ t.getN F.qctCommitted_count r = s.getN F.qctCommitted_count r ∧
      (∀ key, (t.cell key).v = if s.regionOf (key / 64) = some r.val
        then ⟨(s.cell key).v.com, none, (s.cell key).v.com⟩ else (s.cell key).v) ∧
      (k = 3 ∨ bad ≠ 3 → t.getN F.qctFault_device r = f.dev % 2 ^ 6 ∧ t.getN F.qctFault_cause r = f.cause % 2 ^ 6 ∧
        t.getN F.qctFault_gth r = f.gth % 2 ^ 12 ∧ t.getN F.qctFault_quire r = n % 2 ^ 40) ∧
      (if k = 3 ∨ bad = 3 then t.getN F.qctStatus_state r = 6 ∧ t.bitF F.qctStatus_qfault_ev r = true
      else t.getN F.qctStatus_attempt r = k + 1 ∧ t.getN F.qctExec_count r = n ∧
        (s.getN F.qctStatus_state r ≠ 1 ∨ s.getN F.bndCase_stage r = 3 → t.getN F.qctStatus_state r = 4)))

/-- R19, R25, R30: a SYSTEM region votes at its commit point, or later where it waits there, once it has every frame
and token: OK from every device commits the quire before, a REPLAY discards pending and working, and where nothing is
due the versions move on; with a token or a frame missing nothing commits and the region waits. -/
def Obligations.SystemQuireVotes : Prop :=
  ∀ (r : RegionId) (pads : BitVec 192) (bad : BitVec 2) (s : State),
    let z := if s.executes r then s.settleRegion r else s
    let e := s.getN F.qctExec_count r
    let n := s.getN F.qctCommitted_count r + 1
    let mine := fun key => s.regionOf (key / 64) = some r.val
    s.bitF F.qctCfg_mode r = true →
    (s.executes r = true ∧ s.getN F.bndCase_stage r ≠ 1) ∨ (s.executes r = false ∧ (s.region r).waiting = true) →
    Completes (.commitVote r pads bad) s fun t =>
      (z.voteReady r = false → if s.executes r = false then t = s else
        t.getN F.qctCommitted_count r + 1 = n ∧ (t.region r).waiting = true ∧
        (s.getN F.qctStatus_state r ≠ 1 → t.getN F.qctStatus_state r = 3) ∧
        ∀ key, (t.cell key).v.com = (s.cell key).v.com ∧ (t.cell key).v.pend = (s.cell key).v.pend) ∧
      (z.voteReady r = true → (t.region r).waiting = false) ∧
      (z.voteReady r = true → n ≠ e → (z.fullToken r n).rp = 0 →
        t.getN F.qctCommitted_count r = n % 2 ^ 64 ∧ t.getN F.qctStatus_attempt r = 0 ∧ ∀ key, (t.cell key).v.com =
          if mine key then (s.cell key).v.pend.getD (s.cell key).v.com else (s.cell key).v.com) ∧
      (z.voteReady r = true → n ≠ e → (z.fullToken r n).rp ≠ 0 →
        t.getN F.qctCommitted_count r + 1 = n ∧
        t.getN F.qctReplays_count r = min (s.getN F.qctReplays_count r + 1) (2 ^ 32 - 1) ∧
        ∀ key, (t.cell key).v = if mine key then ⟨(s.cell key).v.com, none, (s.cell key).v.com⟩ else (s.cell key).v) ∧
      (z.voteReady r = true → n = e → t.getN F.qctCommitted_count r + 1 = n ∧ t.getN F.qctStatus_lastvote r = 3 ∧
        ∀ key, (t.cell key).v.com =
          if mine key then (s.cell key).v.pend.getD (s.cell key).v.com else (s.cell key).v.com)

/-- R23, R27, R33, R41, R42: TOKEN_TIMEOUT takes a region that waits to TOKEN_LOST with everything committed kept. In
QFAULT and TOKEN_LOST, RETRY recomputes a LOCAL region's quire (into QFAULT, cause 0x08, where both copies of its
capture fail) and sends the RETRY command of a SYSTEM region; INJECT charges cause 0x09 to QCT_EXEC where leaves run.
Elsewhere both are refused, a VF that does not own the region changes nothing of it, and a zero bit does nothing. -/
def Obligations.TokenLossRetryInject : Prop :=
  ∀ (r : RegionId) (fn : FnId) (v : BitVec 64) (bad : BitVec 2) (s : State),
    let st := s.getN F.qctStatus_state r
    let sys := s.bitF F.qctCfg_mode r
    (Completes (.tokenTimeout r) s fun t =>
      if (s.region r).waiting then
        t.getN F.qctStatus_state r = 7 ∧ t.bitF F.qctStatus_token_lost_ev r = true ∧ (t.region r).waiting = false ∧
        t.getN F.qctCommitted_count r = s.getN F.qctCommitted_count r ∧ (∀ key, t.cell key = s.cell key)
      else t = s) ∧
    (s.barOpen (RegId.qctCtl.offset r) = true →
      (fn ≠ 0 → fn.val ≠ r.val + 1 → (Completes (.qctRetry fn r ⟨v, bad⟩) s fun t => t.arr = s.arr ∧ t.fst = s.fst ∧
          t.getN F.qctStatus_state r = st) ∧
        Completes (.qctInject fn r v) s fun t => t.arr = s.arr ∧ t.getN F.qctStatus_state r = st) ∧
      (fn = 0 ∨ fn.val = r.val + 1 →
        (v.getLsbD 0 = false → Sys2Proof.Machine.exec (.qctRetry fn r ⟨v, bad⟩) s = .next s) ∧
        (v.getLsbD 1 = false → Sys2Proof.Machine.exec (.qctInject fn r v) s = .next s) ∧
        (v.getLsbD 0 = true → Completes (.qctRetry fn r ⟨v, bad⟩) s fun t =>
          if st = 6 ∨ st = 7 then
            if sys then t.fst.scheduled.length = s.fst.scheduled.length + 1 ∧
              (∃ c ∈ t.fst.scheduled, c.cmd = 2 ∧ c.w1 = BitVec.ofNat 40 (s.getN F.qctCommitted_count r + 1)) ∧
              t.getN F.qctStatus_state r = st ∧ t.arr = s.arr
            else t.getN F.qctStatus_attempt r = 0 ∧
              (bad = 3 → t.getN F.qctStatus_state r = 6 ∧ t.getN F.qctFault_cause r = 8) ∧
              (bad ≠ 3 → t.getN F.qctExec_count r = (s.getN F.qctCommitted_count r + 1) % 2 ^ 64 ∧
                (s.getN F.bndCase_stage r ≠ 1 → s.getN F.bndCase_stage r ≠ 2 → t.getN F.qctStatus_state r = 4))
          else t.bitF F.qctStatus_cfg_rej r = true ∧ t.getN F.qctStatus_state r = st ∧ ∀ key, t.cell key = s.cell key) ∧
        (v.getLsbD 1 = true → Completes (.qctInject fn r v) s fun t =>
          if st = 1 ∨ st = 2 ∨ st = 3 ∨ st = 4 then
            ⟨s.getN F.qctExec_count r, if sys then s.getN F.fstSys_devidx 0 else 0, 9, 0⟩ ∈ (t.region r).fails
          else t.bitF F.qctStatus_cfg_rej r = true ∧ (t.region r).fails = (s.region r).fails)))

/-- R86, R87, R90 and R91: the word of every logic, select and reduction opcode, with its generated residue, Z and N
of it, C and V kept, and chain carry-out 0. -/
def Obligations.CellLogicResults : Prop :=
  ∀ (ca : CellAddr) (k : LeafNo) (s s1 : State) (x : CellAt) (a b c : RWord) (i : Instr) (op : CellOp),
    (i, op) ∈ [(.cellLut3 ca k, .lut3), (.cellAnd ca k, .and), (.cellOr ca k, .or), (.cellXor ca k, .xor),
      (.cellAndn ca k, .andn), (.cellSel ca k, .sel), (.cellBsel ca k, .bsel), (.cellMaxu ca k, .maxu),
      (.cellMinu ca k, .minu), (.cellMaxs ca k, .maxs), (.cellMins ca k, .mins), (.cellRdor ca k, .rdor),
      (.cellRdand ca k, .rdand), (.cellRdxor ca k, .rdxor), (.cellLzc ca k, .lzc), (.cellPopc ca k, .popc),
      (.cellTzc ca k, .tzc)] →
    CellLeaf s s1 ca k op x a b c →
    ∃ d, LogicWord op (Leaf.imm x.leaf) a.d b.d c.d d ∧
      Completes i s fun t => CellWrote s1 t x
        { value := some (gen d), flags := some ((s1.cell x.key).v.work.f.withZN d), tested := some d }

/-- R88, R89: the word of every shift and field opcode, with its generated residue, Z and N of it, and the last bit
moved out in C for `shl`, `shr`, `sar` and `rol`; the chain carry-out is 0. -/
def Obligations.CellShiftResults : Prop :=
  ∀ (ca : CellAddr) (k : LeafNo) (s s1 : State) (x : CellAt) (a b c : RWord) (i : Instr) (op : CellOp),
    (i, op) ∈ [(.cellShl ca k, .shl), (.cellShr ca k, .shr), (.cellSar ca k, .sar), (.cellRol ca k, .rol),
      (.cellExt ca k, .ext), (.cellExts ca k, .exts), (.cellIns ca k, .ins), (.cellFsh ca k, .fsh)] →
    CellLeaf s s1 ca k op x a b c →
    let imm := Leaf.imm x.leaf
    let n := if imm.getLsbD 6 then c.d.toNat % 64 else imm.toNat % 64
    let f := (s1.cell x.key).v.work.f
    ∃ d, ShiftWord op n (imm.toNat / 128 % 64) a.d b.d d ∧
      Completes i s fun t => CellWrote s1 t x
        { value := some (gen d), tested := some d,
          flags := some (if op ∈ [.shl, .shr, .sar, .rol] then f.withCZN (shiftCarry op n a.d d) d else f.withZN d) }

/-- R81, R82 and R73: the sum, carry-out, V and predicted residue of `add`, `sub` and `cmp`, with the carry-in that
CIN selects; a result of an operand, flag set or carry pair that failed has residue 0b11. R83 and R80: `ltu`, `lts`
and `eq` compare A with B whatever CIN says; the flags and carry-out are those of A + NOT B + 1, and the word has
residue 0b11 where the check of that sum fails. -/
def Obligations.CellArithmetic : Prop :=
  (∀ (ca : CellAddr) (k : LeafNo) (s s1 s2 : State) (x : CellAt) (a b c : RWord) (i : Instr) (op : CellOp)
    (cin pairBad flagBad : Bool),
    (i, op) ∈ [(.cellAdd ca k, .add), (.cellSub ca k, .sub), (.cellCmp ca k, .cmp)] →
    CellLeaf s s1 ca k op x a b c → s1.carryIn x = (cin, pairBad, flagBad, s2) →
    let n := a.d.toNat + (if op = .add then b.d.toNat else 2 ^ 40 - 1 - b.d.toNat) + cin.toNat
    let d : Word := BitVec.ofNat 40 n
    let cout := decide (2 ^ 40 ≤ n)
    let v := decide (a.d.msb = (if op = .add then b.d.msb else !b.d.msb)) && decide (d.msb ≠ a.d.msb)
    let ra : Int := a.r.toNat
    let rb : Int := b.r.toNat
    let p : Int := ((if op = .add then ra + rb else ra - rb) + cin.toNat - cout.toNat) % 3
    let failed := decide (a.r = 3 ∨ b.r = 3) || flagBad
    let r : BitVec 2 := if failed || pairBad then 3 else BitVec.ofNat 2 p.toNat
    let s3 := if op = .cmp then s2.chargeIf (failed || p != (d.toNat : Int) % 3) x.r 0x01 x.g else s2
    Completes i s fun t => CellWrote s3 t x
      { value := if op = .cmp then none else some ⟨d, r⟩, cout, tested := some d,
        flags := some (mkFlags cout (d == 0) d.msb v) }) ∧
  (∀ (ca : CellAddr) (k : LeafNo) (s s1 : State) (x : CellAt) (a b c : RWord) (i : Instr) (op : CellOp) (holds : Bool),
    (i, op, holds) ∈ [(.cellLtu ca k, .ltu, decide (a.d.toNat < b.d.toNat)),
      (.cellLts ca k, .lts, decide (a.d.toInt < b.d.toInt)), (.cellEq ca k, .eq, decide (a.d = b.d))] →
    CellLeaf s s1 ca k op x a b c →
    let d : Word := BitVec.ofNat 40 holds.toNat
    let cout := decide (b.d.toNat ≤ a.d.toNat)
    let p : Int := ((a.r.toNat : Int) - b.r.toNat + 1 - cout.toNat) % 3
    let failed := decide (a.r = 3 ∨ b.r = 3) || p != ((a.d - b.d).toNat : Int) % 3
    Completes i s fun t => CellWrote (s1.chargeIf failed x.r 0x01 x.g) t x
      { value := some ⟨d, if failed then 3 else BitVec.ofNat 2 holds.toNat⟩, cout, tested := some d,
        flags := some (mkFlags cout (a.d == b.d) (a.d - b.d).msb
          (decide (a.d.msb ≠ b.d.msb) && decide ((a.d - b.d).msb ≠ a.d.msb))) })

/-- R106: `nop` changes nothing of its cell's words, outputs and flags; `hold` makes every later leaf of its quire a
`nop` in the cell; `mov` copies A with A's residue unchanged. R62, R64: where a result goes. A state word is written
only with CW = 1 and an enabled cadence, a temporary or an output in every case, the flag set with CW, FLG and the
cadence; nothing else of the cell's words changes. -/
def Obligations.CellNopsAndWrites : Prop :=
  (∀ (ca : CellAddr) (k : LeafNo) (s s1 : State) (x : CellAt) (a b c : RWord),
    (CellLeaf s s1 ca k .nop x a b c → Completes (.cellNop ca k) s fun t =>
      let w := (s.cell x.key).settle x.t
      (t.cell x.key).v = w.v ∧ (t.cell x.key).t = w.t ∧ (t.cell x.key).outA = w.outA ∧ (t.cell x.key).outB = w.outB ∧
      (∀ g, t.gth g = s.gth g)) ∧
    (CellLeaf s s1 ca k .hold x a b c → Completes (.cellHold ca k) s fun t =>
      (t.cell x.key).v = (s1.cell x.key).v ∧ (t.cell x.key).outA = (s1.cell x.key).outA ∧
      (t.cell x.key).outB = (s1.cell x.key).outB ∧
      ∀ y : CellAt, y.key = x.key → y.t / 64 = x.t / 64 → t.opAt y = .nop) ∧
    (CellLeaf s s1 ca k .mov x a b c → Completes (.cellMov ca k) s fun t => CellWrote s1 t x
      { value := some a, flags := some ((s1.cell x.key).v.work.f.withZN a.d), tested := some a.d })) ∧
  (∀ (s : State) (x : CellAt) (o : CellResult) (w : RWord), o.value = some w →
    let dst := (Leaf.dst x.leaf).toNat
    let sw := x.leaf.getLsbD 45 && s.cadenceOn x.r (s.cellCadence x.key)
    let c := s.cell x.key
    let d := (s.writeBack x o).cell x.key
    (∀ i < 16, d.v.work.s.at i =
      if (dst = i ∨ dst = 32 + i) ∧ sw then w else c.v.work.s.at i) ∧
    (∀ i < 16, d.t.at i = if dst = 16 + i then ⟨w, x.t⟩ else c.t.at i) ∧
    d.outA = (if 32 ≤ dst ∧ dst ≤ 48 ∨ dst = 50 then ⟨w, x.t⟩ else c.outA) ∧
    d.outB = (if dst = 49 ∨ dst = 50 then ⟨w, x.t⟩ else c.outB) ∧
    d.v.work.f = (match o.flags with
      | some f => if sw && x.leaf.getLsbD 44 then f else c.v.work.f
      | none => c.v.work.f) ∧
    d.v.com = c.v.com ∧ d.v.pend = c.v.pend ∧ ∀ j, j ≠ x.key → (s.writeBack x o).cell j = s.cell j)

/-- R93 to R95, R98: `fld` sends the newest word of the addressed folio word on its way to DST, with a generated
residue; `fst` writes B there for every later leaf unless a cadence suppresses it, and no other word anywhere. R28,
R94, R97, R98: `fpush` writes B at the working tail and moves it, and a full queue takes nothing; `fpop` and `fpeek`
send the word at the working head on its way, `fpop` moves the head, and an empty queue gives 0; where the queue
cannot serve, the leaf raises a design check. The residue of the pointer is checked (R28). R92, R107, R140: a folio
request to no folio block of the region, on a port that does not name the cell, to a word inside an enabled queue
(`fld`, `fst`), or to a queue that is disabled or runs the other way, is dropped and charged with cause 0x01: nothing
is written, and a destination receives residue 0b11 with data that no rule states; so is a `pput` to a press block
that does not name the cell. -/
def Obligations.CellFolio : Prop :=
  (∀ (ca : CellAddr) (k : LeafNo) (s s1 : State) (x : CellAt) (a b c : RWord) (h : Nat),
    let imm := Leaf.imm x.leaf
    let ofs := imm.toNat / 16 % 2048
    let addr := if imm.getLsbD 15 then (ofs + a.d.toNat % 2048) % 2048 else ofs
    s1.folioTarget x (imm.toNat % 8) (imm.getLsbD 3) = some h → s1.inQueue h addr = false →
    (CellLeaf s s1 ca k .fld x a b c → Completes (.cellFld ca k) s fun t =>
      (t.cell x.key).returns = (s1.cell x.key).returns ++
        [⟨x.t, Leaf.dst x.leaf, s1.cellWrites x, gen (data44 ((s1.gth h).folioRead x.t addr))⟩]) ∧
    (CellLeaf s s1 ca k .fst x a b c → Completes (.cellFst ca k) s fun t =>
      (∀ g n tt, (t.gth g).folioRead tt n =
        if g = h ∧ n = addr ∧ x.t < tt ∧ s1.folioWrites x h 2 then storedForm b else (s1.gth g).folioRead tt n) ∧
      (t.cell x.key).v = (s1.cell x.key).v)) ∧
  (∀ (ca : CellAddr) (k : LeafNo) (s s1 : State) (x : CellAt) (a b c : RWord) (h : Nat),
    let imm := Leaf.imm x.leaf
    let q := imm.toNat / 2 ^ 16 % 4
    let pointer := ((s1.gth h).queue.at q).pointer (imm.getLsbD 3) x.t
    let ptr := pointer.p
    let crp := (s1.capture x.r).crp.at (4 * h + q)
    let size := s1.qSize h q
    let count := s1.arrayCount h q ptr crp
    let addr := s1.qBase h q + ptr % size
    let next := mkPtr ((ptr + 1) % (2 * size))
    let writes := s1.folioWrites x h (3 + q)
    let pointerOf := fun (t : State) => ((t.gth h).queue.at q).apWork.new
    let checked := fun (t : State) => s1.stage x.r ≠ 1 → (t.gth x.g).checkW ≠ none
    let residue := fun (t : State) => pointer.ok = false →
      ∃ f ∈ (t.region x.r).fails, f.quire = s1.exec x.r ∧ f.cause = 0x05 ∧ f.gth = h
    s1.folioTarget x (imm.toNat % 8) (imm.getLsbD 3) = some h → size ≠ 0 →
    (CellLeaf s s1 ca k .fpush x a b c → s1.qOut h q = true → Completes (.cellFpush ca k) s fun t => residue t ∧
      if size ≤ count then
        pointerOf t = pointerOf s1 ∧ checked t ∧ ∀ g n tt, (t.gth g).folioRead tt n = (s1.gth g).folioRead tt n
      else pointerOf t = (if writes then next else pointerOf s1) ∧ ∀ g n tt, (t.gth g).folioRead tt n =
        if g = h ∧ n = addr ∧ x.t < tt ∧ writes then storedForm b else (s1.gth g).folioRead tt n) ∧
    ∀ (i : Instr) (op : CellOp), (i, op) ∈ [(.cellFpop ca k, .fpop), (.cellFpeek ca k, .fpeek)] →
      CellLeaf s s1 ca k op x a b c → s1.qOut h q = false → Completes i s fun t => residue t ∧
        let w := if count = 0 then {} else gen (data44 ((s1.gth h).folioRead x.t addr))
        (t.cell x.key).returns = (s1.cell x.key).returns ++ [⟨x.t, Leaf.dst x.leaf, s1.cellWrites x, w⟩] ∧
        (count = 0 → checked t) ∧
        pointerOf t = if op = .fpop ∧ count ≠ 0 ∧ writes then next else pointerOf s1) ∧
  (∀ (ca : CellAddr) (k : LeafNo) (s s1 : State) (x : CellAt) (a b c : RWord),
    let imm := Leaf.imm x.leaf
    let ofs := imm.toNat / 16 % 2048
    let addr := if imm.getLsbD 15 then (ofs + a.d.toNat % 2048) % 2048 else ofs
    let q := imm.toNat / 2 ^ 16 % 4
    let target := s1.folioTarget x (imm.toNat % 8) (imm.getLsbD 3)
    let noWord := ∀ h, target = some h → s1.inQueue h addr = true
    let noQueue := fun (out : Bool) => ∀ h, target = some h → s1.qSize h q = 0 ∨ s1.qOut h q ≠ out
    let l := ((s1.gth x.g).press.at (imm.toNat % 2)).leaf.at x.k
    let noPress := ¬ (l.getLsbD 46 = true ∧ l.toNat / 2 ^ 40 % 64 = x.key % 64)
    let dropped := fun (t : State) => (∃ f ∈ (t.region x.r).fails, f.quire = s1.exec x.r ∧ f.cause = 0x01 ∧ f.gth = x.g) ∧
      ∀ g, FolioKept (s1.gth g) (t.gth g)
    (∀ (i : Instr) (op : CellOp), (i, op) ∈ [(.cellFst ca k, .fst), (.cellFpush ca k, .fpush), (.cellPput ca k, .pput)] →
      (match op with | .fst => noWord | .fpush => noQueue true | _ => noPress) →
      CellLeaf s s1 ca k op x a b c → Completes i s fun t => dropped t ∧ (t.cell x.key).v = (s1.cell x.key).v) ∧
    ∀ (i : Instr) (op : CellOp), (i, op) ∈ [(.cellFld ca k, .fld), (.cellFpop ca k, .fpop), (.cellFpeek ca k, .fpeek)] →
      (if op = .fld then noWord else noQueue false) →
      CellLeaf s s1 ca k op x a b c → Completes i s fun t => dropped t ∧
        ∃ d, (t.cell x.key).returns = (s1.cell x.key).returns ++ [⟨x.t, Leaf.dst x.leaf, s1.cellWrites x, ⟨d, badRes⟩⟩])

/-- R99 and R100: `pput` latches A and B as operands X and Y of the press block that names the cell; `pget` returns
the result word as it stands at the start of the leaf, and its failed residue is charged with cause 0x03. R101 to
R104, R107, R140: the queue tests give the queue as it stands at the start of the leaf, and of a queue beyond the
quadrant, of another region or disabled they are dropped (log entry 109); `hin`, `pin` and `hstat` give what was
captured at the start of the quire. -/
def Obligations.CellPressAndInputs : Prop :=
  (∀ (ca : CellAddr) (k : LeafNo) (s s1 : State) (x : CellAt) (a b c : RWord),
    let imm := Leaf.imm x.leaf
    let p := imm.toNat % 2
    let l := ((s1.gth x.g).press.at p).leaf.at x.k
    (CellLeaf s s1 ca k .pput x a b c → l.getLsbD 46 = true → l.toNat / 2 ^ 40 % 64 = x.key % 64 →
      Completes (.cellPput ca k) s fun t =>
        let o := (((t.gth x.g).press.at p).ops.new)
        o.x = ⟨a, x.t⟩ ∧ o.y = ⟨b, x.t⟩ ∧ (t.cell x.key).v = (s1.cell x.key).v) ∧
    ∀ (w : RWord) (at_ : Nat), (((s1.gth x.g).press.at p).rw.at (imm.toNat / 2 % 4)).read x.t = (w, at_) →
      at_ / 64 = x.t / 64 → CellLeaf s s1 ca k .pget x a b c →
      Completes (.cellPget ca k) s fun t => CellWrote (s1.chargeIf (!w.ok) x.r 0x03 x.g) t x
        { value := some w, flags := some ((s1.cell x.key).v.work.f.withZN w.d), tested := some w.d }) ∧
  (∀ (ca : CellAddr) (k : LeafNo) (s s1 : State) (x : CellAt) (a b c : RWord),
    let imm := Leaf.imm x.leaf
    let ch := (s1.capture x.r).hinges.at (64 * x.g + imm.toNat % 64)
    let result (w : RWord) : CellResult :=
      { value := some w, flags := some ((s1.cell x.key).v.work.f.withZN w.d), tested := some w.d }
    (∀ (h : Nat) (i : Instr) (op : CellOp) (d : Word), gthSide x.g (imm.toNat % 8) = some h →
      s1.sameRegion x.g h = true →
      let q := imm.toNat / 2 ^ 16 % 4
      let tail := (((s1.gth h).queue.at q).apWork.read x.t).1
      let count := s1.arrayCount h q tail.p ((s1.capture x.r).crp.at (4 * h + q))
      let wm := (s1.capture x.r).wm.at (4 * h + q)
      s1.qSize h q ≠ 0 →
      (i, op, d) ∈ [(.cellQempty ca k, .qempty, if count = 0 then 1 else 0),
        (.cellQfull ca k, .qfull, if count = s1.qSize h q then 1 else 0),
        (.cellQhigh ca k, .qhigh, if wm.1 ≤ count then 1 else 0), (.cellQlow ca k, .qlow, if count ≤ wm.2 then 1 else 0),
        (.cellQcount ca k, .qcount, BitVec.ofNat 40 count)] →
      CellLeaf s s1 ca k op x a b c → Completes i s fun t =>
        CellWrote (s1.chargeIf (!tail.ok) x.r 0x05 h) t x (result (gen d))) ∧
    (∀ (h : Option Nat) (i : Instr) (op : CellOp), gthSide x.g (imm.toNat % 8) = h →
      (∀ g, h = some g → s1.sameRegion x.g g = false ∨ s1.qSize g (imm.toNat / 2 ^ 16 % 4) = 0) →
      (i, op) ∈ [(.cellQempty ca k, .qempty), (.cellQfull ca k, .qfull), (.cellQhigh ca k, .qhigh),
        (.cellQlow ca k, .qlow), (.cellQcount ca k, .qcount)] →
      CellLeaf s s1 ca k op x a b c → Completes i s fun t =>
        (∃ f ∈ (t.region x.r).fails, f.quire = s1.exec x.r ∧ f.cause = 0x01 ∧ f.gth = x.g) ∧
        let y := (s1.chargeIf true x.r 0x01 x.g).draw 40
        CellWrote y.2 t x (result ⟨y.1, badRes⟩)) ∧
    (CellLeaf s s1 ca k .hin x a b c → Completes (.cellHin ca k) s fun t =>
      let w := if ch.assigned then ch.w else ⟨0, 0⟩
      CellWrote (s1.chargeIf (!w.ok) x.r 0x01 x.g) t x (result w)) ∧
    (CellLeaf s s1 ca k .hstat x a b c → Completes (.cellHstat ca k) s fun t =>
      let d := BitVec.ofNat 40 (ch.assigned.toNat + 2 * (ch.assigned && ch.running).toNat)
      CellWrote s1 t x (result (gen d))) ∧
    (CellLeaf s s1 ca k .pin x a b c → Completes (.cellPin ca k) s fun t =>
      let d := BitVec.ofNat 40 ((s1.capture x.r).pads.toNat / 2 ^ (24 * (imm.toNat % 8)) % 2 ^ 24)
      CellWrote s1 t x (result (gen d))))

/-- R145 to R147: `pmul`, `pmac`, `pmsu` and `pclr` set, add to, subtract from and clear the accumulator in the stage
of the next leaf, modulo 2^88 and in CPX lane by lane modulo 2^44, unless the block's cadence is disabled; `pnop`
leaves it and the result words. R147, R148 and R149: `pext` writes the accumulator as it stands at the start of its
leaf, shifted right and rounded half to even, modulo 2^40; a lane read whose residue fails gives residue 0b11. -/
def Obligations.PressLeaves : Prop :=
  (∀ (ga : GthAddr) (p : Fin 2) (k : LeafNo) (s : State) (r t : Nat) (l : BitVec 64) (x y xd yd : RWord),
    let g := gthAddrNo ga
    let old := (s.gth g).press.at p
    let o := (old.ops.read t).1
    let mode := l.toNat / 2 ^ 58 % 4
    s.pressReady g p k = some (r, t) → old.leaf.at k = l →
    (o.x.w, o.y.w, o.xd.w, o.yd.w) = (x, y, xd, yd) →
    (∀ w ∈ [o.x, o.y], w.at_ / 64 = t / 64) → (mode = 1 ∨ mode = 2 → ∀ w ∈ [o.xd, o.yd], w.at_ / 64 = t / 64) →
    let lo (d : RWord) (b : Bool) : Int := halfInt b 20 d.d.toNat
    let hi (d : RWord) (b : Bool) : Int := halfInt b 20 (d.d.toNat / 2 ^ 20)
    let all (d : RWord) (b : Bool) : Int := halfInt b 40 d.d.toNat
    let sx := l.getLsbD 57
    let sy := l.getLsbD 56
    let re : Int := match mode with
      | 0 => all x sx * all y sy
      | 1 => all x sx * lo y sy + all xd sx * lo yd sy
      | 2 => lo x sx * lo y sy + hi x sx * hi y sy + lo xd sx * lo yd sy + hi xd sx * hi yd sy
      | _ => lo x sx * lo y sy - hi x sx * hi y sy
    let im : Int := lo x sx * hi y sy + hi x sx * lo y sy
    let acc0 := (((old.settle t).1.settle (t + 2)).1.acc.work.v)
    let on := s.cadenceOn r ((s.gth g).unitCadence p)
    let accAfter (u : State) : BitVec 88 := (((u.gth g).press.at p).settle (t + 2)).1.acc.work.v
    (∀ (i : Instr) (n : Nat) (keep add : Int),
      (i, n, keep, add) ∈ [(.pmul ga p k, 1, 0, 1), (.pmac ga p k, 2, 1, 1), (.pmsu ga p k, 3, 1, -1), (.pclr ga p k, 5, 0, 0)] →
      effectivePop l = n → Completes i s fun u =>
        if on = false then accAfter u = acc0
        else if mode = 3 then
          (accAfter u).extractLsb' 0 44 = BitVec.ofInt 44 (keep * (acc0.extractLsb' 0 44).toNat + add * re) ∧
          (accAfter u).extractLsb' 44 44 = BitVec.ofInt 44 (keep * (acc0.extractLsb' 44 44).toNat + add * im)
        else accAfter u = BitVec.ofInt 88 (keep * acc0.toNat + add * re)) ∧
    (effectivePop l = 0 → Completes (.pnop ga p k) s fun u =>
      accAfter u = acc0 ∧ ((u.gth g).press.at p).rw = old.rw ∧ ((u.gth g).press.at p).ops = old.ops)) ∧
  (∀ (ga : GthAddr) (p : Fin 2) (k : LeafNo) (s : State) (r t : Nat) (l : BitVec 64),
    let g := gthAddrNo ga
    let old := (s.gth g).press.at p
    s.pressReady g p k = some (r, t) → old.leaf.at k = l → effectivePop l = 4 →
    let a := (old.settle t).1.acc.work
    let cpx := decide (l.toNat / 2 ^ 58 % 4 = 3)
    let lane := l.getLsbD 49
    let signed := l.getLsbD 57 || l.getLsbD 56
    let half := a.v.extractLsb' (if lane then 44 else 0) 44
    let v : Int := if cpx then (if signed then half.toInt else half.toNat) else if signed then a.v.toInt else a.v.toNat
    let sh : Nat := l.toNat / 2 ^ 50 % 64
    let okLow := decide (a.rl.toNat = (a.v.extractLsb' 0 44).toNat % 3)
    let okHigh := decide (a.rh.toNat = (a.v.extractLsb' 44 44).toNat % 3)
    Completes (.pext ga p k) s fun u => ∃ q : Int,
      2 * |v - q * 2 ^ sh| ≤ 2 ^ sh ∧ (2 * |v - q * 2 ^ sh| = 2 ^ sh → 2 ∣ q) ∧
      let w := ((((u.gth g).press.at p).rw.at (l.toNat / 2 ^ 47 % 4)).read (t + 1)).1
      w.d = BitVec.ofInt 40 q ∧
      w.r = if (if cpx then (if lane then okHigh else okLow) else okLow && okHigh) then resCode w.d.toNat else 3)

/-- R173 to R175: EXCHANGE_SEND sends each bound state word in the frame of its slot on the primary port toward its
destination and charges a failed read with cause 0x05; an exchange or poison frame that R174 does not discard, of an
attempt not yet voted on, is marked as seen, held where the device receives it and no later attempt's is held, and
relayed where it relays it, and poison charges cause 0x06 to its quire. R180 and R183: TOKEN_SEND merges the device's
own status into the token of the quire whose computation has ended and sends it on every up port; a token that comes
by itself or as a TOKEN_RESP is merged with the others of its attempt, unless that has been voted on; a TOKEN_REQ is
answered with the merged or final token, this device's index and its count. -/
def Obligations.ExchangeAndTokens : Prop :=
  (∀ (s : State) (r : Nat), s.systemRegion = some r →
    let e := s.getN F.qctExec_count r
    let att := s.getN F.qctStatus_attempt r
    let dev := s.getN F.fstSys_devidx 0
    (s.executes r = true → s.getN F.bndCase_stage r ≠ 1 → Completes .exchangeSend s fun t =>
      (∀ key, t.cell key = s.cell key) ∧
      ∀ g ∈ s.gthsOf r, ∀ m < 64,
        let x := (s.gth g).xplan.at m
        let word := ((s.cell (64 * g + XP.cell x)).settle (s.stamp r (s.len r))).v.work.s.at (XP.sw x)
        XP.valid x = true → s.bitF F.fstRoute_valid (XP.sendDst x) = true →
        (∀ g' ∈ s.gthsOf r, ∀ m' < 64, let y := (s.gth g').xplan.at m'
          XP.valid y = true → XP.slot y = XP.slot x →
            XP.word y < 30 ∧ XP.sendDst y = XP.sendDst x ∧ (XP.word y = XP.word x → g' = g ∧ m' = m)) →
        (∃ f ∈ (t.port (s.getN F.fstRoute_pri (XP.sendDst x))).txExch,
          f = schedFrame 0 (XP.slot x) dev (XP.sendDst x) (FH.snwords f) att e (frameWords f (FH.snwords f)) ∧
          XP.word x < FH.snwords f ∧ frameWord f (XP.word x) = word.d) ∧
        (word.ok = false → ⟨e, dev, 0x05, g⟩ ∈ (t.region r).fails)) ∧
    ∀ (p : PortId), ∀ i kind, (i, kind) ∈ ([(.exchangeFrame p, 0), (.poisonFrame p, 2)] : List (Instr × Nat)) →
      ∀ x, (s.port p).rx.find? (fun y => FH.cls y.2 == 1 && FH.kind y.2 == kind) = some x →
      s.getN F.qctStatus_state r ∉ [0, 5, 6, 7] → ∀ n ∈ [e, e + 1, e - 1], FH.quire x.2 = n % 2 ^ 13 →
      (n ≤ s.getN F.qctCommitted_count r + 2 → att ≤ FH.att x.2) →
      (n < e → n = s.getN F.qctCommitted_count r + 1 ∧ att < FH.att x.2) →
      s.receives r x.2 = true ∨ s.relays x.2 = true →
      Completes i s fun t =>
        ⟨n % 2 ^ 13, FH.ssrc x.2, FH.sdst x.2, FH.slot x.2, FH.att x.2⟩ ∈ (t.region r).seen ∧
        (s.receives r x.2 = true → (∀ y ∈ (s.region r).frames,
            y.src = FH.ssrc x.2 → y.slot = FH.slot x.2 → y.quire = FH.quire x.2 → y.att ≤ FH.att x.2) → ⟨FH.ssrc x.2, FH.sdst x.2, FH.slot x.2, FH.quire x.2, FH.att x.2, FH.snwords x.2,
          frameWords x.2 (FH.snwords x.2), kind == 2⟩ ∈ (t.region r).frames) ∧
        (s.relays x.2 = true → s.bitF F.fstRoute_valid (FH.sdst x.2) = true →
          x.2 ∈ (t.port (s.getN F.fstRoute_pri (FH.sdst x.2))).txExch) ∧
        (kind = 2 → ∃ x ∈ (t.region r).fails, x.quire = n ∧ x.dev = dev ∧ x.cause = 0x06) ∧
        (kind = 0 → (t.region r).fails = (s.region r).fails)) ∧
  (∀ (s : State) (r : Nat), s.systemRegion = some r →
    let n := s.getN F.qctCommitted_count r + 1
    let att := s.getN F.qctStatus_attempt r
    (s.executes r = true → n < s.getN F.qctExec_count r → Completes .tokenSend s fun t =>
      t.tokenOf r n = s.fullToken r n ∧
      ∀ q < 8, s.portUp q = true → (s.fullToken r n).frame s.devIdx att ∈ (t.port q).txToken) ∧
    ∀ (p : PortId) (pads : BitVec 192) (bad : BitVec 2),
      let after := fun (tok : Token) (t : State) =>
        ((tok.ok ||| tok.rp) &&& ~~~s.sysMask) = 0 →
        (tok.quire = n % 2 ^ 40 ∧ att ≤ tok.att) ∨ tok.quire = (n + 1) % 2 ^ 40 → (s.region r).waiting = false →
        let old := s.heldToken r tok.quire tok.att
        let merged := old.merge tok
        t.heldToken r tok.quire tok.att = merged ∧
        ((old.ok ||| old.rp).getLsbD s.devIdx = true → merged ≠ old → ∀ q < 8, s.portUp q = true →
          merged.frame s.devIdx att ∈ (t.port q).txToken)
      (∀ x, (s.port p).rx.find? (fun y => FH.cls y.2 == 1 && FH.kind y.2 == 1) = some x →
        Completes (.tokenFrame p pads bad) s (after { tokenOfWords (frameWords x.2 7) with att := FH.att x.2 })) ∧
      ∀ x, (s.port p).rx.find? (fun y => AF.isSeq y.2) = some x → FH.seq x.2 = (s.port p).expSeq → AF.isSys x.2 = true →
        let tok := tokenOfWords ((frameWords x.2 8).drop 1)
        (AF.cmd x.2 = 5 → Completes (.tokenResp p pads bad) s (after { tok with att := if tok.quire = n then att else 0 })) ∧
        (AF.cmd x.2 = 4 → Completes (.tokenReq p) s fun t =>
          (t.port p).txSys = (s.port p).txSys ++ [asyncFrame 2 (((s.port p).peer.map Prod.fst).getD 0) s.devIdx 8 0
            (BitVec.ofNat 40 (5 + s.devIdx * 2 ^ 8 + s.fst.cseq * 2 ^ 24) ::
              (s.answerToken r (frameWord x.2 1).toNat).words)]))

/-- R165, R184, R185 and R187: a codeword's lanes are decoded and descrambled, the four frames of a good one are kept
in the order of their positions and a bad one counts four failures; an ASYNC frame out of order is discarded with a
NAK, one in order is joined to the transaction of its source, stream and catchword, or forwarded; link control carries
credits, acknowledgement and NAK; a resend starts at the oldest frame and the sixteenth takes the port down. -/
def Obligations.PortTraffic : Prop :=
  ∀ (s : State) (p : PortId), s.portUp p = true →
    (∀ cw : Codeword,
      let d := decodeLanes cw.lanes
      let m := (descramble (s.port p).rxScr d.msg).1
      let good (f : Frame) : Bool := frameOk f && (FH.cls f == 1 || FH.cls f == 2) && FH.kind f != 3
      let bad := d.uncorrectable || cwHeader m != BitVec.ofNat 20 (0xC5 * 2 ^ 12 + (s.port p).rxCount)
      Completes (.codewordRx p cw) s fun t =>
        (t.port p).rxCount = ((s.port p).rxCount + 1) % 4096 ∧
        t.getN F.fstPortErr_corrsym p = min (s.getN F.fstPortErr_corrsym p + d.corrected) (2 ^ 16 - 1) ∧
        t.getN F.fstPortErr_uncorr p = min (s.getN F.fstPortErr_uncorr p + d.uncorrectable.toNat) (2 ^ 16 - 1) ∧
        (bad = true → (t.port p).rx = (s.port p).rx ∧
          t.getN F.fstPortErr_crcf p = min (s.getN F.fstPortErr_crcf p + 4) (2 ^ 16 - 1)) ∧
        (bad = false → (∀ i < 4, good (cwFrame m i) = true) →
          (t.port p).rx = (s.port p).rx ++ (List.range 4).map (fun i => (i, cwFrame m i)) ∧
          t.getN F.fstPortErr_crcf p = s.getN F.fstPortErr_crcf p)) ∧
    (∀ x, (s.port p).rx.find? (fun y => AF.isSeq y.2) = some x → AF.isData x.2 = true →
      let f := x.2
      let mine := decide (FH.adst f = s.devIdx)
      let own (a : AsyncPart) : Bool := a.vc == FH.vc f && a.src == FH.asrc f && a.stream == AF.stream f && a.cw == frameWord f 1
      let held := if AF.first f then some ⟨FH.vc f, FH.asrc f, AF.stream f, frameWord f 1, []⟩ else (s.port p).parts.find? own
      Completes (.asyncDataFrame p) s fun t =>
        (FH.seq f ≠ (s.port p).expSeq → (t.port p).nak = some (s.port p).expSeq ∧ (t.port p).linkDue = true ∧
          (t.port p).expSeq = (s.port p).expSeq ∧ (t.port p).rx = (s.port p).rx.erase x ∧ t.col = s.col) ∧
        (FH.seq f = (s.port p).expSeq → (t.port p).expSeq = ((s.port p).expSeq + 1) % 4096 ∧
          (mine = true → held = none → (t.port p).parts = (s.port p).parts ∧ t.col = s.col) ∧
          (mine = true → ∀ a, held = some a → (t.port p).parts = (s.port p).parts.filter (fun y => !own y) ++
            if AF.last f then [] else [{ a with words := a.words ++ ((frameWords f 30).drop 2).take (AF.ndata f) }]) ∧
          (mine = false → ∀ q, s.route (FH.adst f) = some q → (t.port q).txData = (s.port q).txData ++
            [if s.bitF F.fstPortCfg_dateline p then reframe f 2 1 1 else f]))) ∧
    (∀ x, (s.port p).rx.find? (fun y => AF.isLink y.2) = some x → Completes (.linkControlFrame p) s fun t =>
      let w := frameWord x.2 0
      (t.port p).cred0 = w.toNat % 512 ∧ (t.port p).cred1 = w.toNat / 512 % 512 ∧
      ∀ i, (s.port p).unacked.findIdx? (fun y => y.1 == FH.ackseq x.2) = some i →
        (t.port p).unacked = (s.port p).unacked.drop (i + 1) ∧ (t.port p).resends = 0 ∧
        ∀ j, ((s.port p).unacked.drop (i + 1)).findIdx? (fun y => y.1 == w.toNat / 2 ^ 20 % 4096) = some j →
          w.getLsbD 39 = true → (t.port p).again = ((s.port p).unacked.drop (i + 1)).drop j) ∧
    (Completes (.linkControlSend p) s fun t => (t.port p).linkDue = true) ∧
    ∀ a rest, (s.port p).unacked = a :: rest → Completes (.asyncResendTimeout p) s fun t =>
      if (s.port p).resends + 1 < 16 then
        (t.port p).again = (s.port p).unacked ∧ (t.port p).resends = (s.port p).resends + 1 ∧
        t.getN F.fstPortErr_resend p = min (s.getN F.fstPortErr_resend p + 1) (2 ^ 16 - 1)
      else t.getN F.fstPortStat_state p = 3 ∧ (t.port p).unacked = [] ∧ t.bitF F.fstSys_linkdown_ev 0 = true

/-- R189, R190, R195, R33 and R380: a system command received for the first time is scheduled and forwarded on every
other up port with the latency of its hop added, but for a START while the device pulls BOUND_N low, and a repeated
one does nothing; the command that is due first acts: START, RETRY or RELEASE. -/
def Obligations.SystemCommands : Prop :=
  ∀ (s : State) (pads : BitVec 192) (bad : BitVec 2),
    (∀ (p : PortId), ∀ i c,
      (i, c) ∈ ([(.syscmdStart p, 1), (.syscmdRetry p, 2), (.syscmdRelease p, 3)] : List (Instr × Nat)) →
      ∀ x, (s.port p).rx.find? (fun y => AF.isSeq y.2) = some x → AF.isSys x.2 = true → AF.cmd x.2 = c →
      FH.seq x.2 = (s.port p).expSeq → Completes i s fun t =>
        let key := (AF.origin x.2, AF.cseq x.2)
        let w2 : Word := frameWord x.2 2 + BitVec.ofNat 40 (s.getN F.fstPortStat_hoplat_ps p)
        if key ∈ s.fst.seenCmds then t.fst.scheduled = s.fst.scheduled
        else key ∈ t.fst.seenCmds ∧
          t.fst.scheduled = s.fst.scheduled ++
            (if c = 1 ∧ s.fst.pull = true then []
              else [⟨c, AF.origin x.2, AF.cseq x.2, frameWord x.2 1, s.actsAt w2.toNat⟩]) ∧
          ∀ q < 8, q ≠ p → s.portUp q = true → (t.port q).txSys = (s.port q).txSys ++
            [asyncFrame 2 (((s.port q).peer.map Prod.fst).getD 0) s.devIdx 3 0 [frameWord x.2 0, frameWord x.2 1, w2]]) ∧
    ∀ i < s.fst.scheduled.length, ∀ c, s.fst.scheduled[i]? = some c →
      (∀ j < s.fst.scheduled.length, ∀ x, s.fst.scheduled[j]? = some x → c.due ≤ x.due ∧ (x.due = c.due → i ≤ j)) →
      Completes (.syscmdAct pads bad) s fun t =>
      t.fst.scheduled = s.fst.scheduled.eraseIdx i ∧
      (c.cmd = 1 → if s.fst.pull then t.getN F.fstBound_state 0 = s.getN F.fstBound_state 0
        else t.getN F.fstBound_state 0 = 3 ∧ t.bitF F.fstBound_start_ev 0 = true) ∧
      ∀ r, s.systemRegion = some r →
        let st := s.getN F.qctStatus_state r
        let next := s.getN F.qctCommitted_count r + 1
        (c.cmd = 1 → s.fst.pull = false → st = 1 → s.getN F.bndCase_stage r = 1 →
          t.getN F.qctExec_count r = c.w1.toNat % 2 ^ 64) ∧
        (c.cmd = 2 → if st = 6 ∨ st = 7 then bad ≠ 3 → t.getN F.qctExec_count r = next % 2 ^ 64 ∧
          t.getN F.qctStatus_attempt r = 0 else t.getN F.qctStatus_state r = st) ∧
        (c.cmd = 3 → if st = 5 ∧ next % 2 ^ 40 = c.w1.toNat then t.getN F.qctExec_count r = next % 2 ^ 64 ∧
          t.getN F.qctStatus_state r = 2 ∧ t.getN F.qctStatus_attempt r = 0 else t.getN F.qctStatus_state r = st)

/-- R186 and R469: the transmit and receive sides move at their switch codewords, both moved ends the substitution and
record it, an unanswered REQUEST ends in 1 ms; a lane that loses signal is down and with AUTO takes a free cabled
spare; UPK_LANE.GO starts a substitution or is refused with its code. R193: EN rising trains a port whose PHYs have
power and EN falling turns it off; a training that finds the expected peer brings the port up with its latency and its
counts, any other peer takes it down; what it found of the cabled spares is learned; at the timeout a failed lane
takes a free cabled spare, and a lane without one takes the port down. -/
def Obligations.PortsAndLanes : Prop :=
  (∀ (s : State) (p : PortId),
    (∀ u : LaneSub, (s.port p).sub = some u →
      (Completes (.laneSwitchTx p) s fun t =>
        (t.port p).sub = some (if u.swcw = (s.port p).txCount then { u with txMoved := true } else u)) ∧
      (Completes (.laneSwitchRx p) s fun t =>
        if u.peerSwcw = some (s.port p).rxCount then
          if u.peerDone = true ∧ u.noted = false then
            t.getN (mapField u.lane) p = (64 + u.spare) % 128 ∧ t.bitF F.fstSpare_inuse u.spare = true ∧
            t.getN F.fstSpare_forport u.spare = p ∧ t.getN F.fstSpare_forlane u.spare = u.lane % 8
          else (t.port p).sub = some { u with rxMoved := true } ∧ (t.port p).linkDue = true
        else t = s) ∧
      Completes (.laneSubTimeout p) s fun t =>
        (t.port p).sub = if u.requester = true ∧ u.accepted = false then none else some u) ∧
    (∀ lane : Fin 8, s.portUp p = true → Completes (.laneSignalLoss p lane) s fun t =>
      (t.getF F.fstPortStat_lanedown p).getLsbD lane = true ∧
      if s.bitF F.upkLane_auto 0 = true ∧ (s.port p).sub = none ∧ (List.range 4).any (s.spareFits p ·) = true then
        ∃ u, (t.port p).sub = some u ∧ u.requester = true ∧ u.lane = lane ∧ s.spareFits p u.spare = true ∧
          u.swcw = ((s.port p).txCount + 256) % 4096
      else (t.port p).sub = (s.port p).sub) ∧
    ∀ v : BitVec 64, s.barOpen (RegId.upkLane.offset 0) = true → v.getLsbD 63 = true →
      let port := v.toNat / 8 % 8
      Completes (.upkLaneGo v) s fun t =>
        if s.laneCode v = 0 then ∃ u, (t.port port).sub = some u ∧ u.requester = true ∧ u.lane = v.toNat % 8 ∧
          u.spare = v.toNat / 2 ^ 8 % 4 ∧ t.getN F.upkLane_code 0 = 0
        else t.fst = s.fst ∧ t.getN F.upkLane_code 0 = s.laneCode v ∧ t.bitF F.upkLane_rej 0 = true) ∧
  (∀ (s : State) (p : PortId),
    let st := s.getN F.fstPortStat_state p
    (∀ v : BitVec 64, s.barOpen (RegId.fstPortCfg.offset p) = true → s.systemBound = false →
      (v.getLsbD 0 = true → v.toNat / 4 % 4 = 0 → s.bitF F.fstPortCfg_en p = false → s.domOn 4 = true →
        Completes (.portTrain p v) s fun t => t.getN F.fstPortStat_state p = 1 ∧ t.port p = {} ∧
          t.getN F.fstPortStat_lanedown p = 0 ∧ t.bitF F.fstPortCfg_en p = true) ∧
      (v.getLsbD 0 = false → v.toNat / 4 % 4 ≠ 3 → s.bitF F.fstPortCfg_en p = true →
        Completes (.portTrain p v) s fun t => t.getN F.fstPortStat_state p = 0 ∧ t.port p = {})) ∧
    let cabled (k : Nat) : Bool := s.bitF F.fstSpare_homeen k &&
      s.getN F.fstPortCfg_peerdev (s.getN F.fstSpare_homeport k) == s.getN F.fstPortCfg_peerdev p
    let learned (peer : TrainedPeer) (t : State) : Prop := ∀ k < 4, t.fst.spares.at k =
      if cabled k then ⟨peer.spareOk.getLsbD k, (peer.spareIdx.extractLsb' (2 * k) 2).toNat, peer.dev.toNat⟩
      else s.fst.spares.at k
    (st = 1 → ∀ peer : TrainedPeer, Completes (.portTrainingDone p peer) s fun t =>
      if peer.dev = s.getF F.fstPortCfg_peerdev p ∧ peer.port = s.getF F.fstPortCfg_peerport p then
        t.getN F.fstPortStat_state p = 2 ∧ t.getF F.fstPortStat_hoplat_ps p = peer.hopPs ∧
        t.port p = { peer := some (peer.dev.toNat, peer.port.toNat), rxCount := peer.count.toNat, rxScr := peer.scr } ∧
        learned peer t ∧
        (s.bitF F.fstSys_root 0 = false → s.getN F.fstSys_syncport 0 = p → t.getN F.fstSys_syncstate 0 = 1)
      else t.getN F.fstPortStat_state p = 3) ∧
    (st = 1 → s.getN F.fstPortStat_lanedown p = 0 → ∀ (lane : Fin 8) (peer : TrainedPeer),
      let fits (k : Nat) : Bool := cabled k && peer.spareOk.getLsbD k && !s.bitF F.fstSpare_inuse k &&
        (List.range 8).all fun q => match (s.port q).sub with
          | some u => u.spare != k
          | none => true
      Completes (.trainingTimeout p ⟨1#8 <<< lane.val, peer⟩) s fun t => learned peer t ∧
        if (List.range 4).any fits then
          t.getN F.fstPortStat_state p = 1 ∧ ∃ k ∈ List.range 4, fits k = true ∧
            t.getN (mapField lane) p = 64 + k ∧ t.bitF F.fstSpare_inuse k = true ∧ t.getN F.fstSpare_forport k = p ∧
            t.getN F.fstSpare_forlane k = lane
        else t.getN F.fstPortStat_state p = 3))

/-- R191, R195 and R196: with the line released and no pull of its own the device leaves WAIT, and the root sends
START with W1 = 1; a wait that is too long, for the line or for START, ends in TIMEDOUT; a line that falls later stops
nothing; and the loss of SYNCPORT lock goes to ALTPORT or holds the clock. -/
def Obligations.AlignedStart : Prop :=
  ∀ s : State,
    let st := s.getN F.fstBound_state 0
    (s.fst.pull = false → Completes .boundRiseQualified s fun t =>
      t.bitF F.fstBound_line 0 = true ∧
      t.getN F.fstBound_state 0 = (if st = 1 ∨ st = 4 then 2 else st) ∧
      t.fst.scheduled = s.fst.scheduled ++
        (if (st = 1 ∨ st = 4) ∧ s.bitF F.fstSys_root 0 = true then [⟨1, s.devIdx, s.fst.cseq, 1, s.actsAt 0⟩] else [])) ∧
    (st = 1 → Completes .boundWaitTimeout s fun t =>
      t.getN F.fstBound_state 0 = 4 ∧ t.bitF F.fstBound_timeout_ev 0 = true) ∧
    (st = 2 → Completes .startWaitTimeout s fun t =>
      t.getN F.fstBound_state 0 = 4 ∧ t.bitF F.fstBound_timeout_ev 0 = true) ∧
    (Completes .boundNFall s fun t => t.bitF F.fstBound_line 0 = false ∧ t.getN F.fstBound_state 0 = st ∧
      t.arr = s.arr ∧ t.fst = s.fst) ∧
    (s.bitF F.fstSys_root 0 = false → s.getN F.fstSys_syncstate 0 = 1 → Completes .syncportLockLoss s fun t =>
      t.bitF F.fstSys_syncloss_ev 0 = true ∧
      if s.bitF F.fstSys_alten 0 then t.getN F.fstSys_syncstate 0 = 2 ∧ t.bitF F.clkStat_hold 0 = s.bitF F.clkStat_hold 0
      else t.getN F.fstSys_syncstate 0 = 3 ∧ t.bitF F.clkStat_hold 0 = true)

/-- R222, R223, R230 and R231: an addition, difference, absolute value, left shift or block scaling writes its exact
value wrapped to 40 bits, with V where it lies outside −2^39 to 2^39 − 1; with S = 1 it then writes the nearest limit
and sets SV. C is the carry of the wrapping sum or the last bit moved out, and `abs` and `bsc` keep it; nothing else
of the bank changes. -/
def Obligations.AwlArithmetic : Prop :=
  ∀ (c : CoreId) (s : State) (v : Nat) (w : Word) (l : Level),
    let a := (l.gRead (AI.ra w)).d
    let b := (l.gRead (AI.rb w)).d
    let imm := (AI.imm23 w).signExtend 40
    let n := b.toNat % 64
    let k := (AI.imm23 w).toNat % 64
    let cf := l.st.d.getLsbD 3
    let bshift := (l.st.d.extractLsb' 24 7).toInt
    let out (n : Nat) : Bool := decide (0 < n ∧ n ≤ 40) && a.getLsbD (40 - n)
    ∀ (i : Instr) (o : AwlOp) (e : Int) (carry sat : Bool),
      (i, o, e, carry, sat) ∈ [
        (.awlAdd c, .add, a.toInt + b.toInt, decide (2 ^ 40 ≤ a.toNat + b.toNat), AI.sR w),
        (.awlSub c, .sub, a.toInt - b.toInt, decide (b.toNat ≤ a.toNat), AI.sR w),
        (.awlAdc c, .adc, a.toInt + b.toInt + cf.toNat, decide (2 ^ 40 ≤ a.toNat + b.toNat + cf.toNat), AI.sR w),
        (.awlSbc c, .sbc, a.toInt - b.toInt - 1 + cf.toNat, decide (b.toNat + 1 ≤ a.toNat + cf.toNat), AI.sR w),
        (.awlAbs c, .abs, |a.toInt|, cf, AI.sR w), (.awlNeg c, .neg, -a.toInt, decide (a = 0), AI.sR w),
        (.awlShl c, .shl, a.toInt * 2 ^ n, out n, AI.sR w), (.awlShli c, .shli, a.toInt * 2 ^ k, out k, AI.sI w),
        (.awlAddi c, .addi, a.toInt + imm.toInt, decide (2 ^ 40 ≤ a.toNat + imm.toNat), AI.sI w)] ∨
      (i = .awlBsc c ∧ o = .bsc ∧ carry = cf ∧ sat = AI.sR w ∧
        if 0 ≤ bshift then e = a.toInt * 2 ^ bshift.toNat
        else 2 * |a.toInt - e * 2 ^ (-bshift).toNat| ≤ 2 ^ (-bshift).toNat ∧
          (2 * |a.toInt - e * 2 ^ (-bshift).toNat| = 2 ^ (-bshift).toNat → 2 ∣ e)) →
      AwlRun s c o v w l → Completes i s fun t =>
        let past := decide (e < -2 ^ 39 ∨ 2 ^ 39 - 1 < e)
        let d := if sat && past then BitVec.ofInt 40 (if e < 0 then -2 ^ 39 else 2 ^ 39 - 1) else BitVec.ofInt 40 e
        ∃ m, AwlAfter s t c v o w l m 1 l.nextPc ∧ BankWrote l m (some (AI.rd w, d))
          (stBits (some carry) (some (decide (d = 0))) (some (d.getLsbD 39)) (some past) (if sat && past then some true else none))

/-- R230 and R231: the other ALU-group and immediate instructions write the word of their row with Z and N, a right
shift C as well; `cmp` and `cmpi` write the flags of the difference only, and `nop` nothing. -/
def Obligations.AwlWords : Prop :=
  ∀ (c : CoreId) (s : State) (v : Nat) (w : Word) (l : Level),
    let a := (l.gRead (AI.ra w)).d
    let b := (l.gRead (AI.rb w)).d
    let imm := (AI.imm23 w).signExtend 40
    let own := (l.gRead (AI.rd w)).d
    let n := b.toNat % 64
    let k := (AI.imm23 w).toNat % 64
    (∀ (i : Instr) (o f : AwlOp) (z : Nat) (x y : Word),
      (i, o, f, z, x, y) ∈ [(.awlAnd c, .and, .and, 0, a, b), (.awlOr c, .or, .or, 0, a, b), (.awlXor c, .xor, .xor, 0, a, b),
        (.awlAndn c, .andn, .andn, 0, a, b), (.awlShr c, .shr, .shr, n, a, b), (.awlSar c, .sar, .sar, n, a, b),
        (.awlRol c, .rol, .rol, n, a, b), (.awlMins c, .mins, .mins, 0, a, b), (.awlMaxs c, .maxs, .maxs, 0, a, b),
        (.awlMov c, .mov, .mov, 0, a, b), (.awlRsb c, .rsb, .rsb, 0, a, b), (.awlLzc c, .lzc, .lzc, 0, a, b),
        (.awlPopc c, .popc, .popc, 0, a, b), (.awlAndi c, .andi, .and, 0, a, imm), (.awlOri c, .ori, .or, 0, a, imm),
        (.awlXori c, .xori, .xor, 0, a, imm), (.awlShri c, .shri, .shr, k, a, b), (.awlSari c, .sari, .sar, k, a, b),
        (.awlMovi c, .movi, .movi, 0, a, imm), (.awlMovhi c, .movhi, .movhi, 0, own, imm)] →
      AwlRun s c o v w l → Completes i s fun t => ∃ m d, AwlAfter s t c v o w l m 1 l.nextPc ∧ AluWord f z x y d ∧
        BankWrote l m (some (AI.rd w, d)) (stBits (if f = .shr ∨ f = .sar then some (rightCarry f z x) else none)
          (some (decide (d = 0))) (some (d.getLsbD 39)) none none)) ∧
    (∀ (i : Instr) (o : AwlOp) (y : Word), (i, o, y) ∈ [(.awlCmp c, .cmp, b), (.awlCmpi c, .cmpi, imm)] →
      AwlRun s c o v w l → Completes i s fun t => ∃ m, AwlAfter s t c v o w l m 1 l.nextPc ∧ BankWrote l m none
        (stBits (some (decide (y.toNat ≤ a.toNat))) (some (decide (a = y))) (some ((a - y).getLsbD 39))
          (some (decide (a.toInt - y.toInt < -2 ^ 39 ∨ 2 ^ 39 - 1 < a.toInt - y.toInt))) none)) ∧
    (AwlRun s c .nop v w l → Completes (.awlNop c) s fun t => AwlAfter s t c v .nop w l l 1 l.nextPc)

/-- R209, R215, R223 and R230: loads and stores through a pointer or an index: the word, its address, the pointer's
update, the block exponent, and every DMEM word that is not stored to as it was. `stm` and `ldm` move one register
with each command, the lowest of MASK that LSM_PROG does not show; the last one moves the pointer and the PC and
clears LSM_PROG. -/
def Obligations.AwlMemory : Prop :=
  ∀ (c : CoreId) (s : State) (v : Nat) (w : Word) (l l' : Level) (a : Nat),
    let k := AI.pk w
    let p := (l.p.at k).d.toNat % 65536
    let cfg := (l.pcfg.at k).d
    let dmem (t : State) := (t.core c).dmem
    let byPointer := (AI.am w = 0 ∧ (a : Int) = (p + AI.ofs w) % 65536 ∧ l' = l) ∨
      (AI.am w ≠ 0 ∧ a = p ∧ ∃ q, PointerTo p cfg (if AI.am w = 1 then AI.ofs w else (cfg.extractLsb' 34 6).toInt) q ∧
        l' = { l with p := l.p.put k (gen (BitVec.ofNat 40 q)) })
    let byIndex := (a : Int) = ((l.gRead (AI.ra w)).d.toInt + (AI.imm23 w).toInt) % 65536 ∧ l' = l
    let tracked (m : Level) (d : Word) : Prop := if l.st.d.getLsbD 8 then
        ∃ x, AluWord .rsb 0 d d x ∧ m.bexp = gen (BitVec.ofNat 40 (min (l.bexp.d.toNat % 64) x.toNat)) else m.bexp = l.bexp
    (∀ (i : Instr) (o : AwlOp) (d : Word), (i, o) ∈ [(.awlLd c, .ld), (.awlLdx c, .ldx)] →
      (o = .ld → byPointer) → (o = .ldx → byIndex) → s.DmemWord c a d → AwlRun s c o v w l → Completes i s fun t =>
        dmem t = dmem s ∧ ∃ m, AwlAfter s t c v o w l m 1 l.nextPc ∧ BankWrote l' m (some (AI.rd w, d)) fun _ => none) ∧
    (∀ (i : Instr) (o : AwlOp), (i, o) ∈ [(.awlSt c, .st), (.awlStx c, .stx)] →
      (o = .st → byPointer) → (o = .stx → byIndex) → AwlRun s c o v w l → Completes i s fun t =>
        let d := (l.gRead (AI.rd w)).d
        (∀ x, (dmem t).at x = if x = a then store44 d else (dmem s).at x) ∧
        ∃ m, AwlAfter s t c v o w l m 1 l.nextPc ∧ tracked m d ∧ BankWrote l' { m with bexp := l'.bexp } none fun _ => none) ∧
    (∀ (i : Instr) (o : AwlOp), (i, o) ∈ [(.awlStm c, .stm), (.awlLdm c, .ldm)] → (s.core c).rep = none →
      let ptr := 4 + AI.pkM w
      let base := (l.p.at ptr).d.toNat % 65536
      let todo (j : Nat) : Bool := (AI.mask w).getLsbD j && !l.lsm.d.getLsbD j
      let addr (j : Nat) : Nat := (base + (List.range j).countP fun x => (AI.mask w).getLsbD x) % 65536
      let closed (m : Level) : Level := { m with p := l.p.put ptr (gen (BitVec.ofNat 40 (addr 32))), lsm := gen 0 }
      AwlRun s c o v w l →
        ((∀ j, j < 32 → todo j = false) → Completes i s fun t => dmem t = dmem s ∧ AwlAfter s t c v o w l (closed l) 1 l.nextPc) ∧
        ∀ j, j < 32 → todo j = true → (∀ x, x < j → todo x = false) → (j < 16 ∨ l.wstat.ok = true) →
          let last := (List.range 32).all fun x => x == j || !todo x
          let from_ := if last then closed l else { l with lsm := gen (l.lsm.d ||| 1#40 <<< j) }
          let next := if last then l.nextPc else l.pc
          let d := data44 ((dmem s).at (addr j))
          (o = .stm → (l.gRead j).ok = true → Completes i s fun t =>
            (∀ x, (dmem t).at x = if x = addr j then store44 (l.gRead j).d else (dmem s).at x) ∧ ∃ m,
              AwlAfter s t c v o w l m 1 next ∧ tracked m (l.gRead j).d ∧
              BankWrote from_ { m with bexp := l.bexp } none fun _ => none) ∧
          (o = .ldm → badSlices ((dmem s).at (addr j)) = 0 → Completes i s fun t => dmem t = dmem s ∧
            ∃ m, AwlAfter s t c v o w l m 1 next ∧ BankWrote from_ m (some (j, d)) fun _ => none))

/-- R210 to R213, R221, R230 and R232: a branch goes to TGT when its condition holds; `call` enters the next window
and `ret` leaves it, with a spill and a fill at the ends of the window stack; `jr` goes to RA, and `rep` repeats what
follows. -/
def Obligations.AwlControlFlow : Prop :=
  ∀ (c : CoreId) (s : State) (v : Nat) (w : Word) (l : Level),
    let f (i : Nat) : Bool := l.st.d.getLsbD i
    let C := f 3
    let Z := f 2
    let N := f 1
    let V := f 0
    let holds := [true, Z, !Z, C, !C, N, !N, V, !V, C && !Z, !C || Z, N == V, N != V, !Z && N == V, Z || N != V].getD (AI.cc w) false
    let frame (i : Nat) : Nat := l.sparea.d.toNat % 65536 + 17 * i
    let limit := if l.sparea.d.toNat / 65536 % 65536 = 0 then 65536 else l.sparea.d.toNat / 65536 % 65536
    let dmem (t : State) := (t.core c).dmem
    let rest (m : Level) : Prop := m.g = l.g ∧ m.acc = l.acc ∧ m.p = l.p ∧ m.st = l.st ∧ m.lsm = l.lsm
    (AwlRun s c .b v w l → Completes (.awlB c) s fun t =>
      AwlAfter s t c v .b w l l (if holds then 2 else 1) (if holds then w.toNat % 32768 else l.nextPc)) ∧
    (AwlRun s c .jr v w l → Completes (.awlJr c) s fun t =>
      AwlAfter s t c v .jr w l l 2 ((l.gRead (AI.ra w)).d.toNat % 32768)) ∧
    (AwlRun s c .call v w l → l.res ≤ 4 →
      (l.res = 4 → frame l.spilled + 17 ≤ limit ∧ ∀ i, i < 16 → (l.win.at (16 * ((l.cwp + 1) % 4) + i)).ok = true) →
      Completes (.awlCall c) s fun t => ∃ m, AwlAfter s t c v .call w l m (if l.res = 4 then 19 else 2) (w.toNat % 32768) ∧
        rest m ∧ m.win = l.win ∧ m.cwp = (l.cwp + 1) % 4 ∧ m.link = l.link.put m.cwp l.nextPc ∧
        m.res = min (l.res + 1) 4 ∧ m.spilled = (if l.res = 4 then l.spilled + 1 else l.spilled) % 4096 ∧
        ∀ x, (dmem t).at x = if l.res = 4 ∧ frame l.spilled ≤ x ∧ x < frame l.spilled + 17 then
            store44 (if x = frame l.spilled + 16 then BitVec.ofNat 40 (l.link.at m.cwp)
              else (l.win.at (16 * m.cwp + (x - frame l.spilled))).d)
          else (dmem s).at x) ∧
    (AwlRun s c .ret v w l → 1 ≤ l.res → l.res ≤ 4 →
      let from_ := frame (l.spilled - 1)
      let below := (l.cwp + 3) % 4
      (l.res = 1 → l.spilled ≠ 0 ∧ ∀ i, i < 17 → badSlices ((dmem s).at ((from_ + i) % 65536)) = 0) →
      Completes (.awlRet c) s fun t => ∃ m, AwlAfter s t c v .ret w l m (if l.res = 1 then 19 else 2) (l.link.at l.cwp) ∧
        rest m ∧ dmem t = dmem s ∧ m.cwp = below ∧ m.res = max (l.res - 1) 1 ∧
        m.spilled = (if l.res = 1 then l.spilled - 1 else l.spilled) ∧
        (∀ i, i < 64 → m.win.at i = if l.res = 1 ∧ i / 16 = below then
          gen (data44 ((dmem s).at ((from_ + i % 16) % 65536))) else l.win.at i) ∧
        (l.res = 1 → m.link.at below = (data44 ((dmem s).at ((from_ + 16) % 65536))).toNat % 32768)) ∧
    (AwlRun s c .rep v w l → ∀ o, badSlices ((s.core c).imem.at l.nextPc) = 0 →
      decodeAwl (data44 ((s.core c).imem.at l.nextPc)) = some o → repeatable o = true → Completes (.awlRep c) s fun t =>
        (t.core c).rep = some (w.toNat % 1024 + 1) ∧ (t.level c v).pc = l.nextPc ∧ (t.level c v).own = l.own + 1)

/-- R216 to R220: a press instruction issues its product of registers or of DMEM through two stepped pointers; a
result that is due is visible three own cycles later, added, subtracted or set modulo 2^88 or by 44-bit lanes; `ext`
writes the accumulator shifted right and rounded half to even, clamped with S = 1. -/
def Obligations.AwlPress : Prop :=
  ∀ (c : CoreId) (s : State) (v : Nat) (w : Word) (l : Level),
    let issued (m : Level) (acc pop mode : Nat) (sat : Bool) (p : Int × Int) : Level :=
      { m with flights := m.flights ++ [⟨acc, pop, mode == 3, sat, p.1, p.2, l.own, none⟩] }
    (∀ (i : Instr) (o : AwlOp) (pop : Nat), (i, o, pop) ∈ [(.awlMul c, .mul, 1), (.awlMac c, .mac, 2), (.awlMsu c, .msu, 3)] →
      AwlRun s c o v w l → Completes i s fun t => AwlAfter s t c v o w l (issued l (AI.ad w) pop (AI.modeX w) (AI.sX w)
        (awlPress (AI.modeX w) (AI.saX w) (AI.sbX w) (l.gRead (AI.raX w)).d (l.gRead (AI.rbX w)).d)) 1 l.nextPc) ∧
    (AwlRun s c .aclr v w l → Completes (.awlAclr c) s fun t =>
      AwlAfter s t c v .aclr w l (issued l (AI.ad w) 5 0 false (0, 0)) 1 l.nextPc) ∧
    (∀ (i : Instr) (o : AwlOp) (pop qa qb : Nat) (x y : Word), (i, o, pop) ∈ [(.awlMacp c, .macp, 2), (.awlMsup c, .msup, 3)] →
      let ptr (k : Nat) : Nat := (l.p.at k).d.toNat % 65536
      let stepped (k p q : Nat) : Prop := PointerTo p (l.pcfg.at k).d (((l.pcfg.at k).d.extractLsb' 34 6).toInt) q
      stepped (AI.pa w) (ptr (AI.pa w)) qa → stepped (AI.pb w) (if AI.pb w = AI.pa w then qa else ptr (AI.pb w)) qb →
      s.DmemWord c (ptr (AI.pa w)) x → s.DmemWord c (ptr (AI.pb w)) y →
      AwlRun s c o v w l → Completes i s fun t => AwlAfter s t c v o w l (issued { l with
          p := (l.p.put (AI.pa w) (gen (BitVec.ofNat 40 qa))).put (AI.pb w) (gen (BitVec.ofNat 40 qb)) }
        (AI.ad w) pop (AI.modeP w) (AI.sP w) (awlPress (AI.modeP w) (AI.saP w) (AI.sbP w) x y)) 1 l.nextPc) ∧
    (∀ f : PressFlight, l.flights = [f] → f.shadow = none → f.sat = false → l.own = f.issued + 3 →
      let a := (l.acc.at f.acc).v
      let new := (l.landDue.1.acc.at f.acc).v
      let sum (w : Nat) (x : BitVec w) (p : Int) : BitVec w := if f.pop = 1 then BitVec.ofInt w p
        else if f.pop = 2 then x + BitVec.ofInt w p else if f.pop = 3 then x - BitVec.ofInt w p else 0
      if f.cpx then new.extractLsb' 0 44 = sum 44 (a.extractLsb' 0 44) f.p ∧
        new.extractLsb' 44 44 = sum 44 (a.extractLsb' 44 44) f.pi
      else new = sum 88 a f.p) ∧
    (AwlRun s c .ext v w l → (l.acc.at (AI.ad w)).ok = true → Completes (.awlExt c) s fun t => ∃ (q : Int) (m : Level),
      let a := (l.acc.at (AI.ad w)).v
      let signed := AI.saX w || AI.sbX w
      let half := a.extractLsb' (if AI.rbX w = 1 then 44 else 0) 44
      let value : Int := if AI.modeX w = 3 then (if signed then half.toInt else half.toNat) else if signed then a.toInt else a.toNat
      let sh := AI.shift w
      let low : Int := if signed then -2 ^ 39 else 0
      let high : Int := if signed then 2 ^ 39 - 1 else 2 ^ 40 - 1
      let past := AI.sX w && decide (q < low ∨ high < q)
      let d := BitVec.ofInt 40 (if past then (if q < low then low else high) else q)
      2 * |value - q * 2 ^ sh| ≤ 2 ^ sh ∧ (2 * |value - q * 2 ^ sh| = 2 ^ sh → 2 ∣ q) ∧
      AwlAfter s t c v .ext w l m 1 l.nextPc ∧
      BankWrote l { m with bexp := l.bexp } (some (AI.rdX w, d))
        (stBits none (some (decide (d = 0))) (some (d.getLsbD 39)) none (if past then some true else none)) ∧
      if l.st.d.getLsbD 8 then ∃ x, AluWord .rsb 0 d d x ∧ m.bexp = gen (BitVec.ofNat 40 (min (l.bexp.d.toNat % 64) x.toNat))
      else m.bexp = l.bexp)

/-- R224 to R227: a transfer on a free tag is posted and its tag BUSY, or REFUSED in the reserved space; on a busy tag
the level waits, and a put of more than 58 words to a queue keeps the rest until the first packet is answered; `xwait`
waits for its tags and `xstat` reads one; a Collator instruction posts its message, and the level waits, goes on, or
becomes IDLE with its activation. -/
def Obligations.AwlRequests : Prop :=
  ∀ (c : CoreId) (s : State) (v : Nat) (w : Word) (l : Level),
    let ra (x : Nat) : Word := (l.gRead x).d
    let posted (t : State) (client dst kind tag : Nat) : Prop :=
      ∃ o ∈ (t.station (coreStation c)).out, o.client = client ∧ o.dst = dst ∧ o.kind = kind ∧ o.tag = tag
    let state (t : State) : LevelState := (t.level c v).state
    (∀ (i : Instr) (o : AwlOp) (get : Bool), (i, o, get) ∈ [(.awlXget c, .xget, true), (.awlXput c, .xput, false)] →
      AwlRun s c o v w l → Completes i s fun t =>
        let tag := AI.tag w
        let remote := ra (AI.raT w)
        let space := remote.toNat / 2 ^ 38
        if (l.tags.at tag).busy then
          state t = .wait (.tags (1#16 <<< tag)) ∧ (t.level c v).pc = l.pc ∧ t.ring = s.ring
        else if space = 3 then (t.level c v).tags.at tag = { status := 5 } ∧ t.ring = s.ring ∧ (t.level c v).pc =
          if repLeft s c = 0 then l.nextPc else l.pc
        else
          let from_ := (ra (AI.rbT w)).toNat % 65536
          let two := !get && decide (58 < AI.lenT w)
          (t.level c v).tags.at tag = ⟨true, 1, 0, get, from_, if two && space != 1 then 2 else 1, 0,
            if two && space == 1 then some (remote, (List.range (AI.lenT w - 58)).map fun i =>
              data44 ((s.core c).dmem.at ((from_ + 58 + i) % 65536))) else none⟩ ∧ state t = .ready ∧
          posted t (corePos c) (if space = 0 then (if s.channelOf (remote.toNat % 2 ^ 38 / 12) < 8 then 9 else 19)
              else gthStation (remote.toNat / (if space = 1 then 4 else 2048) % 4096))
            (if space = 0 then (if get then 0 else 1) else if space = 1 then (if get then 3 else 2) else if get then 4 else 5)
            (16 * v + tag)) ∧
    (AwlRun s c .xwait v w l → Completes (.awlXwait c) s fun t =>
      if ∃ j ∈ List.range 16, w.getLsbD j = true ∧ (l.tags.at j).busy = true then state t = .wait (.tags (w.setWidth 16))
      else AwlAfter s t c v .xwait w l l 1 l.nextPc) ∧
    (AwlRun s c .xstat v w l → Completes (.awlXstat c) s fun t => ∃ m, AwlAfter s t c v .xstat w l m 1 l.nextPc ∧
      let x := l.tags.at (w.toNat % 16)
      BankWrote l m (some (AI.rd w, BitVec.ofNat 40 (x.status + 16 * x.count))) fun _ => none) ∧
    (∀ (i : Instr) (o : AwlOp) (n rd : Nat),
      (i, o, n, rd) ∈ [(.awlTake c, .take, 0, 0), (.awlGive c, .give, 1, AI.rd w), (.awlLock c, .lock, 4, AI.rd w),
        (.awlYield c, .yield, 6, 0)] →
      (o = .give → ∀ j, j < 7 → badSlices ((s.core c).dmem.at (((ra (AI.ra w)).toNat + j) % 65536)) = 0) →
      AwlRun s c o v w l → Completes i s fun t => state t = .wait (.collator n rd) ∧
        posted t (corePos c) 4 6 (16 * v + n) ∧ (t.core c).running = none ∧
        (t.level c v).pc = if repLeft s c = 0 then l.nextPc else l.pc) ∧
    (AwlRun s c .unlock v w l → Completes (.awlUnlock c) s fun t =>
      AwlAfter s t c v .unlock w l l 1 l.nextPc ∧ posted t (corePos c) 4 6 (16 * v + 5)) ∧
    (∀ (i : Instr) (o : AwlOp) (n : Nat), (i, o, n) ∈ [(.awlDone c, .done, 2), (.awlDefer c, .defer, 3)] →
      AwlRun s c o v w l → l.hasItem = true → Completes i s fun t =>
        posted t (corePos c) 4 6 (16 * v + n) ∧ (t.level c v).hasItem = false ∧
        state t = if w.getLsbD 0 then .idle else .ready)

/-- R207, R208, R214 and R223: `srd` and `swr` read and write the special registers of the table, with PRIV kept and
SPAREA and BANKWIN privileged; `bget` and `bput` reach the bank that BANKWIN names; `bexp` and `bfix` take the block
exponent, and `priv` sets ST.PRIV in levels 6 and 7 only. -/
def Obligations.AwlSpecialRegisters : Prop :=
  ∀ (c : CoreId) (s : State) (v : Nat) (w : Word) (l : Level),
    let i := w.toNat % 256
    let a := (l.gRead (AI.ra w)).d
    let special : List (Nat × RWord) := [(0, l.st), (1, l.wstat), (2, l.lsm), (3, l.bexp), (4, l.sparea), (5, l.bankwin),
      (6, gen (BitVec.ofNat 40 (v + 256 * c))),
      (7, gen ((s.core c).cycle + BitVec.ofNat 40 (awlStall (s.level c v) .srd w)))] ++
      (List.range 8).map (fun k => (8 + k, l.pcfg.at k)) ++ (List.range 8).map fun k => (16 + k, l.p.at k)
    let privileged := l.st.d.getLsbD 7
    (∀ x : RWord, (i, x) ∈ special → x.ok = true → AwlRun s c .srd v w l → Completes (.awlSrd c) s fun t =>
      ∃ m, AwlAfter s t c v .srd w l m 1 l.nextPc ∧ BankWrote l m (some (AI.rd w, x.d)) fun _ => none) ∧
    (∀ m : Level, (i, m) ∈ [(0, { l with st := gen ((l.st.d &&& 0x80#40) ||| (a &&& 0x7F00_014F#40)) }),
        (2, { l with lsm := gen (a &&& 0xFFFF_FFFF#40) }), (4, { l with sparea := gen (a &&& 0xFFFF_FFFF#40) }),
        (5, { l with bankwin := gen (a &&& 0xF#40) })] ++
        (List.range 8).map (fun k => (8 + k, { l with pcfg := l.pcfg.put k (gen a) })) ++
        (List.range 8).map (fun k => (16 + k, { l with p := l.p.put k (gen (a &&& 0xFFFF#40)) })) →
      (i = 4 ∨ i = 5 → privileged = true) → (8 ≤ i ∧ i < 16 → a.toNat / 2 ^ 32 % 4 ≠ 3) →
      AwlRun s c .swr v w l → Completes (.awlSwr c) s fun t => AwlAfter s t c v .swr w l m 1 l.nextPc) ∧
    (privileged = true → l.bankwin.d.getLsbD 3 = true →
      let u := l.bankwin.d.toNat % 8
      let bank := if u = v then l else s.level c u
      let piece (x : Level) : BitVec 88 := (x.acc.at ((i - 0x20) / 3)).v
      let j := (i - 0x20) % 3
      (∀ x : RWord, (i, x) ∈ (List.range 32).map (fun k => (k, bank.gRead k)) ++ [(0x30, bank.st), (0x31, bank.wstat),
          (0x32, bank.lsm), (0x33, bank.bexp), (0x34, bank.sparea), (0x48, gen (BitVec.ofNat 40 bank.pc))] ++
          (List.range 8).map (fun k => (0x38 + k, bank.p.at k)) ++ (List.range 8).map (fun k => (0x40 + k, bank.pcfg.at k)) ++
          (if 0x20 ≤ i ∧ i < 0x2C ∧ (bank.acc.at ((i - 0x20) / 3)).ok then
            [(i, gen (BitVec.ofNat 40 ((piece bank).toNat / 2 ^ (40 * j))))] else []) →
        x.ok = true → AwlRun s c .bget v w l → Completes (.awlBget c) s fun t =>
          ∃ m, AwlAfter s t c v .bget w l m 1 l.nextPc ∧ BankWrote l m (some (AI.rd w, x.d)) fun _ => none) ∧
      (AwlRun s c .bput v w l → i < 0x2C ∨ i ∈ [0x30, 0x32, 0x33, 0x34] ∨ (0x38 ≤ i ∧ i < 0x48) ∨ (i = 0x48 ∧ u ≠ v) →
        (0x40 ≤ i → i < 0x48 → a.toNat / 2 ^ 32 % 4 ≠ 3) → Completes (.awlBput c) s fun t =>
          let b := t.level c u
          (i < 0x20 → b.gRead i = gen a ∧ ∀ k, k < 32 → k ≠ i → b.gRead k = bank.gRead k) ∧
          (0x20 ≤ i → i < 0x2C → ∀ k, k < 88 → (piece b).getLsbD k =
            if 40 * j ≤ k ∧ k < 40 * j + 40 then a.getLsbD (k - 40 * j) else (piece bank).getLsbD k) ∧
          (i = 0x30 → b.st = gen ((bank.st.d &&& 0x80#40) ||| (a &&& 0x7F00_014F#40))) ∧
          (i = 0x32 → b.lsm = gen (a &&& 0xFFFF_FFFF#40)) ∧ (i = 0x33 → b.bexp = gen (a &&& 0x3F#40)) ∧
          (i = 0x34 → b.sparea = gen (a &&& 0xFFFF_FFFF#40)) ∧
          (0x38 ≤ i → i < 0x40 → b.p.at (i - 0x38) = gen (a &&& 0xFFFF#40)) ∧
          (0x40 ≤ i → i < 0x48 → b.pcfg.at (i - 0x40) = gen a) ∧ (i = 0x48 → b.pc = a.toNat % 32768) ∧
          b.wstat = bank.wstat ∧ (t.level c v).pc = if repLeft s c = 0 then l.nextPc else l.pc)) ∧
    (AwlRun s c .bexp v w l → Completes (.awlBexp c) s fun t => ∃ m, AwlAfter s t c v .bexp w l m 1 l.nextPc ∧
      m.bexp = gen 39 ∧ BankWrote l { m with bexp := l.bexp } (some (AI.rd w, l.bexp.d &&& 0x3F#40)) fun _ => none) ∧
    (AwlRun s c .bfix v w l → Completes (.awlBfix c) s fun t => ∃ m, AwlAfter s t c v .bfix w l m 1 l.nextPc ∧
      m.bexp = gen 39 ∧ BankWrote l { m with bexp := l.bexp } none fun k => if 24 ≤ k ∧ k < 31 then
        some ((BitVec.ofInt 7 ((l.bexp.d.toNat % 64 : Nat) - (w.toNat % 64 : Nat) : Int)).getLsbD (k - 24)) else none) ∧
    (AwlRun s c .priv v w l → (w.getLsbD 0 = true → 6 ≤ v) → Completes (.awlPriv c) s fun t =>
      ∃ m, AwlAfter s t c v .priv w l m 1 l.nextPc ∧ BankWrote l m none fun k => if k = 7 then some (w.getLsbD 0) else none)

/-- R205, R225, R227, R228, R234 and R236: at a boundary the highest READY level runs; an answer that does not come is
task fault 0x09 and a transfer that does not come ends its tag with TIMEOUT; the host holds a core in reset, unfreezes
levels, and reads and writes a core's memories, in IMEM only in reset and in DMEM only while every level is IDLE. -/
def Obligations.AwlHostAndLevels : Prop :=
  ∀ (c : CoreId) (s : State) (val : BitVec 64),
    let field (lo w : Nat) : Nat := val.toNat / 2 ^ lo % 2 ^ w
    let addr := s.getN F.awlMaddr_addr c
    let imem := decide (s.getN F.awlMaddr_space c = 0)
    let size := if imem then 32768 else 65536
    let inc := s.bitF F.awlMaddr_inc c
    let advanced (t : State) : Prop := t.getN F.awlMaddr_addr c = if inc then (addr + 1) % size else addr
    (∀ u, u < 8 → (s.level c u).state = .ready → (∀ x, u < x → x < 8 → (s.level c x).state ≠ .ready) →
      s.holdrst c = false → (s.core c).rep = none → (s.core c).running ≠ some u → Completes (.levelSwitch c) s fun t =>
        (t.core c).running = some u ∧ (t.core c).last = some u ∧ (t.core c).rep = none ∧
        (t.core c).cycle = (if (s.core c).last = some u then (s.core c).cycle else (s.core c).cycle + 3) ∧
        ∀ x, ((s.core c).last ≠ some x ∨ x = u → t.level c x = s.level c x) ∧ (t.level c x).pc = (s.level c x).pc ∧
          ((s.level c x).shadowed.2 = false → (t.level c x).state = (s.level c x).state ∧
            (t.level c x).acc = if (s.core c).last = some x ∧ x ≠ u then (s.level c x).landDue.1.acc else (s.level c x).acc)) ∧
    (∀ (lv : LevelId) (op rd : Nat), (s.level c lv).state = .wait (.collator op rd) →
      Completes (.collatorResponseTimeout c lv) s fun t => (t.level c lv).state = .idle ∧
        t.bitF F.awlFault_valid c = true ∧ t.getN F.awlFault_count c = min (s.getN F.awlFault_count c + 1) 255 ∧
        (s.bitF F.awlFault_valid c = false → t.getN F.awlFault_cause c = 9 ∧ t.getN F.awlFault_level c = lv ∧
          t.getN F.awlFault_pc c = ((s.level c lv).pc + 32767) % 32768)) ∧
    (∀ (lv : LevelId) (tag : Fin 16), ((s.level c lv).tags.at tag).busy = true → Completes (.transferTimeout c lv tag) s fun t =>
      (t.level c lv).tags.at tag = { (s.level c lv).tags.at tag with busy := false, status := 7, left := 0, rest := none } ∧
      ((s.level c lv).state = .wait (.tags (1#16 <<< tag.val)) → (t.level c lv).state = .ready)) ∧
    (s.barOpen (RegId.awlCtl.offset c) = true →
      (s.holdrst c = false → field 0 1 = 1 → Completes (.awlHoldrst c val) s fun t =>
        t.holdrst c = true ∧ t.core c = { imem := (s.core c).imem, dmem := (s.core c).dmem }) ∧
      (s.holdrst c = true → field 0 1 = 0 → field 16 8 = 0 → Completes (.awlHoldrst c val) s fun t =>
        t.holdrst c = false ∧ t.core c = s.core c) ∧
      (s.holdrst c = val.getLsbD 0 → Completes (.awlUnfreeze c val) s fun t =>
        ∀ u, u < 8 → (s.level c u).state = .frozen →
          if val.getLsbD (16 + u) then (t.level c u).state = .idle ∧ (t.level c u).cwp = 0 ∧ (t.level c u).res = 1 ∧
            (t.level c u).spilled = 0 else t.level c u = s.level c u)) ∧
    (s.barOpen (RegId.awlMdata.offset c) = true →
      (Completes (.awlMdataRead c) s fun t =>
        let w := if imem then (s.core c).imem.at (addr % 32768) else (s.core c).dmem.at addr
        t.outs = .readData 0 (leBytes (if badSlices w = 0 then (data44 w).toNat else 0) 8) :: s.outs ∧
        (badSlices w ≠ 0 → t.bitF F.awlMaddr_perr c = true) ∧ t.core c = s.core c ∧ advanced t) ∧
      Completes (.awlMdataWrite c val) s fun t =>
        let old := if imem then (s.core c).imem.at (addr % 32768) else (s.core c).dmem.at addr
        if old = store44 (val.setWidth 40) ∨
            (if imem then s.holdrst c else (List.range 8).all fun u => (s.level c u).state == .idle) then
          (∀ x, (t.core c).imem.at x = if imem = true ∧ x = addr % 32768 then store44 (val.setWidth 40) else (s.core c).imem.at x) ∧
          (∀ x, (t.core c).dmem.at x = if imem = false ∧ x = addr then store44 (val.setWidth 40) else (s.core c).dmem.at x) ∧
          advanced t
        else t.bitF F.awlCtl_rej c = true ∧ t.core c = s.core c)

/-- R207, R208, R213, R214, R221, R226 to R228: what ends in a task fault and with which cause. The level becomes
IDLE, or FROZEN after a double fault, COUNT advances, and AWL_FAULT holds the first fault. -/
def Obligations.AwlTaskFaults : Prop :=
  ∀ (c : CoreId) (s : State) (v : Nat) (w : Word) (l : Level), v < 8 →
    let special := w.toNat % 256
    let faulted (cause pc : Nat) (t : State) : Prop :=
      (t.level c v).state = (if cause = 8 then .frozen else .idle) ∧ t.bitF F.awlFault_valid c = true ∧
      t.getN F.awlFault_count c = min (s.getN F.awlFault_count c + 1) 255 ∧
      (s.bitF F.awlFault_valid c = false → t.getN F.awlFault_cause c = cause ∧ t.getN F.awlFault_level c = v ∧
        t.getN F.awlFault_pc c = pc % 32768 ∧ t.bitF F.awlFault_double c = decide (cause = 8))
    let word := (s.core c).imem.at (s.level c v).pc
    (∀ i ∈ [Instr.awlAdd c, .awlLd c, .awlB c, .awlMac c, .awlXget c, .awlTake c, .awlSwr c],
      (s.core c).running = some v → s.holdrst c = false → (s.level c v).state = .ready →
      (badSlices word ≠ 0 → Completes i s (faulted 4 (s.level c v).pc)) ∧
      (badSlices word = 0 → decodeAwl (data44 word) = none → Completes i s (faulted 1 (s.level c v).pc))) ∧
    (AwlRun s c .priv v w l → w.getLsbD 0 = true → v < 6 → Completes (.awlPriv c) s (faulted 2 l.pc)) ∧
    (AwlRun s c .swr v w l → l.st.d.getLsbD 7 = false → special = 4 ∨ special = 5 → Completes (.awlSwr c) s (faulted 2 l.pc)) ∧
    (AwlRun s c .swr v w l → special = 1 ∨ special = 3 ∨ special = 6 ∨ special = 7 ∨ 24 ≤ special →
      Completes (.awlSwr c) s (faulted 1 l.pc)) ∧
    (AwlRun s c .ret v w l → l.res = 1 → l.spilled = 0 → Completes (.awlRet c) s (faulted 7 l.pc)) ∧
    (AwlRun s c .call v w l → l.res = 4 → (l.sparea.d.toNat / 65536 % 65536 ≠ 0 ∧
        l.sparea.d.toNat / 65536 % 65536 < l.sparea.d.toNat % 65536 + 17 * l.spilled + 17) →
      Completes (.awlCall c) s (faulted 8 l.pc)) ∧
    (∀ (i : Instr) (o : AwlOp), (i, o) ∈ [(.awlDone c, .done), (.awlDefer c, .defer)] → AwlRun s c o v w l →
      l.hasItem = false → Completes i s (faulted 0x0B l.pc)) ∧
    (∀ (i : Instr) (o : AwlOp), (i, o) ∈ [(.awlBget c, .bget), (.awlBput c, .bput)] → AwlRun s c o v w l →
      l.st.d.getLsbD 7 = false ∨ l.bankwin.d.getLsbD 3 = false → Completes i s (faulted 2 l.pc))

/-- R238, R250 to R253: once its tables are restored the Collator's decision looks at levels 7 down to 0 and
dispatches the first placeable item to a core that is free for its level, the last core while it is free, the lowest
idle one without a last core; where nothing can be placed, or before the restore, nothing is dispatched.
`affHoldExpiry` ends the hold of the one item that has been ready longest. -/
def Obligations.CollatorPlaces : Prop :=
  ∀ (s : State),
    let z := s.settle
    (∀ v < 8, ∀ (x : Item) (c : Nat), z.placeable v = some (x, c) → z.col.live = true →
      (∀ u < 8, v < u → z.placeable u = none) →
      let task := z.getN F.colStrCfg_task x.stream
      let last := z.getN F.colStrStat_lastcore x.stream
      z.permitted x = true ∧ z.itemLevel x = v ∧ z.coreFree c v task = true ∧
      (z.bitF F.colStrStat_lcvalid x.stream = true → z.coreFree last v task = true → x.faultCore ≠ some last → c = last) ∧
      (z.bitF F.colStrStat_lcvalid x.stream = false →
        ∀ d < 64, z.coreIdle d = true → z.eligible d v task = true → c ≤ d) ∧
      Completes .collatorPlace s fun t =>
        t.act c v = some ⟨task, some x.id, x.stream, 0, z.strOwner x.stream, z.reg .colTskCores task,
          z.getN F.colTskCfg_dlist task, none⟩ ∧ x.id ∉ t.col.ready ∧
        (∃ y, t.item? x.id = some y ∧ y.pos = .flight c v ∧ y.inFlight = true) ∧
        t.getN F.colStrStat_lastcore x.stream = c ∧ t.bitF F.colStrStat_lcvalid x.stream = true ∧
        (t.station 4).out.length = (z.station 4).out.length + 1 ∧
        ∃ r ∈ (t.station 4).out, r ∉ (z.station 4).out ∧
          r.client = 1 ∧ r.kind = 7 ∧ r.dst = coreStation c ∧ r.tag = 8 * corePos c + v) ∧
    ((∀ u < 8, z.placeable u = none) ∨ z.col.live = false → exec .collatorPlace s = .next z) ∧
    ∀ (st : StreamId) (cw : Word),
      let held := (s.col.ready.filterMap s.item?).find? fun x => x.stream == st.val && x.cw == cw && x.waiting && !x.heldOut
      (held = none → exec (.affHoldExpiry st cw) s = .next s) ∧
      ∀ x, held = some x → Completes (.affHoldExpiry st cw) s fun t =>
        t.col.items = s.col.items.map (fun y => if y.id = x.id then { y with heldOut := true } else y) ∧
        ∀ (y : Item) (v : Nat), y.heldOut = true →
          (∃ c < 64, t.coreFree c v (t.getN F.colStrCfg_task y.stream) = true) → t.place y v ≠ none

/-- R255, R257 to R260: the entries of a calendar fall due in its order: a deferred item returns to its ready list
with REDO, a timer raises source 704 + t and is inserted again or ends;the wrap moves entries into the calendar, and a
timer is armed by the write of COL_TIMt, or waits with MISS set while its list is full. -/
def Obligations.DelaysAndTimers : Prop :=
  (∀ (l : Fin 4) (s : State), ∀ e rest, (s.delayList l).calendar = e :: rest →
    (∀ id, e.what = .item id → Completes (.delayEntryDue l) s fun t =>
      t.item? id = (s.item? id).map (fun x => { x.setRedo with pos := .queued }) ∧ e.due ≤ (t.delayList l).now ∧
      ∀ k < 4, ∀ e ∈ (t.delayList k).calendar ++ (t.delayList k).tail, e.what ≠ .item id) ∧
    ∀ n, e.what = .timer n → exec (.delayEntryDue l) s = .next s) ∧
  (∀ (l : Fin 4) (s : State), Completes (.calendarWrap l) s fun t =>
    let now := (s.tickNow l + 4095) / 4096 * 4096
    (t.delayList l).now = now ∧ (∀ e ∈ (s.delayList l).calendar, e ∈ (t.delayList l).calendar) ∧
    ∀ e ∈ (s.delayList l).tail,
      if e.due < now + 4096 then e ∈ (t.delayList l).calendar else e ∈ (t.delayList l).tail) ∧
  (∀ (n : TimerId) (s : State) (l due : Nat), s.timerEntry n = some (l, due) → Completes (.timerDue n) s fun t =>
    t.getN F.colEv_raises (704 + n) = min (s.getN F.colEv_raises (704 + n) + 1) (2 ^ 24 - 1) ∧
    if s.bitF F.colTim_periodic n then
      let k := s.getN F.colTim_list n
      ⟨due + s.getN F.colTim_interval n, .timer n⟩ ∈ (t.delayList k).calendar ++ (t.delayList k).tail ∨
        (n.val, due + s.getN F.colTim_interval n) ∈ t.col.missed ∧ t.bitF F.colTim_miss n = true
    else t.bitF F.colTim_en n = false ∧
      ∀ k < 4, ∀ e ∈ (t.delayList k).calendar ++ (t.delayList k).tail, e.what ≠ .timer n) ∧
  (∀ (n : TimerId) (v : BitVec 64) (s : State), s.barOpen (RegId.colTim.offset n) = true →
    s.bitF F.colTim_en n = false → fieldOf F.colTim_en v = 1 →
    let l := fieldOf F.colTim_list v
    let due := s.tickNow l + fieldOf F.colTim_interval v
    (fieldOf F.colTim_interval v ≠ 0 → Completes (.timerArm n v) s fun t => t.bitF F.colTim_en n = true ∧
      t.getN F.colTim_interval n = fieldOf F.colTim_interval v ∧
      if s.delayFull l then (n.val, due) ∈ t.col.missed ∧ t.bitF F.colTim_miss n = true
      else ⟨due, .timer n⟩ ∈ (t.delayList l).calendar ++ (t.delayList l).tail) ∧
    (fieldOf F.colTim_interval v = 0 → Completes (.timerArm n v) s fun t =>
      t.bitF F.colTim_en n = false ∧ t.bitF F.colStatus_rej 0 = true)) ∧
  ∀ (n : TimerId) (s : State) (due : Nat), (s.col.missed.find? fun m => m.1 == n.val) = some (n.val, due) →
    let l := s.getN F.colTim_list n
    Completes (.timerInsertRetry n) s fun t =>
      if s.delayFull l then (n.val, due) ∈ t.col.missed ∧ t.bitF F.colTim_miss n = true
      else ⟨due, .timer n⟩ ∈ (t.delayList l).calendar ++ (t.delayList l).tail ∧ ∀ m ∈ t.col.missed, m.1 ≠ n.val

/-- R255, R256, R263, R302: a level that yielded is READY again; a lock wait that times out is withdrawn with RD = 2;
RESUME and CANCEL end STALLED for the stream's owner, CANCEL with the faulted item completed with 0xFFFF; after a
recovery, once DRAM and HUB are there, no activation and no lock holds, and what was in flight waits again with REDO. -/
def Obligations.YieldsLocksStreams : Prop :=
  (∀ (c : CoreId) (lv : LevelId) (s : State) (r : Nat),
    (s.level c lv).state = .wait .yielded ∨ (s.level c lv).state = .wait (.collator 6 r) →
    Completes (.yieldReady c lv) s fun t => (t.level c lv).state = .ready) ∧
  (∀ (c : CoreId) (lv : LevelId) (s : State) (l r : Nat), s.waitsOn (8 * c.val + lv.val) = some l →
    s.getN F.colCtl_lock_to_us 0 ≠ 0 → (s.level c lv).state = .wait (.lock r) →
    Completes (.lockWaitTimeout c lv) s fun t => t.lockWaiters l = (s.lockWaiters l).erase (8 * c.val + lv.val) ∧
      t.level c lv = { ((s.level c lv).gWrite r (gen 2)).setZ false with state := .ready }) ∧
  (∀ (fn : FnId) (st : StreamId) (s : State), s.barOpen (RegId.colStrStat.offset st) = true →
    s.ownsStream fn st = true → s.getN F.colStrStat_state st = 2 →
    (∀ v : BitVec 64, v.getLsbD 54 = true → v.getLsbD 55 = false → Completes (.streamResume fn st v) s fun t =>
      t.getN F.colStrStat_state st ≠ 2 ∧ t.getN F.colStrStat_faults st = 0) ∧
    ∀ v : BitVec 64, v.getLsbD 55 = true → Completes (.streamCancel fn st v) s fun t =>
      t.getN F.colStrStat_state st ≠ 2 ∧ t.getN F.colStrStat_faults st = 0 ∧
      ∀ x, (s.col.items.find? fun x => x.stream == st.val && !x.event && x.faultCore.isSome && x.pos == .queued) = some x →
        s.item? x.id = some x →
        ∃ y, t.item? x.id = some y ∧ y.result = 0xFFFF ∧ (y.pos = .completed ∨ y.pos = .early)) ∧
  ∀ (s : State),
    (s.sys.ledgerLost = true ∨ s.domOn 2 = false → exec .hubLogicRecovery s = .next s) ∧
    (s.sys.ledgerLost = false → s.domOn 2 = true → Completes .hubLogicRecovery s fun t => t.col.live = true ∧
    (∀ c v, t.act c v = none) ∧ (∀ l < 256, t.lockHolder l = none ∧ t.lockWaiters l = []) ∧
    (∀ x ∈ t.col.items, ∀ c v, x.pos ≠ .flight c v) ∧
    ∀ x ∈ s.col.items, ∀ c v, x.event = false → x.pos = .flight c v → (s.col.items.map Item.id).Nodup →
      (∀ m, ∀ r ∈ (s.hq m).rqWait, r.item ≠ some x.id) →
      ∃ y ∈ t.col.items, y.id = x.id ∧ y.pos = .queued ∧ y.inFlight = true ∧ D.redo y.desc = true)

/-- R293, R295, R302, R305, R307: an item whose conditions hold retires: RET advances or the catchword joins the
above-mark set, and the RQ record is written and the entry freed, or the queue set stops with ERR = 2 where that write
fails; a failed channel's ledger copy is rebuilt; ABANDON retires every hole, and the above-mark set never grows
beyond its size; the write of ACC sets ACC and RET of an unused stream and is refused otherwise. -/
def Obligations.LedgerRetires : Prop :=
  (∀ (st : StreamId) (cw : Word) (s : State),
    let entry := s.col.items.find? fun x => !x.event && x.stream == st.val && x.cw == cw
    (∀ fails, (∀ x, entry = some x → s.canRetire x = false) → exec (.itemRetire st ⟨cw, fails⟩) s = .next s) ∧
    ∀ x, entry = some x → s.canRetire x = true →
      (∀ fails, Completes (.itemRetire st ⟨cw, fails⟩) s fun t =>
        (cw = cwNext (s.ret st) → s.inAms st (cwNext cw) = false → (∀ r ∈ s.col.abandoned, r.1 ≠ st.val) → t.ret st = cw) ∧
        (cw ≠ cwNext (s.ret st) → t.ret st = s.ret st ∧ t.inAms st cw = true) ∧
        (x.srcq = none → t.item? x.id = none)) ∧
      ∀ m, x.srcq = some m → s.hqOn m = true →
        (Completes (.itemRetire st ⟨cw, false⟩) s fun t =>
          let i := s.getN F.hubHqStat_rqtail m
          .hostWrite (s.hqFn m) (s.slotAddr .hubHqRq m i 16)
            (leBytes (cw.toNat + st.val * 2 ^ 40 + x.retireKind * 2 ^ 60 + (s.hq m).rqPhase.toNat * 2 ^ 63 +
              x.result.toNat * 2 ^ 64) 16) ∈ t.outs ∧
          t.getN F.hubHqStat_rqtail m = (i + 1) % s.hqN m % 2 ^ 16 ∧ t.item? x.id = none) ∧
        Completes (.itemRetire st ⟨cw, true⟩) s fun t => t.bitF F.hubHqCfg_stop m = true ∧ t.getN F.hubHqCfg_err m = 2 ∧
          t.getN F.hubHqStat_rqtail m = s.getN F.hubHqStat_rqtail m ∧ (t.item? x.id).map (·.pos) = some .retired) ∧
  (∀ (ch : ChannelId) (s : State),
    (s.col.lost = none → Completes (.ledgerChannelRebuild ⟨ch, false⟩) s fun t => t.col.lost = some ch.val ∧
      t.bitF F.colLedger_remir 0 = true) ∧
    (s.col.lost = some ch.val → Completes (.ledgerChannelRebuild ⟨ch, true⟩) s fun t => t.col.lost = none ∧
      t.bitF F.colLedger_remir 0 = false ∧ t.bitF F.colLedger_remir_ev 0 = true)) ∧
  (∀ (fn : FnId) (st : StreamId) (v : BitVec 64) (s : State), s.barOpen (RegId.colStrRsb.offset st) = true →
    s.ownsStream fn st = true → v.getLsbD 63 = true → s.bitF F.colStrRsb_open st = true →
    Completes (.abandon fn st v) s fun t =>
      t.col.holes.at st = [] ∧ t.bitF F.colStrRsb_open st = false ∧ t.getN F.colStrHoles_count st = 0 ∧
      t.col.ams.length ≤ max s.col.ams.length amsSize ∧
      ((∀ r ∈ s.col.abandoned, r.1 ≠ st.val) → ∀ h n, s.col.holes.at st = [(h, n)] → n ≠ 0 → h = cwNext (s.ret st) →
        s.inAms st (cwNext (cwPlus h (n - 1))) = false → t.ret st = cwPlus h (n - 1))) ∧
  ∀ (fn : FnId) (st : StreamId) (v : BitVec 64) (s : State), s.barOpen (RegId.colStrAcc.offset st) = true →
    s.ownsStream fn st = true →
    let busy := s.bitF F.colStrCfg_en st || s.bitF F.colStrRsb_open st ||
      s.col.items.any fun x => !x.event && x.stream == st.val
    let w : Word := v.extractLsb' 0 40
    (busy = false → Completes (.colAccWrite fn st v) s fun t => t.acc st = w ∧ t.ret st = w) ∧
    (busy = true → w ≠ s.acc st → Completes (.colAccWrite fn st v) s fun t =>
      t.acc st = s.acc st ∧ t.ret st = s.ret st ∧ t.bitF F.colStatus_rej 0 = true)

/-- R268, R275, R277, R281, R282, R288: an SQ entry is accepted at the successor of ACC, or refused with its code, and
answered by an AQ record, which precedes a DUP record; a record whose write fails stops the set with ERR = 2, a read
that times out with ERR = 1; a doorbell stores its index and frees the records passed over, and a value out of range
or beyond what is free stops the set with ERR = 3; a set that is disabled has its indices at 0. R278 to R281, R299: a
valid staging slot is written to the XQ and its header zeroed, a slot of a result delivered before is passed over, a
slot of more than 14 words or a ring outside the partition stops the set with ERR = 4, and a record whose write fails
with ERR = 2; at the end of an interval the vectors that gathered records are signalled. -/
def Obligations.QueueSetsAndResults : Prop :=
  ((∀ (m : QueueSetId) (d : BitVec 256) (s : State), s.sqWaits m = true →
    let code := s.refusal m (some (s.hqFn m)) d
    let st := D.stream d
    let made := decide (code = 0) && D.catchword d == 0
    let cw : Word := if made then cwNext (s.acc st) else if code = 0 then D.catchword d else 0
    let i := s.getN F.hubHqStat_aqtail m
    let aq : Out := .hostWrite (s.hqFn m) (s.slotAddr .hubHqAq m i 16) (leBytes (cw.toNat + st * 2 ^ 40 + code * 2 ^ 52 +
      (s.hq m).aqPhase.toNat * 2 ^ 63) 16)
    let entered (t : State) : Prop := t.getN F.hubHqStat_sqhead m = (s.getN F.hubHqStat_sqhead m + 1) % s.hqN m % 2 ^ 16 ∧
      if made then t.acc st = cw ∧ ∃ x ∈ t.col.items, x.id = s.col.nextId ∧ x.cw = cw ∧ x.stream = st ∧
        x.srcq = some m.val ∧ x.pos = .queued
      else t.acc st = s.acc st ∧ t.col.items = s.col.items
    (code ≠ 0 ∨ made = true → (Completes (.sqEntryRead m ⟨d, false⟩) s fun t => entered t ∧ aq ∈ t.outs ∧
        t.getN F.hubHqStat_aqtail m = (i + 1) % s.hqN m % 2 ^ 16 ∧ (t.hq m).aqOut = (s.hq m).aqOut + 1) ∧
      Completes (.sqEntryRead m ⟨d, true⟩) s fun t => entered t ∧ t.bitF F.hubHqCfg_stop m = true ∧
        t.getN F.hubHqCfg_err m = 2 ∧ t.getN F.hubHqStat_aqtail m = i ∧ t.outs = s.outs) ∧
    (code = 0 → made = false → s.hasRetired st cw = true → (s.hq m).rqWait = [] → (s.hq m).rqOut < s.hqN m →
      Completes (.sqEntryRead m ⟨d, false⟩) s fun t => entered t ∧
        [.hostWrite (s.hqFn m) (s.slotAddr .hubHqRq m (s.getN F.hubHqStat_rqtail m) 16) (leBytes (cw.toNat + st * 2 ^ 40 +
          2 ^ 60 + (s.hq m).rqPhase.toNat * 2 ^ 63) 16), aq].Sublist t.outs)) ∧
  (∀ (m : QueueSetId) (s : State), s.sqWaits m = true → Completes (.sqReadTimeout m) s fun t =>
    t.hqOn m = false ∧ t.bitF F.hubHqCfg_stop m = true ∧ t.getN F.hubHqCfg_err m = 1 ∧
    (t.sys.pcie.at (s.hqFn m)).uncor = (s.sys.pcie.at (s.hqFn m)).uncor ||| 1#32 <<< 14) ∧
  (∀ (fn : FnId) (m : QueueSetId) (v : BitVec 64) (s : State), ∀ i f left,
    (i, f, left) ∈ ([(.doorbellSqt fn m v, F.hubDbSqt_index, none),
      (.doorbellAqh fn m v, F.hubDbAqh_index, some (s.hq m).aqOut),
      (.doorbellRqh fn m v, F.hubDbRqh_index, some (s.hq m).rqOut),
      (.doorbellXqh fn m v, F.hubDbXqh_index, some (s.hq m).xqOut)] : List (Instr × Field 16 × Option Nat)) →
    s.barOpen (f.reg.offset m) = true → s.ownsHq fn m = true → s.bitF F.hubHqCfg_en m = true →
    let n := s.hqN m
    let freed := (fieldOf f v + n - s.getN f m % n) % n
    if n ≤ fieldOf f v ∨ left.any (fun k => decide (k < freed)) = true then
      Completes i s fun t => t.bitF F.hubHqCfg_stop m = true ∧ t.getN F.hubHqCfg_err m = 3
    else Completes i s fun t => t.getN f m = fieldOf f v ∧ t.bitF F.hubHqCfg_stop m = s.bitF F.hubHqCfg_stop m ∧
      (f.reg = .hubDbAqh → (t.hq m).aqOut = (s.hq m).aqOut - freed) ∧
      (f.reg = .hubDbRqh → (s.hq m).rqWait = [] → (t.hq m).rqOut = (s.hq m).rqOut - freed) ∧
      (f.reg = .hubDbXqh → (t.hq m).xqOut = (s.hq m).xqOut - freed)) ∧
  ∀ (fn : FnId) (m : QueueSetId) (v : BitVec 64) (s : State), s.barOpen (RegId.hubHqCfg.offset m) = true →
    s.ownsHq fn m = true →
    if s.hqRefused fn m v then Completes (.queueSetCfgWrite fn m v) s fun t => t.reg .hubHqCfg m = s.reg .hubHqCfg m
    else (fieldOf F.hubHqCfg_en v = 1 → Completes (.queueSetCfgWrite fn m v) s fun t =>
        t.bitF F.hubHqCfg_en m = true ∧ t.hqN m = 2 ^ fieldOf F.hubHqCfg_log2n v ∧ t.hqFn m = fieldOf F.hubHqCfg_fn v) ∧
      (s.bitF F.hubHqCfg_en m = true → fieldOf F.hubHqCfg_en v = 0 → Completes (.queueSetCfgWrite fn m v) s fun t =>
        t.bitF F.hubHqCfg_en m = false ∧ t.bitF F.hubHqCfg_stop m = false ∧ t.getN F.hubHqCfg_err m = 0 ∧
        (∀ r ∈ [RegId.hubHqStat, .hubDbSqt, .hubDbAqh, .hubDbRqh, .hubDbXqh], t.reg r m = 0) ∧
        (t.hq m).aqOut = 0 ∧ (t.hq m).rqOut = 0 ∧ (t.hq m).xqOut = 0 ∧ (t.hq m).aqPhase = true)) ∧
  ((∀ (m : QueueSetId) (fails : Bool) (s : State), s.hqOn m = true → s.bitF F.hubHqCfg_xen m = true →
    let base := s.stagingBase m
    let addr := base + 16 * (s.hq m).xslot
    let stopped (err : Nat) (t : State) : Prop := t.bitF F.hubHqCfg_stop m = true ∧ t.getN F.hubHqCfg_err m = err
    (s.inPartition (s.hqFn m) base (16 * s.hqN m) = false → Completes (.resultDelivery ⟨m, fails⟩) s (stopped 4)) ∧
    (s.inPartition (s.hqFn m) base (16 * s.hqN m) = true → ∀ ws s1, s.readWords addr 16 0 = (some ws, s1) →
      let w0 := ws.getD 0 0
      let cw := ws.getD 1 0
      let st := (w0.extractLsb' 0 12).toNat
      let count := (w0.extractLsb' 12 5).toNat
      let mine := fun (x : Item) => !x.event && x.stream == st && x.cw == cw
      let old := cwAtOrBeyond cw (s1.ret st) || s1.col.items.any fun x => mine x && x.xdone
      let i := s1.getN F.hubHqStat_xqtail m
      let bytes := leBytes (w0.toNat + (s1.hq m).xqPhase.toNat * 2 ^ 63) 8 ++ (ws.drop 1).flatMap fun w => leBytes w.toNat 8
      (w0.getLsbD 39 = false → exec (.resultDelivery ⟨m, fails⟩) s = .next s1) ∧
      (w0.getLsbD 39 = true → 14 < count → Completes (.resultDelivery ⟨m, fails⟩) s (stopped 4)) ∧
      (w0.getLsbD 39 = true → count ≤ 14 → old = true → Completes (.resultDelivery ⟨m, fails⟩) s fun t =>
        (t.hq m).xslot = ((s1.hq m).xslot + 1) % s1.hqN m ∧ t.getN F.hubHqStat_xqtail m = i) ∧
      (w0.getLsbD 39 = true → count ≤ 14 → old = false → (s1.hq m).xqOut < s1.hqN m →
        (fails = true → Completes (.resultDelivery ⟨m, fails⟩) s fun t => stopped 2 t ∧ t.outs = s1.outs ∧ t.col = s1.col) ∧
        (fails = false → Completes (.resultDelivery ⟨m, fails⟩) s fun t =>
          .hostWrite (s1.hqFn m) (s1.slotAddr .hubHqXq m i 128) bytes ∈ t.outs ∧
          t.getN F.hubHqStat_xqtail m = (i + 1) % s1.hqN m % 2 ^ 16 ∧
          (t.hq m).xslot = ((s1.hq m).xslot + 1) % s1.hqN m ∧ (t.hq m).xqOut = (s1.hq m).xqOut + 1 ∧
          ∀ x ∈ t.col.items, mine x = true → x.xdone = true)))) ∧
  ∀ (m : QueueSetId) (s : State), Completes (.interruptIntervalEnd m) s fun t =>
    (t.hq m).itrWait = [] ∧ (t.hq m).itrOpen = (s.hq m).itrWait ∧
    ∀ v ∈ (s.hq m).itrWait,
      let f := s.hqFn m
      if (s.reg .hubMsixTbl (f * 512 + 2 * v + 1)).getLsbD 32 then
        (t.reg .hubMsixPba (f * 4 + v / 64)).getLsbD (v % 64) = true
      else .msix f v ∈ t.outs)

/-- R6, R8, R283, R284: a read through BAR2 answers the bytes of its sector, or poisoned data where the sector fails;
a write replaces the bytes of its sector with a new CRC; a sector that is not open reads as zero, and a write of it is
discarded and logged; a BAR0 access of the wrong shape reads as zero and is logged as BADACCESS; a read of the right
shape answers its register and leaves the RC fields at their reset values. R455: before the boot is DONE, a write to a
block other than HUB_, TIM_ and LOG_ changes nothing and is not logged; with PCIe down no write arrives at all. -/
def Obligations.HostWindows : Prop :=
  ((∀ (fn : FnId) (size off len : Nat) (s : State), bar2Inside fn size off len = true → s.hostOn = true →
    let z := s.setBar2 fn size
    ∀ n, s.bar2Sectors fn size off len = [n] → (z.sys.pcie.at fn).bar2Size = size ∧
    (s.bar2Open fn n = false → ∀ bs, bs = List.replicate len 0 →
      exec (.bar2Read fn size off len) s = .next (z.emit (.readData fn bs))) ∧
    (s.bar2Open fn n = true → ∀ d s1, z.readSector n 0 = (some d, s1) →
      exec (.bar2Read fn size off len) s = .next (s1.emit (.readData fn ((List.range len).map fun i =>
        match (s1.bar2Place fn size (off + i)).2 with
          | some b => s1.dramByte (64 * n + b)
          | none => 0)))) ∧
    (s.bar2Open fn n = true → ∀ s1, z.readSector n 0 = (none, s1) →
      exec (.bar2Read fn size off len) s = .next (s1.emit (.poisoned fn)))) ∧
  (∀ (fn : FnId) (size off : Nat) (bytes : List Byte) (s : State), bar2Inside fn size off bytes.length = true →
    s.hostOn = true →
    let z := s.setBar2 fn size
    ∀ n, s.bar2Sectors fn size off bytes.length = [n] →
    (s.bar2Open fn n = false → exec (.bar2Write fn size off bytes) s = .next (z.logEntry 0x00 0x4003 0)) ∧
    (s.bar2Open fn n = true → ∀ d s1, z.readSector n 0 = (some d, s1) → d.length = 60 →
      Completes (.bar2Write fn size off bytes) s fun t =>
        let d' := (t.sectorBytes n).take 60
        t = s1.writeSector n d' ∧
        ∀ b < 60, ((∀ i < bytes.length, (s.bar2Place fn size (off + i)).2 ≠ some b) → d'[b]? = d[b]?) ∧
          ∀ i < bytes.length, (s.bar2Place fn size (off + i)).2 = some b →
            (∀ j < bytes.length, i < j → (s.bar2Place fn size (off + j)).2 ≠ some b) → d'[b]? = bytes[i]?)) ∧
  ∀ (fn : FnId) (off : BitVec 26) (len : Nat) (w : Bool) (s : State), s.hostOn = true →
    let o := off.toNat
    (badShape o len = true →
      let s1 := if w = false ∨ s.barOpen o = true ∨ srcOfOffset o = 0x0F then
        s.logEntry (srcOfOffset o) 0x2002 (o + fn * 2 ^ 26 + w.toNat * 2 ^ 31) else s
      exec (.bar0BadAccess fn off len w) s = .next (if w then s1 else s1.emit (.readData fn (List.replicate len 0)))) ∧
    (o % 8 = 0 → s.barOpen o = true → ∀ r i, regAt fn o = some (r, i) →
      (s.readable fn r i = false → exec (.bar0BadAccess fn off 8 false) s =
        .next (s.emit (.readData fn (List.replicate 8 0)))) ∧
      (s.readable fn r i = true → r ∉ [.logDhi, .spnTrcDhi, .awlMdata, .padHold] →
        Completes (.bar0BadAccess fn off 8 false) s fun t =>
          t.outs = .readData fn (leBytes (s.readReg r i).toNat 8) :: s.outs ∧
          t.reg r i = ((s.reg r i &&& ~~~r.rcMask) ||| (r.resetVal i &&& r.rcMask))))) ∧
  (∀ (s : State) (fn f : FnId) (v : BitVec 64) (c : CoreId) (t : TimerId) (st : StreamId) (m : QueueSetId) (p : PortId)
    (r : RegionId) (q : Fin 4) (k : StationId) (d : DomainId) (pads : BitVec 192) (bad : BitVec 2),
    ∀ (i : Instr) (reg : RegId) (j : Nat),
      ((i, reg, j) ∈ ([(.awlHoldrst c v, .awlCtl, c.val), (.awlUnfreeze c v, .awlCtl, c.val), (.awlMdataWrite c v, .awlMdata, c.val),
        (.timerArm t v, .colTim, t.val), (.streamResume fn st v, .colStrStat, st.val),
        (.streamCancel fn st v, .colStrStat, st.val), (.upkLaneGo v, .upkLane, 0), (.portTrain p v, .fstPortCfg, p.val),
        (.holdRequest fn r v, .qctHold, r.val), (.holdRelease fn r v pads, .qctHold, r.val),
        (.readbackGo fn r v, .qctRbSel, r.val), (.bookmarkTake fn r v, .qctBmkCtl, r.val),
        (.bookmarkRestore fn r v, .qctBmkCtl, r.val), (.doorbellSqt fn m v, .hubDbSqt, m.val),
        (.doorbellAqh fn m v, .hubDbAqh, m.val), (.doorbellRqh fn m v, .hubDbRqh, m.val),
        (.doorbellXqh fn m v, .hubDbXqh, m.val), (.queueSetCfgWrite fn m v, .hubHqCfg, m.val)] :
          List (Instr × RegId × Nat)) ∨
       (i, reg, j) ∈ ([(.abandon fn st v, .colStrRsb, st.val), (.colAccWrite fn st v, .colStrAcc, st.val),
        (.sectorClear fn v, .memSecclr, 0), (.retireGo v, .memRetire, 0), (.partitionWrite f v, .memPart, f.val),
        (.domainVoteWrite fn d v, .pwrDom, d.val), (.opWrite v, .clkAclk, 0), (.vsetWrite v, .pwrVarr, 0),
        (.padRelease fn v, .padHold, 0), (.qctRetry fn r ⟨v, bad⟩, .qctCtl, r.val), (.qctInject fn r v, .qctCtl, r.val),
        (.stationBypass k v, .spnSta, k.val), (.attestationGo fn f v, .truAttCmd, f.val), (.colmapWrite q v, .upkColmap, q.val),
        (.colrepGo v, .upkColrep, 0), (.logUnfreeze v, .logCtl, 0), (.wakeAck v, .pwrWakecfg, 0),
        (.timAdj fn v, .timAdj, 0)] : List (Instr × RegId × Nat))) →
    s.barOpen (reg.offset j) = false → exec i s = .next s)

/-- R265, R272, R410, R455, R496: an aligned write that a register takes stores its RW fields and clears its W1C
fields; one that is refused clears its W1C fields alone and is logged; one of a function it is not open to, and one of
the meter's window, change no register; before the block answers a write changes nothing at all. -/
def Obligations.RegisterWrites : Prop :=
  ∀ (fn : FnId) (off : BitVec 26) (v : BitVec 64) (s : State), off.toNat % 8 = 0 →
    (s.barOpen off.toNat = false → exec (.registerWrite fn off v) s = .next s) ∧
    (s.barOpen off.toNat = true → inMeterWindow off.toNat = true →
      exec (.registerWrite fn off v) s = .next (s.logRefused fn off.toNat)) ∧
    ∀ r i, regAt fn off.toNat = some (r, i) → r ∈ [.colAffHold, .spnRg, .memScrub, .memRetrain, .fstTiming, .hubBrsel,
      .upkColrepDst, .spnTrcAddr, .gthQwm, .qctTokenTo, .qctCadLen, .padI3c, .truOtpdata] →
      s.barOpen off.toNat = true → inMeterWindow off.toNat = false →
      let kept := s.reg r i &&& ~~~(v &&& r.w1cMask)
      (s.opens fn r i = true → s.rangeRefused fn r i v = false → Completes (.registerWrite fn off v) s fun t =>
        t.reg r i = (kept &&& ~~~r.rwMask) ||| (v &&& r.rwMask)) ∧
      (s.opens fn r i = true → s.rangeRefused fn r i v = true → s.idleWrite r i v = false →
        Completes (.registerWrite fn off v) s fun t => t.reg r i &&& r.rwMask = kept &&& r.rwMask) ∧
      (s.opens fn r i = false → Completes (.registerWrite fn off v) s fun t =>
        t = s.logRefused fn (r.offset i) ∧ t.reg r i = s.reg r i)

/-- R314, R323, R341, R342: a memory controller answers a read with the words read and a write with the number of
words written; with STAT 4 where a sector fails, and with STAT 5 and no effect where the words are not open to the
request. -/
def Obligations.RingMemoryRequests : Prop :=
  ∀ (mc : Fin 2) (glitch : Nat) (s : State),
    let k := mcStation mc
    (∀ q s1, s.serve k 0 = .act q s1 →
      let zeros := List.replicate q.count (0 : Word)
      if s1.dramOpen q.h (dramAddr q) q.count then
        (∀ ws s2, s1.readWords (dramAddr q) q.count glitch = (some ws, s2) → Completes (.rd mc glitch) s fun t =>
          Answered s1 t k q 8 0 q.count ws ∧ t.dram = s2.dram) ∧
        (∀ s2, s1.readWords (dramAddr q) q.count glitch = (none, s2) → Completes (.rd mc glitch) s fun t =>
          Answered s1 t k q 8 4 0 zeros)
      else Completes (.rd mc glitch) s fun t => Answered s1 t k q 8 5 0 zeros ∧ t.dram = s.dram ∧ t.regs = s.regs) ∧
    ∀ q s1, s.serve k 1 = .act q s1 → if s1.dramOpen q.h (dramAddr q) q.count then Completes (.wr mc glitch) s fun t =>
        let m := (s1.writeWords (dramAddr q) q.data glitch).1
        Answered s1 t k q 9 (if m = q.data.length then 0 else 4) m [] ∧
        t.dram = (s1.writeWords (dramAddr q) q.data glitch).2.dram
      else Completes (.wr mc glitch) s fun t => Answered s1 t k q 9 5 0 [] ∧ t.dram = s.dram ∧ t.regs = s.regs

/-- R130, R132, R138, R140, R294, R315, R323: the ring pushes a word at RP of an IN queue, pops the word at RP of an
OUT queue, reads committed words and writes plain words of an unbound gathering, one word at a time; a full queue
answers STAT 2, an empty one 3, a word whose parity fails 6, and a request that is not open 5 without effect. -/
def Obligations.RingFolioRequests : Prop :=
  ∀ (k : StationId) (s : State),
    let queueOf (q : Request) : Nat := ((q.word 0).extractLsb' 0 14).toNat
    let zeros (q : Request) := List.replicate q.count (0 : Word)
    let same (s1 t : State) : Prop := ∀ g, FolioKept (s1.gth g) (t.gth g)
    (∀ q s1, s.serve k 2 = .act q s1 →
      let g := queueOf q / 4
      let n := queueOf q % 4
      let size := s1.qSize g n
      let rp := ((s1.gth g).queue.at n).rp
      let next := (rp + 1) % (2 * size)
      (s1.gthBarred q.h g = true ∨ s1.qOut g n = true ∨ size = 0 → Completes (.qpush k) s fun t =>
        Answered s1 t k q 9 5 0 [] ∧ t.arr = s1.arr) ∧
      (s1.gthBarred q.h g = false → s1.qOut g n = false → size ≠ 0 → ∀ d, q.data = [d] →
        (∀ i, s1.senderItem q.h = some i → ninthMark i (queueOf q) = false) →
        (size ≤ s1.ringCount g n → Completes (.qpush k) s fun t => Answered s1 t k q 9 2 0 [] ∧ same s1 t) ∧
        (s1.ringCount g n < size → Completes (.qpush k) s fun t => Answered s1 t k q 9 0 1 [] ∧
          (t.gth g).folioCommitted (s1.qAddr g n rp) = store44 d ∧ ((t.gth g).queue.at n).rp = next ∧
          ∀ i, s1.senderItem q.h = some i → i.event = false →
            ∃ y ∈ t.col.items, y.id = i.id ∧ ∃ m ∈ y.marks, m.queue = queueOf q ∧ m.rp = next ∧ m.valid = true))) ∧
    (∀ q s1, s.serve k 3 = .act q s1 →
      let g := queueOf q / 4
      let n := queueOf q % 4
      let rp := ((s1.gth g).queue.at n).rp
      (s1.gthBarred q.h g = true ∨ s1.qOut g n = false ∨ s1.qSize g n = 0 → Completes (.qpop k) s fun t =>
        Answered s1 t k q 8 5 0 (zeros q) ∧ t.arr = s1.arr) ∧
      (s1.gthBarred q.h g = false → s1.qOut g n = true → s1.qSize g n ≠ 0 → q.count = 1 →
        let w := (s1.gth g).folioCommitted (s1.qAddr g n rp)
        (s1.ringCount g n = 0 → Completes (.qpop k) s fun t => Answered s1 t k q 8 3 0 [0] ∧ same s1 t) ∧
        (s1.ringCount g n ≠ 0 → Completes (.qpop k) s fun t =>
          Answered s1 t k q 8 (if badSlices w = 0 then 0 else 6) 1 [data44 w] ∧
          ((t.gth g).queue.at n).rp = (rp + 1) % (2 * s1.qSize g n)))) ∧
    (∀ q s1, s.serve k 4 = .act q s1 →
      let f := (plainAddr q).1
      (s1.gthBarred q.h f = true → Completes (.frd k) s fun t => Answered s1 t k q 8 5 0 (zeros q)) ∧
      (s1.gthBarred q.h f = false → q.count = 1 →
        let w := (s1.gth f).folioCommitted ((plainAddr q).2 % 2048)
        Completes (.frd k) s fun t => Answered s1 t k q 8 (if badSlices w = 0 then 0 else 6) 1 [data44 w])) ∧
    (∀ q s1, s.serve k 5 = .act q s1 →
      let f := (plainAddr q).1
      let bound := s1.gthBarred q.h f || (s1.regionOf f).any fun r => s1.qstate r != Q.unbound
      (bound = true → Completes (.fwr k) s fun t => Answered s1 t k q 9 5 0 [] ∧ t.arr = s1.arr) ∧
      (bound = false → ∀ d, q.data = [d] → Completes (.fwr k) s fun t =>
        Answered s1 t k q 9 0 1 [] ∧ (t.gth f).folioCommitted ((plainAddr q).2 % 2048) = store44 d))

/-- R204, R224 to R226, R254, R263, R314, R324: the Collator answers a core's message with CRSP; a dispatch makes an
idle level READY at its entry PC; the words and the status of a response reach the tag and the DMEM of the level that
sent the request, which sends the second packet that waits where nothing was refused, or the register and Z of the
level that waits for the Collator. -/
def Obligations.RingCoreMessages : Prop :=
  (∀ (s : State), ∀ q s1, s.serve 4 6 = .act q s1 →
    let r := s1.collatorMessage (stationCore (FL.src q.h) (FL.scl q.h)) (FL.tag q.h / 16 % 8) q
    Completes .cmsg s fun t => Answered r.2 t 4 q 0xA 0 0 r.1 ∧ t.col = r.2.col) ∧
  (∀ (k : StationId) (s : State), ∀ q s1, s.serve k 7 = .act q s1 →
    let c := stationCore k (FL.tag q.h / 8 % 4)
    let v := (q.word 0).toNat % 8
    (s1.level c v).state = .idle → (s1.act c v).isSome = true → s1.holdrst c = false →
    Completes (.dsp k) s fun t => Answered s1 t k q 9 0 0 [] ∧ (t.level c v).state = .ready ∧
      (t.level c v).pc = (q.word 1).toNat % 2 ^ 15 ∧ (t.level c v).hasItem = true) ∧
  ∀ (k : StationId) (cl : Fin 8) (s : State), quadrantStation k = true → cl.val < 4 →
    let c := stationCore k cl
    let arrived (s1 t : State) (q : Request) : Prop :=
      let old := (s1.level c (FL.tag q.h / 16 % 8)).tag (FL.tag q.h % 16)
      let new := (t.level c (FL.tag q.h / 16 % 8)).tag (FL.tag q.h % 16)
      new.count = old.count + FL.moved q.h ∧
        if old.rest = none ∨ old.fail ≠ 0 ∨ FL.stat q.h ≠ 0 then new.rest = none ∧ new.busy = decide (1 < old.left) ∧
          (old.left = 1 → new.status = if old.fail = 0 then FL.stat q.h else old.fail)
        else new = { old with count := new.count, rest := none } ∧
          (t.station k).out.length ≤ (s1.station k).out.length + 1
    (∀ q s1, (s.accept k cl 8).1 = some (q, s1) →
      let old := (s1.level c (FL.tag q.h / 16 % 8)).tag (FL.tag q.h % 16)
      old.busy = true → Completes (.rdata k cl) s fun t => arrived s1 t q ∧
        (old.get = true → ∀ i < min (FL.moved q.h) q.ws.length,
          (t.core c).dmem.at ((old.dmem + old.count + i) % 65536) = store44 (q.ws.getD i 0))) ∧
    (∀ q s1, (s.accept k cl 9).1 = some (q, s1) →
      let old := (s1.level c (FL.tag q.h / 16 % 8)).tag (FL.tag q.h % 16)
      old.busy = true → Completes (.rack k cl) s fun t => arrived s1 t q ∧ (t.core c).dmem = (s1.core c).dmem ∧
        ∀ ra ws, old.rest = some (ra, ws) → old.fail = 0 → FL.stat q.h = 0 → ra.toNat / 2 ^ 38 = 1 →
          ∃ o ∈ (t.station k).out, o.client = cl ∧ o.kind = 2 ∧ o.tag = FL.tag q.h % 128) ∧
    ∀ q s1, (s.accept k cl 0xA).1 = some (q, s1) →
      let v := FL.tag q.h / 16 % 8
      let n := FL.tag q.h % 16
      let z := (q.ws.getD 1 0).getLsbD 0
      let ack := (q.ws.getD 1 0).getLsbD 1
      (∀ r < 32, (s1.level c v).state = .wait (.collator n r) →
        (n ∈ [1, 2, 3, 5] ∨ (n = 4 ∧ ack = false) → Completes (.crsp k cl) s fun t =>
          t.level c v = { ((s1.level c v).gWrite r (gen (q.ws.getD 0 0))).setZ z with state := .ready }) ∧
        (n = 4 → ack = true → Completes (.crsp k cl) s fun t => (t.level c v).state = .wait (.lock r)) ∧
        (n = 6 → Completes (.crsp k cl) s fun t => (t.level c v).state = .wait .yielded) ∧
        (n = 0 → Completes (.crsp k cl) s fun t => (t.level c v).state = .ready ∧ (t.level c v).flagZ = z))

/-- R310, R313, R317, R318, R320 to R322, R324, R326: a flit with a bad header is removed and counted at any station;
a response is ejected at its destination, a request where its queue has room, and ages otherwise; the granted flit
enters the passing slot of its packet's ring only where that slot and the one upstream are empty; a regulator adds a
token up to BURST + 1; a request is sent again three times at most, whole and behind what is left of a packet under
way. R326, R329: BYP = 1 makes a quadrant station DRAINING and is refused for any other; a drained station to which no
flit is on its way enters BYPASS, and BYP = 0 makes it NORMAL; a read of SPN_TRC_DHI gives the trace entry's upper
half and advances ADDR. -/
def Obligations.RingStations : Prop :=
  ((∀ (ring : Fin 4) (slot : Fin 42) (k : StationId) (s : State), ∀ f, s.slot ring slot = some f →
    (badHeader f.h = true → Completes (.flitArrive ring slot k) s fun t => t.slot ring slot = none ∧
      t.getN F.spnErr_hcrc 0 = min (s.getN F.spnErr_hcrc 0 + 1) (2 ^ 16 - 1)) ∧
    (badHeader f.h = false → Completes (.flitArrive ring slot k) s fun t =>
      if FL.dst f.h ≠ k ∨ s.bypassed k = true then t.slot ring slot = some f ∧ t.ring.stations = s.ring.stations
      else if FL.response f.h then t.slot ring slot = none ∧
        (t.station k).resp.at (FL.scl f.h) = (s.station k).resp.at (FL.scl f.h) ++ [f]
      else if (s.ejection k ring).length < 16 then t.slot ring slot = none ∧ t.ejection k ring = s.ejection k ring ++ [f]
      else t.slot ring slot = some (aged f) ∧ t.ejection k ring = s.ejection k ring)) ∧
  (∀ (k : StationId) (cls : Fin 2) (p : SlotPair) (s : State), s.bypassed k = false →
    ∀ cl f, s.granted k (cls.val == 1) = some (cl, f) →
    let ring := if FL.fidx f.h = 0 then s.ringFor k (FL.dst f.h) (cls.val == 1)
      else (s.station k).ringOf.at (2 * cl + cls.val)
    let i : Nat := if ring % 2 = 0 then p.a else p.b
    Completes (.flitInject k cls p) s fun t =>
      if s.usable ring i then t.slot ring i = some f ∧ t.slot ring (upstream ring i) = none ∧
        (t.station k).ringOf.at (2 * cl + cls.val) = ring ∧
        (cls.val = 0 → (t.station k).inj.at cl = ((s.station k).inj.at cl).tail ∧
          t.getN F.spnRg_tokens (8 * k + cl) = s.getN F.spnRg_tokens (8 * k + cl) - 1 ∧
          (t.station k).out = (s.station k).out.map fun o => if o.id = f.id then { o with held := o.held + f.needs } else o) ∧
        (cls.val = 1 → (t.station k).injResp.at cl = ((s.station k).injResp.at cl).tail)
      else t.ring = s.ring) ∧
  (∀ (k : StationId) (cl : Fin 8) (s : State), s.getN F.spnRg_rate (8 * k + cl) ≠ 0 →
    Completes (.regulatorToken k cl) s fun t => t.getN F.spnRg_tokens (8 * k + cl) =
      min (s.getN F.spnRg_tokens (8 * k + cl) + 1) (s.getN F.spnRg_burst (8 * k + cl) + 1)) ∧
  (∀ (k : StationId) (cl : Fin 8) (tag : BitVec 8) (s : State), ∀ o,
    ((s.station k).out.find? fun o => o.client == cl.val && o.tag == tag.toNat && s.injected k o) = some o →
    (o.resends < 3 → s.answered k o = false → Completes (.ringResendTimeout k cl tag) s fun t =>
      let q := (s.station k).inj.at cl
      (t.station k).inj.at cl = q.takeWhile (fun f => FL.fidx f.h != 0) ++ o.flits.map (resend (o.resends + 1)) ++
        q.dropWhile (fun f => FL.fidx f.h != 0) ∧
      { o with resends := o.resends + 1 } ∈ (t.station k).out ∧
      t.getN F.spnErr_resend 0 = min (s.getN F.spnErr_resend 0 + 1) (2 ^ 16 - 1)) ∧
    (3 ≤ o.resends → exec (.ringResendTimeout k cl tag) s = .next s)) ∧
  ∀ (k src : StationId) (cl : Fin 8) (tag : BitVec 8) (s : State), Completes (.keptResponseExpiry k src cl tag) s fun t =>
    ∀ y ∈ (t.station k).kept, ¬ (y.src = src.val ∧ y.client = cl.val ∧ y.tag = tag.toNat)) ∧
  ((∀ (k : StationId) (v : BitVec 64) (s : State), s.barOpen (RegId.spnSta.offset k) = true →
    (v.getLsbD 2 = true → s.bitF F.spnSta_byp k = false → quadrantStation k = true →
      Completes (.stationBypass k v) s fun t => t.bitF F.spnSta_byp k = true ∧ t.staState k = 1 ∧
        t.bitF F.spnSta_deny k = true) ∧
    (v.getLsbD 2 = true → s.bitF F.spnSta_byp k = false → quadrantStation k = false →
      Completes (.stationBypass k v) s fun t => t.bitF F.spnSta_byp k = false ∧ t.staState k = s.staState k ∧
        t.bitF F.spnSta_rej k = true) ∧
    (v.getLsbD 2 = false → s.bitF F.spnSta_byp k = true → Completes (.stationBypass k v) s fun t =>
      t.bitF F.spnSta_byp k = false ∧ t.staState k = 0 ∧ t.bitF F.spnSta_deny k = false)) ∧
  (∀ (k : StationId) (s : State), s.staState k = 1 → (s.station k).out = [] → (s.station k).ej = [] →
    s.flitFor k = false → (Completes (.drainComplete k) s fun t => t.staState k = 2)) ∧
  ∀ (s : State), s.barOpen (RegId.spnTrcDhi.offset 0) = true → Completes .traceRead s fun t =>
    let a := s.getN F.spnTrcAddr_addr 0
    t.outs = .readData 0 (leBytes ((s.ring.trace.at a).toNat / 2 ^ 64) 8) :: s.outs ∧
    t.getN F.spnTrcAddr_addr 0 = (a + 1) % 4096)

/-- R339, R341 to R344: the scrubber reads the next sector, restores a failed copy from its mirror, reports one that
has no copy left (with a mirrored object the Collator then loses its tables, R302) and counts its passes; a retraining
step goes to the next channel that is neither retired nor migrating, and one that is abandoned raises that channel's
source; a sector clear writes zero words with a good CRC, where the function may. R335, R340, R345 to R349: GO starts
the migration of a channel, and is refused while one is retired or migrating or a partition lies above 3,840 granules;
each line is copied with its bytes; after the last one the channel is retired, its lines stand on the other fifteen,
no mirrored pair shares a channel, and 3,840 granules are usable; a partition write that R349 permits sets BASE and
SIZE, any other is refused. -/
def Obligations.MemoryMaintenance : Prop :=
  ((∀ (glitch : Nat) (s : State),
    let n := if s.getN F.memScrub_pos 0 < s.usableSectors then s.getN F.memScrub_pos 0 else 0
    let more := decide (n + 1 < s.usableSectors)
    (s.bitF F.memScrub_en 0 = false → Sys2Proof.Machine.exec (.scrubRead glitch) s = .next s) ∧
    (s.bitF F.memScrub_en 0 = true → Completes (.scrubRead glitch) s fun t =>
      t.getN F.memScrub_pos 0 = (if more then (n + 1) % 2 ^ 30 else 0) ∧
      t.getN F.memScrub_passes 0 = (if more then s.getN F.memScrub_passes 0
        else min (s.getN F.memScrub_passes 0 + 1) (2 ^ 16 - 1)) ∧
      (s.triesPass n glitch = true → t.dram = s.dram ∧ (glitch = 0 → ∀ k, t.reg .memChStat k = s.reg .memChStat k)) ∧
      (∀ o, otherCopy n = some o → s.triesPass n glitch = false → s.triesPass o (glitch - 3) = true →
        (t.sectorBytes n).take 60 = (s.sectorBytes o).take 60 ∧
        t.getN F.memChStat_recov (s.channelOf n) = min (s.getN F.memChStat_recov (s.channelOf n) + 1) (2 ^ 16 - 1)) ∧
      (s.triesPass n glitch = false → (∀ o, otherCopy n = some o → s.triesPass o (glitch - 3) = false) →
        t.dram = s.dram ∧
        t.getN F.memChStat_failrd (s.channelOf n) = min (s.getN F.memChStat_failrd (s.channelOf n) + 1) (2 ^ 16 - 1) ∧
        ((otherCopy n).isSome = true → t.col.live = false)))) ∧
  (∀ (s : State) (k : Nat), s.bitF F.memRetrain_en 0 = true → s.retrainChannel = some k →
    k < 16 ∧ s.getN F.memChStat_state k < 2 ∧
    (Completes .retrainStep s fun t => t.retrainNext = (k + 1) % 16 ∧
      t.getN F.memRetrain_steps 0 = min (s.getN F.memRetrain_steps 0 + 1) (2 ^ 16 - 1)) ∧
    Completes .retrainStepTimeout s fun t => t.retrainNext = (k + 1) % 16 ∧
      t.getN F.memRetrain_failstep 0 = min (s.getN F.memRetrain_failstep 0 + 1) (2 ^ 16 - 1) ∧
      t.getN F.colEv_raises (640 + k) = min (s.getN F.colEv_raises (640 + k) + 1) (2 ^ 24 - 1)) ∧
  ∀ (fn : FnId) (v : BitVec 64) (s : State), s.barOpen (RegId.memSecclr.offset 0) = true → v.getLsbD 63 = false →
    let n := fieldOf F.memSecclr_sector v
    let p := s.partSectors fn
    let closed := inCollator n || decide (s.usableSectors ≤ n) || (fn.val != 0 && !decide (p.1 ≤ n ∧ n < p.2))
    (closed = true → Completes (.sectorClear fn v) s fun t => t.dram = s.dram ∧ t.bitF F.memSecclr_rej 0 = true) ∧
    (closed = false → Completes (.sectorClear fn v) s fun t =>
      (t.sectorBytes n).take 60 = zeroData ∧ sectorGood (t.sectorBytes n) n = true ∧
      ∀ a, a / 64 ≠ n → t.dramByte a = s.dramByte a)) ∧
  ((∀ (v : BitVec 64) (s : State), s.barOpen (RegId.memRetire.offset 0) = true → v.getLsbD 5 = true →
    let refused := s.bitF F.memStat_retired_v 0 || s.bitF F.memStat_mig 0 || (List.range 17).any fun p =>
      decide (0 < s.getN F.memPart_size p ∧ 3840 < s.getN F.memPart_base p + s.getN F.memPart_size p)
    let k := fieldOf F.memRetire_ch v
    (refused = true → Completes (.retireGo v) s fun t => t.migrating = s.migrating ∧ t.migLine = s.migLine ∧
      t.bitF F.memRetire_rej 0 = true) ∧
    (refused = false → Completes (.retireGo v) s fun t => t.migrating = some k ∧ t.migLine = 0 ∧
      t.bitF F.memStat_mig 0 = true ∧ t.getN F.memRetire_migu 0 = 0 ∧ t.getN F.memChStat_state k = 2)) ∧
  (∀ (s : State) (k : Nat), s.migrating = some k → s.migLine < uPrime → Completes .migrationLineCopy s fun t =>
    t.migLine = s.migLine + 1 ∧ t.migrating = some k ∧
    (sectorGood (s.sectorBytes (16 * s.migLine + k)) (16 * s.migLine + k) = true → t.dram = s.dram) ∧
    (∀ o, sectorGood (s.sectorBytes (16 * s.migLine + k)) (16 * s.migLine + k) = false →
      otherCopy (16 * s.migLine + k) = some o → sectorGood (s.sectorBytes o) o = true →
      (t.sectorBytes (16 * s.migLine + k)).take 60 = (s.sectorBytes o).take 60) ∧
    ((s.migLine + 1) % 65536 = 0 → t.getN F.memRetire_migu 0 = s.migLine + 1)) ∧
  (∀ (s : State) (k : Nat), s.migrating = some k → uPrime ≤ s.migLine → Completes .migrationComplete s fun t =>
    t.migrating = none ∧ t.bitF F.memStat_mig 0 = false ∧ t.bitF F.memStat_retired_v 0 = true ∧
    t.getN F.memStat_retired 0 = k % 16 ∧ t.getN F.memStat_usable 0 = 3840 ∧ t.getN F.memChStat_state k = 3 ∧
    t.dram = s.dram ∧
    (k < 16 → (∀ n, n % 16 ≠ k → t.placeOf n = (n % 16, n / 16)) ∧
      (∀ n, n % 16 = k → otherCopy n = none → t.placeOf n = (survivor k (n / 16 % 15), uPrime + n / 16 / 15)) ∧
      ∀ n o, otherCopy n = some o → t.channelOf n ≠ t.channelOf o)) ∧
  ∀ (p : FnId) (v : BitVec 64) (s : State), s.barOpen (RegId.memPart.offset p) = true →
    (s.partRefused p v = false → Completes (.partitionWrite p v) s fun t =>
      t.getN F.memPart_base p = fieldOf F.memPart_base v ∧ t.getN F.memPart_size p = fieldOf F.memPart_size v) ∧
    (s.partRefused p v = true → s.idleWrite .memPart p v = false → Completes (.partitionWrite p v) s fun t =>
      t.getN F.memPart_base p = s.getN F.memPart_base p ∧ t.getN F.memPart_size p = s.getN F.memPart_size p ∧
      t.bitF F.memPart_rej p = true))

/-- R359, R361, R364, R367, R372, R373: GO queues a load or a flash write, which an idle loader starts at once, ABORT
ends a load with CODE 0x17, CASEIN begins stage OUT, FREE gives up the rectangle, the pads and the hash; a command
that the context does not permit is refused and changes neither. -/
def Obligations.LoadCommands : Prop :=
  ∀ (fn : FnId) (x : ContextId) (r : RegionId) (v : BitVec 64) (s : State),
    (∀ i c, (i, c) ∈ ([(.loadGo fn x v, x.val), (.loadAbortCmd fn x v, x.val), (.casein fn r v, r.val),
        (.free fn r v, r.val)] : List (Instr × Nat)) →
      s.barOpen (RegId.bndCmd.offset c) = true → ownsCtx fn c = true →
      let w := if c = 17 then v else v &&& ~~~0x100#64
      s.cmdRefused fn c w = true → s.idleWrite .bndCmd c w = false → Completes i s fun t =>
        t.bitF F.bndStat_rej c = true ∧ t.getN F.bndStat_state c = s.getN F.bndStat_state c ∧ t.sys = s.sys ∧
        t.arr = s.arr) ∧
    (s.barOpen (RegId.bndCmd.offset x) = true → ownsCtx fn x = true →
      let w := if x.val = 17 then v else v &&& ~~~0x100#64
      s.cmdRefused fn x w = false →
      (Cmd.go v = true → x.val ≠ 17 → Completes (.loadGo fn x v) s fun t =>
        t.sys.jobs = s.sys.jobs ++ [⟨x, fn, Cmd.srcsel v, (s.reg .bndSrc x).toNat, fieldOf F.bndCmd_len v, v.getLsbD 4,
          decide (x.val < 16) && v.getLsbD 5, false, 0⟩] ∧ t.getN F.bndStat_state x = 1) ∧
      (Cmd.abort v = true →
        s.sys.current.map (·.ctx) = some x.val ∨ (s.sys.jobs.any fun k => k.ctx == x.val) = true ∨
          x.val = 17 ∧ s.sys.flashJob.isSome = true →
        Completes (.loadAbortCmd fn x v) s fun t => t.getN F.bndStat_state x = 7 ∧ t.getN F.bndStat_code x = 0x17 ∧
          t.sys.current.map (·.ctx) ≠ some x.val)) ∧
    (s.barOpen (RegId.bndCmd.offset r) = true → ownsCtx fn r = true →
      s.cmdRefused fn r (v &&& ~~~0x100#64) = false →
      (Cmd.casein v = true → Completes (.casein fn r v) s fun t => t.getN F.bndStat_state r = 5 ∧
        t.qstate r = Q.casing ∧ t.getN F.qctCommitted_count r = 0 ∧
        t.getN F.qctExec_count r = if s.systemMode r then 0 else 1) ∧
      (Cmd.free v = true → Completes (.free fn r v) s fun t => t.getN F.bndStat_state r = 0 ∧ (t.region r).desc = 0 ∧
        (∀ g ∈ s.gthsOf r, t.bitF F.gthCfg_inuse g = false) ∧ (∀ k < 4, t.reg .bndHash (4 * r + k) = 0) ∧
        ∀ p < 192, Desc.claims (s.region r).desc p = true → (t.sys.pads.at p).entry = none)) ∧
    ∀ (bytes : List Byte), s.barOpen (RegId.bndCmd.offset 17) = true → s.cmdRefused 0 17 v = false → Cmd.go v = true →
      let slot := Cmd.slot v
      let len := fieldOf F.bndCmd_len v
      let idle := s.sys.current.isNone && s.sys.jobs.isEmpty
      (idle = false → Completes (.flashWriteGo v bytes) s fun t => t.sys.flashJob = none ∧ t.sys.flash = s.sys.flash ∧
        t.sys.jobs = s.sys.jobs ++ [⟨17, 0, Cmd.srcsel v, (s.reg .bndSrc 17).toNat, len, v.getLsbD 4, false, false, slot⟩] ∧
        t.getN F.bndStat_state 17 = 1) ∧
      (idle = true → Cmd.srcsel v = 0 → len ≤ bytes.length → len ≤ imageRoom →
        Completes (.flashWriteGo v bytes) s fun t =>
          t.sys.flashJob = some ⟨slot, bytes.take len, 0⟩ ∧ t.getN F.bndStat_state 17 = 3 ∧
          t.flashBytes (slotAt slot) len = bytes.take len ∧
          t.flashBytes (commitAt slot) 4096 = List.replicate 4096 0xFF)

/-- R360, R362, R364, R372: a service takes the oldest request, a flash write or a load, and a load is LOADING once
header, manifest and signature pass; a record that passes is written and counted, one that does not ends the load in
FAILED with its code; a stall or a source error ends it too; a flash slot gets its commit record once the image read
back passes. -/
def Obligations.LoadService : Prop :=
  (∀ (bytes : List Byte) (s : State), s.sys.current = none → s.sys.flashJob = none → ∀ j rest, s.sys.jobs = j :: rest →
    (j.ctx = 17 → j.srcsel = 0 → j.len ≤ bytes.length → j.len ≤ imageRoom →
      Completes (.loadServiceStart bytes) s fun t => t.sys.flashJob = some ⟨j.slot, bytes.take j.len, j.fn⟩ ∧
        t.sys.jobs = rest ∧ t.sys.current = none ∧ t.getN F.bndStat_state 17 = 3 ∧
        t.flashBytes (slotAt j.slot) j.len = bytes.take j.len) ∧
    (j.ctx ≠ 17 →
      let s0 := s.nextJob.arrive j bytes
      s0.contextCode j.ctx = 0 →
      (s0.fetch j 0 32 = .wait → Completes (.loadServiceStart bytes) s fun t =>
        t.sys.current = some j ∧ t.sys.jobs = rest ∧ t.getN F.bndStat_state j.ctx = 2) ∧
      ∀ hdr s1, s0.fetch j 0 32 = .ok hdr s1 → s1.headerCode j.ctx j.srcsel j.src hdr = 0 →
        ∀ bs s2, s1.fetch j 0 (Img.framesAt hdr) = .ok bs s2 →
        (s2.checkCode j.ctx bs = 0 → s2.repairRefused j bs = false → Completes (.loadServiceStart bytes) s fun t =>
          t.getN F.bndStat_state j.ctx = 3 ∧ t.getN F.bndStat_frames j.ctx = 0 ∧ t.sys.jobs = rest ∧
          ∃ v, t.sys.serving = some v ∧ v.job = j ∧ v.taken = 0 ∧
            v.manifest = parseManifest bs ∧ v.hash = imageHash bs) ∧
        (s2.checkCode j.ctx bs = 0 → s2.repairRefused j bs = true → Completes (.loadServiceStart bytes) s fun t =>
          t.sys.current = none ∧ t.getN F.bndStat_state j.ctx = 7 ∧ t.getN F.bndStat_code j.ctx = 0x18) ∧
        (s2.checkCode j.ctx bs ≠ 0 → Completes (.loadServiceStart bytes) s fun t => t.sys.current = none ∧
          t.getN F.bndStat_state j.ctx = 7 ∧ t.getN F.bndStat_code j.ctx = s2.checkCode j.ctx bs % 256))) ∧
  (∀ (bytes : List Byte) (s : State), ∀ j, s.sys.current = some j → ∀ v, s.sys.serving = some v →
    ∀ e, v.manifest[v.taken]? = some e → ∀ data s1, (s.arrive j bytes).fetch j v.offset (8 + e.len) = .ok data s1 →
    let code := s1.recordCode v e data
    (code ≠ 0 → Completes (.frameRecord bytes) s fun t => t.sys.current = none ∧ t.getN F.bndStat_state j.ctx = 7 ∧
      t.getN F.bndStat_code j.ctx = code % 256) ∧
    (code = 0 → j.repair = false → v.taken + 1 < v.manifest.length →
      Completes (.frameRecord bytes) s fun t =>
        let z := s1.consume j (8 + e.len)
        let z := if v.wrote then z else v.descs.foldl (fun z x => z.startRegion x.d v.anchor) z
        let w := z.writeFrame e.fa (bytesAt data 4 e.len)
        t.sys.serving = some { v with taken := v.taken + 1, offset := v.offset + 8 + e.len, wrote := true } ∧
        t.arr = w.arr ∧ t.awl = w.awl ∧
        t.getN F.bndStat_frames j.ctx = min (s1.getN F.bndStat_frames j.ctx + 1) (2 ^ 24 - 1))) ∧
  (∀ (s : State) (short : Bool), ∀ j, s.sys.current = some j →
    (Completes .loadStallTimeout s fun t => t.sys.current = none ∧ t.getN F.bndStat_state j.ctx = 7 ∧
      t.getN F.bndStat_code j.ctx = 0x0F ∧ t.bitF F.bndStat_fail_ev j.ctx = true) ∧
    Completes (.loadSourceError short) s fun t => t.sys.current = none ∧ t.getN F.bndStat_state j.ctx = 7 ∧
      t.getN F.bndStat_code j.ctx = (if short then 0x0E else 0x16) ∧ t.bitF F.bndStat_fail_ev j.ctx = true) ∧
  ∀ (s : State), ∀ j, s.sys.flashJob = some j →
    let img := s.flashBytes (slotAt j.slot) j.image.length
    let seq := ((s.slotRecord (1 - j.slot)).map (·.1)).getD 0
    let record := commitRecord ((seq + 1) % 2 ^ 32) img.length (imageHash img)
    (s.flashImageCode img = 0 → Completes .flashCommitRecord s fun t => t.getN F.bndStat_state 17 = 6 ∧
      t.bitF F.bndStat_done_ev 17 = true ∧ t.sys.flashJob = none ∧ t.flashBytes (commitAt j.slot) record.length = record) ∧
    (s.flashImageCode img ≠ 0 → Completes .flashCommitRecord s fun t => t.getN F.bndStat_state 17 = 7 ∧
      t.sys.flashJob = none ∧ t.sys.flash = s.sys.flash)

/-- R375, R379, R381, R382, R384: HOLD sets a pending hold of a region that runs; RELEASE resumes a HELD region at the
next quire, in SYSTEM mode by a system command; GO starts a readback, or waits for the hold that it asks for, or is
refused with its code; the readback ends DONE with the committed quire. -/
def Obligations.HoldsAndReadback : Prop :=
  ∀ (fn : FnId) (r : RegionId) (v : BitVec 64) (pads : BitVec 192) (s : State), ownsRegion fn r = true →
    (s.barOpen (RegId.qctHold.offset r) = true → v.getLsbD 63 = true → v.getLsbD 62 = false →
      (s.holdRefused r = false → Completes (.holdRequest fn r v) s fun t =>
        t.bitF F.qctHold_pend r = true ∧ t.getN F.qctHold_quire r = fieldOf F.qctHold_quire v) ∧
      (s.holdRefused r = true → Completes (.holdRequest fn r v) s fun t =>
        t.reg .qctHold r = s.reg .qctHold r ∧ t.bitF F.qctStatus_cfg_rej r = true)) ∧
    (s.barOpen (RegId.qctHold.offset r) = true → v.getLsbD 63 = false → v.getLsbD 62 = true →
      (s.releaseRefused r = true → Completes (.holdRelease fn r v pads) s fun t =>
        t.qstate r = s.qstate r ∧ t.bitF F.qctStatus_cfg_rej r = true) ∧
      (s.releaseRefused r = false → s.systemMode r = false → Completes (.holdRelease fn r v pads) s fun t =>
        t.qstate r = Q.run ∧ t.getN F.qctStatus_attempt r = 0 ∧
        t.getN F.qctExec_count r = (s.getN F.qctCommitted_count r + 1) % 2 ^ 64) ∧
      (s.releaseRefused r = false → s.systemMode r = true → Completes (.holdRelease fn r v pads) s fun t =>
        t.qstate r = s.qstate r ∧ t.fst.scheduled = s.fst.scheduled ++
          [⟨3, s.devIdx, s.fst.cseq, BitVec.ofNat 40 (s.getN F.qctCommitted_count r + 1), s.actsAt 0⟩])) ∧
    (s.barOpen (RegId.qctRbSel.offset r) = true → v.getLsbD 63 = true →
      let code := s.readbackCode r v
      (code ≠ 0 → Completes (.readbackGo fn r v) s fun t => t.bitF F.qctRbStat_rej r = true ∧
        t.getN F.qctRbStat_code r = code ∧ t.sys.ops = s.sys.ops) ∧
      (code = 0 → Completes (.readbackGo fn r v) s fun t =>
        t.getN F.qctRbStat_state r = (if s.atRest r then 2 else 1) ∧
        (s.atRest r = false → t.bitF F.qctHold_pend r = true) ∧
        ∃ o, t.op r = some o ∧ o.kind = .readback ∧ o.fn = fn ∧
          o.ownHold = (!s.atRest r && !s.bitF F.qctHold_pend r))) ∧
    ∀ (o : RegionOp), s.op r = some o → o.kind = .readback → s.getN F.qctRbStat_state r = 2 →
      Completes (.readbackDone r pads) s fun t => t.getN F.qctRbStat_state r = 3 ∧ t.bitF F.qctRbStat_done_ev r = true ∧
        t.op r = none ∧ t.getN F.qctRbStat_quire r = s.getN F.qctCommitted_count r % 2 ^ 40 ∧
        ∀ g, s.selected r (s.reg .qctRbSel r) = [g] → (List.range 3).filter (Sel.part (s.reg .qctRbSel r)) = [0] →
          t.dram = (s.putWords (s.getN F.qctRbDst_sector r) (s.statePart r g noExtra)).dram ∧
          t.bitF F.qctRbStat_perr r = s.stateBad g

/-- R386 to R391: TAKE and RESTORE begin their operation or are refused with their code; the engine's first write
makes every bookmark invalid whose chain passes through the slot; a capture that ends well makes its slot the last
bookmark, valid at the committed quire; a restore leaves the region HELD at the bookmark's quire, or RBAD where a part
fails. -/
def Obligations.Bookmarks : Prop :=
  ∀ (fn : FnId) (r : RegionId) (v : BitVec 64) (pads : BitVec 192) (s : State),
    (ownsRegion fn r = true → s.barOpen (RegId.qctBmkCtl.offset r) = true →
      let slot := fieldOf F.qctBmkCtl_slot v
      (v.getLsbD 63 = true → v.getLsbD 62 = false →
        (s.takeCode r v ≠ 0 → Completes (.bookmarkTake fn r v) s fun t => t.bitF F.qctBmkStat_rej r = true ∧
          t.getN F.qctBmkStat_code r = s.takeCode r v ∧ t.sys.ops = s.sys.ops) ∧
        (s.takeCode r v = 0 → Completes (.bookmarkTake fn r v) s fun t =>
          t.getN F.qctBmkStat_state r = (if s.atRest r then 2 else 1) ∧
          ∃ o, t.op r = some o ∧ o.kind = .capture ∧ o.slot = slot ∧ o.started = false ∧
            o.full = (v.getLsbD 60 || !s.bitF F.qctBmkStat_lvalid r))) ∧
      (v.getLsbD 63 = false → v.getLsbD 62 = true →
        (s.restoreCode r slot ≠ 0 → Completes (.bookmarkRestore fn r v) s fun t => t.bitF F.qctBmkStat_rej r = true ∧
          t.getN F.qctBmkStat_code r = s.restoreCode r slot ∧ t.sys.ops = s.sys.ops) ∧
        (s.restoreCode r slot = 0 → Completes (.bookmarkRestore fn r v) s fun t =>
          t.getN F.qctBmkStat_state r = 3 ∧ ∃ o, t.op r = some o ∧ o.kind = .restore ∧ o.slot = slot ∧
            o.started = false ∧ o.unbound = (s.qstate r == Q.unbound)))) ∧
    ∀ (o : RegionOp), s.op r = some o → o.slot < 64 →
      (o.started = false → o.kind = .capture → s.getN F.qctBmkStat_state r = 2 →
        Completes (.bookmarkEngineStart r) s fun t => t.op r = some { o with started := true } ∧
          ∀ k < 64, (s.chainOf r k).contains o.slot = true → t.slotValid r k = false) ∧
      (o.started = false → o.kind = .restore → Completes (.bookmarkEngineStart r) s fun t =>
        t.op r = some { o with started := true }) ∧
      (o.started = true → o.kind = .capture →
        let c := s.captureParts r (s.getN F.qctBmkDst_sector r) (s.captureJobs r o.full)
        Completes (.bookmarkCaptureDone r pads) s fun t => t.op r = none ∧ t.bitF F.qctBmkStat_done_ev r = true ∧
          t.getN F.qctBmkStat_quire r = s.getN F.qctCommitted_count r % 2 ^ 40 ∧ t.dram = c.2.2.2.dram ∧
          if c.2.2.1 then t.getN F.qctBmkStat_state r = 5 ∧ t.getN F.qctBmkStat_code r = 0x0A
          else t.getN F.qctBmkStat_state r = 4 ∧ t.getN F.qctBmkStat_lastslot r = o.slot ∧
            t.bitF F.qctBmkStat_lvalid r = true ∧ t.slotValid r o.slot = true ∧
            ∃ x, t.index r o.slot = some x ∧ x.quire = s.getN F.qctCommitted_count r ∧ x.incr = !o.full ∧
              x.entries = c.1 ∧ x.parent = if o.full then none else s.lastSlot r) ∧
      (o.started = true → o.kind = .restore →
        Completes (.bookmarkRestoreDone r) s fun t => t.op r = none ∧ t.bitF F.qctBmkStat_done_ev r = true ∧
          t.qstate r = Q.held ∧
          if (s.restoreParts r o.slot).1 then t.getN F.qctBmkStat_state r = 4 ∧ t.bitF F.qctBmkStat_rbad r = false ∧
            t.getN F.qctCommitted_count r = (((s.index r o.slot).map (·.quire)).getD 0) % 2 ^ 64 ∧
            t.getN F.qctBmkStat_lastslot r = o.slot
          else t.getN F.qctBmkStat_state r = 5 ∧ t.getN F.qctBmkStat_code r = 9 ∧ t.bitF F.qctBmkStat_rbad r = true)

/-- R398 to R402, R404: in each microsecond MT advances, and a channel whose wire runs counts its time and its NB; an
interval, a RECORD NOW and a power-on take a snapshot under the next SEQ; the oldest snapshot becomes the newest
record with the next leaf; sealed parameters take effect as a microsecond begins, each with its record; the counters
are written in both copies, and are what a meter without power powers on with. -/
def Obligations.MeterCounting : Prop :=
  (∀ (s : State), s.meter.powered = true →
    let m := s.meter
    let recorded (reason : Nat) (t : State) : Prop := t.meter.cnt.seq = satAdd m.cnt.seq 1 ∧
      t.meter.lastMt = some m.cnt.mt ∧ (t.meter.snaps.map (·.reason)) = m.snaps.map (·.reason) ++ [reason] ∧
      (t.meter.snaps.map (·.body)).dropLast = m.snaps.map (·.body) ∧
      (((t.meter.snaps.map (·.body)).getLast?).getD []).take 4 = [0x57, 0x4D, 0x52, 0x01]
    (Completes .meterSample s fun t => t.meter.sealQueue = [] ∧ t.meter.intervalS = m.takeParams.intervalS ∧
      t.meter.unit = m.takeParams.unit ∧
      (m.sealQueue.length ≤ m.left → t.meter.snaps.length = m.snaps.length + if m.left = 0 then 0 else m.sealQueue.length) ∧
      t.meter.cnt.mt = satAdd m.cnt.mt 1 ∧ ∀ r < 16,
        let v := (m.takeParams.wire r).1
        let w := (m.takeParams.wire r).2
        let on := v && s.runningWires.getLsbD w
        t.meter.cnt.runUs.at r = (if on then satAdd (m.cnt.runUs.at r) 1 else m.cnt.runUs.at r) ∧
        t.meter.cnt.acc.at r = (if on then satAdd (m.cnt.acc.at r) (m.nb.at w).toNat else m.cnt.acc.at r)) ∧
    (m.left ≠ 0 →
      (m.cnt.mt ≠ 0 → m.cnt.mt.toNat % (m.intervalS.toNat * 1000000) = 0 → m.intervalAt ≠ some m.cnt.mt →
        Completes .meterIntervalRecord s (recorded 1)) ∧
      (s.sys.vsb = true → (∀ x, m.lastMt = some x → x.toNat + 1000000 ≤ m.cnt.mt.toNat) →
        Completes .recordNow s (recorded 4))) ∧
    ((∃ x, m.lastMt = some x ∧ m.cnt.mt.toNat < x.toNat + 1000000) → exec .recordNow s = .next s) ∧
    (∀ x rest, m.snaps = x :: rest → m.left ≠ 0 → Completes .meterRecordSigned s fun t =>
      let slot := if m.nrec = 0 then 0 else (m.newest + 1) % 16
      t.meter.snaps = rest ∧ t.meter.leafIndex = m.leafIndex + 1 ∧ t.meter.newest = slot ∧
      t.meter.nrec = min (m.nrec + 1) 16 ∧ t.meter.records.at slot = signedRecord m.leafIndex x.body) ∧
    (Completes .meterNvWrite s fun t => t.meter.cnt = m.cnt ∧
      ∃ g, t.meter.nv = [(g, m.cnt), (g, m.cnt)] ∧ ∀ c ∈ m.nv, c.1 < g) ∧
    Completes .mvddFall s fun t => t.meter.powered = false ∧ t.meter.snaps = [] ∧
      t.meter.intervalS = m.takeParams.intervalS ∧ t.meter.wiring = m.takeParams.wiring ∧
      (∃ g, t.meter.nv = [(g, m.cnt), (g, m.cnt)]) ∧
      t.meter.leafIndex = if m.snaps.isEmpty then m.leafIndex else m.leafIndex + 1) ∧
  ∀ (addr : BitVec 3) (good : BitVec 2) (s : State),
    (s.meter.powered = true → Sys2Proof.Machine.exec (.meterPowerOn addr good) s = .next s) ∧
    (s.meter.powered = false → Completes (.meterPowerOn addr good) s fun t =>
    t.meter.powered = true ∧ t.meter.addr = addr ∧ t.meter.rptr = 0 ∧
    (∀ c, s.meter.newestGood good = some c → t.meter.cnt.poweron = satAdd c.poweron 1 ∧ t.meter.cnt.mt = c.mt ∧
      t.meter.cnt.acc = c.acc ∧ t.meter.fault = s.meter.fault) ∧
    (s.meter.newestGood good = none → t.meter.fault = true ∧ t.meter.cnt.mt = 0))

/-- R395, R397, R402, R407, R409, R410: the binding message carries the gatherings in use and sets NB where its CRC
passes; the status frame is what the MTR_ registers show; sealed parameters are taken and count AUDIT, or refused and
count REJCNT; a private read gives bytes from the pointer on and advances it; METER_RUN low holds every running
region; without VSB or MVDD the meter answers nothing (log entry 127). -/
def Obligations.MeterLinks : Prop :=
  (∀ (s : State), s.domOn 2 = true → Completes .bindingMessageSend s fun t =>
    t.sys.bindMsg = some ⟨s.sys.bindSeq, (List.range 16).map fun r => (s.gthsOf r).length⟩ ∧
    t.sys.bindSeq = (s.sys.bindSeq + 1) % 2 ^ 16) ∧
  (∀ (s : State) (b : BindingMsg), s.sys.bindMsg = some b → s.meter.powered = true →
    (Completes (.bindingMessage true) s fun t => t.sys.bindMsg = none ∧ t.meter.stale = false ∧
      ∀ r < 16, t.meter.nb.at r = BitVec.ofNat 19 (64 * b.ng.getD r 0)) ∧
    Completes (.bindingMessage false) s fun t => t.sys.bindMsg = none ∧ t.meter = s.meter) ∧
  (∀ (s : State) (off : BitVec 32) (n : Nat) (bytes : List Byte), s.meterAnswers = false →
    ∀ i ∈ ([.setptr off, .recordNow, .sealed bytes, .meterPrivateRead n] : List Instr),
      Sys2Proof.Machine.exec i s = .next s) ∧
  ∀ (s : State), s.meterAnswers = true →
    (Completes .bindingStale s fun t => t.meter.stale = true ∧ t.meter.nb = s.meter.nb) ∧
    (s.domOn 2 = true → Completes .meterStatusFrame s fun t =>
      t.reg .mtrStat 0 = BitVec.ofNat 64 (s.meterStat true) ∧ t.reg .mtrSeq 0 = s.meter.newestSeq ∧
      t.reg .mtrParam 0 = BitVec.ofNat 64 s.meter.param ∧ t.reg .mtrAudit 0 = BitVec.ofNat 64 s.meter.auditWord ∧
      ∀ r < 16, t.reg .mtrRg r = BitVec.ofNat 64 (s.meter.rg r)) ∧
    (Completes .statusLinkLoss s fun t => t.bitF F.mtrStat_linkok 0 = false ∧ t.meter = s.meter) ∧
    (∀ off, Completes (.setptr off) s fun t => t.meter.rptr = off.toNat) ∧
    (∀ bytes, s.meter.accepts bytes = true → Completes (.sealed bytes) s fun t =>
      t.meter.cnt.audit = s.meter.cnt.audit + 1 ∧ t.meter.sealQueue = s.meter.sealQueue ++ [sealParams bytes] ∧
      ∃ g, t.meter.nv = [(g, t.meter.cnt), (g, t.meter.cnt)]) ∧
    (∀ bytes, s.meter.accepts bytes = false → Completes (.sealed bytes) s fun t =>
      t.meter.cnt.rejcnt = satAdd s.meter.cnt.rejcnt 1 ∧ t.meter.cnt.audit = s.meter.cnt.audit ∧
      t.meter.sealQueue = s.meter.sealQueue) ∧
    (∀ n, Completes (.meterPrivateRead n) s fun t => t.meter.rptr = (s.meter.rptr + n) % 2 ^ 32 ∧
      ∃ b, t.outs = .busRead .meter ((List.range n).map fun i => s.meterByte b ((s.meter.rptr + i) % 2 ^ 32)) :: s.outs) ∧
    (s.meterRun = false → Completes .meterRunLow s fun t =>
      ∀ r < 16, s.inRun r = true → t.bitF F.qctHold_pend r = true)

/-- R414, R415, R418, R420, R422: an OTP command programs a slot that it may, whose hash is then what is read back and
which is revoked where that differs, or revokes one; an attestation request waits, or is refused with its code, takes
the next signature index when it is served, and ends DONE with its report in DRAM. -/
def Obligations.TrustCommands : Prop :=
  (∀ (v : BitVec 64) (s : State), s.barOpen (RegId.truOtpcmd.offset 0) = true →
    let k := fieldOf F.truOtpcmd_slot v
    (s.otpRefused v = true → ∀ i ∈ ([.otpProgram v, .otpRevoke v] : List Instr), Completes i s fun t =>
      (v.getLsbD 0 = true ∨ v.getLsbD 1 = true → t.bitF F.truOtpcmd_rej 0 = true) ∧ t.sys.otpBusy = s.sys.otpBusy ∧
      ∀ j, t.reg .truAnchorStat j = s.reg .truAnchorStat j) ∧
    (s.otpRefused v = false → v.getLsbD 0 = true → Completes (.otpProgram v) s fun t =>
      t.sys.otpBusy = s.sys.otpBusy ++ [k]) ∧
    (s.otpRefused v = false → v.getLsbD 1 = true → Completes (.otpRevoke v) s fun t =>
      t.revoked k = true ∧ t.bitF F.truOtpcmd_done_ev 0 = true)) ∧
  (∀ (readback : BitVec 256) (s : State) (k : Nat) (rest : List Nat), s.sys.otpBusy = k :: rest →
    Completes (.otpProgramDone readback) s fun t => t.sys.otpBusy = rest ∧ t.filled k = true ∧
      t.bitF F.truOtpcmd_done_ev 0 = true ∧
      (∀ j < 4, t.reg .truAnchorHash (4 * k + j) = readback.extractLsb' (64 * j) 64) ∧
      if readback = s.otpData then t.revoked k = s.revoked k
      else t.revoked k = true ∧ t.bitF F.truOtpcmd_rej 0 = true) ∧
  (∀ (fn f : FnId) (v : BitVec 64) (s : State), s.barOpen (RegId.truAttCmd.offset f) = true → ownsAtt fn f = true →
    v.getLsbD 63 = true →
    let code := s.attCode f (fieldOf F.truAttCmd_sector v)
    (code ≠ 0 → Completes (.attestationGo fn f v) s fun t => t.bitF F.truAttStat_rej f = true ∧
      t.getN F.truAttStat_code f = code ∧ t.sys.attWait = s.sys.attWait) ∧
    (code = 0 → Completes (.attestationGo fn f v) s fun t => t.getN F.truAttStat_state f = 1 ∧
      t.sys.attWait = s.sys.attWait ++ [⟨f, f.val != 0 || v.getLsbD 62, fieldOf F.truAttCmd_sector v⟩])) ∧
  (∀ (s : State) (r : AttRequest) (rest : List AttRequest), s.sys.attBody = none → s.sys.attWait = r :: rest →
    s.bitF F.truIdstat_keyfail 0 = false → s.getN F.truIdstat_used 0 < 2 ^ 30 →
    let seq := s.getN F.truIdstat_used 0
    Completes .attestationService s fun t => t.getN F.truIdstat_used 0 = seq + 1 ∧
      t.sys.attBody = some (r, s.reportBody r seq) ∧ t.sys.attWait = rest ∧ t.getN F.truAttStat_state r.fn = 2 ∧
      t.getN F.truAttStat_seq r.fn = seq ∧ t.bitF F.truIdstat_keyfail 0 = decide (seq + 1 = 2 ^ 30) ∧
      (2 ^ 30 < seq + 1 + 2 ^ 20 → t.bitF F.truIdstat_keylow 0 = true)) ∧
  ∀ (s : State) (r : AttRequest) (body : List Byte), s.sys.attBody = some (r, body) →
    Completes .attestationWritten s fun t => t.sys.attBody = none ∧ t.getN F.truAttStat_state r.fn = 3 ∧
      t.bitF F.truAttStat_done_ev r.fn = true ∧ t.dram = (s.writePacked r.sector (signedReport body)).dram

/-- R427, R429, R430: a vote is set by its own function alone; a domain with a reason and its needs on ramps up, is on
at power-good, is retried once and then in FAIL with source 899; one without a reason ramps down, a quadrant only once
its regions are held, and loses its cells. -/
def Obligations.PowerDomains : Prop :=
  (∀ (fn : FnId) (d : DomainId) (v : BitVec 64) (s : State), s.barOpen (RegId.pwrDom.offset d) = true → 2 ≤ d.val →
    Completes (.domainVoteWrite fn d v) s fun t =>
      (t.getF F.pwrDom_vote d).getLsbD fn = v.getLsbD fn ∧
      ∀ j, j ≠ fn.val → j ≠ 17 → (t.getF F.pwrDom_vote d).getLsbD j = (s.getF F.pwrDom_vote d).getLsbD j) ∧
  (∀ (s : State), (s.portsUp.any fun p => (s.port p).peerPwr) = false → Completes .fuistPartnerVoteClear s fun t =>
    (t.getF F.pwrDom_vote 4).getLsbD 19 = false) ∧
  ∀ (d : DomainId) (s : State), 2 ≤ d.val →
    (s.domState d = Dom.off → s.wanted 3 d = true → (∀ e, needs d = some e → s.domOn e = true) → s.powerBarred = false →
      Completes (.domainPowerUp d) s fun t => t.domState d = Dom.rampUp) ∧
    (s.domState d = Dom.rampUp → s.sys.wake = none → Completes (.domainPowerGood d) s fun t => t.domState d = Dom.on ∧
      (6 ≤ d.val → ∀ k ∈ quadStations (d - 6), t.staState k = 0)) ∧
    (s.domState d = Dom.rampUp → s.sys.wake = none →
      (s.sys.retriedDom.contains d.val = false → Completes (.powerGoodTimeout d) s fun t =>
        t.sys.retriedDom.contains d.val = true ∧ t.domState d = Dom.rampUp) ∧
      (s.sys.retriedDom.contains d.val = true → Completes (.powerGoodTimeout d) s fun t =>
        t.domState d = Dom.fail ∧ t.sys.retriedDom.contains d.val = false ∧
        t.getN F.colEv_raises 899 = min (s.getN F.colEv_raises 899 + 1) (2 ^ 24 - 1))) ∧
    (s.domOn d = true → s.wanted 3 d = false →
      (s.holdFirst d ≠ [] → Completes (.domainPowerDown d) s fun t => t.domOn d = true ∧
        ∀ r ∈ s.holdFirst d, t.bitF F.qctHold_pend r = true) ∧
      (s.holdFirst d = [] → Completes (.domainPowerDown d) s fun t => t.domState d = Dom.rampDn ∧
        (6 ≤ d.val → ∀ x, placeQuad (x / 64) = d.val - 6 → t.arr.cells.at x = default))) ∧
    (s.domState d = Dom.rampDn → Completes (.domainRampdownDone d) s fun t =>
      (t.domState d = Dom.off ∨ t.domState d = Dom.rampUp) ∧ (s.wanted 3 d = false → t.domState d = Dom.off))

/-- R433 to R437, R439, R440, R483: an operating point or a voltage that R433 permits is taken, any other is refused,
a point with its code and source 898 (the point in use is no change, log entry 125); the switch comes once every
running region has paused; THR follows temperature and power; at 110 °C every domain goes off; a loop that loses lock
is bridged by holdover; a released bank is held no longer. -/
def Obligations.OperatingPointsAndHeat : Prop :=
  ∀ (s : State),
    let raised (n : Nat) (t : State) : Prop := t.getN F.colEv_raises n = min (s.getN F.colEv_raises n + 1) (2 ^ 24 - 1)
    (∀ v, s.barOpen (RegId.clkAclk.offset 0) = true → s.idleWrite .clkAclk 0 v = false →
      let op := fieldOf F.clkAclk_op v
      (s.opCode op ≠ 0 → Completes (.opWrite v) s fun t => t.getN F.clkAclk_op 0 = s.getN F.clkAclk_op 0 ∧
        t.getN F.clkAclk_code 0 = s.opCode op ∧ t.bitF F.clkAclk_rej 0 = true ∧ raised 898 t) ∧
      (s.opCode op = 0 → Completes (.opWrite v) s fun t => t.getN F.clkAclk_op 0 = op ∧
        t.getN F.clkAclk_code 0 = 0 ∧ t.bitF F.clkAclk_pend 0 = decide (op ≠ s.getN F.clkAclk_active 0))) ∧
    (∀ pads, s.bitF F.clkAclk_pend 0 = true → s.loopMoves = false →
      (∀ r < 16, s.inRun r = true → (s.region r).paused = true) → Completes (.opSwitch pads) s fun t =>
        t.getN F.clkAclk_active 0 = s.getN F.clkAclk_op 0 ∧ t.bitF F.clkAclk_pend 0 = false ∧
        ∀ r < 16, (s.region r).paused = true → (t.region r).paused = false ∧ (t.region r).live = true ∧
          t.getN F.qctExec_count r = (s.region r).next % 2 ^ 64) ∧
    (s.bitF F.clkAclk_pend 0 = true → s.loopMoves = true → Completes .arrayLoopRelock s fun t =>
      t.getN F.clkStat_avco 0 = opVco (s.getN F.clkAclk_op 0) ∧ t.bitF F.clkAclk_pend 0 = false ∧
      t.getN F.clkAclk_active 0 = s.getN F.clkAclk_op 0 ∧ raised 898 t) ∧
    (∀ v, s.barOpen (RegId.pwrVarr.offset 0) = true → s.idleWrite .pwrVarr 0 v = false →
      let set := fieldOf F.pwrVarr_vset v
      let now := s.getN F.pwrVarr_vnow 0
      (s.vsetRefused set = true → Completes (.vsetWrite v) s fun t => t.getN F.pwrVarr_vset 0 = s.getN F.pwrVarr_vset 0 ∧
        t.bitF F.pwrVarr_rej 0 = true ∧ (s.vsetBelow set = true → raised 898 t)) ∧
      (s.vsetRefused set = false → Completes (.vsetWrite v) s fun t => t.getN F.pwrVarr_vset 0 = set ∧
        t.bitF F.pwrVarr_vok 0 = decide (set ≤ now ∧ now ≤ set + 2))) ∧
    (∀ code : BitVec 8, Completes (.varrSettled code) s fun t => t.getN F.pwrVarr_vnow 0 = code.toNat ∧
      t.bitF F.pwrVarr_vok 0 =
        decide (s.getN F.pwrVarr_vset 0 ≤ code.toNat ∧ code.toNat ≤ s.getN F.pwrVarr_vset 0 + 2)) ∧
    (s.domOn 2 = true →
      let thr := s.getN F.pwrStatus_thr 0
      let hot := decide (95 ≤ tempOf (s.getF F.pwrStatus_tjmax 0) ∨ s.getN F.pwrStatus_cap_w 0 < s.getN F.pwrStatus_pwr_w 0)
      let cool := decide (tempOf (s.getF F.pwrStatus_tjmax 0) ≤ 92 ∧
        s.getN F.pwrStatus_pwr_w 0 + 10 ≤ s.getN F.pwrStatus_cap_w 0)
      Completes .thermalCompare s fun t => t.getN F.pwrStatus_thr 0 =
        if hot then min (thr + 16) 4095 else if cool then thr - 16 else thr) ∧
    (∀ (n : Fin 64) (temp : BitVec 8), 110 ≤ tempOf temp → s.dormant = false → s.sys.tripped = false →
      Completes (.thermalTrip n temp) s fun t => t.sys.tripped = true ∧
        ∀ d, 2 ≤ d → d ≤ 9 → t.domState d = Dom.off ∨ t.domState d = Dom.fail) ∧
    (∀ temp : Int, s.sys.vsb = true → Completes (.aoTempSample temp) s fun t =>
      (-128 ≤ temp → temp ≤ 127 → (t.getF F.pwrAotemp_temp 0).toInt = temp) ∧
      t.bitF F.pwrAotemp_impl 0 = decide (temp < -20 ∨ 130 < temp)) ∧
    (∀ array, s.bitF (lockField array) 0 = true → Completes (.loopLockLoss array) s fun t =>
      t.bitF (lockField array) 0 = false ∧ t.bitF F.clkStat_hold 0 = true ∧ t.bitF F.clkStat_loss_ev 0 = true ∧
      raised 901 t) ∧
    (∀ array, s.bitF F.clkStat_hold 0 = true → Completes (.loopRelock array) s fun t =>
      t.bitF (lockField array) 0 = true ∧ t.bitF F.clkStat_hold 0 = !s.bitF (lockField !array) 0) ∧
    (∀ (fn : FnId) (v : BitVec 64), s.barOpen (RegId.padHold.offset 0) = true →
      let banks : BitVec 8 := v.extractLsb' 8 8 &&& s.banksOf fn
      banks ≠ 0 → (∀ b < 8, banks.getLsbD b = true → s.bankHeld b = true ∧ s.domOn (6 + b / 2) = true) →
      Completes (.padRelease fn v) s fun t => t.getF F.padHold_held 0 = s.getF F.padHold_held 0 &&& ~~~banks) ∧
    ∀ b : Fin 8, s.getN F.padBank_vsel b ≠ 0 → Completes (.bankRampDone b) s fun t => t.bitF F.padBank_pwrgood b = true

/-- R430, R441 to R447: an enabled wake event sets vote bit 20 and, from a device that is down, asks for the wake
sequence, which brings up MEM and HUB, locks the loops, raises what is wanted and ends with DONE_EV and source 900; a
step that hangs is retried with its alternate, and fails with everything but AO and MTR off; ACK withdraws the votes;
TCLK is calibrated, bridged and adjusted. -/
def Obligations.WakeAndTime : Prop :=
  ∀ (s : State),
    let votes (t : State) : Prop := ∀ d, 2 ≤ d → d ≤ 9 → (s.getF F.pwrWakecfg_domains 0).getLsbD d = true →
      (t.getF F.pwrDom_vote d).getLsbD 20 = true
    let asks (cause : Nat) (t : State) : Prop := votes t ∧ t.sys.wakeWait = some (match s.sys.wakeWait with
      | some c => min c cause
      | none => cause)
    (s.alive = true → (s.sys.tripped = true → s.cool = true) → s.goingDown = true →
      (s.bitF F.pwrWakecfg_en_i3c 0 = true → Completes .wakeAddressMatch s (asks 1)) ∧
      (s.bitF F.pwrWakecfg_en_waken 0 = true → Completes .wakeNAssert s (asks 3)) ∧
      (s.bitF F.pwrAotmr_armed 0 = true → s.bitF F.pwrWakecfg_en_tmr 0 = true → Completes .aoTimerExpiry s fun t =>
        asks 2 t ∧ t.bitF F.pwrAotmr_armed 0 = false)) ∧
    (∀ (c : Nat) (dur : BitVec 32), s.sys.wakeWait = some c → s.dormant = true → s.sys.wake = none → s.alive = true →
      s.sys.bootAfter = false → Completes (.wakeSequence 0 dur) s fun t =>
        t.sys.wakeWait = none ∧ t.sys.wake = none ∧ t.sys.tripped = false ∧ t.domOn 2 = true ∧ t.domOn 3 = true ∧
        t.bitF F.clkStat_alock 0 = true ∧ t.bitF F.clkStat_rlock 0 = true ∧
        (∀ d, 4 ≤ d → d ≤ 9 → s.ownReason d = true → t.domOn d = true) ∧
        t.bitF F.pwrWake_done_ev 0 = true ∧ t.getF F.pwrWake_dur_us 0 = dur ∧ t.getN F.pwrWake_cause 0 = c % 8 ∧
        t.getN F.colEv_raises 900 = min (s.getN F.colEv_raises 900 + 1) (2 ^ 24 - 1)) ∧
    (∀ (stop : Nat) (dur : BitVec 32) (w : Wake), s.sys.wake = some w → w.step ≠ 0 →
      (w.retried = false → wakeHasAlt w.step = true → stop = w.step → Completes (.wakeStepTimeout stop dur) s fun t =>
        t.sys.wake = some { w with retried := true } ∧ t.bitF F.pwrWake_alt 0 = true ∧
        t.getN F.pwrWake_step 0 = wakeNo w.step) ∧
      (w.retried = true → w.step < 10 → Completes (.wakeStepTimeout stop dur) s fun t =>
        t.sys.wake = none ∧ t.bitF F.pwrWake_fail 0 = true ∧ t.sys.wakeFailed = some (wakeNo w.step, 2) ∧
        ∀ d, 2 ≤ d → d ≤ 9 → t.domState d = Dom.off ∨ t.domState d = Dom.fail) ∧
      (w.retried = true → 10 ≤ w.step → w.left = [] → Completes (.wakeStepTimeout stop dur) s fun t =>
        t.sys.wake = none ∧ t.domState (w.step - 10) = Dom.fail)) ∧
    (∀ v, s.barOpen (RegId.pwrWakecfg.offset 0) = true → v.getLsbD 3 = true → Completes (.wakeAck v) s fun t =>
      ∀ d, 2 ≤ d → d ≤ 9 → (t.getF F.pwrDom_vote d).getLsbD 20 = false) ∧
    (∀ count, s.bitF F.clkStat_rlock 0 = true → s.sys.tclk = true → Completes (.timeCalibrate count) s fun t =>
      t.getN F.timCal_ratio 0 = count * 2 ^ 12 % 2 ^ 40 ∧ t.bitF F.timCal_valid 0 = true) ∧
    (∀ n, s.bitF F.clkStat_rlock 0 = true → s.sys.tclk = false → Completes (.tclkResume n) s fun t =>
      t.sys.tclk = true ∧ t.getN F.timSpine_count 0 =
        (s.getN F.timSpine_count 0 + n * s.getN F.timCal_ratio 0 / 2 ^ 32) % 2 ^ 64 ∧
      t.getN F.timUncert_ns 0 = min (s.getN F.timUncert_ns 0 + ((10 * n + 2047) / 2048 + 1000)) (2 ^ 48 - 1)) ∧
    ∀ (fn : FnId) (v : BitVec 64), s.barOpen (RegId.timAdj.offset 0) = true →
      Completes (.timAdj fn v) s fun t => t.getF F.timSpine_count 0 =
        if fn.val = 0 then s.getF F.timSpine_count 0 + v else s.getF F.timSpine_count 0

/-- R9, R448 to R453, R269: a reset puts every field that does not survive it at its reset value and empties what the
event reaches, but for the identity in HUB_ID, and a boot of its own kind begins; power removal leaves flash and the
meter's counts. -/
def Obligations.ResetsAndBoots : Prop :=
  ∀ (s : State), s.canonical = true →
    let lost (e : Nat) (kept : List RegId) (t : State) : Prop :=
      ∀ r i, r ∉ kept → r ≠ .hubId → t.reg r i &&& ~~~r.survMask e = r.resetVal i &&& ~~~r.survMask e
    (s.sys.vsb = true → s.sys.resetLow = false → Completes .resetNQualified s fun t =>
      lost Ev.h [.gthCfg, .padBank, .pwrDom, .pwrStatus] t ∧ t.sys.resetLow = true ∧ t.arr = {} ∧ t.awl = {} ∧
      t.ring = {} ∧ t.sys.jobs = [] ∧ t.sys.current = none ∧ t.sys.tclk = false) ∧
    (s.sys.vsb = true → s.sys.vin = true → Completes .vinLoss s fun t =>
      lost Ev.h [.gthCfg, .padBank, .pwrDom, .pwrStatus, .hubBoot] t ∧ t.sys.vin = false ∧ t.arr = {} ∧ t.awl = {} ∧
      t.ring = {} ∧ ∀ d, 2 ≤ d → d ≤ 9 → t.domState d = Dom.off) ∧
    (s.sys.vsb = true → Completes .vsbLoss s fun t => lost Ev.n [.pwrDom, .pwrStatus] t ∧ t.sys.vsb = false ∧
      t.arr = {} ∧ t.awl = {} ∧ t.ring = {} ∧ t.log = {} ∧ t.dram = {} ∧ t.sys.flash = s.sys.flash ∧
      t.meter.cnt = s.meter.cnt ∧ ∀ d, 2 ≤ d → d ≤ 9 → t.domState d = Dom.off) ∧
    ∀ (straps : BitVec 3) (stop : Nat) (dur : BitVec 32),
      let boots (kind : Nat) (z : State) (t : State) : Prop :=
        t = z.startBoot kind stop dur ∧ t.sys.powerLost = false ∧ t.sys.fresh = []
      (s.sys.powerLost = true → Completes (.powerOnReset straps stop dur) s fun t => ∃ z, boots 0 z t ∧
        z.regs = s.domainsUp.regs ∧ z.sys.straps = straps ∧ z.sys.vsb = true ∧ z.sys.vin = true ∧ z.sys.resetLow = false) ∧
      (s.sys.resetLow = true → s.sys.vin = true → s.sys.vsb = true → Completes (.resetNRelease stop dur) s fun t =>
        ∃ z, boots 1 z t ∧ z.regs = s.regs ∧ z.sys.resetLow = false) ∧
      (s.sys.vin = false → s.sys.vsb = true → s.sys.resetLow = false → s.getN F.hubBoot_state 0 ≠ 3 →
        Completes (.vinReturn stop dur) s fun t => ∃ z, boots 1 z t ∧ z.sys.vin = true ∧ z.regs = s.domainsUp.regs) ∧
      (∀ (v : BitVec 64), s.barOpen (RegId.hubReset.offset 0) = true → v.getLsbD 0 = true → s.alive = true →
        Completes (.warmReset 0 v stop dur) s fun t => ∃ z, boots 2 z t ∧ lost Ev.w [.clkStat, .gthCfg] z ∧
          z.bitF F.clkStat_alock 0 = s.bitF F.clkStat_alock 0 ∧ z.bitF F.clkStat_rlock 0 = s.bitF F.clkStat_rlock 0 ∧
          z.arr = {} ∧ z.awl = {}) ∧
      (s.alive = true → s.domOn 5 = true → Completes (.pcieHotReset true stop dur) s fun t => ∃ z, boots 4 z t ∧
        lost Ev.w [.clkStat, .gthCfg] z) ∧
      (s.alive = true → s.domOn 5 = true → s.sys.boot = none → Completes (.pcieHotReset false stop dur) s fun t => ∃ z, boots 3 z t ∧
        lost Ev.w [.clkStat, .gthCfg] z)

/-- R269, R454 to R456: S10 and S12 that time out end as R454 says, a fatal step without an attempt left ends in HALT;
PERST_N brings up the link; a parameter block is saved over the older copy; the FLR of a VF disables its queue sets
and changes nothing else of them, masks its vectors and ends its operations. -/
def Obligations.BootStepsAndFlr : Prop :=
  ∀ (s : State),
    (∀ (stop : Nat) (dur : BitVec 32),
      (s.sys.boot = none → s.sys.link = 2 → stop ≠ 10 → Completes (.bootStepTimeout stop dur) s fun t =>
        t.sys.link = 3) ∧
      (s.sys.boot = none → s.sys.link = 2 → stop = 10 → Completes (.bootStepTimeout stop dur) s fun t =>
        t.sys.link = 4) ∧
      (s.sys.boot = none → s.sys.link = 4 → Completes (.bootStepTimeout stop dur) s fun t =>
        t.sys.link = 0 ∧ t.bitF F.hubBoot_fail_ev 0 = true) ∧
      ∀ b, s.sys.boot = some b →
        (b.step = 12 → s.getN F.fstBound_state 0 ≠ 1 → Completes (.bootStepTimeout stop dur) s fun t =>
          t.getN F.hubBoot_state 0 = 2 ∧ t.sys.boot = none ∧ t.bitF F.hubBoot_fail_ev 0 = true) ∧
        (fatalStep b.step = true → (s.ways b.step).length ≤ b.attempt → Completes (.bootStepTimeout stop dur) s fun t =>
          t.getN F.hubBoot_state 0 = 3 ∧ t.sys.boot = none ∧ ∀ d, 2 ≤ d → d ≤ 9 → t.domState d = Dom.off)) ∧
    (s.alive = true → s.sys.link = 1 → Completes .perstNRise s fun t => t.sys.perst = true ∧ t.sys.link = 3) ∧
    (s.alive = true → s.sys.link = 0 → s.sys.boot = none → Completes .perstNRise s fun t =>
      t.sys.perst = true ∧ t.sys.link = 3) ∧
    (∀ (v : BitVec 64), s.barOpen (RegId.hubBootpol.offset 0) = true → v.getLsbD 62 = true →
      (Completes (.parameterSave 0 v false) s fun t => t.bitF F.hubBootpol_rej 0 = true) ∧
      Completes (.parameterSave 0 v true) s fun t =>
        let c := match s.paramCopy with
          | some x => 1 - x
          | none => 0
        let seq := match s.paramCopy with
          | some x => ((s.paramHeader x).map (·.1)).getD 0 + 1
          | none => 1
        t.flashBytes (paramAt c) 8 = [0x50, 0x42, 0x4C, 0x4B] ++ leBytes seq 4) ∧
    ∀ (f : Fin 16), s.hostOn = true → Completes (.vfFlr f) s fun t =>
      (∀ m < 64, s.hqFn m = f.val + 1 → t.bitF F.hubHqCfg_en m = false ∧ t.reg .hubHqStat m = s.reg .hubHqStat m) ∧
      t.getN F.hubB2win_wbase (f + 1) = 0 ∧ t.getN F.hubB2win_sbase (f + 1) = 0 ∧
      (s.canonical = true → ∀ i, i / 512 = f.val + 1 → t.reg .hubMsixTbl i = RegId.hubMsixTbl.resetVal i) ∧
      t.op f = none ∧ (∀ r ∈ t.sys.attWait, r.fn ≠ f.val + 1) ∧
      t.getN F.truAttStat_state (f + 1) ≠ 1 ∧ t.getN F.truAttStat_state (f + 1) ≠ 2

/-- R59, R132, R462 to R464: the frame-check walk and the parity sweep take one frame and one word at a time, count
their passes and raise what they find; adaptation moves a lane's equaliser one step and undoes it; trim moves a rail 1
mV and never past 25 mV; telemetry shows every reading, with TJMAX and PWR_W; wear levelling counts its pass. An
engine that is off does nothing. R47, R49, R466, R467, R473: SKIP moves as R49 permits and unloads what it moves, else
the write is refused; GO starts a column move or is refused with its code; a capture that ends writes SKIP and waits
for the repair loads; UNFREEZE clears FROZEN; a read of LOG_DHI gives the upper half of the entry and advances ADDR. -/
def Obligations.Upkeep : Prop :=
  (∀ (s : State),
    let sat (n : Nat) : Nat := min (n + 1) 65535
    let finds (k : Nat) (t : State) : Prop := t.getN F.upkEng_finds k = sat (s.getN F.upkEng_finds k)
    let passed (k : Nat) (last : Bool) (t : State) : Prop :=
      t.getN F.upkEng_passes k = if last then sat (s.getN F.upkEng_passes k) else s.getN F.upkEng_passes k
    (∀ k i, (k, i) ∈ ([(0, .frameCheckWalk), (1, .folioParitySweep), (5, .wearLevelCheck)] : List (Nat × Instr)) →
      s.engineOn k = false → exec i s = .next s) ∧
    (∀ n last, s.engineOn 0 = true → s.walkNext = some (n, last) → Completes .frameCheckWalk s fun t =>
      t.sys.walkPos = (if last then 0 else n + 1) ∧ passed 0 last t ∧
      (s.rowGood (n / 8) (n % 8) = false → finds 0 t ∧
        t.getN F.colEv_raises 912 = min (s.getN F.colEv_raises 912 + 1) (2 ^ 24 - 1)) ∧
      (s.rowGood (n / 8) (n % 8) = true → t.getN F.upkEng_finds 0 = s.getN F.upkEng_finds 0)) ∧
    (∀ g last, s.engineOn 1 = true → nextOf (s.sys.sweepPos / 2048) s.inUse = some (g, last) →
      let a := if g = s.sys.sweepPos / 2048 then s.sys.sweepPos % 2048 else 0
      let ends := last && a == 2047
      Completes .folioParitySweep s fun t =>
        t.sys.sweepPos = (if ends then 0 else 2048 * g + a + 1) ∧ passed 1 ends t ∧
        (badSlices ((s.gth g).folioCommitted a) ≠ 0 → finds 1 t ∧ t.bitF F.gthFerr_valid g = true ∧
          t.getN F.colEv_raises 913 = min (s.getN F.colEv_raises 913 + 1) (2 ^ 24 - 1))) ∧
    (s.engineOn 5 = true → Completes .wearLevelCheck s fun t => passed 5 true t) ∧
    (∀ (p : PortId) (lane : Fin 8) (dir : Bool),
      let n := 8 * p.val + lane.val
      let step : Int := if dir then 1 else -1
      s.engineOn 2 = true → s.portUp p = true → (∀ u, (s.port p).sub = some u → u.lane ≠ lane.val) →
      Completes (.serdesAdaptStep p lane dir) s fun t =>
        ((s.sys.eqPos.at n + step).natAbs ≤ Config.eqRange →
          t.sys.eqPos.at n = s.sys.eqPos.at n + step ∧ t.sys.eqLast.at n = step) ∧
        (Config.eqRange < (s.sys.eqPos.at n + step).natAbs → t.sys.eqPos.at n = s.sys.eqPos.at n)) ∧
    (∀ (p : PortId) (lane : Fin 8) (before after : Nat),
      let n := 8 * p.val + lane.val
      Completes (.serdesAdaptReview p lane before after) s fun t =>
        t.sys.eqPos.at n = if 2 * before < after then s.sys.eqPos.at n - s.sys.eqLast.at n else s.sys.eqPos.at n) ∧
    (∀ (rail : Fin 16) (errMv : Int), s.engineOn 3 = true →
      let old := s.sys.railOfs.at rail
      let want := if errMv < 0 then old + 1 else if 0 < errMv then old - 1 else old
      Completes (.regulatorTrimStep rail errMv) s fun t =>
        t.sys.railOfs.at rail = if 25 < want.natAbs then old else want) ∧
    ∀ (temps : List Int) (currents : List CurrentSense), telemetryShape temps currents = true → s.domOn 2 = true →
      ((∀ d < 5, dieLost temps d = false) → Completes (.telemetryUpdate temps currents) s fun t =>
        t.getF F.pwrStatus_tjmax 0 = BitVec.ofInt 8 (tjMax temps) ∧
        ((∀ c ∈ currents, badCurrent c = false) → t.getN F.pwrStatus_pwr_w 0 =
          min ((currents.map fun c => c.mv * c.cur.toNat).sum / 100000) 65535) ∧
        (s.bitF F.upkEng_en 4 = true → passed 4 true t ∧ ∀ i < 64,
          t.getF F.upkTemp_temp i = BitVec.ofInt 8 (temps.getD i 0) ∧ t.bitF F.upkTemp_impl i = implausible temps i) ∧
        (s.bitF F.upkEng_en 4 = false → passed 4 false t ∧ ∀ i, t.reg .upkTemp i = s.reg .upkTemp i)) ∧
      ((∃ d < 5, dieLost temps d = true) → Completes (.telemetryUpdate temps currents) s fun t => t.sys.tripped = true)) ∧
  (∀ (s : State),
    (∀ (q : Fin 4) (v : BitVec 64), s.barOpen (RegId.upkColmap.offset q) = true →
      let old := s.skip q
      let new := fieldOf F.upkColmap_skip v
      let free := ∀ g ∈ movedGths q old new, s.gthRuns g = false
      new ≠ old →
        (¬ (new ≤ 32 ∧ free) → Completes (.colmapWrite q v) s fun t => t.skip q = old ∧ t.bitF F.upkColmap_rej q = true) ∧
        (new ≤ 32 → free → Completes (.colmapWrite q v) s fun t => t.skip q = new ∧
          ∀ i < 1024, physCol old (i % 32) ≠ physCol new (i % 32) →
            t.bitF F.gthCfg_unloaded (1024 * q.val + i) = true)) ∧
    (∀ (v : BitVec 64), s.barOpen (RegId.upkColrep.offset 0) = true → v.getLsbD 63 = true →
      let q := fieldOf F.upkColrep_q v
      let pg := fieldOf F.upkColrep_pg v
      let code := s.colrepCode q pg
      (code ≠ 0 → Completes (.colrepGo v) s fun t => t.getN F.upkColrep_code 0 = code ∧ t.bitF F.upkColrep_rej 0 = true ∧
        t.sys.colMove = s.sys.colMove ∧ t.getN F.upkColrep_state 0 = s.getN F.upkColrep_state 0) ∧
      (code = 0 → Completes (.colrepGo v) s fun t => t.getN F.upkColrep_code 0 = 0 ∧ t.getN F.upkColrep_state 0 = 1 ∧
        t.sys.colMove = some { q, pg, dst := s.getN F.upkColrepDst_sector 0, gths := s.toCapture q pg })) ∧
    (∀ m, s.sys.colMove = some m → s.getN F.upkColrep_state 0 = 1 → Completes .colrepCaptureDone s fun t =>
      t.skip m.q = m.pg % 64 ∧ t.bitF F.upkColrep_done_ev 0 = true ∧
      (m.gths ≠ [] → t.sys.colMove = some { m with left := m.gths } ∧ t.getN F.upkColrep_state 0 = 2 ∧
        t.getN F.upkColrep_pending 0 = m.gths.length % 2 ^ 11) ∧
      (m.gths = [] → t.sys.colMove = none ∧ t.getN F.upkColrep_state 0 = 0)) ∧
    (∀ (v : BitVec 64), s.barOpen (RegId.logCtl.offset 0) = true → v.getLsbD 63 = true →
      fieldOf F.logCtl_freeze_level v ≠ 7 → Completes (.logUnfreeze v) s fun t =>
        t.bitF F.logCtl_frozen 0 = false ∧ t.logSince = 0 ∧
        t.getN F.logCtl_freeze_level 0 = fieldOf F.logCtl_freeze_level v) ∧
    (s.barOpen (RegId.logDhi.offset 0) = true → Completes .logRead s fun t =>
      t.outs = .readData 0 (leBytes (s.logAt.extractLsb' 64 64).toNat 8) :: s.outs ∧
      t.getN F.logAddr_addr 0 = (s.getN F.logAddr_addr 0 + 1) % 4096))

/-- R484, R485, R487 to R489: a target that answers takes a dynamic address, a new one, or its static one again, and
answers the CCCs that it supports; STATUS and VOTE act once HUB is up. IDCODE, BYPASS, SAMPLE/PRELOAD and the private
instructions act while the port is powered; EXTEST, CLAMP and HIGHZ act as BYPASS while a region is not UNBOUND. -/
def Obligations.BusAndJtag : Prop :=
  ∀ (s : State),
    (∀ (t' : BusTarget), s.targetUp t' = true →
      (∀ da : BitVec 7, s.busAddr t' = 0 → ∀ i ∈ ([.entdaa t' da, .setdasa t' da] : List Instr),
        Completes i s fun t => t.busAddr t' = da) ∧
      (∀ da : BitVec 7, s.busAddr t' ≠ 0 → da ≠ 0 → Completes (.setnewda t' da) s fun t => t.busAddr t' = da) ∧
      (Completes .rstdaa s fun t => t.busAddr t' = 0) ∧
      (∀ i n, (i, n) ∈ ([(.getpid t', 6), (.getbcr t', 1), (.getdcr t', 1), (.getmwl t', 2), (.getmrl t', 2),
          (.getstatus t', 2)] : List (Instr × Nat)) →
        Completes i s fun t => ∃ bytes, t.outs = .busRead t' bytes :: s.outs ∧ bytes.length = n)) ∧
    (∀ (t' : BusTarget), s.targetUp t' = false →
      ∀ i ∈ ([.getpid t', .getbcr t', .getdcr t', .getmwl t', .getmrl t', .getstatus t'] : List Instr),
        exec i s = .next s) ∧
    (s.targetUp .hub = true →
      (Completes .hubStatusCmd s fun t => t.sys.statusRead = true) ∧
      ∀ arg : BitVec 16, Completes (.hubVoteCmd arg) s fun t => ∀ d, 2 ≤ d → d ≤ 9 →
        (t.getF F.pwrDom_vote d).getLsbD 18 =
          if arg.getLsbD d then arg.getLsbD 15 else (s.getF F.pwrDom_vote d).getLsbD 18) ∧
    (s.targetUp .hub = false → exec .hubStatusCmd s = .next s ∧ ∀ arg, exec (.hubVoteCmd arg) s = .next s) ∧
    (s.sys.vsb = true →
      (Completes .jtagBypass s fun t => t.sys.jtag = .bypass ∧ t.outs = .capture 1 0 :: s.outs) ∧
      (Completes .idcode s fun t => t.sys.jtag = .idcode ∧ t.outs =
        .capture 32 (s.getN F.hubId_sirev_maj 0 * 2 ^ 28 + 0x2410 * 2 ^ 12 + 0x0E9 * 2 + 1) :: s.outs) ∧
      (∀ pins preload : BitVec 589, Completes (.samplePreload pins preload) s fun t => t.sys.jtag = .sample ∧
        t.sys.boundary = preload ∧ ∃ v, t.outs = .capture 589 v :: s.outs ∧
          ∀ c < 589, inputCell c = true → v.testBit c = pins.getLsbD c) ∧
      (∀ preload : BitVec 589, s.allUnbound = true → Completes (.extest preload) s fun t =>
        t.sys.jtag = .extest ∧ t.sys.boundary = preload) ∧
      (∀ preload : BitVec 589, ∀ i ∈ ([.extest preload, .clamp, .highz] : List Instr), s.allUnbound = false →
        Completes i s fun t => t.sys.jtag = .bypass ∧ t.sys.boundary = s.sys.boundary ∧ t.outs = .capture 1 0 :: s.outs) ∧
      (s.allUnbound = true → (Completes .clamp s fun t => t.sys.jtag = .clamp ∧ t.outs = .capture 1 0 :: s.outs) ∧
        Completes .highz s fun t => t.sys.jtag = .highz ∧ t.outs = .capture 1 0 :: s.outs) ∧
      (∀ b, Completes (.bndstream b) s fun t => t.sys.jtag = .bndstream ∧
        t.sys.inBuf = if s.jtagCtx = none then s.sys.inBuf else s.sys.inBuf ++ [b]) ∧
      (Completes .bndstat s fun t => t.sys.jtag = .bndstat ∧
        (s.jtagCtx = none → t.outs = .capture 64 0 :: s.outs) ∧
        ∀ x, s.jtagCtx = some x → t.outs = .capture 64 (s.reg .bndStat x).toNat :: s.outs)) ∧
    (s.sys.vsb = false → ∀ (pins preload : BitVec 589) (b : Byte),
      ∀ i ∈ ([.jtagBypass, .idcode, .samplePreload pins preload, .extest preload, .clamp, .highz, .bndstream b,
        .bndstat] : List Instr), exec i s = .next s)
end

