-- ==== Sys2Proof/Laws/Sparse.lean ====
section
/-!
SUPPORT. The laws of sparse tables: a read after a write, and that a write keeps the canonical form.
-/
namespace Sys2Proof.Machine

theorem lookupKey_insertKey {α : Type} (es : List (Nat × α)) (i j : Nat) (x : α) :
    lookupKey (insertKey es i x) j = if i = j then some x else lookupKey es j := by
  induction es with
  | nil => simp [insertKey, lookupKey]
  | cons e es ih =>
    obtain ⟨k, v⟩ := e
    simp only [insertKey]
    split
    · simp [lookupKey]
    · split
      · subst i; simp only [lookupKey]; split <;> simp_all
      · simp only [lookupKey, ih]
        split <;> split <;> simp_all

theorem lookupKey_eraseKey {α : Type} (es : List (Nat × α)) (i j : Nat) :
    lookupKey (eraseKey es i) j = if i = j then none else lookupKey es j := by
  induction es with
  | nil => simp [eraseKey, lookupKey]
  | cons e es ih =>
    obtain ⟨k, v⟩ := e
    simp only [eraseKey, List.filter_cons] at ih ⊢
    by_cases h : k = i
    · subst k; simp only [bne_self_eq_false, Bool.false_eq_true, if_false, ih, lookupKey]
      split <;> simp_all
    · have : (k != i) = true := by simpa using h
      simp only [this, if_true, lookupKey, ih]
      split <;> split <;> simp_all

/-- A read after a write. -/
theorem Sparse.get_set {α : Type} [DecidableEq α] (d : Nat → α) (m : Sparse α) (i j : Nat) (x : α) :
    (m.set d i x).get d j = if i = j then x else m.get d j := by
  simp only [Sparse.set, Sparse.get]
  split
  · rw [lookupKey_eraseKey]; split <;> simp_all
  · rw [lookupKey_insertKey]; split <;> simp_all

@[simp] theorem Sparse.get_set_self {α : Type} [DecidableEq α] (d : Nat → α) (m : Sparse α) (i : Nat) (x : α) :
    (m.set d i x).get d i = x := by simp [Sparse.get_set]

theorem Sparse.get_set_ne {α : Type} [DecidableEq α] (d : Nat → α) (m : Sparse α) {i j : Nat} (x : α) (h : i ≠ j) :
    (m.set d i x).get d j = m.get d j := by simp [Sparse.get_set, h]

theorem Sparse.at_put {α : Type} [Inhabited α] [DecidableEq α] (m : Sparse α) (i j : Nat) (x : α) :
    (m.put i x).at j = if i = j then x else m.at j := Sparse.get_set _ m i j x

@[simp] theorem Sparse.at_put_self {α : Type} [Inhabited α] [DecidableEq α] (m : Sparse α) (i : Nat) (x : α) :
    (m.put i x).at i = x := by simp [Sparse.at_put]

theorem Sparse.at_put_ne {α : Type} [Inhabited α] [DecidableEq α] (m : Sparse α) {i j : Nat} (x : α) (h : i ≠ j) :
    (m.put i x).at j = m.at j := by simp [Sparse.at_put, h]

theorem Sparse.at_upd {α : Type} [Inhabited α] [DecidableEq α] (m : Sparse α) (i j : Nat) (f : α → α) :
    (m.upd i f).at j = if i = j then f (m.at j) else m.at j := by
  simp only [Sparse.upd, Sparse.at_put]; split <;> simp_all

@[simp] theorem Sparse.at_upd_self {α : Type} [Inhabited α] [DecidableEq α] (m : Sparse α) (i : Nat) (f : α → α) :
    (m.upd i f).at i = f (m.at i) := by simp [Sparse.at_upd]

theorem canonicalFrom_mono {α : Type} [DecidableEq α] (d : Nat → α) {lo lo' : Nat} (h : lo' ≤ lo)
    (es : List (Nat × α)) (he : canonicalFrom d lo es = true) : canonicalFrom d lo' es = true := by
  cases es with
  | nil => rfl
  | cons e es =>
    simp only [canonicalFrom, Bool.and_eq_true, decide_eq_true_eq] at he ⊢
    exact ⟨⟨h.trans he.1.1, he.1.2⟩, he.2⟩

theorem canonicalFrom_insertKey {α : Type} [DecidableEq α] (d : Nat → α) (i : Nat) (x : α) (hx : x ≠ d i)
    (es : List (Nat × α)) : ∀ lo, lo ≤ i → canonicalFrom d lo es = true → canonicalFrom d lo (insertKey es i x) = true := by
  induction es with
  | nil => intro lo hl _; simp [insertKey, canonicalFrom, hl, hx]
  | cons e es ih =>
    obtain ⟨k, v⟩ := e
    intro lo hl he
    simp only [canonicalFrom, Bool.and_eq_true, decide_eq_true_eq] at he
    simp only [insertKey]
    split
    · next hk => simp [canonicalFrom, hl, hx, he.1.2, he.2]; omega
    · split
      · next hk => subst i; simp [canonicalFrom, hl, hx, he.2]
      · next h1 h2 =>
        simp only [canonicalFrom, Bool.and_eq_true, decide_eq_true_eq]
        exact ⟨he.1, ih (k + 1) (by omega) he.2⟩

theorem canonicalFrom_eraseKey {α : Type} [DecidableEq α] (d : Nat → α) (i : Nat)
    (es : List (Nat × α)) : ∀ lo, canonicalFrom d lo es = true → canonicalFrom d lo (eraseKey es i) = true := by
  induction es with
  | nil => intro lo _; rfl
  | cons e es ih =>
    obtain ⟨k, v⟩ := e
    intro lo he
    simp only [canonicalFrom, Bool.and_eq_true, decide_eq_true_eq] at he
    simp only [eraseKey, List.filter_cons]
    split
    · simp only [canonicalFrom, Bool.and_eq_true, decide_eq_true_eq]
      exact ⟨he.1, ih _ he.2⟩
    · exact canonicalFrom_mono d (by omega) _ (ih _ he.2)

/-- Entries dropped or given another value that is not the unlisted one. -/
theorem canonicalFrom_filterMap {α : Type} [DecidableEq α] (d : Nat → α) (f : Nat × α → Option (Nat × α))
    (hf : ∀ p q, p.2 ≠ d p.1 → f p = some q → q.1 = p.1 ∧ q.2 ≠ d q.1) :
    ∀ (lo : Nat) (es : List (Nat × α)), canonicalFrom d lo es = true → canonicalFrom d lo (es.filterMap f) = true
  | _, [], h => h
  | lo, (k, v) :: es, h => by
    simp only [canonicalFrom, Bool.and_eq_true, decide_eq_true_eq] at h
    have ih := canonicalFrom_filterMap d f hf (k + 1) es h.2
    rw [List.filterMap_cons]
    split
    · exact canonicalFrom_mono d (Nat.le_succ_of_le h.1.1) _ ih
    next q hq =>
      obtain ⟨h1, h2⟩ := hf (k, v) q h.1.2 hq
      obtain ⟨k', v'⟩ := q
      cases h1
      simp only [canonicalFrom, Bool.and_eq_true, decide_eq_true_eq]
      exact ⟨⟨h.1.1, h2⟩, ih⟩

theorem lookupKey_filter {α : Type} (p : Nat × α → Bool) (i : Nat) (hp : ∀ v, p (i, v) = true) :
    ∀ es : List (Nat × α), lookupKey (es.filter p) i = lookupKey es i
  | [] => rfl
  | (k, v) :: es => by
    have ih := lookupKey_filter p i hp es
    by_cases hk : k = i
    · subst hk; simp [hp, lookupKey]
    · by_cases h : p (k, v) = true <;> simp [h, lookupKey, hk, ih]

theorem canonicalFrom_filter {α : Type} [DecidableEq α] (d : Nat → α) (p : Nat × α → Bool) (lo : Nat)
    (es : List (Nat × α)) (h : canonicalFrom d lo es = true) : canonicalFrom d lo (es.filter p) = true := by
  rw [← List.filterMap_eq_filter]
  refine canonicalFrom_filterMap d _ (fun e q he hq => ?_) lo es h
  simp only [Option.guard] at hq
  split at hq <;> cases hq
  exact ⟨rfl, he⟩

/-- A write keeps the canonical form. -/
theorem Sparse.wf_set {α : Type} [DecidableEq α] (d : Nat → α) (m : Sparse α) (i : Nat) (x : α)
    (h : m.wf d = true) : (m.set d i x).wf d = true := by
  simp only [Sparse.set, Sparse.wf] at h ⊢
  split
  · exact canonicalFrom_eraseKey d i _ 0 h
  · next hx => exact canonicalFrom_insertKey d i x hx _ 0 (Nat.zero_le _) h

end Sys2Proof.Machine
end

