-- ==== Sys2Proof/Laws/Regs.lean ====
section
/-!
SUPPORT. The laws of the register file and of the fields of a register.
-/
namespace Sys2Proof.Machine

theorem RegId.ctorIdx_lt (r : RegId) : r.ctorIdx < 256 := by cases r <;> decide

theorem RegId.all_ctorIdx (r : RegId) : RegId.all[r.ctorIdx]? = some r := by cases r <;> rfl

theorem RegId.ctorIdx_inj {r q : RegId} (h : r.ctorIdx = q.ctorIdx) : r = q := by
  have hr := r.all_ctorIdx
  have hq := q.all_ctorIdx
  rw [h, hq] at hr; exact (Option.some.inj hr).symm

theorem regKey_inj {r q : RegId} {i j : Nat} : regKey r i = regKey q j ↔ r = q ∧ i = j := by
  constructor
  · intro h
    have hr := r.ctorIdx_lt
    have hq := q.ctorIdx_lt
    simp only [regKey] at h
    exact ⟨RegId.ctorIdx_inj (by omega), by omega⟩
  · rintro ⟨rfl, rfl⟩; rfl

/-- A register read after a register write. -/
theorem State.reg_setReg (s : State) (r q : RegId) (i j : Nat) (v : BitVec 64) :
    (s.setReg r i v).reg q j = if r = q ∧ i = j then v else s.reg q j := by
  simp [State.reg, State.setReg, Sparse.get_set, regKey_inj]

@[simp] theorem State.reg_setReg_self (s : State) (r : RegId) (i : Nat) (v : BitVec 64) :
    (s.setReg r i v).reg r i = v := by simp [State.reg_setReg]

theorem State.reg_setReg_ne (s : State) {r q : RegId} {i j : Nat} (v : BitVec 64) (h : r ≠ q ∨ i ≠ j) :
    (s.setReg r i v).reg q j = s.reg q j := by
  rw [State.reg_setReg]; split
  · next hh => rcases h with h | h <;> simp_all
  · rfl

/-! ### Fields -/

theorem getLsbD_putBits {n w lo : Nat} (x : BitVec n) (v : BitVec w) (i : Nat) :
    (putBits x lo w v).getLsbD i =
      (decide (i < n) && if lo ≤ i ∧ i < lo + w then v.getLsbD (i - lo) else x.getLsbD i) := by
  simp only [putBits, BitVec.getLsbD_or, BitVec.getLsbD_and, BitVec.getLsbD_not, BitVec.getLsbD_ofNat,
    BitVec.getLsbD_shiftLeft, BitVec.getLsbD_setWidth, Nat.testBit_mul_two_pow, Nat.testBit_two_pow_sub_one]
  by_cases h : i < n
  · by_cases h1 : lo ≤ i
    · by_cases h2 : i < lo + w
      · have : i - lo < w := by omega
        have : i - lo < n := by omega
        simp [*]
      · have h3 : ¬ i - lo < w := by omega
        have h4 : v.getLsbD (i - lo) = false := BitVec.getLsbD_of_ge _ _ (by omega)
        simp [h, h1, h2, h3, h4]
    · simp [*]
  · simp [h]

/-- A field read after the field is written. -/
@[simp] theorem extract_putBits {n w lo : Nat} (x : BitVec n) (v : BitVec w) (h : lo + w ≤ n) :
    (putBits x lo w v).extractLsb' lo w = v := by
  ext i hi
  have h1 : lo + i < n := by omega
  have h2 : lo + i < lo + w := by omega
  have h3 := getLsbD_putBits (lo := lo) x v (lo + i)
  simp only [h1, h2, decide_true, Bool.true_and, Nat.le_add_right, and_self, if_true, Nat.add_sub_cancel_left] at h3
  rw [BitVec.getElem_extractLsb', h3, BitVec.getLsbD_eq_getElem]

/-- Another field of the register is kept. -/
theorem extract_putBits_ne {n w lo w' lo' : Nat} (x : BitVec n) (v : BitVec w) (h : lo + w ≤ lo' ∨ lo' + w' ≤ lo) :
    (putBits x lo w v).extractLsb' lo' w' = x.extractLsb' lo' w' := by
  ext i hi
  have h3 := getLsbD_putBits (lo := lo) x v (lo' + i)
  have h4 : ¬ (lo ≤ lo' + i ∧ lo' + i < lo + w) := by omega
  simp only [h4, if_false] at h3
  by_cases h5 : lo' + i < n
  · simp_all
  · simp_all [BitVec.getLsbD_of_ge]

/-- A field that lies in a register. -/
def Field.fits {w : Nat} (f : Field w) : Bool := decide (f.lo + w ≤ 64)

@[simp] theorem State.getF_putF_self {w : Nat} (s : State) (f : Field w) (i : Nat) (v : BitVec w)
    (h : f.lo + w ≤ 64 := by decide) : (s.putF f i v).getF f i = v := by
  simp [State.getF, State.putF, extract_putBits _ _ h]

/-- Two fields that no write confuses: of different registers, or of one register and apart. -/
def Field.apart {w w' : Nat} (f : Field w) (g : Field w') : Bool :=
  decide (f.reg ≠ g.reg) || decide (f.lo + w ≤ g.lo) || decide (g.lo + w' ≤ f.lo)

theorem State.getF_putF_apart {w w' : Nat} (s : State) (f : Field w) (g : Field w') (i j : Nat) (v : BitVec w)
    (h : f.apart g = true) : (s.putF f i v).getF g j = s.getF g j := by
  simp only [State.getF, State.putF, State.reg_setReg]
  split
  · next hh =>
    obtain ⟨h1, rfl⟩ := hh
    simp only [Field.apart, h1, ne_eq, not_true_eq_false, decide_false, Bool.false_or, Bool.or_eq_true,
      decide_eq_true_eq] at h
    rw [extract_putBits_ne _ _ h, h1]
  · rfl

theorem State.getF_putF_index {w w' : Nat} (s : State) (f : Field w) (g : Field w') {i j : Nat} (v : BitVec w)
    (h : i ≠ j) : (s.putF f i v).getF g j = s.getF g j := by
  simp [State.getF, State.putF, State.reg_setReg, h]

theorem State.getN_putN_self {w : Nat} (s : State) (f : Field w) (i v : Nat) (h : f.lo + w ≤ 64) :
    (s.putN f i v).getN f i = v % 2 ^ w := by
  simp [State.getN, State.putN, State.getF_putF_self s f i _ h]

theorem State.getN_putN_apart {w w' : Nat} (s : State) (f : Field w) (g : Field w') (i j v : Nat)
    (h : f.apart g = true) : (s.putN f i v).getN g j = s.getN g j := by
  simp [State.getN, State.putN, State.getF_putF_apart s f g i j _ h]

theorem State.getN_putN_index {w w' : Nat} (s : State) (f : Field w) (g : Field w') {i j : Nat} (v : Nat)
    (h : i ≠ j) : (s.putN f i v).getN g j = s.getN g j := by
  simp [State.getN, State.putN, State.getF_putF_index s f g _ h]

theorem State.bitF_setF_self (s : State) (f : Field 1) (i : Nat) (h : f.lo + 1 ≤ 64) : (s.setF f i).bitF f i = true := by
  simp [State.bitF, State.setF, State.getF_putF_self s f i _ h]

theorem State.bitF_clrF_self (s : State) (f : Field 1) (i : Nat) (h : f.lo + 1 ≤ 64) : (s.clrF f i).bitF f i = false := by
  simp [State.bitF, State.clrF, State.getF_putF_self s f i _ h]

theorem State.getN_lt {w : Nat} (s : State) (f : Field w) (i : Nat) : s.getN f i < 2 ^ w := (s.getF f i).isLt

end Sys2Proof.Machine
end

