-- ==== Sys2Proof/Laws/State.lean ====
section
/-!
SUPPORT. Each named update of the state, field by field: what it leaves as it was and what it writes.
-/
namespace Sys2Proof.Machine

/-- A core's status register follows its levels; everything else stays. -/
theorem State.setCore_eq (s : State) (c : Nat) (x : AwlCore) :
    ∃ v, s.setCore c x = { s with awl := s.awl.put c x }.setReg .awlStat c v := ⟨_, rfl⟩

/-! ### setReg -/

@[simp] theorem State.setReg_pending (s : State) (r : RegId) (i : Nat) (v : BitVec 64) : (s.setReg r i v).pending = s.pending := rfl
@[simp] theorem State.setReg_free (s : State) (r : RegId) (i : Nat) (v : BitVec 64) : (s.setReg r i v).free = s.free := rfl
@[simp] theorem State.setReg_outs (s : State) (r : RegId) (i : Nat) (v : BitVec 64) : (s.setReg r i v).outs = s.outs := rfl
@[simp] theorem State.setReg_log (s : State) (r : RegId) (i : Nat) (v : BitVec 64) : (s.setReg r i v).log = s.log := rfl
@[simp] theorem State.setReg_logSince (s : State) (r : RegId) (i : Nat) (v : BitVec 64) : (s.setReg r i v).logSince = s.logSince := rfl
@[simp] theorem State.setReg_arr (s : State) (r : RegId) (i : Nat) (v : BitVec 64) : (s.setReg r i v).arr = s.arr := rfl
@[simp] theorem State.setReg_fst (s : State) (r : RegId) (i : Nat) (v : BitVec 64) : (s.setReg r i v).fst = s.fst := rfl
@[simp] theorem State.setReg_col (s : State) (r : RegId) (i : Nat) (v : BitVec 64) : (s.setReg r i v).col = s.col := rfl
@[simp] theorem State.setReg_awl (s : State) (r : RegId) (i : Nat) (v : BitVec 64) : (s.setReg r i v).awl = s.awl := rfl
@[simp] theorem State.setReg_ring (s : State) (r : RegId) (i : Nat) (v : BitVec 64) : (s.setReg r i v).ring = s.ring := rfl
@[simp] theorem State.setReg_sys (s : State) (r : RegId) (i : Nat) (v : BitVec 64) : (s.setReg r i v).sys = s.sys := rfl
@[simp] theorem State.setReg_dram (s : State) (r : RegId) (i : Nat) (v : BitVec 64) : (s.setReg r i v).dram = s.dram := rfl
@[simp] theorem State.setReg_migrating (s : State) (r : RegId) (i : Nat) (v : BitVec 64) : (s.setReg r i v).migrating = s.migrating := rfl
@[simp] theorem State.setReg_migLine (s : State) (r : RegId) (i : Nat) (v : BitVec 64) : (s.setReg r i v).migLine = s.migLine := rfl
@[simp] theorem State.setReg_retrainNext (s : State) (r : RegId) (i : Nat) (v : BitVec 64) : (s.setReg r i v).retrainNext = s.retrainNext := rfl

/-! ### putF -/

@[simp] theorem State.putF_pending (s : State) {w : Nat} (f : Field w) (i : Nat) (v : BitVec w) : (s.putF f i v).pending = s.pending := rfl
@[simp] theorem State.putF_free (s : State) {w : Nat} (f : Field w) (i : Nat) (v : BitVec w) : (s.putF f i v).free = s.free := rfl
@[simp] theorem State.putF_outs (s : State) {w : Nat} (f : Field w) (i : Nat) (v : BitVec w) : (s.putF f i v).outs = s.outs := rfl
@[simp] theorem State.putF_log (s : State) {w : Nat} (f : Field w) (i : Nat) (v : BitVec w) : (s.putF f i v).log = s.log := rfl
@[simp] theorem State.putF_logSince (s : State) {w : Nat} (f : Field w) (i : Nat) (v : BitVec w) : (s.putF f i v).logSince = s.logSince := rfl
@[simp] theorem State.putF_arr (s : State) {w : Nat} (f : Field w) (i : Nat) (v : BitVec w) : (s.putF f i v).arr = s.arr := rfl
@[simp] theorem State.putF_fst (s : State) {w : Nat} (f : Field w) (i : Nat) (v : BitVec w) : (s.putF f i v).fst = s.fst := rfl
@[simp] theorem State.putF_col (s : State) {w : Nat} (f : Field w) (i : Nat) (v : BitVec w) : (s.putF f i v).col = s.col := rfl
@[simp] theorem State.putF_awl (s : State) {w : Nat} (f : Field w) (i : Nat) (v : BitVec w) : (s.putF f i v).awl = s.awl := rfl
@[simp] theorem State.putF_ring (s : State) {w : Nat} (f : Field w) (i : Nat) (v : BitVec w) : (s.putF f i v).ring = s.ring := rfl
@[simp] theorem State.putF_sys (s : State) {w : Nat} (f : Field w) (i : Nat) (v : BitVec w) : (s.putF f i v).sys = s.sys := rfl
@[simp] theorem State.putF_dram (s : State) {w : Nat} (f : Field w) (i : Nat) (v : BitVec w) : (s.putF f i v).dram = s.dram := rfl
@[simp] theorem State.putF_migrating (s : State) {w : Nat} (f : Field w) (i : Nat) (v : BitVec w) : (s.putF f i v).migrating = s.migrating := rfl
@[simp] theorem State.putF_migLine (s : State) {w : Nat} (f : Field w) (i : Nat) (v : BitVec w) : (s.putF f i v).migLine = s.migLine := rfl
@[simp] theorem State.putF_retrainNext (s : State) {w : Nat} (f : Field w) (i : Nat) (v : BitVec w) : (s.putF f i v).retrainNext = s.retrainNext := rfl

/-! ### putN -/

@[simp] theorem State.putN_pending (s : State) {w : Nat} (f : Field w) (i v : Nat) : (s.putN f i v).pending = s.pending := rfl
@[simp] theorem State.putN_free (s : State) {w : Nat} (f : Field w) (i v : Nat) : (s.putN f i v).free = s.free := rfl
@[simp] theorem State.putN_outs (s : State) {w : Nat} (f : Field w) (i v : Nat) : (s.putN f i v).outs = s.outs := rfl
@[simp] theorem State.putN_log (s : State) {w : Nat} (f : Field w) (i v : Nat) : (s.putN f i v).log = s.log := rfl
@[simp] theorem State.putN_logSince (s : State) {w : Nat} (f : Field w) (i v : Nat) : (s.putN f i v).logSince = s.logSince := rfl
@[simp] theorem State.putN_arr (s : State) {w : Nat} (f : Field w) (i v : Nat) : (s.putN f i v).arr = s.arr := rfl
@[simp] theorem State.putN_fst (s : State) {w : Nat} (f : Field w) (i v : Nat) : (s.putN f i v).fst = s.fst := rfl
@[simp] theorem State.putN_col (s : State) {w : Nat} (f : Field w) (i v : Nat) : (s.putN f i v).col = s.col := rfl
@[simp] theorem State.putN_awl (s : State) {w : Nat} (f : Field w) (i v : Nat) : (s.putN f i v).awl = s.awl := rfl
@[simp] theorem State.putN_ring (s : State) {w : Nat} (f : Field w) (i v : Nat) : (s.putN f i v).ring = s.ring := rfl
@[simp] theorem State.putN_sys (s : State) {w : Nat} (f : Field w) (i v : Nat) : (s.putN f i v).sys = s.sys := rfl
@[simp] theorem State.putN_dram (s : State) {w : Nat} (f : Field w) (i v : Nat) : (s.putN f i v).dram = s.dram := rfl
@[simp] theorem State.putN_migrating (s : State) {w : Nat} (f : Field w) (i v : Nat) : (s.putN f i v).migrating = s.migrating := rfl
@[simp] theorem State.putN_migLine (s : State) {w : Nat} (f : Field w) (i v : Nat) : (s.putN f i v).migLine = s.migLine := rfl
@[simp] theorem State.putN_retrainNext (s : State) {w : Nat} (f : Field w) (i v : Nat) : (s.putN f i v).retrainNext = s.retrainNext := rfl

/-! ### setF -/

@[simp] theorem State.setF_pending (s : State) (f : Field 1) (i : Nat) : (s.setF f i).pending = s.pending := rfl
@[simp] theorem State.setF_free (s : State) (f : Field 1) (i : Nat) : (s.setF f i).free = s.free := rfl
@[simp] theorem State.setF_outs (s : State) (f : Field 1) (i : Nat) : (s.setF f i).outs = s.outs := rfl
@[simp] theorem State.setF_log (s : State) (f : Field 1) (i : Nat) : (s.setF f i).log = s.log := rfl
@[simp] theorem State.setF_logSince (s : State) (f : Field 1) (i : Nat) : (s.setF f i).logSince = s.logSince := rfl
@[simp] theorem State.setF_arr (s : State) (f : Field 1) (i : Nat) : (s.setF f i).arr = s.arr := rfl
@[simp] theorem State.setF_fst (s : State) (f : Field 1) (i : Nat) : (s.setF f i).fst = s.fst := rfl
@[simp] theorem State.setF_col (s : State) (f : Field 1) (i : Nat) : (s.setF f i).col = s.col := rfl
@[simp] theorem State.setF_awl (s : State) (f : Field 1) (i : Nat) : (s.setF f i).awl = s.awl := rfl
@[simp] theorem State.setF_ring (s : State) (f : Field 1) (i : Nat) : (s.setF f i).ring = s.ring := rfl
@[simp] theorem State.setF_sys (s : State) (f : Field 1) (i : Nat) : (s.setF f i).sys = s.sys := rfl
@[simp] theorem State.setF_dram (s : State) (f : Field 1) (i : Nat) : (s.setF f i).dram = s.dram := rfl
@[simp] theorem State.setF_migrating (s : State) (f : Field 1) (i : Nat) : (s.setF f i).migrating = s.migrating := rfl
@[simp] theorem State.setF_migLine (s : State) (f : Field 1) (i : Nat) : (s.setF f i).migLine = s.migLine := rfl
@[simp] theorem State.setF_retrainNext (s : State) (f : Field 1) (i : Nat) : (s.setF f i).retrainNext = s.retrainNext := rfl

/-! ### clrF -/

@[simp] theorem State.clrF_pending (s : State) (f : Field 1) (i : Nat) : (s.clrF f i).pending = s.pending := rfl
@[simp] theorem State.clrF_free (s : State) (f : Field 1) (i : Nat) : (s.clrF f i).free = s.free := rfl
@[simp] theorem State.clrF_outs (s : State) (f : Field 1) (i : Nat) : (s.clrF f i).outs = s.outs := rfl
@[simp] theorem State.clrF_log (s : State) (f : Field 1) (i : Nat) : (s.clrF f i).log = s.log := rfl
@[simp] theorem State.clrF_logSince (s : State) (f : Field 1) (i : Nat) : (s.clrF f i).logSince = s.logSince := rfl
@[simp] theorem State.clrF_arr (s : State) (f : Field 1) (i : Nat) : (s.clrF f i).arr = s.arr := rfl
@[simp] theorem State.clrF_fst (s : State) (f : Field 1) (i : Nat) : (s.clrF f i).fst = s.fst := rfl
@[simp] theorem State.clrF_col (s : State) (f : Field 1) (i : Nat) : (s.clrF f i).col = s.col := rfl
@[simp] theorem State.clrF_awl (s : State) (f : Field 1) (i : Nat) : (s.clrF f i).awl = s.awl := rfl
@[simp] theorem State.clrF_ring (s : State) (f : Field 1) (i : Nat) : (s.clrF f i).ring = s.ring := rfl
@[simp] theorem State.clrF_sys (s : State) (f : Field 1) (i : Nat) : (s.clrF f i).sys = s.sys := rfl
@[simp] theorem State.clrF_dram (s : State) (f : Field 1) (i : Nat) : (s.clrF f i).dram = s.dram := rfl
@[simp] theorem State.clrF_migrating (s : State) (f : Field 1) (i : Nat) : (s.clrF f i).migrating = s.migrating := rfl
@[simp] theorem State.clrF_migLine (s : State) (f : Field 1) (i : Nat) : (s.clrF f i).migLine = s.migLine := rfl
@[simp] theorem State.clrF_retrainNext (s : State) (f : Field 1) (i : Nat) : (s.clrF f i).retrainNext = s.retrainNext := rfl

/-! ### addF -/

@[simp] theorem State.addF_pending (s : State) {w : Nat} (f : Field w) (i n : Nat) : (s.addF f i n).pending = s.pending := rfl
@[simp] theorem State.addF_free (s : State) {w : Nat} (f : Field w) (i n : Nat) : (s.addF f i n).free = s.free := rfl
@[simp] theorem State.addF_outs (s : State) {w : Nat} (f : Field w) (i n : Nat) : (s.addF f i n).outs = s.outs := rfl
@[simp] theorem State.addF_log (s : State) {w : Nat} (f : Field w) (i n : Nat) : (s.addF f i n).log = s.log := rfl
@[simp] theorem State.addF_logSince (s : State) {w : Nat} (f : Field w) (i n : Nat) : (s.addF f i n).logSince = s.logSince := rfl
@[simp] theorem State.addF_arr (s : State) {w : Nat} (f : Field w) (i n : Nat) : (s.addF f i n).arr = s.arr := rfl
@[simp] theorem State.addF_fst (s : State) {w : Nat} (f : Field w) (i n : Nat) : (s.addF f i n).fst = s.fst := rfl
@[simp] theorem State.addF_col (s : State) {w : Nat} (f : Field w) (i n : Nat) : (s.addF f i n).col = s.col := rfl
@[simp] theorem State.addF_awl (s : State) {w : Nat} (f : Field w) (i n : Nat) : (s.addF f i n).awl = s.awl := rfl
@[simp] theorem State.addF_ring (s : State) {w : Nat} (f : Field w) (i n : Nat) : (s.addF f i n).ring = s.ring := rfl
@[simp] theorem State.addF_sys (s : State) {w : Nat} (f : Field w) (i n : Nat) : (s.addF f i n).sys = s.sys := rfl
@[simp] theorem State.addF_dram (s : State) {w : Nat} (f : Field w) (i n : Nat) : (s.addF f i n).dram = s.dram := rfl
@[simp] theorem State.addF_migrating (s : State) {w : Nat} (f : Field w) (i n : Nat) : (s.addF f i n).migrating = s.migrating := rfl
@[simp] theorem State.addF_migLine (s : State) {w : Nat} (f : Field w) (i n : Nat) : (s.addF f i n).migLine = s.migLine := rfl
@[simp] theorem State.addF_retrainNext (s : State) {w : Nat} (f : Field w) (i n : Nat) : (s.addF f i n).retrainNext = s.retrainNext := rfl

/-! ### clearW1c -/

@[simp] theorem State.clearW1c_pending (s : State) (r : RegId) (i : Nat) (v : BitVec 64) : (s.clearW1c r i v).pending = s.pending := rfl
@[simp] theorem State.clearW1c_free (s : State) (r : RegId) (i : Nat) (v : BitVec 64) : (s.clearW1c r i v).free = s.free := rfl
@[simp] theorem State.clearW1c_outs (s : State) (r : RegId) (i : Nat) (v : BitVec 64) : (s.clearW1c r i v).outs = s.outs := rfl
@[simp] theorem State.clearW1c_log (s : State) (r : RegId) (i : Nat) (v : BitVec 64) : (s.clearW1c r i v).log = s.log := rfl
@[simp] theorem State.clearW1c_logSince (s : State) (r : RegId) (i : Nat) (v : BitVec 64) : (s.clearW1c r i v).logSince = s.logSince := rfl
@[simp] theorem State.clearW1c_arr (s : State) (r : RegId) (i : Nat) (v : BitVec 64) : (s.clearW1c r i v).arr = s.arr := rfl
@[simp] theorem State.clearW1c_fst (s : State) (r : RegId) (i : Nat) (v : BitVec 64) : (s.clearW1c r i v).fst = s.fst := rfl
@[simp] theorem State.clearW1c_col (s : State) (r : RegId) (i : Nat) (v : BitVec 64) : (s.clearW1c r i v).col = s.col := rfl
@[simp] theorem State.clearW1c_awl (s : State) (r : RegId) (i : Nat) (v : BitVec 64) : (s.clearW1c r i v).awl = s.awl := rfl
@[simp] theorem State.clearW1c_ring (s : State) (r : RegId) (i : Nat) (v : BitVec 64) : (s.clearW1c r i v).ring = s.ring := rfl
@[simp] theorem State.clearW1c_sys (s : State) (r : RegId) (i : Nat) (v : BitVec 64) : (s.clearW1c r i v).sys = s.sys := rfl
@[simp] theorem State.clearW1c_dram (s : State) (r : RegId) (i : Nat) (v : BitVec 64) : (s.clearW1c r i v).dram = s.dram := rfl
@[simp] theorem State.clearW1c_migrating (s : State) (r : RegId) (i : Nat) (v : BitVec 64) : (s.clearW1c r i v).migrating = s.migrating := rfl
@[simp] theorem State.clearW1c_migLine (s : State) (r : RegId) (i : Nat) (v : BitVec 64) : (s.clearW1c r i v).migLine = s.migLine := rfl
@[simp] theorem State.clearW1c_retrainNext (s : State) (r : RegId) (i : Nat) (v : BitVec 64) : (s.clearW1c r i v).retrainNext = s.retrainNext := rfl

/-! ### storeRw -/

@[simp] theorem State.storeRw_pending (s : State) (r : RegId) (i : Nat) (v : BitVec 64) : (s.storeRw r i v).pending = s.pending := rfl
@[simp] theorem State.storeRw_free (s : State) (r : RegId) (i : Nat) (v : BitVec 64) : (s.storeRw r i v).free = s.free := rfl
@[simp] theorem State.storeRw_outs (s : State) (r : RegId) (i : Nat) (v : BitVec 64) : (s.storeRw r i v).outs = s.outs := rfl
@[simp] theorem State.storeRw_log (s : State) (r : RegId) (i : Nat) (v : BitVec 64) : (s.storeRw r i v).log = s.log := rfl
@[simp] theorem State.storeRw_logSince (s : State) (r : RegId) (i : Nat) (v : BitVec 64) : (s.storeRw r i v).logSince = s.logSince := rfl
@[simp] theorem State.storeRw_arr (s : State) (r : RegId) (i : Nat) (v : BitVec 64) : (s.storeRw r i v).arr = s.arr := rfl
@[simp] theorem State.storeRw_fst (s : State) (r : RegId) (i : Nat) (v : BitVec 64) : (s.storeRw r i v).fst = s.fst := rfl
@[simp] theorem State.storeRw_col (s : State) (r : RegId) (i : Nat) (v : BitVec 64) : (s.storeRw r i v).col = s.col := rfl
@[simp] theorem State.storeRw_awl (s : State) (r : RegId) (i : Nat) (v : BitVec 64) : (s.storeRw r i v).awl = s.awl := rfl
@[simp] theorem State.storeRw_ring (s : State) (r : RegId) (i : Nat) (v : BitVec 64) : (s.storeRw r i v).ring = s.ring := rfl
@[simp] theorem State.storeRw_sys (s : State) (r : RegId) (i : Nat) (v : BitVec 64) : (s.storeRw r i v).sys = s.sys := rfl
@[simp] theorem State.storeRw_dram (s : State) (r : RegId) (i : Nat) (v : BitVec 64) : (s.storeRw r i v).dram = s.dram := rfl
@[simp] theorem State.storeRw_migrating (s : State) (r : RegId) (i : Nat) (v : BitVec 64) : (s.storeRw r i v).migrating = s.migrating := rfl
@[simp] theorem State.storeRw_migLine (s : State) (r : RegId) (i : Nat) (v : BitVec 64) : (s.storeRw r i v).migLine = s.migLine := rfl
@[simp] theorem State.storeRw_retrainNext (s : State) (r : RegId) (i : Nat) (v : BitVec 64) : (s.storeRw r i v).retrainNext = s.retrainNext := rfl

/-! ### draw -/

@[simp] theorem State.draw_pending (s : State) (w : Nat) : (s.draw w).2.pending = s.pending := rfl
@[simp] theorem State.draw_free (s : State) (w : Nat) : (s.draw w).2.free = s.free + 1 := rfl
@[simp] theorem State.draw_outs (s : State) (w : Nat) : (s.draw w).2.outs = s.outs := rfl
@[simp] theorem State.draw_regs (s : State) (w : Nat) : (s.draw w).2.regs = s.regs := rfl
@[simp] theorem State.draw_log (s : State) (w : Nat) : (s.draw w).2.log = s.log := rfl
@[simp] theorem State.draw_logSince (s : State) (w : Nat) : (s.draw w).2.logSince = s.logSince := rfl
@[simp] theorem State.draw_arr (s : State) (w : Nat) : (s.draw w).2.arr = s.arr := rfl
@[simp] theorem State.draw_fst (s : State) (w : Nat) : (s.draw w).2.fst = s.fst := rfl
@[simp] theorem State.draw_col (s : State) (w : Nat) : (s.draw w).2.col = s.col := rfl
@[simp] theorem State.draw_awl (s : State) (w : Nat) : (s.draw w).2.awl = s.awl := rfl
@[simp] theorem State.draw_ring (s : State) (w : Nat) : (s.draw w).2.ring = s.ring := rfl
@[simp] theorem State.draw_sys (s : State) (w : Nat) : (s.draw w).2.sys = s.sys := rfl
@[simp] theorem State.draw_dram (s : State) (w : Nat) : (s.draw w).2.dram = s.dram := rfl
@[simp] theorem State.draw_migrating (s : State) (w : Nat) : (s.draw w).2.migrating = s.migrating := rfl
@[simp] theorem State.draw_migLine (s : State) (w : Nat) : (s.draw w).2.migLine = s.migLine := rfl
@[simp] theorem State.draw_retrainNext (s : State) (w : Nat) : (s.draw w).2.retrainNext = s.retrainNext := rfl
@[simp] theorem State.draw_reg (s : State) (w : Nat) (r' : RegId) (j : Nat) : (s.draw w).2.reg r' j = s.reg r' j := rfl
@[simp] theorem State.draw_getF (s : State) (w : Nat) {w' : Nat} (g' : Field w') (j : Nat) : (s.draw w).2.getF g' j = s.getF g' j := rfl
@[simp] theorem State.draw_getN (s : State) (w : Nat) {w' : Nat} (g' : Field w') (j : Nat) : (s.draw w).2.getN g' j = s.getN g' j := rfl
@[simp] theorem State.draw_bitF (s : State) (w : Nat) (g' : Field 1) (j : Nat) : (s.draw w).2.bitF g' j = s.bitF g' j := rfl

/-! ### emit -/

@[simp] theorem State.emit_pending (s : State) (o : Out) : (s.emit o).pending = s.pending := rfl
@[simp] theorem State.emit_free (s : State) (o : Out) : (s.emit o).free = s.free := rfl
@[simp] theorem State.emit_outs (s : State) (o : Out) : (s.emit o).outs = o :: s.outs := rfl
@[simp] theorem State.emit_regs (s : State) (o : Out) : (s.emit o).regs = s.regs := rfl
@[simp] theorem State.emit_log (s : State) (o : Out) : (s.emit o).log = s.log := rfl
@[simp] theorem State.emit_logSince (s : State) (o : Out) : (s.emit o).logSince = s.logSince := rfl
@[simp] theorem State.emit_arr (s : State) (o : Out) : (s.emit o).arr = s.arr := rfl
@[simp] theorem State.emit_fst (s : State) (o : Out) : (s.emit o).fst = s.fst := rfl
@[simp] theorem State.emit_col (s : State) (o : Out) : (s.emit o).col = s.col := rfl
@[simp] theorem State.emit_awl (s : State) (o : Out) : (s.emit o).awl = s.awl := rfl
@[simp] theorem State.emit_ring (s : State) (o : Out) : (s.emit o).ring = s.ring := rfl
@[simp] theorem State.emit_sys (s : State) (o : Out) : (s.emit o).sys = s.sys := rfl
@[simp] theorem State.emit_dram (s : State) (o : Out) : (s.emit o).dram = s.dram := rfl
@[simp] theorem State.emit_migrating (s : State) (o : Out) : (s.emit o).migrating = s.migrating := rfl
@[simp] theorem State.emit_migLine (s : State) (o : Out) : (s.emit o).migLine = s.migLine := rfl
@[simp] theorem State.emit_retrainNext (s : State) (o : Out) : (s.emit o).retrainNext = s.retrainNext := rfl
@[simp] theorem State.emit_reg (s : State) (o : Out) (r' : RegId) (j : Nat) : (s.emit o).reg r' j = s.reg r' j := rfl
@[simp] theorem State.emit_getF (s : State) (o : Out) {w' : Nat} (g' : Field w') (j : Nat) : (s.emit o).getF g' j = s.getF g' j := rfl
@[simp] theorem State.emit_getN (s : State) (o : Out) {w' : Nat} (g' : Field w') (j : Nat) : (s.emit o).getN g' j = s.getN g' j := rfl
@[simp] theorem State.emit_bitF (s : State) (o : Out) (g' : Field 1) (j : Nat) : (s.emit o).bitF g' j = s.bitF g' j := rfl

/-! ### onSys -/

@[simp] theorem State.onSys_pending (s : State) (f : SysState → SysState) : (s.onSys f).pending = s.pending := rfl
@[simp] theorem State.onSys_free (s : State) (f : SysState → SysState) : (s.onSys f).free = s.free := rfl
@[simp] theorem State.onSys_outs (s : State) (f : SysState → SysState) : (s.onSys f).outs = s.outs := rfl
@[simp] theorem State.onSys_regs (s : State) (f : SysState → SysState) : (s.onSys f).regs = s.regs := rfl
@[simp] theorem State.onSys_log (s : State) (f : SysState → SysState) : (s.onSys f).log = s.log := rfl
@[simp] theorem State.onSys_logSince (s : State) (f : SysState → SysState) : (s.onSys f).logSince = s.logSince := rfl
@[simp] theorem State.onSys_arr (s : State) (f : SysState → SysState) : (s.onSys f).arr = s.arr := rfl
@[simp] theorem State.onSys_fst (s : State) (f : SysState → SysState) : (s.onSys f).fst = s.fst := rfl
@[simp] theorem State.onSys_col (s : State) (f : SysState → SysState) : (s.onSys f).col = s.col := rfl
@[simp] theorem State.onSys_awl (s : State) (f : SysState → SysState) : (s.onSys f).awl = s.awl := rfl
@[simp] theorem State.onSys_ring (s : State) (f : SysState → SysState) : (s.onSys f).ring = s.ring := rfl
@[simp] theorem State.onSys_sys (s : State) (f : SysState → SysState) : (s.onSys f).sys = f s.sys := rfl
@[simp] theorem State.onSys_dram (s : State) (f : SysState → SysState) : (s.onSys f).dram = s.dram := rfl
@[simp] theorem State.onSys_migrating (s : State) (f : SysState → SysState) : (s.onSys f).migrating = s.migrating := rfl
@[simp] theorem State.onSys_migLine (s : State) (f : SysState → SysState) : (s.onSys f).migLine = s.migLine := rfl
@[simp] theorem State.onSys_retrainNext (s : State) (f : SysState → SysState) : (s.onSys f).retrainNext = s.retrainNext := rfl
@[simp] theorem State.onSys_reg (s : State) (f : SysState → SysState) (r' : RegId) (j : Nat) : (s.onSys f).reg r' j = s.reg r' j := rfl
@[simp] theorem State.onSys_getF (s : State) (f : SysState → SysState) {w' : Nat} (g' : Field w') (j : Nat) : (s.onSys f).getF g' j = s.getF g' j := rfl
@[simp] theorem State.onSys_getN (s : State) (f : SysState → SysState) {w' : Nat} (g' : Field w') (j : Nat) : (s.onSys f).getN g' j = s.getN g' j := rfl
@[simp] theorem State.onSys_bitF (s : State) (f : SysState → SysState) (g' : Field 1) (j : Nat) : (s.onSys f).bitF g' j = s.bitF g' j := rfl

/-! ### onArr -/

@[simp] theorem State.onArr_pending (s : State) (f : ArrayState → ArrayState) : (s.onArr f).pending = s.pending := rfl
@[simp] theorem State.onArr_free (s : State) (f : ArrayState → ArrayState) : (s.onArr f).free = s.free := rfl
@[simp] theorem State.onArr_outs (s : State) (f : ArrayState → ArrayState) : (s.onArr f).outs = s.outs := rfl
@[simp] theorem State.onArr_regs (s : State) (f : ArrayState → ArrayState) : (s.onArr f).regs = s.regs := rfl
@[simp] theorem State.onArr_log (s : State) (f : ArrayState → ArrayState) : (s.onArr f).log = s.log := rfl
@[simp] theorem State.onArr_logSince (s : State) (f : ArrayState → ArrayState) : (s.onArr f).logSince = s.logSince := rfl
@[simp] theorem State.onArr_arr (s : State) (f : ArrayState → ArrayState) : (s.onArr f).arr = f s.arr := rfl
@[simp] theorem State.onArr_fst (s : State) (f : ArrayState → ArrayState) : (s.onArr f).fst = s.fst := rfl
@[simp] theorem State.onArr_col (s : State) (f : ArrayState → ArrayState) : (s.onArr f).col = s.col := rfl
@[simp] theorem State.onArr_awl (s : State) (f : ArrayState → ArrayState) : (s.onArr f).awl = s.awl := rfl
@[simp] theorem State.onArr_ring (s : State) (f : ArrayState → ArrayState) : (s.onArr f).ring = s.ring := rfl
@[simp] theorem State.onArr_sys (s : State) (f : ArrayState → ArrayState) : (s.onArr f).sys = s.sys := rfl
@[simp] theorem State.onArr_dram (s : State) (f : ArrayState → ArrayState) : (s.onArr f).dram = s.dram := rfl
@[simp] theorem State.onArr_migrating (s : State) (f : ArrayState → ArrayState) : (s.onArr f).migrating = s.migrating := rfl
@[simp] theorem State.onArr_migLine (s : State) (f : ArrayState → ArrayState) : (s.onArr f).migLine = s.migLine := rfl
@[simp] theorem State.onArr_retrainNext (s : State) (f : ArrayState → ArrayState) : (s.onArr f).retrainNext = s.retrainNext := rfl
@[simp] theorem State.onArr_reg (s : State) (f : ArrayState → ArrayState) (r' : RegId) (j : Nat) : (s.onArr f).reg r' j = s.reg r' j := rfl
@[simp] theorem State.onArr_getF (s : State) (f : ArrayState → ArrayState) {w' : Nat} (g' : Field w') (j : Nat) : (s.onArr f).getF g' j = s.getF g' j := rfl
@[simp] theorem State.onArr_getN (s : State) (f : ArrayState → ArrayState) {w' : Nat} (g' : Field w') (j : Nat) : (s.onArr f).getN g' j = s.getN g' j := rfl
@[simp] theorem State.onArr_bitF (s : State) (f : ArrayState → ArrayState) (g' : Field 1) (j : Nat) : (s.onArr f).bitF g' j = s.bitF g' j := rfl

/-! ### setCell -/

@[simp] theorem State.setCell_pending (s : State) (key : Nat) (c : Cell) : (s.setCell key c).pending = s.pending := rfl
@[simp] theorem State.setCell_free (s : State) (key : Nat) (c : Cell) : (s.setCell key c).free = s.free := rfl
@[simp] theorem State.setCell_outs (s : State) (key : Nat) (c : Cell) : (s.setCell key c).outs = s.outs := rfl
@[simp] theorem State.setCell_regs (s : State) (key : Nat) (c : Cell) : (s.setCell key c).regs = s.regs := rfl
@[simp] theorem State.setCell_log (s : State) (key : Nat) (c : Cell) : (s.setCell key c).log = s.log := rfl
@[simp] theorem State.setCell_logSince (s : State) (key : Nat) (c : Cell) : (s.setCell key c).logSince = s.logSince := rfl
@[simp] theorem State.setCell_fst (s : State) (key : Nat) (c : Cell) : (s.setCell key c).fst = s.fst := rfl
@[simp] theorem State.setCell_col (s : State) (key : Nat) (c : Cell) : (s.setCell key c).col = s.col := rfl
@[simp] theorem State.setCell_awl (s : State) (key : Nat) (c : Cell) : (s.setCell key c).awl = s.awl := rfl
@[simp] theorem State.setCell_ring (s : State) (key : Nat) (c : Cell) : (s.setCell key c).ring = s.ring := rfl
@[simp] theorem State.setCell_sys (s : State) (key : Nat) (c : Cell) : (s.setCell key c).sys = s.sys := rfl
@[simp] theorem State.setCell_dram (s : State) (key : Nat) (c : Cell) : (s.setCell key c).dram = s.dram := rfl
@[simp] theorem State.setCell_migrating (s : State) (key : Nat) (c : Cell) : (s.setCell key c).migrating = s.migrating := rfl
@[simp] theorem State.setCell_migLine (s : State) (key : Nat) (c : Cell) : (s.setCell key c).migLine = s.migLine := rfl
@[simp] theorem State.setCell_retrainNext (s : State) (key : Nat) (c : Cell) : (s.setCell key c).retrainNext = s.retrainNext := rfl
@[simp] theorem State.setCell_reg (s : State) (key : Nat) (c : Cell) (r' : RegId) (j : Nat) : (s.setCell key c).reg r' j = s.reg r' j := rfl
@[simp] theorem State.setCell_getF (s : State) (key : Nat) (c : Cell) {w' : Nat} (g' : Field w') (j : Nat) : (s.setCell key c).getF g' j = s.getF g' j := rfl
@[simp] theorem State.setCell_getN (s : State) (key : Nat) (c : Cell) {w' : Nat} (g' : Field w') (j : Nat) : (s.setCell key c).getN g' j = s.getN g' j := rfl
@[simp] theorem State.setCell_bitF (s : State) (key : Nat) (c : Cell) (g' : Field 1) (j : Nat) : (s.setCell key c).bitF g' j = s.bitF g' j := rfl

/-! ### updCell -/

@[simp] theorem State.updCell_pending (s : State) (key : Nat) (f : Cell → Cell) : (s.updCell key f).pending = s.pending := rfl
@[simp] theorem State.updCell_free (s : State) (key : Nat) (f : Cell → Cell) : (s.updCell key f).free = s.free := rfl
@[simp] theorem State.updCell_outs (s : State) (key : Nat) (f : Cell → Cell) : (s.updCell key f).outs = s.outs := rfl
@[simp] theorem State.updCell_regs (s : State) (key : Nat) (f : Cell → Cell) : (s.updCell key f).regs = s.regs := rfl
@[simp] theorem State.updCell_log (s : State) (key : Nat) (f : Cell → Cell) : (s.updCell key f).log = s.log := rfl
@[simp] theorem State.updCell_logSince (s : State) (key : Nat) (f : Cell → Cell) : (s.updCell key f).logSince = s.logSince := rfl
@[simp] theorem State.updCell_fst (s : State) (key : Nat) (f : Cell → Cell) : (s.updCell key f).fst = s.fst := rfl
@[simp] theorem State.updCell_col (s : State) (key : Nat) (f : Cell → Cell) : (s.updCell key f).col = s.col := rfl
@[simp] theorem State.updCell_awl (s : State) (key : Nat) (f : Cell → Cell) : (s.updCell key f).awl = s.awl := rfl
@[simp] theorem State.updCell_ring (s : State) (key : Nat) (f : Cell → Cell) : (s.updCell key f).ring = s.ring := rfl
@[simp] theorem State.updCell_sys (s : State) (key : Nat) (f : Cell → Cell) : (s.updCell key f).sys = s.sys := rfl
@[simp] theorem State.updCell_dram (s : State) (key : Nat) (f : Cell → Cell) : (s.updCell key f).dram = s.dram := rfl
@[simp] theorem State.updCell_migrating (s : State) (key : Nat) (f : Cell → Cell) : (s.updCell key f).migrating = s.migrating := rfl
@[simp] theorem State.updCell_migLine (s : State) (key : Nat) (f : Cell → Cell) : (s.updCell key f).migLine = s.migLine := rfl
@[simp] theorem State.updCell_retrainNext (s : State) (key : Nat) (f : Cell → Cell) : (s.updCell key f).retrainNext = s.retrainNext := rfl
@[simp] theorem State.updCell_reg (s : State) (key : Nat) (f : Cell → Cell) (r' : RegId) (j : Nat) : (s.updCell key f).reg r' j = s.reg r' j := rfl
@[simp] theorem State.updCell_getF (s : State) (key : Nat) (f : Cell → Cell) {w' : Nat} (g' : Field w') (j : Nat) : (s.updCell key f).getF g' j = s.getF g' j := rfl
@[simp] theorem State.updCell_getN (s : State) (key : Nat) (f : Cell → Cell) {w' : Nat} (g' : Field w') (j : Nat) : (s.updCell key f).getN g' j = s.getN g' j := rfl
@[simp] theorem State.updCell_bitF (s : State) (key : Nat) (f : Cell → Cell) (g' : Field 1) (j : Nat) : (s.updCell key f).bitF g' j = s.bitF g' j := rfl

/-! ### setGth -/

@[simp] theorem State.setGth_pending (s : State) (g : Nat) (x : Gth) : (s.setGth g x).pending = s.pending := rfl
@[simp] theorem State.setGth_free (s : State) (g : Nat) (x : Gth) : (s.setGth g x).free = s.free := rfl
@[simp] theorem State.setGth_outs (s : State) (g : Nat) (x : Gth) : (s.setGth g x).outs = s.outs := rfl
@[simp] theorem State.setGth_regs (s : State) (g : Nat) (x : Gth) : (s.setGth g x).regs = s.regs := rfl
@[simp] theorem State.setGth_log (s : State) (g : Nat) (x : Gth) : (s.setGth g x).log = s.log := rfl
@[simp] theorem State.setGth_logSince (s : State) (g : Nat) (x : Gth) : (s.setGth g x).logSince = s.logSince := rfl
@[simp] theorem State.setGth_fst (s : State) (g : Nat) (x : Gth) : (s.setGth g x).fst = s.fst := rfl
@[simp] theorem State.setGth_col (s : State) (g : Nat) (x : Gth) : (s.setGth g x).col = s.col := rfl
@[simp] theorem State.setGth_awl (s : State) (g : Nat) (x : Gth) : (s.setGth g x).awl = s.awl := rfl
@[simp] theorem State.setGth_ring (s : State) (g : Nat) (x : Gth) : (s.setGth g x).ring = s.ring := rfl
@[simp] theorem State.setGth_sys (s : State) (g : Nat) (x : Gth) : (s.setGth g x).sys = s.sys := rfl
@[simp] theorem State.setGth_dram (s : State) (g : Nat) (x : Gth) : (s.setGth g x).dram = s.dram := rfl
@[simp] theorem State.setGth_migrating (s : State) (g : Nat) (x : Gth) : (s.setGth g x).migrating = s.migrating := rfl
@[simp] theorem State.setGth_migLine (s : State) (g : Nat) (x : Gth) : (s.setGth g x).migLine = s.migLine := rfl
@[simp] theorem State.setGth_retrainNext (s : State) (g : Nat) (x : Gth) : (s.setGth g x).retrainNext = s.retrainNext := rfl
@[simp] theorem State.setGth_reg (s : State) (g : Nat) (x : Gth) (r' : RegId) (j : Nat) : (s.setGth g x).reg r' j = s.reg r' j := rfl
@[simp] theorem State.setGth_getF (s : State) (g : Nat) (x : Gth) {w' : Nat} (g' : Field w') (j : Nat) : (s.setGth g x).getF g' j = s.getF g' j := rfl
@[simp] theorem State.setGth_getN (s : State) (g : Nat) (x : Gth) {w' : Nat} (g' : Field w') (j : Nat) : (s.setGth g x).getN g' j = s.getN g' j := rfl
@[simp] theorem State.setGth_bitF (s : State) (g : Nat) (x : Gth) (g' : Field 1) (j : Nat) : (s.setGth g x).bitF g' j = s.bitF g' j := rfl

/-! ### updGth -/

@[simp] theorem State.updGth_pending (s : State) (g : Nat) (f : Gth → Gth) : (s.updGth g f).pending = s.pending := rfl
@[simp] theorem State.updGth_free (s : State) (g : Nat) (f : Gth → Gth) : (s.updGth g f).free = s.free := rfl
@[simp] theorem State.updGth_outs (s : State) (g : Nat) (f : Gth → Gth) : (s.updGth g f).outs = s.outs := rfl
@[simp] theorem State.updGth_regs (s : State) (g : Nat) (f : Gth → Gth) : (s.updGth g f).regs = s.regs := rfl
@[simp] theorem State.updGth_log (s : State) (g : Nat) (f : Gth → Gth) : (s.updGth g f).log = s.log := rfl
@[simp] theorem State.updGth_logSince (s : State) (g : Nat) (f : Gth → Gth) : (s.updGth g f).logSince = s.logSince := rfl
@[simp] theorem State.updGth_fst (s : State) (g : Nat) (f : Gth → Gth) : (s.updGth g f).fst = s.fst := rfl
@[simp] theorem State.updGth_col (s : State) (g : Nat) (f : Gth → Gth) : (s.updGth g f).col = s.col := rfl
@[simp] theorem State.updGth_awl (s : State) (g : Nat) (f : Gth → Gth) : (s.updGth g f).awl = s.awl := rfl
@[simp] theorem State.updGth_ring (s : State) (g : Nat) (f : Gth → Gth) : (s.updGth g f).ring = s.ring := rfl
@[simp] theorem State.updGth_sys (s : State) (g : Nat) (f : Gth → Gth) : (s.updGth g f).sys = s.sys := rfl
@[simp] theorem State.updGth_dram (s : State) (g : Nat) (f : Gth → Gth) : (s.updGth g f).dram = s.dram := rfl
@[simp] theorem State.updGth_migrating (s : State) (g : Nat) (f : Gth → Gth) : (s.updGth g f).migrating = s.migrating := rfl
@[simp] theorem State.updGth_migLine (s : State) (g : Nat) (f : Gth → Gth) : (s.updGth g f).migLine = s.migLine := rfl
@[simp] theorem State.updGth_retrainNext (s : State) (g : Nat) (f : Gth → Gth) : (s.updGth g f).retrainNext = s.retrainNext := rfl
@[simp] theorem State.updGth_reg (s : State) (g : Nat) (f : Gth → Gth) (r' : RegId) (j : Nat) : (s.updGth g f).reg r' j = s.reg r' j := rfl
@[simp] theorem State.updGth_getF (s : State) (g : Nat) (f : Gth → Gth) {w' : Nat} (g' : Field w') (j : Nat) : (s.updGth g f).getF g' j = s.getF g' j := rfl
@[simp] theorem State.updGth_getN (s : State) (g : Nat) (f : Gth → Gth) {w' : Nat} (g' : Field w') (j : Nat) : (s.updGth g f).getN g' j = s.getN g' j := rfl
@[simp] theorem State.updGth_bitF (s : State) (g : Nat) (f : Gth → Gth) (g' : Field 1) (j : Nat) : (s.updGth g f).bitF g' j = s.bitF g' j := rfl

/-! ### setRegion -/

@[simp] theorem State.setRegion_pending (s : State) (r : Nat) (x : Region) : (s.setRegion r x).pending = s.pending := rfl
@[simp] theorem State.setRegion_free (s : State) (r : Nat) (x : Region) : (s.setRegion r x).free = s.free := rfl
@[simp] theorem State.setRegion_outs (s : State) (r : Nat) (x : Region) : (s.setRegion r x).outs = s.outs := rfl
@[simp] theorem State.setRegion_regs (s : State) (r : Nat) (x : Region) : (s.setRegion r x).regs = s.regs := rfl
@[simp] theorem State.setRegion_log (s : State) (r : Nat) (x : Region) : (s.setRegion r x).log = s.log := rfl
@[simp] theorem State.setRegion_logSince (s : State) (r : Nat) (x : Region) : (s.setRegion r x).logSince = s.logSince := rfl
@[simp] theorem State.setRegion_fst (s : State) (r : Nat) (x : Region) : (s.setRegion r x).fst = s.fst := rfl
@[simp] theorem State.setRegion_col (s : State) (r : Nat) (x : Region) : (s.setRegion r x).col = s.col := rfl
@[simp] theorem State.setRegion_awl (s : State) (r : Nat) (x : Region) : (s.setRegion r x).awl = s.awl := rfl
@[simp] theorem State.setRegion_ring (s : State) (r : Nat) (x : Region) : (s.setRegion r x).ring = s.ring := rfl
@[simp] theorem State.setRegion_sys (s : State) (r : Nat) (x : Region) : (s.setRegion r x).sys = s.sys := rfl
@[simp] theorem State.setRegion_dram (s : State) (r : Nat) (x : Region) : (s.setRegion r x).dram = s.dram := rfl
@[simp] theorem State.setRegion_migrating (s : State) (r : Nat) (x : Region) : (s.setRegion r x).migrating = s.migrating := rfl
@[simp] theorem State.setRegion_migLine (s : State) (r : Nat) (x : Region) : (s.setRegion r x).migLine = s.migLine := rfl
@[simp] theorem State.setRegion_retrainNext (s : State) (r : Nat) (x : Region) : (s.setRegion r x).retrainNext = s.retrainNext := rfl
@[simp] theorem State.setRegion_reg (s : State) (r : Nat) (x : Region) (r' : RegId) (j : Nat) : (s.setRegion r x).reg r' j = s.reg r' j := rfl
@[simp] theorem State.setRegion_getF (s : State) (r : Nat) (x : Region) {w' : Nat} (g' : Field w') (j : Nat) : (s.setRegion r x).getF g' j = s.getF g' j := rfl
@[simp] theorem State.setRegion_getN (s : State) (r : Nat) (x : Region) {w' : Nat} (g' : Field w') (j : Nat) : (s.setRegion r x).getN g' j = s.getN g' j := rfl
@[simp] theorem State.setRegion_bitF (s : State) (r : Nat) (x : Region) (g' : Field 1) (j : Nat) : (s.setRegion r x).bitF g' j = s.bitF g' j := rfl

/-! ### updRegion -/

@[simp] theorem State.updRegion_pending (s : State) (r : Nat) (f : Region → Region) : (s.updRegion r f).pending = s.pending := rfl
@[simp] theorem State.updRegion_free (s : State) (r : Nat) (f : Region → Region) : (s.updRegion r f).free = s.free := rfl
@[simp] theorem State.updRegion_outs (s : State) (r : Nat) (f : Region → Region) : (s.updRegion r f).outs = s.outs := rfl
@[simp] theorem State.updRegion_regs (s : State) (r : Nat) (f : Region → Region) : (s.updRegion r f).regs = s.regs := rfl
@[simp] theorem State.updRegion_log (s : State) (r : Nat) (f : Region → Region) : (s.updRegion r f).log = s.log := rfl
@[simp] theorem State.updRegion_logSince (s : State) (r : Nat) (f : Region → Region) : (s.updRegion r f).logSince = s.logSince := rfl
@[simp] theorem State.updRegion_fst (s : State) (r : Nat) (f : Region → Region) : (s.updRegion r f).fst = s.fst := rfl
@[simp] theorem State.updRegion_col (s : State) (r : Nat) (f : Region → Region) : (s.updRegion r f).col = s.col := rfl
@[simp] theorem State.updRegion_awl (s : State) (r : Nat) (f : Region → Region) : (s.updRegion r f).awl = s.awl := rfl
@[simp] theorem State.updRegion_ring (s : State) (r : Nat) (f : Region → Region) : (s.updRegion r f).ring = s.ring := rfl
@[simp] theorem State.updRegion_sys (s : State) (r : Nat) (f : Region → Region) : (s.updRegion r f).sys = s.sys := rfl
@[simp] theorem State.updRegion_dram (s : State) (r : Nat) (f : Region → Region) : (s.updRegion r f).dram = s.dram := rfl
@[simp] theorem State.updRegion_migrating (s : State) (r : Nat) (f : Region → Region) : (s.updRegion r f).migrating = s.migrating := rfl
@[simp] theorem State.updRegion_migLine (s : State) (r : Nat) (f : Region → Region) : (s.updRegion r f).migLine = s.migLine := rfl
@[simp] theorem State.updRegion_retrainNext (s : State) (r : Nat) (f : Region → Region) : (s.updRegion r f).retrainNext = s.retrainNext := rfl
@[simp] theorem State.updRegion_reg (s : State) (r : Nat) (f : Region → Region) (r' : RegId) (j : Nat) : (s.updRegion r f).reg r' j = s.reg r' j := rfl
@[simp] theorem State.updRegion_getF (s : State) (r : Nat) (f : Region → Region) {w' : Nat} (g' : Field w') (j : Nat) : (s.updRegion r f).getF g' j = s.getF g' j := rfl
@[simp] theorem State.updRegion_getN (s : State) (r : Nat) (f : Region → Region) {w' : Nat} (g' : Field w') (j : Nat) : (s.updRegion r f).getN g' j = s.getN g' j := rfl
@[simp] theorem State.updRegion_bitF (s : State) (r : Nat) (f : Region → Region) (g' : Field 1) (j : Nat) : (s.updRegion r f).bitF g' j = s.bitF g' j := rfl

/-! ### updPort -/

@[simp] theorem State.updPort_pending (s : State) (p : Nat) (f : Port → Port) : (s.updPort p f).pending = s.pending := rfl
@[simp] theorem State.updPort_free (s : State) (p : Nat) (f : Port → Port) : (s.updPort p f).free = s.free := rfl
@[simp] theorem State.updPort_outs (s : State) (p : Nat) (f : Port → Port) : (s.updPort p f).outs = s.outs := rfl
@[simp] theorem State.updPort_regs (s : State) (p : Nat) (f : Port → Port) : (s.updPort p f).regs = s.regs := rfl
@[simp] theorem State.updPort_log (s : State) (p : Nat) (f : Port → Port) : (s.updPort p f).log = s.log := rfl
@[simp] theorem State.updPort_logSince (s : State) (p : Nat) (f : Port → Port) : (s.updPort p f).logSince = s.logSince := rfl
@[simp] theorem State.updPort_arr (s : State) (p : Nat) (f : Port → Port) : (s.updPort p f).arr = s.arr := rfl
@[simp] theorem State.updPort_col (s : State) (p : Nat) (f : Port → Port) : (s.updPort p f).col = s.col := rfl
@[simp] theorem State.updPort_awl (s : State) (p : Nat) (f : Port → Port) : (s.updPort p f).awl = s.awl := rfl
@[simp] theorem State.updPort_ring (s : State) (p : Nat) (f : Port → Port) : (s.updPort p f).ring = s.ring := rfl
@[simp] theorem State.updPort_sys (s : State) (p : Nat) (f : Port → Port) : (s.updPort p f).sys = s.sys := rfl
@[simp] theorem State.updPort_dram (s : State) (p : Nat) (f : Port → Port) : (s.updPort p f).dram = s.dram := rfl
@[simp] theorem State.updPort_migrating (s : State) (p : Nat) (f : Port → Port) : (s.updPort p f).migrating = s.migrating := rfl
@[simp] theorem State.updPort_migLine (s : State) (p : Nat) (f : Port → Port) : (s.updPort p f).migLine = s.migLine := rfl
@[simp] theorem State.updPort_retrainNext (s : State) (p : Nat) (f : Port → Port) : (s.updPort p f).retrainNext = s.retrainNext := rfl
@[simp] theorem State.updPort_reg (s : State) (p : Nat) (f : Port → Port) (r' : RegId) (j : Nat) : (s.updPort p f).reg r' j = s.reg r' j := rfl
@[simp] theorem State.updPort_getF (s : State) (p : Nat) (f : Port → Port) {w' : Nat} (g' : Field w') (j : Nat) : (s.updPort p f).getF g' j = s.getF g' j := rfl
@[simp] theorem State.updPort_getN (s : State) (p : Nat) (f : Port → Port) {w' : Nat} (g' : Field w') (j : Nat) : (s.updPort p f).getN g' j = s.getN g' j := rfl
@[simp] theorem State.updPort_bitF (s : State) (p : Nat) (f : Port → Port) (g' : Field 1) (j : Nat) : (s.updPort p f).bitF g' j = s.bitF g' j := rfl

/-! ### updStation -/

@[simp] theorem State.updStation_pending (s : State) (k : Nat) (f : Station → Station) : (s.updStation k f).pending = s.pending := rfl
@[simp] theorem State.updStation_free (s : State) (k : Nat) (f : Station → Station) : (s.updStation k f).free = s.free := rfl
@[simp] theorem State.updStation_outs (s : State) (k : Nat) (f : Station → Station) : (s.updStation k f).outs = s.outs := rfl
@[simp] theorem State.updStation_regs (s : State) (k : Nat) (f : Station → Station) : (s.updStation k f).regs = s.regs := rfl
@[simp] theorem State.updStation_log (s : State) (k : Nat) (f : Station → Station) : (s.updStation k f).log = s.log := rfl
@[simp] theorem State.updStation_logSince (s : State) (k : Nat) (f : Station → Station) : (s.updStation k f).logSince = s.logSince := rfl
@[simp] theorem State.updStation_arr (s : State) (k : Nat) (f : Station → Station) : (s.updStation k f).arr = s.arr := rfl
@[simp] theorem State.updStation_fst (s : State) (k : Nat) (f : Station → Station) : (s.updStation k f).fst = s.fst := rfl
@[simp] theorem State.updStation_col (s : State) (k : Nat) (f : Station → Station) : (s.updStation k f).col = s.col := rfl
@[simp] theorem State.updStation_awl (s : State) (k : Nat) (f : Station → Station) : (s.updStation k f).awl = s.awl := rfl
@[simp] theorem State.updStation_sys (s : State) (k : Nat) (f : Station → Station) : (s.updStation k f).sys = s.sys := rfl
@[simp] theorem State.updStation_dram (s : State) (k : Nat) (f : Station → Station) : (s.updStation k f).dram = s.dram := rfl
@[simp] theorem State.updStation_migrating (s : State) (k : Nat) (f : Station → Station) : (s.updStation k f).migrating = s.migrating := rfl
@[simp] theorem State.updStation_migLine (s : State) (k : Nat) (f : Station → Station) : (s.updStation k f).migLine = s.migLine := rfl
@[simp] theorem State.updStation_retrainNext (s : State) (k : Nat) (f : Station → Station) : (s.updStation k f).retrainNext = s.retrainNext := rfl
@[simp] theorem State.updStation_reg (s : State) (k : Nat) (f : Station → Station) (r' : RegId) (j : Nat) : (s.updStation k f).reg r' j = s.reg r' j := rfl
@[simp] theorem State.updStation_getF (s : State) (k : Nat) (f : Station → Station) {w' : Nat} (g' : Field w') (j : Nat) : (s.updStation k f).getF g' j = s.getF g' j := rfl
@[simp] theorem State.updStation_getN (s : State) (k : Nat) (f : Station → Station) {w' : Nat} (g' : Field w') (j : Nat) : (s.updStation k f).getN g' j = s.getN g' j := rfl
@[simp] theorem State.updStation_bitF (s : State) (k : Nat) (f : Station → Station) (g' : Field 1) (j : Nat) : (s.updStation k f).bitF g' j = s.bitF g' j := rfl

/-! ### updHq -/

@[simp] theorem State.updHq_pending (s : State) (m : Nat) (f : QueueSet → QueueSet) : (s.updHq m f).pending = s.pending := rfl
@[simp] theorem State.updHq_free (s : State) (m : Nat) (f : QueueSet → QueueSet) : (s.updHq m f).free = s.free := rfl
@[simp] theorem State.updHq_outs (s : State) (m : Nat) (f : QueueSet → QueueSet) : (s.updHq m f).outs = s.outs := rfl
@[simp] theorem State.updHq_regs (s : State) (m : Nat) (f : QueueSet → QueueSet) : (s.updHq m f).regs = s.regs := rfl
@[simp] theorem State.updHq_log (s : State) (m : Nat) (f : QueueSet → QueueSet) : (s.updHq m f).log = s.log := rfl
@[simp] theorem State.updHq_logSince (s : State) (m : Nat) (f : QueueSet → QueueSet) : (s.updHq m f).logSince = s.logSince := rfl
@[simp] theorem State.updHq_arr (s : State) (m : Nat) (f : QueueSet → QueueSet) : (s.updHq m f).arr = s.arr := rfl
@[simp] theorem State.updHq_fst (s : State) (m : Nat) (f : QueueSet → QueueSet) : (s.updHq m f).fst = s.fst := rfl
@[simp] theorem State.updHq_awl (s : State) (m : Nat) (f : QueueSet → QueueSet) : (s.updHq m f).awl = s.awl := rfl
@[simp] theorem State.updHq_ring (s : State) (m : Nat) (f : QueueSet → QueueSet) : (s.updHq m f).ring = s.ring := rfl
@[simp] theorem State.updHq_sys (s : State) (m : Nat) (f : QueueSet → QueueSet) : (s.updHq m f).sys = s.sys := rfl
@[simp] theorem State.updHq_dram (s : State) (m : Nat) (f : QueueSet → QueueSet) : (s.updHq m f).dram = s.dram := rfl
@[simp] theorem State.updHq_migrating (s : State) (m : Nat) (f : QueueSet → QueueSet) : (s.updHq m f).migrating = s.migrating := rfl
@[simp] theorem State.updHq_migLine (s : State) (m : Nat) (f : QueueSet → QueueSet) : (s.updHq m f).migLine = s.migLine := rfl
@[simp] theorem State.updHq_retrainNext (s : State) (m : Nat) (f : QueueSet → QueueSet) : (s.updHq m f).retrainNext = s.retrainNext := rfl
@[simp] theorem State.updHq_reg (s : State) (m : Nat) (f : QueueSet → QueueSet) (r' : RegId) (j : Nat) : (s.updHq m f).reg r' j = s.reg r' j := rfl
@[simp] theorem State.updHq_getF (s : State) (m : Nat) (f : QueueSet → QueueSet) {w' : Nat} (g' : Field w') (j : Nat) : (s.updHq m f).getF g' j = s.getF g' j := rfl
@[simp] theorem State.updHq_getN (s : State) (m : Nat) (f : QueueSet → QueueSet) {w' : Nat} (g' : Field w') (j : Nat) : (s.updHq m f).getN g' j = s.getN g' j := rfl
@[simp] theorem State.updHq_bitF (s : State) (m : Nat) (f : QueueSet → QueueSet) (g' : Field 1) (j : Nat) : (s.updHq m f).bitF g' j = s.bitF g' j := rfl

/-! ### setAct -/

@[simp] theorem State.setAct_pending (s : State) (c v : Nat) (a : Option Activation) : (s.setAct c v a).pending = s.pending := rfl
@[simp] theorem State.setAct_free (s : State) (c v : Nat) (a : Option Activation) : (s.setAct c v a).free = s.free := rfl
@[simp] theorem State.setAct_outs (s : State) (c v : Nat) (a : Option Activation) : (s.setAct c v a).outs = s.outs := rfl
@[simp] theorem State.setAct_regs (s : State) (c v : Nat) (a : Option Activation) : (s.setAct c v a).regs = s.regs := rfl
@[simp] theorem State.setAct_log (s : State) (c v : Nat) (a : Option Activation) : (s.setAct c v a).log = s.log := rfl
@[simp] theorem State.setAct_logSince (s : State) (c v : Nat) (a : Option Activation) : (s.setAct c v a).logSince = s.logSince := rfl
@[simp] theorem State.setAct_arr (s : State) (c v : Nat) (a : Option Activation) : (s.setAct c v a).arr = s.arr := rfl
@[simp] theorem State.setAct_fst (s : State) (c v : Nat) (a : Option Activation) : (s.setAct c v a).fst = s.fst := rfl
@[simp] theorem State.setAct_awl (s : State) (c v : Nat) (a : Option Activation) : (s.setAct c v a).awl = s.awl := rfl
@[simp] theorem State.setAct_ring (s : State) (c v : Nat) (a : Option Activation) : (s.setAct c v a).ring = s.ring := rfl
@[simp] theorem State.setAct_sys (s : State) (c v : Nat) (a : Option Activation) : (s.setAct c v a).sys = s.sys := rfl
@[simp] theorem State.setAct_dram (s : State) (c v : Nat) (a : Option Activation) : (s.setAct c v a).dram = s.dram := rfl
@[simp] theorem State.setAct_migrating (s : State) (c v : Nat) (a : Option Activation) : (s.setAct c v a).migrating = s.migrating := rfl
@[simp] theorem State.setAct_migLine (s : State) (c v : Nat) (a : Option Activation) : (s.setAct c v a).migLine = s.migLine := rfl
@[simp] theorem State.setAct_retrainNext (s : State) (c v : Nat) (a : Option Activation) : (s.setAct c v a).retrainNext = s.retrainNext := rfl
@[simp] theorem State.setAct_reg (s : State) (c v : Nat) (a : Option Activation) (r' : RegId) (j : Nat) : (s.setAct c v a).reg r' j = s.reg r' j := rfl
@[simp] theorem State.setAct_getF (s : State) (c v : Nat) (a : Option Activation) {w' : Nat} (g' : Field w') (j : Nat) : (s.setAct c v a).getF g' j = s.getF g' j := rfl
@[simp] theorem State.setAct_getN (s : State) (c v : Nat) (a : Option Activation) {w' : Nat} (g' : Field w') (j : Nat) : (s.setAct c v a).getN g' j = s.getN g' j := rfl
@[simp] theorem State.setAct_bitF (s : State) (c v : Nat) (a : Option Activation) (g' : Field 1) (j : Nat) : (s.setAct c v a).bitF g' j = s.bitF g' j := rfl

/-! ### mapItems -/

@[simp] theorem State.mapItems_pending (s : State) (f : Item → Item) : (s.mapItems f).pending = s.pending := rfl
@[simp] theorem State.mapItems_free (s : State) (f : Item → Item) : (s.mapItems f).free = s.free := rfl
@[simp] theorem State.mapItems_outs (s : State) (f : Item → Item) : (s.mapItems f).outs = s.outs := rfl
@[simp] theorem State.mapItems_regs (s : State) (f : Item → Item) : (s.mapItems f).regs = s.regs := rfl
@[simp] theorem State.mapItems_log (s : State) (f : Item → Item) : (s.mapItems f).log = s.log := rfl
@[simp] theorem State.mapItems_logSince (s : State) (f : Item → Item) : (s.mapItems f).logSince = s.logSince := rfl
@[simp] theorem State.mapItems_arr (s : State) (f : Item → Item) : (s.mapItems f).arr = s.arr := rfl
@[simp] theorem State.mapItems_fst (s : State) (f : Item → Item) : (s.mapItems f).fst = s.fst := rfl
@[simp] theorem State.mapItems_awl (s : State) (f : Item → Item) : (s.mapItems f).awl = s.awl := rfl
@[simp] theorem State.mapItems_ring (s : State) (f : Item → Item) : (s.mapItems f).ring = s.ring := rfl
@[simp] theorem State.mapItems_sys (s : State) (f : Item → Item) : (s.mapItems f).sys = s.sys := rfl
@[simp] theorem State.mapItems_dram (s : State) (f : Item → Item) : (s.mapItems f).dram = s.dram := rfl
@[simp] theorem State.mapItems_migrating (s : State) (f : Item → Item) : (s.mapItems f).migrating = s.migrating := rfl
@[simp] theorem State.mapItems_migLine (s : State) (f : Item → Item) : (s.mapItems f).migLine = s.migLine := rfl
@[simp] theorem State.mapItems_retrainNext (s : State) (f : Item → Item) : (s.mapItems f).retrainNext = s.retrainNext := rfl
@[simp] theorem State.mapItems_reg (s : State) (f : Item → Item) (r' : RegId) (j : Nat) : (s.mapItems f).reg r' j = s.reg r' j := rfl
@[simp] theorem State.mapItems_getF (s : State) (f : Item → Item) {w' : Nat} (g' : Field w') (j : Nat) : (s.mapItems f).getF g' j = s.getF g' j := rfl
@[simp] theorem State.mapItems_getN (s : State) (f : Item → Item) {w' : Nat} (g' : Field w') (j : Nat) : (s.mapItems f).getN g' j = s.getN g' j := rfl
@[simp] theorem State.mapItems_bitF (s : State) (f : Item → Item) (g' : Field 1) (j : Nat) : (s.mapItems f).bitF g' j = s.bitF g' j := rfl

/-! ### dropItem -/

@[simp] theorem State.dropItem_pending (s : State) (id : Nat) : (s.dropItem id).pending = s.pending := rfl
@[simp] theorem State.dropItem_free (s : State) (id : Nat) : (s.dropItem id).free = s.free := rfl
@[simp] theorem State.dropItem_outs (s : State) (id : Nat) : (s.dropItem id).outs = s.outs := rfl
@[simp] theorem State.dropItem_regs (s : State) (id : Nat) : (s.dropItem id).regs = s.regs := rfl
@[simp] theorem State.dropItem_log (s : State) (id : Nat) : (s.dropItem id).log = s.log := rfl
@[simp] theorem State.dropItem_logSince (s : State) (id : Nat) : (s.dropItem id).logSince = s.logSince := rfl
@[simp] theorem State.dropItem_arr (s : State) (id : Nat) : (s.dropItem id).arr = s.arr := rfl
@[simp] theorem State.dropItem_fst (s : State) (id : Nat) : (s.dropItem id).fst = s.fst := rfl
@[simp] theorem State.dropItem_awl (s : State) (id : Nat) : (s.dropItem id).awl = s.awl := rfl
@[simp] theorem State.dropItem_ring (s : State) (id : Nat) : (s.dropItem id).ring = s.ring := rfl
@[simp] theorem State.dropItem_sys (s : State) (id : Nat) : (s.dropItem id).sys = s.sys := rfl
@[simp] theorem State.dropItem_dram (s : State) (id : Nat) : (s.dropItem id).dram = s.dram := rfl
@[simp] theorem State.dropItem_migrating (s : State) (id : Nat) : (s.dropItem id).migrating = s.migrating := rfl
@[simp] theorem State.dropItem_migLine (s : State) (id : Nat) : (s.dropItem id).migLine = s.migLine := rfl
@[simp] theorem State.dropItem_retrainNext (s : State) (id : Nat) : (s.dropItem id).retrainNext = s.retrainNext := rfl
@[simp] theorem State.dropItem_reg (s : State) (id : Nat) (r' : RegId) (j : Nat) : (s.dropItem id).reg r' j = s.reg r' j := rfl
@[simp] theorem State.dropItem_getF (s : State) (id : Nat) {w' : Nat} (g' : Field w') (j : Nat) : (s.dropItem id).getF g' j = s.getF g' j := rfl
@[simp] theorem State.dropItem_getN (s : State) (id : Nat) {w' : Nat} (g' : Field w') (j : Nat) : (s.dropItem id).getN g' j = s.getN g' j := rfl
@[simp] theorem State.dropItem_bitF (s : State) (id : Nat) (g' : Field 1) (j : Nat) : (s.dropItem id).bitF g' j = s.bitF g' j := rfl

/-! ### setCore -/

@[simp] theorem State.setCore_pending (s : State) (c : Nat) (x : AwlCore) : (s.setCore c x).pending = s.pending := by
  obtain ⟨v, h⟩ := s.setCore_eq c x; rw [h]; rfl
@[simp] theorem State.setCore_free (s : State) (c : Nat) (x : AwlCore) : (s.setCore c x).free = s.free := by
  obtain ⟨v, h⟩ := s.setCore_eq c x; rw [h]; rfl
@[simp] theorem State.setCore_outs (s : State) (c : Nat) (x : AwlCore) : (s.setCore c x).outs = s.outs := by
  obtain ⟨v, h⟩ := s.setCore_eq c x; rw [h]; rfl
@[simp] theorem State.setCore_log (s : State) (c : Nat) (x : AwlCore) : (s.setCore c x).log = s.log := by
  obtain ⟨v, h⟩ := s.setCore_eq c x; rw [h]; rfl
@[simp] theorem State.setCore_logSince (s : State) (c : Nat) (x : AwlCore) : (s.setCore c x).logSince = s.logSince := by
  obtain ⟨v, h⟩ := s.setCore_eq c x; rw [h]; rfl
@[simp] theorem State.setCore_arr (s : State) (c : Nat) (x : AwlCore) : (s.setCore c x).arr = s.arr := by
  obtain ⟨v, h⟩ := s.setCore_eq c x; rw [h]; rfl
@[simp] theorem State.setCore_fst (s : State) (c : Nat) (x : AwlCore) : (s.setCore c x).fst = s.fst := by
  obtain ⟨v, h⟩ := s.setCore_eq c x; rw [h]; rfl
@[simp] theorem State.setCore_col (s : State) (c : Nat) (x : AwlCore) : (s.setCore c x).col = s.col := by
  obtain ⟨v, h⟩ := s.setCore_eq c x; rw [h]; rfl
@[simp] theorem State.setCore_awl (s : State) (c : Nat) (x : AwlCore) : (s.setCore c x).awl = s.awl.put c x := by
  obtain ⟨v, h⟩ := s.setCore_eq c x; rw [h]; rfl
@[simp] theorem State.setCore_ring (s : State) (c : Nat) (x : AwlCore) : (s.setCore c x).ring = s.ring := by
  obtain ⟨v, h⟩ := s.setCore_eq c x; rw [h]; rfl
@[simp] theorem State.setCore_sys (s : State) (c : Nat) (x : AwlCore) : (s.setCore c x).sys = s.sys := by
  obtain ⟨v, h⟩ := s.setCore_eq c x; rw [h]; rfl
@[simp] theorem State.setCore_dram (s : State) (c : Nat) (x : AwlCore) : (s.setCore c x).dram = s.dram := by
  obtain ⟨v, h⟩ := s.setCore_eq c x; rw [h]; rfl
@[simp] theorem State.setCore_migrating (s : State) (c : Nat) (x : AwlCore) : (s.setCore c x).migrating = s.migrating := by
  obtain ⟨v, h⟩ := s.setCore_eq c x; rw [h]; rfl
@[simp] theorem State.setCore_migLine (s : State) (c : Nat) (x : AwlCore) : (s.setCore c x).migLine = s.migLine := by
  obtain ⟨v, h⟩ := s.setCore_eq c x; rw [h]; rfl
@[simp] theorem State.setCore_retrainNext (s : State) (c : Nat) (x : AwlCore) : (s.setCore c x).retrainNext = s.retrainNext := by
  obtain ⟨v, h⟩ := s.setCore_eq c x; rw [h]; rfl

/-! ### setBoot -/

@[simp] theorem State.setBoot_pending (s : State) (b : Option Boot) : (s.setBoot b).pending = s.pending := rfl
@[simp] theorem State.setBoot_free (s : State) (b : Option Boot) : (s.setBoot b).free = s.free := rfl
@[simp] theorem State.setBoot_outs (s : State) (b : Option Boot) : (s.setBoot b).outs = s.outs := rfl
@[simp] theorem State.setBoot_regs (s : State) (b : Option Boot) : (s.setBoot b).regs = s.regs := rfl
@[simp] theorem State.setBoot_log (s : State) (b : Option Boot) : (s.setBoot b).log = s.log := rfl
@[simp] theorem State.setBoot_logSince (s : State) (b : Option Boot) : (s.setBoot b).logSince = s.logSince := rfl
@[simp] theorem State.setBoot_arr (s : State) (b : Option Boot) : (s.setBoot b).arr = s.arr := rfl
@[simp] theorem State.setBoot_fst (s : State) (b : Option Boot) : (s.setBoot b).fst = s.fst := rfl
@[simp] theorem State.setBoot_col (s : State) (b : Option Boot) : (s.setBoot b).col = s.col := rfl
@[simp] theorem State.setBoot_awl (s : State) (b : Option Boot) : (s.setBoot b).awl = s.awl := rfl
@[simp] theorem State.setBoot_ring (s : State) (b : Option Boot) : (s.setBoot b).ring = s.ring := rfl
@[simp] theorem State.setBoot_dram (s : State) (b : Option Boot) : (s.setBoot b).dram = s.dram := rfl
@[simp] theorem State.setBoot_migrating (s : State) (b : Option Boot) : (s.setBoot b).migrating = s.migrating := rfl
@[simp] theorem State.setBoot_migLine (s : State) (b : Option Boot) : (s.setBoot b).migLine = s.migLine := rfl
@[simp] theorem State.setBoot_retrainNext (s : State) (b : Option Boot) : (s.setBoot b).retrainNext = s.retrainNext := rfl
@[simp] theorem State.setBoot_reg (s : State) (b : Option Boot) (r' : RegId) (j : Nat) : (s.setBoot b).reg r' j = s.reg r' j := rfl
@[simp] theorem State.setBoot_getF (s : State) (b : Option Boot) {w' : Nat} (g' : Field w') (j : Nat) : (s.setBoot b).getF g' j = s.getF g' j := rfl
@[simp] theorem State.setBoot_getN (s : State) (b : Option Boot) {w' : Nat} (g' : Field w') (j : Nat) : (s.setBoot b).getN g' j = s.getN g' j := rfl
@[simp] theorem State.setBoot_bitF (s : State) (b : Option Boot) (g' : Field 1) (j : Nat) : (s.setBoot b).bitF g' j = s.bitF g' j := rfl

/-! ### What a table holds after an update -/

@[simp] theorem State.cell_setCell_self (s : State) (key : Nat) (c : Cell) : (s.setCell key c).cell key = c :=
  Sparse.at_put_self ..

theorem State.cell_setCell_ne (s : State) {key key' : Nat} (c : Cell) (h : key ≠ key') :
    (s.setCell key c).cell key' = s.cell key' := Sparse.at_put_ne _ _ h

@[simp] theorem State.cell_setGth (s : State) (g : Nat) (x : Gth) (key : Nat) : (s.setGth g x).cell key = s.cell key := rfl

@[simp] theorem State.cell_setRegion (s : State) (r : Nat) (x : Region) (key : Nat) :
    (s.setRegion r x).cell key = s.cell key := rfl

@[simp] theorem State.gth_setGth_self (s : State) (g : Nat) (x : Gth) : (s.setGth g x).gth g = x := Sparse.at_put_self ..

theorem State.gth_setGth_ne (s : State) {g g' : Nat} (x : Gth) (h : g ≠ g') : (s.setGth g x).gth g' = s.gth g' :=
  Sparse.at_put_ne _ _ h

@[simp] theorem State.gth_setCell (s : State) (key : Nat) (c : Cell) (g : Nat) : (s.setCell key c).gth g = s.gth g := rfl

@[simp] theorem State.gth_setRegion (s : State) (r : Nat) (x : Region) (g : Nat) : (s.setRegion r x).gth g = s.gth g := rfl

@[simp] theorem State.region_setRegion_self (s : State) (r : Nat) (x : Region) : (s.setRegion r x).region r = x :=
  Sparse.at_put_self ..

theorem State.region_setRegion_ne (s : State) {r r' : Nat} (x : Region) (h : r ≠ r') :
    (s.setRegion r x).region r' = s.region r' := Sparse.at_put_ne _ _ h

@[simp] theorem State.region_setCell (s : State) (key : Nat) (c : Cell) (r : Nat) :
    (s.setCell key c).region r = s.region r := rfl

@[simp] theorem State.region_setGth (s : State) (g : Nat) (x : Gth) (r : Nat) : (s.setGth g x).region r = s.region r := rfl

@[simp] theorem State.port_updPort_self (s : State) (p : Nat) (f : Port → Port) : (s.updPort p f).port p = f (s.port p) :=
  Sparse.at_upd_self ..

@[simp] theorem State.station_updStation_self (s : State) (k : Nat) (f : Station → Station) :
    (s.updStation k f).station k = f (s.station k) := Sparse.at_upd_self ..

@[simp] theorem State.hq_updHq_self (s : State) (m : Nat) (f : QueueSet → QueueSet) : (s.updHq m f).hq m = f (s.hq m) :=
  Sparse.at_upd_self ..

@[simp] theorem State.core_setCore_self (s : State) (c : Nat) (x : AwlCore) : (s.setCore c x).core c = x := by
  obtain ⟨v, e⟩ := s.setCore_eq c x; rw [e]; exact Sparse.at_put_self ..

theorem State.core_setCore_ne (s : State) {c c' : Nat} (x : AwlCore) (h : c ≠ c') : (s.setCore c x).core c' = s.core c' := by
  obtain ⟨v, e⟩ := s.setCore_eq c x; rw [e]; exact Sparse.at_put_ne _ _ h

@[simp] theorem State.core_setReg (s : State) (r : RegId) (i : Nat) (v : BitVec 64) (c : Nat) :
    (s.setReg r i v).core c = s.core c := rfl

end Sys2Proof.Machine
end

