-- ==== Sys2Proof/Laws/Awl.lean ====
section
/-!
SUPPORT. What one instruction of an Awl core leaves of its core.
-/
namespace Sys2Proof.Machine

theorem core_setCore (s : State) (c d : Nat) (x : AwlCore) : (s.setCore c x).core d = if c = d then x else s.core d := by
  unfold State.core State.setCore
  rw [State.setReg_awl, Sparse.at_put]

theorem core_updCore (s : State) (c d : Nat) (f : AwlCore → AwlCore) :
    (s.updCore c f).core d = if c = d then f (s.core c) else s.core d := core_setCore _ _ _ _

theorem level_updLevel (s : State) (c v u : Nat) (f : Level → Level) :
    (s.updLevel c v f).level c u = if v = u then f (s.level c v) else s.level c u := by
  unfold State.updLevel State.level
  rw [core_updCore, if_pos rfl]
  dsimp only
  rw [Sparse.at_upd]; split
  · next h => subst h; rfl
  · rfl

theorem core_updLevel (s : State) (c v : Nat) (f : Level → Level) :
    (s.updLevel c v f).core c = { s.core c with levels := (s.core c).levels.upd v f } := by
  unfold State.updLevel; rw [core_updCore, if_pos rfl]

theorem core_updLevel_ne (s : State) {c d : Nat} (v : Nat) (f : Level → Level) (h : c ≠ d) : (s.updLevel c v f).core d = s.core d := by
  unfold State.updLevel; rw [core_updCore, if_neg h]

/-- The state in which an instruction's own part begins. -/
def AwlBegin (s s1 : State) (c : CoreId) (v : Nat) (l : Level) (stall : Nat) : Prop :=
  s1.level c v = l ∧ (∀ u, u ≠ v → s1.level c u = s.level c u) ∧ (s1.core c).rep = (s.core c).rep ∧
  (s1.core c).cycle = (s.core c).cycle + BitVec.ofNat 40 stall ∧ (s1.core c).imem = (s.core c).imem ∧
  (s1.core c).dmem = (s.core c).dmem ∧ (s1.core c).running = (s.core c).running ∧ (∀ d : CoreId, d ≠ c → s1.core d = s.core d) ∧
  s1.ring = s.ring ∧ s1.col = s.col

theorem runAwl_begin {s : State} {c : CoreId} {o : AwlOp} {v : Nat} {w : Word} {l : Level} (h : AwlRun s c o v w l)
    (f : Nat → Word → State → Eff) : ∃ s1, AwlBegin s s1 c v l (awlStall (s.level c v) o w) ∧
      s.runAwl c o f = match f v w s1 with
        | .next s2 cost pc => s2.finish c v o w (s.core c).rep cost pc
        | .part s2 => s2.finish c v o w none 1 (some l.pc)
        | .rep n s2 => (s2.finish c v o w none 1 none).updCore c fun x => { x with rep := some n }
        | .again s2 => s2
        | .fault cause addr s2 => s2.taskFault c v cause l.pc addr := by
  obtain ⟨h1, h2, h3, h4, h5, h6, h7, h8, h9⟩ := h
  refine ⟨((s.updCore c fun x => { x with cycle := x.cycle + BitVec.ofNat 40 (awlStall (s.level c v) o w), levels := x.levels.upd v fun l => { l with own := l.own + awlStall (s.level c v) o w } }).updLevel c v fun _ => l), ?_, ?_⟩
  · refine ⟨?_, ?_, ?_, ?_, ?_, ?_, ?_, ?_, ?_, ?_⟩
    · rw [level_updLevel, if_pos rfl]
    · intro u hu
      rw [level_updLevel, if_neg (Ne.symm hu)]
      unfold State.level
      rw [core_updCore, if_pos rfl]
      dsimp only
      rw [Sparse.at_upd, if_neg (Ne.symm hu)]
    · rw [core_updLevel, core_updCore, if_pos rfl]
    · rw [core_updLevel, core_updCore, if_pos rfl]
    · rw [core_updLevel, core_updCore, if_pos rfl]
    · rw [core_updLevel, core_updCore, if_pos rfl]
    · rw [core_updLevel, core_updCore, if_pos rfl]
    · intro d hd
      have : (c : Nat) ≠ d := fun e => hd (Fin.ext e.symm)
      rw [core_updLevel_ne _ _ _ this, core_updCore, if_neg this]
    · unfold State.updLevel State.updCore; simp only [State.setCore_ring]
    · unfold State.updLevel State.updCore; simp only [State.setCore_col]
  · unfold State.runAwl
    rw [h1]
    dsimp only
    rw [if_neg (by simp [h2, h3]), if_neg (by simp [h4]), h5, h6]
    dsimp only
    rw [if_neg (by simp)]
    have hst : ∀ r, (s.level c v).loaded = some r → (if (readsG o w).contains r = true then 1 else 0) = awlStall (s.level c v) o w := by
      intro r hr; unfold awlStall; rw [hr]; simp
    have hst0 : (s.level c v).loaded = none → 0 = awlStall (s.level c v) o w := by intro hr; unfold awlStall; rw [hr]
    have hbad : ¬ ((false || (readsG o w).any (fun r => !(l.gRead r).ok) || (readsS o w l).any fun r => !r.ok) = true) := by
      have e1 : ((readsG o w).any fun r => !(l.gRead r).ok) = false := by
        rw [List.any_eq_false]; intro r hr; simp [h8 r hr]
      have e2 : ((readsS o w l).any fun r => !r.ok) = false := by
        rw [List.any_eq_false]; intro r hr; simp [h9 r hr]
      simp [e1, e2]
    have hl : ((s.updCore c fun x => { x with cycle := x.cycle + BitVec.ofNat 40 (awlStall (s.level c v) o w), levels := x.levels.upd v fun l => { l with own := l.own + awlStall (s.level c v) o w } }).level c v).landDue = (l, false) := by
      rw [← h7]
      congr 1
      unfold State.level
      rw [core_updCore, if_pos rfl]
      dsimp only
      rw [Sparse.at_upd, if_pos rfl]
    clear h7
    generalize awlStall (s.level c v) o w = S at hst hst0 hl
    cases hld : (s.level c v).loaded with
    | none =>
      have := hst0 hld
      subst this
      dsimp only
      rw [hl]
      dsimp only
      rw [if_neg hbad] <;>
        (generalize f v w _ = e; cases e <;> rfl)
    | some r =>
      dsimp only
      simp only [hst r hld, hl]
      rw [if_neg hbad] <;>
        (generalize f v w _ = e; cases e <;> rfl)

/-- An instruction that goes on: its bank, its cycles, and the rest of the core. -/
theorem awl_next {s s1 s2 : State} {c : CoreId} {o : AwlOp} {v : Nat} {w : Word} {l m : Level} {cost : Nat} {pc : Option Nat}
    (hb : AwlBegin s s1 c v l (awlStall (s.level c v) o w)) (hm : s2.level c v = m) (ho : ∀ u, u ≠ v → s2.level c u = s1.level c u)
    (hc : (s2.core c).cycle = (s1.core c).cycle) (hi : (s2.core c).imem = (s1.core c).imem)
    (hd : ∀ d : CoreId, d ≠ c → s2.core d = s1.core d) :
    AwlAfter s (s2.finish c v o w (s.core c).rep cost pc) c v o w l m cost (pc.getD ((m.pc + 1) % 32768)) := by
  obtain ⟨b1, b2, b3, b4, b5, b6, b7, b8, b9, b10⟩ := hb
  have hf : s2.finish c v o w (s.core c).rep cost pc = s2.updCore c fun x =>
    { x with cycle := x.cycle + BitVec.ofNat 40 cost, rep := if repLeft s c = 0 then none else some (repLeft s c),
             levels := x.levels.upd v fun l => { l.passed o w cost with pc := if decide (repLeft s c ≠ 0) then l.pc else pc.getD ((l.pc + 1) % 32768) } } := by
    unfold State.finish repLeft
    cases hr : (s.core c).rep with
    | none => rfl
    | some n =>
      dsimp only [Option.getD_some]
      by_cases h : n ≤ 1
      · have : n - 1 = 0 := by omega
        simp only [if_pos h, this, ne_eq, not_true_eq_false, decide_false, if_true]
      · have : n - 1 ≠ 0 := by omega
        simp only [if_neg h, if_neg this, decide_eq_true this]
  rw [hf]
  constructor
  · unfold State.level
    rw [core_updCore, if_pos rfl]
    dsimp only
    rw [Sparse.at_upd, if_pos rfl]
    have : (s2.core c).levels.at v = m := hm
    rw [this]
    by_cases h : repLeft s c = 0
    · simp [h]
    · simp [h, Level.passed]
  · rw [core_updCore, if_pos rfl]
  · rw [core_updCore, if_pos rfl]
    dsimp only
    rw [hc, b4, BitVec.ofNat_add, BitVec.add_assoc]
  · intro u hu
    unfold State.level
    rw [core_updCore, if_pos rfl]
    dsimp only
    rw [Sparse.at_upd, if_neg (Ne.symm hu)]
    exact (ho u hu).trans (b2 u hu)
  · rw [core_updCore, if_pos rfl]
    exact hi.trans b5
  · intro d hdc
    rw [core_updCore, if_neg (fun e => hdc (Fin.ext e.symm))]
    exact (hd d hdc).trans (b8 d hdc)

/-- An instruction whose whole effect is on its level. -/
theorem runLevel_after {s : State} {c : CoreId} {o : AwlOp} {v : Nat} {w : Word} {l : Level} (h : AwlRun s c o v w l)
    (f : Word → Level → Level) (hp : (f w l).pc = l.pc) :
    AwlAfter s (s.runLevel c o f) c v o w l (f w l) 1 l.nextPc := by
  unfold State.runLevel
  obtain ⟨s1, hb, he⟩ := runAwl_begin h (fun v w s => .next (s.updLevel c v (f w)) 1 none)
  rw [he]
  dsimp only
  have := awl_next (s := s) (s1 := s1) (s2 := s1.updLevel c v (f w)) (cost := 1) (pc := none) hb (m := f w l)
    (by rw [level_updLevel, if_pos rfl, hb.1]) (fun u hu => by rw [level_updLevel, if_neg (Ne.symm hu)])
    (by rw [core_updLevel]) (by rw [core_updLevel]) (fun d hd => core_updLevel_ne _ _ _ (fun e => hd (Fin.ext e.symm)))
  simpa [Level.nextPc, hp] using this

end Sys2Proof.Machine
end

