-- ==== Sys2Proof/Laws/Frame.lean ====
section
/-!
SUPPORT. How frames compose: `State.Only ps s t` is kept by every construct that an operation is written with.
-/
namespace Sys2Proof.Machine

/-- The number of a part. -/
def Part.bit : Part → Nat
  | .queue => 0 | .free => 1 | .outs => 2 | .log => 3 | .cells => 4 | .gatherings => 5 | .regions => 6 | .relay => 7
  | .fuist => 8 | .collator => 9 | .cores => 10 | .ring => 11 | .dram => 12 | .migration => 13 | .pads => 14
  | .flash => 15 | .loader => 16 | .bookmarks => 17 | .meter => 18 | .binding => 19 | .trust => 20 | .power => 21
  | .boot => 22 | .upkeep => 23 | .testPorts => 24 | .pcie => 25
  | .reg r => 32 + r.ctorIdx

theorem Part.bit_inj {p q : Part} (h : p.bit = q.bit) : p = q := by
  cases p <;> cases q <;>
    first | rfl | (simp only [Part.bit] at h; first | omega | (congr 1; apply RegId.ctorIdx_inj; omega))

/-- A list of parts as a number with one bit for each. -/
def maskOf (ps : List Part) : Nat := ps.foldr (fun p m => 2 ^ p.bit ||| m) 0

theorem testBit_maskOf (ps : List Part) (q : Part) : (maskOf ps).testBit q.bit = true ↔ q ∈ ps := by
  induction ps with
  | nil => simp [maskOf]
  | cons p ps ih =>
    simp only [maskOf, List.foldr_cons, Nat.testBit_or, Nat.testBit_two_pow, Bool.or_eq_true, decide_eq_true_eq,
      List.mem_cons] at ih ⊢
    rw [ih]
    exact or_congr_left ⟨fun h => Part.bit_inj h.symm, fun h => h ▸ rfl⟩

/-- Every part of the first list is in the second: a test on two numbers. -/
def sub (ps qs : List Part) : Bool := (maskOf ps ||| maskOf qs).beq (maskOf qs)

theorem mem_of_sub {ps qs : List Part} (h : sub ps qs = true) {p : Part} (hp : p ∈ ps) : p ∈ qs := by
  rw [← testBit_maskOf, ← Nat.eq_of_beq_eq_true h, Nat.testBit_or, (testBit_maskOf ps p).mpr hp, Bool.true_or]

theorem sub_of_mem {ps qs : List Part} (h : ∀ p ∈ ps, p ∈ qs) : sub ps qs = true := by
  induction ps with
  | nil => simp [sub, maskOf]
  | cons p ps ih =>
    have ih := Nat.eq_of_beq_eq_true (ih fun q hq => h q (List.mem_cons_of_mem _ hq))
    have hp := (testBit_maskOf qs p).mpr (h p List.mem_cons_self)
    refine (Nat.beq_eq ..).mpr ?_
    change 2 ^ p.bit ||| maskOf ps ||| maskOf qs = maskOf qs
    rw [Nat.lor_assoc, ih]
    refine Nat.eq_of_testBit_eq fun i => ?_
    rw [Nat.testBit_or, Nat.testBit_two_pow]
    by_cases hi : p.bit = i
    · subst hi; simp [hp]
    · simp [hi]

theorem sub_trans {ps qs rs : List Part} (h : sub ps qs = true) (k : sub qs rs = true) : sub ps rs = true :=
  sub_of_mem fun _ hp => mem_of_sub k (mem_of_sub h hp)

theorem sub_head {p : Part} {ps qs : List Part} (h : sub (p :: ps) qs = true) : sub [p] qs = true :=
  sub_of_mem fun q hq => mem_of_sub h (by simp_all)

theorem sub_tail {p : Part} {ps qs : List Part} (h : sub (p :: ps) qs = true) : sub ps qs = true :=
  sub_of_mem fun _ hq => mem_of_sub h (List.mem_cons_of_mem _ hq)

/-- Every register. -/
def allRegs : List Part := RegId.all.map .reg

/-- Parts, and every register. -/
def plusRegs (ns : List Part) : List Part := ns ++ allRegs

/-- One list after another. -/
def more (ps qs : List Part) : List Part := ps ++ qs

theorem mem_allRegs (r : RegId) : Part.reg r ∈ allRegs :=
  List.mem_map.mpr ⟨r, List.mem_of_getElem? (RegId.all_ctorIdx r), rfl⟩

/-- The part is a register. -/
def Part.isReg : Part → Bool
  | .reg _ => true
  | _ => false

/-- Among lists that end in every register only the other parts count. -/
theorem sub_regs {ps ns : List Part} (h : sub (ps.filter fun p => !p.isReg) ns = true) : sub ps (plusRegs ns) = true := by
  refine sub_of_mem fun p hp => ?_
  cases p
  case reg r => exact List.mem_append_right _ (mem_allRegs r)
  all_goals exact List.mem_append_left _ (mem_of_sub h (List.mem_filter.mpr ⟨hp, rfl⟩))

theorem sub_reg {ns : List Part} (r : RegId) : sub [.reg r] (plusRegs ns) = true := by
  refine sub_of_mem fun p hp => ?_
  rw [List.mem_singleton] at hp
  exact hp ▸ List.mem_append_right _ (mem_allRegs r)

theorem sub_reg_cons {ps ns : List Part} (r : RegId) (h : sub ps (plusRegs ns) = true) :
    sub (.reg r :: ps) (plusRegs ns) = true := by
  refine sub_of_mem fun p hp => ?_
  rcases List.mem_cons.mp hp with rfl | hp
  · exact List.mem_append_right _ (mem_allRegs r)
  · exact mem_of_sub h hp

theorem sub_regs' {ps ns : List Part} (h : sub ps ns = true) : sub (plusRegs ps) (plusRegs ns) = true := by
  refine sub_of_mem fun p hp => ?_
  rcases List.mem_append.mp hp with hp | hp
  · exact List.mem_append_left _ (mem_of_sub h hp)
  · exact List.mem_append_right _ hp

theorem Part.same_refl (p : Part) (s : State) : p.same s s := by cases p <;> simp [Part.same]

theorem Part.same_trans {p : Part} {s t u : State} (h : p.same s t) (k : p.same t u) : p.same s u := by
  cases p <;> simp_all [Part.same]

theorem State.Only.refl (ps : List Part) (s : State) : State.Only ps s s := ⟨fun p _ => p.same_refl s, id⟩

/-- A longer list says less, and one frame follows another. -/
theorem State.Only.step {ps qs : List Part} {z s t : State} (h : State.Only ps z s) (k : State.Only qs s t)
    (hm : sub qs ps = true) : State.Only ps z t :=
  ⟨fun p hp => Part.same_trans (h.same p hp) (k.same p fun hq => hp (mem_of_sub hm hq)), fun hf => k.form (h.form hf)⟩

theorem State.Only.mono {ps qs : List Part} {z t : State} (k : State.Only qs z t) (hm : sub qs ps = true) :
    State.Only ps z t := (State.Only.refl ps z).step k hm

theorem State.Only.mono' {ps qs : List Part} {z s t : State} (k : State.Only qs s t) (h : State.Only ps z s)
    (hm : sub qs ps = true) : State.Only ps z t := h.step k hm

/-- A local name for the state so far. -/
theorem State.Only.cut {ps : List Part} {z t : State} (x : State) (h : State.Only ps z x)
    (k : State.Only ps z x → State.Only ps z t) : State.Only ps z t := k h

theorem State.Only.ite_ {ps : List Part} {z a b : State} {c : Prop} [Decidable c] (ha : State.Only ps z a)
    (hb : State.Only ps z b) : State.Only ps z (if c then a else b) := by split <;> assumption

theorem State.Only.ite2 {α : Type} {ps : List Part} {z : State} {a b : α × State} {c : Prop} [Decidable c]
    (ha : State.Only ps z a.2) (hb : State.Only ps z b.2) : State.Only ps z (if c then a else b).2 := by split <;> assumption

theorem State.Only.snd {α : Type} {ps : List Part} {z y : State} {a : α} {e : α × State} (he : e = (a, y))
    (h : State.Only ps z e.2) : State.Only ps z y := by subst he; exact h

theorem State.Only.snd2 {α β : Type} {ps : List Part} {z y : State} {a : α} {b : β} {e : α × β × State}
    (he : e = (a, b, y)) (h : State.Only ps z e.2.2) : State.Only ps z y := by subst he; exact h

theorem State.Only.snd3 {α β γ : Type} {ps : List Part} {z y : State} {a : α} {b : β} {c : γ} {e : α × β × γ × State}
    (he : e = (a, b, c, y)) (h : State.Only ps z e.2.2.2) : State.Only ps z y := by subst he; exact h

theorem State.Only.foldl_ {α : Type} {ps : List Part} {z : State} {f : State → α → State} (l : List α)
    (hf : ∀ x a, State.Only ps z x → State.Only ps z (f x a)) : ∀ {s : State}, State.Only ps z s →
      State.Only ps z (l.foldl f s) := by
  induction l with
  | nil => exact fun h => h
  | cons a l ih => exact fun h => ih (hf _ a h)

theorem State.Only.foldl2 {α β : Type} {ps : List Part} {z : State} {f : β × State → α → β × State} (l : List α)
    (hf : ∀ x a, State.Only ps z x.2 → State.Only ps z (f x a).2) : ∀ {s : β × State}, State.Only ps z s.2 →
      State.Only ps z (l.foldl f s).2 := by
  induction l with
  | nil => exact fun h => h
  | cons a l ih => exact fun h => ih (hf _ a h)

theorem State.Only.foldl3 {α β γ : Type} {ps : List Part} {z : State} {f : β × γ × State → α → β × γ × State} (l : List α)
    (hf : ∀ x a, State.Only ps z x.2.2 → State.Only ps z (f x a).2.2) : ∀ {s : β × γ × State}, State.Only ps z s.2.2 →
      State.Only ps z (l.foldl f s).2.2 := by
  induction l with
  | nil => exact fun h => h
  | cons a l ih => exact fun h => ih (hf _ a h)

theorem State.Only.foldl4 {α β γ δ : Type} {ps : List Part} {z : State} {f : β × γ × δ × State → α → β × γ × δ × State}
    (l : List α) (hf : ∀ x a, State.Only ps z x.2.2.2 → State.Only ps z (f x a).2.2.2) :
    ∀ {s : β × γ × δ × State}, State.Only ps z s.2.2.2 → State.Only ps z (l.foldl f s).2.2.2 := by
  induction l with
  | nil => exact fun h => h
  | cons a l ih => exact fun h => ih (hf _ a h)

theorem State.Only.ite3 {α β : Type} {ps : List Part} {z : State} {a b : α × β × State} {c : Prop} [Decidable c]
    (ha : State.Only ps z a.2.2) (hb : State.Only ps z b.2.2) : State.Only ps z (if c then a else b).2.2 := by
  split <;> assumption

theorem State.Only.ite4 {α β γ : Type} {ps : List Part} {z : State} {a b : α × β × γ × State} {c : Prop} [Decidable c]
    (ha : State.Only ps z a.2.2.2) (hb : State.Only ps z b.2.2.2) : State.Only ps z (if c then a else b).2.2.2 := by
  split <;> assumption

/-- The frame of an outcome. -/
def OnlyR (ps : List Part) (z : State) (r : Result) : Prop := ∀ t, r = .next t → State.Only ps z t

theorem OnlyR.next {ps : List Part} {z t : State} (h : State.Only ps z t) : OnlyR ps z (.next t) := by
  rintro _ ⟨⟩; exact h

theorem OnlyR.fault {ps : List Part} {z : State} {r : Fault} : OnlyR ps z (.fault r) := by rintro _ ⟨⟩

theorem OnlyR.cut {ps : List Part} {z : State} {r : Result} (x : State) (h : State.Only ps z x)
    (k : State.Only ps z x → OnlyR ps z r) : OnlyR ps z r := k h

theorem OnlyR.ite_ {ps : List Part} {z : State} {a b : Result} {c : Prop} [Decidable c] (ha : OnlyR ps z a)
    (hb : OnlyR ps z b) : OnlyR ps z (if c then a else b) := by split <;> assumption

/-! ### The primitive updates -/

theorem canonical_eq {s t : State} (h1 : t.regs = s.regs) (h2 : t.log = s.log) (h3 : t.dram = s.dram) :
    s.canonical = true → t.canonical = true := by simp [State.canonical, h1, h2, h3]

theorem only_setReg {ps : List Part} {z s : State} (h : State.Only ps z s) (r : RegId) (i : Nat) (v : BitVec 64)
    (hm : sub [.reg r] ps = true) : State.Only ps z (s.setReg r i v) := by
  refine h.step (qs := [.reg r]) ⟨?_, ?_⟩ hm
  · intro p hp
    cases p <;> simp_all [Part.same, State.setReg]
    next q =>
      intro j
      have := State.reg_setReg s r q i j v
      simp only [State.setReg] at this
      rw [this, if_neg]
      rintro ⟨rfl, _⟩; exact hp rfl
  · intro hc
    simp only [State.canonical, State.setReg, Bool.and_eq_true] at hc ⊢
    exact ⟨⟨Sparse.wf_set _ _ _ _ hc.1.1, hc.1.2⟩, hc.2⟩

theorem only_putF {w : Nat} {ps : List Part} {z s : State} (h : State.Only ps z s) (f : Field w) (i : Nat) (v : BitVec w)
    (hm : sub [.reg f.reg] ps = true) : State.Only ps z (s.putF f i v) := only_setReg h _ _ _ hm

theorem only_putN {w : Nat} {ps : List Part} {z s : State} (h : State.Only ps z s) (f : Field w) (i v : Nat)
    (hm : sub [.reg f.reg] ps = true) : State.Only ps z (s.putN f i v) := only_setReg h _ _ _ hm

theorem only_setF {ps : List Part} {z s : State} (h : State.Only ps z s) (f : Field 1) (i : Nat)
    (hm : sub [.reg f.reg] ps = true) : State.Only ps z (s.setF f i) := only_setReg h _ _ _ hm

theorem only_clrF {ps : List Part} {z s : State} (h : State.Only ps z s) (f : Field 1) (i : Nat)
    (hm : sub [.reg f.reg] ps = true) : State.Only ps z (s.clrF f i) := only_setReg h _ _ _ hm

theorem only_addF {w : Nat} {ps : List Part} {z s : State} (h : State.Only ps z s) (f : Field w) (i n : Nat)
    (hm : sub [.reg f.reg] ps = true) : State.Only ps z (s.addF f i n) := only_setReg h _ _ _ hm

theorem only_clearW1c {ps : List Part} {z s : State} (h : State.Only ps z s) (r : RegId) (i : Nat) (v : BitVec 64)
    (hm : sub [.reg r] ps = true) : State.Only ps z (s.clearW1c r i v) := only_setReg h _ _ _ hm

theorem only_clearRc {ps : List Part} {z s : State} (h : State.Only ps z s) (r : RegId) (i : Nat)
    (hm : sub [.reg r] ps = true) : State.Only ps z (s.clearRc r i) := only_setReg h _ _ _ hm

theorem only_storeRw {ps : List Part} {z s : State} (h : State.Only ps z s) (r : RegId) (i : Nat) (v : BitVec 64)
    (hm : sub [.reg r] ps = true) : State.Only ps z (s.storeRw r i v) := only_setReg h _ _ _ hm


/-! ### One field of the record -/

theorem only_free {ps : List Part} {z x : State} (h : State.Only ps z x) (v : Nat) (hm : sub [.free] ps = true) :
    State.Only ps z { x with free := v } := by
  refine h.step (qs := [.free]) ⟨fun p hp => ?_, canonical_eq rfl rfl rfl⟩ hm
  cases p <;> first | exact absurd (List.mem_singleton.mpr rfl) hp | simp [Part.same, State.reg]

theorem only_outs {ps : List Part} {z x : State} (h : State.Only ps z x) (v : List Out) (hm : sub [.outs] ps = true) :
    State.Only ps z { x with outs := v } := by
  refine h.step (qs := [.outs]) ⟨fun p hp => ?_, canonical_eq rfl rfl rfl⟩ hm
  cases p <;> first | exact absurd (List.mem_singleton.mpr rfl) hp | simp [Part.same, State.reg]

theorem only_fst {ps : List Part} {z x : State} (h : State.Only ps z x) (v : FuistState) (hm : sub [.fuist] ps = true) :
    State.Only ps z { x with fst := v } := by
  refine h.step (qs := [.fuist]) ⟨fun p hp => ?_, canonical_eq rfl rfl rfl⟩ hm
  cases p <;> first | exact absurd (List.mem_singleton.mpr rfl) hp | simp [Part.same, State.reg]

theorem only_col {ps : List Part} {z x : State} (h : State.Only ps z x) (v : CollState) (hm : sub [.collator] ps = true) :
    State.Only ps z { x with col := v } := by
  refine h.step (qs := [.collator]) ⟨fun p hp => ?_, canonical_eq rfl rfl rfl⟩ hm
  cases p <;> first | exact absurd (List.mem_singleton.mpr rfl) hp | simp [Part.same, State.reg]

theorem only_awl {ps : List Part} {z x : State} (h : State.Only ps z x) (v : Sparse AwlCore) (hm : sub [.cores] ps = true) :
    State.Only ps z { x with awl := v } := by
  refine h.step (qs := [.cores]) ⟨fun p hp => ?_, canonical_eq rfl rfl rfl⟩ hm
  cases p <;> first | exact absurd (List.mem_singleton.mpr rfl) hp | simp [Part.same, State.reg]

theorem only_ring {ps : List Part} {z x : State} (h : State.Only ps z x) (v : RingState) (hm : sub [.ring] ps = true) :
    State.Only ps z { x with ring := v } := by
  refine h.step (qs := [.ring]) ⟨fun p hp => ?_, canonical_eq rfl rfl rfl⟩ hm
  cases p <;> first | exact absurd (List.mem_singleton.mpr rfl) hp | simp [Part.same, State.reg]

theorem only_migrating {ps : List Part} {z x : State} (h : State.Only ps z x) (v : Option Nat) (hm : sub [.migration] ps = true) :
    State.Only ps z { x with migrating := v } := by
  refine h.step (qs := [.migration]) ⟨fun p hp => ?_, canonical_eq rfl rfl rfl⟩ hm
  cases p <;> first | exact absurd (List.mem_singleton.mpr rfl) hp | simp [Part.same, State.reg]

theorem only_migLine {ps : List Part} {z x : State} (h : State.Only ps z x) (v : Nat) (hm : sub [.migration] ps = true) :
    State.Only ps z { x with migLine := v } := by
  refine h.step (qs := [.migration]) ⟨fun p hp => ?_, canonical_eq rfl rfl rfl⟩ hm
  cases p <;> first | exact absurd (List.mem_singleton.mpr rfl) hp | simp [Part.same, State.reg]

theorem only_retrainNext {ps : List Part} {z x : State} (h : State.Only ps z x) (v : Nat) (hm : sub [.migration] ps = true) :
    State.Only ps z { x with retrainNext := v } := by
  refine h.step (qs := [.migration]) ⟨fun p hp => ?_, canonical_eq rfl rfl rfl⟩ hm
  cases p <;> first | exact absurd (List.mem_singleton.mpr rfl) hp | simp [Part.same, State.reg]

theorem only_log {ps : List Part} {z x : State} (h : State.Only ps z x) (w : Nat) (e : BitVec 128) (n : Nat)
    (hm : sub [.log] ps = true) : State.Only ps z { x with log := x.log.put w e, logSince := n } := by
  refine h.step (qs := [.log]) ⟨fun p hp => ?_, fun hc => ?_⟩ hm
  · cases p <;> first | exact absurd (List.mem_singleton.mpr rfl) hp | simp [Part.same, State.reg]
  · simp only [State.canonical, Bool.and_eq_true] at hc ⊢
    exact ⟨⟨hc.1.1, Sparse.wf_set _ _ _ _ hc.1.2⟩, hc.2⟩

theorem only_sys {ps : List Part} {z x : State} (h : State.Only ps z x) (v : SysState)
    (hv : ∀ p, p ∉ ps → p.same x { x with sys := v }) : State.Only ps z { x with sys := v } :=
  ⟨fun p hp => Part.same_trans (h.same p hp) (hv p hp), fun hf => h.form hf⟩

/-- Any fields but the queue, the registers, the log and DRAM. -/
theorem only_any {ps : List Part} {z x : State} (h : State.Only ps z x) (free : Nat) (outs : List Out) (arr : ArrayState)
    (fst : FuistState) (col : CollState) (awl : Sparse AwlCore) (ring : RingState) (sys : SysState)
    (migrating : Option Nat) (migLine retrainNext : Nat)
    (hv : ∀ p, p ∉ ps → p.same x { x with free, outs, arr, fst, col, awl, ring, sys, migrating, migLine, retrainNext }) :
    State.Only ps z { x with free, outs, arr, fst, col, awl, ring, sys, migrating, migLine, retrainNext } :=
  ⟨fun p hp => Part.same_trans (h.same p hp) (hv p hp), fun hf => h.form hf⟩

theorem only_arr {ps : List Part} {z x : State} (h : State.Only ps z x) (v : ArrayState)
    (hv : ∀ p, p ∉ ps → p.same x { x with arr := v }) : State.Only ps z { x with arr := v } :=
  ⟨fun p hp => Part.same_trans (h.same p hp) (hv p hp), fun hf => h.form hf⟩

theorem only_onSys {ps : List Part} {z x : State} (h : State.Only ps z x) (f : SysState → SysState)
    (hv : ∀ p, p ∉ ps → ∀ x : State, p.same x (x.onSys f)) : State.Only ps z (x.onSys f) :=
  only_sys h (f x.sys) fun p hp => hv p hp x

theorem only_onArr {ps : List Part} {z x : State} (h : State.Only ps z x) (f : ArrayState → ArrayState)
    (hv : ∀ p, p ∉ ps → ∀ x : State, p.same x (x.onArr f)) : State.Only ps z (x.onArr f) :=
  only_arr h (f x.arr) fun p hp => hv p hp x

/-- All registers at once. -/
theorem only_regs {ps : List Part} {z x : State} (h : State.Only ps z x) (v : Sparse (BitVec 64))
    (hw : x.regs.wf regDefault = true → v.wf regDefault = true) (hp : ∀ r, Part.reg r ∈ ps) :
    State.Only ps z { x with regs := v } := by
  refine ⟨fun p hq => Part.same_trans (h.same p hq) ?_, fun hf => ?_⟩
  · cases p <;> first | exact absurd (hp _) hq | simp [Part.same]
  · have := h.form hf
    simp only [State.canonical, Bool.and_eq_true] at this ⊢
    exact ⟨⟨hw this.1.1, this.1.2⟩, this.2⟩

end Sys2Proof.Machine
end

