-- ==== Sys2Proof/Laws/FrameArray.lean ====
section
/-!
SUPPORT. The frames of the operations of cells, folios, presses and commits. Each says which parts of the state an operation may change.
-/
namespace Sys2Proof.Machine

variable {ps : List Part} {z s : State}

/-! ### Ops -/

theorem draw_only (w : Nat) (hO : State.Only ps z s) (hM : sub [.free] ps = true) :
    State.Only ps z (State.draw s w).2 := by
  refine hO.step ?_ hM
  unfold State.draw
  repeat' first
    | with_reducible first | assumption | exact State.Only.refl _ _
    | (show sub _ _ = true; decide)
    | with_reducible apply only_free

theorem emit_only (o : Out) (hO : State.Only ps z s) (hM : sub [.outs] ps = true) :
    State.Only ps z (State.emit s o) := by
  refine hO.step ?_ hM
  unfold State.emit
  repeat' first
    | with_reducible first | assumption | exact State.Only.refl _ _
    | (show sub _ _ = true; decide)
    | with_reducible apply only_outs

theorem signal_only (fn vec : Nat) (hO : State.Only ps z s) (hM : sub [.outs, .reg .hubMsixPba] ps = true) :
    State.Only ps z (State.signal s fn vec) := by
  refine hO.step ?_ hM
  unfold State.signal
  repeat' first
    | with_reducible first | assumption | exact State.Only.refl _ _ | apply only_setReg | apply emit_only | apply State.Only.ite_
    | (show sub _ _ = true; decide)

theorem signalOwner_only (fn : Nat) (hO : State.Only ps z s) (hM : sub [.outs, .reg .hubMsixPba] ps = true) :
    State.Only ps z (State.signalOwner s fn) := by
  refine hO.step ?_ hM
  unfold State.signalOwner
  repeat' first
    | with_reducible first | assumption | exact State.Only.refl _ _ | apply signal_only
    | (show sub _ _ = true; decide)

theorem mapItems_only (f : Item → Item) (hO : State.Only ps z s) (hM : sub [.collator] ps = true) :
    State.Only ps z (State.mapItems s f) := by
  refine hO.step ?_ hM
  unfold State.mapItems
  repeat' first
    | with_reducible first | assumption | exact State.Only.refl _ _
    | (show sub _ _ = true; decide)
    | with_reducible apply only_col

theorem updItem_only (id : Nat) (f : Item → Item) (hO : State.Only ps z s) (hM : sub [.collator] ps = true) :
    State.Only ps z (State.updItem s id f) := by
  refine hO.step ?_ hM
  unfold State.updItem
  repeat' first
    | with_reducible first | assumption | exact State.Only.refl _ _ | apply mapItems_only | (rw [id_eq]; assumption) | apply State.Only.ite_
    | (show sub _ _ = true; decide)

theorem dropItem_only (id : Nat) (hO : State.Only ps z s) (hM : sub [.collator] ps = true) :
    State.Only ps z (State.dropItem s id) := by
  refine hO.step ?_ hM
  unfold State.dropItem
  repeat' first
    | with_reducible first | assumption | exact State.Only.refl _ _ | (rw [id_eq]; assumption)
    | (show sub _ _ = true; decide)
    | with_reducible apply only_col

theorem refreshReady_only (hO : State.Only ps z s) (hM : sub [.collator] ps = true) :
    State.Only ps z (State.refreshReady s) := by
  refine hO.step ?_ hM
  unfold State.refreshReady
  repeat' first
    | with_reducible first | assumption | exact State.Only.refl _ _ | (rw [id_eq]; assumption) | apply State.Only.foldl_ | apply State.Only.foldl2 | apply State.Only.foldl3
    | (show sub _ _ = true; decide)
    | (intro _ _ hx)
    | (extract_lets +onlyGivenNames y; with_reducible refine State.Only.cut y ?_ ?_ <;> [dsimp only [y]; (clear_value y; intro hy)])
    | (extract_lets +onlyGivenNames y; clear_value y)
    | split
    | with_reducible first | refine State.Only.snd (by assumption) ?_ | refine State.Only.snd2 (by assumption) ?_ | refine State.Only.snd3 (by assumption) ?_
    | with_reducible apply only_col

theorem refreshStream_only (st : Nat) (hO : State.Only ps z s) (hM : sub [.reg .colStrStat] ps = true) :
    State.Only ps z (State.refreshStream s st) := by
  refine hO.step ?_ hM
  unfold State.refreshStream
  repeat' first
    | with_reducible first | assumption | exact State.Only.refl _ _ | apply only_putN | apply State.Only.ite_
    | (show sub _ _ = true; decide)

theorem settle_only (hO : State.Only ps z s) (hM : sub [.collator, .reg .colStrStat] ps = true) :
    State.Only ps z (State.settle s) := by
  refine hO.step ?_ hM
  unfold State.settle
  repeat' first
    | with_reducible first | assumption | exact State.Only.refl _ _ | apply refreshStream_only | apply refreshReady_only | apply State.Only.foldl_ | apply State.Only.foldl2 | apply State.Only.foldl3
    | (show sub _ _ = true; decide)
    | (intro _ _ hx)

theorem raise_only (m : Nat) (hO : State.Only ps z s) (hM : sub [.collator, .reg .colEv] ps = true) :
    State.Only ps z (State.raise s m) := by
  refine hO.step ?_ hM
  unfold State.raise
  repeat' first
    | with_reducible first | assumption | exact State.Only.refl _ _ | apply only_addF | apply updItem_only | apply refreshReady_only | apply only_setF | (rw [id_eq]; assumption) | apply State.Only.ite_
    | (show sub _ _ = true; decide)
    | (extract_lets +onlyGivenNames y; with_reducible refine State.Only.cut y ?_ ?_ <;> [dsimp only [y]; (clear_value y; intro hy)])
    | (extract_lets +onlyGivenNames y; clear_value y)
    | split
    | with_reducible first | refine State.Only.snd (by assumption) ?_ | refine State.Only.snd2 (by assumption) ?_ | refine State.Only.snd3 (by assumption) ?_
    | with_reducible apply only_col

theorem logEntry_only (src code arg : Nat) (hO : State.Only ps z s) (hM : sub [.log, .collator, .reg .colEv, .reg .logCtl] ps = true) :
    State.Only ps z (State.logEntry s src code arg) := by
  refine hO.step ?_ hM
  unfold State.logEntry
  repeat' first
    | with_reducible first | assumption | exact State.Only.refl _ _ | apply only_addF | apply only_putN | apply only_setF | apply raise_only | apply State.Only.ite_ | apply only_log
    | (show sub _ _ = true; decide)

theorem logOther_only (r : RegId) (i : Nat) (hO : State.Only ps z s) (hM : sub [.log, .collator, .reg .colEv, .reg .logCtl] ps = true) :
    State.Only ps z (State.logOther s r i) := by
  refine hO.step ?_ hM
  unfold State.logOther
  repeat' first
    | with_reducible first | assumption | exact State.Only.refl _ _ | apply logEntry_only
    | (show sub _ _ = true; decide)

theorem logRefused_only (fn : Nat) (off : Nat) (hO : State.Only ps z s) (hM : sub [.log, .collator, .reg .colEv, .reg .logCtl] ps = true) :
    State.Only ps z (State.logRefused s fn off) := by
  refine hO.step ?_ hM
  unfold State.logRefused
  repeat' first
    | with_reducible first | assumption | exact State.Only.refl _ _ | apply logEntry_only
    | (show sub _ _ = true; decide)

theorem writeReg_only (fn : Nat) (r : RegId) (i : Nat) (v : BitVec 64) (refused : Bool)
    {rej act : State → State} (h : State.Only ps z s)
    (hm : sub [.reg r, .log, .collator, .reg .colEv, .reg .logCtl] ps = true)
    (hr : ∀ x, State.Only ps z x → State.Only ps z (rej x)) (ha : ∀ x, State.Only ps z x → State.Only ps z (act x)) :
    State.Only ps z (s.writeReg fn r i v refused rej act) := by
  have h1 : State.Only ps z (s.clearW1c r i v) :=
    h.step (only_clearW1c (.refl [.reg r] s) r i v (sub_of_mem fun _ h => h)) (sub_head hm)
  have h2 : ∀ x, State.Only ps z x → State.Only ps z (x.storeRw r i v) := fun x hx =>
    hx.step (only_storeRw (.refl [.reg r] x) r i v (sub_of_mem fun _ h => h)) (sub_head hm)
  have h3 : sub [.log, .collator, .reg .colEv, .reg .logCtl] ps = true :=
    sub_tail hm
  unfold State.writeReg
  split
  · exact h1
  · split
    · exact hr _ (logRefused_only fn _ h1 h3)
    · exact ha _ (h2 _ h1)

theorem bar_only (r : RegId) (i : Nat) {f : State → State} (h : State.Only ps z s)
    (hf : ∀ x, State.Only ps z x → State.Only ps z (f x)) : State.Only ps z (s.bar r i f) := by
  unfold State.bar
  split
  · exact hf _ h
  · exact h

theorem barRead_only (fn : Nat) (r : RegId) (i : Nat) {f : State → State}
    (h : State.Only ps z s) (hm : sub [.outs] ps = true) (hf : ∀ x, State.Only ps z x → State.Only ps z (f x)) :
    State.Only ps z (s.barRead fn r i f) := by
  unfold State.barRead
  split
  · exact hf _ h
  · split
    · exact emit_only _ h hm
    · exact h

theorem ignored_only (fn : Nat) (r : RegId) (i : Nat) (hO : State.Only ps z s) (hM : sub [.log, .collator, .reg .colEv, .reg .logCtl] ps = true) :
    State.Only ps z (State.ignored s fn r i) := by
  refine hO.step ?_ hM
  unfold State.ignored
  repeat' first
    | with_reducible first | assumption | exact State.Only.refl _ _ | apply logRefused_only
    | (show sub _ _ = true; decide)

/-! ### Operands -/

theorem setCell_only (key : Nat) (c : Cell) (hO : State.Only ps z s) (hM : sub [.cells] ps = true) :
    State.Only ps z (State.setCell s key c) := by
  refine hO.step ?_ hM
  unfold State.setCell
  repeat' first
    | with_reducible first | assumption | exact State.Only.refl _ _
    | (show sub _ _ = true; decide)
    | (extract_lets +onlyGivenNames y; have _h : ArrayState := y; clear _h; dsimp only [y]; clear y)
    | with_reducible refine only_arr ?_ _ (fun p hp => by cases p <;> first | exact absurd (by decide) hp | simp [Part.same, State.reg])

theorem updCell_only (key : Nat) (f : Cell → Cell) (hO : State.Only ps z s) (hM : sub [.cells] ps = true) :
    State.Only ps z (State.updCell s key f) := by
  refine hO.step ?_ hM
  unfold State.updCell
  repeat' first
    | with_reducible first | assumption | exact State.Only.refl _ _ | apply setCell_only
    | (show sub _ _ = true; decide)

theorem setGth_only (g : Nat) (x : Gth) (hO : State.Only ps z s) (hM : sub [.gatherings] ps = true) :
    State.Only ps z (State.setGth s g x) := by
  refine hO.step ?_ hM
  unfold State.setGth
  repeat' first
    | with_reducible first | assumption | exact State.Only.refl _ _
    | (show sub _ _ = true; decide)
    | (extract_lets +onlyGivenNames y; have _h : ArrayState := y; clear _h; dsimp only [y]; clear y)
    | with_reducible refine only_arr ?_ _ (fun p hp => by cases p <;> first | exact absurd (by decide) hp | simp [Part.same, State.reg])

theorem updGth_only (g : Nat) (f : Gth → Gth) (hO : State.Only ps z s) (hM : sub [.gatherings] ps = true) :
    State.Only ps z (State.updGth s g f) := by
  refine hO.step ?_ hM
  unfold State.updGth
  repeat' first
    | with_reducible first | assumption | exact State.Only.refl _ _ | apply setGth_only
    | (show sub _ _ = true; decide)

theorem setRegion_only (r : Nat) (x : Region) (hO : State.Only ps z s) (hM : sub [.regions] ps = true) :
    State.Only ps z (State.setRegion s r x) := by
  refine hO.step ?_ hM
  unfold State.setRegion
  repeat' first
    | with_reducible first | assumption | exact State.Only.refl _ _
    | (show sub _ _ = true; decide)
    | (extract_lets +onlyGivenNames y; have _h : ArrayState := y; clear _h; dsimp only [y]; clear y)
    | with_reducible refine only_arr ?_ _ (fun p hp => by cases p <;> first | exact absurd (by decide) hp | simp [Part.same, State.reg])

theorem updRegion_only (r : Nat) (f : Region → Region) (hO : State.Only ps z s) (hM : sub [.regions] ps = true) :
    State.Only ps z (State.updRegion s r f) := by
  refine hO.step ?_ hM
  unfold State.updRegion
  repeat' first
    | with_reducible first | assumption | exact State.Only.refl _ _ | apply setRegion_only
    | (show sub _ _ = true; decide)

theorem recordFail_only (r n : Nat) (f : Fail) (hO : State.Only ps z s) (hM : sub [.reg .qctFault] ps = true) :
    State.Only ps z (State.recordFail s r n f) := by
  refine hO.step ?_ hM
  unfold State.recordFail
  repeat' first
    | with_reducible first | assumption | exact State.Only.refl _ _ | apply only_putN
    | (show sub _ _ = true; decide)

theorem chargeTo_only (r quire cause gth : Nat) (hO : State.Only ps z s) (hM : sub [.regions, .reg .qctFault] ps = true) :
    State.Only ps z (State.chargeTo s r quire cause gth) := by
  refine hO.step ?_ hM
  unfold State.chargeTo
  repeat' first
    | with_reducible first | assumption | exact State.Only.refl _ _ | apply updRegion_only | apply recordFail_only | apply State.Only.ite_
    | (show sub _ _ = true; decide)

theorem charge_only (r cause gth : Nat) (hO : State.Only ps z s) (hM : sub [.regions, .reg .qctFault] ps = true) :
    State.Only ps z (State.charge s r cause gth) := by
  refine hO.step ?_ hM
  unfold State.charge
  repeat' first
    | with_reducible first | assumption | exact State.Only.refl _ _ | apply chargeTo_only
    | (show sub _ _ = true; decide)

theorem chargeIf_only (bad : Bool) (r cause gth : Nat) (hO : State.Only ps z s) (hM : sub [.regions, .reg .qctFault] ps = true) :
    State.Only ps z (State.chargeIf s bad r cause gth) := by
  refine hO.step ?_ hM
  unfold State.chargeIf
  repeat' first
    | with_reducible first | assumption | exact State.Only.refl _ _ | apply charge_only | apply State.Only.ite_
    | (show sub _ _ = true; decide)

theorem drawWord_only (hO : State.Only ps z s) (hM : sub [.free] ps = true) :
    State.Only ps z (State.drawWord s).2 := by
  refine hO.step ?_ hM
  unfold State.drawWord
  repeat' first
    | with_reducible first | assumption | exact State.Only.refl _ _ | apply draw_only
    | (show sub _ _ = true; decide)
    | with_reducible first | refine State.Only.snd (by assumption) ?_ | refine State.Only.snd2 (by assumption) ?_ | refine State.Only.snd3 (by assumption) ?_

theorem defined_only (t : Nat) (w : RWord) (at_ : Nat) (hO : State.Only ps z s) (hM : sub [.free] ps = true) :
    State.Only ps z (State.defined s t w at_).2 := by
  refine hO.step ?_ hM
  unfold State.defined
  repeat' first
    | with_reducible first | assumption | exact State.Only.refl _ _ | apply drawWord_only | apply State.Only.ite_ | apply State.Only.ite2
    | (show sub _ _ = true; decide)

theorem regWord_only (key term t : Nat) (hO : State.Only ps z s) (hM : sub [.free, .cells] ps = true) :
    State.Only ps z (State.regWord s key term t).2 := by
  refine hO.step ?_ hM
  unfold State.regWord
  repeat' first
    | with_reducible first | assumption | exact State.Only.refl _ _ | apply drawWord_only | apply updCell_only | apply State.Only.ite_ | apply State.Only.ite2
    | (show sub _ _ = true; decide)
    | (extract_lets +onlyGivenNames y; with_reducible refine State.Only.cut y ?_ ?_ <;> [dsimp only [y]; (clear_value y; intro hy)])
    | (extract_lets +onlyGivenNames y; clear_value y)
    | split
    | with_reducible first | refine State.Only.snd (by assumption) ?_ | refine State.Only.snd2 (by assumption) ?_ | refine State.Only.snd3 (by assumption) ?_

theorem tapWord_only (r key t i : Nat) (hO : State.Only ps z s) (hM : sub [.regions, .reg .qctFault] ps = true) :
    State.Only ps z (State.tapWord s r key t i).2 := by
  refine hO.step ?_ hM
  unfold State.tapWord
  repeat' first
    | with_reducible first | assumption | exact State.Only.refl _ _ | apply chargeIf_only
    | (show sub _ _ = true; decide)

theorem liveWord_only {ps : List Part} (r k t : Nat) (hm : sub [.free, .cells, .regions, .reg .qctFault] ps = true) : ∀ (fuel key term : Nat) {z s : State},
    State.Only ps z s → State.Only ps z (s.liveWord r k t fuel key term).2
  | 0, _, _, _, _, h => h
  | fuel + 1, key, term, z, s, h => by
    unfold State.liveWord
    refine h.step ?_ hm
    have ih := fun m => liveWord_only r k t (by decide) fuel m (ps := [.free, .cells, .regions, .reg .qctFault])
    repeat' first
      | with_reducible first | assumption | exact State.Only.refl _ _ | apply ih | apply regWord_only | apply tapWord_only | apply defined_only | apply State.Only.ite2
      | (show sub _ _ = true; decide)
      | (extract_lets +onlyGivenNames y; clear_value y)
      | split
      | with_reducible refine State.Only.snd (by assumption) ?_

theorem captureTerm_only (r t d term : Nat) (ok : Bool) (w : RWord) (hO : State.Only ps z s) (hM : sub [.free, .cells, .regions, .reg .qctFault] ps = true) :
    State.Only ps z (State.captureTerm s r t d term ok w) := by
  refine hO.step ?_ hM
  unfold State.captureTerm
  repeat' first
    | with_reducible first | assumption | exact State.Only.refl _ _ | apply drawWord_only | apply chargeIf_only | apply updCell_only | apply State.Only.ite_ | apply State.Only.ite2
    | (show sub _ _ = true; decide)
    | with_reducible first | refine State.Only.snd (by assumption) ?_ | refine State.Only.snd2 (by assumption) ?_ | refine State.Only.snd3 (by assumption) ?_

theorem driveWord_only {ps : List Part} (r k t : Nat) (hm : sub [.free, .cells, .regions, .reg .qctFault] ps = true) : ∀ (fuel : Nat) {z s : State}
    (key seg : Nat) (p : List Path) (w : RWord), State.Only ps z s → State.Only ps z (State.driveWord r k t fuel s key seg p w)
  | 0, z, s, key, seg, p, w, h => by
    unfold State.driveWord
    split
    · exact h
    · exact captureTerm_only _ _ _ _ _ _ h hm
  | fuel + 1, z, s, key, seg, p, w, h => by
    unfold State.driveWord
    refine h.step ?_ hm
    have ih := @driveWord_only [.free, .cells, .regions, .reg .qctFault] r k t (by decide) fuel
    repeat' first
      | with_reducible first | assumption | exact State.Only.refl _ _ | apply ih | apply captureTerm_only | apply updCell_only | apply State.Only.ite_ | apply State.Only.foldl_
      | (show sub _ _ = true; decide)
      | (intro _ _ hx; beta_reduce)
      | (extract_lets +onlyGivenNames y; refine State.Only.cut y ?_ ?_ <;> [dsimp only [y]; (clear_value y; intro hy)])
      | (extract_lets +onlyGivenNames y; clear_value y)
      | split

theorem inputWord_only (x : CellAt) (i : Nat) (hO : State.Only ps z s) (hM : sub [.free, .cells, .regions, .reg .qctFault] ps = true) :
    State.Only ps z (State.inputWord s x i).2 := by
  refine hO.step ?_ hM
  unfold State.inputWord
  repeat' first
    | with_reducible first | assumption | exact State.Only.refl _ _ | apply regWord_only | apply liveWord_only | apply drawWord_only | apply chargeIf_only | apply State.Only.ite_ | apply State.Only.ite2
    | (show sub _ _ = true; decide)
    | (extract_lets +onlyGivenNames y; with_reducible refine State.Only.cut y ?_ ?_ <;> [dsimp only [y]; (clear_value y; intro hy)])
    | (extract_lets +onlyGivenNames y; clear_value y)
    | split
    | with_reducible refine State.Only.snd (by assumption) ?_

theorem source_only (x : CellAt) (code : Nat) (hO : State.Only ps z s) (hM : sub [.free, .cells, .regions, .reg .qctFault] ps = true) :
    State.Only ps z (State.source s x code).2 := by
  refine hO.step ?_ hM
  unfold State.source
  repeat' first
    | with_reducible first | assumption | exact State.Only.refl _ _ | apply chargeIf_only | apply defined_only | apply inputWord_only | apply State.Only.ite_ | apply State.Only.ite2
    | (show sub _ _ = true; decide)
    | with_reducible first | refine State.Only.snd (by assumption) ?_ | refine State.Only.snd2 (by assumption) ?_ | refine State.Only.snd3 (by assumption) ?_

theorem chainCarry_only (x : CellAt) (hO : State.Only ps z s) (hM : sub [.free] ps = true) :
    State.Only ps z (State.chainCarry s x).2 := by
  refine hO.step ?_ hM
  unfold State.chainCarry
  repeat' first
    | with_reducible first | assumption | exact State.Only.refl _ _ | apply draw_only | apply State.Only.ite_ | apply State.Only.ite2
    | (show sub _ _ = true; decide)
    | with_reducible first | refine State.Only.snd (by assumption) ?_ | refine State.Only.snd2 (by assumption) ?_ | refine State.Only.snd3 (by assumption) ?_

theorem carryIn_only (x : CellAt) (hO : State.Only ps z s) (hM : sub [.free, .regions, .reg .qctFault] ps = true) :
    State.Only ps z (State.carryIn s x).2.2.2 := by
  refine hO.step ?_ hM
  unfold State.carryIn
  repeat' first
    | with_reducible first | assumption | exact State.Only.refl _ _ | apply chainCarry_only | apply chargeIf_only
    | (show sub _ _ = true; decide)
    | (extract_lets +onlyGivenNames y; with_reducible refine State.Only.cut y ?_ ?_ <;> [dsimp only [y]; (clear_value y; intro hy)])
    | (extract_lets +onlyGivenNames y; clear_value y)
    | split
    | with_reducible first | refine State.Only.snd (by assumption) ?_ | refine State.Only.snd2 (by assumption) ?_ | refine State.Only.snd3 (by assumption) ?_

/-! ### Memory -/

theorem wf_foldl_set (l : List (Byte × Nat)) (a : Nat) : ∀ m : Sparse (BitVec 8), Memory.wf m = true →
    Memory.wf (l.foldl (fun m p => m.set dramDefault (a + p.2) p.1) m) = true := by
  induction l with
  | nil => exact fun _ h => h
  | cons p l ih => exact fun m h => ih _ (Sparse.wf_set _ _ _ _ h)

theorem putBytes_only (a : Nat) (bs : List Byte) (h : State.Only ps z s)
    (hm : sub [.dram] ps = true) : State.Only ps z (s.putBytes a bs) := by
  refine h.step (qs := [.dram]) ⟨fun p hp => ?_, fun hc => ?_⟩ hm
  · cases p <;> first | exact absurd (List.mem_singleton.mpr rfl) hp | simp [State.putBytes, Part.same, State.reg]
  · simp only [State.putBytes, State.canonical, Bool.and_eq_true] at hc ⊢
    exact ⟨hc.1, wf_foldl_set _ _ _ hc.2⟩

theorem writeSector_only (n : Nat) (data : List Byte) (hO : State.Only ps z s) (hM : sub [.dram] ps = true) :
    State.Only ps z (State.writeSector s n data) := by
  refine hO.step ?_ hM
  unfold State.writeSector
  repeat' first
    | with_reducible first | assumption | exact State.Only.refl _ _ | apply putBytes_only
    | (show sub _ _ = true; decide)

theorem markChannels_only (hO : State.Only ps z s) (hM : sub [.migration, .reg .memChStat] ps = true) :
    State.Only ps z (State.markChannels s) := by
  refine hO.step ?_ hM
  unfold State.markChannels
  repeat' first
    | with_reducible first | assumption | exact State.Only.refl _ _ | apply only_putN | apply State.Only.ite_
    | (show sub _ _ = true; decide)
    | (extract_lets +onlyGivenNames y; with_reducible refine State.Only.cut y ?_ ?_ <;> [dsimp only [y]; (clear_value y; intro hy)])
    | (extract_lets +onlyGivenNames y; clear_value y)
    | split
    | with_reducible first | refine State.Only.snd (by assumption) ?_ | refine State.Only.snd2 (by assumption) ?_ | refine State.Only.snd3 (by assumption) ?_
    | with_reducible apply only_migLine

theorem sectorEvent_only (code n : Nat) (hO : State.Only ps z s) (hM : sub [.log, .collator, .reg .colEv, .reg .logCtl] ps = true) :
    State.Only ps z (State.sectorEvent s code n) := by
  refine hO.step ?_ hM
  unfold State.sectorEvent
  repeat' first
    | with_reducible first | assumption | exact State.Only.refl _ _ | apply raise_only | apply logEntry_only
    | (show sub _ _ = true; decide)

theorem rewrite_only (n : Nat) (data : List Byte) (hO : State.Only ps z s) (hM : sub [.dram] ps = true) :
    State.Only ps z (State.rewrite s n data) := by
  refine hO.step ?_ hM
  unfold State.rewrite
  repeat' first
    | with_reducible first | assumption | exact State.Only.refl _ _ | apply writeSector_only | apply State.Only.ite_
    | (show sub _ _ = true; decide)

theorem readFails_only (n : Nat) (hO : State.Only ps z s) (hM : sub [.log, .collator, .reg .colEv, .reg .memChStat, .reg .logCtl] ps = true) :
    State.Only ps z (State.readFails s n) := by
  refine hO.step ?_ hM
  unfold State.readFails
  repeat' first
    | with_reducible first | assumption | exact State.Only.refl _ _ | apply sectorEvent_only | apply only_addF | apply State.Only.ite_
    | (show sub _ _ = true; decide)
    | (extract_lets +onlyGivenNames y; with_reducible refine State.Only.cut y ?_ ?_ <;> [dsimp only [y]; (clear_value y; intro hy)])
    | (extract_lets +onlyGivenNames y; clear_value y)
    | split
    | with_reducible apply only_col

theorem readSector_only (n glitch : Nat) (hO : State.Only ps z s) (hM : sub [.log, .collator, .dram, .reg .colEv, .reg .memChStat, .reg .logCtl] ps = true) :
    State.Only ps z (State.readSector s n glitch).2 := by
  refine hO.step ?_ hM
  unfold State.readSector
  repeat' first
    | with_reducible first | assumption | exact State.Only.refl _ _ | apply only_addF | apply sectorEvent_only | apply rewrite_only | apply readFails_only | apply State.Only.ite_ | apply State.Only.ite2
    | (show sub _ _ = true; decide)
    | (extract_lets +onlyGivenNames y; with_reducible refine State.Only.cut y ?_ ?_ <;> [dsimp only [y]; (clear_value y; intro hy)])
    | (extract_lets +onlyGivenNames y; clear_value y)
    | split
    | with_reducible first | refine State.Only.snd (by assumption) ?_ | refine State.Only.snd2 (by assumption) ?_ | refine State.Only.snd3 (by assumption) ?_

theorem readWords_only (w len glitch : Nat) (hO : State.Only ps z s) (hM : sub [.log, .collator, .dram, .reg .colEv, .reg .memChStat, .reg .logCtl] ps = true) :
    State.Only ps z (State.readWords s w len glitch).2 := by
  refine hO.step ?_ hM
  unfold State.readWords
  repeat' first
    | with_reducible first | assumption | exact State.Only.refl _ _ | apply readSector_only | apply State.Only.ite_ | apply State.Only.ite2 | apply State.Only.foldl_ | apply State.Only.foldl2 | apply State.Only.foldl3
    | (show sub _ _ = true; decide)
    | (intro _ _ hx)
    | (extract_lets +onlyGivenNames y; with_reducible refine State.Only.cut y ?_ ?_ <;> [dsimp only [y]; (clear_value y; intro hy)])
    | (extract_lets +onlyGivenNames y; clear_value y)
    | split
    | with_reducible refine State.Only.snd (by assumption) ?_

theorem writeWords_only (w : Nat) (ws : List Word) (glitch : Nat) (h : State.Only ps z s)
    (hm : sub [.log, .collator, .dram, .reg .colEv, .reg .memChStat, .reg .logCtl] ps = true) :
    State.Only ps z (s.writeWords w ws glitch).2 := by
  refine h.step ?_ hm
  unfold State.writeWords
  refine State.Only.foldl3 _ (fun x i hx => ?_) (State.Only.refl _ _)
  obtain ⟨go, k, s'⟩ := x
  have hx : State.Only _ s s' := hx
  dsimp only
  repeat' first
    | with_reducible first | assumption | apply writeSector_only | apply State.Only.ite3
    | (show sub _ _ = true; decide)
    | split
    | with_reducible refine State.Only.snd (by assumption) ?_
    | with_reducible apply readSector_only

/-! ### RingOps -/

theorem updStation_only (k : Nat) (f : Station → Station) (hO : State.Only ps z s) (hM : sub [.ring] ps = true) :
    State.Only ps z (State.updStation s k f) := by
  refine hO.step ?_ hM
  unfold State.updStation
  repeat' first
    | with_reducible first | assumption | exact State.Only.refl _ _
    | (show sub _ _ = true; decide)
    | with_reducible apply only_ring

theorem request_only (k cl : Nat) (dst kind tag stream fn : Nat) (ws : List Word) (hO : State.Only ps z s) (hM : sub [.ring] ps = true) :
    State.Only ps z (State.request s k cl dst kind tag stream fn ws) := by
  refine hO.step ?_ hM
  unfold State.request
  repeat' first
    | with_reducible first | assumption | exact State.Only.refl _ _ | apply updStation_only | (rw [id_eq]; assumption)
    | (show sub _ _ = true; decide)
    | (extract_lets +onlyGivenNames y; with_reducible refine State.Only.cut y ?_ ?_ <;> [dsimp only [y]; (clear_value y; intro hy)])
    | (extract_lets +onlyGivenNames y; clear_value y)
    | with_reducible apply only_ring

theorem respond_only (k : Nat) (q : Request) (kind stat moved : Nat) (ws : List Word) (hO : State.Only ps z s) (hM : sub [.ring] ps = true) :
    State.Only ps z (State.respond s k q kind stat moved ws) := by
  refine hO.step ?_ hM
  unfold State.respond
  repeat' first
    | with_reducible first | assumption | exact State.Only.refl _ _ | apply updStation_only | (rw [id_eq]; assumption) | apply State.Only.ite_
    | (show sub _ _ = true; decide)

theorem takeRequest_only (k kind : Nat) (hO : State.Only ps z s) (hM : sub [.ring] ps = true) :
    State.Only ps z (State.takeRequest s k kind).2 := by
  refine hO.step ?_ hM
  unfold State.takeRequest
  repeat' first
    | with_reducible first | assumption | exact State.Only.refl _ _ | apply updStation_only
    | (show sub _ _ = true; decide)
    | (extract_lets +onlyGivenNames y; with_reducible refine State.Only.cut y ?_ ?_ <;> [dsimp only [y]; (clear_value y; intro hy)])
    | (extract_lets +onlyGivenNames y; clear_value y)
    | split
    | with_reducible first | refine State.Only.snd (by assumption) ?_ | refine State.Only.snd2 (by assumption) ?_ | refine State.Only.snd3 (by assumption) ?_

theorem serve_done_only {ps : List Part} {z s t : State} (k kind : Nat) (he : s.serve k kind = .done t) (hO : State.Only ps z s)
    (hM : sub [.ring, .reg .spnErr] ps = true) : State.Only ps z t := by
  have h1 := takeRequest_only k kind (.refl [.ring, .reg .spnErr] s) (by decide)
  unfold State.serve at he
  rcases hu : s.takeRequest k kind with ⟨_ | fl, u⟩ <;> rw [hu] at h1 he <;> dsimp only at he h1
  · cases he; exact h1.mono' hO hM
  · split at he
    · cases he; exact (only_addF h1 _ _ _ (by decide)).mono' hO hM
    · split at he
      · cases he; exact (updStation_only _ _ h1 (by decide)).mono' hO hM
      · simp at he

theorem serve_act_only {ps : List Part} {z s t : State} {q : Request} (k kind : Nat) (he : s.serve k kind = .act q t)
 (hO : State.Only ps z s) (hM : sub [.ring] ps = true) : State.Only ps z t := by
  have h1 := takeRequest_only k kind hO hM
  unfold State.serve at he
  rcases hu : s.takeRequest k kind with ⟨_ | fl, u⟩ <;> rw [hu] at h1 he <;> dsimp only at he h1
  · simp at he
  · split at he
    · simp at he
    · split at he
      · simp at he
      · cases he; exact h1

theorem takeResponse_only {ps : List Part} {z s t : State} {fl : List Flit} (k cl kind : Nat) (he : s.takeResponse k cl kind = some (fl, t))
    (h : State.Only ps z s) (hm : sub [.ring] ps = true) : State.Only ps z t := by
  simp only [State.takeResponse] at he
  repeat' split at he
  all_goals first | (simp at he; done) | (simp only [Option.some.injEq, Prod.mk.injEq] at he; obtain ⟨-, rfl⟩ := he; exact updStation_only _ _ h hm)

theorem endRequests_only (k : Nat) (p : OutReq → Bool) (hO : State.Only ps z s) (hM : sub [.ring] ps = true) :
    State.Only ps z (State.endRequests s k p) := by
  refine hO.step ?_ hM
  unfold State.endRequests
  repeat' first
    | with_reducible first | assumption | exact State.Only.refl _ _ | apply updStation_only
    | (show sub _ _ = true; decide)

theorem abandonRequests_only (k : Nat) (p : OutReq → Bool) (hO : State.Only ps z s) (hM : sub [.ring] ps = true) :
    State.Only ps z (State.abandonRequests s k p) := by
  refine hO.step ?_ hM
  unfold State.abandonRequests
  repeat' first
    | with_reducible first | assumption | exact State.Only.refl _ _ | apply updStation_only | apply endRequests_only | (rw [id_eq]; assumption)
    | (show sub _ _ = true; decide)

theorem voidRequests_only (k : Nat) (p : OutReq → Bool) (hO : State.Only ps z s) (hM : sub [.ring] ps = true) :
    State.Only ps z (State.voidRequests s k p) := by
  refine hO.step ?_ hM
  unfold State.voidRequests
  repeat' first
    | with_reducible first | assumption | exact State.Only.refl _ _ | apply updStation_only | apply State.Only.ite_
    | (show sub _ _ = true; decide)

theorem sendAgain_only (k : Nat) (o : OutReq) (hO : State.Only ps z s) (hM : sub [.ring, .reg .spnErr] ps = true) :
    State.Only ps z (State.sendAgain s k o) := by
  refine hO.step ?_ hM
  unfold State.sendAgain
  repeat' first
    | with_reducible first | assumption | exact State.Only.refl _ _ | apply only_addF | apply updStation_only | (rw [id_eq]; assumption) | apply State.Only.ite_
    | (show sub _ _ = true; decide)

theorem accept_only (k cl kind : Nat) (h : State.Only ps z s)
    (hm : sub [.ring, .reg .spnErr] ps = true) : State.Only ps z (s.accept k cl kind).2 ∧
      ∀ q t, (s.accept k cl kind).1 = some (q, t) → State.Only ps z t := by
  unfold State.accept
  split
  · exact ⟨h, by simp⟩
  · next fl t he =>
    have ht : State.Only [.ring, .reg .spnErr] s t := takeResponse_only _ _ _ he (.refl _ _) (by decide)
    have hz := h.step ht hm
    have hr := fun p => (endRequests_only k p ht (by decide)).mono' h hm
    dsimp only
    split
    · exact ⟨hz, by simp⟩
    · split
      · split
        · exact ⟨hr _, by simp⟩
        · refine ⟨hz, ?_⟩
          rintro q u ⟨⟩
          exact hr _
      · exact ⟨(sendAgain_only k _ (only_addF ht _ _ _ (by decide)) (by decide)).mono' h hm, by simp⟩

theorem accept_snd_only {ps : List Part} {z s t : State} {o : Option (Request × State)} (k cl kind : Nat)
    (he : s.accept k cl kind = (o, t)) (h : State.Only ps z s) (hm : sub [.ring, .reg .spnErr] ps = true) : State.Only ps z t := by
  have := (accept_only k cl kind h hm).1
  rw [he] at this; exact this

theorem accept_some_only {ps : List Part} {z s t u : State} {q : Request} (k cl kind : Nat)
    (he : s.accept k cl kind = (some (q, u), t)) (h : State.Only ps z s) (hm : sub [.ring, .reg .spnErr] ps = true) :
    State.Only ps z u := (accept_only k cl kind h hm).2 q u (by rw [he])

/-! ### AwlBase -/

theorem setCore_only (c : Nat) (x : AwlCore) (hO : State.Only ps z s) (hM : sub [.cores, .reg .awlStat] ps = true) :
    State.Only ps z (State.setCore s c x) := by
  refine hO.step ?_ hM
  unfold State.setCore
  repeat' first
    | with_reducible first | assumption | exact State.Only.refl _ _ | apply only_setReg
    | (show sub _ _ = true; decide)
    | with_reducible apply only_awl

theorem updCore_only (c : Nat) (f : AwlCore → AwlCore) (hO : State.Only ps z s) (hM : sub [.cores, .reg .awlStat] ps = true) :
    State.Only ps z (State.updCore s c f) := by
  refine hO.step ?_ hM
  unfold State.updCore
  repeat' first
    | with_reducible first | assumption | exact State.Only.refl _ _ | apply setCore_only
    | (show sub _ _ = true; decide)

theorem updLevel_only (c v : Nat) (f : Level → Level) (hO : State.Only ps z s) (hM : sub [.cores, .reg .awlStat] ps = true) :
    State.Only ps z (State.updLevel s c v f) := by
  refine hO.step ?_ hM
  unfold State.updLevel
  repeat' first
    | with_reducible first | assumption | exact State.Only.refl _ _ | apply updCore_only
    | (show sub _ _ = true; decide)

theorem setLevelState_only (c v : Nat) (st : LevelState) (hO : State.Only ps z s) (hM : sub [.collator, .cores, .reg .colEv, .reg .awlStat] ps = true) :
    State.Only ps z (State.setLevelState s c v st) := by
  refine hO.step ?_ hM
  unfold State.setLevelState
  repeat' first
    | with_reducible first | assumption | exact State.Only.refl _ _ | apply updCore_only | apply raise_only | apply State.Only.ite_
    | (show sub _ _ = true; decide)

/-! ### CellBase -/

theorem designCheck_only (x : CellAt) (hO : State.Only ps z s) (hM : sub [.gatherings] ps = true) :
    State.Only ps z (State.designCheck s x) := by
  refine hO.step ?_ hM
  unfold State.designCheck
  repeat' first
    | with_reducible first | assumption | exact State.Only.refl _ _ | apply updGth_only | apply State.Only.ite_
    | (show sub _ _ = true; decide)
    | with_reducible first | refine State.Only.snd (by assumption) ?_ | refine State.Only.snd2 (by assumption) ?_ | refine State.Only.snd3 (by assumption) ?_

theorem predicate_only (x : CellAt) (c : RWord) (hO : State.Only ps z s) (hM : sub [.regions, .reg .qctFault] ps = true) :
    State.Only ps z (State.predicate s x c).2 := by
  refine hO.step ?_ hM
  unfold State.predicate
  repeat' first
    | with_reducible first | assumption | exact State.Only.refl _ _ | apply chargeIf_only
    | (show sub _ _ = true; decide)
    | (extract_lets +onlyGivenNames y; with_reducible refine State.Only.cut y ?_ ?_ <;> [dsimp only [y]; (clear_value y; intro hy)])
    | (extract_lets +onlyGivenNames y; clear_value y)
    | split
    | with_reducible first | refine State.Only.snd (by assumption) ?_ | refine State.Only.snd2 (by assumption) ?_ | refine State.Only.snd3 (by assumption) ?_

theorem writeBack_only (x : CellAt) (o : CellResult) (hO : State.Only ps z s) (hM : sub [.cells, .gatherings] ps = true) :
    State.Only ps z (State.writeBack s x o) := by
  refine hO.step ?_ hM
  unfold State.writeBack
  repeat' first
    | with_reducible first | assumption | exact State.Only.refl _ _ | apply updCell_only | apply updGth_only | apply designCheck_only | apply State.Only.ite_
    | (show sub _ _ = true; decide)
    | (extract_lets +onlyGivenNames y; with_reducible refine State.Only.cut y ?_ ?_ <;> [dsimp only [y]; (clear_value y; intro hy)])
    | (extract_lets +onlyGivenNames y; clear_value y)
    | split
    | with_reducible first | refine State.Only.snd (by assumption) ?_ | refine State.Only.snd2 (by assumption) ?_ | refine State.Only.snd3 (by assumption) ?_

theorem driveEntry_only (x : CellAt) (c0 : Cell) (j : Nat) (hO : State.Only ps z s) (hM : sub [.free, .cells, .regions, .reg .qctFault] ps = true) :
    State.Only ps z (State.driveEntry s x c0 j) := by
  refine hO.step ?_ hM
  unfold State.driveEntry
  repeat' first
    | with_reducible first | assumption | exact State.Only.refl _ _ | apply charge_only | apply regWord_only | apply driveWord_only | apply liveWord_only | apply drawWord_only | apply chargeIf_only | apply defined_only | apply State.Only.ite_ | apply State.Only.ite2
    | (show sub _ _ = true; decide)
    | (extract_lets +onlyGivenNames y; with_reducible refine State.Only.cut y ?_ ?_ <;> [dsimp only [y]; (clear_value y; intro hy)])
    | (extract_lets +onlyGivenNames y; clear_value y)
    | split
    | with_reducible refine State.Only.snd (by assumption) ?_

theorem switchBox_only (x : CellAt) (c0 : Cell) (hO : State.Only ps z s) (hM : sub [.free, .cells, .regions, .reg .qctFault] ps = true) :
    State.Only ps z (State.switchBox s x c0) := by
  refine hO.step ?_ hM
  unfold State.switchBox
  repeat' first
    | with_reducible first | assumption | exact State.Only.refl _ _ | apply chargeIf_only | apply driveEntry_only | apply State.Only.foldl_ | apply State.Only.foldl2 | apply State.Only.foldl3
    | (show sub _ _ = true; decide)
    | (intro _ _ hx)

theorem operands_only (x : CellAt) (op : CellOp) (hO : State.Only ps z s) (hM : sub [.free, .cells, .regions, .reg .qctFault] ps = true) :
    State.Only ps z (State.operands s x op).2.2.2 := by
  refine hO.step ?_ hM
  unfold State.operands
  repeat' first
    | with_reducible first | assumption | exact State.Only.refl _ _ | apply source_only | apply State.Only.ite_ | apply State.Only.ite2
    | (show sub _ _ = true; decide)
    | with_reducible first | refine State.Only.snd (by assumption) ?_ | refine State.Only.snd2 (by assumption) ?_ | refine State.Only.snd3 (by assumption) ?_

theorem runCell_only (op : CellOp) {body : CellBody} (key k : Nat) (hO : State.Only ps z s)
    (hM : sub [.free, .cells, .gatherings, .regions, .reg .qctFault] ps = true)
    (hb : ∀ x a b c y, State.Only [.free, .cells, .gatherings, .regions, .reg .qctFault] s y →
      State.Only [.free, .cells, .gatherings, .regions, .reg .qctFault] s (body x a b c y).2) :
    State.Only ps z (s.runCell op body key k) := by
  refine hO.step ?_ hM
  unfold State.runCell
  repeat' first
    | with_reducible first | assumption | exact State.Only.refl _ _ | apply updCell_only | apply hb | apply switchBox_only | apply writeBack_only | apply operands_only | apply predicate_only | apply State.Only.ite_ | apply State.Only.ite2
    | (show sub _ _ = true; decide)
    | (extract_lets +onlyGivenNames y; refine State.Only.cut y ?_ ?_ <;> [dsimp only [y]; (clear_value y; intro hy)])
    | (extract_lets +onlyGivenNames y; clear_value y)
    | split
    | with_reducible first | refine State.Only.snd (by assumption) ?_ | refine State.Only.snd2 (by assumption) ?_ | refine State.Only.snd3 (by assumption) ?_

/-! ### CellAlu -/

theorem cellNext_only (s : State) (op : CellOp) {body : CellBody} (c : CellAddr) (k : LeafNo)
    (hb : ∀ x a b c y, State.Only [.free, .cells, .gatherings, .regions, .reg .qctFault] s y →
      State.Only [.free, .cells, .gatherings, .regions, .reg .qctFault] s (body x a b c y).2) :
    OnlyR [.free, .cells, .gatherings, .regions, .reg .qctFault] s (cellNext s op body c k) :=
  OnlyR.next (runCell_only op _ _ (.refl _ _) (by decide) hb)

theorem compared_only (x : CellAt) (a b : RWord) (d : Word) (hO : State.Only ps z s) (hM : sub [.regions, .reg .qctFault] ps = true) :
    State.Only ps z (compared x a b s d).2 := by
  refine hO.step ?_ hM
  unfold compared
  repeat' first
    | with_reducible first | assumption | exact State.Only.refl _ _ | apply chargeIf_only | apply State.Only.ite_ | apply State.Only.ite2
    | (show sub _ _ = true; decide)

theorem bodyNop_only (x : CellAt) (a b c : RWord) (hO : State.Only ps z s) (hM : sub [] ps = true) :
    State.Only ps z (bodyNop x a b c s).2 := by
  refine hO.step ?_ hM
  unfold bodyNop
  try beta_reduce
  repeat' first
    | with_reducible first | assumption | exact State.Only.refl _ _

theorem bodyHold_only (x : CellAt) (a b c : RWord) (hO : State.Only ps z s) (hM : sub [.cells] ps = true) :
    State.Only ps z (bodyHold x a b c s).2 := by
  refine hO.step ?_ hM
  unfold bodyHold
  try beta_reduce
  repeat' first
    | with_reducible first | assumption | exact State.Only.refl _ _ | apply updCell_only
    | (show sub _ _ = true; decide)

theorem bodyMov_only (x : CellAt) (a b c : RWord) (hO : State.Only ps z s) (hM : sub [] ps = true) :
    State.Only ps z (bodyMov x a b c s).2 := by
  refine hO.step ?_ hM
  unfold bodyMov
  try beta_reduce
  repeat' first
    | with_reducible first | assumption | exact State.Only.refl _ _

theorem bodyAdd_only (x : CellAt) (a b c : RWord) (hO : State.Only ps z s) (hM : sub [.free, .regions, .reg .qctFault] ps = true) :
    State.Only ps z (bodyAdd x a b c s).2 := by
  refine hO.step ?_ hM
  unfold bodyAdd
  try beta_reduce
  repeat' first
    | with_reducible first | assumption | exact State.Only.refl _ _ | apply carryIn_only | apply State.Only.ite_ | apply State.Only.ite2
    | (show sub _ _ = true; decide)
    | with_reducible first | refine State.Only.snd (by assumption) ?_ | refine State.Only.snd2 (by assumption) ?_ | refine State.Only.snd3 (by assumption) ?_

theorem bodySub_only (x : CellAt) (a b c : RWord) (hO : State.Only ps z s) (hM : sub [.free, .regions, .reg .qctFault] ps = true) :
    State.Only ps z (bodySub x a b c s).2 := by
  refine hO.step ?_ hM
  unfold bodySub
  try beta_reduce
  repeat' first
    | with_reducible first | assumption | exact State.Only.refl _ _ | apply carryIn_only | apply State.Only.ite_ | apply State.Only.ite2
    | (show sub _ _ = true; decide)
    | with_reducible first | refine State.Only.snd (by assumption) ?_ | refine State.Only.snd2 (by assumption) ?_ | refine State.Only.snd3 (by assumption) ?_

theorem bodyCmp_only (x : CellAt) (a b c : RWord) (hO : State.Only ps z s) (hM : sub [.free, .regions, .reg .qctFault] ps = true) :
    State.Only ps z (bodyCmp x a b c s).2 := by
  refine hO.step ?_ hM
  unfold bodyCmp
  try beta_reduce
  repeat' first
    | with_reducible first | assumption | exact State.Only.refl _ _ | apply carryIn_only | apply chargeIf_only
    | (show sub _ _ = true; decide)
    | with_reducible first | refine State.Only.snd (by assumption) ?_ | refine State.Only.snd2 (by assumption) ?_ | refine State.Only.snd3 (by assumption) ?_

theorem bodyLtu_only (x : CellAt) (a b c : RWord) (hO : State.Only ps z s) (hM : sub [.regions, .reg .qctFault] ps = true) :
    State.Only ps z (bodyLtu x a b c s).2 := by
  refine hO.step ?_ hM
  unfold bodyLtu
  try beta_reduce
  repeat' first
    | with_reducible first | assumption | exact State.Only.refl _ _ | apply compared_only
    | (show sub _ _ = true; decide)

theorem bodyLts_only (x : CellAt) (a b c : RWord) (hO : State.Only ps z s) (hM : sub [.regions, .reg .qctFault] ps = true) :
    State.Only ps z (bodyLts x a b c s).2 := by
  refine hO.step ?_ hM
  unfold bodyLts
  try beta_reduce
  repeat' first
    | with_reducible first | assumption | exact State.Only.refl _ _ | apply compared_only
    | (show sub _ _ = true; decide)

theorem bodyEq_only (x : CellAt) (a b c : RWord) (hO : State.Only ps z s) (hM : sub [.regions, .reg .qctFault] ps = true) :
    State.Only ps z (bodyEq x a b c s).2 := by
  refine hO.step ?_ hM
  unfold bodyEq
  try beta_reduce
  repeat' first
    | with_reducible first | assumption | exact State.Only.refl _ _ | apply compared_only
    | (show sub _ _ = true; decide)

theorem bodyLut3_only (x : CellAt) (a b c : RWord) (hO : State.Only ps z s) (hM : sub [] ps = true) :
    State.Only ps z (bodyLut3 x a b c s).2 := by
  refine hO.step ?_ hM
  unfold bodyLut3
  try beta_reduce
  repeat' first
    | with_reducible first | assumption | exact State.Only.refl _ _

theorem bodyAnd_only (x : CellAt) (a b c : RWord) (hO : State.Only ps z s) (hM : sub [] ps = true) :
    State.Only ps z (bodyAnd x a b c s).2 := by
  refine hO.step ?_ hM
  unfold bodyAnd
  try beta_reduce
  repeat' first
    | with_reducible first | assumption | exact State.Only.refl _ _

theorem bodyOr_only (x : CellAt) (a b c : RWord) (hO : State.Only ps z s) (hM : sub [] ps = true) :
    State.Only ps z (bodyOr x a b c s).2 := by
  refine hO.step ?_ hM
  unfold bodyOr
  try beta_reduce
  repeat' first
    | with_reducible first | assumption | exact State.Only.refl _ _

theorem bodyXor_only (x : CellAt) (a b c : RWord) (hO : State.Only ps z s) (hM : sub [] ps = true) :
    State.Only ps z (bodyXor x a b c s).2 := by
  refine hO.step ?_ hM
  unfold bodyXor
  try beta_reduce
  repeat' first
    | with_reducible first | assumption | exact State.Only.refl _ _

theorem bodyAndn_only (x : CellAt) (a b c : RWord) (hO : State.Only ps z s) (hM : sub [] ps = true) :
    State.Only ps z (bodyAndn x a b c s).2 := by
  refine hO.step ?_ hM
  unfold bodyAndn
  try beta_reduce
  repeat' first
    | with_reducible first | assumption | exact State.Only.refl _ _

theorem bodyShl_only (x : CellAt) (a b c : RWord) (hO : State.Only ps z s) (hM : sub [] ps = true) :
    State.Only ps z (bodyShl x a b c s).2 := by
  refine hO.step ?_ hM
  unfold bodyShl
  try beta_reduce
  repeat' first
    | with_reducible first | assumption | exact State.Only.refl _ _

theorem bodyShr_only (x : CellAt) (a b c : RWord) (hO : State.Only ps z s) (hM : sub [] ps = true) :
    State.Only ps z (bodyShr x a b c s).2 := by
  refine hO.step ?_ hM
  unfold bodyShr
  try beta_reduce
  repeat' first
    | with_reducible first | assumption | exact State.Only.refl _ _

theorem bodySar_only (x : CellAt) (a b c : RWord) (hO : State.Only ps z s) (hM : sub [] ps = true) :
    State.Only ps z (bodySar x a b c s).2 := by
  refine hO.step ?_ hM
  unfold bodySar
  try beta_reduce
  repeat' first
    | with_reducible first | assumption | exact State.Only.refl _ _

theorem bodyRol_only (x : CellAt) (a b c : RWord) (hO : State.Only ps z s) (hM : sub [] ps = true) :
    State.Only ps z (bodyRol x a b c s).2 := by
  refine hO.step ?_ hM
  unfold bodyRol
  try beta_reduce
  repeat' first
    | with_reducible first | assumption | exact State.Only.refl _ _

theorem bodyExt_only (x : CellAt) (a b c : RWord) (hO : State.Only ps z s) (hM : sub [] ps = true) :
    State.Only ps z (bodyExt x a b c s).2 := by
  refine hO.step ?_ hM
  unfold bodyExt
  try beta_reduce
  repeat' first
    | with_reducible first | assumption | exact State.Only.refl _ _

theorem bodyExts_only (x : CellAt) (a b c : RWord) (hO : State.Only ps z s) (hM : sub [] ps = true) :
    State.Only ps z (bodyExts x a b c s).2 := by
  refine hO.step ?_ hM
  unfold bodyExts
  try beta_reduce
  repeat' first
    | with_reducible first | assumption | exact State.Only.refl _ _

theorem bodyIns_only (x : CellAt) (a b c : RWord) (hO : State.Only ps z s) (hM : sub [] ps = true) :
    State.Only ps z (bodyIns x a b c s).2 := by
  refine hO.step ?_ hM
  unfold bodyIns
  try beta_reduce
  repeat' first
    | with_reducible first | assumption | exact State.Only.refl _ _

theorem bodyFsh_only (x : CellAt) (a b c : RWord) (hO : State.Only ps z s) (hM : sub [] ps = true) :
    State.Only ps z (bodyFsh x a b c s).2 := by
  refine hO.step ?_ hM
  unfold bodyFsh
  try beta_reduce
  repeat' first
    | with_reducible first | assumption | exact State.Only.refl _ _

theorem bodySel_only (x : CellAt) (a b c : RWord) (hO : State.Only ps z s) (hM : sub [] ps = true) :
    State.Only ps z (bodySel x a b c s).2 := by
  refine hO.step ?_ hM
  unfold bodySel
  try beta_reduce
  repeat' first
    | with_reducible first | assumption | exact State.Only.refl _ _

theorem bodyBsel_only (x : CellAt) (a b c : RWord) (hO : State.Only ps z s) (hM : sub [] ps = true) :
    State.Only ps z (bodyBsel x a b c s).2 := by
  refine hO.step ?_ hM
  unfold bodyBsel
  try beta_reduce
  repeat' first
    | with_reducible first | assumption | exact State.Only.refl _ _

theorem bodyMaxu_only (x : CellAt) (a b c : RWord) (hO : State.Only ps z s) (hM : sub [] ps = true) :
    State.Only ps z (bodyMaxu x a b c s).2 := by
  refine hO.step ?_ hM
  unfold bodyMaxu
  try beta_reduce
  repeat' first
    | with_reducible first | assumption | exact State.Only.refl _ _

theorem bodyMinu_only (x : CellAt) (a b c : RWord) (hO : State.Only ps z s) (hM : sub [] ps = true) :
    State.Only ps z (bodyMinu x a b c s).2 := by
  refine hO.step ?_ hM
  unfold bodyMinu
  try beta_reduce
  repeat' first
    | with_reducible first | assumption | exact State.Only.refl _ _

theorem bodyMaxs_only (x : CellAt) (a b c : RWord) (hO : State.Only ps z s) (hM : sub [] ps = true) :
    State.Only ps z (bodyMaxs x a b c s).2 := by
  refine hO.step ?_ hM
  unfold bodyMaxs
  try beta_reduce
  repeat' first
    | with_reducible first | assumption | exact State.Only.refl _ _

theorem bodyMins_only (x : CellAt) (a b c : RWord) (hO : State.Only ps z s) (hM : sub [] ps = true) :
    State.Only ps z (bodyMins x a b c s).2 := by
  refine hO.step ?_ hM
  unfold bodyMins
  try beta_reduce
  repeat' first
    | with_reducible first | assumption | exact State.Only.refl _ _

theorem bodyRdor_only (x : CellAt) (a b c : RWord) (hO : State.Only ps z s) (hM : sub [] ps = true) :
    State.Only ps z (bodyRdor x a b c s).2 := by
  refine hO.step ?_ hM
  unfold bodyRdor
  try beta_reduce
  repeat' first
    | with_reducible first | assumption | exact State.Only.refl _ _

theorem bodyRdand_only (x : CellAt) (a b c : RWord) (hO : State.Only ps z s) (hM : sub [] ps = true) :
    State.Only ps z (bodyRdand x a b c s).2 := by
  refine hO.step ?_ hM
  unfold bodyRdand
  try beta_reduce
  repeat' first
    | with_reducible first | assumption | exact State.Only.refl _ _

theorem bodyRdxor_only (x : CellAt) (a b c : RWord) (hO : State.Only ps z s) (hM : sub [] ps = true) :
    State.Only ps z (bodyRdxor x a b c s).2 := by
  refine hO.step ?_ hM
  unfold bodyRdxor
  try beta_reduce
  repeat' first
    | with_reducible first | assumption | exact State.Only.refl _ _

theorem bodyLzc_only (x : CellAt) (a b c : RWord) (hO : State.Only ps z s) (hM : sub [] ps = true) :
    State.Only ps z (bodyLzc x a b c s).2 := by
  refine hO.step ?_ hM
  unfold bodyLzc
  try beta_reduce
  repeat' first
    | with_reducible first | assumption | exact State.Only.refl _ _

theorem bodyPopc_only (x : CellAt) (a b c : RWord) (hO : State.Only ps z s) (hM : sub [] ps = true) :
    State.Only ps z (bodyPopc x a b c s).2 := by
  refine hO.step ?_ hM
  unfold bodyPopc
  try beta_reduce
  repeat' first
    | with_reducible first | assumption | exact State.Only.refl _ _

theorem bodyTzc_only (x : CellAt) (a b c : RWord) (hO : State.Only ps z s) (hM : sub [] ps = true) :
    State.Only ps z (bodyTzc x a b c s).2 := by
  refine hO.step ?_ hM
  unfold bodyTzc
  try beta_reduce
  repeat' first
    | with_reducible first | assumption | exact State.Only.refl _ _

theorem execCellNop_only (s : State) (c : CellAddr) (k : LeafNo) : OnlyR [.free, .cells, .gatherings, .regions, .reg .qctFault] s (execCellNop c k s) :=
  cellNext_only s _ c k fun x a b c _ h => bodyNop_only x a b c h (by decide)

theorem execCellHold_only (s : State) (c : CellAddr) (k : LeafNo) : OnlyR [.free, .cells, .gatherings, .regions, .reg .qctFault] s (execCellHold c k s) :=
  cellNext_only s _ c k fun x a b c _ h => bodyHold_only x a b c h (by decide)

theorem execCellMov_only (s : State) (c : CellAddr) (k : LeafNo) : OnlyR [.free, .cells, .gatherings, .regions, .reg .qctFault] s (execCellMov c k s) :=
  cellNext_only s _ c k fun x a b c _ h => bodyMov_only x a b c h (by decide)

theorem execCellAdd_only (s : State) (c : CellAddr) (k : LeafNo) : OnlyR [.free, .cells, .gatherings, .regions, .reg .qctFault] s (execCellAdd c k s) :=
  cellNext_only s _ c k fun x a b c _ h => bodyAdd_only x a b c h (by decide)

theorem execCellSub_only (s : State) (c : CellAddr) (k : LeafNo) : OnlyR [.free, .cells, .gatherings, .regions, .reg .qctFault] s (execCellSub c k s) :=
  cellNext_only s _ c k fun x a b c _ h => bodySub_only x a b c h (by decide)

theorem execCellCmp_only (s : State) (c : CellAddr) (k : LeafNo) : OnlyR [.free, .cells, .gatherings, .regions, .reg .qctFault] s (execCellCmp c k s) :=
  cellNext_only s _ c k fun x a b c _ h => bodyCmp_only x a b c h (by decide)

theorem execCellLtu_only (s : State) (c : CellAddr) (k : LeafNo) : OnlyR [.free, .cells, .gatherings, .regions, .reg .qctFault] s (execCellLtu c k s) :=
  cellNext_only s _ c k fun x a b c _ h => bodyLtu_only x a b c h (by decide)

theorem execCellLts_only (s : State) (c : CellAddr) (k : LeafNo) : OnlyR [.free, .cells, .gatherings, .regions, .reg .qctFault] s (execCellLts c k s) :=
  cellNext_only s _ c k fun x a b c _ h => bodyLts_only x a b c h (by decide)

theorem execCellEq_only (s : State) (c : CellAddr) (k : LeafNo) : OnlyR [.free, .cells, .gatherings, .regions, .reg .qctFault] s (execCellEq c k s) :=
  cellNext_only s _ c k fun x a b c _ h => bodyEq_only x a b c h (by decide)

theorem execCellLut3_only (s : State) (c : CellAddr) (k : LeafNo) : OnlyR [.free, .cells, .gatherings, .regions, .reg .qctFault] s (execCellLut3 c k s) :=
  cellNext_only s _ c k fun x a b c _ h => bodyLut3_only x a b c h (by decide)

theorem execCellAnd_only (s : State) (c : CellAddr) (k : LeafNo) : OnlyR [.free, .cells, .gatherings, .regions, .reg .qctFault] s (execCellAnd c k s) :=
  cellNext_only s _ c k fun x a b c _ h => bodyAnd_only x a b c h (by decide)

theorem execCellOr_only (s : State) (c : CellAddr) (k : LeafNo) : OnlyR [.free, .cells, .gatherings, .regions, .reg .qctFault] s (execCellOr c k s) :=
  cellNext_only s _ c k fun x a b c _ h => bodyOr_only x a b c h (by decide)

theorem execCellXor_only (s : State) (c : CellAddr) (k : LeafNo) : OnlyR [.free, .cells, .gatherings, .regions, .reg .qctFault] s (execCellXor c k s) :=
  cellNext_only s _ c k fun x a b c _ h => bodyXor_only x a b c h (by decide)

theorem execCellAndn_only (s : State) (c : CellAddr) (k : LeafNo) : OnlyR [.free, .cells, .gatherings, .regions, .reg .qctFault] s (execCellAndn c k s) :=
  cellNext_only s _ c k fun x a b c _ h => bodyAndn_only x a b c h (by decide)

theorem execCellShl_only (s : State) (c : CellAddr) (k : LeafNo) : OnlyR [.free, .cells, .gatherings, .regions, .reg .qctFault] s (execCellShl c k s) :=
  cellNext_only s _ c k fun x a b c _ h => bodyShl_only x a b c h (by decide)

theorem execCellShr_only (s : State) (c : CellAddr) (k : LeafNo) : OnlyR [.free, .cells, .gatherings, .regions, .reg .qctFault] s (execCellShr c k s) :=
  cellNext_only s _ c k fun x a b c _ h => bodyShr_only x a b c h (by decide)

theorem execCellSar_only (s : State) (c : CellAddr) (k : LeafNo) : OnlyR [.free, .cells, .gatherings, .regions, .reg .qctFault] s (execCellSar c k s) :=
  cellNext_only s _ c k fun x a b c _ h => bodySar_only x a b c h (by decide)

theorem execCellRol_only (s : State) (c : CellAddr) (k : LeafNo) : OnlyR [.free, .cells, .gatherings, .regions, .reg .qctFault] s (execCellRol c k s) :=
  cellNext_only s _ c k fun x a b c _ h => bodyRol_only x a b c h (by decide)

theorem execCellExt_only (s : State) (c : CellAddr) (k : LeafNo) : OnlyR [.free, .cells, .gatherings, .regions, .reg .qctFault] s (execCellExt c k s) :=
  cellNext_only s _ c k fun x a b c _ h => bodyExt_only x a b c h (by decide)

theorem execCellExts_only (s : State) (c : CellAddr) (k : LeafNo) : OnlyR [.free, .cells, .gatherings, .regions, .reg .qctFault] s (execCellExts c k s) :=
  cellNext_only s _ c k fun x a b c _ h => bodyExts_only x a b c h (by decide)

theorem execCellIns_only (s : State) (c : CellAddr) (k : LeafNo) : OnlyR [.free, .cells, .gatherings, .regions, .reg .qctFault] s (execCellIns c k s) :=
  cellNext_only s _ c k fun x a b c _ h => bodyIns_only x a b c h (by decide)

theorem execCellFsh_only (s : State) (c : CellAddr) (k : LeafNo) : OnlyR [.free, .cells, .gatherings, .regions, .reg .qctFault] s (execCellFsh c k s) :=
  cellNext_only s _ c k fun x a b c _ h => bodyFsh_only x a b c h (by decide)

theorem execCellSel_only (s : State) (c : CellAddr) (k : LeafNo) : OnlyR [.free, .cells, .gatherings, .regions, .reg .qctFault] s (execCellSel c k s) :=
  cellNext_only s _ c k fun x a b c _ h => bodySel_only x a b c h (by decide)

theorem execCellBsel_only (s : State) (c : CellAddr) (k : LeafNo) : OnlyR [.free, .cells, .gatherings, .regions, .reg .qctFault] s (execCellBsel c k s) :=
  cellNext_only s _ c k fun x a b c _ h => bodyBsel_only x a b c h (by decide)

theorem execCellMaxu_only (s : State) (c : CellAddr) (k : LeafNo) : OnlyR [.free, .cells, .gatherings, .regions, .reg .qctFault] s (execCellMaxu c k s) :=
  cellNext_only s _ c k fun x a b c _ h => bodyMaxu_only x a b c h (by decide)

theorem execCellMinu_only (s : State) (c : CellAddr) (k : LeafNo) : OnlyR [.free, .cells, .gatherings, .regions, .reg .qctFault] s (execCellMinu c k s) :=
  cellNext_only s _ c k fun x a b c _ h => bodyMinu_only x a b c h (by decide)

theorem execCellMaxs_only (s : State) (c : CellAddr) (k : LeafNo) : OnlyR [.free, .cells, .gatherings, .regions, .reg .qctFault] s (execCellMaxs c k s) :=
  cellNext_only s _ c k fun x a b c _ h => bodyMaxs_only x a b c h (by decide)

theorem execCellMins_only (s : State) (c : CellAddr) (k : LeafNo) : OnlyR [.free, .cells, .gatherings, .regions, .reg .qctFault] s (execCellMins c k s) :=
  cellNext_only s _ c k fun x a b c _ h => bodyMins_only x a b c h (by decide)

theorem execCellRdor_only (s : State) (c : CellAddr) (k : LeafNo) : OnlyR [.free, .cells, .gatherings, .regions, .reg .qctFault] s (execCellRdor c k s) :=
  cellNext_only s _ c k fun x a b c _ h => bodyRdor_only x a b c h (by decide)

theorem execCellRdand_only (s : State) (c : CellAddr) (k : LeafNo) : OnlyR [.free, .cells, .gatherings, .regions, .reg .qctFault] s (execCellRdand c k s) :=
  cellNext_only s _ c k fun x a b c _ h => bodyRdand_only x a b c h (by decide)

theorem execCellRdxor_only (s : State) (c : CellAddr) (k : LeafNo) : OnlyR [.free, .cells, .gatherings, .regions, .reg .qctFault] s (execCellRdxor c k s) :=
  cellNext_only s _ c k fun x a b c _ h => bodyRdxor_only x a b c h (by decide)

theorem execCellLzc_only (s : State) (c : CellAddr) (k : LeafNo) : OnlyR [.free, .cells, .gatherings, .regions, .reg .qctFault] s (execCellLzc c k s) :=
  cellNext_only s _ c k fun x a b c _ h => bodyLzc_only x a b c h (by decide)

theorem execCellPopc_only (s : State) (c : CellAddr) (k : LeafNo) : OnlyR [.free, .cells, .gatherings, .regions, .reg .qctFault] s (execCellPopc c k s) :=
  cellNext_only s _ c k fun x a b c _ h => bodyPopc_only x a b c h (by decide)

theorem execCellTzc_only (s : State) (c : CellAddr) (k : LeafNo) : OnlyR [.free, .cells, .gatherings, .regions, .reg .qctFault] s (execCellTzc c k s) :=
  cellNext_only s _ c k fun x a b c _ h => bodyTzc_only x a b c h (by decide)

/-! ### Folio -/

theorem queueEvent_only (g n : Nat) (hO : State.Only ps z s) (hM : sub [.gatherings, .collator, .reg .colEv] ps = true) :
    State.Only ps z (State.queueEvent s g n) := by
  refine hO.step ?_ hM
  unfold State.queueEvent
  repeat' first
    | with_reducible first | assumption | exact State.Only.refl _ _ | apply updGth_only | apply raise_only | apply State.Only.ite_
    | (show sub _ _ = true; decide)

theorem gthEvents_only (g : Nat) (hO : State.Only ps z s) (hM : sub [.gatherings, .collator, .reg .colEv] ps = true) :
    State.Only ps z (State.gthEvents s g) := by
  refine hO.step ?_ hM
  unfold State.gthEvents
  repeat' first
    | with_reducible first | assumption | exact State.Only.refl _ _ | apply queueEvent_only | apply State.Only.ite_ | apply State.Only.foldl_ | apply State.Only.foldl2 | apply State.Only.foldl3
    | (show sub _ _ = true; decide)
    | (intro _ _ hx)

theorem movePointer_only (g n t ap : Nat) (hO : State.Only ps z s) (hM : sub [.gatherings] ps = true) :
    State.Only ps z (State.movePointer s g n t ap) := by
  refine hO.step ?_ hM
  unfold State.movePointer
  repeat' first
    | with_reducible first | assumption | exact State.Only.refl _ _ | apply updGth_only
    | (show sub _ _ = true; decide)

theorem portRead_only (g addr : Nat) (ring : Bool) (hO : State.Only ps z s) (hM : sub [.log, .collator, .reg .colEv, .reg .logCtl, .reg .gthFerr] ps = true) :
    State.Only ps z (State.portRead s g addr ring).2.2 := by
  refine hO.step ?_ hM
  unfold State.portRead
  repeat' first
    | with_reducible first | assumption | exact State.Only.refl _ _ | apply only_addF | apply only_putN | apply only_putF | apply only_setF | apply logEntry_only | apply raise_only | apply State.Only.ite_ | apply State.Only.ite2
    | (show sub _ _ = true; decide)
    | (extract_lets +onlyGivenNames y; with_reducible refine State.Only.cut y ?_ ?_ <;> [dsimp only [y]; (clear_value y; intro hy)])
    | (extract_lets +onlyGivenNames y; clear_value y)
    | split

theorem ringPush_only (g n : Nat) (d : Word) (hO : State.Only ps z s) (hM : sub [.gatherings] ps = true) :
    State.Only ps z (State.ringPush s g n d) := by
  refine hO.step ?_ hM
  unfold State.ringPush
  repeat' first
    | with_reducible first | assumption | exact State.Only.refl _ _ | apply updGth_only
    | (show sub _ _ = true; decide)

theorem ringAdvance_only (g n : Nat) (hO : State.Only ps z s) (hM : sub [.gatherings] ps = true) :
    State.Only ps z (State.ringAdvance s g n) := by
  refine hO.step ?_ hM
  unfold State.ringAdvance
  repeat' first
    | with_reducible first | assumption | exact State.Only.refl _ _ | apply updGth_only
    | (show sub _ _ = true; decide)

/-! ### CellFolio -/

theorem folioReturn_only (x : CellAt) (w : RWord) (hO : State.Only ps z s) (hM : sub [.cells, .gatherings] ps = true) :
    State.Only ps z (folioReturn x w s).2 := by
  refine hO.step ?_ hM
  unfold folioReturn
  repeat' first
    | with_reducible first | assumption | exact State.Only.refl _ _ | apply updCell_only | apply updGth_only | apply State.Only.ite_ | apply State.Only.ite2
    | (show sub _ _ = true; decide)

theorem dropped_only (x : CellAt) (hO : State.Only ps z s) (hM : sub [.regions, .reg .qctFault] ps = true) :
    State.Only ps z (dropped x s) := by
  refine hO.step ?_ hM
  unfold dropped
  repeat' first
    | with_reducible first | assumption | exact State.Only.refl _ _ | apply charge_only
    | (show sub _ _ = true; decide)

theorem droppedRead_only (x : CellAt) (hO : State.Only ps z s) (hM : sub [.free, .cells, .gatherings, .regions, .reg .qctFault] ps = true) :
    State.Only ps z (droppedRead x s).2 := by
  refine hO.step ?_ hM
  unfold droppedRead
  repeat' first
    | with_reducible first | assumption | exact State.Only.refl _ _ | apply draw_only | apply dropped_only | apply folioReturn_only
    | (show sub _ _ = true; decide)
    | with_reducible first | refine State.Only.snd (by assumption) ?_ | refine State.Only.snd2 (by assumption) ?_ | refine State.Only.snd3 (by assumption) ?_

theorem checkedWord_only (x : CellAt) (h : Nat) (w : BitVec 44) (hO : State.Only ps z s) (hM : sub [.regions, .reg .qctFault] ps = true) :
    State.Only ps z (checkedWord x h w s).2 := by
  refine hO.step ?_ hM
  unfold checkedWord
  repeat' first
    | with_reducible first | assumption | exact State.Only.refl _ _ | apply chargeIf_only
    | (show sub _ _ = true; decide)

theorem bodyFld_only (x : CellAt) (a b c : RWord) (hO : State.Only ps z s) (hM : sub [.free, .cells, .gatherings, .regions, .reg .qctFault] ps = true) :
    State.Only ps z (bodyFld x a b c s).2 := by
  refine hO.step ?_ hM
  unfold bodyFld
  try beta_reduce
  repeat' first
    | with_reducible first | assumption | exact State.Only.refl _ _ | apply droppedRead_only | apply checkedWord_only | apply folioReturn_only | apply State.Only.ite_ | apply State.Only.ite2
    | (show sub _ _ = true; decide)
    | (extract_lets +onlyGivenNames y; with_reducible refine State.Only.cut y ?_ ?_ <;> [dsimp only [y]; (clear_value y; intro hy)])
    | (extract_lets +onlyGivenNames y; clear_value y)
    | split
    | with_reducible first | refine State.Only.snd (by assumption) ?_ | refine State.Only.snd2 (by assumption) ?_ | refine State.Only.snd3 (by assumption) ?_

theorem bodyFst_only (x : CellAt) (a b c : RWord) (hO : State.Only ps z s) (hM : sub [.gatherings, .regions, .reg .qctFault] ps = true) :
    State.Only ps z (bodyFst x a b c s).2 := by
  refine hO.step ?_ hM
  unfold bodyFst
  try beta_reduce
  repeat' first
    | with_reducible first | assumption | exact State.Only.refl _ _ | apply dropped_only | apply chargeIf_only | apply updGth_only | apply State.Only.ite_
    | (show sub _ _ = true; decide)
    | (extract_lets +onlyGivenNames y; with_reducible refine State.Only.cut y ?_ ?_ <;> [dsimp only [y]; (clear_value y; intro hy)])
    | (extract_lets +onlyGivenNames y; clear_value y)
    | split
    | with_reducible first | refine State.Only.snd (by assumption) ?_ | refine State.Only.snd2 (by assumption) ?_ | refine State.Only.snd3 (by assumption) ?_

theorem queuePointer_only (x : CellAt) (h n : Nat) (hO : State.Only ps z s) (hM : sub [.regions, .reg .qctFault] ps = true) :
    State.Only ps z (queuePointer x h n s).2 := by
  refine hO.step ?_ hM
  unfold queuePointer
  repeat' first
    | with_reducible first | assumption | exact State.Only.refl _ _ | apply chargeIf_only
    | (show sub _ _ = true; decide)

theorem bodyFpush_only (x : CellAt) (a b c : RWord) (hO : State.Only ps z s) (hM : sub [.gatherings, .regions, .reg .qctFault] ps = true) :
    State.Only ps z (bodyFpush x a b c s).2 := by
  refine hO.step ?_ hM
  unfold bodyFpush
  try beta_reduce
  repeat' first
    | with_reducible first | assumption | exact State.Only.refl _ _ | apply dropped_only | apply queuePointer_only | apply designCheck_only | apply chargeIf_only | apply updGth_only | apply movePointer_only | apply State.Only.ite_ | apply State.Only.ite2
    | (show sub _ _ = true; decide)
    | (extract_lets +onlyGivenNames y; with_reducible refine State.Only.cut y ?_ ?_ <;> [dsimp only [y]; (clear_value y; intro hy)])
    | (extract_lets +onlyGivenNames y; clear_value y)
    | split
    | with_reducible first | refine State.Only.snd (by assumption) ?_ | refine State.Only.snd2 (by assumption) ?_ | refine State.Only.snd3 (by assumption) ?_

theorem queueHead_only (pop : Bool) (x : CellAt) (hO : State.Only ps z s) (hM : sub [.free, .cells, .gatherings, .regions, .reg .qctFault] ps = true) :
    State.Only ps z (queueHead pop x s).2 := by
  refine hO.step ?_ hM
  unfold queueHead
  repeat' first
    | with_reducible first | assumption | exact State.Only.refl _ _ | apply droppedRead_only | apply queuePointer_only | apply folioReturn_only | apply designCheck_only | apply checkedWord_only | apply movePointer_only | apply State.Only.ite_ | apply State.Only.ite2
    | (show sub _ _ = true; decide)
    | (extract_lets +onlyGivenNames y; with_reducible refine State.Only.cut y ?_ ?_ <;> [dsimp only [y]; (clear_value y; intro hy)])
    | (extract_lets +onlyGivenNames y; clear_value y)
    | split
    | with_reducible first | refine State.Only.snd (by assumption) ?_ | refine State.Only.snd2 (by assumption) ?_ | refine State.Only.snd3 (by assumption) ?_

theorem bodyFpop_only (x : CellAt) (a b c : RWord) (hO : State.Only ps z s) (hM : sub [.free, .cells, .gatherings, .regions, .reg .qctFault] ps = true) :
    State.Only ps z (bodyFpop x a b c s).2 := by
  refine hO.step ?_ hM
  unfold bodyFpop
  try beta_reduce
  repeat' first
    | with_reducible first | assumption | exact State.Only.refl _ _ | apply queueHead_only
    | (show sub _ _ = true; decide)

theorem bodyFpeek_only (x : CellAt) (a b c : RWord) (hO : State.Only ps z s) (hM : sub [.free, .cells, .gatherings, .regions, .reg .qctFault] ps = true) :
    State.Only ps z (bodyFpeek x a b c s).2 := by
  refine hO.step ?_ hM
  unfold bodyFpeek
  try beta_reduce
  repeat' first
    | with_reducible first | assumption | exact State.Only.refl _ _ | apply queueHead_only
    | (show sub _ _ = true; decide)

theorem bodyPput_only (x : CellAt) (a b c : RWord) (hO : State.Only ps z s) (hM : sub [.gatherings, .regions, .reg .qctFault] ps = true) :
    State.Only ps z (bodyPput x a b c s).2 := by
  refine hO.step ?_ hM
  unfold bodyPput
  try beta_reduce
  repeat' first
    | with_reducible first | assumption | exact State.Only.refl _ _ | apply chargeIf_only | apply updGth_only | apply dropped_only | apply State.Only.ite_
    | (show sub _ _ = true; decide)
    | (extract_lets +onlyGivenNames y; with_reducible refine State.Only.cut y ?_ ?_ <;> [dsimp only [y]; (clear_value y; intro hy)])
    | (extract_lets +onlyGivenNames y; clear_value y)
    | split

theorem bodyPget_only (x : CellAt) (a b c : RWord) (hO : State.Only ps z s) (hM : sub [.free, .regions, .reg .qctFault] ps = true) :
    State.Only ps z (bodyPget x a b c s).2 := by
  refine hO.step ?_ hM
  unfold bodyPget
  try beta_reduce
  repeat' first
    | with_reducible first | assumption | exact State.Only.refl _ _ | apply defined_only | apply chargeIf_only
    | (show sub _ _ = true; decide)
    | with_reducible first | refine State.Only.snd (by assumption) ?_ | refine State.Only.snd2 (by assumption) ?_ | refine State.Only.snd3 (by assumption) ?_

theorem queueTest_only (f : Nat → Nat → Nat × Nat → Word) (x : CellAt) (a b c : RWord) (hO : State.Only ps z s) (hM : sub [.free, .regions, .reg .qctFault] ps = true) :
    State.Only ps z (queueTest f x a b c s).2 := by
  refine hO.step ?_ hM
  unfold queueTest
  try beta_reduce
  repeat' first
    | with_reducible first | assumption | exact State.Only.refl _ _ | apply chargeIf_only | apply draw_only | apply dropped_only | apply State.Only.ite_ | apply State.Only.ite2
    | (show sub _ _ = true; decide)
    | (extract_lets +onlyGivenNames y; with_reducible refine State.Only.cut y ?_ ?_ <;> [dsimp only [y]; (clear_value y; intro hy)])
    | (extract_lets +onlyGivenNames y; clear_value y)
    | split
    | with_reducible first | refine State.Only.snd (by assumption) ?_ | refine State.Only.snd2 (by assumption) ?_ | refine State.Only.snd3 (by assumption) ?_

theorem bodyQempty_only (x : CellAt) (a b c : RWord) (hO : State.Only ps z s) (hM : sub [.free, .regions, .reg .qctFault] ps = true) :
    State.Only ps z (bodyQempty x a b c s).2 := by
  refine hO.step ?_ hM
  unfold bodyQempty
  try beta_reduce
  repeat' first
    | with_reducible first | assumption | exact State.Only.refl _ _ | apply queueTest_only
    | (show sub _ _ = true; decide)

theorem bodyQfull_only (x : CellAt) (a b c : RWord) (hO : State.Only ps z s) (hM : sub [.free, .regions, .reg .qctFault] ps = true) :
    State.Only ps z (bodyQfull x a b c s).2 := by
  refine hO.step ?_ hM
  unfold bodyQfull
  try beta_reduce
  repeat' first
    | with_reducible first | assumption | exact State.Only.refl _ _ | apply queueTest_only
    | (show sub _ _ = true; decide)

theorem bodyQhigh_only (x : CellAt) (a b c : RWord) (hO : State.Only ps z s) (hM : sub [.free, .regions, .reg .qctFault] ps = true) :
    State.Only ps z (bodyQhigh x a b c s).2 := by
  refine hO.step ?_ hM
  unfold bodyQhigh
  try beta_reduce
  repeat' first
    | with_reducible first | assumption | exact State.Only.refl _ _ | apply queueTest_only
    | (show sub _ _ = true; decide)

theorem bodyQlow_only (x : CellAt) (a b c : RWord) (hO : State.Only ps z s) (hM : sub [.free, .regions, .reg .qctFault] ps = true) :
    State.Only ps z (bodyQlow x a b c s).2 := by
  refine hO.step ?_ hM
  unfold bodyQlow
  try beta_reduce
  repeat' first
    | with_reducible first | assumption | exact State.Only.refl _ _ | apply queueTest_only
    | (show sub _ _ = true; decide)

theorem bodyQcount_only (x : CellAt) (a b c : RWord) (hO : State.Only ps z s) (hM : sub [.free, .regions, .reg .qctFault] ps = true) :
    State.Only ps z (bodyQcount x a b c s).2 := by
  refine hO.step ?_ hM
  unfold bodyQcount
  try beta_reduce
  repeat' first
    | with_reducible first | assumption | exact State.Only.refl _ _ | apply queueTest_only
    | (show sub _ _ = true; decide)

theorem bodyHin_only (x : CellAt) (a b c : RWord) (hO : State.Only ps z s) (hM : sub [.regions, .reg .qctFault] ps = true) :
    State.Only ps z (bodyHin x a b c s).2 := by
  refine hO.step ?_ hM
  unfold bodyHin
  try beta_reduce
  repeat' first
    | with_reducible first | assumption | exact State.Only.refl _ _ | apply chargeIf_only | apply State.Only.ite_
    | (show sub _ _ = true; decide)

theorem bodyPin_only (x : CellAt) (a b c : RWord) (hO : State.Only ps z s) (hM : sub [] ps = true) :
    State.Only ps z (bodyPin x a b c s).2 := by
  refine hO.step ?_ hM
  unfold bodyPin
  try beta_reduce
  repeat' first
    | with_reducible first | assumption | exact State.Only.refl _ _

theorem bodyHstat_only (x : CellAt) (a b c : RWord) (hO : State.Only ps z s) (hM : sub [] ps = true) :
    State.Only ps z (bodyHstat x a b c s).2 := by
  refine hO.step ?_ hM
  unfold bodyHstat
  try beta_reduce
  repeat' first
    | with_reducible first | assumption | exact State.Only.refl _ _

theorem execCellFld_only (s : State) (c : CellAddr) (k : LeafNo) : OnlyR [.free, .cells, .gatherings, .regions, .reg .qctFault] s (execCellFld c k s) :=
  cellNext_only s _ c k fun x a b c _ h => bodyFld_only x a b c h (by decide)

theorem execCellFst_only (s : State) (c : CellAddr) (k : LeafNo) : OnlyR [.free, .cells, .gatherings, .regions, .reg .qctFault] s (execCellFst c k s) :=
  cellNext_only s _ c k fun x a b c _ h => bodyFst_only x a b c h (by decide)

theorem execCellFpush_only (s : State) (c : CellAddr) (k : LeafNo) : OnlyR [.free, .cells, .gatherings, .regions, .reg .qctFault] s (execCellFpush c k s) :=
  cellNext_only s _ c k fun x a b c _ h => bodyFpush_only x a b c h (by decide)

theorem execCellFpop_only (s : State) (c : CellAddr) (k : LeafNo) : OnlyR [.free, .cells, .gatherings, .regions, .reg .qctFault] s (execCellFpop c k s) :=
  cellNext_only s _ c k fun x a b c _ h => bodyFpop_only x a b c h (by decide)

theorem execCellFpeek_only (s : State) (c : CellAddr) (k : LeafNo) : OnlyR [.free, .cells, .gatherings, .regions, .reg .qctFault] s (execCellFpeek c k s) :=
  cellNext_only s _ c k fun x a b c _ h => bodyFpeek_only x a b c h (by decide)

theorem execCellPput_only (s : State) (c : CellAddr) (k : LeafNo) : OnlyR [.free, .cells, .gatherings, .regions, .reg .qctFault] s (execCellPput c k s) :=
  cellNext_only s _ c k fun x a b c _ h => bodyPput_only x a b c h (by decide)

theorem execCellPget_only (s : State) (c : CellAddr) (k : LeafNo) : OnlyR [.free, .cells, .gatherings, .regions, .reg .qctFault] s (execCellPget c k s) :=
  cellNext_only s _ c k fun x a b c _ h => bodyPget_only x a b c h (by decide)

theorem execCellQempty_only (s : State) (c : CellAddr) (k : LeafNo) : OnlyR [.free, .cells, .gatherings, .regions, .reg .qctFault] s (execCellQempty c k s) :=
  cellNext_only s _ c k fun x a b c _ h => bodyQempty_only x a b c h (by decide)

theorem execCellQfull_only (s : State) (c : CellAddr) (k : LeafNo) : OnlyR [.free, .cells, .gatherings, .regions, .reg .qctFault] s (execCellQfull c k s) :=
  cellNext_only s _ c k fun x a b c _ h => bodyQfull_only x a b c h (by decide)

theorem execCellQhigh_only (s : State) (c : CellAddr) (k : LeafNo) : OnlyR [.free, .cells, .gatherings, .regions, .reg .qctFault] s (execCellQhigh c k s) :=
  cellNext_only s _ c k fun x a b c _ h => bodyQhigh_only x a b c h (by decide)

theorem execCellQlow_only (s : State) (c : CellAddr) (k : LeafNo) : OnlyR [.free, .cells, .gatherings, .regions, .reg .qctFault] s (execCellQlow c k s) :=
  cellNext_only s _ c k fun x a b c _ h => bodyQlow_only x a b c h (by decide)

theorem execCellQcount_only (s : State) (c : CellAddr) (k : LeafNo) : OnlyR [.free, .cells, .gatherings, .regions, .reg .qctFault] s (execCellQcount c k s) :=
  cellNext_only s _ c k fun x a b c _ h => bodyQcount_only x a b c h (by decide)

theorem execCellHin_only (s : State) (c : CellAddr) (k : LeafNo) : OnlyR [.free, .cells, .gatherings, .regions, .reg .qctFault] s (execCellHin c k s) :=
  cellNext_only s _ c k fun x a b c _ h => bodyHin_only x a b c h (by decide)

theorem execCellPin_only (s : State) (c : CellAddr) (k : LeafNo) : OnlyR [.free, .cells, .gatherings, .regions, .reg .qctFault] s (execCellPin c k s) :=
  cellNext_only s _ c k fun x a b c _ h => bodyPin_only x a b c h (by decide)

theorem execCellHstat_only (s : State) (c : CellAddr) (k : LeafNo) : OnlyR [.free, .cells, .gatherings, .regions, .reg .qctFault] s (execCellHstat c k s) :=
  cellNext_only s _ c k fun x a b c _ h => bodyHstat_only x a b c h (by decide)

/-! ### Press -/

theorem settlePress_only (r g t : Nat) (hO : State.Only ps z s) (hM : sub [.gatherings, .regions, .reg .qctFault] ps = true) :
    State.Only ps z (State.settlePress s r g t) := by
  refine hO.step ?_ hM
  unfold State.settlePress
  repeat' first
    | with_reducible first | assumption | exact State.Only.refl _ _ | apply updGth_only | apply chargeIf_only | apply State.Only.foldl_ | apply State.Only.foldl2 | apply State.Only.foldl3
    | (show sub _ _ = true; decide)
    | (intro _ _ hx)
    | with_reducible first | refine State.Only.snd (by assumption) ?_ | refine State.Only.snd2 (by assumption) ?_ | refine State.Only.snd3 (by assumption) ?_

theorem updPress_only (g p : Nat) (f : Press → Press) (hO : State.Only ps z s) (hM : sub [.gatherings] ps = true) :
    State.Only ps z (State.updPress s g p f) := by
  refine hO.step ?_ hM
  unfold State.updPress
  repeat' first
    | with_reducible first | assumption | exact State.Only.refl _ _ | apply updGth_only
    | (show sub _ _ = true; decide)

theorem pressOperand_only (r g t : Nat) (w : Stamped) (hO : State.Only ps z s) (hM : sub [.free, .regions, .reg .qctFault] ps = true) :
    State.Only ps z (State.pressOperand s r g t w).2 := by
  refine hO.step ?_ hM
  unfold State.pressOperand
  repeat' first
    | with_reducible first | assumption | exact State.Only.refl _ _ | apply defined_only | apply chargeIf_only
    | (show sub _ _ = true; decide)
    | with_reducible first | refine State.Only.snd (by assumption) ?_ | refine State.Only.snd2 (by assumption) ?_ | refine State.Only.snd3 (by assumption) ?_

theorem multiply_only (pop g p r t : Nat) (l : BitVec 64) (hO : State.Only ps z s) (hM : sub [.free, .gatherings, .regions, .reg .qctFault] ps = true) :
    State.Only ps z (multiply pop g p r t l s) := by
  refine hO.step ?_ hM
  unfold multiply
  repeat' first
    | with_reducible first | assumption | exact State.Only.refl _ _ | apply pressOperand_only | apply updGth_only | apply updPress_only | apply State.Only.ite_ | apply State.Only.ite2
    | (show sub _ _ = true; decide)
    | with_reducible first | refine State.Only.snd (by assumption) ?_ | refine State.Only.snd2 (by assumption) ?_ | refine State.Only.snd3 (by assumption) ?_

theorem runPress_only (pop : Nat) {body : Nat → Nat → Nat → Nat → BitVec 64 → State → State}
    (g p k : Nat) (hO : State.Only ps z s) (hM : sub [.free, .gatherings, .regions, .reg .qctFault] ps = true)
    (hb : ∀ g p r t l y, State.Only [.free, .gatherings, .regions, .reg .qctFault] s y →
      State.Only [.free, .gatherings, .regions, .reg .qctFault] s (body g p r t l y)) :
    State.Only ps z (s.runPress pop body g p k) := by
  refine hO.step ?_ hM
  unfold State.runPress
  repeat' first
    | with_reducible first | assumption | exact State.Only.refl _ _ | apply updPress_only | apply hb | apply chargeIf_only | apply State.Only.ite_
    | (show sub _ _ = true; decide)
    | (extract_lets +onlyGivenNames y; refine State.Only.cut y ?_ ?_ <;> [dsimp only [y]; (clear_value y; intro hy)])
    | (extract_lets +onlyGivenNames y; clear_value y)
    | split

theorem bodyPnop_only (u0 u1 u2 u3 : Nat) (u4 : BitVec 64) (hO : State.Only ps z s) (hM : sub [] ps = true) :
    State.Only ps z (bodyPnop u0 u1 u2 u3 u4 s) := by
  refine hO.step ?_ hM
  unfold bodyPnop
  repeat' first
    | with_reducible first | assumption | exact State.Only.refl _ _

theorem bodyPmul_only (g p r t : Nat) (l : BitVec 64) (hO : State.Only ps z s) (hM : sub [.free, .gatherings, .regions, .reg .qctFault] ps = true) :
    State.Only ps z (bodyPmul g p r t l s) := by
  refine hO.step ?_ hM
  unfold bodyPmul
  repeat' first
    | with_reducible first | assumption | exact State.Only.refl _ _ | apply multiply_only
    | (show sub _ _ = true; decide)

theorem bodyPmac_only (g p r t : Nat) (l : BitVec 64) (hO : State.Only ps z s) (hM : sub [.free, .gatherings, .regions, .reg .qctFault] ps = true) :
    State.Only ps z (bodyPmac g p r t l s) := by
  refine hO.step ?_ hM
  unfold bodyPmac
  repeat' first
    | with_reducible first | assumption | exact State.Only.refl _ _ | apply multiply_only
    | (show sub _ _ = true; decide)

theorem bodyPmsu_only (g p r t : Nat) (l : BitVec 64) (hO : State.Only ps z s) (hM : sub [.free, .gatherings, .regions, .reg .qctFault] ps = true) :
    State.Only ps z (bodyPmsu g p r t l s) := by
  refine hO.step ?_ hM
  unfold bodyPmsu
  repeat' first
    | with_reducible first | assumption | exact State.Only.refl _ _ | apply multiply_only
    | (show sub _ _ = true; decide)

theorem bodyPext_only (g p r t : Nat) (l : BitVec 64) (hO : State.Only ps z s) (hM : sub [.gatherings, .regions, .reg .qctFault] ps = true) :
    State.Only ps z (bodyPext g p r t l s) := by
  refine hO.step ?_ hM
  unfold bodyPext
  repeat' first
    | with_reducible first | assumption | exact State.Only.refl _ _ | apply updPress_only | apply chargeIf_only | apply State.Only.ite_
    | (show sub _ _ = true; decide)

theorem bodyPclr_only (g p r t : Nat) (u4 : BitVec 64) (hO : State.Only ps z s) (hM : sub [.gatherings] ps = true) :
    State.Only ps z (bodyPclr g p r t u4 s) := by
  refine hO.step ?_ hM
  unfold bodyPclr
  repeat' first
    | with_reducible first | assumption | exact State.Only.refl _ _ | apply updGth_only | apply updPress_only | apply State.Only.ite_
    | (show sub _ _ = true; decide)

theorem execPnop_only (s : State) (g : GthAddr) (p : Fin 2) (k : LeafNo) : OnlyR [.free, .gatherings, .regions, .reg .qctFault] s (execPnop g p k s) := by
  unfold execPnop
  repeat' first
    | with_reducible first | assumption | exact State.Only.refl _ _ | apply OnlyR.next | apply runPress_only | apply bodyPnop_only
    | (show sub _ _ = true; decide)
    | (intro _ _ _ _ _ _ hx)

theorem execPmul_only (s : State) (g : GthAddr) (p : Fin 2) (k : LeafNo) : OnlyR [.free, .gatherings, .regions, .reg .qctFault] s (execPmul g p k s) := by
  unfold execPmul
  repeat' first
    | with_reducible first | assumption | exact State.Only.refl _ _ | apply OnlyR.next | apply runPress_only | apply bodyPmul_only
    | (show sub _ _ = true; decide)
    | (intro _ _ _ _ _ _ hx)

theorem execPmac_only (s : State) (g : GthAddr) (p : Fin 2) (k : LeafNo) : OnlyR [.free, .gatherings, .regions, .reg .qctFault] s (execPmac g p k s) := by
  unfold execPmac
  repeat' first
    | with_reducible first | assumption | exact State.Only.refl _ _ | apply OnlyR.next | apply runPress_only | apply bodyPmac_only
    | (show sub _ _ = true; decide)
    | (intro _ _ _ _ _ _ hx)

theorem execPmsu_only (s : State) (g : GthAddr) (p : Fin 2) (k : LeafNo) : OnlyR [.free, .gatherings, .regions, .reg .qctFault] s (execPmsu g p k s) := by
  unfold execPmsu
  repeat' first
    | with_reducible first | assumption | exact State.Only.refl _ _ | apply OnlyR.next | apply runPress_only | apply bodyPmsu_only
    | (show sub _ _ = true; decide)
    | (intro _ _ _ _ _ _ hx)

theorem execPext_only (s : State) (g : GthAddr) (p : Fin 2) (k : LeafNo) : OnlyR [.free, .gatherings, .regions, .reg .qctFault] s (execPext g p k s) := by
  unfold execPext
  repeat' first
    | with_reducible first | assumption | exact State.Only.refl _ _ | apply OnlyR.next | apply runPress_only | apply bodyPext_only
    | (show sub _ _ = true; decide)
    | (intro _ _ _ _ _ _ hx)

theorem execPclr_only (s : State) (g : GthAddr) (p : Fin 2) (k : LeafNo) : OnlyR [.free, .gatherings, .regions, .reg .qctFault] s (execPclr g p k s) := by
  unfold execPclr
  repeat' first
    | with_reducible first | assumption | exact State.Only.refl _ _ | apply OnlyR.next | apply runPress_only | apply bodyPclr_only
    | (show sub _ _ = true; decide)
    | (intro _ _ _ _ _ _ hx)

/-! ### FuistBase -/

theorem updPort_only (p : Nat) (f : Port → Port) (hO : State.Only ps z s) (hM : sub [.fuist] ps = true) :
    State.Only ps z (State.updPort s p f) := by
  refine hO.step ?_ hM
  unfold State.updPort
  repeat' first
    | with_reducible first | assumption | exact State.Only.refl _ _
    | (show sub _ _ = true; decide)
    | with_reducible apply only_fst

theorem sendExch_only (dst : Nat) (f : Frame) (hO : State.Only ps z s) (hM : sub [.log, .fuist, .collator, .reg .colEv, .reg .logCtl] ps = true) :
    State.Only ps z (State.sendExch s dst f) := by
  refine hO.step ?_ hM
  unfold State.sendExch
  repeat' first
    | with_reducible first | assumption | exact State.Only.refl _ _ | apply logOther_only | apply updPort_only | apply State.Only.ite_
    | (show sub _ _ = true; decide)

theorem sendToken_only (t : Token) (att : Nat) (hO : State.Only ps z s) (hM : sub [.fuist] ps = true) :
    State.Only ps z (State.sendToken s t att) := by
  refine hO.step ?_ hM
  unfold State.sendToken
  repeat' first
    | with_reducible first | assumption | exact State.Only.refl _ _ | apply updPort_only | apply State.Only.foldl_ | apply State.Only.foldl2 | apply State.Only.foldl3
    | (show sub _ _ = true; decide)
    | (intro _ _ hx)

theorem putToken_only (r : Nat) (t : Token) (hO : State.Only ps z s) (hM : sub [.regions] ps = true) :
    State.Only ps z (State.putToken s r t) := by
  refine hO.step ?_ hM
  unfold State.putToken
  repeat' first
    | with_reducible first | assumption | exact State.Only.refl _ _ | apply updRegion_only
    | (show sub _ _ = true; decide)

/-! ### Pads -/

theorem updPad_only (p : Nat) (f : Pad → Pad) (hO : State.Only ps z s) (hM : sub [.pads] ps = true) :
    State.Only ps z (State.updPad s p f) := by
  refine hO.step ?_ hM
  unfold State.updPad
  repeat' first
    | with_reducible first | assumption | exact State.Only.refl _ _
    | (show sub _ _ = true; decide)
    | (extract_lets +onlyGivenNames y; have _h : SysState := y; clear _h; dsimp only [y]; clear y)
    | with_reducible refine only_sys ?_ _ (fun p hp => by cases p <;> first | exact absurd (by decide) hp | simp [Part.same, State.reg])

/-! ### Quire -/

theorem onVersions_only (r : Nat) (fc : Ver CellWords → Ver CellWords) (fg : Gth → Gth) (hO : State.Only ps z s) (hM : sub [.cells, .gatherings] ps = true) :
    State.Only ps z (State.onVersions s r fc fg) := by
  refine hO.step ?_ hM
  unfold State.onVersions
  repeat' first
    | with_reducible first | assumption | exact State.Only.refl _ _
    | (show sub _ _ = true; decide)
    | (extract_lets +onlyGivenNames y; have _h : ArrayState := y; clear _h; dsimp only [y]; clear y)
    | with_reducible refine only_arr ?_ _ (fun p hp => by cases p <;> first | exact absurd (by decide) hp | simp [Part.same, State.reg])

theorem settleRegion_only (r : Nat) (hO : State.Only ps z s) (hM : sub [.cells, .gatherings, .regions, .reg .qctFault] ps = true) :
    State.Only ps z (State.settleRegion s r) := by
  refine hO.step ?_ hM
  unfold State.settleRegion
  repeat' first
    | with_reducible first | assumption | exact State.Only.refl _ _ | apply settlePress_only | apply State.Only.foldl_ | apply State.Only.foldl2 | apply State.Only.foldl3
    | (show sub _ _ = true; decide)
    | (intro _ _ hx)
    | (extract_lets +onlyGivenNames y; have _h : ArrayState := y; clear _h; dsimp only [y]; clear y)
    | (extract_lets +onlyGivenNames y; with_reducible refine State.Only.cut y ?_ ?_ <;> [dsimp only [y]; (clear_value y; intro hy)])
    | (extract_lets +onlyGivenNames y; clear_value y)
    | with_reducible refine only_arr ?_ _ (fun p hp => by cases p <;> first | exact absurd (by decide) hp | simp [Part.same, State.reg])

theorem exchangeIn_only (r g q : Nat) (hs : Sparse HingeIn) (hO : State.Only ps z s) (hM : sub [.free] ps = true) :
    State.Only ps z (State.exchangeIn s r g q hs).2 := by
  refine hO.step ?_ hM
  unfold State.exchangeIn
  repeat' first
    | with_reducible first | assumption | exact State.Only.refl _ _ | apply draw_only | apply State.Only.ite_ | apply State.Only.ite2 | apply State.Only.foldl_ | apply State.Only.foldl2 | apply State.Only.foldl3
    | (show sub _ _ = true; decide)
    | (intro _ _ hx)
    | (extract_lets +onlyGivenNames y; with_reducible refine State.Only.cut y ?_ ?_ <;> [dsimp only [y]; (clear_value y; intro hy)])
    | (extract_lets +onlyGivenNames y; clear_value y)
    | split
    | with_reducible first | refine State.Only.snd (by assumption) ?_ | refine State.Only.snd2 (by assumption) ?_ | refine State.Only.snd3 (by assumption) ?_

theorem captureAll_only (r n : Nat) (pads : BitVec 192) (hO : State.Only ps z s) (hM : sub [.free] ps = true) :
    State.Only ps z (State.captureAll s r n pads).2 := by
  refine hO.step ?_ hM
  unfold State.captureAll
  repeat' first
    | with_reducible first | assumption | exact State.Only.refl _ _ | apply exchangeIn_only | apply State.Only.ite_ | apply State.Only.ite2 | apply State.Only.foldl_ | apply State.Only.foldl2 | apply State.Only.foldl3
    | (show sub _ _ = true; decide)
    | (intro _ _ hx)
    | with_reducible first | refine State.Only.snd (by assumption) ?_ | refine State.Only.snd2 (by assumption) ?_ | refine State.Only.snd3 (by assumption) ?_

theorem advanceStage_only (r n : Nat) (hO : State.Only ps z s) (hM : sub [.reg .bndStat, .reg .bndCase, .reg .qctStatus] ps = true) :
    State.Only ps z (State.advanceStage s r n) := by
  refine hO.step ?_ hM
  unfold State.advanceStage
  repeat' first
    | with_reducible first | assumption | exact State.Only.refl _ _ | apply only_putN | apply State.Only.ite_
    | (show sub _ _ = true; decide)

theorem pushReset_only (r n : Nat) (hO : State.Only ps z s) (hM : sub [.gatherings, .collator, .reg .colEv] ps = true) :
    State.Only ps z (State.pushReset s r n) := by
  refine hO.step ?_ hM
  unfold State.pushReset
  repeat' first
    | with_reducible first | assumption | exact State.Only.refl _ _ | apply gthEvents_only | apply ringPush_only | apply State.Only.ite_
    | (show sub _ _ = true; decide)

theorem openQuire_only (r n : Nat) (fresh : Bool) (pads : BitVec 192) (hO : State.Only ps z s) (hM : sub [.free, .gatherings, .regions, .collator, .reg .colEv, .reg .bndStat, .reg .bndCase, .reg .qctExec, .reg .qctStatus] ps = true) :
    State.Only ps z (State.openQuire s r n fresh pads) := by
  refine hO.step ?_ hM
  unfold State.openQuire
  repeat' first
    | with_reducible first | assumption | exact State.Only.refl _ _ | apply updRegion_only | apply only_putN | apply advanceStage_only | apply captureAll_only | apply pushReset_only | apply exchangeIn_only | apply State.Only.ite_ | apply State.Only.ite2 | apply State.Only.foldl_ | apply State.Only.foldl2 | apply State.Only.foldl3
    | (show sub _ _ = true; decide)
    | (intro _ _ hx)
    | (extract_lets +onlyGivenNames y; have _h : ArrayState := y; clear _h; dsimp only [y]; clear y)
    | (extract_lets +onlyGivenNames y; with_reducible refine State.Only.cut y ?_ ?_ <;> [dsimp only [y]; (clear_value y; intro hy)])
    | (extract_lets +onlyGivenNames y; clear_value y)
    | split
    | with_reducible first | refine State.Only.snd (by assumption) ?_ | refine State.Only.snd2 (by assumption) ?_ | refine State.Only.snd3 (by assumption) ?_
    | with_reducible refine only_arr ?_ _ (fun p hp => by cases p <;> first | exact absurd (by decide) hp | simp [Part.same, State.reg, State.putN, State.putF, State.setReg])

theorem throttled_only (r : Nat) (hO : State.Only ps z s) (hM : sub [.reg .qctStretch] ps = true) :
    State.Only ps z (State.throttled s r) := by
  refine hO.step ?_ hM
  unfold State.throttled
  repeat' first
    | with_reducible first | assumption | exact State.Only.refl _ _ | apply only_addF | apply State.Only.ite_
    | (show sub _ _ = true; decide)

theorem openNext_only (r n : Nat) (fresh : Bool) (pads : BitVec 192) (hO : State.Only ps z s) (hM : sub [.free, .gatherings, .regions, .collator, .reg .colEv, .reg .bndStat, .reg .bndCase, .reg .qctExec, .reg .qctStatus, .reg .qctStretch] ps = true) :
    State.Only ps z (State.openNext s r n fresh pads) := by
  refine hO.step ?_ hM
  unfold State.openNext
  repeat' first
    | with_reducible first | assumption | exact State.Only.refl _ _ | apply throttled_only | apply updRegion_only | apply openQuire_only | apply State.Only.ite_
    | (show sub _ _ = true; decide)

theorem recordCheck_only (g n : Nat) (c : Option DesignCheck) (hO : State.Only ps z s) (hM : sub [.reg .gthDchk] ps = true) :
    State.Only ps z (State.recordCheck s g n c) := by
  refine hO.step ?_ hM
  unfold State.recordCheck
  repeat' first
    | with_reducible first | assumption | exact State.Only.refl _ _ | apply only_addF | apply only_putN | apply only_setF | apply State.Only.ite_
    | (show sub _ _ = true; decide)
    | (extract_lets +onlyGivenNames y; with_reducible refine State.Only.cut y ?_ ?_ <;> [dsimp only [y]; (clear_value y; intro hy)])
    | (extract_lets +onlyGivenNames y; clear_value y)
    | split
    | with_reducible first | refine State.Only.snd (by assumption) ?_ | refine State.Only.snd2 (by assumption) ?_ | refine State.Only.snd3 (by assumption) ?_

theorem queueEvents_only (r : Nat) (hO : State.Only ps z s) (hM : sub [.gatherings, .collator, .reg .colEv] ps = true) :
    State.Only ps z (State.queueEvents s r) := by
  refine hO.step ?_ hM
  unfold State.queueEvents
  repeat' first
    | with_reducible first | assumption | exact State.Only.refl _ _ | apply gthEvents_only | apply State.Only.foldl_ | apply State.Only.foldl2 | apply State.Only.foldl3
    | (show sub _ _ = true; decide)
    | (intro _ _ hx)

theorem commitEdge_only (r n : Nat) (hO : State.Only ps z s) (hM : sub [.cells, .gatherings, .regions, .collator, .reg .colEv, .reg .qctCommitted, .reg .qctStatus, .reg .gthDchk] ps = true) :
    State.Only ps z (State.commitEdge s r n) := by
  refine hO.step ?_ hM
  unfold State.commitEdge
  repeat' first
    | with_reducible first | assumption | exact State.Only.refl _ _ | apply updRegion_only | apply recordCheck_only | apply onVersions_only | apply only_putN | apply queueEvents_only | apply State.Only.ite_ | apply State.Only.foldl_ | apply State.Only.foldl2 | apply State.Only.foldl3
    | (show sub _ _ = true; decide)
    | (intro _ _ hx)

theorem startOps_only (r : Nat) (hO : State.Only ps z s) (hM : sub [.reg .qctRbStat, .reg .qctBmkStat] ps = true) :
    State.Only ps z (State.startOps s r) := by
  refine hO.step ?_ hM
  unfold State.startOps
  repeat' first
    | with_reducible first | assumption | exact State.Only.refl _ _ | apply only_putN | apply State.Only.ite_
    | (show sub _ _ = true; decide)

theorem enterHeld_only (r : Nat) (hO : State.Only ps z s) (hM : sub [.cells, .gatherings, .regions, .reg .qctStatus, .reg .qctHold, .reg .qctRbStat, .reg .qctBmkStat] ps = true) :
    State.Only ps z (State.enterHeld s r) := by
  refine hO.step ?_ hM
  unfold State.enterHeld
  repeat' first
    | with_reducible first | assumption | exact State.Only.refl _ _ | apply onVersions_only | apply only_clrF | apply only_putN | apply startOps_only | apply updRegion_only
    | (show sub _ _ = true; decide)

theorem logVote_only (code r n : Nat) (hO : State.Only ps z s) (hM : sub [.log, .collator, .reg .colEv, .reg .logCtl] ps = true) :
    State.Only ps z (State.logVote s code r n) := by
  refine hO.step ?_ hM
  unfold State.logVote
  repeat' first
    | with_reducible first | assumption | exact State.Only.refl _ _ | apply logEntry_only
    | (show sub _ _ = true; decide)

theorem recordFault_only (r n : Nat) (f : Option Fail) (hO : State.Only ps z s) (hM : sub [.reg .qctFault] ps = true) :
    State.Only ps z (State.recordFault s r n f) := by
  refine hO.step ?_ hM
  unfold State.recordFault
  repeat' first
    | with_reducible first | assumption | exact State.Only.refl _ _ | apply recordFail_only
    | (show sub _ _ = true; decide)
    | split
    | with_reducible first | refine State.Only.snd (by assumption) ?_ | refine State.Only.snd2 (by assumption) ?_ | refine State.Only.snd3 (by assumption) ?_

theorem enterQfault_only (r n : Nat) (hO : State.Only ps z s) (hM : sub [.outs, .log, .cells, .gatherings, .regions, .collator, .reg .hubMsixPba, .reg .colEv, .reg .qctStatus, .reg .qctHold, .reg .qctRbStat, .reg .qctBmkStat, .reg .logCtl] ps = true) :
    State.Only ps z (State.enterQfault s r n) := by
  refine hO.step ?_ hM
  unfold State.enterQfault
  repeat' first
    | with_reducible first | assumption | exact State.Only.refl _ _ | apply onVersions_only | apply only_setF | apply only_putN | apply only_clrF | apply updRegion_only | apply startOps_only | apply signalOwner_only | apply logVote_only | apply State.Only.ite_
    | (show sub _ _ = true; decide)

theorem captureFault_only (r n : Nat) (hO : State.Only ps z s) (hM : sub [.outs, .log, .cells, .gatherings, .regions, .collator, .reg .hubMsixPba, .reg .colEv, .reg .qctStatus, .reg .qctFault, .reg .qctHold, .reg .qctRbStat, .reg .qctBmkStat, .reg .logCtl] ps = true) :
    State.Only ps z (State.captureFault s r n) := by
  refine hO.step ?_ hM
  unfold State.captureFault
  repeat' first
    | with_reducible first | assumption | exact State.Only.refl _ _ | apply recordFault_only | apply enterQfault_only
    | (show sub _ _ = true; decide)

theorem replayVote_only (r n : Nat) (f : Option Fail) (bad : BitVec 2) (hO : State.Only ps z s) (hM : sub [.free, .outs, .log, .cells, .gatherings, .regions, .collator, .reg .hubMsixPba, .reg .colEv, .reg .bndStat, .reg .bndCase, .reg .qctExec, .reg .qctStatus, .reg .qctReplays, .reg .qctFault, .reg .qctHold, .reg .qctRbStat, .reg .qctBmkStat, .reg .logCtl] ps = true) :
    State.Only ps z (State.replayVote s r n f bad) := by
  refine hO.step ?_ hM
  unfold State.replayVote
  repeat' first
    | with_reducible first | assumption | exact State.Only.refl _ _ | apply recordFault_only | apply only_putN | apply only_addF | apply logVote_only | apply enterQfault_only | apply onVersions_only | apply updRegion_only | apply captureFault_only | apply openQuire_only | apply State.Only.ite_
    | (show sub _ _ = true; decide)

theorem localVote_only (r : Nat) (pads : BitVec 192) (bad : BitVec 2) (hO : State.Only ps z s) (hM : sub [.free, .outs, .log, .cells, .gatherings, .regions, .collator, .reg .hubMsixPba, .reg .colEv, .reg .bndStat, .reg .bndCase, .reg .qctCommitted, .reg .qctExec, .reg .qctStatus, .reg .qctReplays, .reg .qctStretch, .reg .qctFault, .reg .qctHold, .reg .qctRbStat, .reg .qctBmkStat, .reg .logCtl, .reg .gthDchk] ps = true) :
    State.Only ps z (State.localVote s r pads bad) := by
  refine hO.step ?_ hM
  unfold State.localVote
  repeat' first
    | with_reducible first | assumption | exact State.Only.refl _ _ | apply replayVote_only | apply commitEdge_only | apply enterHeld_only | apply openNext_only | apply State.Only.ite_
    | (show sub _ _ = true; decide)
    | (extract_lets +onlyGivenNames y; with_reducible refine State.Only.cut y ?_ ?_ <;> [dsimp only [y]; (clear_value y; intro hy)])
    | (extract_lets +onlyGivenNames y; clear_value y)
    | split
    | with_reducible first | refine State.Only.snd (by assumption) ?_ | refine State.Only.snd2 (by assumption) ?_ | refine State.Only.snd3 (by assumption) ?_

theorem sendPoison_only (r q : Nat) (hO : State.Only ps z s) (hM : sub [.log, .regions, .fuist, .collator, .reg .colEv, .reg .logCtl] ps = true) :
    State.Only ps z (State.sendPoison s r q) := by
  refine hO.step ?_ hM
  unfold State.sendPoison
  repeat' first
    | with_reducible first | assumption | exact State.Only.refl _ _ | apply updRegion_only | apply sendExch_only | apply State.Only.ite_ | apply State.Only.foldl_ | apply State.Only.foldl2 | apply State.Only.foldl3
    | (show sub _ _ = true; decide)
    | (intro _ _ hx)

theorem systemVote_only (r : Nat) (pads : BitVec 192) (bad : BitVec 2) (hO : State.Only ps z s) (hM : sub [.free, .outs, .log, .cells, .gatherings, .regions, .fuist, .collator, .reg .hubMsixPba, .reg .colEv, .reg .bndStat, .reg .bndCase, .reg .qctCommitted, .reg .qctExec, .reg .qctStatus, .reg .qctReplays, .reg .qctStretch, .reg .qctFault, .reg .qctHold, .reg .qctRbStat, .reg .qctBmkStat, .reg .logCtl, .reg .gthDchk] ps = true) :
    State.Only ps z (State.systemVote s r pads bad) := by
  refine hO.step ?_ hM
  unfold State.systemVote
  repeat' first
    | with_reducible first | assumption | exact State.Only.refl _ _ | apply sendPoison_only | apply updRegion_only | apply only_putN | apply onVersions_only | apply captureFault_only | apply openNext_only | apply commitEdge_only | apply enterHeld_only | apply replayVote_only | apply State.Only.ite_
    | (show sub _ _ = true; decide)
    | (extract_lets +onlyGivenNames y; with_reducible refine State.Only.cut y ?_ ?_ <;> [dsimp only [y]; (clear_value y; intro hy)])
    | (extract_lets +onlyGivenNames y; clear_value y)
    | split
    | with_reducible first | refine State.Only.snd (by assumption) ?_ | refine State.Only.snd2 (by assumption) ?_ | refine State.Only.snd3 (by assumption) ?_

theorem retryVote_only (r : Nat) (pads : BitVec 192) (bad : BitVec 2) (hO : State.Only ps z s) (hM : sub [.free, .outs, .log, .cells, .gatherings, .regions, .fuist, .collator, .reg .hubMsixPba, .reg .colEv, .reg .bndStat, .reg .bndCase, .reg .qctCommitted, .reg .qctExec, .reg .qctStatus, .reg .qctReplays, .reg .qctStretch, .reg .qctFault, .reg .qctHold, .reg .qctRbStat, .reg .qctBmkStat, .reg .logCtl, .reg .gthDchk] ps = true) :
    State.Only ps z (State.retryVote s r pads bad) := by
  refine hO.step ?_ hM
  unfold State.retryVote
  repeat' first
    | with_reducible first | assumption | exact State.Only.refl _ _ | apply systemVote_only | apply State.Only.ite_
    | (show sub _ _ = true; decide)

theorem commitPoint_only (r : Nat) (pads : BitVec 192) (bad : BitVec 2) (hO : State.Only ps z s) (hM : sub [.free, .outs, .log, .cells, .gatherings, .regions, .fuist, .collator, .reg .hubMsixPba, .reg .colEv, .reg .bndStat, .reg .bndCase, .reg .qctCommitted, .reg .qctExec, .reg .qctStatus, .reg .qctReplays, .reg .qctStretch, .reg .qctFault, .reg .qctHold, .reg .qctRbStat, .reg .qctBmkStat, .reg .logCtl, .reg .gthDchk] ps = true) :
    State.Only ps z (State.commitPoint s r pads bad) := by
  refine hO.step ?_ hM
  unfold State.commitPoint
  repeat' first
    | with_reducible first | assumption | exact State.Only.refl _ _ | apply retryVote_only | apply settleRegion_only | apply localVote_only | apply openQuire_only | apply updRegion_only | apply systemVote_only | apply only_putN | apply State.Only.ite_
    | (show sub _ _ = true; decide)

theorem execCommitVote_only (s : State) (r : RegionId) (pads : BitVec 192) (bad : BitVec 2) : OnlyR [.free, .outs, .log, .cells, .gatherings, .regions, .fuist, .collator, .reg .hubMsixPba, .reg .colEv, .reg .bndStat, .reg .bndCase, .reg .qctCommitted, .reg .qctExec, .reg .qctStatus, .reg .qctReplays, .reg .qctStretch, .reg .qctFault, .reg .qctHold, .reg .qctRbStat, .reg .qctBmkStat, .reg .logCtl, .reg .gthDchk] s (execCommitVote r pads bad s) := by
  unfold execCommitVote
  repeat' first
    | with_reducible first | assumption | exact State.Only.refl _ _ | apply OnlyR.next | apply commitPoint_only
    | (show sub _ _ = true; decide)

theorem tokenTimeout_only (r : Nat) (hO : State.Only ps z s) (hM : sub [.outs, .log, .regions, .collator, .reg .hubMsixPba, .reg .colEv, .reg .qctStatus, .reg .logCtl] ps = true) :
    State.Only ps z (State.tokenTimeout s r) := by
  refine hO.step ?_ hM
  unfold State.tokenTimeout
  repeat' first
    | with_reducible first | assumption | exact State.Only.refl _ _ | apply only_setF | apply only_putN | apply updRegion_only | apply signalOwner_only | apply logVote_only | apply State.Only.ite_
    | (show sub _ _ = true; decide)

theorem execTokenTimeout_only (s : State) (r : RegionId) : OnlyR [.outs, .log, .regions, .collator, .reg .hubMsixPba, .reg .colEv, .reg .qctStatus, .reg .logCtl] s (execTokenTimeout r s) := by
  unfold execTokenTimeout
  repeat' first
    | with_reducible first | assumption | exact State.Only.refl _ _ | apply OnlyR.next | apply tokenTimeout_only
    | (show sub _ _ = true; decide)

theorem retryRegion_only (r : Nat) (bad : BitVec 2) (hO : State.Only ps z s) (hM : sub [.free, .outs, .log, .cells, .gatherings, .regions, .collator, .reg .hubMsixPba, .reg .colEv, .reg .bndStat, .reg .bndCase, .reg .qctExec, .reg .qctStatus, .reg .qctFault, .reg .qctHold, .reg .qctRbStat, .reg .qctBmkStat, .reg .logCtl] ps = true) :
    State.Only ps z (State.retryRegion s r bad) := by
  refine hO.step ?_ hM
  unfold State.retryRegion
  repeat' first
    | with_reducible first | assumption | exact State.Only.refl _ _ | apply onVersions_only | apply only_putN | apply updRegion_only | apply captureFault_only | apply openQuire_only | apply State.Only.ite_
    | (show sub _ _ = true; decide)

theorem schedule_only (c : SysCmd) (hO : State.Only ps z s) (hM : sub [.fuist] ps = true) :
    State.Only ps z (State.schedule s c) := by
  refine hO.step ?_ hM
  unfold State.schedule
  repeat' first
    | with_reducible first | assumption | exact State.Only.refl _ _
    | (show sub _ _ = true; decide)
    | with_reducible apply only_fst

theorem commandHead_only (cmd : Nat) (hO : State.Only ps z s) (hM : sub [.fuist] ps = true) :
    State.Only ps z (State.commandHead s cmd).2 := by
  refine hO.step ?_ hM
  unfold State.commandHead
  repeat' first
    | with_reducible first | assumption | exact State.Only.refl _ _
    | (show sub _ _ = true; decide)
    | (extract_lets +onlyGivenNames y; with_reducible refine State.Only.cut y ?_ ?_ <;> [dsimp only [y]; (clear_value y; intro hy)])
    | (extract_lets +onlyGivenNames y; clear_value y)
    | with_reducible apply only_fst

theorem sendSystem_only (cmd : Nat) (w1 : Word) (hO : State.Only ps z s) (hM : sub [.fuist] ps = true) :
    State.Only ps z (State.sendSystem s cmd w1) := by
  refine hO.step ?_ hM
  unfold State.sendSystem
  repeat' first
    | with_reducible first | assumption | exact State.Only.refl _ _ | apply commandHead_only | apply schedule_only | apply updPort_only | apply State.Only.foldl_ | apply State.Only.foldl2 | apply State.Only.foldl3
    | (show sub _ _ = true; decide)
    | (intro _ _ hx)
    | (extract_lets +onlyGivenNames y; with_reducible refine State.Only.cut y ?_ ?_ <;> [dsimp only [y]; (clear_value y; intro hy)])
    | (extract_lets +onlyGivenNames y; clear_value y)
    | split
    | with_reducible first | refine State.Only.snd (by assumption) ?_ | refine State.Only.snd2 (by assumption) ?_ | refine State.Only.snd3 (by assumption) ?_
    | with_reducible apply only_fst

theorem qctRetry_only (fn : FnId) (r : RegionId) (v : BitVec 64) (bad : BitVec 2) (hO : State.Only ps z s) (hM : sub [.free, .outs, .log, .cells, .gatherings, .regions, .fuist, .collator, .reg .hubMsixPba, .reg .colEv, .reg .bndStat, .reg .bndCase, .reg .qctExec, .reg .qctStatus, .reg .qctFault, .reg .qctHold, .reg .qctRbStat, .reg .qctBmkStat, .reg .logCtl] ps = true) :
    State.Only ps z (State.qctRetry s fn r v bad) := by
  refine hO.step ?_ hM
  unfold State.qctRetry
  repeat' first
    | with_reducible first | assumption | exact State.Only.refl _ _ | apply ignored_only | apply sendSystem_only | apply retryRegion_only | apply only_setF | apply logRefused_only | apply State.Only.ite_
    | (show sub _ _ = true; decide)

theorem execQctRetry_only (s : State) (fn : FnId) (r : RegionId) (w : RetryWrite) : OnlyR [.free, .outs, .log, .cells, .gatherings, .regions, .fuist, .collator, .reg .hubMsixPba, .reg .colEv, .reg .bndStat, .reg .bndCase, .reg .qctExec, .reg .qctStatus, .reg .qctFault, .reg .qctHold, .reg .qctRbStat, .reg .qctBmkStat, .reg .logCtl] s (execQctRetry fn r w s) := by
  unfold execQctRetry
  repeat' first
    | with_reducible first | assumption | exact State.Only.refl _ _ | apply OnlyR.next | apply bar_only | apply qctRetry_only
    | (show sub _ _ = true; decide)
    | (intro _ hx)

theorem qctInject_only (fn : FnId) (r : RegionId) (v : BitVec 64) (hO : State.Only ps z s) (hM : sub [.log, .regions, .collator, .reg .colEv, .reg .qctStatus, .reg .qctFault, .reg .logCtl] ps = true) :
    State.Only ps z (State.qctInject s fn r v) := by
  refine hO.step ?_ hM
  unfold State.qctInject
  repeat' first
    | with_reducible first | assumption | exact State.Only.refl _ _ | apply ignored_only | apply charge_only | apply only_setF | apply logRefused_only | apply State.Only.ite_
    | (show sub _ _ = true; decide)

theorem execQctInject_only (s : State) (fn : FnId) (r : RegionId) (v : BitVec 64) : OnlyR [.log, .regions, .collator, .reg .colEv, .reg .qctStatus, .reg .qctFault, .reg .logCtl] s (execQctInject fn r v s) := by
  unfold execQctInject
  repeat' first
    | with_reducible first | assumption | exact State.Only.refl _ _ | apply OnlyR.next | apply bar_only | apply qctInject_only
    | (show sub _ _ = true; decide)
    | (intro _ hx)

end Sys2Proof.Machine
end

