-- ==== Sys2Proof/Laws/FrameHost.lean ====
section
/-!
SUPPORT. The frames of the operations of the host rings, the ledger and the collator. Each says which parts of the state an operation may change.
-/
namespace Sys2Proof.Machine

variable {ps : List Part} {z s : State}

/-! ### HostRings -/

theorem updHq_only (m : Nat) (f : QueueSet → QueueSet) (hO : State.Only ps z s) (hM : sub [.collator] ps = true) :
    State.Only ps z (State.updHq s m f) := by
  refine hO.step ?_ hM
  unfold State.updHq
  repeat' first
    | with_reducible first | assumption | exact State.Only.refl _ _
    | (show sub _ _ = true; decide)
    | with_reducible apply only_col

theorem hqStop_only (m err : Nat) (hO : State.Only ps z s) (hM : sub [.reg .hubHqCfg] ps = true) :
    State.Only ps z (State.hqStop s m err) := by
  refine hO.step ?_ hM
  unfold State.hqStop
  repeat' first
    | with_reducible first | assumption | exact State.Only.refl _ _ | apply only_setF | apply only_putN
    | (show sub _ _ = true; decide)

theorem signalRing_only (m vec : Nat) (hO : State.Only ps z s) (hM : sub [.outs, .collator, .reg .hubMsixPba] ps = true) :
    State.Only ps z (State.signalRing s m vec) := by
  refine hO.step ?_ hM
  unfold State.signalRing
  repeat' first
    | with_reducible first | assumption | exact State.Only.refl _ _ | apply signal_only | apply updHq_only | apply State.Only.ite_
    | (show sub _ _ = true; decide)

theorem writeAq_only (m : Nat) (cw : Word) (stream code : Nat) (hO : State.Only ps z s) (hM : sub [.outs, .collator, .reg .hubHqStat, .reg .hubMsixPba] ps = true) :
    State.Only ps z (State.writeAq s m cw stream code) := by
  refine hO.step ?_ hM
  unfold State.writeAq
  repeat' first
    | with_reducible first | assumption | exact State.Only.refl _ _ | apply signalRing_only | apply updHq_only | apply only_putN | apply emit_only | apply State.Only.ite_
    | (show sub _ _ = true; decide)

theorem freeEntry_only (id : Nat) (hO : State.Only ps z s) (hM : sub [.collator, .reg .colLedger] ps = true) :
    State.Only ps z (State.freeEntry s id) := by
  refine hO.step ?_ hM
  unfold State.freeEntry
  repeat' first
    | with_reducible first | assumption | exact State.Only.refl _ _ | apply only_putN | apply dropItem_only | (rw [id_eq]; assumption)
    | (show sub _ _ = true; decide)
    | split
    | with_reducible first | refine State.Only.snd (by assumption) ?_ | refine State.Only.snd2 (by assumption) ?_ | refine State.Only.snd3 (by assumption) ?_

theorem writeRq_only (m : Nat) (r : RqRecord) (hO : State.Only ps z s) (hM : sub [.outs, .collator, .reg .hubHqStat, .reg .hubMsixPba, .reg .colLedger] ps = true) :
    State.Only ps z (State.writeRq s m r) := by
  refine hO.step ?_ hM
  unfold State.writeRq
  repeat' first
    | with_reducible first | assumption | exact State.Only.refl _ _ | apply signalRing_only | apply updHq_only | apply only_putN | apply emit_only | apply freeEntry_only | (rw [id_eq]; assumption) | apply State.Only.ite_
    | (show sub _ _ = true; decide)
    | (extract_lets +onlyGivenNames y; with_reducible refine State.Only.cut y ?_ ?_ <;> [dsimp only [y]; (clear_value y; intro hy)])
    | (extract_lets +onlyGivenNames y; clear_value y)
    | split
    | with_reducible first | refine State.Only.snd (by assumption) ?_ | refine State.Only.snd2 (by assumption) ?_ | refine State.Only.snd3 (by assumption) ?_

theorem drainRq_only (m : Nat) (hO : State.Only ps z s) (hM : sub [.outs, .collator, .reg .hubHqStat, .reg .hubMsixPba, .reg .colLedger] ps = true) :
    State.Only ps z (State.drainRq s m) := by
  refine hO.step ?_ hM
  unfold State.drainRq
  repeat' first
    | with_reducible first | assumption | exact State.Only.refl _ _ | apply writeRq_only | apply updHq_only | apply State.Only.ite_ | apply State.Only.foldl_ | apply State.Only.foldl2 | apply State.Only.foldl3
    | (show sub _ _ = true; decide)
    | (intro _ _ hx)
    | split
    | with_reducible first | refine State.Only.snd (by assumption) ?_ | refine State.Only.snd2 (by assumption) ?_ | refine State.Only.snd3 (by assumption) ?_

theorem sendRq_only (m : Nat) (r : RqRecord) (hO : State.Only ps z s) (hM : sub [.outs, .collator, .reg .hubHqStat, .reg .hubMsixPba, .reg .colLedger] ps = true) :
    State.Only ps z (State.sendRq s m r) := by
  refine hO.step ?_ hM
  unfold State.sendRq
  repeat' first
    | with_reducible first | assumption | exact State.Only.refl _ _ | apply drainRq_only | apply updHq_only
    | (show sub _ _ = true; decide)

theorem failRq_only (m : Nat) (r : RqRecord) (hO : State.Only ps z s) (hM : sub [.outs, .collator, .reg .hubHqCfg, .reg .hubHqStat, .reg .hubMsixPba, .reg .colLedger] ps = true) :
    State.Only ps z (State.failRq s m r) := by
  refine hO.step ?_ hM
  unfold State.failRq
  repeat' first
    | with_reducible first | assumption | exact State.Only.refl _ _ | apply hqStop_only | apply updHq_only | apply sendRq_only | apply State.Only.ite_
    | (show sub _ _ = true; decide)

theorem reportRuns_only (m st kind : Nat) (runs : List (Word × Nat)) (hO : State.Only ps z s) (hM : sub [.outs, .collator, .reg .hubHqStat, .reg .hubMsixPba, .reg .colLedger] ps = true) :
    State.Only ps z (State.reportRuns s m st kind runs) := by
  refine hO.step ?_ hM
  unfold State.reportRuns
  repeat' first
    | with_reducible first | assumption | exact State.Only.refl _ _ | apply sendRq_only | apply State.Only.foldl_ | apply State.Only.foldl2 | apply State.Only.foldl3
    | (show sub _ _ = true; decide)
    | (intro _ _ hx)

theorem writeXq_only (m : Nat) (ws : List Word) (hO : State.Only ps z s) (hM : sub [.outs, .collator, .reg .hubHqStat, .reg .hubMsixPba] ps = true) :
    State.Only ps z (State.writeXq s m ws) := by
  refine hO.step ?_ hM
  unfold State.writeXq
  repeat' first
    | with_reducible first | assumption | exact State.Only.refl _ _ | apply signalRing_only | apply updHq_only | apply only_putN | apply emit_only | apply State.Only.ite_
    | (show sub _ _ = true; decide)

/-! ### Ledger -/

theorem setHoles_only (st : Nat) (rs : List (Word × Nat)) (hO : State.Only ps z s) (hM : sub [.collator, .reg .colLedger, .reg .colStrRsb, .reg .colStrHoles] ps = true) :
    State.Only ps z (State.setHoles s st rs) := by
  refine hO.step ?_ hM
  unfold State.setHoles
  repeat' first
    | with_reducible first | assumption | exact State.Only.refl _ _ | apply only_putF | apply only_putN | apply only_addF | apply State.Only.foldl_ | apply State.Only.foldl2 | apply State.Only.foldl3
    | (show sub _ _ = true; decide)
    | (intro _ _ hx)
    | (extract_lets +onlyGivenNames y; with_reducible refine State.Only.cut y ?_ ?_ <;> [dsimp only [y]; (clear_value y; intro hy)])
    | (extract_lets +onlyGivenNames y; clear_value y)
    | split
    | with_reducible first | refine State.Only.snd (by assumption) ?_ | refine State.Only.snd2 (by assumption) ?_ | refine State.Only.snd3 (by assumption) ?_
    | with_reducible apply only_col

theorem setAms_only (l : List (Nat × Word)) (hO : State.Only ps z s) (hM : sub [.collator, .reg .colLedger] ps = true) :
    State.Only ps z (State.setAms s l) := by
  refine hO.step ?_ hM
  unfold State.setAms
  repeat' first
    | with_reducible first | assumption | exact State.Only.refl _ _ | apply only_putN
    | (show sub _ _ = true; decide)
    | with_reducible apply only_col

theorem advanceRet_only (st : Nat) (hO : State.Only ps z s) (hM : sub [.collator, .reg .colLedger, .reg .colStrRet] ps = true) :
    State.Only ps z (State.advanceRet s st) := by
  refine hO.step ?_ hM
  unfold State.advanceRet
  repeat' first
    | with_reducible first | assumption | exact State.Only.refl _ _ | apply only_putF | apply setAms_only | apply State.Only.ite_ | apply State.Only.foldl_ | apply State.Only.foldl2 | apply State.Only.foldl3
    | (show sub _ _ = true; decide)
    | (intro _ _ hx)

theorem retireRun_only (r : Nat × Word × Nat) (hO : State.Only ps z s) (hM : sub [.collator, .reg .colLedger, .reg .colStrRet] ps = true) :
    State.Only ps z (State.retireRun s r) := by
  refine hO.step ?_ hM
  unfold State.retireRun
  repeat' first
    | with_reducible first | assumption | exact State.Only.refl _ _ | apply advanceRet_only | apply only_putF | apply setAms_only | apply State.Only.ite_ | apply State.Only.ite2
    | (show sub _ _ = true; decide)
    | (extract_lets +onlyGivenNames y; have _h : _ → _ := y; clear _h; dsimp only [y]; clear y)
    | (extract_lets +onlyGivenNames y; with_reducible refine State.Only.cut y ?_ ?_ <;> [dsimp only [y]; (clear_value y; intro hy)])
    | (extract_lets +onlyGivenNames y; clear_value y)
    | split
    | with_reducible first | refine State.Only.snd (by assumption) ?_ | refine State.Only.snd2 (by assumption) ?_ | refine State.Only.snd3 (by assumption) ?_
    | with_reducible apply only_col

theorem retireRuns_only (hO : State.Only ps z s) (hM : sub [.collator, .reg .colLedger, .reg .colStrRet] ps = true) :
    State.Only ps z (State.retireRuns s) := by
  refine hO.step ?_ hM
  unfold State.retireRuns
  repeat' first
    | with_reducible first | assumption | exact State.Only.refl _ _ | apply retireRun_only | apply State.Only.foldl_ | apply State.Only.foldl2 | apply State.Only.foldl3
    | (show sub _ _ = true; decide)
    | (intro _ _ hx)
    | (extract_lets +onlyGivenNames y; with_reducible refine State.Only.cut y ?_ ?_ <;> [dsimp only [y]; (clear_value y; intro hy)])
    | (extract_lets +onlyGivenNames y; clear_value y)
    | with_reducible apply only_col

theorem retireCw_only (st : Nat) (c : Word) (hO : State.Only ps z s) (hM : sub [.collator, .reg .colLedger, .reg .colStrRet] ps = true) :
    State.Only ps z (State.retireCw s st c) := by
  refine hO.step ?_ hM
  unfold State.retireCw
  repeat' first
    | with_reducible first | assumption | exact State.Only.refl _ _ | apply retireRuns_only | apply advanceRet_only | apply only_putF | apply setAms_only | apply State.Only.ite_
    | (show sub _ _ = true; decide)

theorem newEntry_only (m fn : Nat) (srcq : Option Nat) (d : BitVec 256) (c : Word) (hO : State.Only ps z s) (hM : sub [.collator, .reg .colLedger, .reg .colStrStat] ps = true) :
    State.Only ps z (State.newEntry s m fn srcq d c) := by
  refine hO.step ?_ hM
  unfold State.newEntry
  repeat' first
    | with_reducible first | assumption | exact State.Only.refl _ _ | apply settle_only | apply only_addF | (rw [id_eq]; assumption)
    | (show sub _ _ = true; decide)
    | (extract_lets +onlyGivenNames y; with_reducible refine State.Only.cut y ?_ ?_ <;> [dsimp only [y]; (clear_value y; intro hy)])
    | (extract_lets +onlyGivenNames y; clear_value y)
    | with_reducible apply only_col

theorem assign_only (m fn : Nat) (srcq : Option Nat) (d : BitVec 256) (hO : State.Only ps z s) (hM : sub [.collator, .reg .colLedger, .reg .colStrStat, .reg .colStrAcc] ps = true) :
    State.Only ps z (State.assign s m fn srcq d).2 := by
  refine hO.step ?_ hM
  unfold State.assign
  repeat' first
    | with_reducible first | assumption | exact State.Only.refl _ _ | apply newEntry_only | apply only_putF
    | (show sub _ _ = true; decide)

theorem submit_only (m : Nat) (owner srcq : Option Nat) (d : BitVec 256) (hO : State.Only ps z s) (hM : sub [.log, .collator, .reg .colLedger, .reg .colEv, .reg .colStrStat, .reg .colStrAcc, .reg .colStrRsb, .reg .colStrHoles, .reg .logCtl] ps = true) :
    State.Only ps z (State.submit s m owner srcq d).2 := by
  refine hO.step ?_ hM
  unfold State.submit
  repeat' first
    | with_reducible first | assumption | exact State.Only.refl _ _ | apply assign_only | apply newEntry_only | apply setHoles_only | apply logOther_only | apply State.Only.ite_ | apply State.Only.ite2
    | (show sub _ _ = true; decide)
    | with_reducible first | refine State.Only.snd (by assumption) ?_ | refine State.Only.snd2 (by assumption) ?_ | refine State.Only.snd3 (by assumption) ?_

theorem recordDone_only (id : Nat) (hO : State.Only ps z s) (hM : sub [.collator] ps = true) :
    State.Only ps z (State.recordDone s id) := by
  refine hO.step ?_ hM
  unfold State.recordDone
  repeat' first
    | with_reducible first | assumption | exact State.Only.refl _ _ | apply updItem_only | (rw [id_eq]; assumption)
    | (show sub _ _ = true; decide)

theorem recordEarly_only (st : Nat) (hO : State.Only ps z s) (hM : sub [.collator] ps = true) :
    State.Only ps z (State.recordEarly s st) := by
  refine hO.step ?_ hM
  unfold State.recordEarly
  repeat' first
    | with_reducible first | assumption | exact State.Only.refl _ _ | apply recordDone_only | (rw [id_eq]; assumption) | apply State.Only.foldl_ | apply State.Only.foldl2 | apply State.Only.foldl3
    | (show sub _ _ = true; decide)
    | (intro _ _ hx)
    | split
    | with_reducible first | refine State.Only.snd (by assumption) ?_ | refine State.Only.snd2 (by assumption) ?_ | refine State.Only.snd3 (by assumption) ?_

theorem complete_only (id : Nat) (result : BitVec 16) (hO : State.Only ps z s) (hM : sub [.collator, .reg .colStrStat] ps = true) :
    State.Only ps z (State.complete s id result) := by
  refine hO.step ?_ hM
  unfold State.complete
  repeat' first
    | with_reducible first | assumption | exact State.Only.refl _ _ | apply refreshStream_only | apply settle_only | apply dropItem_only | apply only_putN | apply updItem_only | apply recordDone_only | apply recordEarly_only | (rw [id_eq]; assumption) | apply State.Only.ite_
    | (show sub _ _ = true; decide)
    | (extract_lets +onlyGivenNames y; with_reducible refine State.Only.cut y ?_ ?_ <;> [dsimp only [y]; (clear_value y; intro hy)])
    | (extract_lets +onlyGivenNames y; clear_value y)
    | split
    | with_reducible first | refine State.Only.snd (by assumption) ?_ | refine State.Only.snd2 (by assumption) ?_ | refine State.Only.snd3 (by assumption) ?_

theorem retire_only (x : Item) (fails : Bool) (hO : State.Only ps z s) (hM : sub [.outs, .collator, .reg .hubHqCfg, .reg .hubHqStat, .reg .hubMsixPba, .reg .colLedger, .reg .colStrStat, .reg .colStrRet] ps = true) :
    State.Only ps z (State.retire s x fails) := by
  refine hO.step ?_ hM
  unfold State.retire
  repeat' first
    | with_reducible first | assumption | exact State.Only.refl _ _ | apply updItem_only | apply retireCw_only | apply failRq_only | apply sendRq_only | apply freeEntry_only | apply refreshStream_only | apply settle_only | (rw [id_eq]; assumption) | apply State.Only.ite_
    | (show sub _ _ = true; decide)
    | (extract_lets +onlyGivenNames y; with_reducible refine State.Only.cut y ?_ ?_ <;> [dsimp only [y]; (clear_value y; intro hy)])
    | (extract_lets +onlyGivenNames y; clear_value y)
    | split
    | with_reducible first | refine State.Only.snd (by assumption) ?_ | refine State.Only.snd2 (by assumption) ?_ | refine State.Only.snd3 (by assumption) ?_

theorem execItemRetire_only (s : State) (st : StreamId) (e : Retirement) : OnlyR [.outs, .collator, .reg .hubHqCfg, .reg .hubHqStat, .reg .hubMsixPba, .reg .colLedger, .reg .colStrStat, .reg .colStrRet] s (execItemRetire st e s) := by
  unfold execItemRetire
  repeat' first
    | with_reducible first | assumption | exact State.Only.refl _ _ | apply OnlyR.next | apply retire_only | apply State.Only.ite_ | apply OnlyR.ite_
    | (show sub _ _ = true; decide)
    | split
    | with_reducible first | refine State.Only.snd (by assumption) ?_ | refine State.Only.snd2 (by assumption) ?_ | refine State.Only.snd3 (by assumption) ?_

theorem execLedgerChannelRebuild_only (s : State) (e : LedgerChannel) : OnlyR [.collator, .reg .colLedger] s (execLedgerChannelRebuild e s) := by
  unfold execLedgerChannelRebuild
  repeat' first
    | with_reducible first | assumption | exact State.Only.refl _ _ | apply OnlyR.next | apply only_setF | apply only_clrF | apply State.Only.ite_ | apply OnlyR.ite_
    | (show sub _ _ = true; decide)
    | split
    | with_reducible first | refine State.Only.snd (by assumption) ?_ | refine State.Only.snd2 (by assumption) ?_ | refine State.Only.snd3 (by assumption) ?_
    | with_reducible apply only_col

theorem colRej_only (hO : State.Only ps z s) (hM : sub [.reg .colStatus] ps = true) :
    State.Only ps z (State.colRej s) := by
  refine hO.step ?_ hM
  unfold State.colRej
  repeat' first
    | with_reducible first | assumption | exact State.Only.refl _ _ | apply only_setF
    | (show sub _ _ = true; decide)

theorem abandonHoles_only (st : Nat) (hO : State.Only ps z s) (hM : sub [.outs, .collator, .reg .hubHqStat, .reg .hubMsixPba, .reg .colLedger, .reg .colStrStat, .reg .colStrRet, .reg .colStrRsb, .reg .colStrHoles] ps = true) :
    State.Only ps z (State.abandonHoles s st) := by
  refine hO.step ?_ hM
  unfold State.abandonHoles
  repeat' first
    | with_reducible first | assumption | exact State.Only.refl _ _ | apply reportRuns_only | apply setHoles_only | apply retireRuns_only | apply refreshStream_only | apply settle_only
    | (show sub _ _ = true; decide)
    | (extract_lets +onlyGivenNames y; with_reducible refine State.Only.cut y ?_ ?_ <;> [dsimp only [y]; (clear_value y; intro hy)])
    | (extract_lets +onlyGivenNames y; clear_value y)
    | with_reducible apply only_col

theorem writeRsb_only (fn st : Nat) (v : BitVec 64) (hO : State.Only ps z s) (hM : sub [.outs, .log, .collator, .reg .hubHqStat, .reg .hubMsixPba, .reg .colLedger, .reg .colEv, .reg .colStrStat, .reg .colStrRet, .reg .colStrRsb, .reg .colStrHoles, .reg .logCtl] ps = true) :
    State.Only ps z (State.writeRsb s fn st v) := by
  refine hO.step ?_ hM
  unfold State.writeRsb
  repeat' first
    | with_reducible first | assumption | exact State.Only.refl _ _ | apply writeReg_only | apply abandonHoles_only | apply ignored_only | (rw [id_eq]; assumption) | apply State.Only.ite_
    | (show sub _ _ = true; decide)
    | (intro _ hx)

theorem execAbandon_only (s : State) (fn : FnId) (st : StreamId) (v : BitVec 64) : OnlyR [.outs, .log, .collator, .reg .hubHqStat, .reg .hubMsixPba, .reg .colLedger, .reg .colEv, .reg .colStrStat, .reg .colStrRet, .reg .colStrRsb, .reg .colStrHoles, .reg .logCtl] s (execAbandon fn st v s) := by
  unfold execAbandon
  repeat' first
    | with_reducible first | assumption | exact State.Only.refl _ _ | apply OnlyR.next | apply bar_only | apply writeRsb_only
    | (show sub _ _ = true; decide)
    | (intro _ hx)

theorem writeAcc_only (fn st : Nat) (v : BitVec 64) (hO : State.Only ps z s) (hM : sub [.log, .collator, .reg .colStatus, .reg .colEv, .reg .colStrAcc, .reg .colStrRet, .reg .logCtl] ps = true) :
    State.Only ps z (State.writeAcc s fn st v) := by
  refine hO.step ?_ hM
  unfold State.writeAcc
  repeat' first
    | with_reducible first | assumption | exact State.Only.refl _ _ | apply writeReg_only | apply colRej_only | apply only_putF | apply ignored_only | (rw [id_eq]; assumption) | apply State.Only.ite_
    | (show sub _ _ = true; decide)
    | (intro _ hx)
    | (extract_lets +onlyGivenNames y; with_reducible refine State.Only.cut y ?_ ?_ <;> [dsimp only [y]; (clear_value y; intro hy)])
    | (extract_lets +onlyGivenNames y; clear_value y)
    | split
    | with_reducible apply only_col

theorem execColAccWrite_only (s : State) (fn : FnId) (st : StreamId) (v : BitVec 64) : OnlyR [.log, .collator, .reg .colStatus, .reg .colEv, .reg .colStrAcc, .reg .colStrRet, .reg .logCtl] s (execColAccWrite fn st v s) := by
  unfold execColAccWrite
  repeat' first
    | with_reducible first | assumption | exact State.Only.refl _ _ | apply OnlyR.next | apply bar_only | apply writeAcc_only
    | (show sub _ _ = true; decide)
    | (intro _ hx)

theorem openRange_only (st : Nat) (hO : State.Only ps z s) (hM : sub [.collator, .reg .colLedger, .reg .colStrRsb, .reg .colStrHoles] ps = true) :
    State.Only ps z (State.openRange s st) := by
  refine hO.step ?_ hM
  unfold State.openRange
  repeat' first
    | with_reducible first | assumption | exact State.Only.refl _ _ | apply setHoles_only | apply State.Only.ite_ | apply State.Only.ite2 | apply State.Only.foldl_ | apply State.Only.foldl2 | apply State.Only.foldl3
    | (show sub _ _ = true; decide)
    | (intro _ _ hx)
    | (extract_lets +onlyGivenNames y; with_reducible refine State.Only.cut y ?_ ?_ <;> [dsimp only [y]; (clear_value y; intro hy)])
    | (extract_lets +onlyGivenNames y; clear_value y)
    | split
    | with_reducible first | refine State.Only.snd (by assumption) ?_ | refine State.Only.snd2 (by assumption) ?_ | refine State.Only.snd3 (by assumption) ?_
    | with_reducible apply only_col

theorem reportResub_only (m : Nat) (hO : State.Only ps z s) (hM : sub [.outs, .collator, .reg .hubHqStat, .reg .hubMsixPba, .reg .colLedger] ps = true) :
    State.Only ps z (State.reportResub s m) := by
  refine hO.step ?_ hM
  unfold State.reportResub
  repeat' first
    | with_reducible first | assumption | exact State.Only.refl _ _ | apply reportRuns_only | apply State.Only.foldl_ | apply State.Only.foldl2 | apply State.Only.foldl3
    | (show sub _ _ = true; decide)
    | (intro _ _ hx)
    | (extract_lets +onlyGivenNames y; with_reducible refine State.Only.cut y ?_ ?_ <;> [dsimp only [y]; (clear_value y; intro hy)])
    | (extract_lets +onlyGivenNames y; clear_value y)
    | with_reducible apply only_col

/-! ### CollatorOps -/

theorem setAct_only (c v : Nat) (a : Option Activation) (hO : State.Only ps z s) (hM : sub [.collator] ps = true) :
    State.Only ps z (State.setAct s c v a) := by
  refine hO.step ?_ hM
  unfold State.setAct
  repeat' first
    | with_reducible first | assumption | exact State.Only.refl _ _
    | (show sub _ _ = true; decide)
    | with_reducible apply only_col

theorem refreshPend_only (m : Nat) (hO : State.Only ps z s) (hM : sub [.reg .colEv] ps = true) :
    State.Only ps z (State.refreshPend s m) := by
  refine hO.step ?_ hM
  unfold State.refreshPend
  repeat' first
    | with_reducible first | assumption | exact State.Only.refl _ _ | apply only_putF
    | (show sub _ _ = true; decide)

theorem takeOff_only (x : Item) (c v : Nat) (hO : State.Only ps z s) (hM : sub [.collator, .reg .colEv, .reg .colStrStat] ps = true) :
    State.Only ps z (State.takeOff s x c v) := by
  refine hO.step ?_ hM
  unfold State.takeOff
  repeat' first
    | with_reducible first | assumption | exact State.Only.refl _ _ | apply updItem_only | apply refreshPend_only | apply refreshStream_only | apply only_putN | apply only_setF | (rw [id_eq]; assumption) | apply State.Only.ite_
    | (show sub _ _ = true; decide)
    | (extract_lets +onlyGivenNames y; with_reducible refine State.Only.cut y ?_ ?_ <;> [dsimp only [y]; (clear_value y; intro hy)])
    | (extract_lets +onlyGivenNames y; clear_value y)
    | split
    | with_reducible apply only_col

theorem dispatch_only (x : Item) (c v : Nat) (hO : State.Only ps z s) (hM : sub [.collator, .ring, .reg .colEv, .reg .colStrStat] ps = true) :
    State.Only ps z (State.dispatch s x c v) := by
  refine hO.step ?_ hM
  unfold State.dispatch
  repeat' first
    | with_reducible first | assumption | exact State.Only.refl _ _ | apply setAct_only | apply takeOff_only | apply request_only | (rw [id_eq]; assumption)
    | (show sub _ _ = true; decide)

theorem updDelay_only (l : Nat) (f : DelayList → DelayList) (hO : State.Only ps z s) (hM : sub [.collator, .reg .colDlCfg] ps = true) :
    State.Only ps z (State.updDelay s l f) := by
  refine hO.step ?_ hM
  unfold State.updDelay
  repeat' first
    | with_reducible first | assumption | exact State.Only.refl _ _ | apply only_putN
    | (show sub _ _ = true; decide)
    | (extract_lets +onlyGivenNames y; with_reducible refine State.Only.cut y ?_ ?_ <;> [dsimp only [y]; (clear_value y; intro hy)])
    | (extract_lets +onlyGivenNames y; clear_value y)
    | with_reducible apply only_col

theorem insertDelay_only (l : Nat) (e : DelayEntry) (hO : State.Only ps z s) (hM : sub [.collator, .reg .colDlCfg] ps = true) :
    State.Only ps z (State.insertDelay s l e) := by
  refine hO.step ?_ hM
  unfold State.insertDelay
  repeat' first
    | with_reducible first | assumption | exact State.Only.refl _ _ | apply updDelay_only | apply State.Only.ite_
    | (show sub _ _ = true; decide)

theorem removeDelay_only (w : DelayWhat) (hO : State.Only ps z s) (hM : sub [.collator, .reg .colDlCfg] ps = true) :
    State.Only ps z (State.removeDelay s w) := by
  refine hO.step ?_ hM
  unfold State.removeDelay
  repeat' first
    | with_reducible first | assumption | exact State.Only.refl _ _ | apply updDelay_only | apply State.Only.foldl_ | apply State.Only.foldl2 | apply State.Only.foldl3
    | (show sub _ _ = true; decide)
    | (intro _ _ hx)

theorem insertTimer_only (t due : Nat) (hO : State.Only ps z s) (hM : sub [.collator, .reg .colDlCfg, .reg .colTim] ps = true) :
    State.Only ps z (State.insertTimer s t due) := by
  refine hO.step ?_ hM
  unfold State.insertTimer
  repeat' first
    | with_reducible first | assumption | exact State.Only.refl _ _ | apply only_setF | apply insertDelay_only | apply State.Only.ite_
    | (show sub _ _ = true; decide)
    | (extract_lets +onlyGivenNames y; with_reducible refine State.Only.cut y ?_ ?_ <;> [dsimp only [y]; (clear_value y; intro hy)])
    | (extract_lets +onlyGivenNames y; clear_value y)
    | split
    | with_reducible apply only_col

theorem dropTimer_only (t : Nat) (hO : State.Only ps z s) (hM : sub [.collator, .reg .colDlCfg] ps = true) :
    State.Only ps z (State.dropTimer s t) := by
  refine hO.step ?_ hM
  unfold State.dropTimer
  repeat' first
    | with_reducible first | assumption | exact State.Only.refl _ _ | apply removeDelay_only
    | (show sub _ _ = true; decide)
    | (extract_lets +onlyGivenNames y; with_reducible refine State.Only.cut y ?_ ?_ <;> [dsimp only [y]; (clear_value y; intro hy)])
    | (extract_lets +onlyGivenNames y; clear_value y)
    | with_reducible apply only_col

theorem rejoin_only (id : Nat) (hO : State.Only ps z s) (hM : sub [.collator, .reg .colStrStat] ps = true) :
    State.Only ps z (State.rejoin s id) := by
  refine hO.step ?_ hM
  unfold State.rejoin
  repeat' first
    | with_reducible first | assumption | exact State.Only.refl _ _ | apply settle_only | apply updItem_only | (rw [id_eq]; assumption)
    | (show sub _ _ = true; decide)

theorem deferItem_only (id l ticks : Nat) (hO : State.Only ps z s) (hM : sub [.log, .collator, .reg .colStatus, .reg .colDlCfg, .reg .colEv, .reg .colStrStat, .reg .logCtl] ps = true) :
    State.Only ps z (State.deferItem s id l ticks) := by
  refine hO.step ?_ hM
  unfold State.deferItem
  repeat' first
    | with_reducible first | assumption | exact State.Only.refl _ _ | apply rejoin_only | apply logOther_only | apply only_addF | apply updItem_only | apply settle_only | apply insertDelay_only | (rw [id_eq]; assumption) | apply State.Only.ite_
    | (show sub _ _ = true; decide)

theorem setWaiters_only (l : Nat) (ws : List Nat) (hO : State.Only ps z s) (hM : sub [.collator, .reg .colLock] ps = true) :
    State.Only ps z (State.setWaiters s l ws) := by
  refine hO.step ?_ hM
  unfold State.setWaiters
  repeat' first
    | with_reducible first | assumption | exact State.Only.refl _ _ | apply only_putN
    | (show sub _ _ = true; decide)
    | with_reducible apply only_col

theorem setHolder_only (l : Nat) (h : Option Nat) (hO : State.Only ps z s) (hM : sub [.reg .colLock] ps = true) :
    State.Only ps z (State.setHolder s l h) := by
  refine hO.step ?_ hM
  unfold State.setHolder
  repeat' first
    | with_reducible first | assumption | exact State.Only.refl _ _ | apply only_putN | apply only_setF | apply only_clrF
    | (show sub _ _ = true; decide)
    | split
    | with_reducible first | refine State.Only.snd (by assumption) ?_ | refine State.Only.snd2 (by assumption) ?_ | refine State.Only.snd3 (by assumption) ?_

theorem answerLock_only (a rd : Nat) (hO : State.Only ps z s) (hM : sub [.collator, .cores, .reg .colEv, .reg .awlStat] ps = true) :
    State.Only ps z (State.answerLock s a rd) := by
  refine hO.step ?_ hM
  unfold State.answerLock
  repeat' first
    | with_reducible first | assumption | exact State.Only.refl _ _ | apply setLevelState_only | apply updLevel_only | apply State.Only.ite_
    | (show sub _ _ = true; decide)
    | (extract_lets +onlyGivenNames y; have _h : _ → _ := y; clear _h; dsimp only [y]; clear y)
    | (extract_lets +onlyGivenNames y; with_reducible refine State.Only.cut y ?_ ?_ <;> [dsimp only [y]; (clear_value y; intro hy)])
    | (extract_lets +onlyGivenNames y; clear_value y)
    | split
    | with_reducible first | refine State.Only.snd (by assumption) ?_ | refine State.Only.snd2 (by assumption) ?_ | refine State.Only.snd3 (by assumption) ?_

theorem releaseLock_only (l : Nat) (hO : State.Only ps z s) (hM : sub [.collator, .cores, .reg .colEv, .reg .colLock, .reg .awlStat] ps = true) :
    State.Only ps z (State.releaseLock s l) := by
  refine hO.step ?_ hM
  unfold State.releaseLock
  repeat' first
    | with_reducible first | assumption | exact State.Only.refl _ _ | apply setHolder_only | apply answerLock_only | apply setWaiters_only
    | (show sub _ _ = true; decide)
    | split
    | with_reducible first | refine State.Only.snd (by assumption) ?_ | refine State.Only.snd2 (by assumption) ?_ | refine State.Only.snd3 (by assumption) ?_

theorem withdraw_only (a : Nat) (hO : State.Only ps z s) (hM : sub [.collator, .reg .colLock] ps = true) :
    State.Only ps z (State.withdraw s a) := by
  refine hO.step ?_ hM
  unfold State.withdraw
  repeat' first
    | with_reducible first | assumption | exact State.Only.refl _ _ | apply setWaiters_only
    | (show sub _ _ = true; decide)
    | split
    | with_reducible first | refine State.Only.snd (by assumption) ?_ | refine State.Only.snd2 (by assumption) ?_ | refine State.Only.snd3 (by assumption) ?_

theorem releaseAll_only (a : Nat) (hO : State.Only ps z s) (hM : sub [.log, .collator, .cores, .reg .colEv, .reg .colLock, .reg .logCtl, .reg .awlStat] ps = true) :
    State.Only ps z (State.releaseAll s a) := by
  refine hO.step ?_ hM
  unfold State.releaseAll
  repeat' first
    | with_reducible first | assumption | exact State.Only.refl _ _ | apply releaseLock_only | apply logOther_only | apply State.Only.ite_ | apply State.Only.foldl_ | apply State.Only.foldl2 | apply State.Only.foldl3
    | (show sub _ _ = true; decide)
    | (intro _ _ hx)

theorem requestLock_only (a l : Nat) (owner : Option Nat) (hO : State.Only ps z s) (hM : sub [.collator, .reg .colStatus, .reg .colLock] ps = true) :
    State.Only ps z (State.requestLock s a l owner).2 := by
  refine hO.step ?_ hM
  unfold State.requestLock
  repeat' first
    | with_reducible first | assumption | exact State.Only.refl _ _ | apply setHolder_only | apply setWaiters_only | apply only_addF | apply State.Only.ite_ | apply State.Only.ite2
    | (show sub _ _ = true; decide)
    | split
    | with_reducible first | refine State.Only.snd (by assumption) ?_ | refine State.Only.snd2 (by assumption) ?_ | refine State.Only.snd3 (by assumption) ?_

theorem countFault_only (st : Nat) (cw : Word) (hO : State.Only ps z s) (hM : sub [.outs, .log, .collator, .reg .hubMsixPba, .reg .colStatus, .reg .colEv, .reg .colStrStat, .reg .logCtl] ps = true) :
    State.Only ps z (State.countFault s st cw) := by
  refine hO.step ?_ hM
  unfold State.countFault
  repeat' first
    | with_reducible first | assumption | exact State.Only.refl _ _ | apply only_addF | apply signalOwner_only | apply logEntry_only | apply only_setF | apply only_putN | apply State.Only.ite_
    | (show sub _ _ = true; decide)

theorem returnItem_only (id core cause : Nat) (hO : State.Only ps z s) (hM : sub [.outs, .log, .collator, .reg .hubMsixPba, .reg .colStatus, .reg .colEv, .reg .colStrStat, .reg .logCtl] ps = true) :
    State.Only ps z (State.returnItem s id core cause) := by
  refine hO.step ?_ hM
  unfold State.returnItem
  repeat' first
    | with_reducible first | assumption | exact State.Only.refl _ _ | apply dropItem_only | apply updItem_only | apply countFault_only | apply refreshStream_only | apply settle_only | (rw [id_eq]; assumption) | apply State.Only.ite_
    | (show sub _ _ = true; decide)
    | (extract_lets +onlyGivenNames y; with_reducible refine State.Only.cut y ?_ ?_ <;> [dsimp only [y]; (clear_value y; intro hy)])
    | (extract_lets +onlyGivenNames y; clear_value y)
    | split
    | with_reducible first | refine State.Only.snd (by assumption) ?_ | refine State.Only.snd2 (by assumption) ?_ | refine State.Only.snd3 (by assumption) ?_

theorem closeFaulted_only (c v cause : Nat) (hO : State.Only ps z s) (hM : sub [.outs, .log, .collator, .cores, .reg .hubMsixPba, .reg .colStatus, .reg .colEv, .reg .colLock, .reg .colStrStat, .reg .logCtl, .reg .awlStat] ps = true) :
    State.Only ps z (State.closeFaulted s c v cause) := by
  refine hO.step ?_ hM
  unfold State.closeFaulted
  repeat' first
    | with_reducible first | assumption | exact State.Only.refl _ _ | apply withdraw_only | apply releaseAll_only | apply setAct_only | apply returnItem_only | (rw [id_eq]; assumption) | apply State.Only.ite_
    | (show sub _ _ = true; decide)
    | (extract_lets +onlyGivenNames y; with_reducible refine State.Only.cut y ?_ ?_ <;> [dsimp only [y]; (clear_value y; intro hy)])
    | (extract_lets +onlyGivenNames y; clear_value y)
    | split
    | with_reducible first | refine State.Only.snd (by assumption) ?_ | refine State.Only.snd2 (by assumption) ?_ | refine State.Only.snd3 (by assumption) ?_

theorem reportFault_only (c v cause : Nat) (hO : State.Only ps z s) (hM : sub [.outs, .log, .collator, .cores, .reg .hubMsixPba, .reg .colStatus, .reg .colEv, .reg .colLock, .reg .colStrStat, .reg .logCtl, .reg .awlStat] ps = true) :
    State.Only ps z (State.reportFault s c v cause) := by
  refine hO.step ?_ hM
  unfold State.reportFault
  repeat' first
    | with_reducible first | assumption | exact State.Only.refl _ _ | apply setAct_only | apply closeFaulted_only | apply State.Only.ite_
    | (show sub _ _ = true; decide)
    | split
    | with_reducible first | refine State.Only.snd (by assumption) ?_ | refine State.Only.snd2 (by assumption) ?_ | refine State.Only.snd3 (by assumption) ?_

theorem closeReported_only (c v : Nat) (hO : State.Only ps z s) (hM : sub [.outs, .log, .collator, .cores, .reg .hubMsixPba, .reg .colStatus, .reg .colEv, .reg .colLock, .reg .colStrStat, .reg .logCtl, .reg .awlStat] ps = true) :
    State.Only ps z (State.closeReported s c v) := by
  refine hO.step ?_ hM
  unfold State.closeReported
  repeat' first
    | with_reducible first | assumption | exact State.Only.refl _ _ | apply closeFaulted_only
    | (show sub _ _ = true; decide)
    | split
    | with_reducible first | refine State.Only.snd (by assumption) ?_ | refine State.Only.snd2 (by assumption) ?_ | refine State.Only.snd3 (by assumption) ?_

theorem recordTaskFault_only (c v cause pc addr : Nat) (hO : State.Only ps z s) (hM : sub [.reg .awlFault] ps = true) :
    State.Only ps z (State.recordTaskFault s c v cause pc addr) := by
  refine hO.step ?_ hM
  unfold State.recordTaskFault
  repeat' first
    | with_reducible first | assumption | exact State.Only.refl _ _ | apply only_addF | apply only_putN | apply only_putF | apply only_setF | apply State.Only.ite_
    | (show sub _ _ = true; decide)

theorem taskFault_only (c v cause pc addr : Nat) (hO : State.Only ps z s) (hM : sub [.outs, .log, .collator, .cores, .ring, .reg .hubMsixPba, .reg .colStatus, .reg .colEv, .reg .colLock, .reg .colStrStat, .reg .logCtl, .reg .awlStat, .reg .awlFault] ps = true) :
    State.Only ps z (State.taskFault s c v cause pc addr) := by
  refine hO.step ?_ hM
  unfold State.taskFault
  repeat' first
    | with_reducible first | assumption | exact State.Only.refl _ _ | apply logEntry_only | apply recordTaskFault_only | apply voidRequests_only | apply setLevelState_only | apply updCore_only | apply reportFault_only | apply State.Only.ite_
    | (show sub _ _ = true; decide)

theorem colTake_only (c v : Nat) (hO : State.Only ps z s) (hM : sub [.collator, .reg .colEv, .reg .colStrStat] ps = true) :
    State.Only ps z (State.colTake s c v).2 := by
  refine hO.step ?_ hM
  unfold State.colTake
  repeat' first
    | with_reducible first | assumption | exact State.Only.refl _ _ | apply setAct_only | apply takeOff_only | (rw [id_eq]; assumption) | apply State.Only.ite_ | apply State.Only.ite2
    | (show sub _ _ = true; decide)
    | (extract_lets +onlyGivenNames y; with_reducible refine State.Only.cut y ?_ ?_ <;> [dsimp only [y]; (clear_value y; intro hy)])
    | (extract_lets +onlyGivenNames y; clear_value y)
    | split
    | with_reducible first | refine State.Only.snd (by assumption) ?_ | refine State.Only.snd2 (by assumption) ?_ | refine State.Only.snd3 (by assumption) ?_

theorem colGive_only (c v imm : Nat) (d : BitVec 256) (hO : State.Only ps z s) (hM : sub [.log, .collator, .reg .colLedger, .reg .colEv, .reg .colStrStat, .reg .colStrAcc, .reg .colStrRsb, .reg .colStrHoles, .reg .logCtl] ps = true) :
    State.Only ps z (State.colGive s c v imm d).2 := by
  refine hO.step ?_ hM
  unfold State.colGive
  repeat' first
    | with_reducible first | assumption | exact State.Only.refl _ _ | apply setAct_only | apply submit_only | apply updItem_only | (rw [id_eq]; assumption) | apply State.Only.ite_ | apply State.Only.ite2
    | (show sub _ _ = true; decide)
    | (extract_lets +onlyGivenNames y; with_reducible refine State.Only.cut y ?_ ?_ <;> [dsimp only [y]; (clear_value y; intro hy)])
    | (extract_lets +onlyGivenNames y; clear_value y)
    | split
    | with_reducible first | refine State.Only.snd (by assumption) ?_ | refine State.Only.snd2 (by assumption) ?_ | refine State.Only.snd3 (by assumption) ?_

theorem endActivation_only (c v : Nat) (hO : State.Only ps z s) (hM : sub [.log, .collator, .cores, .reg .colEv, .reg .colLock, .reg .logCtl, .reg .awlStat] ps = true) :
    State.Only ps z (State.endActivation s c v) := by
  refine hO.step ?_ hM
  unfold State.endActivation
  repeat' first
    | with_reducible first | assumption | exact State.Only.refl _ _ | apply setAct_only | apply releaseAll_only
    | (show sub _ _ = true; decide)

theorem colDone_only (c v : Nat) (result : BitVec 16) (ends : Bool) (hO : State.Only ps z s) (hM : sub [.outs, .log, .collator, .cores, .reg .hubMsixPba, .reg .colStatus, .reg .colEv, .reg .colLock, .reg .colStrStat, .reg .logCtl, .reg .awlStat] ps = true) :
    State.Only ps z (State.colDone s c v result ends) := by
  refine hO.step ?_ hM
  unfold State.colDone
  repeat' first
    | with_reducible first | assumption | exact State.Only.refl _ _ | apply complete_only | apply setAct_only | apply closeReported_only | apply settle_only | apply endActivation_only | (rw [id_eq]; assumption) | apply State.Only.ite_
    | (show sub _ _ = true; decide)
    | (extract_lets +onlyGivenNames y; with_reducible refine State.Only.cut y ?_ ?_ <;> [dsimp only [y]; (clear_value y; intro hy)])
    | (extract_lets +onlyGivenNames y; clear_value y)
    | split
    | with_reducible first | refine State.Only.snd (by assumption) ?_ | refine State.Only.snd2 (by assumption) ?_ | refine State.Only.snd3 (by assumption) ?_

theorem colDefer_only (c v ticks : Nat) (ends : Bool) (hO : State.Only ps z s) (hM : sub [.outs, .log, .collator, .cores, .reg .hubMsixPba, .reg .colStatus, .reg .colDlCfg, .reg .colEv, .reg .colLock, .reg .colStrStat, .reg .logCtl, .reg .awlStat] ps = true) :
    State.Only ps z (State.colDefer s c v ticks ends) := by
  refine hO.step ?_ hM
  unfold State.colDefer
  repeat' first
    | with_reducible first | assumption | exact State.Only.refl _ _ | apply deferItem_only | apply setAct_only | apply closeReported_only | apply endActivation_only | (rw [id_eq]; assumption) | apply State.Only.ite_
    | (show sub _ _ = true; decide)
    | (extract_lets +onlyGivenNames y; with_reducible refine State.Only.cut y ?_ ?_ <;> [dsimp only [y]; (clear_value y; intro hy)])
    | (extract_lets +onlyGivenNames y; clear_value y)
    | split
    | with_reducible first | refine State.Only.snd (by assumption) ?_ | refine State.Only.snd2 (by assumption) ?_ | refine State.Only.snd3 (by assumption) ?_

theorem colLock_only (c v imm : Nat) (hO : State.Only ps z s) (hM : sub [.collator, .reg .colStatus, .reg .colLock] ps = true) :
    State.Only ps z (State.colLock s c v imm).2 := by
  refine hO.step ?_ hM
  unfold State.colLock
  repeat' first
    | with_reducible first | assumption | exact State.Only.refl _ _ | apply requestLock_only
    | (show sub _ _ = true; decide)
    | (extract_lets +onlyGivenNames y; with_reducible refine State.Only.cut y ?_ ?_ <;> [dsimp only [y]; (clear_value y; intro hy)])
    | (extract_lets +onlyGivenNames y; clear_value y)
    | split
    | with_reducible refine State.Only.snd (by assumption) ?_

theorem colUnlock_only (c v imm : Nat) (hO : State.Only ps z s) (hM : sub [.collator, .cores, .reg .colEv, .reg .colLock, .reg .awlStat] ps = true) :
    State.Only ps z (State.colUnlock s c v imm) := by
  refine hO.step ?_ hM
  unfold State.colUnlock
  repeat' first
    | with_reducible first | assumption | exact State.Only.refl _ _ | apply releaseLock_only | apply State.Only.ite_
    | (show sub _ _ = true; decide)

theorem collatorMessage_only (c v : Nat) (q : Request) (hO : State.Only ps z s) (hM : sub [.outs, .log, .collator, .cores, .reg .hubMsixPba, .reg .colStatus, .reg .colLedger, .reg .colDlCfg, .reg .colEv, .reg .colLock, .reg .colStrStat, .reg .colStrAcc, .reg .colStrRsb, .reg .colStrHoles, .reg .logCtl, .reg .awlStat] ps = true) :
    State.Only ps z (State.collatorMessage s c v q).2 := by
  refine hO.step ?_ hM
  unfold State.collatorMessage
  repeat' first
    | with_reducible first | assumption | exact State.Only.refl _ _ | apply colTake_only | apply colGive_only | apply colDone_only | apply colDefer_only | apply colLock_only | apply colUnlock_only
    | (show sub _ _ = true; decide)
    | (extract_lets +onlyGivenNames y; with_reducible refine State.Only.cut y ?_ ?_ <;> [dsimp only [y]; (clear_value y; intro hy)])
    | (extract_lets +onlyGivenNames y; clear_value y)
    | split
    | with_reducible first | refine State.Only.snd (by assumption) ?_ | refine State.Only.snd2 (by assumption) ?_ | refine State.Only.snd3 (by assumption) ?_

theorem rebuildItems_only (hO : State.Only ps z s) (hM : sub [.collator, .reg .colEv, .reg .colLock] ps = true) :
    State.Only ps z (State.rebuildItems s) := by
  refine hO.step ?_ hM
  unfold State.rebuildItems
  repeat' first
    | with_reducible first | assumption | exact State.Only.refl _ _ | apply only_clrF | apply setHolder_only | apply setWaiters_only | apply State.Only.foldl_ | apply State.Only.foldl2 | apply State.Only.foldl3
    | (show sub _ _ = true; decide)
    | (intro _ _ hx)
    | (extract_lets +onlyGivenNames y; with_reducible refine State.Only.cut y ?_ ?_ <;> [dsimp only [y]; (clear_value y; intro hy)])
    | (extract_lets +onlyGivenNames y; clear_value y)
    | with_reducible apply only_col

theorem rebuildDelays_only (hO : State.Only ps z s) (hM : sub [.collator, .reg .colDlCfg, .reg .colTim] ps = true) :
    State.Only ps z (State.rebuildDelays s) := by
  refine hO.step ?_ hM
  unfold State.rebuildDelays
  repeat' first
    | with_reducible first | assumption | exact State.Only.refl _ _ | apply updDelay_only | apply insertTimer_only | (rw [id_eq]; assumption) | apply State.Only.ite_ | apply State.Only.foldl_ | apply State.Only.foldl2 | apply State.Only.foldl3
    | (show sub _ _ = true; decide)
    | (intro _ _ hx)
    | with_reducible first | refine State.Only.snd (by assumption) ?_ | refine State.Only.snd2 (by assumption) ?_ | refine State.Only.snd3 (by assumption) ?_

theorem raiseQueues_only (hO : State.Only ps z s) (hM : sub [.collator, .reg .colEv] ps = true) :
    State.Only ps z (State.raiseQueues s) := by
  refine hO.step ?_ hM
  unfold State.raiseQueues
  repeat' first
    | with_reducible first | assumption | exact State.Only.refl _ _ | apply raise_only | apply State.Only.foldl_ | apply State.Only.foldl2 | apply State.Only.foldl3
    | (show sub _ _ = true; decide)
    | (intro _ _ hx)

theorem finishRetired_only (hO : State.Only ps z s) (hM : sub [.outs, .collator, .reg .hubHqStat, .reg .hubMsixPba, .reg .colLedger] ps = true) :
    State.Only ps z (State.finishRetired s) := by
  refine hO.step ?_ hM
  unfold State.finishRetired
  repeat' first
    | with_reducible first | assumption | exact State.Only.refl _ _ | apply freeEntry_only | apply sendRq_only | (rw [id_eq]; assumption) | apply State.Only.ite_ | apply State.Only.foldl_ | apply State.Only.foldl2 | apply State.Only.foldl3
    | (show sub _ _ = true; decide)
    | (intro _ _ hx)
    | split
    | with_reducible first | refine State.Only.snd (by assumption) ?_ | refine State.Only.snd2 (by assumption) ?_ | refine State.Only.snd3 (by assumption) ?_

theorem refreshStreams_only (hO : State.Only ps z s) (hM : sub [.reg .colStrStat] ps = true) :
    State.Only ps z (State.refreshStreams s) := by
  refine hO.step ?_ hM
  unfold State.refreshStreams
  repeat' first
    | with_reducible first | assumption | exact State.Only.refl _ _ | apply refreshStream_only | apply State.Only.foldl_ | apply State.Only.foldl2 | apply State.Only.foldl3
    | (show sub _ _ = true; decide)
    | (intro _ _ hx)

theorem restoreCollator_only (hO : State.Only ps z s) (hM : sub [.outs, .collator, .reg .hubHqStat, .reg .hubMsixPba, .reg .colLedger, .reg .colDlCfg, .reg .colEv, .reg .colTim, .reg .colLock, .reg .colStrStat] ps = true) :
    State.Only ps z (State.restoreCollator s) := by
  refine hO.step ?_ hM
  unfold State.restoreCollator
  repeat' first
    | with_reducible first | assumption | exact State.Only.refl _ _ | apply refreshStreams_only | apply settle_only | apply finishRetired_only | apply raiseQueues_only | apply rebuildDelays_only | apply rebuildItems_only
    | (show sub _ _ = true; decide)
    | (extract_lets +onlyGivenNames y; with_reducible refine State.Only.cut y ?_ ?_ <;> [dsimp only [y]; (clear_value y; intro hy)])
    | (extract_lets +onlyGivenNames y; clear_value y)
    | with_reducible apply only_col

/-! ### Collator -/

theorem execCollatorPlace_only (s : State)  : OnlyR [.collator, .ring, .reg .colEv, .reg .colStrStat] s (execCollatorPlace s) := by
  unfold execCollatorPlace
  repeat' first
    | with_reducible first | assumption | exact State.Only.refl _ _ | apply OnlyR.next | apply settle_only | apply dispatch_only | apply State.Only.ite_ | apply State.Only.ite2 | apply OnlyR.ite_
    | (show sub _ _ = true; decide)
    | (extract_lets +onlyGivenNames y; with_reducible refine State.Only.cut y ?_ ?_ <;> [dsimp only [y]; (clear_value y; intro hy)])
    | (extract_lets +onlyGivenNames y; with_reducible refine OnlyR.cut y ?_ ?_ <;> [dsimp only [y]; (clear_value y; intro hy)])
    | (extract_lets +onlyGivenNames y; clear_value y)
    | split
    | with_reducible first | refine State.Only.snd (by assumption) ?_ | refine State.Only.snd2 (by assumption) ?_ | refine State.Only.snd3 (by assumption) ?_

theorem execAffHoldExpiry_only (s : State) (st : StreamId) (cw : Word) : OnlyR [.collator] s (execAffHoldExpiry st cw s) := by
  unfold execAffHoldExpiry
  repeat' first
    | with_reducible first | assumption | exact State.Only.refl _ _ | apply OnlyR.next | apply updItem_only | (rw [id_eq]; assumption)
    | (show sub _ _ = true; decide)
    | split
    | with_reducible first | refine State.Only.snd (by assumption) ?_ | refine State.Only.snd2 (by assumption) ?_ | refine State.Only.snd3 (by assumption) ?_

theorem execDelayEntryDue_only (s : State) (l : Fin 4) : OnlyR [.collator, .reg .colDlCfg, .reg .colStrStat] s (execDelayEntryDue l s) := by
  unfold execDelayEntryDue
  repeat' first
    | with_reducible first | assumption | exact State.Only.refl _ _ | apply OnlyR.next | apply rejoin_only | apply updDelay_only | apply removeDelay_only | (rw [id_eq]; assumption)
    | (show sub _ _ = true; decide)
    | split
    | with_reducible first | refine State.Only.snd (by assumption) ?_ | refine State.Only.snd2 (by assumption) ?_ | refine State.Only.snd3 (by assumption) ?_

theorem execCalendarWrap_only (s : State) (l : Fin 4) : OnlyR [.collator, .reg .colDlCfg] s (execCalendarWrap l s) := by
  unfold execCalendarWrap
  repeat' first
    | with_reducible first | assumption | exact State.Only.refl _ _ | apply OnlyR.next | apply updDelay_only | apply State.Only.foldl_ | apply State.Only.foldl2 | apply State.Only.foldl3
    | (show sub _ _ = true; decide)

theorem execTimerDue_only (s : State) (t : TimerId) : OnlyR [.collator, .reg .colDlCfg, .reg .colEv, .reg .colTim] s (execTimerDue t s) := by
  unfold execTimerDue
  repeat' first
    | with_reducible first | assumption | exact State.Only.refl _ _ | apply OnlyR.next | apply updDelay_only | apply removeDelay_only | apply raise_only | apply insertTimer_only | apply only_clrF | apply State.Only.ite_ | apply State.Only.ite2 | apply OnlyR.ite_
    | (show sub _ _ = true; decide)
    | (extract_lets +onlyGivenNames y; with_reducible refine State.Only.cut y ?_ ?_ <;> [dsimp only [y]; (clear_value y; intro hy)])
    | (extract_lets +onlyGivenNames y; with_reducible refine OnlyR.cut y ?_ ?_ <;> [dsimp only [y]; (clear_value y; intro hy)])
    | (extract_lets +onlyGivenNames y; clear_value y)
    | split
    | with_reducible first | refine State.Only.snd (by assumption) ?_ | refine State.Only.snd2 (by assumption) ?_ | refine State.Only.snd3 (by assumption) ?_

theorem writeTim_only (fn t : Nat) (v : BitVec 64) (hO : State.Only ps z s) (hM : sub [.log, .collator, .reg .colStatus, .reg .colDlCfg, .reg .colEv, .reg .colTim, .reg .logCtl] ps = true) :
    State.Only ps z (State.writeTim s fn t v) := by
  refine hO.step ?_ hM
  unfold State.writeTim
  repeat' first
    | with_reducible first | assumption | exact State.Only.refl _ _ | apply writeReg_only | apply colRej_only | apply insertTimer_only | apply dropTimer_only | apply ignored_only | apply State.Only.ite_
    | (show sub _ _ = true; decide)
    | (intro _ hx)
    | (extract_lets +onlyGivenNames y; with_reducible refine State.Only.cut y ?_ ?_ <;> [dsimp only [y]; (clear_value y; intro hy)])
    | (extract_lets +onlyGivenNames y; clear_value y)
    | split
    | with_reducible first | refine State.Only.snd (by assumption) ?_ | refine State.Only.snd2 (by assumption) ?_ | refine State.Only.snd3 (by assumption) ?_

theorem execTimerArm_only (s : State) (t : TimerId) (v : BitVec 64) : OnlyR [.log, .collator, .reg .colStatus, .reg .colDlCfg, .reg .colEv, .reg .colTim, .reg .logCtl] s (execTimerArm t v s) := by
  unfold execTimerArm
  repeat' first
    | with_reducible first | assumption | exact State.Only.refl _ _ | apply OnlyR.next | apply bar_only | apply writeTim_only
    | (show sub _ _ = true; decide)
    | (intro _ hx)

theorem execTimerInsertRetry_only (s : State) (t : TimerId) : OnlyR [.collator, .reg .colDlCfg, .reg .colTim] s (execTimerInsertRetry t s) := by
  unfold execTimerInsertRetry
  repeat' first
    | with_reducible first | assumption | exact State.Only.refl _ _ | apply OnlyR.next | apply insertTimer_only
    | (show sub _ _ = true; decide)
    | split
    | with_reducible first | refine State.Only.snd (by assumption) ?_ | refine State.Only.snd2 (by assumption) ?_ | refine State.Only.snd3 (by assumption) ?_

theorem execYieldReady_only (s : State) (c : CoreId) (lv : LevelId) : OnlyR [.collator, .cores, .reg .colEv, .reg .awlStat] s (execYieldReady c lv s) := by
  unfold execYieldReady
  repeat' first
    | with_reducible first | assumption | exact State.Only.refl _ _ | apply OnlyR.next | apply setLevelState_only
    | (show sub _ _ = true; decide)
    | split
    | with_reducible first | refine State.Only.snd (by assumption) ?_ | refine State.Only.snd2 (by assumption) ?_ | refine State.Only.snd3 (by assumption) ?_

theorem execLockWaitTimeout_only (s : State) (c : CoreId) (lv : LevelId) : OnlyR [.collator, .cores, .reg .colEv, .reg .colLock, .reg .awlStat] s (execLockWaitTimeout c lv s) := by
  unfold execLockWaitTimeout
  repeat' first
    | with_reducible first | assumption | exact State.Only.refl _ _ | apply OnlyR.next | apply answerLock_only | apply withdraw_only | apply State.Only.ite_ | apply OnlyR.ite_
    | (show sub _ _ = true; decide)
    | (extract_lets +onlyGivenNames y; with_reducible refine State.Only.cut y ?_ ?_ <;> [dsimp only [y]; (clear_value y; intro hy)])
    | (extract_lets +onlyGivenNames y; with_reducible refine OnlyR.cut y ?_ ?_ <;> [dsimp only [y]; (clear_value y; intro hy)])
    | (extract_lets +onlyGivenNames y; clear_value y)
    | split
    | with_reducible first | refine State.Only.snd (by assumption) ?_ | refine State.Only.snd2 (by assumption) ?_ | refine State.Only.snd3 (by assumption) ?_

theorem resumeStream_only (st : Nat) (hO : State.Only ps z s) (hM : sub [.collator, .reg .colStrStat] ps = true) :
    State.Only ps z (State.resumeStream s st) := by
  refine hO.step ?_ hM
  unfold State.resumeStream
  repeat' first
    | with_reducible first | assumption | exact State.Only.refl _ _ | apply refreshStream_only | apply settle_only | apply only_putN
    | (show sub _ _ = true; decide)

theorem cancelFaulted_only (st : Nat) (hO : State.Only ps z s) (hM : sub [.collator, .reg .colStrStat] ps = true) :
    State.Only ps z (State.cancelFaulted s st) := by
  refine hO.step ?_ hM
  unfold State.cancelFaulted
  repeat' first
    | with_reducible first | assumption | exact State.Only.refl _ _ | apply complete_only | (rw [id_eq]; assumption)
    | (show sub _ _ = true; decide)
    | split
    | with_reducible first | refine State.Only.snd (by assumption) ?_ | refine State.Only.snd2 (by assumption) ?_ | refine State.Only.snd3 (by assumption) ?_

theorem writeStrStat_only (fn st : Nat) (v : BitVec 64) (hO : State.Only ps z s) (hM : sub [.log, .collator, .reg .colEv, .reg .colStrStat, .reg .logCtl] ps = true) :
    State.Only ps z (State.writeStrStat s fn st v) := by
  refine hO.step ?_ hM
  unfold State.writeStrStat
  repeat' first
    | with_reducible first | assumption | exact State.Only.refl _ _ | apply writeReg_only | apply resumeStream_only | apply cancelFaulted_only | apply ignored_only | (rw [id_eq]; assumption) | apply State.Only.ite_
    | (show sub _ _ = true; decide)
    | (intro _ hx)

theorem execStreamResume_only (s : State) (fn : FnId) (st : StreamId) (v : BitVec 64) : OnlyR [.log, .collator, .reg .colEv, .reg .colStrStat, .reg .logCtl] s (execStreamResume fn st v s) := by
  unfold execStreamResume
  repeat' first
    | with_reducible first | assumption | exact State.Only.refl _ _ | apply OnlyR.next | apply bar_only | apply writeStrStat_only
    | (show sub _ _ = true; decide)
    | (intro _ hx)

theorem execStreamCancel_only (s : State) (fn : FnId) (st : StreamId) (v : BitVec 64) : OnlyR [.log, .collator, .reg .colEv, .reg .colStrStat, .reg .logCtl] s (execStreamCancel fn st v s) := by
  unfold execStreamCancel
  repeat' first
    | with_reducible first | assumption | exact State.Only.refl _ _ | apply OnlyR.next | apply bar_only | apply writeStrStat_only
    | (show sub _ _ = true; decide)
    | (intro _ hx)

theorem execHubLogicRecovery_only (s : State)  : OnlyR [.outs, .collator, .reg .hubHqStat, .reg .hubMsixPba, .reg .colLedger, .reg .colDlCfg, .reg .colEv, .reg .colTim, .reg .colLock, .reg .colStrStat] s (execHubLogicRecovery s) := by
  unfold execHubLogicRecovery
  repeat' first
    | with_reducible first | assumption | exact State.Only.refl _ _ | apply OnlyR.next | apply restoreCollator_only | apply State.Only.ite_ | apply OnlyR.ite_
    | (show sub _ _ = true; decide)

/-! ### HostIf -/

theorem execSqEntryRead_only (s : State) (m : QueueSetId) (e : SqEntry) : OnlyR [.outs, .log, .collator, .reg .hubHqCfg, .reg .hubHqStat, .reg .hubMsixPba, .reg .colLedger, .reg .colEv, .reg .colStrStat, .reg .colStrAcc, .reg .colStrRsb, .reg .colStrHoles, .reg .logCtl] s (execSqEntryRead m e s) := by
  unfold execSqEntryRead
  repeat' first
    | with_reducible first | assumption | exact State.Only.refl _ _ | apply OnlyR.next | apply only_putN | apply submit_only | apply hqStop_only | apply writeAq_only | apply sendRq_only | apply State.Only.ite_ | apply State.Only.ite2 | apply OnlyR.ite_
    | (show sub _ _ = true; decide)
    | with_reducible first | refine State.Only.snd (by assumption) ?_ | refine State.Only.snd2 (by assumption) ?_ | refine State.Only.snd3 (by assumption) ?_

theorem updPcie_only (fn : Nat) (f : PcieFn → PcieFn) (hO : State.Only ps z s) (hM : sub [.pcie] ps = true) :
    State.Only ps z (State.updPcie s fn f) := by
  refine hO.step ?_ hM
  unfold State.updPcie
  repeat' first
    | with_reducible first | assumption | exact State.Only.refl _ _
    | (show sub _ _ = true; decide)
    | (extract_lets +onlyGivenNames y; have _h : SysState := y; clear _h; dsimp only [y]; clear y)
    | with_reducible refine only_sys ?_ _ (fun p hp => by cases p <;> first | exact absurd (by decide) hp | simp [Part.same, State.reg])

theorem execSqReadTimeout_only (s : State) (m : QueueSetId) : OnlyR [.pcie, .reg .hubHqCfg] s (execSqReadTimeout m s) := by
  unfold execSqReadTimeout
  repeat' first
    | with_reducible first | assumption | exact State.Only.refl _ _ | apply OnlyR.next | apply updPcie_only | apply hqStop_only | apply State.Only.ite_ | apply OnlyR.ite_
    | (show sub _ _ = true; decide)

theorem doorbell_only (fn m : Nat) (f : Field 16) (v : BitVec 64) (left : Option Nat)
    {act : Nat → State → State} (hO : State.Only ps z s)
    (hM : sub [.reg f.reg, .log, .collator, .reg .hubHqCfg, .reg .colEv, .reg .logCtl] ps = true)
    (ha : ∀ k x, State.Only ps z x → State.Only ps z (act k x)) : State.Only ps z (s.doorbell fn m f v left act) := by
  have hM' : sub [.log, .collator, .reg .hubHqCfg, .reg .colEv, .reg .logCtl] ps = true :=
    (sub_tail hM)
  have hR : sub [.reg f.reg] ps = true :=
    (sub_head hM)
  unfold State.doorbell
  split
  · exact (ignored_only _ _ _ (.refl [.log, .collator, .reg .hubHqCfg, .reg .colEv, .reg .logCtl] s) (by decide)).mono' hO hM'
  · have h1 : State.Only ps z (s.putN f m (fieldOf f v)) := only_putN hO _ _ _ hR
    have hs : ∀ x, State.Only ps z x → State.Only ps z (x.hqStop m 3) := fun x hx =>
      (hqStop_only m 3 (.refl [.log, .collator, .reg .hubHqCfg, .reg .colEv, .reg .logCtl] x) (by decide)).mono' hx hM'
    dsimp only
    split
    · exact hs _ h1
    · split
      · exact h1
      · split
        · exact hs _ h1
        · exact ha _ _ h1

theorem execDoorbellSqt_only (s : State) (fn : FnId) (m : QueueSetId) (v : BitVec 64) : OnlyR [.log, .collator, .reg .hubHqCfg, .reg .hubDbSqt, .reg .colEv, .reg .logCtl] s (execDoorbellSqt fn m v s) := by
  unfold execDoorbellSqt
  repeat' first
    | with_reducible first | assumption | exact State.Only.refl _ _ | apply OnlyR.next | apply bar_only | apply doorbell_only
    | (show sub _ _ = true; decide)
    | (intro _ _ hx)
    | (intro _ hx)

theorem execDoorbellAqh_only (s : State) (fn : FnId) (m : QueueSetId) (v : BitVec 64) : OnlyR [.log, .collator, .reg .hubHqCfg, .reg .hubDbAqh, .reg .colEv, .reg .logCtl] s (execDoorbellAqh fn m v s) := by
  unfold execDoorbellAqh
  repeat' first
    | with_reducible first | assumption | exact State.Only.refl _ _ | apply OnlyR.next | apply bar_only | apply doorbell_only | apply updHq_only
    | (show sub _ _ = true; decide)
    | (intro _ _ hx)
    | (intro _ hx)

theorem execDoorbellRqh_only (s : State) (fn : FnId) (m : QueueSetId) (v : BitVec 64) : OnlyR [.outs, .log, .collator, .reg .hubHqCfg, .reg .hubHqStat, .reg .hubDbRqh, .reg .hubMsixPba, .reg .colLedger, .reg .colEv, .reg .logCtl] s (execDoorbellRqh fn m v s) := by
  unfold execDoorbellRqh
  repeat' first
    | with_reducible first | assumption | exact State.Only.refl _ _ | apply OnlyR.next | apply bar_only | apply doorbell_only | apply drainRq_only | apply updHq_only
    | (show sub _ _ = true; decide)
    | (intro _ _ hx)
    | (intro _ hx)

theorem execDoorbellXqh_only (s : State) (fn : FnId) (m : QueueSetId) (v : BitVec 64) : OnlyR [.log, .collator, .reg .hubHqCfg, .reg .hubDbXqh, .reg .colEv, .reg .logCtl] s (execDoorbellXqh fn m v s) := by
  unfold execDoorbellXqh
  repeat' first
    | with_reducible first | assumption | exact State.Only.refl _ _ | apply OnlyR.next | apply bar_only | apply doorbell_only | apply updHq_only
    | (show sub _ _ = true; decide)
    | (intro _ _ hx)
    | (intro _ hx)

theorem hqClear_only (m : Nat) (hO : State.Only ps z s) (hM : sub [.collator, .reg .hubHqCfg, .reg .hubHqStat, .reg .hubDbSqt, .reg .hubDbAqh, .reg .hubDbRqh, .reg .hubDbXqh] ps = true) :
    State.Only ps z (State.hqClear s m) := by
  refine hO.step ?_ hM
  unfold State.hqClear
  repeat' first
    | with_reducible first | assumption | exact State.Only.refl _ _ | apply only_setReg | apply only_clrF | apply only_putN | apply updHq_only
    | (show sub _ _ = true; decide)

theorem writeHqCfg_only (fn m : Nat) (v : BitVec 64) (hO : State.Only ps z s) (hM : sub [.outs, .log, .collator, .reg .hubHqCfg, .reg .hubHqStat, .reg .hubDbSqt, .reg .hubDbAqh, .reg .hubDbRqh, .reg .hubDbXqh, .reg .hubMsixPba, .reg .colLedger, .reg .colEv, .reg .logCtl] ps = true) :
    State.Only ps z (State.writeHqCfg s fn m v) := by
  refine hO.step ?_ hM
  unfold State.writeHqCfg
  repeat' first
    | with_reducible first | assumption | exact State.Only.refl _ _ | apply writeReg_only | apply hqClear_only | apply updHq_only | apply drainRq_only | apply reportResub_only | apply ignored_only | (rw [id_eq]; assumption) | apply State.Only.ite_
    | (show sub _ _ = true; decide)
    | (intro _ hx)

theorem execQueueSetCfgWrite_only (s : State) (fn : FnId) (m : QueueSetId) (v : BitVec 64) : OnlyR [.outs, .log, .collator, .reg .hubHqCfg, .reg .hubHqStat, .reg .hubDbSqt, .reg .hubDbAqh, .reg .hubDbRqh, .reg .hubDbXqh, .reg .hubMsixPba, .reg .colLedger, .reg .colEv, .reg .logCtl] s (execQueueSetCfgWrite fn m v s) := by
  unfold execQueueSetCfgWrite
  repeat' first
    | with_reducible first | assumption | exact State.Only.refl _ _ | apply OnlyR.next | apply bar_only | apply writeHqCfg_only
    | (show sub _ _ = true; decide)
    | (intro _ hx)

theorem writeHqBase_only (fn : Nat) (r : RegId) (m : Nat) (v : BitVec 64) (hO : State.Only ps z s)
    (hM : sub [.reg r, .log, .collator, .reg .colEv, .reg .logCtl] ps = true) :
    State.Only ps z (s.writeHqBase fn r m v) := by
  unfold State.writeHqBase
  split
  · exact writeReg_only _ _ _ _ _ hO hM (fun _ h => h) (fun _ h => h)
  · exact ignored_only _ _ _ hO (sub_tail hM)

theorem passSlot_only (m addr : Nat) (hO : State.Only ps z s) (hM : sub [.log, .collator, .dram, .reg .colEv, .reg .memChStat, .reg .logCtl] ps = true) :
    State.Only ps z (State.passSlot s m addr) := by
  refine hO.step ?_ hM
  unfold State.passSlot
  repeat' first
    | with_reducible first | assumption | exact State.Only.refl _ _ | apply updHq_only | apply writeWords_only
    | (show sub _ _ = true; decide)

theorem deliverSlot_only (m addr : Nat) (ws : List Word) (fails : Bool) (hO : State.Only ps z s) (hM : sub [.outs, .log, .collator, .dram, .reg .hubHqCfg, .reg .hubHqStat, .reg .hubMsixPba, .reg .colEv, .reg .memChStat, .reg .logCtl] ps = true) :
    State.Only ps z (State.deliverSlot s m addr ws fails) := by
  refine hO.step ?_ hM
  unfold State.deliverSlot
  repeat' first
    | with_reducible first | assumption | exact State.Only.refl _ _ | apply passSlot_only | apply hqStop_only | apply mapItems_only | apply writeXq_only | apply State.Only.ite_
    | (show sub _ _ = true; decide)

theorem execResultDelivery_only (s : State) (e : Delivery) : OnlyR [.outs, .log, .collator, .dram, .reg .hubHqCfg, .reg .hubHqStat, .reg .hubMsixPba, .reg .colEv, .reg .memChStat, .reg .logCtl] s (execResultDelivery e s) := by
  unfold execResultDelivery
  repeat' first
    | with_reducible first | assumption | exact State.Only.refl _ _ | apply OnlyR.next | apply hqStop_only | apply readWords_only | apply deliverSlot_only | apply State.Only.ite_ | apply State.Only.ite2 | apply OnlyR.ite_
    | (show sub _ _ = true; decide)
    | (extract_lets +onlyGivenNames y; with_reducible refine State.Only.cut y ?_ ?_ <;> [dsimp only [y]; (clear_value y; intro hy)])
    | (extract_lets +onlyGivenNames y; with_reducible refine OnlyR.cut y ?_ ?_ <;> [dsimp only [y]; (clear_value y; intro hy)])
    | (extract_lets +onlyGivenNames y; clear_value y)
    | split
    | with_reducible refine State.Only.snd (by assumption) ?_

theorem execInterruptIntervalEnd_only (s : State) (m : QueueSetId) : OnlyR [.outs, .collator, .reg .hubMsixPba] s (execInterruptIntervalEnd m s) := by
  unfold execInterruptIntervalEnd
  repeat' first
    | with_reducible first | assumption | exact State.Only.refl _ _ | apply OnlyR.next | apply signal_only | apply updHq_only | apply State.Only.foldl_ | apply State.Only.foldl2 | apply State.Only.foldl3
    | (show sub _ _ = true; decide)
    | (intro _ _ hx)

theorem setBar2_only (fn size : Nat) (hO : State.Only ps z s) (hM : sub [.pcie] ps = true) :
    State.Only ps z (State.setBar2 s fn size) := by
  refine hO.step ?_ hM
  unfold State.setBar2
  repeat' first
    | with_reducible first | assumption | exact State.Only.refl _ _ | apply updPcie_only
    | (show sub _ _ = true; decide)

theorem execBar2Read_only (s : State) (fn : FnId) (size off len : Nat) : OnlyR [.outs, .log, .collator, .dram, .pcie, .reg .colEv, .reg .memChStat, .reg .logCtl] s (execBar2Read fn size off len s) := by
  unfold execBar2Read
  repeat' first
    | with_reducible first | assumption | exact State.Only.refl _ _ | apply OnlyR.next | apply OnlyR.fault | apply setBar2_only | apply readSector_only | apply emit_only | apply State.Only.ite_ | apply State.Only.ite2 | apply OnlyR.ite_ | apply State.Only.foldl_ | apply State.Only.foldl2 | apply State.Only.foldl3
    | (show sub _ _ = true; decide)
    | (intro _ _ hx)
    | with_reducible first | refine State.Only.snd (by assumption) ?_ | refine State.Only.snd2 (by assumption) ?_ | refine State.Only.snd3 (by assumption) ?_

theorem bar2Log_only (hO : State.Only ps z s) (hM : sub [.log, .collator, .reg .colEv, .reg .logCtl] ps = true) :
    State.Only ps z (State.bar2Log s) := by
  refine hO.step ?_ hM
  unfold State.bar2Log
  repeat' first
    | with_reducible first | assumption | exact State.Only.refl _ _ | apply logEntry_only
    | (show sub _ _ = true; decide)

theorem execBar2Write_only (s : State) (fn : FnId) (size off : Nat) (bytes : List Byte) : OnlyR [.log, .collator, .dram, .pcie, .reg .colEv, .reg .memChStat, .reg .logCtl] s (execBar2Write fn size off bytes s) := by
  unfold execBar2Write
  repeat' first
    | with_reducible first | assumption | exact State.Only.refl _ _ | apply OnlyR.next | apply OnlyR.fault | apply bar2Log_only | apply readSector_only | apply writeSector_only | apply setBar2_only | apply State.Only.ite_ | apply State.Only.ite2 | apply OnlyR.ite_ | apply State.Only.foldl_ | apply State.Only.foldl2 | apply State.Only.foldl3
    | (show sub _ _ = true; decide)
    | (intro _ _ hx)
    | split
    | with_reducible refine State.Only.snd (by assumption) ?_

end Sys2Proof.Machine
end

