-- ==== Sys2Proof/Laws/FrameAwl.lean ====
section
/-!
SUPPORT. The frames of the operations of the awl cores. Each says which parts of the state an operation may change.
-/
namespace Sys2Proof.Machine

variable {ps : List Part} {z s : State}

/-! ### AwlOps -/

/-- The frame of what an instruction ends in. -/
inductive OnlyE (ps : List Part) (z : State) : Eff → Prop
  | next {s : State} {n : Nat} {pc : Option Nat} (h : State.Only ps z s) : OnlyE ps z (.next s n pc)
  | part {s : State} (h : State.Only ps z s) : OnlyE ps z (.part s)
  | rep {s : State} {n : Nat} (h : State.Only ps z s) : OnlyE ps z (.rep n s)
  | again {s : State} (h : State.Only ps z s) : OnlyE ps z (.again s)
  | fault {s : State} {a b : Nat} (h : State.Only ps z s) : OnlyE ps z (.fault a b s)

theorem OnlyE.of_next {e : Eff} {n : Nat} {pc : Option Nat} (he : e = .next s n pc)
    (h : OnlyE ps z e) : State.Only ps z s := by subst he; cases h; assumption
theorem OnlyE.of_part {e : Eff} (he : e = .part s)
    (h : OnlyE ps z e) : State.Only ps z s := by subst he; cases h; assumption
theorem OnlyE.of_rep {e : Eff} {n : Nat} (he : e = .rep n s)
    (h : OnlyE ps z e) : State.Only ps z s := by subst he; cases h; assumption
theorem OnlyE.of_again {e : Eff} (he : e = .again s)
    (h : OnlyE ps z e) : State.Only ps z s := by subst he; cases h; assumption
theorem OnlyE.of_fault {e : Eff} {a b : Nat} (he : e = .fault a b s)
    (h : OnlyE ps z e) : State.Only ps z s := by subst he; cases h; assumption

theorem OnlyE.step {ps qs : List Part} {z s : State} {e : Eff} (h : State.Only ps z s) (k : OnlyE qs s e)
    (hm : sub qs ps = true) : OnlyE ps z e := by
  cases k <;> constructor <;> exact h.step ‹_› hm

theorem OnlyE.ite_ {ps : List Part} {z : State} {a b : Eff} {c : Prop} [Decidable c] (ha : OnlyE ps z a)
    (hb : OnlyE ps z b) : OnlyE ps z (if c then a else b) := by split <;> assumption

theorem OnlyE.cut {ps : List Part} {z : State} {e : Eff} (x : State) (h : State.Only ps z x)
    (k : State.Only ps z x → OnlyE ps z e) : OnlyE ps z e := k h

theorem dmemWrite_only (c a : Nat) (d : Word) (hO : State.Only ps z s) (hM : sub [.cores, .reg .awlStat] ps = true) :
    State.Only ps z (State.dmemWrite s c a d) := by
  refine hO.step ?_ hM
  unfold State.dmemWrite
  repeat' first
    | with_reducible first | assumption | exact State.Only.refl _ _ | apply updCore_only
    | (show sub _ _ = true; decide)

theorem wakeTags_only (c v : Nat) (hO : State.Only ps z s) (hM : sub [.collator, .cores, .reg .colEv, .reg .awlStat] ps = true) :
    State.Only ps z (State.wakeTags s c v) := by
  refine hO.step ?_ hM
  unfold State.wakeTags
  repeat' first
    | with_reducible first | assumption | exact State.Only.refl _ _ | apply setLevelState_only | apply State.Only.ite_
    | (show sub _ _ = true; decide)
    | split
    | with_reducible first | refine State.Only.snd (by assumption) ?_ | refine State.Only.snd2 (by assumption) ?_ | refine State.Only.snd3 (by assumption) ?_

theorem sendPart_only (c v tag : Nat) (get : Bool) (ra : Word) (len : Nat) (ws : List Word) (hO : State.Only ps z s) (hM : sub [.ring] ps = true) :
    State.Only ps z (State.sendPart s c v tag get ra len ws) := by
  refine hO.step ?_ hM
  unfold State.sendPart
  repeat' first
    | with_reducible first | assumption | exact State.Only.refl _ _ | apply request_only | apply State.Only.ite_ | apply State.Only.ite2
    | (show sub _ _ = true; decide)
    | split
    | with_reducible first | refine State.Only.snd (by assumption) ?_ | refine State.Only.snd2 (by assumption) ?_ | refine State.Only.snd3 (by assumption) ?_

theorem post_only (c v tag : Nat) (get : Bool) (ra : Word) (dmem len : Nat) (ws : List Word) (hO : State.Only ps z s) (hM : sub [.cores, .ring, .reg .awlStat] ps = true) :
    State.Only ps z (State.post s c v tag get ra dmem len ws) := by
  refine hO.step ?_ hM
  unfold State.post
  repeat' first
    | with_reducible first | assumption | exact State.Only.refl _ _ | apply updLevel_only | apply sendPart_only | apply State.Only.ite_
    | (show sub _ _ = true; decide)

theorem postCmsg_only (c v op : Nat) (ends : Bool) (x : Word) (desc : List Word) (hO : State.Only ps z s) (hM : sub [.ring] ps = true) :
    State.Only ps z (State.postCmsg s c v op ends x desc) := by
  refine hO.step ?_ hM
  unfold State.postCmsg
  repeat' first
    | with_reducible first | assumption | exact State.Only.refl _ _ | apply request_only
    | (show sub _ _ = true; decide)
    | with_reducible first | refine State.Only.snd (by assumption) ?_ | refine State.Only.snd2 (by assumption) ?_ | refine State.Only.snd3 (by assumption) ?_

theorem askCollator_only (c v op rd : Nat) (x : Word) (desc : List Word) (hO : State.Only ps z s) (hM : sub [.collator, .cores, .ring, .reg .colEv, .reg .awlStat] ps = true) :
    OnlyE ps z (State.askCollator s c v op rd x desc) := by
  refine OnlyE.step hO ?_ hM
  unfold State.askCollator
  repeat' first
    | with_reducible first | assumption | exact State.Only.refl _ _ | apply setLevelState_only | apply postCmsg_only | apply OnlyE.next | apply OnlyE.part | apply OnlyE.rep | apply OnlyE.again | apply OnlyE.fault | apply OnlyE.ite_
    | (show sub _ _ = true; decide)

theorem finish_only (c v : Nat) (o : AwlOp) (w : Word) (rep : Option Nat) (cost : Nat) (pc : Option Nat) (hO : State.Only ps z s) (hM : sub [.cores, .reg .awlStat] ps = true) :
    State.Only ps z (State.finish s c v o w rep cost pc) := by
  refine hO.step ?_ hM
  unfold State.finish
  repeat' first
    | with_reducible first | assumption | exact State.Only.refl _ _ | apply updCore_only | apply State.Only.ite_ | apply State.Only.ite2
    | (show sub _ _ = true; decide)
    | with_reducible first | refine State.Only.snd (by assumption) ?_ | refine State.Only.snd2 (by assumption) ?_ | refine State.Only.snd3 (by assumption) ?_

theorem runAwl_only (c : Nat) (o : AwlOp) {f : Nat → Word → State → Eff}
 (hO : State.Only ps z s) (hM : sub [.outs, .log, .collator, .cores, .ring, .reg .hubMsixPba, .reg .colStatus, .reg .colEv, .reg .colLock, .reg .colStrStat, .reg .logCtl, .reg .awlStat, .reg .awlFault] ps = true)
    (hf : ∀ v w x, State.Only ps z x → OnlyE ps z (f v w x)) : State.Only ps z (s.runAwl c o f) := by
  have tf : ∀ x v a b d, State.Only ps z x → State.Only ps z (x.taskFault c v a b d) := fun x v a b d hx =>
    (taskFault_only c v a b d (.refl [.outs, .log, .collator, .cores, .ring, .reg .hubMsixPba, .reg .colStatus, .reg .colEv, .reg .colLock, .reg .colStrStat, .reg .logCtl, .reg .awlStat, .reg .awlFault] x) (by decide)).mono' hx hM
  have uc : ∀ x g, State.Only ps z x → State.Only ps z (x.updCore c g) := fun x g hx =>
    (updCore_only c g (.refl [.outs, .log, .collator, .cores, .ring, .reg .hubMsixPba, .reg .colStatus, .reg .colEv, .reg .colLock, .reg .colStrStat, .reg .logCtl, .reg .awlStat, .reg .awlFault] x) (by decide)).mono' hx hM
  have ul : ∀ x v g, State.Only ps z x → State.Only ps z (x.updLevel c v g) := fun x v g hx =>
    (updLevel_only c v g (.refl [.outs, .log, .collator, .cores, .ring, .reg .hubMsixPba, .reg .colStatus, .reg .colEv, .reg .colLock, .reg .colStrStat, .reg .logCtl, .reg .awlStat, .reg .awlFault] x) (by decide)).mono' hx hM
  have fi : ∀ x v a b d e g, State.Only ps z x → State.Only ps z (x.finish c v a b d e g) := fun x v a b d e g hx =>
    (finish_only c v a b d e g (.refl [.outs, .log, .collator, .cores, .ring, .reg .hubMsixPba, .reg .colStatus, .reg .colEv, .reg .colLock, .reg .colStrStat, .reg .logCtl, .reg .awlStat, .reg .awlFault] x) (by decide)).mono' hx hM
  unfold State.runAwl
  repeat' first
    | with_reducible first | assumption | apply tf | apply uc | apply ul | apply fi | apply State.Only.ite_
    | (extract_lets +onlyGivenNames y; refine State.Only.cut y ?_ ?_ <;> [dsimp only [y]; (clear_value y; intro hy)])
    | (extract_lets +onlyGivenNames y; clear_value y)
    | split
    | with_reducible first | refine OnlyE.of_next (by assumption) (hf _ _ _ ?_) | refine OnlyE.of_part (by assumption) (hf _ _ _ ?_) | refine OnlyE.of_rep (by assumption) (hf _ _ _ ?_) | refine OnlyE.of_again (by assumption) (hf _ _ _ ?_) | refine OnlyE.of_fault (by assumption) (hf _ _ _ ?_)

theorem runLevel_only (c : Nat) (o : AwlOp) (f : Word → Level → Level)
 (hO : State.Only ps z s) (hM : sub [.outs, .log, .collator, .cores, .ring, .reg .hubMsixPba, .reg .colStatus, .reg .colEv, .reg .colLock, .reg .colStrStat, .reg .logCtl, .reg .awlStat, .reg .awlFault] ps = true) : State.Only ps z (s.runLevel c o f) :=
  runAwl_only c o hO hM fun v w x hx => .next <| (updLevel_only c v (f w) (.refl [.outs, .log, .collator, .cores, .ring, .reg .hubMsixPba, .reg .colStatus, .reg .colEv, .reg .colLock, .reg .colStrStat, .reg .logCtl, .reg .awlStat, .reg .awlFault] x) (by decide)).mono' hx hM

/-! ### AwlAlu -/

theorem execAwlNop_only (s : State) (c : CoreId) : OnlyR [.outs, .log, .collator, .cores, .ring, .reg .hubMsixPba, .reg .colStatus, .reg .colEv, .reg .colLock, .reg .colStrStat, .reg .logCtl, .reg .awlStat, .reg .awlFault] s (execAwlNop c s) := by
  unfold execAwlNop
  repeat' first
    | with_reducible first | assumption | exact State.Only.refl _ _ | apply OnlyR.next | apply runLevel_only
    | (show sub _ _ = true; decide)

theorem execAwlAdd_only (s : State) (c : CoreId) : OnlyR [.outs, .log, .collator, .cores, .ring, .reg .hubMsixPba, .reg .colStatus, .reg .colEv, .reg .colLock, .reg .colStrStat, .reg .logCtl, .reg .awlStat, .reg .awlFault] s (execAwlAdd c s) := by
  unfold execAwlAdd
  repeat' first
    | with_reducible first | assumption | exact State.Only.refl _ _ | apply OnlyR.next | apply runLevel_only
    | (show sub _ _ = true; decide)

theorem execAwlSub_only (s : State) (c : CoreId) : OnlyR [.outs, .log, .collator, .cores, .ring, .reg .hubMsixPba, .reg .colStatus, .reg .colEv, .reg .colLock, .reg .colStrStat, .reg .logCtl, .reg .awlStat, .reg .awlFault] s (execAwlSub c s) := by
  unfold execAwlSub
  repeat' first
    | with_reducible first | assumption | exact State.Only.refl _ _ | apply OnlyR.next | apply runLevel_only
    | (show sub _ _ = true; decide)

theorem execAwlAdc_only (s : State) (c : CoreId) : OnlyR [.outs, .log, .collator, .cores, .ring, .reg .hubMsixPba, .reg .colStatus, .reg .colEv, .reg .colLock, .reg .colStrStat, .reg .logCtl, .reg .awlStat, .reg .awlFault] s (execAwlAdc c s) := by
  unfold execAwlAdc
  repeat' first
    | with_reducible first | assumption | exact State.Only.refl _ _ | apply OnlyR.next | apply runLevel_only
    | (show sub _ _ = true; decide)

theorem execAwlSbc_only (s : State) (c : CoreId) : OnlyR [.outs, .log, .collator, .cores, .ring, .reg .hubMsixPba, .reg .colStatus, .reg .colEv, .reg .colLock, .reg .colStrStat, .reg .logCtl, .reg .awlStat, .reg .awlFault] s (execAwlSbc c s) := by
  unfold execAwlSbc
  repeat' first
    | with_reducible first | assumption | exact State.Only.refl _ _ | apply OnlyR.next | apply runLevel_only
    | (show sub _ _ = true; decide)

theorem execAwlCmp_only (s : State) (c : CoreId) : OnlyR [.outs, .log, .collator, .cores, .ring, .reg .hubMsixPba, .reg .colStatus, .reg .colEv, .reg .colLock, .reg .colStrStat, .reg .logCtl, .reg .awlStat, .reg .awlFault] s (execAwlCmp c s) := by
  unfold execAwlCmp
  repeat' first
    | with_reducible first | assumption | exact State.Only.refl _ _ | apply OnlyR.next | apply runLevel_only
    | (show sub _ _ = true; decide)

theorem execAwlAnd_only (s : State) (c : CoreId) : OnlyR [.outs, .log, .collator, .cores, .ring, .reg .hubMsixPba, .reg .colStatus, .reg .colEv, .reg .colLock, .reg .colStrStat, .reg .logCtl, .reg .awlStat, .reg .awlFault] s (execAwlAnd c s) := by
  unfold execAwlAnd
  repeat' first
    | with_reducible first | assumption | exact State.Only.refl _ _ | apply OnlyR.next | apply runLevel_only
    | (show sub _ _ = true; decide)

theorem execAwlOr_only (s : State) (c : CoreId) : OnlyR [.outs, .log, .collator, .cores, .ring, .reg .hubMsixPba, .reg .colStatus, .reg .colEv, .reg .colLock, .reg .colStrStat, .reg .logCtl, .reg .awlStat, .reg .awlFault] s (execAwlOr c s) := by
  unfold execAwlOr
  repeat' first
    | with_reducible first | assumption | exact State.Only.refl _ _ | apply OnlyR.next | apply runLevel_only
    | (show sub _ _ = true; decide)

theorem execAwlXor_only (s : State) (c : CoreId) : OnlyR [.outs, .log, .collator, .cores, .ring, .reg .hubMsixPba, .reg .colStatus, .reg .colEv, .reg .colLock, .reg .colStrStat, .reg .logCtl, .reg .awlStat, .reg .awlFault] s (execAwlXor c s) := by
  unfold execAwlXor
  repeat' first
    | with_reducible first | assumption | exact State.Only.refl _ _ | apply OnlyR.next | apply runLevel_only
    | (show sub _ _ = true; decide)

theorem execAwlAndn_only (s : State) (c : CoreId) : OnlyR [.outs, .log, .collator, .cores, .ring, .reg .hubMsixPba, .reg .colStatus, .reg .colEv, .reg .colLock, .reg .colStrStat, .reg .logCtl, .reg .awlStat, .reg .awlFault] s (execAwlAndn c s) := by
  unfold execAwlAndn
  repeat' first
    | with_reducible first | assumption | exact State.Only.refl _ _ | apply OnlyR.next | apply runLevel_only
    | (show sub _ _ = true; decide)

theorem execAwlShl_only (s : State) (c : CoreId) : OnlyR [.outs, .log, .collator, .cores, .ring, .reg .hubMsixPba, .reg .colStatus, .reg .colEv, .reg .colLock, .reg .colStrStat, .reg .logCtl, .reg .awlStat, .reg .awlFault] s (execAwlShl c s) := by
  unfold execAwlShl
  repeat' first
    | with_reducible first | assumption | exact State.Only.refl _ _ | apply OnlyR.next | apply runLevel_only
    | (show sub _ _ = true; decide)

theorem execAwlShr_only (s : State) (c : CoreId) : OnlyR [.outs, .log, .collator, .cores, .ring, .reg .hubMsixPba, .reg .colStatus, .reg .colEv, .reg .colLock, .reg .colStrStat, .reg .logCtl, .reg .awlStat, .reg .awlFault] s (execAwlShr c s) := by
  unfold execAwlShr
  repeat' first
    | with_reducible first | assumption | exact State.Only.refl _ _ | apply OnlyR.next | apply runLevel_only
    | (show sub _ _ = true; decide)

theorem execAwlSar_only (s : State) (c : CoreId) : OnlyR [.outs, .log, .collator, .cores, .ring, .reg .hubMsixPba, .reg .colStatus, .reg .colEv, .reg .colLock, .reg .colStrStat, .reg .logCtl, .reg .awlStat, .reg .awlFault] s (execAwlSar c s) := by
  unfold execAwlSar
  repeat' first
    | with_reducible first | assumption | exact State.Only.refl _ _ | apply OnlyR.next | apply runLevel_only
    | (show sub _ _ = true; decide)

theorem execAwlRol_only (s : State) (c : CoreId) : OnlyR [.outs, .log, .collator, .cores, .ring, .reg .hubMsixPba, .reg .colStatus, .reg .colEv, .reg .colLock, .reg .colStrStat, .reg .logCtl, .reg .awlStat, .reg .awlFault] s (execAwlRol c s) := by
  unfold execAwlRol
  repeat' first
    | with_reducible first | assumption | exact State.Only.refl _ _ | apply OnlyR.next | apply runLevel_only
    | (show sub _ _ = true; decide)

theorem execAwlMins_only (s : State) (c : CoreId) : OnlyR [.outs, .log, .collator, .cores, .ring, .reg .hubMsixPba, .reg .colStatus, .reg .colEv, .reg .colLock, .reg .colStrStat, .reg .logCtl, .reg .awlStat, .reg .awlFault] s (execAwlMins c s) := by
  unfold execAwlMins
  repeat' first
    | with_reducible first | assumption | exact State.Only.refl _ _ | apply OnlyR.next | apply runLevel_only | apply State.Only.ite_ | apply OnlyR.ite_
    | (show sub _ _ = true; decide)

theorem execAwlMaxs_only (s : State) (c : CoreId) : OnlyR [.outs, .log, .collator, .cores, .ring, .reg .hubMsixPba, .reg .colStatus, .reg .colEv, .reg .colLock, .reg .colStrStat, .reg .logCtl, .reg .awlStat, .reg .awlFault] s (execAwlMaxs c s) := by
  unfold execAwlMaxs
  repeat' first
    | with_reducible first | assumption | exact State.Only.refl _ _ | apply OnlyR.next | apply runLevel_only | apply State.Only.ite_ | apply OnlyR.ite_
    | (show sub _ _ = true; decide)

theorem execAwlAbs_only (s : State) (c : CoreId) : OnlyR [.outs, .log, .collator, .cores, .ring, .reg .hubMsixPba, .reg .colStatus, .reg .colEv, .reg .colLock, .reg .colStrStat, .reg .logCtl, .reg .awlStat, .reg .awlFault] s (execAwlAbs c s) := by
  unfold execAwlAbs
  repeat' first
    | with_reducible first | assumption | exact State.Only.refl _ _ | apply OnlyR.next | apply runLevel_only
    | (show sub _ _ = true; decide)

theorem execAwlNeg_only (s : State) (c : CoreId) : OnlyR [.outs, .log, .collator, .cores, .ring, .reg .hubMsixPba, .reg .colStatus, .reg .colEv, .reg .colLock, .reg .colStrStat, .reg .logCtl, .reg .awlStat, .reg .awlFault] s (execAwlNeg c s) := by
  unfold execAwlNeg
  repeat' first
    | with_reducible first | assumption | exact State.Only.refl _ _ | apply OnlyR.next | apply runLevel_only
    | (show sub _ _ = true; decide)

theorem execAwlMov_only (s : State) (c : CoreId) : OnlyR [.outs, .log, .collator, .cores, .ring, .reg .hubMsixPba, .reg .colStatus, .reg .colEv, .reg .colLock, .reg .colStrStat, .reg .logCtl, .reg .awlStat, .reg .awlFault] s (execAwlMov c s) := by
  unfold execAwlMov
  repeat' first
    | with_reducible first | assumption | exact State.Only.refl _ _ | apply OnlyR.next | apply runLevel_only
    | (show sub _ _ = true; decide)

theorem execAwlRsb_only (s : State) (c : CoreId) : OnlyR [.outs, .log, .collator, .cores, .ring, .reg .hubMsixPba, .reg .colStatus, .reg .colEv, .reg .colLock, .reg .colStrStat, .reg .logCtl, .reg .awlStat, .reg .awlFault] s (execAwlRsb c s) := by
  unfold execAwlRsb
  repeat' first
    | with_reducible first | assumption | exact State.Only.refl _ _ | apply OnlyR.next | apply runLevel_only
    | (show sub _ _ = true; decide)

theorem execAwlBsc_only (s : State) (c : CoreId) : OnlyR [.outs, .log, .collator, .cores, .ring, .reg .hubMsixPba, .reg .colStatus, .reg .colEv, .reg .colLock, .reg .colStrStat, .reg .logCtl, .reg .awlStat, .reg .awlFault] s (execAwlBsc c s) := by
  unfold execAwlBsc
  repeat' first
    | with_reducible first | assumption | exact State.Only.refl _ _ | apply OnlyR.next | apply runLevel_only | apply State.Only.ite_ | apply OnlyR.ite_
    | (show sub _ _ = true; decide)

theorem execAwlLzc_only (s : State) (c : CoreId) : OnlyR [.outs, .log, .collator, .cores, .ring, .reg .hubMsixPba, .reg .colStatus, .reg .colEv, .reg .colLock, .reg .colStrStat, .reg .logCtl, .reg .awlStat, .reg .awlFault] s (execAwlLzc c s) := by
  unfold execAwlLzc
  repeat' first
    | with_reducible first | assumption | exact State.Only.refl _ _ | apply OnlyR.next | apply runLevel_only
    | (show sub _ _ = true; decide)

theorem execAwlPopc_only (s : State) (c : CoreId) : OnlyR [.outs, .log, .collator, .cores, .ring, .reg .hubMsixPba, .reg .colStatus, .reg .colEv, .reg .colLock, .reg .colStrStat, .reg .logCtl, .reg .awlStat, .reg .awlFault] s (execAwlPopc c s) := by
  unfold execAwlPopc
  repeat' first
    | with_reducible first | assumption | exact State.Only.refl _ _ | apply OnlyR.next | apply runLevel_only
    | (show sub _ _ = true; decide)

theorem execAwlAddi_only (s : State) (c : CoreId) : OnlyR [.outs, .log, .collator, .cores, .ring, .reg .hubMsixPba, .reg .colStatus, .reg .colEv, .reg .colLock, .reg .colStrStat, .reg .logCtl, .reg .awlStat, .reg .awlFault] s (execAwlAddi c s) := by
  unfold execAwlAddi
  repeat' first
    | with_reducible first | assumption | exact State.Only.refl _ _ | apply OnlyR.next | apply runLevel_only
    | (show sub _ _ = true; decide)

theorem execAwlAndi_only (s : State) (c : CoreId) : OnlyR [.outs, .log, .collator, .cores, .ring, .reg .hubMsixPba, .reg .colStatus, .reg .colEv, .reg .colLock, .reg .colStrStat, .reg .logCtl, .reg .awlStat, .reg .awlFault] s (execAwlAndi c s) := by
  unfold execAwlAndi
  repeat' first
    | with_reducible first | assumption | exact State.Only.refl _ _ | apply OnlyR.next | apply runLevel_only
    | (show sub _ _ = true; decide)

theorem execAwlOri_only (s : State) (c : CoreId) : OnlyR [.outs, .log, .collator, .cores, .ring, .reg .hubMsixPba, .reg .colStatus, .reg .colEv, .reg .colLock, .reg .colStrStat, .reg .logCtl, .reg .awlStat, .reg .awlFault] s (execAwlOri c s) := by
  unfold execAwlOri
  repeat' first
    | with_reducible first | assumption | exact State.Only.refl _ _ | apply OnlyR.next | apply runLevel_only
    | (show sub _ _ = true; decide)

theorem execAwlXori_only (s : State) (c : CoreId) : OnlyR [.outs, .log, .collator, .cores, .ring, .reg .hubMsixPba, .reg .colStatus, .reg .colEv, .reg .colLock, .reg .colStrStat, .reg .logCtl, .reg .awlStat, .reg .awlFault] s (execAwlXori c s) := by
  unfold execAwlXori
  repeat' first
    | with_reducible first | assumption | exact State.Only.refl _ _ | apply OnlyR.next | apply runLevel_only
    | (show sub _ _ = true; decide)

theorem execAwlShli_only (s : State) (c : CoreId) : OnlyR [.outs, .log, .collator, .cores, .ring, .reg .hubMsixPba, .reg .colStatus, .reg .colEv, .reg .colLock, .reg .colStrStat, .reg .logCtl, .reg .awlStat, .reg .awlFault] s (execAwlShli c s) := by
  unfold execAwlShli
  repeat' first
    | with_reducible first | assumption | exact State.Only.refl _ _ | apply OnlyR.next | apply runLevel_only
    | (show sub _ _ = true; decide)

theorem execAwlShri_only (s : State) (c : CoreId) : OnlyR [.outs, .log, .collator, .cores, .ring, .reg .hubMsixPba, .reg .colStatus, .reg .colEv, .reg .colLock, .reg .colStrStat, .reg .logCtl, .reg .awlStat, .reg .awlFault] s (execAwlShri c s) := by
  unfold execAwlShri
  repeat' first
    | with_reducible first | assumption | exact State.Only.refl _ _ | apply OnlyR.next | apply runLevel_only
    | (show sub _ _ = true; decide)

theorem execAwlSari_only (s : State) (c : CoreId) : OnlyR [.outs, .log, .collator, .cores, .ring, .reg .hubMsixPba, .reg .colStatus, .reg .colEv, .reg .colLock, .reg .colStrStat, .reg .logCtl, .reg .awlStat, .reg .awlFault] s (execAwlSari c s) := by
  unfold execAwlSari
  repeat' first
    | with_reducible first | assumption | exact State.Only.refl _ _ | apply OnlyR.next | apply runLevel_only
    | (show sub _ _ = true; decide)

theorem execAwlCmpi_only (s : State) (c : CoreId) : OnlyR [.outs, .log, .collator, .cores, .ring, .reg .hubMsixPba, .reg .colStatus, .reg .colEv, .reg .colLock, .reg .colStrStat, .reg .logCtl, .reg .awlStat, .reg .awlFault] s (execAwlCmpi c s) := by
  unfold execAwlCmpi
  repeat' first
    | with_reducible first | assumption | exact State.Only.refl _ _ | apply OnlyR.next | apply runLevel_only
    | (show sub _ _ = true; decide)

theorem execAwlMovi_only (s : State) (c : CoreId) : OnlyR [.outs, .log, .collator, .cores, .ring, .reg .hubMsixPba, .reg .colStatus, .reg .colEv, .reg .colLock, .reg .colStrStat, .reg .logCtl, .reg .awlStat, .reg .awlFault] s (execAwlMovi c s) := by
  unfold execAwlMovi
  repeat' first
    | with_reducible first | assumption | exact State.Only.refl _ _ | apply OnlyR.next | apply runLevel_only
    | (show sub _ _ = true; decide)

theorem execAwlMovhi_only (s : State) (c : CoreId) : OnlyR [.outs, .log, .collator, .cores, .ring, .reg .hubMsixPba, .reg .colStatus, .reg .colEv, .reg .colLock, .reg .colStrStat, .reg .logCtl, .reg .awlStat, .reg .awlFault] s (execAwlMovhi c s) := by
  unfold execAwlMovhi
  repeat' first
    | with_reducible first | assumption | exact State.Only.refl _ _ | apply OnlyR.next | apply runLevel_only
    | (show sub _ _ = true; decide)

/-! ### AwlMem -/

theorem atPointer_only (c v : Nat) (w : Word) {f : Nat → Level → Eff} (hO : State.Only ps z s)
    (hf : ∀ a l, OnlyE ps z (f a l)) : OnlyE ps z (s.atPointer c v w f) := by
  unfold State.atPointer
  split
  · exact .fault hO
  · exact hf _ _

theorem load_only (c v a rd : Nat) (l : Level) (hO : State.Only ps z s) (hM : sub [.cores, .reg .awlStat] ps = true) :
    OnlyE ps z (State.load s c v a rd l) := by
  refine OnlyE.step hO ?_ hM
  unfold State.load
  repeat' first
    | with_reducible first | assumption | exact State.Only.refl _ _ | apply updLevel_only | apply OnlyE.next | apply OnlyE.part | apply OnlyE.rep | apply OnlyE.again | apply OnlyE.fault | apply OnlyE.ite_
    | (show sub _ _ = true; decide)
    | (intro _ _ _ hx)
    | (intro _ _ hx)
    | (intro _ _)
    | (intro _)
    | split
    | with_reducible first | refine State.Only.snd (by assumption) ?_ | refine State.Only.snd2 (by assumption) ?_ | refine State.Only.snd3 (by assumption) ?_

theorem store_only (c v a : Nat) (d : Word) (l : Level) (hO : State.Only ps z s) (hM : sub [.cores, .reg .awlStat] ps = true) :
    OnlyE ps z (State.store s c v a d l) := by
  refine OnlyE.step hO ?_ hM
  unfold State.store
  repeat' first
    | with_reducible first | assumption | exact State.Only.refl _ _ | apply dmemWrite_only | apply updLevel_only | apply OnlyE.next | apply OnlyE.part | apply OnlyE.rep | apply OnlyE.again | apply OnlyE.fault | apply OnlyE.ite_
    | (show sub _ _ = true; decide)

theorem execAwlLd_only (s : State) (c : CoreId) : OnlyR [.outs, .log, .collator, .cores, .ring, .reg .hubMsixPba, .reg .colStatus, .reg .colEv, .reg .colLock, .reg .colStrStat, .reg .logCtl, .reg .awlStat, .reg .awlFault] s (execAwlLd c s) := by
  unfold execAwlLd
  repeat' first
    | with_reducible first | assumption | exact State.Only.refl _ _ | apply OnlyR.next | apply runAwl_only | apply atPointer_only | apply load_only | apply OnlyE.next | apply OnlyE.part | apply OnlyE.rep | apply OnlyE.again | apply OnlyE.fault | apply OnlyE.ite_
    | (show sub _ _ = true; decide)
    | (intro _ _ _ hx)
    | (intro _ _ hx)
    | (intro _ _)

theorem execAwlSt_only (s : State) (c : CoreId) : OnlyR [.outs, .log, .collator, .cores, .ring, .reg .hubMsixPba, .reg .colStatus, .reg .colEv, .reg .colLock, .reg .colStrStat, .reg .logCtl, .reg .awlStat, .reg .awlFault] s (execAwlSt c s) := by
  unfold execAwlSt
  repeat' first
    | with_reducible first | assumption | exact State.Only.refl _ _ | apply OnlyR.next | apply runAwl_only | apply atPointer_only | apply store_only | apply OnlyE.next | apply OnlyE.part | apply OnlyE.rep | apply OnlyE.again | apply OnlyE.fault | apply OnlyE.ite_
    | (show sub _ _ = true; decide)
    | (intro _ _ _ hx)
    | (intro _ _ hx)
    | (intro _ _)

theorem execAwlLdx_only (s : State) (c : CoreId) : OnlyR [.outs, .log, .collator, .cores, .ring, .reg .hubMsixPba, .reg .colStatus, .reg .colEv, .reg .colLock, .reg .colStrStat, .reg .logCtl, .reg .awlStat, .reg .awlFault] s (execAwlLdx c s) := by
  unfold execAwlLdx
  repeat' first
    | with_reducible first | assumption | exact State.Only.refl _ _ | apply OnlyR.next | apply runAwl_only | apply load_only | apply OnlyE.next | apply OnlyE.part | apply OnlyE.rep | apply OnlyE.again | apply OnlyE.fault | apply OnlyE.ite_
    | (show sub _ _ = true; decide)
    | (intro _ _ _ hx)

theorem execAwlStx_only (s : State) (c : CoreId) : OnlyR [.outs, .log, .collator, .cores, .ring, .reg .hubMsixPba, .reg .colStatus, .reg .colEv, .reg .colLock, .reg .colStrStat, .reg .logCtl, .reg .awlStat, .reg .awlFault] s (execAwlStx c s) := by
  unfold execAwlStx
  repeat' first
    | with_reducible first | assumption | exact State.Only.refl _ _ | apply OnlyR.next | apply runAwl_only | apply store_only | apply OnlyE.next | apply OnlyE.part | apply OnlyE.rep | apply OnlyE.again | apply OnlyE.fault | apply OnlyE.ite_
    | (show sub _ _ = true; decide)
    | (intro _ _ _ hx)

theorem multiple_only (c v : Nat) (w : Word) {f : Nat → Nat → Except (Nat × Nat) State}
 (hO : State.Only ps z s) (hM : sub [.cores, .reg .awlStat] ps = true)
    (hf : ∀ i a t, f i a = .ok t → State.Only ps z t) : OnlyE ps z (s.multiple c v w f) := by
  unfold State.multiple
  extract_lets k mask base below left close
  have hc : ∀ x, State.Only ps z x → OnlyE ps z (close x) := fun x hx => .next (updLevel_only c v _ hx hM)
  clear_value left close
  cases left
  · exact hc _ hO
  · dsimp only
    split
    · exact .fault hO
    · next t ht =>
      refine .ite_ (hc _ (hf _ _ _ ht)) (.part (updLevel_only c v _ (hf _ _ _ ht) hM))

theorem execAwlStm_only (s : State) (c : CoreId) : OnlyR [.outs, .log, .collator, .cores, .ring, .reg .hubMsixPba, .reg .colStatus, .reg .colEv, .reg .colLock, .reg .colStrStat, .reg .logCtl, .reg .awlStat, .reg .awlFault] s (execAwlStm c s) := by
  unfold execAwlStm
  apply OnlyR.next
  with_reducible apply runAwl_only
  · exact State.Only.refl _ _
  · decide
  · intro v w x hx
    with_reducible apply multiple_only
    · exact hx
    · decide
    · intro i a t ht
      dsimp only at ht
      split at ht
      · cases ht; exact dmemWrite_only _ _ _ (updLevel_only _ _ _ hx (by decide)) (by decide)
      · cases ht

theorem execAwlLdm_only (s : State) (c : CoreId) : OnlyR [.outs, .log, .collator, .cores, .ring, .reg .hubMsixPba, .reg .colStatus, .reg .colEv, .reg .colLock, .reg .colStrStat, .reg .logCtl, .reg .awlStat, .reg .awlFault] s (execAwlLdm c s) := by
  unfold execAwlLdm
  apply OnlyR.next
  with_reducible apply runAwl_only
  · exact State.Only.refl _ _
  · decide
  · intro v w x hx
    with_reducible apply multiple_only
    · exact hx
    · decide
    · intro i a t ht
      split at ht
      · split at ht
        · cases ht; exact updLevel_only _ _ _ hx (by decide)
        · cases ht
      · cases ht

theorem execAwlB_only (s : State) (c : CoreId) : OnlyR [.outs, .log, .collator, .cores, .ring, .reg .hubMsixPba, .reg .colStatus, .reg .colEv, .reg .colLock, .reg .colStrStat, .reg .logCtl, .reg .awlStat, .reg .awlFault] s (execAwlB c s) := by
  unfold execAwlB
  repeat' first
    | with_reducible first | assumption | exact State.Only.refl _ _ | apply OnlyR.next | apply runAwl_only | apply OnlyE.next | apply OnlyE.part | apply OnlyE.rep | apply OnlyE.again | apply OnlyE.fault | apply OnlyE.ite_ | apply State.Only.ite_ | apply OnlyR.ite_
    | (show sub _ _ = true; decide)
    | (intro _ _ _ hx)

theorem spill_only {ps : List Part} {z s t : State} (c v : Nat) (he : s.spill c v = some t) (hO : State.Only ps z s)
    (hM : sub [.cores, .reg .awlStat] ps = true) : State.Only ps z t := by
  simp only [State.spill] at he
  split at he
  · simp at he
  · simp only [Option.some.injEq] at he
    subst he
    exact updLevel_only _ _ _ (State.Only.foldl_ _ (fun _ _ hx => dmemWrite_only _ _ _ hx hM) hO) hM

theorem fill_only {ps : List Part} {z s t : State} (c v : Nat) (he : s.fill c v = some t) (hO : State.Only ps z s)
    (hM : sub [.cores, .reg .awlStat] ps = true) : State.Only ps z t := by
  simp only [State.fill] at he
  split at he
  · simp at he
  · simp only [Option.some.injEq] at he
    subst he
    exact updLevel_only _ _ _ hO hM

theorem execAwlCall_only (s : State) (c : CoreId) : OnlyR [.outs, .log, .collator, .cores, .ring, .reg .hubMsixPba, .reg .colStatus, .reg .colEv, .reg .colLock, .reg .colStrStat, .reg .logCtl, .reg .awlStat, .reg .awlFault] s (execAwlCall c s) := by
  unfold execAwlCall
  repeat' first
    | with_reducible first | assumption | exact State.Only.refl _ _ | apply OnlyR.next | apply OnlyR.fault | apply runAwl_only | apply updLevel_only | apply OnlyE.next | apply OnlyE.part | apply OnlyE.rep | apply OnlyE.again | apply OnlyE.fault | apply OnlyE.ite_ | apply State.Only.ite_ | apply OnlyR.ite_
    | (show sub _ _ = true; decide)
    | (intro _ _ _ hx)
    | (intro _ _ hx)
    | (intro _ _)
    | (intro _)
    | (extract_lets +onlyGivenNames y; have _h : _ → _ := y; clear _h; dsimp only [y]; clear y)
    | (extract_lets +onlyGivenNames y; with_reducible refine State.Only.cut y ?_ ?_ <;> [dsimp only [y]; (clear_value y; intro hy)])
    | (extract_lets +onlyGivenNames y; with_reducible refine OnlyR.cut y ?_ ?_ <;> [dsimp only [y]; (clear_value y; intro hy)])
    | (extract_lets +onlyGivenNames y; with_reducible refine OnlyE.cut y ?_ ?_ <;> [dsimp only [y]; (clear_value y; intro hy)])
    | (extract_lets +onlyGivenNames y; clear_value y)
    | split
    | (refine spill_only _ _ (by assumption) ?_ ?_)
    | with_reducible first | refine State.Only.snd (by assumption) ?_ | refine State.Only.snd2 (by assumption) ?_ | refine State.Only.snd3 (by assumption) ?_

theorem execAwlRet_only (s : State) (c : CoreId) : OnlyR [.outs, .log, .collator, .cores, .ring, .reg .hubMsixPba, .reg .colStatus, .reg .colEv, .reg .colLock, .reg .colStrStat, .reg .logCtl, .reg .awlStat, .reg .awlFault] s (execAwlRet c s) := by
  unfold execAwlRet
  repeat' first
    | with_reducible first | assumption | exact State.Only.refl _ _ | apply OnlyR.next | apply OnlyR.fault | apply runAwl_only | apply updLevel_only | apply OnlyE.next | apply OnlyE.part | apply OnlyE.rep | apply OnlyE.again | apply OnlyE.fault | apply OnlyE.ite_ | apply State.Only.ite_ | apply OnlyR.ite_
    | (show sub _ _ = true; decide)
    | (intro _ _ _ hx)
    | (intro _ _ hx)
    | (intro _ _)
    | (intro _)
    | (extract_lets +onlyGivenNames y; have _h : _ → _ := y; clear _h; dsimp only [y]; clear y)
    | (extract_lets +onlyGivenNames y; with_reducible refine State.Only.cut y ?_ ?_ <;> [dsimp only [y]; (clear_value y; intro hy)])
    | (extract_lets +onlyGivenNames y; with_reducible refine OnlyR.cut y ?_ ?_ <;> [dsimp only [y]; (clear_value y; intro hy)])
    | (extract_lets +onlyGivenNames y; with_reducible refine OnlyE.cut y ?_ ?_ <;> [dsimp only [y]; (clear_value y; intro hy)])
    | (extract_lets +onlyGivenNames y; clear_value y)
    | split
    | (refine fill_only _ _ (by assumption) ?_ ?_)
    | with_reducible first | refine State.Only.snd (by assumption) ?_ | refine State.Only.snd2 (by assumption) ?_ | refine State.Only.snd3 (by assumption) ?_

theorem execAwlJr_only (s : State) (c : CoreId) : OnlyR [.outs, .log, .collator, .cores, .ring, .reg .hubMsixPba, .reg .colStatus, .reg .colEv, .reg .colLock, .reg .colStrStat, .reg .logCtl, .reg .awlStat, .reg .awlFault] s (execAwlJr c s) := by
  unfold execAwlJr
  repeat' first
    | with_reducible first | assumption | exact State.Only.refl _ _ | apply OnlyR.next | apply runAwl_only | apply OnlyE.next | apply OnlyE.part | apply OnlyE.rep | apply OnlyE.again | apply OnlyE.fault | apply OnlyE.ite_
    | (show sub _ _ = true; decide)
    | (intro _ _ _ hx)

theorem execAwlRep_only (s : State) (c : CoreId) : OnlyR [.outs, .log, .collator, .cores, .ring, .reg .hubMsixPba, .reg .colStatus, .reg .colEv, .reg .colLock, .reg .colStrStat, .reg .logCtl, .reg .awlStat, .reg .awlFault] s (execAwlRep c s) := by
  unfold execAwlRep
  repeat' first
    | with_reducible first | assumption | exact State.Only.refl _ _ | apply OnlyR.next | apply OnlyR.fault | apply runAwl_only | apply OnlyE.next | apply OnlyE.part | apply OnlyE.rep | apply OnlyE.again | apply OnlyE.fault | apply OnlyE.ite_ | apply State.Only.ite_ | apply OnlyR.ite_
    | (show sub _ _ = true; decide)
    | (intro _ _ _ hx)
    | with_reducible first | refine State.Only.snd (by assumption) ?_ | refine State.Only.snd2 (by assumption) ?_ | refine State.Only.snd3 (by assumption) ?_

theorem execAwlMul_only (s : State) (c : CoreId) : OnlyR [.outs, .log, .collator, .cores, .ring, .reg .hubMsixPba, .reg .colStatus, .reg .colEv, .reg .colLock, .reg .colStrStat, .reg .logCtl, .reg .awlStat, .reg .awlFault] s (execAwlMul c s) := by
  unfold execAwlMul
  repeat' first
    | with_reducible first | assumption | exact State.Only.refl _ _ | apply OnlyR.next | apply runLevel_only
    | (show sub _ _ = true; decide)

theorem execAwlMac_only (s : State) (c : CoreId) : OnlyR [.outs, .log, .collator, .cores, .ring, .reg .hubMsixPba, .reg .colStatus, .reg .colEv, .reg .colLock, .reg .colStrStat, .reg .logCtl, .reg .awlStat, .reg .awlFault] s (execAwlMac c s) := by
  unfold execAwlMac
  repeat' first
    | with_reducible first | assumption | exact State.Only.refl _ _ | apply OnlyR.next | apply runLevel_only
    | (show sub _ _ = true; decide)

theorem execAwlMsu_only (s : State) (c : CoreId) : OnlyR [.outs, .log, .collator, .cores, .ring, .reg .hubMsixPba, .reg .colStatus, .reg .colEv, .reg .colLock, .reg .colStrStat, .reg .logCtl, .reg .awlStat, .reg .awlFault] s (execAwlMsu c s) := by
  unfold execAwlMsu
  repeat' first
    | with_reducible first | assumption | exact State.Only.refl _ _ | apply OnlyR.next | apply runLevel_only
    | (show sub _ _ = true; decide)

theorem execAwlAclr_only (s : State) (c : CoreId) : OnlyR [.outs, .log, .collator, .cores, .ring, .reg .hubMsixPba, .reg .colStatus, .reg .colEv, .reg .colLock, .reg .colStrStat, .reg .logCtl, .reg .awlStat, .reg .awlFault] s (execAwlAclr c s) := by
  unfold execAwlAclr
  repeat' first
    | with_reducible first | assumption | exact State.Only.refl _ _ | apply OnlyR.next | apply runLevel_only
    | (show sub _ _ = true; decide)

theorem execAwlExt_only (s : State) (c : CoreId) : OnlyR [.outs, .log, .collator, .cores, .ring, .reg .hubMsixPba, .reg .colStatus, .reg .colEv, .reg .colLock, .reg .colStrStat, .reg .logCtl, .reg .awlStat, .reg .awlFault] s (execAwlExt c s) := by
  unfold execAwlExt
  repeat' first
    | with_reducible first | assumption | exact State.Only.refl _ _ | apply OnlyR.next | apply OnlyR.fault | apply runAwl_only | apply updLevel_only | apply OnlyE.next | apply OnlyE.part | apply OnlyE.rep | apply OnlyE.again | apply OnlyE.fault | apply OnlyE.ite_ | apply State.Only.ite_ | apply OnlyR.ite_
    | (show sub _ _ = true; decide)
    | (intro _ _ _ hx)

theorem accumulateP_only (c v pop : Nat) (w : Word) (hO : State.Only ps z s) (hM : sub [.cores, .reg .awlStat] ps = true) :
    OnlyE ps z (State.accumulateP s c v pop w) := by
  refine OnlyE.step hO ?_ hM
  unfold State.accumulateP
  repeat' first
    | with_reducible first | assumption | exact State.Only.refl _ _ | apply updLevel_only | apply OnlyE.next | apply OnlyE.part | apply OnlyE.rep | apply OnlyE.again | apply OnlyE.fault | apply OnlyE.ite_
    | (show sub _ _ = true; decide)
    | (intro _ _ _ hx)
    | (intro _ _ hx)
    | (intro _ _)
    | (intro _)
    | (extract_lets +onlyGivenNames y; with_reducible refine State.Only.cut y ?_ ?_ <;> [dsimp only [y]; (clear_value y; intro hy)])
    | (extract_lets +onlyGivenNames y; with_reducible refine OnlyE.cut y ?_ ?_ <;> [dsimp only [y]; (clear_value y; intro hy)])
    | (extract_lets +onlyGivenNames y; clear_value y)
    | split
    | with_reducible first | refine State.Only.snd (by assumption) ?_ | refine State.Only.snd2 (by assumption) ?_ | refine State.Only.snd3 (by assumption) ?_

theorem execAwlMacp_only (s : State) (c : CoreId) : OnlyR [.outs, .log, .collator, .cores, .ring, .reg .hubMsixPba, .reg .colStatus, .reg .colEv, .reg .colLock, .reg .colStrStat, .reg .logCtl, .reg .awlStat, .reg .awlFault] s (execAwlMacp c s) := by
  unfold execAwlMacp
  repeat' first
    | with_reducible first | assumption | exact State.Only.refl _ _ | apply OnlyR.next | apply runAwl_only | apply accumulateP_only | apply OnlyE.next | apply OnlyE.part | apply OnlyE.rep | apply OnlyE.again | apply OnlyE.fault | apply OnlyE.ite_
    | (show sub _ _ = true; decide)
    | (intro _ _ _ hx)

theorem execAwlMsup_only (s : State) (c : CoreId) : OnlyR [.outs, .log, .collator, .cores, .ring, .reg .hubMsixPba, .reg .colStatus, .reg .colEv, .reg .colLock, .reg .colStrStat, .reg .logCtl, .reg .awlStat, .reg .awlFault] s (execAwlMsup c s) := by
  unfold execAwlMsup
  repeat' first
    | with_reducible first | assumption | exact State.Only.refl _ _ | apply OnlyR.next | apply runAwl_only | apply accumulateP_only | apply OnlyE.next | apply OnlyE.part | apply OnlyE.rep | apply OnlyE.again | apply OnlyE.fault | apply OnlyE.ite_
    | (show sub _ _ = true; decide)
    | (intro _ _ _ hx)

/-! ### AwlSys -/

theorem onTag_only (c v : Nat) (w : Word) {f : Nat → Eff} (hO : State.Only ps z s)
    (hM : sub [.collator, .cores, .reg .colEv, .reg .awlStat] ps = true) (hf : ∀ t, OnlyE ps z (f t)) : OnlyE ps z (s.onTag c v w f) := by
  unfold State.onTag
  dsimp only
  split
  · exact .again (setLevelState_only _ _ _ hO hM)
  · exact hf _

theorem execAwlXget_only (s : State) (c : CoreId) : OnlyR [.outs, .log, .collator, .cores, .ring, .reg .hubMsixPba, .reg .colStatus, .reg .colEv, .reg .colLock, .reg .colStrStat, .reg .logCtl, .reg .awlStat, .reg .awlFault] s (execAwlXget c s) := by
  unfold execAwlXget
  repeat' first
    | with_reducible first | assumption | exact State.Only.refl _ _ | apply OnlyR.next | apply runAwl_only | apply onTag_only | apply post_only | apply OnlyE.next | apply OnlyE.part | apply OnlyE.rep | apply OnlyE.again | apply OnlyE.fault | apply OnlyE.ite_
    | (show sub _ _ = true; decide)
    | (intro _ _ _ hx)
    | (intro _ _ hx)
    | (intro _ _)
    | (intro _)

theorem execAwlXput_only (s : State) (c : CoreId) : OnlyR [.outs, .log, .collator, .cores, .ring, .reg .hubMsixPba, .reg .colStatus, .reg .colEv, .reg .colLock, .reg .colStrStat, .reg .logCtl, .reg .awlStat, .reg .awlFault] s (execAwlXput c s) := by
  unfold execAwlXput
  repeat' first
    | with_reducible first | assumption | exact State.Only.refl _ _ | apply OnlyR.next | apply runAwl_only | apply onTag_only | apply post_only | apply OnlyE.next | apply OnlyE.part | apply OnlyE.rep | apply OnlyE.again | apply OnlyE.fault | apply OnlyE.ite_
    | (show sub _ _ = true; decide)
    | (intro _ _ _ hx)
    | (intro _ _ hx)
    | (intro _ _)
    | (intro _)

theorem execAwlXwait_only (s : State) (c : CoreId) : OnlyR [.outs, .log, .collator, .cores, .ring, .reg .hubMsixPba, .reg .colStatus, .reg .colEv, .reg .colLock, .reg .colStrStat, .reg .logCtl, .reg .awlStat, .reg .awlFault] s (execAwlXwait c s) := by
  unfold execAwlXwait
  repeat' first
    | with_reducible first | assumption | exact State.Only.refl _ _ | apply OnlyR.next | apply runAwl_only | apply setLevelState_only | apply OnlyE.next | apply OnlyE.part | apply OnlyE.rep | apply OnlyE.again | apply OnlyE.fault | apply OnlyE.ite_ | apply State.Only.ite_ | apply OnlyR.ite_
    | (show sub _ _ = true; decide)
    | (intro _ _ _ hx)

theorem execAwlXstat_only (s : State) (c : CoreId) : OnlyR [.outs, .log, .collator, .cores, .ring, .reg .hubMsixPba, .reg .colStatus, .reg .colEv, .reg .colLock, .reg .colStrStat, .reg .logCtl, .reg .awlStat, .reg .awlFault] s (execAwlXstat c s) := by
  unfold execAwlXstat
  repeat' first
    | with_reducible first | assumption | exact State.Only.refl _ _ | apply OnlyR.next | apply runLevel_only
    | (show sub _ _ = true; decide)

theorem execAwlTake_only (s : State) (c : CoreId) : OnlyR [.outs, .log, .collator, .cores, .ring, .reg .hubMsixPba, .reg .colStatus, .reg .colEv, .reg .colLock, .reg .colStrStat, .reg .logCtl, .reg .awlStat, .reg .awlFault] s (execAwlTake c s) := by
  unfold execAwlTake
  repeat' first
    | with_reducible first | assumption | exact State.Only.refl _ _ | apply OnlyR.next | apply runAwl_only | apply askCollator_only | apply OnlyE.next | apply OnlyE.part | apply OnlyE.rep | apply OnlyE.again | apply OnlyE.fault | apply OnlyE.ite_
    | (show sub _ _ = true; decide)
    | (intro _ _ _ hx)

theorem execAwlGive_only (s : State) (c : CoreId) : OnlyR [.outs, .log, .collator, .cores, .ring, .reg .hubMsixPba, .reg .colStatus, .reg .colEv, .reg .colLock, .reg .colStrStat, .reg .logCtl, .reg .awlStat, .reg .awlFault] s (execAwlGive c s) := by
  unfold execAwlGive
  repeat' first
    | with_reducible first | assumption | exact State.Only.refl _ _ | apply OnlyR.next | apply OnlyR.fault | apply runAwl_only | apply askCollator_only | apply OnlyE.next | apply OnlyE.part | apply OnlyE.rep | apply OnlyE.again | apply OnlyE.fault | apply OnlyE.ite_
    | (show sub _ _ = true; decide)
    | (intro _ _ _ hx)
    | (intro _ _ hx)
    | (intro _ _)
    | (intro _)
    | (extract_lets +onlyGivenNames y; with_reducible refine State.Only.cut y ?_ ?_ <;> [dsimp only [y]; (clear_value y; intro hy)])
    | (extract_lets +onlyGivenNames y; with_reducible refine OnlyR.cut y ?_ ?_ <;> [dsimp only [y]; (clear_value y; intro hy)])
    | (extract_lets +onlyGivenNames y; with_reducible refine OnlyE.cut y ?_ ?_ <;> [dsimp only [y]; (clear_value y; intro hy)])
    | (extract_lets +onlyGivenNames y; clear_value y)
    | split
    | with_reducible first | refine State.Only.snd (by assumption) ?_ | refine State.Only.snd2 (by assumption) ?_ | refine State.Only.snd3 (by assumption) ?_

theorem closeItem_only (c v op : Nat) (w : Word) (x : Word) (hO : State.Only ps z s) (hM : sub [.collator, .cores, .ring, .reg .colEv, .reg .awlStat] ps = true) :
    OnlyE ps z (State.closeItem s c v op w x) := by
  refine OnlyE.step hO ?_ hM
  unfold State.closeItem
  repeat' first
    | with_reducible first | assumption | exact State.Only.refl _ _ | apply updLevel_only | apply postCmsg_only | apply setLevelState_only | apply OnlyE.next | apply OnlyE.part | apply OnlyE.rep | apply OnlyE.again | apply OnlyE.fault | apply OnlyE.ite_ | apply State.Only.ite_
    | (show sub _ _ = true; decide)

theorem execAwlDone_only (s : State) (c : CoreId) : OnlyR [.outs, .log, .collator, .cores, .ring, .reg .hubMsixPba, .reg .colStatus, .reg .colEv, .reg .colLock, .reg .colStrStat, .reg .logCtl, .reg .awlStat, .reg .awlFault] s (execAwlDone c s) := by
  unfold execAwlDone
  repeat' first
    | with_reducible first | assumption | exact State.Only.refl _ _ | apply OnlyR.next | apply runAwl_only | apply closeItem_only | apply OnlyE.next | apply OnlyE.part | apply OnlyE.rep | apply OnlyE.again | apply OnlyE.fault | apply OnlyE.ite_
    | (show sub _ _ = true; decide)
    | (intro _ _ _ hx)

theorem execAwlDefer_only (s : State) (c : CoreId) : OnlyR [.outs, .log, .collator, .cores, .ring, .reg .hubMsixPba, .reg .colStatus, .reg .colEv, .reg .colLock, .reg .colStrStat, .reg .logCtl, .reg .awlStat, .reg .awlFault] s (execAwlDefer c s) := by
  unfold execAwlDefer
  repeat' first
    | with_reducible first | assumption | exact State.Only.refl _ _ | apply OnlyR.next | apply runAwl_only | apply closeItem_only | apply OnlyE.next | apply OnlyE.part | apply OnlyE.rep | apply OnlyE.again | apply OnlyE.fault | apply OnlyE.ite_
    | (show sub _ _ = true; decide)
    | (intro _ _ _ hx)

theorem execAwlLock_only (s : State) (c : CoreId) : OnlyR [.outs, .log, .collator, .cores, .ring, .reg .hubMsixPba, .reg .colStatus, .reg .colEv, .reg .colLock, .reg .colStrStat, .reg .logCtl, .reg .awlStat, .reg .awlFault] s (execAwlLock c s) := by
  unfold execAwlLock
  repeat' first
    | with_reducible first | assumption | exact State.Only.refl _ _ | apply OnlyR.next | apply runAwl_only | apply askCollator_only | apply OnlyE.next | apply OnlyE.part | apply OnlyE.rep | apply OnlyE.again | apply OnlyE.fault | apply OnlyE.ite_
    | (show sub _ _ = true; decide)
    | (intro _ _ _ hx)

theorem execAwlUnlock_only (s : State) (c : CoreId) : OnlyR [.outs, .log, .collator, .cores, .ring, .reg .hubMsixPba, .reg .colStatus, .reg .colEv, .reg .colLock, .reg .colStrStat, .reg .logCtl, .reg .awlStat, .reg .awlFault] s (execAwlUnlock c s) := by
  unfold execAwlUnlock
  repeat' first
    | with_reducible first | assumption | exact State.Only.refl _ _ | apply OnlyR.next | apply runAwl_only | apply postCmsg_only | apply OnlyE.next | apply OnlyE.part | apply OnlyE.rep | apply OnlyE.again | apply OnlyE.fault | apply OnlyE.ite_
    | (show sub _ _ = true; decide)
    | (intro _ _ _ hx)

theorem execAwlYield_only (s : State) (c : CoreId) : OnlyR [.outs, .log, .collator, .cores, .ring, .reg .hubMsixPba, .reg .colStatus, .reg .colEv, .reg .colLock, .reg .colStrStat, .reg .logCtl, .reg .awlStat, .reg .awlFault] s (execAwlYield c s) := by
  unfold execAwlYield
  repeat' first
    | with_reducible first | assumption | exact State.Only.refl _ _ | apply OnlyR.next | apply runAwl_only | apply askCollator_only | apply OnlyE.next | apply OnlyE.part | apply OnlyE.rep | apply OnlyE.again | apply OnlyE.fault | apply OnlyE.ite_
    | (show sub _ _ = true; decide)
    | (intro _ _ _ hx)

theorem execAwlSrd_only (s : State) (c : CoreId) : OnlyR [.outs, .log, .collator, .cores, .ring, .reg .hubMsixPba, .reg .colStatus, .reg .colEv, .reg .colLock, .reg .colStrStat, .reg .logCtl, .reg .awlStat, .reg .awlFault] s (execAwlSrd c s) := by
  unfold execAwlSrd
  repeat' first
    | with_reducible first | assumption | exact State.Only.refl _ _ | apply OnlyR.next | apply OnlyR.fault | apply runAwl_only | apply updLevel_only | apply OnlyE.next | apply OnlyE.part | apply OnlyE.rep | apply OnlyE.again | apply OnlyE.fault | apply OnlyE.ite_ | apply State.Only.ite_ | apply OnlyR.ite_
    | (show sub _ _ = true; decide)
    | (intro _ _ _ hx)
    | (intro _ _ hx)
    | (intro _ _)
    | (intro _)
    | split
    | with_reducible first | refine State.Only.snd (by assumption) ?_ | refine State.Only.snd2 (by assumption) ?_ | refine State.Only.snd3 (by assumption) ?_

theorem execAwlSwr_only (s : State) (c : CoreId) : OnlyR [.outs, .log, .collator, .cores, .ring, .reg .hubMsixPba, .reg .colStatus, .reg .colEv, .reg .colLock, .reg .colStrStat, .reg .logCtl, .reg .awlStat, .reg .awlFault] s (execAwlSwr c s) := by
  unfold execAwlSwr
  repeat' first
    | with_reducible first | assumption | exact State.Only.refl _ _ | apply OnlyR.next | apply OnlyR.fault | apply runAwl_only | apply updLevel_only | apply OnlyE.next | apply OnlyE.part | apply OnlyE.rep | apply OnlyE.again | apply OnlyE.fault | apply OnlyE.ite_
    | (show sub _ _ = true; decide)
    | (intro _ _ _ hx)
    | (intro _ _ hx)
    | (intro _ _)
    | (intro _)
    | split
    | with_reducible first | refine State.Only.snd (by assumption) ?_ | refine State.Only.snd2 (by assumption) ?_ | refine State.Only.snd3 (by assumption) ?_

theorem onBank_only (c v : Nat) {f : Nat → Eff} (hO : State.Only ps z s)
    (hf : ∀ t, OnlyE ps z (f t)) : OnlyE ps z (s.onBank c v f) := by
  unfold State.onBank
  dsimp only
  split
  · exact hf _
  · exact .fault hO

theorem execAwlBget_only (s : State) (c : CoreId) : OnlyR [.outs, .log, .collator, .cores, .ring, .reg .hubMsixPba, .reg .colStatus, .reg .colEv, .reg .colLock, .reg .colStrStat, .reg .logCtl, .reg .awlStat, .reg .awlFault] s (execAwlBget c s) := by
  unfold execAwlBget
  repeat' first
    | with_reducible first | assumption | exact State.Only.refl _ _ | apply OnlyR.next | apply OnlyR.fault | apply runAwl_only | apply onBank_only | apply updLevel_only | apply OnlyE.next | apply OnlyE.part | apply OnlyE.rep | apply OnlyE.again | apply OnlyE.fault | apply OnlyE.ite_ | apply State.Only.ite_ | apply State.Only.ite2 | apply OnlyR.ite_
    | (show sub _ _ = true; decide)
    | (intro _ _ _ hx)
    | (intro _ _ hx)
    | (intro _ _)
    | (intro _)
    | split
    | with_reducible first | refine State.Only.snd (by assumption) ?_ | refine State.Only.snd2 (by assumption) ?_ | refine State.Only.snd3 (by assumption) ?_

theorem execAwlBput_only (s : State) (c : CoreId) : OnlyR [.outs, .log, .collator, .cores, .ring, .reg .hubMsixPba, .reg .colStatus, .reg .colEv, .reg .colLock, .reg .colStrStat, .reg .logCtl, .reg .awlStat, .reg .awlFault] s (execAwlBput c s) := by
  unfold execAwlBput
  repeat' first
    | with_reducible first | assumption | exact State.Only.refl _ _ | apply OnlyR.next | apply OnlyR.fault | apply runAwl_only | apply onBank_only | apply updLevel_only | apply OnlyE.next | apply OnlyE.part | apply OnlyE.rep | apply OnlyE.again | apply OnlyE.fault | apply OnlyE.ite_ | apply State.Only.ite_ | apply OnlyR.ite_
    | (show sub _ _ = true; decide)
    | (intro _ _ _ hx)
    | (intro _ _ hx)
    | (intro _ _)
    | (intro _)
    | (extract_lets +onlyGivenNames y; with_reducible refine State.Only.cut y ?_ ?_ <;> [dsimp only [y]; (clear_value y; intro hy)])
    | (extract_lets +onlyGivenNames y; with_reducible refine OnlyR.cut y ?_ ?_ <;> [dsimp only [y]; (clear_value y; intro hy)])
    | (extract_lets +onlyGivenNames y; with_reducible refine OnlyE.cut y ?_ ?_ <;> [dsimp only [y]; (clear_value y; intro hy)])
    | (extract_lets +onlyGivenNames y; clear_value y)
    | split
    | with_reducible first | refine State.Only.snd (by assumption) ?_ | refine State.Only.snd2 (by assumption) ?_ | refine State.Only.snd3 (by assumption) ?_

theorem execAwlBexp_only (s : State) (c : CoreId) : OnlyR [.outs, .log, .collator, .cores, .ring, .reg .hubMsixPba, .reg .colStatus, .reg .colEv, .reg .colLock, .reg .colStrStat, .reg .logCtl, .reg .awlStat, .reg .awlFault] s (execAwlBexp c s) := by
  unfold execAwlBexp
  repeat' first
    | with_reducible first | assumption | exact State.Only.refl _ _ | apply OnlyR.next | apply runLevel_only
    | (show sub _ _ = true; decide)

theorem execAwlBfix_only (s : State) (c : CoreId) : OnlyR [.outs, .log, .collator, .cores, .ring, .reg .hubMsixPba, .reg .colStatus, .reg .colEv, .reg .colLock, .reg .colStrStat, .reg .logCtl, .reg .awlStat, .reg .awlFault] s (execAwlBfix c s) := by
  unfold execAwlBfix
  repeat' first
    | with_reducible first | assumption | exact State.Only.refl _ _ | apply OnlyR.next | apply runLevel_only
    | (show sub _ _ = true; decide)

theorem execAwlPriv_only (s : State) (c : CoreId) : OnlyR [.outs, .log, .collator, .cores, .ring, .reg .hubMsixPba, .reg .colStatus, .reg .colEv, .reg .colLock, .reg .colStrStat, .reg .logCtl, .reg .awlStat, .reg .awlFault] s (execAwlPriv c s) := by
  unfold execAwlPriv
  repeat' first
    | with_reducible first | assumption | exact State.Only.refl _ _ | apply OnlyR.next | apply OnlyR.fault | apply runAwl_only | apply updLevel_only | apply OnlyE.next | apply OnlyE.part | apply OnlyE.rep | apply OnlyE.again | apply OnlyE.fault | apply OnlyE.ite_ | apply State.Only.ite_ | apply OnlyR.ite_
    | (show sub _ _ = true; decide)
    | (intro _ _ _ hx)

theorem execLevelSwitch_only (s : State) (c : CoreId) : OnlyR [.outs, .log, .collator, .cores, .ring, .reg .hubMsixPba, .reg .colStatus, .reg .colEv, .reg .colLock, .reg .colStrStat, .reg .logCtl, .reg .awlStat, .reg .awlFault] s (execLevelSwitch c s) := by
  unfold execLevelSwitch
  repeat' first
    | with_reducible first | assumption | exact State.Only.refl _ _ | apply OnlyR.next | apply setCore_only | apply taskFault_only | apply State.Only.ite_ | apply State.Only.ite2 | apply OnlyR.ite_
    | (show sub _ _ = true; decide)
    | (extract_lets +onlyGivenNames y; with_reducible refine State.Only.cut y ?_ ?_ <;> [dsimp only [y]; (clear_value y; intro hy)])
    | (extract_lets +onlyGivenNames y; with_reducible refine OnlyR.cut y ?_ ?_ <;> [dsimp only [y]; (clear_value y; intro hy)])
    | (extract_lets +onlyGivenNames y; clear_value y)
    | split
    | with_reducible first | refine State.Only.snd (by assumption) ?_ | refine State.Only.snd2 (by assumption) ?_ | refine State.Only.snd3 (by assumption) ?_

theorem execCollatorResponseTimeout_only (s : State) (c : CoreId) (lv : LevelId) : OnlyR [.outs, .log, .collator, .cores, .ring, .reg .hubMsixPba, .reg .colStatus, .reg .colEv, .reg .colLock, .reg .colStrStat, .reg .logCtl, .reg .awlStat, .reg .awlFault] s (execCollatorResponseTimeout c lv s) := by
  unfold execCollatorResponseTimeout
  repeat' first
    | with_reducible first | assumption | exact State.Only.refl _ _ | apply OnlyR.next | apply taskFault_only | apply abandonRequests_only
    | (show sub _ _ = true; decide)
    | (extract_lets +onlyGivenNames y; with_reducible refine State.Only.cut y ?_ ?_ <;> [dsimp only [y]; (clear_value y; intro hy)])
    | (extract_lets +onlyGivenNames y; with_reducible refine OnlyR.cut y ?_ ?_ <;> [dsimp only [y]; (clear_value y; intro hy)])
    | (extract_lets +onlyGivenNames y; clear_value y)
    | split
    | with_reducible first | refine State.Only.snd (by assumption) ?_ | refine State.Only.snd2 (by assumption) ?_ | refine State.Only.snd3 (by assumption) ?_

theorem endTag_only (c v tag status : Nat) (hO : State.Only ps z s) (hM : sub [.collator, .cores, .reg .colEv, .reg .awlStat] ps = true) :
    State.Only ps z (State.endTag s c v tag status) := by
  refine hO.step ?_ hM
  unfold State.endTag
  repeat' first
    | with_reducible first | assumption | exact State.Only.refl _ _ | apply wakeTags_only | apply updLevel_only
    | (show sub _ _ = true; decide)

theorem execTransferTimeout_only (s : State) (c : CoreId) (lv : LevelId) (tag : Fin 16) : OnlyR [.collator, .cores, .ring, .reg .colEv, .reg .awlStat] s (execTransferTimeout c lv tag s) := by
  unfold execTransferTimeout
  repeat' first
    | with_reducible first | assumption | exact State.Only.refl _ _ | apply OnlyR.next | apply endTag_only | apply abandonRequests_only | apply State.Only.ite_ | apply OnlyR.ite_
    | (show sub _ _ = true; decide)

theorem resetCore_only (c : Nat) (hO : State.Only ps z s) (hM : sub [.outs, .log, .collator, .cores, .ring, .reg .hubMsixPba, .reg .colStatus, .reg .colEv, .reg .colLock, .reg .colStrStat, .reg .logCtl, .reg .awlStat, .reg .awlFault] ps = true) :
    State.Only ps z (State.resetCore s c) := by
  refine hO.step ?_ hM
  unfold State.resetCore
  repeat' first
    | with_reducible first | assumption | exact State.Only.refl _ _ | apply voidRequests_only | apply taskFault_only | apply releaseAll_only | apply setCore_only | apply State.Only.ite_ | apply State.Only.foldl_ | apply State.Only.foldl2 | apply State.Only.foldl3
    | (show sub _ _ = true; decide)
    | (intro _ _ hx)

theorem unfreeze_only (c : Nat) (m : BitVec 8) (hO : State.Only ps z s) (hM : sub [.log, .collator, .cores, .reg .colEv, .reg .colLock, .reg .logCtl, .reg .awlStat] ps = true) :
    State.Only ps z (State.unfreeze s c m) := by
  refine hO.step ?_ hM
  unfold State.unfreeze
  repeat' first
    | with_reducible first | assumption | exact State.Only.refl _ _ | apply releaseAll_only | apply setLevelState_only | apply updLevel_only | apply State.Only.ite_ | apply State.Only.foldl_ | apply State.Only.foldl2 | apply State.Only.foldl3
    | (show sub _ _ = true; decide)
    | (intro _ _ hx)

theorem writeAwlCtl_only (fn c : Nat) (v : BitVec 64) (hO : State.Only ps z s) (hM : sub [.outs, .log, .collator, .cores, .ring, .reg .hubMsixPba, .reg .colStatus, .reg .colEv, .reg .colLock, .reg .colStrStat, .reg .logCtl, .reg .awlCtl, .reg .awlStat, .reg .awlFault] ps = true) :
    State.Only ps z (State.writeAwlCtl s fn c v) := by
  refine hO.step ?_ hM
  unfold State.writeAwlCtl
  repeat' first
    | with_reducible first | assumption | exact State.Only.refl _ _ | apply writeReg_only | apply setCore_only | apply resetCore_only | apply logEntry_only | apply raise_only | apply unfreeze_only | apply ignored_only | (rw [id_eq]; assumption) | apply State.Only.ite_
    | (show sub _ _ = true; decide)
    | (intro _ hx)

theorem execAwlHoldrst_only (s : State) (c : CoreId) (v : BitVec 64) : OnlyR [.outs, .log, .collator, .cores, .ring, .reg .hubMsixPba, .reg .colStatus, .reg .colEv, .reg .colLock, .reg .colStrStat, .reg .logCtl, .reg .awlCtl, .reg .awlStat, .reg .awlFault] s (execAwlHoldrst c v s) := by
  unfold execAwlHoldrst
  repeat' first
    | with_reducible first | assumption | exact State.Only.refl _ _ | apply OnlyR.next | apply bar_only | apply writeAwlCtl_only
    | (show sub _ _ = true; decide)
    | (intro _ hx)

theorem execAwlUnfreeze_only (s : State) (c : CoreId) (v : BitVec 64) : OnlyR [.outs, .log, .collator, .cores, .ring, .reg .hubMsixPba, .reg .colStatus, .reg .colEv, .reg .colLock, .reg .colStrStat, .reg .logCtl, .reg .awlCtl, .reg .awlStat, .reg .awlFault] s (execAwlUnfreeze c v s) := by
  unfold execAwlUnfreeze
  repeat' first
    | with_reducible first | assumption | exact State.Only.refl _ _ | apply OnlyR.next | apply bar_only | apply writeAwlCtl_only
    | (show sub _ _ = true; decide)
    | (intro _ hx)

theorem writeMaddr_only (fn c : Nat) (v : BitVec 64) (hO : State.Only ps z s) (hM : sub [.log, .collator, .reg .colEv, .reg .logCtl, .reg .awlCtl, .reg .awlMaddr] ps = true) :
    State.Only ps z (State.writeMaddr s fn c v) := by
  refine hO.step ?_ hM
  unfold State.writeMaddr
  repeat' first
    | with_reducible first | assumption | exact State.Only.refl _ _ | apply writeReg_only | apply only_setF | apply ignored_only | (rw [id_eq]; assumption) | apply State.Only.ite_
    | (show sub _ _ = true; decide)
    | (intro _ hx)

theorem advanceMaddr_only (c : Nat) (hO : State.Only ps z s) (hM : sub [.reg .awlMaddr] ps = true) :
    State.Only ps z (State.advanceMaddr s c) := by
  refine hO.step ?_ hM
  unfold State.advanceMaddr
  repeat' first
    | with_reducible first | assumption | exact State.Only.refl _ _ | apply only_putN | apply State.Only.ite_
    | (show sub _ _ = true; decide)

theorem readMdata_only (c : Nat) (hO : State.Only ps z s) (hM : sub [.reg .awlMaddr] ps = true) :
    State.Only ps z (State.readMdata s c).2 := by
  refine hO.step ?_ hM
  unfold State.readMdata
  repeat' first
    | with_reducible first | assumption | exact State.Only.refl _ _ | apply advanceMaddr_only | apply only_setF | apply State.Only.ite_ | apply State.Only.ite2
    | (show sub _ _ = true; decide)

theorem execAwlMdataRead_only (s : State) (c : CoreId) : OnlyR [.outs, .reg .awlMaddr] s (execAwlMdataRead c s) := by
  unfold execAwlMdataRead
  repeat' first
    | with_reducible first | assumption | exact State.Only.refl _ _ | apply OnlyR.next | apply barRead_only | apply readMdata_only | apply emit_only
    | (show sub _ _ = true; decide)
    | (intro _ hx)
    | with_reducible first | refine State.Only.snd (by assumption) ?_ | refine State.Only.snd2 (by assumption) ?_ | refine State.Only.snd3 (by assumption) ?_

theorem writeMdata_only (fn c : Nat) (v : BitVec 64) (hO : State.Only ps z s) (hM : sub [.log, .collator, .cores, .loader, .reg .colEv, .reg .logCtl, .reg .awlCtl, .reg .awlStat, .reg .awlMaddr] ps = true) :
    State.Only ps z (State.writeMdata s fn c v) := by
  refine hO.step ?_ hM
  unfold State.writeMdata
  repeat' first
    | with_reducible first | assumption | exact State.Only.refl _ _ | apply ignored_only | apply only_setF | apply logRefused_only | apply updCore_only | apply advanceMaddr_only | apply State.Only.ite_
    | (show sub _ _ = true; decide)
    | (extract_lets +onlyGivenNames y; with_reducible refine State.Only.cut y ?_ ?_ <;> [dsimp only [y]; (clear_value y; intro hy)])
    | (extract_lets +onlyGivenNames y; clear_value y)
    | split
    | with_reducible refine only_onSys ?_ _ (fun p hp x => by cases p <;> first | exact absurd (by decide) hp | simp [Part.same, State.reg, State.onSys])

theorem execAwlMdataWrite_only (s : State) (c : CoreId) (v : BitVec 64) : OnlyR [.log, .collator, .cores, .loader, .reg .colEv, .reg .logCtl, .reg .awlCtl, .reg .awlStat, .reg .awlMaddr] s (execAwlMdataWrite c v s) := by
  unfold execAwlMdataWrite
  repeat' first
    | with_reducible first | assumption | exact State.Only.refl _ _ | apply OnlyR.next | apply bar_only | apply writeMdata_only
    | (show sub _ _ = true; decide)
    | (intro _ hx)

end Sys2Proof.Machine
end

