-- ==== Sys2Proof/Laws/FrameRing.lean ====
section
/-!
SUPPORT. The frames of the operations of the spine ring, of DRAM and of regions. Each says which parts of the state an operation may change.
-/
namespace Sys2Proof.Machine

variable {ps : List Part} {z s : State}

/-! ### Ring -/

theorem setSlot_only (ring i : Nat) (f : Option Flit) (hO : State.Only ps z s) (hM : sub [.ring] ps = true) :
    State.Only ps z (State.setSlot s ring i f) := by
  refine hO.step ?_ hM
  unfold State.setSlot
  repeat' first
    | with_reducible first | assumption | exact State.Only.refl _ _
    | (show sub _ _ = true; decide)
    | with_reducible apply only_ring

theorem trace_only (h : BitVec 64) (k ring p : Nat) (hO : State.Only ps z s) (hM : sub [.ring, .reg .spnTrcCtl] ps = true) :
    State.Only ps z (State.trace s h k ring p) := by
  refine hO.step ?_ hM
  unfold State.trace
  repeat' first
    | with_reducible first | assumption | exact State.Only.refl _ _ | apply only_putN | apply only_setF | apply State.Only.ite_
    | (show sub _ _ = true; decide)
    | (extract_lets +onlyGivenNames y; with_reducible refine State.Only.cut y ?_ ?_ <;> [dsimp only [y]; (clear_value y; intro hy)])
    | (extract_lets +onlyGivenNames y; clear_value y)
    | split
    | with_reducible apply only_ring

theorem countProbe_only (p : Nat) (hO : State.Only ps z s) (hM : sub [.collator, .reg .colEv, .reg .spnPrbCfg, .reg .spnPrbCnt] ps = true) :
    State.Only ps z (State.countProbe s p) := by
  refine hO.step ?_ hM
  unfold State.countProbe
  repeat' first
    | with_reducible first | assumption | exact State.Only.refl _ _ | apply only_addF | apply raise_only | apply only_setF | apply State.Only.ite_
    | (show sub _ _ = true; decide)

theorem probeFlit_only (k ring : Nat) (h : BitVec 64) (hO : State.Only ps z s) (hM : sub [.collator, .ring, .reg .colEv, .reg .spnTrcCtl, .reg .spnPrbCfg, .reg .spnPrbCnt] ps = true) :
    State.Only ps z (State.probeFlit s k ring h) := by
  refine hO.step ?_ hM
  unfold State.probeFlit
  repeat' first
    | with_reducible first | assumption | exact State.Only.refl _ _ | apply countProbe_only | apply trace_only | apply State.Only.ite_ | apply State.Only.foldl_ | apply State.Only.foldl2 | apply State.Only.foldl3
    | (show sub _ _ = true; decide)
    | (intro _ _ hx)
    | split
    | with_reducible first | refine State.Only.snd (by assumption) ?_ | refine State.Only.snd2 (by assumption) ?_ | refine State.Only.snd3 (by assumption) ?_

theorem probeEmpty_only (k ring i : Nat) (hO : State.Only ps z s) (hM : sub [.reg .spnPrbCnt] ps = true) :
    State.Only ps z (State.probeEmpty s k ring i) := by
  refine hO.step ?_ hM
  unfold State.probeEmpty
  repeat' first
    | with_reducible first | assumption | exact State.Only.refl _ _ | apply only_addF | apply State.Only.ite_ | apply State.Only.foldl_ | apply State.Only.foldl2 | apply State.Only.foldl3
    | (show sub _ _ = true; decide)
    | (intro _ _ hx)

theorem ejectFlit_only (ring i k : Nat) (f : Flit) (hO : State.Only ps z s) (hM : sub [.ring] ps = true) :
    State.Only ps z (State.ejectFlit s ring i k f) := by
  refine hO.step ?_ hM
  unfold State.ejectFlit
  repeat' first
    | with_reducible first | assumption | exact State.Only.refl _ _ | apply setSlot_only | apply updStation_only | apply State.Only.ite_
    | (show sub _ _ = true; decide)

theorem execFlitArrive_only (s : State) (ring : Fin 4) (slot : Fin 42) (k : StationId) : OnlyR [.log, .collator, .ring, .reg .colEv, .reg .spnErr, .reg .spnTrcCtl, .reg .spnPrbCfg, .reg .spnPrbCnt, .reg .logCtl] s (execFlitArrive ring slot k s) := by
  unfold execFlitArrive
  repeat' first
    | with_reducible first | assumption | exact State.Only.refl _ _ | apply OnlyR.next | apply logEntry_only | apply only_addF | apply setSlot_only | apply probeFlit_only | apply ejectFlit_only | apply State.Only.ite_ | apply OnlyR.ite_
    | (show sub _ _ = true; decide)
    | (extract_lets +onlyGivenNames y; with_reducible refine State.Only.cut y ?_ ?_ <;> [dsimp only [y]; (clear_value y; intro hy)])
    | (extract_lets +onlyGivenNames y; with_reducible refine OnlyR.cut y ?_ ?_ <;> [dsimp only [y]; (clear_value y; intro hy)])
    | (extract_lets +onlyGivenNames y; clear_value y)
    | split
    | with_reducible first | refine State.Only.snd (by assumption) ?_ | refine State.Only.snd2 (by assumption) ?_ | refine State.Only.snd3 (by assumption) ?_

theorem injectFlit_only (k ring i cl : Nat) (response : Bool) (f : Flit) (hO : State.Only ps z s) (hM : sub [.ring, .reg .spnRg] ps = true) :
    State.Only ps z (State.injectFlit s k ring i cl response f) := by
  refine hO.step ?_ hM
  unfold State.injectFlit
  repeat' first
    | with_reducible first | assumption | exact State.Only.refl _ _ | apply updStation_only | apply setSlot_only | apply only_putN | (rw [id_eq]; assumption) | apply State.Only.ite_
    | (show sub _ _ = true; decide)

theorem execFlitInject_only (s : State) (k : StationId) (cls : Fin 2) (slots : SlotPair) : OnlyR [.ring, .reg .spnRg, .reg .spnPrbCnt] s (execFlitInject k cls slots s) := by
  unfold execFlitInject
  repeat' first
    | with_reducible first | assumption | exact State.Only.refl _ _ | apply OnlyR.next | apply probeEmpty_only | apply injectFlit_only | apply State.Only.ite_ | apply State.Only.ite2 | apply OnlyR.ite_
    | (show sub _ _ = true; decide)
    | (extract_lets +onlyGivenNames y; with_reducible refine State.Only.cut y ?_ ?_ <;> [dsimp only [y]; (clear_value y; intro hy)])
    | (extract_lets +onlyGivenNames y; with_reducible refine OnlyR.cut y ?_ ?_ <;> [dsimp only [y]; (clear_value y; intro hy)])
    | (extract_lets +onlyGivenNames y; clear_value y)
    | split
    | with_reducible first | refine State.Only.snd (by assumption) ?_ | refine State.Only.snd2 (by assumption) ?_ | refine State.Only.snd3 (by assumption) ?_

theorem execRegulatorToken_only (s : State) (k : StationId) (cl : Fin 8) : OnlyR [.ring, .reg .spnRg] s (execRegulatorToken k cl s) := by
  unfold execRegulatorToken
  repeat' first
    | with_reducible first | assumption | exact State.Only.refl _ _ | apply OnlyR.next | apply only_putN | apply updStation_only | apply State.Only.ite_ | apply OnlyR.ite_
    | (show sub _ _ = true; decide)

theorem execRingResendTimeout_only (s : State) (k : StationId) (cl : Fin 8) (tag : BitVec 8) : OnlyR [.ring, .reg .spnErr] s (execRingResendTimeout k cl tag s) := by
  unfold execRingResendTimeout
  repeat' first
    | with_reducible first | assumption | exact State.Only.refl _ _ | apply OnlyR.next | apply sendAgain_only | apply State.Only.ite_ | apply OnlyR.ite_
    | (show sub _ _ = true; decide)
    | split
    | with_reducible first | refine State.Only.snd (by assumption) ?_ | refine State.Only.snd2 (by assumption) ?_ | refine State.Only.snd3 (by assumption) ?_

theorem execKeptResponseExpiry_only (s : State) (k src : StationId) (cl : Fin 8) (tag : BitVec 8) : OnlyR [.ring] s (execKeptResponseExpiry k src cl tag s) := by
  unfold execKeptResponseExpiry
  repeat' first
    | with_reducible first | assumption | exact State.Only.refl _ _ | apply OnlyR.next | apply updStation_only
    | (show sub _ _ = true; decide)

theorem setStation_only (k st : Nat) (hO : State.Only ps z s) (hM : sub [.log, .collator, .reg .colEv, .reg .spnSta, .reg .logCtl] ps = true) :
    State.Only ps z (State.setStation s k st) := by
  refine hO.step ?_ hM
  unfold State.setStation
  repeat' first
    | with_reducible first | assumption | exact State.Only.refl _ _ | apply only_putN | apply raise_only | apply logEntry_only | apply State.Only.ite_
    | (show sub _ _ = true; decide)

theorem writeSta_only (fn k : Nat) (v : BitVec 64) (hO : State.Only ps z s) (hM : sub [.log, .collator, .reg .colEv, .reg .spnSta, .reg .logCtl] ps = true) :
    State.Only ps z (State.writeSta s fn k v) := by
  refine hO.step ?_ hM
  unfold State.writeSta
  repeat' first
    | with_reducible first | assumption | exact State.Only.refl _ _ | apply setStation_only | apply only_setF | apply only_clrF | apply only_clearW1c | apply writeReg_only | apply ignored_only | apply State.Only.ite_
    | (show sub _ _ = true; decide)
    | (intro _ hx)

theorem execStationBypass_only (s : State) (k : StationId) (v : BitVec 64) : OnlyR [.log, .collator, .reg .colEv, .reg .spnSta, .reg .logCtl] s (execStationBypass k v s) := by
  unfold execStationBypass
  repeat' first
    | with_reducible first | assumption | exact State.Only.refl _ _ | apply OnlyR.next | apply bar_only | apply writeSta_only
    | (show sub _ _ = true; decide)
    | (intro _ hx)

theorem execDrainComplete_only (s : State) (k : StationId) : OnlyR [.log, .collator, .reg .colEv, .reg .spnSta, .reg .logCtl] s (execDrainComplete k s) := by
  unfold execDrainComplete
  repeat' first
    | with_reducible first | assumption | exact State.Only.refl _ _ | apply OnlyR.next | apply setStation_only | apply State.Only.ite_ | apply OnlyR.ite_
    | (show sub _ _ = true; decide)

theorem advanceTrace_only (hO : State.Only ps z s) (hM : sub [.reg .spnTrcAddr] ps = true) :
    State.Only ps z (State.advanceTrace s) := by
  refine hO.step ?_ hM
  unfold State.advanceTrace
  repeat' first
    | with_reducible first | assumption | exact State.Only.refl _ _ | apply only_putN
    | (show sub _ _ = true; decide)

theorem execTraceRead_only (s : State)  : OnlyR [.outs, .reg .spnTrcAddr] s (execTraceRead s) := by
  unfold execTraceRead
  repeat' first
    | with_reducible first | assumption | exact State.Only.refl _ _ | apply OnlyR.next | apply barRead_only | apply advanceTrace_only | apply emit_only
    | (show sub _ _ = true; decide)
    | (intro _ hx)

theorem execRd_only (s : State) (mc : Fin 2) (glitch : Nat) : OnlyR [.log, .collator, .ring, .dram, .reg .colEv, .reg .spnErr, .reg .memChStat, .reg .logCtl] s (execRd mc glitch s) := by
  unfold execRd
  repeat' first
    | with_reducible first | assumption | exact State.Only.refl _ _ | apply OnlyR.next | apply respond_only | apply readWords_only | apply State.Only.ite_ | apply State.Only.ite2 | apply OnlyR.ite_
    | (show sub _ _ = true; decide)
    | (extract_lets +onlyGivenNames y; with_reducible refine State.Only.cut y ?_ ?_ <;> [dsimp only [y]; (clear_value y; intro hy)])
    | (extract_lets +onlyGivenNames y; with_reducible refine OnlyR.cut y ?_ ?_ <;> [dsimp only [y]; (clear_value y; intro hy)])
    | (extract_lets +onlyGivenNames y; clear_value y)
    | split
    | (refine serve_done_only _ _ (by assumption) ?_ ?_)
    | (refine serve_act_only _ _ (by assumption) ?_ ?_)
    | with_reducible refine State.Only.snd (by assumption) ?_

theorem execWr_only (s : State) (mc : Fin 2) (glitch : Nat) : OnlyR [.log, .collator, .ring, .dram, .reg .colEv, .reg .spnErr, .reg .memChStat, .reg .logCtl] s (execWr mc glitch s) := by
  unfold execWr
  repeat' first
    | with_reducible first | assumption | exact State.Only.refl _ _ | apply OnlyR.next | apply respond_only | apply writeWords_only | apply State.Only.ite_ | apply State.Only.ite2 | apply OnlyR.ite_
    | (show sub _ _ = true; decide)
    | (extract_lets +onlyGivenNames y; with_reducible refine State.Only.cut y ?_ ?_ <;> [dsimp only [y]; (clear_value y; intro hy)])
    | (extract_lets +onlyGivenNames y; with_reducible refine OnlyR.cut y ?_ ?_ <;> [dsimp only [y]; (clear_value y; intro hy)])
    | (extract_lets +onlyGivenNames y; clear_value y)
    | split
    | (refine serve_done_only _ _ (by assumption) ?_ ?_)
    | (refine serve_act_only _ _ (by assumption) ?_ ?_)
    | with_reducible first | refine State.Only.snd (by assumption) ?_ | refine State.Only.snd2 (by assumption) ?_ | refine State.Only.snd3 (by assumption) ?_

theorem markItem_only (x : Item) (queue rp : Nat) (hO : State.Only ps z s) (hM : sub [.collator] ps = true) :
    State.Only ps z (State.markItem s x queue rp) := by
  refine hO.step ?_ hM
  unfold State.markItem
  repeat' first
    | with_reducible first | assumption | exact State.Only.refl _ _ | apply updItem_only | (rw [id_eq]; assumption) | apply State.Only.ite_
    | (show sub _ _ = true; decide)

theorem pushWords_only (g n : Nat) (ws : List Word) (hO : State.Only ps z s) (hM : sub [.gatherings, .collator, .reg .colEv] ps = true) :
    State.Only ps z (State.pushWords s g n ws).2.2 := by
  refine hO.step ?_ hM
  unfold State.pushWords
  repeat' first
    | with_reducible first | assumption | exact State.Only.refl _ _ | apply gthEvents_only | apply ringPush_only | apply State.Only.ite_ | apply State.Only.ite2 | apply State.Only.foldl_ | apply State.Only.foldl2 | apply State.Only.foldl3
    | (show sub _ _ = true; decide)
    | (intro _ _ hx)
    | (extract_lets +onlyGivenNames y; with_reducible refine State.Only.cut y ?_ ?_ <;> [dsimp only [y]; (clear_value y; intro hy)])
    | (extract_lets +onlyGivenNames y; clear_value y)
    | split
    | with_reducible refine State.Only.snd (by assumption) ?_

theorem serveQpush_only (k : Nat) (hO : State.Only ps z s) (hM : sub [.gatherings, .collator, .ring, .reg .colEv, .reg .spnErr] ps = true) :
    State.Only ps z (State.serveQpush s k) := by
  refine hO.step ?_ hM
  unfold State.serveQpush
  repeat' first
    | with_reducible first | assumption | exact State.Only.refl _ _ | apply respond_only | apply pushWords_only | apply markItem_only | apply State.Only.ite_ | apply State.Only.ite2
    | (show sub _ _ = true; decide)
    | (extract_lets +onlyGivenNames y; with_reducible refine State.Only.cut y ?_ ?_ <;> [dsimp only [y]; (clear_value y; intro hy)])
    | (extract_lets +onlyGivenNames y; clear_value y)
    | split
    | (refine serve_done_only _ _ (by assumption) ?_ ?_)
    | (refine serve_act_only _ _ (by assumption) ?_ ?_)
    | with_reducible first | refine State.Only.snd (by assumption) ?_ | refine State.Only.snd2 (by assumption) ?_ | refine State.Only.snd3 (by assumption) ?_

theorem execQpush_only (s : State) (k : StationId) : OnlyR [.gatherings, .collator, .ring, .reg .colEv, .reg .spnErr] s (execQpush k s) := by
  unfold execQpush
  repeat' first
    | with_reducible first | assumption | exact State.Only.refl _ _ | apply OnlyR.next | apply serveQpush_only
    | (show sub _ _ = true; decide)

theorem popWords_only (g n count : Nat) (hO : State.Only ps z s) (hM : sub [.log, .gatherings, .collator, .reg .colEv, .reg .logCtl, .reg .gthFerr] ps = true) :
    State.Only ps z (State.popWords s g n count).2.2 := by
  refine hO.step ?_ hM
  unfold State.popWords
  repeat' first
    | with_reducible first | assumption | exact State.Only.refl _ _ | apply gthEvents_only | apply portRead_only | apply ringAdvance_only | apply State.Only.ite_ | apply State.Only.ite2 | apply State.Only.foldl_ | apply State.Only.foldl2 | apply State.Only.foldl3
    | (show sub _ _ = true; decide)
    | (intro _ _ hx)
    | (extract_lets +onlyGivenNames y; with_reducible refine State.Only.cut y ?_ ?_ <;> [dsimp only [y]; (clear_value y; intro hy)])
    | (extract_lets +onlyGivenNames y; clear_value y)
    | split
    | with_reducible first | refine State.Only.snd (by assumption) ?_ | refine State.Only.snd2 (by assumption) ?_ | refine State.Only.snd3 (by assumption) ?_

theorem serveQpop_only (k : Nat) (hO : State.Only ps z s) (hM : sub [.log, .gatherings, .collator, .ring, .reg .colEv, .reg .spnErr, .reg .logCtl, .reg .gthFerr] ps = true) :
    State.Only ps z (State.serveQpop s k) := by
  refine hO.step ?_ hM
  unfold State.serveQpop
  repeat' first
    | with_reducible first | assumption | exact State.Only.refl _ _ | apply respond_only | apply popWords_only | apply State.Only.ite_ | apply State.Only.ite2
    | (show sub _ _ = true; decide)
    | (extract_lets +onlyGivenNames y; with_reducible refine State.Only.cut y ?_ ?_ <;> [dsimp only [y]; (clear_value y; intro hy)])
    | (extract_lets +onlyGivenNames y; clear_value y)
    | split
    | (refine serve_done_only _ _ (by assumption) ?_ ?_)
    | (refine serve_act_only _ _ (by assumption) ?_ ?_)
    | with_reducible first | refine State.Only.snd (by assumption) ?_ | refine State.Only.snd2 (by assumption) ?_ | refine State.Only.snd3 (by assumption) ?_

theorem execQpop_only (s : State) (k : StationId) : OnlyR [.log, .gatherings, .collator, .ring, .reg .colEv, .reg .spnErr, .reg .logCtl, .reg .gthFerr] s (execQpop k s) := by
  unfold execQpop
  repeat' first
    | with_reducible first | assumption | exact State.Only.refl _ _ | apply OnlyR.next | apply serveQpop_only
    | (show sub _ _ = true; decide)

theorem serveFrd_only (k : Nat) (hO : State.Only ps z s) (hM : sub [.log, .gatherings, .collator, .ring, .reg .colEv, .reg .spnErr, .reg .logCtl, .reg .gthFerr] ps = true) :
    State.Only ps z (State.serveFrd s k) := by
  refine hO.step ?_ hM
  unfold State.serveFrd
  repeat' first
    | with_reducible first | assumption | exact State.Only.refl _ _ | apply respond_only | apply portRead_only | apply gthEvents_only | apply State.Only.ite_ | apply State.Only.ite2 | apply State.Only.foldl_ | apply State.Only.foldl2 | apply State.Only.foldl3
    | (show sub _ _ = true; decide)
    | (intro _ _ hx)
    | (extract_lets +onlyGivenNames y; with_reducible refine State.Only.cut y ?_ ?_ <;> [dsimp only [y]; (clear_value y; intro hy)])
    | (extract_lets +onlyGivenNames y; clear_value y)
    | split
    | (refine serve_done_only _ _ (by assumption) ?_ ?_)
    | (refine serve_act_only _ _ (by assumption) ?_ ?_)
    | with_reducible first | refine State.Only.snd (by assumption) ?_ | refine State.Only.snd2 (by assumption) ?_ | refine State.Only.snd3 (by assumption) ?_

theorem execFrd_only (s : State) (k : StationId) : OnlyR [.log, .gatherings, .collator, .ring, .reg .colEv, .reg .spnErr, .reg .logCtl, .reg .gthFerr] s (execFrd k s) := by
  unfold execFrd
  repeat' first
    | with_reducible first | assumption | exact State.Only.refl _ _ | apply OnlyR.next | apply serveFrd_only
    | (show sub _ _ = true; decide)

theorem ringWrite_only (g addr : Nat) (d : Word) (hO : State.Only ps z s) (hM : sub [.gatherings] ps = true) :
    State.Only ps z (State.ringWrite s g addr d) := by
  refine hO.step ?_ hM
  unfold State.ringWrite
  repeat' first
    | with_reducible first | assumption | exact State.Only.refl _ _ | apply updGth_only
    | (show sub _ _ = true; decide)

theorem serveFwr_only (k : Nat) (hO : State.Only ps z s) (hM : sub [.gatherings, .collator, .ring, .reg .colEv, .reg .spnErr] ps = true) :
    State.Only ps z (State.serveFwr s k) := by
  refine hO.step ?_ hM
  unfold State.serveFwr
  repeat' first
    | with_reducible first | assumption | exact State.Only.refl _ _ | apply respond_only | apply gthEvents_only | apply ringWrite_only | apply State.Only.ite_ | apply State.Only.ite2 | apply State.Only.foldl_ | apply State.Only.foldl2 | apply State.Only.foldl3
    | (show sub _ _ = true; decide)
    | (intro _ _ hx)
    | (extract_lets +onlyGivenNames y; with_reducible refine State.Only.cut y ?_ ?_ <;> [dsimp only [y]; (clear_value y; intro hy)])
    | (extract_lets +onlyGivenNames y; clear_value y)
    | split
    | (refine serve_done_only _ _ (by assumption) ?_ ?_)
    | (refine serve_act_only _ _ (by assumption) ?_ ?_)
    | with_reducible first | refine State.Only.snd (by assumption) ?_ | refine State.Only.snd2 (by assumption) ?_ | refine State.Only.snd3 (by assumption) ?_

theorem execFwr_only (s : State) (k : StationId) : OnlyR [.gatherings, .collator, .ring, .reg .colEv, .reg .spnErr] s (execFwr k s) := by
  unfold execFwr
  repeat' first
    | with_reducible first | assumption | exact State.Only.refl _ _ | apply OnlyR.next | apply serveFwr_only
    | (show sub _ _ = true; decide)

theorem drainPorts_only (q : Nat) (hO : State.Only ps z s) (hM : sub [.log, .gatherings, .collator, .ring, .reg .colEv, .reg .spnErr, .reg .logCtl, .reg .gthFerr] ps = true) :
    State.Only ps z (State.drainPorts s q) := by
  refine hO.step ?_ hM
  unfold State.drainPorts
  repeat' first
    | with_reducible first | assumption | exact State.Only.refl _ _ | apply serveFwr_only | apply serveFrd_only | apply serveQpop_only | apply serveQpush_only | apply State.Only.foldl_ | apply State.Only.foldl2 | apply State.Only.foldl3
    | (show sub _ _ = true; decide)
    | (intro _ _ hx)

theorem execCmsg_only (s : State)  : OnlyR [.outs, .log, .collator, .cores, .ring, .reg .hubMsixPba, .reg .colStatus, .reg .colLedger, .reg .colDlCfg, .reg .colEv, .reg .colLock, .reg .colStrStat, .reg .colStrAcc, .reg .colStrRsb, .reg .colStrHoles, .reg .spnErr, .reg .logCtl, .reg .awlStat] s (execCmsg s) := by
  unfold execCmsg
  repeat' first
    | with_reducible first | assumption | exact State.Only.refl _ _ | apply OnlyR.next | apply collatorMessage_only | apply respond_only
    | (show sub _ _ = true; decide)
    | (extract_lets +onlyGivenNames y; with_reducible refine State.Only.cut y ?_ ?_ <;> [dsimp only [y]; (clear_value y; intro hy)])
    | (extract_lets +onlyGivenNames y; with_reducible refine OnlyR.cut y ?_ ?_ <;> [dsimp only [y]; (clear_value y; intro hy)])
    | (extract_lets +onlyGivenNames y; clear_value y)
    | split
    | (refine serve_done_only _ _ (by assumption) ?_ ?_)
    | (refine serve_act_only _ _ (by assumption) ?_ ?_)
    | with_reducible first | refine State.Only.snd (by assumption) ?_ | refine State.Only.snd2 (by assumption) ?_ | refine State.Only.snd3 (by assumption) ?_

theorem execDsp_only (s : State) (k : StationId) : OnlyR [.cores, .ring, .reg .spnErr, .reg .awlStat] s (execDsp k s) := by
  unfold execDsp
  repeat' first
    | with_reducible first | assumption | exact State.Only.refl _ _ | apply OnlyR.next | apply updLevel_only | apply respond_only | apply State.Only.ite_ | apply OnlyR.ite_
    | (show sub _ _ = true; decide)
    | (extract_lets +onlyGivenNames y; with_reducible refine State.Only.cut y ?_ ?_ <;> [dsimp only [y]; (clear_value y; intro hy)])
    | (extract_lets +onlyGivenNames y; with_reducible refine OnlyR.cut y ?_ ?_ <;> [dsimp only [y]; (clear_value y; intro hy)])
    | (extract_lets +onlyGivenNames y; clear_value y)
    | split
    | (refine serve_done_only _ _ (by assumption) ?_ ?_)
    | (refine serve_act_only _ _ (by assumption) ?_ ?_)
    | with_reducible first | refine State.Only.snd (by assumption) ?_ | refine State.Only.snd2 (by assumption) ?_ | refine State.Only.snd3 (by assumption) ?_

theorem transferDone_only (c v tag : Nat) (h : BitVec 64) (ws : List Word) (hO : State.Only ps z s) (hM : sub [.collator, .cores, .ring, .reg .colEv, .reg .awlStat] ps = true) :
    State.Only ps z (State.transferDone s c v tag h ws) := by
  refine hO.step ?_ hM
  unfold State.transferDone
  repeat' first
    | with_reducible first | assumption | exact State.Only.refl _ _ | apply dmemWrite_only | apply sendPart_only | apply updLevel_only | apply wakeTags_only | apply State.Only.ite_ | apply State.Only.foldl_ | apply State.Only.foldl2 | apply State.Only.foldl3
    | (show sub _ _ = true; decide)
    | (intro _ _ hx)
    | (extract_lets +onlyGivenNames y; with_reducible refine State.Only.cut y ?_ ?_ <;> [dsimp only [y]; (clear_value y; intro hy)])
    | (extract_lets +onlyGivenNames y; clear_value y)
    | split
    | with_reducible first | refine State.Only.snd (by assumption) ?_ | refine State.Only.snd2 (by assumption) ?_ | refine State.Only.snd3 (by assumption) ?_

theorem execRdata_only (s : State) (k : StationId) (cl : Fin 8) : OnlyR [.collator, .cores, .ring, .reg .colEv, .reg .spnErr, .reg .awlStat] s (execRdata k cl s) := by
  unfold execRdata
  repeat' first
    | with_reducible first | assumption | exact State.Only.refl _ _ | apply OnlyR.next | apply transferDone_only | apply State.Only.ite_ | apply State.Only.ite2 | apply OnlyR.ite_
    | (show sub _ _ = true; decide)
    | split
    | (refine accept_snd_only _ _ _ (by assumption) ?_ ?_)
    | (refine accept_some_only _ _ _ (by assumption) ?_ ?_)
    | with_reducible first | refine State.Only.snd (by assumption) ?_ | refine State.Only.snd2 (by assumption) ?_ | refine State.Only.snd3 (by assumption) ?_

theorem execRack_only (s : State) (k : StationId) (cl : Fin 8) : OnlyR [.collator, .cores, .ring, .reg .colEv, .reg .spnErr, .reg .awlStat] s (execRack k cl s) := by
  unfold execRack
  repeat' first
    | with_reducible first | assumption | exact State.Only.refl _ _ | apply OnlyR.next | apply transferDone_only | apply State.Only.ite_ | apply State.Only.ite2 | apply OnlyR.ite_
    | (show sub _ _ = true; decide)
    | split
    | (refine accept_snd_only _ _ _ (by assumption) ?_ ?_)
    | (refine accept_some_only _ _ _ (by assumption) ?_ ?_)
    | with_reducible first | refine State.Only.snd (by assumption) ?_ | refine State.Only.snd2 (by assumption) ?_ | refine State.Only.snd3 (by assumption) ?_

theorem collatorAnswer_only (c v op : Nat) (ws : List Word) (hO : State.Only ps z s) (hM : sub [.collator, .cores, .reg .colEv, .reg .awlStat] ps = true) :
    State.Only ps z (State.collatorAnswer s c v op ws) := by
  refine hO.step ?_ hM
  unfold State.collatorAnswer
  repeat' first
    | with_reducible first | assumption | exact State.Only.refl _ _ | apply setLevelState_only | apply updLevel_only | apply State.Only.ite_
    | (show sub _ _ = true; decide)
    | (extract_lets +onlyGivenNames y; with_reducible refine State.Only.cut y ?_ ?_ <;> [dsimp only [y]; (clear_value y; intro hy)])
    | (extract_lets +onlyGivenNames y; clear_value y)
    | split
    | with_reducible first | refine State.Only.snd (by assumption) ?_ | refine State.Only.snd2 (by assumption) ?_ | refine State.Only.snd3 (by assumption) ?_

theorem execCrsp_only (s : State) (k : StationId) (cl : Fin 8) : OnlyR [.collator, .cores, .ring, .reg .colEv, .reg .spnErr, .reg .awlStat] s (execCrsp k cl s) := by
  unfold execCrsp
  repeat' first
    | with_reducible first | assumption | exact State.Only.refl _ _ | apply OnlyR.next | apply collatorAnswer_only | apply State.Only.ite_ | apply State.Only.ite2 | apply OnlyR.ite_
    | (show sub _ _ = true; decide)
    | split
    | (refine accept_snd_only _ _ _ (by assumption) ?_ ?_)
    | (refine accept_some_only _ _ _ (by assumption) ?_ ?_)
    | with_reducible first | refine State.Only.snd (by assumption) ?_ | refine State.Only.snd2 (by assumption) ?_ | refine State.Only.snd3 (by assumption) ?_

/-! ### MemCmds -/

theorem execScrubRead_only (s : State) (glitch : Nat) : OnlyR [.log, .collator, .dram, .reg .colEv, .reg .memScrub, .reg .memChStat, .reg .logCtl] s (execScrubRead glitch s) := by
  unfold execScrubRead
  repeat' first
    | with_reducible first | assumption | exact State.Only.refl _ _ | apply OnlyR.next | apply readSector_only | apply only_putN | apply only_addF | apply State.Only.ite_ | apply OnlyR.ite_
    | (show sub _ _ = true; decide)

theorem execRetrainStep_only (s : State)  : OnlyR [.migration, .reg .memRetrain] s (execRetrainStep s) := by
  unfold execRetrainStep
  repeat' first
    | with_reducible first | assumption | exact State.Only.refl _ _ | apply OnlyR.next | apply only_addF | apply State.Only.ite_ | apply OnlyR.ite_
    | (show sub _ _ = true; decide)
    | split
    | with_reducible first | refine State.Only.snd (by assumption) ?_ | refine State.Only.snd2 (by assumption) ?_ | refine State.Only.snd3 (by assumption) ?_
    | with_reducible apply only_retrainNext

theorem execRetrainStepTimeout_only (s : State)  : OnlyR [.log, .collator, .migration, .reg .colEv, .reg .memRetrain, .reg .logCtl] s (execRetrainStepTimeout s) := by
  unfold execRetrainStepTimeout
  repeat' first
    | with_reducible first | assumption | exact State.Only.refl _ _ | apply OnlyR.next | apply raise_only | apply logOther_only | apply only_addF | apply State.Only.ite_ | apply OnlyR.ite_
    | (show sub _ _ = true; decide)
    | split
    | with_reducible first | refine State.Only.snd (by assumption) ?_ | refine State.Only.snd2 (by assumption) ?_ | refine State.Only.snd3 (by assumption) ?_
    | with_reducible apply only_retrainNext

theorem writeSecclr_only (fn : Nat) (v : BitVec 64) (hO : State.Only ps z s) (hM : sub [.log, .collator, .dram, .reg .colEv, .reg .memSecclr, .reg .logCtl] ps = true) :
    State.Only ps z (State.writeSecclr s fn v) := by
  refine hO.step ?_ hM
  unfold State.writeSecclr
  repeat' first
    | with_reducible first | assumption | exact State.Only.refl _ _ | apply only_clrF | apply only_setF | apply logRefused_only | apply writeSector_only | apply State.Only.ite_
    | (show sub _ _ = true; decide)

theorem execSectorClear_only (s : State) (fn : FnId) (v : BitVec 64) : OnlyR [.log, .collator, .dram, .reg .colEv, .reg .memSecclr, .reg .logCtl] s (execSectorClear fn v s) := by
  unfold execSectorClear
  repeat' first
    | with_reducible first | assumption | exact State.Only.refl _ _ | apply OnlyR.next | apply bar_only | apply writeSecclr_only
    | (show sub _ _ = true; decide)
    | (intro _ hx)

theorem writeRetire_only (fn : Nat) (v : BitVec 64) (hO : State.Only ps z s) (hM : sub [.log, .collator, .migration, .reg .colEv, .reg .memStat, .reg .memRetire, .reg .memChStat, .reg .logCtl] ps = true) :
    State.Only ps z (State.writeRetire s fn v) := by
  refine hO.step ?_ hM
  unfold State.writeRetire
  repeat' first
    | with_reducible first | assumption | exact State.Only.refl _ _ | apply writeReg_only | apply only_setF | apply only_putN | apply ignored_only | apply State.Only.ite_
    | (show sub _ _ = true; decide)
    | (intro _ hx)
    | (extract_lets +onlyGivenNames y; with_reducible refine State.Only.cut y ?_ ?_ <;> [dsimp only [y]; (clear_value y; intro hy)])
    | (extract_lets +onlyGivenNames y; clear_value y)
    | split
    | with_reducible refine only_any ?_ _ _ _ _ _ _ _ _ _ _ _ (fun p hp => by cases p <;> first | exact absurd (by decide) hp | simp [Part.same, State.reg])

theorem execRetireGo_only (s : State) (v : BitVec 64) : OnlyR [.log, .collator, .migration, .reg .colEv, .reg .memStat, .reg .memRetire, .reg .memChStat, .reg .logCtl] s (execRetireGo v s) := by
  unfold execRetireGo
  repeat' first
    | with_reducible first | assumption | exact State.Only.refl _ _ | apply OnlyR.next | apply bar_only | apply writeRetire_only
    | (show sub _ _ = true; decide)
    | (intro _ hx)

theorem execMigrationLineCopy_only (s : State)  : OnlyR [.dram, .migration, .reg .memRetire] s (execMigrationLineCopy s) := by
  unfold execMigrationLineCopy
  repeat' first
    | with_reducible first | assumption | exact State.Only.refl _ _ | apply OnlyR.next | apply writeSector_only | apply only_putN | apply State.Only.ite_ | apply OnlyR.ite_
    | (show sub _ _ = true; decide)
    | (extract_lets +onlyGivenNames y; with_reducible refine State.Only.cut y ?_ ?_ <;> [dsimp only [y]; (clear_value y; intro hy)])
    | (extract_lets +onlyGivenNames y; with_reducible refine OnlyR.cut y ?_ ?_ <;> [dsimp only [y]; (clear_value y; intro hy)])
    | (extract_lets +onlyGivenNames y; clear_value y)
    | split
    | with_reducible first | refine State.Only.snd (by assumption) ?_ | refine State.Only.snd2 (by assumption) ?_ | refine State.Only.snd3 (by assumption) ?_
    | with_reducible apply only_migLine

theorem execMigrationComplete_only (s : State)  : OnlyR [.log, .collator, .migration, .boot, .reg .colEv, .reg .memStat, .reg .memRetire, .reg .memChStat, .reg .logCtl] s (execMigrationComplete s) := by
  unfold execMigrationComplete
  repeat' first
    | with_reducible first | assumption | exact State.Only.refl _ _ | apply OnlyR.next | apply only_putN | apply only_setF | apply only_clrF | apply raise_only | apply logEntry_only | apply State.Only.ite_ | apply OnlyR.ite_
    | (show sub _ _ = true; decide)
    | (extract_lets +onlyGivenNames y; have _h : SysState := y; clear _h; dsimp only [y]; clear y)
    | (extract_lets +onlyGivenNames y; with_reducible refine State.Only.cut y ?_ ?_ <;> [dsimp only [y]; (clear_value y; intro hy)])
    | (extract_lets +onlyGivenNames y; with_reducible refine OnlyR.cut y ?_ ?_ <;> [dsimp only [y]; (clear_value y; intro hy)])
    | (extract_lets +onlyGivenNames y; clear_value y)
    | split
    | with_reducible first | refine State.Only.snd (by assumption) ?_ | refine State.Only.snd2 (by assumption) ?_ | refine State.Only.snd3 (by assumption) ?_
    | with_reducible refine only_any ?_ _ _ _ _ _ _ _ _ _ _ _ (fun p hp => by have h1 := hy.same p hp; cases p <;> first | exact absurd (by decide) hp | simp_all [Part.same, State.reg, State.putN, State.setF, State.clrF, State.putF, State.setReg])

theorem writePart_only (fn p : Nat) (v : BitVec 64) (hO : State.Only ps z s) (hM : sub [.log, .collator, .reg .colEv, .reg .memPart, .reg .logCtl] ps = true) :
    State.Only ps z (State.writePart s fn p v) := by
  refine hO.step ?_ hM
  unfold State.writePart
  repeat' first
    | with_reducible first | assumption | exact State.Only.refl _ _ | apply writeReg_only | apply only_setF | apply ignored_only | (rw [id_eq]; assumption) | apply State.Only.ite_
    | (show sub _ _ = true; decide)
    | (intro _ hx)

theorem execPartitionWrite_only (s : State) (p : FnId) (v : BitVec 64) : OnlyR [.log, .collator, .reg .colEv, .reg .memPart, .reg .logCtl] s (execPartitionWrite p v s) := by
  unfold execPartitionWrite
  repeat' first
    | with_reducible first | assumption | exact State.Only.refl _ _ | apply OnlyR.next | apply bar_only | apply writePart_only
    | (show sub _ _ = true; decide)
    | (intro _ hx)

/-! ### Regions -/

theorem latchBank_only (b : Nat) (hO : State.Only ps z s) (hM : sub [.pads, .reg .padHold] ps = true) :
    State.Only ps z (State.latchBank s b) := by
  refine hO.step ?_ hM
  unfold State.latchBank
  repeat' first
    | with_reducible first | assumption | exact State.Only.refl _ _ | apply updPad_only | apply only_putF | apply State.Only.ite_ | apply State.Only.foldl_ | apply State.Only.foldl2 | apply State.Only.foldl3
    | (show sub _ _ = true; decide)
    | (intro _ _ hx)

theorem setBank_only (b v : Nat) (hO : State.Only ps z s) (hM : sub [.pads, .reg .padBank] ps = true) :
    State.Only ps z (State.setBank s b v) := by
  refine hO.step ?_ hM
  unfold State.setBank
  repeat' first
    | with_reducible first | assumption | exact State.Only.refl _ _ | apply only_clrF | apply only_putN | apply State.Only.ite_
    | (show sub _ _ = true; decide)
    | (extract_lets +onlyGivenNames y; have _h : SysState := y; clear _h; dsimp only [y]; clear y)
    | split
    | with_reducible refine only_sys ?_ _ (fun p hp => by cases p <;> first | exact absurd (by decide) hp | simp [Part.same, State.reg])

theorem dropBanks_only (hO : State.Only ps z s) (hM : sub [.pads, .reg .padBank] ps = true) :
    State.Only ps z (State.dropBanks s) := by
  refine hO.step ?_ hM
  unfold State.dropBanks
  repeat' first
    | with_reducible first | assumption | exact State.Only.refl _ _ | apply setBank_only | apply State.Only.ite_ | apply State.Only.foldl_ | apply State.Only.foldl2 | apply State.Only.foldl3
    | (show sub _ _ = true; decide)
    | (intro _ _ hx)

theorem setOp_only (r : Nat) (o : Option RegionOp) (hO : State.Only ps z s) (hM : sub [.bookmarks] ps = true) :
    State.Only ps z (State.setOp s r o) := by
  refine hO.step ?_ hM
  unfold State.setOp
  repeat' first
    | with_reducible first | assumption | exact State.Only.refl _ _
    | (show sub _ _ = true; decide)
    | (extract_lets +onlyGivenNames y; have _h : SysState := y; clear _h; dsimp only [y]; clear y)
    | with_reducible refine only_sys ?_ _ (fun p hp => by cases p <;> first | exact absurd (by decide) hp | simp [Part.same, State.reg])

theorem requestHold_only (r q : Nat) (hO : State.Only ps z s) (hM : sub [.reg .qctHold] ps = true) :
    State.Only ps z (State.requestHold s r q) := by
  refine hO.step ?_ hM
  unfold State.requestHold
  repeat' first
    | with_reducible first | assumption | exact State.Only.refl _ _ | apply only_putN | apply only_setF
    | (show sub _ _ = true; decide)

theorem hubHold_only (r : Nat) (hO : State.Only ps z s) (hM : sub [.reg .qctHold] ps = true) :
    State.Only ps z (State.hubHold s r) := by
  refine hO.step ?_ hM
  unfold State.hubHold
  repeat' first
    | with_reducible first | assumption | exact State.Only.refl _ _ | apply requestHold_only | apply State.Only.ite_
    | (show sub _ _ = true; decide)

theorem resume_only (r : Nat) (pads : BitVec 192) (hO : State.Only ps z s) (hM : sub [.free, .gatherings, .regions, .collator, .reg .colEv, .reg .bndStat, .reg .bndCase, .reg .qctExec, .reg .qctStatus] ps = true) :
    State.Only ps z (State.resume s r pads) := by
  refine hO.step ?_ hM
  unfold State.resume
  repeat' first
    | with_reducible first | assumption | exact State.Only.refl _ _ | apply only_putN | apply openQuire_only
    | (show sub _ _ = true; decide)

theorem releaseAct_only (r w1 : Nat) (pads : BitVec 192) (hO : State.Only ps z s) (hM : sub [.free, .log, .gatherings, .regions, .collator, .reg .colEv, .reg .bndStat, .reg .bndCase, .reg .qctExec, .reg .qctStatus, .reg .logCtl] ps = true) :
    State.Only ps z (State.releaseAct s r w1 pads) := by
  refine hO.step ?_ hM
  unfold State.releaseAct
  repeat' first
    | with_reducible first | assumption | exact State.Only.refl _ _ | apply resume_only | apply logOther_only | apply State.Only.ite_
    | (show sub _ _ = true; decide)

theorem freePads_only (hO : State.Only ps z s) (hM : sub [.free] ps = true) :
    State.Only ps z (State.freePads s).2 := by
  refine hO.step ?_ hM
  unfold State.freePads
  repeat' first
    | with_reducible first | assumption | exact State.Only.refl _ _ | apply draw_only
    | (show sub _ _ = true; decide)

theorem endOwnHold_only (r : Nat) (own : Bool) (pads : BitVec 192) (hO : State.Only ps z s) (hM : sub [.free, .gatherings, .regions, .collator, .reg .colEv, .reg .bndStat, .reg .bndCase, .reg .qctExec, .reg .qctStatus, .reg .qctHold] ps = true) :
    State.Only ps z (State.endOwnHold s r own pads) := by
  refine hO.step ?_ hM
  unfold State.endOwnHold
  repeat' first
    | with_reducible first | assumption | exact State.Only.refl _ _ | apply only_clrF | apply resume_only | apply State.Only.ite_
    | (show sub _ _ = true; decide)

theorem dropSlot_only (r k : Nat) (hO : State.Only ps z s) (hM : sub [.reg .qctBmkValid] ps = true) :
    State.Only ps z (State.dropSlot s r k) := by
  refine hO.step ?_ hM
  unfold State.dropSlot
  repeat' first
    | with_reducible first | assumption | exact State.Only.refl _ _ | apply only_putF
    | (show sub _ _ = true; decide)

theorem abortOp_only (r : Nat) (pads : BitVec 192) (hO : State.Only ps z s) (hM : sub [.free, .gatherings, .regions, .collator, .bookmarks, .reg .colEv, .reg .bndStat, .reg .bndCase, .reg .qctExec, .reg .qctStatus, .reg .qctHold, .reg .qctRbStat, .reg .qctBmkStat, .reg .qctBmkValid] ps = true) :
    State.Only ps z (State.abortOp s r pads) := by
  refine hO.step ?_ hM
  unfold State.abortOp
  repeat' first
    | with_reducible first | assumption | exact State.Only.refl _ _ | apply setOp_only | apply only_setF | apply only_putN | apply endOwnHold_only | apply dropSlot_only
    | (show sub _ _ = true; decide)
    | (extract_lets +onlyGivenNames y; with_reducible refine State.Only.cut y ?_ ?_ <;> [dsimp only [y]; (clear_value y; intro hy)])
    | (extract_lets +onlyGivenNames y; clear_value y)
    | split
    | with_reducible first | refine State.Only.snd (by assumption) ?_ | refine State.Only.snd2 (by assumption) ?_ | refine State.Only.snd3 (by assumption) ?_

theorem voidMarks_only (r : Nat) (hO : State.Only ps z s) (hM : sub [.collator] ps = true) :
    State.Only ps z (State.voidMarks s r) := by
  refine hO.step ?_ hM
  unfold State.voidMarks
  repeat' first
    | with_reducible first | assumption | exact State.Only.refl _ _ | apply mapItems_only | apply State.Only.ite_
    | (show sub _ _ = true; decide)

theorem keepHinges_only (r : Nat) (hO : State.Only ps z s) (hM : sub [.regions] ps = true) :
    State.Only ps z (State.keepHinges s r) := by
  refine hO.step ?_ hM
  unfold State.keepHinges
  repeat' first
    | with_reducible first | assumption | exact State.Only.refl _ _ | apply updRegion_only | apply State.Only.ite_ | apply State.Only.foldl_ | apply State.Only.foldl2 | apply State.Only.foldl3
    | (show sub _ _ = true; decide)
    | (intro _ _ hx)
    | (extract_lets +onlyGivenNames y; with_reducible refine State.Only.cut y ?_ ?_ <;> [dsimp only [y]; (clear_value y; intro hy)])
    | (extract_lets +onlyGivenNames y; clear_value y)
    | split
    | with_reducible first | refine State.Only.snd (by assumption) ?_ | refine State.Only.snd2 (by assumption) ?_ | refine State.Only.snd3 (by assumption) ?_

theorem unbind_only (r : Nat) (hO : State.Only ps z s) (hM : sub [.free, .gatherings, .regions, .collator, .bookmarks, .reg .colEv, .reg .colStrStat, .reg .bndStat, .reg .bndCase, .reg .qctCommitted, .reg .qctExec, .reg .qctStatus, .reg .qctHold, .reg .qctRbStat, .reg .qctBmkStat, .reg .qctBmkValid] ps = true) :
    State.Only ps z (State.unbind s r) := by
  refine hO.step ?_ hM
  unfold State.unbind
  repeat' first
    | with_reducible first | assumption | exact State.Only.refl _ _ | apply keepHinges_only | apply abortOp_only | apply voidMarks_only | apply only_putN | apply only_clrF | apply updRegion_only | apply settle_only
    | (show sub _ _ = true; decide)

theorem beginCasing_only (r : Nat) (hO : State.Only ps z s) (hM : sub [.free, .gatherings, .regions, .fuist, .collator, .reg .colEv, .reg .bndStat, .reg .bndCase, .reg .qctCommitted, .reg .qctExec, .reg .qctStatus, .reg .fstBound] ps = true) :
    State.Only ps z (State.beginCasing s r) := by
  refine hO.step ?_ hM
  unfold State.beginCasing
  repeat' first
    | with_reducible first | assumption | exact State.Only.refl _ _ | apply freePads_only | apply only_putN | apply updRegion_only | apply openQuire_only | apply State.Only.ite_ | apply State.Only.ite2
    | (show sub _ _ = true; decide)
    | (extract_lets +onlyGivenNames y; with_reducible refine State.Only.cut y ?_ ?_ <;> [dsimp only [y]; (clear_value y; intro hy)])
    | (extract_lets +onlyGivenNames y; clear_value y)
    | split
    | with_reducible first | refine State.Only.snd (by assumption) ?_ | refine State.Only.snd2 (by assumption) ?_ | refine State.Only.snd3 (by assumption) ?_
    | with_reducible apply only_fst

/-! ### PowerBase -/

theorem setVote_only (d b : Nat) (v : Bool) (hO : State.Only ps z s) (hM : sub [.reg .pwrDom] ps = true) :
    State.Only ps z (State.setVote s d b v) := by
  refine hO.step ?_ hM
  unfold State.setVote
  repeat' first
    | with_reducible first | assumption | exact State.Only.refl _ _ | apply only_putF | apply State.Only.ite_
    | (show sub _ _ = true; decide)

theorem startUp_only (d : Nat) (hO : State.Only ps z s) (hM : sub [.reg .pwrDom] ps = true) :
    State.Only ps z (State.startUp s d) := by
  refine hO.step ?_ hM
  unfold State.startUp
  repeat' first
    | with_reducible first | assumption | exact State.Only.refl _ _ | apply only_putN | apply State.Only.ite_
    | (show sub _ _ = true; decide)
    | with_reducible first | refine State.Only.snd (by assumption) ?_ | refine State.Only.snd2 (by assumption) ?_ | refine State.Only.snd3 (by assumption) ?_

theorem startUps_only (hO : State.Only ps z s) (hM : sub [.reg .pwrDom] ps = true) :
    State.Only ps z (State.startUps s) := by
  refine hO.step ?_ hM
  unfold State.startUps
  repeat' first
    | with_reducible first | assumption | exact State.Only.refl _ _ | apply startUp_only | apply State.Only.foldl_ | apply State.Only.foldl2 | apply State.Only.foldl3
    | (show sub _ _ = true; decide)
    | (intro _ _ hx)

theorem refreshPower_only (hO : State.Only ps z s) (hM : sub [.reg .pwrDom, .reg .pwrStatus] ps = true) :
    State.Only ps z (State.refreshPower s) := by
  refine hO.step ?_ hM
  unfold State.refreshPower
  repeat' first
    | with_reducible first | assumption | exact State.Only.refl _ _ | apply setVote_only | apply only_putN | apply State.Only.ite_ | apply State.Only.foldl_ | apply State.Only.foldl2 | apply State.Only.foldl3
    | (show sub _ _ = true; decide)
    | (intro _ _ hx)

theorem vote_only (d b : Nat) (v : Bool) (hO : State.Only ps z s) (hM : sub [.reg .pwrDom, .reg .pwrStatus] ps = true) :
    State.Only ps z (State.vote s d b v) := by
  refine hO.step ?_ hM
  unfold State.vote
  repeat' first
    | with_reducible first | assumption | exact State.Only.refl _ _ | apply setVote_only | apply only_putN | apply refreshPower_only | apply startUps_only | apply State.Only.ite_
    | (show sub _ _ = true; decide)

/-! ### BootBase -/

theorem updRec_only (f : BitVec 256 → BitVec 256) (hO : State.Only ps z s) (hM : sub [.boot] ps = true) :
    State.Only ps z (State.updRec s f) := by
  refine hO.step ?_ hM
  unfold State.updRec
  repeat' first
    | with_reducible first | assumption | exact State.Only.refl _ _
    | (show sub _ _ = true; decide)
    | (extract_lets +onlyGivenNames y; have _h : SysState := y; clear _h; dsimp only [y]; clear y)
    | split
    | with_reducible first | refine State.Only.snd (by assumption) ?_ | refine State.Only.snd2 (by assumption) ?_ | refine State.Only.snd3 (by assumption) ?_
    | with_reducible refine only_sys ?_ _ (fun p hp => by cases p <;> first | exact absurd (by decide) hp | simp [Part.same, State.reg])

theorem setByte_only (k : Nat) (b : BitVec 8) (hO : State.Only ps z s) (hM : sub [.boot] ps = true) :
    State.Only ps z (State.setByte s k b) := by
  refine hO.step ?_ hM
  unfold State.setByte
  repeat' first
    | with_reducible first | assumption | exact State.Only.refl _ _ | apply updRec_only
    | (show sub _ _ = true; decide)

theorem startAttempt_only (k n : Nat) (hO : State.Only ps z s) (hM : sub [.boot, .reg .hubBoot] ps = true) :
    State.Only ps z (State.startAttempt s k n) := by
  refine hO.step ?_ hM
  unfold State.startAttempt
  repeat' first
    | with_reducible first | assumption | exact State.Only.refl _ _ | apply only_putN | apply updRec_only
    | (show sub _ _ = true; decide)

theorem endStep_only (k out : Nat) (altUsed : Bool) (att alt : Nat) (hO : State.Only ps z s) (hM : sub [.boot, .reg .hubBoot] ps = true) :
    State.Only ps z (State.endStep s k out altUsed att alt) := by
  refine hO.step ?_ hM
  unfold State.endStep
  repeat' first
    | with_reducible first | assumption | exact State.Only.refl _ _ | apply only_putN | apply setByte_only | apply only_setF | apply State.Only.ite_
    | (show sub _ _ = true; decide)

theorem setBoot_only (b : Option Boot) (hO : State.Only ps z s) (hM : sub [.boot] ps = true) :
    State.Only ps z (State.setBoot s b) := by
  refine hO.step ?_ hM
  unfold State.setBoot
  repeat' first
    | with_reducible first | assumption | exact State.Only.refl _ _
    | (show sub _ _ = true; decide)
    | (extract_lets +onlyGivenNames y; have _h : SysState := y; clear _h; dsimp only [y]; clear y)
    | with_reducible refine only_sys ?_ _ (fun p hp => by cases p <;> first | exact absurd (by decide) hp | simp [Part.same, State.reg])

theorem endS12_only (pass : Bool) (durMs : BitVec 32) (hO : State.Only ps z s) (hM : sub [.boot, .reg .hubBoot] ps = true) :
    State.Only ps z (State.endS12 s pass durMs) := by
  refine hO.step ?_ hM
  unfold State.endS12
  repeat' first
    | with_reducible first | assumption | exact State.Only.refl _ _ | apply endStep_only | apply updRec_only | apply setBoot_only | apply only_putN | apply State.Only.ite_
    | (show sub _ _ = true; decide)

theorem startEnded_only (pass : Bool) (hO : State.Only ps z s) (hM : sub [.free, .boot, .reg .hubBoot] ps = true) :
    State.Only ps z (State.startEnded s pass) := by
  refine hO.step ?_ hM
  unfold State.startEnded
  repeat' first
    | with_reducible first | assumption | exact State.Only.refl _ _ | apply draw_only | apply endS12_only | apply State.Only.ite_ | apply State.Only.ite2
    | (show sub _ _ = true; decide)
    | (extract_lets +onlyGivenNames y; with_reducible refine State.Only.cut y ?_ ?_ <;> [dsimp only [y]; (clear_value y; intro hy)])
    | (extract_lets +onlyGivenNames y; clear_value y)
    | split
    | with_reducible first | refine State.Only.snd (by assumption) ?_ | refine State.Only.snd2 (by assumption) ?_ | refine State.Only.snd3 (by assumption) ?_

end Sys2Proof.Machine
end

