-- ==== Sys2Proof/Laws/FrameFuist.lean ====
section
/-!
SUPPORT. The frames of the operations of the ports and of capture parts. Each says which parts of the state an operation may change.
-/
namespace Sys2Proof.Machine

variable {ps : List Part} {z s : State}

/-! ### FuistLink -/

theorem setPortState_only (p st : Nat) (hO : State.Only ps z s) (hM : sub [.collator, .reg .colEv, .reg .fstPortStat] ps = true) :
    State.Only ps z (State.setPortState s p st) := by
  refine hO.step ?_ hM
  unfold State.setPortState
  repeat' first
    | with_reducible first | assumption | exact State.Only.refl _ _ | apply raise_only | apply only_putN | apply State.Only.ite_
    | (show sub _ _ = true; decide)

theorem fillPosition_only (p i : Nat) (hO : State.Only ps z s) (hM : sub [.fuist] ps = true) :
    State.Only ps z (State.fillPosition s p i).2 := by
  refine hO.step ?_ hM
  unfold State.fillPosition
  repeat' first
    | with_reducible first | assumption | exact State.Only.refl _ _ | apply updPort_only | apply State.Only.ite_ | apply State.Only.ite2
    | (show sub _ _ = true; decide)
    | (extract_lets +onlyGivenNames y; have _h : _ → _ := y; clear _h; dsimp only [y]; clear y)
    | (extract_lets +onlyGivenNames y; with_reducible refine State.Only.cut y ?_ ?_ <;> [dsimp only [y]; (clear_value y; intro hy)])
    | (extract_lets +onlyGivenNames y; clear_value y)
    | split
    | with_reducible first | refine State.Only.snd (by assumption) ?_ | refine State.Only.snd2 (by assumption) ?_ | refine State.Only.snd3 (by assumption) ?_
    | dsimp only [Option.getD_some, Option.getD_none]

theorem sendCodeword_only (p : Nat) (cwh : BitVec 20) (fs : List Frame) (hO : State.Only ps z s) (hM : sub [.outs, .fuist] ps = true) :
    State.Only ps z (State.sendCodeword s p cwh fs) := by
  refine hO.step ?_ hM
  unfold State.sendCodeword
  repeat' first
    | with_reducible first | assumption | exact State.Only.refl _ _ | apply updPort_only | apply emit_only
    | (show sub _ _ = true; decide)
    | with_reducible first | refine State.Only.snd (by assumption) ?_ | refine State.Only.snd2 (by assumption) ?_ | refine State.Only.snd3 (by assumption) ?_

theorem transmit_only (p : Nat) (hO : State.Only ps z s) (hM : sub [.outs, .fuist] ps = true) :
    State.Only ps z (State.transmit s p) := by
  refine hO.step ?_ hM
  unfold State.transmit
  repeat' first
    | with_reducible first | assumption | exact State.Only.refl _ _ | apply fillPosition_only | apply updPort_only | apply sendCodeword_only
    | (show sub _ _ = true; decide)
    | with_reducible first | refine State.Only.snd (by assumption) ?_ | refine State.Only.snd2 (by assumption) ?_ | refine State.Only.snd3 (by assumption) ?_

theorem sendSys_only (p n : Nat) (ws : List Word) (hO : State.Only ps z s) (hM : sub [.fuist] ps = true) :
    State.Only ps z (State.sendSys s p n ws) := by
  refine hO.step ?_ hM
  unfold State.sendSys
  repeat' first
    | with_reducible first | assumption | exact State.Only.refl _ _ | apply updPort_only
    | (show sub _ _ = true; decide)

theorem askPeer_only (p cmd : Nat) (ws : List Word) (hO : State.Only ps z s) (hM : sub [.fuist] ps = true) :
    State.Only ps z (State.askPeer s p cmd ws) := by
  refine hO.step ?_ hM
  unfold State.askPeer
  repeat' first
    | with_reducible first | assumption | exact State.Only.refl _ _ | apply commandHead_only | apply sendSys_only
    | (show sub _ _ = true; decide)
    | with_reducible first | refine State.Only.snd (by assumption) ?_ | refine State.Only.snd2 (by assumption) ?_ | refine State.Only.snd3 (by assumption) ?_

theorem failedFrame_only (p i lane : Nat) (hO : State.Only ps z s) (hM : sub [.regions, .fuist, .reg .qctFault, .reg .fstPortErr] ps = true) :
    State.Only ps z (State.failedFrame s p i lane) := by
  refine hO.step ?_ hM
  unfold State.failedFrame
  repeat' first
    | with_reducible first | assumption | exact State.Only.refl _ _ | apply only_addF | apply askPeer_only | apply charge_only | apply State.Only.ite_
    | (show sub _ _ = true; decide)
    | (extract_lets +onlyGivenNames y; with_reducible refine State.Only.cut y ?_ ?_ <;> [dsimp only [y]; (clear_value y; intro hy)])
    | (extract_lets +onlyGivenNames y; clear_value y)
    | split
    | with_reducible first | refine State.Only.snd (by assumption) ?_ | refine State.Only.snd2 (by assumption) ?_ | refine State.Only.snd3 (by assumption) ?_

theorem takeFrame_only (p i lane : Nat) (bad : Bool) (f : Frame) (hO : State.Only ps z s) (hM : sub [.regions, .fuist, .reg .qctFault, .reg .fstPortErr] ps = true) :
    State.Only ps z (State.takeFrame s p i lane bad f) := by
  refine hO.step ?_ hM
  unfold State.takeFrame
  repeat' first
    | with_reducible first | assumption | exact State.Only.refl _ _ | apply failedFrame_only | apply updPort_only | apply State.Only.ite_
    | (show sub _ _ = true; decide)

theorem receive_only (p : Nat) (c : Codeword) (hO : State.Only ps z s) (hM : sub [.regions, .fuist, .reg .qctFault, .reg .fstPortErr] ps = true) :
    State.Only ps z (State.receive s p c) := by
  refine hO.step ?_ hM
  unfold State.receive
  repeat' first
    | with_reducible first | assumption | exact State.Only.refl _ _ | apply updPort_only | apply only_addF | apply takeFrame_only | apply State.Only.ite_ | apply State.Only.ite2 | apply State.Only.foldl_ | apply State.Only.foldl2 | apply State.Only.foldl3
    | (show sub _ _ = true; decide)
    | (intro _ _ hx)
    | with_reducible first | refine State.Only.snd (by assumption) ?_ | refine State.Only.snd2 (by assumption) ?_ | refine State.Only.snd3 (by assumption) ?_

theorem takeRx_only (p : Nat) (want : Frame → Bool) (hO : State.Only ps z s) (hM : sub [.fuist] ps = true) :
    State.Only ps z (State.takeRx s p want).2 := by
  refine hO.step ?_ hM
  unfold State.takeRx
  repeat' first
    | with_reducible first | assumption | exact State.Only.refl _ _ | apply updPort_only
    | (show sub _ _ = true; decide)
    | split
    | with_reducible first | refine State.Only.snd (by assumption) ?_ | refine State.Only.snd2 (by assumption) ?_ | refine State.Only.snd3 (by assumption) ?_

theorem resendFrom_only (p n : Nat) (hO : State.Only ps z s) (hM : sub [.fuist, .reg .fstPortErr] ps = true) :
    State.Only ps z (State.resendFrom s p n) := by
  refine hO.step ?_ hM
  unfold State.resendFrom
  repeat' first
    | with_reducible first | assumption | exact State.Only.refl _ _ | apply updPort_only | apply only_addF
    | (show sub _ _ = true; decide)
    | (extract_lets +onlyGivenNames y; with_reducible refine State.Only.cut y ?_ ?_ <;> [dsimp only [y]; (clear_value y; intro hy)])
    | (extract_lets +onlyGivenNames y; clear_value y)
    | split
    | with_reducible first | refine State.Only.snd (by assumption) ?_ | refine State.Only.snd2 (by assumption) ?_ | refine State.Only.snd3 (by assumption) ?_

theorem inOrder_only (p : Nat) (f : Frame) (hO : State.Only ps z s) (hM : sub [.fuist] ps = true) :
    State.Only ps z (State.inOrder s p f).2 := by
  refine hO.step ?_ hM
  unfold State.inOrder
  repeat' first
    | with_reducible first | assumption | exact State.Only.refl _ _ | apply updPort_only | apply State.Only.ite_ | apply State.Only.ite2
    | (show sub _ _ = true; decide)

theorem dropUnknown_only (p : Nat) (hO : State.Only ps z s) (hM : sub [.log, .fuist, .collator, .reg .colEv, .reg .logCtl] ps = true) :
    State.Only ps z (State.dropUnknown s p) := by
  refine hO.step ?_ hM
  unfold State.dropUnknown
  repeat' first
    | with_reducible first | assumption | exact State.Only.refl _ _ | apply inOrder_only | apply updPort_only | apply logOther_only | apply State.Only.ite_ | apply State.Only.ite2 | apply State.Only.foldl_ | apply State.Only.foldl2 | apply State.Only.foldl3
    | (show sub _ _ = true; decide)
    | (intro _ _ hx)
    | (extract_lets +onlyGivenNames y; with_reducible refine State.Only.cut y ?_ ?_ <;> [dsimp only [y]; (clear_value y; intro hy)])
    | (extract_lets +onlyGivenNames y; clear_value y)
    | split
    | with_reducible first | refine State.Only.snd (by assumption) ?_ | refine State.Only.snd2 (by assumption) ?_ | refine State.Only.snd3 (by assumption) ?_

theorem takeSeq_only (p : Nat) (want : Frame → Bool) (hO : State.Only ps z s) (hM : sub [.log, .fuist, .collator, .reg .colEv, .reg .logCtl] ps = true) :
    State.Only ps z (State.takeSeq s p want).2 := by
  refine hO.step ?_ hM
  unfold State.takeSeq
  repeat' first
    | with_reducible first | assumption | exact State.Only.refl _ _ | apply dropUnknown_only | apply inOrder_only | apply updPort_only | apply State.Only.ite_ | apply State.Only.ite2
    | (show sub _ _ = true; decide)
    | (extract_lets +onlyGivenNames y; with_reducible refine State.Only.cut y ?_ ?_ <;> [dsimp only [y]; (clear_value y; intro hy)])
    | (extract_lets +onlyGivenNames y; clear_value y)
    | split
    | with_reducible first | refine State.Only.snd (by assumption) ?_ | refine State.Only.snd2 (by assumption) ?_ | refine State.Only.snd3 (by assumption) ?_

theorem portDown_only (p : Nat) (hO : State.Only ps z s) (hM : sub [.log, .fuist, .collator, .reg .colEv, .reg .fstSys, .reg .fstPortStat, .reg .logCtl] ps = true) :
    State.Only ps z (State.portDown s p) := by
  refine hO.step ?_ hM
  unfold State.portDown
  repeat' first
    | with_reducible first | assumption | exact State.Only.refl _ _ | apply updPort_only | apply logEntry_only | apply only_setF | apply setPortState_only | apply State.Only.ite_ | apply State.Only.foldl_ | apply State.Only.foldl2 | apply State.Only.foldl3
    | (show sub _ _ = true; decide)
    | (intro _ _ hx)
    | (extract_lets +onlyGivenNames y; with_reducible refine State.Only.cut y ?_ ?_ <;> [dsimp only [y]; (clear_value y; intro hy)])
    | (extract_lets +onlyGivenNames y; clear_value y)
    | split
    | with_reducible first | refine State.Only.snd (by assumption) ?_ | refine State.Only.snd2 (by assumption) ?_ | refine State.Only.snd3 (by assumption) ?_

theorem portOff_only (p : Nat) (hO : State.Only ps z s) (hM : sub [.fuist, .collator, .reg .colEv, .reg .fstPortStat] ps = true) :
    State.Only ps z (State.portOff s p) := by
  refine hO.step ?_ hM
  unfold State.portOff
  repeat' first
    | with_reducible first | assumption | exact State.Only.refl _ _ | apply only_putN | apply setPortState_only | apply updPort_only
    | (show sub _ _ = true; decide)

theorem logLane_only (p j phys : Nat) (hO : State.Only ps z s) (hM : sub [.log, .collator, .reg .colEv, .reg .logCtl] ps = true) :
    State.Only ps z (State.logLane s p j phys) := by
  refine hO.step ?_ hM
  unfold State.logLane
  repeat' first
    | with_reducible first | assumption | exact State.Only.refl _ _ | apply logEntry_only
    | (show sub _ _ = true; decide)

theorem startSub_only (p j k : Nat) (hO : State.Only ps z s) (hM : sub [.fuist] ps = true) :
    State.Only ps z (State.startSub s p j k) := by
  refine hO.step ?_ hM
  unfold State.startSub
  repeat' first
    | with_reducible first | assumption | exact State.Only.refl _ _ | apply updPort_only
    | (show sub _ _ = true; decide)

theorem mapField_reg (j : Nat) : (mapField j).reg = .fstPortMap := by
  unfold mapField
  rcases j with _ | _ | _ | _ | _ | _ | _ | _ | j <;> rfl

theorem finishSub_only (p : Nat) (u : LaneSub) (hO : State.Only ps z s) (hM : sub [.log, .collator, .reg .colEv, .reg .fstPortStat, .reg .fstPortMap, .reg .fstSpare, .reg .logCtl] ps = true) :
    State.Only ps z (State.finishSub s p u) := by
  refine hO.step ?_ hM
  unfold State.finishSub
  repeat' first
    | with_reducible first | assumption | exact State.Only.refl _ _ | apply only_putN | apply only_putF | apply only_setF | apply raise_only | apply logLane_only
    | (show sub _ _ = true; decide)
    | (extract_lets +onlyGivenNames y; with_reducible refine State.Only.cut y ?_ ?_ <;> [dsimp only [y]; (clear_value y; intro hy)])
    | (extract_lets +onlyGivenNames y; clear_value y)
    | (rw [mapField_reg]; decide)

theorem checkSub_only (p : Nat) (hO : State.Only ps z s) (hM : sub [.log, .fuist, .collator, .reg .colEv, .reg .fstPortStat, .reg .fstPortMap, .reg .fstSpare, .reg .logCtl] ps = true) :
    State.Only ps z (State.checkSub s p) := by
  refine hO.step ?_ hM
  unfold State.checkSub
  repeat' first
    | with_reducible first | assumption | exact State.Only.refl _ _ | apply finishSub_only | apply updPort_only | apply State.Only.ite_
    | (show sub _ _ = true; decide)
    | (extract_lets +onlyGivenNames y; with_reducible refine State.Only.cut y ?_ ?_ <;> [dsimp only [y]; (clear_value y; intro hy)])
    | (extract_lets +onlyGivenNames y; clear_value y)
    | split
    | with_reducible first | refine State.Only.snd (by assumption) ?_ | refine State.Only.snd2 (by assumption) ?_ | refine State.Only.snd3 (by assumption) ?_

theorem failSub_only (p : Nat) (hO : State.Only ps z s) (hM : sub [.fuist, .collator, .reg .colEv] ps = true) :
    State.Only ps z (State.failSub s p) := by
  refine hO.step ?_ hM
  unfold State.failSub
  repeat' first
    | with_reducible first | assumption | exact State.Only.refl _ _ | apply raise_only | apply updPort_only
    | (show sub _ _ = true; decide)

theorem takeSub_only (p : Nat) (w : Word) (hO : State.Only ps z s) (hM : sub [.log, .fuist, .collator, .reg .colEv, .reg .fstPortStat, .reg .fstPortMap, .reg .fstSpare, .reg .logCtl] ps = true) :
    State.Only ps z (State.takeSub s p w) := by
  refine hO.step ?_ hM
  unfold State.takeSub
  repeat' first
    | with_reducible first | assumption | exact State.Only.refl _ _ | apply updPort_only | apply failSub_only | apply checkSub_only | apply State.Only.ite_
    | (show sub _ _ = true; decide)
    | (extract_lets +onlyGivenNames y; with_reducible refine State.Only.cut y ?_ ?_ <;> [dsimp only [y]; (clear_value y; intro hy)])
    | (extract_lets +onlyGivenNames y; clear_value y)
    | split
    | with_reducible first | refine State.Only.snd (by assumption) ?_ | refine State.Only.snd2 (by assumption) ?_ | refine State.Only.snd3 (by assumption) ?_

/-! ### Fuist -/

theorem sendWords_only (r : Nat) (hO : State.Only ps z s) (hM : sub [.regions, .reg .qctFault] ps = true) :
    State.Only ps z (State.sendWords s r).2 := by
  refine hO.step ?_ hM
  unfold State.sendWords
  repeat' first
    | with_reducible first | assumption | exact State.Only.refl _ _ | apply chargeIf_only | apply State.Only.ite_ | apply State.Only.ite2 | apply State.Only.foldl_ | apply State.Only.foldl2 | apply State.Only.foldl3
    | (show sub _ _ = true; decide)
    | (intro _ _ hx)
    | with_reducible first | refine State.Only.snd (by assumption) ?_ | refine State.Only.snd2 (by assumption) ?_ | refine State.Only.snd3 (by assumption) ?_

theorem exchangeSend_only (hO : State.Only ps z s) (hM : sub [.log, .regions, .fuist, .collator, .reg .colEv, .reg .qctFault, .reg .logCtl] ps = true) :
    State.Only ps z (State.exchangeSend s) := by
  refine hO.step ?_ hM
  unfold State.exchangeSend
  repeat' first
    | with_reducible first | assumption | exact State.Only.refl _ _ | apply sendWords_only | apply sendExch_only | apply State.Only.ite_ | apply State.Only.ite2 | apply State.Only.foldl_ | apply State.Only.foldl2 | apply State.Only.foldl3
    | (show sub _ _ = true; decide)
    | (intro _ _ hx)
    | (extract_lets +onlyGivenNames y; with_reducible refine State.Only.cut y ?_ ?_ <;> [dsimp only [y]; (clear_value y; intro hy)])
    | (extract_lets +onlyGivenNames y; clear_value y)
    | split
    | with_reducible first | refine State.Only.snd (by assumption) ?_ | refine State.Only.snd2 (by assumption) ?_ | refine State.Only.snd3 (by assumption) ?_

theorem execExchangeSend_only (s : State)  : OnlyR [.log, .regions, .fuist, .collator, .reg .colEv, .reg .qctFault, .reg .logCtl] s (execExchangeSend s) := by
  unfold execExchangeSend
  repeat' first
    | with_reducible first | assumption | exact State.Only.refl _ _ | apply OnlyR.next | apply exchangeSend_only
    | (show sub _ _ = true; decide)

theorem takeExchange_only (r : Nat) (f : Frame) {charge : Nat → State → State} (hO : State.Only ps z s) (hM : sub [.free, .log, .regions, .fuist, .collator, .reg .colEv, .reg .qctFault, .reg .logCtl] ps = true)
    (hc : ∀ k x, State.Only [.free, .log, .regions, .fuist, .collator, .reg .colEv, .reg .qctFault, .reg .logCtl] s x → State.Only [.free, .log, .regions, .fuist, .collator, .reg .colEv, .reg .qctFault, .reg .logCtl] s (charge k x)) :
    State.Only ps z (State.takeExchange s r f charge) := by
  refine hO.step ?_ hM
  unfold State.takeExchange
  repeat' first
    | with_reducible first | assumption | exact State.Only.refl _ _ | apply hc | apply updRegion_only | apply sendExch_only | apply State.Only.ite_
    | (show sub _ _ = true; decide)
    | (extract_lets +onlyGivenNames y; with_reducible refine State.Only.cut y ?_ ?_ <;> [dsimp only [y]; (clear_value y; intro hy)])
    | (extract_lets +onlyGivenNames y; clear_value y)
    | split
    | with_reducible first | refine State.Only.snd (by assumption) ?_ | refine State.Only.snd2 (by assumption) ?_ | refine State.Only.snd3 (by assumption) ?_

theorem execExchangeFrame_only (s : State) (p : PortId) : OnlyR [.free, .log, .regions, .fuist, .collator, .reg .colEv, .reg .qctFault, .reg .logCtl] s (execExchangeFrame p s) := by
  unfold execExchangeFrame
  repeat' first
    | with_reducible first | assumption | exact State.Only.refl _ _ | apply OnlyR.next | apply takeRx_only | apply takeExchange_only
    | (show sub _ _ = true; decide)
    | (intro _ _ hx)
    | split
    | with_reducible refine State.Only.snd (by assumption) ?_

theorem execPoisonFrame_only (s : State) (p : PortId) : OnlyR [.free, .log, .regions, .fuist, .collator, .reg .colEv, .reg .qctFault, .reg .logCtl] s (execPoisonFrame p s) := by
  unfold execPoisonFrame
  repeat' first
    | with_reducible first | assumption | exact State.Only.refl _ _ | apply OnlyR.next | apply takeRx_only | apply takeExchange_only | apply draw_only | apply chargeTo_only
    | (show sub _ _ = true; decide)
    | (intro _ _ hx)
    | (extract_lets +onlyGivenNames y; with_reducible refine State.Only.cut y ?_ ?_ <;> [dsimp only [y]; (clear_value y; intro hy)])
    | (extract_lets +onlyGivenNames y; with_reducible refine OnlyR.cut y ?_ ?_ <;> [dsimp only [y]; (clear_value y; intro hy)])
    | (extract_lets +onlyGivenNames y; clear_value y)
    | split
    | with_reducible refine State.Only.snd (by assumption) ?_

theorem execTokenSend_only (s : State)  : OnlyR [.regions, .fuist] s (execTokenSend s) := by
  unfold execTokenSend
  repeat' first
    | with_reducible first | assumption | exact State.Only.refl _ _ | apply OnlyR.next | apply sendToken_only | apply putToken_only | apply State.Only.ite_ | apply OnlyR.ite_
    | (show sub _ _ = true; decide)
    | (extract_lets +onlyGivenNames y; with_reducible refine State.Only.cut y ?_ ?_ <;> [dsimp only [y]; (clear_value y; intro hy)])
    | (extract_lets +onlyGivenNames y; with_reducible refine OnlyR.cut y ?_ ?_ <;> [dsimp only [y]; (clear_value y; intro hy)])
    | (extract_lets +onlyGivenNames y; clear_value y)
    | split
    | with_reducible first | refine State.Only.snd (by assumption) ?_ | refine State.Only.snd2 (by assumption) ?_ | refine State.Only.snd3 (by assumption) ?_

theorem mergeToken_only (r : Nat) (t : Token) (pads : BitVec 192) (bad : BitVec 2) (hO : State.Only ps z s) (hM : sub [.free, .outs, .log, .cells, .gatherings, .regions, .fuist, .collator, .reg .hubMsixPba, .reg .colEv, .reg .bndStat, .reg .bndCase, .reg .qctCommitted, .reg .qctExec, .reg .qctStatus, .reg .qctReplays, .reg .qctStretch, .reg .qctFault, .reg .qctHold, .reg .qctRbStat, .reg .qctBmkStat, .reg .logCtl, .reg .gthDchk] ps = true) :
    State.Only ps z (State.mergeToken s r t pads bad) := by
  refine hO.step ?_ hM
  unfold State.mergeToken
  repeat' first
    | with_reducible first | assumption | exact State.Only.refl _ _ | apply putToken_only | apply sendToken_only | apply retryVote_only | apply State.Only.ite_
    | (show sub _ _ = true; decide)

theorem execTokenFrame_only (s : State) (p : PortId) (pads : BitVec 192) (bad : BitVec 2) : OnlyR [.free, .outs, .log, .cells, .gatherings, .regions, .fuist, .collator, .reg .hubMsixPba, .reg .colEv, .reg .bndStat, .reg .bndCase, .reg .qctCommitted, .reg .qctExec, .reg .qctStatus, .reg .qctReplays, .reg .qctStretch, .reg .qctFault, .reg .qctHold, .reg .qctRbStat, .reg .qctBmkStat, .reg .logCtl, .reg .gthDchk] s (execTokenFrame p pads bad s) := by
  unfold execTokenFrame
  repeat' first
    | with_reducible first | assumption | exact State.Only.refl _ _ | apply OnlyR.next | apply takeRx_only | apply mergeToken_only
    | (show sub _ _ = true; decide)
    | split
    | with_reducible refine State.Only.snd (by assumption) ?_

theorem execTokenReq_only (s : State) (p : PortId) : OnlyR [.log, .fuist, .collator, .reg .colEv, .reg .logCtl] s (execTokenReq p s) := by
  unfold execTokenReq
  repeat' first
    | with_reducible first | assumption | exact State.Only.refl _ _ | apply OnlyR.next | apply takeSeq_only | apply askPeer_only
    | (show sub _ _ = true; decide)
    | split
    | with_reducible refine State.Only.snd (by assumption) ?_

theorem execTokenResp_only (s : State) (p : PortId) (pads : BitVec 192) (bad : BitVec 2) : OnlyR [.free, .outs, .log, .cells, .gatherings, .regions, .fuist, .collator, .reg .hubMsixPba, .reg .colEv, .reg .bndStat, .reg .bndCase, .reg .qctCommitted, .reg .qctExec, .reg .qctStatus, .reg .qctReplays, .reg .qctStretch, .reg .qctFault, .reg .qctHold, .reg .qctRbStat, .reg .qctBmkStat, .reg .logCtl, .reg .gthDchk] s (execTokenResp p pads bad s) := by
  unfold execTokenResp
  repeat' first
    | with_reducible first | assumption | exact State.Only.refl _ _ | apply OnlyR.next | apply takeSeq_only | apply mergeToken_only
    | (show sub _ _ = true; decide)
    | (extract_lets +onlyGivenNames y; with_reducible refine State.Only.cut y ?_ ?_ <;> [dsimp only [y]; (clear_value y; intro hy)])
    | (extract_lets +onlyGivenNames y; with_reducible refine OnlyR.cut y ?_ ?_ <;> [dsimp only [y]; (clear_value y; intro hy)])
    | (extract_lets +onlyGivenNames y; clear_value y)
    | split
    | with_reducible refine State.Only.snd (by assumption) ?_

theorem execCodewordRx_only (s : State) (p : PortId) (cw : Codeword) : OnlyR [.regions, .fuist, .reg .qctFault, .reg .fstPortErr] s (execCodewordRx p cw s) := by
  unfold execCodewordRx
  repeat' first
    | with_reducible first | assumption | exact State.Only.refl _ _ | apply OnlyR.next | apply receive_only
    | (show sub _ _ = true; decide)

theorem execLinkControlFrame_only (s : State) (p : PortId) : OnlyR [.log, .fuist, .collator, .reg .colEv, .reg .fstPortStat, .reg .fstPortMap, .reg .fstPortErr, .reg .fstSpare, .reg .pwrDom, .reg .pwrStatus, .reg .logCtl] s (execLinkControlFrame p s) := by
  unfold execLinkControlFrame
  repeat' first
    | with_reducible first | assumption | exact State.Only.refl _ _ | apply OnlyR.next | apply takeRx_only | apply updPort_only | apply resendFrom_only | apply vote_only | apply takeSub_only | apply State.Only.ite_ | apply State.Only.ite2 | apply OnlyR.ite_
    | (show sub _ _ = true; decide)
    | (extract_lets +onlyGivenNames y; with_reducible refine State.Only.cut y ?_ ?_ <;> [dsimp only [y]; (clear_value y; intro hy)])
    | (extract_lets +onlyGivenNames y; with_reducible refine OnlyR.cut y ?_ ?_ <;> [dsimp only [y]; (clear_value y; intro hy)])
    | (extract_lets +onlyGivenNames y; clear_value y)
    | split
    | with_reducible refine State.Only.snd (by assumption) ?_

theorem execLinkControlSend_only (s : State) (p : PortId) : OnlyR [.fuist] s (execLinkControlSend p s) := by
  unfold execLinkControlSend
  repeat' first
    | with_reducible first | assumption | exact State.Only.refl _ _ | apply OnlyR.next | apply updPort_only | apply State.Only.ite_ | apply OnlyR.ite_
    | (show sub _ _ = true; decide)

theorem execAsyncResendTimeout_only (s : State) (p : PortId) : OnlyR [.log, .fuist, .collator, .reg .colEv, .reg .fstSys, .reg .fstPortStat, .reg .fstPortErr, .reg .logCtl] s (execAsyncResendTimeout p s) := by
  unfold execAsyncResendTimeout
  repeat' first
    | with_reducible first | assumption | exact State.Only.refl _ _ | apply OnlyR.next | apply updPort_only | apply resendFrom_only | apply portDown_only | apply State.Only.ite_ | apply OnlyR.ite_
    | (show sub _ _ = true; decide)
    | (extract_lets +onlyGivenNames y; with_reducible refine State.Only.cut y ?_ ?_ <;> [dsimp only [y]; (clear_value y; intro hy)])
    | (extract_lets +onlyGivenNames y; with_reducible refine OnlyR.cut y ?_ ?_ <;> [dsimp only [y]; (clear_value y; intro hy)])
    | (extract_lets +onlyGivenNames y; clear_value y)
    | split
    | with_reducible first | refine State.Only.snd (by assumption) ?_ | refine State.Only.snd2 (by assumption) ?_ | refine State.Only.snd3 (by assumption) ?_

theorem deliverAsync_only (p vc : Nat) (a : AsyncPart) (hO : State.Only ps z s) (hM : sub [.free, .log, .collator, .dram, .reg .colLedger, .reg .colEv, .reg .colStrStat, .reg .colStrAcc, .reg .colStrRsb, .reg .colStrHoles, .reg .memChStat, .reg .logCtl] ps = true) :
    State.Only ps z (State.deliverAsync s p vc a) := by
  refine hO.step ?_ hM
  unfold State.deliverAsync
  repeat' first
    | with_reducible first | assumption | exact State.Only.refl _ _ | apply draw_only | apply submit_only | apply writeWords_only | apply State.Only.ite_ | apply State.Only.ite2
    | (show sub _ _ = true; decide)
    | with_reducible first | refine State.Only.snd (by assumption) ?_ | refine State.Only.snd2 (by assumption) ?_ | refine State.Only.snd3 (by assumption) ?_

theorem assemble_only (p : Nat) (f : Frame) (hO : State.Only ps z s) (hM : sub [.free, .log, .fuist, .collator, .dram, .reg .colLedger, .reg .colEv, .reg .colStrStat, .reg .colStrAcc, .reg .colStrRsb, .reg .colStrHoles, .reg .memChStat, .reg .logCtl] ps = true) :
    State.Only ps z (State.assemble s p f) := by
  refine hO.step ?_ hM
  unfold State.assemble
  repeat' first
    | with_reducible first | assumption | exact State.Only.refl _ _ | apply updPort_only | apply deliverAsync_only | apply State.Only.ite_
    | (show sub _ _ = true; decide)
    | (extract_lets +onlyGivenNames y; with_reducible refine State.Only.cut y ?_ ?_ <;> [dsimp only [y]; (clear_value y; intro hy)])
    | (extract_lets +onlyGivenNames y; clear_value y)
    | split
    | with_reducible first | refine State.Only.snd (by assumption) ?_ | refine State.Only.snd2 (by assumption) ?_ | refine State.Only.snd3 (by assumption) ?_

theorem forward_only (p : Nat) (f : Frame) (hO : State.Only ps z s) (hM : sub [.log, .fuist, .collator, .reg .colEv, .reg .logCtl] ps = true) :
    State.Only ps z (State.forward s p f) := by
  refine hO.step ?_ hM
  unfold State.forward
  repeat' first
    | with_reducible first | assumption | exact State.Only.refl _ _ | apply updPort_only | apply logOther_only | apply State.Only.ite_
    | (show sub _ _ = true; decide)
    | (extract_lets +onlyGivenNames y; with_reducible refine State.Only.cut y ?_ ?_ <;> [dsimp only [y]; (clear_value y; intro hy)])
    | (extract_lets +onlyGivenNames y; clear_value y)
    | split
    | with_reducible first | refine State.Only.snd (by assumption) ?_ | refine State.Only.snd2 (by assumption) ?_ | refine State.Only.snd3 (by assumption) ?_

theorem execAsyncDataFrame_only (s : State) (p : PortId) : OnlyR [.free, .log, .fuist, .collator, .dram, .reg .colLedger, .reg .colEv, .reg .colStrStat, .reg .colStrAcc, .reg .colStrRsb, .reg .colStrHoles, .reg .memChStat, .reg .logCtl] s (execAsyncDataFrame p s) := by
  unfold execAsyncDataFrame
  repeat' first
    | with_reducible first | assumption | exact State.Only.refl _ _ | apply OnlyR.next | apply takeSeq_only | apply assemble_only | apply forward_only | apply State.Only.ite_ | apply State.Only.ite2 | apply OnlyR.ite_
    | (show sub _ _ = true; decide)
    | split
    | with_reducible refine State.Only.snd (by assumption) ?_

theorem takeCommand_only (p : Nat) (f : Frame) (hO : State.Only ps z s) (hM : sub [.log, .fuist, .collator, .reg .colEv, .reg .logCtl] ps = true) :
    State.Only ps z (State.takeCommand s p f) := by
  refine hO.step ?_ hM
  unfold State.takeCommand
  repeat' first
    | with_reducible first | assumption | exact State.Only.refl _ _ | apply logOther_only | apply schedule_only | apply sendSys_only | apply State.Only.ite_ | apply State.Only.foldl_ | apply State.Only.foldl2 | apply State.Only.foldl3
    | (show sub _ _ = true; decide)
    | (intro _ _ hx)
    | (extract_lets +onlyGivenNames y; with_reducible refine State.Only.cut y ?_ ?_ <;> [dsimp only [y]; (clear_value y; intro hy)])
    | (extract_lets +onlyGivenNames y; clear_value y)
    | split
    | with_reducible apply only_fst

theorem syscmd_only (p c : Nat) (hO : State.Only ps z s) (hM : sub [.log, .fuist, .collator, .reg .colEv, .reg .logCtl] ps = true) :
    State.Only ps z (State.syscmd s p c) := by
  refine hO.step ?_ hM
  unfold State.syscmd
  repeat' first
    | with_reducible first | assumption | exact State.Only.refl _ _ | apply takeSeq_only | apply takeCommand_only
    | (show sub _ _ = true; decide)
    | split
    | with_reducible refine State.Only.snd (by assumption) ?_

theorem execSyscmdStart_only (s : State) (p : PortId) : OnlyR [.log, .fuist, .collator, .reg .colEv, .reg .logCtl] s (execSyscmdStart p s) := by
  unfold execSyscmdStart
  repeat' first
    | with_reducible first | assumption | exact State.Only.refl _ _ | apply OnlyR.next | apply syscmd_only
    | (show sub _ _ = true; decide)

theorem execSyscmdRetry_only (s : State) (p : PortId) : OnlyR [.log, .fuist, .collator, .reg .colEv, .reg .logCtl] s (execSyscmdRetry p s) := by
  unfold execSyscmdRetry
  repeat' first
    | with_reducible first | assumption | exact State.Only.refl _ _ | apply OnlyR.next | apply syscmd_only
    | (show sub _ _ = true; decide)

theorem execSyscmdRelease_only (s : State) (p : PortId) : OnlyR [.log, .fuist, .collator, .reg .colEv, .reg .logCtl] s (execSyscmdRelease p s) := by
  unfold execSyscmdRelease
  repeat' first
    | with_reducible first | assumption | exact State.Only.refl _ _ | apply OnlyR.next | apply syscmd_only
    | (show sub _ _ = true; decide)

theorem startAct_only (w1 : Nat) (pads : BitVec 192) (hO : State.Only ps z s) (hM : sub [.free, .log, .gatherings, .regions, .collator, .boot, .reg .hubBoot, .reg .colEv, .reg .bndStat, .reg .bndCase, .reg .qctExec, .reg .qctStatus, .reg .fstBound, .reg .logCtl] ps = true) :
    State.Only ps z (State.startAct s w1 pads) := by
  refine hO.step ?_ hM
  unfold State.startAct
  repeat' first
    | with_reducible first | assumption | exact State.Only.refl _ _ | apply logOther_only | apply only_setF | apply only_putN | apply startEnded_only | apply openQuire_only | apply State.Only.ite_
    | (show sub _ _ = true; decide)
    | (extract_lets +onlyGivenNames y; with_reducible refine State.Only.cut y ?_ ?_ <;> [dsimp only [y]; (clear_value y; intro hy)])
    | (extract_lets +onlyGivenNames y; clear_value y)
    | split
    | with_reducible first | refine State.Only.snd (by assumption) ?_ | refine State.Only.snd2 (by assumption) ?_ | refine State.Only.snd3 (by assumption) ?_

theorem retryAct_only (bad : BitVec 2) (hO : State.Only ps z s) (hM : sub [.free, .outs, .log, .cells, .gatherings, .regions, .collator, .reg .hubMsixPba, .reg .colEv, .reg .bndStat, .reg .bndCase, .reg .qctExec, .reg .qctStatus, .reg .qctFault, .reg .qctHold, .reg .qctRbStat, .reg .qctBmkStat, .reg .logCtl] ps = true) :
    State.Only ps z (State.retryAct s bad) := by
  refine hO.step ?_ hM
  unfold State.retryAct
  repeat' first
    | with_reducible first | assumption | exact State.Only.refl _ _ | apply retryRegion_only | apply State.Only.ite_
    | (show sub _ _ = true; decide)
    | split
    | with_reducible first | refine State.Only.snd (by assumption) ?_ | refine State.Only.snd2 (by assumption) ?_ | refine State.Only.snd3 (by assumption) ?_

theorem execSyscmdAct_only (s : State) (pads : BitVec 192) (bad : BitVec 2) : OnlyR [.free, .outs, .log, .cells, .gatherings, .regions, .fuist, .collator, .boot, .reg .hubBoot, .reg .hubMsixPba, .reg .colEv, .reg .bndStat, .reg .bndCase, .reg .qctExec, .reg .qctStatus, .reg .qctFault, .reg .qctHold, .reg .qctRbStat, .reg .qctBmkStat, .reg .fstBound, .reg .logCtl] s (execSyscmdAct pads bad s) := by
  unfold execSyscmdAct
  repeat' first
    | with_reducible first | assumption | exact State.Only.refl _ _ | apply OnlyR.next | apply startAct_only | apply retryAct_only | apply releaseAct_only
    | (show sub _ _ = true; decide)
    | (extract_lets +onlyGivenNames y; with_reducible refine State.Only.cut y ?_ ?_ <;> [dsimp only [y]; (clear_value y; intro hy)])
    | (extract_lets +onlyGivenNames y; with_reducible refine OnlyR.cut y ?_ ?_ <;> [dsimp only [y]; (clear_value y; intro hy)])
    | (extract_lets +onlyGivenNames y; clear_value y)
    | split
    | with_reducible first | refine State.Only.snd (by assumption) ?_ | refine State.Only.snd2 (by assumption) ?_ | refine State.Only.snd3 (by assumption) ?_
    | with_reducible apply only_fst

theorem execLaneSwitchTx_only (s : State) (p : PortId) : OnlyR [.fuist] s (execLaneSwitchTx p s) := by
  unfold execLaneSwitchTx
  repeat' first
    | with_reducible first | assumption | exact State.Only.refl _ _ | apply OnlyR.next | apply updPort_only | apply State.Only.ite_ | apply OnlyR.ite_
    | (show sub _ _ = true; decide)
    | split
    | with_reducible first | refine State.Only.snd (by assumption) ?_ | refine State.Only.snd2 (by assumption) ?_ | refine State.Only.snd3 (by assumption) ?_

theorem execLaneSwitchRx_only (s : State) (p : PortId) : OnlyR [.log, .fuist, .collator, .reg .colEv, .reg .fstPortStat, .reg .fstPortMap, .reg .fstSpare, .reg .logCtl] s (execLaneSwitchRx p s) := by
  unfold execLaneSwitchRx
  repeat' first
    | with_reducible first | assumption | exact State.Only.refl _ _ | apply OnlyR.next | apply checkSub_only | apply updPort_only | apply State.Only.ite_ | apply OnlyR.ite_
    | (show sub _ _ = true; decide)
    | split
    | with_reducible first | refine State.Only.snd (by assumption) ?_ | refine State.Only.snd2 (by assumption) ?_ | refine State.Only.snd3 (by assumption) ?_

theorem execLaneSubTimeout_only (s : State) (p : PortId) : OnlyR [.fuist, .collator, .reg .colEv] s (execLaneSubTimeout p s) := by
  unfold execLaneSubTimeout
  repeat' first
    | with_reducible first | assumption | exact State.Only.refl _ _ | apply OnlyR.next | apply failSub_only | apply State.Only.ite_ | apply OnlyR.ite_
    | (show sub _ _ = true; decide)
    | split
    | with_reducible first | refine State.Only.snd (by assumption) ?_ | refine State.Only.snd2 (by assumption) ?_ | refine State.Only.snd3 (by assumption) ?_

theorem execLaneSignalLoss_only (s : State) (p : PortId) (lane : Fin 8) : OnlyR [.fuist, .reg .fstPortStat] s (execLaneSignalLoss p lane s) := by
  unfold execLaneSignalLoss
  repeat' first
    | with_reducible first | assumption | exact State.Only.refl _ _ | apply OnlyR.next | apply only_putF | apply startSub_only | apply State.Only.ite_ | apply OnlyR.ite_
    | (show sub _ _ = true; decide)
    | (extract_lets +onlyGivenNames y; with_reducible refine State.Only.cut y ?_ ?_ <;> [dsimp only [y]; (clear_value y; intro hy)])
    | (extract_lets +onlyGivenNames y; with_reducible refine OnlyR.cut y ?_ ?_ <;> [dsimp only [y]; (clear_value y; intro hy)])
    | (extract_lets +onlyGivenNames y; clear_value y)
    | split
    | with_reducible first | refine State.Only.snd (by assumption) ?_ | refine State.Only.snd2 (by assumption) ?_ | refine State.Only.snd3 (by assumption) ?_

theorem writeLane_only (fn : Nat) (v : BitVec 64) (hO : State.Only ps z s) (hM : sub [.log, .fuist, .collator, .reg .colEv, .reg .logCtl, .reg .upkLane] ps = true) :
    State.Only ps z (State.writeLane s fn v) := by
  refine hO.step ?_ hM
  unfold State.writeLane
  repeat' first
    | with_reducible first | assumption | exact State.Only.refl _ _ | apply ignored_only | apply writeReg_only | apply only_putN | apply only_setF | apply startSub_only | apply State.Only.ite_
    | (show sub _ _ = true; decide)
    | (intro _ hx)

theorem execUpkLaneGo_only (s : State) (v : BitVec 64) : OnlyR [.log, .fuist, .collator, .reg .colEv, .reg .logCtl, .reg .upkLane] s (execUpkLaneGo v s) := by
  unfold execUpkLaneGo
  repeat' first
    | with_reducible first | assumption | exact State.Only.refl _ _ | apply OnlyR.next | apply bar_only | apply writeLane_only
    | (show sub _ _ = true; decide)
    | (intro _ hx)

theorem trainPort_only (p : Nat) (hO : State.Only ps z s) (hM : sub [.fuist, .collator, .reg .colEv, .reg .fstPortStat] ps = true) :
    State.Only ps z (State.trainPort s p) := by
  refine hO.step ?_ hM
  unfold State.trainPort
  repeat' first
    | with_reducible first | assumption | exact State.Only.refl _ _ | apply setPortState_only | apply only_putN | apply updPort_only | apply State.Only.ite_
    | (show sub _ _ = true; decide)

theorem writePortCfg_only (fn p : Nat) (v : BitVec 64) (hO : State.Only ps z s) (hM : sub [.log, .fuist, .collator, .reg .colEv, .reg .fstSys, .reg .fstPortCfg, .reg .fstPortStat, .reg .logCtl] ps = true) :
    State.Only ps z (State.writePortCfg s fn p v) := by
  refine hO.step ?_ hM
  unfold State.writePortCfg
  repeat' first
    | with_reducible first | assumption | exact State.Only.refl _ _ | apply ignored_only | apply writeReg_only | apply only_setF | apply portOff_only | apply setPortState_only | apply updPort_only | apply trainPort_only | apply State.Only.ite_
    | (show sub _ _ = true; decide)
    | (intro _ hx)

theorem execPortTrain_only (s : State) (p : PortId) (v : BitVec 64) : OnlyR [.log, .fuist, .collator, .reg .colEv, .reg .fstSys, .reg .fstPortCfg, .reg .fstPortStat, .reg .logCtl] s (execPortTrain p v s) := by
  unfold execPortTrain
  repeat' first
    | with_reducible first | assumption | exact State.Only.refl _ _ | apply OnlyR.next | apply bar_only | apply writePortCfg_only
    | (show sub _ _ = true; decide)
    | (intro _ hx)

theorem replaceLane_only (p j : Nat) (hO : State.Only ps z s) (hM : sub [.log, .collator, .reg .colEv, .reg .fstPortStat, .reg .fstPortMap, .reg .fstSpare, .reg .logCtl] ps = true) :
    State.Only ps z (State.replaceLane s p j) := by
  refine hO.step ?_ hM
  unfold State.replaceLane
  repeat' first
    | with_reducible first | assumption | exact State.Only.refl _ _ | apply only_setF | apply only_putN | apply logLane_only | apply only_putF
    | (show sub _ _ = true; decide)
    | (extract_lets +onlyGivenNames y; with_reducible refine State.Only.cut y ?_ ?_ <;> [dsimp only [y]; (clear_value y; intro hy)])
    | (extract_lets +onlyGivenNames y; clear_value y)
    | split
    | with_reducible first | refine State.Only.snd (by assumption) ?_ | refine State.Only.snd2 (by assumption) ?_ | refine State.Only.snd3 (by assumption) ?_
    | (rw [mapField_reg]; decide)

theorem learnSpares_only (p : Nat) (x : TrainedPeer) (hO : State.Only ps z s) (hM : sub [.fuist] ps = true) :
    State.Only ps z (State.learnSpares s p x) := by
  refine hO.step ?_ hM
  unfold State.learnSpares
  repeat' first
    | with_reducible first | assumption | exact State.Only.refl _ _ | apply State.Only.ite_ | apply State.Only.foldl_ | apply State.Only.foldl2 | apply State.Only.foldl3
    | (show sub _ _ = true; decide)
    | (intro _ _ hx)
    | (extract_lets +onlyGivenNames y; with_reducible refine State.Only.cut y ?_ ?_ <;> [dsimp only [y]; (clear_value y; intro hy)])
    | (extract_lets +onlyGivenNames y; clear_value y)
    | split
    | with_reducible apply only_fst

theorem execTrainingTimeout_only (s : State) (p : PortId) (e : TrainingEnd) : OnlyR [.log, .fuist, .collator, .boot, .reg .colEv, .reg .fstSys, .reg .fstPortStat, .reg .fstPortMap, .reg .fstSpare, .reg .logCtl] s (execTrainingTimeout p e s) := by
  unfold execTrainingTimeout
  repeat' first
    | with_reducible first | assumption | exact State.Only.refl _ _ | apply OnlyR.next | apply learnSpares_only | apply replaceLane_only | apply portDown_only | apply State.Only.ite_ | apply OnlyR.ite_ | apply State.Only.foldl_ | apply State.Only.foldl2 | apply State.Only.foldl3
    | (show sub _ _ = true; decide)
    | (intro _ _ hx)
    | (extract_lets +onlyGivenNames y; have _h : SysState := y; clear _h; dsimp only [y]; clear y)
    | (extract_lets +onlyGivenNames y; with_reducible refine State.Only.cut y ?_ ?_ <;> [dsimp only [y]; (clear_value y; intro hy)])
    | (extract_lets +onlyGivenNames y; with_reducible refine OnlyR.cut y ?_ ?_ <;> [dsimp only [y]; (clear_value y; intro hy)])
    | (extract_lets +onlyGivenNames y; clear_value y)
    | split
    | with_reducible refine only_sys ?_ _ (fun p hp => by cases p <;> first | exact absurd (by decide) hp | simp [Part.same, State.reg])

theorem syncLock_only (hO : State.Only ps z s) (hM : sub [.reg .fstSys] ps = true) :
    State.Only ps z (State.syncLock s) := by
  refine hO.step ?_ hM
  unfold State.syncLock
  repeat' first
    | with_reducible first | assumption | exact State.Only.refl _ _ | apply only_putN | apply State.Only.ite_
    | (show sub _ _ = true; decide)

theorem execPortTrainingDone_only (s : State) (p : PortId) (peer : TrainedPeer) : OnlyR [.log, .fuist, .collator, .reg .colEv, .reg .fstSys, .reg .fstPortStat, .reg .logCtl] s (execPortTrainingDone p peer s) := by
  unfold execPortTrainingDone
  repeat' first
    | with_reducible first | assumption | exact State.Only.refl _ _ | apply OnlyR.next | apply updPort_only | apply only_putF | apply setPortState_only | apply learnSpares_only | apply only_putN | apply portDown_only | apply State.Only.ite_ | apply OnlyR.ite_
    | (show sub _ _ = true; decide)

theorem execSyncportLockLoss_only (s : State)  : OnlyR [.log, .collator, .reg .colEv, .reg .fstSys, .reg .clkStat, .reg .logCtl] s (execSyncportLockLoss s) := by
  unfold execSyncportLockLoss
  repeat' first
    | with_reducible first | assumption | exact State.Only.refl _ _ | apply OnlyR.next | apply only_setF | apply only_putN | apply raise_only | apply logOther_only | apply State.Only.ite_ | apply OnlyR.ite_
    | (show sub _ _ = true; decide)

theorem boundTimeout_only (hO : State.Only ps z s) (hM : sub [.free, .log, .collator, .boot, .reg .hubBoot, .reg .colEv, .reg .fstBound, .reg .logCtl] ps = true) :
    State.Only ps z (State.boundTimeout s) := by
  refine hO.step ?_ hM
  unfold State.boundTimeout
  repeat' first
    | with_reducible first | assumption | exact State.Only.refl _ _ | apply startEnded_only | apply logOther_only | apply only_setF | apply only_putN
    | (show sub _ _ = true; decide)

theorem execBoundRiseQualified_only (s : State)  : OnlyR [.fuist, .reg .fstBound] s (execBoundRiseQualified s) := by
  unfold execBoundRiseQualified
  repeat' first
    | with_reducible first | assumption | exact State.Only.refl _ _ | apply OnlyR.next | apply only_setF | apply only_putN | apply sendSystem_only | apply State.Only.ite_ | apply OnlyR.ite_
    | (show sub _ _ = true; decide)

theorem execBoundWaitTimeout_only (s : State)  : OnlyR [.free, .log, .collator, .boot, .reg .hubBoot, .reg .colEv, .reg .fstBound, .reg .logCtl] s (execBoundWaitTimeout s) := by
  unfold execBoundWaitTimeout
  repeat' first
    | with_reducible first | assumption | exact State.Only.refl _ _ | apply OnlyR.next | apply boundTimeout_only | apply State.Only.ite_ | apply OnlyR.ite_
    | (show sub _ _ = true; decide)

theorem execStartWaitTimeout_only (s : State)  : OnlyR [.free, .log, .collator, .boot, .reg .hubBoot, .reg .colEv, .reg .fstBound, .reg .logCtl] s (execStartWaitTimeout s) := by
  unfold execStartWaitTimeout
  repeat' first
    | with_reducible first | assumption | exact State.Only.refl _ _ | apply OnlyR.next | apply boundTimeout_only | apply State.Only.ite_ | apply OnlyR.ite_
    | (show sub _ _ = true; decide)

theorem execBoundNFall_only (s : State)  : OnlyR [.log, .collator, .reg .colEv, .reg .fstBound, .reg .logCtl] s (execBoundNFall s) := by
  unfold execBoundNFall
  repeat' first
    | with_reducible first | assumption | exact State.Only.refl _ _ | apply OnlyR.next | apply only_clrF | apply logOther_only | apply State.Only.ite_ | apply OnlyR.ite_
    | (show sub _ _ = true; decide)

/-! ### Parts -/

theorem folioWords_only (g : Nat) (as : List Nat) (hO : State.Only ps z s) (hM : sub [.log, .collator, .reg .colEv, .reg .logCtl, .reg .gthFerr] ps = true) :
    State.Only ps z (State.folioWords s g as).2.2 := by
  refine hO.step ?_ hM
  unfold State.folioWords
  repeat' first
    | with_reducible first | assumption | exact State.Only.refl _ _ | apply portRead_only | apply State.Only.foldl_ | apply State.Only.foldl2 | apply State.Only.foldl3
    | (show sub _ _ = true; decide)
    | (intro _ _ hx)
    | with_reducible first | refine State.Only.snd (by assumption) ?_ | refine State.Only.snd2 (by assumption) ?_ | refine State.Only.snd3 (by assumption) ?_

theorem folioPart_only (r g : Nat) (hO : State.Only ps z s)
    (hM : sub [.log, .collator, .reg .colEv, .reg .logCtl, .reg .gthFerr] ps = true) :
    State.Only ps z (s.folioPart r g).2.2 := by
  have h := folioWords_only g (List.range 2048) hO hM
  rw [State.folioPart]
  rcases he : s.folioWords g (List.range 2048) with ⟨a, b, t⟩
  rw [he] at h
  exact h

theorem loadState_only (g : Nat) (ws : List Word) (crp : Nat → Nat → Nat) (hO : State.Only ps z s) (hM : sub [.cells, .gatherings] ps = true) :
    State.Only ps z (State.loadState s g ws crp) := by
  refine hO.step ?_ hM
  unfold State.loadState
  repeat' first
    | with_reducible first | assumption | exact State.Only.refl _ _ | apply updCell_only | apply updGth_only | apply State.Only.foldl_ | apply State.Only.foldl2 | apply State.Only.foldl3
    | (show sub _ _ = true; decide)
    | (intro _ _ hx; beta_reduce)

theorem loadFolio_only (g : Nat) (ws : List Word) (hO : State.Only ps z s) (hM : sub [.gatherings] ps = true) :
    State.Only ps z (State.loadFolio s g ws) := by
  refine hO.step ?_ hM
  unfold State.loadFolio
  repeat' first
    | with_reducible first | assumption | exact State.Only.refl _ _ | apply updGth_only
    | (show sub _ _ = true; decide)

theorem setTiming_only (d : BitVec 512) (hO : State.Only ps z s) (hM : sub [.reg .fstTiming] ps = true) :
    State.Only ps z (State.setTiming s d) := by
  refine hO.step ?_ hM
  unfold State.setTiming
  repeat' first
    | with_reducible first | assumption | exact State.Only.refl _ _ | apply only_putN
    | (show sub _ _ = true; decide)

/-! ### Frames -/

theorem writeRow_only (g ly : Nat) (data : List Byte) (hO : State.Only ps z s) (hM : sub [.cells, .reg .gthCrc] ps = true) :
    State.Only ps z (State.writeRow s g ly data) := by
  refine hO.step ?_ hM
  unfold State.writeRow
  repeat' first
    | with_reducible first | assumption | exact State.Only.refl _ _ | apply updCell_only | apply only_setReg | apply State.Only.foldl_ | apply State.Only.foldl2 | apply State.Only.foldl3
    | (show sub _ _ = true; decide)
    | (intro _ _ hx)

theorem writePress_only (g : Nat) (data : List Byte) (hO : State.Only ps z s) (hM : sub [.gatherings] ps = true) :
    State.Only ps z (State.writePress s g data) := by
  refine hO.step ?_ hM
  unfold State.writePress
  repeat' first
    | with_reducible first | assumption | exact State.Only.refl _ _ | apply updPress_only | apply State.Only.foldl_ | apply State.Only.foldl2 | apply State.Only.foldl3
    | (show sub _ _ = true; decide)
    | (intro _ _ hx)

theorem writeAccess_only (g : Nat) (data : List Byte) (hO : State.Only ps z s) (hM : sub [.gatherings] ps = true) :
    State.Only ps z (State.writeAccess s g data) := by
  refine hO.step ?_ hM
  unfold State.writeAccess
  repeat' first
    | with_reducible first | assumption | exact State.Only.refl _ _ | apply updGth_only
    | (show sub _ _ = true; decide)

theorem writeStore_only (g : Nat) (data : List Byte) (hO : State.Only ps z s) (hM : sub [.gatherings] ps = true) :
    State.Only ps z (State.writeStore s g data) := by
  refine hO.step ?_ hM
  unfold State.writeStore
  repeat' first
    | with_reducible first | assumption | exact State.Only.refl _ _ | apply updGth_only
    | (show sub _ _ = true; decide)

theorem writeCtl_only (g : Nat) (f : BitVec 2048) (hO : State.Only ps z s) (hM : sub [.gatherings, .reg .gthCfg, .reg .gthQdesc, .reg .gthQwm] ps = true) :
    State.Only ps z (State.writeCtl s g f) := by
  refine hO.step ?_ hM
  unfold State.writeCtl
  repeat' first
    | with_reducible first | assumption | exact State.Only.refl _ _ | apply updGth_only | apply only_setF | apply only_putN | apply only_putF | apply State.Only.foldl_ | apply State.Only.foldl2 | apply State.Only.foldl3
    | (show sub _ _ = true; decide)
    | (intro _ _ hx)

theorem writePad_only (b : Nat) (data : List Byte) (hO : State.Only ps z s) (hM : sub [.pads] ps = true) :
    State.Only ps z (State.writePad s b data) := by
  refine hO.step ?_ hM
  unfold State.writePad
  repeat' first
    | with_reducible first | assumption | exact State.Only.refl _ _ | apply updPad_only | apply State.Only.ite_ | apply State.Only.foldl_ | apply State.Only.foldl2 | apply State.Only.foldl3
    | (show sub _ _ = true; decide)
    | (intro _ _ hx)

theorem writeXplan_only (g : Nat) (data : List Byte) (hO : State.Only ps z s) (hM : sub [.gatherings] ps = true) :
    State.Only ps z (State.writeXplan s g data) := by
  refine hO.step ?_ hM
  unfold State.writeXplan
  repeat' first
    | with_reducible first | assumption | exact State.Only.refl _ _ | apply updGth_only
    | (show sub _ _ = true; decide)

theorem writeRelay_only (f : Nat) (data : List Byte) (hO : State.Only ps z s) (hM : sub [.relay] ps = true) :
    State.Only ps z (State.writeRelay s f data) := by
  refine hO.step ?_ hM
  unfold State.writeRelay
  repeat' first
    | with_reducible first | assumption | exact State.Only.refl _ _ | apply State.Only.foldl_ | apply State.Only.foldl2 | apply State.Only.foldl3
    | (show sub _ _ = true; decide)
    | (intro _ _ hx)
    | (extract_lets +onlyGivenNames y; have _h : ArrayState := y; clear _h; dsimp only [y]; clear y)
    | with_reducible refine only_arr ?_ _ (fun p hp => by cases p <;> first | exact absurd (by decide) hp | simp [Part.same, State.reg])

theorem writeImem_only (c k : Nat) (data : List Byte) (hO : State.Only ps z s) (hM : sub [.cores, .reg .awlStat] ps = true) :
    State.Only ps z (State.writeImem s c k data) := by
  refine hO.step ?_ hM
  unfold State.writeImem
  repeat' first
    | with_reducible first | assumption | exact State.Only.refl _ _ | apply updCore_only | apply State.Only.foldl_ | apply State.Only.foldl2 | apply State.Only.foldl3
    | (show sub _ _ = true; decide)

theorem writeDmem_only (c k : Nat) (data : List Byte) (hO : State.Only ps z s) (hM : sub [.cores, .reg .awlStat] ps = true) :
    State.Only ps z (State.writeDmem s c k data) := by
  refine hO.step ?_ hM
  unfold State.writeDmem
  repeat' first
    | with_reducible first | assumption | exact State.Only.refl _ _ | apply updCore_only | apply State.Only.foldl_ | apply State.Only.foldl2 | apply State.Only.foldl3
    | (show sub _ _ = true; decide)

theorem writeFrame_only (fa : Nat) (data : List Byte) (hO : State.Only ps z s) (hM : sub [.cells, .gatherings, .relay, .cores, .pads, .reg .awlStat, .reg .gthCfg, .reg .gthQdesc, .reg .gthQwm, .reg .gthCrc] ps = true) :
    State.Only ps z (State.writeFrame s fa data) := by
  refine hO.step ?_ hM
  unfold State.writeFrame
  repeat' first
    | with_reducible first | assumption | exact State.Only.refl _ _ | apply writeRow_only | apply writePress_only | apply writeAccess_only | apply writeStore_only | apply writeCtl_only | apply writePad_only | apply writeXplan_only | apply writeRelay_only | apply writeImem_only | apply writeDmem_only
    | (show sub _ _ = true; decide)
    | (extract_lets +onlyGivenNames y; with_reducible refine State.Only.cut y ?_ ?_ <;> [dsimp only [y]; (clear_value y; intro hy)])
    | (extract_lets +onlyGivenNames y; clear_value y)
    | split
    | with_reducible first | refine State.Only.snd (by assumption) ?_ | refine State.Only.snd2 (by assumption) ?_ | refine State.Only.snd3 (by assumption) ?_

end Sys2Proof.Machine
end

