-- ==== Sys2Proof/Laws/FrameLoad.lean ====
section
/-!
SUPPORT. The frames of the operations of the loader, of holds and bookmarks, of the meter and of trust. Each says which parts of the state an operation may change.
-/
namespace Sys2Proof.Machine

variable {ps : List Part} {z s : State}

/-! ### Loader -/

theorem putFlash_only (a : Nat) (bs : List Byte) (hO : State.Only ps z s) (hM : sub [.flash] ps = true) :
    State.Only ps z (State.putFlash s a bs) := by
  refine hO.step ?_ hM
  unfold State.putFlash
  repeat' first
    | with_reducible first | assumption | exact State.Only.refl _ _ | apply State.Only.foldl_ | apply State.Only.foldl2 | apply State.Only.foldl3
    | (show sub _ _ = true; decide)
    | (intro _ _ hx)
    | with_reducible refine only_onSys ?_ _ (fun p hp x => by cases p <;> first | exact absurd (by decide) hp | simp [Part.same, State.reg, State.onSys])

theorem eraseFlash_only (a n : Nat) (hO : State.Only ps z s) (hM : sub [.flash] ps = true) :
    State.Only ps z (State.eraseFlash s a n) := by
  refine hO.step ?_ hM
  unfold State.eraseFlash
  repeat' first
    | with_reducible first | assumption | exact State.Only.refl _ _
    | (show sub _ _ = true; decide)
    | with_reducible refine only_onSys ?_ _ (fun p hp x => by cases p <;> first | exact absurd (by decide) hp | simp [Part.same, State.reg, State.onSys])

theorem packedBytes_only (fn sec off n : Nat) (hO : State.Only ps z s) (hM : sub [.log, .collator, .dram, .reg .colEv, .reg .memChStat, .reg .logCtl] ps = true) :
    State.Only ps z (State.packedBytes s fn sec off n).2 := by
  refine hO.step ?_ hM
  unfold State.packedBytes
  repeat' first
    | with_reducible first | assumption | exact State.Only.refl _ _ | apply readSector_only | apply State.Only.ite_ | apply State.Only.ite2 | apply State.Only.foldl_ | apply State.Only.foldl2 | apply State.Only.foldl3
    | (show sub _ _ = true; decide)
    | (intro _ _ hx)
    | (extract_lets +onlyGivenNames y; with_reducible refine State.Only.cut y ?_ ?_ <;> [dsimp only [y]; (clear_value y; intro hy)])
    | (extract_lets +onlyGivenNames y; clear_value y)
    | split
    | with_reducible refine State.Only.snd (by assumption) ?_

theorem fetch_ok_only {ps : List Part} {z s t : State} {bs : List Byte} (j : LoadJob) (off n : Nat) (he : s.fetch j off n = .ok bs t)
 (hO : State.Only ps z s) (hM : sub [.log, .collator, .dram, .reg .colEv, .reg .memChStat, .reg .logCtl] ps = true) :
    State.Only ps z t := by
  unfold State.fetch at he
  repeat' split at he
  all_goals first
    | (simp at he; done)
    | (cases he; exact hO)
    | (cases he; refine State.Only.snd (by assumption) ?_; exact packedBytes_only _ _ _ _ hO hM)

theorem fetch_bad_only {ps : List Part} {z s t : State} (j : LoadJob) (off n : Nat) (he : s.fetch j off n = .bad t)
 (hO : State.Only ps z s) (hM : sub [.log, .collator, .dram, .reg .colEv, .reg .memChStat, .reg .logCtl] ps = true) :
    State.Only ps z t := by
  unfold State.fetch at he
  repeat' split at he
  all_goals first
    | (simp at he; done)
    | (cases he; exact hO)
    | (cases he; refine State.Only.snd (by assumption) ?_; exact packedBytes_only _ _ _ _ hO hM)

theorem consume_only (j : LoadJob) (n : Nat) (hO : State.Only ps z s) (hM : sub [.loader] ps = true) :
    State.Only ps z (State.consume s j n) := by
  refine hO.step ?_ hM
  unfold State.consume
  repeat' first
    | with_reducible first | assumption | exact State.Only.refl _ _ | apply State.Only.ite_
    | (show sub _ _ = true; decide)
    | split
    | with_reducible refine only_onSys ?_ _ (fun p hp x => by cases p <;> first | exact absurd (by decide) hp | simp [Part.same, State.reg, State.onSys])

theorem arrive_only (j : LoadJob) (bytes : List Byte) (hO : State.Only ps z s) (hM : sub [.loader] ps = true) :
    State.Only ps z (State.arrive s j bytes) := by
  refine hO.step ?_ hM
  unfold State.arrive
  repeat' first
    | with_reducible first | assumption | exact State.Only.refl _ _ | apply State.Only.ite_
    | (show sub _ _ = true; decide)
    | split
    | with_reducible refine only_onSys ?_ _ (fun p hp x => by cases p <;> first | exact absurd (by decide) hp | simp [Part.same, State.reg, State.onSys])

theorem hashZero_only (r : Nat) (hO : State.Only ps z s) (hM : sub [.reg .bndHash] ps = true) :
    State.Only ps z (hashZero s r) := by
  refine hO.step ?_ hM
  unfold hashZero
  repeat' first
    | with_reducible first | assumption | exact State.Only.refl _ _ | apply only_setReg | apply State.Only.foldl_ | apply State.Only.foldl2 | apply State.Only.foldl3
    | (show sub _ _ = true; decide)
    | (intro _ _ hx)

theorem failCtx_only (x fn : Nat) (boot : Bool) (code fa : Nat) (hO : State.Only ps z s) (hM : sub [.outs, .log, .collator, .reg .hubMsixPba, .reg .colEv, .reg .bndStat, .reg .logCtl] ps = true) :
    State.Only ps z (State.failCtx s x fn boot code fa) := by
  refine hO.step ?_ hM
  unfold State.failCtx
  repeat' first
    | with_reducible first | assumption | exact State.Only.refl _ _ | apply only_setF | apply only_putN | apply logEntry_only | apply signalOwner_only | apply State.Only.ite_
    | (show sub _ _ = true; decide)

theorem abortRegion_only (d : BitVec 512) (hO : State.Only ps z s) (hM : sub [.pads, .reg .bndHash] ps = true) :
    State.Only ps z (State.abortRegion s d) := by
  refine hO.step ?_ hM
  unfold State.abortRegion
  repeat' first
    | with_reducible first | assumption | exact State.Only.refl _ _ | apply updPad_only | apply hashZero_only | apply State.Only.ite_ | apply State.Only.foldl_ | apply State.Only.foldl2 | apply State.Only.foldl3
    | (show sub _ _ = true; decide)
    | (intro _ _ hx)

theorem abortRegions_only (j : LoadJob) (v : Serving) (hO : State.Only ps z s) (hM : sub [.pads, .reg .bndHash] ps = true) :
    State.Only ps z (State.abortRegions s j v) := by
  refine hO.step ?_ hM
  unfold State.abortRegions
  repeat' first
    | with_reducible first | assumption | exact State.Only.refl _ _ | apply abortRegion_only | apply State.Only.ite_ | apply State.Only.foldl_ | apply State.Only.foldl2 | apply State.Only.foldl3
    | (show sub _ _ = true; decide)
    | (intro _ _ hx)

theorem failLoad_only (code : Nat) (hO : State.Only ps z s) (hM : sub [.outs, .log, .collator, .pads, .loader, .reg .hubMsixPba, .reg .colEv, .reg .bndStat, .reg .bndHash, .reg .logCtl] ps = true) :
    State.Only ps z (State.failLoad s code) := by
  refine hO.step ?_ hM
  unfold State.failLoad
  repeat' first
    | with_reducible first | assumption | exact State.Only.refl _ _ | apply abortRegions_only | apply failCtx_only
    | (show sub _ _ = true; decide)
    | (extract_lets +onlyGivenNames y; with_reducible refine State.Only.cut y ?_ ?_ <;> [dsimp only [y]; (clear_value y; intro hy)])
    | (extract_lets +onlyGivenNames y; clear_value y)
    | split
    | with_reducible first | refine State.Only.snd (by assumption) ?_ | refine State.Only.snd2 (by assumption) ?_ | refine State.Only.snd3 (by assumption) ?_
    | with_reducible refine only_onSys ?_ _ (fun p hp x => by cases p <;> first | exact absurd (by decide) hp | simp [Part.same, State.reg, State.onSys])

theorem beginLoading_only (j : LoadJob) (bs : List Byte) (hO : State.Only ps z s) (hM : sub [.loader, .reg .bndStat] ps = true) :
    State.Only ps z (State.beginLoading s j bs) := by
  refine hO.step ?_ hM
  unfold State.beginLoading
  repeat' first
    | with_reducible first | assumption | exact State.Only.refl _ _ | apply consume_only | apply only_putN
    | (show sub _ _ = true; decide)
    | (extract_lets +onlyGivenNames y; with_reducible refine State.Only.cut y ?_ ?_ <;> [dsimp only [y]; (clear_value y; intro hy)])
    | (extract_lets +onlyGivenNames y; clear_value y)
    | with_reducible refine only_onSys ?_ _ (fun p hp x => by cases p <;> first | exact absurd (by decide) hp | simp [Part.same, State.reg, State.onSys])

theorem checkImage_only (j : LoadJob) (hO : State.Only ps z s) (hM : sub [.outs, .log, .collator, .dram, .pads, .loader, .reg .hubMsixPba, .reg .colEv, .reg .memChStat, .reg .bndStat, .reg .bndHash, .reg .logCtl] ps = true) :
    State.Only ps z (State.checkImage s j) := by
  refine hO.step ?_ hM
  unfold State.checkImage
  repeat' first
    | with_reducible first | assumption | exact State.Only.refl _ _ | apply failLoad_only | apply beginLoading_only | apply State.Only.ite_
    | (show sub _ _ = true; decide)
    | split
    | (refine fetch_ok_only _ _ _ (by assumption) ?_ ?_)
    | (refine fetch_bad_only _ _ _ (by assumption) ?_ ?_)
    | with_reducible first | refine State.Only.snd (by assumption) ?_ | refine State.Only.snd2 (by assumption) ?_ | refine State.Only.snd3 (by assumption) ?_

theorem endServing_only (hO : State.Only ps z s) (hM : sub [.loader] ps = true) :
    State.Only ps z (State.endServing s) := by
  refine hO.step ?_ hM
  unfold State.endServing
  repeat' first
    | with_reducible first | assumption | exact State.Only.refl _ _
    | (show sub _ _ = true; decide)
    | with_reducible refine only_onSys ?_ _ (fun p hp x => by cases p <;> first | exact absurd (by decide) hp | simp [Part.same, State.reg, State.onSys])

theorem nextJob_only (hO : State.Only ps z s) (hM : sub [.loader, .reg .bndStat] ps = true) :
    State.Only ps z (State.nextJob s) := by
  refine hO.step ?_ hM
  unfold State.nextJob
  repeat' first
    | with_reducible first | assumption | exact State.Only.refl _ _ | apply only_putN
    | (show sub _ _ = true; decide)
    | split
    | with_reducible first | refine State.Only.snd (by assumption) ?_ | refine State.Only.snd2 (by assumption) ?_ | refine State.Only.snd3 (by assumption) ?_
    | with_reducible refine only_onSys ?_ _ (fun p hp x => by cases p <;> first | exact absurd (by decide) hp | simp [Part.same, State.reg, State.onSys])

theorem failFlash_only (code : Nat) (hO : State.Only ps z s) (hM : sub [.outs, .log, .collator, .loader, .reg .hubMsixPba, .reg .colEv, .reg .bndStat, .reg .logCtl] ps = true) :
    State.Only ps z (State.failFlash s code) := by
  refine hO.step ?_ hM
  unfold State.failFlash
  repeat' first
    | with_reducible first | assumption | exact State.Only.refl _ _ | apply failCtx_only
    | (show sub _ _ = true; decide)
    | split
    | with_reducible first | refine State.Only.snd (by assumption) ?_ | refine State.Only.snd2 (by assumption) ?_ | refine State.Only.snd3 (by assumption) ?_
    | with_reducible refine only_onSys ?_ _ (fun p hp x => by cases p <;> first | exact absurd (by decide) hp | simp [Part.same, State.reg, State.onSys])

theorem flashImage_only (j : LoadJob) (bytes : List Byte) (hO : State.Only ps z s) (hM : sub [.log, .collator, .dram, .reg .colEv, .reg .memChStat, .reg .logCtl] ps = true) :
    State.Only ps z (State.flashImage s j bytes).2 := by
  refine hO.step ?_ hM
  unfold State.flashImage
  repeat' first
    | with_reducible first | assumption | exact State.Only.refl _ _ | apply packedBytes_only | apply State.Only.ite_ | apply State.Only.ite2
    | (show sub _ _ = true; decide)

theorem eraseImage_only (slot : Nat) (hO : State.Only ps z s) (hM : sub [.flash] ps = true) :
    State.Only ps z (State.eraseImage s slot) := by
  refine hO.step ?_ hM
  unfold State.eraseImage
  repeat' first
    | with_reducible first | assumption | exact State.Only.refl _ _ | apply eraseFlash_only
    | (show sub _ _ = true; decide)

theorem setFlashJob_only (j : FlashJob) (hO : State.Only ps z s) (hM : sub [.loader] ps = true) :
    State.Only ps z (State.setFlashJob s j) := by
  refine hO.step ?_ hM
  unfold State.setFlashJob
  repeat' first
    | with_reducible first | assumption | exact State.Only.refl _ _
    | (show sub _ _ = true; decide)
    | with_reducible refine only_onSys ?_ _ (fun p hp x => by cases p <;> first | exact absurd (by decide) hp | simp [Part.same, State.reg, State.onSys])

theorem startFlash_only (j : LoadJob) (bytes : List Byte) (hO : State.Only ps z s) (hM : sub [.outs, .log, .collator, .dram, .flash, .loader, .reg .hubMsixPba, .reg .colEv, .reg .memChStat, .reg .bndStat, .reg .logCtl] ps = true) :
    State.Only ps z (State.startFlash s j bytes) := by
  refine hO.step ?_ hM
  have h1 : State.Only [.outs, .log, .collator, .dram, .flash, .loader, .reg .hubMsixPba, .reg .colEv, .reg .memChStat, .reg .bndStat, .reg .logCtl] s ((s.putN F.bndStat_state 17 3).eraseFlash (commitAt j.slot) 4096) :=
    eraseFlash_only _ _ (only_putN (.refl _ _) _ _ _ (by decide)) (by decide)
  unfold State.startFlash
  extract_lets +onlyGivenNames y0 y
  change State.Only [.outs, .log, .collator, .dram, .flash, .loader, .reg .hubMsixPba, .reg .colEv, .reg .memChStat, .reg .bndStat, .reg .logCtl] s y at h1
  clear_value y
  have h2 := flashImage_only j bytes h1 (by decide)
  rcases he : y.flashImage j bytes with ⟨img, w⟩
  rw [he] at h2
  have h3 := setFlashJob_only { slot := j.slot, image := img.getD [], fn := j.fn } (eraseImage_only j.slot h2 (by decide)) (by decide)
  dsimp only at h3 ⊢
  cases img with
  | none => exact failFlash_only _ h3 (by decide)
  | some b =>
    exact .ite_ (failFlash_only _ h3 (by decide)) (.ite_ (failFlash_only _ h3 (by decide)) (putFlash_only _ _ h3 (by decide)))

theorem serviceStart_only (bytes : List Byte) (hO : State.Only ps z s) (hM : sub [.outs, .log, .collator, .dram, .pads, .flash, .loader, .reg .hubMsixPba, .reg .colEv, .reg .memChStat, .reg .bndStat, .reg .bndHash, .reg .logCtl] ps = true) :
    State.Only ps z (State.serviceStart s bytes) := by
  refine hO.step ?_ hM
  unfold State.serviceStart
  repeat' first
    | with_reducible first | assumption | exact State.Only.refl _ _ | apply nextJob_only | apply startFlash_only | apply endServing_only | apply checkImage_only | apply arrive_only | apply State.Only.ite_
    | (show sub _ _ = true; decide)
    | (extract_lets +onlyGivenNames y; with_reducible refine State.Only.cut y ?_ ?_ <;> [dsimp only [y]; (clear_value y; intro hy)])
    | (extract_lets +onlyGivenNames y; clear_value y)
    | split
    | with_reducible first | refine State.Only.snd (by assumption) ?_ | refine State.Only.snd2 (by assumption) ?_ | refine State.Only.snd3 (by assumption) ?_

theorem execLoadServiceStart_only (s : State) (bytes : List Byte) : OnlyR [.outs, .log, .collator, .dram, .pads, .flash, .loader, .reg .hubMsixPba, .reg .colEv, .reg .memChStat, .reg .bndStat, .reg .bndHash, .reg .logCtl] s (execLoadServiceStart bytes s) := by
  unfold execLoadServiceStart
  repeat' first
    | with_reducible first | assumption | exact State.Only.refl _ _ | apply OnlyR.next | apply serviceStart_only
    | (show sub _ _ = true; decide)

theorem keepLevels_only (d : BitVec 512) (hO : State.Only ps z s) (hM : sub [.free, .pads] ps = true) :
    State.Only ps z (State.keepLevels s d) := by
  refine hO.step ?_ hM
  unfold State.keepLevels
  repeat' first
    | with_reducible first | assumption | exact State.Only.refl _ _ | apply draw_only | apply updPad_only | apply State.Only.ite_ | apply State.Only.ite2 | apply State.Only.foldl_ | apply State.Only.foldl2 | apply State.Only.foldl3
    | (show sub _ _ = true; decide)
    | (intro _ _ hx)
    | with_reducible first | refine State.Only.snd (by assumption) ?_ | refine State.Only.snd2 (by assumption) ?_ | refine State.Only.snd3 (by assumption) ?_

theorem handPads_only (old new : BitVec 512) (hO : State.Only ps z s) (hM : sub [.pads] ps = true) :
    State.Only ps z (State.handPads s old new) := by
  refine hO.step ?_ hM
  unfold State.handPads
  repeat' first
    | with_reducible first | assumption | exact State.Only.refl _ _ | apply updPad_only | apply State.Only.ite_ | apply State.Only.foldl_ | apply State.Only.foldl2 | apply State.Only.foldl3
    | (show sub _ _ = true; decide)
    | (intro _ _ hx)

theorem clearGths_only (r : Nat) (d : BitVec 512) (hO : State.Only ps z s) (hM : sub [.cells, .gatherings, .reg .gthCfg, .reg .gthDchk] ps = true) :
    State.Only ps z (State.clearGths s r d) := by
  refine hO.step ?_ hM
  unfold State.clearGths
  repeat' first
    | with_reducible first | assumption | exact State.Only.refl _ _ | apply only_setReg | apply only_clrF | apply State.Only.ite_ | apply State.Only.foldl_ | apply State.Only.foldl2 | apply State.Only.foldl3
    | (show sub _ _ = true; decide)
    | (intro _ _ hx)
    | (extract_lets +onlyGivenNames y; with_reducible refine State.Only.cut y ?_ ?_ <;> [dsimp only [y]; (clear_value y; intro hy)])
    | (extract_lets +onlyGivenNames y; clear_value y)
    | split
    | with_reducible refine only_onArr ?_ _ (fun p hp x => by cases p <;> first | exact absurd (by decide) hp | simp [Part.same, State.reg, State.onArr])

theorem startRegion_only (d : BitVec 512) (anchor : Nat) (hO : State.Only ps z s) (hM : sub [.free, .cells, .gatherings, .regions, .relay, .fuist, .collator, .pads, .bookmarks, .reg .colEv, .reg .colStrStat, .reg .bndStat, .reg .bndCase, .reg .bndHash, .reg .qctCommitted, .reg .qctExec, .reg .qctStatus, .reg .qctHold, .reg .qctRbStat, .reg .qctBmkStat, .reg .qctBmkValid, .reg .fstBound, .reg .padBank, .reg .gthCfg, .reg .gthDchk] ps = true) :
    State.Only ps z (State.startRegion s d anchor) := by
  refine hO.step ?_ hM
  unfold State.startRegion
  repeat' first
    | with_reducible first | assumption | exact State.Only.refl _ _ | apply keepLevels_only | apply unbind_only | apply handPads_only | apply updRegion_only | apply hashZero_only | apply clearGths_only | apply only_putN | apply dropBanks_only | apply setBank_only | apply State.Only.ite_ | apply State.Only.foldl_ | apply State.Only.foldl2 | apply State.Only.foldl3
    | (show sub _ _ = true; decide)
    | (intro _ _ hx)
    | (extract_lets +onlyGivenNames y; with_reducible refine State.Only.cut y ?_ ?_ <;> [dsimp only [y]; (clear_value y; intro hy)])
    | (extract_lets +onlyGivenNames y; clear_value y)
    | split
    | with_reducible refine only_onArr ?_ _ (fun p hp x => by cases p <;> first | exact absurd (by decide) hp | simp [Part.same, State.reg, State.onArr])
    | with_reducible apply only_fst

theorem writeCaps_only (d : BitVec 512) (hO : State.Only ps z s) (hM : sub [.reg .gthCfg] ps = true) :
    State.Only ps z (State.writeCaps s d) := by
  refine hO.step ?_ hM
  unfold State.writeCaps
  repeat' first
    | with_reducible first | assumption | exact State.Only.refl _ _ | apply only_putN | apply State.Only.foldl_ | apply State.Only.foldl2 | apply State.Only.foldl3
    | (show sub _ _ = true; decide)
    | (intro _ _ hx)

theorem completionCode_only (d : BitVec 512) (hO : State.Only ps z s) (hM : sub [.log, .collator, .reg .colEv, .reg .fstTiming, .reg .logCtl, .reg .gthCfg] ps = true) :
    State.Only ps z (State.completionCode s d).2 := by
  refine hO.step ?_ hM
  unfold State.completionCode
  repeat' first
    | with_reducible first | assumption | exact State.Only.refl _ _ | apply writeCaps_only | apply logOther_only | apply setTiming_only | apply State.Only.ite_ | apply State.Only.ite2
    | (show sub _ _ = true; decide)
    | (extract_lets +onlyGivenNames y; with_reducible refine State.Only.cut y ?_ ?_ <;> [dsimp only [y]; (clear_value y; intro hy)])
    | (extract_lets +onlyGivenNames y; clear_value y)
    | split
    | with_reducible first | refine State.Only.snd (by assumption) ?_ | refine State.Only.snd2 (by assumption) ?_ | refine State.Only.snd3 (by assumption) ?_

theorem dropMoved_only (d : BitVec 512) (hO : State.Only ps z s) (hM : sub [.upkeep] ps = true) :
    State.Only ps z (State.dropMoved s d) := by
  refine hO.step ?_ hM
  unfold State.dropMoved
  repeat' first
    | with_reducible first | assumption | exact State.Only.refl _ _
    | (show sub _ _ = true; decide)
    | with_reducible refine only_onSys ?_ _ (fun p hp x => by cases p <;> first | exact absurd (by decide) hp | simp [Part.same, State.reg, State.onSys])

theorem configure_only (x : RegionDesc) (hash : List Byte) (hO : State.Only ps z s) (hM : sub [.gatherings, .upkeep, .reg .bndHash, .reg .qctCfg, .reg .qctBmkStat, .reg .qctCadPat, .reg .qctCadLen, .reg .gthCfg] ps = true) :
    State.Only ps z (State.configure s x hash) := by
  refine hO.step ?_ hM
  unfold State.configure
  repeat' first
    | with_reducible first | assumption | exact State.Only.refl _ _ | apply only_putN | apply only_setReg | apply only_clrF | apply updGth_only | apply dropMoved_only | apply State.Only.foldl_ | apply State.Only.foldl2 | apply State.Only.foldl3
    | (show sub _ _ = true; decide)
    | (intro _ _ hx)

theorem loaded_only (x : Nat) (hO : State.Only ps z s) (hM : sub [.reg .bndStat] ps = true) :
    State.Only ps z (State.loaded s x) := by
  refine hO.step ?_ hM
  unfold State.loaded
  repeat' first
    | with_reducible first | assumption | exact State.Only.refl _ _ | apply only_setF | apply only_putN
    | (show sub _ _ = true; decide)

theorem regionLoaded_only (d : BitVec 512) (autocase : Bool) (hO : State.Only ps z s) (hM : sub [.free, .gatherings, .regions, .fuist, .collator, .reg .colEv, .reg .bndStat, .reg .bndCase, .reg .qctCommitted, .reg .qctExec, .reg .qctStatus, .reg .fstBound] ps = true) :
    State.Only ps z (State.regionLoaded s d autocase) := by
  refine hO.step ?_ hM
  unfold State.regionLoaded
  repeat' first
    | with_reducible first | assumption | exact State.Only.refl _ _ | apply loaded_only | apply beginCasing_only | apply State.Only.ite_
    | (show sub _ _ = true; decide)

theorem markLoaded_only (c : Nat) (hash : List Byte) (hO : State.Only ps z s) (hM : sub [.loader] ps = true) :
    State.Only ps z (State.markLoaded s c hash) := by
  refine hO.step ?_ hM
  unfold State.markLoaded
  repeat' first
    | with_reducible first | assumption | exact State.Only.refl _ _
    | (show sub _ _ = true; decide)
    | with_reducible refine only_onSys ?_ _ (fun p hp x => by cases p <;> first | exact absurd (by decide) hp | simp [Part.same, State.reg, State.onSys])

theorem releaseCores_only (v : Serving) (hO : State.Only ps z s) (hM : sub [.cores, .loader, .reg .awlCtl, .reg .awlStat] ps = true) :
    State.Only ps z (State.releaseCores s v) := by
  refine hO.step ?_ hM
  unfold State.releaseCores
  repeat' first
    | with_reducible first | assumption | exact State.Only.refl _ _ | apply only_clrF | apply markLoaded_only | apply setCore_only | apply State.Only.foldl_ | apply State.Only.foldl2 | apply State.Only.foldl3
    | (show sub _ _ = true; decide)
    | (intro _ _ hx)

theorem sectorWords_only (sec n : Nat) (hO : State.Only ps z s) (hM : sub [.log, .collator, .dram, .reg .colEv, .reg .memChStat, .reg .logCtl] ps = true) :
    State.Only ps z (State.sectorWords s sec n).2 := by
  refine hO.step ?_ hM
  unfold State.sectorWords
  repeat' first
    | with_reducible first | assumption | exact State.Only.refl _ _ | apply readSector_only | apply State.Only.foldl_ | apply State.Only.foldl2 | apply State.Only.foldl3
    | (show sub _ _ = true; decide)
    | (intro _ _ hx)
    | split
    | with_reducible refine State.Only.snd (by assumption) ?_

theorem takeBack_only (r g sec : Nat) (hO : State.Only ps z s) (hM : sub [.log, .cells, .gatherings, .collator, .dram, .reg .colEv, .reg .memChStat, .reg .qctBmkStat, .reg .logCtl] ps = true) :
    State.Only ps z (State.takeBack s r g sec) := by
  refine hO.step ?_ hM
  unfold State.takeBack
  repeat' first
    | with_reducible first | assumption | exact State.Only.refl _ _ | apply sectorWords_only | apply only_setF | apply loadFolio_only | apply loadState_only | apply updGth_only
    | (show sub _ _ = true; decide)
    | (extract_lets +onlyGivenNames y; with_reducible refine State.Only.cut y ?_ ?_ <;> [dsimp only [y]; (clear_value y; intro hy)])
    | (extract_lets +onlyGivenNames y; clear_value y)
    | split
    | with_reducible refine State.Only.snd (by assumption) ?_

theorem moveBack_only (r g : Nat) (hO : State.Only ps z s) (hM : sub [.log, .cells, .gatherings, .collator, .dram, .upkeep, .reg .colEv, .reg .memChStat, .reg .qctBmkStat, .reg .logCtl, .reg .upkColrep] ps = true) :
    State.Only ps z (State.moveBack s r g) := by
  refine hO.step ?_ hM
  unfold State.moveBack
  repeat' first
    | with_reducible first | assumption | exact State.Only.refl _ _ | apply takeBack_only | apply only_putN | apply raise_only | apply State.Only.ite_
    | (show sub _ _ = true; decide)
    | (extract_lets +onlyGivenNames y; with_reducible refine State.Only.cut y ?_ ?_ <;> [dsimp only [y]; (clear_value y; intro hy)])
    | (extract_lets +onlyGivenNames y; clear_value y)
    | split
    | with_reducible first | refine State.Only.snd (by assumption) ?_ | refine State.Only.snd2 (by assumption) ?_ | refine State.Only.snd3 (by assumption) ?_
    | with_reducible refine only_onSys ?_ _ (fun p hp x => by cases p <;> first | exact absurd (by decide) hp | simp [Part.same, State.reg, State.onSys])

theorem repaired_only (v : Serving) (r g : Nat) (hO : State.Only ps z s) (hM : sub [.log, .cells, .gatherings, .collator, .dram, .upkeep, .reg .colEv, .reg .memChStat, .reg .qctBmkStat, .reg .logCtl, .reg .upkColrep, .reg .gthCfg] ps = true) :
    State.Only ps z (State.repaired s v r g) := by
  refine hO.step ?_ hM
  unfold State.repaired
  repeat' first
    | with_reducible first | assumption | exact State.Only.refl _ _ | apply writePress_only | apply writeAccess_only | apply only_putN | apply only_clrF | apply moveBack_only | apply State.Only.ite_
    | (show sub _ _ = true; decide)

theorem repairDone_only (v : Serving) (r : Nat) (hO : State.Only ps z s) (hM : sub [.log, .cells, .gatherings, .collator, .dram, .upkeep, .reg .colEv, .reg .memChStat, .reg .bndStat, .reg .qctBmkStat, .reg .logCtl, .reg .upkColrep, .reg .gthCfg] ps = true) :
    State.Only ps z (State.repairDone s v r) := by
  refine hO.step ?_ hM
  unfold State.repairDone
  repeat' first
    | with_reducible first | assumption | exact State.Only.refl _ _ | apply repaired_only | apply only_setF | apply only_putN | apply State.Only.foldl_ | apply State.Only.foldl2 | apply State.Only.foldl3
    | (show sub _ _ = true; decide)
    | (intro _ _ hx)

theorem completeLoad_only (j : LoadJob) (v : Serving) (hO : State.Only ps z s) (hM : sub (more [.free, .outs, .log, .cells, .gatherings, .regions, .fuist, .collator, .cores, .dram, .pads, .loader, .upkeep, .reg .hubMsixPba, .reg .colEv, .reg .memChStat, .reg .bndStat, .reg .bndCase, .reg .bndHash, .reg .qctCfg, .reg .qctCommitted, .reg .qctExec, .reg .qctStatus, .reg .qctBmkStat, .reg .qctCadPat, .reg .qctCadLen, .reg .fstTiming, .reg .fstBound] [.reg .logCtl, .reg .upkColrep, .reg .awlCtl, .reg .awlStat, .reg .gthCfg]) ps = true) :
    State.Only ps z (State.completeLoad s j v) := by
  refine hO.step ?_ hM
  unfold State.completeLoad
  repeat' first
    | with_reducible first | assumption | exact State.Only.refl _ _ | apply repairDone_only | apply endServing_only | apply completionCode_only | apply failLoad_only | apply configure_only | apply releaseCores_only | apply loaded_only | apply regionLoaded_only | apply State.Only.ite_ | apply State.Only.ite2 | apply State.Only.foldl_ | apply State.Only.foldl2 | apply State.Only.foldl3
    | (show sub _ _ = true; decide)
    | (intro _ _ hx)
    | with_reducible first | refine State.Only.snd (by assumption) ?_ | refine State.Only.snd2 (by assumption) ?_ | refine State.Only.snd3 (by assumption) ?_

theorem advance_only (j : LoadJob) (v : Serving) (e : ManifestEntry) (wrote : Bool) (hO : State.Only ps z s) (hM : sub (more [.free, .outs, .log, .cells, .gatherings, .regions, .fuist, .collator, .cores, .dram, .pads, .loader, .upkeep, .reg .hubMsixPba, .reg .colEv, .reg .memChStat, .reg .bndStat, .reg .bndCase, .reg .bndHash, .reg .qctCfg, .reg .qctCommitted, .reg .qctExec, .reg .qctStatus, .reg .qctBmkStat, .reg .qctCadPat, .reg .qctCadLen, .reg .fstTiming, .reg .fstBound] [.reg .logCtl, .reg .upkColrep, .reg .awlCtl, .reg .awlStat, .reg .gthCfg]) ps = true) :
    State.Only ps z (State.advance s j v e wrote) := by
  refine hO.step ?_ hM
  unfold State.advance
  repeat' first
    | with_reducible first | assumption | exact State.Only.refl _ _ | apply only_addF | apply completeLoad_only | apply State.Only.ite_
    | (show sub _ _ = true; decide)
    | (extract_lets +onlyGivenNames y; with_reducible refine State.Only.cut y ?_ ?_ <;> [dsimp only [y]; (clear_value y; intro hy)])
    | (extract_lets +onlyGivenNames y; clear_value y)
    | split
    | with_reducible refine only_onSys ?_ _ (fun p hp x => by cases p <;> first | exact absurd (by decide) hp | simp [Part.same, State.reg, State.onSys])

theorem acceptFrame_only (j : LoadJob) (v : Serving) (e : ManifestEntry) (rec : List Byte) (hO : State.Only ps z s) (hM : sub (more [.free, .outs, .log, .cells, .gatherings, .regions, .relay, .fuist, .collator, .cores, .dram, .pads, .loader, .bookmarks, .upkeep, .reg .hubMsixPba, .reg .colEv, .reg .colStrStat, .reg .memChStat, .reg .bndStat, .reg .bndCase, .reg .bndHash, .reg .qctCfg, .reg .qctCommitted, .reg .qctExec, .reg .qctStatus, .reg .qctHold, .reg .qctRbStat] [.reg .qctBmkStat, .reg .qctBmkValid, .reg .qctCadPat, .reg .qctCadLen, .reg .fstTiming, .reg .fstBound, .reg .logCtl, .reg .upkColrep, .reg .padBank, .reg .awlCtl, .reg .awlStat, .reg .gthCfg, .reg .gthDchk, .reg .gthQdesc, .reg .gthQwm, .reg .gthCrc]) ps = true) :
    State.Only ps z (State.acceptFrame s j v e rec) := by
  refine hO.step ?_ hM
  unfold State.acceptFrame
  repeat' first
    | with_reducible first | assumption | exact State.Only.refl _ _ | apply consume_only | apply advance_only | apply writeFrame_only | apply startRegion_only | apply State.Only.ite_ | apply State.Only.foldl_ | apply State.Only.foldl2 | apply State.Only.foldl3
    | (show sub _ _ = true; decide)
    | (intro _ _ hx)

theorem frameRecord_only (bytes : List Byte) (hO : State.Only ps z s) (hM : sub (more [.free, .outs, .log, .cells, .gatherings, .regions, .relay, .fuist, .collator, .cores, .dram, .pads, .loader, .bookmarks, .upkeep, .reg .hubMsixPba, .reg .colEv, .reg .colStrStat, .reg .memChStat, .reg .bndStat, .reg .bndCase, .reg .bndHash, .reg .qctCfg, .reg .qctCommitted, .reg .qctExec, .reg .qctStatus, .reg .qctHold, .reg .qctRbStat] [.reg .qctBmkStat, .reg .qctBmkValid, .reg .qctCadPat, .reg .qctCadLen, .reg .fstTiming, .reg .fstBound, .reg .logCtl, .reg .upkColrep, .reg .padBank, .reg .awlCtl, .reg .awlStat, .reg .gthCfg, .reg .gthDchk, .reg .gthQdesc, .reg .gthQwm, .reg .gthCrc]) ps = true) :
    State.Only ps z (State.frameRecord s bytes) := by
  refine hO.step ?_ hM
  unfold State.frameRecord
  repeat' first
    | with_reducible first | assumption | exact State.Only.refl _ _ | apply arrive_only | apply failLoad_only | apply acceptFrame_only | apply State.Only.ite_
    | (show sub _ _ = true; decide)
    | (extract_lets +onlyGivenNames y; with_reducible refine State.Only.cut y ?_ ?_ <;> [dsimp only [y]; (clear_value y; intro hy)])
    | (extract_lets +onlyGivenNames y; clear_value y)
    | split
    | (refine fetch_ok_only _ _ _ (by assumption) ?_ ?_)
    | (refine fetch_bad_only _ _ _ (by assumption) ?_ ?_)
    | with_reducible first | refine State.Only.snd (by assumption) ?_ | refine State.Only.snd2 (by assumption) ?_ | refine State.Only.snd3 (by assumption) ?_

theorem execFrameRecord_only (s : State) (bytes : List Byte) : OnlyR (more [.free, .outs, .log, .cells, .gatherings, .regions, .relay, .fuist, .collator, .cores, .dram, .pads, .loader, .bookmarks, .upkeep, .reg .hubMsixPba, .reg .colEv, .reg .colStrStat, .reg .memChStat, .reg .bndStat, .reg .bndCase, .reg .bndHash, .reg .qctCfg, .reg .qctCommitted, .reg .qctExec, .reg .qctStatus, .reg .qctHold, .reg .qctRbStat] [.reg .qctBmkStat, .reg .qctBmkValid, .reg .qctCadPat, .reg .qctCadLen, .reg .fstTiming, .reg .fstBound, .reg .logCtl, .reg .upkColrep, .reg .padBank, .reg .awlCtl, .reg .awlStat, .reg .gthCfg, .reg .gthDchk, .reg .gthQdesc, .reg .gthQwm, .reg .gthCrc]) s (execFrameRecord bytes s) := by
  unfold execFrameRecord
  repeat' first
    | with_reducible first | assumption | exact State.Only.refl _ _ | apply OnlyR.next | apply frameRecord_only
    | (show sub _ _ = true; decide)

theorem execLoadStallTimeout_only (s : State)  : OnlyR [.outs, .log, .collator, .pads, .loader, .reg .hubMsixPba, .reg .colEv, .reg .bndStat, .reg .bndHash, .reg .logCtl] s (execLoadStallTimeout s) := by
  unfold execLoadStallTimeout
  repeat' first
    | with_reducible first | assumption | exact State.Only.refl _ _ | apply OnlyR.next | apply failLoad_only
    | (show sub _ _ = true; decide)

theorem execLoadSourceError_only (s : State) (short : Bool) : OnlyR [.outs, .log, .collator, .pads, .loader, .reg .hubMsixPba, .reg .colEv, .reg .bndStat, .reg .bndHash, .reg .logCtl] s (execLoadSourceError short s) := by
  unfold execLoadSourceError
  repeat' first
    | with_reducible first | assumption | exact State.Only.refl _ _ | apply OnlyR.next | apply failLoad_only | apply State.Only.ite_ | apply OnlyR.ite_
    | (show sub _ _ = true; decide)

theorem flashCommit_only (hO : State.Only ps z s) (hM : sub [.outs, .log, .gatherings, .collator, .flash, .loader, .reg .hubMsixPba, .reg .colEv, .reg .bndStat, .reg .logCtl, .reg .gthCfg, .reg .gthQdesc, .reg .gthQwm] ps = true) :
    State.Only ps z (State.flashCommit s) := by
  refine hO.step ?_ hM
  unfold State.flashCommit
  repeat' first
    | with_reducible first | assumption | exact State.Only.refl _ _ | apply failFlash_only | apply putFlash_only | apply only_setF | apply only_putN | apply State.Only.ite_
    | (show sub _ _ = true; decide)
    | (extract_lets +onlyGivenNames y; with_reducible refine State.Only.cut y ?_ ?_ <;> [dsimp only [y]; (clear_value y; intro hy)])
    | (extract_lets +onlyGivenNames y; clear_value y)
    | split
    | with_reducible first | refine State.Only.snd (by assumption) ?_ | refine State.Only.snd2 (by assumption) ?_ | refine State.Only.snd3 (by assumption) ?_
    | with_reducible refine only_onSys ?_ _ (fun p hp x => by cases p <;> first | exact absurd (by decide) hp | simp [Part.same, State.reg, State.onSys])

theorem execFlashCommitRecord_only (s : State)  : OnlyR [.outs, .log, .gatherings, .collator, .flash, .loader, .reg .hubMsixPba, .reg .colEv, .reg .bndStat, .reg .logCtl, .reg .gthCfg, .reg .gthQdesc, .reg .gthQwm] s (execFlashCommitRecord s) := by
  unfold execFlashCommitRecord
  repeat' first
    | with_reducible first | assumption | exact State.Only.refl _ _ | apply OnlyR.next | apply flashCommit_only
    | (show sub _ _ = true; decide)

theorem queueLoad_only (fn x : Nat) (hO : State.Only ps z s) (hM : sub [.loader, .reg .bndStat] ps = true) :
    State.Only ps z (State.queueLoad s fn x) := by
  refine hO.step ?_ hM
  unfold State.queueLoad
  repeat' first
    | with_reducible first | assumption | exact State.Only.refl _ _ | apply only_putN
    | (show sub _ _ = true; decide)
    | (extract_lets +onlyGivenNames y; with_reducible refine State.Only.cut y ?_ ?_ <;> [dsimp only [y]; (clear_value y; intro hy)])
    | (extract_lets +onlyGivenNames y; clear_value y)
    | with_reducible refine only_onSys ?_ _ (fun p hp x => by cases p <;> first | exact absurd (by decide) hp | simp [Part.same, State.reg, State.onSys])

theorem flashTurn_only (bytes : List Byte) (hO : State.Only ps z s) (hM : sub [.outs, .log, .collator, .dram, .flash, .loader, .reg .hubMsixPba, .reg .colEv, .reg .memChStat, .reg .bndStat, .reg .logCtl] ps = true) :
    State.Only ps z (State.flashTurn s bytes) := by
  refine hO.step ?_ hM
  unfold State.flashTurn
  repeat' first
    | with_reducible first | assumption | exact State.Only.refl _ _ | apply startFlash_only
    | (show sub _ _ = true; decide)
    | split
    | with_reducible first | refine State.Only.snd (by assumption) ?_ | refine State.Only.snd2 (by assumption) ?_ | refine State.Only.snd3 (by assumption) ?_
    | with_reducible refine only_onSys ?_ _ (fun p hp x => by cases p <;> first | exact absurd (by decide) hp | simp [Part.same, State.reg, State.onSys])

theorem abortCtx_only (x : Nat) (hO : State.Only ps z s) (hM : sub [.outs, .log, .collator, .pads, .loader, .reg .hubMsixPba, .reg .colEv, .reg .bndStat, .reg .bndHash, .reg .logCtl] ps = true) :
    State.Only ps z (State.abortCtx s x) := by
  refine hO.step ?_ hM
  unfold State.abortCtx
  repeat' first
    | with_reducible first | assumption | exact State.Only.refl _ _ | apply failLoad_only | apply failCtx_only | apply failFlash_only | apply State.Only.ite_
    | (show sub _ _ = true; decide)
    | split
    | with_reducible first | refine State.Only.snd (by assumption) ?_ | refine State.Only.snd2 (by assumption) ?_ | refine State.Only.snd3 (by assumption) ?_
    | with_reducible refine only_onSys ?_ _ (fun p hp x => by cases p <;> first | exact absurd (by decide) hp | simp [Part.same, State.reg, State.onSys])

theorem freeRegion_only (r : Nat) (hO : State.Only ps z s) (hM : sub [.regions, .pads, .reg .bndStat, .reg .bndHash, .reg .padBank, .reg .gthCfg] ps = true) :
    State.Only ps z (State.freeRegion s r) := by
  refine hO.step ?_ hM
  unfold State.freeRegion
  repeat' first
    | with_reducible first | assumption | exact State.Only.refl _ _ | apply updPad_only | apply only_clrF | apply updRegion_only | apply hashZero_only | apply dropBanks_only | apply only_putN | apply State.Only.ite_ | apply State.Only.foldl_ | apply State.Only.foldl2 | apply State.Only.foldl3
    | (show sub _ _ = true; decide)
    | (intro _ _ hx)

theorem writeBndCmd_only (fn x : Nat) (v : BitVec 64) (bytes : List Byte) (hO : State.Only ps z s) (hM : sub [.free, .outs, .log, .gatherings, .regions, .fuist, .collator, .dram, .pads, .flash, .loader, .reg .hubMsixPba, .reg .colEv, .reg .memChStat, .reg .bndCmd, .reg .bndStat, .reg .bndCase, .reg .bndHash, .reg .qctCommitted, .reg .qctExec, .reg .qctStatus, .reg .fstBound, .reg .logCtl, .reg .padBank, .reg .gthCfg] ps = true) :
    State.Only ps z (State.writeBndCmd s fn x v bytes) := by
  refine hO.step ?_ hM
  unfold State.writeBndCmd
  repeat' first
    | with_reducible first | assumption | exact State.Only.refl _ _ | apply ignored_only | apply writeReg_only | apply only_setF | apply flashTurn_only | apply queueLoad_only | apply abortCtx_only | apply beginCasing_only | apply freeRegion_only | apply State.Only.ite_
    | (show sub _ _ = true; decide)
    | (intro _ hx)

theorem execLoadGo_only (s : State) (fn : FnId) (x : ContextId) (v : BitVec 64) : OnlyR [.free, .outs, .log, .gatherings, .regions, .fuist, .collator, .dram, .pads, .flash, .loader, .reg .hubMsixPba, .reg .colEv, .reg .memChStat, .reg .bndCmd, .reg .bndStat, .reg .bndCase, .reg .bndHash, .reg .qctCommitted, .reg .qctExec, .reg .qctStatus, .reg .fstBound, .reg .logCtl, .reg .padBank, .reg .gthCfg] s (execLoadGo fn x v s) := by
  unfold execLoadGo
  repeat' first
    | with_reducible first | assumption | exact State.Only.refl _ _ | apply OnlyR.next | apply bar_only | apply writeBndCmd_only
    | (show sub _ _ = true; decide)
    | (intro _ hx)

theorem execLoadAbortCmd_only (s : State) (fn : FnId) (x : ContextId) (v : BitVec 64) : OnlyR [.free, .outs, .log, .gatherings, .regions, .fuist, .collator, .dram, .pads, .flash, .loader, .reg .hubMsixPba, .reg .colEv, .reg .memChStat, .reg .bndCmd, .reg .bndStat, .reg .bndCase, .reg .bndHash, .reg .qctCommitted, .reg .qctExec, .reg .qctStatus, .reg .fstBound, .reg .logCtl, .reg .padBank, .reg .gthCfg] s (execLoadAbortCmd fn x v s) := by
  unfold execLoadAbortCmd
  repeat' first
    | with_reducible first | assumption | exact State.Only.refl _ _ | apply OnlyR.next | apply bar_only | apply writeBndCmd_only
    | (show sub _ _ = true; decide)
    | (intro _ hx)

theorem execCasein_only (s : State) (fn : FnId) (r : RegionId) (v : BitVec 64) : OnlyR [.free, .outs, .log, .gatherings, .regions, .fuist, .collator, .dram, .pads, .flash, .loader, .reg .hubMsixPba, .reg .colEv, .reg .memChStat, .reg .bndCmd, .reg .bndStat, .reg .bndCase, .reg .bndHash, .reg .qctCommitted, .reg .qctExec, .reg .qctStatus, .reg .fstBound, .reg .logCtl, .reg .padBank, .reg .gthCfg] s (execCasein fn r v s) := by
  unfold execCasein
  repeat' first
    | with_reducible first | assumption | exact State.Only.refl _ _ | apply OnlyR.next | apply bar_only | apply writeBndCmd_only
    | (show sub _ _ = true; decide)
    | (intro _ hx)

theorem execFree_only (s : State) (fn : FnId) (r : RegionId) (v : BitVec 64) : OnlyR [.free, .outs, .log, .gatherings, .regions, .fuist, .collator, .dram, .pads, .flash, .loader, .reg .hubMsixPba, .reg .colEv, .reg .memChStat, .reg .bndCmd, .reg .bndStat, .reg .bndCase, .reg .bndHash, .reg .qctCommitted, .reg .qctExec, .reg .qctStatus, .reg .fstBound, .reg .logCtl, .reg .padBank, .reg .gthCfg] s (execFree fn r v s) := by
  unfold execFree
  repeat' first
    | with_reducible first | assumption | exact State.Only.refl _ _ | apply OnlyR.next | apply bar_only | apply writeBndCmd_only
    | (show sub _ _ = true; decide)
    | (intro _ hx)

theorem execFlashWriteGo_only (s : State) (v : BitVec 64) (bytes : List Byte) : OnlyR [.free, .outs, .log, .gatherings, .regions, .fuist, .collator, .dram, .pads, .flash, .loader, .reg .hubMsixPba, .reg .colEv, .reg .memChStat, .reg .bndCmd, .reg .bndStat, .reg .bndCase, .reg .bndHash, .reg .qctCommitted, .reg .qctExec, .reg .qctStatus, .reg .fstBound, .reg .logCtl, .reg .padBank, .reg .gthCfg] s (execFlashWriteGo v bytes s) := by
  unfold execFlashWriteGo
  repeat' first
    | with_reducible first | assumption | exact State.Only.refl _ _ | apply OnlyR.next | apply bar_only | apply writeBndCmd_only
    | (show sub _ _ = true; decide)
    | (intro _ hx)

theorem writeBndSrc_only (fn x : Nat) (v : BitVec 64) (hO : State.Only ps z s) (hM : sub [.log, .collator, .reg .colEv, .reg .bndSrc, .reg .logCtl] ps = true) :
    State.Only ps z (State.writeBndSrc s fn x v) := by
  refine hO.step ?_ hM
  unfold State.writeBndSrc
  repeat' first
    | with_reducible first | assumption | exact State.Only.refl _ _ | apply writeReg_only | apply ignored_only | (rw [id_eq]; assumption) | apply State.Only.ite_
    | (show sub _ _ = true; decide)
    | (intro _ hx)

theorem writeBndCtl_only (fn : Nat) (v : BitVec 64) (hO : State.Only ps z s) (hM : sub [.log, .collator, .reg .colEv, .reg .bndCtl, .reg .logCtl] ps = true) :
    State.Only ps z (State.writeBndCtl s fn v) := by
  refine hO.step ?_ hM
  unfold State.writeBndCtl
  repeat' first
    | with_reducible first | assumption | exact State.Only.refl _ _ | apply writeReg_only | apply only_setF | apply ignored_only | (rw [id_eq]; assumption) | apply State.Only.ite_
    | (show sub _ _ = true; decide)
    | (intro _ hx)

theorem writeBndStat_only (fn x : Nat) (v : BitVec 64) (hO : State.Only ps z s) (hM : sub [.log, .collator, .reg .colEv, .reg .bndStat, .reg .logCtl] ps = true) :
    State.Only ps z (State.writeBndStat s fn x v) := by
  refine hO.step ?_ hM
  unfold State.writeBndStat
  repeat' first
    | with_reducible first | assumption | exact State.Only.refl _ _ | apply writeReg_only | apply ignored_only | (rw [id_eq]; assumption) | apply State.Only.ite_
    | (show sub _ _ = true; decide)
    | (intro _ hx)

theorem writeBndCase_only (fn r : Nat) (v : BitVec 64) (hO : State.Only ps z s) (hM : sub [.log, .collator, .reg .colEv, .reg .bndStat, .reg .bndCase, .reg .logCtl] ps = true) :
    State.Only ps z (State.writeBndCase s fn r v) := by
  refine hO.step ?_ hM
  unfold State.writeBndCase
  repeat' first
    | with_reducible first | assumption | exact State.Only.refl _ _ | apply writeReg_only | apply only_setF | apply ignored_only | (rw [id_eq]; assumption) | apply State.Only.ite_
    | (show sub _ _ = true; decide)
    | (intro _ hx)

theorem writeBndLimit_only (fn r : Nat) (v : BitVec 64) (hO : State.Only ps z s) (hM : sub [.log, .collator, .reg .colEv, .reg .bndLimit, .reg .logCtl] ps = true) :
    State.Only ps z (State.writeBndLimit s fn r v) := by
  refine hO.step ?_ hM
  unfold State.writeBndLimit
  repeat' first
    | with_reducible first | assumption | exact State.Only.refl _ _ | apply writeReg_only | apply only_setF | apply ignored_only | (rw [id_eq]; assumption) | apply State.Only.ite_
    | (show sub _ _ = true; decide)
    | (intro _ hx)

/-! ### Hold -/

theorem release_only (r : Nat) (pads : BitVec 192) (hO : State.Only ps z s) (hM : sub [.free, .gatherings, .regions, .fuist, .collator, .reg .colEv, .reg .bndStat, .reg .bndCase, .reg .qctExec, .reg .qctStatus] ps = true) :
    State.Only ps z (State.release s r pads) := by
  refine hO.step ?_ hM
  unfold State.release
  repeat' first
    | with_reducible first | assumption | exact State.Only.refl _ _ | apply sendSystem_only | apply resume_only | apply State.Only.ite_
    | (show sub _ _ = true; decide)

theorem writeHold_only (fn : FnId) (r : RegionId) (v : BitVec 64) (pads : BitVec 192) (hO : State.Only ps z s) (hM : sub [.free, .log, .gatherings, .regions, .fuist, .collator, .reg .colEv, .reg .bndStat, .reg .bndCase, .reg .qctExec, .reg .qctStatus, .reg .qctHold, .reg .logCtl] ps = true) :
    State.Only ps z (State.writeHold s fn r v pads) := by
  refine hO.step ?_ hM
  unfold State.writeHold
  repeat' first
    | with_reducible first | assumption | exact State.Only.refl _ _ | apply ignored_only | apply writeReg_only | apply only_setF | apply release_only | apply State.Only.ite_
    | (show sub _ _ = true; decide)
    | (intro _ hx)

theorem execHoldRequest_only (s : State) (fn : FnId) (r : RegionId) (v : BitVec 64) : OnlyR [.free, .log, .gatherings, .regions, .fuist, .collator, .reg .colEv, .reg .bndStat, .reg .bndCase, .reg .qctExec, .reg .qctStatus, .reg .qctHold, .reg .logCtl] s (execHoldRequest fn r v s) := by
  unfold execHoldRequest
  repeat' first
    | with_reducible first | assumption | exact State.Only.refl _ _ | apply OnlyR.next | apply bar_only | apply writeHold_only
    | (show sub _ _ = true; decide)
    | (intro _ hx)

theorem execHoldRelease_only (s : State) (fn : FnId) (r : RegionId) (v : BitVec 64) (pads : BitVec 192) : OnlyR [.free, .log, .gatherings, .regions, .fuist, .collator, .reg .colEv, .reg .bndStat, .reg .bndCase, .reg .qctExec, .reg .qctStatus, .reg .qctHold, .reg .logCtl] s (execHoldRelease fn r v pads s) := by
  unfold execHoldRelease
  repeat' first
    | with_reducible first | assumption | exact State.Only.refl _ _ | apply OnlyR.next | apply bar_only | apply writeHold_only
    | (show sub _ _ = true; decide)
    | (intro _ hx)

theorem autoHold_only (r : Nat) (hO : State.Only ps z s) (hM : sub [.reg .qctHold] ps = true) :
    State.Only ps z (State.autoHold s r).2 := by
  refine hO.step ?_ hM
  unfold State.autoHold
  repeat' first
    | with_reducible first | assumption | exact State.Only.refl _ _ | apply requestHold_only | apply State.Only.ite_ | apply State.Only.ite2
    | (show sub _ _ = true; decide)

theorem writeRbSel_only (fn : FnId) (r : RegionId) (v : BitVec 64) (hO : State.Only ps z s) (hM : sub [.log, .collator, .bookmarks, .reg .colEv, .reg .qctHold, .reg .qctRbSel, .reg .qctRbStat, .reg .logCtl] ps = true) :
    State.Only ps z (State.writeRbSel s fn r v) := by
  refine hO.step ?_ hM
  unfold State.writeRbSel
  repeat' first
    | with_reducible first | assumption | exact State.Only.refl _ _ | apply ignored_only | apply writeReg_only | apply only_putN | apply only_setF | apply autoHold_only | apply setOp_only | apply State.Only.ite_ | apply State.Only.ite2
    | (show sub _ _ = true; decide)
    | (intro _ hx)
    | with_reducible first | refine State.Only.snd (by assumption) ?_ | refine State.Only.snd2 (by assumption) ?_ | refine State.Only.snd3 (by assumption) ?_

theorem execReadbackGo_only (s : State) (fn : FnId) (r : RegionId) (v : BitVec 64) : OnlyR [.log, .collator, .bookmarks, .reg .colEv, .reg .qctHold, .reg .qctRbSel, .reg .qctRbStat, .reg .logCtl] s (execReadbackGo fn r v s) := by
  unfold execReadbackGo
  repeat' first
    | with_reducible first | assumption | exact State.Only.refl _ _ | apply OnlyR.next | apply bar_only | apply writeRbSel_only
    | (show sub _ _ = true; decide)
    | (intro _ hx)

theorem putWords_only (sec : Nat) (ws : List Word) (hO : State.Only ps z s) (hM : sub [.dram] ps = true) :
    State.Only ps z (State.putWords s sec ws) := by
  refine hO.step ?_ hM
  unfold State.putWords
  repeat' first
    | with_reducible first | assumption | exact State.Only.refl _ _ | apply writeSector_only | apply State.Only.foldl_ | apply State.Only.foldl2 | apply State.Only.foldl3
    | (show sub _ _ = true; decide)
    | (intro _ _ hx)

theorem partWords_only (r g part : Nat) (hO : State.Only ps z s) (hM : sub [.log, .collator, .reg .colEv, .reg .logCtl, .reg .gthFerr] ps = true) :
    State.Only ps z (State.partWords s r g part).2.2 := by
  unfold State.partWords
  split
  · exact hO
  · split
    · exact folioPart_only r g hO hM
    · exact hO

theorem putPart_only (r g part sec : Nat) (hO : State.Only ps z s) (hM : sub [.log, .collator, .dram, .reg .colEv, .reg .logCtl, .reg .gthFerr] ps = true) :
    State.Only ps z (State.putPart s r g part sec).2.2 := by
  have h := partWords_only r g part (.refl [.log, .collator, .dram, .reg .colEv, .reg .logCtl, .reg .gthFerr] s) (by decide)
  unfold State.putPart
  rcases he : s.partWords r g part with ⟨ws, bad, w⟩
  rw [he] at h
  exact putWords_only _ _ (hO.step h hM) (sub_trans (by decide) hM)

theorem readParts_only (r : Nat) (hO : State.Only ps z s) (hM : sub [.log, .collator, .dram, .reg .colEv, .reg .logCtl, .reg .gthFerr] ps = true) :
    State.Only ps z (State.readParts s r).2 := by
  refine hO.step ?_ hM
  unfold State.readParts
  repeat' first
    | with_reducible first | assumption | exact State.Only.refl _ _ | apply putPart_only | apply State.Only.foldl_ | apply State.Only.foldl2 | apply State.Only.foldl3
    | (show sub _ _ = true; decide)
    | (intro _ _ hx)
    | with_reducible first | refine State.Only.snd (by assumption) ?_ | refine State.Only.snd2 (by assumption) ?_ | refine State.Only.snd3 (by assumption) ?_

theorem execReadbackDone_only (s : State) (r : RegionId) (pads : BitVec 192) : OnlyR [.free, .log, .gatherings, .regions, .collator, .dram, .bookmarks, .reg .colEv, .reg .bndStat, .reg .bndCase, .reg .qctExec, .reg .qctStatus, .reg .qctHold, .reg .qctRbStat, .reg .logCtl, .reg .gthFerr] s (execReadbackDone r pads s) := by
  unfold execReadbackDone
  repeat' first
    | with_reducible first | assumption | exact State.Only.refl _ _ | apply OnlyR.next | apply readParts_only | apply only_putF | apply only_setF | apply only_putN | apply endOwnHold_only | apply setOp_only | apply State.Only.ite_ | apply State.Only.ite2 | apply OnlyR.ite_
    | (show sub _ _ = true; decide)
    | (extract_lets +onlyGivenNames y; with_reducible refine State.Only.cut y ?_ ?_ <;> [dsimp only [y]; (clear_value y; intro hy)])
    | (extract_lets +onlyGivenNames y; with_reducible refine OnlyR.cut y ?_ ?_ <;> [dsimp only [y]; (clear_value y; intro hy)])
    | (extract_lets +onlyGivenNames y; clear_value y)
    | split
    | with_reducible first | refine State.Only.snd (by assumption) ?_ | refine State.Only.snd2 (by assumption) ?_ | refine State.Only.snd3 (by assumption) ?_

theorem startTake_only (fn r : Nat) (hO : State.Only ps z s) (hM : sub [.bookmarks, .reg .qctHold, .reg .qctBmkStat] ps = true) :
    State.Only ps z (State.startTake s fn r) := by
  refine hO.step ?_ hM
  unfold State.startTake
  repeat' first
    | with_reducible first | assumption | exact State.Only.refl _ _ | apply autoHold_only | apply only_putN | apply setOp_only | apply State.Only.ite_ | apply State.Only.ite2
    | (show sub _ _ = true; decide)
    | with_reducible first | refine State.Only.snd (by assumption) ?_ | refine State.Only.snd2 (by assumption) ?_ | refine State.Only.snd3 (by assumption) ?_

theorem startRestore_only (fn r : Nat) (hO : State.Only ps z s) (hM : sub [.bookmarks, .reg .qctBmkStat] ps = true) :
    State.Only ps z (State.startRestore s fn r) := by
  refine hO.step ?_ hM
  unfold State.startRestore
  repeat' first
    | with_reducible first | assumption | exact State.Only.refl _ _ | apply only_putN | apply setOp_only
    | (show sub _ _ = true; decide)

theorem writeBmkCtl_only (fn : FnId) (r : RegionId) (v : BitVec 64) (hO : State.Only ps z s) (hM : sub [.log, .collator, .bookmarks, .reg .colEv, .reg .qctHold, .reg .qctBmkCtl, .reg .qctBmkStat, .reg .logCtl] ps = true) :
    State.Only ps z (State.writeBmkCtl s fn r v) := by
  refine hO.step ?_ hM
  unfold State.writeBmkCtl
  repeat' first
    | with_reducible first | assumption | exact State.Only.refl _ _ | apply ignored_only | apply writeReg_only | apply only_putN | apply only_setF | apply startTake_only | apply startRestore_only | apply State.Only.ite_
    | (show sub _ _ = true; decide)
    | (intro _ hx)

theorem execBookmarkTake_only (s : State) (fn : FnId) (r : RegionId) (v : BitVec 64) : OnlyR [.log, .collator, .bookmarks, .reg .colEv, .reg .qctHold, .reg .qctBmkCtl, .reg .qctBmkStat, .reg .logCtl] s (execBookmarkTake fn r v s) := by
  unfold execBookmarkTake
  repeat' first
    | with_reducible first | assumption | exact State.Only.refl _ _ | apply OnlyR.next | apply bar_only | apply writeBmkCtl_only
    | (show sub _ _ = true; decide)
    | (intro _ hx)

theorem execBookmarkRestore_only (s : State) (fn : FnId) (r : RegionId) (v : BitVec 64) : OnlyR [.log, .collator, .bookmarks, .reg .colEv, .reg .qctHold, .reg .qctBmkCtl, .reg .qctBmkStat, .reg .logCtl] s (execBookmarkRestore fn r v s) := by
  unfold execBookmarkRestore
  repeat' first
    | with_reducible first | assumption | exact State.Only.refl _ _ | apply OnlyR.next | apply bar_only | apply writeBmkCtl_only
    | (show sub _ _ = true; decide)
    | (intro _ hx)

theorem invalidateThrough_only (r slot : Nat) (hO : State.Only ps z s) (hM : sub [.reg .qctBmkValid] ps = true) :
    State.Only ps z (State.invalidateThrough s r slot) := by
  refine hO.step ?_ hM
  unfold State.invalidateThrough
  repeat' first
    | with_reducible first | assumption | exact State.Only.refl _ _ | apply dropSlot_only | apply State.Only.foldl_ | apply State.Only.foldl2 | apply State.Only.foldl3
    | (show sub _ _ = true; decide)
    | (intro _ _ hx)

theorem execBookmarkEngineStart_only (s : State) (r : RegionId) : OnlyR [.bookmarks, .reg .qctBmkValid] s (execBookmarkEngineStart r s) := by
  unfold execBookmarkEngineStart
  repeat' first
    | with_reducible first | assumption | exact State.Only.refl _ _ | apply OnlyR.next | apply setOp_only | apply invalidateThrough_only | apply State.Only.ite_ | apply OnlyR.ite_
    | (show sub _ _ = true; decide)
    | (extract_lets +onlyGivenNames y; with_reducible refine State.Only.cut y ?_ ?_ <;> [dsimp only [y]; (clear_value y; intro hy)])
    | (extract_lets +onlyGivenNames y; with_reducible refine OnlyR.cut y ?_ ?_ <;> [dsimp only [y]; (clear_value y; intro hy)])
    | (extract_lets +onlyGivenNames y; clear_value y)
    | split
    | with_reducible first | refine State.Only.snd (by assumption) ?_ | refine State.Only.snd2 (by assumption) ?_ | refine State.Only.snd3 (by assumption) ?_

theorem captureParts_only (r dst : Nat) (jobs : List (Nat × Nat × Bool)) (hO : State.Only ps z s) (hM : sub [.log, .collator, .dram, .reg .colEv, .reg .logCtl, .reg .gthFerr] ps = true) :
    State.Only ps z (State.captureParts s r dst jobs).2.2.2 := by
  refine hO.step ?_ hM
  unfold State.captureParts
  refine State.Only.foldl4 _ ?_ (.refl _ _)
  rintro ⟨es, sec, bad, x⟩ a hx
  dsimp only at hx ⊢
  have hp := putPart_only r a.1 a.2.1 sec hx (by decide)
  rcases he : x.putPart r a.1 a.2.1 sec with ⟨n, b, w⟩
  rw [he] at hp
  exact .ite4 hp hx

theorem clearDirty_only (jobs : List (Nat × Nat × Bool)) (hO : State.Only ps z s) (hM : sub [.gatherings] ps = true) :
    State.Only ps z (State.clearDirty s jobs) := by
  refine hO.step ?_ hM
  unfold State.clearDirty
  repeat' first
    | with_reducible first | assumption | exact State.Only.refl _ _ | apply updGth_only | apply State.Only.ite_ | apply State.Only.foldl_ | apply State.Only.foldl2 | apply State.Only.foldl3
    | (show sub _ _ = true; decide)
    | (intro _ _ hx)

theorem captureDone_only (r : Nat) (o : RegionOp) (pads : BitVec 192) (hO : State.Only ps z s) (hM : sub [.free, .log, .gatherings, .regions, .collator, .dram, .bookmarks, .reg .colEv, .reg .bndStat, .reg .bndCase, .reg .qctExec, .reg .qctStatus, .reg .qctHold, .reg .qctBmkStat, .reg .qctBmkSize, .reg .qctBmkValid, .reg .logCtl, .reg .gthFerr] ps = true) :
    State.Only ps z (State.captureDone s r o pads) := by
  refine hO.step ?_ hM
  unfold State.captureDone
  repeat' first
    | with_reducible first | assumption | exact State.Only.refl _ _ | apply captureParts_only | apply only_putN | apply only_setF | apply setOp_only | apply clearDirty_only | apply only_putF | apply endOwnHold_only | apply State.Only.ite_ | apply State.Only.ite2
    | (show sub _ _ = true; decide)
    | (extract_lets +onlyGivenNames y; with_reducible refine State.Only.cut y ?_ ?_ <;> [dsimp only [y]; (clear_value y; intro hy)])
    | (extract_lets +onlyGivenNames y; clear_value y)
    | split
    | with_reducible first | refine State.Only.snd (by assumption) ?_ | refine State.Only.snd2 (by assumption) ?_ | refine State.Only.snd3 (by assumption) ?_
    | with_reducible refine only_onSys ?_ _ (fun p hp x => by cases p <;> first | exact absurd (by decide) hp | simp [Part.same, State.reg, State.onSys, State.putN, State.setF, State.putF, State.setReg])

theorem execBookmarkCaptureDone_only (s : State) (r : RegionId) (pads : BitVec 192) : OnlyR [.free, .log, .gatherings, .regions, .collator, .dram, .bookmarks, .reg .colEv, .reg .bndStat, .reg .bndCase, .reg .qctExec, .reg .qctStatus, .reg .qctHold, .reg .qctBmkStat, .reg .qctBmkSize, .reg .qctBmkValid, .reg .logCtl, .reg .gthFerr] s (execBookmarkCaptureDone r pads s) := by
  unfold execBookmarkCaptureDone
  repeat' first
    | with_reducible first | assumption | exact State.Only.refl _ _ | apply OnlyR.next | apply captureDone_only | apply State.Only.ite_ | apply OnlyR.ite_
    | (show sub _ _ = true; decide)
    | split
    | with_reducible first | refine State.Only.snd (by assumption) ?_ | refine State.Only.snd2 (by assumption) ?_ | refine State.Only.snd3 (by assumption) ?_

theorem fetchPart_only (r g part : Nat) (chain : List Nat) (i : Nat) (hO : State.Only ps z s) (hM : sub [.log, .collator, .dram, .reg .colEv, .reg .memChStat, .reg .logCtl] ps = true) :
    State.Only ps z (State.fetchPart s r g part chain i).2 := by
  refine hO.step ?_ hM
  unfold State.fetchPart
  repeat' first
    | with_reducible first | assumption | exact State.Only.refl _ _ | apply sectorWords_only | apply State.Only.ite_ | apply State.Only.ite2
    | (show sub _ _ = true; decide)
    | (extract_lets +onlyGivenNames y; with_reducible refine State.Only.cut y ?_ ?_ <;> [dsimp only [y]; (clear_value y; intro hy)])
    | (extract_lets +onlyGivenNames y; clear_value y)
    | split
    | with_reducible refine State.Only.snd (by assumption) ?_

theorem restoreParts_only (r slot : Nat) (hO : State.Only ps z s) (hM : sub [.log, .cells, .gatherings, .collator, .dram, .reg .colEv, .reg .memChStat, .reg .logCtl] ps = true) :
    State.Only ps z (State.restoreParts s r slot).2 := by
  refine hO.step ?_ hM
  unfold State.restoreParts
  repeat' first
    | with_reducible first | assumption | exact State.Only.refl _ _ | apply fetchPart_only | apply loadFolio_only | apply loadState_only | apply State.Only.ite_ | apply State.Only.ite2 | apply State.Only.foldl_ | apply State.Only.foldl2 | apply State.Only.foldl3
    | (show sub _ _ = true; decide)
    | (intro _ _ hx)
    | (extract_lets +onlyGivenNames y; with_reducible refine State.Only.cut y ?_ ?_ <;> [dsimp only [y]; (clear_value y; intro hy)])
    | (extract_lets +onlyGivenNames y; clear_value y)
    | split
    | with_reducible refine State.Only.snd (by assumption) ?_

theorem restored_only (r : Nat) (o : RegionOp) (quire : Nat) (hO : State.Only ps z s) (hM : sub [.gatherings, .regions, .collator, .reg .colStrStat, .reg .bndStat, .reg .bndCase, .reg .qctCommitted, .reg .qctExec, .reg .qctStatus, .reg .qctBmkStat] ps = true) :
    State.Only ps z (State.restored s r o quire) := by
  refine hO.step ?_ hM
  unfold State.restored
  repeat' first
    | with_reducible first | assumption | exact State.Only.refl _ _ | apply only_putN | apply updGth_only | apply only_clrF | apply only_setF | apply updRegion_only | apply voidMarks_only | apply settle_only | apply State.Only.ite_ | apply State.Only.foldl_ | apply State.Only.foldl2 | apply State.Only.foldl3
    | (show sub _ _ = true; decide)
    | (intro _ _ hx)

theorem execBookmarkRestoreDone_only (s : State) (r : RegionId) : OnlyR [.log, .cells, .gatherings, .regions, .collator, .dram, .bookmarks, .reg .colEv, .reg .colStrStat, .reg .memChStat, .reg .bndStat, .reg .bndCase, .reg .qctCommitted, .reg .qctExec, .reg .qctStatus, .reg .qctBmkStat, .reg .logCtl] s (execBookmarkRestoreDone r s) := by
  unfold execBookmarkRestoreDone
  repeat' first
    | with_reducible first | assumption | exact State.Only.refl _ _ | apply OnlyR.next | apply restoreParts_only | apply only_setF | apply setOp_only | apply restored_only | apply only_putN | apply State.Only.ite_ | apply State.Only.ite2 | apply OnlyR.ite_
    | (show sub _ _ = true; decide)
    | (extract_lets +onlyGivenNames y; with_reducible refine State.Only.cut y ?_ ?_ <;> [dsimp only [y]; (clear_value y; intro hy)])
    | (extract_lets +onlyGivenNames y; with_reducible refine OnlyR.cut y ?_ ?_ <;> [dsimp only [y]; (clear_value y; intro hy)])
    | (extract_lets +onlyGivenNames y; clear_value y)
    | split
    | with_reducible first | refine State.Only.snd (by assumption) ?_ | refine State.Only.snd2 (by assumption) ?_ | refine State.Only.snd3 (by assumption) ?_

theorem writeDst_only (fn : FnId) (r : RegId) (m : RegionId) (v : BitVec 64) (hO : State.Only ps z s)
    (hM : sub [.reg r, .log, .collator, .reg .colEv, .reg .logCtl] ps = true) :
    State.Only ps z (s.writeDst fn r m v) := by
  unfold State.writeDst
  split
  · exact writeReg_only _ _ _ _ _ hO hM (fun _ h => h) (fun _ h => h)
  · exact ignored_only _ _ _ hO (sub_tail hM)

/-! ### Meter -/

theorem updMeter_only (f : Meter → Meter) (hO : State.Only ps z s) (hM : sub [.meter] ps = true) :
    State.Only ps z (State.updMeter s f) := by
  refine hO.step ?_ hM
  unfold State.updMeter
  repeat' first
    | with_reducible first | assumption | exact State.Only.refl _ _
    | (show sub _ _ = true; decide)
    | with_reducible refine only_onSys ?_ _ (fun p hp x => by cases p <;> first | exact absurd (by decide) hp | simp [Part.same, State.reg, State.onSys])

theorem snapshot_only (reason : Nat) (hO : State.Only ps z s) (hM : sub [.meter] ps = true) :
    State.Only ps z (State.snapshot s reason) := by
  refine hO.step ?_ hM
  unfold State.snapshot
  repeat' first
    | with_reducible first | assumption | exact State.Only.refl _ _ | apply updMeter_only | apply State.Only.ite_
    | (show sub _ _ = true; decide)

theorem sealedRecords_only (q : List SealParams) (hO : State.Only ps z s) (hM : sub [.meter] ps = true) :
    State.Only ps z (State.sealedRecords s q) := by
  refine hO.step ?_ hM
  unfold State.sealedRecords
  repeat' first
    | with_reducible first | assumption | exact State.Only.refl _ _ | apply snapshot_only | apply updMeter_only | apply State.Only.foldl_ | apply State.Only.foldl2 | apply State.Only.foldl3
    | (show sub _ _ = true; decide)
    | (intro _ _ hx)

theorem execMeterSample_only (s : State)  : OnlyR [.meter] s (execMeterSample s) := by
  unfold execMeterSample
  repeat' first
    | with_reducible first | assumption | exact State.Only.refl _ _ | apply OnlyR.next | apply sealedRecords_only | apply updMeter_only | apply State.Only.ite_ | apply OnlyR.ite_
    | (show sub _ _ = true; decide)

theorem execBindingMessageSend_only (s : State)  : OnlyR [.binding] s (execBindingMessageSend s) := by
  unfold execBindingMessageSend
  repeat' first
    | with_reducible first | assumption | exact State.Only.refl _ _ | apply OnlyR.next | apply State.Only.ite_ | apply OnlyR.ite_
    | (show sub _ _ = true; decide)
    | (extract_lets +onlyGivenNames y; with_reducible refine State.Only.cut y ?_ ?_ <;> [dsimp only [y]; (clear_value y; intro hy)])
    | (extract_lets +onlyGivenNames y; with_reducible refine OnlyR.cut y ?_ ?_ <;> [dsimp only [y]; (clear_value y; intro hy)])
    | (extract_lets +onlyGivenNames y; clear_value y)
    | split
    | with_reducible refine only_onSys ?_ _ (fun p hp x => by cases p <;> first | exact absurd (by decide) hp | simp [Part.same, State.reg, State.onSys])

theorem execBindingMessage_only (s : State) (crcOk : Bool) : OnlyR [.meter, .binding] s (execBindingMessage crcOk s) := by
  unfold execBindingMessage
  repeat' first
    | with_reducible first | assumption | exact State.Only.refl _ _ | apply OnlyR.next | apply updMeter_only | apply State.Only.ite_ | apply OnlyR.ite_
    | (show sub _ _ = true; decide)
    | (extract_lets +onlyGivenNames y; with_reducible refine State.Only.cut y ?_ ?_ <;> [dsimp only [y]; (clear_value y; intro hy)])
    | (extract_lets +onlyGivenNames y; with_reducible refine OnlyR.cut y ?_ ?_ <;> [dsimp only [y]; (clear_value y; intro hy)])
    | (extract_lets +onlyGivenNames y; clear_value y)
    | split
    | with_reducible first | refine State.Only.snd (by assumption) ?_ | refine State.Only.snd2 (by assumption) ?_ | refine State.Only.snd3 (by assumption) ?_
    | with_reducible refine only_onSys ?_ _ (fun p hp x => by cases p <;> first | exact absurd (by decide) hp | simp [Part.same, State.reg, State.onSys])

theorem execBindingStale_only (s : State)  : OnlyR [.meter] s (execBindingStale s) := by
  unfold execBindingStale
  repeat' first
    | with_reducible first | assumption | exact State.Only.refl _ _ | apply OnlyR.next | apply updMeter_only | apply State.Only.ite_ | apply OnlyR.ite_
    | (show sub _ _ = true; decide)

theorem execMeterNvWrite_only (s : State)  : OnlyR [.meter] s (execMeterNvWrite s) := by
  unfold execMeterNvWrite
  repeat' first
    | with_reducible first | assumption | exact State.Only.refl _ _ | apply OnlyR.next | apply updMeter_only | apply State.Only.ite_ | apply OnlyR.ite_
    | (show sub _ _ = true; decide)

theorem execMvddFall_only (s : State)  : OnlyR [.meter] s (execMvddFall s) := by
  unfold execMvddFall
  repeat' first
    | with_reducible first | assumption | exact State.Only.refl _ _ | apply OnlyR.next | apply updMeter_only | apply State.Only.ite_ | apply OnlyR.ite_
    | (show sub _ _ = true; decide)

theorem execMeterPowerOn_only (s : State) (addr : BitVec 3) (good : BitVec 2) : OnlyR [.meter] s (execMeterPowerOn addr good s) := by
  unfold execMeterPowerOn
  repeat' first
    | with_reducible first | assumption | exact State.Only.refl _ _ | apply OnlyR.next | apply OnlyR.fault | apply snapshot_only | apply updMeter_only | apply State.Only.ite_ | apply OnlyR.ite_
    | (show sub _ _ = true; decide)

theorem execMeterIntervalRecord_only (s : State)  : OnlyR [.meter] s (execMeterIntervalRecord s) := by
  unfold execMeterIntervalRecord
  repeat' first
    | with_reducible first | assumption | exact State.Only.refl _ _ | apply OnlyR.next | apply snapshot_only | apply updMeter_only | apply State.Only.ite_ | apply OnlyR.ite_
    | (show sub _ _ = true; decide)

theorem execMeterRecordSigned_only (s : State)  : OnlyR [.meter] s (execMeterRecordSigned s) := by
  unfold execMeterRecordSigned
  repeat' first
    | with_reducible first | assumption | exact State.Only.refl _ _ | apply OnlyR.next | apply updMeter_only | apply State.Only.ite_ | apply OnlyR.ite_
    | (show sub _ _ = true; decide)
    | (extract_lets +onlyGivenNames y; with_reducible refine State.Only.cut y ?_ ?_ <;> [dsimp only [y]; (clear_value y; intro hy)])
    | (extract_lets +onlyGivenNames y; with_reducible refine OnlyR.cut y ?_ ?_ <;> [dsimp only [y]; (clear_value y; intro hy)])
    | (extract_lets +onlyGivenNames y; clear_value y)
    | split
    | with_reducible first | refine State.Only.snd (by assumption) ?_ | refine State.Only.snd2 (by assumption) ?_ | refine State.Only.snd3 (by assumption) ?_

theorem execMeterStatusFrame_only (s : State)  : OnlyR [.meter, .reg .mtrStat, .reg .mtrSeq, .reg .mtrParam, .reg .mtrAudit, .reg .mtrRg] s (execMeterStatusFrame s) := by
  unfold execMeterStatusFrame
  repeat' first
    | with_reducible first | assumption | exact State.Only.refl _ _ | apply OnlyR.next | apply only_setReg | apply updMeter_only | apply State.Only.ite_ | apply OnlyR.ite_ | apply State.Only.foldl_ | apply State.Only.foldl2 | apply State.Only.foldl3
    | (show sub _ _ = true; decide)
    | (intro _ _ hx; beta_reduce)

theorem execStatusLinkLoss_only (s : State)  : OnlyR [.reg .mtrStat] s (execStatusLinkLoss s) := by
  unfold execStatusLinkLoss
  repeat' first
    | with_reducible first | assumption | exact State.Only.refl _ _ | apply OnlyR.next | apply only_clrF
    | (show sub _ _ = true; decide)

theorem execSetptr_only (s : State) (off : BitVec 32) : OnlyR [.meter] s (execSetptr off s) := by
  unfold execSetptr
  repeat' first
    | with_reducible first | assumption | exact State.Only.refl _ _ | apply OnlyR.next | apply updMeter_only | apply State.Only.ite_ | apply OnlyR.ite_
    | (show sub _ _ = true; decide)

theorem execRecordNow_only (s : State)  : OnlyR [.meter] s (execRecordNow s) := by
  unfold execRecordNow
  repeat' first
    | with_reducible first | assumption | exact State.Only.refl _ _ | apply OnlyR.next | apply snapshot_only | apply State.Only.ite_ | apply OnlyR.ite_
    | (show sub _ _ = true; decide)
    | with_reducible first | refine State.Only.snd (by assumption) ?_ | refine State.Only.snd2 (by assumption) ?_ | refine State.Only.snd3 (by assumption) ?_

theorem execSealed_only (s : State) (bytes : List Byte) : OnlyR [.meter] s (execSealed bytes s) := by
  unfold execSealed
  repeat' first
    | with_reducible first | assumption | exact State.Only.refl _ _ | apply OnlyR.next | apply updMeter_only | apply State.Only.ite_ | apply OnlyR.ite_
    | (show sub _ _ = true; decide)

theorem execMeterPrivateRead_only (s : State) (n : Nat) : OnlyR [.free, .outs, .meter] s (execMeterPrivateRead n s) := by
  unfold execMeterPrivateRead
  repeat' first
    | with_reducible first | assumption | exact State.Only.refl _ _ | apply OnlyR.next | apply draw_only | apply emit_only | apply updMeter_only | apply State.Only.ite_ | apply State.Only.ite2 | apply OnlyR.ite_
    | (show sub _ _ = true; decide)
    | with_reducible first | refine State.Only.snd (by assumption) ?_ | refine State.Only.snd2 (by assumption) ?_ | refine State.Only.snd3 (by assumption) ?_

theorem execMeterRunLow_only (s : State)  : OnlyR [.log, .collator, .reg .colEv, .reg .qctHold, .reg .logCtl] s (execMeterRunLow s) := by
  unfold execMeterRunLow
  repeat' first
    | with_reducible first | assumption | exact State.Only.refl _ _ | apply OnlyR.next | apply hubHold_only | apply logOther_only | apply State.Only.ite_ | apply OnlyR.ite_ | apply State.Only.foldl_ | apply State.Only.foldl2 | apply State.Only.foldl3
    | (show sub _ _ = true; decide)
    | (intro _ _ hx)

/-! ### Trust -/

theorem writeOtpCmd_only (fn : Nat) (v : BitVec 64) (hO : State.Only ps z s) (hM : sub [.log, .collator, .trust, .reg .colEv, .reg .logCtl, .reg .truAnchorStat, .reg .truOtpcmd] ps = true) :
    State.Only ps z (State.writeOtpCmd s fn v) := by
  refine hO.step ?_ hM
  unfold State.writeOtpCmd
  repeat' first
    | with_reducible first | assumption | exact State.Only.refl _ _ | apply ignored_only | apply writeReg_only | apply only_setF | apply State.Only.ite_
    | (show sub _ _ = true; decide)
    | (intro _ hx)
    | (extract_lets +onlyGivenNames y; with_reducible refine State.Only.cut y ?_ ?_ <;> [dsimp only [y]; (clear_value y; intro hy)])
    | (extract_lets +onlyGivenNames y; clear_value y)
    | split
    | with_reducible refine only_onSys ?_ _ (fun p hp x => by cases p <;> first | exact absurd (by decide) hp | simp [Part.same, State.reg, State.onSys])

theorem execOtpProgram_only (s : State) (v : BitVec 64) : OnlyR [.log, .collator, .trust, .reg .colEv, .reg .logCtl, .reg .truAnchorStat, .reg .truOtpcmd] s (execOtpProgram v s) := by
  unfold execOtpProgram
  repeat' first
    | with_reducible first | assumption | exact State.Only.refl _ _ | apply OnlyR.next | apply bar_only | apply writeOtpCmd_only
    | (show sub _ _ = true; decide)
    | (intro _ hx)

theorem execOtpRevoke_only (s : State) (v : BitVec 64) : OnlyR [.log, .collator, .trust, .reg .colEv, .reg .logCtl, .reg .truAnchorStat, .reg .truOtpcmd] s (execOtpRevoke v s) := by
  unfold execOtpRevoke
  repeat' first
    | with_reducible first | assumption | exact State.Only.refl _ _ | apply OnlyR.next | apply bar_only | apply writeOtpCmd_only
    | (show sub _ _ = true; decide)
    | (intro _ hx)

theorem execOtpProgramDone_only (s : State) (readback : BitVec 256) : OnlyR [.trust, .reg .truAnchorStat, .reg .truAnchorHash, .reg .truOtpcmd] s (execOtpProgramDone readback s) := by
  unfold execOtpProgramDone
  repeat' first
    | with_reducible first | assumption | exact State.Only.refl _ _ | apply OnlyR.next | apply only_setReg | apply only_setF | apply State.Only.ite_ | apply OnlyR.ite_ | apply State.Only.foldl_ | apply State.Only.foldl2 | apply State.Only.foldl3
    | (show sub _ _ = true; decide)
    | (intro _ _ hx)
    | (extract_lets +onlyGivenNames y; with_reducible refine State.Only.cut y ?_ ?_ <;> [dsimp only [y]; (clear_value y; intro hy)])
    | (extract_lets +onlyGivenNames y; with_reducible refine OnlyR.cut y ?_ ?_ <;> [dsimp only [y]; (clear_value y; intro hy)])
    | (extract_lets +onlyGivenNames y; clear_value y)
    | split
    | with_reducible first | refine State.Only.snd (by assumption) ?_ | refine State.Only.snd2 (by assumption) ?_ | refine State.Only.snd3 (by assumption) ?_
    | with_reducible refine only_onSys ?_ _ (fun p hp x => by cases p <;> first | exact absurd (by decide) hp | simp [Part.same, State.reg, State.onSys])

theorem writeAttCmd_only (fn f : Nat) (v : BitVec 64) (hO : State.Only ps z s) (hM : sub [.log, .collator, .trust, .reg .colEv, .reg .logCtl, .reg .truAttCmd, .reg .truAttStat] ps = true) :
    State.Only ps z (State.writeAttCmd s fn f v) := by
  refine hO.step ?_ hM
  unfold State.writeAttCmd
  repeat' first
    | with_reducible first | assumption | exact State.Only.refl _ _ | apply ignored_only | apply writeReg_only | apply only_putN | apply only_setF | apply State.Only.ite_
    | (show sub _ _ = true; decide)
    | (intro _ hx)
    | (extract_lets +onlyGivenNames y; with_reducible refine State.Only.cut y ?_ ?_ <;> [dsimp only [y]; (clear_value y; intro hy)])
    | (extract_lets +onlyGivenNames y; clear_value y)
    | split
    | with_reducible refine only_onSys ?_ _ (fun p hp x => by cases p <;> first | exact absurd (by decide) hp | simp [Part.same, State.reg, State.onSys])

theorem execAttestationGo_only (s : State) (fn : FnId) (f : FnId) (v : BitVec 64) : OnlyR [.log, .collator, .trust, .reg .colEv, .reg .logCtl, .reg .truAttCmd, .reg .truAttStat] s (execAttestationGo fn f v s) := by
  unfold execAttestationGo
  repeat' first
    | with_reducible first | assumption | exact State.Only.refl _ _ | apply OnlyR.next | apply bar_only | apply writeAttCmd_only
    | (show sub _ _ = true; decide)
    | (intro _ hx)

theorem writeNonce_only (fn i : Nat) (v : BitVec 64) (hO : State.Only ps z s) (hM : sub [.log, .collator, .reg .colEv, .reg .logCtl, .reg .truAttNonce] ps = true) :
    State.Only ps z (State.writeNonce s fn i v) := by
  refine hO.step ?_ hM
  unfold State.writeNonce
  repeat' first
    | with_reducible first | assumption | exact State.Only.refl _ _ | apply writeReg_only | apply ignored_only | (rw [id_eq]; assumption) | apply State.Only.ite_
    | (show sub _ _ = true; decide)
    | (intro _ hx)

theorem refuseAtt_only (f : Nat) (hO : State.Only ps z s) (hM : sub [.reg .truAttStat] ps = true) :
    State.Only ps z (State.refuseAtt s f) := by
  refine hO.step ?_ hM
  unfold State.refuseAtt
  repeat' first
    | with_reducible first | assumption | exact State.Only.refl _ _ | apply only_putN | apply only_setF
    | (show sub _ _ = true; decide)

theorem execAttestationService_only (s : State)  : OnlyR [.trust, .reg .truIdstat, .reg .truAttStat] s (execAttestationService s) := by
  unfold execAttestationService
  repeat' first
    | with_reducible first | assumption | exact State.Only.refl _ _ | apply OnlyR.next | apply refuseAtt_only | apply only_setF | apply only_putN | apply State.Only.ite_ | apply OnlyR.ite_
    | (show sub _ _ = true; decide)
    | (extract_lets +onlyGivenNames y; with_reducible refine State.Only.cut y ?_ ?_ <;> [dsimp only [y]; (clear_value y; intro hy)])
    | (extract_lets +onlyGivenNames y; with_reducible refine OnlyR.cut y ?_ ?_ <;> [dsimp only [y]; (clear_value y; intro hy)])
    | (extract_lets +onlyGivenNames y; clear_value y)
    | split
    | with_reducible first | refine State.Only.snd (by assumption) ?_ | refine State.Only.snd2 (by assumption) ?_ | refine State.Only.snd3 (by assumption) ?_
    | with_reducible refine only_onSys ?_ _ (fun p hp x => by cases p <;> first | exact absurd (by decide) hp | simp [Part.same, State.reg, State.onSys])

theorem writePacked_only (sec : Nat) (bytes : List Byte) (hO : State.Only ps z s) (hM : sub [.dram] ps = true) :
    State.Only ps z (State.writePacked s sec bytes) := by
  refine hO.step ?_ hM
  unfold State.writePacked
  repeat' first
    | with_reducible first | assumption | exact State.Only.refl _ _ | apply writeSector_only | apply State.Only.foldl_ | apply State.Only.foldl2 | apply State.Only.foldl3
    | (show sub _ _ = true; decide)
    | (intro _ _ hx)

theorem execAttestationWritten_only (s : State)  : OnlyR [.dram, .trust, .reg .truAttStat] s (execAttestationWritten s) := by
  unfold execAttestationWritten
  repeat' first
    | with_reducible first | assumption | exact State.Only.refl _ _ | apply OnlyR.next | apply only_setF | apply only_putN | apply writePacked_only
    | (show sub _ _ = true; decide)
    | (extract_lets +onlyGivenNames y; with_reducible refine State.Only.cut y ?_ ?_ <;> [dsimp only [y]; (clear_value y; intro hy)])
    | (extract_lets +onlyGivenNames y; with_reducible refine OnlyR.cut y ?_ ?_ <;> [dsimp only [y]; (clear_value y; intro hy)])
    | (extract_lets +onlyGivenNames y; clear_value y)
    | split
    | with_reducible first | refine State.Only.snd (by assumption) ?_ | refine State.Only.snd2 (by assumption) ?_ | refine State.Only.snd3 (by assumption) ?_
    | with_reducible refine only_onSys ?_ _ (fun p hp x => by cases p <;> first | exact absurd (by decide) hp | simp [Part.same, State.reg, State.onSys])

end Sys2Proof.Machine
end

