-- ==== Sys2Proof/Laws/FramePower.lean ====
section
/-!
SUPPORT. The frames of the operations of power, of boot and of wake. Each says which parts of the state an operation may change.
-/
namespace Sys2Proof.Machine

variable {ps : List Part} {z s : State}

/-! ### Power -/

theorem loseRegs_only (e : Nat) (concerns : RegId → Nat → Bool) (hO : State.Only ps z s) (hM : sub (plusRegs []) ps = true) :
    State.Only ps z (State.loseRegs s e concerns) := by
  refine only_regs hO _ (canonicalFrom_filterMap _ _ ?_ _ _) fun r => mem_of_sub hM (List.mem_append_right _ (mem_allRegs r))
  intro p q hp h
  dsimp only at h
  split at h
  · cases h; exact ⟨rfl, hp⟩
  · split at h
    · split at h
      · cases h
      · cases h; exact ⟨rfl, by assumption⟩
    · cases h; exact ⟨rfl, hp⟩

theorem setDom_only (d st : Nat) (hO : State.Only ps z s) (hM : sub [.reg .pwrDom] ps = true) :
    State.Only ps z (State.setDom s d st) := by
  refine hO.step ?_ hM
  unfold State.setDom
  repeat' first
    | with_reducible first | assumption | exact State.Only.refl _ _ | apply only_putN
    | (show sub _ _ = true; decide)

theorem dropCore_only (c : Nat) (hO : State.Only ps z s) (hM : sub [.outs, .log, .collator, .cores, .ring, .loader, .reg .hubMsixPba, .reg .colStatus, .reg .colEv, .reg .colLock, .reg .colStrStat, .reg .logCtl, .reg .awlStat, .reg .awlFault] ps = true) :
    State.Only ps z (State.dropCore s c) := by
  refine hO.step ?_ hM
  unfold State.dropCore
  repeat' first
    | with_reducible first | assumption | exact State.Only.refl _ _ | apply setCore_only | apply resetCore_only
    | (show sub _ _ = true; decide)
    | (extract_lets +onlyGivenNames y; with_reducible refine State.Only.cut y ?_ ?_ <;> [dsimp only [y]; (clear_value y; intro hy)])
    | (extract_lets +onlyGivenNames y; clear_value y)
    | with_reducible refine only_onSys ?_ _ (fun p hp x => by cases p <;> first | exact absurd (by decide) hp | simp [Part.same, State.reg, State.onSys])

theorem clearQuadrant_only (q : Nat) (hO : State.Only ps z s) (hM : sub [.cells, .gatherings] ps = true) :
    State.Only ps z (State.clearQuadrant s q) := by
  refine hO.step ?_ hM
  unfold State.clearQuadrant
  repeat' first
    | with_reducible first | assumption | exact State.Only.refl _ _
    | (show sub _ _ = true; decide)
    | with_reducible refine only_onArr ?_ _ (fun p hp x => by cases p <;> first | exact absurd (by decide) hp | simp [Part.same, State.reg, State.onArr])

theorem loseRegion_only (r : Nat) (hO : State.Only ps z s) (hM : sub [.free, .gatherings, .regions, .collator, .bookmarks, .reg .colEv, .reg .colStrStat, .reg .bndStat, .reg .bndCase, .reg .qctCommitted, .reg .qctExec, .reg .qctStatus, .reg .qctHold, .reg .qctRbStat, .reg .qctBmkStat, .reg .qctBmkValid] ps = true) :
    State.Only ps z (State.loseRegion s r) := by
  refine hO.step ?_ hM
  unfold State.loseRegion
  repeat' first
    | with_reducible first | assumption | exact State.Only.refl _ _ | apply unbind_only | apply only_putN | apply State.Only.ite_
    | (show sub _ _ = true; decide)

theorem dropQuadrant_only (q : Nat) (hO : State.Only ps z s) (hM : sub (plusRegs [.free, .outs, .log, .cells, .gatherings, .regions, .collator, .cores, .ring, .pads, .loader, .bookmarks]) ps = true) :
    State.Only ps z (State.dropQuadrant s q) := by
  refine hO.step ?_ hM
  unfold State.dropQuadrant
  repeat' first
    | with_reducible first | assumption | exact State.Only.refl _ _ | apply latchBank_only | apply loseRegion_only | apply dropCore_only | apply loseRegs_only | apply clearQuadrant_only | apply setCore_only | apply setStation_only | apply only_setF | apply updStation_only | apply State.Only.foldl_ | apply State.Only.foldl2 | apply State.Only.foldl3
    | (with_reducible show sub (plusRegs _) (plusRegs _) = true; exact sub_regs' (by decide))
    | with_reducible exact sub_reg _
    | (with_reducible show sub _ (plusRegs _) = true; exact sub_regs (by decide))
    | with_reducible apply sub_reg_cons
    | (show sub _ _ = true; decide)
    | (intro _ _ hx)

theorem clearHub_only (hO : State.Only ps z s) (hM : sub [.regions, .relay, .fuist, .collator, .ring, .pads, .loader, .bookmarks, .meter, .binding, .trust, .upkeep] ps = true) :
    State.Only ps z (State.clearHub s) := by
  refine hO.step ⟨fun p hp => ?_, canonical_eq rfl rfl rfl⟩ hM
  cases p <;> first | exact absurd (by decide) hp | simp [Part.same, State.reg, State.clearHub]

theorem dropHub_only (hO : State.Only ps z s) (hM : sub (plusRegs [.regions, .relay, .fuist, .collator, .ring, .pads, .loader, .bookmarks, .meter, .binding, .trust, .upkeep]) ps = true) :
    State.Only ps z (State.dropHub s) := by
  refine hO.step ?_ hM
  unfold State.dropHub
  repeat' first
    | with_reducible first | assumption | exact State.Only.refl _ _ | apply loseRegs_only | apply clearHub_only
    | (with_reducible show sub (plusRegs _) (plusRegs _) = true; exact sub_regs' (by decide))
    | with_reducible exact sub_reg _
    | (with_reducible show sub _ (plusRegs _) = true; exact sub_regs (by decide))

theorem dropLinks_only (hO : State.Only ps z s) (hM : sub [.fuist, .collator, .reg .colEv, .reg .fstPortStat] ps = true) :
    State.Only ps z (State.dropLinks s) := by
  refine hO.step ?_ hM
  unfold State.dropLinks
  repeat' first
    | with_reducible first | assumption | exact State.Only.refl _ _ | apply portOff_only | apply State.Only.foldl_ | apply State.Only.foldl2 | apply State.Only.foldl3
    | (show sub _ _ = true; decide)
    | (intro _ _ hx)

theorem downEffect_only (d : Nat) (hO : State.Only ps z s) (hM : sub (plusRegs [.free, .outs, .log, .cells, .gatherings, .regions, .relay, .fuist, .collator, .cores, .ring, .pads, .loader, .bookmarks, .meter, .binding, .trust, .boot, .upkeep]) ps = true) :
    State.Only ps z (State.downEffect s d) := by
  refine hO.step ?_ hM
  unfold State.downEffect
  repeat' first
    | with_reducible first | assumption | exact State.Only.refl _ _ | apply dropHub_only | apply loseRegs_only | apply dropLinks_only | apply dropQuadrant_only | apply State.Only.ite_
    | (with_reducible show sub (plusRegs _) (plusRegs _) = true; exact sub_regs' (by decide))
    | with_reducible exact sub_reg _
    | (with_reducible show sub _ (plusRegs _) = true; exact sub_regs (by decide))
    | with_reducible apply sub_reg_cons
    | (show sub _ _ = true; decide)
    | split
    | with_reducible refine only_onSys ?_ _ (fun p hp x => by cases p <;> first | exact absurd (by decide) hp | simp [Part.same, State.reg, State.onSys])

theorem stopTclk_only (hO : State.Only ps z s) (hM : sub [.power] ps = true) :
    State.Only ps z (State.stopTclk s) := by
  refine hO.step ?_ hM
  unfold State.stopTclk
  repeat' first
    | with_reducible first | assumption | exact State.Only.refl _ _ | apply State.Only.ite_
    | (show sub _ _ = true; decide)
    | split
    | with_reducible refine only_onSys ?_ _ (fun p hp x => by cases p <;> first | exact absurd (by decide) hp | simp [Part.same, State.reg, State.onSys])

theorem powerDown_only (d : Nat) (hO : State.Only ps z s) (hM : sub (plusRegs [.free, .outs, .log, .cells, .gatherings, .regions, .relay, .fuist, .collator, .cores, .ring, .pads, .loader, .bookmarks, .meter, .binding, .trust, .boot, .upkeep]) ps = true) :
    State.Only ps z (State.powerDown s d) := by
  refine hO.step ?_ hM
  unfold State.powerDown
  repeat' first
    | with_reducible first | assumption | exact State.Only.refl _ _ | apply refreshPower_only | apply requestHold_only | apply drainPorts_only | apply setDom_only | apply downEffect_only | apply State.Only.ite_ | apply State.Only.foldl_ | apply State.Only.foldl2 | apply State.Only.foldl3
    | (with_reducible show sub (plusRegs _) (plusRegs _) = true; exact sub_regs' (by decide))
    | with_reducible exact sub_reg _
    | (with_reducible show sub _ (plusRegs _) = true; exact sub_regs (by decide))
    | with_reducible apply sub_reg_cons
    | (show sub _ _ = true; decide)
    | (intro _ _ hx)

theorem execDomainPowerDown_only (s : State) (d : DomainId) : OnlyR (plusRegs [.free, .outs, .log, .cells, .gatherings, .regions, .relay, .fuist, .collator, .cores, .ring, .pads, .loader, .bookmarks, .meter, .binding, .trust, .boot, .upkeep]) s (execDomainPowerDown d s) := by
  unfold execDomainPowerDown
  repeat' first
    | with_reducible first | assumption | exact State.Only.refl _ _ | apply OnlyR.next | apply powerDown_only
    | (with_reducible show sub (plusRegs _) (plusRegs _) = true; exact sub_regs' (by decide))

theorem execDomainRampdownDone_only (s : State) (d : DomainId) : OnlyR [.power, .reg .pwrDom, .reg .pwrStatus] s (execDomainRampdownDone d s) := by
  unfold execDomainRampdownDone
  repeat' first
    | with_reducible first | assumption | exact State.Only.refl _ _ | apply OnlyR.next | apply refreshPower_only | apply startUps_only | apply stopTclk_only | apply setDom_only | apply State.Only.ite_ | apply OnlyR.ite_
    | (show sub _ _ = true; decide)

theorem raiseQuadrant_only (q : Nat) (hO : State.Only ps z s) (hM : sub [.log, .collator, .reg .colEv, .reg .spnSta, .reg .logCtl] ps = true) :
    State.Only ps z (State.raiseQuadrant s q) := by
  refine hO.step ?_ hM
  unfold State.raiseQuadrant
  repeat' first
    | with_reducible first | assumption | exact State.Only.refl _ _ | apply setStation_only | apply only_clrF | apply State.Only.foldl_ | apply State.Only.foldl2 | apply State.Only.foldl3
    | (show sub _ _ = true; decide)
    | (intro _ _ hx)

theorem trainPorts_only (hO : State.Only ps z s) (hM : sub [.fuist, .collator, .reg .colEv, .reg .fstPortStat] ps = true) :
    State.Only ps z (State.trainPorts s) := by
  refine hO.step ?_ hM
  unfold State.trainPorts
  repeat' first
    | with_reducible first | assumption | exact State.Only.refl _ _ | apply trainPort_only | apply State.Only.ite_ | apply State.Only.foldl_ | apply State.Only.foldl2 | apply State.Only.foldl3
    | (show sub _ _ = true; decide)
    | (intro _ _ hx)

theorem upEffect_only (d : Nat) (hO : State.Only ps z s) (hM : sub [.outs, .log, .fuist, .collator, .migration, .boot, .reg .hubHqStat, .reg .hubMsixPba, .reg .colLedger, .reg .colDlCfg, .reg .colEv, .reg .colTim, .reg .colLock, .reg .colStrStat, .reg .spnSta, .reg .memChStat, .reg .fstPortStat, .reg .logCtl] ps = true) :
    State.Only ps z (State.upEffect s d) := by
  refine hO.step ?_ hM
  unfold State.upEffect
  repeat' first
    | with_reducible first | assumption | exact State.Only.refl _ _ | apply restoreCollator_only | apply markChannels_only | apply trainPorts_only | apply raiseQuadrant_only | apply State.Only.ite_
    | (show sub _ _ = true; decide)
    | split
    | with_reducible refine only_onSys ?_ _ (fun p hp x => by cases p <;> first | exact absurd (by decide) hp | simp [Part.same, State.reg, State.onSys])

theorem powerGood_only (d : Nat) (hO : State.Only ps z s) (hM : sub [.outs, .log, .fuist, .collator, .migration, .power, .boot, .reg .hubHqStat, .reg .hubMsixPba, .reg .colLedger, .reg .colDlCfg, .reg .colEv, .reg .colTim, .reg .colLock, .reg .colStrStat, .reg .spnSta, .reg .memChStat, .reg .fstPortStat, .reg .pwrDom, .reg .pwrStatus, .reg .logCtl] ps = true) :
    State.Only ps z (State.powerGood s d) := by
  refine hO.step ?_ hM
  unfold State.powerGood
  repeat' first
    | with_reducible first | assumption | exact State.Only.refl _ _ | apply refreshPower_only | apply startUps_only | apply upEffect_only | apply setDom_only
    | (show sub _ _ = true; decide)
    | (extract_lets +onlyGivenNames y; with_reducible refine State.Only.cut y ?_ ?_ <;> [dsimp only [y]; (clear_value y; intro hy)])
    | (extract_lets +onlyGivenNames y; clear_value y)
    | with_reducible refine only_onSys ?_ _ (fun p hp x => by cases p <;> first | exact absurd (by decide) hp | simp [Part.same, State.reg, State.onSys])

theorem execDomainPowerUp_only (s : State) (d : DomainId) : OnlyR [.reg .pwrDom, .reg .pwrStatus] s (execDomainPowerUp d s) := by
  unfold execDomainPowerUp
  repeat' first
    | with_reducible first | assumption | exact State.Only.refl _ _ | apply OnlyR.next | apply refreshPower_only | apply startUp_only
    | (show sub _ _ = true; decide)

theorem execDomainPowerGood_only (s : State) (d : DomainId) : OnlyR [.outs, .log, .fuist, .collator, .migration, .power, .boot, .reg .hubHqStat, .reg .hubMsixPba, .reg .colLedger, .reg .colDlCfg, .reg .colEv, .reg .colTim, .reg .colLock, .reg .colStrStat, .reg .spnSta, .reg .memChStat, .reg .fstPortStat, .reg .pwrDom, .reg .pwrStatus, .reg .logCtl] s (execDomainPowerGood d s) := by
  unfold execDomainPowerGood
  repeat' first
    | with_reducible first | assumption | exact State.Only.refl _ _ | apply OnlyR.next | apply powerGood_only | apply State.Only.ite_ | apply OnlyR.ite_
    | (show sub _ _ = true; decide)

theorem failDomain_only (d : Nat) (hO : State.Only ps z s) (hM : sub [.log, .collator, .power, .reg .colEv, .reg .pwrDom, .reg .pwrStatus, .reg .logCtl] ps = true) :
    State.Only ps z (State.failDomain s d) := by
  refine hO.step ?_ hM
  unfold State.failDomain
  repeat' first
    | with_reducible first | assumption | exact State.Only.refl _ _ | apply refreshPower_only | apply startUps_only | apply logOther_only | apply raise_only | apply setDom_only
    | (show sub _ _ = true; decide)
    | (extract_lets +onlyGivenNames y; with_reducible refine State.Only.cut y ?_ ?_ <;> [dsimp only [y]; (clear_value y; intro hy)])
    | (extract_lets +onlyGivenNames y; clear_value y)
    | with_reducible refine only_onSys ?_ _ (fun p hp x => by cases p <;> first | exact absurd (by decide) hp | simp [Part.same, State.reg, State.onSys])

theorem execPowerGoodTimeout_only (s : State) (d : DomainId) : OnlyR [.log, .collator, .power, .reg .colEv, .reg .pwrDom, .reg .pwrStatus, .reg .logCtl] s (execPowerGoodTimeout d s) := by
  unfold execPowerGoodTimeout
  repeat' first
    | with_reducible first | assumption | exact State.Only.refl _ _ | apply OnlyR.next | apply failDomain_only | apply State.Only.ite_ | apply OnlyR.ite_
    | (show sub _ _ = true; decide)
    | split
    | with_reducible refine only_onSys ?_ _ (fun p hp x => by cases p <;> first | exact absurd (by decide) hp | simp [Part.same, State.reg, State.onSys])

theorem writeDom_only (fn d : Nat) (v : BitVec 64) (hO : State.Only ps z s) (hM : sub [.reg .pwrDom, .reg .pwrStatus] ps = true) :
    State.Only ps z (State.writeDom s fn d v) := by
  refine hO.step ?_ hM
  unfold State.writeDom
  repeat' first
    | with_reducible first | assumption | exact State.Only.refl _ _ | apply vote_only | apply State.Only.ite_
    | (show sub _ _ = true; decide)

theorem execDomainVoteWrite_only (s : State) (fn : FnId) (d : DomainId) (v : BitVec 64) : OnlyR [.reg .pwrDom, .reg .pwrStatus] s (execDomainVoteWrite fn d v s) := by
  unfold execDomainVoteWrite
  repeat' first
    | with_reducible first | assumption | exact State.Only.refl _ _ | apply OnlyR.next | apply bar_only | apply writeDom_only
    | (show sub _ _ = true; decide)
    | (intro _ hx)

theorem execFuistPartnerVoteClear_only (s : State)  : OnlyR [.reg .pwrDom, .reg .pwrStatus] s (execFuistPartnerVoteClear s) := by
  unfold execFuistPartnerVoteClear
  repeat' first
    | with_reducible first | assumption | exact State.Only.refl _ _ | apply OnlyR.next | apply vote_only | apply State.Only.ite_ | apply OnlyR.ite_
    | (show sub _ _ = true; decide)

theorem pauseRegions_only (hO : State.Only ps z s) (hM : sub [.regions] ps = true) :
    State.Only ps z (State.pauseRegions s) := by
  refine hO.step ?_ hM
  unfold State.pauseRegions
  repeat' first
    | with_reducible first | assumption | exact State.Only.refl _ _ | apply updRegion_only | apply State.Only.foldl_ | apply State.Only.foldl2 | apply State.Only.foldl3
    | (show sub _ _ = true; decide)
    | (intro _ _ hx)

theorem writeAclk_only (fn : Nat) (v : BitVec 64) (hO : State.Only ps z s) (hM : sub [.log, .regions, .collator, .reg .colEv, .reg .clkAclk, .reg .logCtl] ps = true) :
    State.Only ps z (State.writeAclk s fn v) := by
  refine hO.step ?_ hM
  unfold State.writeAclk
  repeat' first
    | with_reducible first | assumption | exact State.Only.refl _ _ | apply ignored_only | apply writeReg_only | apply raise_only | apply only_putN | apply only_setF | apply pauseRegions_only | apply State.Only.ite_
    | (show sub _ _ = true; decide)
    | (intro _ hx)

theorem execOpWrite_only (s : State) (v : BitVec 64) : OnlyR [.log, .regions, .collator, .reg .colEv, .reg .clkAclk, .reg .logCtl] s (execOpWrite v s) := by
  unfold execOpWrite
  repeat' first
    | with_reducible first | assumption | exact State.Only.refl _ _ | apply OnlyR.next | apply bar_only | apply writeAclk_only
    | (show sub _ _ = true; decide)
    | (intro _ hx)

theorem switchPoint_only (hO : State.Only ps z s) (hM : sub [.reg .fstTiming, .reg .clkAclk] ps = true) :
    State.Only ps z (State.switchPoint s) := by
  refine hO.step ?_ hM
  unfold State.switchPoint
  repeat' first
    | with_reducible first | assumption | exact State.Only.refl _ _ | apply only_clrF | apply only_putN | apply setTiming_only
    | (show sub _ _ = true; decide)
    | (extract_lets +onlyGivenNames y; with_reducible refine State.Only.cut y ?_ ?_ <;> [dsimp only [y]; (clear_value y; intro hy)])
    | (extract_lets +onlyGivenNames y; clear_value y)
    | split
    | with_reducible first | refine State.Only.snd (by assumption) ?_ | refine State.Only.snd2 (by assumption) ?_ | refine State.Only.snd3 (by assumption) ?_

theorem resumePaused_only (pads : BitVec 192) (hO : State.Only ps z s) (hM : sub [.free, .gatherings, .regions, .collator, .reg .colEv, .reg .bndStat, .reg .bndCase, .reg .qctExec, .reg .qctStatus] ps = true) :
    State.Only ps z (State.resumePaused s pads) := by
  refine hO.step ?_ hM
  unfold State.resumePaused
  repeat' first
    | with_reducible first | assumption | exact State.Only.refl _ _ | apply openQuire_only | apply updRegion_only | apply State.Only.foldl_ | apply State.Only.foldl2 | apply State.Only.foldl3
    | (show sub _ _ = true; decide)
    | (intro _ _ hx)

theorem execOpSwitch_only (s : State) (pads : BitVec 192) : OnlyR [.free, .gatherings, .regions, .collator, .reg .colEv, .reg .bndStat, .reg .bndCase, .reg .qctExec, .reg .qctStatus, .reg .fstTiming, .reg .clkAclk] s (execOpSwitch pads s) := by
  unfold execOpSwitch
  repeat' first
    | with_reducible first | assumption | exact State.Only.refl _ _ | apply OnlyR.next | apply pauseRegions_only | apply resumePaused_only | apply switchPoint_only | apply State.Only.ite_ | apply OnlyR.ite_
    | (show sub _ _ = true; decide)

theorem execArrayLoopRelock_only (s : State)  : OnlyR [.collator, .reg .colEv, .reg .fstTiming, .reg .clkAclk, .reg .clkStat] s (execArrayLoopRelock s) := by
  unfold execArrayLoopRelock
  repeat' first
    | with_reducible first | assumption | exact State.Only.refl _ _ | apply OnlyR.next | apply raise_only | apply switchPoint_only | apply only_putN | apply State.Only.ite_ | apply OnlyR.ite_
    | (show sub _ _ = true; decide)

theorem setVok_only (hO : State.Only ps z s) (hM : sub [.reg .pwrVarr] ps = true) :
    State.Only ps z (State.setVok s) := by
  refine hO.step ?_ hM
  unfold State.setVok
  repeat' first
    | with_reducible first | assumption | exact State.Only.refl _ _ | apply only_setF | apply only_clrF | apply State.Only.ite_
    | (show sub _ _ = true; decide)

theorem writeVarr_only (fn : Nat) (v : BitVec 64) (hO : State.Only ps z s) (hM : sub [.log, .collator, .reg .colEv, .reg .pwrVarr, .reg .logCtl] ps = true) :
    State.Only ps z (State.writeVarr s fn v) := by
  refine hO.step ?_ hM
  unfold State.writeVarr
  repeat' first
    | with_reducible first | assumption | exact State.Only.refl _ _ | apply ignored_only | apply writeReg_only | apply raise_only | apply only_setF | apply setVok_only | apply State.Only.ite_
    | (show sub _ _ = true; decide)
    | (intro _ hx)

theorem execVsetWrite_only (s : State) (v : BitVec 64) : OnlyR [.log, .collator, .reg .colEv, .reg .pwrVarr, .reg .logCtl] s (execVsetWrite v s) := by
  unfold execVsetWrite
  repeat' first
    | with_reducible first | assumption | exact State.Only.refl _ _ | apply OnlyR.next | apply bar_only | apply writeVarr_only
    | (show sub _ _ = true; decide)
    | (intro _ hx)

theorem execVarrSettled_only (s : State) (code : BitVec 8) : OnlyR [.reg .pwrVarr] s (execVarrSettled code s) := by
  unfold execVarrSettled
  repeat' first
    | with_reducible first | assumption | exact State.Only.refl _ _ | apply OnlyR.next | apply setVok_only | apply only_putF
    | (show sub _ _ = true; decide)

theorem execThermalCompare_only (s : State)  : OnlyR [.collator, .reg .colEv, .reg .pwrStatus] s (execThermalCompare s) := by
  unfold execThermalCompare
  repeat' first
    | with_reducible first | assumption | exact State.Only.refl _ _ | apply OnlyR.next | apply only_putN | apply raise_only | apply only_setF | apply State.Only.ite_ | apply OnlyR.ite_
    | (show sub _ _ = true; decide)

theorem allOff_only (hO : State.Only ps z s) (hM : sub (plusRegs [.free, .outs, .log, .cells, .gatherings, .regions, .relay, .fuist, .collator, .cores, .ring, .pads, .loader, .bookmarks, .meter, .binding, .trust, .boot, .upkeep]) ps = true) :
    State.Only ps z (State.allOff s) := by
  refine hO.step ?_ hM
  unfold State.allOff
  repeat' first
    | with_reducible first | assumption | exact State.Only.refl _ _ | apply setDom_only | apply downEffect_only | apply State.Only.ite_ | apply State.Only.foldl_ | apply State.Only.foldl2 | apply State.Only.foldl3
    | (with_reducible show sub (plusRegs _) (plusRegs _) = true; exact sub_regs' (by decide))
    | with_reducible exact sub_reg _
    | (with_reducible show sub _ (plusRegs _) = true; exact sub_regs (by decide))
    | with_reducible apply sub_reg_cons
    | (show sub _ _ = true; decide)
    | (intro _ _ hx)

theorem latchAll_only (hO : State.Only ps z s) (hM : sub [.pads, .reg .padHold] ps = true) :
    State.Only ps z (State.latchAll s) := by
  refine hO.step ?_ hM
  unfold State.latchAll
  repeat' first
    | with_reducible first | assumption | exact State.Only.refl _ _ | apply latchBank_only | apply State.Only.foldl_ | apply State.Only.foldl2 | apply State.Only.foldl3
    | (show sub _ _ = true; decide)
    | (intro _ _ hx)

theorem trip_only (sensor temp : Nat) (hO : State.Only ps z s) (hM : sub (plusRegs [.free, .outs, .log, .cells, .gatherings, .regions, .relay, .fuist, .collator, .cores, .ring, .pads, .loader, .bookmarks, .meter, .binding, .trust, .power, .boot, .upkeep]) ps = true) :
    State.Only ps z (State.trip s sensor temp) := by
  refine hO.step ?_ hM
  unfold State.trip
  repeat' first
    | with_reducible first | assumption | exact State.Only.refl _ _ | apply logEntry_only | apply latchAll_only | apply allOff_only | apply refreshPower_only | apply stopTclk_only
    | (with_reducible show sub (plusRegs _) (plusRegs _) = true; exact sub_regs' (by decide))
    | with_reducible exact sub_reg _
    | (with_reducible show sub _ (plusRegs _) = true; exact sub_regs (by decide))
    | with_reducible apply sub_reg_cons
    | (show sub _ _ = true; decide)
    | (extract_lets +onlyGivenNames y; with_reducible refine State.Only.cut y ?_ ?_ <;> [dsimp only [y]; (clear_value y; intro hy)])
    | (extract_lets +onlyGivenNames y; clear_value y)
    | with_reducible refine only_onSys ?_ _ (fun p hp x => by cases p <;> first | exact absurd (by decide) hp | simp [Part.same, State.reg, State.onSys])

theorem execThermalTrip_only (s : State) (sensor : Fin 64) (temp : BitVec 8) : OnlyR (plusRegs [.free, .outs, .log, .cells, .gatherings, .regions, .relay, .fuist, .collator, .cores, .ring, .pads, .loader, .bookmarks, .meter, .binding, .trust, .power, .boot, .upkeep]) s (execThermalTrip sensor temp s) := by
  unfold execThermalTrip
  repeat' first
    | with_reducible first | assumption | exact State.Only.refl _ _ | apply OnlyR.next | apply trip_only | apply State.Only.ite_ | apply OnlyR.ite_
    | (with_reducible show sub (plusRegs _) (plusRegs _) = true; exact sub_regs' (by decide))

theorem execAoTempSample_only (s : State) (temp : Int) : OnlyR [.reg .pwrAotemp] s (execAoTempSample temp s) := by
  unfold execAoTempSample
  repeat' first
    | with_reducible first | assumption | exact State.Only.refl _ _ | apply OnlyR.next | apply only_putF | apply only_setF | apply only_clrF | apply State.Only.ite_ | apply OnlyR.ite_
    | (show sub _ _ = true; decide)

theorem execLoopLockLoss_only (s : State) (array : Bool) : OnlyR [.log, .collator, .reg .colEv, .reg .clkStat, .reg .logCtl] s (execLoopLockLoss array s) := by
  cases array <;> simp only [execLoopLockLoss, lockField, Bool.false_eq_true, if_true, if_false] <;> exact .next (.ite_ (.refl _ _) (logOther_only _ _ (raise_only _ (only_setF (only_setF (only_clrF (.refl _ _) _ _ (by decide)) _ _ (by decide)) _ _ (by decide)) (by decide)) (by decide)))

theorem execLoopRelock_only (s : State) (array : Bool) : OnlyR [.reg .clkStat] s (execLoopRelock array s) := by
  cases array <;> simp only [execLoopRelock, lockField, Bool.false_eq_true, if_true, if_false] <;> exact .next (.ite_ (.refl _ _) (.ite_ (only_clrF (only_setF (.refl _ _) _ _ (by decide)) _ _ (by decide)) (only_setF (.refl _ _) _ _ (by decide))))

theorem releaseBank_only (b : Nat) (hO : State.Only ps z s) (hM : sub [.pads, .reg .padBank, .reg .padHold] ps = true) :
    State.Only ps z (State.releaseBank s b) := by
  refine hO.step ?_ hM
  unfold State.releaseBank
  repeat' first
    | with_reducible first | assumption | exact State.Only.refl _ _ | apply only_putF | apply setBank_only
    | (show sub _ _ = true; decide)
    | (extract_lets +onlyGivenNames y; with_reducible refine State.Only.cut y ?_ ?_ <;> [dsimp only [y]; (clear_value y; intro hy)])
    | (extract_lets +onlyGivenNames y; clear_value y)
    | split
    | with_reducible first | refine State.Only.snd (by assumption) ?_ | refine State.Only.snd2 (by assumption) ?_ | refine State.Only.snd3 (by assumption) ?_
    | with_reducible refine only_onSys ?_ _ (fun p hp x => by cases p <;> first | exact absurd (by decide) hp | simp [Part.same, State.reg, State.onSys])

theorem writePadHold_only (fn : Nat) (v : BitVec 64) (hO : State.Only ps z s) (hM : sub [.log, .collator, .pads, .reg .colEv, .reg .logCtl, .reg .padBank, .reg .padHold] ps = true) :
    State.Only ps z (State.writePadHold s fn v) := by
  refine hO.step ?_ hM
  unfold State.writePadHold
  repeat' first
    | with_reducible first | assumption | exact State.Only.refl _ _ | apply writeReg_only | apply only_setF | apply releaseBank_only | apply State.Only.foldl_ | apply State.Only.foldl2 | apply State.Only.foldl3
    | (show sub _ _ = true; decide)
    | (intro _ _ hx)
    | (intro _ hx)

theorem execPadRelease_only (s : State) (fn : FnId) (v : BitVec 64) : OnlyR [.log, .collator, .pads, .reg .colEv, .reg .logCtl, .reg .padBank, .reg .padHold] s (execPadRelease fn v s) := by
  unfold execPadRelease
  repeat' first
    | with_reducible first | assumption | exact State.Only.refl _ _ | apply OnlyR.next | apply bar_only | apply writePadHold_only
    | (show sub _ _ = true; decide)
    | (intro _ hx)

theorem execBankRampDone_only (s : State) (b : Fin 8) : OnlyR [.reg .padBank] s (execBankRampDone b s) := by
  unfold execBankRampDone
  repeat' first
    | with_reducible first | assumption | exact State.Only.refl _ _ | apply OnlyR.next | apply only_setF | apply State.Only.ite_ | apply OnlyR.ite_
    | (show sub _ _ = true; decide)

theorem writePwrStatus_only (fn : Nat) (v : BitVec 64) (hO : State.Only ps z s) (hM : sub [.log, .collator, .reg .colEv, .reg .pwrStatus, .reg .logCtl] ps = true) :
    State.Only ps z (State.writePwrStatus s fn v) := by
  refine hO.step ?_ hM
  unfold State.writePwrStatus
  repeat' first
    | with_reducible first | assumption | exact State.Only.refl _ _ | apply ignored_only | apply writeReg_only | (rw [id_eq]; assumption) | apply State.Only.ite_
    | (show sub _ _ = true; decide)
    | (intro _ hx)

/-! ### Boot -/

theorem abortAll_only (hO : State.Only ps z s) (hM : sub [.free, .outs, .log, .gatherings, .regions, .collator, .pads, .loader, .bookmarks, .reg .hubMsixPba, .reg .colEv, .reg .bndStat, .reg .bndCase, .reg .bndHash, .reg .qctExec, .reg .qctStatus, .reg .qctHold, .reg .qctRbStat, .reg .qctBmkStat, .reg .qctBmkValid, .reg .logCtl] ps = true) :
    State.Only ps z (State.abortAll s) := by
  refine hO.step ?_ hM
  unfold State.abortAll
  repeat' first
    | with_reducible first | assumption | exact State.Only.refl _ _ | apply failLoad_only | apply abortCtx_only | apply failFlash_only | apply abortOp_only | apply State.Only.ite_ | apply State.Only.foldl_ | apply State.Only.foldl2 | apply State.Only.foldl3
    | (show sub _ _ = true; decide)
    | (intro _ _ hx)

theorem endAll_only (hO : State.Only ps z s) (hM : sub [.free, .outs, .log, .gatherings, .regions, .collator, .cores, .ring, .loader, .bookmarks, .reg .hubMsixPba, .reg .colStatus, .reg .colEv, .reg .colLock, .reg .colStrStat, .reg .bndStat, .reg .bndCase, .reg .qctCommitted, .reg .qctExec, .reg .qctStatus, .reg .qctHold, .reg .qctRbStat, .reg .qctBmkStat, .reg .qctBmkValid, .reg .logCtl, .reg .awlStat, .reg .awlFault] ps = true) :
    State.Only ps z (State.endAll s) := by
  refine hO.step ?_ hM
  unfold State.endAll
  repeat' first
    | with_reducible first | assumption | exact State.Only.refl _ _ | apply unbind_only | apply dropCore_only | apply State.Only.foldl_ | apply State.Only.foldl2 | apply State.Only.foldl3
    | (show sub _ _ = true; decide)
    | (intro _ _ hx)

theorem clearDie_only (hO : State.Only ps z s) (hM : sub [.cells, .gatherings, .regions, .relay, .fuist, .collator, .cores, .ring, .pads, .loader, .bookmarks, .meter, .binding, .trust, .power, .boot, .upkeep] ps = true) :
    State.Only ps z (State.clearDie s) := by
  refine hO.step ⟨fun p hp => ?_, canonical_eq rfl rfl rfl⟩ hM
  cases p <;> first | exact absurd (by decide) hp | simp [Part.same, State.reg, State.clearDie, State.onSys, State.clearHub]

theorem keepBank_only (old : State) (b : Nat) (hO : State.Only ps z s) (hM : sub [.reg .padBank] ps = true) :
    State.Only ps z (State.keepBank s old b) := by
  refine hO.step ?_ hM
  unfold State.keepBank
  repeat' first
    | with_reducible first | assumption | exact State.Only.refl _ _ | apply only_putF | apply only_putN
    | (show sub _ _ = true; decide)

theorem keepUnloaded_only (hO : State.Only ps z s) (hM : sub [.reg .gthCfg] ps = true) :
    State.Only ps z (State.keepUnloaded s) := by
  refine hO.step ?_ hM
  unfold State.keepUnloaded
  repeat' first
    | with_reducible first | assumption | exact State.Only.refl _ _ | apply only_setF | apply State.Only.foldl_ | apply State.Only.foldl2 | apply State.Only.foldl3
    | (show sub _ _ = true; decide)
    | (intro _ _ hx)
    | split
    | with_reducible first | refine State.Only.snd (by assumption) ?_ | refine State.Only.snd2 (by assumption) ?_ | refine State.Only.snd3 (by assumption) ?_

theorem hardReset_only (hO : State.Only ps z s) (hM : sub (plusRegs [.free, .outs, .log, .cells, .gatherings, .regions, .relay, .fuist, .collator, .cores, .ring, .pads, .loader, .bookmarks, .meter, .binding, .trust, .power, .boot, .upkeep, .testPorts, .pcie]) ps = true) :
    State.Only ps z (State.hardReset s) := by
  have h1 := keepUnloaded_only (loseRegs_only Ev.h (fun _ _ => true) (clearDie_only (endAll_only (abortAll_only (.refl (plusRegs [.free, .outs, .log, .cells, .gatherings, .regions, .relay, .fuist, .collator, .cores, .ring, .pads, .loader, .bookmarks, .meter, .binding, .trust, .power, .boot, .upkeep, .testPorts, .pcie]) s)
    (sub_regs (by decide))) (sub_regs (by decide))) (sub_regs (by decide))) (sub_regs' (by decide))) (sub_regs (by decide))
  have h2 := State.Only.foldl_ ((List.range 8).filter s.bankHeld) (f := fun t b => t.keepBank s b) (fun x b hx => keepBank_only s b hx (sub_regs (by decide))) h1
  refine hO.step ?_ hM
  unfold State.hardReset
  extract_lets +onlyGivenNames old u v
  change State.Only (plusRegs [.free, .outs, .log, .cells, .gatherings, .regions, .relay, .fuist, .collator, .cores, .ring, .pads, .loader, .bookmarks, .meter, .binding, .trust, .power, .boot, .upkeep, .testPorts, .pcie]) s v at h2
  clear_value v
  refine h2.step (qs := [.ring, .power, .pads, .boot, .testPorts, .pcie]) ⟨fun p hp => ?_, canonical_eq rfl rfl rfl⟩ (sub_regs (by decide))
  cases p <;> first | exact absurd (by decide) hp | simp [Part.same, State.reg]

theorem warmReset_only (hO : State.Only ps z s) (hM : sub (plusRegs [.free, .outs, .log, .cells, .gatherings, .regions, .relay, .fuist, .collator, .cores, .ring, .pads, .loader, .bookmarks, .meter, .binding, .trust, .power, .boot, .upkeep]) ps = true) :
    State.Only ps z (State.warmReset s) := by
  refine hO.step ?_ hM
  unfold State.warmReset
  repeat' first
    | with_reducible first | assumption | exact State.Only.refl _ _ | apply keepUnloaded_only | apply loseRegs_only | apply clearDie_only | apply endAll_only | apply abortAll_only | apply only_putF
    | (with_reducible show sub (plusRegs _) (plusRegs _) = true; exact sub_regs' (by decide))
    | with_reducible exact sub_reg _
    | (with_reducible show sub _ (plusRegs _) = true; exact sub_regs (by decide))

theorem powerRemoval_only (hO : State.Only ps z s) (hM : sub (plusRegs [.log, .cells, .gatherings, .regions, .relay, .fuist, .collator, .cores, .ring, .dram, .pads, .loader, .bookmarks, .meter, .binding, .trust, .power, .boot, .upkeep, .testPorts, .pcie]) ps = true) :
    State.Only ps z (State.powerRemoval s) := by
  have h1 := loseRegs_only Ev.n (fun _ _ => true) (clearDie_only (.refl (plusRegs [.log, .cells, .gatherings, .regions, .relay, .fuist, .collator, .cores, .ring, .dram, .pads, .loader, .bookmarks, .meter, .binding, .trust, .power, .boot, .upkeep, .testPorts, .pcie]) s) (sub_regs (by decide))) (sub_regs' (by decide))
  refine hO.step ?_ hM
  unfold State.powerRemoval
  extract_lets +onlyGivenNames v
  change State.Only (plusRegs [.log, .cells, .gatherings, .regions, .relay, .fuist, .collator, .cores, .ring, .dram, .pads, .loader, .bookmarks, .meter, .binding, .trust, .power, .boot, .upkeep, .testPorts, .pcie]) s v at h1
  clear_value v
  refine ⟨fun p hp => Part.same_trans (h1.same p hp) ?_, fun hc => ?_⟩
  · have hr : ∀ r, Part.reg r ∈ (plusRegs [.log, .cells, .gatherings, .regions, .relay, .fuist, .collator, .cores, .ring, .dram, .pads, .loader, .bookmarks, .meter, .binding, .trust, .power, .boot, .upkeep, .testPorts, .pcie]) := fun r => List.mem_append_right _ (mem_allRegs r)
    cases p <;> first | exact absurd (hr _) hp | exact absurd (List.mem_append_left _ (by decide)) hp | simp [Part.same]
  · have := h1.form hc
    simp only [State.canonical, Bool.and_eq_true] at this ⊢
    exact ⟨⟨this.1.1, rfl⟩, rfl⟩

theorem domainsOff_only (hO : State.Only ps z s) (hM : sub [.reg .pwrDom, .reg .pwrStatus] ps = true) :
    State.Only ps z (State.domainsOff s) := by
  refine hO.step ?_ hM
  unfold State.domainsOff
  repeat' first
    | with_reducible first | assumption | exact State.Only.refl _ _ | apply refreshPower_only | apply setDom_only | apply State.Only.foldl_ | apply State.Only.foldl2 | apply State.Only.foldl3
    | (show sub _ _ = true; decide)
    | (intro _ _ hx)

theorem domainsUp_only (hO : State.Only ps z s) (hM : sub [.reg .pwrDom] ps = true) :
    State.Only ps z (State.domainsUp s) := by
  refine hO.step ?_ hM
  unfold State.domainsUp
  repeat' first
    | with_reducible first | assumption | exact State.Only.refl _ _ | apply setDom_only | apply State.Only.foldl_ | apply State.Only.foldl2 | apply State.Only.foldl3
    | (show sub _ _ = true; decide)
    | (intro _ _ hx)

theorem applyParams_only (hO : State.Only ps z s) (hM : sub (plusRegs [.log, .collator]) ps = true) :
    State.Only ps z (State.applyParams s) := by
  refine hO.step ?_ hM
  unfold State.applyParams
  repeat' first
    | with_reducible first | assumption | exact State.Only.refl _ _ | apply logEntry_only | apply only_setReg | apply State.Only.foldl_ | apply State.Only.foldl2 | apply State.Only.foldl3
    | (with_reducible show sub (plusRegs _) (plusRegs _) = true; exact sub_regs' (by decide))
    | with_reducible exact sub_reg _
    | (with_reducible show sub _ (plusRegs _) = true; exact sub_regs (by decide))
    | with_reducible apply sub_reg_cons
    | (show sub _ _ = true; decide)
    | (intro _ _ hx)
    | (extract_lets +onlyGivenNames y; with_reducible refine State.Only.cut y ?_ ?_ <;> [dsimp only [y]; (clear_value y; intro hy)])
    | (extract_lets +onlyGivenNames y; clear_value y)
    | split
    | with_reducible first | refine State.Only.snd (by assumption) ?_ | refine State.Only.snd2 (by assumption) ?_ | refine State.Only.snd3 (by assumption) ?_

theorem saveParams_only (ok : Bool) (hO : State.Only ps z s) (hM : sub [.flash, .reg .hubBootpol] ps = true) :
    State.Only ps z (State.saveParams s ok) := by
  refine hO.step ?_ hM
  unfold State.saveParams
  repeat' first
    | with_reducible first | assumption | exact State.Only.refl _ _ | apply eraseFlash_only | apply putFlash_only | apply only_setF | apply State.Only.ite_ | apply State.Only.ite2
    | (show sub _ _ = true; decide)
    | with_reducible first | refine State.Only.snd (by assumption) ?_ | refine State.Only.snd2 (by assumption) ?_ | refine State.Only.snd3 (by assumption) ?_

theorem storeTraining_only (rate : Nat) (hO : State.Only ps z s) (hM : sub [.free, .flash] ps = true) :
    State.Only ps z (State.storeTraining s rate) := by
  refine hO.step ?_ hM
  unfold State.storeTraining
  repeat' first
    | with_reducible first | assumption | exact State.Only.refl _ _ | apply draw_only | apply putFlash_only | apply eraseFlash_only
    | (show sub _ _ = true; decide)
    | with_reducible first | refine State.Only.snd (by assumption) ?_ | refine State.Only.snd2 (by assumption) ?_ | refine State.Only.snd3 (by assumption) ?_

theorem train_only (way : Nat) (hO : State.Only ps z s) (hM : sub [.free, .flash] ps = true) :
    State.Only ps z (State.train s way) := by
  refine hO.step ?_ hM
  unfold State.train
  repeat' first
    | with_reducible first | assumption | exact State.Only.refl _ _ | apply storeTraining_only | apply State.Only.ite_
    | (show sub _ _ = true; decide)

theorem writeBootpol_only (fn : Nat) (v : BitVec 64) (ok : Bool) (hO : State.Only ps z s) (hM : sub [.log, .collator, .flash, .reg .hubBootpol, .reg .colEv, .reg .logCtl] ps = true) :
    State.Only ps z (State.writeBootpol s fn v ok) := by
  refine hO.step ?_ hM
  unfold State.writeBootpol
  repeat' first
    | with_reducible first | assumption | exact State.Only.refl _ _ | apply ignored_only | apply writeReg_only | apply saveParams_only | (rw [id_eq]; assumption) | apply State.Only.ite_
    | (show sub _ _ = true; decide)
    | (intro _ hx)

theorem execParameterSave_only (s : State) (fn : FnId) (v : BitVec 64) (ok : Bool) : OnlyR [.log, .collator, .flash, .reg .hubBootpol, .reg .colEv, .reg .logCtl] s (execParameterSave fn v ok s) := by
  unfold execParameterSave
  repeat' first
    | with_reducible first | assumption | exact State.Only.refl _ _ | apply OnlyR.next | apply bar_only | apply writeBootpol_only
    | (show sub _ _ = true; decide)
    | (intro _ hx)

theorem altBand_only (hO : State.Only ps z s) (hM : sub [.free, .reg .clkStat] ps = true) :
    State.Only ps z (State.altBand s) := by
  refine hO.step ?_ hM
  unfold State.altBand
  repeat' first
    | with_reducible first | assumption | exact State.Only.refl _ _ | apply draw_only | apply only_setF | apply State.Only.ite_ | apply State.Only.ite2
    | (show sub _ _ = true; decide)
    | with_reducible first | refine State.Only.snd (by assumption) ?_ | refine State.Only.snd2 (by assumption) ?_ | refine State.Only.snd3 (by assumption) ?_

theorem lockLoops_only (alt : Bool) (hO : State.Only ps z s) (hM : sub [.free, .reg .clkStat] ps = true) :
    State.Only ps z (State.lockLoops s alt) := by
  refine hO.step ?_ hM
  unfold State.lockLoops
  repeat' first
    | with_reducible first | assumption | exact State.Only.refl _ _ | apply only_setF | apply altBand_only | apply State.Only.ite_
    | (show sub _ _ = true; decide)

theorem openDram_only (way : Nat) (hO : State.Only ps z s) (hM : sub [.outs, .collator, .migration, .power, .reg .hubHqStat, .reg .hubMsixPba, .reg .colLedger, .reg .colDlCfg, .reg .colEv, .reg .colTim, .reg .colLock, .reg .colStrStat, .reg .colStrRsb, .reg .colStrHoles, .reg .memStat, .reg .memChStat] ps = true) :
    State.Only ps z (State.openDram s way) := by
  refine hO.step ?_ hM
  have h1 : State.Only [.outs, .collator, .migration, .power, .reg .hubHqStat, .reg .hubMsixPba, .reg .colLedger, .reg .colDlCfg, .reg .colEv, .reg .colTim, .reg .colLock, .reg .colStrStat, .reg .colStrRsb, .reg .colStrHoles, .reg .memStat, .reg .memChStat] s (if way = 2 then s.setF F.memStat_speed 0 else s) :=
    .ite_ (only_setF (.refl _ _) _ _ (by decide)) (.refl _ _)
  have h2 := only_retrainNext (markChannels_only h1 (by decide)) 0 (by decide)
  unfold State.openDram
  extract_lets +onlyGivenNames y0 y1 y
  change State.Only [.outs, .collator, .migration, .power, .reg .hubHqStat, .reg .hubMsixPba, .reg .colLedger, .reg .colDlCfg, .reg .colEv, .reg .colTim, .reg .colLock, .reg .colStrStat, .reg .colStrRsb, .reg .colStrHoles, .reg .memStat, .reg .memChStat] s y at h2
  clear_value y
  have h3 : State.Only [.outs, .collator, .migration, .power, .reg .hubHqStat, .reg .hubMsixPba, .reg .colLedger, .reg .colDlCfg, .reg .colEv, .reg .colTim, .reg .colLock, .reg .colStrStat, .reg .colStrRsb, .reg .colStrHoles, .reg .memStat, .reg .memChStat] s (if y.sys.ledgerLost then y.listedStreams.foldl State.openRange y else y) :=
    .ite_ (State.Only.foldl_ _ (fun _ _ hx => openRange_only _ hx (by decide)) h2) h2
  refine restoreCollator_only (only_onSys h3 _ fun p hp x => ?_) (by decide)
  cases p <;> first | exact absurd (by decide) hp | simp [Part.same, State.reg, State.onSys]

theorem fillDram_only (hO : State.Only ps z s) (hM : sub [.dram] ps = true) :
    State.Only ps z s.fillDram := by
  refine hO.step (qs := [.dram]) ⟨fun p hp => ?_, fun hc => ?_⟩ hM
  · cases p <;> first | exact absurd (List.mem_singleton.mpr rfl) hp | simp [State.fillDram, Part.same, State.reg]
  · simp only [State.fillDram, State.canonical, Bool.and_eq_true] at hc ⊢
    exact ⟨hc.1, rfl⟩

theorem bootLoad_only (x : Nat) (hO : State.Only ps z s) (hM : sub (more [.free, .outs, .log, .cells, .gatherings, .regions, .relay, .fuist, .collator, .cores, .dram, .pads, .flash, .loader, .bookmarks, .upkeep, .reg .hubMsixPba, .reg .colEv, .reg .colStrStat, .reg .memChStat, .reg .bndStat, .reg .bndCase, .reg .bndHash, .reg .qctCfg, .reg .qctCommitted, .reg .qctExec, .reg .qctStatus, .reg .qctHold] [.reg .qctRbStat, .reg .qctBmkStat, .reg .qctBmkValid, .reg .qctCadPat, .reg .qctCadLen, .reg .fstTiming, .reg .fstBound, .reg .logCtl, .reg .upkColrep, .reg .padBank, .reg .awlCtl, .reg .awlStat, .reg .gthCfg, .reg .gthDchk, .reg .gthQdesc, .reg .gthQwm, .reg .gthCrc]) ps = true) :
    State.Only ps z (State.bootLoad s x).2 := by
  refine hO.step ?_ hM
  unfold State.bootLoad
  repeat' first
    | with_reducible first | assumption | exact State.Only.refl _ _ | apply only_putN | apply serviceStart_only | apply frameRecord_only | apply State.Only.foldl_ | apply State.Only.foldl2 | apply State.Only.foldl3
    | (show sub _ _ = true; decide)
    | (intro _ _ hx)
    | (extract_lets +onlyGivenNames y; with_reducible refine State.Only.cut y ?_ ?_ <;> [dsimp only [y]; (clear_value y; intro hy)])
    | (extract_lets +onlyGivenNames y; clear_value y)
    | split
    | with_reducible first | refine State.Only.snd (by assumption) ?_ | refine State.Only.snd2 (by assumption) ?_ | refine State.Only.snd3 (by assumption) ?_
    | with_reducible refine only_onSys ?_ _ (fun p hp x => by cases p <;> first | exact absurd (by decide) hp | simp [Part.same, State.reg, State.onSys])

theorem replaceFailed_only (hO : State.Only ps z s) (hM : sub [.boot, .reg .fstPortMap, .reg .fstSpare] ps = true) :
    State.Only ps z (State.replaceFailed s) := by
  refine hO.step ?_ hM
  unfold State.replaceFailed
  repeat' first
    | with_reducible first | assumption | exact State.Only.refl _ _ | apply only_setF | apply only_putN | apply State.Only.foldl_ | apply State.Only.foldl2 | apply State.Only.foldl3
    | (show sub _ _ = true; decide)
    | (intro _ _ hx; beta_reduce)
    | (extract_lets +onlyGivenNames y; with_reducible refine State.Only.cut y ?_ ?_ <;> [dsimp only [y]; (clear_value y; intro hy)])
    | (extract_lets +onlyGivenNames y; clear_value y)
    | split
    | with_reducible first | refine State.Only.snd (by assumption) ?_ | refine State.Only.snd2 (by assumption) ?_ | refine State.Only.snd3 (by assumption) ?_
    | with_reducible refine only_onSys ?_ _ (fun p hp x => by cases p <;> first | exact absurd (by decide) hp | simp [Part.same, State.reg, State.onSys, State.onArr, State.putN, State.setF, State.clrF, State.putF, State.setReg])
    | (rw [mapField_reg]; decide)

theorem finding_only (k : Nat) (hO : State.Only ps z s) (hM : sub [.collator, .reg .colEv, .reg .upkEng] ps = true) :
    State.Only ps z (State.finding s k) := by
  refine hO.step ?_ hM
  unfold State.finding
  repeat' first
    | with_reducible first | assumption | exact State.Only.refl _ _ | apply raise_only | apply only_addF
    | (show sub _ _ = true; decide)

theorem walkFrame_only (g ly : Nat) (hO : State.Only ps z s) (hM : sub [.log, .collator, .reg .colEv, .reg .logCtl, .reg .upkEng] ps = true) :
    State.Only ps z (State.walkFrame s g ly) := by
  refine hO.step ?_ hM
  unfold State.walkFrame
  repeat' first
    | with_reducible first | assumption | exact State.Only.refl _ _ | apply logEntry_only | apply finding_only | apply State.Only.ite_
    | (show sub _ _ = true; decide)

theorem walkAll_only (hO : State.Only ps z s) (hM : sub [.log, .collator, .reg .colEv, .reg .logCtl, .reg .upkEng] ps = true) :
    State.Only ps z (State.walkAll s) := by
  refine hO.step ?_ hM
  unfold State.walkAll
  repeat' first
    | with_reducible first | assumption | exact State.Only.refl _ _ | apply walkFrame_only | apply State.Only.foldl_ | apply State.Only.foldl2 | apply State.Only.foldl3
    | (show sub _ _ = true; decide)
    | (intro _ _ hx)

theorem caseAll_only (hO : State.Only ps z s) (hM : sub [.free, .gatherings, .regions, .fuist, .collator, .reg .colEv, .reg .bndStat, .reg .bndCase, .reg .qctCommitted, .reg .qctExec, .reg .qctStatus, .reg .fstBound] ps = true) :
    State.Only ps z (State.caseAll s) := by
  refine hO.step ?_ hM
  unfold State.caseAll
  repeat' first
    | with_reducible first | assumption | exact State.Only.refl _ _ | apply beginCasing_only | apply State.Only.ite_ | apply State.Only.foldl_ | apply State.Only.foldl2 | apply State.Only.foldl3
    | (show sub _ _ = true; decide)
    | (intro _ _ hx)

theorem act1_only (k way : Nat) (hO : State.Only ps z s) (hM : sub (plusRegs [.free, .outs, .log, .cells, .gatherings, .regions, .relay, .fuist, .collator, .cores, .dram, .migration, .pads, .flash, .loader, .bookmarks, .power, .boot, .upkeep]) ps = true) :
    State.Only ps z (State.act1 s k way).2 := by
  refine hO.step ?_ hM
  unfold State.act1
  repeat' first
    | with_reducible first | assumption | exact State.Only.refl _ _ | apply applyParams_only | apply setBoot_only | apply lockLoops_only | apply openDram_only | apply train_only | apply fillDram_only | apply bootLoad_only | apply trainPorts_only | apply replaceFailed_only | apply caseAll_only | apply walkAll_only | apply State.Only.ite_ | apply State.Only.ite2
    | (with_reducible show sub (plusRegs _) (plusRegs _) = true; exact sub_regs' (by decide))
    | with_reducible exact sub_reg _
    | (with_reducible show sub _ (plusRegs _) = true; exact sub_regs (by decide))
    | with_reducible apply sub_reg_cons
    | (show sub _ _ = true; decide)
    | (extract_lets +onlyGivenNames y; with_reducible refine State.Only.cut y ?_ ?_ <;> [dsimp only [y]; (clear_value y; intro hy)])
    | (extract_lets +onlyGivenNames y; clear_value y)
    | split
    | with_reducible first | refine State.Only.snd (by assumption) ?_ | refine State.Only.snd2 (by assumption) ?_ | refine State.Only.snd3 (by assumption) ?_
    | with_reducible refine only_onSys ?_ _ (fun p hp x => by cases p <;> first | exact absurd (by decide) hp | simp [Part.same, State.reg, State.onSys])

theorem failed1_only (k : Nat) (hO : State.Only ps z s) (hM : sub [.free, .log, .fuist, .collator, .dram, .reg .colEv, .reg .fstSys, .reg .fstPortStat, .reg .logCtl] ps = true) :
    State.Only ps z (State.failed1 s k) := by
  refine hO.step ?_ hM
  unfold State.failed1
  repeat' first
    | with_reducible first | assumption | exact State.Only.refl _ _ | apply draw_only | apply fillDram_only | apply logOther_only | apply raise_only | apply portDown_only | apply State.Only.foldl_ | apply State.Only.foldl2 | apply State.Only.foldl3
    | (show sub _ _ = true; decide)
    | (intro _ _ hx)
    | (extract_lets +onlyGivenNames y; with_reducible refine State.Only.cut y ?_ ?_ <;> [dsimp only [y]; (clear_value y; intro hy)])
    | (extract_lets +onlyGivenNames y; clear_value y)
    | split
    | with_reducible first | refine State.Only.snd (by assumption) ?_ | refine State.Only.snd2 (by assumption) ?_ | refine State.Only.snd3 (by assumption) ?_

theorem attempts_only {ps : List Part} {z t : State} (stop k : Nat) (hM : sub (plusRegs [.free, .outs, .log, .cells, .gatherings, .regions, .relay, .fuist, .collator, .cores, .dram, .migration, .pads, .flash, .loader, .bookmarks, .power, .boot, .upkeep]) ps = true) :
    ∀ (ws : List Nat) (n : Nat) {s : State}, State.Only ps z s →
      s.attempts stop k ws n = .hung t ∨ (∃ p, s.attempts stop k ws n = .ended p t) → State.Only ps z t
  | [], n, s, h, he => by
    rcases he with he | ⟨p, he⟩ <;> cases he
    exact h.step (failed1_only k (endStep_only k 2 (hasAlternate k) (n - 1) (if k = 4 ∨ k = 8 then 3 else 0) (.refl (plusRegs [.free, .outs, .log, .cells, .gatherings, .regions, .relay, .fuist, .collator, .cores, .dram, .migration, .pads, .flash, .loader, .bookmarks, .power, .boot, .upkeep]) s)
      (by first | with_reducible exact sub_regs' (by decide) | with_reducible exact sub_reg _ | with_reducible exact sub_regs (by decide) | decide)) (by first | with_reducible exact sub_regs' (by decide) | with_reducible exact sub_reg _ | with_reducible exact sub_regs (by decide) | decide)) hM
  | w :: ws, n, s, h, he => by
    unfold State.attempts at he
    extract_lets +onlyGivenNames y at he
    have h1 : State.Only ps z y := h.step (startAttempt_only k n (.refl (plusRegs [.free, .outs, .log, .cells, .gatherings, .regions, .relay, .fuist, .collator, .cores, .dram, .migration, .pads, .flash, .loader, .bookmarks, .power, .boot, .upkeep]) s) (by first | with_reducible exact sub_regs' (by decide) | with_reducible exact sub_reg _ | with_reducible exact sub_regs (by decide) | decide)) hM
    clear_value y
    have h2 := h1.step (act1_only k w (.refl (plusRegs [.free, .outs, .log, .cells, .gatherings, .regions, .relay, .fuist, .collator, .cores, .dram, .migration, .pads, .flash, .loader, .bookmarks, .power, .boot, .upkeep]) y) (by first | with_reducible exact sub_regs' (by decide) | with_reducible exact sub_reg _ | with_reducible exact sub_regs (by decide) | decide)) hM
    rcases ha : y.act1 k w with ⟨ok, v⟩
    rw [ha] at h2
    rw [ha] at he
    have ih := attempts_only (t := t) stop k hM ws (n + 1) h2
    split at he
    · rcases he with he | ⟨p, he⟩ <;> cases he
      exact h1
    · cases ok
      · exact ih he
      · rcases he with he | ⟨p, he⟩ <;> cases he
        exact h2.step (endStep_only k 1 _ n _ (.refl (plusRegs [.free, .outs, .log, .cells, .gatherings, .regions, .relay, .fuist, .collator, .cores, .dram, .migration, .pads, .flash, .loader, .bookmarks, .power, .boot, .upkeep]) v) (by first | with_reducible exact sub_regs' (by decide) | with_reducible exact sub_reg _ | with_reducible exact sub_regs (by decide) | decide)) hM

theorem checkDone_only (hO : State.Only ps z s) (hM : sub [.reg .hubBoot] ps = true) :
    State.Only ps z (State.checkDone s) := by
  refine hO.step ?_ hM
  unfold State.checkDone
  repeat' first
    | with_reducible first | assumption | exact State.Only.refl _ _ | apply only_putN | apply State.Only.ite_
    | (show sub _ _ = true; decide)
    | with_reducible first | refine State.Only.snd (by assumption) ?_ | refine State.Only.snd2 (by assumption) ?_ | refine State.Only.snd3 (by assumption) ?_

theorem halt_only (k : Nat) (hO : State.Only ps z s) (hM : sub [.log, .collator, .boot, .reg .hubBoot, .reg .colEv, .reg .pwrDom, .reg .pwrStatus, .reg .logCtl] ps = true) :
    State.Only ps z (State.halt s k) := by
  refine hO.step ?_ hM
  unfold State.halt
  repeat' first
    | with_reducible first | assumption | exact State.Only.refl _ _ | apply logEntry_only | apply domainsOff_only | apply setBoot_only | apply only_putN | apply State.Only.ite_
    | (show sub _ _ = true; decide)
    | (extract_lets +onlyGivenNames y; with_reducible refine State.Only.cut y ?_ ?_ <;> [dsimp only [y]; (clear_value y; intro hy)])
    | (extract_lets +onlyGivenNames y; clear_value y)
    | split
    | with_reducible first | refine State.Only.snd (by assumption) ?_ | refine State.Only.snd2 (by assumption) ?_ | refine State.Only.snd3 (by assumption) ?_
    | with_reducible refine only_onSys ?_ _ (fun p hp x => by cases p <;> first | exact absurd (by decide) hp | simp [Part.same, State.reg, State.onSys])

theorem setLink_only (n : Nat) (hO : State.Only ps z s) (hM : sub [.boot] ps = true) :
    State.Only ps z (State.setLink s n) := by
  refine hO.step ?_ hM
  unfold State.setLink
  repeat' first
    | with_reducible first | assumption | exact State.Only.refl _ _
    | (show sub _ _ = true; decide)
    | with_reducible refine only_onSys ?_ _ (fun p hp x => by cases p <;> first | exact absurd (by decide) hp | simp [Part.same, State.reg, State.onSys])

theorem linkStep_only (stop : Nat) (hO : State.Only ps z s) (hM : sub [.boot, .reg .hubBoot] ps = true) :
    State.Only ps z (State.linkStep s stop) := by
  refine hO.step ?_ hM
  unfold State.linkStep
  repeat' first
    | with_reducible first | assumption | exact State.Only.refl _ _ | apply setLink_only | apply startAttempt_only | apply checkDone_only | apply endStep_only | apply State.Only.ite_
    | (show sub _ _ = true; decide)

theorem beginS12_only (dur : BitVec 32) (hO : State.Only ps z s) (hM : sub [.fuist, .boot, .reg .hubBoot, .reg .fstBound] ps = true) :
    State.Only ps z (State.beginS12 s dur) := by
  refine hO.step ?_ hM
  unfold State.beginS12
  repeat' first
    | with_reducible first | assumption | exact State.Only.refl _ _ | apply startAttempt_only | apply setBoot_only | apply endS12_only | apply only_putN | apply State.Only.ite_
    | (show sub _ _ = true; decide)
    | (extract_lets +onlyGivenNames y; with_reducible refine State.Only.cut y ?_ ?_ <;> [dsimp only [y]; (clear_value y; intro hy)])
    | (extract_lets +onlyGivenNames y; clear_value y)
    | split
    | with_reducible first | refine State.Only.snd (by assumption) ?_ | refine State.Only.snd2 (by assumption) ?_ | refine State.Only.snd3 (by assumption) ?_
    | with_reducible apply only_fst

theorem skipStep_only (k : Nat) (alt : Bool) (att : Nat) (hO : State.Only ps z s) (hM : sub [.dram, .boot, .reg .hubBoot] ps = true) :
    State.Only ps z (State.skipStep s k alt att) := by
  refine hO.step ?_ hM
  unfold State.skipStep
  repeat' first
    | with_reducible first | assumption | exact State.Only.refl _ _ | apply fillDram_only | apply endStep_only | apply State.Only.ite_
    | (show sub _ _ = true; decide)

theorem afterStep_only (k : Nat) (hO : State.Only ps z s) (hM : sub [.pads, .reg .hubBoot, .reg .padBank] ps = true) :
    State.Only ps z (State.afterStep s k) := by
  refine hO.step ?_ hM
  unfold State.afterStep
  repeat' first
    | with_reducible first | assumption | exact State.Only.refl _ _ | apply dropBanks_only | apply checkDone_only | apply State.Only.ite_
    | (show sub _ _ = true; decide)

theorem leave_only (ks : List Nat) (hO : State.Only ps z s) (hM : sub [.boot] ps = true) :
    State.Only ps z (State.leave s ks) := by
  refine hO.step ?_ hM
  unfold State.leave
  repeat' first
    | with_reducible first | assumption | exact State.Only.refl _ _ | apply setBoot_only
    | (show sub _ _ = true; decide)
    | split
    | with_reducible first | refine State.Only.snd (by assumption) ?_ | refine State.Only.snd2 (by assumption) ?_ | refine State.Only.snd3 (by assumption) ?_

theorem hangs_only (k n : Nat) (ks : List Nat) (hO : State.Only ps z s) (hM : sub [.boot] ps = true) :
    State.Only ps z (State.hangs s k n ks) := by
  refine hO.step ?_ hM
  unfold State.hangs
  repeat' first
    | with_reducible first | assumption | exact State.Only.refl _ _ | apply setBoot_only
    | (show sub _ _ = true; decide)
    | split
    | with_reducible first | refine State.Only.snd (by assumption) ?_ | refine State.Only.snd2 (by assumption) ?_ | refine State.Only.snd3 (by assumption) ?_

theorem runSteps_only {ps : List Part} {z : State} (stop : Nat) (dur : BitVec 32) (hM : sub (plusRegs [.free, .outs, .log, .cells, .gatherings, .regions, .relay, .fuist, .collator, .cores, .dram, .migration, .pads, .flash, .loader, .bookmarks, .power, .boot, .upkeep]) ps = true) :
    ∀ (ks : List Nat) {s : State}, State.Only ps z s → State.Only ps z (State.runSteps stop dur ks s)
  | [], s, h => h
  | k :: ks, s, h => by
    unfold State.runSteps
    extract_lets +onlyGivenNames y
    have hy : State.Only ps z y := h.step (leave_only ks (.refl (plusRegs [.free, .outs, .log, .cells, .gatherings, .regions, .relay, .fuist, .collator, .cores, .dram, .migration, .pads, .flash, .loader, .bookmarks, .power, .boot, .upkeep]) s) (by first | with_reducible exact sub_regs' (by decide) | with_reducible exact sub_reg _ | with_reducible exact sub_regs (by decide) | decide)) hM
    clear_value y
    have ih := fun s => runSteps_only (z := z) stop dur hM ks (s := s)
    split
    · exact ih _ (hy.step (linkStep_only stop (.refl (plusRegs [.free, .outs, .log, .cells, .gatherings, .regions, .relay, .fuist, .collator, .cores, .dram, .migration, .pads, .flash, .loader, .bookmarks, .power, .boot, .upkeep]) y) (by first | with_reducible exact sub_regs' (by decide) | with_reducible exact sub_reg _ | with_reducible exact sub_regs (by decide) | decide)) hM)
    · split
      · exact hy.step (beginS12_only dur (.refl (plusRegs [.free, .outs, .log, .cells, .gatherings, .regions, .relay, .fuist, .collator, .cores, .dram, .migration, .pads, .flash, .loader, .bookmarks, .power, .boot, .upkeep]) y) (by first | with_reducible exact sub_regs' (by decide) | with_reducible exact sub_reg _ | with_reducible exact sub_regs (by decide) | decide)) hM
      · split
        · exact ih _ (hy.step (afterStep_only k (skipStep_only k _ 0 (.refl (plusRegs [.free, .outs, .log, .cells, .gatherings, .regions, .relay, .fuist, .collator, .cores, .dram, .migration, .pads, .flash, .loader, .bookmarks, .power, .boot, .upkeep]) y) (by first | with_reducible exact sub_regs' (by decide) | with_reducible exact sub_reg _ | with_reducible exact sub_regs (by decide) | decide)) (by first | with_reducible exact sub_regs' (by decide) | with_reducible exact sub_reg _ | with_reducible exact sub_regs (by decide) | decide)) hM)
        · split
          next he =>
            refine hy.step (hangs_only k 1 ks (attempts_only (ps := (plusRegs [.free, .outs, .log, .cells, .gatherings, .regions, .relay, .fuist, .collator, .cores, .dram, .migration, .pads, .flash, .loader, .bookmarks, .power, .boot, .upkeep])) stop k (by first | with_reducible exact sub_regs' (by decide) | with_reducible exact sub_reg _ | with_reducible exact sub_regs (by decide) | decide) _ _ (.refl _ y) (.inl he)) (by first | with_reducible exact sub_regs' (by decide) | with_reducible exact sub_reg _ | with_reducible exact sub_regs (by decide) | decide)) hM
          next he =>
            have h1 := attempts_only (ps := (plusRegs [.free, .outs, .log, .cells, .gatherings, .regions, .relay, .fuist, .collator, .cores, .dram, .migration, .pads, .flash, .loader, .bookmarks, .power, .boot, .upkeep])) stop k (by first | with_reducible exact sub_regs' (by decide) | with_reducible exact sub_reg _ | with_reducible exact sub_regs (by decide) | decide) _ _ (.refl _ y) (.inr ⟨_, he⟩)
            split
            · exact hy.step (halt_only k h1 (by first | with_reducible exact sub_regs' (by decide) | with_reducible exact sub_reg _ | with_reducible exact sub_regs (by decide) | decide)) hM
            · exact ih _ (hy.step (afterStep_only k h1 (by first | with_reducible exact sub_regs' (by decide) | with_reducible exact sub_reg _ | with_reducible exact sub_regs (by decide) | decide)) hM)

theorem startBoot_only (kind stop : Nat) (dur : BitVec 32) (hO : State.Only ps z s) (hM : sub (plusRegs [.free, .outs, .log, .cells, .gatherings, .regions, .relay, .fuist, .collator, .cores, .dram, .migration, .pads, .flash, .loader, .bookmarks, .power, .boot, .upkeep]) ps = true) :
    State.Only ps z (State.startBoot s kind stop dur) := by
  refine hO.step ?_ hM
  unfold State.startBoot
  repeat' first
    | with_reducible first | assumption | exact State.Only.refl _ _ | apply only_putN | apply runSteps_only | apply refreshPower_only
    | (with_reducible show sub (plusRegs _) (plusRegs _) = true; exact sub_regs' (by decide))
    | with_reducible exact sub_reg _
    | (with_reducible show sub _ (plusRegs _) = true; exact sub_regs (by decide))
    | with_reducible apply sub_reg_cons
    | (show sub _ _ = true; decide)
    | (extract_lets +onlyGivenNames y; with_reducible refine State.Only.cut y ?_ ?_ <;> [dsimp only [y]; (clear_value y; intro hy)])
    | (extract_lets +onlyGivenNames y; clear_value y)
    | split
    | with_reducible first | refine State.Only.snd (by assumption) ?_ | refine State.Only.snd2 (by assumption) ?_ | refine State.Only.snd3 (by assumption) ?_
    | with_reducible refine only_onSys ?_ _ (fun p hp x => by cases p <;> first | exact absurd (by decide) hp | simp [Part.same, State.reg, State.onSys])

theorem execPowerOnReset_only (s : State) (straps : BitVec 3) (stop : Nat) (durMs : BitVec 32) : OnlyR (plusRegs [.free, .outs, .log, .cells, .gatherings, .regions, .relay, .fuist, .collator, .cores, .dram, .migration, .pads, .flash, .loader, .bookmarks, .power, .boot, .upkeep]) s (execPowerOnReset straps stop durMs s) := by
  unfold execPowerOnReset
  repeat' first
    | with_reducible first | assumption | exact State.Only.refl _ _ | apply OnlyR.next | apply startBoot_only | apply domainsUp_only | apply State.Only.ite_ | apply OnlyR.ite_
    | (with_reducible show sub (plusRegs _) (plusRegs _) = true; exact sub_regs' (by decide))
    | with_reducible exact sub_reg _
    | (with_reducible show sub _ (plusRegs _) = true; exact sub_regs (by decide))
    | with_reducible apply sub_reg_cons
    | (show sub _ _ = true; decide)
    | split
    | with_reducible refine only_onSys ?_ _ (fun p hp x => by cases p <;> first | exact absurd (by decide) hp | simp [Part.same, State.reg, State.onSys])

theorem execResetNQualified_only (s : State)  : OnlyR (plusRegs [.free, .outs, .log, .cells, .gatherings, .regions, .relay, .fuist, .collator, .cores, .ring, .pads, .loader, .bookmarks, .meter, .binding, .trust, .power, .boot, .upkeep, .testPorts, .pcie]) s (execResetNQualified s) := by
  unfold execResetNQualified
  repeat' first
    | with_reducible first | assumption | exact State.Only.refl _ _ | apply OnlyR.next | apply hardReset_only | apply domainsOff_only | apply State.Only.ite_ | apply OnlyR.ite_
    | (with_reducible show sub (plusRegs _) (plusRegs _) = true; exact sub_regs' (by decide))
    | with_reducible exact sub_reg _
    | (with_reducible show sub _ (plusRegs _) = true; exact sub_regs (by decide))
    | with_reducible apply sub_reg_cons
    | (show sub _ _ = true; decide)
    | (extract_lets +onlyGivenNames y; with_reducible refine State.Only.cut y ?_ ?_ <;> [dsimp only [y]; (clear_value y; intro hy)])
    | (extract_lets +onlyGivenNames y; with_reducible refine OnlyR.cut y ?_ ?_ <;> [dsimp only [y]; (clear_value y; intro hy)])
    | (extract_lets +onlyGivenNames y; clear_value y)
    | split
    | with_reducible refine only_onSys ?_ _ (fun p hp x => by cases p <;> first | exact absurd (by decide) hp | simp [Part.same, State.reg, State.onSys])

theorem execResetNRelease_only (s : State) (stop : Nat) (durMs : BitVec 32) : OnlyR (plusRegs [.free, .outs, .log, .cells, .gatherings, .regions, .relay, .fuist, .collator, .cores, .dram, .migration, .pads, .flash, .loader, .bookmarks, .power, .boot, .upkeep]) s (execResetNRelease stop durMs s) := by
  unfold execResetNRelease
  repeat' first
    | with_reducible first | assumption | exact State.Only.refl _ _ | apply OnlyR.next | apply startBoot_only | apply State.Only.ite_ | apply OnlyR.ite_
    | (with_reducible show sub (plusRegs _) (plusRegs _) = true; exact sub_regs' (by decide))
    | with_reducible exact sub_reg _
    | (with_reducible show sub _ (plusRegs _) = true; exact sub_regs (by decide))
    | with_reducible apply sub_reg_cons
    | (show sub _ _ = true; decide)
    | (extract_lets +onlyGivenNames y; with_reducible refine State.Only.cut y ?_ ?_ <;> [dsimp only [y]; (clear_value y; intro hy)])
    | (extract_lets +onlyGivenNames y; with_reducible refine OnlyR.cut y ?_ ?_ <;> [dsimp only [y]; (clear_value y; intro hy)])
    | (extract_lets +onlyGivenNames y; clear_value y)
    | split
    | with_reducible refine only_onSys ?_ _ (fun p hp x => by cases p <;> first | exact absurd (by decide) hp | simp [Part.same, State.reg, State.onSys])

theorem execVinLoss_only (s : State)  : OnlyR (plusRegs [.free, .outs, .log, .cells, .gatherings, .regions, .relay, .fuist, .collator, .cores, .ring, .pads, .loader, .bookmarks, .meter, .binding, .trust, .power, .boot, .upkeep, .testPorts, .pcie]) s (execVinLoss s) := by
  unfold execVinLoss
  repeat' first
    | with_reducible first | assumption | exact State.Only.refl _ _ | apply OnlyR.next | apply hardReset_only | apply only_putN | apply domainsOff_only | apply State.Only.ite_ | apply OnlyR.ite_
    | (with_reducible show sub (plusRegs _) (plusRegs _) = true; exact sub_regs' (by decide))
    | with_reducible exact sub_reg _
    | (with_reducible show sub _ (plusRegs _) = true; exact sub_regs (by decide))
    | with_reducible apply sub_reg_cons
    | (show sub _ _ = true; decide)
    | (extract_lets +onlyGivenNames y; with_reducible refine State.Only.cut y ?_ ?_ <;> [dsimp only [y]; (clear_value y; intro hy)])
    | (extract_lets +onlyGivenNames y; with_reducible refine OnlyR.cut y ?_ ?_ <;> [dsimp only [y]; (clear_value y; intro hy)])
    | (extract_lets +onlyGivenNames y; clear_value y)
    | split
    | with_reducible refine only_onSys ?_ _ (fun p hp x => by cases p <;> first | exact absurd (by decide) hp | simp [Part.same, State.reg, State.onSys])

theorem execVinReturn_only (s : State) (stop : Nat) (durMs : BitVec 32) : OnlyR (plusRegs [.free, .outs, .log, .cells, .gatherings, .regions, .relay, .fuist, .collator, .cores, .dram, .migration, .pads, .flash, .loader, .bookmarks, .power, .boot, .upkeep]) s (execVinReturn stop durMs s) := by
  unfold execVinReturn
  repeat' first
    | with_reducible first | assumption | exact State.Only.refl _ _ | apply OnlyR.next | apply startBoot_only | apply domainsUp_only | apply State.Only.ite_ | apply OnlyR.ite_
    | (with_reducible show sub (plusRegs _) (plusRegs _) = true; exact sub_regs' (by decide))
    | with_reducible exact sub_reg _
    | (with_reducible show sub _ (plusRegs _) = true; exact sub_regs (by decide))
    | with_reducible apply sub_reg_cons
    | (show sub _ _ = true; decide)
    | (extract_lets +onlyGivenNames y; with_reducible refine State.Only.cut y ?_ ?_ <;> [dsimp only [y]; (clear_value y; intro hy)])
    | (extract_lets +onlyGivenNames y; with_reducible refine OnlyR.cut y ?_ ?_ <;> [dsimp only [y]; (clear_value y; intro hy)])
    | (extract_lets +onlyGivenNames y; clear_value y)
    | split
    | with_reducible refine only_onSys ?_ _ (fun p hp x => by cases p <;> first | exact absurd (by decide) hp | simp [Part.same, State.reg, State.onSys])

theorem execVsbLoss_only (s : State)  : OnlyR (plusRegs [.log, .cells, .gatherings, .regions, .relay, .fuist, .collator, .cores, .ring, .dram, .pads, .loader, .bookmarks, .meter, .binding, .trust, .power, .boot, .upkeep, .testPorts, .pcie]) s (execVsbLoss s) := by
  unfold execVsbLoss
  repeat' first
    | with_reducible first | assumption | exact State.Only.refl _ _ | apply OnlyR.next | apply domainsOff_only | apply powerRemoval_only | apply State.Only.ite_ | apply OnlyR.ite_
    | (with_reducible show sub (plusRegs _) (plusRegs _) = true; exact sub_regs' (by decide))
    | with_reducible exact sub_reg _
    | (with_reducible show sub _ (plusRegs _) = true; exact sub_regs (by decide))
    | with_reducible apply sub_reg_cons
    | (show sub _ _ = true; decide)
    | split
    | with_reducible refine only_onSys ?_ _ (fun p hp x => by cases p <;> first | exact absurd (by decide) hp | simp [Part.same, State.reg, State.onSys])

theorem warmBoot_only (kind stop : Nat) (dur : BitVec 32) (hO : State.Only ps z s) (hM : sub (plusRegs [.free, .outs, .log, .cells, .gatherings, .regions, .relay, .fuist, .collator, .cores, .ring, .dram, .migration, .pads, .flash, .loader, .bookmarks, .meter, .binding, .trust, .power, .boot, .upkeep]) ps = true) :
    State.Only ps z (State.warmBoot s kind stop dur) := by
  refine hO.step ?_ hM
  unfold State.warmBoot
  repeat' first
    | with_reducible first | assumption | exact State.Only.refl _ _ | apply startBoot_only | apply warmReset_only
    | (with_reducible show sub (plusRegs _) (plusRegs _) = true; exact sub_regs' (by decide))

theorem writeReset_only (fn : Nat) (v : BitVec 64) (stop : Nat) (dur : BitVec 32) (hO : State.Only ps z s) (hM : sub (plusRegs [.free, .outs, .log, .cells, .gatherings, .regions, .relay, .fuist, .collator, .cores, .ring, .dram, .migration, .pads, .flash, .loader, .bookmarks, .meter, .binding, .trust, .power, .boot, .upkeep]) ps = true) :
    State.Only ps z (State.writeReset s fn v stop dur) := by
  refine hO.step ?_ hM
  unfold State.writeReset
  repeat' first
    | with_reducible first | assumption | exact State.Only.refl _ _ | apply ignored_only | apply warmBoot_only | apply State.Only.ite_
    | (with_reducible show sub (plusRegs _) (plusRegs _) = true; exact sub_regs' (by decide))
    | with_reducible exact sub_reg _
    | (with_reducible show sub _ (plusRegs _) = true; exact sub_regs (by decide))

theorem execWarmReset_only (s : State) (fn : FnId) (v : BitVec 64) (stop : Nat) (durMs : BitVec 32) : OnlyR (plusRegs [.free, .outs, .log, .cells, .gatherings, .regions, .relay, .fuist, .collator, .cores, .ring, .dram, .migration, .pads, .flash, .loader, .bookmarks, .meter, .binding, .trust, .power, .boot, .upkeep]) s (execWarmReset fn v stop durMs s) := by
  unfold execWarmReset
  repeat' first
    | with_reducible first | assumption | exact State.Only.refl _ _ | apply OnlyR.next | apply bar_only | apply writeReset_only
    | (with_reducible show sub (plusRegs _) (plusRegs _) = true; exact sub_regs' (by decide))
    | with_reducible exact sub_reg _
    | (with_reducible show sub _ (plusRegs _) = true; exact sub_regs (by decide))
    | with_reducible apply sub_reg_cons
    | (show sub _ _ = true; decide)
    | (intro _ hx)

theorem resetConfig_only (fn : Nat) (hO : State.Only ps z s) (hM : sub [.reg .hubB2win, .reg .hubMsixTbl, .reg .hubMsixPba] ps = true) :
    State.Only ps z (State.resetConfig s fn) := by
  refine hO.step (qs := [.reg .hubB2win, .reg .hubMsixTbl, .reg .hubMsixPba]) ⟨fun p hp => ?_, fun hc => ?_⟩ hM
  · cases p <;> try exact rfl
    case migration => exact ⟨rfl, rfl, rfl⟩
    case log | pads | binding => exact ⟨rfl, rfl⟩
    case reg r =>
      intro i
      have e := r.all_ctorIdx
      have k1 : regKey r i % 256 = r.ctorIdx := by have := r.ctorIdx_lt; simp only [regKey]; omega
      simp only [State.reg, State.resetConfig, Sparse.get]
      rw [lookupKey_filter]
      intro v
      rw [k1, e]
      cases r <;> first | rfl | exact absurd (by decide) hp
    all_goals simp [Part.same, State.resetConfig]
  · simp only [State.canonical, Bool.and_eq_true] at hc ⊢
    exact ⟨⟨canonicalFrom_filter _ _ _ _ hc.1.1, hc.1.2⟩, hc.2⟩

theorem resetPcie_only (hO : State.Only ps z s) (hM : sub [.pcie] ps = true) :
    State.Only ps z (State.resetPcie s) := by
  refine hO.step ?_ hM
  unfold State.resetPcie
  repeat' first
    | with_reducible first | assumption | exact State.Only.refl _ _
    | (show sub _ _ = true; decide)
    | with_reducible refine only_onSys ?_ _ (fun p hp x => by cases p <;> first | exact absurd (by decide) hp | simp [Part.same, State.reg, State.onSys])

theorem execPcieHotReset_only (s : State) (flr : Bool) (stop : Nat) (durMs : BitVec 32) : OnlyR (plusRegs [.free, .outs, .log, .cells, .gatherings, .regions, .relay, .fuist, .collator, .cores, .ring, .dram, .migration, .pads, .flash, .loader, .bookmarks, .meter, .binding, .trust, .power, .boot, .upkeep, .pcie]) s (execPcieHotReset flr stop durMs s) := by
  unfold execPcieHotReset
  repeat' first
    | with_reducible first | assumption | exact State.Only.refl _ _ | apply OnlyR.next | apply warmBoot_only | apply resetPcie_only | apply resetConfig_only | apply linkStep_only | apply State.Only.ite_ | apply OnlyR.ite_ | apply State.Only.foldl_ | apply State.Only.foldl2 | apply State.Only.foldl3
    | (with_reducible show sub (plusRegs _) (plusRegs _) = true; exact sub_regs' (by decide))
    | with_reducible exact sub_reg _
    | (with_reducible show sub _ (plusRegs _) = true; exact sub_regs (by decide))
    | with_reducible apply sub_reg_cons
    | (show sub _ _ = true; decide)
    | (intro _ _ hx)
    | (extract_lets +onlyGivenNames y; with_reducible refine State.Only.cut y ?_ ?_ <;> [dsimp only [y]; (clear_value y; intro hy)])
    | (extract_lets +onlyGivenNames y; with_reducible refine OnlyR.cut y ?_ ?_ <;> [dsimp only [y]; (clear_value y; intro hy)])
    | (extract_lets +onlyGivenNames y; clear_value y)
    | split
    | with_reducible first | refine State.Only.snd (by assumption) ?_ | refine State.Only.snd2 (by assumption) ?_ | refine State.Only.snd3 (by assumption) ?_

theorem resumeBoot_only (b : Boot) (stop : Nat) (dur : BitVec 32) (hO : State.Only ps z s) (hM : sub (plusRegs [.free, .outs, .log, .cells, .gatherings, .regions, .relay, .fuist, .collator, .cores, .dram, .migration, .pads, .flash, .loader, .bookmarks, .power, .boot, .upkeep]) ps = true) :
    State.Only ps z (State.resumeBoot s b stop dur) := by
  refine hO.step ?_ hM
  have hz : State.Only (plusRegs [.free, .outs, .log, .cells, .gatherings, .regions, .relay, .fuist, .collator, .cores, .dram, .migration, .pads, .flash, .loader, .bookmarks, .power, .boot, .upkeep]) s s := .refl _ _
  unfold State.resumeBoot
  split
  · exact runSteps_only stop dur (by first | with_reducible exact sub_regs' (by decide) | with_reducible exact sub_reg _ | with_reducible exact sub_regs (by decide) | decide) _ (afterStep_only 11 (skipStep_only 11 true 2 (leave_only _ hz (by first | with_reducible exact sub_regs' (by decide) | with_reducible exact sub_reg _ | with_reducible exact sub_regs (by decide) | decide)) (by first | with_reducible exact sub_regs' (by decide) | with_reducible exact sub_reg _ | with_reducible exact sub_regs (by decide) | decide)) (by first | with_reducible exact sub_regs' (by decide) | with_reducible exact sub_reg _ | with_reducible exact sub_regs (by decide) | decide))
  · split
    next he => exact hangs_only _ _ _ (attempts_only stop b.step (by first | with_reducible exact sub_regs' (by decide) | with_reducible exact sub_reg _ | with_reducible exact sub_regs (by decide) | decide) _ _ hz (.inl he)) (by first | with_reducible exact sub_regs' (by decide) | with_reducible exact sub_reg _ | with_reducible exact sub_regs (by decide) | decide)
    next he =>
      have h1 := leave_only b.left (attempts_only (ps := (plusRegs [.free, .outs, .log, .cells, .gatherings, .regions, .relay, .fuist, .collator, .cores, .dram, .migration, .pads, .flash, .loader, .bookmarks, .power, .boot, .upkeep])) stop b.step (by first | with_reducible exact sub_regs' (by decide) | with_reducible exact sub_reg _ | with_reducible exact sub_regs (by decide) | decide) _ _ hz (.inr ⟨_, he⟩)) (by first | with_reducible exact sub_regs' (by decide) | with_reducible exact sub_reg _ | with_reducible exact sub_regs (by decide) | decide)
      exact .ite_ (halt_only _ h1 (by first | with_reducible exact sub_regs' (by decide) | with_reducible exact sub_reg _ | with_reducible exact sub_regs (by decide) | decide)) (runSteps_only stop dur (by first | with_reducible exact sub_regs' (by decide) | with_reducible exact sub_reg _ | with_reducible exact sub_regs (by decide) | decide) _ (afterStep_only _ h1 (by first | with_reducible exact sub_regs' (by decide) | with_reducible exact sub_reg _ | with_reducible exact sub_regs (by decide) | decide)))

theorem retryLink_only (stop : Nat) (hO : State.Only ps z s) (hM : sub [.boot, .reg .hubBoot] ps = true) :
    State.Only ps z (State.retryLink s stop) := by
  refine hO.step ?_ hM
  unfold State.retryLink
  repeat' first
    | with_reducible first | assumption | exact State.Only.refl _ _ | apply setLink_only | apply startAttempt_only | apply checkDone_only | apply endStep_only | apply State.Only.ite_
    | (show sub _ _ = true; decide)

theorem execBootStepTimeout_only (s : State) (stop : Nat) (durMs : BitVec 32) : OnlyR (plusRegs [.free, .outs, .log, .cells, .gatherings, .regions, .relay, .fuist, .collator, .cores, .dram, .migration, .pads, .flash, .loader, .bookmarks, .power, .boot, .upkeep]) s (execBootStepTimeout stop durMs s) := by
  unfold execBootStepTimeout
  repeat' first
    | with_reducible first | assumption | exact State.Only.refl _ _ | apply OnlyR.next | apply retryLink_only | apply boundTimeout_only | apply endS12_only | apply resumeBoot_only | apply State.Only.ite_ | apply OnlyR.ite_
    | (with_reducible show sub (plusRegs _) (plusRegs _) = true; exact sub_regs' (by decide))
    | with_reducible exact sub_reg _
    | (with_reducible show sub _ (plusRegs _) = true; exact sub_regs (by decide))
    | with_reducible apply sub_reg_cons
    | (show sub _ _ = true; decide)
    | split
    | with_reducible first | refine State.Only.snd (by assumption) ?_ | refine State.Only.snd2 (by assumption) ?_ | refine State.Only.snd3 (by assumption) ?_

theorem execPerstNRise_only (s : State)  : OnlyR [.power, .boot, .reg .hubBoot] s (execPerstNRise s) := by
  unfold execPerstNRise
  repeat' first
    | with_reducible first | assumption | exact State.Only.refl _ _ | apply OnlyR.next | apply linkStep_only | apply setLink_only | apply State.Only.ite_ | apply OnlyR.ite_
    | (show sub _ _ = true; decide)
    | (extract_lets +onlyGivenNames y; with_reducible refine State.Only.cut y ?_ ?_ <;> [dsimp only [y]; (clear_value y; intro hy)])
    | (extract_lets +onlyGivenNames y; with_reducible refine OnlyR.cut y ?_ ?_ <;> [dsimp only [y]; (clear_value y; intro hy)])
    | (extract_lets +onlyGivenNames y; clear_value y)
    | split
    | with_reducible refine only_onSys ?_ _ (fun p hp x => by cases p <;> first | exact absurd (by decide) hp | simp [Part.same, State.reg, State.onSys])

theorem vfFlr_only (f : Nat) (hO : State.Only ps z s) (hM : sub [.free, .outs, .log, .gatherings, .regions, .collator, .pads, .loader, .bookmarks, .trust, .reg .hubB2win, .reg .hubHqCfg, .reg .hubMsixTbl, .reg .hubMsixPba, .reg .colEv, .reg .bndStat, .reg .bndCase, .reg .bndHash, .reg .qctExec, .reg .qctStatus, .reg .qctHold, .reg .qctRbStat, .reg .qctBmkStat, .reg .qctBmkValid, .reg .logCtl, .reg .truAttStat] ps = true) :
    State.Only ps z (State.vfFlr s f) := by
  refine hO.step ?_ hM
  unfold State.vfFlr
  repeat' first
    | with_reducible first | assumption | exact State.Only.refl _ _ | apply only_clrF | apply resetConfig_only | apply abortCtx_only | apply freePads_only | apply abortOp_only | apply only_putN | apply State.Only.ite_ | apply State.Only.ite2 | apply State.Only.foldl_ | apply State.Only.foldl2 | apply State.Only.foldl3
    | (show sub _ _ = true; decide)
    | (intro _ _ hx)
    | (extract_lets +onlyGivenNames y; with_reducible refine State.Only.cut y ?_ ?_ <;> [dsimp only [y]; (clear_value y; intro hy)])
    | (extract_lets +onlyGivenNames y; clear_value y)
    | split
    | with_reducible first | refine State.Only.snd (by assumption) ?_ | refine State.Only.snd2 (by assumption) ?_ | refine State.Only.snd3 (by assumption) ?_
    | with_reducible refine only_onSys ?_ _ (fun p hp x => by cases p <;> first | exact absurd (by decide) hp | simp [Part.same, State.reg, State.onSys])

theorem execVfFlr_only (s : State) (f : Fin 16) : OnlyR [.free, .outs, .log, .gatherings, .regions, .collator, .pads, .loader, .bookmarks, .trust, .reg .hubB2win, .reg .hubHqCfg, .reg .hubMsixTbl, .reg .hubMsixPba, .reg .colEv, .reg .bndStat, .reg .bndCase, .reg .bndHash, .reg .qctExec, .reg .qctStatus, .reg .qctHold, .reg .qctRbStat, .reg .qctBmkStat, .reg .qctBmkValid, .reg .logCtl, .reg .truAttStat] s (execVfFlr f s) := by
  unfold execVfFlr
  repeat' first
    | with_reducible first | assumption | exact State.Only.refl _ _ | apply OnlyR.next | apply vfFlr_only | apply State.Only.ite_ | apply OnlyR.ite_
    | (show sub _ _ = true; decide)

/-! ### Wake -/

theorem wakeVotes_only (hO : State.Only ps z s) (hM : sub [.reg .pwrDom] ps = true) :
    State.Only ps z (State.wakeVotes s) := by
  refine hO.step ?_ hM
  unfold State.wakeVotes
  repeat' first
    | with_reducible first | assumption | exact State.Only.refl _ _ | apply setVote_only | apply setDom_only | apply State.Only.ite_ | apply State.Only.foldl_ | apply State.Only.foldl2 | apply State.Only.foldl3
    | (show sub _ _ = true; decide)
    | (intro _ _ hx)

theorem wakeEvent_only (cause : Nat) (hO : State.Only ps z s) (hM : sub [.power, .reg .pwrDom, .reg .pwrStatus] ps = true) :
    State.Only ps z (State.wakeEvent s cause) := by
  refine hO.step ?_ hM
  unfold State.wakeEvent
  repeat' first
    | with_reducible first | assumption | exact State.Only.refl _ _ | apply wakeVotes_only | apply refreshPower_only | apply startUps_only | apply State.Only.ite_
    | (show sub _ _ = true; decide)
    | (extract_lets +onlyGivenNames y; with_reducible refine State.Only.cut y ?_ ?_ <;> [dsimp only [y]; (clear_value y; intro hy)])
    | (extract_lets +onlyGivenNames y; clear_value y)
    | split
    | with_reducible first | refine State.Only.snd (by assumption) ?_ | refine State.Only.snd2 (by assumption) ?_ | refine State.Only.snd3 (by assumption) ?_
    | with_reducible refine only_onSys ?_ _ (fun p hp x => by cases p <;> first | exact absurd (by decide) hp | simp [Part.same, State.reg, State.onSys])

theorem execWakeAddressMatch_only (s : State)  : OnlyR [.power, .reg .pwrDom, .reg .pwrStatus] s (execWakeAddressMatch s) := by
  unfold execWakeAddressMatch
  repeat' first
    | with_reducible first | assumption | exact State.Only.refl _ _ | apply OnlyR.next | apply wakeEvent_only | apply State.Only.ite_ | apply OnlyR.ite_
    | (show sub _ _ = true; decide)

theorem aoExpiry_only (hO : State.Only ps z s) (hM : sub [.power, .reg .pwrDom, .reg .pwrStatus, .reg .pwrAotmr] ps = true) :
    State.Only ps z (State.aoExpiry s) := by
  refine hO.step ?_ hM
  unfold State.aoExpiry
  repeat' first
    | with_reducible first | assumption | exact State.Only.refl _ _ | apply only_putN | apply only_clrF | apply wakeEvent_only | apply State.Only.ite_
    | (show sub _ _ = true; decide)

theorem execAoTimerExpiry_only (s : State)  : OnlyR [.power, .reg .pwrDom, .reg .pwrStatus, .reg .pwrAotmr] s (execAoTimerExpiry s) := by
  unfold execAoTimerExpiry
  repeat' first
    | with_reducible first | assumption | exact State.Only.refl _ _ | apply OnlyR.next | apply aoExpiry_only
    | (show sub _ _ = true; decide)

theorem execWakeNAssert_only (s : State)  : OnlyR [.power, .reg .pwrDom, .reg .pwrStatus] s (execWakeNAssert s) := by
  unfold execWakeNAssert
  repeat' first
    | with_reducible first | assumption | exact State.Only.refl _ _ | apply OnlyR.next | apply wakeEvent_only | apply State.Only.ite_ | apply OnlyR.ite_
    | (show sub _ _ = true; decide)

theorem setWake_only (w : Option Wake) (hO : State.Only ps z s) (hM : sub [.power] ps = true) :
    State.Only ps z (State.setWake s w) := by
  refine hO.step ?_ hM
  unfold State.setWake
  repeat' first
    | with_reducible first | assumption | exact State.Only.refl _ _
    | (show sub _ _ = true; decide)
    | with_reducible refine only_onSys ?_ _ (fun p hp x => by cases p <;> first | exact absurd (by decide) hp | simp [Part.same, State.reg, State.onSys])

theorem wakeAct_only (k : Nat) (alt : Bool) (hO : State.Only ps z s) (hM : sub [.free, .outs, .log, .fuist, .collator, .migration, .boot, .reg .hubHqStat, .reg .hubMsixPba, .reg .colLedger, .reg .colDlCfg, .reg .colEv, .reg .colTim, .reg .colLock, .reg .colStrStat, .reg .spnSta, .reg .memStat, .reg .memChStat, .reg .fstPortStat, .reg .pwrDom, .reg .clkStat, .reg .logCtl] ps = true) :
    State.Only ps z (State.wakeAct s k alt) := by
  refine hO.step ?_ hM
  unfold State.wakeAct
  repeat' first
    | with_reducible first | assumption | exact State.Only.refl _ _ | apply setDom_only | apply lockLoops_only | apply markChannels_only | apply only_setF | apply restoreCollator_only | apply upEffect_only | apply State.Only.ite_
    | (show sub _ _ = true; decide)
    | split
    | with_reducible first | refine State.Only.snd (by assumption) ?_ | refine State.Only.snd2 (by assumption) ?_ | refine State.Only.snd3 (by assumption) ?_

theorem wakeDone_only (dur : BitVec 32) (hO : State.Only ps z s) (hM : sub [.collator, .power, .reg .colEv, .reg .pwrDom, .reg .pwrStatus, .reg .pwrWake] ps = true) :
    State.Only ps z (State.wakeDone s dur) := by
  refine hO.step ?_ hM
  unfold State.wakeDone
  repeat' first
    | with_reducible first | assumption | exact State.Only.refl _ _ | apply raise_only | apply only_addF | apply only_putF | apply only_setF | apply refreshPower_only | apply startUps_only | apply setWake_only | apply State.Only.ite_
    | (show sub _ _ = true; decide)
    | (extract_lets +onlyGivenNames y; with_reducible refine State.Only.cut y ?_ ?_ <;> [dsimp only [y]; (clear_value y; intro hy)])
    | (extract_lets +onlyGivenNames y; clear_value y)
    | split
    | with_reducible refine only_onSys ?_ _ (fun p hp x => by cases p <;> first | exact absurd (by decide) hp | simp [Part.same, State.reg, State.onSys])

theorem runWake_only {ps : List Part} {z : State} (stop : Nat) (dur : BitVec 32) (hM : sub [.free, .outs, .log, .fuist, .collator, .migration, .power, .boot, .reg .hubHqStat, .reg .hubMsixPba, .reg .colLedger, .reg .colDlCfg, .reg .colEv, .reg .colTim, .reg .colLock, .reg .colStrStat, .reg .spnSta, .reg .memStat, .reg .memChStat, .reg .fstPortStat, .reg .pwrDom, .reg .clkStat, .reg .pwrStatus, .reg .pwrWake, .reg .logCtl] ps = true) :
    ∀ (ks : List Nat) {s : State}, State.Only ps z s → State.Only ps z (State.runWake stop dur ks s)
  | [], s, h => h.step (wakeDone_only dur (.refl [.free, .outs, .log, .fuist, .collator, .migration, .power, .boot, .reg .hubHqStat, .reg .hubMsixPba, .reg .colLedger, .reg .colDlCfg, .reg .colEv, .reg .colTim, .reg .colLock, .reg .colStrStat, .reg .spnSta, .reg .memStat, .reg .memChStat, .reg .fstPortStat, .reg .pwrDom, .reg .clkStat, .reg .pwrStatus, .reg .pwrWake, .reg .logCtl] s) (by first | with_reducible exact sub_regs' (by decide) | with_reducible exact sub_reg _ | with_reducible exact sub_regs (by decide) | decide)) hM
  | k :: ks, s, h => by
    unfold State.runWake
    have ih := fun s => runWake_only (z := z) stop dur hM ks (s := s)
    refine .ite_ (ih _ h) (.ite_ ?_ (ih _ (h.step (wakeAct_only k false (.refl [.free, .outs, .log, .fuist, .collator, .migration, .power, .boot, .reg .hubHqStat, .reg .hubMsixPba, .reg .colLedger, .reg .colDlCfg, .reg .colEv, .reg .colTim, .reg .colLock, .reg .colStrStat, .reg .spnSta, .reg .memStat, .reg .memChStat, .reg .fstPortStat, .reg .pwrDom, .reg .clkStat, .reg .pwrStatus, .reg .pwrWake, .reg .logCtl] s) (by first | with_reducible exact sub_regs' (by decide) | with_reducible exact sub_reg _ | with_reducible exact sub_regs (by decide) | decide)) hM)))
    exact h.step (setWake_only _ (.ite_ (setDom_only _ _ (.refl [.free, .outs, .log, .fuist, .collator, .migration, .power, .boot, .reg .hubHqStat, .reg .hubMsixPba, .reg .colLedger, .reg .colDlCfg, .reg .colEv, .reg .colTim, .reg .colLock, .reg .colStrStat, .reg .spnSta, .reg .memStat, .reg .memChStat, .reg .fstPortStat, .reg .pwrDom, .reg .clkStat, .reg .pwrStatus, .reg .pwrWake, .reg .logCtl] s) (by first | with_reducible exact sub_regs' (by decide) | with_reducible exact sub_reg _ | with_reducible exact sub_regs (by decide) | decide)) (.refl _ _)) (by first | with_reducible exact sub_regs' (by decide) | with_reducible exact sub_reg _ | with_reducible exact sub_regs (by decide) | decide)) hM

theorem wakeFail_only (k att : Nat) (hO : State.Only ps z s) (hM : sub (plusRegs [.free, .outs, .log, .cells, .gatherings, .regions, .relay, .fuist, .collator, .cores, .ring, .pads, .loader, .bookmarks, .meter, .binding, .trust, .power, .boot, .upkeep]) ps = true) :
    State.Only ps z (State.wakeFail s k att) := by
  refine hO.step ?_ hM
  unfold State.wakeFail
  repeat' first
    | with_reducible first | assumption | exact State.Only.refl _ _ | apply logEntry_only | apply only_setF | apply setWake_only | apply allOff_only | apply refreshPower_only | apply stopTclk_only
    | (with_reducible show sub (plusRegs _) (plusRegs _) = true; exact sub_regs' (by decide))
    | with_reducible exact sub_reg _
    | (with_reducible show sub _ (plusRegs _) = true; exact sub_regs (by decide))
    | with_reducible apply sub_reg_cons
    | (show sub _ _ = true; decide)
    | (extract_lets +onlyGivenNames y; with_reducible refine State.Only.cut y ?_ ?_ <;> [dsimp only [y]; (clear_value y; intro hy)])
    | (extract_lets +onlyGivenNames y; clear_value y)
    | with_reducible refine only_onSys ?_ _ (fun p hp x => by cases p <;> first | exact absurd (by decide) hp | simp [Part.same, State.reg, State.onSys])

theorem execWakeSequence_only (s : State) (stop : Nat) (durUs : BitVec 32) : OnlyR (plusRegs [.free, .outs, .log, .cells, .gatherings, .regions, .relay, .fuist, .collator, .cores, .ring, .dram, .migration, .pads, .flash, .loader, .bookmarks, .meter, .binding, .trust, .power, .boot, .upkeep, .testPorts, .pcie]) s (execWakeSequence stop durUs s) := by
  unfold execWakeSequence
  repeat' first
    | with_reducible first | assumption | exact State.Only.refl _ _ | apply OnlyR.next | apply raise_only | apply startBoot_only | apply domainsUp_only | apply hardReset_only | apply only_setF | apply only_putN | apply only_clrF | apply runWake_only | apply setWake_only | apply State.Only.ite_ | apply OnlyR.ite_
    | (with_reducible show sub (plusRegs _) (plusRegs _) = true; exact sub_regs' (by decide))
    | with_reducible exact sub_reg _
    | (with_reducible show sub _ (plusRegs _) = true; exact sub_regs (by decide))
    | with_reducible apply sub_reg_cons
    | (show sub _ _ = true; decide)
    | (extract_lets +onlyGivenNames y; with_reducible refine State.Only.cut y ?_ ?_ <;> [dsimp only [y]; (clear_value y; intro hy)])
    | (extract_lets +onlyGivenNames y; with_reducible refine OnlyR.cut y ?_ ?_ <;> [dsimp only [y]; (clear_value y; intro hy)])
    | (extract_lets +onlyGivenNames y; clear_value y)
    | split
    | with_reducible first | refine State.Only.snd (by assumption) ?_ | refine State.Only.snd2 (by assumption) ?_ | refine State.Only.snd3 (by assumption) ?_
    | with_reducible refine only_onSys ?_ _ (fun p hp x => by cases p <;> first | exact absurd (by decide) hp | simp [Part.same, State.reg, State.onSys])

theorem execWakeStepTimeout_only (s : State) (stop : Nat) (durUs : BitVec 32) : OnlyR (plusRegs [.free, .outs, .log, .cells, .gatherings, .regions, .relay, .fuist, .collator, .cores, .ring, .migration, .pads, .loader, .bookmarks, .meter, .binding, .trust, .power, .boot, .upkeep]) s (execWakeStepTimeout stop durUs s) := by
  unfold execWakeStepTimeout
  repeat' first
    | with_reducible first | assumption | exact State.Only.refl _ _ | apply OnlyR.next | apply only_setF | apply only_putN | apply setWake_only | apply runWake_only | apply wakeAct_only | apply failDomain_only | apply wakeFail_only | apply State.Only.ite_ | apply OnlyR.ite_
    | (with_reducible show sub (plusRegs _) (plusRegs _) = true; exact sub_regs' (by decide))
    | with_reducible exact sub_reg _
    | (with_reducible show sub _ (plusRegs _) = true; exact sub_regs (by decide))
    | with_reducible apply sub_reg_cons
    | (show sub _ _ = true; decide)
    | (extract_lets +onlyGivenNames y; with_reducible refine State.Only.cut y ?_ ?_ <;> [dsimp only [y]; (clear_value y; intro hy)])
    | (extract_lets +onlyGivenNames y; with_reducible refine OnlyR.cut y ?_ ?_ <;> [dsimp only [y]; (clear_value y; intro hy)])
    | (extract_lets +onlyGivenNames y; clear_value y)
    | split
    | with_reducible first | refine State.Only.snd (by assumption) ?_ | refine State.Only.snd2 (by assumption) ?_ | refine State.Only.snd3 (by assumption) ?_

theorem writeWakecfg_only (fn : Nat) (v : BitVec 64) (hO : State.Only ps z s) (hM : sub [.log, .collator, .reg .colEv, .reg .pwrDom, .reg .pwrStatus, .reg .pwrWakecfg, .reg .logCtl] ps = true) :
    State.Only ps z (State.writeWakecfg s fn v) := by
  refine hO.step ?_ hM
  unfold State.writeWakecfg
  repeat' first
    | with_reducible first | assumption | exact State.Only.refl _ _ | apply ignored_only | apply writeReg_only | apply refreshPower_only | apply setVote_only | (rw [id_eq]; assumption) | apply State.Only.ite_ | apply State.Only.foldl_ | apply State.Only.foldl2 | apply State.Only.foldl3
    | (show sub _ _ = true; decide)
    | (intro _ _ hx)
    | (intro _ hx)

theorem execWakeAck_only (s : State) (v : BitVec 64) : OnlyR [.log, .collator, .reg .colEv, .reg .pwrDom, .reg .pwrStatus, .reg .pwrWakecfg, .reg .logCtl] s (execWakeAck v s) := by
  unfold execWakeAck
  repeat' first
    | with_reducible first | assumption | exact State.Only.refl _ _ | apply OnlyR.next | apply bar_only | apply writeWakecfg_only
    | (show sub _ _ = true; decide)
    | (intro _ hx)

theorem execTimeCalibrate_only (s : State) (count : Nat) : OnlyR [.reg .timCal] s (execTimeCalibrate count s) := by
  unfold execTimeCalibrate
  repeat' first
    | with_reducible first | assumption | exact State.Only.refl _ _ | apply OnlyR.next | apply only_setF | apply only_putN | apply State.Only.ite_ | apply OnlyR.ite_
    | (show sub _ _ = true; decide)

theorem execTclkResume_only (s : State) (n : Nat) : OnlyR [.power, .reg .timSpine, .reg .timUncert] s (execTclkResume n s) := by
  unfold execTclkResume
  repeat' first
    | with_reducible first | assumption | exact State.Only.refl _ _ | apply OnlyR.next | apply only_addF | apply only_putN | apply State.Only.ite_ | apply OnlyR.ite_
    | (show sub _ _ = true; decide)
    | (extract_lets +onlyGivenNames y; with_reducible refine State.Only.cut y ?_ ?_ <;> [dsimp only [y]; (clear_value y; intro hy)])
    | (extract_lets +onlyGivenNames y; with_reducible refine OnlyR.cut y ?_ ?_ <;> [dsimp only [y]; (clear_value y; intro hy)])
    | (extract_lets +onlyGivenNames y; clear_value y)
    | split
    | with_reducible refine only_onSys ?_ _ (fun p hp x => by cases p <;> first | exact absurd (by decide) hp | simp [Part.same, State.reg, State.onSys])

theorem writeTimAdj_only (fn : Nat) (v : BitVec 64) (hO : State.Only ps z s) (hM : sub [.log, .collator, .reg .colEv, .reg .timSpine, .reg .logCtl] ps = true) :
    State.Only ps z (State.writeTimAdj s fn v) := by
  refine hO.step ?_ hM
  unfold State.writeTimAdj
  repeat' first
    | with_reducible first | assumption | exact State.Only.refl _ _ | apply ignored_only | apply logEntry_only | apply only_putF | apply State.Only.ite_
    | (show sub _ _ = true; decide)

theorem execTimAdj_only (s : State) (fn : FnId) (v : BitVec 64) : OnlyR [.log, .collator, .reg .colEv, .reg .timSpine, .reg .logCtl] s (execTimAdj fn v s) := by
  unfold execTimAdj
  repeat' first
    | with_reducible first | assumption | exact State.Only.refl _ _ | apply OnlyR.next | apply bar_only | apply writeTimAdj_only
    | (show sub _ _ = true; decide)
    | (intro _ hx)

theorem writeTimUncert_only (fn : Nat) (v : BitVec 64) (hO : State.Only ps z s) (hM : sub [.log, .collator, .reg .colEv, .reg .timUncert, .reg .logCtl] ps = true) :
    State.Only ps z (State.writeTimUncert s fn v) := by
  refine hO.step ?_ hM
  unfold State.writeTimUncert
  repeat' first
    | with_reducible first | assumption | exact State.Only.refl _ _ | apply ignored_only | apply writeReg_only | (rw [id_eq]; assumption) | apply State.Only.ite_
    | (show sub _ _ = true; decide)
    | (intro _ hx)

end Sys2Proof.Machine
end

