-- ==== Sys2Proof/Laws/FrameUpkeep.lean ====
section
/-!
SUPPORT. The frames of the operations of upkeep, of the buses, of BAR0 and of the tick. Each says which parts of the state an operation may change.
-/
namespace Sys2Proof.Machine

variable {ps : List Part} {z s : State}

/-! ### Upkeep -/

theorem passDone_only (k : Nat) (hO : State.Only ps z s) (hM : sub [.reg .upkEng] ps = true) :
    State.Only ps z (State.passDone s k) := by
  refine hO.step ?_ hM
  unfold State.passDone
  repeat' first
    | with_reducible first | assumption | exact State.Only.refl _ _ | apply only_addF
    | (show sub _ _ = true; decide)

theorem logEngine_only (k part : Nat) (hO : State.Only ps z s) (hM : sub [.log, .collator, .reg .colEv, .reg .logCtl] ps = true) :
    State.Only ps z (State.logEngine s k part) := by
  refine hO.step ?_ hM
  unfold State.logEngine
  repeat' first
    | with_reducible first | assumption | exact State.Only.refl _ _ | apply logEntry_only
    | (show sub _ _ = true; decide)

theorem walkAt_only (n : Nat) (last : Bool) (hO : State.Only ps z s) (hM : sub [.log, .collator, .upkeep, .reg .colEv, .reg .logCtl, .reg .upkEng] ps = true) :
    State.Only ps z (State.walkAt s n last) := by
  refine hO.step ?_ hM
  unfold State.walkAt
  repeat' first
    | with_reducible first | assumption | exact State.Only.refl _ _ | apply walkFrame_only | apply passDone_only | apply State.Only.ite_
    | (show sub _ _ = true; decide)
    | (extract_lets +onlyGivenNames y; with_reducible refine State.Only.cut y ?_ ?_ <;> [dsimp only [y]; (clear_value y; intro hy)])
    | (extract_lets +onlyGivenNames y; clear_value y)
    | split
    | with_reducible refine only_onSys ?_ _ (fun p hp x => by cases p <;> first | exact absurd (by decide) hp | simp [Part.same, State.reg, State.onSys])

theorem execFrameCheckWalk_only (s : State)  : OnlyR [.log, .collator, .upkeep, .reg .colEv, .reg .logCtl, .reg .upkEng] s (execFrameCheckWalk s) := by
  unfold execFrameCheckWalk
  repeat' first
    | with_reducible first | assumption | exact State.Only.refl _ _ | apply OnlyR.next | apply walkAt_only | apply State.Only.ite_ | apply OnlyR.ite_
    | (show sub _ _ = true; decide)
    | split
    | with_reducible first | refine State.Only.snd (by assumption) ?_ | refine State.Only.snd2 (by assumption) ?_ | refine State.Only.snd3 (by assumption) ?_

theorem execFolioParitySweep_only (s : State)  : OnlyR [.log, .collator, .upkeep, .reg .colEv, .reg .logCtl, .reg .upkEng, .reg .gthFerr] s (execFolioParitySweep s) := by
  unfold execFolioParitySweep
  repeat' first
    | with_reducible first | assumption | exact State.Only.refl _ _ | apply OnlyR.next | apply portRead_only | apply only_addF | apply passDone_only | apply State.Only.ite_ | apply State.Only.ite2 | apply OnlyR.ite_
    | (show sub _ _ = true; decide)
    | (extract_lets +onlyGivenNames y; with_reducible refine State.Only.cut y ?_ ?_ <;> [dsimp only [y]; (clear_value y; intro hy)])
    | (extract_lets +onlyGivenNames y; with_reducible refine OnlyR.cut y ?_ ?_ <;> [dsimp only [y]; (clear_value y; intro hy)])
    | (extract_lets +onlyGivenNames y; clear_value y)
    | split
    | with_reducible first | refine State.Only.snd (by assumption) ?_ | refine State.Only.snd2 (by assumption) ?_ | refine State.Only.snd3 (by assumption) ?_
    | with_reducible refine only_onSys ?_ _ (fun p hp x => by cases p <;> first | exact absurd (by decide) hp | simp [Part.same, State.reg, State.onSys])

theorem laneDone_only (n : Nat) (hO : State.Only ps z s) (hM : sub [.upkeep, .reg .upkEng] ps = true) :
    State.Only ps z (State.laneDone s n) := by
  refine hO.step ?_ hM
  unfold State.laneDone
  repeat' first
    | with_reducible first | assumption | exact State.Only.refl _ _ | apply passDone_only | apply State.Only.ite_
    | (show sub _ _ = true; decide)
    | (extract_lets +onlyGivenNames y; with_reducible refine State.Only.cut y ?_ ?_ <;> [dsimp only [y]; (clear_value y; intro hy)])
    | (extract_lets +onlyGivenNames y; clear_value y)
    | split
    | with_reducible refine only_onSys ?_ _ (fun p hp x => by cases p <;> first | exact absurd (by decide) hp | simp [Part.same, State.reg, State.onSys])

theorem setEq_only (n : Nat) (pos last : Int) (hO : State.Only ps z s) (hM : sub [.upkeep] ps = true) :
    State.Only ps z (State.setEq s n pos last) := by
  refine hO.step ?_ hM
  unfold State.setEq
  repeat' first
    | with_reducible first | assumption | exact State.Only.refl _ _
    | (show sub _ _ = true; decide)
    | with_reducible refine only_onSys ?_ _ (fun p hp x => by cases p <;> first | exact absurd (by decide) hp | simp [Part.same, State.reg, State.onSys])

theorem execSerdesAdaptStep_only (s : State) (p : PortId) (lane : Fin 8) (dir : Bool) : OnlyR [.log, .collator, .upkeep, .reg .colEv, .reg .logCtl, .reg .upkEng] s (execSerdesAdaptStep p lane dir s) := by
  unfold execSerdesAdaptStep
  repeat' first
    | with_reducible first | assumption | exact State.Only.refl _ _ | apply OnlyR.next | apply setEq_only | apply logEngine_only | apply finding_only | apply laneDone_only | apply State.Only.ite_ | apply OnlyR.ite_
    | (show sub _ _ = true; decide)
    | with_reducible first | refine State.Only.snd (by assumption) ?_ | refine State.Only.snd2 (by assumption) ?_ | refine State.Only.snd3 (by assumption) ?_

theorem execSerdesAdaptReview_only (s : State) (p : PortId) (lane : Fin 8) (before after : Nat) : OnlyR [.upkeep] s (execSerdesAdaptReview p lane before after s) := by
  unfold execSerdesAdaptReview
  repeat' first
    | with_reducible first | assumption | exact State.Only.refl _ _ | apply OnlyR.next | apply setEq_only | apply State.Only.ite_ | apply OnlyR.ite_
    | (show sub _ _ = true; decide)

theorem execRegulatorTrimStep_only (s : State) (rail : Fin 16) (errMv : Int) : OnlyR [.log, .collator, .upkeep, .reg .colEv, .reg .logCtl, .reg .upkEng] s (execRegulatorTrimStep rail errMv s) := by
  unfold execRegulatorTrimStep
  repeat' first
    | with_reducible first | assumption | exact State.Only.refl _ _ | apply OnlyR.next | apply logEngine_only | apply finding_only | apply passDone_only | apply State.Only.ite_ | apply OnlyR.ite_
    | (show sub _ _ = true; decide)
    | (extract_lets +onlyGivenNames y; with_reducible refine State.Only.cut y ?_ ?_ <;> [dsimp only [y]; (clear_value y; intro hy)])
    | (extract_lets +onlyGivenNames y; with_reducible refine OnlyR.cut y ?_ ?_ <;> [dsimp only [y]; (clear_value y; intro hy)])
    | (extract_lets +onlyGivenNames y; clear_value y)
    | split
    | with_reducible refine only_onSys ?_ _ (fun p hp x => by cases p <;> first | exact absurd (by decide) hp | simp [Part.same, State.reg, State.onSys])

theorem execWearLevelCheck_only (s : State)  : OnlyR [.free, .log, .collator, .reg .colEv, .reg .logCtl, .reg .upkEng] s (execWearLevelCheck s) := by
  unfold execWearLevelCheck
  repeat' first
    | with_reducible first | assumption | exact State.Only.refl _ _ | apply OnlyR.next | apply draw_only | apply passDone_only | apply logEngine_only | apply finding_only | apply State.Only.ite_ | apply State.Only.ite2 | apply OnlyR.ite_
    | (show sub _ _ = true; decide)
    | with_reducible first | refine State.Only.snd (by assumption) ?_ | refine State.Only.snd2 (by assumption) ?_ | refine State.Only.snd3 (by assumption) ?_

theorem currentOf_only (d : Nat) (c : CurrentSense) (hO : State.Only ps z s) (hM : sub [.free, .power] ps = true) :
    State.Only ps z (State.currentOf s d c).2 := by
  refine hO.step ?_ hM
  unfold State.currentOf
  repeat' first
    | with_reducible first | assumption | exact State.Only.refl _ _ | apply draw_only | (rw [id_eq]; assumption) | apply State.Only.ite_ | apply State.Only.ite2 | apply State.Only.foldl_ | apply State.Only.foldl2 | apply State.Only.foldl3
    | (show sub _ _ = true; decide)
    | (intro _ _ hx)
    | (extract_lets +onlyGivenNames y; with_reducible refine State.Only.cut y ?_ ?_ <;> [dsimp only [y]; (clear_value y; intro hy)])
    | (extract_lets +onlyGivenNames y; clear_value y)
    | split
    | with_reducible first | refine State.Only.snd (by assumption) ?_ | refine State.Only.snd2 (by assumption) ?_ | refine State.Only.snd3 (by assumption) ?_
    | with_reducible refine only_onSys ?_ _ (fun p hp x => by cases p <;> first | exact absurd (by decide) hp | simp [Part.same, State.reg, State.onSys])

theorem telemetry_only (temps : List Int) (currents : List CurrentSense) (hO : State.Only ps z s) (hM : sub [.free, .power, .reg .pwrStatus] ps = true) :
    State.Only ps z (State.telemetry s temps currents) := by
  refine hO.step ?_ hM
  unfold State.telemetry
  repeat' first
    | with_reducible first | assumption | exact State.Only.refl _ _ | apply only_putF | apply currentOf_only | apply only_putN | apply State.Only.foldl_ | apply State.Only.foldl2 | apply State.Only.foldl3
    | (show sub _ _ = true; decide)
    | (intro _ _ hx)
    | with_reducible first | refine State.Only.snd (by assumption) ?_ | refine State.Only.snd2 (by assumption) ?_ | refine State.Only.snd3 (by assumption) ?_

theorem showReadings_only (temps : List Int) (currents : List CurrentSense) (hO : State.Only ps z s) (hM : sub [.log, .collator, .reg .colEv, .reg .logCtl, .reg .upkEng, .reg .upkTemp, .reg .upkCur] ps = true) :
    State.Only ps z (State.showReadings s temps currents) := by
  refine hO.step ?_ hM
  unfold State.showReadings
  repeat' first
    | with_reducible first | assumption | exact State.Only.refl _ _ | apply only_putF | apply logEngine_only | apply finding_only | apply only_setF | apply only_clrF | apply only_putN | apply passDone_only | apply State.Only.ite_ | apply State.Only.foldl_ | apply State.Only.foldl2 | apply State.Only.foldl3
    | (show sub _ _ = true; decide)
    | (intro _ _ hx)

theorem execTelemetryUpdate_only (s : State) (temps : List Int) (currents : List CurrentSense) : OnlyR (plusRegs [.free, .outs, .log, .cells, .gatherings, .regions, .relay, .fuist, .collator, .cores, .ring, .pads, .loader, .bookmarks, .meter, .binding, .trust, .power, .boot, .upkeep]) s (execTelemetryUpdate temps currents s) := by
  unfold execTelemetryUpdate
  repeat' first
    | with_reducible first | assumption | exact State.Only.refl _ _ | apply OnlyR.next | apply OnlyR.fault | apply telemetry_only | apply showReadings_only | apply trip_only | apply State.Only.ite_ | apply OnlyR.ite_
    | (with_reducible show sub (plusRegs _) (plusRegs _) = true; exact sub_regs' (by decide))
    | with_reducible exact sub_reg _
    | (with_reducible show sub _ (plusRegs _) = true; exact sub_regs (by decide))
    | with_reducible apply sub_reg_cons
    | (show sub _ _ = true; decide)
    | (extract_lets +onlyGivenNames y; with_reducible refine State.Only.cut y ?_ ?_ <;> [dsimp only [y]; (clear_value y; intro hy)])
    | (extract_lets +onlyGivenNames y; with_reducible refine OnlyR.cut y ?_ ?_ <;> [dsimp only [y]; (clear_value y; intro hy)])
    | (extract_lets +onlyGivenNames y; clear_value y)
    | split
    | with_reducible first | refine State.Only.snd (by assumption) ?_ | refine State.Only.snd2 (by assumption) ?_ | refine State.Only.snd3 (by assumption) ?_

theorem moveColumns_only (q old new : Nat) (hO : State.Only ps z s) (hM : sub [.cells, .gatherings] ps = true) :
    State.Only ps z (State.moveColumns s q old new) := by
  refine hO.step ?_ hM
  unfold State.moveColumns
  repeat' first
    | with_reducible first | assumption | exact State.Only.refl _ _ | apply State.Only.ite_ | apply State.Only.foldl_ | apply State.Only.foldl2 | apply State.Only.foldl3
    | (show sub _ _ = true; decide)
    | (intro _ _ hx)
    | (extract_lets +onlyGivenNames y; with_reducible refine State.Only.cut y ?_ ?_ <;> [dsimp only [y]; (clear_value y; intro hy)])
    | (extract_lets +onlyGivenNames y; clear_value y)
    | split
    | with_reducible refine only_onArr ?_ _ (fun p hp x => by cases p <;> first | exact absurd (by decide) hp | simp [Part.same, State.reg, State.onArr])

theorem applySkip_only (q new : Nat) (hO : State.Only ps z s) (hM : sub [.cells, .gatherings, .reg .upkColmap, .reg .gthCfg] ps = true) :
    State.Only ps z (State.applySkip s q new) := by
  refine hO.step ?_ hM
  unfold State.applySkip
  repeat' first
    | with_reducible first | assumption | exact State.Only.refl _ _ | apply only_putN | apply moveColumns_only | apply only_setF | apply State.Only.ite_ | apply State.Only.foldl_ | apply State.Only.foldl2 | apply State.Only.foldl3
    | (show sub _ _ = true; decide)
    | (intro _ _ hx)

theorem writeColmap_only (fn q : Nat) (v : BitVec 64) (hO : State.Only ps z s) (hM : sub [.log, .cells, .gatherings, .collator, .reg .colEv, .reg .logCtl, .reg .upkColmap, .reg .gthCfg] ps = true) :
    State.Only ps z (State.writeColmap s fn q v) := by
  refine hO.step ?_ hM
  unfold State.writeColmap
  repeat' first
    | with_reducible first | assumption | exact State.Only.refl _ _ | apply ignored_only | apply only_clearW1c | apply only_setF | apply logRefused_only | apply applySkip_only | apply State.Only.ite_
    | (show sub _ _ = true; decide)

theorem execColmapWrite_only (s : State) (q : Fin 4) (v : BitVec 64) : OnlyR [.log, .cells, .gatherings, .collator, .reg .colEv, .reg .logCtl, .reg .upkColmap, .reg .gthCfg] s (execColmapWrite q v s) := by
  unfold execColmapWrite
  repeat' first
    | with_reducible first | assumption | exact State.Only.refl _ _ | apply OnlyR.next | apply bar_only | apply writeColmap_only
    | (show sub _ _ = true; decide)
    | (intro _ hx)

theorem writeColrep_only (fn : Nat) (v : BitVec 64) (hO : State.Only ps z s) (hM : sub [.log, .collator, .upkeep, .reg .colEv, .reg .logCtl, .reg .upkColrep] ps = true) :
    State.Only ps z (State.writeColrep s fn v) := by
  refine hO.step ?_ hM
  unfold State.writeColrep
  repeat' first
    | with_reducible first | assumption | exact State.Only.refl _ _ | apply ignored_only | apply writeReg_only | apply only_putN | apply only_setF | apply State.Only.ite_
    | (show sub _ _ = true; decide)
    | (intro _ hx)
    | (extract_lets +onlyGivenNames y; with_reducible refine State.Only.cut y ?_ ?_ <;> [dsimp only [y]; (clear_value y; intro hy)])
    | (extract_lets +onlyGivenNames y; clear_value y)
    | split
    | with_reducible refine only_onSys ?_ _ (fun p hp x => by cases p <;> first | exact absurd (by decide) hp | simp [Part.same, State.reg, State.onSys])

theorem execColrepGo_only (s : State) (v : BitVec 64) : OnlyR [.log, .collator, .upkeep, .reg .colEv, .reg .logCtl, .reg .upkColrep] s (execColrepGo v s) := by
  unfold execColrepGo
  repeat' first
    | with_reducible first | assumption | exact State.Only.refl _ _ | apply OnlyR.next | apply bar_only | apply writeColrep_only
    | (show sub _ _ = true; decide)
    | (intro _ hx)

theorem captureGth_only (g sec : Nat) (hO : State.Only ps z s) (hM : sub [.log, .collator, .dram, .reg .colEv, .reg .logCtl, .reg .gthFerr] ps = true) :
    State.Only ps z (State.captureGth s g sec) := by
  refine hO.step ?_ hM
  unfold State.captureGth
  exact putWords_only _ _ (folioPart_only _ g (putWords_only _ _ (.refl _ _) (by decide)) (by decide)) (by decide)

theorem moveOver_only (hO : State.Only ps z s) (hM : sub [.collator, .upkeep, .reg .colEv, .reg .upkColrep] ps = true) :
    State.Only ps z (State.moveOver s) := by
  refine hO.step ?_ hM
  unfold State.moveOver
  repeat' first
    | with_reducible first | assumption | exact State.Only.refl _ _ | apply raise_only | apply only_putN
    | (show sub _ _ = true; decide)
    | with_reducible refine only_onSys ?_ _ (fun p hp x => by cases p <;> first | exact absurd (by decide) hp | simp [Part.same, State.reg, State.onSys])

theorem execColrepCaptureDone_only (s : State)  : OnlyR [.log, .cells, .gatherings, .collator, .dram, .upkeep, .reg .colEv, .reg .logCtl, .reg .upkColmap, .reg .upkColrep, .reg .gthCfg, .reg .gthFerr] s (execColrepCaptureDone s) := by
  unfold execColrepCaptureDone
  repeat' first
    | with_reducible first | assumption | exact State.Only.refl _ _ | apply OnlyR.next | apply captureGth_only | apply applySkip_only | apply only_setF | apply only_putN | apply logEntry_only | apply raise_only | apply moveOver_only | apply State.Only.ite_ | apply OnlyR.ite_ | apply State.Only.foldl_ | apply State.Only.foldl2 | apply State.Only.foldl3
    | (show sub _ _ = true; decide)
    | (intro _ _ hx)
    | (extract_lets +onlyGivenNames y; with_reducible refine State.Only.cut y ?_ ?_ <;> [dsimp only [y]; (clear_value y; intro hy)])
    | (extract_lets +onlyGivenNames y; with_reducible refine OnlyR.cut y ?_ ?_ <;> [dsimp only [y]; (clear_value y; intro hy)])
    | (extract_lets +onlyGivenNames y; clear_value y)
    | split
    | with_reducible first | refine State.Only.snd (by assumption) ?_ | refine State.Only.snd2 (by assumption) ?_ | refine State.Only.snd3 (by assumption) ?_
    | with_reducible refine only_onSys ?_ _ (fun p hp x => by cases p <;> first | exact absurd (by decide) hp | simp [Part.same, State.reg, State.onSys])

theorem writeEng_only (fn k : Nat) (v : BitVec 64) (hO : State.Only ps z s) (hM : sub [.log, .collator, .reg .colEv, .reg .logCtl, .reg .upkEng] ps = true) :
    State.Only ps z (State.writeEng s fn k v) := by
  refine hO.step ?_ hM
  unfold State.writeEng
  repeat' first
    | with_reducible first | assumption | exact State.Only.refl _ _ | apply ignored_only | apply writeReg_only | apply only_setF | (rw [id_eq]; assumption) | apply State.Only.ite_
    | (show sub _ _ = true; decide)
    | (intro _ hx)

theorem logUnfreeze_only (hO : State.Only ps z s) (hM : sub [.log, .reg .logCtl] ps = true) :
    State.Only ps z (State.logUnfreeze s) := by
  refine hO.step (qs := [.log, .reg .logCtl]) ⟨fun p hp => ?_, canonical_eq (s := s.clrF F.logCtl_frozen 0) rfl rfl rfl ∘ (only_clrF (.refl [.log, .reg .logCtl] s) F.logCtl_frozen 0 (by decide)).form⟩ hM
  refine Part.same_trans ((only_clrF (.refl [.log, .reg .logCtl] s) F.logCtl_frozen 0 (by decide)).same p hp) ?_
  cases p <;> first | exact absurd (by decide) hp | simp [Part.same, State.reg, State.logUnfreeze]

theorem writeLogCtl_only (fn : Nat) (v : BitVec 64) (hO : State.Only ps z s) (hM : sub [.log, .collator, .reg .colEv, .reg .logCtl] ps = true) :
    State.Only ps z (State.writeLogCtl s fn v) := by
  refine hO.step ?_ hM
  unfold State.writeLogCtl
  repeat' first
    | with_reducible first | assumption | exact State.Only.refl _ _ | apply ignored_only | apply writeReg_only | apply logUnfreeze_only | (rw [id_eq]; assumption) | apply State.Only.ite_
    | (show sub _ _ = true; decide)
    | (intro _ hx)

theorem execLogUnfreeze_only (s : State) (v : BitVec 64) : OnlyR [.log, .collator, .reg .colEv, .reg .logCtl] s (execLogUnfreeze v s) := by
  unfold execLogUnfreeze
  repeat' first
    | with_reducible first | assumption | exact State.Only.refl _ _ | apply OnlyR.next | apply bar_only | apply writeLogCtl_only
    | (show sub _ _ = true; decide)
    | (intro _ hx)

theorem advanceLog_only (hO : State.Only ps z s) (hM : sub [.reg .logAddr] ps = true) :
    State.Only ps z (State.advanceLog s) := by
  refine hO.step ?_ hM
  unfold State.advanceLog
  repeat' first
    | with_reducible first | assumption | exact State.Only.refl _ _ | apply only_putN
    | (show sub _ _ = true; decide)

theorem execLogRead_only (s : State)  : OnlyR [.outs, .reg .logAddr] s (execLogRead s) := by
  unfold execLogRead
  repeat' first
    | with_reducible first | assumption | exact State.Only.refl _ _ | apply OnlyR.next | apply barRead_only | apply emit_only | apply advanceLog_only
    | (show sub _ _ = true; decide)
    | (intro _ hx)

/-! ### Bus -/

theorem execHubStatusCmd_only (s : State)  : OnlyR [.testPorts] s (execHubStatusCmd s) := by
  unfold execHubStatusCmd
  repeat' first
    | with_reducible first | assumption | exact State.Only.refl _ _ | apply OnlyR.next | apply State.Only.ite_ | apply OnlyR.ite_
    | (show sub _ _ = true; decide)
    | split
    | with_reducible refine only_onSys ?_ _ (fun p hp x => by cases p <;> first | exact absurd (by decide) hp | simp [Part.same, State.reg, State.onSys])

theorem execHubVoteCmd_only (s : State) (arg : BitVec 16) : OnlyR [.reg .pwrDom, .reg .pwrStatus] s (execHubVoteCmd arg s) := by
  unfold execHubVoteCmd
  repeat' first
    | with_reducible first | assumption | exact State.Only.refl _ _ | apply OnlyR.next | apply vote_only | apply State.Only.ite_ | apply OnlyR.ite_ | apply State.Only.foldl_ | apply State.Only.foldl2 | apply State.Only.foldl3
    | (show sub _ _ = true; decide)
    | (intro _ _ hx)

theorem setBusAddr_only (t : BusTarget) (a : BitVec 7) (hO : State.Only ps z s) (hM : sub [.meter, .reg .padI3c] ps = true) :
    State.Only ps z (State.setBusAddr s t a) := by
  refine hO.step ?_ hM
  unfold State.setBusAddr
  repeat' first
    | with_reducible first | assumption | exact State.Only.refl _ _ | apply only_putF | apply updMeter_only
    | (show sub _ _ = true; decide)
    | split
    | with_reducible first | refine State.Only.snd (by assumption) ?_ | refine State.Only.snd2 (by assumption) ?_ | refine State.Only.snd3 (by assumption) ?_

theorem assignAddr_only (t : BusTarget) (da : BitVec 7) (hO : State.Only ps z s) (hM : sub [.meter, .reg .padI3c] ps = true) :
    State.Only ps z (State.assignAddr s t da) := by
  refine hO.step ?_ hM
  unfold State.assignAddr
  repeat' first
    | with_reducible first | assumption | exact State.Only.refl _ _ | apply setBusAddr_only | apply State.Only.ite_
    | (show sub _ _ = true; decide)

theorem execEntdaa_only (s : State) (t : BusTarget) (da : BitVec 7) : OnlyR [.meter, .reg .padI3c] s (execEntdaa t da s) := by
  unfold execEntdaa
  repeat' first
    | with_reducible first | assumption | exact State.Only.refl _ _ | apply OnlyR.next | apply assignAddr_only
    | (show sub _ _ = true; decide)

theorem execSetdasa_only (s : State) (t : BusTarget) (da : BitVec 7) : OnlyR [.meter, .reg .padI3c] s (execSetdasa t da s) := by
  unfold execSetdasa
  repeat' first
    | with_reducible first | assumption | exact State.Only.refl _ _ | apply OnlyR.next | apply assignAddr_only
    | (show sub _ _ = true; decide)

theorem execSetnewda_only (s : State) (t : BusTarget) (da : BitVec 7) : OnlyR [.meter, .reg .padI3c] s (execSetnewda t da s) := by
  unfold execSetnewda
  repeat' first
    | with_reducible first | assumption | exact State.Only.refl _ _ | apply OnlyR.next | apply setBusAddr_only | apply State.Only.ite_ | apply OnlyR.ite_
    | (show sub _ _ = true; decide)

theorem execRstdaa_only (s : State)  : OnlyR [.meter, .reg .padI3c] s (execRstdaa s) := by
  unfold execRstdaa
  repeat' first
    | with_reducible first | assumption | exact State.Only.refl _ _ | apply OnlyR.next | apply setBusAddr_only | apply State.Only.ite_ | apply OnlyR.ite_ | apply State.Only.foldl_ | apply State.Only.foldl2 | apply State.Only.foldl3
    | (show sub _ _ = true; decide)
    | (intro _ _ hx)

theorem ccc_only (t : BusTarget) (bytes : List Byte) (hO : State.Only ps z s) (hM : sub [.outs] ps = true) :
    State.Only ps z (State.ccc s t bytes) := by
  refine hO.step ?_ hM
  unfold State.ccc
  repeat' first
    | with_reducible first | assumption | exact State.Only.refl _ _ | apply emit_only | apply State.Only.ite_
    | (show sub _ _ = true; decide)

theorem execGetpid_only (s : State) (t : BusTarget) : OnlyR [.outs] s (execGetpid t s) := by
  unfold execGetpid
  repeat' first
    | with_reducible first | assumption | exact State.Only.refl _ _ | apply OnlyR.next | apply ccc_only
    | (show sub _ _ = true; decide)

theorem execGetbcr_only (s : State) (t : BusTarget) : OnlyR [.outs] s (execGetbcr t s) := by
  unfold execGetbcr
  repeat' first
    | with_reducible first | assumption | exact State.Only.refl _ _ | apply OnlyR.next | apply ccc_only
    | (show sub _ _ = true; decide)

theorem execGetdcr_only (s : State) (t : BusTarget) : OnlyR [.outs] s (execGetdcr t s) := by
  unfold execGetdcr
  repeat' first
    | with_reducible first | assumption | exact State.Only.refl _ _ | apply OnlyR.next | apply ccc_only
    | (show sub _ _ = true; decide)

theorem execGetmwl_only (s : State) (t : BusTarget) : OnlyR [.outs] s (execGetmwl t s) := by
  unfold execGetmwl
  repeat' first
    | with_reducible first | assumption | exact State.Only.refl _ _ | apply OnlyR.next | apply ccc_only
    | (show sub _ _ = true; decide)

theorem execGetmrl_only (s : State) (t : BusTarget) : OnlyR [.outs] s (execGetmrl t s) := by
  unfold execGetmrl
  repeat' first
    | with_reducible first | assumption | exact State.Only.refl _ _ | apply OnlyR.next | apply ccc_only
    | (show sub _ _ = true; decide)

theorem execGetstatus_only (s : State) (t : BusTarget) : OnlyR [.free, .outs] s (execGetstatus t s) := by
  unfold execGetstatus
  repeat' first
    | with_reducible first | assumption | exact State.Only.refl _ _ | apply OnlyR.next | apply draw_only | apply ccc_only | apply State.Only.ite_ | apply State.Only.ite2 | apply OnlyR.ite_
    | (show sub _ _ = true; decide)
    | with_reducible first | refine State.Only.snd (by assumption) ?_ | refine State.Only.snd2 (by assumption) ?_ | refine State.Only.snd3 (by assumption) ?_

theorem withJtag_only {f : State → State} (h : State.Only ps z s)
    (hf : ∀ x, State.Only ps z x → State.Only ps z (f x)) : State.Only ps z (State.withJtag s f) :=
  .ite_ (hf _ h) h

theorem setJtag_only (j : Jtag) (hO : State.Only ps z s) (hM : sub [.testPorts] ps = true) :
    State.Only ps z (State.setJtag s j) := by
  refine hO.step ?_ hM
  unfold State.setJtag
  repeat' first
    | with_reducible first | assumption | exact State.Only.refl _ _
    | (show sub _ _ = true; decide)
    | with_reducible refine only_onSys ?_ _ (fun p hp x => by cases p <;> first | exact absurd (by decide) hp | simp [Part.same, State.reg, State.onSys])

theorem bypass_only (j : Jtag) (hO : State.Only ps z s) (hM : sub [.outs, .testPorts] ps = true) :
    State.Only ps z (State.bypass s j) := by
  refine hO.step ?_ hM
  unfold State.bypass
  repeat' first
    | with_reducible first | assumption | exact State.Only.refl _ _ | apply emit_only | apply setJtag_only
    | (show sub _ _ = true; decide)

theorem execJtagBypass_only (s : State)  : OnlyR [.outs, .testPorts] s (execJtagBypass s) := by
  unfold execJtagBypass
  repeat' first
    | with_reducible first | assumption | exact State.Only.refl _ _ | apply OnlyR.next | apply withJtag_only | apply bypass_only
    | (show sub _ _ = true; decide)
    | (intro _ hx)

theorem execIdcode_only (s : State)  : OnlyR [.outs, .testPorts] s (execIdcode s) := by
  unfold execIdcode
  repeat' first
    | with_reducible first | assumption | exact State.Only.refl _ _ | apply OnlyR.next | apply withJtag_only | apply emit_only | apply setJtag_only
    | (show sub _ _ = true; decide)
    | (intro _ hx)

theorem boundaryScan_only (j : Jtag) (pins preload : BitVec 589) (hO : State.Only ps z s) (hM : sub [.free, .outs, .testPorts] ps = true) :
    State.Only ps z (State.boundaryScan s j pins preload) := by
  refine hO.step ?_ hM
  unfold State.boundaryScan
  repeat' first
    | with_reducible first | assumption | exact State.Only.refl _ _ | apply draw_only | apply emit_only
    | (show sub _ _ = true; decide)
    | (extract_lets +onlyGivenNames y; with_reducible refine State.Only.cut y ?_ ?_ <;> [dsimp only [y]; (clear_value y; intro hy)])
    | (extract_lets +onlyGivenNames y; clear_value y)
    | split
    | with_reducible first | refine State.Only.snd (by assumption) ?_ | refine State.Only.snd2 (by assumption) ?_ | refine State.Only.snd3 (by assumption) ?_
    | with_reducible refine only_onSys ?_ _ (fun p hp x => by cases p <;> first | exact absurd (by decide) hp | simp [Part.same, State.reg, State.onSys])

theorem execSamplePreload_only (s : State) (pins preload : BitVec 589) : OnlyR [.free, .outs, .testPorts] s (execSamplePreload pins preload s) := by
  unfold execSamplePreload
  repeat' first
    | with_reducible first | assumption | exact State.Only.refl _ _ | apply OnlyR.next | apply withJtag_only | apply boundaryScan_only
    | (show sub _ _ = true; decide)
    | (intro _ hx)

theorem execExtest_only (s : State) (preload : BitVec 589) : OnlyR [.free, .outs, .testPorts] s (execExtest preload s) := by
  unfold execExtest
  repeat' first
    | with_reducible first | assumption | exact State.Only.refl _ _ | apply OnlyR.next | apply withJtag_only | apply draw_only | apply boundaryScan_only | apply bypass_only | apply State.Only.ite_ | apply State.Only.ite2 | apply OnlyR.ite_
    | (show sub _ _ = true; decide)
    | (intro _ hx)
    | with_reducible first | refine State.Only.snd (by assumption) ?_ | refine State.Only.snd2 (by assumption) ?_ | refine State.Only.snd3 (by assumption) ?_

theorem execClamp_only (s : State)  : OnlyR [.outs, .testPorts] s (execClamp s) := by
  unfold execClamp
  repeat' first
    | with_reducible first | assumption | exact State.Only.refl _ _ | apply OnlyR.next | apply withJtag_only | apply bypass_only | apply State.Only.ite_ | apply OnlyR.ite_
    | (show sub _ _ = true; decide)
    | (intro _ hx)

theorem execHighz_only (s : State)  : OnlyR [.outs, .testPorts] s (execHighz s) := by
  unfold execHighz
  repeat' first
    | with_reducible first | assumption | exact State.Only.refl _ _ | apply OnlyR.next | apply withJtag_only | apply bypass_only | apply State.Only.ite_ | apply OnlyR.ite_
    | (show sub _ _ = true; decide)
    | (intro _ hx)

theorem execBndstream_only (s : State) (b : Byte) : OnlyR [.loader, .testPorts] s (execBndstream b s) := by
  unfold execBndstream
  repeat' first
    | with_reducible first | assumption | exact State.Only.refl _ _ | apply OnlyR.next | apply withJtag_only | apply setJtag_only | apply State.Only.ite_ | apply OnlyR.ite_
    | (show sub _ _ = true; decide)
    | (intro _ hx)
    | (extract_lets +onlyGivenNames y; with_reducible refine State.Only.cut y ?_ ?_ <;> [dsimp only [y]; (clear_value y; intro hy)])
    | (extract_lets +onlyGivenNames y; with_reducible refine OnlyR.cut y ?_ ?_ <;> [dsimp only [y]; (clear_value y; intro hy)])
    | (extract_lets +onlyGivenNames y; clear_value y)
    | split
    | with_reducible refine only_onSys ?_ _ (fun p hp x => by cases p <;> first | exact absurd (by decide) hp | simp [Part.same, State.reg, State.onSys])

theorem execBndstat_only (s : State)  : OnlyR [.outs, .testPorts] s (execBndstat s) := by
  unfold execBndstat
  repeat' first
    | with_reducible first | assumption | exact State.Only.refl _ _ | apply OnlyR.next | apply withJtag_only | apply emit_only | apply setJtag_only
    | (show sub _ _ = true; decide)
    | (intro _ hx)
    | with_reducible first | refine State.Only.snd (by assumption) ?_ | refine State.Only.snd2 (by assumption) ?_ | refine State.Only.snd3 (by assumption) ?_

/-! ### Bar0 -/

theorem readBar0_only (fn off : Nat) (hO : State.Only ps z s) (hM : sub (plusRegs []) ps = true) :
    State.Only ps z (State.readBar0 s fn off).2 := by
  refine hO.step ?_ hM
  unfold State.readBar0
  repeat' first
    | with_reducible first | assumption | exact State.Only.refl _ _ | apply advanceLog_only | apply advanceTrace_only | apply readMdata_only | apply only_clearRc | apply State.Only.ite_ | apply State.Only.ite2
    | (with_reducible show sub (plusRegs _) (plusRegs _) = true; exact sub_regs' (by decide))
    | with_reducible exact sub_reg _
    | (with_reducible show sub _ (plusRegs _) = true; exact sub_regs (by decide))
    | with_reducible apply sub_reg_cons
    | (show sub _ _ = true; decide)
    | split
    | with_reducible first | refine State.Only.snd (by assumption) ?_ | refine State.Only.snd2 (by assumption) ?_ | refine State.Only.snd3 (by assumption) ?_

theorem execBar0BadAccess_only (s : State) (fn : FnId) (off : BitVec 26) (len : Nat) (write : Bool) : OnlyR (plusRegs [.outs, .log, .collator]) s (execBar0BadAccess fn off len write s) := by
  unfold execBar0BadAccess
  repeat' first
    | with_reducible first | assumption | exact State.Only.refl _ _ | apply OnlyR.next | apply OnlyR.fault | apply logEntry_only | apply emit_only | apply readBar0_only | apply State.Only.ite_ | apply State.Only.ite2 | apply OnlyR.ite_
    | (with_reducible show sub (plusRegs _) (plusRegs _) = true; exact sub_regs' (by decide))
    | with_reducible exact sub_reg _
    | (with_reducible show sub _ (plusRegs _) = true; exact sub_regs (by decide))
    | with_reducible first | refine State.Only.snd (by assumption) ?_ | refine State.Only.snd2 (by assumption) ?_ | refine State.Only.snd3 (by assumption) ?_

theorem rejBit_only (r : RegId) (i : Nat) (hO : State.Only ps z s) (hM : sub [.reg .colStatus, .reg .spnPrbCfg, .reg .qctStatus, .reg .fstSys, .reg .padBank, .reg .gthQwm] ps = true) :
    State.Only ps z (State.rejBit s r i) := by
  refine hO.step ?_ hM
  unfold State.rejBit
  repeat' first
    | with_reducible first | assumption | exact State.Only.refl _ _ | apply colRej_only | apply only_setF
    | (show sub _ _ = true; decide)
    | split
    | with_reducible first | refine State.Only.snd (by assumption) ?_ | refine State.Only.snd2 (by assumption) ?_ | refine State.Only.snd3 (by assumption) ?_

theorem afterWrite_only (r : RegId) (i : Nat) (hO : State.Only ps z s) (hM : sub [.collator, .ring, .reg .colDlCfg, .reg .colStrStat, .reg .spnRg, .reg .fstSys] ps = true) :
    State.Only ps z (State.afterWrite s r i) := by
  refine hO.step ?_ hM
  unfold State.afterWrite
  repeat' first
    | with_reducible first | assumption | exact State.Only.refl _ _ | apply refreshStream_only | apply settle_only | apply syncLock_only | apply only_putN | apply updDelay_only | apply State.Only.ite_
    | (show sub _ _ = true; decide)
    | split
    | with_reducible first | refine State.Only.snd (by assumption) ?_ | refine State.Only.snd2 (by assumption) ?_ | refine State.Only.snd3 (by assumption) ?_
    | with_reducible apply only_ring

theorem writePlain_only (fn : Nat) (r : RegId) (i : Nat) (v : BitVec 64) (hO : State.Only ps z s) (hM : sub (plusRegs [.log, .collator, .ring]) ps = true) :
    State.Only ps z (State.writePlain s fn r i v) := by
  refine hO.step ?_ hM
  unfold State.writePlain
  repeat' first
    | with_reducible first | assumption | exact State.Only.refl _ _ | apply writeReg_only | apply rejBit_only | apply afterWrite_only | apply ignored_only | apply State.Only.ite_
    | (with_reducible show sub (plusRegs _) (plusRegs _) = true; exact sub_regs' (by decide))
    | with_reducible exact sub_reg _
    | (with_reducible show sub _ (plusRegs _) = true; exact sub_regs (by decide))
    | with_reducible apply sub_reg_cons
    | (show sub _ _ = true; decide)
    | (intro _ hx)

theorem writeMsix_only (fn i : Nat) (v : BitVec 64) (hO : State.Only ps z s) (hM : sub [.outs, .reg .hubMsixTbl, .reg .hubMsixPba] ps = true) :
    State.Only ps z (State.writeMsix s fn i v) := by
  refine hO.step ?_ hM
  unfold State.writeMsix
  repeat' first
    | with_reducible first | assumption | exact State.Only.refl _ _ | apply only_setReg | apply signal_only | apply State.Only.ite_
    | (show sub _ _ = true; decide)

theorem writeQctCtl_only (fn : FnId) (r : RegionId) (v : BitVec 64) (hO : State.Only ps z s) (hM : sub [.free, .outs, .log, .cells, .gatherings, .regions, .fuist, .collator, .reg .hubMsixPba, .reg .colEv, .reg .bndStat, .reg .bndCase, .reg .qctExec, .reg .qctStatus, .reg .qctFault, .reg .qctHold, .reg .qctRbStat, .reg .qctBmkStat, .reg .logCtl] ps = true) :
    State.Only ps z (State.writeQctCtl s fn r v) := by
  refine hO.step ?_ hM
  unfold State.writeQctCtl
  repeat' first
    | with_reducible first | assumption | exact State.Only.refl _ _ | apply only_setF | apply logRefused_only | apply ignored_only | apply draw_only | apply qctRetry_only | apply qctInject_only | apply State.Only.ite_ | apply State.Only.ite2
    | (show sub _ _ = true; decide)
    | with_reducible first | refine State.Only.snd (by assumption) ?_ | refine State.Only.snd2 (by assumption) ?_ | refine State.Only.snd3 (by assumption) ?_

theorem drawBytes_only (n : Nat) (hO : State.Only ps z s) (hM : sub [.free] ps = true) :
    State.Only ps z (State.drawBytes s n).2 := by
  refine hO.step ?_ hM
  unfold State.drawBytes
  repeat' first
    | with_reducible first | assumption | exact State.Only.refl _ _ | apply draw_only
    | (show sub _ _ = true; decide)
    | with_reducible first | refine State.Only.snd (by assumption) ?_ | refine State.Only.snd2 (by assumption) ?_ | refine State.Only.snd3 (by assumption) ?_

theorem writeAny_only (fn : FnId) (r : RegId) (i : Nat) (v : BitVec 64) (hO : State.Only ps z s) (hM : sub (plusRegs [.free, .outs, .log, .cells, .gatherings, .regions, .relay, .fuist, .collator, .cores, .ring, .dram, .migration, .pads, .flash, .loader, .bookmarks, .meter, .binding, .trust, .power, .boot, .upkeep]) ps = true) :
    State.Only ps z (State.writeAny s fn r i v) := by
  refine hO.step ?_ hM
  unfold State.writeAny
  repeat' first
    | with_reducible first | assumption | exact State.Only.refl _ _ | apply writeMsix_only | apply writeHqCfg_only | apply writeHqBase_only | apply doorbell_only | apply updHq_only | apply drainRq_only | apply writeReset_only | apply writeBootpol_only | apply draw_only | apply writeTim_only | apply writeStrStat_only | apply writeRsb_only | apply writeAcc_only | apply writeSta_only | apply writeRetire_only | apply writeSecclr_only | apply writePart_only | apply writeBndCtl_only | apply writeBndSrc_only | apply writeBndCmd_only | apply drawBytes_only | apply writeBndStat_only | apply writeBndCase_only | apply writeBndLimit_only | apply writeQctCtl_only | apply writeHold_only | apply writeRbSel_only | apply writeDst_only | apply writeBmkCtl_only | apply writePortCfg_only | apply writeDom_only | apply writeAclk_only | apply writeVarr_only | apply writePwrStatus_only | apply writeWakecfg_only | apply writeTimAdj_only | apply writeTimUncert_only | apply writeLogCtl_only | apply writeOtpCmd_only | apply writeAttCmd_only | apply writeNonce_only | apply writeEng_only | apply writeColmap_only | apply writeColrep_only | apply writeLane_only | apply writePadHold_only | apply writeAwlCtl_only | apply writeMaddr_only | apply writeMdata_only | apply writePlain_only | apply State.Only.ite_
    | (with_reducible show sub (plusRegs _) (plusRegs _) = true; exact sub_regs' (by decide))
    | with_reducible exact sub_reg _
    | (with_reducible show sub _ (plusRegs _) = true; exact sub_regs (by decide))
    | with_reducible apply sub_reg_cons
    | (show sub _ _ = true; decide)
    | (intro _ _ hx)
    | (extract_lets +onlyGivenNames y; with_reducible refine State.Only.cut y ?_ ?_ <;> [dsimp only [y]; (clear_value y; intro hy)])
    | (extract_lets +onlyGivenNames y; clear_value y)
    | split
    | with_reducible first | refine State.Only.snd (by assumption) ?_ | refine State.Only.snd2 (by assumption) ?_ | refine State.Only.snd3 (by assumption) ?_

theorem execRegisterWrite_only (s : State) (fn : FnId) (off : BitVec 26) (v : BitVec 64) : OnlyR (plusRegs [.free, .outs, .log, .cells, .gatherings, .regions, .relay, .fuist, .collator, .cores, .ring, .dram, .migration, .pads, .flash, .loader, .bookmarks, .meter, .binding, .trust, .power, .boot, .upkeep]) s (execRegisterWrite fn off v s) := by
  unfold execRegisterWrite
  repeat' first
    | with_reducible first | assumption | exact State.Only.refl _ _ | apply OnlyR.next | apply OnlyR.fault | apply logRefused_only | apply writeAny_only | apply State.Only.ite_ | apply State.Only.ite2 | apply OnlyR.ite_
    | (with_reducible show sub (plusRegs _) (plusRegs _) = true; exact sub_regs' (by decide))
    | with_reducible exact sub_reg _
    | (with_reducible show sub _ (plusRegs _) = true; exact sub_regs (by decide))
    | with_reducible apply sub_reg_cons
    | (show sub _ _ = true; decide)
    | (extract_lets +onlyGivenNames y; with_reducible refine State.Only.cut y ?_ ?_ <;> [dsimp only [y]; (clear_value y; intro hy)])
    | (extract_lets +onlyGivenNames y; with_reducible refine OnlyR.cut y ?_ ?_ <;> [dsimp only [y]; (clear_value y; intro hy)])
    | (extract_lets +onlyGivenNames y; clear_value y)
    | split
    | with_reducible first | refine State.Only.snd (by assumption) ?_ | refine State.Only.snd2 (by assumption) ?_ | refine State.Only.snd3 (by assumption) ?_

/-! ### Tick -/

theorem aoCycle_only (hO : State.Only ps z s) (hM : sub [.power, .reg .pwrDom, .reg .pwrStatus, .reg .pwrAotmr] ps = true) :
    State.Only ps z (State.aoCycle s) := by
  refine hO.step ?_ hM
  unfold State.aoCycle
  repeat' first
    | with_reducible first | assumption | exact State.Only.refl _ _ | apply aoExpiry_only | apply only_putN | apply State.Only.ite_
    | (show sub _ _ = true; decide)

theorem tickAo_only (hO : State.Only ps z s) (hM : sub [.power, .reg .pwrDom, .reg .pwrStatus, .reg .pwrAotmr] ps = true) :
    State.Only ps z (State.tickAo s) := by
  refine hO.step ?_ hM
  unfold State.tickAo
  repeat' first
    | with_reducible first | assumption | exact State.Only.refl _ _ | apply aoCycle_only | apply State.Only.ite_
    | (show sub _ _ = true; decide)
    | (extract_lets +onlyGivenNames y; with_reducible refine State.Only.cut y ?_ ?_ <;> [dsimp only [y]; (clear_value y; intro hy)])
    | (extract_lets +onlyGivenNames y; clear_value y)
    | split
    | with_reducible refine only_onSys ?_ _ (fun p hp x => by cases p <;> first | exact absurd (by decide) hp | simp [Part.same, State.reg, State.onSys])

theorem tickCores_only (hO : State.Only ps z s) (hM : sub [.cores, .reg .awlStat] ps = true) :
    State.Only ps z (State.tickCores s) := by
  refine hO.step ?_ hM
  unfold State.tickCores
  repeat' first
    | with_reducible first | assumption | exact State.Only.refl _ _ | apply updCore_only | apply State.Only.ite_ | apply State.Only.foldl_ | apply State.Only.foldl2 | apply State.Only.foldl3
    | (show sub _ _ = true; decide)
    | (intro _ _ hx)

theorem tickStretch_only (hO : State.Only ps z s) (hM : sub [.reg .qctStretch] ps = true) :
    State.Only ps z (State.tickStretch s) := by
  refine hO.step ?_ hM
  unfold State.tickStretch
  repeat' first
    | with_reducible first | assumption | exact State.Only.refl _ _ | apply only_addF | apply State.Only.ite_ | apply State.Only.foldl_ | apply State.Only.foldl2 | apply State.Only.foldl3
    | (show sub _ _ = true; decide)
    | (intro _ _ hx)

theorem tickClocked_only (hO : State.Only ps z s) (hM : sub [.outs, .fuist, .cores, .ring, .reg .qctStretch, .reg .timSpine, .reg .awlStat] ps = true) :
    State.Only ps z (State.tickClocked s) := by
  refine hO.step ?_ hM
  unfold State.tickClocked
  repeat' first
    | with_reducible first | assumption | exact State.Only.refl _ _ | apply only_putF | apply tickStretch_only | apply tickCores_only | apply transmit_only | apply State.Only.ite_ | apply State.Only.foldl_ | apply State.Only.foldl2 | apply State.Only.foldl3
    | (show sub _ _ = true; decide)
    | (intro _ _ hx)
    | (extract_lets +onlyGivenNames y; with_reducible refine State.Only.cut y ?_ ?_ <;> [dsimp only [y]; (clear_value y; intro hy)])
    | (extract_lets +onlyGivenNames y; clear_value y)
    | split
    | with_reducible apply only_ring

theorem tick_only (hO : State.Only ps z s) (hM : sub [.outs, .fuist, .cores, .ring, .power, .reg .qctStretch, .reg .pwrDom, .reg .pwrStatus, .reg .pwrAotmr, .reg .timSpine, .reg .awlStat] ps = true) :
    State.Only ps z (State.tick s) := by
  refine hO.step ?_ hM
  unfold State.tick
  repeat' first
    | with_reducible first | assumption | exact State.Only.refl _ _ | apply tickAo_only | apply tickClocked_only | apply State.Only.ite_
    | (show sub _ _ = true; decide)

end Sys2Proof.Machine
end

