-- ==== Sys2Proof/Laws/Cell.lean ====
section
/-!
SUPPORT. What a leaf leaves in its cell: the switch box keeps it, so the cell stands as its own writes leave it.
-/
namespace Sys2Proof.Machine

theorem CellKept.refl (c : Cell) : CellKept c c := ⟨rfl, rfl, rfl, rfl, rfl, rfl, rfl, rfl, rfl, rfl⟩
theorem CellKept.trans {c d e : Cell} (h : CellKept c d) (k : CellKept d e) : CellKept c e := by
  constructor <;> simp [h.v, h.t, h.outA, h.outB, h.carry, h.carryAt, h.last, h.heldIn, h.returns, h.leaf, k.v, k.t, k.outA, k.outB, k.carry, k.carryAt, k.last, k.heldIn, k.returns, k.leaf]

/-- Every cell keeps those fields. -/
def Kept (s t : State) : Prop := ∀ key, CellKept (s.cell key) (t.cell key)
theorem Kept.refl (s : State) : Kept s s := fun _ => .refl _
theorem Kept.trans {s t u : State} (h : Kept s t) (k : Kept t u) : Kept s u := fun key => (h key).trans (k key)
theorem Kept.same {s t : State} (h : t.arr.cells = s.arr.cells) : Kept s t := fun key => by
  simp only [State.cell, h]; exact .refl _
theorem Kept.only {ps : List Part} {s t : State} (h : State.Only ps s t) (hp : Part.cells ∉ ps) : Kept s t := .same (h.same _ hp)

theorem cell_updCell (s : State) (k j : Nat) (f : Cell → Cell) : (s.updCell k f).cell j = if k = j then f (s.cell k) else s.cell j := by
  unfold State.updCell
  by_cases h : k = j
  · subst h; simp
  · rw [State.cell_setCell_ne _ _ h]; simp [h]

theorem Kept.upd {s : State} {k : Nat} {f : Cell → Cell} (h : ∀ c, CellKept c (f c)) : Kept s (s.updCell k f) := fun j => by
  rw [cell_updCell]; split
  · rename_i e; subst e; exact h _
  · exact .refl _

theorem kept_captureTerm (s : State) (r t d term : Nat) (ok : Bool) (w : RWord) : Kept s (s.captureTerm r t d term ok w) := by
  unfold State.captureTerm
  have h1 : Kept s (if ok then (w, s) else s.drawWord).2 := by
    split
    · exact .refl _
    · exact .only (drawWord_only (.refl _ _) (ps := [.free]) (by decide)) (by decide)
  rcases he : (if ok then (w, s) else s.drawWord) with ⟨w', s'⟩
  rw [he] at h1
  dsimp only
  refine (h1.trans ?_).trans (.upd ?_)
  · exact .only (chargeIf_only _ _ _ _ (.refl [.regions, .reg .qctFault] _) (by decide)) (by decide)
  · intro c; constructor <;> rfl

theorem Kept.foldl {α : Type} (l : List α) (f : State → α → State) (h : ∀ s a, Kept s (f s a)) : ∀ s, Kept s (l.foldl f s) := by
  induction l with
  | nil => exact fun s => .refl s
  | cons a l ih => exact fun s => (h s a).trans (ih _)

theorem kept_driveWord (r k t : Nat) : ∀ (fuel : Nat) (s : State) (key seg : Nat) (ps : List Path) (w : RWord),
    Kept s (State.driveWord r k t fuel s key seg ps w)
  | 0, s, key, seg, ps, w => by
    unfold State.driveWord; split
    · exact .refl _
    · exact kept_captureTerm _ _ _ _ _ _ _
  | fuel + 1, s, key, seg, ps, w => by
    unfold State.driveWord; split
    · exact .refl _
    · refine Kept.trans (Kept.trans (Kept.upd ?_) (kept_captureTerm _ _ _ _ _ _ _)) (Kept.foldl _ _ ?_ _)
      · intro c; constructor <;> rfl
      · intro s a
        dsimp only
        split
        · exact kept_driveWord _ _ _ _ _ _ _ _ _
        · exact .refl _

theorem kept_drawWord (s : State) : Kept s s.drawWord.2 := .only (drawWord_only (.refl [.free] _) (by decide)) (by decide)

theorem kept_regWord (s : State) (key term t : Nat) : Kept s (s.regWord key term t).2 := by
  unfold State.regWord
  split
  · exact .refl _
  · dsimp only
    split
    · exact .refl _
    · exact (kept_drawWord s).trans (.upd fun c => by constructor <;> rfl)

theorem kept_liveWord (r k t : Nat) : ∀ (fuel : Nat) (s : State) (key term : Nat), Kept s (s.liveWord r k t fuel key term).2
  | 0, s, _, _ => .refl s
  | fuel + 1, s, key, term => by
    unfold State.liveWord
    dsimp only
    split
    · exact .refl _
    split
    · exact .refl _
    split
    · exact .refl _
    split
    · exact kept_regWord s _ _ t
    · exact kept_liveWord r k t fuel s _ _
    · exact .only (tapWord_only r _ t _ (.refl [.regions, .reg .qctFault] s) (by decide)) (by decide)
    · split
      · exact .refl _
      · exact .only (defined_only t _ _ (.refl [.free] s) (by decide)) (by decide)

theorem kept_driveEntry (s : State) (x : CellAt) (c0 : Cell) (j : Nat) : Kept s (s.driveEntry x c0 j) := by
  unfold State.driveEntry
  extract_lets e seg
  split
  · exact .refl _
  split
  · exact .only (charge_only _ _ _ (.refl [.regions, .reg .qctFault] _) (by decide)) (by decide)
  split
  · exact (kept_regWord s _ _ _).trans (kept_driveWord _ _ _ _ _ _ _ _ _)
  · next m _ _ =>
    split
    · exact .refl _
    have h := kept_liveWord x.r x.k x.t 8 s x.key m
    split
    · next he => rw [he] at h; exact h.trans (kept_driveWord _ _ _ _ _ _ _ _ _)
    · next he => rw [he] at h; exact h
    · next he => rw [he] at h; exact (h.trans (kept_drawWord _)).trans (kept_driveWord _ _ _ _ _ _ _ _ _)
  · exact (Kept.only (chargeIf_only _ _ _ _ (.refl [.regions, .reg .qctFault] _) (by decide)) (by decide)).trans (kept_driveWord _ _ _ _ _ _ _ _ _)
  · rename_i w0 o _ _ _ _ _ _
    have h := defined_only x.t o.w o.at_ (.refl [.free] s) (by decide)
    rcases he : s.defined x.t o.w o.at_ with ⟨w, s'⟩
    rw [he] at h
    exact (Kept.only h (by decide)).trans (kept_driveWord _ _ _ _ _ _ _ _ _)

theorem kept_switchBox (s : State) (x : CellAt) (c0 : Cell) : Kept s (s.switchBox x c0) := by
  unfold State.switchBox
  exact (Kept.only (chargeIf_only _ _ _ _ (.refl [.regions, .reg .qctFault] _) (by decide)) (by decide)).trans (.foldl _ _ (fun s j => kept_driveEntry s x c0 j) _)

theorem cell_updGth (s : State) (g j : Nat) (f : Gth → Gth) : (s.updGth g f).cell j = s.cell j := rfl

theorem cell_designCheck (s : State) (x : CellAt) (j : Nat) : (s.designCheck x).cell j = s.cell j := by
  unfold State.designCheck; split <;> rfl

theorem cellReady_key {s : State} {key k : Nat} {x : CellAt} (h : s.cellReady key k = some x) : x.key = key := by
  unfold State.cellReady at h
  split at h
  · cases h
  · dsimp only at h; split at h
    · cases h; rfl
    · cases h

theorem writeBack_carry (s : State) (x : CellAt) (o : CellResult) :
    ((s.writeBack x o).cell x.key).carry = ⟨o.cout, !o.cout⟩ := by
  unfold State.writeBack
  dsimp only
  split <;> simp [cell_updCell, cell_updGth]

/-- A leaf whose opcode is `op` and whose predicate holds leaves its cell as the writes of its own part do. -/
theorem runCell_wrote {s s1 s2 : State} {ca : CellAddr} {k : LeafNo} {op : CellOp} {x : CellAt} {a b c : RWord} {body : CellBody}
    {o : CellResult} (h : CellLeaf s s1 ca k op x a b c) (hop : op ≠ .nop) (hb : body x a b c s1 = (o, s2)) :
    CellWrote s2 (s.runCell op body (cellAddrNo ca) k) x o := by
  have hk := cellReady_key h.ready
  obtain ⟨s0, h1, h2⟩ := h.sources
  unfold State.runCell
  rw [h.ready]
  dsimp only
  rw [← hk]
  simp only [h.opcode, ne_eq, not_true_eq_false, if_false, h1]
  simp only [if_neg hop] at h2 ⊢
  simp only [h2, hb, if_true]
  generalize hw : s2.writeBack x o = w
  generalize (s.updCell x.key fun c => c.settle x.t).opPaths x op = ps
  generalize (s.updCell x.key fun c => c.settle x.t).cell x.key = c0
  have hs := kept_switchBox (w.updCell x.key fun c => { c with paths := ps }) x c0 x.key
  generalize (w.updCell x.key fun c => { c with paths := ps }).switchBox x c0 = z at hs
  have hc := writeBack_carry s2 x o
  rw [hw] at hc
  have hu : CellKept (w.cell x.key) ((w.updCell x.key fun c => { c with paths := ps }).cell x.key) := by
    rw [cell_updCell, if_pos rfl]; constructor <;> rfl
  have hh := hu.trans hs
  unfold CellWrote
  rw [hw]
  dsimp only
  rw [cell_updCell, if_pos rfl]
  exact ⟨hh.v, hh.t, hh.outA, hh.outB, hh.carry.trans hc, rfl⟩

/-- What such a leaf leaves beside the words of its cell. -/
theorem runCell_left {s s1 s2 : State} {ca : CellAddr} {k : LeafNo} {op : CellOp} {x : CellAt} {a b c : RWord} {body : CellBody}
    {o : CellResult} (h : CellLeaf s s1 ca k op x a b c) (hop : op ≠ .nop) (hb : body x a b c s1 = (o, s2)) :
    let t := s.runCell op body (cellAddrNo ca) k
    let w := s2.writeBack x o
    (t.cell x.key).returns = (w.cell x.key).returns ∧ (t.cell x.key).heldIn = (w.cell x.key).heldIn ∧
      t.arr.gths = w.arr.gths := by
  have hk := cellReady_key h.ready
  obtain ⟨s0, h1, h2⟩ := h.sources
  unfold State.runCell
  rw [h.ready]
  dsimp only
  rw [← hk]
  simp only [h.opcode, ne_eq, not_true_eq_false, if_false, h1]
  simp only [if_neg hop] at h2 ⊢
  simp only [h2, hb, if_true]
  generalize hw : s2.writeBack x o = w
  generalize (s.updCell x.key fun c => c.settle x.t).opPaths x op = ps
  generalize (s.updCell x.key fun c => c.settle x.t).cell x.key = c0
  have hs := kept_switchBox (w.updCell x.key fun c => { c with paths := ps }) x c0 x.key
  have hg := (switchBox_only x c0 (.refl [.free, .cells, .regions, .reg .qctFault] (w.updCell x.key fun c => { c with paths := ps })) (by decide)).same .gatherings (by decide)
  generalize (w.updCell x.key fun c => { c with paths := ps }).switchBox x c0 = z at hs hg
  have hu : CellKept (w.cell x.key) ((w.updCell x.key fun c => { c with paths := ps }).cell x.key) := by
    rw [cell_updCell, if_pos rfl]; constructor <;> rfl
  have hh := hu.trans hs
  rw [cell_updCell, if_pos rfl]
  exact ⟨hh.returns, hh.heldIn, hg⟩

/-- A leaf that is a `nop` in its cell settles the words on their way and leaves everything else of the cell. -/
theorem runCell_nop {s s1 : State} {ca : CellAddr} {k : LeafNo} {x : CellAt} {a b c : RWord} {body : CellBody}
    (h : CellLeaf s s1 ca k .nop x a b c) :
    let t := s.runCell .nop body (cellAddrNo ca) k
    let w := (s.cell x.key).settle x.t
    (t.cell x.key).v = w.v ∧ (t.cell x.key).t = w.t ∧ (t.cell x.key).outA = w.outA ∧ (t.cell x.key).outB = w.outB ∧
      t.arr.gths = s.arr.gths := by
  have hk := cellReady_key h.ready
  unfold State.runCell
  rw [h.ready]
  dsimp only
  rw [← hk]
  have h1 : ∀ z : State, z.operands x .nop = ({}, {}, {}, z) := fun z => rfl
  simp only [h.opcode, ne_eq, not_true_eq_false, if_false, h1, if_true]
  generalize hw : (s.updCell x.key fun c => c.settle x.t) = w
  have hc : w.cell x.key = (s.cell x.key).settle x.t := by rw [← hw, cell_updCell, if_pos rfl]
  have hg0 : w.arr.gths = s.arr.gths := by rw [← hw]; rfl
  generalize w.opPaths x .nop = ps
  generalize w.cell x.key = c0 at hc
  generalize hz : (w.updCell x.key fun c => { c with carry := {}, carryAt := x.t }).updCell x.key (fun c => { c with paths := ps }) = z
  have hs := kept_switchBox z x c0 x.key
  have hg := (switchBox_only x c0 (.refl [.free, .cells, .regions, .reg .qctFault] z) (by decide)).same .gatherings (by decide)
  generalize z.switchBox x c0 = y at hs hg
  have hu : (z.cell x.key).v = (w.cell x.key).v ∧ (z.cell x.key).t = (w.cell x.key).t ∧ (z.cell x.key).outA = (w.cell x.key).outA ∧
      (z.cell x.key).outB = (w.cell x.key).outB := by
    rw [← hz]; simp only [cell_updCell, if_true, and_self]
  have hw' : w.cell x.key = (s.cell x.key).settle x.t := by rw [← hw, cell_updCell, if_pos rfl]
  rw [hw'] at hu
  rw [cell_updCell, if_pos rfl]
  refine ⟨hs.v.trans hu.1, hs.t.trans hu.2.1, hs.outA.trans hu.2.2.1, hs.outB.trans hu.2.2.2, ?_⟩
  refine hg.trans (Eq.trans ?_ hg0)
  rw [← hz]; rfl

theorem FolioKept.refl (g : Gth) : FolioKept g g := ⟨rfl, rfl, rfl, rfl, rfl, rfl⟩
theorem FolioKept.trans {f g h : Gth} (a : FolioKept f g) (b : FolioKept g h) : FolioKept f h :=
  ⟨b.working.trans a.working, b.pending.trans a.pending, b.draining.trans a.draining, b.store.trans a.store,
    b.queue.trans a.queue, b.press.trans a.press⟩

theorem gth_updGth (s : State) (g j : Nat) (f : Gth → Gth) : (s.updGth g f).gth j = if g = j then f (s.gth g) else s.gth j := by
  unfold State.updGth
  by_cases h : g = j
  · subst h; simp
  · rw [State.gth_setGth_ne _ _ h]; simp [h]

theorem FolioKept.upd {s : State} {g : Nat} {f : Gth → Gth} (h : ∀ x, FolioKept x (f x)) (j : Nat) :
    FolioKept (s.gth j) ((s.updGth g f).gth j) := by
  rw [gth_updGth]; split
  · rename_i e; subst e; exact h _
  · exact .refl _

theorem folio_designCheck (s : State) (x : CellAt) (j : Nat) : FolioKept (s.gth j) ((s.designCheck x).gth j) := by
  unfold State.designCheck
  split
  · exact .refl _
  · refine .upd (fun g => ?_) j
    dsimp only; split
    · constructor <;> rfl
    · split
      · constructor <;> rfl
      · exact .refl _

theorem folio_writeBack (s : State) (x : CellAt) (o : CellResult) (j : Nat) : FolioKept (s.gth j) ((s.writeBack x o).gth j) := by
  unfold State.writeBack
  extract_lets sw s0 fl s1 ws s2 s3 s4
  have h0 : s0.gth j = s.gth j := by simp only [s0]; split <;> rfl
  have h1 : s1.gth j = s.gth j := by rw [← h0]; simp only [s1]; split <;> rfl
  have h2 : FolioKept (s.gth j) (s2.gth j) := by
    rw [← h1]; simp only [s2]; split
    · exact .upd (fun g => by constructor <;> rfl) j
    · exact .refl _
  have h3 : FolioKept (s.gth j) (s3.gth j) := by
    refine h2.trans ?_; simp only [s3]; split
    · split
      · exact folio_designCheck _ _ _
      · exact .refl _
    · exact .refl _
  have h4 : FolioKept (s.gth j) (s4.gth j) := h3
  split
  · exact h4.trans (.upd (fun g => by constructor <;> rfl) j)
  · exact h4

theorem returns_write (c : Cell) (dst : BitVec 6) (sw : Bool) (w : RWord) (t : Nat) : (c.write dst sw w t).returns = c.returns := by
  unfold Cell.write
  split <;> dsimp only <;> (try split) <;> rfl

theorem heldIn_write (c : Cell) (dst : BitVec 6) (sw : Bool) (w : RWord) (t : Nat) : (c.write dst sw w t).heldIn = c.heldIn := by
  unfold Cell.write
  split <;> dsimp only <;> (try split) <;> rfl

theorem writeBack_rest (s : State) (x : CellAt) (o : CellResult) :
    ((s.writeBack x o).cell x.key).returns = (s.cell x.key).returns ∧ ((s.writeBack x o).cell x.key).heldIn = (s.cell x.key).heldIn := by
  unfold State.writeBack
  extract_lets sw s0 fl s1 ws s2 s3 s4
  have h0 : (s0.cell x.key).returns = (s.cell x.key).returns ∧ (s0.cell x.key).heldIn = (s.cell x.key).heldIn := by
    simp only [s0]; split
    · simp only [cell_updCell, if_true]; exact ⟨returns_write .., heldIn_write ..⟩
    · exact ⟨rfl, rfl⟩
  have h1 : (s1.cell x.key).returns = (s.cell x.key).returns ∧ (s1.cell x.key).heldIn = (s.cell x.key).heldIn := by
    simp only [s1]; split
    · simp only [cell_updCell, if_true]; exact h0
    · exact h0
  have h2 : s2.cell x.key = s1.cell x.key := by simp only [s2]; split <;> rfl
  have h3 : s3.cell x.key = s1.cell x.key := by
    rw [← h2]; simp only [s3]; split
    · split
      · exact cell_designCheck _ _ _
      · rfl
    · rfl
  have h4 : (s4.cell x.key).returns = (s.cell x.key).returns ∧ (s4.cell x.key).heldIn = (s.cell x.key).heldIn := by
    simp only [s4, cell_updCell, if_true]; rw [h3]; exact h1
  split <;> exact h4

/-! ### Charges stay -/

/-- No failure charged to a region is lost. -/
structure Charges (s t : State) : Prop where
  keeps : ∀ r, ∀ f ∈ (s.region r).fails, f ∈ (t.region r).fails

theorem Charges.refl (s : State) : Charges s s := ⟨fun _ _ h => h⟩
theorem Charges.trans {s t u : State} (h : Charges s t) (k : Charges t u) : Charges s u :=
  ⟨fun r f hf => k.keeps r f (h.keeps r f hf)⟩
theorem Charges.same {s t : State} (h : t.arr.regions = s.arr.regions) : Charges s t :=
  ⟨fun r f hf => by unfold State.region at hf ⊢; rwa [h]⟩
theorem Charges.only {ps : List Part} {s t : State} (h : State.Only ps s t) (hp : Part.regions ∉ ps) : Charges s t :=
  .same (h.same _ hp)

theorem Charges.foldl {α : Type} (l : List α) (f : State → α → State) (h : ∀ s a, Charges s (f s a)) :
    ∀ s, Charges s (l.foldl f s) := by
  induction l with
  | nil => exact fun s => .refl s
  | cons a l ih => exact fun s => (h s a).trans (ih _)

theorem charge_charges (s : State) (r c g : Nat) : Charges s (s.charge r c g) ∧
    ∃ f ∈ ((s.charge r c g).region r).fails, f.quire = s.exec r ∧ f.cause = c ∧ f.gth = g := by
  have hu : ∀ f : Fail, Charges s (s.updRegion r fun x => if x.fails.contains f then x else { x with fails := f :: x.fails }) ∧
      f ∈ ((s.updRegion r fun x => if x.fails.contains f then x else { x with fails := f :: x.fails }).region r).fails := by
    intro f
    unfold State.updRegion
    refine ⟨⟨fun j y hy => ?_⟩, ?_⟩
    · by_cases h : r = j
      · subst h
        rw [State.region_setRegion_self]; beta_reduce
        split
        · exact hy
        · exact List.mem_cons_of_mem _ hy
      · rw [State.region_setRegion_ne _ _ h]; exact hy
    · rw [State.region_setRegion_self]; beta_reduce
      split
      · next h => simpa using h
      · exact List.mem_cons_self
  have hk : ∀ (t : State) (n : Nat) (f : Fail), Charges t (t.recordFail r n f) := fun t n f =>
    .only (recordFail_only r n f (.refl [.reg .qctFault] t) (by decide)) (by decide)
  unfold State.charge State.chargeTo
  dsimp only
  obtain ⟨h1, h2⟩ := hu { quire := s.exec r, dev := s.ownDev r, cause := c, gth := g }
  split
  · exact ⟨h1.trans (hk _ _ _), _, (hk _ _ _).keeps r _ h2, rfl, rfl, rfl⟩
  · exact ⟨h1, _, h2, rfl, rfl, rfl⟩

theorem chargeIf_charges (s : State) (b : Bool) (r c g : Nat) : Charges s (s.chargeIf b r c g) := by
  unfold State.chargeIf; split
  · exact (charge_charges s r c g).1
  · exact .refl _

theorem updCell_charges (s : State) (k : Nat) (f : Cell → Cell) : Charges s (s.updCell k f) := .same rfl

theorem drawWord_charges (s : State) : Charges s s.drawWord.2 := .only (drawWord_only (.refl [.free] s) (by decide)) (by decide)

theorem captureTerm_charges (s : State) (r t d term : Nat) (ok : Bool) (w : RWord) :
    Charges s (s.captureTerm r t d term ok w) := by
  unfold State.captureTerm
  dsimp only
  refine Charges.trans ?_ ((chargeIf_charges ..).trans (updCell_charges ..))
  split
  · exact .refl _
  · exact drawWord_charges s

theorem driveWord_charges (r k t : Nat) : ∀ (fuel : Nat) (s : State) (key seg : Nat) (ps : List Path) (w : RWord),
    Charges s (State.driveWord r k t fuel s key seg ps w)
  | 0, s, key, seg, ps, w => by
    unfold State.driveWord; split
    · exact .refl _
    · exact captureTerm_charges ..
  | fuel + 1, s, key, seg, ps, w => by
    unfold State.driveWord; split
    · exact .refl _
    · refine (Charges.trans (updCell_charges ..) (captureTerm_charges ..)).trans (Charges.foldl _ _ (fun s a => ?_) _)
      dsimp only
      split
      · exact driveWord_charges ..
      · exact .refl _

theorem regWord_charges (s : State) (key term t : Nat) : Charges s (s.regWord key term t).2 :=
  .only (regWord_only key term t (.refl [.free, .cells] s) (by decide)) (by decide)

theorem liveWord_charges (r k t : Nat) : ∀ (fuel : Nat) (s : State) (key term : Nat), Charges s (s.liveWord r k t fuel key term).2
  | 0, s, _, _ => .refl s
  | fuel + 1, s, key, term => by
    unfold State.liveWord
    dsimp only
    split
    · exact .refl _
    split
    · exact .refl _
    split
    · exact .refl _
    split
    · exact regWord_charges ..
    · exact liveWord_charges ..
    · exact chargeIf_charges ..
    · split
      · exact .refl _
      · exact .only (defined_only t _ _ (.refl [.free] s) (by decide)) (by decide)

theorem driveEntry_charges (s : State) (x : CellAt) (c0 : Cell) (j : Nat) : Charges s (s.driveEntry x c0 j) := by
  unfold State.driveEntry
  extract_lets e seg
  split
  · exact .refl _
  split
  · exact (charge_charges ..).1
  split
  · exact (regWord_charges ..).trans (driveWord_charges ..)
  · next m _ _ =>
    split
    · exact .refl _
    have h := liveWord_charges x.r x.k x.t 8 s x.key m
    split
    · next he => rw [he] at h; exact h.trans (driveWord_charges ..)
    · next he => rw [he] at h; exact h
    · next he => rw [he] at h; exact (h.trans (drawWord_charges _)).trans (driveWord_charges ..)
  · exact (chargeIf_charges ..).trans (driveWord_charges ..)
  · exact (Charges.only (defined_only x.t _ _ (.refl [.free] s) (by decide)) (by decide)).trans (driveWord_charges ..)

theorem switchBox_charges (s : State) (x : CellAt) (c0 : Cell) : Charges s (s.switchBox x c0) := by
  unfold State.switchBox
  exact (chargeIf_charges ..).trans (.foldl _ _ (fun s j => driveEntry_charges s x c0 j) _)

theorem writeBack_charges (s : State) (x : CellAt) (o : CellResult) : Charges s (s.writeBack x o) :=
  .only (writeBack_only x o (.refl [.cells, .gatherings] s) (by decide)) (by decide)

/-- What a leaf's own part has charged stays charged. -/
theorem runCell_charges {s s1 s2 : State} {ca : CellAddr} {k : LeafNo} {op : CellOp} {x : CellAt} {a b c : RWord} {body : CellBody}
    {o : CellResult} (h : CellLeaf s s1 ca k op x a b c) (hop : op ≠ .nop) (hb : body x a b c s1 = (o, s2)) :
    Charges s2 (s.runCell op body (cellAddrNo ca) k) := by
  have hk := cellReady_key h.ready
  obtain ⟨s0, h1, h2⟩ := h.sources
  unfold State.runCell
  rw [h.ready]
  dsimp only
  rw [← hk]
  simp only [h.opcode, ne_eq, not_true_eq_false, if_false, h1]
  simp only [if_neg hop] at h2 ⊢
  simp only [h2, hb, if_true]
  exact ((writeBack_charges ..).trans (updCell_charges ..)).trans ((switchBox_charges ..).trans (updCell_charges ..))

end Sys2Proof.Machine
end

