-- ==== Sys2Proof/Laws/Fields.lean ====
section
/-!
SUPPORT. Registers, fields and parts across operations: what a frame says of one field, and what the edges of a quire
do to every cell of a region.
-/
namespace Sys2Proof.Machine

theorem State.Only.reg_eq {ps : List Part} {s t : State} (h : State.Only ps s t) (r : RegId) (i : Nat)
    (hr : Part.reg r ∉ ps) : t.reg r i = s.reg r i := h.same _ hr i

theorem State.Only.getF {ps : List Part} {s t : State} (h : State.Only ps s t) {w : Nat} (f : Field w) (i : Nat)
    (hr : Part.reg f.reg ∉ ps) : t.getF f i = s.getF f i := by
  unfold State.getF; rw [h.reg_eq _ _ hr]

theorem State.Only.getN {ps : List Part} {s t : State} (h : State.Only ps s t) {w : Nat} (f : Field w) (i : Nat)
    (hr : Part.reg f.reg ∉ ps) : t.getN f i = s.getN f i := by
  unfold State.getN; rw [h.getF _ _ hr]

theorem State.Only.bitF {ps : List Part} {s t : State} (h : State.Only ps s t) (f : Field 1) (i : Nat)
    (hr : Part.reg f.reg ∉ ps) : t.bitF f i = s.bitF f i := by
  unfold State.bitF; rw [h.getF _ _ hr]

theorem State.Only.cell {ps : List Part} {s t : State} (h : State.Only ps s t) (hp : Part.cells ∉ ps) (key : Nat) :
    t.cell key = s.cell key := by
  unfold State.cell; rw [show t.arr.cells = s.arr.cells from h.same _ hp]

theorem State.Only.gth {ps : List Part} {s t : State} (h : State.Only ps s t) (hp : Part.gatherings ∉ ps) (g : Nat) :
    t.gth g = s.gth g := by
  unfold State.gth; rw [show t.arr.gths = s.arr.gths from h.same _ hp]

theorem State.Only.region {ps : List Part} {s t : State} (h : State.Only ps s t) (hp : Part.regions ∉ ps) (r : Nat) :
    t.region r = s.region r := by
  unfold State.region; rw [show t.arr.regions = s.arr.regions from h.same _ hp]

theorem State.Only.regionOf {ps : List Part} {s t : State} (h : State.Only ps s t) (hp : Part.reg .gthCfg ∉ ps) (g : Nat) :
    t.regionOf g = s.regionOf g := by
  unfold State.regionOf
  rw [h.bitF F.gthCfg_inuse g hp, h.getN F.gthCfg_region g hp]

theorem State.regionOf_regs {s t : State} (h : t.regs = s.regs) (g : Nat) : t.regionOf g = s.regionOf g := by
  unfold State.regionOf State.bitF State.getN State.getF State.reg; rw [h]

theorem State.getN_regs {s t : State} (h : t.regs = s.regs) {w : Nat} (f : Field w) (i : Nat) : t.getN f i = s.getN f i := by
  unfold State.getN State.getF State.reg; rw [h]

theorem State.bitF_regs {s t : State} (h : t.regs = s.regs) (f : Field 1) (i : Nat) : t.bitF f i = s.bitF f i := by
  unfold State.bitF State.getF State.reg; rw [h]

theorem State.cell_regs (s : State) (r : Sparse (BitVec 64)) (key : Nat) : ({ s with regs := r } : State).cell key = s.cell key := rfl

theorem State.getN_addF_self {w : Nat} (s : State) (f : Field w) (i n : Nat) (h : f.lo + w ≤ 64) :
    (s.addF f i n).getN f i = min (s.getN f i + n) (2 ^ w - 1) := by
  unfold State.addF
  rw [State.getN_putN_self _ _ _ _ h]
  have : 0 < 2 ^ w := by positivity
  exact Nat.mod_eq_of_lt (by omega)

theorem State.getN_addF_apart {w w' : Nat} (s : State) (f : Field w) (g : Field w') (i j n : Nat)
    (h : f.apart g = true) : (s.addF f i n).getN g j = s.getN g j := by
  unfold State.addF; rw [State.getN_putN_apart _ _ _ _ _ _ h]

theorem lookupKey_mem {α : Type} (es : List (Nat × α)) (i : Nat) (v : α) (h : lookupKey es i = some v) : i ∈ es.map Prod.fst := by
  induction es with
  | nil => cases h
  | cons e es ih =>
    obtain ⟨k, x⟩ := e
    simp only [lookupKey] at h
    split at h
    · next e => subst e; exact List.mem_cons_self
    · exact List.mem_cons_of_mem _ (ih h)

theorem Sparse.at_of_not_key {α : Type} [Inhabited α] (m : Sparse α) (k : Nat) (h : k ∉ m.keys) : m.at k = default := by
  unfold Sparse.at Sparse.get
  cases hl : lookupKey m.entries k with
  | none => rfl
  | some v => exact absurd (lookupKey_mem _ _ _ hl) h

theorem nodup_eraseDups {α : Type} [DecidableEq α] : ∀ (n : Nat) (l : List α), l.length ≤ n → l.eraseDups.Nodup
  | 0, l, h => by
    have : l = [] := List.length_eq_zero_iff.1 (by omega)
    subst this; simp
  | n + 1, l, h => by
    cases l with
    | nil => simp
    | cons a l =>
      rw [List.eraseDups_cons, List.nodup_cons]
      refine ⟨?_, nodup_eraseDups n _ ?_⟩
      · rw [List.mem_eraseDups, List.mem_filter]; simp
      · have := List.length_filter_le (fun b => !b == a) l
        simp only [List.length_cons] at h
        omega

/-- A function on every key of a list. -/
theorem Sparse.at_updAll {α : Type} [Inhabited α] [DecidableEq α] (f : α → α) (ks : List Nat) (m : Sparse α) (k : Nat) :
    (m.updAll ks f).at k = if k ∈ ks then f (m.at k) else m.at k := by
  unfold Sparse.updAll
  have hd := nodup_eraseDups ks.length ks le_rfl
  have hm : k ∈ ks ↔ k ∈ ks.eraseDups := List.mem_eraseDups.symm
  simp only [hm]
  clear hm
  generalize ks.eraseDups = l at hd
  induction l generalizing m with
  | nil => simp
  | cons a l ih =>
    rw [List.nodup_cons] at hd
    rw [List.foldl_cons, ih _ hd.2, Sparse.at_upd]
    by_cases h : a = k
    · subst h
      simp [hd.1]
    · have h' : ¬ k = a := fun e => h e.symm
      simp [h, h']

/-- The versions of every cell of a region changed in one edge, where an unlisted cell's versions stay. -/
theorem cell_onVersions (s : State) (r : Nat) (fc : Ver CellWords → Ver CellWords) (fg : Gth → Gth)
    (h0 : fc (default : Cell).v = (default : Cell).v) (key : Nat) :
    (s.onVersions r fc fg).cell key =
      if s.regionOf (key / 64) = some r then { s.cell key with v := fc (s.cell key).v } else s.cell key := by
  unfold State.onVersions State.cell
  dsimp only
  rw [Sparse.at_updAll]
  by_cases h : s.regionOf (key / 64) = some r
  · rw [if_pos h]
    by_cases hk : key ∈ s.cellsOf r
    · rw [if_pos hk]
    · rw [if_neg hk]
      have : key ∉ s.arr.cells.keys := fun hm => hk (by
        unfold State.cellsOf; rw [List.mem_filter]; exact ⟨hm, by simp [h]⟩)
      rw [Sparse.at_of_not_key _ _ this, h0]
  · rw [if_neg h, if_neg]
    intro hk
    unfold State.cellsOf at hk
    rw [List.mem_filter] at hk
    exact h (by simpa using hk.2)

/-- The same of one part of the versions, which an unlisted cell keeps. -/
theorem part_onVersions {β : Type} (s : State) (r : Nat) (fc : Ver CellWords → Ver CellWords) (fg : Gth → Gth)
    (part : Ver CellWords → β) (h0 : part (fc (default : Cell).v) = part (default : Cell).v) (key : Nat) :
    part ((s.onVersions r fc fg).cell key).v =
      if s.regionOf (key / 64) = some r then part (fc (s.cell key).v) else part (s.cell key).v := by
  unfold State.onVersions State.cell
  dsimp only
  rw [Sparse.at_updAll]
  by_cases h : s.regionOf (key / 64) = some r
  · rw [if_pos h]
    by_cases hk : key ∈ s.cellsOf r
    · rw [if_pos hk]
    · rw [if_neg hk]
      have : key ∉ s.arr.cells.keys := fun hm => hk (by
        unfold State.cellsOf; rw [List.mem_filter]; exact ⟨hm, by simp [h]⟩)
      rw [Sparse.at_of_not_key _ _ this, h0]
  · rw [if_neg h, if_neg]
    intro hk
    unfold State.cellsOf at hk
    rw [List.mem_filter] at hk
    exact h (by simpa using hk.2)

/-- The end of the leaves of a computation keeps every committed and pending version. -/
theorem cell_settle (c : Cell) (t : Nat) : (c.settle t).v.com = c.v.com ∧ (c.settle t).v.pend = c.v.pend := by
  unfold Cell.settle
  dsimp only
  have : ∀ (l : List FolioReturn) (c : Cell), (l.foldl (fun c r => c.write r.dst r.cw r.w (r.at_ + 1)) c).v.com = c.v.com ∧
      (l.foldl (fun c r => c.write r.dst r.cw r.w (r.at_ + 1)) c).v.pend = c.v.pend := by
    intro l
    induction l with
    | nil => exact fun c => ⟨rfl, rfl⟩
    | cons a l ih =>
      intro c
      rw [List.foldl_cons, (ih _).1, (ih _).2]
      unfold Cell.write
      dsimp only
      split <;> (try split) <;> exact ⟨rfl, rfl⟩
  exact this _ _

/-- A failed check of a LOCAL region waits for the vote before QCT_FAULT takes it (R32). -/
theorem chargeIf_regs (s : State) (b : Bool) (r c g : Nat) (h : s.systemMode r = false) : (s.chargeIf b r c g).regs = s.regs := by
  unfold State.chargeIf
  split
  · unfold State.charge State.chargeTo
    dsimp only
    rw [if_neg]
    · rfl
    · have : (s.updRegion r fun x => if x.fails.contains { quire := s.exec r, dev := s.ownDev r, cause := c, gth := g } then x
          else { x with fails := { quire := s.exec r, dev := s.ownDev r, cause := c, gth := g } :: x.fails }).systemMode r = false := h
      rw [this]; simp
  · rfl

theorem systemMode_regs {s t : State} (h : t.regs = s.regs) (r : Nat) : t.systemMode r = s.systemMode r := State.bitF_regs h _ r

theorem settlePress_regs (s : State) (r g t : Nat) (h : s.systemMode r = false) : (s.settlePress r g t).regs = s.regs := by
  unfold State.settlePress
  generalize List.range 2 = l
  induction l generalizing s with
  | nil => rfl
  | cons a l ih =>
    rw [List.foldl_cons]
    have e : ((s.updGth g fun x => { x with press := x.press.put a (((s.gth g).press.at a).settle t).1 }).chargeIf
        (((s.gth g).press.at a).settle t).2 r 3 g).regs = s.regs := chargeIf_regs _ _ _ _ _ h
    exact (ih _ ((systemMode_regs e r).trans h)).trans e

theorem settleRegion_regs (s : State) (r : Nat) (h : s.systemMode r = false) : (s.settleRegion r).regs = s.regs := by
  unfold State.settleRegion
  dsimp only
  have : ∀ (l : List Nat) (t : Nat) (z : State), z.systemMode r = false →
      (l.foldl (fun s g => s.settlePress r g t) z).regs = z.regs := by
    intro l t
    induction l with
    | nil => exact fun z _ => rfl
    | cons a l ih =>
      intro z hz
      have e := settlePress_regs z r a t hz
      rw [List.foldl_cons, ih _ ((systemMode_regs e r).trans hz), e]
  rw [this]
  exact h

theorem recordFail_region (s : State) (r n : Nat) (f : Fail) (j : Nat) : (s.recordFail r n f).region j = s.region j :=
  (recordFail_only r n f (.refl [.reg .qctFault] s) (by decide)).region (by decide) j

/-- A charged check changes nothing of a region but its list of failures. -/
theorem chargeIf_region (s : State) (b : Bool) (r c g j : Nat) :
    ∃ fs, (s.chargeIf b r c g).region j = { s.region j with fails := fs } := by
  unfold State.chargeIf
  split
  · have h : ∀ f : Fail, ∃ fs, (s.updRegion r fun x => if x.fails.contains f then x else { x with fails := f :: x.fails }).region j =
        { s.region j with fails := fs } := by
      intro f
      unfold State.updRegion
      by_cases h : r = j
      · subst h
        rw [State.region_setRegion_self]
        beta_reduce
        split <;> exact ⟨_, rfl⟩
      · rw [State.region_setRegion_ne _ _ h]; exact ⟨_, rfl⟩
    unfold State.charge State.chargeTo
    dsimp only
    split
    · rw [recordFail_region]; exact h _
    · exact h _
  · exact ⟨_, rfl⟩

/-! ### A charged check keeps what a leaf reads -/

theorem chargeIf_frame (s : State) (b : Bool) (r c g : Nat) : State.Only [.regions, .reg .qctFault] s (s.chargeIf b r c g) :=
  chargeIf_only b r c g (.refl _ s) (by decide)

theorem gth_chargeIf (s : State) (b : Bool) (r c g j : Nat) : (s.chargeIf b r c g).gth j = s.gth j :=
  (chargeIf_frame s b r c g).gth (by decide) j

theorem cell_chargeIf (s : State) (b : Bool) (r c g j : Nat) : (s.chargeIf b r c g).cell j = s.cell j :=
  (chargeIf_frame s b r c g).cell (by decide) j

theorem reg_chargeIf (s : State) (b : Bool) (r c g : Nat) (x : RegId) (i : Nat) (h : x ≠ .qctFault) :
    (s.chargeIf b r c g).reg x i = s.reg x i :=
  (chargeIf_frame s b r c g).reg_eq x i (by simpa using h)

theorem getN_chargeIf (s : State) (b : Bool) (r c g : Nat) {w : Nat} (f : Field w) (i : Nat) (h : f.reg ≠ .qctFault) :
    (s.chargeIf b r c g).getN f i = s.getN f i :=
  (chargeIf_frame s b r c g).getN f i (by simpa using h)

theorem qSize_chargeIf (s : State) (b : Bool) (r c g h q : Nat) : (s.chargeIf b r c g).qSize h q = s.qSize h q :=
  getN_chargeIf s b r c g _ _ (by decide)

theorem qBase_chargeIf (s : State) (b : Bool) (r c g h q : Nat) : (s.chargeIf b r c g).qBase h q = s.qBase h q :=
  getN_chargeIf s b r c g _ _ (by decide)

theorem qOut_chargeIf (s : State) (b : Bool) (r c g h q : Nat) : (s.chargeIf b r c g).qOut h q = s.qOut h q :=
  (chargeIf_frame s b r c g).bitF _ _ (by decide)

theorem exec_chargeIf (s : State) (b : Bool) (r c g j : Nat) : (s.chargeIf b r c g).exec j = s.exec j :=
  getN_chargeIf s b r c g _ _ (by decide)

theorem cadenceOn_chargeIf (s : State) (b : Bool) (r c g j n : Nat) : (s.chargeIf b r c g).cadenceOn j n = s.cadenceOn j n := by
  unfold State.cadenceOn State.stage
  rw [getN_chargeIf _ _ _ _ _ _ _ (by decide), getN_chargeIf _ _ _ _ _ _ _ (by decide), exec_chargeIf,
    reg_chargeIf _ _ _ _ _ _ _ (by decide)]

theorem writes_chargeIf (s : State) (b : Bool) (r c g : Nat) (x : CellAt) : (s.chargeIf b r c g).cellWrites x = s.cellWrites x := by
  unfold State.cellWrites State.cellCadence
  rw [gth_chargeIf, cadenceOn_chargeIf]

theorem folioWrites_chargeIf (s : State) (b : Bool) (r c g : Nat) (x : CellAt) (h u : Nat) :
    (s.chargeIf b r c g).folioWrites x h u = s.folioWrites x h u := by
  unfold State.folioWrites State.cellCadence
  rw [gth_chargeIf, gth_chargeIf, cadenceOn_chargeIf, cadenceOn_chargeIf]

theorem capture_chargeIf (s : State) (b : Bool) (r c g j : Nat) : (s.chargeIf b r c g).capture j = s.capture j := by
  unfold State.capture
  obtain ⟨fs, h⟩ := chargeIf_region s b r c g j
  rw [h, exec_chargeIf]

theorem arrayCount_chargeIf (s : State) (b : Bool) (r c g h q ap crp : Nat) :
    (s.chargeIf b r c g).arrayCount h q ap crp = s.arrayCount h q ap crp := by
  unfold State.arrayCount
  rw [qOut_chargeIf, qSize_chargeIf]

end Sys2Proof.Machine
end

