-- ==== Sys2Proof/Laws/Quire.lean ====
section
/-!
SUPPORT. The quire of a region: what opening one, a commit edge, a replay and QFAULT leave (R16 to R32).
-/
namespace Sys2Proof.Machine


theorem onVersions_regs (s : State) (r : Nat) (fc : Ver CellWords → Ver CellWords) (fg : Gth → Gth) : (s.onVersions r fc fg).regs = s.regs := rfl
theorem updRegion_regs (s : State) (r : Nat) (f : Region → Region) : (s.updRegion r f).regs = s.regs := rfl
theorem updRegion_cell (s : State) (r : Nat) (f : Region → Region) (k : Nat) : (s.updRegion r f).cell k = s.cell k := rfl

theorem settleRegion_cell (s : State) (r key : Nat) : ((s.settleRegion r).cell key).v.com = (s.cell key).v.com ∧
    (s.regionOf (key / 64) ≠ some r → (s.settleRegion r).cell key = s.cell key) ∧
    (s.systemMode r = false → (s.settleRegion r).regs = s.regs) := by
  refine ⟨?_, ?_, settleRegion_regs s r⟩
  all_goals
    unfold State.settleRegion
    dsimp only
    generalize hz : ({ s with arr := { s.arr with cells := s.arr.cells.updAll (s.cellsOf r) (fun c => c.settle (64 * ((s.region r).comp + 1))) } } : State) = z
    have h1 : ∀ (l : List Nat) (t : Nat) (z : State), (l.foldl (fun s g => s.settlePress r g t) z).cell key = z.cell key := by
      intro l t
      induction l with
      | nil => exact fun z => rfl
      | cons a l ih => intro z; rw [List.foldl_cons, ih]; exact (settlePress_only r a t (.refl [.gatherings, .regions, .reg .qctFault] z) (by decide)).cell (by decide) key
    rw [h1, ← hz]
    unfold State.cell
    dsimp only
    rw [Sparse.at_updAll]
  · split
    · exact (cell_settle _ _).1
    · rfl
  · intro hr
    rw [if_neg]
    unfold State.cellsOf; rw [List.mem_filter]; intro h; exact hr (by simpa using h.2)

theorem getN_of_regs {s t : State} (h : t.regs = s.regs) {w : Nat} (f : Machine.Field w) (i : Nat) : t.getN f i = s.getN f i := State.getN_regs h f i

/-- opening a quire: attempt, lastvote and the executing count -/
theorem advanceStage_status (s : State) (r n : Nat) : (s.advanceStage r n).getN F.qctStatus_attempt r = s.getN F.qctStatus_attempt r ∧
    (s.advanceStage r n).getN F.qctStatus_lastvote r = s.getN F.qctStatus_lastvote r ∧
    (s.getN F.qctStatus_state r ≠ 1 → (s.advanceStage r n).getN F.qctStatus_state r = s.getN F.qctStatus_state r) := by
  unfold State.advanceStage
  extract_lets gap toWe toRst
  split
  · simp (disch := decide) only [State.getN_putN_apart, implies_true, and_self]
  · split
    · rename_i y _ _
      have h1 : y.getN F.qctStatus_attempt r = s.getN F.qctStatus_attempt r := by simp (disch := decide) only [y, State.getN_putN_apart]
      have h2 : y.getN F.qctStatus_lastvote r = s.getN F.qctStatus_lastvote r := by simp (disch := decide) only [y, State.getN_putN_apart]
      have h3 : y.getN F.qctStatus_state r = s.getN F.qctStatus_state r := by simp (disch := decide) only [y, State.getN_putN_apart]
      clear_value y
      split
      · next h =>
        simp (disch := decide) only [State.getN_putN_apart, h1, h2, true_and]
        intro hne
        exact absurd (h3 ▸ h) hne
      · exact ⟨h1, h2, fun _ => h3⟩
    · exact ⟨rfl, rfl, fun _ => rfl⟩

theorem openQuire_tail (s : State) (r n : Nat) (fresh : Bool) (pads : BitVec 192) :
    State.Only [.free, .gatherings, .regions, .collator, .reg .colEv]
      (((s.updRegion r fun x => { x with comp := x.comp + 1, live := true, waiting := false }).putN F.qctExec_count r n).advanceStage r n)
      (s.openQuire r n fresh pads) := by
  unfold State.openQuire
  dsimp only
  generalize hz : ((s.updRegion r fun x => { x with comp := x.comp + 1, live := true, waiting := false }).putN F.qctExec_count r n).advanceStage r n = z
  clear hz
  repeat' first
    | with_reducible first | assumption | exact State.Only.refl _ _ | apply updRegion_only | apply only_putN | apply captureAll_only | apply pushReset_only | apply State.Only.foldl2 | apply exchangeIn_only | apply State.Only.ite_ | apply State.Only.ite2 | apply State.Only.foldl_ | apply State.Only.foldl2 | apply State.Only.foldl3
    | (show sub _ _ = true; decide)
    | (intro _ _ hx)
    | (extract_lets +onlyGivenNames y; have _h : ArrayState := y; clear _h; dsimp only [y]; clear y)
    | (extract_lets +onlyGivenNames y; with_reducible refine State.Only.cut y ?_ ?_ <;> [dsimp only [y]; (clear_value y; intro hy)])
    | (extract_lets +onlyGivenNames y; clear_value y)
    | split
    | with_reducible first | refine State.Only.snd (by assumption) ?_ | refine State.Only.snd2 (by assumption) ?_ | refine State.Only.snd3 (by assumption) ?_
    | with_reducible refine only_arr ?_ _ (fun p hp => by cases p <;> first | exact absurd (by decide) hp | simp [Part.same, State.reg, State.putN, State.putF, State.setReg])

theorem openQuire_status (s : State) (r n : Nat) (fresh : Bool) (pads : BitVec 192) :
    let t := s.openQuire r n fresh pads
    t.getN F.qctStatus_attempt r = s.getN F.qctStatus_attempt r ∧ t.getN F.qctStatus_lastvote r = s.getN F.qctStatus_lastvote r ∧
    (s.getN F.qctStatus_state r ≠ 1 → t.getN F.qctStatus_state r = s.getN F.qctStatus_state r) ∧
    t.getN F.qctExec_count r = n % 2 ^ 64 := by
  intro t
  have h := openQuire_tail s r n fresh pads
  have h1 := fun {w} (f : Machine.Field w) (hf : Part.reg f.reg ∉ [.free, .gatherings, .regions, .collator, .reg .colEv]) => h.getN f r hf
  have h2 := advanceStage_status ((s.updRegion r fun x => { x with comp := x.comp + 1, live := true, waiting := false }).putN F.qctExec_count r n) r n
  have h3 := (advanceStage_only r n (.refl [.reg .bndStat, .reg .bndCase, .reg .qctStatus] ((s.updRegion r fun x => { x with comp := x.comp + 1, live := true, waiting := false }).putN F.qctExec_count r n)) (by decide)).getN F.qctExec_count r (by decide)
  rw [State.getN_putN_self _ _ _ _ (by decide)] at h3
  simp (disch := decide) only [State.getN_putN_apart, getN_of_regs (updRegion_regs s r _)] at h2
  refine ⟨?_, ?_, ?_, ?_⟩
  · rw [← h2.1]; exact h1 _ (by decide)
  · rw [← h2.2.1]; exact h1 _ (by decide)
  · intro hn; rw [← h2.2.2 hn]; exact h1 _ (by decide)
  · rw [← h3]; exact h1 _ (by decide)

theorem openQuire_cell (s : State) (r n : Nat) (fresh : Bool) (pads : BitVec 192) (key : Nat) :
    (s.openQuire r n fresh pads).cell key = s.cell key :=
  (openQuire_only r n fresh pads (.refl [.free, .gatherings, .regions, .collator, .reg .colEv, .reg .bndStat, .reg .bndCase, .reg .qctExec, .reg .qctStatus] s) (by decide)).cell (by decide) key

theorem recordChecks_only (s : State) (r n : Nat) (b : Bool) (l : List Nat) : State.Only [.reg .gthDchk] s
    (l.foldl (fun s g => s.recordCheck g n (if b then (s.gth g).checkP else (s.gth g).checkW)) s) :=
  State.Only.foldl_ _ (fun x a hx => recordCheck_only _ _ _ hx (by decide)) (.refl _ s)

/-- the commit edge -/
theorem commitEdge_facts (s : State) (r n : Nat) :
    let t := s.commitEdge r n
    t.getN F.qctCommitted_count r = n % 2 ^ 64 ∧ t.getN F.qctStatus_attempt r = 0 ∧ t.getN F.qctStatus_lastvote r = 1 ∧
    t.getN F.qctStatus_state r = (if s.getN F.bndCase_stage r = 3 then 2 else s.getN F.qctStatus_state r) ∧
    t.getN F.qctExec_count r = s.getN F.qctExec_count r ∧ t.holdDue r = s.holdDue r ∧ (t.region r).pauseReq = (s.region r).pauseReq ∧
    (∀ key, (t.cell key).v.com = if s.regionOf (key / 64) = some r then
      (if s.systemMode r then (s.cell key).v.pend.getD (s.cell key).v.com else (s.cell key).v.work) else (s.cell key).v.com) := by
  intro t
  have hall := commitEdge_only r n (.refl [.cells, .gatherings, .regions, .collator, .reg .colEv, .reg .qctCommitted, .reg .qctStatus, .reg .gthDchk] s) (by decide)
  have hq : t = s.commitEdge r n := rfl
  unfold State.commitEdge at hq
  dsimp only at hq
  generalize hv : (s.updRegion r fun x => { x with shown := some (s.outLevels r) }) = v at hq
  have hV : State.Only [.regions] s v := by rw [← hv]; exact updRegion_only r _ (.refl _ s) (by decide)
  generalize ha : (v.gthsOf r).foldl (fun s' g => s'.recordCheck g n (if s.systemMode r = true then (s'.gth g).checkP else (s'.gth g).checkW)) v = a at hq
  have hA : State.Only [.regions, .reg .gthDchk] s a := by
    rw [← ha]; exact (hV.mono (by decide)).step (recordChecks_only v r n _ _) (by decide)
  generalize hb : (if s.systemMode r = true then a.onVersions r Ver.rename Gth.rename else a.onVersions r Ver.commitLocal Gth.commitLocal) = b at hq
  have hbr : b.regs = a.regs := by rw [← hb]; split <;> rfl
  have hbg : b.arr.regions = a.arr.regions := by rw [← hb]; split <;> rfl
  generalize hc : ((b.putN F.qctCommitted_count r n).putN F.qctStatus_attempt r 0).putN F.qctStatus_lastvote r 1 = c at hq
  generalize hd : (c.updRegion r fun x => { x with fails := x.fails.filter (fun f => f.quire != n), caps := x.caps.filter fun c => decide (n < c.quire), recomputes := false }) = d at hq
  generalize he : (if d.stage r = 3 ∧ d.qstate r ≠ Q.run then d.putN F.qctStatus_state r Q.run else d) = e at hq
  have hT : State.Only [.gatherings, .collator, .reg .colEv] e t := by rw [hq]; exact queueEvents_only r (.refl _ e) (by decide)
  have hdr : d.regs = c.regs := by rw [← hd]; rfl
  have c1 : c.getN F.qctCommitted_count r = n % 2 ^ 64 := by
    rw [← hc]; simp (disch := decide) only [State.getN_putN_apart, State.getN_putN_self]
  have c2 : c.getN F.qctStatus_attempt r = 0 := by
    rw [← hc]; simp (disch := decide) only [State.getN_putN_apart, State.getN_putN_self]; rfl
  have c3 : c.getN F.qctStatus_lastvote r = 1 := by
    rw [← hc]; simp (disch := decide) only [State.getN_putN_apart, State.getN_putN_self]; rfl
  have c4 : c.getN F.qctStatus_state r = s.getN F.qctStatus_state r := by
    rw [← hc]; simp (disch := decide) only [State.getN_putN_apart]; rw [getN_of_regs hbr, hA.getN _ _ (by decide)]
  have c5 : c.getN F.bndCase_stage r = s.getN F.bndCase_stage r := by
    rw [← hc]; simp (disch := decide) only [State.getN_putN_apart]; rw [getN_of_regs hbr, hA.getN _ _ (by decide)]
  refine ⟨?_, ?_, ?_, ?_, ?_, ?_, ?_, ?_⟩
  · rw [hT.getN _ _ (by decide), ← c1, ← he, ← getN_of_regs hdr]; split
    · simp (disch := decide) only [State.getN_putN_apart]
    · rfl
  · rw [hT.getN _ _ (by decide), ← c2, ← he, ← getN_of_regs hdr]; split
    · simp (disch := decide) only [State.getN_putN_apart]
    · rfl
  · rw [hT.getN _ _ (by decide), ← c3, ← he, ← getN_of_regs hdr]; split
    · simp (disch := decide) only [State.getN_putN_apart]
    · rfl
  · rw [hT.getN _ _ (by decide), ← he]
    have s1 : d.stage r = s.getN F.bndCase_stage r := by unfold State.stage; rw [getN_of_regs hdr, c5]
    have s2 : d.qstate r = s.getN F.qctStatus_state r := by unfold State.qstate; rw [getN_of_regs hdr, c4]
    rw [s1, s2]
    split
    · next h => rw [if_pos h.1, State.getN_putN_self _ _ _ _ (by decide)]; rfl
    · next h =>
      rw [getN_of_regs hdr, c4]
      split
      · next h3 =>
        by_contra hne; exact h ⟨h3, hne⟩
      · rfl
  · exact hall.getN _ _ (by decide)
  · funext k; unfold State.holdDue
    rw [hall.bitF _ _ (by decide), hall.getF _ _ (by decide)]
  · rw [hT.region (by decide)]
    have e1 : e.region r = d.region r := by rw [← he]; unfold State.region; split <;> simp only [State.putN_arr]
    rw [e1, ← hd]
    unfold State.updRegion
    rw [State.region_setRegion_self]
    have e2 : c.region r = a.region r := by rw [← hc]; unfold State.region; simp only [State.putN_arr]; rw [hbg]
    have e3 : a.region r = v.region r := by rw [← ha]; exact (recordChecks_only v r n _ _).region (by decide) r
    rw [e2, e3, ← hv]
    unfold State.updRegion
    rw [State.region_setRegion_self]
  · intro key
    rw [hT.cell (by decide)]
    have e1 : e.cell key = b.cell key := by
      have h1 : e.arr.cells = d.arr.cells := by rw [← he]; split <;> simp only [State.putN_arr]
      have h2 : d.arr.cells = c.arr.cells := by rw [← hd]; rfl
      have h3 : c.arr.cells = b.arr.cells := by rw [← hc]; simp only [State.putN_arr]
      unfold State.cell; rw [h1, h2, h3]
    rw [e1, ← hb]
    have e2 : a.cell key = s.cell key := hA.cell (by decide) key
    have e3 : a.regionOf (key / 64) = s.regionOf (key / 64) := hA.regionOf (by decide) _
    split
    · rw [part_onVersions _ _ _ _ Ver.com rfl, e2, e3]; rfl
    · rw [part_onVersions _ _ _ _ Ver.com rfl, e2, e3]; rfl

/-- Pending and working of a region discarded: the versions of every cell. -/
theorem cell_discard (s : State) (r key : Nat) : ((s.onVersions r Ver.discard Gth.discard).cell key).v =
    if s.regionOf (key / 64) = some r then ⟨(s.cell key).v.com, none, (s.cell key).v.com⟩ else (s.cell key).v := by
  rw [cell_onVersions _ _ _ _ rfl]
  split <;> rfl

theorem enterQfault_facts (s : State) (r n : Nat) :
    let t := s.enterQfault r n
    t.getN F.qctStatus_state r = 6 ∧ t.bitF F.qctStatus_qfault_ev r = true ∧
    t.getN F.qctStatus_lastvote r = s.getN F.qctStatus_lastvote r ∧ t.getN F.qctStatus_attempt r = s.getN F.qctStatus_attempt r ∧
    ∀ key, (t.cell key).v =
      if s.regionOf (key / 64) = some r then ⟨(s.cell key).v.com, none, (s.cell key).v.com⟩ else (s.cell key).v := by
  intro t
  have hq : t = s.enterQfault r n := rfl
  unfold State.enterQfault at hq
  dsimp only at hq
  generalize ha : s.onVersions r Ver.discard Gth.discard = a at hq
  generalize hb : (a.putN F.qctStatus_state r Q.qfault).setF F.qctStatus_qfault_ev r = b at hq
  generalize hc : (if a.bitF F.qctHold_pend r = true then (b.clrF F.qctHold_pend r).setF F.qctStatus_cfg_rej r else b) = c at hq
  generalize hd : (c.updRegion r fun x => { x with live := false, waiting := false, frames := [], seen := [], fails := [], pauseReq := false }) = d at hq
  have hT : State.Only [.outs, .log, .collator, .reg .hubMsixPba, .reg .colEv, .reg .qctRbStat, .reg .qctBmkStat, .reg .logCtl] d t := by
    rw [hq]
    exact startOps_only r (signalOwner_only _ (logVote_only _ _ _ (.refl _ d) (by decide)) (by decide)) (by decide)
  have hdr : d.regs = c.regs := by rw [← hd]; rfl
  have har : a.regs = s.regs := by rw [← ha]; rfl
  have c1 : c.getN F.qctStatus_state r = b.getN F.qctStatus_state r ∧ c.getN F.qctStatus_lastvote r = b.getN F.qctStatus_lastvote r ∧
      c.getN F.qctStatus_attempt r = b.getN F.qctStatus_attempt r ∧ c.getF F.qctStatus_qfault_ev r = b.getF F.qctStatus_qfault_ev r := by
    rw [← hc]; split
    · simp (disch := decide) only [State.setF, State.clrF, State.getN, State.getF_putF_apart, and_self]
    · exact ⟨rfl, rfl, rfl, rfl⟩
  refine ⟨?_, ?_, ?_, ?_, ?_⟩
  · rw [hT.getN _ _ (by decide), getN_of_regs hdr, c1.1, ← hb]
    simp (disch := decide) only [State.setF, State.getN, State.putN, State.getF_putF_apart, State.getF_putF_self]; decide
  · rw [hT.bitF _ _ (by decide), State.bitF_regs hdr]
    unfold State.bitF; rw [c1.2.2.2, ← hb]
    simp (disch := decide) only [State.setF, State.getF_putF_self]; decide
  · rw [hT.getN _ _ (by decide), getN_of_regs hdr, c1.2.1, ← hb, ← getN_of_regs har]
    simp (disch := decide) only [State.setF, State.getN, State.putN, State.getF_putF_apart]
  · rw [hT.getN _ _ (by decide), getN_of_regs hdr, c1.2.2.1, ← hb, ← getN_of_regs har]
    simp (disch := decide) only [State.setF, State.getN, State.putN, State.getF_putF_apart]
  · intro key
    have h1 : d.arr.cells = c.arr.cells := by rw [← hd]; rfl
    have h2 : c.arr.cells = b.arr.cells := by rw [← hc]; split <;> simp only [State.setF_arr, State.clrF_arr]
    have h3 : b.arr.cells = a.arr.cells := by rw [← hb]; simp only [State.setF_arr, State.putN_arr]
    rw [hT.cell (by decide)]
    have h4 : d.cell key = a.cell key := by unfold State.cell; rw [h1, h2, h3]
    rw [h4, ← ha, cell_discard]

theorem enterHeld_facts (s : State) (r : Nat) :
    let t := s.enterHeld r
    t.getN F.qctStatus_state r = 5 ∧ t.bitF F.qctHold_pend r = false ∧
    t.getN F.qctStatus_lastvote r = s.getN F.qctStatus_lastvote r ∧ t.getN F.qctStatus_attempt r = s.getN F.qctStatus_attempt r ∧
    ∀ key, (t.cell key).v.com = (s.cell key).v.com := by
  intro t
  have hq : t = s.enterHeld r := rfl
  unfold State.enterHeld at hq
  dsimp only at hq
  generalize ha : s.onVersions r Ver.discard Gth.discard = a at hq
  generalize hb : (a.putN F.qctStatus_state r Q.held).clrF F.qctHold_pend r = b at hq
  have har : a.regs = s.regs := by rw [← ha]; rfl
  have hT : State.Only [.regions, .reg .qctRbStat, .reg .qctBmkStat] b t := by
    rw [hq]
    exact startOps_only r (updRegion_only r _ (.refl _ b) (by decide)) (by decide)
  refine ⟨?_, ?_, ?_, ?_, ?_⟩
  · rw [hT.getN _ _ (by decide), ← hb]
    simp (disch := decide) only [State.clrF, State.getN, State.putN, State.getF_putF_apart, State.getF_putF_self]; decide
  · rw [hT.bitF _ _ (by decide), ← hb, State.bitF_clrF_self _ _ _ (by decide)]
  · rw [hT.getN _ _ (by decide), ← hb, ← getN_of_regs har]
    simp (disch := decide) only [State.clrF, State.getN, State.putN, State.getF_putF_apart]
  · rw [hT.getN _ _ (by decide), ← hb, ← getN_of_regs har]
    simp (disch := decide) only [State.clrF, State.getN, State.putN, State.getF_putF_apart]
  · intro key
    rw [hT.cell (by decide)]
    have h4 : b.cell key = a.cell key := by unfold State.cell; rw [← hb]; simp only [State.clrF_arr, State.putN_arr]
    rw [h4, ← ha, cell_discard]; split <;> rfl

theorem recordFault_facts (s : State) (r n : Nat) (f : Fail) :
    let t := s.recordFault r n (some f)
    t.getN F.qctFault_device r = f.dev % 2 ^ 6 ∧ t.getN F.qctFault_cause r = f.cause % 2 ^ 6 ∧
    t.getN F.qctFault_gth r = f.gth % 2 ^ 12 ∧ t.getN F.qctFault_quire r = n % 2 ^ 40 := by
  unfold State.recordFault State.recordFail
  simp (disch := decide) only [State.getN_putN_apart, State.getN_putN_self, and_self]

/-- A vote for replay: what every register of it, the cells and the states become. -/
theorem replayVote_facts (s : State) (r n : Nat) (f : Fail) (bad : BitVec 2) :
    let t := s.replayVote r n (some f) bad
    let k := s.getN F.qctStatus_attempt r
    t.getN F.qctReplays_count r = min (s.getN F.qctReplays_count r + 1) (2 ^ 32 - 1) ∧
    t.getN F.qctStatus_lastvote r = 2 ∧ t.getN F.qctCommitted_count r = s.getN F.qctCommitted_count r ∧
    (∀ key, (t.cell key).v = if s.regionOf (key / 64) = some r
      then ⟨(s.cell key).v.com, none, (s.cell key).v.com⟩ else (s.cell key).v) ∧
    (k = 3 ∨ bad ≠ 3 → t.getN F.qctFault_device r = f.dev % 2 ^ 6 ∧ t.getN F.qctFault_cause r = f.cause % 2 ^ 6 ∧
      t.getN F.qctFault_gth r = f.gth % 2 ^ 12 ∧ t.getN F.qctFault_quire r = n % 2 ^ 40) ∧
    (if k = 3 ∨ bad = 3 then t.getN F.qctStatus_state r = 6 ∧ t.bitF F.qctStatus_qfault_ev r = true
    else t.getN F.qctStatus_attempt r = k + 1 ∧ t.getN F.qctExec_count r = n % 2 ^ 64 ∧
      (s.getN F.qctStatus_state r ≠ 1 ∨ s.getN F.bndCase_stage r = 3 → t.getN F.qctStatus_state r = 4)) := by
  intro t k
  have hq : t = s.replayVote r n (some f) bad := rfl
  unfold State.replayVote at hq
  dsimp only at hq
  generalize ha : s.recordFault r n (some f) = a at hq
  have hA : State.Only [.reg .qctFault] s a := by rw [← ha]; exact recordFault_only r n _ (.refl _ s) (by decide)
  have fa := recordFault_facts s r n f
  rw [ha] at fa
  generalize hb : (a.addF F.qctReplays_count r 1).putN F.qctStatus_lastvote r 2 = b at hq
  have b1 : b.getN F.qctReplays_count r = min (s.getN F.qctReplays_count r + 1) (2 ^ 32 - 1) := by
    rw [← hb, State.getN_putN_apart _ _ _ _ _ _ (by decide)]
    rw [State.getN_addF_self _ _ _ _ (by decide), hA.getN _ _ (by decide)]
  have b2 : b.getN F.qctStatus_lastvote r = 2 := by rw [← hb, State.getN_putN_self _ _ _ _ (by decide)]; decide
  have b3 : b.getN F.qctStatus_state r = s.getN F.qctStatus_state r ∧ b.getN F.qctStatus_attempt r = k ∧
      b.getN F.bndCase_stage r = s.getN F.bndCase_stage r := by
    rw [← hb]
    unfold State.addF
    simp (disch := decide) only [State.getN_putN_apart]
    exact ⟨hA.getN _ _ (by decide), hA.getN _ _ (by decide), hA.getN _ _ (by decide)⟩
  have b4 : b.arr = a.arr := by rw [← hb]; simp only [State.putN_arr, State.addF_arr]
  have bO : State.Only [.reg .qctReplays, .reg .qctStatus] a b := by
    rw [← hb]; exact only_putN (only_addF (.refl _ a) _ _ _ (by decide)) _ _ _ (by decide)
  generalize hc : b.logVote 0x4001 r n = c at hq
  have cO : State.Only [.log, .collator, .reg .colEv, .reg .logCtl] b c := by
    rw [← hc]; exact logVote_only _ _ _ (.refl _ b) (by decide)
  have sc : State.Only [.log, .collator, .reg .colEv, .reg .logCtl, .reg .qctReplays, .reg .qctStatus, .reg .qctFault] s c :=
    ((hA.mono (by decide)).step bO (by decide)).step cO (by decide)
  have cell : ∀ key, (c.cell key).v = (s.cell key).v := fun key => by rw [sc.cell (by decide)]
  have rof : ∀ g, c.regionOf g = s.regionOf g := fun g => sc.regionOf (by decide) g
  have fc : c.getN F.qctFault_device r = f.dev % 2 ^ 6 ∧ c.getN F.qctFault_cause r = f.cause % 2 ^ 6 ∧
      c.getN F.qctFault_gth r = f.gth % 2 ^ 12 ∧ c.getN F.qctFault_quire r = n % 2 ^ 40 := by
    refine ⟨?_, ?_, ?_, ?_⟩
    · rw [cO.getN _ _ (by decide), bO.getN _ _ (by decide)]; exact fa.1
    · rw [cO.getN _ _ (by decide), bO.getN _ _ (by decide)]; exact fa.2.1
    · rw [cO.getN _ _ (by decide), bO.getN _ _ (by decide)]; exact fa.2.2.1
    · rw [cO.getN _ _ (by decide), bO.getN _ _ (by decide)]; exact fa.2.2.2
  have c3 : c.getN F.qctStatus_state r = s.getN F.qctStatus_state r ∧ c.getN F.qctStatus_attempt r = k ∧
      c.getN F.bndCase_stage r = s.getN F.bndCase_stage r :=
    ⟨(cO.getN _ _ (by decide)).trans b3.1, (cO.getN _ _ (by decide)).trans b3.2.1, (cO.getN _ _ (by decide)).trans b3.2.2⟩
  rw [c3.2.1] at hq
  by_cases hk : k = 3
  · rw [if_pos hk] at hq
    have qf := enterQfault_facts c r n
    have qo := enterQfault_only r n (.refl [.outs, .log, .cells, .gatherings, .regions, .collator, .reg .hubMsixPba, .reg .colEv, .reg .qctStatus, .reg .qctHold, .reg .qctRbStat, .reg .qctBmkStat, .reg .logCtl] c) (by decide)
    dsimp only at qf
    rw [← hq] at qf qo
    refine ⟨?_, ?_, ?_, ?_, fun _ => ⟨?_, ?_, ?_, ?_⟩, ?_⟩
    · rw [qo.getN _ _ (by decide), cO.getN _ _ (by decide), b1]
    · rw [qf.2.2.1, cO.getN _ _ (by decide), b2]
    · rw [qo.getN _ _ (by decide), sc.getN _ _ (by decide)]
    · intro key; rw [qf.2.2.2.2, cell, rof]
    · rw [qo.getN _ _ (by decide)]; exact fc.1
    · rw [qo.getN _ _ (by decide)]; exact fc.2.1
    · rw [qo.getN _ _ (by decide)]; exact fc.2.2.1
    · rw [qo.getN _ _ (by decide)]; exact fc.2.2.2
    · rw [if_pos (.inl hk)]; exact ⟨qf.1, qf.2.1⟩
  · rw [if_neg hk] at hq
    generalize hd : c.onVersions r Ver.discard Gth.discard = d at hq
    have dr : d.regs = c.regs := by rw [← hd]; rfl
    have dcell : ∀ key, (d.cell key).v = if s.regionOf (key / 64) = some r
        then ⟨(s.cell key).v.com, none, (s.cell key).v.com⟩ else (s.cell key).v := fun key => by
      rw [← hd, cell_discard, cell, rof]
    generalize he : d.putN F.qctStatus_attempt r (d.getN F.qctStatus_attempt r + 1) = e at hq
    have dO : State.Only [.cells, .gatherings] c d := by rw [← hd]; exact onVersions_only r _ _ (.refl _ c) (by decide)
    have e1 : e.getN F.qctStatus_attempt r = k + 1 := by
      have : k < 2 ^ 2 := State.getN_lt s _ r
      rw [← he, State.getN_putN_self _ _ _ _ (by decide), getN_of_regs dr, c3.2.1]
      exact Nat.mod_eq_of_lt (by omega)
    have e2 : e.getN F.qctStatus_state r = s.getN F.qctStatus_state r ∧ e.getN F.bndCase_stage r = s.getN F.bndCase_stage r ∧
        e.getN F.qctStatus_lastvote r = 2 := by
      rw [← he]; simp (disch := decide) only [State.getN_putN_apart, getN_of_regs dr, c3, true_and]
      rw [cO.getN _ _ (by decide), b2]
    have eO : State.Only [.reg .qctStatus] d e := by rw [← he]; exact only_putN (.refl _ d) _ _ _ (by decide)
    generalize hf : (if e.qstate r = Q.casing ∧ e.stage r ≠ 3 then e else e.putN F.qctStatus_state r Q.replay) = g at hq
    have gO : State.Only [.reg .qctStatus] e g := by
      rw [← hf]; exact .ite_ (.refl _ e) (only_putN (.refl _ e) _ _ _ (by decide))
    have g1 : g.getN F.qctStatus_attempt r = k + 1 ∧ g.getN F.qctStatus_lastvote r = 2 ∧
        (s.getN F.qctStatus_state r ≠ 1 ∨ s.getN F.bndCase_stage r = 3 → g.getN F.qctStatus_state r = 4) := by
      rw [← hf]; split
      · next hc =>
        refine ⟨e1, e2.2.2, fun ho => ?_⟩
        unfold State.qstate State.stage at hc
        rw [e2.1, e2.2.1] at hc
        rcases ho with ho | ho
        · exact absurd hc.1 ho
        · exact absurd ho hc.2
      · simp (disch := decide) only [State.getN_putN_apart, State.getN_putN_self, e1, e2, true_and]
        intro _; rfl
    generalize hh : (g.updRegion r _) = u at hq
    have ur : u.regs = g.regs := by rw [← hh]; rfl
    have uO : State.Only [.regions] g u := by rw [← hh]; exact updRegion_only r _ (.refl _ g) (by decide)
    have su : State.Only [.log, .collator, .cells, .gatherings, .regions, .reg .colEv, .reg .logCtl, .reg .qctReplays, .reg .qctStatus, .reg .qctFault] s u :=
      ((((sc.mono (by decide)).step dO (by decide)).step eO (by decide)).step gO (by decide)).step uO (by decide)
    have cu : State.Only [.cells, .gatherings, .regions, .reg .qctStatus] c u :=
      (((dO.mono (by decide)).step eO (by decide)).step gO (by decide)).step uO (by decide)
    have ucell : ∀ key, u.cell key = d.cell key := fun key => by
      rw [uO.cell (by decide), gO.cell (by decide), eO.cell (by decide)]
    have urof : ∀ g, u.regionOf g = s.regionOf g := fun g => su.regionOf (by decide) g
    by_cases hb3 : bad = 3
    · rw [if_pos hb3] at hq
      unfold State.captureFault at hq
      dsimp only at hq
      generalize hv : u.recordFault r n (some _) = v at hq
      have vO : State.Only [.reg .qctFault] u v := by rw [← hv]; exact recordFault_only r n _ (.refl _ u) (by decide)
      have qf := enterQfault_facts v r n
      have qo := enterQfault_only r n (.refl [.outs, .log, .cells, .gatherings, .regions, .collator, .reg .hubMsixPba, .reg .colEv, .reg .qctStatus, .reg .qctHold, .reg .qctRbStat, .reg .qctBmkStat, .reg .logCtl] v) (by decide)
      dsimp only at qf
      rw [← hq] at qf qo
      refine ⟨?_, ?_, ?_, ?_, fun h => ?_, ?_⟩
      · rw [qo.getN _ _ (by decide), vO.getN _ _ (by decide), cu.getN _ _ (by decide), cO.getN _ _ (by decide), b1]
      · rw [qf.2.2.1, vO.getN _ _ (by decide), getN_of_regs ur, g1.2.1]
      · rw [qo.getN _ _ (by decide), vO.getN _ _ (by decide), su.getN _ _ (by decide)]
      · intro key
        rw [qf.2.2.2.2, vO.cell (by decide), vO.regionOf (by decide), urof, ucell, dcell]
        split <;> rfl
      · rcases h with h | h
        · exact absurd h hk
        · exact absurd hb3 h
      · rw [if_pos (.inr hb3)]; exact ⟨qf.1, qf.2.1⟩
    · rw [if_neg hb3] at hq
      have os := openQuire_status u r n false 0
      have oo := openQuire_only r n false 0 (.refl [.free, .gatherings, .regions, .collator, .reg .colEv, .reg .bndStat, .reg .bndCase, .reg .qctExec, .reg .qctStatus] u) (by decide)
      dsimp only at os
      rw [← hq] at os oo
      refine ⟨?_, ?_, ?_, ?_, fun h => ⟨?_, ?_, ?_, ?_⟩, ?_⟩
      · rw [oo.getN _ _ (by decide), cu.getN _ _ (by decide), cO.getN _ _ (by decide), b1]
      · rw [os.2.1, getN_of_regs ur, g1.2.1]
      · rw [oo.getN _ _ (by decide), su.getN _ _ (by decide)]
      · intro key; rw [oo.cell (by decide), ucell, dcell]
      · rw [oo.getN _ _ (by decide), cu.getN _ _ (by decide)]; exact fc.1
      · rw [oo.getN _ _ (by decide), cu.getN _ _ (by decide)]; exact fc.2.1
      · rw [oo.getN _ _ (by decide), cu.getN _ _ (by decide)]; exact fc.2.2.1
      · rw [oo.getN _ _ (by decide), cu.getN _ _ (by decide)]; exact fc.2.2.2
      · rw [if_neg (by rintro (h | h) <;> contradiction)]
        refine ⟨?_, os.2.2.2, fun ho => ?_⟩
        · rw [os.1, getN_of_regs ur, g1.1]
        · have := g1.2.2 ho
          rw [os.2.2.1 (by rw [getN_of_regs ur, this]; decide), getN_of_regs ur, this]

/-- The end of the leaves keeps everything of a region but its list of failures. -/
theorem settleRegion_region (s : State) (r j : Nat) :
    ∃ fs, (s.settleRegion r).region j = { s.region j with fails := fs } := by
  unfold State.settleRegion
  dsimp only
  have one : ∀ (g t : Nat) (z : State), ∃ fs, (z.settlePress r g t).region j = { z.region j with fails := fs } := by
    intro g t z
    unfold State.settlePress
    generalize List.range 2 = l
    induction l generalizing z with
    | nil => exact ⟨_, rfl⟩
    | cons a l ih =>
      rw [List.foldl_cons]
      obtain ⟨f1, h1⟩ := ih _
      rw [h1]
      dsimp only
      obtain ⟨f2, h2⟩ := chargeIf_region (z.updGth g fun x => { x with press := x.press.put a (((z.gth g).press.at a).settle t).1 }) (((z.gth g).press.at a).settle t).2 r 0x03 g j
      rw [h2]
      exact ⟨f1, rfl⟩
  have all : ∀ (l : List Nat) (t : Nat) (z : State), ∃ fs, (l.foldl (fun s g => s.settlePress r g t) z).region j = { z.region j with fails := fs } := by
    intro l t
    induction l with
    | nil => exact fun z => ⟨_, rfl⟩
    | cons a l ih =>
      intro z
      rw [List.foldl_cons]
      obtain ⟨f1, h1⟩ := ih (z.settlePress r a t)
      obtain ⟨f2, h2⟩ := one a t z
      rw [h1, h2]
      exact ⟨f1, rfl⟩
  exact all _ _ _

theorem localVote_replay {z : State} {r : Nat} {pads : BitVec 192} {bad : BitVec 2} {f : Fail}
    (h : z.firstFail r (z.exec r) = some f) : z.localVote r pads bad = z.replayVote r (z.exec r) (some f) bad := by
  unfold State.localVote
  dsimp only
  rw [h]

theorem localVote_commit {z : State} {r : Nat} {pads : BitVec 192} {bad : BitVec 2}
    (h : z.firstFail r (z.exec r) = none) : z.localVote r pads bad =
      if ((z.commitEdge r (z.exec r)).holdDue r (z.exec r) && ((z.commitEdge r (z.exec r)).qstate r == Q.run)) = true
      then (z.commitEdge r (z.exec r)).enterHeld r else (z.commitEdge r (z.exec r)).openNext r (z.exec r + 1) true pads := by
  unfold State.localVote
  dsimp only
  rw [h]

theorem bar_open {s : State} {r : RegId} {i : Nat} {f : State → State} (h : s.barOpen (r.offset i) = true) :
    s.bar r i f = f s := by
  unfold State.bar; rw [if_pos h]

end Sys2Proof.Machine
end

