-- ==== Sys2Proof/Tests/Slice0.lean ====
section
/-!
SUPPORT. Tests: a state and operands that meet the hypotheses of each statement, ill-formed terms for each check of
WellFormed, and words whose expected values come from the spec's encodings.
-/
open Sys2Proof Sys2Proof.Machine

/-! ### Small states -/

namespace Sys2Proof.Tests

-- One test after the other: many at once would need a thread each.
set_option Elab.async false

/-- A booted device that runs: every domain is on after reset, and BAR0 answers in full. -/
def up : State :=
  { State.reset.putN F.hubBoot_state 0 2 with sys := { powerLost := false, tclk := true } }

/-- Gathering 0 holds `g`, in use by region 0 in LOCAL mode with LEN 8; quire 1 is being computed. -/
def runs (g : Gth) : State :=
  (((((up.setF F.gthCfg_inuse 0).putN F.qctCfg_len 0 8).putN F.qctStatus_state 0 2).putN F.qctExec_count 0 1).setGth 0
    g).setRegion 0 { comp := 1, live := true }

/-- The region of `runs`, whose quire has had a failed check. -/
def failed : State := (runs { frame := 1 }).updRegion 0 fun x => { x with fails := [⟨1, 0, 1, 0⟩] }

/-- Region 0 in SYSTEM mode computes quire `e` with `c` quires committed; device 0 alone votes. -/
def system (e c : Nat) : State :=
  ((((runs { frame := 1 }).setF F.qctCfg_mode 0).putN F.qctExec_count 0 e).putN F.qctCommitted_count 0 c).setReg
    .fstSysmask 0 1

/-- Opcode `op` on state word 0 as A, B and C with its result to state word 1, CW, FLG and IMM. -/
def leafOf (op : Nat) (imm : Word) : BitVec 208 := BitVec.ofNat 208 (op * 2 ^ 73 + 2 ^ 64 + 2 ^ 45 + 2 ^ 44 + imm.toNat)

/-- The region of `runs`, whose cell 0 has `l` as its leaf 0. -/
def leafAt (g : Gth) (l : BitVec 208) : State := (runs g).updCell 0 fun c => { c with leaf := c.leaf.put 0 l }

def at0 (l : BitVec 208) : CellAt := ⟨0, 0, 0, 65, l⟩

/-! ### A state and operands for the hypotheses of each statement -/

theorem test_witness_StepRunsFront :
    ({ up with pending := [.idcode] } : State).pending = [.idcode] ∧
    (up.pending = [] ∧ up.sys.powerLost = false ∧ up.sys.vsb = true ∧ up.sys.tclk = true ∧
      up.bitF F.pwrAotmr_armed 0 = false) ∧
    (up.onSys fun y => { y with tclk := false }).sys.tclk = false ∧
    State.reset.sys.powerLost = true ∧ (up.onSys fun y => { y with vsb := false }).sys.vsb = false := by decide +kernel

theorem test_witness_CommandsComplete :
    Instr.idcode.wf = true ∧ (Instr.bar2Read 0 18 (2 ^ 26 - 1) 2).wf = false := by decide +kernel

theorem test_witness_CommandFrames : ∃ t, exec .rstdaa State.reset = .next t := ⟨_, rfl⟩

theorem test_witness_FormIsKept : State.reset.canonical = true ∧ ∃ t, step State.reset = .next t :=
  ⟨by decide +kernel, _, rfl⟩

theorem test_witness_IdentityNeverChanges : State.reset.canonical = true ∧ ∃ t, step State.reset = .next t :=
  ⟨by decide +kernel, _, rfl⟩

theorem test_witness_MeterStandsAlone : ∃ t, exec .rstdaa State.reset = .next t ∨ exec .jtagBypass State.reset = .next t :=
  ⟨_, .inr rfl⟩

theorem test_witness_LocalQuires :
    ((runs { frame := 1 }).executes 0 = true ∧ (runs { frame := 1 }).bitF F.qctCfg_mode 0 = false ∧
      ((runs { frame := 1 }).settleRegion 0).firstFail 0 1 = none ∧ (runs { frame := 1 }).holdDue 0 1 = false) ∧
    (let s := ((runs { frame := 1 }).setF F.qctHold_pend 0).putN F.qctHold_quire 0 1
     s.executes 0 = true ∧ (s.settleRegion 0).firstFail 0 1 = none ∧ s.holdDue 0 1 = true) ∧
    (failed.executes 0 = true ∧ failed.bitF F.qctCfg_mode 0 = false ∧
      (failed.settleRegion 0).firstFail 0 1 = some ⟨1, 0, 1, 0⟩) ∧
    let s := failed.putN F.qctStatus_attempt 0 3
    s.executes 0 = true ∧ (s.settleRegion 0).firstFail 0 1 = some ⟨1, 0, 1, 0⟩ ∧ s.getN F.qctStatus_attempt 0 = 3 := by
  decide +kernel

theorem test_witness_SystemQuireVotes :
    (let s := system 2 0
     s.executes 0 = true ∧ s.bitF F.qctCfg_mode 0 = true ∧ s.getN F.bndCase_stage 0 ≠ 1 ∧
      (s.settleRegion 0).voteReady 0 = true ∧ s.getN F.qctCommitted_count 0 + 1 ≠ s.getN F.qctExec_count 0 ∧
      ((s.settleRegion 0).fullToken 0 1).rp = 0) ∧
    (let s := (system 2 0).updRegion 0 fun x => { x with fails := [⟨1, 0, 1, 0⟩] }
     s.executes 0 = true ∧ (s.settleRegion 0).voteReady 0 = true ∧ ((s.settleRegion 0).fullToken 0 1).rp ≠ 0) ∧
    (let s := (system 2 0).setReg .fstSysmask 0 3
     s.executes 0 = true ∧ (s.settleRegion 0).voteReady 0 = false) ∧
    let s := system 1 0
    s.executes 0 = true ∧ (s.settleRegion 0).voteReady 0 = true ∧
      s.getN F.qctCommitted_count 0 + 1 = s.getN F.qctExec_count 0 := by
  decide +kernel

theorem test_witness_TokenLossRetryInject :
    (((system 2 0).updRegion 0 fun x => { x with waiting := true }).region 0).waiting = true ∧
    ((system 2 0).region 0).waiting = false ∧ up.barOpen (RegId.qctCtl.offset 0) = true ∧
    (1#64).getLsbD 0 = true ∧ (2#64).getLsbD 1 = true ∧
    ∀ st < 8, ((runs {}).putN F.qctStatus_state 0 st).getN F.qctStatus_state 0 = st := by decide +kernel

/-- A leaf that the cell can execute, with the opcode and PRED = 0, meets `CellLeaf` with the sources as they read. -/
theorem leaf_runs (s : State) (ca : CellAddr) (k : LeafNo) (op : CellOp) (x : CellAt)
    (ready : s.cellReady (cellAddrNo ca) k = some x) (opcode : (s.updCell x.key fun c => c.settle x.t).opAt x = op)
    (pred : Leaf.pred x.leaf = 0) :
    let o := (s.updCell x.key fun c => c.settle x.t).operands x op
    CellLeaf s o.2.2.2 ca k op x o.1 o.2.1 o.2.2.1 := by
  refine ⟨ready, opcode, ((s.updCell x.key fun c => c.settle x.t).operands x op).2.2.2, rfl, ?_⟩
  split
  · rfl
  · simp only [State.predicate, pred]

/-- Every cell opcode of R76 is executed by a cell of a region that runs. -/
theorem test_leaf_opcodes : ∀ n < 128, ∀ op ∈ cellOpOf n,
    let imm : Word := if op = .ext ∨ op = .exts ∨ op = .ins then 0x80 else 0
    (leafAt {} (leafOf n imm)).cellReady (cellAddrNo ⟨0, 0, 0⟩) 0 = some (at0 (leafOf n imm)) ∧
    ((leafAt {} (leafOf n imm)).updCell 0 fun c => c.settle 65).opAt (at0 (leafOf n imm)) = op ∧
    Leaf.pred (at0 (leafOf n imm)).leaf = 0 := by decide +kernel

theorem test_witness_CellFrames : ∃ t, exec (.cellAdd ⟨0, 0, 0⟩ 0) State.reset = .next t := ⟨_, rfl⟩

theorem test_witness_CellLogicResults : ∃ s1 x a b c,
    CellLeaf (leafAt {} (leafOf 0x11 0)) s1 ⟨0, 0, 0⟩ 0 .and x a b c :=
  ⟨_, _, _, _, _, leaf_runs _ ⟨0, 0, 0⟩ 0 .and (at0 (leafOf 0x11 0)) (by decide +kernel) (by decide +kernel)
    (by decide +kernel)⟩

/-- The greatest width and the greatest amount. -/
theorem test_witness_CellShiftResults : ∃ s1 x a b c,
    CellLeaf (leafAt {} (leafOf 0x1C 0x143F)) s1 ⟨0, 0, 0⟩ 0 .ext x a b c :=
  ⟨_, _, _, _, _, leaf_runs _ ⟨0, 0, 0⟩ 0 .ext (at0 (leafOf 0x1C 0x143F)) (by decide +kernel) (by decide +kernel)
    (by decide +kernel)⟩

theorem test_witness_CellArithmetic :
    (∃ s1 s2 x a b c cin p f, CellLeaf (leafAt {} (leafOf 0x08 0)) s1 ⟨0, 0, 0⟩ 0 .add x a b c ∧
      s1.carryIn x = (cin, p, f, s2)) ∧
    ∃ s1 x a b c, CellLeaf (leafAt {} (leafOf 0x0B 0)) s1 ⟨0, 0, 0⟩ 0 .ltu x a b c :=
  ⟨⟨_, _, _, _, _, _, _, _, _, leaf_runs _ ⟨0, 0, 0⟩ 0 .add (at0 (leafOf 0x08 0)) (by decide +kernel) (by decide +kernel)
    (by decide +kernel), rfl⟩,
  ⟨_, _, _, _, _, leaf_runs _ ⟨0, 0, 0⟩ 0 .ltu (at0 (leafOf 0x0B 0)) (by decide +kernel) (by decide +kernel)
    (by decide +kernel)⟩⟩

theorem test_witness_CellNopsAndWrites :
    (∃ s1 x a b c, CellLeaf (leafAt {} (leafOf 0x01 0)) s1 ⟨0, 0, 0⟩ 0 .hold x a b c) ∧
    (∃ s1 x a b c, CellLeaf (leafAt {} (leafOf 0x02 0)) s1 ⟨0, 0, 0⟩ 0 .mov x a b c) ∧
    (∃ s1 x a b c, CellLeaf (leafAt {} 0) s1 ⟨0, 0, 0⟩ 0 .nop x a b c) ∧
    ({ value := some ⟨1, 1⟩ } : CellResult).value = some ⟨1, 1⟩ :=
  ⟨⟨_, _, _, _, _, leaf_runs _ ⟨0, 0, 0⟩ 0 .hold (at0 (leafOf 0x01 0)) (by decide +kernel) (by decide +kernel)
    (by decide +kernel)⟩,
  ⟨_, _, _, _, _, leaf_runs _ ⟨0, 0, 0⟩ 0 .mov (at0 (leafOf 0x02 0)) (by decide +kernel) (by decide +kernel)
    (by decide +kernel)⟩,
  ⟨_, _, _, _, _, leaf_runs _ ⟨0, 0, 0⟩ 0 .nop (at0 0) (by decide +kernel) (by decide +kernel) (by decide +kernel)⟩, rfl⟩

/-- Gathering 0's access plan lets cell 0 use the folio block in leaf 0 on both ports; its press block 0 takes operands
from cell 0 in leaf 0, and has operands and a result word of leaf 0. -/
def served (l : BitVec 64) : Gth :=
  let p : Press :=
    { leaf := ⟨[(0, 0x4000_0000_0000#64), (1, l)]⟩
      ops := ⟨⟨⟨⟨3, 0⟩, 65⟩, ⟨⟨5, 2⟩, 65⟩, ⟨⟨7, 1⟩, 65⟩, ⟨⟨9, 0⟩, 65⟩⟩, 65, {}, 0⟩
      rw := ⟨[(0, ⟨⟨3, 0⟩, 65, {}, 0⟩)]⟩ }
  { frame := 1, access := ⟨[(0, 0x8020_0000_0000_0000#64)]⟩, press := ⟨[(0, p)]⟩ }

/-- Queue 0 of gathering 0 has two entries, as an OUT queue or an IN queue. -/
def queued (out : Bool) (s : State) : State :=
  let s := s.putN F.gthQdesc_size 0 2
  if out then s.setF F.gthQdesc_dir 0 else s

def srcs (s : State) (x : CellAt) (op : CellOp) : State :=
  ((s.updCell x.key fun c => c.settle x.t).operands x op).2.2.2

/-- The last word of the block by `fld`; `fpush` to an OUT queue with room and to a full one; `fpop` of an IN queue. -/
theorem test_witness_CellFolio :
    (let x := at0 (leafOf 0x30 0x7FF0)
     let s := leafAt (served 0) x.leaf
     (∃ a b c, CellLeaf s (srcs s x .fld) ⟨0, 0, 0⟩ 0 .fld x a b c) ∧ (srcs s x .fld).folioTarget x 0 false = some 0 ∧
       (srcs s x .fld).inQueue 0 2047 = false) ∧
    (let x := at0 (leafOf 0x32 0)
     let s := queued true (leafAt (served 0) x.leaf)
     (∃ a b c, CellLeaf s (srcs s x .fpush) ⟨0, 0, 0⟩ 0 .fpush x a b c) ∧
       (srcs s x .fpush).folioTarget x 0 false = some 0 ∧ (srcs s x .fpush).qSize 0 0 ≠ 0 ∧
       (srcs s x .fpush).qOut 0 0 = true ∧ (srcs s x .fpush).arrayCount 0 0 0 0 = 0) ∧
    (let x := at0 (leafOf 0x32 0)
     let s := queued true (leafAt { served 0 with queue := ⟨[(0, { apWork := ⟨mkPtr 2, 0, mkPtr 2, 0⟩ })]⟩ } x.leaf)
     (∃ a b c, CellLeaf s (srcs s x .fpush) ⟨0, 0, 0⟩ 0 .fpush x a b c) ∧
       (srcs s x .fpush).qSize 0 0 ≤ (srcs s x .fpush).arrayCount 0 0 2 0) ∧
    (let x := at0 (leafOf 0x33 0)
     let s := queued false (leafAt (served 0) x.leaf)
     (∃ a b c, CellLeaf s (srcs s x .fpop) ⟨0, 0, 0⟩ 0 .fpop x a b c) ∧
       (srcs s x .fpop).folioTarget x 0 false = some 0 ∧ (srcs s x .fpop).qOut 0 0 = false) := by
  refine ⟨⟨⟨_, _, _, leaf_runs _ ⟨0, 0, 0⟩ 0 .fld _ ?_ ?_ ?_⟩, ?_⟩, ⟨⟨_, _, _, leaf_runs _ ⟨0, 0, 0⟩ 0 .fpush _ ?_ ?_ ?_⟩, ?_⟩,
    ⟨⟨_, _, _, leaf_runs _ ⟨0, 0, 0⟩ 0 .fpush _ ?_ ?_ ?_⟩, ?_⟩, ⟨⟨_, _, _, leaf_runs _ ⟨0, 0, 0⟩ 0 .fpop _ ?_ ?_ ?_⟩, ?_⟩⟩ <;>
    decide +kernel

/-- Cell 0 of gathering 0 has a leaf 1. -/
def leafAt1 (l : BitVec 208) : State := (runs (served 0)).updCell 0 fun c => { c with leaf := c.leaf.put 1 l }

theorem test_witness_CellPressAndInputs :
    (let x := at0 (leafOf 0x38 0)
     let s := leafAt (served 0) x.leaf
     let l := (((srcs s x .pput).gth 0).press.at 0).leaf.at 0
     (∃ a b c, CellLeaf s (srcs s x .pput) ⟨0, 0, 0⟩ 0 .pput x a b c) ∧ l.getLsbD 46 = true ∧ l.toNat / 2 ^ 40 % 64 = 0) ∧
    (let x : CellAt := ⟨0, 0, 1, 66, leafOf 0x39 0⟩
     let s := leafAt1 x.leaf
     (∃ a b c, CellLeaf s (srcs s x .pget) ⟨0, 0, 0⟩ 1 .pget x a b c) ∧
       ((((srcs s x .pget).gth 0).press.at 0).rw.at 0).read 66 = (⟨3, 0⟩, 65)) ∧
    (let x := at0 (leafOf 0x41 0)
     let s := queued true (leafAt (served 0) x.leaf)
     (∃ a b c, CellLeaf s (srcs s x .qfull) ⟨0, 0, 0⟩ 0 .qfull x a b c) ∧ gthSide 0 0 = some 0 ∧
       (srcs s x .qfull).sameRegion 0 0 = true ∧ (srcs s x .qfull).qSize 0 0 ≠ 0) ∧
    (let x := at0 (leafOf 0x48 63)
     let s := leafAt (served 0) x.leaf
     ∃ a b c, CellLeaf s (srcs s x .hin) ⟨0, 0, 0⟩ 0 .hin x a b c) := by
  refine ⟨⟨⟨_, _, _, leaf_runs _ ⟨0, 0, 0⟩ 0 .pput _ ?_ ?_ ?_⟩, ?_⟩, ⟨⟨_, _, _, leaf_runs _ ⟨0, 0, 0⟩ 1 .pget _ ?_ ?_ ?_⟩, ?_⟩,
    ⟨⟨_, _, _, leaf_runs _ ⟨0, 0, 0⟩ 0 .qfull _ ?_ ?_ ?_⟩, ?_⟩, ⟨_, _, _, leaf_runs _ ⟨0, 0, 0⟩ 0 .hin _ ?_ ?_ ?_⟩⟩ <;>
    decide +kernel

/-- A press leaf with POP and MODE. -/
def pressLeaf (pop mode : Nat) : BitVec 64 := BitVec.ofNat 64 (pop * 2 ^ 60 + mode * 2 ^ 58)

theorem test_witness_PressLeaves : ∀ pop < 6, ∀ mode < 4,
    let l := pressLeaf pop mode
    let s := runs (served l)
    let old := (s.gth 0).press.at 0
    let o := (old.ops.read 66).1
    s.pressReady 0 0 1 = some (0, 66) ∧ old.leaf.at 1 = l ∧ effectivePop l = pop ∧ l.toNat / 2 ^ 58 % 4 = mode ∧
      ∀ w ∈ [o.x, o.y, o.xd, o.yd], w.at_ / 64 = 66 / 64 := by decide +kernel

/-! ### Fuist -/

/-- The SYSTEM region of `system 2 0`, whose gathering 0 sends state word 0 of its cell 0 and receives slot 1 of device 1;
device 0 relays slot 2 from device 1 to device 3, port 0 is up and every route goes over it. -/
def linked : State :=
  let s := (system 2 0).setGth 0 { frame := 1, xplan := ⟨[(0, BitVec.ofNat 64 (2 ^ 63)), (64, BitVec.ofNat 64 (2 ^ 63 + 2 ^ 56 + 2 ^ 32))]⟩ }
  let s := { s with arr := { s.arr with relay := ⟨[(0, BitVec.ofNat 32 (2 ^ 31 + 2 ^ 24 + 3 * 2 ^ 16 + 2))]⟩ } }
  ((s.putN F.fstPortStat_state 0 2).setF F.fstRoute_valid 0).setF F.fstRoute_valid 3

/-- Port 0 holds frame `f` at the head of what it has received. -/
def heard (f : Frame) (s : State) : State := s.updPort 0 fun x => { x with rx := (1, f) :: x.rx }

/-- The oldest frame that is still held counts here: quire `EXEC - 1` of a later attempt. -/
theorem test_witness_ExchangeWords :
    (linked.systemRegion = some 0 ∧ linked.executes 0 = true ∧ linked.getN F.bndCase_stage 0 ≠ 1 ∧ 0 ∈ linked.gthsOf 0 ∧
      XP.valid ((linked.gth 0).xplan.at 0) = true ∧ linked.bitF F.fstRoute_valid (XP.sendDst ((linked.gth 0).xplan.at 0)) = true ∧
      linked.gthsOf 0 = [0] ∧ ∀ m < 64, XP.valid ((linked.gth 0).xplan.at m) = decide (m = 0)) ∧
    (∀ n ∈ [1, 2, 3], ∀ kind ∈ [0, 2], let f := schedFrame kind 1 1 0 1 1 n [7]
      let s := heard f linked
      (s.port 0).rx.find? (fun y => FH.cls y.2 == 1 && FH.kind y.2 == kind) = some (1, f) ∧
      s.getN F.qctStatus_state 0 ∉ [0, 5, 6, 7] ∧ FH.quire f = n % 2 ^ 13 ∧ s.receives 0 f = true ∧
      s.getN F.qctStatus_attempt 0 < FH.att f) ∧
    linked.relays (schedFrame 0 2 1 3 1 0 2 [7]) = true := by decide +kernel

theorem test_witness_TokensTravel :
    (linked.systemRegion = some 0 ∧ linked.executes 0 = true ∧
      linked.getN F.qctCommitted_count 0 + 1 < linked.getN F.qctExec_count 0 ∧ linked.portUp 0 = true) ∧
    (let tok : Token := { quire := 1, ok := 1 }
     let f := tok.frame 1 0
     let s := heard f linked
     (s.port 0).rx.find? (fun y => FH.cls y.2 == 1 && FH.kind y.2 == 1) = some (1, f) ∧
       tokenOfWords (frameWords f 7) = tok ∧ ((tok.ok ||| tok.rp) &&& ~~~s.sysMask) = 0 ∧ (s.region 0).waiting = false) ∧
    ∀ c ∈ [4, 5], let f := asyncFrame 2 0 1 8 0 [BitVec.ofNat 40 c, 1, 1]
      let s := heard f linked
      (s.port 0).rx.find? (fun y => AF.isSeq y.2) = some (1, f) ∧ FH.seq f = (s.port 0).expSeq ∧ AF.isSys f = true ∧
        AF.cmd f = c ∧ (tokenOfWords ((frameWords f 8).drop 1)).quire = 1 := by decide +kernel

/-- An ASYNC data frame of SEQ `n`, to device `dst`. -/
def dataFrame (n dst : Nat) : Frame := reframe (asyncFrame 0 dst 1 3 0 [BitVec.ofNat 40 (5 + 2 ^ 12 + 2 ^ 17), 9, 4]) 32 12 n

theorem test_witness_PortTraffic :
    (∀ x ∈ [(0, 0), (0, 3), (1, 0)], let f := dataFrame x.1 x.2
      let s := heard f linked
      s.portUp 0 = true ∧ (s.port 0).rx.find? (fun y => AF.isSeq y.2) = some (1, f) ∧ AF.isData f = true ∧
        AF.first f = true ∧ FH.seq f = x.1 ∧ FH.adst f = x.2 ∧ (s.port 0).expSeq = 0 ∧ s.devIdx = 0 ∧ s.route 3 = some 0) ∧
    (let f := asyncFrame 1 0 1 8 0 [BitVec.ofNat 40 (2 ^ 39 + 7 * 2 ^ 20 + 256)]
     let s := heard f (linked.updPort 0 fun x => { x with unacked := [(0, 0), (7, 0)] })
     (s.port 0).rx.find? (fun y => AF.isLink y.2) = some (1, f) ∧
       (s.port 0).unacked.findIdx? (fun y => y.1 == FH.ackseq f) = some 0) ∧
    (∀ n ∈ [0, 15], let s := linked.updPort 0 fun x => { x with unacked := [(0, 0)], resends := n }
      (s.port 0).unacked = [(0, 0)] ∧ (s.port 0).resends = n) := by decide +kernel

theorem test_witness_SystemCommands :
    (∀ c ∈ [1, 2, 3], let f := asyncFrame 2 0 1 3 0 [BitVec.ofNat 40 (c + 2 ^ 8 + 5 * 2 ^ 24), 1, 100]
      let s := heard f linked
      (s.port 0).rx.find? (fun y => AF.isSeq y.2) = some (1, f) ∧ AF.isSys f = true ∧ AF.cmd f = c ∧
        FH.seq f = (s.port 0).expSeq ∧ (AF.origin f, AF.cseq f) ∉ s.fst.seenCmds) ∧
    ∀ st ∈ [1, 5, 6, 7],
      let s := { linked.putN F.qctStatus_state 0 st with fst := { scheduled := [⟨2, 0, 1, 1, 9⟩, ⟨3, 0, 0, 1, 8⟩] } }
      s.fst.scheduled[1]? = some ⟨3, 0, 0, 1, 8⟩ ∧ s.systemRegion = some 0 ∧ s.getN F.qctStatus_state 0 = st := by
  decide +kernel

/-- Port 0 of `linked` with a substitution of lane 7 by spare 3 under way, at its switch codewords. -/
def substituting : State :=
  linked.updPort 0 fun x =>
    { x with txCount := 4095, rxCount := 9, sub := some { requester := true, lane := 7, spare := 3, pspare := 1, swcw := 4095, peerSwcw := some 9, peerDone := true } }

theorem test_witness_LaneSubstitution :
    ((substituting.port 0).sub.isSome = true ∧ (substituting.port 0).sub.map LaneSub.swcw = some (substituting.port 0).txCount ∧
      ((substituting.port 0).sub.bind LaneSub.peerSwcw) = some (substituting.port 0).rxCount) ∧
    (linked.portUp 0 = true ∧ linked.barOpen (RegId.upkLane.offset 0) = true ∧
      (BitVec.ofNat 64 (2 ^ 63)).getLsbD 63 = true) ∧
    linked.laneCode (BitVec.ofNat 64 (2 ^ 63)) ≠ 0 := by decide +kernel

theorem test_witness_PortTraining :
    (up.barOpen (RegId.fstPortCfg.offset 7) = true ∧ up.systemBound = false ∧ (1#64).getLsbD 0 = true ∧ (1#64).toNat / 4 % 4 = 0 ∧
      up.bitF F.fstPortCfg_en 7 = false ∧ up.domOn 4 = true ∧ (up.setF F.fstPortCfg_en 7).bitF F.fstPortCfg_en 7 = true) ∧
    let s := (up.putN F.fstPortStat_state 7 1).setF F.fstSpare_homeen 3
    s.getN F.fstPortStat_state 7 = 1 ∧ s.getN F.fstPortStat_lanedown 7 = 0 ∧ s.bitF F.fstSpare_homeen 3 = true ∧
      s.bitF F.fstSpare_inuse 3 = false ∧
      s.getN F.fstPortCfg_peerdev (s.getN F.fstSpare_homeport 3) = s.getN F.fstPortCfg_peerdev 7 := by decide +kernel

theorem test_witness_AlignedStart :
    (∀ st ∈ [1, 2, 4], let s := { up.putN F.fstBound_state 0 st with fst := { pull := false } }
      s.fst.pull = false ∧ s.getN F.fstBound_state 0 = st) ∧
    let s := (up.clrF F.fstSys_root 0).putN F.fstSys_syncstate 0 1
    s.bitF F.fstSys_root 0 = false ∧ s.getN F.fstSys_syncstate 0 = 1 := by decide +kernel

/-! ### Awl cores -/

/-- Core 0 is out of reset and its level `v`, with bank `l`, runs and has `w` as its instruction. -/
def onCore (v : Nat) (l : Level) (w : Word) : State :=
  (up.clrF F.awlCtl_holdrst 0).setCore 0
    { running := some v, last := some v, imem := ⟨[(0, store44 w)]⟩, levels := ⟨[(v, { l with state := .ready })]⟩ }

/-- The bank that an instruction finds, with the press results that are due. -/
def found (s : State) (v : Nat) (o : AwlOp) (w : Word) : Level × Bool :=
  ({ s.level 0 v with own := (s.level 0 v).own + awlStall (s.level 0 v) o w } : Level).landDue

def runsAs (v : Nat) (l : Level) (w : Word) (o : AwlOp) : Bool :=
  let s := onCore v l w
  let m := (found s v o w).1
  decide ((s.core 0).running = some v ∧ s.holdrst 0 = false ∧ (s.level 0 v).state = .ready ∧
    badSlices ((s.core 0).imem.at (s.level 0 v).pc) = 0 ∧ data44 ((s.core 0).imem.at (s.level 0 v).pc) = w ∧
    decodeAwl w = some o ∧ (found s v o w).2 = false ∧ (∀ r ∈ readsG o w, (m.gRead r).ok = true) ∧
    ∀ r ∈ readsS o w m, r.ok = true)

/-- What `runsAs` decides is the premise of the statements about instructions of a core. -/
theorem awl_runs {v : Nat} {l : Level} {w : Word} {o : AwlOp} (h : runsAs v l w o = true) :
    AwlRun (onCore v l w) 0 o v w (found (onCore v l w) v o w).1 := by
  obtain ⟨h1, h2, h3, h4, h5, h6, h7, h8, h9⟩ := of_decide_eq_true h
  exact ⟨h1, h2, h3, h4, h5, h6, Prod.ext rfl h7, h8, h9⟩

/-- A word of operation code `op` and its other fields. -/
def awlWord (op rest : Nat) : Word := BitVec.ofNat 40 (op * 2 ^ 34 + rest)

/-- A bank of level 7 with ST.PRIV, a window below, and the bank of level 6 named. -/
def bank7 : Level := { st := gen 0x80, wstat := gen 0x108, bankwin := gen 0xE, hasItem := true }

/-- Each opcode of R230 and each function of R231 runs. -/
theorem test_awl_opcodes :
    (∀ fn < 22, ∀ p ∈ aluOp fn, runsAs 7 bank7 (awlWord 1 (fn * 2 ^ 12)) p.1 = true) ∧
    ∀ x ∈ [(0x00, 0, AwlOp.nop), (0x02, 0, .addi), (0x03, 0, .andi), (0x04, 0, .ori), (0x05, 0, .xori), (0x06, 40, .shli),
        (0x07, 40, .shri), (0x08, 63, .sari), (0x09, 0, .cmpi), (0x0A, 0, .movi), (0x0B, 0, .movhi), (0x10, 0, .ld), (0x11, 0, .st),
        (0x12, 0, .ldx), (0x13, 0, .stx), (0x14, 2 ^ 31, .stm), (0x15, 2 ^ 31, .ldm), (0x18, 14 * 2 ^ 30, .b), (0x19, 9, .call),
        (0x1A, 0, .ret), (0x1B, 0, .jr), (0x1C, 1023, .rep), (0x20, 0, .mul), (0x21, 2 * 2 ^ 20, .mac), (0x22, 3 * 2 ^ 20, .msu),
        (0x23, 48 * 2 ^ 11, .ext), (0x24, 0, .aclr), (0x26, 0, .macp), (0x27, 0, .msup), (0x28, 60 * 2 ^ 14, .xget),
        (0x29, 60 * 2 ^ 14, .xput), (0x2A, 0, .xwait), (0x2B, 15, .xstat), (0x30, 0, .take), (0x31, 0, .give), (0x32, 1, .done),
        (0x33, 1, .defer), (0x34, 0, .lock), (0x35, 0, .unlock), (0x36, 0, .yield), (0x38, 23, .srd), (0x39, 23, .swr),
        (0x3A, 0x48, .bget), (0x3B, 0x48, .bput), (0x3C, 0, .bexp), (0x3D, 39, .bfix), (0x3E, 1, .priv)],
      runsAs 7 bank7 (awlWord x.1 x.2.1) x.2.2 = true := by decide +kernel

/-- `bsc` by a shift to the right of the one bank, to the left of the other. -/
theorem test_witness_AwlArithmetic : ∀ x ∈ [(awlWord 1 (16 * 2 ^ 12), AwlOp.neg, ({} : Level)),
      (awlWord 1 (19 * 2 ^ 12), .bsc, { st := gen 0x4000_0000 }), (awlWord 1 (19 * 2 ^ 12), .bsc, { st := gen 0x3F00_0000 }),
      (awlWord 6 63, .shli, {})],
    runsAs 0 x.2.2 x.1 x.2.1 = true := by decide +kernel

theorem test_witness_AwlWords : ∀ x ∈ [(awlWord 1 (13 * 2 ^ 12), AwlOp.mins), (awlWord 8 63, .sari), (awlWord 9 0, .cmpi),
      (awlWord 0 0, .nop)], runsAs 0 {} x.1 x.2 = true := by decide +kernel

/-- A pointer of PCFG 0 is linear, and a word of good parity is what its data say. -/
theorem test_pointer_and_word : PointerTo 0xFFFF 0 1 0 ∧ PointerTo 0 0 0 0 ∧ (onCore 0 {} 0).DmemWord 0 0xFFFF 0 :=
  ⟨show (0 : Int) = (0xFFFF + 1) % 65536 by decide, show (0 : Int) = (0 + 0) % 65536 by decide, by decide +kernel, by decide +kernel⟩

/-- The last word of DMEM by `ld` through a pointer that stays and `st` through one that moves on; G31 by `stm` and `ldm`. -/
theorem test_witness_AwlMemory :
    (∀ x ∈ [(awlWord 0x10 0xFFFF, AwlOp.ld), (awlWord 0x11 (2 ^ 24 + 1), .st), (awlWord 0x12 0, .ldx), (awlWord 0x14 (2 ^ 31), .stm),
        (awlWord 0x15 (2 ^ 31), .ldm)],
      runsAs 0 {} x.1 x.2 = true) ∧
    badSlices (((onCore 0 {} 0).core 0).dmem.at 0xFFFF) = 0 ∧
    ((0 + AI.ofs (awlWord 0x10 0xFFFF)) % 65536 = 0xFFFF ∧ ({} : Level).wstat.ok = true ∧ (({} : Level).gRead 31).ok = true ∧
      (AI.mask (awlWord 0x14 (2 ^ 31))).getLsbD 31 = true) := by decide +kernel

/-- `call` with all windows in use, and `ret` with one in use and one spilled. -/
theorem test_witness_AwlControlFlow :
    (∀ x ∈ [(awlWord 0x18 (14 * 2 ^ 30 + 32767), AwlOp.b, ({} : Level)), (awlWord 0x1B 0, .jr, {}),
        (awlWord 0x19 9, .call, { wstat := mkWstat 3 4 0 }), (awlWord 0x1A 0, .ret, { wstat := mkWstat 0 1 1 }),
        (awlWord 0x1C 1023, .rep, {})],
      runsAs 0 x.2.2 x.1 x.2.1 = true) ∧
    (let l : Level := { wstat := mkWstat 3 4 0 }
     l.res = 4 ∧ l.spilled = 0 ∧ ∀ i < 16, (l.win.at (16 * ((l.cwp + 1) % 4) + i)).ok = true) ∧
    (let l : Level := { wstat := mkWstat 0 1 1 }
     l.res = 1 ∧ l.spilled = 1) ∧ badSlices (store44 (awlWord 0x20 0)) = 0 ∧ decodeAwl (awlWord 0x20 0) = some .mul ∧
    repeatable .mul = true := by decide +kernel

/-- A press result that is due: accumulator 3, CPX. -/
theorem test_witness_AwlPress :
    (∀ x ∈ [(awlWord 0x22 (3 * 2 ^ 32 + 3 * 2 ^ 20), AwlOp.msu), (awlWord 0x24 0, .aclr), (awlWord 0x26 (7 * 2 ^ 26), .macp),
        (awlWord 0x23 (48 * 2 ^ 11), .ext)],
      runsAs 0 {} x.1 x.2 = true) ∧
    badSlices (((onCore 0 {} 0).core 0).dmem.at 0) = 0 ∧
    (let l : Level := { flights := [⟨3, 2, true, false, 5, 7, 0, none⟩], own := 3 }
     l.flights = [⟨3, 2, true, false, 5, 7, 0, none⟩] ∧ l.own = 3) ∧ ((({} : Level).acc.at 0).ok = true) := by decide +kernel

/-- A `give` whose descriptor lies over the end of DMEM; `done` with the item it ends. -/
theorem test_witness_AwlRequests :
    (∀ x ∈ [(awlWord 0x28 (60 * 2 ^ 14), AwlOp.xget), (awlWord 0x29 (15 * 2 ^ 30 + 2 ^ 14), .xput), (awlWord 0x2A 0xFFFF, .xwait),
        (awlWord 0x2B 15, .xstat), (awlWord 0x30 0, .take), (awlWord 0x31 0, .give), (awlWord 0x34 0, .lock), (awlWord 0x36 0, .yield),
        (awlWord 0x35 0, .unlock), (awlWord 0x32 1, .done), (awlWord 0x33 0, .defer)],
      runsAs 7 bank7 x.1 x.2 = true) ∧
    (∀ j < 7, badSlices (((onCore 7 bank7 (awlWord 0x31 0)).core 0).dmem.at ((65535 + j) % 65536)) = 0) ∧ bank7.hasItem = true := by decide +kernel

/-- The last special register of R207 and the last field of R214. -/
theorem test_witness_AwlSpecialRegisters :
    (∀ x ∈ [(awlWord 0x38 23, AwlOp.srd), (awlWord 0x39 4, .swr), (awlWord 0x39 15, .swr), (awlWord 0x3A 0x48, .bget),
        (awlWord 0x3B 0x2B, .bput), (awlWord 0x3B 0x48, .bput), (awlWord 0x3C 0, .bexp), (awlWord 0x3D 63, .bfix),
        (awlWord 0x3E 1, .priv)],
      runsAs 7 bank7 x.1 x.2 = true) ∧
    bank7.st.d.getLsbD 7 = true ∧ bank7.bankwin.d.getLsbD 3 = true ∧ bank7.bankwin.d.toNat % 8 ≠ 7 ∧ (gen 0).ok = true := by decide +kernel

/-- Level 7 is READY while level 2 waits, or has a busy tag, or is frozen. -/
def levels (st : LevelState) (tags : Sparse XferTag) : State :=
  (up.clrF F.awlCtl_holdrst 63).setCore 63
    { last := some 2, levels := ⟨[(2, { state := st, tags }), (7, { state := .ready })]⟩ }

theorem test_witness_AwlHostAndLevels :
    (let s := levels .ready {}
     (s.level 63 7).state = .ready ∧ s.holdrst 63 = false ∧ (s.core 63).rep = none ∧ (s.core 63).running ≠ some 7 ∧
       s.barOpen (RegId.awlCtl.offset 63) = true ∧ s.barOpen (RegId.awlMdata.offset 63) = true ∧
       (0x00FF_0000#64).getLsbD 0 = s.holdrst 63) ∧
    ((levels (.wait (.collator 6 0)) {}).level 63 2).state = .wait (.collator 6 0) ∧
    (((levels (.wait (.tags 0x8000)) ⟨[(15, { busy := true })]⟩).level 63 2).tags.at 15).busy = true ∧
    ((levels .frozen {}).level 63 2).state = .frozen ∧ up.holdrst 63 = true ∧
    ∀ sp ∈ [0, 1], ((levels .idle {}).putN F.awlMaddr_space 63 sp).getN F.awlMaddr_space 63 = sp := by decide +kernel

theorem test_witness_AwlTaskFaults :
    (∀ x ∈ [(awlWord 0x3E 1, AwlOp.priv, ({} : Level)), (awlWord 0x39 5, .swr, {}), (awlWord 0x39 255, .swr, {}), (awlWord 0x1A 0, .ret, {}),
        (awlWord 0x19 0, .call, { wstat := mkWstat 3 4 0, sparea := gen 0x1_0000 }), (awlWord 0x32 0, .done, {}),
        (awlWord 0x3A 0, .bget, {})],
      runsAs 5 x.2.2 x.1 x.2.1 = true) ∧
    decodeAwl (awlWord 0x3F 0) = none ∧ badSlices (store44 (awlWord 0x3F 0)) = 0 ∧ badSlices (store44 0 ^^^ 1#44) ≠ 0 ∧
    ({} : Level).res = 1 ∧ ({} : Level).spilled = 0 ∧ ({} : Level).hasItem = false := by decide +kernel

/-! ### Spine rings and DRAM -/

/-- A request of `kind` and its words waits whole in station `k`, from client 0 of station 5. -/
def asked (k kind tag : Nat) (ws : List Word) (s : State) : State :=
  s.updStation k fun x => { x with ej := (mkPacket 1 0 k 5 0 false kind tag 0 0 0 ws).map fun f => ⟨0, 0, f⟩ }

/-- The request that a station serves, with the state in which it does. -/
def serves (s : State) (k kind : Nat) (p : Request → State → Bool) : Bool :=
  match s.serve k kind with
  | .act q t => p q t
  | .done _ => false

/-- Function 0 owns the first GiB of an open DRAM. -/
def ample : State := ((up.putN F.memStat_usable 0 4096).putN F.memPart_base 0 0).putN F.memPart_size 0 1

/-- The first and the last sector of a partition, and a sector beyond it. -/
theorem test_witness_RingMemoryRequests :
    (∀ w ∈ [0, 12 * 2 ^ 18 - 1], serves (asked 9 0 3 [BitVec.ofNat 40 w, 1] ample) 9 0
      (fun q t => t.dramOpen q.h (dramAddr q) q.count && (t.readWords (dramAddr q) q.count 0).1.isSome) = true) ∧
    serves (asked 19 1 3 [12 * 2 ^ 18, 1, 7] ample) 19 1 (fun q t => !t.dramOpen q.h (dramAddr q) q.count) = true ∧
    serves (asked 19 1 3 [11, 2, 7, 8] ample) 19 1 (fun q t => t.dramOpen q.h (dramAddr q) q.count) = true := by
  decide +kernel

/-- Queue 1 of gathering 0 has two entries and holds `n` words. -/
def ringQueue (out : Bool) (n : Nat) : State :=
  let s := (up.setGth 0 { frame := 1, queue := ⟨[(1, { apCom := mkPtr (if out then n else 0), rp := if out then 0 else n })]⟩ }).putN
    F.gthQdesc_size 1 2
  if out then s.setF F.gthQdesc_dir 1 else s

/-- A push to a queue with room and to a full one, a pop of one with a word and of an empty one; the last word of a block. -/
theorem test_witness_RingFolioRequests :
    (∀ n ∈ [1, 2], serves (asked 0 2 3 [1, 1, 7] (ringQueue false n)) 0 2 (fun q t => !t.gthBarred q.h 0 && !t.qOut 0 1 &&
      decide (t.qSize 0 1 = 2 ∧ q.data = [7] ∧ t.ringCount 0 1 = n ∧ t.senderItem q.h = none)) = true) ∧
    (∀ n ∈ [0, 1], serves (asked 0 3 3 [1, 1] (ringQueue true n)) 0 3 (fun q t => !t.gthBarred q.h 0 && t.qOut 0 1 &&
      decide (t.qSize 0 1 = 2 ∧ q.count = 1 ∧ t.ringCount 0 1 = n)) = true) ∧
    serves (asked 0 4 3 [2047, 1] up) 0 4 (fun q t => !t.gthBarred q.h 0 && decide (plainAddr q = (0, 2047))) = true ∧
    serves (asked 0 5 3 [2047, 1, 9] up) 0 5 (fun q t => !t.gthBarred q.h 0 && decide (q.data = [9])) = true ∧
    ((runs {}).regionOf 0).any (fun r => (runs {}).qstate r != Q.unbound) = true := by decide +kernel

/-- The core at station 0, client 0, awaits response `kind` with `ws` in state `st` of its level 2, tag 5. -/
def awaited (kind tag : Nat) (st : LevelState) (t : XferTag) (ws : List Word) : State :=
  let s := up.setCore 0 { levels := ⟨[(2, { state := st, tags := ⟨[(5, t)]⟩ })]⟩ }
  s.updStation 0 fun x => { x with
    out := [{ id := 1, client := 0, tag, dst := 9, kind := 3, flits := [] }]
    resp := ⟨[(0, mkPacket 1 0 0 9 0 true kind tag ws.length 0 0 ws)]⟩ }

def accepts (s : State) (kind : Nat) (p : Request → State → Bool) : Bool :=
  match (s.accept 0 0 kind).1 with
  | some (q, t) => p q t
  | none => false

theorem test_witness_RingCoreMessages :
    serves (asked 4 6 18 [2, 0] up) 4 6 (fun _ _ => true) = true ∧
    serves (asked 0 7 2 [2, 9] ((up.clrF F.awlCtl_holdrst 0).setAct 0 2 (some ⟨0, none, 0, 0, 0, 0, 0, none⟩))) 0 7 (fun q t =>
      decide ((t.level 0 2).state = .idle ∧ (t.act 0 2).isSome = true ∧ t.holdrst 0 = false ∧ (q.word 0).toNat % 8 = 2)) = true ∧
    (∀ kind ∈ [8, 9], accepts (awaited kind 37 .ready { busy := true, get := true, left := 1 } [4]) kind
      (fun q t => decide (FL.tag q.h = 37) && ((t.level 0 2).tag 5).busy) = true) ∧
    ∀ n ∈ [0, 1, 4, 6], accepts (awaited 0xA (32 + n) (.wait (.collator n 31)) {} [0, 1]) 0xA
      (fun q t => decide (FL.tag q.h % 16 = n ∧ (t.level 0 2).state = .wait (.collator n 31))) = true := by decide +kernel

/-- A flit for station 3 in slot 41 of ring 0: a request, a response, and one with a bad header. -/
theorem test_witness_RingFlits :
    (let f : Flit := (mkPacket 1 0 3 0 0 false 0 0 0 0 0 [0, 1]).headD default
     let s := up.setSlot 0 41 (some f)
     s.slot 0 41 = some f ∧ badHeader f.h = false ∧ FL.dst f.h = 3 ∧ FL.response f.h = false ∧ s.bypassed 3 = false ∧
       badHeader (f.h ^^^ 1) = true) ∧
    FL.response ((mkPacket 1 0 3 0 0 true 8 0 0 0 0 [0]).headD default).h = true ∧
    (let p := mkPacket 1 0 3 0 7 false 0 9 0 0 0 [0, 1]
     let s := (up.putN F.spnRg_tokens 7 1).updStation 0 fun x => { x with inj := ⟨[(7, p)]⟩ }
     s.bypassed 0 = false ∧ (s.granted 0 false).isSome = true) ∧
    up.getN F.spnRg_rate 7 ≠ 0 ∧
    ∀ n ∈ [2, 3], let o : OutReq := { id := 1, client := 7, tag := 9, dst := 3, kind := 0, flits := mkPacket 1 0 3 0 7 false 0 9 0 0 0 [0, 1], resends := n }
      let s := up.updStation 0 fun x => { x with out := [o] }
      (s.station 0).out.find? (fun o => o.client == 7 && o.tag == 9 && s.injected 0 o) = some o ∧ s.answered 0 o = false := by
  decide +kernel

theorem test_witness_RingBypassAndTrace :
    (up.barOpen (RegId.spnSta.offset 18) = true ∧ (4#64).getLsbD 2 = true ∧ up.bitF F.spnSta_byp 18 = false ∧
      quadrantStation 18 = true ∧ quadrantStation 20 = false ∧ (up.setF F.spnSta_byp 18).bitF F.spnSta_byp 18 = true) ∧
    (let s := up.putN F.spnSta_state 18 1
     s.staState 18 = 1 ∧ (s.station 18).out = [] ∧ (s.station 18).ej = [] ∧ s.flitFor 18 = false) ∧
    up.barOpen (RegId.spnTrcDhi.offset 0) = true := by decide +kernel

theorem test_witness_RingsStayOpen :
    State.reset.ringsOpen ∧ (∃ t, step State.reset = .next t) ∧ ∃ t, exec (.flitInject 0 0 ⟨0, 0⟩) State.reset = .next t :=
  ⟨by unfold State.ringsOpen; decide +kernel, ⟨_, rfl⟩, ⟨_, rfl⟩⟩

/-- The last sector of BAR2's word view and of its packed view; the last channel of a migration. -/
theorem test_witness_MemoryFrames :
    serves (asked 9 0 3 [5, 1] ample) 9 0 (fun _ _ => true) = true ∧ serves (asked 9 1 3 [5, 1, 2] ample) 9 1 (fun _ _ => true) = true ∧
    bar2Inside 0 (2 ^ 38) (2 ^ 38 - 8) 8 = true ∧ bar2Inside 16 (2 ^ 30) 0 8 = true ∧
    ({ ample with migrating := some 15 } : State).migrating = some 15 ∧
    (ample.onSys fun y => { y with attBody := some (⟨0, false, 0⟩, []) }).sys.attBody = some (⟨0, false, 0⟩, []) ∧
    (ample.onSys fun y => { y with colMove := some ⟨3, 31, 0, [], []⟩ }).sys.colMove = some ⟨3, 31, 0, [], []⟩ := by decide +kernel

/-! ### The Collator, the ledger and the host interface -/

/-- Item 1: catchword 1 of stream 5, from queue set 3. -/
def item1 : Item := { id := 1, desc := BitVec.ofNat 256 (1 + 5 * 2 ^ 120), fn := 0, srcq := some 3, pos := .queued }

/-- Stream 5 and task 0 are enabled on every core, core 63 is out of reset, and item `x` is held. -/
def collates (x : Item) : State :=
  let s := (((up.setF F.colStrCfg_en 5).setF F.colTskCfg_en 0).setReg .colTskCores 0 (BitVec.allOnes 64)).clrF F.awlCtl_holdrst 63
  { s with col := { live := true, items := [x], nextId := 2, ready := [1] } }

theorem test_witness_CollatorPlaces :
    (let z := (collates item1).settle
     (z.placeable 0).map (·.2) = some 63 ∧ z.col.live = true ∧ ∀ u < 8, 0 < u → z.placeable u = none) ∧
    (let z := ((collates item1).setF F.colStrStat_lcvalid 5).putN F.colStrStat_lastcore 5 63
     (z.settle.placeable 0).map (·.2) = some 63 ∧ z.settle.bitF F.colStrStat_lcvalid 5 = true) ∧
    (∀ u < 8, up.settle.placeable u = none) ∧
    (((collates item1).col.ready.filterMap (collates item1).item?).find? fun x =>
      x.stream == 5 && x.cw == 1 && x.waiting && !x.heldOut).isSome = true := by decide +kernel

/-- List 3 with an item, then a timer, in its calendar and one entry in its tail; timer 63 waits to insert. -/
def delayed : State :=
  { ((collates { item1 with pos := .delayed }).putN F.colDlCfg_cap 3 8).putN F.colTim_list 62 3 with
    col := { live := true, items := [{ item1 with pos := .delayed }], nextId := 2, missed := [(63, 9)]
             delays := ⟨[(3, { calendar := [⟨5, .item 1⟩, ⟨6, .timer 62⟩], tail := [⟨4096, .timer 61⟩] })]⟩ } }

theorem test_witness_DelaysAndTimers :
    (delayed.delayList 3).calendar = ⟨5, .item 1⟩ :: [⟨6, .timer 62⟩] ∧ (delayed.delayList 3).tail = [⟨4096, .timer 61⟩] ∧
    (({ delayed with col := { delays := ⟨[(3, { calendar := [⟨6, .timer 62⟩] })]⟩ } } : State).timerEntry 62).isSome = true ∧ delayed.delayFull 3 = false ∧ (up.putN F.colDlCfg_cap 3 0).delayFull 3 = true ∧
    delayed.barOpen (RegId.colTim.offset 63) = true ∧ delayed.bitF F.colTim_en 63 = false ∧ fieldOf F.colTim_en (1#64) = 1 ∧
    (delayed.col.missed.find? fun m => m.1 == 63) = some (63, 9) := by decide +kernel

theorem test_witness_YieldsLocksStreams :
    ((levels (.wait .yielded) {}).level 63 2).state = .wait .yielded ∧
    (let s := { levels (.wait (.lock 31)) {} with col := { waiters := ⟨[(255, [506])]⟩ } }
     s.waitsOn (8 * 63 + 2) = some 255 ∧ (s.level 63 2).state = .wait (.lock 31) ∧
       (s.putN F.colCtl_lock_to_us 0 5).getN F.colCtl_lock_to_us 0 ≠ 0) ∧
    (let s := ((collates { item1 with faultCore := some 0 }).putN F.colStrCfg_owner 5 6).putN F.colStrStat_state 5 2
     s.barOpen (RegId.colStrStat.offset 5) = true ∧ s.ownsStream 6 5 = true ∧ s.getN F.colStrStat_state 5 = 2 ∧
       (s.col.items.find? fun x => x.stream == 5 && !x.event && x.faultCore.isSome && x.pos == .queued).isSome = true) ∧
    (BitVec.ofNat 64 (2 ^ 54)).getLsbD 54 = true ∧ (BitVec.ofNat 64 (2 ^ 55)).getLsbD 55 = true ∧
    (let s := { (collates { item1 with pos := .flight 3 7 }).onSys fun y => { y with ledgerLost := false } with
       col := { items := [{ item1 with pos := .flight 3 7 }] } }
     s.sys.ledgerLost = false ∧ s.domOn 2 = true ∧ (s.col.items.map Item.id).Nodup ∧ (s.hq 3).rqWait = []) ∧
    up.sys.ledgerLost = true := by decide +kernel

/-- Item 1 has completed, at or above the mark; a hole run ends below it. -/
theorem test_witness_LedgerRetires :
    (∀ cw ∈ [1, 3], let x : Item := { item1 with pos := .completed, desc := BitVec.ofNat 256 (cw + 5 * 2 ^ 120) }
      let s := ((collates x).setF F.hubHqCfg_en 3).putN F.hubHqCfg_log2n 3 4
      (s.col.items.find? fun x => !x.event && x.stream == 5 && x.cw == BitVec.ofNat 40 cw) = some x ∧ s.canRetire x = true ∧
        s.hqOn 3 = true ∧ s.inAms 5 (cwNext 1) = false ∧ s.col.abandoned = []) ∧
    (collates item1).canRetire item1 = false ∧ up.col.lost = none ∧
    ({ up with col := { lost := some 15 } } : State).col.lost = some 15 ∧
    (let s := { up.setF F.colStrRsb_open 4095 with col := { holes := ⟨[(4095, [(1, 2)])]⟩ } }
     s.barOpen (RegId.colStrRsb.offset 4095) = true ∧ s.ownsStream 0 4095 = true ∧ s.bitF F.colStrRsb_open 4095 = true ∧
       s.col.holes.at 4095 = [(1, 2)] ∧ (1 : Word) = cwNext (s.ret 4095) ∧ s.inAms 4095 (cwNext (cwPlus 1 1)) = false) ∧
    (up.barOpen (RegId.colStrAcc.offset 4095) = true ∧
      (up.bitF F.colStrCfg_en 4095 || up.bitF F.colStrRsb_open 4095 || up.col.items.any fun x => !x.event && x.stream == 4095) = false) ∧
    (collates item1).bitF F.colStrCfg_en 5 = true ∧ (7 : Word) ≠ (collates item1).acc 5 := by decide +kernel

/-- Queue set 63 of function 0, with 16 slots, runs with one entry to read. -/
def hostQueue : State :=
  ((((ample.setF F.colEv_en 63).setF F.hubHqCfg_en 63).setF F.hubHqCfg_xen 63).putN F.hubHqCfg_log2n 63 4).putN F.hubDbSqt_index 63 1

theorem test_witness_QueueSets :
    (let s := { hostQueue.setF F.colStrCfg_en 5 with col := { live := true } }
     let d : BitVec 256 := BitVec.ofNat 256 (5 * 2 ^ 120)
     s.sqWaits 63 = true ∧ s.refusal 63 (some (s.hqFn 63)) d = 0 ∧ D.catchword d = 0 ∧
       s.refusal 63 (some (s.hqFn 63)) (BitVec.ofNat 256 (6 * 2 ^ 120)) ≠ 0) ∧
    (let s := { (hostQueue.setF F.colStrCfg_en 5).putF F.colStrRet_ret 5 4 with col := { live := true } }
     let d : BitVec 256 := BitVec.ofNat 256 (4 + 5 * 2 ^ 120)
     s.refusal 63 (some (s.hqFn 63)) d = 0 ∧ s.hasRetired 5 4 = true ∧ (s.hq 63).rqWait = [] ∧ (s.hq 63).rqOut < s.hqN 63) ∧
    (∀ f ∈ [F.hubDbSqt_index, F.hubDbAqh_index, F.hubDbRqh_index, F.hubDbXqh_index],
      hostQueue.barOpen (f.reg.offset 63) = true ∧ hostQueue.ownsHq 0 63 = true ∧ hostQueue.bitF F.hubHqCfg_en 63 = true ∧
        hostQueue.hqN 63 ≤ fieldOf f 16 ∧ ¬ hostQueue.hqN 63 ≤ fieldOf f 15) ∧
    (hostQueue.barOpen (RegId.hubHqCfg.offset 63) = true ∧ hostQueue.hqRefused 0 63 (hostQueue.reg .hubHqCfg 63 - 32) = false ∧
      fieldOf F.hubHqCfg_en (hostQueue.reg .hubHqCfg 63 - 32) = 0 ∧
      hostQueue.hqRefused 1 63 (BitVec.allOnes 64) = true) := by decide +kernel

/-- A staging ring at word 0 with a slot of the most words, and one of too many. -/
theorem test_witness_ResultsAndIntervals :
    (∀ n ∈ [14, 15], let s := (hostQueue.writeWords 0 [BitVec.ofNat 40 (5 + n * 2 ^ 12 + 2 ^ 39), 1] 0).2
      s.hqOn 63 = true ∧ s.bitF F.hubHqCfg_xen 63 = true ∧ s.stagingBase 63 = 0 ∧
        s.inPartition (s.hqFn 63) (s.stagingBase 63) (16 * s.hqN 63) = true ∧
        ((s.readWords 0 16 0).1.map fun ws => ((ws.getD 0 0).extractLsb' 12 5).toNat) = some n ∧
        cwAtOrBeyond 1 (s.ret 5) = false ∧ (s.hq 63).xqOut < s.hqN 63) ∧
    (let s := hostQueue.putN F.memPart_size 0 0
     s.inPartition (s.hqFn 63) (s.stagingBase 63) (16 * s.hqN 63) = false) ∧
    ((hostQueue.updHq 63 fun q => { q with itrWait := [255] }).hq 63).itrWait = [255] := by decide +kernel

/-- A byte on each side of the middle of a BAR2, where the sector is open and where it is not. -/
theorem test_witness_HostWindows :
    (∀ off ∈ [0, 2 ^ 29, 2 ^ 30 - 1], bar2Inside 0 (2 ^ 30) off 1 = true ∧ ample.hostOn = true ∧
      (ample.bar2Sectors 0 (2 ^ 30) off 1).length = 1) ∧
    (ample.bar2Sectors 0 (2 ^ 30) 0 1 = [0] ∧ ample.bar2Open 0 0 = true ∧ up.bar2Open 1 0 = false ∧
      ((ample.setBar2 0 (2 ^ 30)).readSector 0 0).1.isSome = true) ∧
    (badShape 7 8 = true ∧ badShape 0 4 = true ∧ ((0 : BitVec 26).toNat % 8 = 0 ∧ up.barOpen 0 = true) ∧
      regAt 0 0 = some (.hubId, 0) ∧ up.readable 0 .hubId 0 = true ∧ up.readable 3 .colCtl 0 = false) ∧
    State.reset.barOpen (RegId.awlCtl.offset 63) = false := by decide +kernel

theorem test_witness_RegisterWrites :
    (0 % 8 = 0 ∧ up.barOpen (RegId.colAffHold.offset 0) = true ∧ State.reset.barOpen (RegId.colAffHold.offset 0) = false) ∧
    (inMeterWindow 0xB0_0000 = true ∧ up.barOpen 0xB0_0000 = true ∧ regAt 0 (RegId.colAffHold.offset 0) = some (.colAffHold, 0) ∧
      up.opens 0 .colAffHold 0 = true ∧ up.opens 1 .colAffHold 0 = false ∧ up.rangeRefused 0 .colAffHold 0 0 = false) := by decide +kernel

/-! ### DRAM, the loader, holds and bookmarks -/

/-- The byte 0 of sector `n` has failed. -/
def decayed (ns : List Nat) (s : State) : State := { s with dram := ⟨ns.map fun n => (64 * n, 1)⟩ }

/-- The last usable sector, a mirrored one that fails in one copy, and in both. -/
theorem test_witness_MemoryMaintenance :
    (let s := ample.putN F.memScrub_pos 0 (2 ^ 30 - 1)
     s.bitF F.memScrub_en 0 = true ∧ s.usableSectors = 2 ^ 30 ∧ s.triesPass (2 ^ 30 - 1) 2 = true ∧
       (decayed [2 ^ 30 - 1] s).triesPass (2 ^ 30 - 1) 0 = false ∧ otherCopy (2 ^ 30 - 1) = none ∧
       (s.clrF F.memScrub_en 0).bitF F.memScrub_en 0 = false) ∧
    (∀ n ∈ [collS0, collS0 + 2 ^ 26 - 1, collS0 + 2 ^ 26 + 8, collS0 + 2 ^ 27 + 7], (otherCopy n).isSome = true ∧
      ((otherCopy n).getD 0 |> otherCopy) = some n) ∧
    (let n := collS0 + 2 ^ 26 - 1
     let o := n + 2 ^ 26 + 8
     (decayed [n] ample).triesPass n 0 = false ∧ (decayed [n] ample).triesPass o 0 = true ∧
       (decayed [n, o] ample).triesPass n 0 = false ∧ (decayed [n, o] ample).triesPass o 0 = false) ∧
    (ample.retrainChannel = some 0 ∧ ({ ample with retrainNext := 15 } : State).retrainChannel = some 15 ∧
      ample.bitF F.memRetrain_en 0 = true) ∧
    (ample.barOpen (RegId.memSecclr.offset 0) = true ∧ (BitVec.ofNat 64 (2 ^ 62)).getLsbD 63 = false ∧
      inCollator 0 = false ∧ inCollator collS0 = true) ∧
    (ample.barOpen (RegId.memRetire.offset 0) = true ∧ fieldOf F.memRetire_ch (47#64) = 15 ∧ (47#64).getLsbD 5 = true ∧
      ample.bitF F.memStat_retired_v 0 = false ∧ ample.bitF F.memStat_mig 0 = false ∧
      ((List.range 17).any fun p => decide (0 < ample.getN F.memPart_size p ∧
        3840 < ample.getN F.memPart_base p + ample.getN F.memPart_size p)) = false ∧
      ((ample.putN F.memPart_base 16 3840).putN F.memPart_size 16 1).getN F.memPart_base 16 +
        ((ample.putN F.memPart_base 16 3840).putN F.memPart_size 16 1).getN F.memPart_size 16 = 3841) ∧
    (let s : State := { ample with migrating := some 15 }
     s.migLine < uPrime ∧ sectorGood (s.sectorBytes 15) 15 = true ∧ (s.migLine + 65536) % 65536 = 0 ∧
       ({ s with migLine := uPrime } : State).migrating = some 15) ∧
    (let l := collS0 / 16
     let n := 16 * l + 15
     let s : State := { decayed [n] ample with migrating := some 15, migLine := l }
     l < uPrime ∧ sectorGood (s.sectorBytes n) n = false ∧
       ((otherCopy n).any fun o => sectorGood (s.sectorBytes o) o) = true) ∧
    (ample.barOpen (RegId.memPart.offset 16) = true ∧ ample.partRefused 16 0x10001 = false ∧
      ample.partRefused 16 0x10000 = true ∧ ample.idleWrite .memPart 16 0x10000 = false) := by
  decide +kernel

/-- Context `x` holds state `st`. -/
def ctx (x st : Nat) (s : State) : State := s.putN F.bndStat_state x st

/-- Context 15 is LOADED, for region 15 of one quire of 100 ticks and the gap it asks for. -/
def loaded : State := ctx 15 4 ((up.putN F.qctCfg_len 15 100).putN F.bndCase_gap 15 36)

/-- A load of context 15 from the host, and one of flash slot 1. -/
def job : LoadJob := ⟨15, 0, 0, 0, 10000, true, false, false, 0⟩

theorem test_witness_LoadCommands :
    (∀ c ∈ [0, 15, 16, 17], up.barOpen (RegId.bndCmd.offset c) = true ∧ ownsCtx 0 c = true ∧
      up.cmdRefused 0 c 1 = true ∧ up.idleWrite .bndCmd c 1 = false) ∧
    ((let v := BitVec.ofNat 64 (2 ^ 32 + 1)
      up.cmdRefused 0 16 v = false ∧ Cmd.go v = true ∧ up.cmdRefused 0 17 v = false ∧ Cmd.slot v = 0 ∧ Cmd.srcsel v = 0 ∧
        fieldOf F.bndCmd_len v = 1 ∧ (up.sys.current.isNone && up.sys.jobs.isEmpty) = true ∧
        ((up.onSys fun y => { y with jobs := [job] }).sys.jobs.isEmpty) = false ∧
        (up.onSys fun y => { y with jobs := [job] }).cmdRefused 0 17 v = false) ∧
     (∀ s ∈ [(ctx 15 3 up).onSys fun y => { y with current := some job }, (ctx 15 1 up).onSys fun y => { y with jobs := [job] }],
       s.cmdRefused 0 15 4 = false ∧ Cmd.abort 4 = true ∧
         (s.sys.current.map (·.ctx) = some 15 ∨ (s.sys.jobs.any fun k => k.ctx == 15) = true)) ∧
     (let s := (ctx 17 3 up).onSys fun y => { y with flashJob := some ⟨1, [], 0⟩ }
      s.cmdRefused 0 17 4 = false ∧ s.sys.flashJob.isSome = true)) ∧
    (loaded.barOpen (RegId.bndCmd.offset 15) = true ∧ ownsCtx 16 15 = true ∧ loaded.cmdRefused 16 15 8 = false ∧
      Cmd.casein 8 = true ∧ loaded.cmdRefused 0 15 0x200 = false ∧ Cmd.free 0x200 = true) := by decide +kernel

/-- The header of an AWL image with one record and a signature of one byte, which no anchor accepts. -/
def header : List Byte :=
  Img.magic ++ leBytes 1 2 ++ leBytes 0x2410 2 ++ [1, 2, 0, 255] ++ leBytes 0 4 ++ leBytes 1 4 ++ leBytes 1 4 ++ leBytes 0 4

/-- `bs` has been fetched. -/
def fetched (bs : List Byte) : Fetched → Bool
  | .ok b _ => b == bs
  | _ => false

def waitsFor : Fetched → Bool
  | .wait => true
  | _ => false

/-- The load of `header` in context 16, in the state `s`. -/
def loadJob : LoadJob := ⟨16, 0, 0, 0, 10000, false, false, false, 0⟩

/-- A record of FA 0x20 with no data, then another, in a load of context 16 that has written one. -/
def serving : Serving :=
  { job := loadJob, kind := 2, anchor := 0, descs := [], hash := [], offset := 73, wrote := true,
    manifest := [⟨0x20, 0, sha256 []⟩, ⟨0x120, 0, sha256 []⟩] }

def record : List Byte := leBytes 0x20 4 ++ leBytes (crc32c (leBytes 0x20 4)).toNat 4

/-- No accepted signature is shown: only the holder of a key can make one. -/
theorem test_witness_LoadService :
    (let s := up.onSys fun y => { y with jobs := [⟨17, 0, 0, 0, 1, false, false, false, 1⟩] }
     s.sys.current = none ∧ s.sys.flashJob = none ∧ 1 ≤ imageRoom) ∧
    (let s := up.onSys fun y => { y with jobs := [loadJob] }
     let s0 (bs : List Byte) := s.nextJob.arrive loadJob bs
     s.sys.current = none ∧ (s0 []).contextCode 16 = 0 ∧ waitsFor ((s0 []).fetch loadJob 0 32) = true ∧
       (let z := s0 (header ++ List.replicate 41 0)
        fetched header (z.fetch loadJob 0 32) = true ∧ z.headerCode 16 0 0 header = 0 ∧
          fetched (header ++ List.replicate 41 0) (z.fetch loadJob 0 (Img.framesAt header)) = true ∧
          z.checkCode 16 (header ++ List.replicate 41 0) = 6)) ∧
    (let s := up.onSys fun y => { y with current := some loadJob, serving := some serving, inBuf := record }
     (serving.manifest[serving.taken]?).map (·.len) = some 0 ∧ fetched record (s.fetch loadJob 73 8) = true ∧
       s.recordCode serving ⟨0x20, 0, sha256 []⟩ record = 0 ∧ loadJob.repair = false ∧
       serving.taken + 1 < serving.manifest.length ∧ s.recordCode serving ⟨0x120, 0, sha256 []⟩ record = 0x10 ∧
       s.recordCode serving ⟨0x20, 0, []⟩ record = 0x12) ∧
    (let s := up.onSys fun y => { y with flashJob := some ⟨1, header, 0⟩ }
     s.flashImageCode (s.flashBytes (slotAt 1) header.length) ≠ 0) := by decide +kernel

/-- The region of `runs`, of gathering 0, is in state `st` with two quires committed; function 1 owns four granules. -/
def holdAt (st : Nat) : State :=
  (((((runs { frame := 1 }).putN F.qctStatus_state 0 st).putN F.qctCommitted_count 0 2).putN F.memPart_size 1 4).putN
    F.memStat_usable 0 4096).updRegion 0 fun x => { x with desc := 0x100 }

/-- A write of QCT_RB_SEL with GO for the state part of gathering 0. -/
def select : BitVec 64 := BitVec.ofNat 64 (2 ^ 63 + 2 ^ 56 + 2 ^ 48)

/-- An operation on region 0. -/
def busy (o : RegionOp) (s : State) : State := s.onSys fun y => { y with ops := ⟨[(0, some o)]⟩ }

theorem test_witness_HoldsAndReadback :
    (ownsRegion 1 0 = true ∧ up.barOpen (RegId.qctHold.offset 15) = true ∧ (holdAt 2).holdRefused 0 = false ∧
      (holdAt 5).holdRefused 0 = true ∧ (holdAt 2).releaseRefused 0 = true ∧ (holdAt 5).releaseRefused 0 = false ∧
      (holdAt 5).systemMode 0 = false ∧
      (let s := (holdAt 5).setF F.qctCfg_mode 0
       s.releaseRefused 0 = false ∧ s.systemMode 0 = true)) ∧
    (up.barOpen (RegId.qctRbSel.offset 15) = true ∧ (holdAt 2).readbackCode 0 select = 1 ∧
      (holdAt 5).readbackCode 0 select = 0 ∧ (holdAt 5).atRest 0 = true ∧
      (holdAt 2).readbackCode 0 (select ||| BitVec.ofNat 64 (2 ^ 62)) = 0 ∧ (holdAt 2).atRest 0 = false) ∧
    (let s := (busy { kind := .readback } (holdAt 5)).putN F.qctRbStat_state 0 2 |>.setReg .qctRbSel 0 select
     (s.op 0).isSome = true ∧ s.getN F.qctRbStat_state 0 = 2 ∧ s.selected 0 (s.reg .qctRbSel 0) = [0] ∧
       (List.range 3).filter (Sel.part (s.reg .qctRbSel 0)) = [0]) := by decide +kernel

/-- Slot 63 of region 0 holds a bookmark of quire 2 whose parts lie at sector 0. -/
def marked (es : List (Option Nat)) (s : State) : State :=
  (s.putF F.qctBmkValid_valid 0 (BitVec.ofNat 64 (2 ^ 63))).onSys fun y =>
    { y with indexes := ⟨[(63, some { quire := 2, incr := false, parent := none, ngth := 1, dst := 0, sectors := 259,
                                       hash := List.replicate 4 0, entries := es })]⟩ }

theorem test_witness_Bookmarks :
    (up.barOpen (RegId.qctBmkCtl.offset 15) = true ∧ (holdAt 2).takeCode 0 0 = 1 ∧ (holdAt 5).takeCode 0 0 = 0 ∧
      (holdAt 5).atRest 0 = true ∧ (holdAt 2).takeCode 0 (BitVec.ofNat 64 (2 ^ 61)) = 0 ∧
      (holdAt 5).restoreCode 0 63 = 7 ∧ (marked [none, none] (holdAt 5)).restoreCode 0 63 = 0) ∧
    (let s := (busy { kind := .capture, slot := 63 } (marked [none, none] (holdAt 5))).putN F.qctBmkStat_state 0 2
     s.op 0 = some { kind := .capture, slot := 63 } ∧ s.getN F.qctBmkStat_state 0 = 2 ∧
       (s.chainOf 0 63).contains 63 = true) ∧
    (let s := busy { kind := .capture, slot := 63, started := true } (holdAt 5)
     s.op 0 = some { kind := .capture, slot := 63, started := true } ∧
       (s.captureParts 0 0 (s.captureJobs 0 false)).2.2.1 = false) ∧
    (let s := (busy { kind := .capture, slot := 63, started := true } (holdAt 5)).setGth 0 { frame := 1, sdirty := true }
     let s := s.updCell 0 fun c => { c with v := Ver.same { s := ⟨[(0, { d := 1 })]⟩ } }
     (s.captureParts 0 0 (s.captureJobs 0 false)).2.2.1 = true) ∧
    (let s := busy { kind := .restore, slot := 63, started := true } (holdAt 5)
     (s.restoreParts 0 63).1 = false ∧ ((s.clrF F.gthCfg_inuse 0).restoreParts 0 63).1 = true) := by decide +kernel

/-! ### The meter and trust -/

def withMeter (f : Meter → Meter) (s : State) : State := s.onSys fun y => { y with meter := f y.meter }

/-- The meter has run for two minutes, and its last record was taken then. -/
def metered : State := withMeter (fun m => { m with cnt := { mt := 120000000 }, lastMt := some 119000000 }) up

/-- A sealed command that the meter accepts is not shown: only the holder of its authority's key can make one. -/
theorem test_witness_MeterCounting :
    (metered.meter.powered = true ∧ metered.meter.left ≠ 0 ∧ metered.meter.cnt.mt ≠ 0 ∧ metered.sys.vsb = true ∧
      metered.meter.cnt.mt.toNat % (metered.meter.intervalS.toNat * 1000000) = 0 ∧ metered.meter.intervalAt = none ∧
      (119000000#64).toNat + 1000000 ≤ metered.meter.cnt.mt.toNat) ∧
    ((withMeter (fun m => { m with lastMt := some 119000001 }) metered).meter.cnt.mt.toNat < (119000001#64).toNat + 1000000) ∧
    (let s := withMeter (fun m => { m with snaps := [⟨1, []⟩], sealQueue := [⟨1, 1, []⟩] }) metered
     s.meter.snaps = [⟨1, []⟩] ∧ s.meter.left ≠ 0 ∧ s.meter.sealQueue.length ≤ s.meter.left) ∧
    (withMeter (fun m => { m with leafIndex := signatures }) metered).meter.left = 0 ∧
    (let s := withMeter (fun m => { m with powered := false }) metered
     s.meter.powered = false ∧ s.meter.newestGood 2 = some {} ∧ s.meter.newestGood 0 = none) := by decide +kernel

theorem test_witness_MeterLinks :
    up.domOn 2 = true ∧
    ((up.onSys fun y => { y with bindMsg := some ⟨0, []⟩ }).sys.bindMsg = some ⟨0, []⟩ ∧ up.meter.powered = true) ∧
    ((up.onSys fun y => { y with vsb := false }).meterAnswers = false ∧
      (withMeter (fun m => { m with powered := false }) up).meterAnswers = false) ∧
    (up.meterAnswers = true ∧ up.meter.accepts [] = false ∧
      (withMeter (fun m => { m with leafIndex := signatures }) up).meterRun = false) := by decide +kernel

/-- Slots 0 and 1 of OTP are filled. -/
def otp : State := ((up.setF F.truAnchorStat_filled 0).setF F.truAnchorStat_filled 1).setReg .truOtpdata 0 1

theorem test_witness_TrustCommands :
    (otp.barOpen (RegId.truOtpcmd.offset 0) = true ∧ otp.otpRefused 3 = true ∧ otp.otpRefused 13 = false ∧
      fieldOf F.truOtpcmd_slot (13#64) = 3 ∧ otp.otpRefused 2 = false) ∧
    ((otp.onSys fun y => { y with otpBusy := [3] }).sys.otpBusy = [3] ∧ otp.otpData ≠ 0) ∧
    (ample.barOpen (RegId.truAttCmd.offset 16) = true ∧ ownsAtt 16 16 = true ∧ ample.attCode 16 0 = 2 ∧ ample.attCode 0 0 = 0) ∧
    (∀ n ∈ [0, 2 ^ 30 - 1], let s := (ample.putN F.truIdstat_used 0 n).onSys fun y => { y with attWait := [⟨16, true, 0⟩] }
      s.sys.attBody = none ∧ s.sys.attWait = [⟨16, true, 0⟩] ∧ s.bitF F.truIdstat_keyfail 0 = false ∧
        s.getN F.truIdstat_used 0 = n) ∧
    (2 ^ 30 < 2 ^ 30 - 1 + 1 + 2 ^ 20 ∧
      (ample.onSys fun y => { y with attBody := some (⟨16, true, 0⟩, []) }).sys.attBody = some (⟨16, true, 0⟩, [])) := by
  decide +kernel

/-! ### Power, clocks, wake and boot -/

/-- Domain `d` is in state `st`, and nothing asks for it. -/
def domAt (d st : Nat) (s : State) : State := (s.putN F.pwrDom_vote d 0).putN F.pwrDom_state d st

/-- No domain but AO and MTR has a vote or power. -/
def asleep : State := (List.range 8).foldl (fun s i => domAt (i + 2) Dom.off s) up

theorem test_witness_PowerDomains :
    (∀ d ∈ [2, 9], up.barOpen (RegId.pwrDom.offset d) = true) ∧
    (up.portsUp.any fun p => (up.port p).peerPwr) = false ∧
    (let s := (domAt 9 Dom.off up).putN F.pwrDom_vote 9 1
     s.domState 9 = Dom.off ∧ s.wanted 3 9 = true ∧ needs 9 = some 2 ∧ s.domOn 2 = true ∧ s.powerBarred = false ∧
       needs 3 = none) ∧
    (∀ d ∈ [2, 6, 9], let s := domAt d Dom.rampUp up
      s.domState d = Dom.rampUp ∧ s.sys.wake = none ∧ s.sys.retriedDom.contains d = false ∧
        (s.onSys fun y => { y with retriedDom := [d] }).sys.retriedDom.contains d = true) ∧
    (let s := domAt 6 Dom.on ((runs {}).updRegion 0 fun x => { x with desc := 0x100 })
     s.domOn 6 = true ∧ s.wanted 3 6 = false ∧ s.holdFirst 6 = [0] ∧ (domAt 9 Dom.on up).holdFirst 9 = [] ∧
       (domAt 9 Dom.on up).wanted 3 9 = false ∧ (domAt 9 Dom.on up).domOn 9 = true) ∧
    ((domAt 9 Dom.rampDn up).domState 9 = Dom.rampDn ∧ (domAt 9 Dom.rampDn up).wanted 3 9 = false) := by decide +kernel

/-- Both loops are locked and the pause for a change to point 4, which moves the array loop, is over. -/
def clocked : State := ((up.setF F.clkStat_alock 0).setF F.clkStat_rlock 0).setF F.clkStat_hold 0

/-- A change to `op` is pending. -/
def changing (op : Nat) : State := (clocked.putN F.clkAclk_op 0 op).setF F.clkAclk_pend 0

theorem test_witness_OperatingPointsAndHeat :
    (up.barOpen (RegId.clkAclk.offset 0) = true ∧ ∀ op < 8, up.idleWrite .clkAclk 0 (BitVec.ofNat 64 op) = (op == 1) ∧
      (op = 2 → clocked.opCode op = 0) ∧ (op = 5 → clocked.opCode op ≠ 0)) ∧
    ((changing 2).bitF F.clkAclk_pend 0 = true ∧ (changing 2).loopMoves = false ∧
      (changing 4).loopMoves = true ∧
      (let s := ({ runs {} with regs := ((changing 2).putN F.qctStatus_state 0 2).regs } : State).updRegion 0 fun x =>
         { x with paused := true }
       s.inRun 0 = true ∧ ∀ r < 16, s.inRun r = true → (s.region r).paused = true)) ∧
    (up.barOpen (RegId.pwrVarr.offset 0) = true ∧ (∀ v ∈ [19, 20, 50, 51],
      (up.idleWrite .pwrVarr 0 (BitVec.ofNat 64 v) = true ↔ v = 20)) ∧
      (∀ v ∈ [19, 51], up.vsetRefused v = true) ∧ (∀ v ∈ [20, 50], up.vsetRefused v = false) ∧ up.vsetBelow 19 = true) ∧
    (up.domOn 2 = true ∧ up.dormant = false ∧ up.sys.tripped = false ∧ 110 ≤ tempOf 110 ∧ up.sys.vsb = true) ∧
    (∀ array : Bool, clocked.bitF (lockField array) 0 = true ∧ clocked.bitF F.clkStat_hold 0 = true) ∧
    (let s := up.putN F.padHold_held 0 0x80
     up.barOpen (RegId.padHold.offset 0) = true ∧ s.banksOf 0 &&& 0x80 ≠ 0 ∧ s.bankHeld 7 = true ∧ s.domOn 9 = true) ∧
    (up.putN F.padBank_vsel 7 1).getN F.padBank_vsel 7 ≠ 0 := by decide +kernel

theorem test_witness_WakeAndTime :
    (asleep.alive = true ∧ asleep.sys.tripped = false ∧ asleep.goingDown = true ∧ asleep.bitF F.pwrWakecfg_en_i3c 0 = true ∧
      asleep.bitF F.pwrWakecfg_en_waken 0 = true ∧ asleep.bitF F.pwrWakecfg_en_tmr 0 = true ∧
      (asleep.setF F.pwrAotmr_armed 0).bitF F.pwrAotmr_armed 0 = true ∧
      (asleep.onSys fun y => { y with tripped := true }).cool = true) ∧
    (let s := asleep.onSys fun y => { y with wakeWait := some 3 }
     s.sys.wakeWait = some 3 ∧ s.dormant = true ∧ s.sys.wake = none ∧ s.alive = true ∧ s.sys.bootAfter = false ∧
       (s.putN F.pwrDom_vote 9 1).ownReason 9 = true) ∧
    (∀ k ∈ [2, 11, 19], (asleep.onSys fun y => { y with wake := some { step := k } }).sys.wake = some { step := k } ∧
      wakeHasAlt k = true) ∧
    (∀ k ∈ [9, 10, 19], (asleep.onSys fun y => { y with wake := some { step := k, retried := true } }).sys.wake =
      some { step := k, retried := true }) ∧
    (up.barOpen (RegId.pwrWakecfg.offset 0) = true ∧ clocked.bitF F.clkStat_rlock 0 = true ∧ clocked.sys.tclk = true ∧
      (clocked.onSys fun y => { y with tclk := false }).sys.tclk = false ∧ up.barOpen (RegId.timAdj.offset 0) = true) := by
  decide +kernel

theorem test_witness_ResetsAndBoots :
    up.canonical = true ∧ up.sys.vsb = true ∧ up.sys.resetLow = false ∧ up.sys.vin = true ∧ State.reset.sys.powerLost = true ∧
    ((up.onSys fun y => { y with resetLow := true }).sys.resetLow = true ∧
      (up.onSys fun y => { y with vin := false }).getN F.hubBoot_state 0 ≠ 3) ∧
    up.barOpen (RegId.hubReset.offset 0) = true ∧ up.alive = true ∧ up.domOn 5 = true ∧ up.sys.boot = none := by decide +kernel

/-- A boot has come to step `k`, which hangs. -/
def booting (k attempt : Nat) : State := up.onSys fun y => { y with boot := some { kind := 1, step := k, attempt } }

def linkAt (k : Nat) : State := up.onSys fun y => { y with link := k }

theorem test_witness_BootStepsAndFlr :
    (∀ k ∈ [0, 1, 2, 4], (linkAt k).sys.link = k ∧ (linkAt k).sys.boot = none ∧ (linkAt k).alive = true) ∧
    ((booting 12 0).sys.boot.isSome = true ∧ (booting 12 0).getN F.fstBound_state 0 ≠ 1) ∧
    (∀ k ∈ [1, 2, 3, 5, 6], fatalStep k = true ∧ ((booting k 4).ways k).length ≤ 4) ∧
    (up.barOpen (RegId.hubBootpol.offset 0) = true ∧ (BitVec.ofNat 64 (2 ^ 62)).getLsbD 62 = true) ∧
    (up.hostOn = true ∧ up.canonical = true ∧ (hostQueue.putN F.hubHqCfg_fn 63 16).hqFn 63 = 16) := by decide +kernel

/-- A row whose stored CRC is its own, and one whose stored word is no CRC. -/
theorem test_rowGood (s : State) :
    (s.setReg .gthCrc 0 ((crc32c (s.rowBytes 0 0)).setWidth 64)).rowGood 0 0 = true ∧
    (s.setReg .gthCrc 0 (BitVec.ofNat 64 (2 ^ 63))).rowGood 0 0 = false := by
  have h (v : BitVec 64) : (s.setReg .gthCrc 0 v).rowBytes 0 0 = s.rowBytes 0 0 := by
    simp [State.rowBytes, State.cell, State.setReg]
  constructor
  · simp [State.rowGood, h]
  · simp [State.rowGood, h]
    bv_omega

theorem test_witness_Upkeep :
    (∀ k ∈ [0, 1, 5], (up.clrF F.upkEng_en k).engineOn k = false ∧ up.engineOn k = true) ∧
    (let s := runs {}
     (∀ p ∈ [0, 7, 8], ({ s with sys := { s.sys with walkPos := p } } : State).walkNext = some (p % 8, p == 7))) ∧
    (let s := runs {}
     (∀ a ∈ [0, 2047], nextOf ((s.onSys fun y => { y with sweepPos := a }).sys.sweepPos / 2048) s.inUse = some (0, true)) ∧
       badSlices ((s.gth 0).folioCommitted 0) = 0) ∧
    (let s := up.putN F.fstPortStat_state 7 2
     s.engineOn 2 = true ∧ s.portUp 7 = true ∧ (s.port 7).sub = none ∧ s.engineOn 3 = true) ∧
    (let temps : List Int := List.replicate 64 25
     let cur : List CurrentSense := List.replicate 8 { cur := 0, mv := 0 }
     telemetryShape temps cur = true ∧ up.domOn 2 = true ∧ (∀ d < 5, dieLost temps d = false) ∧
       (∀ c ∈ cur, badCurrent c = false) ∧ up.bitF F.upkEng_en 4 = true ∧
       (up.clrF F.upkEng_en 4).bitF F.upkEng_en 4 = false ∧
       telemetryShape (List.replicate 64 200) cur = true ∧ ∃ d < 5, dieLost (List.replicate 64 200) d = true) ∧
    (let s := runs {}
     up.barOpen (RegId.upkColmap.offset 3) = true ∧ s.skip 0 = 32 ∧ (∃ g ∈ movedGths 0 32 0, s.gthRuns g = true) ∧
       (∀ g ∈ movedGths 3 32 0, s.gthRuns g = false) ∧ ¬ (33 ≤ 32) ∧ physCol 32 31 ≠ physCol 31 31) ∧
    (let v := BitVec.ofNat 64 (2 ^ 63 + 31)
     up.barOpen (RegId.upkColrep.offset 0) = true ∧ fieldOf F.upkColrep_pg v = 31 ∧ up.colrepCode 0 31 = 0 ∧
       up.colrepCode 0 32 = 4) ∧
    (∀ gs ∈ [[], [5]], let s := (up.putN F.upkColrep_state 0 1).onSys fun y => { y with colMove := some ⟨0, 31, 0, gs, []⟩ }
      s.sys.colMove = some ⟨0, 31, 0, gs, []⟩ ∧ s.getN F.upkColrep_state 0 = 1) ∧
    (up.barOpen (RegId.logCtl.offset 0) = true ∧ fieldOf F.logCtl_freeze_level (BitVec.ofNat 64 (2 ^ 63)) ≠ 7 ∧
      up.barOpen (RegId.logDhi.offset 0) = true) := by decide +kernel

theorem test_equaliser_range (k : Int) : (k - k).natAbs ≤ Config.eqRange ∧ Config.eqRange < ((Config.eqRange : Int) + 1).natAbs := by
  omega

theorem test_witness_BusAndJtag :
    (∀ t' ∈ [BusTarget.hub, BusTarget.meter], up.targetUp t' = true ∧ up.busAddr t' = 0 ∧
      (up.onSys fun y => { y with vsb := false }).targetUp t' = false) ∧
    (up.putN F.padI3c_dynaddr 0 9).busAddr .hub ≠ 0 ∧ (9 : BitVec 7) ≠ 0 ∧
    (up.sys.vsb = true ∧ up.allUnbound = true ∧ (runs {}).allUnbound = false ∧ up.jtagCtx = none ∧
      (up.onSys fun y => { y with current := some { job with srcsel := 3 } }).jtagCtx = some 15 ∧
      (up.onSys fun y => { y with vsb := false }).sys.vsb = false) := by decide +kernel

/-! ### Well-formedness, words and codes -/

theorem test_wellFormed :
    (Instr.bar2Read 0 (2 ^ 30) (2 ^ 30 - 1) 1).wf = true ∧ (Instr.bar2Read 0 (2 ^ 30) (2 ^ 30 - 1) 2).wf = false ∧
    (Instr.bar2Read 0 (2 ^ 30) 0 0).wf = false ∧ (Instr.bar2Read 0 (2 ^ 38) 0 1).wf = true ∧
    (Instr.bar2Read 1 (2 ^ 38) 0 1).wf = false ∧ (Instr.bar2Write 0 (2 ^ 30) 0 []).wf = false ∧
    (Instr.bar2Write 0 (2 ^ 30) (2 ^ 30) [0]).wf = false ∧ (Instr.bar0BadAccess 0 0 4 true).wf = true ∧
    (Instr.bar0BadAccess 0 0 8 true).wf = false ∧ (Instr.bar0BadAccess 0 0 0 false).wf = false ∧
    (Instr.registerWrite 0 4 0).wf = false ∧ (Instr.registerWrite 0 8 0).wf = true ∧
    (Instr.telemetryUpdate [] []).wf = false ∧
    (Instr.telemetryUpdate (List.replicate 64 0) (List.replicate 7 { cur := 0, mv := 0 })).wf = false := by decide +kernel

theorem test_word_none (s : State) (n w : Nat) : decodeTableWord n w = none ∧ s.withFetchWord n w = s := ⟨rfl, rfl⟩

/-- Words of R200 to R234 written out field by field, and reserved ones. -/
theorem test_awl_words :
    decodeAwl 0x00_0000_0000 = some .nop ∧ decodeAwl 0x90_0000_0000 = some .aclr ∧ decodeAwl 0x70_0000_000F = some .rep ∧
    decodeAwl 0x98_04C0_0000 = some .macp ∧ decodeAwl 0x8C_000E_A140 = some .ext ∧ decodeAwl 0x04_0000_0000 = some .add ∧
    decodeAwl 0x04_0001_5000 = some .popc ∧ decodeAwl 0x40_0000_0000 = some .ld ∧ decodeAwl 0x63_8000_7FFF = some .b ∧
    decodeAwl 0xF8_0000_0001 = some .priv ∧ decodeAwl 0x04_0001_6000 = none ∧ decodeAwl 0x04_0004_5000 = none ∧
    decodeAwl 0x00_0000_0001 = none ∧ decodeAwl 0x34_0000_0000 = none ∧ decodeAwl 0x63_C000_0000 = none ∧
    decodeAwl 0x40_0300_0000 = none ∧ decodeAwl 0xA0_0000_0000 = none ∧ decodeAwl 0xFC_0000_0000 = none := by decide +kernel

/-- A codeword's message: a header and four frames. -/
def message : Nat := cwMessage 0xC5123 [mkFrame 5 [1, 2, 3], mkFrame 6 [7], 0, mkFrame 9 [0xFFFFFFFFFF]]

/-- A frame carries its own CRC, and a codeword its parity, through the scrambler and the lanes. -/
theorem test_codeword :
    frameOk (cwFrame message 0) = true ∧ rsCheck (rsEncode message) = 0 ∧ (scramble 5 (2 ^ 5139)).1 ≠ 2 ^ 5139 ∧
    (decodeLanes ((List.range 8).map (laneSymbols (rsEncode (scramble 3 message).1)))).uncorrectable = false ∧
    cwHeader (descramble 3 (decodeLanes ((List.range 8).map (laneSymbols (rsEncode (scramble 3 message).1)))).msg).1 =
      0xC5123 := by decide +kernel

end Sys2Proof.Tests
end

section
/-!
Proofs of the scope family, 1: commands that complete, the frames of all commands, and the canonical form that every
step keeps.
-/
namespace Sys2Proof.Machine

/-! ### Commands complete -/

theorem execBar2Read_next {fn : FnId} {size off len : Nat} (s : State) (h : bar2Inside fn size off len = true) :
    ∃ t, execBar2Read fn size off len s = .next t := by
  by_cases hh : s.hostOn = false <;> simp [execBar2Read, h, hh]

theorem execBar2Write_next {fn : FnId} {size off : Nat} {bytes : List Byte} (s : State)
    (h : bar2Inside fn size off bytes.length = true) : ∃ t, execBar2Write fn size off bytes s = .next t := by
  by_cases hh : s.hostOn = false <;> simp [execBar2Write, h, hh]

/-- A read of BAR0 is answered whatever its shape, and so is a write of the wrong shape. -/
theorem execBar0BadAccess_next {fn : FnId} {off : BitVec 26} {len : Nat} {write : Bool} (s : State)
    (h : badShape off.toNat len = true ∨ write = false) : ∃ t, execBar0BadAccess fn off len write s = .next t := by
  unfold execBar0BadAccess
  by_cases hh : s.hostOn = false
  · exact ⟨s, by simp [hh]⟩
  by_cases hb : badShape off.toNat len = true
  · exact ⟨_, by simp only [if_neg hh, if_pos hb]; rfl⟩
  · obtain rfl : write = false := h.resolve_left hb
    by_cases ho : s.barOpen off.toNat = false
    · exact ⟨_, by simp only [if_neg hh, if_neg hb, if_pos ho]; rfl⟩
    · exact ⟨_, by simp only [if_neg hh, if_neg hb, if_neg ho]; rfl⟩

/-- The half of O2 that holds: every well-formed command answers a next state on every state. -/
theorem exec_next_of_wf (i : Instr) (s : State) (h : i.wf = true) : ∃ t, exec i s = .next t := by
  cases i
  case bar2Read fn size off len => exact execBar2Read_next s h
  case bar2Write fn size off bytes => exact execBar2Write_next s h
  case bar0BadAccess fn off len write =>
    refine execBar0BadAccess_next s ?_
    cases write
    · exact .inr rfl
    · exact .inl (by simpa [Instr.wf] using h)
  case registerWrite fn off v =>
    have ho : off.toNat % 8 = 0 := by simpa [Instr.wf] using h
    exact ⟨_, if_neg (not_not_intro ho)⟩
  case telemetryUpdate temps currents =>
    have hs : telemetryShape temps currents = true := h
    exact ⟨_, if_neg (by simp [hs])⟩
  all_goals exact ⟨_, rfl⟩

/-- Refutes O2: a read of BAR0 of no bytes at all is ill formed, and the model answers it instead of a fault. -/
theorem not_commandsComplete : ¬ Obligations.CommandsComplete := by
  unfold Obligations.CommandsComplete
  intro h
  obtain ⟨t, ht⟩ := execBar0BadAccess_next (fn := 0) (off := 0) (len := 0) State.reset (.inr rfl)
  have hf : exec (.bar0BadAccess 0 0 0 false) State.reset = .fault .illFormed := (h _ _).2 (by decide)
  cases ht.symm.trans hf

/-! ### Frames -/

theorem sub_self (ps : List Part) : sub ps ps = true := sub_of_mem fun _ h => h

theorem queue_notMem_frameOf (i : Instr) : Part.queue ∉ frameOf i := by
  cases i <;> simp [frameOf, everyRegister]

/-- The frame of each command, arm by arm. -/
theorem exec_only (s : State) (i : Instr) : OnlyR (frameOf i) s (exec i s) :=
  match i with
  | .commitVote r pads bad => execCommitVote_only s r pads bad
  | .tokenTimeout r => execTokenTimeout_only s r
  | .qctRetry fn r v => execQctRetry_only s fn r v
  | .qctInject fn r v => execQctInject_only s fn r v
  | .cellNop c k => execCellNop_only s c k
  | .cellHold c k => execCellHold_only s c k
  | .cellMov c k => execCellMov_only s c k
  | .cellAdd c k => execCellAdd_only s c k
  | .cellSub c k => execCellSub_only s c k
  | .cellCmp c k => execCellCmp_only s c k
  | .cellLtu c k => execCellLtu_only s c k
  | .cellLts c k => execCellLts_only s c k
  | .cellEq c k => execCellEq_only s c k
  | .cellLut3 c k => execCellLut3_only s c k
  | .cellAnd c k => execCellAnd_only s c k
  | .cellOr c k => execCellOr_only s c k
  | .cellXor c k => execCellXor_only s c k
  | .cellAndn c k => execCellAndn_only s c k
  | .cellShl c k => execCellShl_only s c k
  | .cellShr c k => execCellShr_only s c k
  | .cellSar c k => execCellSar_only s c k
  | .cellRol c k => execCellRol_only s c k
  | .cellExt c k => execCellExt_only s c k
  | .cellExts c k => execCellExts_only s c k
  | .cellIns c k => execCellIns_only s c k
  | .cellFsh c k => execCellFsh_only s c k
  | .cellSel c k => execCellSel_only s c k
  | .cellBsel c k => execCellBsel_only s c k
  | .cellMaxu c k => execCellMaxu_only s c k
  | .cellMinu c k => execCellMinu_only s c k
  | .cellMaxs c k => execCellMaxs_only s c k
  | .cellMins c k => execCellMins_only s c k
  | .cellRdor c k => execCellRdor_only s c k
  | .cellRdand c k => execCellRdand_only s c k
  | .cellRdxor c k => execCellRdxor_only s c k
  | .cellLzc c k => execCellLzc_only s c k
  | .cellPopc c k => execCellPopc_only s c k
  | .cellTzc c k => execCellTzc_only s c k
  | .cellFld c k => execCellFld_only s c k
  | .cellFst c k => execCellFst_only s c k
  | .cellFpush c k => execCellFpush_only s c k
  | .cellFpop c k => execCellFpop_only s c k
  | .cellFpeek c k => execCellFpeek_only s c k
  | .cellPput c k => execCellPput_only s c k
  | .cellPget c k => execCellPget_only s c k
  | .cellQempty c k => execCellQempty_only s c k
  | .cellQfull c k => execCellQfull_only s c k
  | .cellQhigh c k => execCellQhigh_only s c k
  | .cellQlow c k => execCellQlow_only s c k
  | .cellQcount c k => execCellQcount_only s c k
  | .cellHin c k => execCellHin_only s c k
  | .cellPin c k => execCellPin_only s c k
  | .cellHstat c k => execCellHstat_only s c k
  | .pnop g p k => execPnop_only s g p k
  | .pmul g p k => execPmul_only s g p k
  | .pmac g p k => execPmac_only s g p k
  | .pmsu g p k => execPmsu_only s g p k
  | .pext g p k => execPext_only s g p k
  | .pclr g p k => execPclr_only s g p k
  | .exchangeSend => execExchangeSend_only s
  | .tokenSend => execTokenSend_only s
  | .codewordRx p cw => execCodewordRx_only s p cw
  | .exchangeFrame p => execExchangeFrame_only s p
  | .tokenFrame p pads bad => execTokenFrame_only s p pads bad
  | .poisonFrame p => execPoisonFrame_only s p
  | .asyncDataFrame p => execAsyncDataFrame_only s p
  | .linkControlFrame p => execLinkControlFrame_only s p
  | .linkControlSend p => execLinkControlSend_only s p
  | .asyncResendTimeout p => execAsyncResendTimeout_only s p
  | .syscmdStart p => execSyscmdStart_only s p
  | .syscmdRetry p => execSyscmdRetry_only s p
  | .syscmdRelease p => execSyscmdRelease_only s p
  | .tokenReq p => execTokenReq_only s p
  | .tokenResp p pads bad => execTokenResp_only s p pads bad
  | .syscmdAct pads bad => execSyscmdAct_only s pads bad
  | .laneSwitchTx p => execLaneSwitchTx_only s p
  | .laneSwitchRx p => execLaneSwitchRx_only s p
  | .laneSubTimeout p => execLaneSubTimeout_only s p
  | .laneSignalLoss p lane => execLaneSignalLoss_only s p lane
  | .upkLaneGo v => execUpkLaneGo_only s v
  | .portTrain p v => execPortTrain_only s p v
  | .trainingTimeout p failed => execTrainingTimeout_only s p failed
  | .syncportLockLoss => execSyncportLockLoss_only s
  | .boundRiseQualified => execBoundRiseQualified_only s
  | .boundWaitTimeout => execBoundWaitTimeout_only s
  | .startWaitTimeout => execStartWaitTimeout_only s
  | .boundNFall => execBoundNFall_only s
  | .awlNop c => execAwlNop_only s c
  | .awlAdd c => execAwlAdd_only s c
  | .awlSub c => execAwlSub_only s c
  | .awlAdc c => execAwlAdc_only s c
  | .awlSbc c => execAwlSbc_only s c
  | .awlCmp c => execAwlCmp_only s c
  | .awlAnd c => execAwlAnd_only s c
  | .awlOr c => execAwlOr_only s c
  | .awlXor c => execAwlXor_only s c
  | .awlAndn c => execAwlAndn_only s c
  | .awlShl c => execAwlShl_only s c
  | .awlShr c => execAwlShr_only s c
  | .awlSar c => execAwlSar_only s c
  | .awlRol c => execAwlRol_only s c
  | .awlMins c => execAwlMins_only s c
  | .awlMaxs c => execAwlMaxs_only s c
  | .awlAbs c => execAwlAbs_only s c
  | .awlNeg c => execAwlNeg_only s c
  | .awlMov c => execAwlMov_only s c
  | .awlRsb c => execAwlRsb_only s c
  | .awlBsc c => execAwlBsc_only s c
  | .awlLzc c => execAwlLzc_only s c
  | .awlPopc c => execAwlPopc_only s c
  | .awlAddi c => execAwlAddi_only s c
  | .awlAndi c => execAwlAndi_only s c
  | .awlOri c => execAwlOri_only s c
  | .awlXori c => execAwlXori_only s c
  | .awlShli c => execAwlShli_only s c
  | .awlShri c => execAwlShri_only s c
  | .awlSari c => execAwlSari_only s c
  | .awlCmpi c => execAwlCmpi_only s c
  | .awlMovi c => execAwlMovi_only s c
  | .awlMovhi c => execAwlMovhi_only s c
  | .awlLd c => execAwlLd_only s c
  | .awlSt c => execAwlSt_only s c
  | .awlLdx c => execAwlLdx_only s c
  | .awlStx c => execAwlStx_only s c
  | .awlStm c => execAwlStm_only s c
  | .awlLdm c => execAwlLdm_only s c
  | .awlB c => execAwlB_only s c
  | .awlCall c => execAwlCall_only s c
  | .awlRet c => execAwlRet_only s c
  | .awlJr c => execAwlJr_only s c
  | .awlRep c => execAwlRep_only s c
  | .awlMul c => execAwlMul_only s c
  | .awlMac c => execAwlMac_only s c
  | .awlMsu c => execAwlMsu_only s c
  | .awlExt c => execAwlExt_only s c
  | .awlAclr c => execAwlAclr_only s c
  | .awlMacp c => execAwlMacp_only s c
  | .awlMsup c => execAwlMsup_only s c
  | .awlXget c => execAwlXget_only s c
  | .awlXput c => execAwlXput_only s c
  | .awlXwait c => execAwlXwait_only s c
  | .awlXstat c => execAwlXstat_only s c
  | .awlTake c => execAwlTake_only s c
  | .awlGive c => execAwlGive_only s c
  | .awlDone c => execAwlDone_only s c
  | .awlDefer c => execAwlDefer_only s c
  | .awlLock c => execAwlLock_only s c
  | .awlUnlock c => execAwlUnlock_only s c
  | .awlYield c => execAwlYield_only s c
  | .awlSrd c => execAwlSrd_only s c
  | .awlSwr c => execAwlSwr_only s c
  | .awlBget c => execAwlBget_only s c
  | .awlBput c => execAwlBput_only s c
  | .awlBexp c => execAwlBexp_only s c
  | .awlBfix c => execAwlBfix_only s c
  | .awlPriv c => execAwlPriv_only s c
  | .levelSwitch c => execLevelSwitch_only s c
  | .collatorResponseTimeout c lv => execCollatorResponseTimeout_only s c lv
  | .transferTimeout c lv tag => execTransferTimeout_only s c lv tag
  | .awlHoldrst c v => execAwlHoldrst_only s c v
  | .awlUnfreeze c v => execAwlUnfreeze_only s c v
  | .awlMdataRead c => execAwlMdataRead_only s c
  | .awlMdataWrite c v => execAwlMdataWrite_only s c v
  | .collatorPlace => execCollatorPlace_only s
  | .affHoldExpiry st cw => execAffHoldExpiry_only s st cw
  | .delayEntryDue l => execDelayEntryDue_only s l
  | .calendarWrap l => execCalendarWrap_only s l
  | .timerDue t => execTimerDue_only s t
  | .timerArm t v => execTimerArm_only s t v
  | .timerInsertRetry t => execTimerInsertRetry_only s t
  | .yieldReady c lv => execYieldReady_only s c lv
  | .lockWaitTimeout c lv => execLockWaitTimeout_only s c lv
  | .streamResume fn st v => execStreamResume_only s fn st v
  | .streamCancel fn st v => execStreamCancel_only s fn st v
  | .hubLogicRecovery => execHubLogicRecovery_only s
  | .itemRetire st cw => execItemRetire_only s st cw
  | .ledgerChannelRebuild ch => execLedgerChannelRebuild_only s ch
  | .abandon fn st v => execAbandon_only s fn st v
  | .colAccWrite fn st v => execColAccWrite_only s fn st v
  | .sqEntryRead m desc => execSqEntryRead_only s m desc
  | .doorbellSqt fn m v => execDoorbellSqt_only s fn m v
  | .doorbellAqh fn m v => execDoorbellAqh_only s fn m v
  | .doorbellRqh fn m v => execDoorbellRqh_only s fn m v
  | .doorbellXqh fn m v => execDoorbellXqh_only s fn m v
  | .queueSetCfgWrite fn m v => execQueueSetCfgWrite_only s fn m v
  | .resultDelivery m => execResultDelivery_only s m
  | .interruptIntervalEnd m => execInterruptIntervalEnd_only s m
  | .bar2Read fn size off len => execBar2Read_only s fn size off len
  | .bar2Write fn size off bytes => execBar2Write_only s fn size off bytes
  | .bar0BadAccess fn off len write => execBar0BadAccess_only s fn off len write
  | .registerWrite fn off v => execRegisterWrite_only s fn off v
  | .vfFlr f => execVfFlr_only s f
  | .rd mc glitch => execRd_only s mc glitch
  | .wr mc glitch => execWr_only s mc glitch
  | .qpush k => execQpush_only s k
  | .qpop k => execQpop_only s k
  | .frd k => execFrd_only s k
  | .fwr k => execFwr_only s k
  | .cmsg => execCmsg_only s
  | .dsp k => execDsp_only s k
  | .rdata k cl => execRdata_only s k cl
  | .rack k cl => execRack_only s k cl
  | .crsp k cl => execCrsp_only s k cl
  | .flitArrive ring slot k => execFlitArrive_only s ring slot k
  | .flitInject k cls slots => execFlitInject_only s k cls slots
  | .regulatorToken k cl => execRegulatorToken_only s k cl
  | .ringResendTimeout k cl tag => execRingResendTimeout_only s k cl tag
  | .keptResponseExpiry k src cl tag => execKeptResponseExpiry_only s k src cl tag
  | .stationBypass k v => execStationBypass_only s k v
  | .drainComplete k => execDrainComplete_only s k
  | .traceRead => execTraceRead_only s
  | .scrubRead glitch => execScrubRead_only s glitch
  | .retrainStep => execRetrainStep_only s
  | .retrainStepTimeout => execRetrainStepTimeout_only s
  | .sectorClear fn v => execSectorClear_only s fn v
  | .retireGo v => execRetireGo_only s v
  | .migrationLineCopy => execMigrationLineCopy_only s
  | .migrationComplete => execMigrationComplete_only s
  | .partitionWrite p v => execPartitionWrite_only s p v
  | .loadGo fn x v => execLoadGo_only s fn x v
  | .loadServiceStart bytes => execLoadServiceStart_only s bytes
  | .frameRecord bytes => execFrameRecord_only s bytes
  | .loadStallTimeout => execLoadStallTimeout_only s
  | .loadSourceError short => execLoadSourceError_only s short
  | .loadAbortCmd fn x v => execLoadAbortCmd_only s fn x v
  | .casein fn r v => execCasein_only s fn r v
  | .free fn r v => execFree_only s fn r v
  | .flashWriteGo v bytes => execFlashWriteGo_only s v bytes
  | .flashCommitRecord => execFlashCommitRecord_only s
  | .holdRequest fn r v => execHoldRequest_only s fn r v
  | .holdRelease fn r v pads => execHoldRelease_only s fn r v pads
  | .readbackGo fn r v => execReadbackGo_only s fn r v
  | .readbackDone r pads => execReadbackDone_only s r pads
  | .bookmarkTake fn r v => execBookmarkTake_only s fn r v
  | .bookmarkRestore fn r v => execBookmarkRestore_only s fn r v
  | .bookmarkEngineStart r => execBookmarkEngineStart_only s r
  | .bookmarkCaptureDone r pads => execBookmarkCaptureDone_only s r pads
  | .bookmarkRestoreDone r => execBookmarkRestoreDone_only s r
  | .meterSample => execMeterSample_only s
  | .bindingMessageSend => execBindingMessageSend_only s
  | .bindingMessage crcOk => execBindingMessage_only s crcOk
  | .bindingStale => execBindingStale_only s
  | .meterNvWrite => execMeterNvWrite_only s
  | .mvddFall => execMvddFall_only s
  | .meterPowerOn addr good => execMeterPowerOn_only s addr good
  | .meterIntervalRecord => execMeterIntervalRecord_only s
  | .meterRecordSigned => execMeterRecordSigned_only s
  | .meterStatusFrame => execMeterStatusFrame_only s
  | .setptr off => execSetptr_only s off
  | .recordNow => execRecordNow_only s
  | .sealed bytes => execSealed_only s bytes
  | .meterPrivateRead n => execMeterPrivateRead_only s n
  | .meterRunLow => execMeterRunLow_only s
  | .otpProgram v => execOtpProgram_only s v
  | .otpRevoke v => execOtpRevoke_only s v
  | .otpProgramDone readback => execOtpProgramDone_only s readback
  | .attestationGo fn f v => execAttestationGo_only s fn f v
  | .attestationService => execAttestationService_only s
  | .attestationWritten => execAttestationWritten_only s
  | .domainVoteWrite fn d v => execDomainVoteWrite_only s fn d v
  | .domainPowerUp d => execDomainPowerUp_only s d
  | .domainPowerDown d => execDomainPowerDown_only s d
  | .powerGoodTimeout d => execPowerGoodTimeout_only s d
  | .fuistPartnerVoteClear => execFuistPartnerVoteClear_only s
  | .opWrite v => execOpWrite_only s v
  | .opSwitch pads => execOpSwitch_only s pads
  | .arrayLoopRelock => execArrayLoopRelock_only s
  | .vsetWrite v => execVsetWrite_only s v
  | .varrSettled code => execVarrSettled_only s code
  | .thermalCompare => execThermalCompare_only s
  | .thermalTrip sensor temp => execThermalTrip_only s sensor temp
  | .aoTempSample temp => execAoTempSample_only s temp
  | .loopLockLoss array => execLoopLockLoss_only s array
  | .padRelease fn v => execPadRelease_only s fn v
  | .wakeAddressMatch => execWakeAddressMatch_only s
  | .aoTimerExpiry => execAoTimerExpiry_only s
  | .wakeNAssert => execWakeNAssert_only s
  | .wakeSequence stop durUs => execWakeSequence_only s stop durUs
  | .wakeStepTimeout stop durUs => execWakeStepTimeout_only s stop durUs
  | .wakeAck v => execWakeAck_only s v
  | .timeCalibrate count => execTimeCalibrate_only s count
  | .tclkResume n => execTclkResume_only s n
  | .timAdj fn v => execTimAdj_only s fn v
  | .powerOnReset straps stop durMs => execPowerOnReset_only s straps stop durMs
  | .resetNQualified => execResetNQualified_only s
  | .resetNRelease stop durMs => execResetNRelease_only s stop durMs
  | .vinLoss => execVinLoss_only s
  | .vsbLoss => execVsbLoss_only s
  | .warmReset fn v stop durMs => execWarmReset_only s fn v stop durMs
  | .pcieHotReset flr stop durMs => execPcieHotReset_only s flr stop durMs
  | .bootStepTimeout stop durMs => execBootStepTimeout_only s stop durMs
  | .perstNRise => execPerstNRise_only s
  | .parameterSave fn v ok => execParameterSave_only s fn v ok
  | .frameCheckWalk => execFrameCheckWalk_only s
  | .folioParitySweep => execFolioParitySweep_only s
  | .serdesAdaptStep p lane dir => execSerdesAdaptStep_only s p lane dir
  | .serdesAdaptReview p lane before after => execSerdesAdaptReview_only s p lane before after
  | .regulatorTrimStep rail errMv => execRegulatorTrimStep_only s rail errMv
  | .telemetryUpdate temps currents => execTelemetryUpdate_only s temps currents
  | .wearLevelCheck => execWearLevelCheck_only s
  | .colmapWrite q v => execColmapWrite_only s q v
  | .colrepGo v => execColrepGo_only s v
  | .colrepCaptureDone => execColrepCaptureDone_only s
  | .logUnfreeze v => execLogUnfreeze_only s v
  | .logRead => execLogRead_only s
  | .hubStatusCmd => execHubStatusCmd_only s
  | .hubVoteCmd arg => execHubVoteCmd_only s arg
  | .entdaa t da => execEntdaa_only s t da
  | .setdasa t da => execSetdasa_only s t da
  | .setnewda t da => execSetnewda_only s t da
  | .rstdaa => execRstdaa_only s
  | .getpid t => execGetpid_only s t
  | .getbcr t => execGetbcr_only s t
  | .getdcr t => execGetdcr_only s t
  | .getstatus t => execGetstatus_only s t
  | .getmwl t => execGetmwl_only s t
  | .getmrl t => execGetmrl_only s t
  | .jtagBypass => execJtagBypass_only s
  | .samplePreload pins preload => execSamplePreload_only s pins preload
  | .idcode => execIdcode_only s
  | .extest preload => execExtest_only s preload
  | .clamp => execClamp_only s
  | .highz => execHighz_only s
  | .bndstream b => execBndstream_only s b
  | .bndstat => execBndstat_only s
  | .loopRelock array => execLoopRelock_only s array
  | .vinReturn stop durMs => execVinReturn_only s stop durMs
  | .bankRampDone b => execBankRampDone_only s b
  | .portTrainingDone p peer => execPortTrainingDone_only s p peer
  | .domainPowerGood d => execDomainPowerGood_only s d
  | .domainRampdownDone d => execDomainRampdownDone_only s d
  | .sqReadTimeout m => execSqReadTimeout_only s m
  | .statusLinkLoss => execStatusLinkLoss_only s

/-- Settles O3, arm by arm: each command by the frame of its own meaning. -/
theorem commandFrames : Obligations.CommandFrames := by
  unfold Obligations.CommandFrames
  intro i s t h
  have ho := exec_only s i t h
  exact ⟨ho, ho.same .queue (queue_notMem_frameOf i)⟩

/-! ### The canonical form -/

/-- Ten nanoseconds without a command keep the canonical form. -/
theorem tick_canonical {s : State} (h : s.canonical = true) : s.tick.canonical = true :=
  (tick_only (.refl _ s) (sub_self _)).form h

/-- Settles O6: a command keeps the form by its frame, whatever the queue holds, and a tick by its own. -/
theorem formIsKept : Obligations.FormIsKept := by
  unfold Obligations.FormIsKept
  intro s t hc hs
  unfold step at hs
  split at hs
  next => cases hs; exact tick_canonical hc
  next i rest _ => exact (exec_only { s with pending := rest } i t hs).form hc

end Sys2Proof.Machine
end

section
/-!
Proofs of the scope family, 2: what an event leaves of the registers (R9).
-/
namespace Sys2Proof.Machine

/-! ### Registers after an event -/

theorem lookupKey_none_of_canonicalFrom {α : Type} [DecidableEq α] (d : Nat → α) (k : Nat) :
    ∀ (es : List (Nat × α)) (lo : Nat), k < lo → canonicalFrom d lo es = true → lookupKey es k = none
  | [], _, _, _ => rfl
  | (j, v) :: es, lo, hk, h => by
    simp only [canonicalFrom, Bool.and_eq_true, decide_eq_true_eq] at h
    obtain ⟨⟨hj, _⟩, hes⟩ := h
    rw [lookupKey, if_neg (by omega)]
    exact lookupKey_none_of_canonicalFrom d k es (j + 1) (by omega) hes

/-- In a canonical list each key stands once, so that a change of every entry changes what stands at a key alone. -/
theorem lookupKey_filterMap {α : Type} [DecidableEq α] (d : Nat → α) (f : Nat × α → Option (Nat × α))
    (hf : ∀ p q, f p = some q → q.1 = p.1) (k : Nat) :
    ∀ (es : List (Nat × α)) (lo : Nat), canonicalFrom d lo es = true →
      lookupKey (es.filterMap f) k = (lookupKey es k).bind fun v => (f (k, v)).map Prod.snd
  | [], _, _ => rfl
  | (j, v) :: es, lo, h => by
    simp only [canonicalFrom, Bool.and_eq_true, decide_eq_true_eq] at h
    obtain ⟨_, hes⟩ := h
    have ih := lookupKey_filterMap d f hf k es (j + 1) hes
    by_cases hjk : j = k
    · subst hjk
      have hnone := lookupKey_none_of_canonicalFrom d j es (j + 1) (by omega) hes
      rw [hnone] at ih
      cases hfj : f (j, v) with
      | none => simpa [List.filterMap_cons, hfj, lookupKey] using ih
      | some q =>
        obtain ⟨i, w⟩ := q
        obtain rfl : i = j := hf _ _ hfj
        simp [hfj, lookupKey]
    · cases hfj : f (j, v) with
      | none => simpa [List.filterMap_cons, hfj, lookupKey, hjk] using ih
      | some q =>
        obtain ⟨i, w⟩ := q
        obtain rfl : i = j := hf _ _ hfj
        simpa [List.filterMap_cons, hfj, lookupKey, hjk] using ih

theorem regDefault_regKey (r : RegId) (i : Nat) : regDefault (regKey r i) = r.resetVal i := by
  have hlt := r.ctorIdx_lt
  have hmod : regKey r i % 256 = r.ctorIdx := by simp only [regKey]; omega
  have hdiv : regKey r i / 256 = i := by simp only [regKey]; omega
  simp only [regDefault, hmod, hdiv, r.all_ctorIdx]

theorem RegId.after_resetVal (r : RegId) (e i : Nat) : r.after e i (r.resetVal i) = r.resetVal i := by
  unfold RegId.after
  split
  · rfl
  · rw [← BitVec.and_or_distrib_left, BitVec.or_not_self, BitVec.and_allOnes]

/-- What does not survive takes its reset value, in every register that the event concerns (R9). -/
theorem reg_loseRegs {s : State} (h : s.canonical = true) (e : Nat) (concerns : RegId → Nat → Bool) (r : RegId) (i : Nat) :
    (s.loseRegs e concerns).reg r i = if concerns r i then r.after e i (s.reg r i) else s.reg r i := by
  have hc : canonicalFrom regDefault 0 s.regs.entries = true := by
    simp only [State.canonical, Bool.and_eq_true] at h
    exact h.1.1
  have hlt := r.ctorIdx_lt
  have hmod : regKey r i % 256 = r.ctorIdx := by simp only [regKey]; omega
  have hdiv : regKey r i / 256 = i := by simp only [regKey]; omega
  simp only [State.reg, State.loseRegs, Sparse.get]
  rw [lookupKey_filterMap regDefault _ ?_ (regKey r i) _ 0 hc]
  · cases hl : lookupKey s.regs.entries (regKey r i) with
    | none => simp [regDefault_regKey, RegId.after_resetVal]
    | some v =>
      by_cases hr : concerns r i = true
      · by_cases hv : r.after e i v = r.resetVal i <;>
          simp [hmod, hdiv, r.all_ctorIdx, hr, hv, regDefault_regKey]
      · simp [hmod, hdiv, r.all_ctorIdx, hr]
  · intro p q hpq
    split at hpq
    · cases hpq; rfl
    · split at hpq
      · split at hpq <;> cases hpq
        rfl
      · cases hpq; rfl

theorem reg_loseRegs_hubId {s : State} (h : s.canonical = true) (e : Nat) (concerns : RegId → Nat → Bool) (i : Nat) :
    (s.loseRegs e concerns).reg .hubId i = s.reg .hubId i := by
  rw [reg_loseRegs h]
  simp [RegId.after]

/-- A register whose fields an event all loses takes its reset value there. -/
theorem after_lost (r : RegId) (e i : Nat) (v : BitVec 64) (hr : r ≠ .hubId) :
    r.after e i v &&& ~~~r.survMask e = r.resetVal i &&& ~~~r.survMask e := by
  rw [RegId.after, if_neg hr]
  ext j hj
  simp only [BitVec.getElem_and, BitVec.getElem_or, BitVec.getElem_not]
  cases (r.survMask e)[j] <;> simp

end Sys2Proof.Machine
end

section
/-!
Proofs of the scope family, 3: the identity of the part. HUB_ID is loaded from OTP and changed by no operation (R3): most
operations do not have it in their frame; those that touch every register, or a register that an operand names, are taken
one by one.
-/
namespace Sys2Proof.Machine

/-- From a state in its canonical form an operation comes to another one with the same HUB_ID. -/
def IdKept (z t : State) : Prop := z.canonical = true → t.canonical = true ∧ t.reg .hubId 0 = z.reg .hubId 0

variable {z s t : State}

theorem IdKept.refl (z : State) : IdKept z z := fun h => ⟨h, rfl⟩

/-- A frame does not have HUB_ID: a test on a number. -/
def noId (ps : List Part) : Bool := (maskOf ps).testBit (Part.reg .hubId).bit == false

theorem hubId_notMem {ps : List Part} (h : noId ps = true) : Part.reg .hubId ∉ ps := fun hm => by
  simp [noId, (testBit_maskOf ps _).mpr hm] at h

/-- An operation whose frame does not have HUB_ID. -/
theorem IdKept.frame {ps : List Part} (h : IdKept z s) (k : State.Only ps s t) (hp : Part.reg .hubId ∉ ps) :
    IdKept z t := fun hz =>
  have ⟨hc, hr⟩ := h hz
  ⟨k.form hc, (k.same (.reg .hubId) hp 0).trans hr⟩

theorem IdKept.only {ps : List Part} (h : IdKept z s) (k : State.Only ps s t) (hp : noId ps = true) :
    IdKept z t := h.frame k (hubId_notMem hp)

/-- A change of neither the registers nor the log nor DRAM. -/
theorem IdKept.same (h : IdKept z s) (hr : t.regs = s.regs) (hl : t.log = s.log) (hd : t.dram = s.dram) : IdKept z t := by
  intro hz
  obtain ⟨hc, hid⟩ := h hz
  exact ⟨canonical_eq hr hl hd hc, by rw [← hid]; simp only [State.reg, hr]⟩

theorem IdKept.onSys (h : IdKept z s) (f : SysState → SysState) : IdKept z (s.onSys f) := h.same rfl rfl rfl

theorem IdKept.ite {a b : State} {c : Prop} [Decidable c] (ha : IdKept z a) (hb : IdKept z b) :
    IdKept z (if c then a else b) := by split <;> assumption

theorem IdKept.foldl {α : Type} {f : State → α → State} (l : List α) (hf : ∀ x a, IdKept z x → IdKept z (f x a)) :
    ∀ {s : State}, IdKept z s → IdKept z (l.foldl f s) := by
  induction l with
  | nil => exact fun h => h
  | cons a l ih => exact fun h => ih (hf _ a h)

theorem IdKept.loseRegs (h : IdKept z s) (e : Nat) (concerns : RegId → Nat → Bool) :
    IdKept z (s.loseRegs e concerns) := fun hz =>
  have ⟨hc, hr⟩ := h hz
  ⟨(loseRegs_only e concerns (.refl _ s) (sub_self _)).form hc, (reg_loseRegs_hubId hc e concerns 0).trans hr⟩

/-- A value that keeps HUB_ID, stored in whichever register. -/
theorem IdKept.setReg (h : IdKept z s) (r : RegId) (i : Nat) (v : BitVec 64) (hv : r = .hubId → v = s.reg r i) :
    IdKept z (s.setReg r i v) := by
  intro hz
  obtain ⟨hc, hid⟩ := h hz
  refine ⟨(only_setReg (.refl _ s) r i v (sub_self _)).form hc, ?_⟩
  rw [State.reg_setReg]
  split
  next hri =>
    obtain ⟨rfl, rfl⟩ := hri
    rw [hv rfl, hid]
  · exact hid

theorem IdKept.clearW1c (h : IdKept z s) (r : RegId) (i : Nat) (v : BitVec 64) : IdKept z (s.clearW1c r i v) :=
  h.setReg r i _ fun hr => by
    subst hr
    simp only [show RegId.w1cMask .hubId = 0#64 by decide, BitVec.and_zero, BitVec.not_zero, BitVec.and_allOnes]

theorem IdKept.storeRw (h : IdKept z s) (r : RegId) (i : Nat) (v : BitVec 64) : IdKept z (s.storeRw r i v) :=
  h.setReg r i _ fun hr => by
    subst hr
    simp only [show RegId.rwMask .hubId = 0#64 by decide, BitVec.and_zero, BitVec.or_zero, BitVec.not_zero,
      BitVec.and_allOnes]

theorem IdKept.clearRc (h : IdKept z s) (r : RegId) (i : Nat) : IdKept z (s.clearRc r i) :=
  h.setReg r i _ fun hr => by
    subst hr
    simp only [show RegId.rcMask .hubId = 0#64 by decide, BitVec.and_zero, BitVec.or_zero, BitVec.not_zero,
      BitVec.and_allOnes]

/-! ### Loss of power (R429, R436) -/

theorem IdKept.dropQuadrant (h : IdKept z s) (q : Nat) : IdKept z (s.dropQuadrant q) := by
  have h1 := (h.only (latchBank_only (2 * q) (.refl _ _) (sub_self _)) rfl).only
    (latchBank_only (2 * q + 1) (.refl _ _) (sub_self _)) rfl
  have h2 := h1.foldl (f := State.loseRegion) (((s.latchBank (2 * q)).latchBank (2 * q + 1)).regionsIn q)
    fun x r hx => hx.only (loseRegion_only r (.refl _ _) (sub_self _)) rfl
  have h3 := h2.foldl (f := fun x c => x.dropCore (16 * q + c)) (List.range 16)
    fun x c hx => hx.only (dropCore_only (16 * q + c) (.refl _ _) (sub_self _)) rfl
  have h4 := (h3.only (clearQuadrant_only q (.refl _ _) (sub_self _)) rfl).loseRegs Ev.d
    fun r i => r.domain == .quadrant && r.quadOf i == q
  have h5 := h4.foldl (f := fun x c => x.setCore (16 * q + c) {}) (List.range 16)
    fun x c hx => hx.only (setCore_only (16 * q + c) {} (.refl _ _) (sub_self _)) rfl
  exact h5.foldl (f := fun x k => ((x.updStation k fun _ => {}).setF F.spnSta_deny k).setStation k 2) (quadStations q)
    fun _ k hx => ((hx.only (updStation_only k _ (.refl _ _) (sub_self _)) rfl).only
      (only_setF (.refl _ _) _ _ (sub_self _)) rfl).only (setStation_only k 2 (.refl _ _) (sub_self _)) rfl

theorem IdKept.dropHub (h : IdKept z s) : IdKept z s.dropHub :=
  (h.only (clearHub_only (.refl _ _) (sub_self _)) rfl).loseRegs Ev.d fun r _ => r.domain == .hub

theorem IdKept.downEffect (h : IdKept z s) (d : Nat) : IdKept z (s.downEffect d) :=
  h.dropHub.ite <| (h.loseRegs Ev.d fun r _ => r.domain == .mem).ite <|
    (h.only (dropLinks_only (.refl _ _) (sub_self _)) rfl).ite <| (h.onSys _).ite <| (h.dropQuadrant (d - 6)).ite h

theorem IdKept.powerDown (h : IdKept z s) (d : Nat) : IdKept z (s.powerDown d) := by
  have h1 := h.only (refreshPower_only (.refl _ _) (sub_self _)) rfl
  have h2 : IdKept z (if 6 ≤ d then s.refreshPower.drainPorts (d - 6) else s.refreshPower) :=
    (h1.only (drainPorts_only (d - 6) (.refl _ _) (sub_self _)) rfl).ite h1
  unfold State.powerDown
  refine h1.ite (.ite (h1.foldl _ fun x r hx => hx.only (requestHold_only r 0 (.refl _ _) (sub_self _)) rfl) ?_)
  exact ((h2.downEffect d).only (setDom_only d Dom.rampDn (.refl _ _) (sub_self _)) rfl).only
    (refreshPower_only (.refl _ _) (sub_self _)) rfl

theorem IdKept.allOff (h : IdKept z s) : IdKept z s.allOff :=
  h.foldl [9, 8, 7, 6, 5, 4, 2, 3] fun _ d hx =>
    hx.ite ((hx.downEffect d).only (setDom_only d Dom.off (.refl _ _) (sub_self _)) rfl)

theorem IdKept.trip (h : IdKept z s) (sensor temp : Nat) : IdKept z (s.trip sensor temp) := by
  have h1 := (h.only (latchAll_only (.refl _ _) (sub_self _)) rfl).only
    (logEntry_only 0x07 0xC003 (sensor + temp * 2 ^ 6) (.refl _ _) (sub_self _)) rfl
  exact ((h1.allOff.onSys _).only (stopTclk_only (.refl _ _) (sub_self _)) rfl).only
    (refreshPower_only (.refl _ _) (sub_self _)) rfl

theorem IdKept.wakeFail (h : IdKept z s) (k att : Nat) : IdKept z (s.wakeFail k att) := by
  have h1 := (h.only (only_setF (.refl _ _) F.pwrWake_fail 0 (sub_self _)) rfl).only
    (logEntry_only 0x50 0xC002 (wakeNo k + att * 2 ^ 4) (.refl _ _) (sub_self _)) rfl
  exact (((h1.allOff.onSys _).onSys _).only (stopTclk_only (.refl _ _) (sub_self _)) rfl).only
    (refreshPower_only (.refl _ _) (sub_self _)) rfl

/-! ### Resets (R449 to R453) -/

theorem IdKept.endAll (h : IdKept z s) : IdKept z s.abortAll.endAll.clearDie :=
  ((h.only (abortAll_only (.refl _ _) (sub_self _)) rfl).only (endAll_only (.refl _ _) (sub_self _)) rfl).only
    (clearDie_only (.refl _ _) (sub_self _)) rfl

theorem IdKept.hardReset (h : IdKept z s) : IdKept z s.hardReset := by
  have h1 := (h.endAll.loseRegs Ev.h fun _ _ => true).only (keepUnloaded_only (.refl _ _) (sub_self _)) rfl
  have h2 := h1.foldl (f := fun x b => x.keepBank s b) ((List.range 8).filter s.bankHeld)
    fun x b hx => hx.only (keepBank_only s b (.refl _ _) (sub_self _)) rfl
  exact h2.same rfl rfl rfl

theorem IdKept.warmReset (h : IdKept z s) : IdKept z s.warmReset := by
  have h1 := (h.endAll.loseRegs Ev.w fun _ _ => true).only (keepUnloaded_only (.refl _ _) (sub_self _)) rfl
  have putClk : ∀ {x : State} (f : Field 1) (v : BitVec 1), f.reg = .clkStat → IdKept z x → IdKept z (x.putF f 0 v) :=
    fun f v hf hx => hx.only (only_putF (.refl _ _) f 0 v (sub_self _)) (by rw [hf]; decide)
  exact putClk _ _ rfl (putClk _ _ rfl (putClk _ _ rfl (putClk _ _ rfl h1)))

theorem IdKept.powerRemoval (h : IdKept z s) : IdKept z s.powerRemoval := by
  intro hz
  obtain ⟨hc, hid⟩ := h hz
  refine ⟨(powerRemoval_only (.refl _ s) (sub_self _)).form hc, ?_⟩
  obtain ⟨_, hr⟩ := ((IdKept.refl s).only (clearDie_only (.refl _ _) (sub_self _)) rfl).loseRegs Ev.n (fun _ _ => true) hc
  exact Eq.trans hr hid

/-! ### A boot (R454 to R456) -/

theorem IdKept.applyParams (h : IdKept z s) : IdKept z s.applyParams := by
  unfold State.applyParams
  split
  · exact h.only (logEntry_only 0x50 0x4003 0 (.refl _ _) (sub_self _)) rfl
  · refine h.foldl _ fun x i hx => ?_
    dsimp only
    split
    · exact hx
    next r j _ =>
      refine hx.setReg r j _ fun hr => ?_
      subst hr
      simp only [show RegId.savedMask .hubId = 0#64 by decide, BitVec.and_zero, BitVec.or_zero, BitVec.not_zero,
        BitVec.and_allOnes]

theorem IdKept.act1 (h : IdKept z s) (k way : Nat) : IdKept z (s.act1 k way).2 := by
  have h5 := h.only (lockLoops_only (way == 1) (.refl _ _) (sub_self _)) rfl
  have h6 := (h.only (train_only way (.refl _ _) (sub_self _)) rfl).only (openDram_only way (.refl _ _) (sub_self _)) rfl
  have h9 := (h.only (replaceFailed_only (.refl _ _) (sub_self _)) rfl).only (trainPorts_only (.refl _ _) (sub_self _)) rfl
  have h11 := (h.only (walkAll_only (.refl _ _) (sub_self _)) rfl).only (caseAll_only (.refl _ _) (sub_self _)) rfl
  unfold State.act1
  split <;> try dsimp only
  · exact h
  · exact h.applyParams.ite h
  · split
    · exact (h.only (setBoot_only _ (.refl _ _) (sub_self _)) rfl).ite h
    · exact h
  · exact (h5.onSys _).ite h5
  · exact h6
  · exact h.only (fillDram_only (.refl _ _) (sub_self _)) rfl
  · exact h.only (bootLoad_only way (.refl _ _) (sub_self _)) rfl
  · exact h9
  · exact h11
  · exact h

/-- The state that the attempts of a step end in, hung or ended. -/
def StepEnd.state : StepEnd → State
  | .hung s => s
  | .ended _ s => s

theorem IdKept.attempts (stop k : Nat) : ∀ (ws : List Nat) (n : Nat) {s : State}, IdKept z s →
    IdKept z (s.attempts stop k ws n).state
  | [], n, s, h => (h.only (endStep_only k 2 (hasAlternate k) (n - 1) _ (.refl _ _) (sub_self _)) rfl).only
      (failed1_only k (.refl _ _) (sub_self _)) rfl
  | w :: ws, n, s, h => by
    have h1 := h.only (startAttempt_only k n (.refl _ _) (sub_self _)) rfl
    have h2 := h1.act1 k w
    have ih := IdKept.attempts stop k ws (n + 1) h2
    unfold State.attempts
    dsimp only
    split
    · exact h1
    · split
      · exact h2.only (endStep_only k 1 _ n _ (.refl _ _) (sub_self _)) rfl
      · exact ih

theorem IdKept.halt (h : IdKept z s) (k : Nat) : IdKept z (s.halt k) := h.only (halt_only k (.refl _ _) (sub_self _)) rfl

theorem IdKept.afterStep (h : IdKept z s) (k : Nat) : IdKept z (s.afterStep k) :=
  h.only (afterStep_only k (.refl _ _) (sub_self _)) rfl

theorem IdKept.leave (h : IdKept z s) (ks : List Nat) : IdKept z (s.leave ks) :=
  h.only (leave_only ks (.refl _ _) (sub_self _)) rfl

theorem IdKept.runSteps (stop : Nat) (dur : BitVec 32) : ∀ (ks : List Nat) {s : State}, IdKept z s →
    IdKept z (State.runSteps stop dur ks s)
  | [], _, h => h
  | k :: ks, s, h => by
    have h1 := h.leave ks
    have ih : ∀ {s : State}, IdKept z s → IdKept z (State.runSteps stop dur ks s) := IdKept.runSteps stop dur ks
    have h2 := IdKept.attempts stop k ((s.leave ks).ways k) 1 h1
    unfold State.runSteps
    refine .ite (ih (h1.only (linkStep_only stop (.refl _ _) (sub_self _)) rfl)) (.ite ?_ ?_)
    · exact h1.only (beginS12_only dur (.refl _ _) (sub_self _)) rfl
    · split
      next alt _ => exact ih ((h1.only (skipStep_only k alt 0 (.refl _ _) (sub_self _)) rfl).afterStep k)
      · split
        next x hx =>
          rw [hx] at h2
          exact IdKept.only h2 (hangs_only k 1 ks (.refl _ _) (sub_self _)) rfl
        next pass x hx =>
          rw [hx] at h2
          exact (IdKept.halt h2 k).ite (ih (IdKept.afterStep h2 k))

theorem IdKept.startBoot (h : IdKept z s) (kind stop : Nat) (dur : BitVec 32) : IdKept z (s.startBoot kind stop dur) := by
  have put : ∀ {x : State} {w : Nat} (f : Field w) (n : Nat), f.reg = .hubBoot → IdKept z x → IdKept z (x.putN f 0 n) :=
    fun f n hf hx => hx.only (only_putN (.refl _ _) f 0 n (sub_self _)) (by rw [hf]; decide)
  unfold State.startBoot
  refine .onSys (IdKept.runSteps stop dur _ (.only ?_ (refreshPower_only (.refl _ _) (sub_self _)) rfl)) _
  exact put _ _ rfl (put _ _ rfl (put _ _ rfl (h.onSys _)))

theorem IdKept.warmBoot (h : IdKept z s) (kind stop : Nat) (dur : BitVec 32) : IdKept z (s.warmBoot kind stop dur) :=
  h.warmReset.startBoot kind stop dur

theorem IdKept.writeReset (h : IdKept z s) (fn : Nat) (v : BitVec 64) (stop : Nat) (dur : BitVec 32) :
    IdKept z (s.writeReset fn v stop dur) :=
  (h.only (ignored_only fn .hubReset 0 (.refl _ _) (sub_self _)) rfl).ite ((h.warmBoot 2 stop dur).ite h)

theorem IdKept.resumeBoot (h : IdKept z s) (b : Boot) (stop : Nat) (dur : BitVec 32) :
    IdKept z (s.resumeBoot b stop dur) := by
  have h1 := IdKept.attempts stop b.step ((s.ways b.step).drop b.attempt) (b.attempt + 1) h
  unfold State.resumeBoot
  have h2 := (h.leave b.left).only (skipStep_only 11 true 2 (.refl _ _) (sub_self _)) rfl
  refine .ite (.runSteps stop dur _ (h2.afterStep 11)) ?_
  split
  next x hx =>
    rw [hx] at h1
    exact IdKept.only h1 (hangs_only _ _ _ (.refl _ _) (sub_self _)) rfl
  next pass x hx =>
    rw [hx] at h1
    have h2 := IdKept.leave h1 b.left
    exact (h2.halt b.step).ite (.runSteps stop dur _ (h2.afterStep b.step))

/-! ### Reads and writes of BAR0 (R6, R8, R496) -/

theorem IdKept.readBar0 (h : IdKept z s) (fn off : Nat) : IdKept z (s.readBar0 fn off).2 := by
  unfold State.readBar0
  split
  · exact h
  next r i _ =>
    split
    · exact h
    · split
      · exact h.only (advanceLog_only (.refl _ _) (sub_self _)) rfl
      · exact h.only (advanceTrace_only (.refl _ _) (sub_self _)) rfl
      · exact h.only (readMdata_only i (.refl _ _) (sub_self _)) rfl
      · exact h
      · exact h.clearRc r i

theorem IdKept.writeReg (h : IdKept z s) (fn : Nat) (r : RegId) (i : Nat) (v : BitVec 64) (refused : Bool)
    {rej act : State → State} (hr : ∀ x, IdKept z x → IdKept z (rej x)) (ha : ∀ x, IdKept z x → IdKept z (act x)) :
    IdKept z (s.writeReg fn r i v refused rej act) := by
  have h1 := h.clearW1c r i v
  have h2 := h1.only (logRefused_only fn (r.offset i) (.refl _ _) (sub_self _)) rfl
  exact h1.ite ((hr _ h2).ite (ha _ (h1.storeRw r i v)))

theorem IdKept.writePlain (h : IdKept z s) (fn : Nat) (r : RegId) (i : Nat) (v : BitVec 64) :
    IdKept z (s.writePlain fn r i v) :=
  .ite (h.writeReg fn r i _ _ (fun _ hx => hx.only (rejBit_only r i (.refl _ _) (sub_self _)) rfl)
      fun _ hx => hx.only (afterWrite_only r i (.refl _ _) (sub_self _)) rfl)
    (h.only (ignored_only fn r i (.refl _ _) (sub_self _)) rfl)


theorem IdKept.doorbell (h : IdKept z s) (fn m : Nat) (f : Field 16) (v : BitVec 64) (left : Option Nat)
    (hf : f.reg ≠ .hubId) {act : Nat → State → State} (ha : ∀ k x, IdKept z x → IdKept z (act k x)) :
    IdKept z (s.doorbell fn m f v left act) := by
  have h1 : IdKept z (s.putN f m (fieldOf f v)) := h.setReg _ _ _ fun hr => absurd hr hf
  have h2 := h1.only (hqStop_only m 3 (.refl _ _) (sub_self _)) rfl
  refine .ite (h.only (ignored_only fn f.reg m (.refl _ _) (sub_self _)) rfl) (h2.ite ?_)
  cases left with
  | none => exact h1
  | some k => exact h2.ite (ha _ _ h1)

theorem IdKept.writeAny (h : IdKept z s) (fn : FnId) (r : RegId) (i : Nat) (v : BitVec 64) :
    IdKept z (s.writeAny fn r i v) := by
  cases r
  case hubMsixTbl => exact h.only (writeMsix_only fn i v (.refl _ _) (sub_self _)) rfl
  case hubMsixPba => exact h
  case hubHqCfg => exact h.only (writeHqCfg_only fn i v (.refl _ _) (sub_self _)) rfl
  case hubHqSq => exact h.only (writeHqBase_only fn .hubHqSq i v (.refl _ _) (sub_self _)) rfl
  case hubHqAq => exact h.only (writeHqBase_only fn .hubHqAq i v (.refl _ _) (sub_self _)) rfl
  case hubHqRq => exact h.only (writeHqBase_only fn .hubHqRq i v (.refl _ _) (sub_self _)) rfl
  case hubHqXq => exact h.only (writeHqBase_only fn .hubHqXq i v (.refl _ _) (sub_self _)) rfl
  case hubHqXstg => exact h.only (writeHqBase_only fn .hubHqXstg i v (.refl _ _) (sub_self _)) rfl
  case hubDbSqt => exact h.doorbell fn i F.hubDbSqt_index v none (by decide) fun _ _ hx => hx
  case hubDbAqh =>
    exact h.doorbell fn i F.hubDbAqh_index v _ (by decide) fun _ _ hx =>
      hx.only (updHq_only i _ (.refl _ _) (sub_self _)) rfl
  case hubDbRqh =>
    exact h.doorbell fn i F.hubDbRqh_index v _ (by decide) fun _ _ hx =>
      (hx.only (updHq_only i _ (.refl _ _) (sub_self _)) rfl).only (drainRq_only i (.refl _ _) (sub_self _)) rfl
  case hubDbXqh =>
    exact h.doorbell fn i F.hubDbXqh_index v _ (by decide) fun _ _ hx =>
      hx.only (updHq_only i _ (.refl _ _) (sub_self _)) rfl
  case hubReset => exact h.writeReset fn v 0 0
  case hubBootpol =>
    have h1 := h.only (draw_only 1 (.refl _ _) (sub_self _)) rfl
    exact .ite (h1.only (writeBootpol_only fn v _ (.refl _ _) (sub_self _)) rfl)
      (h.only (writeBootpol_only fn v true (.refl _ _) (sub_self _)) rfl)
  case colTim => exact h.only (writeTim_only fn i v (.refl _ _) (sub_self _)) rfl
  case colStrStat => exact h.only (writeStrStat_only fn i v (.refl _ _) (sub_self _)) rfl
  case colStrRsb => exact h.only (writeRsb_only fn i v (.refl _ _) (sub_self _)) rfl
  case colStrAcc => exact h.only (writeAcc_only fn i v (.refl _ _) (sub_self _)) rfl
  case spnSta => exact h.only (writeSta_only fn i v (.refl _ _) (sub_self _)) rfl
  case memRetire => exact h.only (writeRetire_only fn v (.refl _ _) (sub_self _)) rfl
  case memSecclr => exact h.only (writeSecclr_only fn v (.refl _ _) (sub_self _)) rfl
  case memPart => exact h.only (writePart_only fn i v (.refl _ _) (sub_self _)) rfl
  case bndCtl => exact h.only (writeBndCtl_only fn v (.refl _ _) (sub_self _)) rfl
  case bndSrc => exact h.only (writeBndSrc_only fn i v (.refl _ _) (sub_self _)) rfl
  case bndCmd =>
    have h1 := h.only (drawBytes_only (fieldOf F.bndCmd_len v) (.refl _ _) (sub_self _)) rfl
    exact .ite (h1.only (writeBndCmd_only fn i v _ (.refl _ _) (sub_self _)) rfl)
      (h.only (writeBndCmd_only fn i v [] (.refl _ _) (sub_self _)) rfl)
  case bndStat => exact h.only (writeBndStat_only fn i v (.refl _ _) (sub_self _)) rfl
  case bndCase => exact h.only (writeBndCase_only fn i v (.refl _ _) (sub_self _)) rfl
  case bndLimit => exact h.only (writeBndLimit_only fn i v (.refl _ _) (sub_self _)) rfl
  case qctCtl => exact h.only (writeQctCtl_only fn _ v (.refl _ _) (sub_self _)) rfl
  case qctHold =>
    have h1 := h.only (draw_only 192 (.refl _ _) (sub_self _)) rfl
    exact .ite (h1.only (writeHold_only fn _ v _ (.refl _ _) (sub_self _)) rfl)
      (h.only (writeHold_only fn _ v 0 (.refl _ _) (sub_self _)) rfl)
  case qctRbSel => exact h.only (writeRbSel_only fn _ v (.refl _ _) (sub_self _)) rfl
  case qctRbDst => exact h.only (writeDst_only fn .qctRbDst _ v (.refl _ _) (sub_self _)) rfl
  case qctBmkDst => exact h.only (writeDst_only fn .qctBmkDst _ v (.refl _ _) (sub_self _)) rfl
  case qctBmkCtl => exact h.only (writeBmkCtl_only fn _ v (.refl _ _) (sub_self _)) rfl
  case fstPortCfg => exact h.only (writePortCfg_only fn i v (.refl _ _) (sub_self _)) rfl
  case pwrDom => exact h.only (writeDom_only fn i v (.refl _ _) (sub_self _)) rfl
  case clkAclk => exact h.only (writeAclk_only fn v (.refl _ _) (sub_self _)) rfl
  case pwrVarr => exact h.only (writeVarr_only fn v (.refl _ _) (sub_self _)) rfl
  case pwrStatus => exact h.only (writePwrStatus_only fn v (.refl _ _) (sub_self _)) rfl
  case pwrWakecfg => exact h.only (writeWakecfg_only fn v (.refl _ _) (sub_self _)) rfl
  case timAdj => exact h.only (writeTimAdj_only fn v (.refl _ _) (sub_self _)) rfl
  case timUncert => exact h.only (writeTimUncert_only fn v (.refl _ _) (sub_self _)) rfl
  case logCtl => exact h.only (writeLogCtl_only fn v (.refl _ _) (sub_self _)) rfl
  case truOtpcmd => exact h.only (writeOtpCmd_only fn v (.refl _ _) (sub_self _)) rfl
  case truAttCmd => exact h.only (writeAttCmd_only fn i v (.refl _ _) (sub_self _)) rfl
  case truAttNonce => exact h.only (writeNonce_only fn i v (.refl _ _) (sub_self _)) rfl
  case upkEng => exact h.only (writeEng_only fn i v (.refl _ _) (sub_self _)) rfl
  case upkColmap => exact h.only (writeColmap_only fn i v (.refl _ _) (sub_self _)) rfl
  case upkColrep => exact h.only (writeColrep_only fn v (.refl _ _) (sub_self _)) rfl
  case upkLane => exact h.only (writeLane_only fn v (.refl _ _) (sub_self _)) rfl
  case padHold => exact h.only (writePadHold_only fn v (.refl _ _) (sub_self _)) rfl
  case awlCtl => exact h.only (writeAwlCtl_only fn i v (.refl _ _) (sub_self _)) rfl
  case awlMaddr => exact h.only (writeMaddr_only fn i v (.refl _ _) (sub_self _)) rfl
  case awlMdata => exact h.only (writeMdata_only fn i v (.refl _ _) (sub_self _)) rfl
  all_goals exact h.writePlain fn _ i v

/-! ### Every command -/

/-- The commands that have every register in their frame keep HUB_ID all the same. -/
def IdKeptR (z : State) (r : Result) : Prop := ∀ t, r = .next t → IdKept z t

theorem IdKeptR.next (h : IdKept z t) : IdKeptR z (.next t) := by rintro _ ⟨⟩; exact h

theorem IdKeptR.fault {r : Fault} : IdKeptR z (.fault r) := by rintro _ ⟨⟩

theorem IdKeptR.ite {a b : Result} {c : Prop} [Decidable c] (ha : IdKeptR z a) (hb : IdKeptR z b) :
    IdKeptR z (if c then a else b) := by split <;> assumption

theorem IdKept.bar (h : IdKept z s) (r : RegId) (i : Nat) {f : State → State} (hf : ∀ x, IdKept z x → IdKept z (f x)) :
    IdKept z (s.bar r i f) := (hf _ h).ite h

theorem execBar0BadAccess_idKept (s : State) (fn : FnId) (off : BitVec 26) (len : Nat) (write : Bool) :
    IdKeptR s (execBar0BadAccess fn off len write s) := by
  have h := IdKept.refl s
  have emit : ∀ {x : State} (o : Out), IdKept s x → IdKept s (x.emit o) := fun o hx =>
    hx.only (emit_only o (.refl _ _) (sub_self _)) rfl
  have h1 : ∀ c code arg, IdKept s (s.logEntry c code arg) := fun c code arg =>
    h.only (logEntry_only c code arg (.refl _ _) (sub_self _)) rfl
  unfold execBar0BadAccess
  refine .ite (.next h) (.ite (.next ?_) (.ite .fault (.ite (.next (emit _ h)) (.next ?_))))
  · exact ((h1 _ _ _).ite h).ite (emit _ ((h1 _ _ _).ite h))
  · exact emit _ (h.readBar0 fn off.toNat)

theorem execRegisterWrite_idKept (s : State) (fn : FnId) (off : BitVec 26) (v : BitVec 64) :
    IdKeptR s (execRegisterWrite fn off v s) := by
  have h := IdKept.refl s
  unfold execRegisterWrite
  refine .ite .fault (.next (h.ite (.ite (h.only (logRefused_only fn _ (.refl _ _) (sub_self _)) rfl) ?_)))
  split
  · exact h.writeAny fn _ _ v
  · exact h

theorem execTelemetryUpdate_idKept (s : State) (temps : List Int) (currents : List CurrentSense) :
    IdKeptR s (execTelemetryUpdate temps currents s) := by
  have h := IdKept.refl s
  have h1 := h.only (telemetry_only temps currents (.refl _ _) (sub_self _)) rfl
  have h2 := h1.only (showReadings_only temps currents (.refl _ _) (sub_self _)) rfl
  unfold execTelemetryUpdate
  refine .ite .fault (.next (h.ite ?_))
  dsimp only
  split
  · exact .ite (h2.ite h1) ((h2.ite h1).trip _ _)
  · exact h2.ite h1

theorem IdKept.runWake (h : IdKept z s) (stop : Nat) (dur : BitVec 32) (ks : List Nat) :
    IdKept z (State.runWake stop dur ks s) := h.only (runWake_only stop dur (sub_self _) ks (.refl _ _)) rfl

theorem IdKept.raise (h : IdKept z s) (m : Nat) : IdKept z (s.raise m) := h.only (raise_only m (.refl _ _) (sub_self _)) rfl

theorem IdKept.domainsUp (h : IdKept z s) : IdKept z s.domainsUp := h.only (domainsUp_only (.refl _ _) (sub_self _)) rfl

theorem IdKept.domainsOff (h : IdKept z s) : IdKept z s.domainsOff := h.only (domainsOff_only (.refl _ _) (sub_self _)) rfl

/-- A field of another register written. -/
theorem IdKept.putN (h : IdKept z s) {w : Nat} (f : Field w) (i n : Nat) (hf : noId [.reg f.reg] = true) :
    IdKept z (s.putN f i n) := h.only (only_putN (.refl _ _) f i n (sub_self _)) hf

theorem IdKept.putF (h : IdKept z s) {w : Nat} (f : Field w) (i : Nat) (v : BitVec w) (hf : noId [.reg f.reg] = true) :
    IdKept z (s.putF f i v) := h.only (only_putF (.refl _ _) f i v (sub_self _)) hf

theorem execWakeSequence_idKept (s : State) (stop : Nat) (dur : BitVec 32) :
    IdKeptR s (execWakeSequence stop dur s) := by
  have h := IdKept.refl s
  unfold execWakeSequence
  refine .next ?_
  split
  · exact h
  next c _ =>
    refine h.ite (.ite ?_ ?_)
    · exact ((((h.onSys _).putF F.pwrStatus_trip_ev 0 1#1 rfl).hardReset.domainsUp).startBoot 1 0 0).raise 897
    · refine .runWake (.onSys (.putF (.putN (.putN (.putF (h.onSys _) F.pwrWake_fail 0 0#1 rfl) F.pwrWake_cause 0 c rfl)
        F.pwrWake_step 0 0 rfl) F.pwrWake_alt 0 0#1 rfl) _) stop dur wakeSteps

theorem execWakeStepTimeout_idKept (s : State) (stop : Nat) (dur : BitVec 32) :
    IdKeptR s (execWakeStepTimeout stop dur s) := by
  have h := IdKept.refl s
  unfold execWakeStepTimeout
  refine .next ?_
  split
  · exact h
  next w _ =>
    have h1 := (h.putN F.pwrWake_step 0 (wakeNo w.step) rfl).putF F.pwrWake_alt 0 1#1 rfl
    have h2 := h1.only (wakeAct_only w.step true (.refl _ _) (sub_self _)) rfl
    have h3 := h.only (failDomain_only (w.step - 10) (.refl _ _) (sub_self _)) rfl
    exact h.ite (.ite (.ite (h1.onSys _) ((h2.onSys _).runWake stop dur w.left))
      (.ite ((h3.onSys _).runWake stop dur w.left) (h.wakeFail _ _)))

theorem execPowerOnReset_idKept (s : State) (straps : BitVec 3) (stop : Nat) (dur : BitVec 32) :
    IdKeptR s (execPowerOnReset straps stop dur s) :=
  .next ((IdKept.refl s).ite ((((IdKept.refl s).onSys _).domainsUp).startBoot 0 stop dur))

theorem execResetNQualified_idKept (s : State) : IdKeptR s (execResetNQualified s) := by
  have h1 := (IdKept.refl s).hardReset.onSys fun y => { y with resetLow := true }
  exact .next ((IdKept.refl s).ite (h1.ite h1.domainsOff))

theorem execResetNRelease_idKept (s : State) (stop : Nat) (dur : BitVec 32) :
    IdKeptR s (execResetNRelease stop dur s) := by
  have h1 := (IdKept.refl s).onSys fun y => { y with resetLow := false }
  exact .next ((IdKept.refl s).ite ((h1.startBoot 1 stop dur).ite h1))

theorem execVinLoss_idKept (s : State) : IdKeptR s (execVinLoss s) := by
  have h1 := (IdKept.refl s).hardReset
  exact .next ((IdKept.refl s).ite (((h1.putN F.hubBoot_state 0 3 rfl).ite h1).onSys _).domainsOff)

theorem execVinReturn_idKept (s : State) (stop : Nat) (dur : BitVec 32) : IdKeptR s (execVinReturn stop dur s) := by
  have h1 := (IdKept.refl s).onSys fun y => { y with vin := true }
  exact .next ((IdKept.refl s).ite (h1.ite (h1.domainsUp.startBoot 1 stop dur)))

theorem execVsbLoss_idKept (s : State) : IdKeptR s (execVsbLoss s) :=
  .next ((IdKept.refl s).ite ((IdKept.refl s).powerRemoval.onSys _).domainsOff)

theorem execPcieHotReset_idKept (s : State) (flr : Bool) (stop : Nat) (dur : BitVec 32) :
    IdKeptR s (execPcieHotReset flr stop dur s) := by
  have h := IdKept.refl s
  have h1 : IdKept s ((List.range 17).foldl State.resetConfig s).resetPcie :=
    (h.foldl _ fun x fn hx => hx.only (resetConfig_only fn (.refl _ _) (sub_self _)) rfl).onSys _
  unfold execPcieHotReset
  refine .next (h.ite (.ite (h.warmBoot 4 stop dur) ?_))
  dsimp only
  split
  · exact .ite (h1.only (linkStep_only stop (.refl _ _) (sub_self _)) rfl) (h1.warmBoot 3 stop dur)
  · exact h1.warmBoot 3 stop dur

theorem execBootStepTimeout_idKept (s : State) (stop : Nat) (dur : BitVec 32) :
    IdKeptR s (execBootStepTimeout stop dur s) := by
  have h := IdKept.refl s
  have h1 := h.only (retryLink_only stop (.refl _ _) (sub_self _)) rfl
  unfold execBootStepTimeout
  refine .next ?_
  split
  · exact h1
  next b _ =>
    exact h1.ite (.ite ((h.only (boundTimeout_only (.refl _ _) (sub_self _)) rfl).ite
      (h.only (endS12_only false dur (.refl _ _) (sub_self _)) rfl)) (h.resumeBoot b stop dur))

/-- HUB_ID over a command: where its frame has every register, by the command's own lemma. -/
theorem exec_idKept (i : Instr) (s : State) : IdKeptR s (exec i s) := by
  have h := IdKept.refl s
  cases i
  case bar0BadAccess fn off len write => exact execBar0BadAccess_idKept s fn off len write
  case registerWrite fn off v => exact execRegisterWrite_idKept s fn off v
  case domainPowerDown d => exact .next (h.powerDown d)
  case thermalTrip sensor temp => exact .next ((h.trip sensor temp.toNat).ite h)
  case telemetryUpdate temps currents => exact execTelemetryUpdate_idKept s temps currents
  case wakeSequence stop dur => exact execWakeSequence_idKept s stop dur
  case wakeStepTimeout stop dur => exact execWakeStepTimeout_idKept s stop dur
  case powerOnReset straps stop dur => exact execPowerOnReset_idKept s straps stop dur
  case resetNQualified => exact execResetNQualified_idKept s
  case resetNRelease stop dur => exact execResetNRelease_idKept s stop dur
  case vinLoss => exact execVinLoss_idKept s
  case vinReturn stop dur => exact execVinReturn_idKept s stop dur
  case vsbLoss => exact execVsbLoss_idKept s
  case warmReset fn v stop dur => exact .next (h.bar .hubReset 0 fun x hx => hx.writeReset fn v stop dur)
  case pcieHotReset flr stop dur => exact execPcieHotReset_idKept s flr stop dur
  case bootStepTimeout stop dur => exact execBootStepTimeout_idKept s stop dur
  all_goals exact fun t ht => h.frame (exec_only s _ t ht) (by simp [frameOf])

theorem IdKept.tick (h : IdKept z s) : IdKept z s.tick := h.only (tick_only (.refl _ _) (sub_self _)) rfl

/-- Settles O8: the values after reset by evaluation; a step is a tick or a command, and both keep HUB_ID. -/
theorem identityNeverChanges : Obligations.IdentityNeverChanges := by
  unfold Obligations.IdentityNeverChanges
  refine ⟨by decide, by decide, by decide, fun s t hc hs => ?_⟩
  unfold step at hs
  split at hs
  next =>
    cases hs
    exact ((IdKept.refl s).tick hc).2
  next i rest _ => exact (exec_idKept i { s with pending := rest } t hs hc).2

end Sys2Proof.Machine
end

section
/-!
Proofs of the scope family, 4: what the resets clear and keep, and the boot that each begins (R9, R448 to R453).
-/
namespace Sys2Proof.Machine

/-! ### Changes of registers alone -/

/-- From `s` to `t` nothing changes but registers. -/
def RegsOnly (s t : State) : Prop := t = { s with regs := t.regs }

theorem RegsOnly.refl (s : State) : RegsOnly s s := rfl

theorem RegsOnly.trans {s t u : State} (h : RegsOnly s t) (k : RegsOnly t u) : RegsOnly s u := by
  unfold RegsOnly at h k ⊢
  rw [h] at k
  exact k

theorem RegsOnly.arr {s t : State} (h : RegsOnly s t) : t.arr = s.arr := by rw [h]
theorem RegsOnly.awl {s t : State} (h : RegsOnly s t) : t.awl = s.awl := by rw [h]
theorem RegsOnly.ring {s t : State} (h : RegsOnly s t) : t.ring = s.ring := by rw [h]
theorem RegsOnly.sys {s t : State} (h : RegsOnly s t) : t.sys = s.sys := by rw [h]
theorem RegsOnly.log {s t : State} (h : RegsOnly s t) : t.log = s.log := by rw [h]
theorem RegsOnly.dram {s t : State} (h : RegsOnly s t) : t.dram = s.dram := by rw [h]
theorem RegsOnly.meter {s t : State} (h : RegsOnly s t) : t.meter = s.meter := congrArg SysState.meter h.sys

theorem RegsOnly.putF {s t : State} (h : RegsOnly s t) {w : Nat} (f : Field w) (i : Nat) (v : BitVec w) :
    RegsOnly s (t.putF f i v) := h.trans rfl

theorem RegsOnly.putN {s t : State} (h : RegsOnly s t) {w : Nat} (f : Field w) (i v : Nat) : RegsOnly s (t.putN f i v) :=
  h.trans rfl

theorem RegsOnly.foldl {α : Type} {f : State → α → State} (hf : ∀ x a, RegsOnly x (f x a)) (l : List α) :
    ∀ s, RegsOnly s (l.foldl f s) := by
  induction l with
  | nil => exact .refl
  | cons a l ih => exact fun s => (hf s a).trans (ih _)

theorem RegsOnly.setVote {s t : State} (h : RegsOnly s t) (d b : Nat) (v : Bool) : RegsOnly s (t.setVote d b v) := by
  unfold State.setVote
  split
  · exact h
  · exact h.putF _ _ _

theorem regsOnly_refreshPower (s : State) : RegsOnly s s.refreshPower := by
  have h1 := ((RegsOnly.refl s).setVote 2 17 ((s.col.items.any fun x => !x.event) ||
    (List.range 64).any fun t => s.bitF F.colTim_en t)).setVote 3 17 ((s.col.items.any fun x => !x.event) ||
    (List.range 64).any fun t => s.bitF F.colTim_en t)
  have h2 := h1.trans (RegsOnly.foldl (f := fun x d => x.putN F.pwrDom_holdup d (if x.holdUp d then 1 else 0))
    (fun x d => (RegsOnly.refl x).putN _ _ _) domainOrder _)
  exact h2.putN _ _ _

theorem regsOnly_domainsOff (s : State) : RegsOnly s s.domainsOff :=
  (RegsOnly.foldl (f := fun x d => x.setDom d Dom.off) (fun x _ => (RegsOnly.refl x).putN _ _ _) domainOrder s).trans
    (regsOnly_refreshPower _)

theorem regsOnly_domainsUp (s : State) : RegsOnly s s.domainsUp :=
  RegsOnly.foldl (f := fun x d => x.setDom d Dom.on) (fun x _ => (RegsOnly.refl x).putN _ _ _) domainOrder s

theorem regsOnly_keepUnloaded (s : State) : RegsOnly s s.keepUnloaded := by
  unfold State.keepUnloaded
  split
  · exact RegsOnly.foldl (f := fun x g => x.setF F.gthCfg_unloaded g) (fun x _ => (RegsOnly.refl x).putF _ _ _) _ s
  · exact .refl s

theorem regsOnly_keepBanks (s old : State) (bs : List Nat) : RegsOnly s (bs.foldl (fun x b => x.keepBank old b) s) :=
  RegsOnly.foldl (fun x _ => ((RegsOnly.refl x).putN _ _ _).putF _ _ _) bs s

theorem regsOnly_resetConfigs (s : State) (fns : List Nat) : RegsOnly s (fns.foldl State.resetConfig s) :=
  RegsOnly.foldl (f := State.resetConfig) (fun _ _ => rfl) fns s

/-! ### Domains that all go off -/

theorem domState_foldl_setDom (st d : Nat) (hst : st < 8) (ds : List Nat) :
    ∀ s : State, (ds.foldl (fun x e => x.setDom e st) s).domState d = if d ∈ ds then st else s.domState d := by
  induction ds with
  | nil => intro s; simp
  | cons e ds ih =>
    intro s
    rw [List.foldl_cons, ih]
    by_cases hd : d ∈ ds
    · simp [hd]
    · by_cases he : d = e
      · subst he
        simp only [hd, if_false, List.mem_cons, true_or, if_true]
        exact (State.getN_putN_self s F.pwrDom_state d st (by decide)).trans (Nat.mod_eq_of_lt hst)
      · simp only [hd, he, List.mem_cons, or_self, if_false]
        exact State.getN_putN_index s F.pwrDom_state F.pwrDom_state st (Ne.symm he)

theorem domState_setVote (s : State) (d b e : Nat) (v : Bool) : (s.setVote d b v).domState e = s.domState e := by
  unfold State.setVote
  split
  · rfl
  · exact congrArg BitVec.toNat (State.getF_putF_apart s F.pwrDom_vote F.pwrDom_state d e _ (by decide))

theorem domState_putHoldups (ds : List Nat) (e : Nat) : ∀ s : State,
    (ds.foldl (fun x d => x.putN F.pwrDom_holdup d (if x.holdUp d then 1 else 0)) s).domState e = s.domState e := by
  induction ds with
  | nil => exact fun _ => rfl
  | cons d ds ih =>
    exact fun s => (ih _).trans (State.getN_putN_apart s F.pwrDom_holdup F.pwrDom_state d e _ (by decide))

/-- What the hardware shows of the domains leaves their states as they are. -/
theorem domState_refreshPower (s : State) (e : Nat) : s.refreshPower.domState e = s.domState e := by
  unfold State.refreshPower
  refine (State.getN_putN_apart _ F.pwrStatus_point F.pwrDom_state 0 e _ (by decide)).trans ?_
  refine (domState_putHoldups domainOrder e _).trans ?_
  rw [domState_setVote, domState_setVote]

theorem domState_domainsOff (s : State) {d : Nat} (h2 : 2 ≤ d) (h9 : d ≤ 9) : s.domainsOff.domState d = Dom.off := by
  have hd : d ∈ domainOrder := by simp only [domainOrder, List.mem_cons]; omega
  unfold State.domainsOff
  rw [domState_refreshPower, domState_foldl_setDom Dom.off d (by decide), if_pos hd]

/-! ### What an event leaves of the registers -/

/-- Every register but the listed ones and HUB_ID has its reset value where its bits do not survive the event. -/
def Lost (e : Nat) (kept : List RegId) (t : State) : Prop :=
  ∀ r i, r ∉ kept → r ≠ .hubId → t.reg r i &&& ~~~r.survMask e = r.resetVal i &&& ~~~r.survMask e

theorem lost_loseRegs {s : State} (h : s.canonical = true) (e : Nat) : Lost e [] (s.loseRegs e fun _ _ => true) := by
  intro r i _ hr
  rw [reg_loseRegs h, if_pos rfl, after_lost r e i _ hr]

/-- A change of some registers adds them to those that are kept. -/
theorem Lost.only {e : Nat} {kept kept' : List RegId} {s t : State} {ps : List Part} (h : Lost e kept s)
    (k : State.Only ps s t) (hk : kept ⊆ kept') (hp : ∀ r, Part.reg r ∈ ps → r ∈ kept') : Lost e kept' t := by
  intro r i hr hid
  rw [k.reg_eq r i fun hm => hr (hp r hm)]
  exact h r i (fun hm => hr (hk hm)) hid

theorem Lost.mono {e : Nat} {kept kept' : List RegId} {t : State} (h : Lost e kept t) (hk : kept ⊆ kept') :
    Lost e kept' t := fun r i hr => h r i fun hm => hr (hk hm)

theorem Lost.regs {e : Nat} {kept : List RegId} {s t : State} (h : Lost e kept s) (ht : t.regs = s.regs) :
    Lost e kept t := by
  intro r i hr hid
  rw [← h r i hr hid]
  simp only [State.reg, ht]

/-- The state that the registers are lost from. -/
theorem canonical_endAll {s : State} (h : s.canonical = true) : s.abortAll.endAll.clearDie.canonical = true :=
  (clearDie_only (.refl _ _) (sub_self _)).form <| (endAll_only (.refl _ _) (sub_self _)).form <|
    (abortAll_only (.refl _ _) (sub_self _)).form h

theorem lost_keepUnloaded {s : State} (h : s.canonical = true) (e : Nat) :
    Lost e [.gthCfg] (s.abortAll.endAll.clearDie.loseRegs e fun _ _ => true).keepUnloaded :=
  (lost_loseRegs (canonical_endAll h) e).only (keepUnloaded_only (.refl _ _) (sub_self _)) (List.nil_subset _) (by simp)

theorem lost_hardReset {s : State} (h : s.canonical = true) : Lost Ev.h [.gthCfg, .padBank] s.hardReset := by
  have k := State.Only.foldl_ (ps := [.reg .padBank]) ((List.range 8).filter s.bankHeld) (f := fun x b => x.keepBank s b)
    (fun x b hx => keepBank_only s b hx (sub_self _))
    (.refl _ (s.abortAll.endAll.clearDie.loseRegs Ev.h fun _ _ => true).keepUnloaded)
  exact ((lost_keepUnloaded h Ev.h).only k (by simp) (by simp)).regs rfl

theorem lost_warmReset {s : State} (h : s.canonical = true) : Lost Ev.w [.clkStat, .gthCfg] s.warmReset := by
  have k := only_putF (only_putF (only_putF (only_putF
    (.refl [.reg .clkStat] (s.abortAll.endAll.clearDie.loseRegs Ev.w fun _ _ => true).keepUnloaded)
    F.clkStat_alock 0 (s.getF F.clkStat_alock 0) (sub_self _)) F.clkStat_rlock 0 (s.getF F.clkStat_rlock 0) (sub_self _))
    F.clkStat_aband 0 (s.getF F.clkStat_aband 0) (sub_self _)) F.clkStat_rband 0 (s.getF F.clkStat_rband 0) (sub_self _)
  exact (lost_keepUnloaded h Ev.w).only k (by simp) (by simp)

theorem lost_powerRemoval {s : State} (h : s.canonical = true) : Lost Ev.n [] s.powerRemoval :=
  (lost_loseRegs ((clearDie_only (.refl _ _) (sub_self _)).form h) Ev.n).regs rfl

theorem Lost.domainsOff {e : Nat} {kept kept' : List RegId} {s : State} (h : Lost e kept s) (hk : kept ⊆ kept')
    (hd : .pwrDom ∈ kept') (hs : .pwrStatus ∈ kept') : Lost e kept' s.domainsOff :=
  h.only (domainsOff_only (.refl _ _) (sub_self _)) hk (by simp [hd, hs])

/-! ### What a reset empties -/

theorem hardReset_empties (s : State) : s.hardReset.arr = {} ∧ s.hardReset.awl = {} ∧ s.hardReset.ring = {} ∧
    s.hardReset.sys.jobs = [] ∧ s.hardReset.sys.current = none ∧ s.hardReset.sys.tclk = false := by
  have h := (regsOnly_keepUnloaded (s.abortAll.endAll.clearDie.loseRegs Ev.h fun _ _ => true)).trans
    (regsOnly_keepBanks _ s ((List.range 8).filter s.bankHeld))
  unfold State.hardReset
  dsimp only
  rw [h]
  exact ⟨rfl, rfl, rfl, rfl, rfl, rfl⟩

theorem warmReset_empties (s : State) : s.warmReset.arr = {} ∧ s.warmReset.awl = {} := by
  have h := regsOnly_keepUnloaded (s.abortAll.endAll.clearDie.loseRegs Ev.w fun _ _ => true)
  unfold State.warmReset
  dsimp only
  rw [h]
  exact ⟨rfl, rfl⟩

/-- The loops keep lock over a warm reset. -/
theorem warmReset_locks (s : State) : s.warmReset.bitF F.clkStat_alock 0 = s.bitF F.clkStat_alock 0 ∧
    s.warmReset.bitF F.clkStat_rlock 0 = s.bitF F.clkStat_rlock 0 := by
  unfold State.warmReset State.bitF
  constructor
  · rw [State.getF_putF_apart _ F.clkStat_rband F.clkStat_alock _ _ _ (by decide),
      State.getF_putF_apart _ F.clkStat_aband F.clkStat_alock _ _ _ (by decide),
      State.getF_putF_apart _ F.clkStat_rlock F.clkStat_alock _ _ _ (by decide), State.getF_putF_self _ F.clkStat_alock]
  · rw [State.getF_putF_apart _ F.clkStat_rband F.clkStat_rlock _ _ _ (by decide),
      State.getF_putF_apart _ F.clkStat_aband F.clkStat_rlock _ _ _ (by decide), State.getF_putF_self _ F.clkStat_rlock]

/-! ### The resets -/

/-- R449: a hard reset that holds the device. -/
theorem resetNQualified_completes {s : State} (h : s.canonical = true) (hvsb : s.sys.vsb = true)
    (hlow : s.sys.resetLow = false) : Completes .resetNQualified s fun t =>
      Lost Ev.h [.gthCfg, .padBank, .pwrDom, .pwrStatus] t ∧ t.sys.resetLow = true ∧ t.arr = {} ∧ t.awl = {} ∧
      t.ring = {} ∧ t.sys.jobs = [] ∧ t.sys.current = none ∧ t.sys.tclk = false := by
  obtain ⟨harr, hawl, hring, hjobs, hcur, htclk⟩ := hardReset_empties s
  have hl := lost_hardReset h
  refine ⟨_, rfl, ?_⟩
  rw [if_neg (by simp [hvsb, hlow])]
  dsimp only
  generalize s.hardReset = u at *
  split
  · exact ⟨Lost.mono (hl.regs rfl) (by simp), rfl, harr, hawl, hring, hjobs, hcur, htclk⟩
  · refine ⟨Lost.domainsOff (hl.regs rfl) (by simp) (by simp) (by simp), ?_⟩
    have k := regsOnly_domainsOff (u.onSys fun y => { y with resetLow := true })
    rw [k.sys]
    exact ⟨rfl, k.arr.trans harr, k.awl.trans hawl, k.ring.trans hring, hjobs, hcur, htclk⟩

/-- R450: main power goes, as a hard reset, and domains 2 to 9 with it. -/
theorem vinLoss_completes {s : State} (h : s.canonical = true) (hvsb : s.sys.vsb = true) (hvin : s.sys.vin = true) :
    Completes .vinLoss s fun t => Lost Ev.h [.gthCfg, .padBank, .pwrDom, .pwrStatus, .hubBoot] t ∧ t.sys.vin = false ∧
      t.arr = {} ∧ t.awl = {} ∧ t.ring = {} ∧ ∀ d, 2 ≤ d → d ≤ 9 → t.domState d = Dom.off := by
  obtain ⟨harr, hawl, hring, -⟩ := hardReset_empties s
  have hl := lost_hardReset h
  refine ⟨_, rfl, ?_⟩
  rw [if_neg (by simp [hvsb, hvin])]
  dsimp only
  generalize s.hardReset = u at *
  have k : Lost Ev.h [.gthCfg, .padBank, .hubBoot] (if s.getN F.hubBoot_state 0 == 3 then u.putN F.hubBoot_state 0 3 else u) ∧
      RegsOnly u (if s.getN F.hubBoot_state 0 == 3 then u.putN F.hubBoot_state 0 3 else u) := by
    split
    · exact ⟨hl.only (only_putN (.refl _ _) F.hubBoot_state 0 3 (sub_self _)) (by simp) (by simp [F.hubBoot_state]),
        (RegsOnly.refl u).putN _ _ _⟩
    · exact ⟨hl.mono (by simp), .refl u⟩
  obtain ⟨hl', hu⟩ := k
  generalize (if s.getN F.hubBoot_state 0 == 3 then u.putN F.hubBoot_state 0 3 else u) = v at *
  have k := regsOnly_domainsOff (v.onSys fun y => { y with vin := false })
  exact ⟨Lost.domainsOff (hl'.regs rfl) (by simp) (by simp) (by simp), congrArg (·.vin) k.sys, k.arr.trans (hu.arr.trans harr),
    k.awl.trans (hu.awl.trans hawl), k.ring.trans (hu.ring.trans hring), fun d h2 h9 => domState_domainsOff _ h2 h9⟩

/-- R450, R452: standby power goes: flash and the meter's counts stay. -/
theorem vsbLoss_completes {s : State} (h : s.canonical = true) (hvsb : s.sys.vsb = true) :
    Completes .vsbLoss s fun t => Lost Ev.n [.pwrDom, .pwrStatus] t ∧ t.sys.vsb = false ∧
      t.arr = {} ∧ t.awl = {} ∧ t.ring = {} ∧ t.log = {} ∧ t.dram = {} ∧ t.sys.flash = s.sys.flash ∧
      t.meter.cnt = s.meter.cnt ∧ ∀ d, 2 ≤ d → d ≤ 9 → t.domState d = Dom.off := by
  have hl := lost_powerRemoval h
  refine ⟨_, rfl, ?_⟩
  rw [if_neg (by simp [hvsb])]
  have k := regsOnly_domainsOff (s.powerRemoval.onSys fun y => { y with vsb := false, resetLow := false, perst := false })
  exact ⟨Lost.domainsOff (hl.regs rfl) (by simp) (by simp) (by simp), congrArg (·.vsb) k.sys, k.arr, k.awl, k.ring, k.log,
    k.dram, congrArg (·.flash) k.sys, congrArg (·.cnt) k.meter, fun d h2 h9 => domState_domainsOff _ h2 h9⟩

/-! ### The boots -/

/-- A boot of a kind from a state. -/
def Boots (kind stop : Nat) (dur : BitVec 32) (z t : State) : Prop :=
  t = z.startBoot kind stop dur ∧ t.sys.powerLost = false ∧ t.sys.fresh = []

theorem boots_startBoot (kind stop : Nat) (dur : BitVec 32) (z : State) :
    Boots kind stop dur z (z.startBoot kind stop dur) := ⟨rfl, rfl, rfl⟩

theorem domainsUp_onSys (s : State) (f : SysState → SysState) : (s.onSys f).domainsUp.regs = s.domainsUp.regs := rfl

theorem powerOnReset_boots {s : State} (straps : BitVec 3) (stop : Nat) (dur : BitVec 32) (hp : s.sys.powerLost = true) :
    Completes (.powerOnReset straps stop dur) s fun t => ∃ z, Boots 0 stop dur z t ∧ z.regs = s.domainsUp.regs ∧
      z.sys.straps = straps ∧ z.sys.vsb = true ∧ z.sys.vin = true ∧ z.sys.resetLow = false := by
  refine ⟨_, rfl, (s.onSys fun y => { y with straps, vsb := true, vin := true, resetLow := false }).domainsUp, ?_⟩
  rw [if_neg (by simp [hp])]
  refine ⟨boots_startBoot .., domainsUp_onSys .., ?_⟩
  rw [(regsOnly_domainsUp _).sys]
  exact ⟨rfl, rfl, rfl, rfl⟩

theorem resetNRelease_boots {s : State} (stop : Nat) (dur : BitVec 32) (hlow : s.sys.resetLow = true)
    (hvin : s.sys.vin = true) (hvsb : s.sys.vsb = true) : Completes (.resetNRelease stop dur) s fun t =>
      ∃ z, Boots 1 stop dur z t ∧ z.regs = s.regs ∧ z.sys.resetLow = false := by
  refine ⟨_, rfl, s.onSys fun y => { y with resetLow := false }, ?_⟩
  rw [if_neg (by simp [hlow])]
  have hp : ((s.onSys fun y => { y with resetLow := false }).sys.vin &&
      (s.onSys fun y => { y with resetLow := false }).sys.vsb) = true := by simp [State.onSys, hvin, hvsb]
  dsimp only
  rw [if_pos hp]
  exact ⟨boots_startBoot .., rfl, rfl⟩

theorem vinReturn_boots {s : State} (stop : Nat) (dur : BitVec 32) (hvin : s.sys.vin = false) (hvsb : s.sys.vsb = true)
    (hlow : s.sys.resetLow = false) (hst : s.getN F.hubBoot_state 0 ≠ 3) : Completes (.vinReturn stop dur) s fun t =>
      ∃ z, Boots 1 stop dur z t ∧ z.sys.vin = true ∧ z.regs = s.domainsUp.regs := by
  refine ⟨_, rfl, (s.onSys fun y => { y with vin := true }).domainsUp, ?_⟩
  have hs : (s.onSys fun y => { y with vin := true }).getN F.hubBoot_state 0 ≠ 3 := hst
  have hl : (s.onSys fun y => { y with vin := true }).sys.resetLow = false := hlow
  rw [if_neg (by simp [hvin, hvsb])]
  dsimp only
  rw [if_neg (by rw [hl, Bool.false_or, beq_iff_eq]; exact hs)]
  refine ⟨boots_startBoot .., ?_, domainsUp_onSys ..⟩
  rw [(regsOnly_domainsUp _).sys]
  rfl

theorem warmReset_boots {s : State} (h : s.canonical = true) (v : BitVec 64) (stop : Nat) (dur : BitVec 32)
    (hopen : s.barOpen (RegId.hubReset.offset 0) = true) (hv : v.getLsbD 0 = true) (ha : s.alive = true) :
    Completes (.warmReset 0 v stop dur) s fun t => ∃ z, Boots 2 stop dur z t ∧ Lost Ev.w [.clkStat, .gthCfg] z ∧
      z.bitF F.clkStat_alock 0 = s.bitF F.clkStat_alock 0 ∧ z.bitF F.clkStat_rlock 0 = s.bitF F.clkStat_rlock 0 ∧
      z.arr = {} ∧ z.awl = {} := by
  obtain ⟨halock, hrlock⟩ := warmReset_locks s
  obtain ⟨harr, hawl⟩ := warmReset_empties s
  refine ⟨_, rfl, s.warmReset, ?_, lost_warmReset h, halock, hrlock, harr, hawl⟩
  rw [bar_open hopen, State.writeReset, if_neg (by simp), if_pos (by simp [hv, ha])]
  exact boots_startBoot ..

theorem pcieHotReset_flr_boots {s : State} (h : s.canonical = true) (stop : Nat) (dur : BitVec 32) (ha : s.alive = true)
    (hd : s.domOn 5 = true) : Completes (.pcieHotReset true stop dur) s fun t => ∃ z, Boots 4 stop dur z t ∧
      Lost Ev.w [.clkStat, .gthCfg] z := by
  refine ⟨_, rfl, s.warmReset, ?_, lost_warmReset h⟩
  rw [if_neg (by simp [ha, hd]), if_pos rfl]
  exact boots_startBoot ..

theorem pcieHotReset_boots {s : State} (h : s.canonical = true) (stop : Nat) (dur : BitVec 32) (ha : s.alive = true)
    (hd : s.domOn 5 = true) (hb : s.sys.boot = none) : Completes (.pcieHotReset false stop dur) s fun t =>
      ∃ z, Boots 3 stop dur z t ∧ Lost Ev.w [.clkStat, .gthCfg] z := by
  have hc : ((List.range 17).foldl State.resetConfig s).resetPcie.canonical = true :=
    (resetPcie_only (.refl _ _) (sub_self _)).form <| State.Only.form
      (.foldl_ (ps := [.reg .hubB2win, .reg .hubMsixTbl, .reg .hubMsixPba]) (List.range 17) (f := State.resetConfig)
        (fun x fn hx => resetConfig_only fn hx (sub_self _)) (.refl _ _)) h
  have hbt : ((List.range 17).foldl State.resetConfig s).resetPcie.sys.boot = none :=
    (congrArg (·.boot) (regsOnly_resetConfigs s (List.range 17)).sys).trans hb
  refine ⟨_, rfl, ((List.range 17).foldl State.resetConfig s).resetPcie.warmReset, ?_, lost_warmReset hc⟩
  rw [if_neg (by simp [ha, hd]), if_neg (by simp)]
  dsimp only
  rw [hbt]
  exact boots_startBoot ..

/-- Settles O57: each reset by the registers that it loses and the parts that it empties, each boot by the state that it
begins in. -/
theorem resetsAndBoots : Obligations.ResetsAndBoots := by
  intro s h
  refine ⟨resetNQualified_completes h, fun hvsb hvin => vinLoss_completes h hvsb hvin, vsbLoss_completes h, ?_⟩
  intro straps stop dur
  exact ⟨powerOnReset_boots straps stop dur, resetNRelease_boots stop dur, vinReturn_boots stop dur,
    fun v => warmReset_boots h v stop dur, pcieHotReset_flr_boots h stop dur, pcieHotReset_boots h stop dur⟩

end Sys2Proof.Machine
end

section
/-!
Proofs of the scope family, 5: DRAM bytes after a write (R333), and the host's windows into DRAM and the registers (R6, R8,
R283, R284).
-/
namespace Sys2Proof.Machine

/-! ### Bytes of DRAM after a write -/

theorem length_leBytes (n : Nat) : ∀ k, (leBytes n k).length = k
  | 0 => rfl
  | k + 1 => congrArg (· + 1) (length_leBytes _ k)

theorem get_foldl_set {α : Type} [DecidableEq α] (d : Nat → α) (a x : Nat) : ∀ (bs : List α) (k : Nat) (m : Sparse α),
    ((bs.zipIdx k).foldl (fun m p => m.set d (a + p.2) p.1) m).get d x =
      if a + k ≤ x then (bs[x - (a + k)]?).getD (m.get d x) else m.get d x
  | [], k, m => by simp
  | b :: bs, k, m => by
    rw [List.zipIdx_cons, List.foldl_cons, get_foldl_set d a x bs (k + 1), Sparse.get_set]
    by_cases h1 : a + k = x
    · subst h1; simp
    · by_cases h2 : a + k ≤ x
      · have h3 : a + (k + 1) ≤ x := by omega
        have h4 : x - (a + k) = x - (a + (k + 1)) + 1 := by omega
        simp [h1, h2, h3, h4]
      · have h3 : ¬ a + (k + 1) ≤ x := by omega
        simp [h1, h2, h3]

theorem dramByte_putBytes (s : State) (a : Nat) (bs : List Byte) (i : Nat) :
    (s.putBytes a bs).dramByte (a + i) = (bs[i]?).getD (s.dramByte (a + i)) := by
  have h := get_foldl_set dramDefault a (a + i) bs 0 s.dram
  simpa [State.putBytes, State.dramByte] using h

/-- A sector outside the Collator partition holds its bytes as they were written (R337). -/
theorem mirroredSector_none (s : State) {n : Nat} (h : inCollator n = false) : s.mirroredSector n = none := by
  have hn : ¬ (3324 * 2 ^ 18 ≤ n ∧ n < 3840 * 2 ^ 18) := by simpa only [inCollator, decide_eq_false_iff_not] using h
  have hp : ledgerPlace n = none := by
    unfold ledgerPlace collS0
    rw [if_neg (by omega), if_neg (by omega)]
  have hi : s.indexSector n = none := by
    unfold State.indexSector collS0
    dsimp only
    rw [if_neg (by omega), if_neg (by omega)]
  simp [State.mirroredSector, State.ledgerSector, hp, hi]

/-- What a sector's write leaves as its 60 data bytes. -/
theorem take_sectorBytes_writeSector (s : State) {n : Nat} {data : List Byte} (hn : inCollator n = false)
    (hd : data.length = 60) : ((s.writeSector n data).sectorBytes n).take 60 = data := by
  have hm := mirroredSector_none (s.writeSector n data) hn
  simp only [State.sectorBytes, hm]
  refine List.ext_getElem (by simp [hd]) fun i h1 h2 => ?_
  have h3 : i < 60 := by omega
  simp [State.writeSector, dramByte_putBytes, List.getElem?_append_left h2, List.getElem?_eq_getElem h2]

/-! ### Bytes replaced in a sector -/

theorem getElem?_foldl_set_of_notMem {α : Type} (b : Nat) : ∀ (ps : List (Nat × α)) (d : List α), (∀ p ∈ ps, p.1 ≠ b) →
    (ps.foldl (fun d p => d.set p.1 p.2) d)[b]? = d[b]?
  | [], _, _ => rfl
  | p :: ps, d, h => by
    obtain ⟨hp, hps⟩ := List.forall_mem_cons.mp h
    rw [List.foldl_cons, getElem?_foldl_set_of_notMem b ps _ hps, List.getElem?_set_ne hp]

theorem length_foldl_set {α : Type} : ∀ (ps : List (Nat × α)) (d : List α),
    (ps.foldl (fun d p => d.set p.1 p.2) d).length = d.length
  | [], _ => rfl
  | _ :: ps, _ => (length_foldl_set ps _).trans List.length_set

/-- The last value set at a place stands. -/
theorem getElem?_foldl_set_last {α : Type} {b : Nat} {v : α} (xs ys : List (Nat × α)) {d : List α} (hb : b < d.length)
    (h : ∀ p ∈ ys, p.1 ≠ b) : ((xs ++ (b, v) :: ys).foldl (fun d p => d.set p.1 p.2) d)[b]? = some v := by
  rw [List.foldl_append, List.foldl_cons, getElem?_foldl_set_of_notMem b ys _ h]
  exact List.getElem?_set_self (by rw [length_foldl_set]; exact hb)

/-! ### BAR2 (R283, R284) -/

section
variable {s t : State} {ps : List Part}

theorem bar2Place_only (k : State.Only ps s t) (hp : Part.reg .hubB2win ∉ ps) (fn size o : Nat) :
    t.bar2Place fn size o = s.bar2Place fn size o := by
  unfold State.bar2Place
  rw [k.getN F.hubB2win_wbase fn hp, k.getN F.hubB2win_sbase fn hp]

theorem bar2Open_only (k : State.Only ps s t) (hs : Part.reg .memStat ∉ ps) (hp : Part.reg .memPart ∉ ps) (fn n : Nat) :
    t.bar2Open fn n = s.bar2Open fn n := by
  unfold State.bar2Open State.usableSectors State.partSectors
  rw [k.getN F.memStat_usable 0 hs, k.getN F.memPart_base fn hp, k.getN F.memPart_size fn hp]

end

theorem not_inCollator_of_bar2Open {s : State} {fn n : Nat} (h : s.bar2Open fn n = true) : inCollator n = false := by
  unfold State.bar2Open at h
  simp only [Bool.and_eq_true, Bool.not_eq_true'] at h
  exact h.1.2

/-- Every byte of an access to one sector lies there. -/
theorem bar2Place_fst_of_sectors {s : State} {fn size off len n i : Nat} (h : s.bar2Sectors fn size off len = [n])
    (hi : i < len) : (s.bar2Place fn size (off + i)).1 = n := by
  have hm : (s.bar2Place fn size (off + i)).1 ∈ s.bar2Sectors fn size off len :=
    List.mem_eraseDups.mpr (List.mem_map.mpr ⟨i, List.mem_range.mpr hi, rfl⟩)
  rw [h] at hm
  exact List.mem_singleton.mp hm

theorem bar2Size_setBar2 (s : State) (fn size : Nat) : ((s.setBar2 fn size).sys.pcie.at fn).bar2Size = size := by
  simp [State.setBar2, State.updPcie]

/-- What a read answers with its bytes in the state that the checked reads leave. -/
def State.bar2Answer (s : State) (fn size off len : Nat) : List Byte :=
  (List.range len).map fun i =>
    match s.bar2Place fn size (off + i) with
    | (n, some b) => if s.bar2Open fn n then s.dramByte (64 * n + b) else 0
    | (_, none) => 0

section
variable {s : State} {fn : FnId} {size off n : Nat}

theorem bar2Answer_closed {len : Nat} (hn : s.bar2Sectors fn size off len = [n]) (hc : s.bar2Open fn n = false) :
    s.bar2Answer fn size off len = List.replicate len 0 := by
  refine List.eq_replicate_iff.mpr ⟨by simp [State.bar2Answer], fun b hb => ?_⟩
  obtain ⟨i, hi, rfl⟩ := List.mem_map.mp hb
  have hk := bar2Place_fst_of_sectors hn (List.mem_range.mp hi)
  rcases hp : s.bar2Place fn size (off + i) with ⟨k, _ | b⟩
  · rfl
  · rw [hp] at hk
    simp only [show k = n from hk, hc, Bool.false_eq_true, if_false]

theorem bar2Answer_open {len : Nat} (hn : s.bar2Sectors fn size off len = [n]) (ho : s.bar2Open fn n = true) :
    s.bar2Answer fn size off len = (List.range len).map fun i =>
      match (s.bar2Place fn size (off + i)).2 with
      | some b => s.dramByte (64 * n + b)
      | none => 0 := by
  refine List.map_congr_left fun i hi => ?_
  have hk := bar2Place_fst_of_sectors hn (List.mem_range.mp hi)
  rcases hp : s.bar2Place fn size (off + i) with ⟨k, _ | b⟩
  · rfl
  · rw [hp] at hk
    simp only [show k = n from hk, ho, if_true]

/-- A read of one sector: checked where it is open, and not at all where it is not. -/
theorem exec_bar2Read_single {len : Nat} (hin : bar2Inside fn size off len = true) (hh : s.hostOn = true)
    (hn : s.bar2Sectors fn size off len = [n]) : exec (.bar2Read fn size off len) s = .next
      (if s.bar2Open fn n = true then
        let p := (s.setBar2 fn size).readSector n 0
        if p.1.isSome then p.2.emit (.readData fn (p.2.bar2Answer fn size off len)) else p.2.emit (.poisoned fn)
      else (s.setBar2 fn size).emit (.readData fn ((s.setBar2 fn size).bar2Answer fn size off len))) := by
  have hz : (s.setBar2 fn size).bar2Sectors fn size off len = [n] := hn
  have ho : (s.setBar2 fn size).bar2Open fn n = s.bar2Open fn n := rfl
  change execBar2Read fn size off len s = _
  unfold execBar2Read
  rw [if_neg (by simp [hin]), if_neg (by simp [hh])]
  dsimp only
  rw [hz]
  by_cases hc : s.bar2Open fn n = true
  · simp only [List.filter_cons, ho, hc, if_true, List.filter_nil, List.foldl_cons, List.foldl_nil, Bool.true_and]
    rfl
  · simp only [List.filter_cons, ho, hc, Bool.false_eq_true, if_false, List.filter_nil, List.foldl_nil, if_true]
    rfl

/-- What the checked read of a sector leaves: BAR2 reaches the same places, and the same sectors are open. -/
theorem bar2_readSector {s1 : State} {d : Option (List Byte)} {m : Nat} (h : (s.setBar2 fn size).readSector m 0 = (d, s1)) :
    (∀ o, s1.bar2Place fn size o = s.bar2Place fn size o) ∧ ∀ k, s1.bar2Open fn k = s.bar2Open fn k := by
  have k := readSector_only m 0 (.refl _ (s.setBar2 fn size)) (sub_self _)
  rw [h] at k
  exact ⟨fun o => bar2Place_only k (by simp) fn size o, fun j => bar2Open_only k (by simp) (by simp) fn j⟩

theorem bar2Sectors_of_place {s1 : State} {len : Nat} (h : ∀ o, s1.bar2Place fn size o = s.bar2Place fn size o) :
    s1.bar2Sectors fn size off len = s.bar2Sectors fn size off len := by
  unfold State.bar2Sectors
  simp only [h]

/-- A write of one sector. -/
theorem exec_bar2Write_single {bytes : List Byte} (hin : bar2Inside fn size off bytes.length = true) (hh : s.hostOn = true)
    (hn : s.bar2Sectors fn size off bytes.length = [n]) : exec (.bar2Write fn size off bytes) s = .next
      (if s.bar2Open fn n = false then (s.setBar2 fn size).bar2Log
      else match (s.setBar2 fn size).readSector n 0 with
        | (none, t) => t.bar2Log
        | (some data, t) =>
          t.writeSector n ((s.bar2Bytes fn size off bytes n).foldl (fun d p => d.set p.1 p.2) data)) := by
  change execBar2Write fn size off bytes s = _
  unfold execBar2Write
  rw [if_neg (by simp [hin]), if_neg (by simp [hh]), hn]
  rfl

/-- Where a byte of a write that lies in sector `n` lands. -/
def State.bar2Byte (s : State) (fn size off n : Nat) (p : Byte × Nat) : Option (Nat × Byte) :=
  match s.bar2Place fn size (off + p.2) with
  | (k, some b) => if k = n ∧ b < 60 then some (b, p.1) else none
  | _ => none

theorem bar2Bytes_eq (bytes : List Byte) : s.bar2Bytes fn size off bytes n =
    bytes.zipIdx.filterMap (s.bar2Byte fn size off n) := rfl

theorem bar2Byte_place {p : Byte × Nat} {b : Nat} {v : Byte} (h : s.bar2Byte fn size off n p = some (b, v)) :
    (s.bar2Place fn size (off + p.2)).2 = some b := by
  unfold State.bar2Byte at h
  rcases hp : s.bar2Place fn size (off + p.2) with ⟨k, _ | c⟩ <;> rw [hp] at h
  · cases h
  · dsimp only at h
    split at h <;> cases h
    rfl

theorem bar2Byte_of_place {p : Byte × Nat} {b : Nat} (hk : (s.bar2Place fn size (off + p.2)).1 = n)
    (hb : (s.bar2Place fn size (off + p.2)).2 = some b) (h60 : b < 60) :
    s.bar2Byte fn size off n p = some (b, p.1) := by
  unfold State.bar2Byte
  rcases hp : s.bar2Place fn size (off + p.2) with ⟨k, c⟩
  rw [hp] at hk hb
  obtain rfl : k = n := hk
  obtain rfl : c = some b := hb
  simp [h60]

/-- A byte that no byte of the write reaches stays. -/
theorem bar2Bytes_keep (bytes d : List Byte) {b : Nat}
    (h : ∀ i < bytes.length, (s.bar2Place fn size (off + i)).2 ≠ some b) :
    ((s.bar2Bytes fn size off bytes n).foldl (fun d p => d.set p.1 p.2) d)[b]? = d[b]? := by
  refine getElem?_foldl_set_of_notMem b _ d fun p hp hb => ?_
  obtain ⟨q, hq, he⟩ := List.mem_filterMap.mp (bar2Bytes_eq (s := s) bytes ▸ hp)
  obtain ⟨c, v⟩ := p
  obtain rfl : c = b := hb
  have hlt : q.2 < bytes.length := by simpa using (List.mem_zipIdx hq).2.1
  exact h q.2 hlt (bar2Byte_place he)

/-- The last byte of the write that reaches a place stands there. -/
theorem bar2Bytes_put (bytes d : List Byte) {b i : Nat} (hn : s.bar2Sectors fn size off bytes.length = [n])
    (h60 : b < 60) (hd : d.length = 60) (hi : i < bytes.length) (hb : (s.bar2Place fn size (off + i)).2 = some b)
    (hlast : ∀ j < bytes.length, i < j → (s.bar2Place fn size (off + j)).2 ≠ some b) :
    ((s.bar2Bytes fn size off bytes n).foldl (fun d p => d.set p.1 p.2) d)[b]? = bytes[i]? := by
  have hz : i < bytes.zipIdx.length := by simpa using hi
  have hsplit : bytes.zipIdx = bytes.zipIdx.take i ++ (bytes[i], i) :: bytes.zipIdx.drop (i + 1) := by
    have he : bytes.zipIdx[i] = (bytes[i], i) := by simp
    rw [← he, List.getElem_cons_drop, List.take_append_drop]
  rw [bar2Bytes_eq, hsplit, List.filterMap_append, List.filterMap_cons,
    bar2Byte_of_place (p := (bytes[i], i)) (bar2Place_fst_of_sectors hn hi) hb h60, List.getElem?_eq_getElem hi]
  refine getElem?_foldl_set_last _ _ (by omega) fun p hp hpb => ?_
  obtain ⟨q, hq, he⟩ := List.mem_filterMap.mp hp
  obtain ⟨c, v⟩ := p
  obtain rfl : c = b := hpb
  obtain ⟨j, hj, hjq⟩ := List.getElem_of_mem hq
  have hj2 : j < bytes.length - (i + 1) := by simpa using hj
  have hq2 : q.2 = i + 1 + j := by rw [← hjq]; simp
  exact hlast q.2 (by omega) (by omega) (bar2Byte_place he)

end

/-! ### BAR0 (R6, R8) -/

theorem exec_bar0BadAccess_bad {fn : FnId} {off : BitVec 26} {len : Nat} {w : Bool} {s : State} (hh : s.hostOn = true)
    (hb : badShape off.toNat len = true) : exec (.bar0BadAccess fn off len w) s = .next
      (let s1 := if w = false ∨ s.barOpen off.toNat = true ∨ srcOfOffset off.toNat = 0x0F then
        s.logEntry (srcOfOffset off.toNat) 0x2002 (off.toNat + fn * 2 ^ 26 + w.toNat * 2 ^ 31) else s
      if w then s1 else s1.emit (.readData fn (List.replicate len 0))) := by
  change execBar0BadAccess fn off len w s = _
  unfold execBar0BadAccess
  dsimp only
  rw [if_neg (by simp [hh]), if_pos hb]
  simp only [Bool.or_eq_true, Bool.not_eq_true', beq_iff_eq, or_assoc]

theorem not_badShape_of_aligned {o : Nat} (h : o % 8 = 0) : badShape o 8 = false := by simp [badShape, h]

theorem exec_bar0BadAccess_read {fn : FnId} {off : BitVec 26} {s : State} (hh : s.hostOn = true)
    (ha : off.toNat % 8 = 0) (ho : s.barOpen off.toNat = true) : exec (.bar0BadAccess fn off 8 false) s = .next
      ((s.readBar0 fn off.toNat).2.emit (.readData fn (leBytes (s.readBar0 fn off.toNat).1.toNat 8))) := by
  change execBar0BadAccess fn off 8 false s = _
  unfold execBar0BadAccess
  dsimp only
  rw [if_neg (by simp [hh]), if_neg (by simp [not_badShape_of_aligned ha]), if_neg (by simp), if_neg (by simp [ho])]

theorem readBar0_unreadable {s : State} {fn o i : Nat} {r : RegId} (h : regAt fn o = some (r, i))
    (hr : s.readable fn r i = false) : s.readBar0 fn o = (0, s) := by
  unfold State.readBar0
  simp only [h, hr, if_true]

theorem readBar0_readable {s : State} {fn o i : Nat} {r : RegId} (h : regAt fn o = some (r, i))
    (hr : s.readable fn r i = true) (hn : r ∉ [.logDhi, .spnTrcDhi, .awlMdata, .padHold]) :
    s.readBar0 fn o = (s.readReg r i, s.clearRc r i) := by
  unfold State.readBar0
  simp only [h, hr, Bool.true_eq_false, if_false]
  split
  case h_5 => rfl
  all_goals exact absurd (by decide) hn

/-! ### Blocks that do not answer yet (R455) -/

theorem bar_closed {s : State} {r : RegId} {i : Nat} (f : State → State) (h : s.barOpen (r.offset i) = false) :
    s.bar r i f = s := by
  unfold State.bar; rw [if_neg (by simp [h])]

/-- R283, R284: reads through BAR2. -/
theorem bar2Read_single {fn : FnId} {size off len : Nat} {s : State} (hin : bar2Inside fn size off len = true)
    (hh : s.hostOn = true) {n : Nat} (hn : s.bar2Sectors fn size off len = [n]) :
    (s.bar2Open fn n = false → ∀ bs, bs = List.replicate len 0 →
      exec (.bar2Read fn size off len) s = .next ((s.setBar2 fn size).emit (.readData fn bs))) ∧
    (s.bar2Open fn n = true → ∀ d s1, (s.setBar2 fn size).readSector n 0 = (some d, s1) →
      exec (.bar2Read fn size off len) s = .next (s1.emit (.readData fn ((List.range len).map fun i =>
        match (s1.bar2Place fn size (off + i)).2 with
          | some b => s1.dramByte (64 * n + b)
          | none => 0)))) ∧
    (s.bar2Open fn n = true → ∀ s1, (s.setBar2 fn size).readSector n 0 = (none, s1) →
      exec (.bar2Read fn size off len) s = .next (s1.emit (.poisoned fn))) := by
  have he := exec_bar2Read_single hin hh hn
  refine ⟨fun hc bs hbs => ?_, fun ho d s1 hr => ?_, fun ho s1 hr => ?_⟩
  · have hz : (s.setBar2 fn size).bar2Sectors fn size off len = [n] := hn
    rw [he, if_neg (by simp [hc]), bar2Answer_closed hz hc, hbs]
  · obtain ⟨hplace, hopen⟩ := bar2_readSector hr
    rw [he, if_pos ho, hr]
    dsimp only
    rw [bar2Answer_open ((bar2Sectors_of_place hplace).trans hn) ((hopen n).trans ho), Option.isSome_some, if_pos rfl]
  · rw [he, if_pos ho, hr]
    rfl

/-- R283, R284: writes through BAR2. -/
theorem bar2Write_single {fn : FnId} {size off : Nat} {bytes : List Byte} {s : State}
    (hin : bar2Inside fn size off bytes.length = true) (hh : s.hostOn = true) {n : Nat}
    (hn : s.bar2Sectors fn size off bytes.length = [n]) :
    (s.bar2Open fn n = false →
      exec (.bar2Write fn size off bytes) s = .next ((s.setBar2 fn size).logEntry 0x00 0x4003 0)) ∧
    (s.bar2Open fn n = true → ∀ d s1, (s.setBar2 fn size).readSector n 0 = (some d, s1) → d.length = 60 →
      Completes (.bar2Write fn size off bytes) s fun t =>
        let d' := (t.sectorBytes n).take 60
        t = s1.writeSector n d' ∧
        ∀ b < 60, ((∀ i < bytes.length, (s.bar2Place fn size (off + i)).2 ≠ some b) → d'[b]? = d[b]?) ∧
          ∀ i < bytes.length, (s.bar2Place fn size (off + i)).2 = some b →
            (∀ j < bytes.length, i < j → (s.bar2Place fn size (off + j)).2 ≠ some b) → d'[b]? = bytes[i]?) := by
  have he := exec_bar2Write_single hin hh hn
  refine ⟨fun hc => by rw [he, if_pos hc]; rfl, fun ho d s1 hr hd => ?_⟩
  refine ⟨s1.writeSector n ((s.bar2Bytes fn size off bytes n).foldl (fun d p => d.set p.1 p.2) d), ?_, ?_⟩
  · rw [he, if_neg (by simp [ho]), hr]
  · dsimp only
    rw [take_sectorBytes_writeSector s1 (not_inCollator_of_bar2Open ho) ((length_foldl_set _ d).trans hd)]
    exact ⟨rfl, fun b hb => ⟨bar2Bytes_keep bytes d, fun i hi hp => bar2Bytes_put bytes d hn hb hd hi hp⟩⟩

/-- R6, R8: accesses of BAR0 that no other command makes. -/
theorem bar0BadAccess_answers (fn : FnId) (off : BitVec 26) (len : Nat) (w : Bool) {s : State} (hh : s.hostOn = true) :
    let o := off.toNat
    (badShape o len = true →
      let s1 := if w = false ∨ s.barOpen o = true ∨ srcOfOffset o = 0x0F then
        s.logEntry (srcOfOffset o) 0x2002 (o + fn * 2 ^ 26 + w.toNat * 2 ^ 31) else s
      exec (.bar0BadAccess fn off len w) s = .next (if w then s1 else s1.emit (.readData fn (List.replicate len 0)))) ∧
    (o % 8 = 0 → s.barOpen o = true → ∀ r i, regAt fn o = some (r, i) →
      (s.readable fn r i = false → exec (.bar0BadAccess fn off 8 false) s =
        .next (s.emit (.readData fn (List.replicate 8 0)))) ∧
      (s.readable fn r i = true → r ∉ [.logDhi, .spnTrcDhi, .awlMdata, .padHold] →
        Completes (.bar0BadAccess fn off 8 false) s fun t =>
          t.outs = .readData fn (leBytes (s.readReg r i).toNat 8) :: s.outs ∧
          t.reg r i = ((s.reg r i &&& ~~~r.rcMask) ||| (r.resetVal i &&& r.rcMask)))) := by
  refine ⟨exec_bar0BadAccess_bad hh, fun ha ho r i hr => ⟨fun hn => ?_, fun hy hx => ?_⟩⟩
  · have hz : leBytes (0 : BitVec 64).toNat 8 = List.replicate 8 0 := by decide
    rw [exec_bar0BadAccess_read hh ha ho, readBar0_unreadable hr hn, ← hz]
  · refine ⟨_, exec_bar0BadAccess_read hh ha ho, ?_⟩
    rw [readBar0_readable hr hy hx]
    exact ⟨rfl, State.reg_setReg_self s r i _⟩

/-- Settles O40: BAR2 by the one sector of an access, BAR0 by the shape of the access, and a closed block by the test that
each of the listed writes begins with. -/
theorem hostWindows : Obligations.HostWindows := by
  refine ⟨⟨fun fn size off len s hin hh n hn => ⟨bar2Size_setBar2 s fn size, bar2Read_single hin hh hn⟩,
    fun fn size off bytes s hin hh n hn => bar2Write_single hin hh hn,
    fun fn off len w s hh => bar0BadAccess_answers fn off len w hh⟩, ?_⟩
  intro s fn f v c t st m p r q k d pads bad i reg j hmem hclosed
  have hbar : ∃ g, exec i s = .next (s.bar reg j g) := by
    simp only [List.mem_cons, Prod.mk.injEq, List.not_mem_nil, or_false] at hmem
    casesm* _ ∨ _ <;>
    · obtain ⟨rfl, rfl, rfl⟩ := ‹_ ∧ _ ∧ _›
      exact ⟨_, rfl⟩
  obtain ⟨g, hg⟩ := hbar
  rw [hg, bar_closed g hclosed]

end Sys2Proof.Machine
end

section
/-!
Proofs of the scope family, 6: the state after reset (R8, R497).
-/
namespace Sys2Proof.Machine

/-! ### DRAM that nothing has written (R497) -/

theorem mirroredSector_reset (n : Nat) : State.reset.mirroredSector n = none := by
  have hl : State.reset.ledgerSector n = none := by
    unfold State.ledgerSector
    cases ledgerPlace n <;> rfl
  have hi : State.reset.indexSector n = none := by
    have hat : ∀ k, State.reset.sys.indexes.at k = none := fun _ => rfl
    unfold State.indexSector
    simp only [hat, Option.bind_none, ite_self]
  simp [State.mirroredSector, hl, hi]

theorem sectorBytes_reset (n : Nat) : State.reset.sectorBytes n = (List.range 64).map fun i => dramDefault (64 * n + i) := by
  simp only [State.sectorBytes, mirroredSector_reset]
  rfl

theorem dramDefault_data {n i : Nat} (h : i < 60) : dramDefault (64 * n + i) = 0 := by
  unfold dramDefault
  rw [if_pos (by omega)]

theorem dramDefault_crc (n : Nat) {j : Nat} (h : j < 4) :
    dramDefault (64 * n + (60 + j)) = (sectorCrc zeroData n).extractLsb' (8 * j) 8 := by
  have hm : (64 * n + (60 + j)) % 64 = 60 + j := by omega
  have hd : (64 * n + (60 + j)) / 64 = n := by omega
  unfold dramDefault
  rw [hm, hd, if_neg (by omega), Nat.add_sub_cancel_left]

theorem take_sectorBytes_reset (n : Nat) : (State.reset.sectorBytes n).take 60 = zeroData := by
  rw [sectorBytes_reset, ← List.map_take]
  refine List.eq_replicate_iff.mpr ⟨by simp, fun b hb => ?_⟩
  obtain ⟨i, hi, rfl⟩ := List.mem_map.mp hb
  rw [List.take_range] at hi
  exact dramDefault_data (by simpa using hi)

theorem drop_sectorBytes_reset (n : Nat) : (State.reset.sectorBytes n).drop 60 =
    (List.range 4).map fun j => (sectorCrc zeroData n).extractLsb' (8 * j) 8 := by
  rw [sectorBytes_reset, show List.range 64 = List.range 60 ++ (List.range 4).map (60 + ·) from by decide, List.map_append,
    List.drop_left' (by simp), List.map_map]
  exact List.map_congr_left fun j hj => dramDefault_crc n (List.mem_range.mp hj)

/-- The bytes of a CRC give the CRC. -/
theorem ofBytes_crcBytes (c : BitVec 32) : ofBytes ((List.range 4).map fun j => c.extractLsb' (8 * j) 8) = c.toNat := by
  have hc := c.isLt
  simp only [List.range, List.range.loop, List.map_cons, List.map_nil, ofBytes, BitVec.extractLsb'_toNat,
    Nat.shiftRight_eq_div_pow]
  omega

theorem sectorGood_reset (n : Nat) : sectorGood (State.reset.sectorBytes n) n = true := by
  rw [sectorGood, drop_sectorBytes_reset, take_sectorBytes_reset, ofBytes_crcBytes, beq_self_eq_true]

/-- Settles O10: DRAM sector by sector, all else by evaluating the state after reset. -/
theorem resetValues : Obligations.ResetValues := by
  have hslot : ∀ ring i, State.reset.slot ring i = none := fun _ _ => rfl
  refine ⟨rfl, rfl, fun ring _ => ⟨0, by decide, hslot ring 0⟩, by decide, hslot,
    fun n => ⟨take_sectorBytes_reset n, sectorGood_reset n⟩, by decide⟩

end Sys2Proof.Machine
end

section
/-!
Proofs of the scope family, 7: a register write that the register takes (R496) and that cuts TOKENS of a regulator (R331).
-/
namespace Sys2Proof.Machine

/-- A plain register of the ring is written as a plain register. -/
theorem exec_registerWrite_spnRg {fn : FnId} {off : BitVec 26} {v : BitVec 64} {s : State} {i : Nat}
    (ha : off.toNat % 8 = 0) (ho : s.barOpen off.toNat = true) (hw : inMeterWindow off.toNat = false)
    (hr : regAt fn off.toNat = some (.spnRg, i)) :
    exec (.registerWrite fn off v) s = .next (s.writePlain fn .spnRg i v) := by
  change execRegisterWrite fn off v s = _
  unfold execRegisterWrite
  dsimp only
  rw [if_neg (by simp [ha]), if_neg (by simp [ho]), if_neg (by simp [hw]), hr]
  rfl

/-- An accepted write of a regulator that changes a field: the stored fields, then TOKENS cut to BURST + 1. -/
theorem writePlain_spnRg {s : State} {fn i : Nat} {v : BitVec 64} (ho : s.opens fn .spnRg i = true)
    (hr : s.rangeRefused fn .spnRg i v = false) (hi : s.idleWrite .spnRg i v = false) :
    s.writePlain fn .spnRg i v = ((s.clearW1c .spnRg i v).storeRw .spnRg i v).afterWrite .spnRg i := by
  have hv : maskedValue .spnRg i v = v := if_neg (by simp)
  unfold State.writePlain
  rw [if_pos ho, hv, State.writeReg]
  simp only [hi, hr, Bool.false_eq_true, if_false]

/-- Refutes O41: a regulator with nine tokens whose BURST is written to 0 keeps one of them (R331), so that the accepted
write leaves more changed than the RW fields that it stores. -/
theorem not_registerWrites : ¬ Obligations.RegisterWrites := by
  intro h
  obtain ⟨-, -, hplain⟩ := h 0 0x201000#26 128#64
    (((State.reset.putN F.pwrDom_state 5 2).putN F.hubBoot_state 0 1).putN F.spnRg_tokens 0 9) (by decide)
  obtain ⟨haccepted, -, -⟩ := hplain .spnRg 0 (by decide) (by decide) (by decide) (by decide)
  obtain ⟨t, ht, hreg⟩ := haccepted (by decide) (by decide)
  rw [exec_registerWrite_spnRg (i := 0) (by decide) (by decide) (by decide) (by decide),
    writePlain_spnRg (by decide) (by decide) (by decide)] at ht
  obtain rfl := Host.Outcome.next.inj ht
  exact absurd hreg (by decide)

end Sys2Proof.Machine
end

section
/-!
Proofs of the quire family, 1: the vote of a LOCAL region, which commits a quire or recomputes it (R16, R18, R29 to R32).
-/
namespace Sys2Proof.Machine

/-! ### The next quire after a commit edge (R434, R435) -/

/-- The next quire opens or the region pauses: either way the vote's own fields stay, and where no pause is asked for the
next quire is the one being computed. -/
theorem openNext_status (s : State) (r n : Nat) (fresh : Bool) (pads : BitVec 192) :
    let t := s.openNext r n fresh pads
    t.getN F.qctStatus_attempt r = s.getN F.qctStatus_attempt r ∧
    t.getN F.qctStatus_lastvote r = s.getN F.qctStatus_lastvote r ∧
    ((s.region r).pauseReq = false → t.getN F.qctExec_count r = n % 2 ^ 64) := by
  have hthr : State.Only [.reg .qctStretch] s (s.throttled r) := throttled_only r (.refl _ s) (sub_self _)
  have hatt := hthr.getN F.qctStatus_attempt r (by decide)
  have hvote := hthr.getN F.qctStatus_lastvote r (by decide)
  rw [← hatt, ← hvote, ← hthr.region (by decide) r]
  unfold State.openNext
  dsimp only
  split
  · next hp => exact ⟨rfl, rfl, fun h => by simp [hp] at h⟩
  · obtain ⟨h1, h2, -, h4⟩ := openQuire_status (s.throttled r) r n fresh pads
    exact ⟨h1, h2, fun _ => h4⟩

/-- Opening the next quire, or pausing before it, touches no cell and no commit count. -/
theorem openNext_kept (s : State) (r n : Nat) (fresh : Bool) (pads : BitVec 192) :
    let t := s.openNext r n fresh pads
    t.getN F.qctCommitted_count r = s.getN F.qctCommitted_count r ∧ ∀ key, t.cell key = s.cell key := by
  have h := openNext_only r n fresh pads (.refl [.free, .gatherings, .regions, .collator, .reg .colEv, .reg .bndStat,
    .reg .bndCase, .reg .qctExec, .reg .qctStatus, .reg .qctStretch] s) (sub_self _)
  exact ⟨h.getN _ _ (by decide), h.cell (by decide)⟩

/-- A hold that takes effect touches no commit count. -/
theorem enterHeld_committed (s : State) (r : Nat) :
    (s.enterHeld r).getN F.qctCommitted_count r = s.getN F.qctCommitted_count r :=
  (enterHeld_only r (.refl [.cells, .gatherings, .regions, .reg .qctStatus, .reg .qctHold, .reg .qctRbStat,
    .reg .qctBmkStat] s) (sub_self _)).getN _ _ (by decide)

/-! ### The LOCAL vote -/

/-- At its commit point a LOCAL region that executes leaves votes on the state in which they have ended. -/
theorem commitPoint_local {s : State} {r : Nat} {pads : BitVec 192} {bad : BitVec 2} (he : s.executes r = true)
    (hm : s.bitF F.qctCfg_mode r = false) : s.commitPoint r pads bad = (s.settleRegion r).localVote r pads bad := by
  have hz : (s.settleRegion r).systemMode r = false := (systemMode_regs (settleRegion_regs s r hm) r).trans hm
  unfold State.commitPoint
  simp only [he, hz, Bool.not_true, Bool.false_eq_true, if_false, if_true]

/-- A LOCAL vote without a failed check: the working versions are committed, and a hold that is due in RUN takes effect
instead of the next quire. -/
theorem localVote_commit_facts {z : State} {r : Nat} {pads : BitVec 192} {bad : BitVec 2} (hm : z.systemMode r = false)
    (hf : z.firstFail r (z.exec r) = none) :
    let n := z.exec r
    let t := z.localVote r pads bad
    t.getN F.qctCommitted_count r = n % 2 ^ 64 ∧ t.getN F.qctStatus_attempt r = 0 ∧ t.getN F.qctStatus_lastvote r = 1 ∧
    (∀ key, (t.cell key).v.com =
      if z.regionOf (key / 64) = some r then (z.cell key).v.work else (z.cell key).v.com) ∧
    if z.holdDue r n = true ∧ (z.getN F.qctStatus_state r = 2 ∨ z.getN F.bndCase_stage r = 3) then
      t.getN F.qctStatus_state r = 5 ∧ t.bitF F.qctHold_pend r = false
    else (z.region r).pauseReq = false → t.getN F.qctExec_count r = (n + 1) % 2 ^ 64 := by
  intro n t
  obtain ⟨hcount, hatt, hvote, hstate, -, hdue, hpause, hcom⟩ := commitEdge_facts z r n
  simp only [hm, Bool.false_eq_true, if_false] at hcom
  have ht : t = _ := localVote_commit hf
  have hholds : ((z.commitEdge r n).holdDue r n && ((z.commitEdge r n).qstate r == Q.run)) = true ↔
      z.holdDue r n = true ∧ (z.getN F.qctStatus_state r = 2 ∨ z.getN F.bndCase_stage r = 3) := by
    have hrun : (z.commitEdge r n).getN F.qctStatus_state r = 2 ↔
        z.getN F.qctStatus_state r = 2 ∨ z.getN F.bndCase_stage r = 3 := by
      rw [hstate]; split <;> simp_all
    simp only [hdue, State.qstate, Q.run, Bool.and_eq_true, beq_iff_eq, hrun]
  by_cases hh : z.holdDue r n = true ∧ (z.getN F.qctStatus_state r = 2 ∨ z.getN F.bndCase_stage r = 3)
  · rw [if_pos hh]
    rw [if_pos (hholds.mpr hh)] at ht
    obtain ⟨h1, h2, h3, h4, h5⟩ := enterHeld_facts (z.commitEdge r n) r
    rw [ht]
    exact ⟨(enterHeld_committed _ r).trans hcount, h4.trans hatt, h3.trans hvote, fun key => (h5 key).trans (hcom key), h1, h2⟩
  · rw [if_neg hh]
    rw [if_neg (mt hholds.mp hh)] at ht
    obtain ⟨h1, h2, h3⟩ := openNext_status (z.commitEdge r n) r (n + 1) true pads
    obtain ⟨h4, h5⟩ := openNext_kept (z.commitEdge r n) r (n + 1) true pads
    rw [ht]
    exact ⟨h4.trans hcount, h1.trans hatt, h2.trans hvote, fun key => by rw [h5, hcom],
      fun hp => h3 (hpause.trans hp)⟩

/-- Settles O11: at the end of the leaves the region votes, and the vote commits or replays. -/
theorem localQuires : Obligations.LocalQuires := by
  unfold Obligations.LocalQuires
  refine ⟨?_, ?_⟩
  · intro r pads bad s z n he hm hf
    have hregs : z.regs = s.regs := settleRegion_regs s r hm
    have hn : z.exec r = n := State.getN_regs hregs _ _
    obtain ⟨fs, hregion⟩ := settleRegion_region s r r
    have hdue : z.holdDue r n = s.holdDue r n := by
      unfold State.holdDue State.bitF State.getF State.reg; rw [hregs]
    obtain ⟨h1, h2, h3, h4, h5⟩ := localVote_commit_facts (pads := pads) (bad := bad)
      ((systemMode_regs hregs r).trans hm) (hn ▸ hf)
    rw [hn] at h1 h5
    rw [hdue, State.getN_regs hregs, State.getN_regs hregs, hregion] at h5
    refine ⟨_, rfl, ?_⟩
    rw [commitPoint_local he hm]
    refine ⟨h1.trans (Nat.mod_eq_of_lt (State.getN_lt s F.qctExec_count r)), h2, h3, fun key => ?_, h5⟩
    rw [h4, State.regionOf_regs hregs, (settleRegion_cell s r key).1]
  · intro r pads bad s f n k he hm hf
    have hregs := settleRegion_regs s r hm
    have hn : (s.settleRegion r).exec r = n := State.getN_regs hregs _ _
    have hlt : n < 2 ^ 64 := State.getN_lt s F.qctExec_count r
    obtain ⟨h1, h2, h3, h4, h5, h6⟩ := replayVote_facts (s.settleRegion r) r n f bad
    simp only [State.getN_regs hregs, Nat.mod_eq_of_lt hlt] at h1 h2 h3 h5 h6
    refine ⟨_, rfl, ?_⟩
    rw [commitPoint_local he hm, localVote_replay (hn ▸ hf), hn]
    refine ⟨h1, h2, h3, fun key => ?_, h5, h6⟩
    rw [h4, State.regionOf_regs hregs]
    obtain ⟨hcom, hother, -⟩ := settleRegion_cell s r key
    split
    · rw [hcom]
    · next ho => rw [hother ho]

end Sys2Proof.Machine
end

section
/-!
Proofs of the quire family, 2: the vote of a SYSTEM region, taken once it has every frame and token (R19, R25, R30).
-/
namespace Sys2Proof.Machine

/-! ### A region after an update and after the end of its leaves -/

@[simp] theorem region_updRegion_self (s : State) (r : Nat) (f : Region → Region) :
    (s.updRegion r f).region r = f (s.region r) := State.region_setRegion_self s r _

theorem region_setGths (s : State) (m : Sparse Gth) (r : Nat) :
    ({ s with arr := { s.arr with gths := m } } : State).region r = s.region r := rfl

/-- The end of the leaves settles the cells of the region and no other. -/
theorem cell_settleRegion (s : State) (r key : Nat) : (s.settleRegion r).cell key =
    if key ∈ s.cellsOf r then (s.cell key).settle (64 * ((s.region r).comp + 1)) else s.cell key := by
  unfold State.settleRegion
  extract_lets t y z
  rw [(State.Only.foldl_ (ps := [.gatherings, .regions, .reg .qctFault]) (z.gthsOf r)
    (fun x g hx => settlePress_only r g t hx (sub_self _)) (.refl _ z)).cell (by decide) key]
  exact Sparse.at_updAll ..

/-- The end of the leaves keeps every committed and every pending version. -/
theorem settleRegion_versions (s : State) (r key : Nat) :
    ((s.settleRegion r).cell key).v.com = (s.cell key).v.com ∧ ((s.settleRegion r).cell key).v.pend = (s.cell key).v.pend := by
  rw [cell_settleRegion]
  split
  · exact cell_settle _ _
  · exact ⟨rfl, rfl⟩

/-- Of the registers the end of the leaves touches QCT_FAULT alone. -/
theorem settleRegion_frame (s : State) (r : Nat) :
    State.Only [.cells, .gatherings, .regions, .reg .qctFault] s (s.settleRegion r) :=
  settleRegion_only r (.refl _ s) (sub_self _)

/-! ### What ends a wait -/

theorem openQuire_waiting (s : State) (r n : Nat) (fresh : Bool) (pads : BitVec 192) :
    ((s.openQuire r n fresh pads).region r).waiting = false := by
  unfold State.openQuire
  dsimp only
  generalize hy : (s.updRegion r fun x => { x with comp := x.comp + 1, live := true, waiting := false }).putN
    F.qctExec_count r n = y
  have hyw : (y.region r).waiting = false := by
    rw [← hy, (only_putN (.refl [.reg .qctExec] _) F.qctExec_count r n (sub_self _)).region (by decide),
      region_updRegion_self]
  have hz : ((y.advanceStage r n).region r).waiting = false := by
    rw [(advanceStage_only r n (.refl _ y) (sub_self _)).region (by decide), hyw]
  generalize y.advanceStage r n = z at hz
  split
  · have hcap := captureAll_only r n pads (.refl [.free] z) (sub_self _)
    rw [(pushReset_only r n (.refl _ _) (sub_self _)).region (by decide)]
    rw [region_setGths, region_updRegion_self, hcap.region (by decide), hz]
  · split
    · rw [region_updRegion_self, (State.Only.foldl2 (ps := [.free]) (z.gthsOf r)
        (fun x g hx => exchangeIn_only r g (n - 1) x.1 hx (sub_self _)) (.refl _ _)).region (by decide), hz]
    · exact hz

/-- A region that does not wait goes on to its next quire without waiting. -/
theorem openNext_waiting {s : State} {r : Nat} (n : Nat) (fresh : Bool) (pads : BitVec 192)
    (h : (s.region r).waiting = false) : ((s.openNext r n fresh pads).region r).waiting = false := by
  unfold State.openNext
  dsimp only
  split
  · rw [region_updRegion_self, (throttled_only r (.refl _ s) (sub_self _)).region (by decide), h]
  · exact openQuire_waiting ..

theorem enterHeld_waiting (s : State) (r : Nat) : ((s.enterHeld r).region r).waiting = false := by
  unfold State.enterHeld
  dsimp only
  rw [(startOps_only r (.refl _ _) (sub_self _)).region (by decide), region_updRegion_self]

theorem enterQfault_waiting (s : State) (r n : Nat) : ((s.enterQfault r n).region r).waiting = false := by
  unfold State.enterQfault
  extract_lets v pend q h d
  have hend : State.Only [.outs, .log, .collator, .reg .hubMsixPba, .reg .colEv, .reg .qctRbStat, .reg .qctBmkStat,
      .reg .logCtl] d (((d.logVote 0x8001 r n).signalOwner (r + 1)).startOps r) :=
    startOps_only r (signalOwner_only _ (logVote_only _ _ _ (.refl _ d) (by decide)) (by decide)) (by decide)
  rw [hend.region (by decide), region_updRegion_self]

theorem captureFault_waiting (s : State) (r n : Nat) : ((s.captureFault r n).region r).waiting = false :=
  enterQfault_waiting ..

theorem replayVote_waiting (s : State) (r n : Nat) (f : Option Fail) (bad : BitVec 2) :
    ((s.replayVote r n f bad).region r).waiting = false := by
  unfold State.replayVote
  extract_lets a b c d att e g u
  split
  · exact enterQfault_waiting ..
  · split
    · exact captureFault_waiting ..
    · exact openQuire_waiting ..

/-- The versions of cells and gatherings change, in either mode, without the state of a region. -/
theorem onVersions_ite_region (s : State) (r j : Nat) (c : Prop) [Decidable c] (fc gc : Ver CellWords → Ver CellWords)
    (fg gg : Gth → Gth) : (if c then s.onVersions r fc fg else s.onVersions r gc gg).region j = s.region j := by
  split <;> rfl

/-- A commit edge leaves a region that does not wait as it is. -/
theorem commitEdge_waiting (s : State) (r n : Nat) :
    ((s.commitEdge r n).region r).waiting = (s.region r).waiting := by
  unfold State.commitEdge
  extract_lets sys shown v c w q d e
  have hc : c.region r = v.region r := (recordChecks_only v r n sys _).region (by decide) r
  have hw : w.region r = c.region r := onVersions_ite_region ..
  have he : e.region r = d.region r :=
    (State.Only.ite_ (only_putN (.refl [.reg .qctStatus] d) _ _ _ (sub_self _)) (.refl _ d)).region (by decide) r
  rw [(queueEvents_only r (.refl _ e) (sub_self _)).region (by decide), he, region_updRegion_self]
  have hq : State.Only [.reg .qctCommitted, .reg .qctStatus] w q :=
    only_putN (only_putN (only_putN (.refl _ w) _ _ _ (by decide)) _ _ _ (by decide)) _ _ _ (by decide)
  rw [hq.region (by decide), hw, hc, region_updRegion_self]

/-! ### A REPLAY vote whatever its failure (R29 to R31) -/

/-- Once a REPLAY vote has counted itself, it leaves the counts of replays and commits. -/
theorem replayVote_tail (s : State) (r n : Nat) (f : Option Fail) (bad : BitVec 2) :
    State.Only [.free, .outs, .log, .cells, .gatherings, .regions, .collator, .reg .hubMsixPba, .reg .colEv, .reg .bndStat,
      .reg .bndCase, .reg .qctExec, .reg .qctStatus, .reg .qctFault, .reg .qctHold, .reg .qctRbStat, .reg .qctBmkStat,
      .reg .logCtl] ((s.recordFault r n f).addF F.qctReplays_count r 1) (s.replayVote r n f bad) := by
  unfold State.replayVote
  extract_lets a b c d att e g u
  have hc := logVote_only 0x4001 r n (only_putN (.refl [.free, .outs, .log, .cells, .gatherings, .regions, .collator,
    .reg .hubMsixPba, .reg .colEv, .reg .bndStat, .reg .bndCase, .reg .qctExec, .reg .qctStatus, .reg .qctFault,
    .reg .qctHold, .reg .qctRbStat, .reg .qctBmkStat, .reg .logCtl] (a.addF F.qctReplays_count r 1))
    F.qctStatus_lastvote r 2 (by decide)) (by decide)
  have he := only_putN (onVersions_only r Ver.discard Gth.discard hc (by decide)) F.qctStatus_attempt r att (by decide)
  have hg : State.Only _ _ g := .ite_ he (only_putN he F.qctStatus_state r Q.replay (by decide))
  have hu : State.Only _ _ u := updRegion_only r _ hg (by decide)
  exact .ite_ (enterQfault_only r n hc (by decide))
    (.ite_ (captureFault_only r n hu (by decide)) (openQuire_only r n false 0 hu (by decide)))

/-- A REPLAY vote counts itself and commits nothing. -/
theorem replayVote_counts (s : State) (r n : Nat) (f : Option Fail) (bad : BitVec 2) :
    (s.replayVote r n f bad).getN F.qctReplays_count r = min (s.getN F.qctReplays_count r + 1) (2 ^ 32 - 1) ∧
    (s.replayVote r n f bad).getN F.qctCommitted_count r = s.getN F.qctCommitted_count r := by
  have hf : State.Only [.reg .qctFault] s (s.recordFault r n f) := recordFault_only r n f (.refl _ s) (sub_self _)
  have ht := replayVote_tail s r n f bad
  constructor
  · rw [ht.getN _ _ (by decide), State.getN_addF_self _ _ _ _ (by decide), hf.getN _ _ (by decide)]
  · rw [ht.getN _ _ (by decide), State.getN_addF_apart _ _ _ _ _ _ (by decide), hf.getN _ _ (by decide)]

/-- Discarding what is newer than the committed versions twice is discarding it once. -/
theorem discard_cell_discarded {s d : State} {r : Nat} (hr : ∀ g, d.regionOf g = s.regionOf g)
    (hd : ∀ key, (d.cell key).v =
      if s.regionOf (key / 64) = some r then ⟨(s.cell key).v.com, none, (s.cell key).v.com⟩ else (s.cell key).v) (n key : Nat) :
    ((d.enterQfault r n).cell key).v =
      if s.regionOf (key / 64) = some r then ⟨(s.cell key).v.com, none, (s.cell key).v.com⟩ else (s.cell key).v := by
  obtain ⟨-, -, -, -, h⟩ := enterQfault_facts d r n
  rw [h, hr, hd]
  split <;> rfl

/-- A REPLAY vote discards the pending and working versions of the region, and changes no other cell. -/
theorem replayVote_cell (s : State) (r n : Nat) (f : Option Fail) (bad : BitVec 2) (key : Nat) :
    ((s.replayVote r n f bad).cell key).v =
      if s.regionOf (key / 64) = some r then ⟨(s.cell key).v.com, none, (s.cell key).v.com⟩ else (s.cell key).v := by
  unfold State.replayVote
  extract_lets a b c d att e g u
  have hc : State.Only [.log, .collator, .reg .colEv, .reg .logCtl, .reg .qctReplays, .reg .qctStatus, .reg .qctFault] s c :=
    logVote_only _ _ _ (only_putN (only_addF (recordFault_only r n f (.refl _ s) (by decide)) _ _ _ (by decide)) _ _ _
      (by decide)) (by decide)
  have hcell : ∀ key, c.cell key = s.cell key := hc.cell (by decide)
  have hrof : ∀ g, c.regionOf g = s.regionOf g := hc.regionOf (by decide)
  have hu : State.Only [.regions, .reg .qctStatus] d u := by
    have he : State.Only [.regions, .reg .qctStatus] d e := only_putN (.refl _ d) _ _ _ (by decide)
    exact updRegion_only r _ (.ite_ he (only_putN he _ _ _ (by decide))) (by decide)
  have hud : ∀ key, (u.cell key).v =
      if s.regionOf (key / 64) = some r then ⟨(s.cell key).v.com, none, (s.cell key).v.com⟩ else (s.cell key).v := by
    intro key
    rw [hu.cell (by decide), cell_discard, hcell, hrof]
  have hur : ∀ g, u.regionOf g = s.regionOf g := fun g =>
    (hu.regionOf (by decide) g).trans ((State.regionOf_regs rfl g).trans (hrof g))
  split
  · obtain ⟨-, -, -, -, h⟩ := enterQfault_facts c r n
    rw [h, hcell, hrof]
  · split
    · have hv : State.Only [.reg .qctFault] u (u.recordFault r n (some ⟨n, u.ownDev r, 0x08, 0⟩)) :=
        recordFault_only r n _ (.refl _ u) (sub_self _)
      exact discard_cell_discarded (fun g => (hv.regionOf (by decide) g).trans (hur g))
        (fun key => by rw [hv.cell (by decide), hud]) n key
    · rw [openQuire_cell, hud]

/-! ### The start of a SYSTEM vote -/

/-- The state on which a SYSTEM vote decides: poison sent in place of the frames that a charged quire lacks, the wait
over, and STRETCH left (R25, R176). -/
def State.voteOpened (s : State) (r : Nat) : State :=
  let e := s.exec r
  let s := (s.sendPoison r e).updRegion r fun x =>
    { x with waiting := false, seen := x.seen.filter fun f => (quiresOpen e).contains f.quire,
             frames := x.frames.filter fun f => (quiresOpen e).contains f.quire }
  if s.qstate r = Q.stretch then s.putN F.qctStatus_state r (if (s.region r).recomputes then Q.replay else Q.run) else s

theorem sendPoison_frame (s : State) (r q : Nat) :
    State.Only [.log, .regions, .fuist, .collator, .reg .colEv, .reg .logCtl] s (s.sendPoison r q) :=
  sendPoison_only r q (.refl _ s) (sub_self _)

/-- Poison marks frames as seen and changes nothing else of the region. -/
theorem sendPoison_region (s : State) (r q : Nat) :
    ∃ seen, (s.sendPoison r q).region r = { s.region r with seen } := by
  unfold State.sendPoison
  generalize s.missingFrames r q = l
  induction l generalizing s with
  | nil => exact ⟨_, rfl⟩
  | cons e l ih =>
    rw [List.foldl_cons]
    extract_lets f u
    obtain ⟨seen, hs⟩ := ih (if e.2.1 = u.devIdx then u
      else u.sendExch e.2.1 (schedFrame 2 e.2.2 e.1 e.2.1 0 (u.getN F.qctStatus_attempt r) q []))
    have hu : (if e.2.1 = u.devIdx then u
        else u.sendExch e.2.1 (schedFrame 2 e.2.2 e.1 e.2.1 0 (u.getN F.qctStatus_attempt r) q [])).region r = u.region r :=
      (State.Only.ite_ (.refl [.log, .fuist, .collator, .reg .colEv, .reg .logCtl] u)
        (sendExch_only _ _ (.refl _ u) (sub_self _))).region (by decide) r
    exact ⟨seen, by rw [hs, hu, region_updRegion_self]⟩

theorem voteOpened_frame (s : State) (r : Nat) :
    State.Only [.log, .regions, .fuist, .collator, .reg .colEv, .reg .logCtl, .reg .qctStatus] s (s.voteOpened r) := by
  unfold State.voteOpened
  extract_lets e u
  have hu : State.Only [.log, .regions, .fuist, .collator, .reg .colEv, .reg .logCtl, .reg .qctStatus] s u :=
    updRegion_only r _ ((sendPoison_frame s r e).mono (by decide)) (by decide)
  exact .ite_ (only_putN hu _ _ _ (by decide)) hu

theorem voteOpened_attempt (s : State) (r : Nat) :
    (s.voteOpened r).getN F.qctStatus_attempt r = s.getN F.qctStatus_attempt r := by
  have h : (s.sendPoison r (s.exec r)).getN F.qctStatus_attempt r = s.getN F.qctStatus_attempt r :=
    (sendPoison_frame s r _).getN _ _ (by decide)
  unfold State.voteOpened
  dsimp only
  split
  · rw [State.getN_putN_apart _ _ _ _ _ _ (by decide)]; exact h
  · exact h

/-- The region no longer waits; its tokens and failures are as they were. -/
theorem voteOpened_region (s : State) (r : Nat) :
    ((s.voteOpened r).region r).waiting = false ∧ ((s.voteOpened r).region r).tokens = (s.region r).tokens ∧
    ((s.voteOpened r).region r).fails = (s.region r).fails := by
  obtain ⟨seen, hp⟩ := sendPoison_region s r (s.exec r)
  unfold State.voteOpened
  extract_lets e u
  rw [(State.Only.ite_ (only_putN (.refl [.reg .qctStatus] u) _ _ _ (sub_self _)) (.refl _ u)).region (by decide) r,
    region_updRegion_self, hp]
  exact ⟨rfl, rfl, rfl⟩

/-- The vote of the device itself and of the tokens that have come stands before the vote opens (R180). -/
theorem voteOpened_fullToken (s : State) (r n : Nat) : (s.voteOpened r).fullToken r n = s.fullToken r n := by
  obtain ⟨-, htok, hfail⟩ := voteOpened_region s r
  have hframe := voteOpened_frame s r
  have hcount := hframe.getN F.qctCommitted_count r (by decide)
  have hdev : (s.voteOpened r).devIdx = s.devIdx := hframe.getN F.fstSys_devidx 0 (by decide)
  have hatt : (s.voteOpened r).tokenAtt r n = s.tokenAtt r n := by
    unfold State.tokenAtt; rw [hcount, voteOpened_attempt]
  have hfirst : (s.voteOpened r).firstFail r n = s.firstFail r n := by unfold State.firstFail; rw [hfail]
  unfold State.fullToken State.tokenOf State.heldToken State.ownToken
  rw [htok, hdev, hatt, hfirst, hframe.bitF F.qctHold_pend r (by decide), hframe.getN F.qctHold_quire r (by decide)]

/-! ### The three outcomes of a SYSTEM vote -/

/-- The region takes the final token of quire `n` (R183). -/
def State.tokenTaken (s : State) (r n : Nat) (t : Token) : State :=
  s.updRegion r fun x =>
    { x with tokens := x.tokens.filter (fun u => u.quire != n % 2 ^ 40 || decide (t.att < u.att)),
             finals := (t :: x.finals.filter fun u => u.quire != t.quire).take 2 }

/-- After a commit edge a hold that the token names takes effect, or the next quire opens. -/
def State.afterCommit (s : State) (r n e : Nat) (hold : Option Nat) (pads : BitVec 192) : State :=
  match hold with
  | some h => if h ≤ n then s.enterHeld r else s.openNext r (e + 1) true pads
  | none => s.openNext r (e + 1) true pads

section
variable {s : State} {r : Nat} (pads : BitVec 192) (bad : BitVec 2)

theorem systemVote_none (hn : s.getN F.qctCommitted_count r + 1 = s.exec r) : s.systemVote r pads bad =
    let v := ((s.voteOpened r).onVersions r Ver.rename Gth.rename).putN F.qctStatus_lastvote r 3
    let fresh := !((v.region r).caps.any fun c => c.quire == s.exec r + 1)
    if !fresh && bad == 3 then v.captureFault r (s.exec r + 1) else v.openNext r (s.exec r + 1) fresh pads := by
  have h : (s.sendPoison r (s.exec r)).getN F.qctCommitted_count r + 1 = s.exec r :=
    (congrArg (· + 1) ((sendPoison_frame s r _).getN _ _ (by decide))).trans hn
  exact if_pos h

theorem systemVote_due (hn : s.getN F.qctCommitted_count r + 1 ≠ s.exec r) : s.systemVote r pads bad =
    let n := s.getN F.qctCommitted_count r + 1
    let t := s.fullToken r n
    let u := (s.voteOpened r).tokenTaken r n t
    if t.rp = 0 then (u.commitEdge r n).afterCommit r n (s.exec r) t.holdq pads else u.replayVote r n t.fault bad := by
  have hc : (s.sendPoison r (s.exec r)).getN F.qctCommitted_count r = s.getN F.qctCommitted_count r :=
    (sendPoison_frame s r _).getN _ _ (by decide)
  dsimp only
  rw [← voteOpened_fullToken, ← hc]
  exact if_neg (by rwa [hc])

end

/-- What stands after a commit edge stays, whether the region is held or goes on. -/
theorem afterCommit_kept {s : State} {r : Nat} (n e : Nat) (hold : Option Nat) (pads : BitVec 192)
    (hw : (s.region r).waiting = false) :
    let t := s.afterCommit r n e hold pads
    t.getN F.qctCommitted_count r = s.getN F.qctCommitted_count r ∧
    t.getN F.qctStatus_attempt r = s.getN F.qctStatus_attempt r ∧ (t.region r).waiting = false ∧
    ∀ key, (t.cell key).v.com = (s.cell key).v.com := by
  intro t
  have hcases : t = s.enterHeld r ∨ t = s.openNext r (e + 1) true pads := by
    change State.afterCommit .. = _ ∨ State.afterCommit .. = _
    unfold State.afterCommit
    split
    · split
      · exact .inl rfl
      · exact .inr rfl
    · exact .inr rfl
  rcases hcases with ht | ht
  · obtain ⟨-, -, -, hatt, hcom⟩ := enterHeld_facts s r
    rw [ht]
    exact ⟨enterHeld_committed s r, hatt, enterHeld_waiting s r, hcom⟩
  · obtain ⟨hatt, -, -⟩ := openNext_status s r (e + 1) true pads
    obtain ⟨hcount, hcell⟩ := openNext_kept s r (e + 1) true pads
    rw [ht]
    exact ⟨hcount, hatt, openNext_waiting _ _ _ hw, fun key => by rw [hcell]⟩

theorem tokenTaken_frame (s : State) (r n : Nat) (t : Token) : State.Only [.regions] s (s.tokenTaken r n t) :=
  updRegion_only r _ (.refl _ s) (sub_self _)

/-- On the way to the vote neither cells nor the registers of a commit change. -/
theorem voteTaken_frame (s : State) (r n : Nat) (t : Token) :
    State.Only [.log, .regions, .fuist, .collator, .reg .colEv, .reg .logCtl, .reg .qctStatus] s
      ((s.voteOpened r).tokenTaken r n t) :=
  (voteOpened_frame s r).step (tokenTaken_frame _ r n t) (by decide)

theorem voteTaken_waiting (s : State) (r n : Nat) (t : Token) :
    (((s.voteOpened r).tokenTaken r n t).region r).waiting = false := by
  unfold State.tokenTaken
  rw [region_updRegion_self]
  exact (voteOpened_region s r).1

section
variable {s : State} {r : Nat} (pads : BitVec 192) (bad : BitVec 2)

/-- OK from every device: the quire before is committed (R19). -/
theorem systemVote_commits (hm : s.systemMode r = true) (hn : s.getN F.qctCommitted_count r + 1 ≠ s.exec r)
    (hrp : (s.fullToken r (s.getN F.qctCommitted_count r + 1)).rp = 0) :
    let t := s.systemVote r pads bad
    t.getN F.qctCommitted_count r = (s.getN F.qctCommitted_count r + 1) % 2 ^ 64 ∧ t.getN F.qctStatus_attempt r = 0 ∧
    (t.region r).waiting = false ∧ ∀ key, (t.cell key).v.com =
      if s.regionOf (key / 64) = some r then (s.cell key).v.pend.getD (s.cell key).v.com else (s.cell key).v.com := by
  rw [systemVote_due pads bad hn]
  extract_lets n t u v
  rw [show v = (u.commitEdge r n).afterCommit r n (s.exec r) t.holdq pads from if_pos hrp]
  have hu : State.Only _ s u := voteTaken_frame s r n t
  obtain ⟨hcount, hatt, -, -, -, -, -, hcom⟩ := commitEdge_facts u r n
  have hw : ((u.commitEdge r n).region r).waiting = false :=
    (commitEdge_waiting u r n).trans (voteTaken_waiting s r n t)
  obtain ⟨h1, h2, h3, h4⟩ := afterCommit_kept n (s.exec r) t.holdq pads hw
  have hmode : u.systemMode r = true := (hu.bitF F.qctCfg_mode r (by decide)).trans hm
  refine ⟨h1.trans hcount, h2.trans hatt, h3, fun key => ?_⟩
  rw [h4, hcom, if_pos hmode, hu.regionOf (by decide), hu.cell (by decide)]

/-- REPLAY from a device: pending and working of the region are discarded (R30). -/
theorem systemVote_replays (hn : s.getN F.qctCommitted_count r + 1 ≠ s.exec r)
    (hrp : (s.fullToken r (s.getN F.qctCommitted_count r + 1)).rp ≠ 0) :
    let t := s.systemVote r pads bad
    t.getN F.qctCommitted_count r = s.getN F.qctCommitted_count r ∧
    t.getN F.qctReplays_count r = min (s.getN F.qctReplays_count r + 1) (2 ^ 32 - 1) ∧
    (t.region r).waiting = false ∧ ∀ key, (t.cell key).v =
      if s.regionOf (key / 64) = some r then ⟨(s.cell key).v.com, none, (s.cell key).v.com⟩ else (s.cell key).v := by
  rw [systemVote_due pads bad hn]
  extract_lets n t u v
  rw [show v = u.replayVote r n t.fault bad from if_neg hrp]
  have hu : State.Only _ s u := voteTaken_frame s r n t
  obtain ⟨hreplays, hcount⟩ := replayVote_counts u r n t.fault bad
  refine ⟨hcount.trans (hu.getN _ _ (by decide)), hreplays.trans ?_, replayVote_waiting .., fun key => ?_⟩
  · rw [hu.getN _ _ (by decide)]
  · rw [replayVote_cell, hu.cell (by decide), hu.regionOf (by decide)]

/-- A capture of which both copies fail keeps what the vote has committed. -/
theorem captureFault_kept (s : State) (r n : Nat) :
    let t := s.captureFault r n
    t.getN F.qctCommitted_count r = s.getN F.qctCommitted_count r ∧
    t.getN F.qctStatus_lastvote r = s.getN F.qctStatus_lastvote r ∧ ∀ key, (t.cell key).v.com = (s.cell key).v.com := by
  have hframe := captureFault_only r n (.refl [.outs, .log, .cells, .gatherings, .regions, .collator, .reg .hubMsixPba,
    .reg .colEv, .reg .qctStatus, .reg .qctFault, .reg .qctHold, .reg .qctRbStat, .reg .qctBmkStat, .reg .logCtl] s)
    (sub_self _)
  refine ⟨hframe.getN _ _ (by decide), ?_⟩
  unfold State.captureFault
  extract_lets u
  have hu : State.Only [.reg .qctFault] s u := recordFault_only r n _ (.refl _ s) (sub_self _)
  obtain ⟨-, -, hvote, -, hcell⟩ := enterQfault_facts u r n
  refine ⟨hvote.trans (hu.getN _ _ (by decide)), fun key => ?_⟩
  rw [hcell, ← hu.cell (by decide) key]
  split <;> rfl

/-- Nothing is due yet: the versions move on without a commit. -/
theorem systemVote_movesOn (hn : s.getN F.qctCommitted_count r + 1 = s.exec r) :
    let t := s.systemVote r pads bad
    t.getN F.qctCommitted_count r = s.getN F.qctCommitted_count r ∧ t.getN F.qctStatus_lastvote r = 3 ∧
    (t.region r).waiting = false ∧ ∀ key, (t.cell key).v.com =
      if s.regionOf (key / 64) = some r then (s.cell key).v.pend.getD (s.cell key).v.com else (s.cell key).v.com := by
  rw [systemVote_none pads bad hn]
  extract_lets v fresh t
  have hopen := voteOpened_frame s r
  have hmoved : State.Only [.cells, .gatherings, .reg .qctStatus] (s.voteOpened r) v :=
    only_putN (onVersions_only r _ _ (.refl _ _) (by decide)) _ _ _ (by decide)
  have hcount : v.getN F.qctCommitted_count r = s.getN F.qctCommitted_count r :=
    (hmoved.getN _ _ (by decide)).trans (hopen.getN _ _ (by decide))
  have hvote : v.getN F.qctStatus_lastvote r = 3 := State.getN_putN_self _ _ _ _ (by decide)
  have hw : (v.region r).waiting = false := by
    rw [hmoved.region (by decide)]; exact (voteOpened_region s r).1
  have hcom : ∀ key, (v.cell key).v.com = if s.regionOf (key / 64) = some r
      then (s.cell key).v.pend.getD (s.cell key).v.com else (s.cell key).v.com := by
    intro key
    have hput : v.cell key = ((s.voteOpened r).onVersions r Ver.rename Gth.rename).cell key :=
      (only_putN (.refl [.reg .qctStatus] _) F.qctStatus_lastvote r 3 (sub_self _)).cell (by decide) key
    rw [hput, part_onVersions _ _ _ _ Ver.com rfl, hopen.regionOf (by decide), hopen.cell (by decide)]
    rfl
  by_cases hbad : (!fresh && bad == 3) = true
  · rw [show t = v.captureFault r (s.exec r + 1) from if_pos hbad]
    obtain ⟨h1, h2, h3⟩ := captureFault_kept v r (s.exec r + 1)
    exact ⟨h1.trans hcount, h2.trans hvote, captureFault_waiting .., fun key => (h3 key).trans (hcom key)⟩
  · rw [show t = v.openNext r (s.exec r + 1) fresh pads from if_neg hbad]
    obtain ⟨-, h2, -⟩ := openNext_status v r (s.exec r + 1) fresh pads
    obtain ⟨h1, h3⟩ := openNext_kept v r (s.exec r + 1) fresh pads
    exact ⟨h1.trans hcount, h2.trans hvote, openNext_waiting _ _ _ hw, fun key => by rw [h3, hcom]⟩

/-- Whatever the outcome, a region that has voted no longer waits. -/
theorem systemVote_waiting (hm : s.systemMode r = true) : ((s.systemVote r pads bad).region r).waiting = false := by
  by_cases hn : s.getN F.qctCommitted_count r + 1 = s.exec r
  · exact (systemVote_movesOn pads bad hn).2.2.1
  · by_cases hrp : (s.fullToken r (s.getN F.qctCommitted_count r + 1)).rp = 0
    · exact (systemVote_commits pads bad hm hn hrp).2.2.1
    · exact (systemVote_replays pads bad hn hrp).2.2.1

/-! ### The commit point of a SYSTEM region -/

/-- A region that waits votes where it stands, once it can. -/
theorem commitPoint_waiting (he : s.executes r = false) (hw : (s.region r).waiting = true) :
    s.commitPoint r pads bad = if s.voteReady r then s.systemVote r pads bad else s := by
  unfold State.commitPoint State.retryVote
  simp only [he, hw, Bool.not_false, Bool.true_and, if_true]

/-- A region whose leaves have ended votes on the state they leave, or waits from then on (R25). -/
theorem commitPoint_system (he : s.executes r = true) (hm : s.systemMode r = true) (hs : s.stage r ≠ 1) :
    s.commitPoint r pads bad =
      let z := s.settleRegion r
      let w := z.updRegion r fun x => { x with live := false, waiting := true }
      if z.voteReady r then z.systemVote r pads bad
      else if w.qstate r = Q.casing then w else w.putN F.qctStatus_state r Q.stretch := by
  have hz := settleRegion_frame s r
  have hmode : (s.settleRegion r).systemMode r = true := (hz.bitF F.qctCfg_mode r (by decide)).trans hm
  have hstage : (s.settleRegion r).stage r ≠ 1 := fun h => hs ((hz.getN F.bndCase_stage r (by decide)).symm.trans h)
  unfold State.commitPoint
  simp only [he, hmode, if_neg hstage, Bool.not_true, Bool.false_eq_true, Bool.true_eq_false, if_false]

end

/-- A region that begins to wait keeps what it has committed and what is pending (R25). -/
theorem stretch_kept (s : State) (r : Nat) :
    let w := s.updRegion r fun x => { x with live := false, waiting := true }
    let t := if w.qstate r = Q.casing then w else w.putN F.qctStatus_state r Q.stretch
    t.getN F.qctCommitted_count r = s.getN F.qctCommitted_count r ∧ (t.region r).waiting = true ∧
    (s.getN F.qctStatus_state r ≠ 1 → t.getN F.qctStatus_state r = 3) ∧ ∀ key, t.cell key = s.cell key := by
  intro w t
  have hw : State.Only [.regions] s w := updRegion_only r _ (.refl _ s) (sub_self _)
  have ht : State.Only [.reg .qctStatus] w t := .ite_ (.refl _ w) (only_putN (.refl _ w) _ _ _ (sub_self _))
  have hstate : w.qstate r = s.getN F.qctStatus_state r := hw.getN F.qctStatus_state r (by decide)
  refine ⟨(ht.getN _ _ (by decide)).trans (hw.getN _ _ (by decide)), ?_, fun hne => ?_, fun key =>
    (ht.cell (by decide) key).trans (hw.cell (by decide) key)⟩
  · rw [ht.region (by decide), region_updRegion_self]
  · have hcase : t = w.putN F.qctStatus_state r Q.stretch := if_neg (by rw [hstate]; exact hne)
    rw [hcase, State.getN_putN_self _ _ _ _ (by decide)]
    rfl

/-- Settles O12: the commit point is the vote on the state at the end of the leaves, or the beginning of a wait; each
outcome of the vote has its lemma. -/
theorem systemQuireVotes : Obligations.SystemQuireVotes := by
  unfold Obligations.SystemQuireVotes
  intro r pads bad s z e n mine hm hcase
  have hz : State.Only [.cells, .gatherings, .regions, .reg .qctFault] s z := by
    simp only [z]; split
    · exact settleRegion_frame s r
    · exact .refl _ s
  have hver : ∀ key, (z.cell key).v.com = (s.cell key).v.com ∧ (z.cell key).v.pend = (s.cell key).v.pend := by
    intro key; simp only [z]; split
    · exact settleRegion_versions s r key
    · exact ⟨rfl, rfl⟩
  have hother : ∀ key, ¬ mine key → z.cell key = s.cell key := by
    intro key ho; simp only [z]; split
    · exact (settleRegion_cell s r key).2.1 ho
    · rfl
  have hcount : z.getN F.qctCommitted_count r = s.getN F.qctCommitted_count r := hz.getN _ _ (by decide)
  have hreplays : z.getN F.qctReplays_count r = s.getN F.qctReplays_count r := hz.getN _ _ (by decide)
  have hexec : z.exec r = e := hz.getN F.qctExec_count r (by decide)
  have hrof : ∀ g, z.regionOf g = s.regionOf g := hz.regionOf (by decide)
  have hmode : z.systemMode r = true := (hz.bitF F.qctCfg_mode r (by decide)).trans hm
  have hready : z.voteReady r = true → s.commitPoint r pads bad = z.systemVote r pads bad := by
    intro hv
    rcases hcase with ⟨he, hs⟩ | ⟨he, hw⟩
    · have hzs : z = s.settleRegion r := if_pos he
      rw [commitPoint_system pads bad he hm hs, ← hzs]
      exact if_pos hv
    · have hzs : z = s := if_neg (by simp [he])
      rw [hzs] at hv
      rw [commitPoint_waiting pads bad he hw, hzs]
      exact if_pos hv
  refine ⟨s.commitPoint r pads bad, rfl, fun hv => ?_, fun hv => ?_, fun hv hne hrp => ?_, fun hv hne hrp => ?_,
    fun hv heq => ?_⟩
  · rcases hcase with ⟨he, hs⟩ | ⟨he, hw⟩
    · have hzs : z = s.settleRegion r := if_pos he
      have ht := commitPoint_system pads bad he hm hs
      rw [← hzs] at ht
      simp only [hv, Bool.false_eq_true, if_false] at ht
      obtain ⟨h1, h2, h3, h4⟩ := stretch_kept z r
      rw [hcount] at h1
      rw [hz.getN _ _ (by decide)] at h3
      rw [if_neg (by simp [he]), ht]
      exact ⟨congrArg (· + 1) h1, h2, h3, fun key => by rw [h4]; exact hver key⟩
    · have hzs : z = s := if_neg (by simp [he])
      rw [hzs] at hv
      rw [if_pos he, commitPoint_waiting pads bad he hw, hv]
      rfl
  · rw [hready hv]
    exact systemVote_waiting pads bad hmode
  · obtain ⟨h1, h2, -, h4⟩ := systemVote_commits pads bad hmode (by rwa [hcount, hexec]) (by rwa [hcount])
    rw [hcount] at h1
    rw [hready hv]
    refine ⟨h1, h2, fun key => ?_⟩
    rw [h4, hrof, (hver key).1, (hver key).2]
  · obtain ⟨h1, h2, -, h4⟩ := systemVote_replays pads bad (by rwa [hcount, hexec]) (by rwa [hcount])
    rw [hcount] at h1
    rw [hreplays] at h2
    rw [hready hv]
    refine ⟨congrArg (· + 1) h1, h2, fun key => ?_⟩
    rw [h4, hrof]
    split
    · rw [(hver key).1]
    · next ho => rw [hother key ho]
  · obtain ⟨h1, h2, -, h4⟩ := systemVote_movesOn pads bad (by rwa [hcount, hexec])
    rw [hcount] at h1
    rw [hready hv]
    refine ⟨congrArg (· + 1) h1, h2, fun key => ?_⟩
    rw [h4, hrof, (hver key).1, (hver key).2]

end Sys2Proof.Machine
end

section
/-!
Proofs of the quire family, 3: system commands as they come, are forwarded and act (R33, R189, R190, R195, R380).
-/
namespace Sys2Proof.Machine

/-! ### A numbered frame taken off its port (R184) -/

theorem port_updPort (s : State) (p q : Nat) (f : Port → Port) :
    (s.updPort p f).port q = if p = q then f (s.port q) else s.port q := Sparse.at_upd ..

/-- From `s` to `t` a frame has been taken off port `p`: the other ports, the system commands and the registers stay. -/
structure PortTaken (s t : State) (p : Nat) : Prop where
  regs : t.regs = s.regs
  seenCmds : t.fst.seenCmds = s.fst.seenCmds
  scheduled : t.fst.scheduled = s.fst.scheduled
  pull : t.fst.pull = s.fst.pull
  port : ∀ q, p ≠ q → t.port q = s.port q

theorem PortTaken.refl (s : State) (p : Nat) : PortTaken s s p := ⟨rfl, rfl, rfl, rfl, fun _ _ => rfl⟩

theorem PortTaken.updPort {s t : State} {p : Nat} (h : PortTaken s t p) (f : Port → Port) : PortTaken s (t.updPort p f) p :=
  ⟨h.regs, h.seenCmds, h.scheduled, h.pull, fun q hq => by rw [port_updPort, if_neg hq, h.port q hq]⟩

theorem Port.expSeq_ack (x : Port) (a : Nat) : (x.ack a).expSeq = x.expSeq := by
  unfold Port.ack; split <;> rfl

/-- A frame with the SEQ that the port expects is in order. -/
theorem inOrder_expected {s t : State} {p : Nat} {f : Frame} (h : PortTaken s t p) (hf : FH.seq f = (t.port p).expSeq) :
    ∃ u, t.inOrder p f = (true, u) ∧ PortTaken s u p := by
  have ha : FH.seq f = ((t.updPort p fun x => x.ack (FH.ackseq f)).port p).expSeq := by
    rw [port_updPort, if_pos rfl, Port.expSeq_ack, hf]
  exact ⟨_, if_pos ha, (h.updPort _).updPort _⟩

/-- With a known command or data at its head a port drops nothing. -/
theorem dropUnknown_known {s : State} {p : Nat} {x : Nat × Frame}
    (hx : (s.port p).rx.find? (fun y => AF.isSeq y.2) = some x)
    (hk : (AF.isSys x.2 && (AF.cmd x.2 == 0 || decide (5 < AF.cmd x.2))) = false) : s.dropUnknown p = s := by
  refine List.foldl_fixed' (fun _ => ?_) _
  rw [hx]
  exact if_neg (by rw [hk]; decide)

/-- The numbered frame at the head of a port, where it is wanted and in order, is taken. -/
theorem takeSeq_expected {s : State} {p : Nat} {x : Nat × Frame} {want : Frame → Bool}
    (hx : (s.port p).rx.find? (fun y => AF.isSeq y.2) = some x)
    (hk : (AF.isSys x.2 && (AF.cmd x.2 == 0 || decide (5 < AF.cmd x.2))) = false) (hw : want x.2 = true)
    (hs : FH.seq x.2 = (s.port p).expSeq) : ∃ t, s.takeSeq p want = (some x.2, t) ∧ PortTaken s t p := by
  have ht := (PortTaken.refl s p).updPort fun y => { y with rx := y.rx.erase x }
  obtain ⟨u, hu, h⟩ := inOrder_expected ht (f := x.2) (by rw [port_updPort, if_pos rfl, hs])
  refine ⟨u, ?_, h⟩
  unfold State.takeSeq
  rw [dropUnknown_known hx hk]
  simp only [hx, hw, hu, if_true]

/-! ### A command forwarded (R189, R190) -/

/-- A command queued on each of several ports: one frame more on each of them, and no other change of what waits. -/
theorem sendSys_all (n : Nat) (ws : List Word) (q : Nat) : ∀ (l : List Nat) (s : State), l.Nodup →
    let t := l.foldl (fun s p => s.sendSys p n ws) s
    t.fst.seenCmds = s.fst.seenCmds ∧ t.fst.scheduled = s.fst.scheduled ∧
    (q ∈ l → (t.port q).txSys =
      (s.port q).txSys ++ [asyncFrame 2 (((s.port q).peer.map Prod.fst).getD 0) s.devIdx n 0 ws]) ∧
    (q ∉ l → t.port q = s.port q)
  | [], s, _ => ⟨rfl, rfl, fun h => absurd h List.not_mem_nil, fun _ => rfl⟩
  | p :: l, s, hl => by
    obtain ⟨hp, hl⟩ := List.nodup_cons.mp hl
    obtain ⟨hseen, hsched, hin, hout⟩ := sendSys_all n ws q l (s.sendSys p n ws) hl
    refine ⟨hseen, hsched, fun hq => ?_, fun hq => ?_⟩
    · rcases eq_or_ne p q with rfl | hne
      · rw [List.foldl_cons, hout hp]
        exact congrArg Port.txSys ((port_updPort ..).trans (if_pos rfl))
      · have hport : (s.sendSys p n ws).port q = s.port q := (port_updPort ..).trans (if_neg hne)
        rw [List.foldl_cons, hin ((List.mem_cons.mp hq).resolve_left hne.symm), hport]
        rfl
    · obtain ⟨hne, hq⟩ := not_or.mp (mt List.mem_cons.mpr hq)
      rw [List.foldl_cons, hout hq]
      exact (port_updPort ..).trans (if_neg (Ne.symm hne))

theorem portUp_regs {s t : State} (h : t.regs = s.regs) (q : Nat) : t.portUp q = s.portUp q := by
  unfold State.portUp; rw [State.getN_regs h]

theorem actsAt_regs {s t : State} (h : t.regs = s.regs) (w : Nat) : t.actsAt w = s.actsAt w := by
  unfold State.actsAt State.nowPs State.reg; rw [State.getN_regs h, State.getN_regs h, h]

/-- A command that the device has seen does nothing. -/
theorem takeCommand_seen {s : State} {p : Nat} {f : Frame} (h : (AF.origin f, AF.cseq f) ∈ s.fst.seenCmds) :
    s.takeCommand p f = s := if_pos (List.contains_iff_mem.mpr h)

/-- A command received for the first time is marked as seen, scheduled but for a START against the pulled line, and sent on
with the latency of its hop added. -/
theorem takeCommand_new {s : State} {p : Nat} {f : Frame} (h : (AF.origin f, AF.cseq f) ∉ s.fst.seenCmds) :
    let t := s.takeCommand p f
    let w2 : Word := frameWord f 2 + BitVec.ofNat 40 (s.getN F.fstPortStat_hoplat_ps p)
    (AF.origin f, AF.cseq f) ∈ t.fst.seenCmds ∧
    t.fst.scheduled = s.fst.scheduled ++ (if AF.cmd f = 1 ∧ s.fst.pull = true then []
      else [⟨AF.cmd f, AF.origin f, AF.cseq f, frameWord f 1, s.actsAt w2.toNat⟩]) ∧
    ∀ q < 8, q ≠ p → s.portUp q = true → (t.port q).txSys = (s.port q).txSys ++
      [asyncFrame 2 (((s.port q).peer.map Prod.fst).getD 0) s.devIdx 3 0 [frameWord f 0, frameWord f 1, w2]] := by
  unfold State.takeCommand
  rw [if_neg (by rwa [List.contains_iff_mem])]
  extract_lets w2 y u v t
  obtain ⟨hfst, hframe⟩ : v.fst = { u.fst with scheduled := s.fst.scheduled ++ (if AF.cmd f = 1 ∧ s.fst.pull = true then []
      else [⟨AF.cmd f, AF.origin f, AF.cseq f, frameWord f 1, s.actsAt w2.toNat⟩]) } ∧
      State.Only [.log, .fuist, .collator, .reg .colEv, .reg .logCtl] u v := by
    by_cases hc : AF.cmd f = 1 ∧ s.fst.pull = true
    · have hv : v = u.logOther .fstBound 0 := if_pos hc
      have hlog : State.Only [.log, .collator, .reg .colEv, .reg .logCtl] u v :=
        hv ▸ logOther_only .fstBound 0 (.refl _ u) (sub_self _)
      refine ⟨?_, hlog.mono (by decide)⟩
      rw [if_pos hc, List.append_nil]
      exact hlog.same .fuist (by decide)
    · have hv : v = u.schedule _ := if_neg hc
      rw [if_neg hc, hv]
      exact ⟨rfl, schedule_only _ (.refl _ u) (by decide)⟩
  have hup : ∀ q, v.portUp q = s.portUp q := fun q =>
    congrArg (· == 2) (hframe.getN F.fstPortStat_state q (by decide))
  have hdev : v.devIdx = s.devIdx := hframe.getN F.fstSys_devidx 0 (by decide)
  have hport : ∀ q, v.port q = s.port q := fun q => by unfold State.port; rw [hfst]
  have hall := fun q => sendSys_all 3 [frameWord f 0, frameWord f 1, w2] q (v.portsUp.filter (· != p)) v
    ((List.nodup_range.filter _).filter _)
  refine ⟨?_, ?_, fun q hq hne hqup => ?_⟩
  · rw [(hall 0).1, hfst]
    exact List.mem_cons_self
  · rw [(hall 0).2.1, hfst]
  · have hmem : q ∈ v.portsUp.filter (· != p) := by
      simp only [State.portsUp, List.mem_filter, List.mem_range, bne_iff_ne]
      exact ⟨⟨hq, (hup q).trans hqup⟩, hne⟩
    rw [(hall q).2.2.1 hmem, hport, hdev]

/-- A system command at the head of its port is taken, and handled as the state after it stands. -/
theorem syscmd_taken {s : State} {p c : Nat} {x : Nat × Frame} (hc : c ∈ [1, 2, 3])
    (hx : (s.port p).rx.find? (fun y => AF.isSeq y.2) = some x) (hsys : AF.isSys x.2 = true) (hcmd : AF.cmd x.2 = c)
    (hs : FH.seq x.2 = (s.port p).expSeq) : ∃ t, s.syscmd p c = t.takeCommand p x.2 ∧ PortTaken s t p := by
  have hcodes : ∀ c ∈ [1, 2, 3], (true && (c == 0 || decide (5 < c))) = false := by decide
  have hknown : (AF.isSys x.2 && (AF.cmd x.2 == 0 || decide (5 < AF.cmd x.2))) = false := by
    rw [hsys, hcmd]; exact hcodes c hc
  obtain ⟨t, ht, h⟩ := takeSeq_expected (want := isCmd c) hx hknown (by simp [isCmd, hsys, hcmd]) hs
  refine ⟨t, ?_, h⟩
  unfold State.syscmd
  rw [ht]

/-! ### The command that is due first (R190) -/

/-- The command found so far, or the one that comes after it in the list and is due earlier. -/
def earlier (b : Option SysCmd) (c : SysCmd) : Option SysCmd :=
  match b with
  | none => some c
  | some x => if c.due < x.due then some c else b

theorem firstDue_eq (l : List SysCmd) : firstDue l = l.foldl earlier none := rfl

/-- What comes after the first command that is due earliest is not due before it. -/
theorem foldl_earlier_of_le {c : SysCmd} {l : List SysCmd} (h : ∀ x ∈ l, c.due ≤ x.due) :
    l.foldl earlier (some c) = some c := by
  induction l with
  | nil => rfl
  | cons x l ih =>
    have hx : earlier (some c) x = some c := if_neg (not_lt.mpr (h x List.mem_cons_self))
    rw [List.foldl_cons, hx, ih fun y hy => h y (List.mem_cons_of_mem _ hy)]

/-- A command that is due before every other one found so far takes its place. -/
theorem foldl_earlier_of_lt {c : SysCmd} {l : List SysCmd} (h : ∀ x ∈ l, c.due < x.due) :
    ∀ {b : Option SysCmd}, (∀ x ∈ b, c.due < x.due) → earlier (l.foldl earlier b) c = some c := by
  induction l with
  | nil =>
    intro b hb
    cases b with
    | none => rfl
    | some x => exact if_pos (hb x rfl)
  | cons x l ih =>
    intro b hb
    refine ih (fun y hy => h y (List.mem_cons_of_mem _ hy)) fun y hy => ?_
    cases b with
    | none => exact Option.some.inj hy ▸ h x List.mem_cons_self
    | some z =>
      change y ∈ (if x.due < z.due then some x else some z) at hy
      split at hy
      · exact Option.some.inj hy ▸ h x List.mem_cons_self
      · exact hb y hy

theorem firstDue_append {pre post : List SysCmd} {c : SysCmd} (hpre : ∀ x ∈ pre, c.due < x.due)
    (hpost : ∀ x ∈ post, c.due ≤ x.due) : firstDue (pre ++ c :: post) = some c := by
  rw [firstDue_eq, List.foldl_append, List.foldl_cons, foldl_earlier_of_lt hpre (fun x hx => by cases hx),
    foldl_earlier_of_le hpost]

/-- The scheduled command that is due no later than any other, and of several the one at the lowest index, is the one that
acts, and its place is the one that is left. -/
theorem firstDue_at {l : List SysCmd} {i : Nat} {c : SysCmd} (hi : i < l.length) (hc : l[i]? = some c)
    (h : ∀ j < l.length, ∀ x, l[j]? = some x → c.due ≤ x.due ∧ (x.due = c.due → i ≤ j)) :
    firstDue l = some c ∧ l.erase c = l.eraseIdx i := by
  have hget : l[i] = c := by rwa [List.getElem?_eq_getElem hi, Option.some_inj] at hc
  have hl : l = l.take i ++ c :: l.drop (i + 1) := by
    rw [← hget, ← List.drop_eq_getElem_cons hi, List.take_append_drop]
  have hpre : ∀ x ∈ l.take i, c.due < x.due := by
    intro x hx
    obtain ⟨j, hj, rfl⟩ := List.mem_take_iff_getElem.mp hx
    obtain ⟨hle, hfirst⟩ := h j (by omega) _ (List.getElem?_eq_getElem (by omega))
    exact lt_of_le_of_ne hle fun he => by have := hfirst he.symm; omega
  have hpost : ∀ x ∈ l.drop (i + 1), c.due ≤ x.due := by
    intro x hx
    obtain ⟨j, hj, rfl⟩ := List.mem_iff_getElem.mp (List.mem_of_mem_drop hx)
    exact (h j hj _ (List.getElem?_eq_getElem hj)).1
  constructor
  · rw [hl]
    exact firstDue_append hpre hpost
  · rw [List.eraseIdx_eq_take_drop_succ]
    conv_lhs => rw [hl]
    rw [List.erase_append_right _ fun hm => lt_irrefl _ (hpre c hm), List.erase_cons_head]

/-! ### START, RETRY and RELEASE act -/

/-- The region in SYSTEM mode stands where neither modes nor lengths change. -/
theorem systemRegion_only {ps : List Part} {s t : State} (h : State.Only ps s t) (hp : Part.reg .qctCfg ∉ ps) :
    t.systemRegion = s.systemRegion := by
  have hreg : ∀ r, (t.systemMode r && t.len r != 0) = (s.systemMode r && s.len r != 0) := fun r => by
    unfold State.systemMode State.len; rw [h.bitF _ _ hp, h.getN _ _ hp]
  unfold State.systemRegion
  simp only [hreg]

/-- A START against the pulled line is logged and changes nothing else of the line (R195). -/
theorem startAct_pulled {s : State} (w1 : Nat) (pads : BitVec 192) (hp : s.fst.pull = true) :
    (s.startAct w1 pads).getN F.fstBound_state 0 = s.getN F.fstBound_state 0 := by
  have ht : s.startAct w1 pads = s.logOther .fstBound 0 := if_pos hp
  rw [ht, (logOther_only .fstBound 0 (.refl _ s) (sub_self _)).getN _ _ (by decide)]

/-- A START that acts starts the device's line, and opens the quire that it names where casing-in waits for it (R195). -/
theorem startAct_open {s : State} (w1 : Nat) (pads : BitVec 192) (hp : s.fst.pull = false) :
    (s.startAct w1 pads).getN F.fstBound_state 0 = 3 ∧ (s.startAct w1 pads).bitF F.fstBound_start_ev 0 = true ∧
    ∀ r, s.systemRegion = some r → s.getN F.qctStatus_state r = 1 → s.getN F.bndCase_stage r = 1 →
      (s.startAct w1 pads).getN F.qctExec_count r = w1 % 2 ^ 64 := by
  unfold State.startAct
  rw [if_neg (by simp [hp])]
  extract_lets u
  have hu : State.Only [.reg .fstBound] s u := 
    only_setF (only_putN (.refl _ s) F.fstBound_state 0 3 (by decide)) F.fstBound_start_ev 0 (by decide)
  have hstate : u.getN F.fstBound_state 0 = 3 := by
    simp (disch := decide) only [u, State.setF, State.getN, State.putN, State.getF_putF_apart, State.getF_putF_self]
    decide
  have hev : u.bitF F.fstBound_start_ev 0 = true := State.bitF_setF_self _ _ _ (by decide)
  rw [systemRegion_only hu (by decide)]
  cases hr : s.systemRegion with
  | none => exact ⟨hstate, hev, fun r h => by cases h⟩
  | some r =>
    have hq : u.qstate r = s.getN F.qctStatus_state r := hu.getN F.qctStatus_state r (by decide)
    have hs : u.stage r = s.getN F.bndCase_stage r := hu.getN F.bndCase_stage r (by decide)
    by_cases hcase : u.qstate r = Q.casing ∧ u.stage r = 1
    · dsimp only
      rw [if_pos hcase]
      have hend : ∀ {x : State}, State.Only [.free, .boot, .reg .hubBoot] x (x.startEnded true) :=
        startEnded_only true (.refl _ _) (sub_self _)
      have hopen := openQuire_only r w1 true pads (only_putN (.refl [.free, .gatherings, .regions, .collator, .reg .colEv,
        .reg .bndStat, .reg .bndCase, .reg .qctExec, .reg .qctStatus] u) F.bndCase_stage r 2 (by decide)) (by decide)
      refine ⟨?_, ?_, fun r' hr' _ _ => ?_⟩
      · rw [hend.getN _ _ (by decide), hopen.getN _ _ (by decide), hstate]
      · rw [hend.bitF _ _ (by decide), hopen.bitF _ _ (by decide), hev]
      · obtain rfl := Option.some.inj hr'
        rw [hend.getN _ _ (by decide)]
        exact (openQuire_status (u.putN F.bndCase_stage r 2) r w1 true pads).2.2.2
    · dsimp only
      rw [if_neg hcase]
      have hlog : State.Only [.log, .collator, .reg .colEv, .reg .logCtl] u (u.logOther .fstBound 0) :=
        logOther_only .fstBound 0 (.refl _ u) (sub_self _)
      refine ⟨(hlog.getN _ _ (by decide)).trans hstate, (hlog.bitF _ _ (by decide)).trans hev, fun r' hr' hq' hs' => ?_⟩
      obtain rfl := Option.some.inj hr'
      exact absurd ⟨hq.trans hq', hs.trans hs'⟩ hcase

/-- A RETRY recomputes the quire after the committed one with no attempt counted (R33). -/
theorem retryRegion_status {bad : BitVec 2} (s : State) (r : Nat) (hb : bad ≠ 3) :
    (s.retryRegion r bad).getN F.qctExec_count r = (s.getN F.qctCommitted_count r + 1) % 2 ^ 64 ∧
    (s.retryRegion r bad).getN F.qctStatus_attempt r = 0 := by
  unfold State.retryRegion
  extract_lets n v x y u
  rw [if_neg hb]
  obtain ⟨hatt, -, -, hexec⟩ := openQuire_status u r n false 0
  refine ⟨hexec, hatt.trans ?_⟩
  have huy : u.getN F.qctStatus_attempt r = y.getN F.qctStatus_attempt r := getN_of_regs (updRegion_regs ..) _ _
  rw [huy, State.getN_putN_apart _ _ _ _ _ _ (by decide), State.getN_putN_self _ _ _ _ (by decide)]
  rfl

/-- A released region runs the quire after the committed one with no attempt counted (R379). -/
theorem resume_status (s : State) (r : Nat) (pads : BitVec 192) :
    (s.resume r pads).getN F.qctExec_count r = (s.getN F.qctCommitted_count r + 1) % 2 ^ 64 ∧
    (s.resume r pads).getN F.qctStatus_state r = 2 ∧ (s.resume r pads).getN F.qctStatus_attempt r = 0 := by
  unfold State.resume
  extract_lets n v
  obtain ⟨hatt, -, hstate, hexec⟩ := openQuire_status v r (n + 1) (!v.systemMode r) pads
  have hrun : v.getN F.qctStatus_state r = 2 := State.getN_putN_self _ _ _ _ (by decide)
  refine ⟨hexec, (hstate (by rw [hrun]; decide)).trans hrun, hatt.trans ?_⟩
  rw [State.getN_putN_apart _ _ _ _ _ _ (by decide), State.getN_putN_self _ _ _ _ (by decide)]
  rfl

/-- The state without the command that acts. -/
def State.unscheduled (s : State) (c : SysCmd) : State :=
  { s with fst := { s.fst with scheduled := s.fst.scheduled.erase c } }

/-- What the moment of a command does on the device: START, RETRY or RELEASE. -/
def State.commandActs (s : State) (c : SysCmd) (pads : BitVec 192) (bad : BitVec 2) : State :=
  match c.cmd, s.systemRegion with
  | 0x01, _ => s.startAct c.w1.toNat pads
  | 0x02, _ => s.retryAct bad
  | 0x03, some r => s.releaseAct r c.w1.toNat pads
  | _, _ => s

theorem exec_syscmdAct {s : State} {c : SysCmd} (pads : BitVec 192) (bad : BitVec 2) (h : firstDue s.fst.scheduled = some c) :
    exec (.syscmdAct pads bad) s = .next ((s.unscheduled c).commandActs c pads bad) := by
  change execSyscmdAct pads bad s = _
  unfold execSyscmdAct
  rw [h]
  rfl

/-- No command that acts changes what is scheduled. -/
theorem commandActs_fst (s : State) (c : SysCmd) (pads : BitVec 192) (bad : BitVec 2) :
    (s.commandActs c pads bad).fst = s.fst := by
  unfold State.commandActs
  split
  · exact (startAct_only _ pads (.refl _ s) (sub_self _)).same .fuist (by decide)
  · exact (retryAct_only bad (.refl _ s) (sub_self _)).same .fuist (by decide)
  · exact (releaseAct_only _ _ pads (.refl _ s) (sub_self _)).same .fuist (by decide)
  · rfl

/-- RETRY acts in QFAULT and TOKEN_LOST alone. -/
theorem retryAct_status {s : State} {r : Nat} {bad : BitVec 2} (hr : s.systemRegion = some r) :
    if s.getN F.qctStatus_state r = 6 ∨ s.getN F.qctStatus_state r = 7 then
      bad ≠ 3 → (s.retryAct bad).getN F.qctExec_count r = (s.getN F.qctCommitted_count r + 1) % 2 ^ 64 ∧
        (s.retryAct bad).getN F.qctStatus_attempt r = 0
    else (s.retryAct bad).getN F.qctStatus_state r = s.getN F.qctStatus_state r := by
  have hact : s.retryAct bad = if s.qstate r = Q.qfault ∨ s.qstate r = Q.tokenLost then s.retryRegion r bad else s := by
    unfold State.retryAct; rw [hr]
  by_cases h : s.getN F.qctStatus_state r = 6 ∨ s.getN F.qctStatus_state r = 7
  · rw [if_pos h, show s.retryAct bad = s.retryRegion r bad from hact.trans (if_pos h)]
    exact retryRegion_status s r
  · rw [if_neg h, show s.retryAct bad = s from hact.trans (if_neg h)]

/-- RELEASE acts in HELD, where it names the quire after the committed one (R380). -/
theorem releaseAct_status (s : State) (r w1 : Nat) (pads : BitVec 192) :
    if s.getN F.qctStatus_state r = 5 ∧ (s.getN F.qctCommitted_count r + 1) % 2 ^ 40 = w1 then
      (s.releaseAct r w1 pads).getN F.qctExec_count r = (s.getN F.qctCommitted_count r + 1) % 2 ^ 64 ∧
        (s.releaseAct r w1 pads).getN F.qctStatus_state r = 2 ∧ (s.releaseAct r w1 pads).getN F.qctStatus_attempt r = 0
    else (s.releaseAct r w1 pads).getN F.qctStatus_state r = s.getN F.qctStatus_state r := by
  by_cases h : s.getN F.qctStatus_state r = 5 ∧ (s.getN F.qctCommitted_count r + 1) % 2 ^ 40 = w1
  · rw [if_pos h, show s.releaseAct r w1 pads = s.resume r pads from if_pos h]
    exact resume_status s r pads
  · rw [if_neg h, show s.releaseAct r w1 pads = s.logOther .qctHold r from if_neg h]
    exact (logOther_only .qctHold r (.refl _ s) (sub_self _)).getN _ _ (by decide)

/-! ### The two halves of the statement -/

section
variable {s : State} {p c : Nat} {x : Nat × Frame} (hc : c ∈ [1, 2, 3])
  (hx : (s.port p).rx.find? (fun y => AF.isSeq y.2) = some x) (hsys : AF.isSys x.2 = true) (hcmd : AF.cmd x.2 = c)
  (hs : FH.seq x.2 = (s.port p).expSeq)
include hc hx hsys hcmd hs

/-- A repeated command schedules nothing. -/
theorem syscmd_seen (hseen : (AF.origin x.2, AF.cseq x.2) ∈ s.fst.seenCmds) :
    (s.syscmd p c).fst.scheduled = s.fst.scheduled := by
  obtain ⟨u, hu, htaken⟩ := syscmd_taken hc hx hsys hcmd hs
  rw [hu, takeCommand_seen (htaken.seenCmds ▸ hseen), htaken.scheduled]

/-- A command received for the first time. -/
theorem syscmd_new (hnew : (AF.origin x.2, AF.cseq x.2) ∉ s.fst.seenCmds) :
    let t := s.syscmd p c
    let w2 : Word := frameWord x.2 2 + BitVec.ofNat 40 (s.getN F.fstPortStat_hoplat_ps p)
    (AF.origin x.2, AF.cseq x.2) ∈ t.fst.seenCmds ∧
    t.fst.scheduled = s.fst.scheduled ++ (if c = 1 ∧ s.fst.pull = true then []
      else [⟨c, AF.origin x.2, AF.cseq x.2, frameWord x.2 1, s.actsAt w2.toNat⟩]) ∧
    ∀ q < 8, q ≠ p → s.portUp q = true → (t.port q).txSys = (s.port q).txSys ++
      [asyncFrame 2 (((s.port q).peer.map Prod.fst).getD 0) s.devIdx 3 0 [frameWord x.2 0, frameWord x.2 1, w2]] := by
  obtain ⟨u, hu, htaken⟩ := syscmd_taken hc hx hsys hcmd hs
  obtain ⟨h1, h2, h3⟩ := takeCommand_new (p := p) (f := x.2) (s := u) (htaken.seenCmds ▸ hnew)
  have hhop : u.getN F.fstPortStat_hoplat_ps p = s.getN F.fstPortStat_hoplat_ps p := State.getN_regs htaken.regs _ _
  have hdev : u.devIdx = s.devIdx := State.getN_regs htaken.regs _ _
  rw [hhop, htaken.scheduled, htaken.pull, hcmd, actsAt_regs htaken.regs] at h2
  rw [hu]
  refine ⟨h1, h2, fun q hq hne hup => ?_⟩
  rw [h3 q hq hne ((portUp_regs htaken.regs q).trans hup), hhop, htaken.port q hne.symm, hdev]

end

/-- Settles O23: a command that comes is taken off its port and handled; the one that is due first acts as its code says.
`syscmd_new` gives the forwarding on every port numbered below 8; the statement's `q < 8` compares two `PortId`s, where the
numeral 8 is 0, and so asks for less. -/
theorem systemCommands : Obligations.SystemCommands := by
  unfold Obligations.SystemCommands
  intro s pads bad
  refine ⟨fun p i c hi x hx hsys hcmd hs => ?_, fun i hi c hc hfirst => ?_⟩
  · obtain ⟨hexec, hc⟩ : exec i s = .next (s.syscmd p c) ∧ c ∈ [1, 2, 3] := by
      simp only [List.mem_cons, List.not_mem_nil, or_false, Prod.mk.injEq] at hi
      rcases hi with ⟨rfl, rfl⟩ | ⟨rfl, rfl⟩ | ⟨rfl, rfl⟩ <;> exact ⟨rfl, by decide⟩
    refine ⟨_, hexec, ?_⟩
    by_cases hseen : (AF.origin x.2, AF.cseq x.2) ∈ s.fst.seenCmds
    · exact (if_pos hseen).mpr (syscmd_seen hc hx hsys hcmd hs hseen)
    · obtain ⟨hmark, hsched, hsent⟩ := syscmd_new hc hx hsys hcmd hs hseen
      exact (if_neg hseen).mpr ⟨hmark, hsched, fun q _ hne => hsent q q.isLt (Fin.val_ne_of_ne hne)⟩
  · obtain ⟨hdue, herase⟩ := firstDue_at hi hc hfirst
    refine ⟨_, exec_syscmdAct pads bad hdue, ?_⟩
    have hfst := commandActs_fst (s.unscheduled c) c pads bad
    refine ⟨(congrArg FuistState.scheduled hfst).trans herase, fun h1 => ?_, fun r hr => ⟨fun h1 hp => ?_, fun h2 => ?_,
      fun h3 => ?_⟩⟩
    · rw [State.commandActs, h1]
      by_cases hp : s.fst.pull = true
      · rw [if_pos hp]
        exact startAct_pulled (s := s.unscheduled c) c.w1.toNat pads hp
      · obtain ⟨hstate, hev, -⟩ :=
          startAct_open (s := s.unscheduled c) c.w1.toNat pads (Bool.eq_false_iff.mpr hp)
        rw [if_neg hp]
        exact ⟨hstate, hev⟩
    · rw [State.commandActs, h1]
      exact (startAct_open (s := s.unscheduled c) c.w1.toNat pads hp).2.2 r hr
    · rw [State.commandActs, h2]
      exact retryAct_status (s := s.unscheduled c) hr
    · have hact : (s.unscheduled c).commandActs c pads bad = (s.unscheduled c).releaseAct r c.w1.toNat pads := by
        rw [State.commandActs, h3, show (s.unscheduled c).systemRegion = some r from hr]
        rfl
      rw [hact]
      exact releaseAct_status (s.unscheduled c) r c.w1.toNat pads

end Sys2Proof.Machine
end

section
/-!
Proofs of the quire family, 4: folio words and queues as the cells use them (R28, R92 to R98, R107, R140).
-/
namespace Sys2Proof.Machine

/-! ### The operand fields of a folio request (R92, R93) -/

theorem Imm.tgt_eq (i : Word) : Imm.tgt i = i.toNat % 8 := by
  simp [Imm.tgt, BitVec.extractLsb'_toNat]

theorem Imm.ofs_eq (i : Word) : Imm.ofs i = i.toNat / 16 % 2048 := by
  simp [Imm.ofs, BitVec.extractLsb'_toNat, Nat.shiftRight_eq_div_pow]

theorem Imm.que_eq (i : Word) : Imm.que i = i.toNat / 2 ^ 16 % 4 := by
  simp [Imm.que, BitVec.extractLsb'_toNat, Nat.shiftRight_eq_div_pow]

theorem folioAddr_eq (x : CellAt) (a : RWord) : folioAddr x a =
    if (Leaf.imm x.leaf).getLsbD 15 then ((Leaf.imm x.leaf).toNat / 16 % 2048 + a.d.toNat % 2048) % 2048
    else (Leaf.imm x.leaf).toNat / 16 % 2048 := by
  have ha : (a.d.extractLsb' 0 11).toNat = a.d.toNat % 2048 := by simp [BitVec.extractLsb'_toNat]
  unfold folioAddr
  dsimp only
  rw [Imm.ofs_eq, ha]
  rfl

/-! ### What a leaf leaves of its cell and of the folio blocks -/

/-- From `s` to `t` the leaf `x` has written no word of its cell and nothing of a folio, press or queue; no design check
and no charge is lost. -/
structure LeafLeft (s t : State) (x : CellAt) : Prop where
  v : (t.cell x.key).v = (s.cell x.key).v
  returns : (t.cell x.key).returns = (s.cell x.key).returns
  folio : ∀ g, FolioKept (s.gth g) (t.gth g)
  check : ∀ g, (s.gth g).checkW ≠ none → (t.gth g).checkW ≠ none
  charges : Charges s t

theorem LeafLeft.refl (s : State) (x : CellAt) : LeafLeft s s x :=
  ⟨rfl, rfl, fun _ => .refl _, fun _ h => h, .refl s⟩

theorem LeafLeft.trans {s t u : State} {x : CellAt} (h : LeafLeft s t x) (k : LeafLeft t u x) : LeafLeft s u x :=
  ⟨k.v.trans h.v, k.returns.trans h.returns, fun g => (h.folio g).trans (k.folio g), fun g hg => k.check g (h.check g hg),
    h.charges.trans k.charges⟩

/-- An update of one gathering that touches neither folio, press nor queue and keeps a design check. -/
theorem LeafLeft.updGth (s : State) (x : CellAt) (g : Nat) {f : Gth → Gth} (hf : ∀ y, FolioKept y (f y))
    (hc : ∀ y, y.checkW ≠ none → (f y).checkW ≠ none) : LeafLeft s (s.updGth g f) x := by
  refine ⟨rfl, rfl, .upd hf, fun j hj => ?_, .same rfl⟩
  rw [gth_updGth]
  split
  · next e => exact hc _ (e ▸ hj)
  · exact hj

theorem LeafLeft.updCell (s : State) (x : CellAt) {f : Cell → Cell} (hv : ∀ c, (f c).v = c.v)
    (hr : ∀ c, (f c).returns = c.returns) : LeafLeft s (s.updCell x.key f) x := by
  refine ⟨?_, ?_, fun _ => .refl _, fun _ h => h, updCell_charges ..⟩
  · rw [cell_updCell, if_pos rfl, hv]
  · rw [cell_updCell, if_pos rfl, hr]

theorem LeafLeft.chargeIf (s : State) (x : CellAt) (b : Bool) (r c g : Nat) : LeafLeft s (s.chargeIf b r c g) x :=
  ⟨by rw [cell_chargeIf], by rw [cell_chargeIf], fun j => by rw [gth_chargeIf]; exact .refl _,
    fun j h => by rwa [gth_chargeIf], chargeIf_charges ..⟩

/-- The first design check of the quire is kept, and a new one is kept beside no earlier one (R65). -/
theorem LeafLeft.designCheck (s : State) (x : CellAt) : LeafLeft s (s.designCheck x) x := by
  unfold State.designCheck
  split
  · exact .refl s x
  · refine .updGth s x x.g (fun y => ?_) fun y hy => ?_
    · dsimp only
      split
      · constructor <;> rfl
      · split
        · constructor <;> rfl
        · exact .refl _
    · dsimp only
      split
      · exact Option.some_ne_none _
      · split
        · exact Option.some_ne_none _
        · exact hy

/-- A design check outside stage OUT is recorded (R65, R367). -/
theorem designCheck_checked {s : State} {x : CellAt} (h : s.stage x.r ≠ 1) : ((s.designCheck x).gth x.g).checkW ≠ none := by
  unfold State.designCheck
  rw [if_neg h, gth_updGth, if_pos rfl]
  dsimp only
  split
  · exact Option.some_ne_none _
  · next o ho =>
    split
    · exact Option.some_ne_none _
    · rw [ho]; exact Option.some_ne_none _

/-- The write-back of an outcome without a result and without flags. -/
theorem LeafLeft.writeBack (s : State) (x : CellAt) {o : CellResult} (hv : o.value = none) (hf : o.flags = none) :
    LeafLeft s (s.writeBack x o) x := by
  obtain ⟨value, flags, cout, tested⟩ := o
  obtain rfl : value = none := hv
  obtain rfl : flags = none := hf
  unfold State.writeBack
  extract_lets sw s0 fl s1 ws s2 s3 s4
  have h2 : LeafLeft s s2 x := by
    refine LeafLeft.trans (.refl s x) ?_
    simp only [s2, s1, s0]
    split
    · exact .updGth s x x.g (fun y => by constructor <;> rfl) fun y h => h
    · exact .refl s x
  have h3 : LeafLeft s2 s3 x := by
    simp only [s3]
    split
    · split
      · exact .designCheck s2 x
      · exact .refl s2 x
    · exact .refl s2 x
  have h4 : LeafLeft s s4 x := h2.trans (h3.trans (.updCell s3 x (fun _ => rfl) fun _ => rfl))
  split
  · exact h4.trans (.updGth s4 x x.g (fun y => by constructor <;> rfl) fun y h => h)
  · exact h4

/-- A leaf whose own part gives neither a result nor flags leaves what that part leaves. -/
theorem runCell_leafLeft {s s1 s2 : State} {ca : CellAddr} {k : LeafNo} {op : CellOp} {x : CellAt} {a b c : RWord}
    {body : CellBody} {o : CellResult} (h : CellLeaf s s1 ca k op x a b c) (hop : op ≠ .nop)
    (hb : body x a b c s1 = (o, s2)) (hv : o.value = none) (hf : o.flags = none) :
    LeafLeft s2 (s.runCell op body (cellAddrNo ca) k) x := by
  have hw := LeafLeft.writeBack s2 x hv hf
  obtain ⟨hcell, -⟩ := runCell_wrote h hop hb
  obtain ⟨hreturns, -, hgths⟩ := runCell_left h hop hb
  have hgth : ∀ g, (s.runCell op body (cellAddrNo ca) k).gth g = (s2.writeBack x o).gth g := fun g => by
    unfold State.gth; rw [hgths]
  exact ⟨hcell.trans hw.v, hreturns.trans hw.returns, fun g => by rw [hgth]; exact hw.folio g,
    fun g hg => by rw [hgth]; exact hw.check g hg, runCell_charges h hop hb⟩

/-! ### A word on its way to the cell (R95) -/

/-- The state with the word of a read on its way to its destination. -/
def State.onItsWay (s : State) (x : CellAt) (w : RWord) : State :=
  s.updCell x.key fun c =>
    { c with returns := c.returns ++ [{ at_ := x.t, dst := Leaf.dst x.leaf, cw := s.cellWrites x, w }] }

/-- A leaf that sends a word on its way: the word joins those of its cell, and nothing else is written. -/
theorem runCell_returned {s s1 s2 : State} {ca : CellAddr} {k : LeafNo} {op : CellOp} {x : CellAt} {a b c : RWord}
    {body : CellBody} {w : RWord} (h : CellLeaf s s1 ca k op x a b c) (hop : op ≠ .nop)
    (hb : body x a b c s1 = folioReturn x w s2) :
    let t := s.runCell op body (cellAddrNo ca) k
    (t.cell x.key).returns = (s2.cell x.key).returns ++ [⟨x.t, Leaf.dst x.leaf, s2.cellWrites x, w⟩] ∧
    (∀ g, FolioKept (s2.gth g) (t.gth g)) ∧ (∀ g, (s2.gth g).checkW ≠ none → (t.gth g).checkW ≠ none) ∧
    Charges s2 t := by
  intro t
  have hreturn : LeafLeft (s2.onItsWay x w) (folioReturn x w s2).2 x := by
    unfold folioReturn
    extract_lets sw names y z
    simp only [z]
    split
    · exact .updGth y x x.g (fun _ => by constructor <;> rfl) fun _ h => h
    · exact .refl _ x
  have ht : LeafLeft (s2.onItsWay x w) t x :=
    hreturn.trans (runCell_leafLeft (o := (folioReturn x w s2).1) h hop hb rfl rfl)
  refine ⟨ht.returns.trans ?_, ht.folio, ht.check, (updCell_charges ..).trans ht.charges⟩
  rw [State.onItsWay, cell_updCell, if_pos rfl]

/-! ### Folio words after a write (R129, R130) -/

theorem FolioKept.folioRead {f g : Gth} (h : FolioKept f g) (t n : Nat) : g.folioRead t n = f.folioRead t n := by
  unfold Gth.folioRead; rw [h.working, h.pending, h.draining, h.store]

/-- The newest version that a read may see, and the stored word where there is none. -/
theorem folioRead_eq_elim (x : Gth) (t n : Nat) : x.folioRead t n =
    ((x.working ++ x.pending ++ x.draining).find? fun e => e.addr == n && decide (e.at_ < t)).elim (x.store.at n)
      FolioEntry.w := by
  unfold Gth.folioRead
  split
  · next e he => rw [he]; rfl
  · next he => rw [he]; rfl

/-- A write is what every later leaf reads at its address, and no read elsewhere or in an earlier leaf sees it. -/
theorem folioRead_folioWrite (x : Gth) (t addr tt n : Nat) (w : BitVec 44) : (x.folioWrite t addr w).folioRead tt n =
    if n = addr ∧ t < tt then w else x.folioRead tt n := by
  rw [folioRead_eq_elim, folioRead_eq_elim]
  change Option.elim ((⟨addr, w, t⟩ :: (x.working ++ x.pending ++ x.draining)).find? _) _ _ = _
  rw [List.find?_cons]
  by_cases h : n = addr ∧ t < tt
  · obtain ⟨rfl, hlt⟩ := h
    simp only [beq_self_eq_true, hlt, decide_true, Bool.and_self, and_self, if_true, Option.elim_some]
  · have hno : (addr == n && decide (t < tt)) = false := by
      rw [Bool.and_eq_false_iff, beq_eq_false_iff_ne, decide_eq_false_iff_not]
      by_cases hn : n = addr
      · exact .inr fun hlt => h ⟨hn, hlt⟩
      · exact .inl (Ne.symm hn)
    simp only [hno, if_neg h]
    rfl

/-- A write to one block: what a read of any block returns. -/
theorem folioRead_updGth_folioWrite (s : State) (h t addr g tt n : Nat) (w : BitVec 44) :
    ((s.updGth h fun y => y.folioWrite t addr w).gth g).folioRead tt n =
      if g = h ∧ n = addr ∧ t < tt then w else (s.gth g).folioRead tt n := by
  rw [gth_updGth]
  by_cases hg : h = g
  · subst hg
    rw [if_pos rfl, folioRead_folioWrite]
    simp only [true_and]
  · rw [if_neg hg, if_neg fun h' => hg h'.1.symm]

/-- A moved pointer is no folio word. -/
theorem folioRead_movePointer (s : State) (h q t ap g tt n : Nat) :
    ((s.movePointer h q t ap).gth g).folioRead tt n = (s.gth g).folioRead tt n := by
  unfold State.movePointer
  rw [gth_updGth]
  split
  · next e => subst e; rfl
  · rfl

theorem charges_updGth (s : State) (h : Nat) (f : Gth → Gth) : Charges s (s.updGth h f) := .same rfl

theorem charges_movePointer (s : State) (h q t ap : Nat) : Charges s (s.movePointer h q t ap) := charges_updGth ..

/-- The working pointer that a request has moved. -/
theorem pointer_movePointer (s : State) (h q t ap : Nat) :
    (((s.movePointer h q t ap).gth h).queue.at q).apWork.new = mkPtr ap := by
  unfold State.movePointer
  rw [gth_updGth, if_pos rfl]
  dsimp only
  rw [Sparse.at_upd_self]
  unfold Lag.write
  dsimp only
  split <;> rfl

/-- What a cell's cadence permits does not change with a gathering's folio, queues and checks. -/
theorem writes_updGth (s : State) (x : CellAt) (g : Nat) {f : Gth → Gth} (hf : ∀ y, (f y).frame = y.frame) :
    (s.updGth g f).cellWrites x = s.cellWrites x := by
  have hc : (s.updGth g f).cellCadence x.key = s.cellCadence x.key := by
    unfold State.cellCadence
    rw [gth_updGth]
    split
    · next e => subst e; rw [hf]
    · rfl
  unfold State.cellWrites
  rw [hc]
  rfl

theorem writes_movePointer (s : State) (x : CellAt) (h q t ap : Nat) :
    (s.movePointer h q t ap).cellWrites x = s.cellWrites x := writes_updGth s x h fun _ => rfl

theorem writes_designCheck (s : State) (x : CellAt) : (s.designCheck x).cellWrites x = s.cellWrites x := by
  unfold State.designCheck
  split
  · rfl
  · refine writes_updGth s x x.g fun y => ?_
    dsimp only
    split
    · rfl
    · split <;> rfl

/-! ### What each opcode's own part gives -/

section
variable {x : CellAt} {s : State} {h : Nat} (a b c : RWord)

/-- A failure charged to the quire in progress. -/
def Charged (s t : State) (x : CellAt) (cause g : Nat) : Prop :=
  ∃ f ∈ (t.region x.r).fails, f.quire = s.exec x.r ∧ f.cause = cause ∧ f.gth = g

theorem Charged.later {s t u : State} {x : CellAt} {cause g : Nat} (h : Charged s t x cause g) (k : Charges t u) :
    Charged s u x cause g := by
  obtain ⟨f, hf, hfields⟩ := h
  exact ⟨f, k.keeps _ f hf, hfields⟩

/-- A request that reaches no folio word: to no block, or to a word inside an enabled queue (R92, R107, R140). -/
def NoWord (s : State) (x : CellAt) (a : RWord) : Prop :=
  ∀ h, s.folioTarget x (Imm.tgt (Leaf.imm x.leaf)) (Imm.portB (Leaf.imm x.leaf)) = some h → s.inQueue h (folioAddr x a) = true

/-- A request that reaches no queue: to no block, to a disabled queue or to one of the other direction (R140). -/
def NoQueue (s : State) (x : CellAt) (out : Bool) : Prop :=
  ∀ h, s.folioTarget x (Imm.tgt (Leaf.imm x.leaf)) (Imm.portB (Leaf.imm x.leaf)) = some h →
    s.qSize h (Imm.que (Leaf.imm x.leaf)) = 0 ∨ s.qOut h (Imm.que (Leaf.imm x.leaf)) ≠ out

theorem bodyFld_dropped (hn : NoWord s x a) : bodyFld x a b c s = droppedRead x s := by
  unfold bodyFld
  dsimp only
  split
  · rfl
  · next h ht => exact if_pos (hn h ht)

theorem bodyFst_dropped (hn : NoWord s x a) : bodyFst x a b c s = ({}, dropped x s) := by
  unfold bodyFst
  dsimp only
  split
  · rfl
  · next h ht => exact if_pos (hn h ht)

theorem queueTarget_none {out : Bool} (hn : NoQueue s x out) : queueTarget x out s = none := by
  unfold queueTarget
  dsimp only
  split
  · rfl
  · next h ht =>
    refine if_neg fun hq => ?_
    rcases hn h ht with h0 | ho
    · exact hq.1 h0
    · exact ho hq.2

theorem bodyFpush_dropped (hn : NoQueue s x true) : bodyFpush x a b c s = ({}, dropped x s) := by
  unfold bodyFpush
  rw [queueTarget_none hn]

theorem queueHead_dropped {pop : Bool} (hn : NoQueue s x false) : queueHead pop x s = droppedRead x s := by
  unfold queueHead
  rw [queueTarget_none hn]

theorem bodyPput_dropped (hn : ¬ ((((s.gth x.g).press.at ((Leaf.imm x.leaf).toNat % 2)).leaf.at x.k).getLsbD 46 = true ∧
    (((s.gth x.g).press.at ((Leaf.imm x.leaf).toNat % 2)).leaf.at x.k).toNat / 2 ^ 40 % 64 = x.key % 64)) :
    bodyPput x a b c s = ({}, dropped x s) := by
  have hp : ((Leaf.imm x.leaf).extractLsb' 0 1).toNat = (Leaf.imm x.leaf).toNat % 2 := by simp [BitVec.extractLsb'_toNat]
  unfold bodyPput
  dsimp only
  rw [hp]
  refine if_neg fun hl => hn ?_
  rw [Bool.and_eq_true, beq_iff_eq] at hl
  exact ⟨hl.1, by rw [← hl.2]; simp [BitVec.extractLsb'_toNat, Nat.shiftRight_eq_div_pow]⟩

variable (ht : s.folioTarget x (Imm.tgt (Leaf.imm x.leaf)) (Imm.portB (Leaf.imm x.leaf)) = some h)
include ht

/-- A read of a folio word sends its newest version on its way, its parity checked. -/
theorem bodyFld_served (hw : s.inQueue h (folioAddr x a) = false) :
    let w := (s.gth h).folioRead x.t (folioAddr x a)
    bodyFld x a b c s = folioReturn x (gen (data44 w)) (s.chargeIf (badSlices w != 0) x.r 0x04 h) := by
  unfold bodyFld
  simp only [ht, hw, Bool.false_eq_true, if_false]
  rfl

/-- A write of a folio word checks B, and takes place unless a cadence suppresses it. -/
theorem bodyFst_served (hw : s.inQueue h (folioAddr x a) = false) :
    let z := s.chargeIf (!b.ok) x.r 0x01 h
    bodyFst x a b c s = ({}, if s.folioWrites x h 2 then
      z.updGth h fun g => g.folioWrite x.t (folioAddr x a) (storedForm b) else z) := by
  unfold bodyFst
  simp only [ht, hw, Bool.false_eq_true, if_false, folioWrites_chargeIf]
  split <;> rfl

theorem queueTarget_some {out : Bool} (hs : s.qSize h (Imm.que (Leaf.imm x.leaf)) ≠ 0)
    (ho : s.qOut h (Imm.que (Leaf.imm x.leaf)) = out) : queueTarget x out s = some h := by
  unfold queueTarget
  simp only [ht]
  exact if_pos ⟨hs, ho⟩

end

/-- The working pointer that the queue request of a leaf acts on. -/
def requestPointer (x : CellAt) (h : Nat) (s : State) : QPtr :=
  ((s.gth h).queue.at (Imm.que (Leaf.imm x.leaf))).pointer (Imm.portB (Leaf.imm x.leaf)) x.t

/-- The state with the residue of that pointer checked (R28). -/
def pointerChecked (x : CellAt) (h : Nat) (s : State) : State := s.chargeIf (!(requestPointer x h s).ok) x.r 0x05 h

/-- The words between the pointers of the queue, as the request finds them. -/
def requestCount (x : CellAt) (h : Nat) (s : State) : Nat :=
  s.arrayCount h (Imm.que (Leaf.imm x.leaf)) (requestPointer x h s).p (s.captured x.r h (Imm.que (Leaf.imm x.leaf)))

theorem pointerChecked_count (x : CellAt) (h : Nat) (s : State) (n ap : Nat) :
    (pointerChecked x h s).arrayCount h n ap ((pointerChecked x h s).captured x.r h n) =
      s.arrayCount h n ap (s.captured x.r h n) := by
  unfold pointerChecked State.captured
  rw [arrayCount_chargeIf, capture_chargeIf]

/-- A failed residue of the pointer is charged (R28, R69). -/
theorem pointerChecked_charged {x : CellAt} {h : Nat} {s : State} (hb : (requestPointer x h s).ok = false) :
    Charged s (pointerChecked x h s) x 0x05 h := by
  unfold pointerChecked
  rw [hb]
  exact (charge_charges s x.r 0x05 h).2

theorem qAddr_chargeIf (s : State) (b : Bool) (r c g h n p : Nat) : (s.chargeIf b r c g).qAddr h n p = s.qAddr h n p := by
  unfold State.qAddr
  rw [qBase_chargeIf, qSize_chargeIf]

section
variable {x : CellAt} {s : State} {h : Nat} (a b c : RWord)

/-- A full queue takes nothing and raises a design check (R97). -/
theorem bodyFpush_full (hq : queueTarget x true s = some h)
    (hfull : s.qSize h (Imm.que (Leaf.imm x.leaf)) ≤ requestCount x h s) :
    bodyFpush x a b c s = ({}, (pointerChecked x h s).designCheck x) := by
  unfold bodyFpush
  dsimp only
  rw [hq]
  refine if_pos ?_
  change (pointerChecked x h s).qSize h _ ≤ (pointerChecked x h s).arrayCount h _ _ ((pointerChecked x h s).captured x.r h _)
  rw [pointerChecked_count, pointerChecked, qSize_chargeIf]
  exact hfull

/-- A queue with room takes B at its tail and moves the tail, unless a cadence suppresses the push. -/
theorem bodyFpush_room (hq : queueTarget x true s = some h)
    (hroom : ¬ s.qSize h (Imm.que (Leaf.imm x.leaf)) ≤ requestCount x h s) :
    let n := Imm.que (Leaf.imm x.leaf)
    let ap := (requestPointer x h s).p
    let z := (pointerChecked x h s).chargeIf (!b.ok) x.r 0x01 h
    bodyFpush x a b c s = ({}, if s.folioWrites x h (3 + n) then
      (z.updGth h fun g => g.folioWrite x.t (s.qAddr h n ap) (storedForm b)).movePointer h n x.t ((ap + 1) % (2 * s.qSize h n))
      else z) := by
  intro n ap z
  have hz : z.folioWrites x h (3 + n) = s.folioWrites x h (3 + n) := by
    simp only [z, pointerChecked, folioWrites_chargeIf]
  have haddr : z.qAddr h n ap = s.qAddr h n ap := by simp only [z, pointerChecked, qAddr_chargeIf]
  have hsize : z.qSize h n = s.qSize h n := by simp only [z, pointerChecked, qSize_chargeIf]
  unfold bodyFpush
  dsimp only
  rw [hq, ← hz, ← haddr, ← hsize]
  refine (if_neg ?_).trans ?_
  · change ¬ (pointerChecked x h s).qSize h n ≤ (pointerChecked x h s).arrayCount h n ap
      ((pointerChecked x h s).captured x.r h n)
    rw [pointerChecked_count, pointerChecked, qSize_chargeIf]
    exact hroom
  · exact (apply_ite (Prod.mk ({} : CellResult)) _ _ _).symm

/-- An empty queue gives the word 0 and raises a design check (R97). -/
theorem queueHead_empty {pop : Bool} (hq : queueTarget x false s = some h) (he : requestCount x h s = 0) :
    queueHead pop x s = folioReturn x {} ((pointerChecked x h s).designCheck x) := by
  unfold queueHead
  dsimp only
  rw [hq]
  refine if_pos ?_
  change (pointerChecked x h s).arrayCount h _ _ ((pointerChecked x h s).captured x.r h _) = 0
  rw [pointerChecked_count]
  exact he

/-- A queue that holds a word sends the word at its head on its way, and a pop moves the head. -/
theorem queueHead_word {pop : Bool} (hq : queueTarget x false s = some h) (he : requestCount x h s ≠ 0) :
    let n := Imm.que (Leaf.imm x.leaf)
    let ap := (requestPointer x h s).p
    let w := (s.gth h).folioRead x.t (s.qAddr h n ap)
    let z := (pointerChecked x h s).chargeIf (badSlices w != 0) x.r 0x04 h
    queueHead pop x s = folioReturn x (gen (data44 w))
      (if pop && s.folioWrites x h (3 + n) then z.movePointer h n x.t ((ap + 1) % (2 * s.qSize h n)) else z) := by
  intro n ap w z
  have hw : ((pointerChecked x h s).gth h).folioRead x.t ((pointerChecked x h s).qAddr h n ap) = w := by
    rw [pointerChecked, gth_chargeIf, qAddr_chargeIf]
  have hz : z.folioWrites x h (3 + n) = s.folioWrites x h (3 + n) := by
    simp only [z, pointerChecked, folioWrites_chargeIf]
  have hsize : z.qSize h n = s.qSize h n := by simp only [z, pointerChecked, qSize_chargeIf]
  unfold queueHead
  dsimp only
  rw [hq, ← hz, ← hsize]
  refine (if_neg ?_).trans ?_
  · change ¬ (pointerChecked x h s).arrayCount h n ap ((pointerChecked x h s).captured x.r h n) = 0
    rw [pointerChecked_count]
    exact he
  · have hc : checkedWord x h (((pointerChecked x h s).gth h).folioRead x.t ((pointerChecked x h s).qAddr h n ap))
        (pointerChecked x h s) = (gen (data44 w), z) := by rw [hw]; rfl
    change (match checkedWord x h (((pointerChecked x h s).gth h).folioRead x.t ((pointerChecked x h s).qAddr h n ap))
        (pointerChecked x h s) with
      | (w, s) => folioReturn x w
        (if pop && s.folioWrites x h (3 + n) then s.movePointer h n x.t ((ap + 1) % (2 * s.qSize h n)) else s)) = _
    rw [hc]

end

/-! ### What the folio leaves leave -/

/-- What reads of any block return after a write that a cadence permits or suppresses. -/
theorem folioRead_written (s : State) (wr : Bool) (h t addr g tt n : Nat) (w : BitVec 44) :
    ((if wr = true then s.updGth h fun y => y.folioWrite t addr w else s).gth g).folioRead tt n =
      if g = h ∧ n = addr ∧ t < tt ∧ wr = true then w else (s.gth g).folioRead tt n := by
  cases wr with
  | true =>
    rw [if_pos rfl, folioRead_updGth_folioWrite]
    simp only [and_true]
  | false => simp only [Bool.false_eq_true, and_false, if_false]

section
variable {s s1 : State} {ca : CellAddr} {k : LeafNo} {x : CellAt} {a b c : RWord} {h : Nat}

/-- The state that a cell leaf leaves. -/
def leafEnd (s : State) (op : CellOp) (body : CellBody) (ca : CellAddr) (k : LeafNo) : State :=
  s.runCell op body (cellAddrNo ca) k

/-- The newest working pointer of the queue that a leaf names. -/
def pointerOf (x : CellAt) (h : Nat) (t : State) : QPtr := ((t.gth h).queue.at (Imm.que (Leaf.imm x.leaf))).apWork.new

theorem FolioKept.pointerOf {s t : State} (hk : ∀ g, FolioKept (s.gth g) (t.gth g)) (x : CellAt) (h : Nat) :
    pointerOf x h t = pointerOf x h s := by
  unfold Machine.pointerOf; rw [(hk h).queue]

/-- `fld` (R93, R95). -/
theorem fld_leaf (hl : CellLeaf s s1 ca k .fld x a b c)
    (ht : s1.folioTarget x (Imm.tgt (Leaf.imm x.leaf)) (Imm.portB (Leaf.imm x.leaf)) = some h)
    (hw : s1.inQueue h (folioAddr x a) = false) :
    ((leafEnd s .fld bodyFld ca k).cell x.key).returns = (s1.cell x.key).returns ++
      [⟨x.t, Leaf.dst x.leaf, s1.cellWrites x, gen (data44 ((s1.gth h).folioRead x.t (folioAddr x a)))⟩] := by
  obtain ⟨hreturns, -⟩ := runCell_returned hl (by decide) (bodyFld_served a b c ht hw)
  rwa [cell_chargeIf, writes_chargeIf] at hreturns

/-- `fst` (R93, R98). -/
theorem fst_leaf (hl : CellLeaf s s1 ca k .fst x a b c)
    (ht : s1.folioTarget x (Imm.tgt (Leaf.imm x.leaf)) (Imm.portB (Leaf.imm x.leaf)) = some h)
    (hw : s1.inQueue h (folioAddr x a) = false) :
    let t := leafEnd s .fst bodyFst ca k
    (∀ g n tt, (t.gth g).folioRead tt n = if g = h ∧ n = folioAddr x a ∧ x.t < tt ∧ s1.folioWrites x h 2 = true
      then storedForm b else (s1.gth g).folioRead tt n) ∧ (t.cell x.key).v = (s1.cell x.key).v := by
  have hleft := runCell_leafLeft hl (by decide) (bodyFst_served a b c ht hw) rfl rfl
  refine ⟨fun g n tt => ?_, hleft.v.trans ?_⟩
  · rw [leafEnd, (hleft.folio g).folioRead, folioRead_written, gth_chargeIf]
  · rw [← cell_chargeIf s1 (!b.ok) x.r 0x01 h x.key]
    split <;> rfl

/-- `fpush` into a full queue (R97). -/
theorem fpush_full (hl : CellLeaf s s1 ca k .fpush x a b c) (hq : queueTarget x true s1 = some h)
    (hfull : s1.qSize h (Imm.que (Leaf.imm x.leaf)) ≤ requestCount x h s1) :
    let t := leafEnd s .fpush bodyFpush ca k
    ((requestPointer x h s1).ok = false → Charged s1 t x 0x05 h) ∧ pointerOf x h t = pointerOf x h s1 ∧
    (s1.stage x.r ≠ 1 → (t.gth x.g).checkW ≠ none) ∧
    ∀ g n tt, (t.gth g).folioRead tt n = (s1.gth g).folioRead tt n := by
  have hleft := runCell_leafLeft hl (by decide) (bodyFpush_full a b c hq hfull) rfl rfl
  have hchecked : LeafLeft s1 (pointerChecked x h s1) x := .chargeIf ..
  have hall := hchecked.trans ((LeafLeft.designCheck _ x).trans hleft)
  refine ⟨fun hb => (pointerChecked_charged hb).later ((LeafLeft.designCheck _ x).trans hleft).charges,
    FolioKept.pointerOf hall.folio x h, fun hs => hleft.check _ (designCheck_checked ?_),
    fun g n tt => (hall.folio g).folioRead tt n⟩
  have hstage : (pointerChecked x h s1).stage x.r = s1.stage x.r := getN_chargeIf _ _ _ _ _ _ _ (by decide)
  rwa [hstage]

/-- `fpush` into a queue with room (R94, R98). -/
theorem fpush_room (hl : CellLeaf s s1 ca k .fpush x a b c) (hq : queueTarget x true s1 = some h)
    (hroom : ¬ s1.qSize h (Imm.que (Leaf.imm x.leaf)) ≤ requestCount x h s1) :
    let t := leafEnd s .fpush bodyFpush ca k
    let q := Imm.que (Leaf.imm x.leaf)
    let ap := (requestPointer x h s1).p
    let writes := s1.folioWrites x h (3 + q)
    ((requestPointer x h s1).ok = false → Charged s1 t x 0x05 h) ∧
    pointerOf x h t = (if writes = true then mkPtr ((ap + 1) % (2 * s1.qSize h q)) else pointerOf x h s1) ∧
    ∀ g n tt, (t.gth g).folioRead tt n = if g = h ∧ n = s1.qAddr h q ap ∧ x.t < tt ∧ writes = true then storedForm b
      else (s1.gth g).folioRead tt n := by
  intro t q ap writes
  have hleft := runCell_leafLeft hl (by decide) (bodyFpush_room a b c hq hroom) rfl rfl
  have hz : LeafLeft s1 ((pointerChecked x h s1).chargeIf (!b.ok) x.r 0x01 h) x :=
    (LeafLeft.chargeIf s1 x ..).trans (.chargeIf ..)
  have hcharges : Charges (pointerChecked x h s1) ((pointerChecked x h s1).chargeIf (!b.ok) x.r 0x01 h) :=
    chargeIf_charges ..
  generalize (pointerChecked x h s1).chargeIf (!b.ok) x.r 0x01 h = z at hleft hz hcharges
  by_cases hw : writes = true
  · rw [if_pos hw] at hleft
    have hpushed : Charges z t := (charges_updGth ..).trans ((charges_movePointer ..).trans hleft.charges)
    refine ⟨fun hb => (pointerChecked_charged hb).later (hcharges.trans hpushed), ?_, fun g n tt => ?_⟩
    · rw [if_pos hw]
      exact (FolioKept.pointerOf hleft.folio x h).trans (pointer_movePointer ..)
    · refine ((hleft.folio g).folioRead tt n).trans ?_
      rw [folioRead_movePointer, folioRead_updGth_folioWrite, (hz.folio g).folioRead]
      simp only [hw, and_true, q, ap]
  · rw [if_neg hw] at hleft
    have hall := hz.trans hleft
    refine ⟨fun hb => (pointerChecked_charged hb).later (hcharges.trans hleft.charges), ?_, fun g n tt => ?_⟩
    · exact (FolioKept.pointerOf hall.folio x h).trans (if_neg hw).symm
    · exact ((hall.folio g).folioRead tt n).trans (if_neg fun hc => hw hc.2.2.2).symm

/-- `fpop` or `fpeek` of an empty queue (R97). -/
theorem queueHead_leaf_empty {op : CellOp} {body : CellBody} {pop : Bool} (hl : CellLeaf s s1 ca k op x a b c)
    (hop : op ≠ .nop) (hbody : body x a b c s1 = queueHead pop x s1) (hq : queueTarget x false s1 = some h)
    (he : requestCount x h s1 = 0) :
    let t := leafEnd s op body ca k
    ((requestPointer x h s1).ok = false → Charged s1 t x 0x05 h) ∧
    (t.cell x.key).returns = (s1.cell x.key).returns ++ [⟨x.t, Leaf.dst x.leaf, s1.cellWrites x, {}⟩] ∧
    (s1.stage x.r ≠ 1 → (t.gth x.g).checkW ≠ none) ∧ pointerOf x h t = pointerOf x h s1 := by
  obtain ⟨hreturns, hfolio, hcheck, hcharges⟩ := runCell_returned hl hop (hbody.trans (queueHead_empty hq he))
  have hdesign := LeafLeft.designCheck (pointerChecked x h s1) x
  have hz : LeafLeft s1 (pointerChecked x h s1) x := .chargeIf ..
  refine ⟨fun hb => (pointerChecked_charged hb).later (hdesign.charges.trans hcharges), ?_,
    fun hs => hcheck _ (designCheck_checked ?_), ?_⟩
  · have hwrites : (pointerChecked x h s1).cellWrites x = s1.cellWrites x := writes_chargeIf ..
    rwa [(hz.trans hdesign).returns, writes_designCheck, hwrites] at hreturns
  · have hstage : (pointerChecked x h s1).stage x.r = s1.stage x.r := getN_chargeIf _ _ _ _ _ _ _ (by decide)
    rwa [hstage]
  · exact (FolioKept.pointerOf hfolio x h).trans (FolioKept.pointerOf (hz.trans hdesign).folio x h)

/-- `fpop` or `fpeek` of a queue that holds a word (R94, R95, R98). -/
theorem queueHead_leaf_word {op : CellOp} {body : CellBody} {pop : Bool} (hl : CellLeaf s s1 ca k op x a b c)
    (hop : op ≠ .nop) (hbody : body x a b c s1 = queueHead pop x s1) (hq : queueTarget x false s1 = some h)
    (he : requestCount x h s1 ≠ 0) :
    let t := leafEnd s op body ca k
    let q := Imm.que (Leaf.imm x.leaf)
    let ap := (requestPointer x h s1).p
    ((requestPointer x h s1).ok = false → Charged s1 t x 0x05 h) ∧
    (t.cell x.key).returns = (s1.cell x.key).returns ++
      [⟨x.t, Leaf.dst x.leaf, s1.cellWrites x, gen (data44 ((s1.gth h).folioRead x.t (s1.qAddr h q ap)))⟩] ∧
    pointerOf x h t = if pop = true ∧ s1.folioWrites x h (3 + q) = true then mkPtr ((ap + 1) % (2 * s1.qSize h q))
      else pointerOf x h s1 := by
  intro t q ap
  obtain ⟨hreturns, hfolio, -, hcharges⟩ := runCell_returned hl hop (hbody.trans (queueHead_word hq he))
  generalize hbad : (badSlices ((s1.gth h).folioRead x.t (s1.qAddr h q ap)) != 0) = bad at hreturns hfolio hcharges
  have hz : LeafLeft s1 ((pointerChecked x h s1).chargeIf bad x.r 0x04 h) x :=
    (LeafLeft.chargeIf s1 x ..).trans (.chargeIf ..)
  have hpass : Charges (pointerChecked x h s1) ((pointerChecked x h s1).chargeIf bad x.r 0x04 h) := chargeIf_charges ..
  have hwrites : ((pointerChecked x h s1).chargeIf bad x.r 0x04 h).cellWrites x = s1.cellWrites x :=
    (writes_chargeIf ..).trans (writes_chargeIf ..)
  generalize (pointerChecked x h s1).chargeIf bad x.r 0x04 h = z at hreturns hfolio hcharges hz hpass hwrites
  by_cases hw : pop = true ∧ s1.folioWrites x h (3 + q) = true
  · rw [if_pos (Bool.and_eq_true_iff.mpr hw)] at hreturns hfolio hcharges
    refine ⟨fun hb => (pointerChecked_charged hb).later (hpass.trans ((charges_movePointer ..).trans hcharges)),
      hreturns.trans ?_, ?_⟩
    · rw [writes_movePointer, hwrites, ← hz.returns]
      rfl
    · rw [if_pos hw]
      exact (FolioKept.pointerOf hfolio x h).trans (pointer_movePointer ..)
  · rw [if_neg (mt Bool.and_eq_true_iff.mp hw)] at hreturns hfolio hcharges
    refine ⟨fun hb => (pointerChecked_charged hb).later (hpass.trans hcharges), hreturns.trans ?_, ?_⟩
    · rw [hz.returns, hwrites]
    · rw [if_neg hw]
      exact (FolioKept.pointerOf hfolio x h).trans (FolioKept.pointerOf hz.folio x h)

/-- `fpop` or `fpeek` of a queue that runs towards the cells (R94, R95, R97, R98). -/
theorem queueHead_leaf {op : CellOp} {body : CellBody} {pop : Bool} (hl : CellLeaf s s1 ca k op x a b c)
    (hop : op ≠ .nop) (hbody : body x a b c s1 = queueHead pop x s1) (hpop : pop = decide (op = .fpop))
    (hq : queueTarget x false s1 = some h) :
    let t := leafEnd s op body ca k
    let q := Imm.que (Leaf.imm x.leaf)
    let ap := (requestPointer x h s1).p
    let w := if requestCount x h s1 = 0 then {} else gen (data44 ((s1.gth h).folioRead x.t (s1.qAddr h q ap)))
    ((requestPointer x h s1).ok = false → Charged s1 t x 0x05 h) ∧
    (t.cell x.key).returns = (s1.cell x.key).returns ++ [⟨x.t, Leaf.dst x.leaf, s1.cellWrites x, w⟩] ∧
    (requestCount x h s1 = 0 → s1.stage x.r ≠ 1 → (t.gth x.g).checkW ≠ none) ∧
    pointerOf x h t = if op = .fpop ∧ requestCount x h s1 ≠ 0 ∧ s1.folioWrites x h (3 + q) = true
      then mkPtr ((ap + 1) % (2 * s1.qSize h q)) else pointerOf x h s1 := by
  intro t q ap w
  by_cases he : requestCount x h s1 = 0
  · obtain ⟨hresidue, hreturns, hchecked, hpointer⟩ := queueHead_leaf_empty hl hop hbody hq he
    refine ⟨hresidue, ?_, fun _ => hchecked, ?_⟩
    · rw [show w = {} from if_pos he]
      exact hreturns
    · rw [if_neg fun hc => hc.2.1 he]
      exact hpointer
  · obtain ⟨hresidue, hreturns, hpointer⟩ := queueHead_leaf_word hl hop hbody hq he
    refine ⟨hresidue, ?_, fun h0 => absurd h0 he, hpointer.trans ?_⟩
    · rw [show w = _ from if_neg he]
      exact hreturns
    · simp only [hpop, decide_eq_true_eq, he, ne_eq, not_false_eq_true, true_and, q, ap]

/-- A dropped request of an opcode without a destination (R107). -/
theorem dropped_leaf {op : CellOp} {body : CellBody} (hl : CellLeaf s s1 ca k op x a b c) (hop : op ≠ .nop)
    (hb : body x a b c s1 = ({}, dropped x s1)) :
    let t := leafEnd s op body ca k
    (Charged s1 t x 0x01 x.g ∧ ∀ g, FolioKept (s1.gth g) (t.gth g)) ∧ (t.cell x.key).v = (s1.cell x.key).v := by
  have hleft := runCell_leafLeft hl hop hb rfl rfl
  have hall := (LeafLeft.chargeIf s1 x true x.r 0x01 x.g).trans hleft
  exact ⟨⟨Charged.later (charge_charges s1 x.r 0x01 x.g).2 hleft.charges, hall.folio⟩, hall.v⟩

/-- A dropped request of an opcode with a destination (R107). -/
theorem droppedRead_leaf {op : CellOp} {body : CellBody} (hl : CellLeaf s s1 ca k op x a b c) (hop : op ≠ .nop)
    (hb : body x a b c s1 = droppedRead x s1) :
    let t := leafEnd s op body ca k
    (Charged s1 t x 0x01 x.g ∧ ∀ g, FolioKept (s1.gth g) (t.gth g)) ∧
    ∃ d, (t.cell x.key).returns = (s1.cell x.key).returns ++ [⟨x.t, Leaf.dst x.leaf, s1.cellWrites x, ⟨d, badRes⟩⟩] := by
  have hb' : body x a b c s1 = folioReturn x ⟨((dropped x s1).draw 40).1, badRes⟩ ((dropped x s1).draw 40).2 := hb
  obtain ⟨hreturns, hfolio, -, hcharges⟩ := runCell_returned hl hop hb'
  have hdrawn : LeafLeft (dropped x s1) ((dropped x s1).draw 40).2 x :=
    ⟨rfl, rfl, fun _ => .refl _, fun _ h => h, .same rfl⟩
  have hdrop : LeafLeft s1 (dropped x s1) x := LeafLeft.chargeIf s1 x true x.r 0x01 x.g
  have hwrites : ((dropped x s1).draw 40).2.cellWrites x = s1.cellWrites x := writes_chargeIf s1 true x.r 0x01 x.g x
  refine ⟨⟨Charged.later (charge_charges s1 x.r 0x01 x.g).2 (hdrawn.charges.trans hcharges),
    fun g => ((hdrop.trans hdrawn).folio g).trans (hfolio g)⟩, ((dropped x s1).draw 40).1, hreturns.trans ?_⟩
  rw [(hdrop.trans hdrawn).returns, hwrites]

end

/-- Settles O18: the words and queues that a leaf reaches, then the requests that are dropped, each by its opcode's own
part and what the leaf leaves around it. -/
theorem cellFolio : Obligations.CellFolio := by
  unfold Obligations.CellFolio
  simp only [← Imm.tgt_eq, ← Imm.que_eq, ← folioAddr_eq]
  refine ⟨?_, ?_, ?_⟩
  · intro ca k s s1 x a b c h ht hw
    exact ⟨fun hl => ⟨_, rfl, fld_leaf hl ht hw⟩, fun hl => ⟨_, rfl, fst_leaf hl ht hw⟩⟩
  · intro ca k s s1 x a b c h ht hsize
    refine ⟨fun hl hout => ?_, fun i op hi hl hout => ?_⟩
    · have hq := queueTarget_some ht hsize hout
      refine ⟨_, rfl, ?_⟩
      by_cases hfull : s1.qSize h (Imm.que (Leaf.imm x.leaf)) ≤ requestCount x h s1
      · obtain ⟨hresidue, hfullEnd⟩ := fpush_full hl hq hfull
        exact ⟨hresidue, (if_pos hfull).mpr hfullEnd⟩
      · obtain ⟨hresidue, hroomEnd⟩ := fpush_room hl hq hfull
        exact ⟨hresidue, (if_neg hfull).mpr hroomEnd⟩
    · have hq := queueTarget_some ht hsize hout
      simp only [List.mem_cons, List.not_mem_nil, or_false, Prod.mk.injEq] at hi
      obtain ⟨rfl, rfl⟩ | ⟨rfl, rfl⟩ := hi
      · exact ⟨_, rfl, queueHead_leaf (pop := true) hl (by decide) rfl rfl hq⟩
      · exact ⟨_, rfl, queueHead_leaf (pop := false) hl (by decide) rfl rfl hq⟩
  · intro ca k s s1 x a b c
    refine ⟨fun i op hi hno hl => ?_, fun i op hi hno hl => ?_⟩
    all_goals
      simp only [List.mem_cons, List.not_mem_nil, or_false, Prod.mk.injEq] at hi
      obtain ⟨rfl, rfl⟩ | ⟨rfl, rfl⟩ | ⟨rfl, rfl⟩ := hi
    · exact ⟨_, rfl, dropped_leaf hl (by decide) (bodyFst_dropped a b c hno)⟩
    · exact ⟨_, rfl, dropped_leaf hl (by decide) (bodyFpush_dropped a b c hno)⟩
    · exact ⟨_, rfl, dropped_leaf hl (by decide) (bodyPput_dropped a b c hno)⟩
    · exact ⟨_, rfl, droppedRead_leaf hl (by decide) (bodyFld_dropped a b c hno)⟩
    · exact ⟨_, rfl, droppedRead_leaf (body := bodyFpop) hl (by decide) (queueHead_dropped hno)⟩
    · exact ⟨_, rfl, droppedRead_leaf (body := bodyFpeek) hl (by decide) (queueHead_dropped hno)⟩

end Sys2Proof.Machine
end

section
/-!
Proofs of the cells family, 1: where a result and its flags go, and the leaves of `nop`, `hold` and `mov` (R62, R64, R106).
-/
namespace Sys2Proof.Machine

/-! ### The destinations of a result (R62) -/

/-- The state words after a result for DST: a state word is written only where `sw` says so. -/
def CellWords.result (c : CellWords) (dst : BitVec 6) (sw : Bool) (w : RWord) : Sparse RWord :=
  if (dst.toNat / 16 = 0 ∨ dst.toNat / 16 = 2) ∧ sw = true then c.s.put (dst.toNat % 16) w else c.s

/-- DST = 0x00 to 0x0F and 0x20 to 0x2F name a state word, 0x10 to 0x1F a temporary, 0x20 to 0x30 and 0x32 OUTA, and
0x31 and 0x32 OUTB. -/
theorem Cell.write_eq (c : Cell) (dst : BitVec 6) (sw : Bool) (w : RWord) (t : Nat) : c.write dst sw w t =
    { c with
      v := { c.v with work := { c.v.work with s := c.v.work.result dst sw w } }
      t := if dst.toNat / 16 = 1 then c.t.put (dst.toNat % 16) ⟨w, t⟩ else c.t
      outA := if 32 ≤ dst.toNat ∧ dst.toNat ≤ 48 ∨ dst.toNat = 50 then ⟨w, t⟩ else c.outA
      outB := if dst.toNat = 49 ∨ dst.toNat = 50 then ⟨w, t⟩ else c.outB } := by
  have hlow : (dst.extractLsb' 0 4).toNat = dst.toNat % 16 := by simp [BitVec.extractLsb'_toNat]
  have hhigh : (dst.extractLsb' 4 2).toNat = dst.toNat / 16 := by
    have := dst.isLt
    simp only [BitVec.extractLsb'_toNat, Nat.shiftRight_eq_div_pow]
    omega
  have hlt := dst.isLt
  unfold Cell.write
  rw [hlow, hhigh]
  unfold CellWords.result
  generalize dst.toNat = n at *
  obtain h | h | h | h : n / 16 = 0 ∨ n / 16 = 1 ∨ n / 16 = 2 ∨ n / 16 = 3 := by omega
  · have h1 : ¬ (32 ≤ n ∧ n ≤ 48 ∨ n = 50) := by omega
    have h2 : ¬ (n = 49 ∨ n = 50) := by omega
    cases sw <;> simp [h, h1, h2]
  · have h1 : ¬ (32 ≤ n ∧ n ≤ 48 ∨ n = 50) := by omega
    have h2 : ¬ (n = 49 ∨ n = 50) := by omega
    simp [h, h1, h2]
  · have h1 : 32 ≤ n ∧ n ≤ 48 ∨ n = 50 := by omega
    have h2 : ¬ (n = 49 ∨ n = 50) := by omega
    cases sw <;> simp [h, h1, h2]
  · obtain rfl | rfl | rfl | hn : n = 48 ∨ n = 49 ∨ n = 50 ∨ 51 ≤ n := by omega
    · rfl
    · rfl
    · rfl
    · have h0 : n % 16 ≠ 0 ∧ n % 16 ≠ 1 ∧ n % 16 ≠ 2 := by omega
      have h1 : ¬ (32 ≤ n ∧ n ≤ 48 ∨ n = 50) := by omega
      have h2 : ¬ (n = 49 ∨ n = 50) := by omega
      simp only [h, h1, h2, if_false, false_and, Nat.reduceEqDiff, or_self]
      split
      · omega
      · omega
      · omega
      · rfl

/-- The result of an outcome written into the cell of leaf `x`; `sw` tells whether a state word is written (R62, R64). -/
def Cell.takeValue (c : Cell) (x : CellAt) (sw : Bool) (o : CellResult) : Cell :=
  match o.value with
  | some w => c.write (Leaf.dst x.leaf) sw w x.t
  | none => c

/-- The flags of an outcome written into the cell of leaf `x` (R64). -/
def Cell.takeFlags (c : Cell) (x : CellAt) (sw : Bool) (o : CellResult) : Cell :=
  match o.flags with
  | some f => if sw && Leaf.flg x.leaf then { c with v := { c.v with work := { c.v.work with f } } } else c
  | none => c

/-- What the writes of an outcome make of the cell of leaf `x`, its carry out among them (R70). -/
def Cell.take (c : Cell) (x : CellAt) (sw : Bool) (o : CellResult) : Cell :=
  { (c.takeValue x sw o).takeFlags x sw o with carry := ⟨o.cout, !o.cout⟩, carryAt := x.t }

theorem ite_cell_self (s : State) (k j : Nat) : (if k = j then s.cell k else s.cell j) = s.cell j := by
  split
  · next e => rw [e]
  · rfl

/-- The write-back of a leaf takes its outcome into the cell of the leaf, and no other cell changes. -/
theorem cell_writeBack (s : State) (x : CellAt) (o : CellResult) (j : Nat) : (s.writeBack x o).cell j =
    if x.key = j then (s.cell x.key).take x (s.cellWrites x) o else s.cell j := by
  unfold State.writeBack
  extract_lets sw s0 fl s1 ws s2 s3 s4
  have h0 : ∀ i, s0.cell i = if x.key = i then (s.cell x.key).takeValue x sw o else s.cell i := by
    intro i
    simp only [s0, Cell.takeValue]
    cases o.value with
    | none => exact (ite_cell_self s x.key i).symm
    | some w => exact cell_updCell ..
  have h1 : ∀ i, s1.cell i = if x.key = i then (s0.cell x.key).takeFlags x sw o else s0.cell i := by
    intro i
    have hsame : s0.cell i = if x.key = i then s0.cell x.key else s0.cell i := (ite_cell_self s0 x.key i).symm
    simp only [s1, fl, Cell.takeFlags]
    cases o.flags with
    | none => exact hsame
    | some f =>
      cases sw && Leaf.flg x.leaf with
      | false => exact hsame
      | true => exact cell_updCell ..
  have h3 : ∀ i, s3.cell i = s1.cell i := by
    intro i
    have h2 : s2.cell i = s1.cell i := by simp only [s2]; split <;> rfl
    rw [← h2]
    simp only [s3]
    split
    · split
      · exact cell_designCheck s2 x i
      · rfl
    · rfl
  suffices h4 : s4.cell j = _ by
    split
    · exact h4
    · exact h4
  simp only [s4, cell_updCell, h3, h1, h0, if_true]
  split
  · rfl
  · rfl

/-! ### What each register of the cell holds after the write-back (R62, R64) -/

/-- The flag set that an outcome leaves: its own with CW, FLG and the cadence, else the old one (R64). -/
def CellResult.flagsOn (o : CellResult) (on : Bool) (old : FlagSet) : FlagSet :=
  match o.flags with
  | some f => if on then f else old
  | none => old

theorem Cell.takeFlags_eq (c : Cell) (x : CellAt) (sw : Bool) (o : CellResult) : c.takeFlags x sw o =
    { c with v := { c.v with work := { c.v.work with f := o.flagsOn (sw && Leaf.flg x.leaf) c.v.work.f } } } := by
  unfold Cell.takeFlags CellResult.flagsOn
  cases o.flags with
  | none => rfl
  | some f => cases sw && Leaf.flg x.leaf <;> rfl

/-- A result `w` and the flags of its outcome in the cell of the leaf. -/
theorem cell_writeBack_result (s : State) (x : CellAt) {o : CellResult} {w : RWord} (hv : o.value = some w) :
    let n := (Leaf.dst x.leaf).toNat
    let c := s.cell x.key
    (s.writeBack x o).cell x.key = { c with
      v := { c.v with work := ⟨c.v.work.result (Leaf.dst x.leaf) (s.cellWrites x) w,
        o.flagsOn (s.cellWrites x && Leaf.flg x.leaf) c.v.work.f⟩ }
      t := if n / 16 = 1 then c.t.put (n % 16) ⟨w, x.t⟩ else c.t
      outA := if 32 ≤ n ∧ n ≤ 48 ∨ n = 50 then ⟨w, x.t⟩ else c.outA
      outB := if n = 49 ∨ n = 50 then ⟨w, x.t⟩ else c.outB
      carry := ⟨o.cout, !o.cout⟩, carryAt := x.t } := by
  intro n c
  have hw : c.takeValue x (s.cellWrites x) o = c.write (Leaf.dst x.leaf) (s.cellWrites x) w x.t := by
    unfold Cell.takeValue
    rw [hv]
  rw [cell_writeBack, if_pos rfl, Cell.take, Cell.takeFlags_eq, hw, Cell.write_eq]

theorem CellWords.result_at (c : CellWords) (dst : BitVec 6) (sw : Bool) (w : RWord) {i : Nat} (hi : i < 16) :
    (c.result dst sw w).at i = if (dst.toNat = i ∨ dst.toNat = 32 + i) ∧ sw = true then w else c.s.at i := by
  have hlt := dst.isLt
  unfold CellWords.result
  by_cases hp : (dst.toNat / 16 = 0 ∨ dst.toNat / 16 = 2) ∧ sw = true
  · rw [if_pos hp, Sparse.at_put]
    refine if_congr ?_ rfl rfl
    have := hp.1
    simp only [hp.2, and_true]
    omega
  · rw [if_neg hp, if_neg]
    rintro ⟨hd, hs⟩
    exact hp ⟨by omega, hs⟩

/-- R62, R64: the cell after the write-back of a result, read register by register. -/
theorem writeBack_result_at (s : State) (x : CellAt) {o : CellResult} {w : RWord} (hv : o.value = some w) :
    let dst := (Leaf.dst x.leaf).toNat
    let sw := s.cellWrites x
    let c := s.cell x.key
    let d := (s.writeBack x o).cell x.key
    (∀ i < 16, d.v.work.s.at i = if (dst = i ∨ dst = 32 + i) ∧ sw then w else c.v.work.s.at i) ∧
    (∀ i < 16, d.t.at i = if dst = 16 + i then ⟨w, x.t⟩ else c.t.at i) ∧
    d.outA = (if 32 ≤ dst ∧ dst ≤ 48 ∨ dst = 50 then ⟨w, x.t⟩ else c.outA) ∧
    d.outB = (if dst = 49 ∨ dst = 50 then ⟨w, x.t⟩ else c.outB) ∧
    d.v.work.f = o.flagsOn (sw && Leaf.flg x.leaf) c.v.work.f ∧ d.v.com = c.v.com ∧ d.v.pend = c.v.pend := by
  intro dst sw c d
  have hd := cell_writeBack_result s x hv
  simp only [d, hd]
  refine ⟨fun i hi => CellWords.result_at _ _ _ _ hi, fun i hi => ?_, rfl, rfl, rfl, rfl, rfl⟩
  by_cases ht : dst / 16 = 1
  · rw [if_pos ht, Sparse.at_put]
    refine if_congr ?_ rfl rfl
    omega
  · rw [if_neg ht, if_neg (by omega)]

/-! ### `nop`, `hold` and `mov` (R106) -/

section
variable {s s1 : State} {ca : CellAddr} {k : LeafNo} {x : CellAt} {a b c : RWord}

/-- A cell that a `hold` has stopped executes `nop` for the rest of the quire. -/
theorem opAt_of_held {t : State} {y : CellAt} (h : (t.cell y.key).heldIn = y.t / 64) : t.opAt y = .nop := by
  unfold State.opAt
  exact if_pos h

theorem nop_leaf (h : CellLeaf s s1 ca k .nop x a b c) :
    let t := leafEnd s .nop bodyNop ca k
    let w := (s.cell x.key).settle x.t
    (t.cell x.key).v = w.v ∧ (t.cell x.key).t = w.t ∧ (t.cell x.key).outA = w.outA ∧ (t.cell x.key).outB = w.outB ∧
    ∀ g, t.gth g = s.gth g := by
  obtain ⟨hv, ht, ha, hb, hg⟩ := runCell_nop (body := bodyNop) h
  exact ⟨hv, ht, ha, hb, fun g => by unfold State.gth; rw [leafEnd, hg]⟩

theorem hold_leaf (h : CellLeaf s s1 ca k .hold x a b c) :
    let t := leafEnd s .hold bodyHold ca k
    (t.cell x.key).v = (s1.cell x.key).v ∧ (t.cell x.key).outA = (s1.cell x.key).outA ∧
    (t.cell x.key).outB = (s1.cell x.key).outB ∧ (t.cell x.key).heldIn = x.t / 64 := by
  let z := s1.updCell x.key fun c => { c with heldIn := x.t / 64 }
  have hz : z.cell x.key = { s1.cell x.key with heldIn := x.t / 64 } := (cell_updCell ..).trans (if_pos rfl)
  have hw : (z.writeBack x {}).cell x.key =
      { s1.cell x.key with heldIn := x.t / 64, carry := ⟨false, true⟩, carryAt := x.t } := by
    rw [cell_writeBack, if_pos rfl, hz]
    rfl
  obtain ⟨hv, -, ha, hb, -⟩ := runCell_wrote (s2 := z) (o := {}) h (by decide) (rfl : bodyHold x a b c s1 = ({}, z))
  obtain ⟨-, hheld, -⟩ := runCell_left (s2 := z) (o := {}) h (by decide) (rfl : bodyHold x a b c s1 = ({}, z))
  rw [hw] at hv ha hb hheld
  exact ⟨hv, ha, hb, hheld⟩

end

/-- Settles O17: `nop` by the leaf that only settles, `hold` by the mark that it leaves in its cell, `mov` by its write-back,
and DST by the registers of the cell after the write-back. -/
theorem cellNopsAndWrites : Obligations.CellNopsAndWrites := by
  unfold Obligations.CellNopsAndWrites
  refine ⟨fun ca k s s1 x a b c => ⟨fun h => ⟨_, rfl, nop_leaf h⟩, fun h => ?_, fun h => ?_⟩, fun s x o w hv => ?_⟩
  · obtain ⟨hv, ha, hb, hheld⟩ := hold_leaf h
    exact ⟨_, rfl, hv, ha, hb, fun y hk ht => opAt_of_held (by rw [hk, ht]; exact hheld)⟩
  · exact ⟨_, rfl, runCell_wrote h (by decide) rfl⟩
  · obtain ⟨hs, ht, ha, hb, hf, hcom, hpend⟩ := writeBack_result_at s x hv
    exact ⟨hs, ht, ha, hb, hf, hcom, hpend, fun j hj => (cell_writeBack ..).trans (if_neg (Ne.symm hj))⟩

end Sys2Proof.Machine
end

section
/-!
Proofs of the cells family, 2: what every leaf of a cell leaves of the other cells, of its own leaf store and of the
gatherings (R50, R75, R129).
-/
namespace Sys2Proof.Machine

/-! ### What a leaf keeps -/

/-- A gathering without what any leaf may write in it: the kettle registers, the design check and the marks of a write. -/
def Gth.bare (y : Gth) : Gth := { y with kettle := {}, checkW := none, wroteSW := false, wroteFW := false }

/-- From `s` to `t` a leaf of cell `own` has kept every other cell but for the words on threads, its own leaf store, and
what `keep` shows of each gathering. -/
structure LeafKeeps (keep : Gth → Gth) (own : Nat) (s t : State) : Prop where
  others : ∀ key, key ≠ own → CellKept (s.cell key) (t.cell key)
  leaves : (t.cell own).leaf = (s.cell own).leaf
  gths : ∀ g, keep (t.gth g).bare = keep (s.gth g).bare

section
variable {keep : Gth → Gth} {own : Nat} {s t u : State}

theorem LeafKeeps.refl (s : State) : LeafKeeps keep own s s := ⟨fun _ _ => .refl _, rfl, fun _ => rfl⟩

theorem LeafKeeps.trans (h : LeafKeeps keep own s t) (k : LeafKeeps keep own t u) : LeafKeeps keep own s u :=
  ⟨fun key hk => (h.others key hk).trans (k.others key hk), k.leaves.trans h.leaves, fun g => (k.gths g).trans (h.gths g)⟩

/-- A part of a gathering that `keep` shows stays as it was. -/
theorem LeafKeeps.part {α : Type} (h : LeafKeeps keep own s t) (part : Gth → α) (g : Nat)
    (hp : ∀ y, part (keep y.bare) = part y := by intro; rfl) : part (t.gth g) = part (s.gth g) := by
  rw [← hp (t.gth g), h.gths, hp]

/-- A change of no more than the words on threads. -/
theorem LeafKeeps.kept (h : Kept s t) (hg : t.arr.gths = s.arr.gths) : LeafKeeps keep own s t :=
  ⟨fun key _ => h key, (h own).leaf, fun g => by unfold State.gth; rw [hg]⟩

theorem LeafKeeps.only {ps : List Part} (h : State.Only ps s t) (hc : Part.cells ∉ ps) (hg : Part.gatherings ∉ ps) :
    LeafKeeps keep own s t :=
  .kept (.only h hc) (h.same .gatherings hg)

theorem LeafKeeps.updCell {f : Cell → Cell} (hf : ∀ c, (f c).leaf = c.leaf) : LeafKeeps keep own s (s.updCell own f) := by
  refine ⟨fun key hk => ?_, ?_, fun g => rfl⟩
  · rw [cell_updCell, if_neg (Ne.symm hk)]
    exact .refl _
  · rw [cell_updCell, if_pos rfl, hf]

theorem LeafKeeps.updGth {g : Nat} {f : Gth → Gth} (hf : ∀ y, keep (f y).bare = keep y.bare) :
    LeafKeeps keep own s (s.updGth g f) := by
  refine ⟨fun key _ => .refl _, rfl, fun j => ?_⟩
  rw [gth_updGth]
  split
  · next e => rw [hf, e]
  · rfl

/-- An update of a gathering that writes only what any leaf may write. -/
theorem LeafKeeps.updBare {g : Nat} {f : Gth → Gth} (hf : ∀ y, (f y).bare = y.bare) :
    LeafKeeps keep own s (s.updGth g f) := .updGth fun y => by rw [hf]

theorem LeafKeeps.chargeIf (b : Bool) (r c g : Nat) : LeafKeeps keep own s (s.chargeIf b r c g) :=
  .only (chargeIf_frame s b r c g) (by decide) (by decide)

theorem LeafKeeps.ite {b : Bool} (ht : LeafKeeps keep own s t) (hu : LeafKeeps keep own s u) :
    LeafKeeps keep own s (if b then t else u) := by
  split
  · exact ht
  · exact hu

theorem LeafKeeps.designCheck (x : CellAt) : LeafKeeps keep own s (s.designCheck x) := by
  unfold State.designCheck
  split
  · exact .refl s
  · refine .updBare fun y => ?_
    dsimp only
    split
    · rfl
    · split <;> rfl

end

/-! ### The parts of a leaf -/

theorem leaf_write (c : Cell) (dst : BitVec 6) (sw : Bool) (w : RWord) (t : Nat) : (c.write dst sw w t).leaf = c.leaf := by
  rw [Cell.write_eq]

/-- Words that arrive at a cell leave its leaf store (R95). -/
theorem leaf_settle (c : Cell) (t : Nat) : (c.settle t).leaf = c.leaf := by
  have h : ∀ (l : List FolioReturn) (d : Cell), (l.foldl (fun c r => c.write r.dst r.cw r.w (r.at_ + 1)) d).leaf = d.leaf := by
    intro l
    induction l with
    | nil => exact fun _ => rfl
    | cons r l ih => exact fun d => (ih _).trans (leaf_write ..)
  exact h _ c

theorem leaf_take (c : Cell) (x : CellAt) (sw : Bool) (o : CellResult) : (c.take x sw o).leaf = c.leaf := by
  have hv : (c.takeValue x sw o).leaf = c.leaf := by
    unfold Cell.takeValue
    split
    · exact leaf_write ..
    · rfl
  rw [Cell.take, Cell.takeFlags_eq, hv]

section
variable {keep : Gth → Gth} {s : State}

theorem writeBack_keeps (x : CellAt) (o : CellResult) : LeafKeeps keep x.key s (s.writeBack x o) := by
  refine ⟨fun key hk => ?_, ?_, ?_⟩
  · rw [cell_writeBack, if_neg (Ne.symm hk)]
    exact .refl _
  · rw [cell_writeBack, if_pos rfl, leaf_take]
  · unfold State.writeBack
    extract_lets sw s0 fl s1 ws s2 s3 s4
    have h1 : ∀ g, s1.gth g = s.gth g := by
      have h0 : ∀ g, s0.gth g = s.gth g := fun g => by simp only [s0]; split <;> rfl
      exact fun g => (by simp only [s1]; split <;> rfl : s1.gth g = s0.gth g).trans (h0 g)
    have h2 : LeafKeeps keep x.key s1 s2 := .ite (.updBare fun _ => rfl) (.refl _)
    have h3 : LeafKeeps keep x.key s2 s3 := by
      simp only [s3]
      split
      · exact .ite (.designCheck x) (.refl _)
      · exact .refl _
    have h4 : LeafKeeps keep x.key s3 s4 := .updCell fun _ => rfl
    intro g
    refine (LeafKeeps.gths (h2.trans (h3.trans (h4.trans ?_))) g).trans (by rw [h1])
    exact .ite (.updBare fun _ => rfl) (.refl _)

/-- The sources of a leaf write words on threads alone. -/
theorem kept_inputWord (s : State) (x : CellAt) (i : Nat) : Kept s (s.inputWord x i).2 := by
  unfold State.inputWord
  extract_lets sel term
  have hlive := kept_liveWord x.r x.k x.t 8 s x.key term
  split
  next w z hz =>
  have hread : Kept s z := by
    split at hz
    · have hreg := kept_regWord s x.key term x.t
      rwa [hz] at hreg
    · split at hz
      · next y he =>
        rw [he] at hlive
        split at hz
        · cases hz
          exact hlive
        · have hdraw := kept_drawWord y
          rw [hz] at hdraw
          exact hlive.trans hdraw
      · next y _ he =>
        rw [he] at hlive
        have hdraw := kept_drawWord y
        rw [hz] at hdraw
        exact hlive.trans hdraw
  exact hread.trans (.only (chargeIf_frame ..) (by decide))

theorem kept_defined (s : State) (t : Nat) (w : RWord) (at_ : Nat) : Kept s (s.defined t w at_).2 :=
  .only (defined_only t w at_ (.refl [.free] s) (by decide)) (by decide)

theorem kept_source (s : State) (x : CellAt) (code : Nat) : Kept s (s.source x code).2 := by
  have hcharge : ∀ (z : State) (b : Bool) (c : Nat), Kept z (z.chargeIf b x.r c x.g) := fun z b c =>
    .only (chargeIf_frame ..) (by decide)
  unfold State.source
  extract_lets c w
  split
  · exact hcharge s _ _
  split
  · exact (kept_defined s x.t _ _).trans (hcharge _ _ _)
  split
  · exact kept_inputWord s x _
  split
  · exact (kept_defined s x.t _ _).trans (hcharge _ _ _)
  split
  · exact (kept_defined s x.t _ _).trans (hcharge _ _ _)
  split
  · exact .refl s
  split
  · exact hcharge s _ _
  · exact .refl s

theorem kept_operands (s : State) (x : CellAt) (op : CellOp) : Kept s (s.operands x op).2.2.2 := by
  have hsource : ∀ (z : State) (b : Bool) (code : Nat), Kept z (if b then z.source x code else ({}, z)).2 := by
    intro z b code
    split
    · exact kept_source z x code
    · exact .refl z
  unfold State.operands
  exact (hsource s _ _).trans ((hsource _ _ _).trans (hsource _ _ _))

theorem operands_keeps (x : CellAt) (op : CellOp) : LeafKeeps keep x.key s (s.operands x op).2.2.2 :=
  .kept (kept_operands s x op) ((operands_only x op (.refl _ s) (sub_self _)).same .gatherings (by decide))

theorem switchBox_keeps (x : CellAt) (c0 : Cell) : LeafKeeps keep x.key s (s.switchBox x c0) :=
  .kept (kept_switchBox s x c0) ((switchBox_only x c0 (.refl _ s) (sub_self _)).same .gatherings (by decide))

theorem predicate_keeps (x : CellAt) (c : RWord) : LeafKeeps keep x.key s (s.predicate x c).2 :=
  .only (predicate_only x c (.refl _ s) (sub_self _)) (by decide) (by decide)

end

/-! ### A whole leaf -/

/-- An opcode's own part keeps what a leaf keeps. -/
def BodyKeeps (keep : Gth → Gth) (body : CellBody) : Prop :=
  ∀ x a b c s, LeafKeeps keep x.key s (body x a b c s).2

/-- A leaf keeps what its opcode's own part keeps. -/
theorem runCell_keeps {keep : Gth → Gth} {body : CellBody} (hb : BodyKeeps keep body) (s : State) (op : CellOp)
    (key k : Nat) : LeafKeeps keep key s (s.runCell op body key k) := by
  unfold State.runCell
  split
  · exact .refl s
  next x hx =>
  obtain rfl := cellReady_key hx
  extract_lets s0 c0 ps
  have h0 : LeafKeeps keep x.key s s0 := .updCell fun c => leaf_settle c x.t
  refine h0.trans ?_
  split
  · exact .refl s0
  have hsources := operands_keeps (keep := keep) (s := s0) x op
  rcases hs : s0.operands x op with ⟨a, b, c, s1⟩
  rw [hs] at hsources
  refine hsources.trans ?_
  have hpred : LeafKeeps keep x.key s1 (if op = .nop then (true, s1) else s1.predicate x c).2 := by
    split
    · exact .refl s1
    · exact predicate_keeps x c
  dsimp only
  rcases hp : (if op = .nop then (true, s1) else s1.predicate x c) with ⟨p, s2⟩
  rw [hp] at hpred
  refine hpred.trans ?_
  dsimp only
  refine LeafKeeps.trans ?_ (.trans (.trans (.updCell ?_) (switchBox_keeps x c0)) (.updCell ?_))
  · split
    · exact .updCell fun _ => rfl
    split
    · exact (hb x a b c s2).trans (writeBack_keeps x _)
    · exact .updCell fun _ => rfl
  · exact fun _ => rfl
  · exact fun _ => rfl

/-! ### The opcodes' own parts -/

section
variable {keep : Gth → Gth} {body : CellBody}

theorem BodyKeeps.same (h : ∀ x a b c s, (body x a b c s).2 = s) : BodyKeeps keep body := fun x a b c s => by
  rw [h]
  exact .refl s

theorem BodyKeeps.only (h : ∀ x a b c s, State.Only [.free, .regions, .reg .qctFault] s (body x a b c s).2) :
    BodyKeeps keep body := fun x a b c s => .only (h x a b c s) (by decide) (by decide)

theorem folioReturn_keeps (x : CellAt) (w : RWord) (s : State) : LeafKeeps keep x.key s (folioReturn x w s).2 := by
  unfold folioReturn
  extract_lets sw namesS y z
  have hy : LeafKeeps keep x.key s y := .updCell fun _ => rfl
  exact hy.trans (.ite (.updBare fun _ => rfl) (.refl _))

theorem dropped_keeps (x : CellAt) (s : State) : LeafKeeps keep x.key s (dropped x s) := .chargeIf true x.r 0x01 x.g

theorem droppedRead_keeps (x : CellAt) (s : State) : LeafKeeps keep x.key s (droppedRead x s).2 := by
  have hdraw : LeafKeeps keep x.key (dropped x s) ((dropped x s).draw 40).2 := .kept (.same rfl) rfl
  exact (dropped_keeps x s).trans (hdraw.trans (folioReturn_keeps x _ _))

theorem bodyFld_keeps : BodyKeeps keep bodyFld := by
  intro x a b c s
  unfold bodyFld
  extract_lets i
  split
  · exact droppedRead_keeps x s
  next h _ =>
  split
  · exact droppedRead_keeps x s
  · exact (LeafKeeps.chargeIf _ x.r 0x04 h).trans (folioReturn_keeps x _ _)

theorem queueHead_keeps (pop : Bool) (x : CellAt) (s : State)
    (hmove : pop = true → ∀ z h n t ap, LeafKeeps keep x.key z (z.movePointer h n t ap)) :
    LeafKeeps keep x.key s (queueHead pop x s).2 := by
  unfold queueHead
  extract_lets n
  split
  · exact droppedRead_keeps x s
  next h _ =>
  have hz : LeafKeeps keep x.key s (queuePointer x h n s).2 := .chargeIf _ x.r 0x05 h
  rcases hq : queuePointer x h n s with ⟨ap, z⟩
  rw [hq] at hz
  refine hz.trans ?_
  dsimp only
  split
  · exact (LeafKeeps.designCheck x).trans (folioReturn_keeps x _ _)
  have hy : LeafKeeps keep x.key z (checkedWord x h ((z.gth h).folioRead x.t (z.qAddr h n ap)) z).2 := .chargeIf _ x.r 0x04 h
  rcases hc : checkedWord x h ((z.gth h).folioRead x.t (z.qAddr h n ap)) z with ⟨w, y⟩
  rw [hc] at hy
  refine hy.trans (LeafKeeps.trans ?_ (folioReturn_keeps x w _))
  split
  · next hp => exact hmove (Bool.and_eq_true_iff.mp hp).1 y h n x.t _
  · exact .refl y

theorem bodyFpeek_keeps : BodyKeeps keep bodyFpeek := fun x _ _ _ s =>
  queueHead_keeps false x s (fun h => absurd h (by decide))

theorem bodyHold_keeps : BodyKeeps keep bodyHold := by
  intro x a b c s
  dsimp only [bodyHold]
  exact .updCell fun _ => rfl

/-- The part of a gathering that folio writes and queue moves leave. -/
def Gth.noFolio (y : Gth) : Gth := { y with working := [], queue := {} }

/-- The part of a gathering that a hand-off to a press block leaves. -/
def Gth.noPress (y : Gth) : Gth := { y with press := {} }

theorem bodyFst_keeps : BodyKeeps Gth.noFolio bodyFst := by
  intro x a b c s
  unfold bodyFst
  extract_lets i
  split
  · exact dropped_keeps x s
  next h _ =>
  split
  · exact dropped_keeps x s
  extract_lets z
  have hz : LeafKeeps Gth.noFolio x.key s z := .chargeIf _ x.r 0x01 h
  refine hz.trans ?_
  split
  · dsimp only
    exact .updGth fun _ => rfl
  · exact .refl z

theorem movePointer_keeps {own : Nat} (s : State) (h n t ap : Nat) :
    LeafKeeps Gth.noFolio own s (s.movePointer h n t ap) := .updGth fun _ => rfl

theorem bodyFpop_keeps : BodyKeeps Gth.noFolio bodyFpop := fun x _ _ _ s =>
  queueHead_keeps true x s fun _ => movePointer_keeps

theorem bodyFpush_keeps : BodyKeeps Gth.noFolio bodyFpush := by
  intro x a b c s
  unfold bodyFpush
  extract_lets n
  split
  · exact dropped_keeps x s
  next h _ =>
  have hz : LeafKeeps Gth.noFolio x.key s (queuePointer x h n s).2 := .chargeIf _ x.r 0x05 h
  rcases hq : queuePointer x h n s with ⟨ap, z⟩
  rw [hq] at hz
  refine hz.trans ?_
  dsimp only
  split
  · exact .designCheck x
  refine LeafKeeps.trans (LeafKeeps.chargeIf (!b.ok) x.r 0x01 h) ?_
  split
  · dsimp only
    refine LeafKeeps.trans (.updGth fun y => ?_) (movePointer_keeps _ h n x.t _)
    rfl
  · exact .refl _

theorem bodyPput_keeps : BodyKeeps Gth.noPress bodyPput := by
  intro x a b c s
  unfold bodyPput
  extract_lets p l
  split
  · refine LeafKeeps.trans (.chargeIf (!a.ok || !b.ok) x.r 0x01 x.g) ?_
    dsimp only
    exact .updGth fun _ => rfl
  · exact dropped_keeps x s

end

/-! ### The commands -/

/-- A command runs a leaf of a cell with an opcode's own part that keeps what `keep` shows of the gatherings. -/
def RunsLeaf (keep : Gth → Gth) (ca : CellAddr) (k : LeafNo) (i : Instr) : Prop :=
  ∃ op body, BodyKeeps keep body ∧ ∀ s, exec i s = .next (s.runCell op body (cellAddrNo ca) k)

theorem RunsLeaf.keeps {keep : Gth → Gth} {ca : CellAddr} {k : LeafNo} {i : Instr} (h : RunsLeaf keep ca k i) {s t : State}
    (he : exec i s = .next t) : LeafKeeps keep (cellAddrNo ca) s t := by
  obtain ⟨op, body, hb, hrun⟩ := h
  rw [hrun] at he
  cases he
  exact runCell_keeps hb s op _ _

section
variable {keep : Gth → Gth} {ca : CellAddr} {k : LeafNo} {i : Instr} {body : CellBody}

theorem RunsLeaf.of (op : CellOp) (hb : BodyKeeps keep body)
    (he : ∀ s, exec i s = .next (s.runCell op body (cellAddrNo ca) k) := by intro; rfl) : RunsLeaf keep ca k i :=
  ⟨op, body, hb, he⟩

/-- An opcode whose own part changes nothing of the state. -/
theorem RunsLeaf.unchanged (op : CellOp) (body : CellBody)
    (hb : ∀ x a b c s, (body x a b c s).2 = s := by intros; rfl)
    (he : ∀ s, exec i s = .next (s.runCell op body (cellAddrNo ca) k) := by intro; rfl) : RunsLeaf keep ca k i :=
  ⟨op, body, .same hb, he⟩

/-- An opcode whose own part no more than draws free values and charges failed checks. -/
theorem RunsLeaf.checked (op : CellOp)
    (hb : ∀ x a b c s, State.Only [.free, .regions, .reg .qctFault] s (body x a b c s).2)
    (he : ∀ s, exec i s = .next (s.runCell op body (cellAddrNo ca) k) := by intro; rfl) : RunsLeaf keep ca k i :=
  ⟨op, body, .only hb, he⟩

end

/-- The leaves that use no folio block and hand nothing to a press block: they change no gathering beyond what any leaf may
write in one. -/
theorem plainLeaves_run (keep : Gth → Gth) (ca : CellAddr) (k : LeafNo) : ∀ i ∈ plainLeaves ca k, RunsLeaf keep ca k i := by
  simp only [plainLeaves, List.forall_mem_append, List.forall_mem_cons, List.not_mem_nil, false_imp_iff, implies_true,
    and_true]
  exact ⟨⟨.unchanged .nop bodyNop, .of .hold bodyHold_keeps, .unchanged .mov bodyMov,
    .checked .add fun x a b c s => bodyAdd_only x a b c (.refl _ s) (by decide),
    .checked .sub fun x a b c s => bodySub_only x a b c (.refl _ s) (by decide),
    .checked .cmp fun x a b c s => bodyCmp_only x a b c (.refl _ s) (by decide),
    .checked .ltu fun x a b c s => bodyLtu_only x a b c (.refl _ s) (by decide),
    .checked .lts fun x a b c s => bodyLts_only x a b c (.refl _ s) (by decide),
    .checked .eq fun x a b c s => bodyEq_only x a b c (.refl _ s) (by decide), .unchanged .lut3 bodyLut3,
    .unchanged .and bodyAnd, .unchanged .or bodyOr, .unchanged .xor bodyXor, .unchanged .andn bodyAndn,
    .unchanged .shl bodyShl, .unchanged .shr bodyShr, .unchanged .sar bodySar, .unchanged .rol bodyRol,
    .unchanged .ext bodyExt, .unchanged .exts bodyExts, .unchanged .ins bodyIns, .unchanged .fsh bodyFsh,
    .unchanged .sel bodySel, .unchanged .bsel bodyBsel⟩,
    .unchanged .maxu bodyMaxu, .unchanged .minu bodyMinu, .unchanged .maxs bodyMaxs, .unchanged .mins bodyMins,
    .unchanged .rdor bodyRdor, .unchanged .rdand bodyRdand, .unchanged .rdxor bodyRdxor, .unchanged .lzc bodyLzc,
    .unchanged .popc bodyPopc, .unchanged .tzc bodyTzc, .of .fld bodyFld_keeps, .of .fpeek bodyFpeek_keeps,
    .checked .pget fun x a b c s => bodyPget_only x a b c (.refl _ s) (by decide),
    .checked .qempty fun x a b c s => bodyQempty_only x a b c (.refl _ s) (by decide),
    .checked .qfull fun x a b c s => bodyQfull_only x a b c (.refl _ s) (by decide),
    .checked .qhigh fun x a b c s => bodyQhigh_only x a b c (.refl _ s) (by decide),
    .checked .qlow fun x a b c s => bodyQlow_only x a b c (.refl _ s) (by decide),
    .checked .qcount fun x a b c s => bodyQcount_only x a b c (.refl _ s) (by decide),
    .checked .hin fun x a b c s => bodyHin_only x a b c (.refl _ s) (by decide), .unchanged .pin bodyPin,
    .unchanged .hstat bodyHstat⟩

theorem folioLeaves_run (ca : CellAddr) (k : LeafNo) :
    ∀ i ∈ ([.cellFst ca k, .cellFpush ca k, .cellFpop ca k] : List Instr), RunsLeaf Gth.noFolio ca k i := by
  simp only [List.forall_mem_cons, List.not_mem_nil, false_imp_iff, implies_true, and_true]
  exact ⟨.of .fst bodyFst_keeps, .of .fpush bodyFpush_keeps, .of .fpop bodyFpop_keeps⟩

theorem cellPput_runs (ca : CellAddr) (k : LeafNo) : RunsLeaf Gth.noPress ca k (.cellPput ca k) := .of .pput bodyPput_keeps

/-- What every leaf leaves of a gathering: the stored words, those on their way to the store, and the access leaves (R129). -/
def Gth.stored (y : Gth) : Gth := { y with working := [], queue := {}, press := {} }

/-- A leaf that keeps more of the gatherings keeps less of them. -/
theorem LeafKeeps.less {keep : Gth → Gth} {own : Nat} {s t : State} (h : LeafKeeps keep own s t) (less : Gth → Gth) :
    LeafKeeps (less ∘ keep) own s t := ⟨h.others, h.leaves, fun g => congrArg less (h.gths g)⟩

/-- Every leaf keeps the other cells, its own leaf store, and of the gatherings what no leaf writes. -/
theorem cellLeaves_keep {ca : CellAddr} {k : LeafNo} {i : Instr} (hi : i ∈ cellLeaves ca k) {s t : State}
    (he : exec i s = .next t) : LeafKeeps Gth.stored (cellAddrNo ca) s t := by
  simp only [cellLeaves, List.mem_append, List.mem_cons, List.not_mem_nil, or_false] at hi
  obtain hplain | hfst | hfpush | hfpop | rfl := hi
  · exact (plainLeaves_run _ ca k i hplain).keeps he
  · exact ((folioLeaves_run ca k i (by simp [hfst])).keeps he).less Gth.noPress
  · exact ((folioLeaves_run ca k i (by simp [hfpush])).keeps he).less Gth.noPress
  · exact ((folioLeaves_run ca k i (by simp [hfpop])).keeps he).less Gth.noPress
  · exact ((cellPput_runs ca k).keeps he).less Gth.noFolio

/-- Settles O4: a leaf keeps what its opcode's own part keeps, and each own part writes in its own cell and in what its
opcode names. -/
theorem cellFrames : Obligations.CellFrames := by
  unfold Obligations.CellFrames
  intro ca k s t
  refine ⟨fun i hi he => ?_, fun i hi he g => ?_, fun he g => ?_, fun i hi he g => ?_⟩
  · have hk := cellLeaves_keep hi he
    exact ⟨hk.others, hk.leaves, fun g => ⟨hk.part Gth.store g, hk.part Gth.pending g, hk.part Gth.draining g,
      hk.part Gth.access g⟩⟩
  · have hk := (plainLeaves_run id ca k i hi).keeps he
    exact ⟨hk.part Gth.working g, hk.part Gth.pending g, hk.part Gth.draining g, hk.part Gth.store g,
      hk.part Gth.queue g, hk.part Gth.press g⟩
  · have hk := (cellPput_runs ca k).keeps he
    exact ⟨hk.part Gth.working g, hk.part Gth.queue g⟩
  · exact ((folioLeaves_run ca k i hi).keeps he).part Gth.press g

end Sys2Proof.Machine
end

section
/-!
Proofs of the cells family, 3: fields of a register after a write of another field, or of the whole register (R8, R496).
-/
namespace Sys2Proof.Machine

/-! ### A field beside another field -/

section
variable {w w' : Nat} (s : State) (f : Field w) (g : Field w') (b c : Field 1) (i j : Nat)

theorem getN_setF_apart (h : b.apart g = true) : (s.setF b i).getN g j = s.getN g j :=
  congrArg BitVec.toNat (State.getF_putF_apart s b g i j 1#1 h)

theorem getN_clrF_apart (h : b.apart g = true) : (s.clrF b i).getN g j = s.getN g j :=
  congrArg BitVec.toNat (State.getF_putF_apart s b g i j 0#1 h)

theorem bitF_putN_apart (v : Nat) (h : f.apart b = true) : (s.putN f i v).bitF b j = s.bitF b j := by
  unfold State.bitF State.putN
  rw [State.getF_putF_apart s f b i j _ h]

theorem bitF_addF_apart (n : Nat) (h : f.apart b = true) : (s.addF f i n).bitF b j = s.bitF b j :=
  bitF_putN_apart s f b i j _ h

theorem bitF_putF_apart (v : BitVec w) (h : f.apart b = true) : (s.putF f i v).bitF b j = s.bitF b j := by
  unfold State.bitF
  rw [State.getF_putF_apart s f b i j v h]

theorem bitF_setF (h : b.lo + 1 ≤ 64) : (s.setF b i).bitF b j = (decide (i = j) || s.bitF b j) := by
  by_cases hij : i = j
  · subst hij
    rw [State.bitF_setF_self s b i h, decide_eq_true rfl, Bool.true_or]
  · unfold State.bitF State.setF
    rw [State.getF_putF_index s b b _ hij, decide_eq_false hij, Bool.false_or]

end

/-! ### A field of a register that is written as a whole -/

section
variable {w : Nat} (s : State) (f : Field w) (i j : Nat) (v : BitVec 64)

theorem getLsbD_of_extract {m : BitVec 64} {lo k : Nat} {e : BitVec w} (h : m.extractLsb' lo w = e) (hk : k < w) :
    m.getLsbD (lo + k) = e.getLsbD k := by
  rw [← h, BitVec.getLsbD_extractLsb', decide_eq_true hk, Bool.true_and]

/-- A field without W1C bits keeps its value. -/
theorem getF_clearW1c (h : f.reg.w1cMask.extractLsb' f.lo w = 0#w) : (s.clearW1c f.reg i v).getF f j = s.getF f j := by
  unfold State.clearW1c State.getF
  rw [State.reg_setReg]
  split
  · next e =>
    obtain ⟨-, rfl⟩ := e
    ext k hk
    have hm := getLsbD_of_extract h hk
    rw [BitVec.getLsbD_zero] at hm
    simp only [BitVec.getElem_extractLsb', BitVec.getLsbD_and, BitVec.getLsbD_not, hm, Bool.and_false, Bool.not_false,
      Bool.and_true]
    by_cases hlt : f.lo + k < 64
    · rw [decide_eq_true hlt, Bool.and_true]
    · rw [decide_eq_false hlt, Bool.and_false, BitVec.getLsbD_of_ge _ _ (Nat.le_of_not_lt hlt)]
  · rfl

/-- A stored field takes its bits of the written value. -/
theorem getF_storeRw (h : f.reg.rwMask.extractLsb' f.lo w = BitVec.allOnes w) :
    (s.storeRw f.reg i v).getF f i = v.extractLsb' f.lo w := by
  unfold State.storeRw State.getF
  rw [State.reg_setReg_self]
  ext k hk
  have hm := getLsbD_of_extract h hk
  rw [BitVec.getLsbD_allOnes, decide_eq_true hk] at hm
  simp only [BitVec.getElem_extractLsb', BitVec.getLsbD_or, BitVec.getLsbD_and, BitVec.getLsbD_not, hm, Bool.not_true,
    Bool.and_false, Bool.false_or, Bool.and_true]

/-- A write that asks for an action is never idle (R496). -/
theorem idleWrite_action {r : RegId} {k : Nat} (hm : r.woMask.getLsbD k = true) (hv : v.getLsbD k = true) :
    s.idleWrite r i v = false := by
  have hne : v &&& r.woMask ≠ 0 := fun h => by
    have hk := congrArg (BitVec.getLsbD · k) h
    simp [hm, hv] at hk
  unfold State.idleWrite
  rw [beq_false_of_ne hne, Bool.and_false]

end

end Sys2Proof.Machine
end

section
/-!
Proofs of the cells family, 4: the upkeep engines (R59, R132, R462, R463).
-/
namespace Sys2Proof.Machine

/-! ### Counts of findings, of passes and of events raised (R239, R462) -/

theorem raises_raise (s : State) (m j : Nat) :
    (s.raise m).getN F.colEv_raises j = (s.addF F.colEv_raises m 1).getN F.colEv_raises j := by
  unfold State.raise
  extract_lets z
  split
  · rfl
  split
  · rfl
  · have hready : ∀ y : State, y.refreshReady.getN F.colEv_raises j = y.getN F.colEv_raises j :=
      fun y => State.getN_regs rfl _ _
    rw [hready, getN_setF_apart _ F.colEv_raises F.colEv_pend m j (by decide)]
    exact State.getN_regs rfl _ _

theorem raises_raise_self (s : State) (m : Nat) :
    (s.raise m).getN F.colEv_raises m = min (s.getN F.colEv_raises m + 1) (2 ^ 24 - 1) :=
  (raises_raise s m m).trans (State.getN_addF_self s F.colEv_raises m 1 (by decide))

theorem raises_raise_ne (s : State) {m j : Nat} (h : m ≠ j) :
    (s.raise m).getN F.colEv_raises j = s.getN F.colEv_raises j := by
  rw [raises_raise, State.addF, State.getN_putN_index s F.colEv_raises F.colEv_raises _ h]

/-- An entry of the log raises no event but 922, where it freezes the log (R473). -/
theorem raises_logEntry (s : State) (src code arg : Nat) {j : Nat} (h : 922 ≠ j) :
    (s.logEntry src code arg).getN F.colEv_raises j = s.getN F.colEv_raises j := by
  unfold State.logEntry
  extract_lets e w frozen level fl y z u
  split
  · exact State.getN_addF_apart s F.logCtl_lost F.colEv_raises 0 j 1 (by decide)
  have hy : y.getN F.colEv_raises j = s.getN F.colEv_raises j := State.getN_regs (t := y) (s := s) rfl _ _
  have hz : z.getN F.colEv_raises j = y.getN F.colEv_raises j :=
    State.getN_putN_apart y F.logCtl_wptr F.colEv_raises 0 j _ (by decide)
  have hu : u.getN F.colEv_raises j = z.getN F.colEv_raises j := by
    simp only [u]
    split
    · exact getN_setF_apart z F.colEv_raises F.logCtl_wrap 0 j (by decide)
    · rfl
  have hall := hu.trans (hz.trans hy)
  split
  · rw [raises_raise_ne _ h, State.getN_putN_apart _ F.logCtl_frzidx F.colEv_raises 0 j _ (by decide),
      getN_setF_apart _ F.colEv_raises F.logCtl_freeze_ev 0 j (by decide),
      getN_setF_apart _ F.colEv_raises F.logCtl_frozen 0 j (by decide), hall]
  · exact hall

/-- A counter of sixteen bits that stops at all ones. -/
def count16 (n : Nat) : Nat := min (n + 1) 65535

/-- From `s` to `t` an engine has found something: FINDS and the engine's event have counted, PASSES has not. -/
structure Found (k : Nat) (s t : State) : Prop where
  finds : t.getN F.upkEng_finds k = count16 (s.getN F.upkEng_finds k)
  raises : t.getN F.colEv_raises (912 + k) = min (s.getN F.colEv_raises (912 + k) + 1) (2 ^ 24 - 1)
  passes : t.getN F.upkEng_passes k = s.getN F.upkEng_passes k

theorem found_finding (s : State) (k : Nat) : Found k s (s.finding k) := by
  have hraise : State.Only [.collator, .reg .colEv] (s.addF F.upkEng_finds k 1) (s.finding k) :=
    raise_only _ (.refl _ _) (sub_self _)
  refine ⟨?_, ?_, ?_⟩
  · rw [hraise.getN F.upkEng_finds k (by decide)]
    exact State.getN_addF_self s F.upkEng_finds k 1 (by decide)
  · refine (raises_raise_self _ _).trans ?_
    rw [State.getN_addF_apart s F.upkEng_finds F.colEv_raises k _ 1 (by decide)]
  · rw [hraise.getN F.upkEng_passes k (by decide)]
    exact State.getN_addF_apart s F.upkEng_finds F.upkEng_passes k k 1 (by decide)

theorem Found.logEntry {k : Nat} {s t : State} (h : Found k s t) (hk : k ≠ 10) (src code arg : Nat) :
    Found k s (t.logEntry src code arg) := by
  have hlog := logEntry_only src code arg (.refl _ t) (sub_self _)
  exact ⟨(hlog.getN F.upkEng_finds k (by decide)).trans h.finds, (raises_logEntry t src code arg (by omega)).trans h.raises,
    (hlog.getN F.upkEng_passes k (by decide)).trans h.passes⟩

/-- A pass that ends counts, and one that goes on does not. -/
def Passed (k : Nat) (last : Bool) (s t : State) : Prop :=
  t.getN F.upkEng_passes k = if last then count16 (s.getN F.upkEng_passes k) else s.getN F.upkEng_passes k

theorem passed_passDone (s : State) (k : Nat) : Passed k true s (s.passDone k) :=
  State.getN_addF_self s F.upkEng_passes k 1 (by decide)

/-- The end of a step of engine `k`: it is the last of a pass, or it is not. -/
theorem passed_ite {k : Nat} {s z : State} (h : z.getN F.upkEng_passes k = s.getN F.upkEng_passes k) (last : Bool) :
    Passed k last s (if last then z.passDone k else z) := by
  cases last with
  | true =>
    refine (passed_passDone z k).trans ?_
    rw [h]
  | false => exact h

/-- What the end of a step leaves: all but PASSES. -/
theorem passDone_ite_only (k : Nat) (z : State) (last : Bool) :
    State.Only [.reg .upkEng] z (if last then z.passDone k else z) :=
  .ite_ (passDone_only k (.refl _ z) (sub_self _)) (.refl _ z)

theorem finds_passDone_ite (k : Nat) (z : State) (last : Bool) :
    (if last then z.passDone k else z).getN F.upkEng_finds k = z.getN F.upkEng_finds k := by
  split
  · exact State.getN_addF_apart z F.upkEng_passes F.upkEng_finds k k 1 (by decide)
  · rfl

/-! ### The frame-check walk (R59) -/

section
variable {s : State} {n : Nat} {last : Bool}

theorem walkFrame_bad {g ly : Nat} (h : s.rowGood g ly = false) : Found 0 s (s.walkFrame g ly) := by
  unfold State.walkFrame
  rw [if_neg (by simp [h])]
  exact (found_finding s 0).logEntry (by decide) ..

theorem walkFrame_good {g ly : Nat} (h : s.rowGood g ly = true) : s.walkFrame g ly = s := if_pos h

/-- One frame of the walk: where the walk goes on, its pass, and what it finds. -/
theorem walkAt_walkPos (s : State) (n : Nat) (last : Bool) :
    (s.walkAt n last).sys.walkPos = if last then 0 else n + 1 := by
  unfold State.walkAt
  extract_lets y z
  obtain ⟨hpos, -⟩ := (passDone_ite_only 0 z last).same .upkeep (by decide)
  rw [hpos]
  rfl

theorem walkAt_finds (s : State) (n : Nat) (last : Bool) :
    (s.walkAt n last).getN F.upkEng_finds 0 = (s.walkFrame (n / 8) (n % 8)).getN F.upkEng_finds 0 := by
  unfold State.walkAt
  extract_lets y z
  exact (finds_passDone_ite 0 z last).trans (State.onSys_getN ..)

theorem walkAt_raises (s : State) (n : Nat) (last : Bool) :
    (s.walkAt n last).getN F.colEv_raises 912 = (s.walkFrame (n / 8) (n % 8)).getN F.colEv_raises 912 := by
  unfold State.walkAt
  extract_lets y z
  exact ((passDone_ite_only 0 z last).getN F.colEv_raises 912 (by decide)).trans (State.onSys_getN ..)

theorem walkFrame_passes (s : State) (g ly : Nat) : (s.walkFrame g ly).getN F.upkEng_passes 0 = s.getN F.upkEng_passes 0 := by
  cases hr : s.rowGood g ly with
  | false => exact (walkFrame_bad hr).passes
  | true => rw [walkFrame_good hr]

theorem passed_walkAt (s : State) (n : Nat) (last : Bool) : Passed 0 last s (s.walkAt n last) := by
  unfold State.walkAt
  extract_lets y z
  exact passed_ite ((State.onSys_getN ..).trans (walkFrame_passes s _ _)) last

theorem frameCheckWalk_steps (hon : s.engineOn 0 = true) (hn : s.walkNext = some (n, last)) :
    exec .frameCheckWalk s = .next (s.walkAt n last) := by
  change execFrameCheckWalk s = _
  unfold execFrameCheckWalk
  rw [if_neg (by simp [hon]), hn]

end

end Sys2Proof.Machine
end

section
/-!
Proofs of the cells family, 5: the parity sweep, wear levelling, adaptation and trim (R132, R463).
-/
namespace Sys2Proof.Machine

/-! ### The parity sweep (R132) -/

/-- FOLIO_ERR of a gathering after a word that fails: the count, and the first failure's place (R132). -/
def State.recordParity (s : State) (g a : Nat) (ring : Bool) : State :=
  let s' := s.addF F.gthFerr_count g 1
  if s'.bitF F.gthFerr_valid g then s'
  else (((s'.setF F.gthFerr_valid g).putF F.gthFerr_port g (if ring then 1 else 0)).putF
    F.gthFerr_slices g (badSlices ((s.gth g).folioCommitted a))).putN F.gthFerr_addr g a

section
variable {s : State} {g a : Nat} {ring : Bool}

theorem portRead_bad (h : badSlices ((s.gth g).folioCommitted a) ≠ 0) :
    s.portRead g a ring = ((s.gth g).folioCommitted a, false,
      ((s.recordParity g a ring).logEntry 0x0E 0x6002 (g + a * 2 ^ 12 +
        (badSlices ((s.gth g).folioCommitted a)).toNat * 2 ^ 23 + (if ring then 2 ^ 27 else 0))).raise 913) := by
  unfold State.portRead
  exact if_neg h

theorem valid_recordParity : (s.recordParity g a ring).bitF F.gthFerr_valid g = true := by
  unfold State.recordParity
  extract_lets y
  split
  · assumption
  · rw [bitF_putN_apart _ F.gthFerr_addr F.gthFerr_valid g g _ (by decide),
      bitF_putF_apart _ F.gthFerr_slices F.gthFerr_valid g g _ (by decide),
      bitF_putF_apart _ F.gthFerr_port F.gthFerr_valid g g _ (by decide),
      State.bitF_setF_self _ F.gthFerr_valid g (by decide)]

theorem raises_recordParity (m : Nat) :
    (s.recordParity g a ring).getN F.colEv_raises m = s.getN F.colEv_raises m := by
  unfold State.recordParity
  extract_lets y
  have hy : y.getN F.colEv_raises m = s.getN F.colEv_raises m :=
    State.getN_addF_apart s F.gthFerr_count F.colEv_raises g m 1 (by decide)
  split
  · exact hy
  · rw [State.getN_putN_apart _ F.gthFerr_addr F.colEv_raises g m _ (by decide)]
    unfold State.getN
    rw [State.getF_putF_apart _ F.gthFerr_slices F.colEv_raises g m _ (by decide),
      State.getF_putF_apart _ F.gthFerr_port F.colEv_raises g m _ (by decide)]
    exact (getN_setF_apart y F.colEv_raises F.gthFerr_valid g m (by decide)).trans hy

/-- A word that fails stands in FOLIO_ERR of its gathering. -/
theorem valid_portRead_bad (h : badSlices ((s.gth g).folioCommitted a) ≠ 0) :
    (s.portRead g a ring).2.2.bitF F.gthFerr_valid g = true := by
  rw [portRead_bad h]
  have hframe := raise_only 913 (logEntry_only 0x0E 0x6002 (g + a * 2 ^ 12 +
    (badSlices ((s.gth g).folioCommitted a)).toNat * 2 ^ 23 + (if ring then 2 ^ 27 else 0))
    (.refl [.log, .collator, .reg .colEv, .reg .logCtl] (s.recordParity g a ring)) (by decide)) (by decide)
  rw [hframe.bitF F.gthFerr_valid g (by decide), valid_recordParity]

/-- A word that fails raises 913, once. -/
theorem raises_portRead_bad (h : badSlices ((s.gth g).folioCommitted a) ≠ 0) :
    (s.portRead g a ring).2.2.getN F.colEv_raises 913 = min (s.getN F.colEv_raises 913 + 1) (2 ^ 24 - 1) := by
  rw [portRead_bad h, raises_raise_self, raises_logEntry _ _ _ _ (by decide), raises_recordParity]

end

/-- What a read through a port leaves of an engine's counters: all. -/
theorem engine_portRead (s : State) (g a : Nat) (ring : Bool) {w : Nat} (f : Field w) (hf : f.reg = .upkEng) (k : Nat) :
    (s.portRead g a ring).2.2.getN f k = s.getN f k :=
  (portRead_only g a ring (.refl _ s) (sub_self _)).getN f k (by rw [hf]; decide)

/-- The state after the sweep's read of word `a` of gathering `g`: a word that fails is a finding. -/
def State.swept (s : State) (g a : Nat) : State :=
  let p := s.portRead g a false
  if p.2.1 then p.2.2 else p.2.2.addF F.upkEng_finds 1 1

theorem passes_swept (s : State) (g a : Nat) : (s.swept g a).getN F.upkEng_passes 1 = s.getN F.upkEng_passes 1 := by
  have hread := engine_portRead s g a false F.upkEng_passes rfl 1
  unfold State.swept
  extract_lets p
  split
  · exact hread
  · exact (State.getN_addF_apart _ F.upkEng_finds F.upkEng_passes 1 1 1 (by decide)).trans hread

theorem swept_bad {s : State} {g a : Nat} (h : badSlices ((s.gth g).folioCommitted a) ≠ 0) :
    s.swept g a = (s.portRead g a false).2.2.addF F.upkEng_finds 1 1 := by
  unfold State.swept
  rw [portRead_bad h]
  rfl

theorem finds_swept_bad {s : State} {g a : Nat} (h : badSlices ((s.gth g).folioCommitted a) ≠ 0) :
    (s.swept g a).getN F.upkEng_finds 1 = count16 (s.getN F.upkEng_finds 1) := by
  rw [swept_bad h, State.getN_addF_self _ F.upkEng_finds 1 1 (by decide), engine_portRead s g a false F.upkEng_finds rfl 1]
  rfl

theorem valid_swept_bad {s : State} {g a : Nat} (h : badSlices ((s.gth g).folioCommitted a) ≠ 0) :
    (s.swept g a).bitF F.gthFerr_valid g = true := by
  rw [swept_bad h, bitF_addF_apart _ F.upkEng_finds F.gthFerr_valid 1 g 1 (by decide), valid_portRead_bad h]

theorem raises_swept_bad {s : State} {g a : Nat} (h : badSlices ((s.gth g).folioCommitted a) ≠ 0) :
    (s.swept g a).getN F.colEv_raises 913 = min (s.getN F.colEv_raises 913 + 1) (2 ^ 24 - 1) := by
  rw [swept_bad h, State.getN_addF_apart _ F.upkEng_finds F.colEv_raises 1 913 1 (by decide), raises_portRead_bad h]

/-- One word of the sweep, the last of its pass where `ends`. -/
def State.sweepAt (s : State) (g a : Nat) (ends : Bool) : State :=
  let z := (s.swept g a).onSys fun y => { y with sweepPos := if ends then 0 else 2048 * g + a + 1 }
  if ends then z.passDone 1 else z

section
variable {s : State} {g a : Nat} {ends : Bool}

theorem sweepAt_sweepPos : (s.sweepAt g a ends).sys.sweepPos = if ends then 0 else 2048 * g + a + 1 := by
  unfold State.sweepAt
  extract_lets z
  obtain ⟨-, hpos, -⟩ := (passDone_ite_only 1 z ends).same .upkeep (by decide)
  rw [hpos]
  rfl

theorem passed_sweepAt : Passed 1 ends s (s.sweepAt g a ends) := by
  unfold State.sweepAt
  extract_lets z
  exact passed_ite ((State.onSys_getN ..).trans (passes_swept s g a)) ends

theorem finds_sweepAt : (s.sweepAt g a ends).getN F.upkEng_finds 1 = (s.swept g a).getN F.upkEng_finds 1 := by
  unfold State.sweepAt
  extract_lets z
  exact (finds_passDone_ite 1 z ends).trans (State.onSys_getN ..)

theorem valid_sweepAt : (s.sweepAt g a ends).bitF F.gthFerr_valid g = (s.swept g a).bitF F.gthFerr_valid g := by
  unfold State.sweepAt
  extract_lets z
  exact ((passDone_ite_only 1 z ends).bitF F.gthFerr_valid g (by decide)).trans (State.onSys_bitF ..)

theorem raises_sweepAt : (s.sweepAt g a ends).getN F.colEv_raises 913 = (s.swept g a).getN F.colEv_raises 913 := by
  unfold State.sweepAt
  extract_lets z
  exact ((passDone_ite_only 1 z ends).getN F.colEv_raises 913 (by decide)).trans (State.onSys_getN ..)

end

/-- The word that the sweep reads in gathering `g`: where it stands, or the first. -/
def State.sweepWord (s : State) (g : Nat) : Nat := if g = s.sys.sweepPos / 2048 then s.sys.sweepPos % 2048 else 0

theorem folioParitySweep_steps {s : State} {g : Nat} {last : Bool} (hon : s.engineOn 1 = true)
    (hg : nextOf (s.sys.sweepPos / 2048) s.inUse = some (g, last)) :
    exec .folioParitySweep s = .next (s.sweepAt g (s.sweepWord g) (last && s.sweepWord g == 2047)) := by
  change execFolioParitySweep s = _
  unfold execFolioParitySweep
  rw [if_neg (by simp [hon]), hg]
  rfl

/-! ### Engines that are off (R462) -/

theorem frameCheckWalk_off {s : State} (h : s.engineOn 0 = false) : exec .frameCheckWalk s = .next s := by
  change execFrameCheckWalk s = _
  unfold execFrameCheckWalk
  rw [if_pos h]

theorem folioParitySweep_off {s : State} (h : s.engineOn 1 = false) : exec .folioParitySweep s = .next s := by
  change execFolioParitySweep s = _
  unfold execFolioParitySweep
  rw [if_pos h]

theorem wearLevelCheck_off {s : State} (h : s.engineOn 5 = false) : exec .wearLevelCheck s = .next s := by
  change execWearLevelCheck s = _
  unfold execWearLevelCheck
  rw [if_pos h]

/-! ### Wear levelling, adaptation and trim (R463) -/

/-- A finding with its log entry, as the engines of R463 record it. -/
theorem found_logEngine (s : State) {k : Nat} (hk : k ≠ 10) (part : Nat) : Found k s ((s.finding k).logEngine k part) :=
  (found_finding s k).logEntry hk ..

theorem found_only (s : State) (k part : Nat) :
    State.Only [.log, .collator, .reg .colEv, .reg .logCtl, .reg .upkEng] s ((s.finding k).logEngine k part) :=
  logEngine_only k part (finding_only k (.refl _ s) (by decide)) (by decide)

theorem wearLevelCheck_counts {s : State} (hon : s.engineOn 5 = true) :
    Completes .wearLevelCheck s fun t => Passed 5 true s t := by
  refine ⟨_, rfl, ?_⟩
  change Passed 5 true s (if s.engineOn 5 = false then _ else _)
  rw [if_neg (by simp [hon])]
  have hdraw : ((s.passDone 5).draw 1).2.getN F.upkEng_passes 5 = (s.passDone 5).getN F.upkEng_passes 5 :=
    (draw_only 1 (.refl _ _) (sub_self _)).getN F.upkEng_passes 5 (by decide)
  have hpass := hdraw.trans (passed_passDone s 5)
  dsimp only
  split
  · exact ((found_logEngine _ (by decide) 0).passes).trans hpass
  · exact hpass

/-- What the end of a lane's step leaves: its equaliser. -/
theorem laneDone_eq (s : State) (n : Nat) :
    (s.laneDone n).sys.eqPos = s.sys.eqPos ∧ (s.laneDone n).sys.eqLast = s.sys.eqLast := by
  unfold State.laneDone
  extract_lets done all
  split
  · obtain ⟨-, -, hpos, hlast, -⟩ :=
      (passDone_only 2 (.refl _ (s.onSys fun y => { y with eqDone := [] })) (sub_self _)).same .upkeep (by decide)
    exact ⟨hpos, hlast⟩
  · exact ⟨rfl, rfl⟩

end Sys2Proof.Machine
end

section
/-!
Proofs of the cells family, 6: adaptation and trim (R463).
-/
namespace Sys2Proof.Machine

/-- The state after a step of lane `n`'s equaliser by `d`, the finding at the end of the range included. -/
def State.eqStepped (s : State) (n : Nat) (d : Int) : State :=
  let pos := s.sys.eqPos.at n
  let z := if decide ((pos + d).natAbs ≤ Config.eqRange) = true then s.setEq n (pos + d) d else s.setEq n pos 0
  if pos.natAbs ≠ Config.eqRange ∧ (z.sys.eqPos.at n).natAbs = Config.eqRange then (z.finding 2).logEngine 2 n else z

theorem serdesAdaptStep_steps {s : State} {p : PortId} {lane : Fin 8} {dir : Bool} (hon : s.engineOn 2 = true)
    (hup : s.portUp p = true) (hsub : ∀ u, (s.port p).sub = some u → u.lane ≠ lane.val) :
    exec (.serdesAdaptStep p lane dir) s =
      .next ((s.eqStepped (8 * p.val + lane.val) (if dir then 1 else -1)).laneDone (8 * p.val + lane.val)) := by
  change execSerdesAdaptStep p lane dir s = _
  unfold execSerdesAdaptStep
  extract_lets n sub
  have hs : sub = false := by
    simp only [sub]
    split
    · next u hu => exact beq_false_of_ne (hsub u hu)
    · rfl
  rw [if_neg (by simp [hon, hup, hs])]
  rfl

section
variable {s : State} {n : Nat} {d : Int}

theorem eqPos_setEq (pos last : Int) : (s.setEq n pos last).sys.eqPos.at n = pos := Sparse.at_put_self ..

theorem eqLast_setEq (pos last : Int) : (s.setEq n pos last).sys.eqLast.at n = last := Sparse.at_put_self ..

/-- A finding leaves the equalisers. -/
theorem eq_found (z : State) (c : Prop) [Decidable c] :
    (if c then (z.finding 2).logEngine 2 n else z).sys.eqPos = z.sys.eqPos ∧
    (if c then (z.finding 2).logEngine 2 n else z).sys.eqLast = z.sys.eqLast := by
  obtain ⟨-, -, hpos, hlast, -⟩ := (State.Only.ite_ (c := c) (found_only z 2 n) (.refl _ z)).same .upkeep (by decide)
  exact ⟨hpos, hlast⟩

theorem eqStepped_within (h : (s.sys.eqPos.at n + d).natAbs ≤ Config.eqRange) :
    (s.eqStepped n d).sys.eqPos.at n = s.sys.eqPos.at n + d ∧ (s.eqStepped n d).sys.eqLast.at n = d := by
  unfold State.eqStepped
  extract_lets pos z
  have hz : z = s.setEq n (pos + d) d := if_pos (decide_eq_true h)
  obtain ⟨hpos, hlast⟩ := eq_found (n := n) z (pos.natAbs ≠ Config.eqRange ∧ (z.sys.eqPos.at n).natAbs = Config.eqRange)
  rw [hpos, hlast, hz, eqPos_setEq, eqLast_setEq]
  exact ⟨rfl, rfl⟩

theorem eqStepped_beyond (h : Config.eqRange < (s.sys.eqPos.at n + d).natAbs) :
    (s.eqStepped n d).sys.eqPos.at n = s.sys.eqPos.at n := by
  unfold State.eqStepped
  extract_lets pos z
  have hz : z = s.setEq n pos 0 := if_neg (by simpa using h)
  obtain ⟨hpos, -⟩ := eq_found (n := n) z (pos.natAbs ≠ Config.eqRange ∧ (z.sys.eqPos.at n).natAbs = Config.eqRange)
  rw [hpos, hz, eqPos_setEq]

end

theorem serdesAdaptReview_undoes (s : State) (p : PortId) (lane : Fin 8) (before after : Nat) :
    Completes (.serdesAdaptReview p lane before after) s fun t => t.sys.eqPos.at (8 * p.val + lane.val) =
      if 2 * before < after then s.sys.eqPos.at (8 * p.val + lane.val) - s.sys.eqLast.at (8 * p.val + lane.val)
      else s.sys.eqPos.at (8 * p.val + lane.val) := by
  refine ⟨_, rfl, ?_⟩
  split
  · exact eqPos_setEq ..
  · exact eqPos_setEq ..

/-- The offset that a rail has after a trim (R463). -/
def trimmed (old err : Int) : Int :=
  let want := if err < 0 then old + 1 else if 0 < err then old - 1 else old
  if 25 < want.natAbs then old else want

/-- The end of a trim: the finding at 25 mV, and the rail's part of the pass. -/
def State.trimEnds (s : State) (rail : Nat) (old new : Int) : State :=
  let z := if new.natAbs = 25 ∧ old.natAbs ≠ 25 then (s.finding 3).logEngine 3 rail else s
  let done := rail :: z.sys.railDone.filter (· != rail)
  if done.length = 16 then (z.onSys fun y => { y with railDone := [] }).passDone 3
  else z.onSys fun y => { y with railDone := done }

theorem railOfs_trimEnds (s : State) (rail : Nat) (old new : Int) :
    (s.trimEnds rail old new).sys.railOfs = s.sys.railOfs := by
  unfold State.trimEnds
  extract_lets z done
  obtain ⟨-, -, -, -, -, hz, -⟩ := (State.Only.ite_ (c := new.natAbs = 25 ∧ old.natAbs ≠ 25) (found_only s 3 rail)
    (.refl _ s)).same .upkeep (by decide)
  split
  · obtain ⟨-, -, -, -, -, hpass, -⟩ :=
      (passDone_only 3 (.refl _ (z.onSys fun y => { y with railDone := [] })) (sub_self _)).same .upkeep (by decide)
    exact hpass.trans hz
  · exact hz

theorem regulatorTrimStep_steps {s : State} {rail : Fin 16} {err : Int} (hon : s.engineOn 3 = true) :
    exec (.regulatorTrimStep rail err) s = .next ((s.onSys fun y => { y with
      railOfs := y.railOfs.put rail (trimmed (s.sys.railOfs.at rail) err) }).trimEnds rail (s.sys.railOfs.at rail)
      (trimmed (s.sys.railOfs.at rail) err)) := by
  change execRegulatorTrimStep rail err s = _
  unfold execRegulatorTrimStep
  rw [if_neg (by simp [hon])]
  rfl

theorem regulatorTrimStep_trims {s : State} {rail : Fin 16} {err : Int} (hon : s.engineOn 3 = true) :
    Completes (.regulatorTrimStep rail err) s fun t =>
      t.sys.railOfs.at rail = trimmed (s.sys.railOfs.at rail) err := by
  refine ⟨_, regulatorTrimStep_steps hon, ?_⟩
  beta_reduce
  rw [railOfs_trimEnds]
  exact Sparse.at_put_self ..

end Sys2Proof.Machine
end

section
/-!
Proofs of the cells family, 7: telemetry (R464).
-/
namespace Sys2Proof.Machine

/-! ### TJMAX and PWR_W -/

/-- The power of one more domain, and the state after its reading. -/
def addPower (acc : Nat × State) (p : CurrentSense × Nat) : Nat × State :=
  let x := acc.2.currentOf (p.2 + 2) p.1
  (acc.1 + p.1.mv * x.1, x.2)

/-- The sum of the domains' powers in microwatts, and the state after their readings. -/
def State.power (s : State) (temps : List Int) (currents : List CurrentSense) : Nat × State :=
  currents.zipIdx.foldl addPower (0, s.putF F.pwrStatus_tjmax 0 (BitVec.ofInt 8 (tjMax temps)))

theorem telemetry_eq (s : State) (temps : List Int) (currents : List CurrentSense) :
    s.telemetry temps currents =
      (s.power temps currents).2.putN F.pwrStatus_pwr_w 0 (min ((s.power temps currents).1 / 100000) 65535) := rfl

theorem currentOf_good (s : State) (d : Nat) {c : CurrentSense} (h : badCurrent c = false) :
    (s.currentOf d c).1 = c.cur.toNat := by
  unfold State.currentOf
  simp [h]

/-- Where every reading is plausible, PWR_W's sum is over the readings themselves. -/
theorem addPower_sum (l : List (CurrentSense × Nat)) (h : ∀ p ∈ l, badCurrent p.1 = false) (acc : Nat × State) :
    (l.foldl addPower acc).1 = acc.1 + (l.map fun p => p.1.mv * p.1.cur.toNat).sum := by
  induction l generalizing acc with
  | nil => rfl
  | cons p l ih =>
    rw [List.foldl_cons, ih (fun q hq => h q (List.mem_cons_of_mem _ hq)), List.map_cons, List.sum_cons, ← Nat.add_assoc]
    congr 2
    simp only [addPower, currentOf_good acc.2 (p.2 + 2) (h p List.mem_cons_self)]

theorem power_good {s : State} {temps : List Int} {currents : List CurrentSense}
    (h : ∀ c ∈ currents, badCurrent c = false) :
    (s.power temps currents).1 = (currents.map fun c => c.mv * c.cur.toNat).sum := by
  refine (addPower_sum _ (fun p hp => h p.1 (List.fst_mem_of_mem_zipIdx hp)) _).trans ?_
  rw [Nat.zero_add, ← congrArg (List.map fun c : CurrentSense => c.mv * c.cur.toNat) (List.zipIdx_map_fst 0 currents),
    List.map_map]
  rfl

theorem power_only (s : State) (temps : List Int) (currents : List CurrentSense) :
    State.Only [.free, .power] (s.putF F.pwrStatus_tjmax 0 (BitVec.ofInt 8 (tjMax temps))) (s.power temps currents).2 :=
  State.Only.foldl2 (f := addPower) _ (fun _ p h => currentOf_only (p.2 + 2) p.1 h (sub_self _))
    (.refl _ (s.putF F.pwrStatus_tjmax 0 (BitVec.ofInt 8 (tjMax temps))))

theorem tjmax_telemetry (s : State) (temps : List Int) (currents : List CurrentSense) :
    (s.telemetry temps currents).getF F.pwrStatus_tjmax 0 = BitVec.ofInt 8 (tjMax temps) := by
  rw [telemetry_eq]
  unfold State.putN
  rw [State.getF_putF_apart _ F.pwrStatus_pwr_w F.pwrStatus_tjmax 0 0 _ (by decide),
    (power_only s temps currents).getF F.pwrStatus_tjmax 0 (by decide),
    State.getF_putF_self _ F.pwrStatus_tjmax 0 _ (by decide)]

theorem pwrW_telemetry {s : State} {temps : List Int} {currents : List CurrentSense}
    (h : ∀ c ∈ currents, badCurrent c = false) :
    (s.telemetry temps currents).getN F.pwrStatus_pwr_w 0 =
      min ((currents.map fun c => c.mv * c.cur.toNat).sum / 100000) 65535 := by
  rw [telemetry_eq, State.getN_putN_self _ F.pwrStatus_pwr_w 0 _ (by decide), power_good h]
  exact Nat.mod_eq_of_lt (Nat.lt_succ_of_le (Nat.min_le_right _ _))

theorem telemetry_frame (s : State) (temps : List Int) (currents : List CurrentSense) :
    State.Only [.free, .power, .reg .pwrStatus] s (s.telemetry temps currents) :=
  telemetry_only temps currents (.refl _ s) (sub_self _)

/-! ### The upkeep registers -/

/-- The reading of sensor `i`. -/
def showTemp (temps : List Int) (s : State) (i : Nat) : State :=
  let z := s.putF F.upkTemp_temp i (BitVec.ofInt 8 (temps.getD i 0))
  if implausible temps i then ((z.setF F.upkTemp_impl i).finding 4).logEngine 4 i else z.clrF F.upkTemp_impl i

/-- The reading of a domain's current. -/
def showCurrent (s : State) (p : CurrentSense × Nat) : State :=
  let z := (s.putN F.upkCur_mv (p.2 + 2) (p.1.mv % 65536)).putF F.upkCur_cur (p.2 + 2) (BitVec.ofInt 16 p.1.cur)
  if badCurrent p.1 then ((z.setF F.upkCur_impl (p.2 + 2)).finding 4).logEngine 4 (64 + (p.2 + 2))
  else z.clrF F.upkCur_impl (p.2 + 2)

theorem showReadings_eq (s : State) (temps : List Int) (currents : List CurrentSense) :
    s.showReadings temps currents =
      (currents.zipIdx.foldl showCurrent ((List.range 64).foldl (showTemp temps) s)).passDone 4 := rfl

section
variable (temps : List Int) (s : State) (i j : Nat) (p : CurrentSense × Nat)

theorem temp_showTemp :
    (showTemp temps s i).getF F.upkTemp_temp j =
      if i = j then BitVec.ofInt 8 (temps.getD i 0) else s.getF F.upkTemp_temp j := by
  have hput : (s.putF F.upkTemp_temp i (BitVec.ofInt 8 (temps.getD i 0))).getF F.upkTemp_temp j =
      if i = j then BitVec.ofInt 8 (temps.getD i 0) else s.getF F.upkTemp_temp j := by
    split
    · next e => subst e; exact State.getF_putF_self _ F.upkTemp_temp i _ (by decide)
    · next e => exact State.getF_putF_index _ F.upkTemp_temp F.upkTemp_temp _ e
  unfold showTemp
  extract_lets z
  split
  · rw [(found_only _ 4 i).getF F.upkTemp_temp j (by decide), ← hput]
    exact State.getF_putF_apart z F.upkTemp_impl F.upkTemp_temp i j _ (by decide)
  · rw [← hput]
    exact State.getF_putF_apart z F.upkTemp_impl F.upkTemp_temp i j _ (by decide)

theorem impl_showTemp :
    (showTemp temps s i).bitF F.upkTemp_impl j = if i = j then implausible temps i else s.bitF F.upkTemp_impl j := by
  have hput : (s.putF F.upkTemp_temp i (BitVec.ofInt 8 (temps.getD i 0))).bitF F.upkTemp_impl j = s.bitF F.upkTemp_impl j :=
    bitF_putF_apart s F.upkTemp_temp F.upkTemp_impl i j _ (by decide)
  unfold showTemp
  extract_lets z
  by_cases hij : i = j
  · subst hij
    rw [if_pos rfl]
    split
    · next hbad =>
      rw [(found_only _ 4 i).bitF F.upkTemp_impl i (by decide), State.bitF_setF_self _ F.upkTemp_impl i (by decide), hbad]
    · next hgood => rw [State.bitF_clrF_self _ F.upkTemp_impl i (by decide), Bool.eq_false_iff.mpr hgood]
  · have hset (v : BitVec 1) : (z.putF F.upkTemp_impl i v).bitF F.upkTemp_impl j = s.bitF F.upkTemp_impl j := by
      rw [← hput]
      unfold State.bitF
      rw [State.getF_putF_index z F.upkTemp_impl F.upkTemp_impl v hij]
    rw [if_neg hij]
    split
    · rw [(found_only _ 4 i).bitF F.upkTemp_impl j (by decide)]
      exact hset 1#1
    · exact hset 0#1

/-- A finding of telemetry, or none, counts no pass. -/
theorem passes_showTemp : (showTemp temps s i).getN F.upkEng_passes 4 = s.getN F.upkEng_passes 4 := by
  have hput (z : State) (h : State.Only [.reg .upkTemp] s z) : z.getN F.upkEng_passes 4 = s.getN F.upkEng_passes 4 :=
    h.getN F.upkEng_passes 4 (by decide)
  have hz := only_putF (.refl [.reg .upkTemp] s) F.upkTemp_temp i (BitVec.ofInt 8 (temps.getD i 0)) (by decide)
  unfold showTemp
  extract_lets z
  split
  · exact (found_logEngine _ (by decide) i).passes.trans (hput _ (only_setF hz F.upkTemp_impl i (by decide)))
  · exact hput _ (only_clrF hz F.upkTemp_impl i (by decide))

theorem showCurrent_only :
    State.Only [.log, .collator, .reg .colEv, .reg .logCtl, .reg .upkEng, .reg .upkCur] s (showCurrent s p) := by
  unfold showCurrent
  extract_lets z
  have hz : State.Only [.log, .collator, .reg .colEv, .reg .logCtl, .reg .upkEng, .reg .upkCur] s z :=
    only_putF (only_putN (.refl _ s) F.upkCur_mv (p.2 + 2) _ (by decide)) F.upkCur_cur (p.2 + 2) _ (by decide)
  split
  · exact logEngine_only 4 _ (finding_only 4 (only_setF hz F.upkCur_impl _ (by decide)) (by decide)) (by decide)
  · exact only_clrF hz F.upkCur_impl _ (by decide)

theorem passes_showCurrent : (showCurrent s p).getN F.upkEng_passes 4 = s.getN F.upkEng_passes 4 := by
  have hput (z : State) (h : State.Only [.reg .upkCur] s z) : z.getN F.upkEng_passes 4 = s.getN F.upkEng_passes 4 :=
    h.getN F.upkEng_passes 4 (by decide)
  have hz := only_putF (only_putN (.refl [.reg .upkCur] s) F.upkCur_mv (p.2 + 2) (p.1.mv % 65536) (by decide))
    F.upkCur_cur (p.2 + 2) (BitVec.ofInt 16 p.1.cur) (by decide)
  unfold showCurrent
  extract_lets z
  split
  · exact (found_logEngine _ (by decide) _).passes.trans (hput _ (only_setF hz F.upkCur_impl _ (by decide)))
  · exact hput _ (only_clrF hz F.upkCur_impl _ (by decide))

end

/-- What each step of a fold keeps, the fold keeps. -/
theorem foldl_keeps {α β : Type} {f : State → α → State} (g : State → β) (h : ∀ s a, g (f s a) = g s) (l : List α)
    (s : State) : g (l.foldl f s) = g s := by
  induction l generalizing s with
  | nil => rfl
  | cons a l ih => exact (ih _).trans (h s a)

/-- A fold whose step `i` writes entry `i` alone has written the entries of its list. -/
theorem foldl_writes {β : Type} {f : State → Nat → State} (g : State → Nat → β) (v : Nat → β)
    (h : ∀ s i j, g (f s i) j = if i = j then v i else g s j) (l : List Nat) (s : State) (j : Nat) :
    g (l.foldl f s) j = if j ∈ l then v j else g s j := by
  induction l generalizing s with
  | nil => rfl
  | cons i l ih =>
    rw [List.foldl_cons, ih, h]
    by_cases hj : j ∈ l
    · rw [if_pos hj, if_pos (List.mem_cons_of_mem i hj)]
    · rw [if_neg hj]
      by_cases hij : i = j
      · subst hij
        rw [if_pos rfl, if_pos List.mem_cons_self]
      · rw [if_neg hij, if_neg fun hm => (List.mem_cons.mp hm).elim (fun e => hij e.symm) hj]

section
variable (s : State) (temps : List Int) (currents : List CurrentSense)

/-- The domains' readings and the end of the pass leave the sensors' readings. -/
theorem showCurrents_only (z : State) :
    State.Only [.log, .collator, .reg .colEv, .reg .logCtl, .reg .upkEng, .reg .upkCur] z
      ((currents.zipIdx.foldl showCurrent z).passDone 4) :=
  passDone_only 4 (State.Only.foldl_ _ (fun x p h => (showCurrent_only x p).mono' h (sub_self _)) (.refl _ z)) (by decide)

theorem temp_showReadings {i : Nat} (hi : i < 64) :
    (s.showReadings temps currents).getF F.upkTemp_temp i = BitVec.ofInt 8 (temps.getD i 0) := by
  rw [showReadings_eq, (showCurrents_only currents _).getF F.upkTemp_temp i (by decide),
    foldl_writes (fun s j => s.getF F.upkTemp_temp j) _ (temp_showTemp temps), if_pos (List.mem_range.mpr hi)]

theorem impl_showReadings {i : Nat} (hi : i < 64) :
    (s.showReadings temps currents).bitF F.upkTemp_impl i = implausible temps i := by
  rw [showReadings_eq, (showCurrents_only currents _).bitF F.upkTemp_impl i (by decide),
    foldl_writes (fun s j => s.bitF F.upkTemp_impl j) _ (impl_showTemp temps), if_pos (List.mem_range.mpr hi)]

theorem passed_showReadings : Passed 4 true s (s.showReadings temps currents) := by
  rw [showReadings_eq]
  refine (passed_passDone _ 4).trans ?_
  rw [if_pos rfl, if_pos rfl, foldl_keeps (fun s => s.getN F.upkEng_passes 4) passes_showCurrent,
    foldl_keeps (fun s => s.getN F.upkEng_passes 4) (passes_showTemp temps)]

/-- The state after the readings: what R435 compares, and with the engine on every reading. -/
def State.observed : State :=
  if (s.telemetry temps currents).bitF F.upkEng_en 4 then (s.telemetry temps currents).showReadings temps currents
  else s.telemetry temps currents

variable {s} {temps} {currents}

theorem observed_on (h : s.bitF F.upkEng_en 4 = true) :
    s.observed temps currents = (s.telemetry temps currents).showReadings temps currents :=
  if_pos (((telemetry_frame s temps currents).bitF F.upkEng_en 4 (by decide)).trans h)

theorem observed_off (h : s.bitF F.upkEng_en 4 = false) : s.observed temps currents = s.telemetry temps currents :=
  if_neg (by rw [(telemetry_frame s temps currents).bitF F.upkEng_en 4 (by decide), h]; decide)

/-- The readings shown leave TJMAX and PWR_W. -/
theorem observed_only : State.Only [.log, .collator, .reg .colEv, .reg .logCtl, .reg .upkEng, .reg .upkTemp, .reg .upkCur]
    (s.telemetry temps currents) (s.observed temps currents) :=
  .ite_ (showReadings_only temps currents (.refl _ _) (sub_self _)) (.refl _ _)

theorem passed_observed_on (h : s.bitF F.upkEng_en 4 = true) : Passed 4 true s (s.observed temps currents) := by
  rw [observed_on h]
  refine (passed_showReadings _ temps currents).trans ?_
  rw [(telemetry_frame s temps currents).getN F.upkEng_passes 4 (by decide)]

/-! ### TELEMETRY_UPDATE -/

variable (hshape : telemetryShape temps currents = true) (hon : s.domOn 2 = true)
include hshape hon

theorem telemetryUpdate_kept (h : ∀ d < 5, dieLost temps d = false) :
    exec (.telemetryUpdate temps currents) s = .next (s.observed temps currents) := by
  change execTelemetryUpdate temps currents s = _
  have hnone : (List.range 5).find? (dieLost temps) = none :=
    List.find?_eq_none.mpr fun d hd => by rw [h d (List.mem_range.mp hd)]; decide
  unfold execTelemetryUpdate
  rw [if_neg (by simp [hshape]), if_neg (by simp [hon]), hnone]
  rfl

theorem telemetryUpdate_lost (h : ∃ d < 5, dieLost temps d = true) : ∃ sensor,
    exec (.telemetryUpdate temps currents) s = .next (if (s.observed temps currents).sys.tripped then
      s.observed temps currents else (s.observed temps currents).trip sensor 110) := by
  obtain ⟨d, hd, hlost⟩ := h
  obtain ⟨e, he⟩ := Option.isSome_iff_exists.mp
    (List.find?_isSome.mpr ⟨d, List.mem_range.mpr hd, hlost⟩ : ((List.range 5).find? (dieLost temps)).isSome = true)
  refine ⟨(dieSensors e).headD 0, ?_⟩
  change execTelemetryUpdate temps currents s = _
  unfold execTelemetryUpdate
  rw [if_neg (by simp [hshape]), if_neg (by simp [hon]), he]
  rfl

end

theorem tripped_stopTclk (s : State) : s.stopTclk.sys.tripped = s.sys.tripped := by
  unfold State.stopTclk
  split
  · rfl
  · rfl

theorem tripped_trip (s : State) (sensor temp : Nat) : (s.trip sensor temp).sys.tripped = true := by
  unfold State.trip
  extract_lets x y z
  obtain ⟨-, htripped, -⟩ := (refreshPower_only (.refl _ z.stopTclk) (sub_self _)).same .power (by decide)
  exact htripped.trans (tripped_stopTclk z)

theorem telemetryUpdate_trips {s : State} {temps : List Int} {currents : List CurrentSense}
    (hshape : telemetryShape temps currents = true) (hon : s.domOn 2 = true) (h : ∃ d < 5, dieLost temps d = true) :
    Completes (.telemetryUpdate temps currents) s fun t => t.sys.tripped = true := by
  obtain ⟨sensor, hrun⟩ := telemetryUpdate_lost hshape hon h
  refine ⟨_, hrun, ?_⟩
  split
  · assumption
  · exact tripped_trip ..

end Sys2Proof.Machine
end

section
/-!
Proofs of the cells family, 8: the column map, column moves and the log registers (R47, R49, R466, R467, R473).
-/
namespace Sys2Proof.Machine

/-! ### The column map -/

theorem mem_movedGths {q old new i : Nat} (hi : i < 1024) (h : physCol old (i % 32) ≠ physCol new (i % 32)) :
    1024 * q + i ∈ movedGths q old new :=
  List.mem_filterMap.mpr ⟨i, List.mem_range.mpr hi, if_neg h⟩

/-- The bits of a list set, one after another. -/
theorem bitF_foldl_setF (f : Field 1) (h : f.lo + 1 ≤ 64) (l : List Nat) (s : State) {g : Nat} (hg : g ∈ l) :
    (l.foldl (fun (x : State) g => x.setF f g) s).bitF f g = true := by
  rw [foldl_writes (fun x j => x.bitF f j) (fun _ => true)
    (fun x i j => by rw [bitF_setF x f i j h]; by_cases hij : i = j <;> simp [hij]), if_pos hg]

section
variable (s : State) (q new : Nat)

theorem skip_lt : s.skip q < 64 := State.getN_lt s F.upkColmap_skip q

theorem skip_applySkip : (s.applySkip q new).skip q = new % 64 := by
  unfold State.applySkip
  extract_lets old y
  split
  · next e =>
    have hlt := skip_lt s q
    rw [← e, Nat.mod_eq_of_lt hlt]
  · have hfold : State.Only [.reg .gthCfg] y ((movedGths q old new).foldl (fun s g => s.setF F.gthCfg_unloaded g) y) :=
      State.Only.foldl_ _ (fun x g h => only_setF h F.gthCfg_unloaded g (by decide)) (.refl _ y)
    exact (hfold.getN F.upkColmap_skip q (by decide)).trans (State.getN_putN_self _ F.upkColmap_skip q new (by decide))

variable {s} {q} {new}

theorem unloaded_applySkip (h : s.skip q ≠ new) {g : Nat} (hg : g ∈ movedGths q (s.skip q) new) :
    (s.applySkip q new).bitF F.gthCfg_unloaded g = true := by
  unfold State.applySkip
  extract_lets old y
  rw [if_neg h]
  exact bitF_foldl_setF F.gthCfg_unloaded (by decide) _ _ hg

end

theorem skip_clearW1c (s : State) (q : Nat) (v : BitVec 64) : (s.clearW1c .upkColmap q v).skip q = s.skip q :=
  congrArg BitVec.toNat (getF_clearW1c s F.upkColmap_skip q q v (by decide))

/-- What a refused write to BAR0 leaves. -/
theorem logRefused_frame (s : State) (fn off : Nat) :
    State.Only [.log, .collator, .reg .colEv, .reg .logCtl] s (s.logRefused fn off) :=
  logRefused_only fn off (.refl _ s) (sub_self _)

section
variable {s : State} {q : Fin 4} {v : BitVec 64} (hopen : s.barOpen (RegId.upkColmap.offset q) = true)
  (hne : fieldOf F.upkColmap_skip v ≠ s.skip q)
include hopen hne

theorem colmapWrite_refused (h : ¬ (fieldOf F.upkColmap_skip v ≤ 32 ∧
      ∀ g ∈ movedGths q (s.skip q) (fieldOf F.upkColmap_skip v), s.gthRuns g = false)) :
    Completes (.colmapWrite q v) s fun t => t.skip q = s.skip q ∧ t.bitF F.upkColmap_rej q = true := by
  have hbad : (decide (32 < fieldOf F.upkColmap_skip v) ||
      (movedGths q (s.skip q) (fieldOf F.upkColmap_skip v)).any s.gthRuns) = true := by
    by_contra hgood
    rw [Bool.not_eq_true, Bool.or_eq_false_iff, decide_eq_false_iff_not, List.any_eq_false] at hgood
    exact h ⟨Nat.le_of_not_lt hgood.1, fun g hg => Bool.eq_false_iff.mpr (hgood.2 g hg)⟩
  have hrun : s.writeColmap 0 q v =
      ((s.clearW1c .upkColmap q v).logRefused 0 (RegId.upkColmap.offset q)).setF F.upkColmap_rej q := by
    unfold State.writeColmap
    rw [if_neg (by decide), if_neg hne, if_pos hbad]
  refine ⟨_, rfl, ?_⟩
  rw [bar_open hopen, hrun]
  refine ⟨?_, State.bitF_setF_self _ F.upkColmap_rej q (by decide)⟩
  exact (getN_setF_apart _ F.upkColmap_skip F.upkColmap_rej q q (by decide)).trans
    (((logRefused_frame _ 0 _).getN F.upkColmap_skip q (by decide)).trans (skip_clearW1c s q v))

theorem colmapWrite_moves (hle : fieldOf F.upkColmap_skip v ≤ 32)
    (hfree : ∀ g ∈ movedGths q (s.skip q) (fieldOf F.upkColmap_skip v), s.gthRuns g = false) :
    Completes (.colmapWrite q v) s fun t => t.skip q = fieldOf F.upkColmap_skip v ∧
      ∀ i < 1024, physCol (s.skip q) (i % 32) ≠ physCol (fieldOf F.upkColmap_skip v) (i % 32) →
        t.bitF F.gthCfg_unloaded (1024 * q.val + i) = true := by
  have hgood : ¬ (decide (32 < fieldOf F.upkColmap_skip v) ||
      (movedGths q (s.skip q) (fieldOf F.upkColmap_skip v)).any s.gthRuns) = true := by
    rw [Bool.not_eq_true, Bool.or_eq_false_iff, decide_eq_false_iff_not, List.any_eq_false]
    exact ⟨Nat.not_lt.mpr hle, fun g hg => Bool.eq_false_iff.mp (hfree g hg)⟩
  have hrun : s.writeColmap 0 q v = (s.clearW1c .upkColmap q v).applySkip q (fieldOf F.upkColmap_skip v) := by
    unfold State.writeColmap
    rw [if_neg (by decide), if_neg hne, if_neg hgood]
  have hskip := skip_clearW1c s q v
  refine ⟨_, rfl, ?_⟩
  rw [bar_open hopen, hrun]
  refine ⟨(skip_applySkip _ q _).trans (Nat.mod_eq_of_lt (by omega)), fun i hi hmove => ?_⟩
  refine unloaded_applySkip (by rw [hskip]; exact hne.symm) ?_
  rw [hskip]
  exact mem_movedGths hi hmove

end

/-! ### GO of a column move (R466) -/

theorem colrepCode_le (s : State) (q pg : Nat) : s.colrepCode q pg ≤ 4 := by
  unfold State.colrepCode
  extract_lets gs nh dst
  dsimp only
  split
  · decide
  split
  · decide
  split
  · decide
  split <;> decide

theorem pg_of_colrepCode {s : State} {q pg : Nat} (h : s.colrepCode q pg = 0) : pg ≤ 31 := by
  by_contra hpg
  have hlast : 31 < pg ∨ s.skip q ≠ 32 := .inl (Nat.lt_of_not_le hpg)
  unfold State.colrepCode at h
  dsimp only at h
  rw [if_pos hlast] at h
  split at h
  · exact absurd h (by decide)
  split at h
  · exact absurd h (by decide)
  split at h
  · exact absurd h (by decide)
  · exact absurd h (by decide)

theorem toCapture_frame {s t : State} (h : State.Only [.reg .upkColrep] s t) (q pg : Nat) :
    t.toCapture q pg = s.toCapture q pg := by
  unfold State.toCapture State.qstate
  simp only [h.regionOf (by decide), h.getN F.qctStatus_state _ (by decide)]

section
variable {s : State} {fn : Nat} {r : RegId} {i : Nat} {v : BitVec 64} {rej act : State → State}
  (h : s.idleWrite r i v = false)
include h

theorem writeReg_refused : s.writeReg fn r i v true rej act = rej ((s.clearW1c r i v).logRefused fn (r.offset i)) := by
  unfold State.writeReg
  rw [h, if_neg (by decide), if_pos rfl]

theorem writeReg_accepted : s.writeReg fn r i v false rej act = act ((s.clearW1c r i v).storeRw r i v) := by
  unfold State.writeReg
  rw [h, if_neg (by decide), if_neg (by decide)]

end

/-- A move that GO starts: its quadrant and column, where its parts go, and what it captures (R466). -/
def State.newMove (s : State) (q pg : Nat) : ColMove :=
  { q, pg, dst := s.getN F.upkColrepDst_sector 0, gths := s.toCapture q pg }

theorem newMove_frame {s t : State} (h : State.Only [.reg .upkColrep] s t) (q pg : Nat) :
    t.newMove q pg = s.newMove q pg := by
  unfold State.newMove
  rw [h.getN F.upkColrepDst_sector 0 (by decide), toCapture_frame h]

section
variable {s : State} {v : BitVec 64} (hgo : v.getLsbD 63 = true)
include hgo

theorem writeColrep_refused (h : s.colrepCode (fieldOf F.upkColrep_q v) (fieldOf F.upkColrep_pg v) ≠ 0) :
    s.writeColrep 0 v = (((s.clearW1c .upkColrep 0 v).logRefused 0 (RegId.upkColrep.offset 0)).setF F.upkColrep_rej 0).putN
      F.upkColrep_code 0 (s.colrepCode (fieldOf F.upkColrep_q v) (fieldOf F.upkColrep_pg v)) := by
  unfold State.writeColrep
  extract_lets go q pg code
  have hbad : ((go && code != 0) || decide (31 < pg)) = true := by
    rw [show go = true from hgo, Bool.true_and, bne_iff_ne.mpr h, Bool.true_or]
  rw [if_neg (by decide), hbad, writeReg_refused (idleWrite_action s 0 v (k := 63) (by decide) hgo)]
  exact congrArg _ (if_pos hgo)

theorem writeColrep_accepted (h : s.colrepCode (fieldOf F.upkColrep_q v) (fieldOf F.upkColrep_pg v) = 0) :
    s.writeColrep 0 v = ((((s.clearW1c .upkColrep 0 v).storeRw .upkColrep 0 v).onSys fun y => { y with
      colMove := some (s.newMove (fieldOf F.upkColrep_q v) (fieldOf F.upkColrep_pg v)) }).putN F.upkColrep_code 0 0).putN
      F.upkColrep_state 0 1 := by
  have hstored : State.Only [.reg .upkColrep] s ((s.clearW1c .upkColrep 0 v).storeRw .upkColrep 0 v) :=
    only_storeRw (only_clearW1c (.refl _ s) .upkColrep 0 v (by decide)) .upkColrep 0 v (by decide)
  unfold State.writeColrep
  extract_lets go q pg code
  have hgood : ((go && code != 0) || decide (31 < pg)) = false := by
    rw [show code = 0 from h, decide_eq_false (Nat.not_lt.mpr (pg_of_colrepCode h)), bne_self_eq_false, Bool.and_false,
      Bool.or_false]
  rw [if_neg (by decide), hgood, writeReg_accepted (idleWrite_action s 0 v (k := 63) (by decide) hgo),
    ← newMove_frame hstored q pg]
  exact if_pos hgo

variable (hopen : s.barOpen (RegId.upkColrep.offset 0) = true)
include hopen

theorem colrepGo_refused (h : s.colrepCode (fieldOf F.upkColrep_q v) (fieldOf F.upkColrep_pg v) ≠ 0) :
    Completes (.colrepGo v) s fun t =>
      t.getN F.upkColrep_code 0 = s.colrepCode (fieldOf F.upkColrep_q v) (fieldOf F.upkColrep_pg v) ∧
      t.bitF F.upkColrep_rej 0 = true ∧ t.sys.colMove = s.sys.colMove ∧
      t.getN F.upkColrep_state 0 = s.getN F.upkColrep_state 0 := by
  have hle := colrepCode_le s (fieldOf F.upkColrep_q v) (fieldOf F.upkColrep_pg v)
  refine ⟨_, rfl, ?_⟩
  rw [bar_open hopen, writeColrep_refused hgo h]
  generalize s.colrepCode (fieldOf F.upkColrep_q v) (fieldOf F.upkColrep_pg v) = code at hle
  have hlog := logRefused_frame (s.clearW1c .upkColrep 0 v) 0 (RegId.upkColrep.offset 0)
  refine ⟨?_, ?_, ?_, ?_⟩
  · exact (State.getN_putN_self _ F.upkColrep_code 0 code (by decide)).trans (Nat.mod_eq_of_lt (by omega))
  · rw [bitF_putN_apart _ F.upkColrep_code F.upkColrep_rej 0 0 _ (by decide),
      State.bitF_setF_self _ F.upkColrep_rej 0 (by decide)]
  · obtain ⟨-, -, -, -, -, -, -, hmove⟩ := hlog.same .upkeep (by decide)
    exact hmove
  · rw [State.getN_putN_apart _ F.upkColrep_code F.upkColrep_state 0 0 _ (by decide),
      getN_setF_apart _ F.upkColrep_state F.upkColrep_rej 0 0 (by decide), hlog.getN F.upkColrep_state 0 (by decide)]
    exact congrArg BitVec.toNat (getF_clearW1c s F.upkColrep_state 0 0 v (by decide))

theorem colrepGo_starts (h : s.colrepCode (fieldOf F.upkColrep_q v) (fieldOf F.upkColrep_pg v) = 0) :
    Completes (.colrepGo v) s fun t => t.getN F.upkColrep_code 0 = 0 ∧ t.getN F.upkColrep_state 0 = 1 ∧
      t.sys.colMove = some (s.newMove (fieldOf F.upkColrep_q v) (fieldOf F.upkColrep_pg v)) := by
  refine ⟨_, rfl, ?_⟩
  rw [bar_open hopen, writeColrep_accepted hgo h]
  refine ⟨?_, ?_, rfl⟩
  · exact (State.getN_putN_apart _ F.upkColrep_state F.upkColrep_code 0 0 _ (by decide)).trans
      (State.getN_putN_self _ F.upkColrep_code 0 0 (by decide))
  · exact State.getN_putN_self _ F.upkColrep_state 0 1 (by decide)

end

/-! ### The end of the capture (R467) -/

/-- The parts of the captured gatherings, put one after another. -/
def State.captureMove (s : State) (m : ColMove) : State :=
  m.gths.zipIdx.foldl (fun (s : State) p => s.captureGth p.1 (m.dst + 259 * p.2)) s

/-- The move after SKIP: its gatherings wait for repair loads, before the event and the log entry. -/
def State.awaitRepair (s : State) (m : ColMove) : State :=
  (((s.onSys fun y => { y with colMove := some { m with left := m.gths } }).putN F.upkColrep_pending 0 m.gths.length).putN
    F.upkColrep_state 0 2).setF F.upkColrep_done_ev 0

/-- Event and log entry of a move that has captured. -/
def State.announceMove (s : State) (m : ColMove) : State :=
  (s.raise 918).logEntry 0x0C 0x6003 (m.q + m.pg * 2 ^ 2 + m.gths.length * 2 ^ 8)

theorem announceMove_only (s : State) (m : ColMove) :
    State.Only [.log, .collator, .reg .colEv, .reg .logCtl] s (s.announceMove m) :=
  logEntry_only _ _ _ (raise_only 918 (.refl _ s) (by decide)) (sub_self _)

/-- The state where a capture has ended. -/
def State.moveCaptured (s : State) (m : ColMove) : State :=
  (((s.captureMove m).applySkip m.q m.pg).awaitRepair m).announceMove m

section
variable {s : State} {m : ColMove}

theorem colrepCaptureDone_steps (hm : s.sys.colMove = some m) (hst : s.getN F.upkColrep_state 0 = 1) :
    exec .colrepCaptureDone s = .next (if m.gths.isEmpty then (s.moveCaptured m).moveOver else s.moveCaptured m) := by
  change execColrepCaptureDone s = _
  unfold execColrepCaptureDone
  rw [hm]
  exact congrArg _ (if_neg (not_not_intro hst))

/-- What follows the change of SKIP leaves it. -/
theorem skip_moveCaptured : (s.moveCaptured m).skip m.q = m.pg % 64 := by
  have hwait : (((s.captureMove m).applySkip m.q m.pg).awaitRepair m).skip m.q =
      ((s.captureMove m).applySkip m.q m.pg).skip m.q := by
    unfold State.skip State.awaitRepair
    rw [getN_setF_apart _ F.upkColmap_skip F.upkColrep_done_ev 0 m.q (by decide),
      State.getN_putN_apart _ F.upkColrep_state F.upkColmap_skip 0 m.q _ (by decide),
      State.getN_putN_apart _ F.upkColrep_pending F.upkColmap_skip 0 m.q _ (by decide), State.onSys_getN]
  exact ((announceMove_only _ m).getN F.upkColmap_skip m.q (by decide)).trans (hwait.trans (skip_applySkip _ m.q m.pg))

theorem doneEv_moveCaptured : (s.moveCaptured m).bitF F.upkColrep_done_ev 0 = true :=
  ((announceMove_only _ m).bitF F.upkColrep_done_ev 0 (by decide)).trans
    (State.bitF_setF_self _ F.upkColrep_done_ev 0 (by decide))

theorem colMove_moveCaptured : (s.moveCaptured m).sys.colMove = some { m with left := m.gths } := by
  obtain ⟨-, -, -, -, -, -, -, hmove⟩ :=
    (announceMove_only (((s.captureMove m).applySkip m.q m.pg).awaitRepair m) m).same .upkeep (by decide)
  exact hmove

theorem state_moveCaptured : (s.moveCaptured m).getN F.upkColrep_state 0 = 2 := by
  refine ((announceMove_only _ m).getN F.upkColrep_state 0 (by decide)).trans ?_
  unfold State.awaitRepair
  rw [getN_setF_apart _ F.upkColrep_state F.upkColrep_done_ev 0 0 (by decide)]
  exact State.getN_putN_self _ F.upkColrep_state 0 2 (by decide)

theorem pending_moveCaptured : (s.moveCaptured m).getN F.upkColrep_pending 0 = m.gths.length % 2 ^ 11 := by
  refine ((announceMove_only _ m).getN F.upkColrep_pending 0 (by decide)).trans ?_
  unfold State.awaitRepair
  rw [getN_setF_apart _ F.upkColrep_pending F.upkColrep_done_ev 0 0 (by decide),
    State.getN_putN_apart _ F.upkColrep_state F.upkColrep_pending 0 0 _ (by decide),
    State.getN_putN_self _ F.upkColrep_pending 0 _ (by decide)]

/-- The end of a move leaves the column map and DONE_EV, and the engine is idle. -/
theorem moveOver_ends (s : State) :
    s.moveOver.sys.colMove = none ∧ s.moveOver.getN F.upkColrep_state 0 = 0 ∧
    (∀ q, s.moveOver.skip q = s.skip q) ∧ s.moveOver.bitF F.upkColrep_done_ev 0 = s.bitF F.upkColrep_done_ev 0 := by
  let z := (s.onSys fun y => { y with colMove := none }).putN F.upkColrep_state 0 0
  have hraise : State.Only [.collator, .reg .colEv] z s.moveOver := raise_only 918 (.refl _ z) (sub_self _)
  have hover := moveOver_only (.refl _ s) (sub_self _)
  obtain ⟨-, -, -, -, -, -, -, hmove⟩ := hraise.same .upkeep (by decide)
  refine ⟨hmove, ?_, fun q => hover.getN F.upkColmap_skip q (by decide), ?_⟩
  · exact (hraise.getN F.upkColrep_state 0 (by decide)).trans (State.getN_putN_self _ F.upkColrep_state 0 0 (by decide))
  · rw [hraise.bitF F.upkColrep_done_ev 0 (by decide),
      bitF_putN_apart _ F.upkColrep_state F.upkColrep_done_ev 0 0 _ (by decide),
      State.onSys_bitF]

theorem colrepCaptureDone_ends (hm : s.sys.colMove = some m) (hst : s.getN F.upkColrep_state 0 = 1) :
    Completes .colrepCaptureDone s fun t => t.skip m.q = m.pg % 64 ∧ t.bitF F.upkColrep_done_ev 0 = true ∧
      (m.gths ≠ [] → t.sys.colMove = some { m with left := m.gths } ∧ t.getN F.upkColrep_state 0 = 2 ∧
        t.getN F.upkColrep_pending 0 = m.gths.length % 2 ^ 11) ∧
      (m.gths = [] → t.sys.colMove = none ∧ t.getN F.upkColrep_state 0 = 0) := by
  refine ⟨_, colrepCaptureDone_steps hm hst, ?_⟩
  split
  · next hnil =>
    obtain ⟨hmove, hstate, hskip, hdone⟩ := moveOver_ends (s.moveCaptured m)
    exact ⟨(hskip m.q).trans skip_moveCaptured, hdone.trans doneEv_moveCaptured,
      fun h => absurd (List.isEmpty_iff.mp hnil) h,
      fun _ => ⟨hmove, hstate⟩⟩
  · next hcons =>
    exact ⟨skip_moveCaptured, doneEv_moveCaptured,
      fun _ => ⟨colMove_moveCaptured, state_moveCaptured, pending_moveCaptured⟩,
      fun h => absurd (List.isEmpty_iff.mpr h) hcons⟩

end

/-! ### The log registers (R473) -/

theorem logUnfreeze_unfreezes {s : State} {v : BitVec 64} (hopen : s.barOpen (RegId.logCtl.offset 0) = true)
    (hgo : v.getLsbD 63 = true) (hlevel : fieldOf F.logCtl_freeze_level v ≠ 7) :
    Completes (.logUnfreeze v) s fun t => t.bitF F.logCtl_frozen 0 = false ∧ t.logSince = 0 ∧
      t.getN F.logCtl_freeze_level 0 = fieldOf F.logCtl_freeze_level v := by
  have hrun : s.writeLogCtl 0 v = ((s.clearW1c .logCtl 0 v).storeRw .logCtl 0 v).logUnfreeze := by
    unfold State.writeLogCtl
    rw [if_neg (by decide), beq_false_of_ne hlevel,
      writeReg_accepted (idleWrite_action s 0 v (k := 63) (by decide) hgo)]
    exact if_pos hgo
  refine ⟨_, rfl, ?_⟩
  rw [bar_open hopen, hrun]
  refine ⟨State.bitF_clrF_self _ F.logCtl_frozen 0 (by decide), rfl, ?_⟩
  exact (getN_clrF_apart _ F.logCtl_freeze_level F.logCtl_frozen 0 0 (by decide)).trans
    (congrArg BitVec.toNat (getF_storeRw _ F.logCtl_freeze_level 0 v (by decide)))

theorem logRead_advances {s : State} (hopen : s.barOpen (RegId.logDhi.offset 0) = true) :
    Completes .logRead s fun t =>
      t.outs = .readData 0 (leBytes (s.logAt.extractLsb' 64 64).toNat 8) :: s.outs ∧
      t.getN F.logAddr_addr 0 = (s.getN F.logAddr_addr 0 + 1) % 4096 := by
  refine ⟨_, rfl, ?_⟩
  unfold State.barRead
  rw [if_pos hopen]
  exact ⟨rfl, State.getN_putN_self s F.logAddr_addr 0 _ (by decide)⟩

end Sys2Proof.Machine
end

section
/-!
Proofs of the cells family, 9: the upkeep engines, column moves and the log registers together.
-/
namespace Sys2Proof.Machine

/-- The engines without an operand, off: nothing changes. -/
theorem engines_off {s : State} {k : Nat} {i : Instr}
    (h : (k, i) ∈ ([(0, .frameCheckWalk), (1, .folioParitySweep), (5, .wearLevelCheck)] : List (Nat × Instr)))
    (hoff : s.engineOn k = false) : exec i s = .next s := by
  simp only [List.mem_cons, List.not_mem_nil, or_false, Prod.mk.injEq] at h
  obtain ⟨rfl, rfl⟩ | ⟨rfl, rfl⟩ | ⟨rfl, rfl⟩ := h
  · exact frameCheckWalk_off hoff
  · exact folioParitySweep_off hoff
  · exact wearLevelCheck_off hoff

theorem frameCheckWalk_counts {s : State} {n : Nat} {last : Bool} (hon : s.engineOn 0 = true)
    (hn : s.walkNext = some (n, last)) : Completes .frameCheckWalk s fun t =>
      t.sys.walkPos = (if last then 0 else n + 1) ∧ Passed 0 last s t ∧
      (s.rowGood (n / 8) (n % 8) = false → t.getN F.upkEng_finds 0 = count16 (s.getN F.upkEng_finds 0) ∧
        t.getN F.colEv_raises 912 = min (s.getN F.colEv_raises 912 + 1) (2 ^ 24 - 1)) ∧
      (s.rowGood (n / 8) (n % 8) = true → t.getN F.upkEng_finds 0 = s.getN F.upkEng_finds 0) := by
  refine ⟨_, frameCheckWalk_steps hon hn, walkAt_walkPos s n last, passed_walkAt s n last, fun hbad => ⟨?_, ?_⟩,
    fun hgood => ?_⟩
  · rw [walkAt_finds, (walkFrame_bad hbad).finds]
  · rw [walkAt_raises, (walkFrame_bad hbad).raises]
  · rw [walkAt_finds, walkFrame_good hgood]

theorem folioParitySweep_counts {s : State} {g : Nat} {last : Bool} (hon : s.engineOn 1 = true)
    (hg : nextOf (s.sys.sweepPos / 2048) s.inUse = some (g, last)) : Completes .folioParitySweep s fun t =>
      t.sys.sweepPos = (if last && s.sweepWord g == 2047 then 0 else 2048 * g + s.sweepWord g + 1) ∧
      Passed 1 (last && s.sweepWord g == 2047) s t ∧
      (badSlices ((s.gth g).folioCommitted (s.sweepWord g)) ≠ 0 →
        t.getN F.upkEng_finds 1 = count16 (s.getN F.upkEng_finds 1) ∧ t.bitF F.gthFerr_valid g = true ∧
        t.getN F.colEv_raises 913 = min (s.getN F.colEv_raises 913 + 1) (2 ^ 24 - 1)) :=
  ⟨_, folioParitySweep_steps hon hg, sweepAt_sweepPos, passed_sweepAt, fun hbad =>
    ⟨finds_sweepAt.trans (finds_swept_bad hbad), valid_sweepAt.trans (valid_swept_bad hbad),
      raises_sweepAt.trans (raises_swept_bad hbad)⟩⟩

theorem serdesAdaptStep_moves {s : State} {p : PortId} {lane : Fin 8} {dir : Bool} (hon : s.engineOn 2 = true)
    (hup : s.portUp p = true) (hsub : ∀ u, (s.port p).sub = some u → u.lane ≠ lane.val) :
    let n := 8 * p.val + lane.val
    let d : Int := if dir then 1 else -1
    Completes (.serdesAdaptStep p lane dir) s fun t =>
      ((s.sys.eqPos.at n + d).natAbs ≤ Config.eqRange →
        t.sys.eqPos.at n = s.sys.eqPos.at n + d ∧ t.sys.eqLast.at n = d) ∧
      (Config.eqRange < (s.sys.eqPos.at n + d).natAbs → t.sys.eqPos.at n = s.sys.eqPos.at n) := by
  intro n d
  obtain ⟨hpos, hlast⟩ := laneDone_eq (s.eqStepped n d) n
  refine ⟨_, serdesAdaptStep_steps hon hup hsub, fun h => ?_, fun h => ?_⟩
  · rw [hpos, hlast]
    exact eqStepped_within h
  · rw [hpos]
    exact eqStepped_beyond h

/-- With no die lost, TJMAX and PWR_W follow the readings, and with the engine on every register shows its own. -/
theorem telemetryUpdate_shows {s : State} {temps : List Int} {currents : List CurrentSense}
    (hshape : telemetryShape temps currents = true) (hon : s.domOn 2 = true) (h : ∀ d < 5, dieLost temps d = false) :
    Completes (.telemetryUpdate temps currents) s fun t =>
      t.getF F.pwrStatus_tjmax 0 = BitVec.ofInt 8 (tjMax temps) ∧
      ((∀ c ∈ currents, badCurrent c = false) → t.getN F.pwrStatus_pwr_w 0 =
        min ((currents.map fun c => c.mv * c.cur.toNat).sum / 100000) 65535) ∧
      (s.bitF F.upkEng_en 4 = true → Passed 4 true s t ∧ ∀ i < 64,
        t.getF F.upkTemp_temp i = BitVec.ofInt 8 (temps.getD i 0) ∧ t.bitF F.upkTemp_impl i = implausible temps i) ∧
      (s.bitF F.upkEng_en 4 = false → Passed 4 false s t ∧ ∀ i, t.reg .upkTemp i = s.reg .upkTemp i) := by
  have hframe := telemetry_frame s temps currents
  have hshown := observed_only (s := s) (temps := temps) (currents := currents)
  refine ⟨_, telemetryUpdate_kept hshape hon h, ?_, fun hgood => ?_, fun hen => ⟨passed_observed_on hen, fun i hi => ?_⟩,
    fun hen => ?_⟩
  · rw [hshown.getF F.pwrStatus_tjmax 0 (by decide), tjmax_telemetry]
  · rw [hshown.getN F.pwrStatus_pwr_w 0 (by decide), pwrW_telemetry hgood]
  · rw [observed_on hen]
    exact ⟨temp_showReadings _ temps currents hi, impl_showReadings _ temps currents hi⟩
  · rw [observed_off hen]
    exact ⟨hframe.getN F.upkEng_passes 4 (by decide), fun i => hframe.reg_eq .upkTemp i (by decide)⟩

/-- Settles O59: each engine by the one step that it takes, the registers by the write or read that acts. -/
theorem upkeep : Obligations.Upkeep := by
  refine ⟨fun s => ⟨fun k i hk hoff => engines_off hk hoff, fun n last hon hn => frameCheckWalk_counts hon hn,
    fun g last hon hg => folioParitySweep_counts hon hg, wearLevelCheck_counts,
    fun p lane dir hon hup hsub => serdesAdaptStep_moves hon hup hsub,
    fun p lane before after => serdesAdaptReview_undoes s p lane before after,
    fun rail err hon => regulatorTrimStep_trims hon,
    fun temps currents hshape hon => ⟨telemetryUpdate_shows hshape hon, telemetryUpdate_trips hshape hon⟩⟩,
    fun s => ⟨fun q v hopen hne => ⟨colmapWrite_refused hopen hne, colmapWrite_moves hopen hne⟩,
    fun v hopen hgo => ⟨colrepGo_refused hgo hopen, colrepGo_starts hgo hopen⟩,
    fun m hm hst => colrepCaptureDone_ends hm hst,
    fun v hopen hgo hlevel => logUnfreeze_unfreezes hopen hgo hlevel, logRead_advances⟩⟩

end Sys2Proof.Machine
end

section
/-!
Proofs of the cell instructions, 1: the word of each logic, select and reduction opcode (R86, R87, R90, R91).
-/
namespace Sys2Proof.Machine

/-- A command whose leaf executes with outcome `o` leaves its cell as the writes of that outcome do. -/
theorem completes_wrote {s s1 s2 : State} {ca : CellAddr} {k : LeafNo} {op : CellOp} {x : CellAt} {a b c : RWord}
    {body : CellBody} {o : CellResult} {i : Instr} (hl : CellLeaf s s1 ca k op x a b c) (hop : op ≠ .nop)
    (hb : body x a b c s1 = (o, s2)) (hi : ∀ z, exec i z = cellNext z op body ca k := by intro; rfl) :
    Completes i s fun t => CellWrote s2 t x o :=
  ⟨_, hi s, runCell_wrote hl hop hb⟩

/-- The outcome of a word with its generated residue. -/
theorem completes_generated {s s1 : State} {ca : CellAddr} {k : LeafNo} {op : CellOp} {x : CellAt} {a b c : RWord}
    {body : CellBody} {d : Word} {i : Instr} {P : Word → Prop} (hl : CellLeaf s s1 ca k op x a b c) (hP : P d)
    (hop : op ≠ .nop := by decide) (hb : body x a b c s1 = (generated x s1 d, s1) := by rfl)
    (hi : ∀ z, exec i z = cellNext z op body ca k := by intro; rfl) :
    ∃ d, P d ∧ Completes i s fun t => CellWrote s1 t x
      { value := some (gen d), flags := some ((s1.cell x.key).v.work.f.withZN d), tested := some d } :=
  ⟨d, hP, completes_wrote hl hop hb hi⟩

/-! ### Words bit by bit (R86) -/

theorem getLsbD_orBits (p : Nat → Bool) (n : Nat) {i : Nat} (hi : i < 40) :
    ((List.range n).foldl (fun r j => if p j then r ||| (1#40 <<< j) else r) 0#40).getLsbD i = (decide (i < n) && p i) := by
  induction n with
  | zero => simp
  | succ n ih =>
    rw [List.range_succ, List.foldl_append, List.foldl_cons, List.foldl_nil]
    by_cases h : i = n
    · subst h
      rw [decide_eq_false (Nat.lt_irrefl i), Bool.false_and] at ih
      rw [decide_eq_true (Nat.lt_succ_self i), Bool.true_and]
      cases p i with
      | true => rw [if_pos rfl, BitVec.getLsbD_or, ih]; simp [hi]
      | false => exact ih
    · have hb : (1#40 <<< n).getLsbD i = false := by simp; omega
      have hn : decide (i < n + 1) = decide (i < n) := by simp; omega
      split <;> simp only [BitVec.getLsbD_or, ih, hb, hn, Bool.or_false]

theorem getLsbD_lut3Word (imm a b c : Word) {i : Nat} (hi : i < 40) : (lut3Word imm a b c).getLsbD i =
    imm.getLsbD (4 * (a.getLsbD i).toNat + 2 * (b.getLsbD i).toNat + (c.getLsbD i).toNat) := by
  unfold lut3Word
  rw [getLsbD_orBits _ 40 hi, decide_eq_true hi, Bool.true_and]

/-! ### Reductions (R91) -/

theorem toNat_bool40 (b : Bool) : (bool40 b).toNat = b.toNat := by cases b <;> rfl

theorem foldl_add_toNat {α : Type} (p : α → Bool) (l : List α) (n : Nat) :
    l.foldl (fun n i => n + (p i).toNat) n = n + l.countP p := by
  induction l generalizing n with
  | nil => rfl
  | cons a l ih =>
    rw [List.foldl_cons, ih, List.countP_cons]
    cases p a with
    | true => exact Nat.add_right_comm n 1 _
    | false => rfl

theorem onesCount_eq (d : Word) : onesCount d = (List.range 40).countP fun i => d.getLsbD i := by
  unfold onesCount
  rw [foldl_add_toNat, Nat.zero_add]

theorem onesCount_le (d : Word) : onesCount d ≤ 40 := by
  rw [onesCount_eq]
  exact List.countP_le_length

theorem eq_zero_iff_onesCount (d : Word) : d = 0 ↔ onesCount d = 0 := by
  rw [onesCount_eq, List.countP_eq_zero]
  constructor
  · rintro rfl i -
    simp
  · intro h
    refine BitVec.eq_of_getLsbD_eq fun i hi => ?_
    simpa using h i (List.mem_range.mpr hi)

/-- Every bit that IMM selects is one exactly where A AND IMM is IMM. -/
theorem and_eq_right_iff (a imm : Word) :
    a &&& imm = imm ↔ ((List.range 40).all fun i => !imm.getLsbD i || a.getLsbD i) = true := by
  rw [List.all_eq_true]
  constructor
  · intro h i _
    rw [← h, BitVec.getLsbD_and]
    cases a.getLsbD i <;> simp
  · intro h
    refine BitVec.eq_of_getLsbD_eq fun i hi => ?_
    have hi := h i (List.mem_range.mpr hi)
    rw [BitVec.getLsbD_and]
    cases hm : imm.getLsbD i
    · simp
    · simpa [hm] using hi

/-- The first place in a range at which `p` holds, or the range's end. -/
theorem firstIn_range (p : Nat → Bool) (n : Nat) :
    let k := ((List.range n).find? p).getD n
    k ≤ n ∧ (∀ i < k, p i = false) ∧ (k < n → p k = true) := by
  cases h : (List.range n).find? p with
  | none =>
    rw [List.find?_range_eq_none] at h
    exact ⟨Nat.le_refl n, fun i hi => by simpa using h i hi, fun hn => absurd hn (Nat.lt_irrefl n)⟩
  | some k =>
    rw [List.find?_range_eq_some] at h
    obtain ⟨hk, hmem, hbefore⟩ := h
    exact ⟨Nat.le_of_lt (List.mem_range.mp hmem), fun i hi => by simpa using hbefore i hi, fun _ => hk⟩

/-- A count of at most 40 as a word. -/
theorem toNat_ofCount {n : Nat} (h : n ≤ 40) : (BitVec.ofNat 40 n).toNat = n := by
  rw [BitVec.toNat_ofNat]
  exact Nat.mod_eq_of_lt (by omega)

section
variable {imm a b c : Word}

theorem logicWord_maxu : LogicWord .maxu imm a b c (if a.ult b then b else a) :=
  if_congr BitVec.ult_iff_lt rfl rfl

theorem logicWord_minu : LogicWord .minu imm a b c (if b.ult a then b else a) :=
  if_congr BitVec.ult_iff_lt rfl rfl

theorem logicWord_maxs : LogicWord .maxs imm a b c (if a.slt b then b else a) :=
  if_congr BitVec.slt_iff_toInt_lt rfl rfl

theorem logicWord_mins : LogicWord .mins imm a b c (if b.slt a then b else a) :=
  if_congr BitVec.slt_iff_toInt_lt rfl rfl

theorem logicWord_andn : LogicWord .andn imm a b c (a &&& ~~~b) := by
  intro i hi
  rw [BitVec.getLsbD_and, BitVec.getLsbD_not, decide_eq_true hi, Bool.true_and]

theorem logicWord_bsel : LogicWord .bsel imm a b c ((a &&& c) ||| (b &&& ~~~c)) := by
  intro i hi
  rw [BitVec.getLsbD_or, BitVec.getLsbD_and, BitVec.getLsbD_and, BitVec.getLsbD_not, decide_eq_true hi]
  cases c.getLsbD i <;> simp

theorem logicWord_rdor : LogicWord .rdor imm a b c (bool40 (a &&& imm != 0)) := by
  change (bool40 (a &&& imm != 0)).toNat = if _ = 0 then 0 else 1
  rw [toNat_bool40, ← onesCount_eq, ← if_congr (eq_zero_iff_onesCount (a &&& imm)) rfl rfl]
  by_cases h : a &&& imm = 0
  · rw [if_pos h, h]
    rfl
  · rw [if_neg h, bne_iff_ne.mpr h]
    rfl

theorem logicWord_rdand : LogicWord .rdand imm a b c (bool40 (a &&& imm == imm)) := by
  change (bool40 (a &&& imm == imm)).toNat = if _ then 1 else 0
  rw [toNat_bool40, ← if_congr (and_eq_right_iff a imm) rfl rfl]
  by_cases h : a &&& imm = imm
  · rw [if_pos h, beq_iff_eq.mpr h]
    rfl
  · rw [if_neg h, beq_eq_false_iff_ne.mpr h]
    rfl

theorem logicWord_rdxor : LogicWord .rdxor imm a b c (bool40 (onesCount (a &&& imm) % 2 == 1)) := by
  change (bool40 (onesCount (a &&& imm) % 2 == 1)).toNat = List.countP _ _ % 2
  rw [toNat_bool40, ← onesCount_eq]
  obtain h | h := Nat.mod_two_eq_zero_or_one (onesCount (a &&& imm))
  · rw [h]
    rfl
  · rw [h]
    rfl

theorem logicWord_popc : LogicWord .popc imm a b c (BitVec.ofNat 40 (onesCount (a &&& imm))) :=
  (toNat_ofCount (onesCount_le _)).trans (onesCount_eq _)

theorem logicWord_lzc : LogicWord .lzc imm a b c (BitVec.ofNat 40 (leadZeros (a &&& imm))) := by
  have hfirst := firstIn_range (fun i => (a &&& imm).getLsbD (39 - i)) 40
  have hd : (BitVec.ofNat 40 (leadZeros (a &&& imm))).toNat = leadZeros (a &&& imm) := toNat_ofCount hfirst.1
  unfold LogicWord
  dsimp only
  rw [hd]
  exact hfirst

theorem logicWord_tzc : LogicWord .tzc imm a b c (BitVec.ofNat 40 (trailZeros (a &&& imm))) := by
  have hfirst := firstIn_range (fun i => (a &&& imm).getLsbD i) 40
  have hd : (BitVec.ofNat 40 (trailZeros (a &&& imm))).toNat = trailZeros (a &&& imm) := toNat_ofCount hfirst.1
  unfold LogicWord
  dsimp only
  rw [hd]
  exact hfirst

end

/-- Settles O14: each opcode's own part generates its word, and the leaf writes it. -/
theorem cellLogicResults : Obligations.CellLogicResults := by
  intro ca k s s1 x a b c i op hi hl
  simp only [List.mem_cons, List.not_mem_nil, or_false, Prod.mk.injEq] at hi
  obtain ⟨rfl, rfl⟩ | ⟨rfl, rfl⟩ | ⟨rfl, rfl⟩ | ⟨rfl, rfl⟩ | ⟨rfl, rfl⟩ | ⟨rfl, rfl⟩ | ⟨rfl, rfl⟩ | ⟨rfl, rfl⟩ | ⟨rfl, rfl⟩ |
    ⟨rfl, rfl⟩ | ⟨rfl, rfl⟩ | ⟨rfl, rfl⟩ | ⟨rfl, rfl⟩ | ⟨rfl, rfl⟩ | ⟨rfl, rfl⟩ | ⟨rfl, rfl⟩ | ⟨rfl, rfl⟩ := hi
  · exact completes_generated (body := bodyLut3) hl (fun _ hi => getLsbD_lut3Word _ _ _ _ hi)
  · exact completes_generated (body := bodyAnd) hl (fun _ _ => BitVec.getLsbD_and)
  · exact completes_generated (body := bodyOr) hl (fun _ _ => BitVec.getLsbD_or)
  · exact completes_generated (body := bodyXor) hl (fun _ _ => BitVec.getLsbD_xor)
  · exact completes_generated (body := bodyAndn) hl logicWord_andn
  · exact completes_generated (body := bodySel) hl rfl
  · exact completes_generated (body := bodyBsel) hl logicWord_bsel
  · exact completes_generated (body := bodyMaxu) hl logicWord_maxu
  · exact completes_generated (body := bodyMinu) hl logicWord_minu
  · exact completes_generated (body := bodyMaxs) hl logicWord_maxs
  · exact completes_generated (body := bodyMins) hl logicWord_mins
  · exact completes_generated (body := bodyRdor) hl logicWord_rdor
  · exact completes_generated (body := bodyRdand) hl logicWord_rdand
  · exact completes_generated (body := bodyRdxor) hl logicWord_rdxor
  · exact completes_generated (body := bodyLzc) hl logicWord_lzc
  · exact completes_generated (body := bodyPopc) hl logicWord_popc
  · exact completes_generated (body := bodyTzc) hl logicWord_tzc

end Sys2Proof.Machine
end

section
/-!
Proofs of the cell instructions, 2: the word and the carry of each shift and field opcode (R88, R89).
-/
namespace Sys2Proof.Machine

/-! ### Amount and width (R77, R88) -/

theorem Imm.amt_eq (i : Word) : Imm.amt i = i.toNat % 64 := by
  simp [Imm.amt, BitVec.extractLsb'_toNat]

theorem Imm.wid_eq (i : Word) : Imm.wid i = i.toNat / 128 % 64 := by
  simp [Imm.wid, BitVec.extractLsb'_toNat, Nat.shiftRight_eq_div_pow]

theorem shiftAmt_eq (x : CellAt) (c : RWord) : shiftAmt x c =
    if (Leaf.imm x.leaf).getLsbD 6 then c.d.toNat % 64 else (Leaf.imm x.leaf).toNat % 64 := by
  have hc : (c.d.extractLsb' 0 6).toNat = c.d.toNat % 64 := by simp [BitVec.extractLsb'_toNat]
  unfold shiftAmt
  rw [hc, Imm.amt_eq]
  rfl

/-- A leaf that executes as an opcode has no reserved code in that opcode's control fields (R61, R77). -/
theorem reservedControl_effectiveOp {l : BitVec 208} {op : CellOp} (h : effectiveOp l = op) (hop : op ≠ .nop) :
    reservedControl op (Leaf.imm l) = false := by
  unfold effectiveOp at h
  split at h
  · exact absurd h.symm hop
  extract_lets imm a b c immSource at h
  split at h
  · exact absurd h.symm hop
  · next hclean =>
    subst h
    simp only [Bool.or_eq_true, not_or, Bool.not_eq_true] at hclean
    exact hclean.1.2

theorem effectiveOp_leaf {s s1 : State} {ca : CellAddr} {k : LeafNo} {op : CellOp} {x : CellAt} {a b c : RWord}
    (hl : CellLeaf s s1 ca k op x a b c) (hop : op ≠ .nop) : effectiveOp x.leaf = op := by
  have h := hl.opcode
  unfold State.opAt at h
  split at h
  · exact absurd h.symm hop
  · exact h

/-- The width of an `exts` that a cell executes lies within a word (R77). -/
theorem exts_width_le {s s1 : State} {ca : CellAddr} {k : LeafNo} {x : CellAt} {a b c : RWord}
    (hl : CellLeaf s s1 ca k .exts x a b c) : Imm.wid (Leaf.imm x.leaf) ≤ 40 := by
  have hcontrol : (Imm.wid (Leaf.imm x.leaf) == 0 || decide (40 < Imm.wid (Leaf.imm x.leaf))) = false :=
    reservedControl_effectiveOp (effectiveOp_leaf hl (by decide)) (by decide)
  rw [Bool.or_eq_false_iff, decide_eq_false_iff_not] at hcontrol
  exact Nat.le_of_not_lt hcontrol.2

/-! ### Shifts by more than the width of a word -/

theorem shlWord_eq (a : Word) (n : Nat) : shlWord a n = a <<< n := by
  unfold shlWord
  split
  · rfl
  · exact (BitVec.shiftLeft_eq_zero (by omega)).symm

theorem shrWord_eq (a : Word) (n : Nat) : shrWord a n = a >>> n := by
  unfold shrWord
  split
  · rfl
  · exact (BitVec.ushiftRight_eq_zero (by omega)).symm

theorem sarWord_eq (a : Word) (n : Nat) : sarWord a n = a.sshiftRight n := by
  unfold sarWord
  split
  · rfl
  · refine BitVec.eq_of_getLsbD_eq fun i hi => ?_
    have hsign : (a.sshiftRight n).getLsbD i = a.getLsbD 39 := by
      rw [BitVec.getLsbD_sshiftRight, if_neg (by omega), decide_eq_false (by omega), BitVec.msb_eq_getLsbD_last,
        Bool.not_false, Bool.true_and]
    rw [hsign]
    cases a.getLsbD 39 with
    | true => exact (BitVec.getLsbD_allOnes ..).trans (decide_eq_true hi)
    | false => exact BitVec.getLsbD_zero

theorem extWord_eq (a : Word) (n w : Nat) : extWord a n w = (a >>> n) &&& onesWord w := by
  unfold extWord
  split
  · rfl
  · rw [BitVec.ushiftRight_eq_zero (by omega), BitVec.zero_and]
    rfl

/-! ### Fields -/

theorem getLsbD_onesWord (w i : Nat) : (onesWord w).getLsbD i = (decide (i < 40) && decide (i < w)) := by
  unfold onesWord
  rw [BitVec.getLsbD_ofNat, Nat.testBit_two_pow_sub_one]

theorem getLsbD_extWord (a : Word) (n w i : Nat) : (extWord a n w).getLsbD i = (decide (i < w) && (a >>> n).getLsbD i) := by
  rw [extWord_eq, BitVec.getLsbD_and, getLsbD_onesWord]
  by_cases hi : i < 40
  · rw [decide_eq_true hi, Bool.true_and, Bool.and_comm]
  · rw [BitVec.getLsbD_of_ge _ _ (by omega), Bool.false_and, Bool.and_false]

theorem toNat_extWord (a : Word) (n w : Nat) : (extWord a n w).toNat = a.toNat / 2 ^ n % 2 ^ w := by
  refine Nat.eq_of_testBit_eq fun i => ?_
  rw [BitVec.testBit_toNat, getLsbD_extWord, Nat.testBit_mod_two_pow, ← Nat.shiftRight_eq_div_pow, ← BitVec.toNat_ushiftRight,
    BitVec.testBit_toNat]

/-- `exts` extends the sign of the `w` bits at `n`. -/
theorem extsWord_eq (a : Word) (n w : Nat) : extsWord a n w = ((a >>> n).setWidth w).signExtend 40 := by
  unfold extsWord
  extract_lets e
  have hsign : ((a >>> n).setWidth w).msb = e.getLsbD (w - 1) := by
    rw [getLsbD_extWord, BitVec.msb_eq_getLsbD_last, BitVec.getLsbD_setWidth]
  refine BitVec.eq_of_getLsbD_eq fun i hi => ?_
  rw [BitVec.getLsbD_signExtend, decide_eq_true hi, Bool.true_and, hsign, BitVec.getLsbD_setWidth, ← getLsbD_extWord]
  have hones : (~~~onesWord w).getLsbD i = !decide (i < w) := by
    rw [BitVec.getLsbD_not, getLsbD_onesWord, decide_eq_true hi, Bool.true_and, Bool.true_and]
  have he : e.getLsbD i = (decide (i < w) && (a >>> n).getLsbD i) := getLsbD_extWord a n w i
  by_cases hw : i < w
  · rw [decide_eq_true hw] at hones
    rw [if_pos hw]
    split
    · rw [BitVec.getLsbD_or, hones, Bool.not_true, Bool.or_false]
    · rfl
  · rw [decide_eq_false hw] at hones he
    rw [if_neg hw]
    split
    · next hs => rw [BitVec.getLsbD_or, hones, hs, Bool.not_false, Bool.or_true]
    · next hs => rw [he, Bool.false_and, Bool.eq_false_of_not_eq_true hs]

section
variable {n w : Nat} {a b : Word}

theorem shiftWord_shl : ShiftWord .shl n w a b (shlWord a n) := by
  change (shlWord a n).toNat = _
  rw [shlWord_eq, BitVec.toNat_shiftLeft, Nat.shiftLeft_eq]

theorem shiftWord_shr : ShiftWord .shr n w a b (shrWord a n) := by
  change (shrWord a n).toNat = _
  rw [shrWord_eq, BitVec.toNat_ushiftRight, Nat.shiftRight_eq_div_pow]

theorem shiftWord_sar : ShiftWord .sar n w a b (sarWord a n) := by
  change (sarWord a n).toInt = _
  rw [sarWord_eq, BitVec.toInt_sshiftRight, Int.shiftRight_eq_div_pow]
  norm_cast

theorem shiftWord_rol : ShiftWord .rol n w a b (rolWord a n) := by
  intro i hi
  unfold rolWord
  rw [BitVec.getLsbD_rotateLeft, Nat.mod_mod]
  have hn := Nat.mod_lt n (show 0 < 40 by decide)
  have hsum : (i + n) % 40 = (i + n % 40) % 40 := by omega
  rw [hsum]
  generalize n % 40 = m at hn
  by_cases h : i + m < 40
  · rw [Nat.mod_eq_of_lt h, decide_eq_false (by omega), decide_eq_true h, Nat.add_sub_cancel]
    rfl
  · have hwrap : (i + m) % 40 = i + m - 40 := by omega
    rw [hwrap, decide_eq_true (by omega), cond_true]
    congr 1
    omega

theorem shiftWord_ext : ShiftWord .ext n w a b (extWord a n w) := toNat_extWord a n w

theorem shiftWord_exts (h40 : w ≤ 40) : ShiftWord .exts n w a b (extsWord a n w) := by
  change (extsWord a n w).toInt = _
  rw [extsWord_eq, BitVec.toInt_signExtend_of_le h40, BitVec.toInt_eq_toNat_bmod, BitVec.toNat_setWidth,
    BitVec.toNat_ushiftRight, Nat.shiftRight_eq_div_pow]
  push_cast
  exact Int.emod_bmod _ _

theorem shiftWord_ins : ShiftWord .ins n w a b (insWord a b n w) := by
  intro i hi
  unfold insWord
  split
  · simp only [BitVec.getLsbD_or, BitVec.getLsbD_and, BitVec.getLsbD_not, BitVec.getLsbD_shiftLeft, getLsbD_onesWord]
    by_cases hin : n ≤ i ∧ i < n + w
    · have h1 : ¬ i < n := by omega
      have h2 : i - n < w := by omega
      have h3 : i - n < 40 := by omega
      simp only [hi, h1, h2, h3, if_pos hin, decide_true, decide_false, Bool.not_false, Bool.and_true, Bool.true_and,
        Bool.not_true, Bool.and_false, Bool.false_or]
    · have hm : (!decide (i < n) && (decide (i - n < 40) && decide (i - n < w))) = false := by simp; omega
      simp only [hi, if_neg hin, hm, decide_true, Bool.true_and, Bool.and_false, Bool.not_false, Bool.and_true, Bool.or_false]
  · rw [if_neg (by omega)]

theorem shiftWord_fsh : ShiftWord .fsh n w a b (fshWord a b n) := by
  change (fshWord a b n).toNat = _
  unfold fshWord
  rw [BitVec.extractLsb'_toNat, BitVec.toNat_shiftLeft, BitVec.toNat_append, ← Nat.shiftLeft_add_eq_or_of_lt b.isLt,
    Nat.shiftLeft_eq, Nat.shiftLeft_eq, Nat.shiftRight_eq_div_pow,
    Nat.pow_add, Nat.mod_mul_right_div_self, Nat.mod_mod]

/-! ### The last bit out (R89) -/

theorem carry_within (out : Bool) :
    (decide (0 < n ∧ n ≤ 40) && out) = if n = 0 then false else if n ≤ 40 then out else false := by
  by_cases h0 : n = 0
  · rw [if_pos h0, decide_eq_false (by omega), Bool.false_and]
  · by_cases h40 : n ≤ 40
    · rw [if_neg h0, if_pos h40, decide_eq_true ⟨by omega, h40⟩, Bool.true_and]
    · rw [if_neg h0, if_neg h40, decide_eq_false fun h => h40 h.2, Bool.false_and]

theorem shiftCarry_shl (d : Word) : shiftCarry .shl n a d = shlC a n := carry_within _

theorem shiftCarry_shr (d : Word) : shiftCarry .shr n a d = shrC a n := carry_within _

theorem shiftCarry_sar (d : Word) : shiftCarry .sar n a d = sarC a n := by
  change (decide (0 < n) && a.getLsbD (min n 40 - 1)) = _
  unfold sarC
  by_cases h0 : n = 0
  · simp [h0]
  · rw [if_neg h0, decide_eq_true (by omega), Bool.true_and]
    by_cases h40 : n < 40
    · rw [if_pos h40, Nat.min_eq_left (by omega)]
    · rw [if_neg h40, Nat.min_eq_right (by omega)]

theorem shiftCarry_rol : shiftCarry .rol n a (rolWord a n) = rolC a n := by
  change (decide (n % 40 ≠ 0) && (rolWord a n).getLsbD 0) = _
  unfold rolC
  by_cases h0 : n % 40 = 0
  · rw [if_pos h0, decide_eq_false (not_not_intro h0), Bool.false_and]
  · rw [if_neg h0, decide_eq_true h0, Bool.true_and]

end

/-- The outcome of a shift, with the last bit out as C. -/
theorem completes_shifted {s s1 : State} {ca : CellAddr} {k : LeafNo} {op : CellOp} {x : CellAt} {a b c : RWord}
    {body : CellBody} {n w : Nat} {d : Word} {cy : Bool} {i : Instr} (hl : CellLeaf s s1 ca k op x a b c)
    (hd : ShiftWord op n w a.d b.d d) (hcy : shiftCarry op n a.d d = cy) (hop : op ≠ .nop := by decide)
    (hb : body x a b c s1 = (shifted x s1 d cy, s1) := by rfl)
    (hi : ∀ z, exec i z = cellNext z op body ca k := by intro; rfl) :
    ∃ d, ShiftWord op n w a.d b.d d ∧ Completes i s fun t => CellWrote s1 t x
      { value := some (gen d), tested := some d,
        flags := some ((s1.cell x.key).v.work.f.withCZN (shiftCarry op n a.d d) d) } := by
  subst hcy
  exact ⟨d, hd, completes_wrote hl hop hb hi⟩

/-- Settles O15: each opcode's own part moves A by the amount that IMM selects, and the leaf writes the word and its flags. -/
theorem cellShiftResults : Obligations.CellShiftResults := by
  unfold Obligations.CellShiftResults
  simp only [← Imm.wid_eq, ← shiftAmt_eq]
  intro ca k s s1 x a b c i op hi hl
  simp only [List.mem_cons, List.not_mem_nil, or_false, Prod.mk.injEq] at hi
  obtain ⟨rfl, rfl⟩ | ⟨rfl, rfl⟩ | ⟨rfl, rfl⟩ | ⟨rfl, rfl⟩ | ⟨rfl, rfl⟩ | ⟨rfl, rfl⟩ | ⟨rfl, rfl⟩ | ⟨rfl, rfl⟩ := hi
  · exact completes_shifted (body := bodyShl) hl shiftWord_shl (shiftCarry_shl _)
  · exact completes_shifted (body := bodyShr) hl shiftWord_shr (shiftCarry_shr _)
  · exact completes_shifted (body := bodySar) hl shiftWord_sar (shiftCarry_sar _)
  · exact completes_shifted (body := bodyRol) hl shiftWord_rol shiftCarry_rol
  · exact completes_generated (body := bodyExt) hl shiftWord_ext
  · exact completes_generated (body := bodyExts) hl (shiftWord_exts (exts_width_le hl))
  · exact completes_generated (body := bodyIns) hl shiftWord_ins
  · exact completes_generated (body := bodyFsh) hl shiftWord_fsh

end Sys2Proof.Machine
end

section
/-!
Proofs of the cell instructions, 3: the adder, its predicted residue and the comparisons by it (R73, R80 to R83).
-/
namespace Sys2Proof.Machine

/-! ### The adder (R81, R82) -/

section
variable (a b : Word) (cin : Bool)

theorem toNat_sum41 : (sum41 a b cin).toNat = a.toNat + b.toNat + cin.toNat := by
  have ha := a.isLt
  have hb := b.isLt
  unfold sum41
  cases cin <;> simp <;> omega

theorem sumOf_eq : sumOf a b cin = BitVec.ofNat 40 (a.toNat + b.toNat + cin.toNat) := by
  refine BitVec.eq_of_toNat_eq ?_
  unfold sumOf
  rw [BitVec.toNat_setWidth, toNat_sum41, BitVec.toNat_ofNat]

theorem coutOf_eq : coutOf a b cin = decide (2 ^ 40 ≤ a.toNat + b.toNat + cin.toNat) := by
  change (sum41 a b cin).msb = _
  rw [BitVec.msb_eq_decide, toNat_sum41]

theorem addFlags_eq : addFlags a b cin =
    mkFlags (coutOf a b cin) (sumOf a b cin == 0) (sumOf a b cin).msb
      (decide (a.msb = b.msb) && decide ((sumOf a b cin).msb ≠ a.msb)) := by
  have hbeq : ∀ p q : Bool, decide (p = q) = (p == q) ∧ decide (p ≠ q) = (p != q) := by decide
  rw [(hbeq _ _).1, (hbeq _ _).2]
  rfl

theorem msb_complement : (~~~b).msb = !b.msb := BitVec.msb_not

/-- The flags of a difference are those of the sum with NOT B. -/
theorem subFlags_eq : subFlags a b cin = addFlags a (~~~b) cin := by
  have hv : subV a b cin = addV a (~~~b) cin := by
    have hsign : (a.msb != b.msb) = (a.msb == (~~~b).msb) := by
      rw [msb_complement]
      cases a.msb <;> cases b.msb <;> rfl
    exact congrArg (· && _) hsign
  unfold subFlags addFlags
  rw [hv]

/-- A + NOT B + 1 is A − B. -/
theorem sumOf_complement : sumOf a (~~~b) true = a - b := by
  refine BitVec.eq_of_toNat_eq ?_
  have hb := b.isLt
  rw [sumOf_eq, BitVec.toNat_ofNat, BitVec.toNat_not, BitVec.toNat_sub, Bool.toNat_true]
  congr 1
  omega

/-- A difference without a borrow carries out. -/
theorem coutOf_complement : coutOf a (~~~b) true = decide (b.toNat ≤ a.toNat) := by
  have hb := b.isLt
  rw [coutOf_eq, BitVec.toNat_not, Bool.toNat_true, decide_eq_decide]
  omega

theorem toInt_cases :
    a.toNat < 2 ^ 39 ∧ a.toInt = a.toNat ∨ 2 ^ 39 ≤ a.toNat ∧ a.toInt = a.toNat - 2 ^ 40 := by
  rw [BitVec.toInt_eq_toNat_cond]
  split
  · exact .inl ⟨by omega, rfl⟩
  · exact .inr ⟨by omega, rfl⟩

/-- The sign of a difference, put right by its overflow, orders A and B (R83). -/
theorem sub_sign_eq_lt : ((a - b).msb != (a.msb != b.msb && (a - b).msb != a.msb)) = decide (a.toInt < b.toInt) := by
  have hd : (a - b).toNat = (2 ^ 40 - b.toNat + a.toNat) % 2 ^ 40 := BitVec.toNat_sub ..
  have ha := toInt_cases a
  have hb := toInt_cases b
  have halt := a.isLt
  have hblt := b.isLt
  by_cases h : a.msb = b.msb
  · have hsign : ((a - b).msb != (a.msb != b.msb && (a - b).msb != a.msb)) = (a - b).msb := by
      rw [h, bne_self_eq_false, Bool.false_and, Bool.bne_false]
    rw [BitVec.msb_eq_decide, BitVec.msb_eq_decide, decide_eq_decide] at h
    rw [hsign, BitVec.msb_eq_decide, decide_eq_decide, hd]
    omega
  · have hsign : ((a - b).msb != (a.msb != b.msb && (a - b).msb != a.msb)) = a.msb := by
      rw [bne_iff_ne.mpr h, Bool.true_and]
      cases (a - b).msb <;> cases a.msb <;> rfl
    rw [BitVec.msb_eq_decide, BitVec.msb_eq_decide, decide_eq_decide] at h
    rw [hsign, BitVec.msb_eq_decide, decide_eq_decide]
    omega

end

/-! ### Residues (R68) -/

/-- Equal codes are equal residues. -/
theorem resCodeInt_inj {m n : Int} : resCodeInt m = resCodeInt n ↔ m % 3 = n % 3 := by
  unfold resCodeInt
  rw [← BitVec.toNat_inj, BitVec.toNat_ofNat, BitVec.toNat_ofNat]
  omega

theorem resCode_eq (n : Nat) : resCode n = resCodeInt n := rfl

/-- A predicted residue fails against the residue of a word. -/
theorem resCodeInt_bne (m : Int) (n : Nat) : (resCodeInt m != resCode n) = (m % 3 != (n : Int) % 3) := by
  rw [resCode_eq]
  by_cases h : m % 3 = (n : Int) % 3
  · rw [resCodeInt_inj.mpr h, h, bne_self_eq_false, bne_self_eq_false]
  · rw [bne_iff_ne.mpr h, bne_iff_ne.mpr (mt resCodeInt_inj.mp h)]

/-- An operand has failed before. -/
theorem badOperand_eq (a b : RWord) : (a.r == badRes || b.r == badRes) = decide (a.r = 3 ∨ b.r = 3) := by
  rw [Bool.decide_or]
  rfl

/-- A word whose code says that an operand, flag set or carry pair of its sum has failed (R73). -/
theorem sumResidue_eq (a b : RWord) (flagBad pairBad : Bool) (r : BitVec 2) :
    (if a.r = badRes ∨ b.r = badRes ∨ flagBad = true ∨ pairBad = true then badRes else r) =
      if decide (a.r = 3 ∨ b.r = 3) || flagBad || pairBad then 3 else r := by
  refine if_congr ?_ rfl rfl
  rw [Bool.or_eq_true, Bool.or_eq_true, decide_eq_true_eq, or_assoc, or_assoc]
  rfl

/-! ### `add`, `sub` and `cmp` (R81, R82) -/

/-- The outcome of the adder for a sum `n` and an overflow `v`. -/
def summed (value : Option RWord) (n : Nat) (v : Bool) : CellResult :=
  { value, cout := decide (2 ^ 40 ≤ n), tested := some (BitVec.ofNat 40 n),
    flags := some (mkFlags (decide (2 ^ 40 ≤ n)) (BitVec.ofNat 40 n == 0) (BitVec.ofNat 40 n).msb v) }

theorem summed_add (value : Option RWord) (a b : Word) (cin : Bool) :
    let n := a.toNat + b.toNat + cin.toNat
    ({ value, flags := some (addFlags a b cin), cout := coutOf a b cin, tested := some (sumOf a b cin) } : CellResult) =
      summed value n (decide (a.msb = b.msb) && decide ((BitVec.ofNat 40 n).msb ≠ a.msb)) := by
  rw [addFlags_eq, sumOf_eq, coutOf_eq]
  rfl

theorem summed_sub (value : Option RWord) (a b : Word) (cin : Bool) :
    let n := a.toNat + (2 ^ 40 - 1 - b.toNat) + cin.toNat
    ({ value, flags := some (subFlags a b cin), cout := coutOf a (~~~b) cin, tested := some (sumOf a (~~~b) cin) } : CellResult) =
      summed value n (decide (a.msb = !b.msb) && decide ((BitVec.ofNat 40 n).msb ≠ a.msb)) := by
  rw [subFlags_eq, summed_add, BitVec.toNat_not, msb_complement]

section
variable {x : CellAt} {s s2 : State} (a b c : RWord) {cin pairBad flagBad : Bool}

theorem predAdd_eq (cin : Bool) : predAdd a b cin =
    resCodeInt (a.r.toNat + b.r.toNat + cin.toNat - (decide (2 ^ 40 ≤ a.d.toNat + b.d.toNat + cin.toNat)).toNat) := by
  unfold predAdd
  rw [coutOf_eq]

theorem predSub_eq (cin : Bool) : predSub a b cin = resCodeInt ((a.r.toNat : Int) - b.r.toNat + cin.toNat -
    (decide (2 ^ 40 ≤ a.d.toNat + (2 ^ 40 - 1 - b.d.toNat) + cin.toNat)).toNat) := by
  unfold predSub
  rw [coutOf_eq, BitVec.toNat_not]

variable (hc : s.carryIn x = (cin, pairBad, flagBad, s2))
include hc

theorem bodyAdd_eq :
    let n := a.d.toNat + b.d.toNat + cin.toNat
    let d : Word := BitVec.ofNat 40 n
    let r : BitVec 2 := if decide (a.r = 3 ∨ b.r = 3) || flagBad || pairBad then 3
      else resCodeInt (a.r.toNat + b.r.toNat + cin.toNat - (decide (2 ^ 40 ≤ n)).toNat)
    bodyAdd x a b c s = (summed (some ⟨d, r⟩) n (decide (a.d.msb = b.d.msb) && decide (d.msb ≠ a.d.msb)), s2) := by
  unfold bodyAdd
  rw [hc]
  dsimp only
  rw [summed_add, sumResidue_eq, predAdd_eq, sumOf_eq]

theorem bodySub_eq :
    let n := a.d.toNat + (2 ^ 40 - 1 - b.d.toNat) + cin.toNat
    let d : Word := BitVec.ofNat 40 n
    let r : BitVec 2 := if decide (a.r = 3 ∨ b.r = 3) || flagBad || pairBad then 3
      else resCodeInt ((a.r.toNat : Int) - b.r.toNat + cin.toNat - (decide (2 ^ 40 ≤ n)).toNat)
    bodySub x a b c s = (summed (some ⟨d, r⟩) n (decide (a.d.msb = !b.d.msb) && decide (d.msb ≠ a.d.msb)), s2) := by
  unfold bodySub
  rw [hc]
  dsimp only
  rw [summed_sub, sumResidue_eq, predSub_eq, sumOf_eq, BitVec.toNat_not]

theorem bodyCmp_eq :
    let n := a.d.toNat + (2 ^ 40 - 1 - b.d.toNat) + cin.toNat
    let d : Word := BitVec.ofNat 40 n
    let p : Int := ((a.r.toNat : Int) - b.r.toNat + cin.toNat - (decide (2 ^ 40 ≤ n)).toNat) % 3
    bodyCmp x a b c s = (summed none n (decide (a.d.msb = !b.d.msb) && decide (d.msb ≠ a.d.msb)),
      s2.chargeIf (decide (a.r = 3 ∨ b.r = 3) || flagBad || p != (d.toNat : Int) % 3) x.r 0x01 x.g) := by
  unfold bodyCmp
  rw [hc]
  dsimp only
  rw [summed_sub, badOperand_eq, predSub_eq, resCodeInt_bne, sumOf_eq, BitVec.toNat_not]

end

/-! ### `ltu`, `lts` and `eq` (R80, R83) -/

theorem gen_bool40 (h : Bool) : gen (bool40 h) = ⟨BitVec.ofNat 40 h.toNat, BitVec.ofNat 2 h.toNat⟩ := by cases h <;> rfl

theorem sub_beq_zero (a b : Word) : (a - b == 0) = (a == b) := by
  rw [beq_eq_decide, beq_eq_decide, decide_eq_decide, sub_eq_zero]

theorem subFlags_true (a b : Word) : subFlags a b true = mkFlags (decide (b.toNat ≤ a.toNat)) (a == b) (a - b).msb
    (decide (a.msb ≠ b.msb) && decide ((a - b).msb ≠ a.msb)) := by
  have hs : decide (a.msb = !b.msb) = decide (a.msb ≠ b.msb) := by
    cases a.msb <;> cases b.msb <;> rfl
  rw [subFlags_eq, addFlags_eq, sumOf_complement, coutOf_complement, msb_complement, sub_beq_zero, hs]

theorem compared_eq (x : CellAt) (a b : RWord) (s : State) (h : Bool) :
    let cout := decide (b.d.toNat ≤ a.d.toNat)
    let p : Int := ((a.r.toNat : Int) - b.r.toNat + 1 - cout.toNat) % 3
    let failed := decide (a.r = 3 ∨ b.r = 3) || p != ((a.d - b.d).toNat : Int) % 3
    compared x a b s (bool40 h) =
      ({ value := some ⟨BitVec.ofNat 40 h.toNat, if failed then 3 else BitVec.ofNat 2 h.toNat⟩, cout,
         tested := some (BitVec.ofNat 40 h.toNat),
         flags := some (mkFlags cout (a.d == b.d) (a.d - b.d).msb
          (decide (a.d.msb ≠ b.d.msb) && decide ((a.d - b.d).msb ≠ a.d.msb))) },
        s.chargeIf failed x.r 0x01 x.g) := by
  intro cout p failed
  have hp : predSub a b true = resCodeInt ((a.r.toNat : Int) - b.r.toNat + 1 - cout.toNat) := by
    unfold predSub
    rw [coutOf_complement]
    rfl
  have hd : bool40 h = BitVec.ofNat 40 h.toNat := congrArg RWord.d (gen_bool40 h)
  have hv : (if failed then ⟨bool40 h, badRes⟩ else gen (bool40 h)) =
      (⟨BitVec.ofNat 40 h.toNat, if failed then 3 else BitVec.ofNat 2 h.toNat⟩ : RWord) := by
    rw [gen_bool40, hd]
    split <;> rfl
  unfold compared
  dsimp only
  rw [badOperand_eq, sumOf_complement, coutOf_complement, subFlags_true, hp, resCodeInt_bne, hv, hd]

section
variable {x : CellAt} {s : State} (a b c : RWord)

theorem bodyLtu_eq : bodyLtu x a b c s = compared x a b s (bool40 (decide (a.d.toNat < b.d.toNat))) := by
  unfold bodyLtu
  rw [coutOf_complement, ← decide_not, decide_eq_decide.mpr Nat.not_le]

theorem bodyLts_eq : bodyLts x a b c s = compared x a b s (bool40 (decide (a.d.toInt < b.d.toInt))) := by
  have hn : nOf (sumOf a.d (~~~b.d) true) = (a.d - b.d).msb := by
    rw [sumOf_complement]
    rfl
  have hv : subV a.d b.d true = (a.d.msb != b.d.msb && (a.d - b.d).msb != a.d.msb) := by
    rw [← sumOf_complement]
    rfl
  unfold bodyLts
  rw [hn, hv, sub_sign_eq_lt]

theorem bodyEq_eq : bodyEq x a b c s = compared x a b s (bool40 (decide (a.d = b.d))) := by
  unfold bodyEq zOf
  rw [sumOf_complement, sub_beq_zero, beq_eq_decide]

end

/-- Settles O16: the sums and differences by the adder's outcome, the comparisons by the difference that they form. -/
theorem cellArithmetic : Obligations.CellArithmetic := by
  refine ⟨fun ca k s s1 s2 x a b c i op cin pairBad flagBad hi hl hc => ?_, fun ca k s s1 x a b c i op holds hi hl => ?_⟩
  · simp only [List.mem_cons, List.not_mem_nil, or_false, Prod.mk.injEq] at hi
    obtain ⟨rfl, rfl⟩ | ⟨rfl, rfl⟩ | ⟨rfl, rfl⟩ := hi
    · exact completes_wrote (body := bodyAdd) hl (by decide) (bodyAdd_eq a b c hc)
    · exact completes_wrote (body := bodySub) hl (by decide) (bodySub_eq a b c hc)
    · exact completes_wrote (body := bodyCmp) hl (by decide) (bodyCmp_eq a b c hc)
  · simp only [List.mem_cons, List.not_mem_nil, or_false, Prod.mk.injEq] at hi
    obtain ⟨rfl, rfl, rfl⟩ | ⟨rfl, rfl, rfl⟩ | ⟨rfl, rfl, rfl⟩ := hi
    · exact completes_wrote (body := bodyLtu) hl (by decide) ((bodyLtu_eq a b c).trans (compared_eq ..))
    · exact completes_wrote (body := bodyLts) hl (by decide) ((bodyLts_eq a b c).trans (compared_eq ..))
    · exact completes_wrote (body := bodyEq) hl (by decide) ((bodyEq_eq a b c).trans (compared_eq ..))

end Sys2Proof.Machine
end

section
/-!
Proofs of the cell instructions, 4: press operands and results, queue tests, hinge and pad inputs (R99 to R104, R107, R140).
-/
namespace Sys2Proof.Machine

/-- The outcome of a word with the residue that it has, with Z and N of it. -/
def CellResult.ofWord (x : CellAt) (s : State) (w : RWord) : CellResult :=
  { value := some w, flags := some ((s.cell x.key).v.work.f.withZN w.d), tested := some w.d }

/-! ### The operand fields (R99, R102 to R104) -/

theorem toNat_pressNo (i : Word) : (i.extractLsb' 0 1).toNat = i.toNat % 2 := by
  simp [BitVec.extractLsb'_toNat]

theorem toNat_resultNo (i : Word) : (i.extractLsb' 1 2).toNat = i.toNat / 2 % 4 := by
  simp [BitVec.extractLsb'_toNat, Nat.shiftRight_eq_div_pow]

theorem toNat_hingeNo (i : Word) : (i.extractLsb' 0 6).toNat = i.toNat % 64 := by
  simp [BitVec.extractLsb'_toNat]

theorem toNat_bankNo (i : Word) : (i.extractLsb' 0 3).toNat = i.toNat % 8 := by
  simp [BitVec.extractLsb'_toNat]

/-! ### Press blocks (R99, R100) -/

theorem Lag.new_write {α : Type} (l : Lag α) (t : Nat) (y : α) : (l.write t y).new = y := by
  unfold Lag.write
  split <;> rfl

theorem defined_of_leaf {s : State} {t at_ : Nat} (w : RWord) (h : at_ / 64 = t / 64) : s.defined t w at_ = (w, s) := if_pos h

/-- The press block with A and B as its operands X and Y. -/
def Press.latch (pr : Press) (t : Nat) (a b : RWord) : Press :=
  let o := (pr.ops.read t).1
  { pr with ops := pr.ops.write t { x := ⟨a, t⟩, y := ⟨b, t⟩, xd := o.x, yd := o.y } }

/-- The state with A and B handed to press block `p` of the cell's gathering. -/
def State.latch (s : State) (x : CellAt) (p : Nat) (a b : RWord) : State :=
  s.updGth x.g fun g => { g with press := g.press.upd p fun pr => pr.latch x.t a b }

theorem press_latch (s : State) (x : CellAt) (p : Nat) (a b : RWord) :
    ((s.latch x p a b).gth x.g).press.at p = ((s.gth x.g).press.at p).latch x.t a b := by
  unfold State.latch
  rw [gth_updGth, if_pos rfl]
  exact Sparse.at_upd_self ..

section
variable {x : CellAt} {s : State} (a b c : RWord)

/-- A press leaf that names the cell takes A and B. -/
theorem bodyPput_named {p : Nat} (hp : (Leaf.imm x.leaf).toNat % 2 = p)
    (hen : (((s.gth x.g).press.at p).leaf.at x.k).getLsbD 46 = true)
    (hcell : (((s.gth x.g).press.at p).leaf.at x.k).toNat / 2 ^ 40 % 64 = x.key % 64) :
    bodyPput x a b c s = ({}, (s.chargeIf (!a.ok || !b.ok) x.r 0x01 x.g).latch x p a b) := by
  have hp' : ((Leaf.imm x.leaf).extractLsb' 0 1).toNat = p := (toNat_pressNo _).trans hp
  have hname : ((((s.gth x.g).press.at p).leaf.at x.k).extractLsb' 40 6).toNat = x.key % 64 := by
    rw [BitVec.extractLsb'_toNat, Nat.shiftRight_eq_div_pow]
    exact hcell
  unfold bodyPput
  rw [hp']
  dsimp only
  rw [hen, hname, beq_self_eq_true, Bool.and_self, if_pos rfl]
  rfl

/-- A result word of the quire in progress, its residue checked. -/
theorem bodyPget_read {w : RWord} {at_ : Nat}
    (hw : (((s.gth x.g).press.at ((Leaf.imm x.leaf).toNat % 2)).rw.at ((Leaf.imm x.leaf).toNat / 2 % 4)).read x.t = (w, at_))
    (hat : at_ / 64 = x.t / 64) :
    bodyPget x a b c s = (.ofWord x s w, s.chargeIf (!w.ok) x.r 0x03 x.g) := by
  unfold bodyPget
  dsimp only
  rw [toNat_pressNo, toNat_resultNo, hw]
  dsimp only
  rw [defined_of_leaf w hat]
  dsimp only
  rw [cell_chargeIf]
  rfl

/-! ### Queue tests (R101, R107, R140) -/

/-- A test of a queue that exists, is enabled and lies in the region: its count, size and watermarks in use. -/
theorem queueTest_served (f : Nat → Nat → Nat × Nat → Word) {h q : Nat} (hq : (Leaf.imm x.leaf).toNat / 2 ^ 16 % 4 = q)
    (ht : gthSide x.g ((Leaf.imm x.leaf).toNat % 8) = some h) (hr : s.sameRegion x.g h = true) (hsize : s.qSize h q ≠ 0) :
    let tail := (((s.gth h).queue.at q).apWork.read x.t).1
    let count := s.arrayCount h q tail.p ((s.capture x.r).crp.at (4 * h + q))
    queueTest f x a b c s =
      (.ofWord x s (gen (f count (s.qSize h q) ((s.capture x.r).wm.at (4 * h + q)))), s.chargeIf (!tail.ok) x.r 0x05 h) := by
  intro tail count
  unfold queueTest State.captured
  dsimp only
  rw [Imm.tgt_eq, Imm.que_eq, ht, hq]
  dsimp only
  rw [if_pos ⟨hr, hsize⟩, arrayCount_chargeIf, capture_chargeIf, qSize_chargeIf, cell_chargeIf]
  rfl

/-- A test that reaches no queue is dropped: a free word with residue 0b11 (log entry 109). -/
theorem queueTest_dropped (f : Nat → Nat → Nat × Nat → Word)
    (hn : ∀ h, gthSide x.g ((Leaf.imm x.leaf).toNat % 8) = some h →
      s.sameRegion x.g h = false ∨ s.qSize h ((Leaf.imm x.leaf).toNat / 2 ^ 16 % 4) = 0) :
    let y := (dropped x s).draw 40
    queueTest f x a b c s = (.ofWord x s ⟨y.1, badRes⟩, y.2) := by
  have hcell : ((dropped x s).draw 40).2.cell x.key = s.cell x.key := cell_chargeIf s true x.r 0x01 x.g x.key
  have hout : ∀ d : RWord, CellResult.ofWord x ((dropped x s).draw 40).2 d = .ofWord x s d := fun d => by
    unfold CellResult.ofWord
    rw [hcell]
  unfold queueTest
  dsimp only
  rw [Imm.tgt_eq, Imm.que_eq]
  split
  · next h ht =>
    rw [if_neg]
    · exact congrArg (·, _) (hout _)
    · rintro ⟨hr, hsize⟩
      obtain hno | hno := hn h ht
      · exact Bool.false_ne_true (hno.symm.trans hr)
      · exact hsize hno
  · exact congrArg (·, _) (hout _)

theorem bool40_beq (m n : Nat) : bool40 (m == n) = if m = n then 1 else 0 := by
  unfold bool40
  exact if_congr beq_iff_eq rfl rfl

theorem bool40_decide (p : Prop) [Decidable p] : bool40 (decide p) = if p then 1 else 0 := by
  unfold bool40
  exact if_congr decide_eq_true_iff rfl rfl

/-! ### Hinge and pad inputs (R102 to R104) -/

theorem hingeOf_eq (x : CellAt) (s : State) :
    hingeOf x s = (s.capture x.r).hinges.at (64 * x.g + (Leaf.imm x.leaf).toNat % 64) := by
  unfold hingeOf
  rw [toNat_hingeNo]

/-- The pads of a bank as the word of `pin`. -/
theorem padWord_eq (pads : BitVec 192) (n : Nat) :
    (pads.extractLsb' n 24).setWidth 40 = BitVec.ofNat 40 (pads.toNat / 2 ^ n % 2 ^ 24) := by
  refine BitVec.eq_of_toNat_eq ?_
  rw [BitVec.toNat_setWidth, BitVec.extractLsb'_toNat, BitVec.toNat_ofNat, Nat.shiftRight_eq_div_pow]

theorem hingeStatus_eq (assigned running : Bool) : (if assigned then (if running then 3 else 1) else 0 : Word) =
    BitVec.ofNat 40 (assigned.toNat + 2 * (assigned && running).toNat) := by
  cases assigned with
  | false => rfl
  | true => cases running <;> rfl

theorem bodyHin_eq :
    let ch := (s.capture x.r).hinges.at (64 * x.g + (Leaf.imm x.leaf).toNat % 64)
    let w : RWord := if ch.assigned then ch.w else ⟨0, 0⟩
    bodyHin x a b c s = (.ofWord x s w, s.chargeIf (!w.ok) x.r 0x01 x.g) := by
  unfold bodyHin
  rw [hingeOf_eq]
  rfl

theorem bodyHstat_eq :
    let ch := (s.capture x.r).hinges.at (64 * x.g + (Leaf.imm x.leaf).toNat % 64)
    bodyHstat x a b c s =
      (.ofWord x s (gen (BitVec.ofNat 40 (ch.assigned.toNat + 2 * (ch.assigned && ch.running).toNat))), s) := by
  unfold bodyHstat
  rw [hingeOf_eq]
  dsimp only
  rw [hingeStatus_eq]
  rfl

theorem bodyPin_eq : bodyPin x a b c s = (.ofWord x s (gen (BitVec.ofNat 40
    ((s.capture x.r).pads.toNat / 2 ^ (24 * ((Leaf.imm x.leaf).toNat % 8)) % 2 ^ 24))), s) := by
  unfold bodyPin
  dsimp only
  rw [toNat_bankNo, padWord_eq]
  rfl

end

/-! ### The commands -/

section
variable {s s1 : State} {ca : CellAddr} {k : LeafNo} {x : CellAt} {a b c : RWord}

/-- `pput` (R99). -/
theorem pput_leaf {p : Nat} (hp : (Leaf.imm x.leaf).toNat % 2 = p) (hl : CellLeaf s s1 ca k .pput x a b c)
    (hen : (((s1.gth x.g).press.at p).leaf.at x.k).getLsbD 46 = true)
    (hcell : (((s1.gth x.g).press.at p).leaf.at x.k).toNat / 2 ^ 40 % 64 = x.key % 64) :
    let t := leafEnd s .pput bodyPput ca k
    let o := ((t.gth x.g).press.at p).ops.new
    o.x = ⟨a, x.t⟩ ∧ o.y = ⟨b, x.t⟩ ∧ (t.cell x.key).v = (s1.cell x.key).v := by
  intro t o
  have hleft := runCell_leafLeft hl (by decide) (bodyPput_named a b c hp hen hcell) rfl rfl
  have ho : o = (((s1.chargeIf (!a.ok || !b.ok) x.r 0x01 x.g).gth x.g).press.at p |>.latch x.t a b).ops.new := by
    simp only [o]
    rw [← press_latch]
    exact congrArg (fun m => (Sparse.at m p).ops.new) (hleft.folio x.g).press
  rw [ho, Press.latch, Lag.new_write]
  exact ⟨rfl, rfl, hleft.v.trans (congrArg Cell.v (cell_chargeIf ..))⟩

/-- A queue test that is served (R101). -/
theorem queueTest_leaf {i : Instr} {op : CellOp} {f : Nat → Nat → Nat × Nat → Word} {h : Nat} {d : Word}
    (hl : CellLeaf s s1 ca k op x a b c) (ht : gthSide x.g ((Leaf.imm x.leaf).toNat % 8) = some h)
    (hr : s1.sameRegion x.g h = true) :
    let q := (Leaf.imm x.leaf).toNat / 2 ^ 16 % 4
    let tail := (((s1.gth h).queue.at q).apWork.read x.t).1
    let count := s1.arrayCount h q tail.p ((s1.capture x.r).crp.at (4 * h + q))
    s1.qSize h q ≠ 0 → f count (s1.qSize h q) ((s1.capture x.r).wm.at (4 * h + q)) = d → op ≠ .nop →
    (∀ z, exec i z = cellNext z op (queueTest f) ca k) → Completes i s fun t =>
      CellWrote (s1.chargeIf (!tail.ok) x.r 0x05 h) t x (.ofWord x s1 (gen d)) := by
  intro q tail count hsize hd hop hi
  subst hd
  exact completes_wrote hl hop (queueTest_served a b c f rfl ht hr hsize) hi

/-- A queue test that is dropped (R107, R140). -/
theorem queueTest_leaf_dropped {i : Instr} {op : CellOp} {f : Nat → Nat → Nat × Nat → Word}
    (hl : CellLeaf s s1 ca k op x a b c) (hop : op ≠ .nop)
    (hn : ∀ h, gthSide x.g ((Leaf.imm x.leaf).toNat % 8) = some h →
      s1.sameRegion x.g h = false ∨ s1.qSize h ((Leaf.imm x.leaf).toNat / 2 ^ 16 % 4) = 0)
    (hi : ∀ z, exec i z = cellNext z op (queueTest f) ca k := by intro; rfl) :
    Completes i s fun t => (∃ g ∈ (t.region x.r).fails, g.quire = s1.exec x.r ∧ g.cause = 0x01 ∧ g.gth = x.g) ∧
      let y := (s1.chargeIf true x.r 0x01 x.g).draw 40
      CellWrote y.2 t x (.ofWord x s1 ⟨y.1, badRes⟩) := by
  have hb := queueTest_dropped a b c f hn
  have hcharges : Charges (dropped x s1) ((dropped x s1).draw 40).2 := .same rfl
  exact ⟨_, hi s, Charged.later (charge_charges s1 x.r 0x01 x.g).2 (hcharges.trans (runCell_charges hl hop hb)),
    runCell_wrote hl hop hb⟩

end

/-- Settles O19: the operands by the hand-off to the press block, all else by the word that each opcode's own part reads. -/
theorem cellPressAndInputs : Obligations.CellPressAndInputs := by
  refine ⟨fun ca k s s1 x a b c => ⟨fun hl hen hcell => ⟨_, rfl, pput_leaf rfl hl hen hcell⟩, fun w at_ hw hat hl => ?_⟩,
    fun ca k s s1 x a b c => ⟨?_, ?_, fun hl => ?_, fun hl => ?_, fun hl => ?_⟩⟩
  · exact completes_wrote (body := bodyPget) hl (by decide) (bodyPget_read a b c hw hat)
  · intro h i op d ht hr q tail count wm hsize hi hl
    simp only [List.mem_cons, List.not_mem_nil, or_false, Prod.mk.injEq] at hi
    obtain ⟨rfl, rfl, rfl⟩ | ⟨rfl, rfl, rfl⟩ | ⟨rfl, rfl, rfl⟩ | ⟨rfl, rfl, rfl⟩ | ⟨rfl, rfl, rfl⟩ := hi
    · exact queueTest_leaf hl ht hr hsize (bool40_beq count 0) (by decide) fun _ => rfl
    · exact queueTest_leaf hl ht hr hsize (bool40_beq count (s1.qSize h q)) (by decide) fun _ => rfl
    · exact queueTest_leaf hl ht hr hsize (bool40_decide (wm.1 ≤ count)) (by decide) fun _ => rfl
    · exact queueTest_leaf hl ht hr hsize (bool40_decide (count ≤ wm.2)) (by decide) fun _ => rfl
    · exact queueTest_leaf hl ht hr hsize (f := fun c _ _ => BitVec.ofNat 40 c) rfl (by decide) fun _ => rfl
  · intro h i op ht hn hi hl
    subst ht
    simp only [List.mem_cons, List.not_mem_nil, or_false, Prod.mk.injEq] at hi
    obtain ⟨rfl, rfl⟩ | ⟨rfl, rfl⟩ | ⟨rfl, rfl⟩ | ⟨rfl, rfl⟩ | ⟨rfl, rfl⟩ := hi
    all_goals exact queueTest_leaf_dropped hl (by decide) hn
  · exact completes_wrote (body := bodyHin) hl (by decide) (bodyHin_eq a b c)
  · exact completes_wrote (body := bodyHstat) hl (by decide) (bodyHstat_eq a b c)
  · exact completes_wrote (body := bodyPin) hl (by decide) (bodyPin_eq a b c)

end Sys2Proof.Machine
end

section
/-!
Proofs of the gatherings family, 1: the press blocks (R145 to R149).
-/
namespace Sys2Proof.Machine

/-! ### Fields of a press leaf (R144) -/

theorem PLeaf.mode_eq (l : BitVec 64) : PLeaf.mode l = l.toNat / 2 ^ 58 % 4 := by
  simp [PLeaf.mode, BitVec.extractLsb'_toNat, Nat.shiftRight_eq_div_pow]

theorem PLeaf.shift_eq (l : BitVec 64) : PLeaf.shift l = l.toNat / 2 ^ 50 % 64 := by
  simp [PLeaf.shift, BitVec.extractLsb'_toNat, Nat.shiftRight_eq_div_pow]

theorem PLeaf.rd_eq (l : BitVec 64) : PLeaf.rd l = l.toNat / 2 ^ 47 % 4 := by
  simp [PLeaf.rd, BitVec.extractLsb'_toNat, Nat.shiftRight_eq_div_pow]

/-! ### The block of a state -/

theorem press_updPress (s : State) (g p : Nat) (f : Press → Press) :
    ((s.updPress g p f).gth g).press.at p = f ((s.gth g).press.at p) := by
  unfold State.updPress
  rw [gth_updGth, if_pos rfl]
  exact Sparse.at_upd_self ..

theorem unitCadence_updPress (s : State) (g p u : Nat) (f : Press → Press) :
    ((s.updPress g p f).gth g).unitCadence u = (s.gth g).unitCadence u := by
  unfold State.updPress
  rw [gth_updGth, if_pos rfl]
  rfl

/-- The block with the results due before leaf stamp `t` accumulated, at leaf `t` (R147). -/
def Press.opened (pr : Press) (t : Nat) : Press := { (pr.settle t).1 with last := t }

/-- The block with one more accumulate stage on its way (R147). -/
def Press.enqueue (pr : Press) (st : AccStage) : Press := { pr with stages := pr.stages ++ [st] }

/-- The state in which a press leaf's own part runs. -/
def State.openPress (s : State) (g p r t : Nat) : State :=
  let old := (s.gth g).press.at p
  (s.updPress g p fun _ => old.opened t).chargeIf (old.settle t).2 r 0x03 g

theorem runPress_ready {s : State} {pop g p k r t : Nat} {l : BitVec 64}
    {body : Nat → Nat → Nat → Nat → BitVec 64 → State → State} (hr : s.pressReady g p k = some (r, t))
    (hl : ((s.gth g).press.at p).leaf.at k = l) (hp : effectivePop l = pop) :
    s.runPress pop body g p k = body g p r t l (s.openPress g p r t) := by
  unfold State.runPress
  rw [hr]
  dsimp only
  rw [hl, if_neg (not_not_intro hp)]
  rfl

theorem press_openPress (s : State) (g p r t : Nat) :
    ((s.openPress g p r t).gth g).press.at p = ((s.gth g).press.at p).opened t := by
  unfold State.openPress
  rw [gth_chargeIf, press_updPress]

/-- The cadence of a block in a state: whether it is enabled (R38, R147). -/
def State.pressOn (s : State) (g p r : Nat) : Bool := s.cadenceOn r ((s.gth g).unitCadence p)

theorem pressOn_chargeIf (s : State) (g p r : Nat) (b : Bool) (j c h : Nat) :
    (s.chargeIf b j c h).pressOn g p r = s.pressOn g p r := by
  unfold State.pressOn
  rw [cadenceOn_chargeIf, gth_chargeIf]

theorem pressOn_openPress (s : State) (g p r t : Nat) : (s.openPress g p r t).pressOn g p r = s.pressOn g p r := by
  unfold State.openPress
  rw [pressOn_chargeIf]
  unfold State.pressOn
  rw [unitCadence_updPress]
  rfl

/-! ### The accumulate stage (R147) -/

/-- One accumulate stage: nothing in a disabled cadence. -/
def Acc.after (a : Acc) (st : AccStage) : Acc := if st.enabled then mkAcc (accStep st.pop st.cpx a.v st.p) else a

theorem acc_settle (pr : Press) (t : Nat) :
    (pr.settle t).1.acc.work = (pr.stages.filter fun st => st.at_ + 2 ≤ t).foldl Acc.after pr.acc.work :=
  (List.foldl_hom (f := Prod.fst) fun _ _ => rfl).symm

/-- The stage queued last is the last to accumulate. -/
theorem acc_settle_enqueue (pr : Press) (st : AccStage) {t : Nat} (h : st.at_ + 2 ≤ t) :
    ((pr.enqueue st).settle t).1.acc.work = (pr.settle t).1.acc.work.after st := by
  simp only [acc_settle, Press.enqueue, List.filter_append, List.foldl_append, List.filter_cons, decide_eq_true h,
    if_true, List.filter_nil, List.foldl_cons, List.foldl_nil]

/-- ACC of a block in the stage of the next leaf after leaf `t`. -/
def State.accAfter (s : State) (g p t : Nat) : BitVec 88 := (((s.gth g).press.at p).settle (t + 2)).1.acc.work.v

/-- ACC in the stage of the next leaf after leaf `t`, where leaf `t` leaves it. -/
def Press.accNext (pr : Press) (t : Nat) : BitVec 88 := ((pr.settle t).1.settle (t + 2)).1.acc.work.v

/-- A leaf's stage acts in the stage of the next leaf. -/
theorem accAfter_enqueue {s : State} {g p t pop : Nat} {pr : Press} {cpx on : Bool} {v : BitVec 88}
    (h : (s.gth g).press.at p = (pr.opened t).enqueue ⟨t, pop, cpx, v, on⟩) :
    s.accAfter g p t = if on then accStep pop cpx (pr.accNext t) v else pr.accNext t := by
  unfold State.accAfter
  rw [h, acc_settle_enqueue _ _ (Nat.le_refl _)]
  cases on <;> rfl

/-! ### Products (R146) -/

theorem pressOperand_defined (s : State) (r g : Nat) {t : Nat} {w : Stamped} (h : w.at_ / 64 = t / 64) :
    s.pressOperand r g t w = (w.w.d, s.chargeIf (!w.w.ok) r 0x03 g) := by
  unfold State.pressOperand
  rw [defined_of_leaf w.w h]

/-- Outside M2 and M4 a product is of X and Y alone. -/
theorem pressProduct_single {l : BitVec 64} (h : ¬ (PLeaf.mode l = 1 ∨ PLeaf.mode l = 2)) (x y a b c d : Word) :
    pressProduct l x y a b = pressProduct l x y c d := by
  unfold pressProduct
  dsimp only
  split
  · rfl
  · next h1 => exact absurd (.inl h1) h
  · next h2 => exact absurd (.inr h2) h
  · rfl

/-- The operands of a leaf are those that `pput`s of its quire wrote, as far as its mode uses them. -/
structure OperandsDefined (o : PressOps) (l : BitVec 64) (t : Nat) : Prop where
  single : ∀ w ∈ [o.x, o.y], w.at_ / 64 = t / 64
  dual : PLeaf.mode l = 1 ∨ PLeaf.mode l = 2 → ∀ w ∈ [o.xd, o.yd], w.at_ / 64 = t / 64

/-- An accumulate stage is queued, and an enabled one marks that the gathering's state has been written. -/
theorem press_queueStage (s : State) (g p r : Nat) (st : Bool → AccStage) :
    let on := s.cadenceOn r ((s.gth g).unitCadence p)
    let u := if on then s.updGth g fun x => { x with wroteSW := true } else s
    ((u.updPress g p fun pr => { pr with stages := pr.stages ++ [st on] }).gth g).press.at p =
      ((s.gth g).press.at p).enqueue (st (s.pressOn g p r)) := by
  intro on u
  rw [press_updPress]
  have hu : (u.gth g).press = (s.gth g).press := by
    simp only [u]
    split
    · rw [gth_updGth, if_pos rfl]
    · rfl
  rw [hu]
  rfl

/-- A multiply queues the product of its operands' words; the charges of those whose residue fails are not in the block. -/
theorem press_multiply {s : State} {pop g p r t : Nat} {l : BitVec 64} {o : PressOps}
    (ho : (((s.gth g).press.at p).ops.read t).1 = o) (hd : OperandsDefined o l t) :
    ((multiply pop g p r t l s).gth g).press.at p = ((s.gth g).press.at p).enqueue
      ⟨t, pop, PLeaf.mode l == 3, pressProduct l o.x.w.d o.y.w.d o.xd.w.d o.yd.w.d, s.pressOn g p r⟩ := by
  obtain ⟨hs, hdual⟩ := hd
  unfold multiply
  dsimp only
  rw [ho, pressOperand_defined _ _ _ (hs o.x (by simp)), pressOperand_defined _ _ _ (hs o.y (by simp))]
  by_cases hm : PLeaf.mode l = 1 ∨ PLeaf.mode l = 2
  · rw [if_pos hm, pressOperand_defined _ _ _ (hdual hm o.xd (by simp))]
    dsimp only
    rw [if_pos hm, pressOperand_defined _ _ _ (hdual hm o.yd (by simp))]
    dsimp only
    rw [press_queueStage _ g p r fun on => ⟨t, pop, PLeaf.mode l == 3, _, on⟩]
    simp only [pressOn_chargeIf, gth_chargeIf]
  · rw [if_neg hm]
    dsimp only
    rw [if_neg hm]
    dsimp only
    rw [press_queueStage _ g p r fun on => ⟨t, pop, PLeaf.mode l == 3, _, on⟩]
    simp only [pressOn_chargeIf, gth_chargeIf, pressProduct_single hm _ _ 0 0 o.xd.w.d o.yd.w.d]

theorem press_bodyPclr (s : State) (g p r t : Nat) (l : BitVec 64) :
    ((bodyPclr g p r t l s).gth g).press.at p =
      ((s.gth g).press.at p).enqueue ⟨t, 5, false, 0, s.pressOn g p r⟩ :=
  press_queueStage s g p r fun on => ⟨t, 5, false, 0, on⟩

/-! ### ACC as a number (R146) -/

/-- The operations of the accumulate stage: the factors with which it keeps ACC and adds the product. -/
def accFactors : List (Nat × Int × Int) := [(1, 0, 1), (2, 1, 1), (3, 1, -1), (5, 0, 0)]

/-- One value of the accumulator by an operation: the whole of it, or a lane. -/
def wordStep {w : Nat} (pop : Nat) (a p : BitVec w) : BitVec w :=
  match pop with
  | 1 => p
  | 2 => a + p
  | 3 => a - p
  | _ => 0

theorem wordStep_ofInt {w n : Nat} {keep add : Int} (h : (n, keep, add) ∈ accFactors) (a : BitVec w) (v : Int) :
    wordStep n a (BitVec.ofInt w v) = BitVec.ofInt w (keep * a.toNat + add * v) := by
  simp only [accFactors, List.mem_cons, List.not_mem_nil, or_false, Prod.mk.injEq] at h
  obtain ⟨rfl, rfl, rfl⟩ | ⟨rfl, rfl, rfl⟩ | ⟨rfl, rfl, rfl⟩ | ⟨rfl, rfl, rfl⟩ := h
  · simp [wordStep]
  · simp [wordStep, BitVec.ofInt_add]
  · simp [wordStep, BitVec.ofInt_add, BitVec.ofInt_neg, BitVec.sub_eq_add_neg]
  · simp [wordStep]

theorem accStep_whole (a p : BitVec 88) : ∀ n, accStep n false a p = wordStep n a p
  | 0 | 1 | 2 | 3 | _ + 4 => rfl

theorem low_append (a b : BitVec 44) : (a ++ b).extractLsb' 0 44 = b := BitVec.extractLsb'_append_eq_right

theorem high_append (a b : BitVec 44) : (a ++ b).extractLsb' 44 44 = a := BitVec.extractLsb'_append_eq_left

theorem accStep_low (a p : BitVec 88) :
    ∀ n, (accStep n true a p).extractLsb' 0 44 = wordStep n (a.extractLsb' 0 44) (p.extractLsb' 0 44)
  | 0 | 1 | _ + 4 => rfl
  | 2 | 3 => low_append ..

theorem accStep_high (a p : BitVec 88) :
    ∀ n, (accStep n true a p).extractLsb' 44 44 = wordStep n (a.extractLsb' 44 44) (p.extractLsb' 44 44)
  | 0 | _ + 4 => BitVec.extractLsb'_zero
  | 1 => rfl
  | 2 | 3 => high_append ..

/-- ACC after an operation on the product `re`, or in CPX on the lanes' products `re` and `im`. -/
def AccNumber (mode : Nat) (keep add : Int) (a : BitVec 88) (re im : Int) (b : BitVec 88) : Prop :=
  if mode = 3 then
    b.extractLsb' 0 44 = BitVec.ofInt 44 (keep * (a.extractLsb' 0 44).toNat + add * re) ∧
    b.extractLsb' 44 44 = BitVec.ofInt 44 (keep * (a.extractLsb' 44 44).toNat + add * im)
  else b = BitVec.ofInt 88 (keep * a.toNat + add * re)

/-- The pattern of a product. -/
def productPattern (cpx : Bool) (re im : Int) : BitVec 88 := if cpx then lanes88 re im else patt 88 re

theorem accStep_number {n : Nat} {keep add : Int} (h : (n, keep, add) ∈ accFactors) (mode : Nat) (a : BitVec 88) (re im : Int) :
    AccNumber mode keep add a re im (accStep n (mode == 3) a (productPattern (mode == 3) re im)) := by
  have hlow : (productPattern true re im).extractLsb' 0 44 = BitVec.ofInt 44 re := low_append ..
  have hhigh : (productPattern true re im).extractLsb' 44 44 = BitVec.ofInt 44 im := high_append ..
  have hwhole : productPattern false re im = BitVec.ofInt 88 re := rfl
  unfold AccNumber
  split
  · next hm =>
    rw [beq_iff_eq.mpr hm, accStep_low, accStep_high, hlow, hhigh, wordStep_ofInt h, wordStep_ofInt h]
    exact ⟨rfl, rfl⟩
  · next hm => rw [beq_eq_false_iff_ne.mpr hm, accStep_whole, hwhole, wordStep_ofInt h]

/-- The product of a leaf by mode, in CPX its real lane (R146). -/
def productRe (mode : Nat) (sx sy : Bool) (x y xd yd : Word) : Int :=
  let lo (d : Word) (b : Bool) := halfInt b 20 d.toNat
  let hi (d : Word) (b : Bool) := halfInt b 20 (d.toNat / 2 ^ 20)
  let all (d : Word) (b : Bool) := halfInt b 40 d.toNat
  match mode with
  | 0 => all x sx * all y sy
  | 1 => all x sx * lo y sy + all xd sx * lo yd sy
  | 2 => lo x sx * lo y sy + hi x sx * hi y sy + lo xd sx * lo yd sy + hi xd sx * hi yd sy
  | _ => lo x sx * lo y sy - hi x sx * hi y sy

/-- The imaginary lane of a CPX product (R146). -/
def productIm (sx sy : Bool) (x y : Word) : Int :=
  let lo (d : Word) (b : Bool) := halfInt b 20 d.toNat
  let hi (d : Word) (b : Bool) := halfInt b 20 (d.toNat / 2 ^ 20)
  lo x sx * hi y sy + hi x sx * lo y sy

theorem halfInt_lo20 (b : Bool) (d : Word) : halfInt b 20 (lo20 d) = halfInt b 20 d.toNat := by
  unfold halfInt lo20
  rw [Nat.mod_mod]

theorem pressProduct_eq (l : BitVec 64) (x y xd yd : Word) :
    pressProduct l x y xd yd = productPattern (PLeaf.mode l == 3)
      (productRe (PLeaf.mode l) (PLeaf.sx l) (PLeaf.sy l) x y xd yd) (productIm (PLeaf.sx l) (PLeaf.sy l) x y) := by
  have hmode : PLeaf.mode l < 4 := by
    rw [PLeaf.mode_eq]
    exact Nat.mod_lt _ (by decide)
  unfold pressProduct
  obtain h | h | h | h : PLeaf.mode l = 0 ∨ PLeaf.mode l = 1 ∨ PLeaf.mode l = 2 ∨ PLeaf.mode l = 3 := by omega
  · rw [h]
    rfl
  · rw [h]
    simp only [m2Half, halfInt_lo20]
    rfl
  · rw [h]
    simp only [m4Half, halfInt_lo20, ← add_assoc]
    rfl
  · rw [h]
    simp only [cpxProduct, halfInt_lo20]
    rfl

/-! ### Extraction (R147 to R149) -/

/-- The multiple of 2^s nearest to a number, the even one of two. -/
theorem roundShift_nearest (v : Int) (s : Nat) :
    2 * |v - roundShift v s * 2 ^ s| ≤ 2 ^ s ∧ (2 * |v - roundShift v s * 2 ^ s| = 2 ^ s → 2 ∣ roundShift v s) := by
  cases s with
  | zero => simp [roundShift]
  | succ n =>
    have hpos : (0 : Int) < 2 ^ n := by positivity
    have hr0 := Int.emod_nonneg v (b := 2 ^ (n + 1)) (by positivity)
    have hr1 := Int.emod_lt_of_pos v (b := 2 ^ (n + 1)) (by positivity)
    have hdiv := Int.emod_add_mul_ediv v (2 ^ (n + 1))
    have hround : roundShift v (n + 1) = if 2 ^ n < v % 2 ^ (n + 1) ∨ (v % 2 ^ (n + 1) = 2 ^ n ∧ v / 2 ^ (n + 1) % 2 ≠ 0)
        then v / 2 ^ (n + 1) + 1 else v / 2 ^ (n + 1) := by
      unfold roundShift
      simp only [Nat.add_one_ne_zero, if_false, Nat.add_sub_cancel]
      rw [show v - v / 2 ^ (n + 1) * 2 ^ (n + 1) = v % 2 ^ (n + 1) by rw [Int.emod_def, mul_comm]]
    rw [hround]
    have htwo : (2 : Int) ^ (n + 1) = 2 * 2 ^ n := by ring
    generalize v % 2 ^ (n + 1) = r at *
    generalize v / 2 ^ (n + 1) = q at *
    split
    · next hup =>
      have hv : v - (q + 1) * 2 ^ (n + 1) = r - 2 ^ (n + 1) := by linarith
      rw [hv, abs_of_neg (by omega)]
      omega
    · next hdown =>
      have hv : v - q * 2 ^ (n + 1) = r := by linarith
      rw [hv, abs_of_nonneg hr0]
      omega

theorem toNat_resCode (n : Nat) : (resCode n).toNat = n % 3 := by
  unfold resCode
  rw [BitVec.toNat_ofNat]
  omega

theorem resCode_ok (r : BitVec 2) (n : Nat) : (r == resCode n) = decide (r.toNat = n % 3) := by
  rw [beq_eq_decide, decide_eq_decide, ← toNat_resCode, BitVec.toNat_inj]

theorem Lag.read_write_succ {α : Type} (l : Lag α) (t : Nat) (y : α) : ((l.write t y).read (t + 1)).1 = y := by
  have hread : ∀ m : Lag α, m.newAt = t → (m.read (t + 1)).1 = m.new := fun m h => by
    unfold Lag.read
    rw [if_pos (by omega)]
  unfold Lag.write
  split
  · next h => exact hread _ h
  · exact hread _ rfl

/-- The number that `pext` rounds: the accumulator, or in CPX a lane of it. -/
def extracted (cpx lane signed : Bool) (a : BitVec 88) : Int :=
  let half := a.extractLsb' (if lane then 44 else 0) 44
  if cpx then (if signed then half.toInt else half.toNat) else if signed then a.toInt else a.toNat

theorem extractInt_eq (cpx lane signed : Bool) (a : BitVec 88) (s : Nat) :
    extractInt cpx lane signed a s = roundShift (extracted cpx lane signed a) s := by
  have hzero : ∀ h : BitVec 44, (h.setWidth 88).toNat = h.toNat := fun _ => BitVec.toNat_setWidth_of_le (by decide)
  have hsign : ∀ h : BitVec 44, (h.signExtend 88).toInt = h.toInt := fun _ => BitVec.toInt_signExtend_of_le (by decide)
  unfold extractInt extracted
  cases cpx with
  | false => rfl
  | true => cases signed <;> cases lane <;> simp [hzero, hsign]

/-- The residues that an extraction checks, and whether they hold (R149). -/
def extractOk (cpx lane : Bool) (a : Acc) : Bool :=
  let okLow := decide (a.rl.toNat = (a.v.extractLsb' 0 44).toNat % 3)
  let okHigh := decide (a.rh.toNat = (a.v.extractLsb' 44 44).toNat % 3)
  if cpx then (if lane then okHigh else okLow) else okLow && okHigh

theorem result_bodyPext (g p r t : Nat) (l : BitVec 64) (s : State) :
    let a := ((s.gth g).press.at p).acc.work
    let cpx := PLeaf.mode l == 3
    let d : Word := BitVec.ofInt 40 (roundShift (extracted cpx (PLeaf.lane l) (PLeaf.sx l || PLeaf.sy l) a.v) (PLeaf.shift l))
    (((((bodyPext g p r t l s).gth g).press.at p).rw.at (PLeaf.rd l)).read (t + 1)).1 =
      if extractOk cpx (PLeaf.lane l) a then gen d else ⟨d, badRes⟩ := by
  intro a cpx d
  unfold bodyPext
  dsimp only
  rw [press_updPress, Sparse.at_upd_self, Lag.read_write_succ, extractInt_eq, resCode_ok, resCode_ok]
  rfl

/-! ### The commands -/

/-- ACC in the stage of the leaf after leaf `t` is `b`: by an operation's factors from what leaf `t` leaves it and from
the product of the operands, or in a disabled cadence as it is (R147). -/
def State.Accumulates (s : State) (g p r t mode : Nat) (l : BitVec 64) (o : PressOps) (keep add : Int) (b : BitVec 88) : Prop :=
  let acc := ((s.gth g).press.at p).accNext t
  if s.pressOn g p r = false then b = acc
  else AccNumber mode keep add acc (productRe mode (PLeaf.sx l) (PLeaf.sy l) o.x.w.d o.y.w.d o.xd.w.d o.yd.w.d)
    (productIm (PLeaf.sx l) (PLeaf.sy l) o.x.w.d o.y.w.d) b

section
variable {s : State} {g p k r t : Nat} {l : BitVec 64} (hr : s.pressReady g p k = some (r, t))
  (hl : ((s.gth g).press.at p).leaf.at k = l)
include hr hl

/-- A leaf that queues the stage of its operation accumulates by it. -/
theorem accumulates_of_stage {n mode : Nat} {keep add : Int} (hf : (n, keep, add) ∈ accFactors) (hp : effectivePop l = n)
    (hm : PLeaf.mode l = mode) (o : PressOps)
    {body : Nat → Nat → Nat → Nat → BitVec 64 → State → State} {cpx : Bool} {v : BitVec 88}
    (hbody : ((body g p r t l (s.openPress g p r t)).gth g).press.at p =
      (((s.openPress g p r t).gth g).press.at p).enqueue ⟨t, n, cpx, v, (s.openPress g p r t).pressOn g p r⟩)
    (hstep : ∀ a, accStep n cpx a v = accStep n (PLeaf.mode l == 3) a
      (pressProduct l o.x.w.d o.y.w.d o.xd.w.d o.yd.w.d)) :
    s.Accumulates g p r t mode l o keep add ((s.runPress n body g p k).accAfter g p t) := by
  rw [press_openPress, pressOn_openPress, ← runPress_ready (body := body) hr hl hp] at hbody
  rw [accAfter_enqueue hbody, hstep, pressProduct_eq, hm]
  unfold State.Accumulates
  extract_lets acc
  cases s.pressOn g p r with
  | false => rfl
  | true => exact accStep_number hf ..

/-- `pmul`, `pmac` and `pmsu`. -/
theorem accumulates_multiply {n mode : Nat} {keep add : Int} (hf : (n, keep, add) ∈ accFactors) (hp : effectivePop l = n)
    (hm : PLeaf.mode l = mode) {o : PressOps} (ho : (((s.gth g).press.at p).ops.read t).1 = o)
    (hd : OperandsDefined o l t) :
    s.Accumulates g p r t mode l o keep add ((s.runPress n (multiply n) g p k).accAfter g p t) := by
  refine accumulates_of_stage hr hl hf hp hm o (press_multiply ?_ hd) fun _ => rfl
  rw [press_openPress]
  exact ho

theorem accumulates_pclr {mode : Nat} (hp : effectivePop l = 5) (hm : PLeaf.mode l = mode) (o : PressOps) :
    s.Accumulates g p r t mode l o 0 0 ((s.runPress 5 bodyPclr g p k).accAfter g p t) :=
  accumulates_of_stage hr hl (by simp [accFactors]) hp hm o (press_bodyPclr ..) fun _ => rfl

/-- `pnop` only lets the stages that are due accumulate. -/
theorem press_pnop (hp : effectivePop l = 0) :
    ((s.runPress 0 bodyPnop g p k).gth g).press.at p = ((s.gth g).press.at p).opened t := by
  rw [runPress_ready hr hl hp]
  exact press_openPress ..

/-- The result word of `pext` (R147 to R149). -/
theorem result_pext (hp : effectivePop l = 4) :
    let a := (((s.gth g).press.at p).settle t).1.acc.work
    let cpx := PLeaf.mode l == 3
    let d : Word := BitVec.ofInt 40 (roundShift (extracted cpx (PLeaf.lane l) (PLeaf.sx l || PLeaf.sy l) a.v) (PLeaf.shift l))
    (((((s.runPress 4 bodyPext g p k).gth g).press.at p).rw.at (PLeaf.rd l)).read (t + 1)).1 =
      if extractOk cpx (PLeaf.lane l) a then gen d else ⟨d, badRes⟩ := by
  have h := result_bodyPext g p r t l (s.openPress g p r t)
  rw [press_openPress, ← runPress_ready (body := bodyPext) hr hl hp] at h
  exact h

end

theorem residue_gen (good : Bool) (d : Word) :
    let w : RWord := if good then gen d else ⟨d, badRes⟩
    w.d = d ∧ w.r = if good then resCode w.d.toNat else 3 := by
  cases good <;> exact ⟨rfl, rfl⟩

/-- Settles O20: each leaf by the stage that it queues, `pext` by the word that it rounds. -/
theorem pressLeaves : Obligations.PressLeaves := by
  refine ⟨fun ga p k s r t l x y xd yd => ?_, fun ga p k s r t l => ?_⟩
  · intro g old o mode hr hl hw hsingle hdual lo hi all sx sy re im acc0 on accAfter
    simp only [Prod.mk.injEq] at hw
    obtain ⟨rfl, rfl, rfl, rfl⟩ := hw
    have hm : PLeaf.mode l = mode := PLeaf.mode_eq l
    have hd : OperandsDefined o l t := ⟨hsingle, hm ▸ hdual⟩
    refine ⟨fun i n keep add hi hn => ?_, fun hn => ⟨_, rfl, ?_⟩⟩
    · suffices hacc : ∃ u, exec i s = .next u ∧ s.Accumulates g p r t mode l o keep add (u.accAfter g p t) by
        obtain ⟨u, hu, h⟩ := hacc
        exact ⟨u, hu, h⟩
      simp only [List.mem_cons, List.not_mem_nil, or_false, Prod.mk.injEq] at hi
      obtain ⟨rfl, rfl, rfl, rfl⟩ | ⟨rfl, rfl, rfl, rfl⟩ | ⟨rfl, rfl, rfl, rfl⟩ | ⟨rfl, rfl, rfl, rfl⟩ := hi
      · exact ⟨_, rfl, accumulates_multiply hr hl (by simp [accFactors]) hn hm rfl hd⟩
      · exact ⟨_, rfl, accumulates_multiply hr hl (by simp [accFactors]) hn hm rfl hd⟩
      · exact ⟨_, rfl, accumulates_multiply hr hl (by simp [accFactors]) hn hm rfl hd⟩
      · exact ⟨_, rfl, accumulates_pclr hr hl hn hm o⟩
    · have hpress : ((s.runPress 0 bodyPnop g p k).gth g).press.at p = old.opened t := press_pnop hr hl hn
      exact ⟨(congrArg (fun pr : Press => (pr.settle (t + 2)).1.acc.work.v) hpress).trans rfl,
        (congrArg Press.rw hpress).trans rfl, (congrArg Press.ops hpress).trans rfl⟩
  · intro g old hr hl hp a cpx lane signed half v sh okLow okHigh
    have hres := result_pext hr hl hp
    have hcpx : (PLeaf.mode l == 3) = cpx := by rw [PLeaf.mode_eq]; rfl
    simp only [hcpx, PLeaf.shift_eq, PLeaf.rd_eq] at hres
    obtain ⟨hnear, heven⟩ := roundShift_nearest v sh
    refine ⟨_, rfl, roundShift v sh, hnear, heven, ?_⟩
    extract_lets w
    have hw : w = if extractOk cpx lane a then gen (BitVec.ofInt 40 (roundShift v sh))
      else ⟨BitVec.ofInt 40 (roundShift v sh), badRes⟩ := hres
    rw [hw]
    exact residue_gen ..

end Sys2Proof.Machine
end

section
/-!
Proofs of the gatherings family, 2: a pop that an empty queue refuses re-evaluates the queue's condition (R140, R142).
-/
namespace Sys2Proof.Machine

/-! ### The request that a station acts on -/

/-- The request of an outcome that is acted on, and the state in which it is. -/
def Taken.acted : Taken → Option (Request × State)
  | .done _ => none
  | .act q s => some (q, s)

theorem Taken.eq_act {x : Taken} {a : Request × State} (h : x.acted = some a) : x = .act a.1 a.2 := by
  cases x with
  | done s => cases h
  | act q s => cases h; rfl

/-! ### The counterexample -/

/-- A booted device whose queue 0 of gathering 0 is an OUT queue of one entry that holds no word. Its condition is "at least
HIGH words" (EVCOND 2) with HIGH at 0, and has not been evaluated yet. -/
def emptyOutQueue : State :=
  { ((State.reset.putN F.hubBoot_state 0 2).putN F.gthQdesc_size 0 1).setF F.gthQdesc_dir 0 |>.putN F.gthQdesc_evcond 0 2 with
    sys := { powerLost := false, tclk := true } }

/-- A request from client 0 of station 5 to pop one word of that queue waits in station 0. -/
def popOfEmpty : State :=
  emptyOutQueue.updStation 0 fun x => { x with ej := (mkPacket 1 0 0 5 0 false 3 0 0 0 0 [0, 1]).map fun f => ⟨0, 0, f⟩ }

/-- The request and the state in which station 0 serves it. -/
def popTaken : Request × State := ((popOfEmpty.serve 0 3).acted).getD (⟨0, [], 0, 0⟩, popOfEmpty)

theorem serve_popOfEmpty : popOfEmpty.serve 0 3 = .act popTaken.1 popTaken.2 := Taken.eq_act (by decide +kernel)

/-- Refutes O43: the pop of an empty queue, answered with STAT 3, does not leave the queue as it was: the block evaluates the
conditions of its queues after every grant of the ring port (R142), and this one becomes true. -/
theorem not_ringFolioRequests : ¬ Obligations.RingFolioRequests := by
  intro h
  obtain ⟨-, hpop, -⟩ := h 0 popOfEmpty
  obtain ⟨-, hopen⟩ := hpop _ _ serve_popOfEmpty
  obtain ⟨hempty, -⟩ := hopen (by decide +kernel) (by decide +kernel) (by decide +kernel) (by decide +kernel)
  obtain ⟨t, ht, -, hsame⟩ := hempty (by decide +kernel)
  obtain rfl : popOfEmpty.serveQpop 0 = t := Host.Outcome.next.inj ht
  have hcond := congrArg (fun m => (m.at 0).cond) (hsame 0).queue
  exact absurd hcond (by decide +kernel)

end Sys2Proof.Machine
end

section
/-!
Proofs of the collator family, 1: the Collator's tables after an update (R250, R255 to R260).
-/
namespace Sys2Proof.Machine

/-! ### The tables after `settle` and `raise` -/

theorem col_refreshStream (s : State) (st : Nat) : (s.refreshStream st).col = s.col := by
  simp only [State.refreshStream, State.putN_col]

/-- What the streams report is in registers alone. -/
theorem col_settle (s : State) : s.settle.col = s.refreshReady.col :=
  foldl_keeps State.col col_refreshStream _ _

@[simp] theorem items_settle (s : State) : s.settle.col.items = s.col.items := by rw [col_settle]; rfl

@[simp] theorem delays_settle (s : State) : s.settle.col.delays = s.col.delays := by rw [col_settle]; rfl

/-- An event source changes the work items and the ready lists, and no other table. -/
theorem col_raise (s : State) (m : Nat) : ∃ items nextId ready,
    (s.raise m).col = { s.col with items := items, nextId := nextId, ready := ready } := by
  unfold State.raise
  extract_lets z
  split
  · exact ⟨_, _, _, rfl⟩
  split <;> exact ⟨_, _, _, rfl⟩

@[simp] theorem delays_raise (s : State) (m : Nat) : (s.raise m).col.delays = s.col.delays := by
  obtain ⟨_, _, _, h⟩ := col_raise s m
  rw [h]

@[simp] theorem waiters_raise (s : State) (m : Nat) : (s.raise m).col.waiters = s.col.waiters := by
  obtain ⟨_, _, _, h⟩ := col_raise s m
  rw [h]

/-! ### One item by its number -/

theorem item?_of_items {s t : State} (h : t.col.items = s.col.items) (id : Nat) : t.item? id = s.item? id := by
  unfold State.item?
  rw [h]

@[simp] theorem item?_settle (s : State) (id : Nat) : s.settle.item? id = s.item? id := item?_of_items (items_settle s) id

theorem id_of_item? {s : State} {id : Nat} {x : Item} (h : s.item? id = some x) : x.id = id :=
  beq_iff_eq.mp (List.find?_some (p := fun x : Item => x.id == id) h)

/-- The item of a number after the items of that number, or of another, are changed. -/
theorem item?_updItem (s : State) (id j : Nat) {f : Item → Item} (hf : ∀ x, (f x).id = x.id) :
    (s.updItem id f).item? j = if j = id then (s.item? id).map f else s.item? j := by
  have hid : ∀ x : Item, (if x.id == id then f x else x).id = x.id := fun x => by split <;> simp [hf]
  unfold State.updItem State.mapItems State.item?
  dsimp only
  rw [List.find?_map, show ((fun x : Item => x.id == j) ∘ fun x => if x.id == id then f x else x) = fun x => x.id == j from
    funext fun x => by simp only [Function.comp, hid]]
  split
  · next e =>
    subst e
    cases h : s.col.items.find? fun x => x.id == j with
    | none => rfl
    | some x => simp only [Option.map_some, List.find?_some h, if_true]
  · next hne =>
    cases h : s.col.items.find? fun x => x.id == j with
    | none => rfl
    | some x =>
      have hx : x.id = j := id_of_item? (s := s) h
      simp [hx, hne]

theorem item?_updItem_self {s : State} {id : Nat} {x : Item} {f : Item → Item} (h : s.item? id = some x)
    (hf : ∀ x, (f x).id = x.id) : (s.updItem id f).item? id = some (f x) := by
  rw [item?_updItem s id id hf, if_pos rfl, h]
  rfl

theorem item?_updItem_ne {s : State} {id j : Nat} {f : Item → Item} (h : j ≠ id) (hf : ∀ x, (f x).id = x.id) :
    (s.updItem id f).item? j = s.item? j := by
  rw [item?_updItem s id j hf, if_neg h]

theorem item?_rejoin (s : State) (id : Nat) :
    (s.rejoin id).item? id = (s.item? id).map fun x => { x.setRedo with pos := .queued } := by
  unfold State.rejoin
  rw [item?_settle, item?_updItem, if_pos rfl]
  exact fun _ => rfl

@[simp] theorem delays_rejoin (s : State) (id : Nat) : (s.rejoin id).col.delays = s.col.delays := delays_settle _

/-! ### Delay lists -/

/-- The entries of a delay list: those of the calendar, then the tail. -/
def DelayList.entries (d : DelayList) : List DelayEntry := d.calendar ++ d.tail

/-- A delay list without the entries of an item or a timer. -/
def DelayList.without (d : DelayList) (w : DelayWhat) : DelayList :=
  { d with calendar := d.calendar.filter (fun e => e.what != w), tail := d.tail.filter (fun e => e.what != w) }

theorem DelayList.what_of_mem_without {d : DelayList} {w : DelayWhat} {e : DelayEntry} (h : e ∈ (d.without w).entries) :
    e.what ≠ w := by
  simp only [DelayList.entries, DelayList.without, List.mem_append, List.mem_filter, bne_iff_ne] at h
  exact h.elim And.right And.right

theorem delayList_of_delays {s t : State} (h : t.col.delays = s.col.delays) (l : Nat) : t.delayList l = s.delayList l := by
  unfold State.delayList
  rw [h]

theorem delayList_updDelay (s : State) (l k : Nat) (f : DelayList → DelayList) :
    (s.updDelay l f).delayList k = if l = k then f (s.delayList l) else s.delayList k := Sparse.at_put ..

@[simp] theorem items_updDelay (s : State) (l : Nat) (f : DelayList → DelayList) :
    (s.updDelay l f).col.items = s.col.items := rfl

theorem removeDelay_eq (s : State) (w : DelayWhat) :
    s.removeDelay w = (List.range 4).foldl (fun s l => s.updDelay l (·.without w)) s := rfl

@[simp] theorem items_removeDelay (s : State) (w : DelayWhat) : (s.removeDelay w).col.items = s.col.items :=
  foldl_keeps (fun s => s.col.items) (fun s l => items_updDelay s l _) _ _

theorem delayList_foldl_without (w : DelayWhat) (k : Nat) : ∀ (ls : List Nat) (s : State), ls.Nodup →
    (ls.foldl (fun s l => s.updDelay l (·.without w)) s).delayList k =
      if k ∈ ls then (s.delayList k).without w else s.delayList k
  | [], _, _ => rfl
  | l :: ls, s, h => by
    obtain ⟨hl, hls⟩ := List.nodup_cons.mp h
    rw [List.foldl_cons, delayList_foldl_without w k ls _ hls, delayList_updDelay]
    by_cases hk : l = k
    · subst hk
      simp [hl]
    · simp [hk, Ne.symm hk]

theorem delayList_removeDelay (s : State) (w : DelayWhat) {k : Nat} (hk : k < 4) :
    (s.removeDelay w).delayList k = (s.delayList k).without w := by
  rw [removeDelay_eq, delayList_foldl_without w k _ s List.nodup_range, if_pos (List.mem_range.mpr hk)]

/-- No delay list holds an entry of an item or a timer. -/
def State.Undelayed (s : State) (w : DelayWhat) : Prop := ∀ k < 4, ∀ e ∈ (s.delayList k).entries, e.what ≠ w

theorem undelayed_removeDelay (s : State) (w : DelayWhat) : (s.removeDelay w).Undelayed w := fun k hk e he => by
  rw [delayList_removeDelay s w hk] at he
  exact DelayList.what_of_mem_without he

theorem State.Undelayed.of_delays {s t : State} {w : DelayWhat} (h : s.Undelayed w) (hd : t.col.delays = s.col.delays) :
    t.Undelayed w := fun k hk e he => by
  rw [delayList_of_delays hd] at he
  exact h k hk e he

/-- The current tick of a list says nothing of its entries. -/
theorem State.Undelayed.setNow {s : State} {w : DelayWhat} (h : s.Undelayed w) (l n : Nat) :
    (s.updDelay l fun d => { d with now := max d.now n }).Undelayed w := fun k hk e he => by
  rw [delayList_updDelay] at he
  split at he
  · next hl =>
    subst hl
    exact h l hk e he
  · exact h k hk e he

theorem le_now_updDelay (s : State) (l n : Nat) :
    n ≤ ((s.updDelay l fun d => { d with now := max d.now n }).delayList l).now := by
  rw [delayList_updDelay, if_pos rfl]
  exact le_max_right _ _

theorem mem_insertDue {e x : DelayEntry} {es : List DelayEntry} : x ∈ insertDue e es ↔ x = e ∨ x ∈ es := by
  induction es with
  | nil => simp [insertDue]
  | cons y ys ih =>
    unfold insertDue
    split
    · rw [List.mem_cons, ih, List.mem_cons, or_left_comm]
    · rw [List.mem_cons]

theorem mem_foldl_insertDue {x : DelayEntry} (es : List DelayEntry) : ∀ c : List DelayEntry,
    x ∈ es.foldl (fun c e => insertDue e c) c ↔ x ∈ es ∨ x ∈ c := by
  induction es with
  | nil => simp
  | cons e es ih =>
    intro c
    rw [List.foldl_cons, ih, mem_insertDue, List.mem_cons, or_left_comm, or_assoc]

theorem mem_insertDelay (s : State) (l : Nat) (e : DelayEntry) : e ∈ ((s.insertDelay l e).delayList l).entries := by
  unfold State.insertDelay
  extract_lets now
  rw [delayList_updDelay, if_pos rfl]
  split
  · exact List.mem_append_left _ (mem_insertDue.mpr (.inl rfl))
  · exact List.mem_append_right _ (mem_insertDue.mpr (.inl rfl))

theorem delayFull_frame {s t : State} (h : State.Only [.reg .colTim] s t) (l : Nat) : t.delayFull l = s.delayFull l := by
  unfold State.delayFull
  rw [h.getN F.colDlCfg_cap l (by decide), delayList_of_delays (congrArg CollState.delays (h.same .collator (by decide)))]

theorem tickNow_frame {s t : State} (h : State.Only [.reg .colTim] s t) (l : Nat) : t.tickNow l = s.tickNow l := by
  unfold State.tickNow
  rw [h.getN F.colDlCfg_tick l (by decide), h.reg_eq .timSpine 0 (by decide),
    delayList_of_delays (congrArg CollState.delays (h.same .collator (by decide)))]

/-! ### Timers (R259, R260) -/

/-- Where an insertion of timer `n` at tick `due` leaves it: in list `l`, or waiting with MISS set where the list was
full. -/
def TimerInserted (full : Bool) (n l due : Nat) (t : State) : Prop :=
  if full then (n, due) ∈ t.col.missed ∧ t.bitF F.colTim_miss n = true
  else ⟨due, .timer n⟩ ∈ (t.delayList l).entries ∧ ∀ m ∈ t.col.missed, m.1 ≠ n

theorem insertTimer_inserted (s : State) (n due : Nat) :
    TimerInserted (s.delayFull (s.getN F.colTim_list n)) n (s.getN F.colTim_list n) due (s.insertTimer n due) := by
  unfold TimerInserted State.insertTimer
  extract_lets l _ y _
  have hfull : y.delayFull l = s.delayFull l := rfl
  rw [hfull]
  split
  · exact ⟨List.mem_append_right _ List.mem_cons_self, State.bitF_setF_self _ F.colTim_miss n (by decide)⟩
  · refine ⟨mem_insertDelay y l _, fun m hm => ?_⟩
    exact bne_iff_ne.mp (List.mem_filter.mp (show m ∈ s.col.missed.filter fun m => m.1 != n from hm)).2

/-- An insertion changes no field of COL_TIM but MISS. -/
theorem getF_insertTimer (s : State) (n due : Nat) {w : Nat} (f : Field w) (i : Nat) (hm : F.colTim_miss.apart f = true)
    (hf : Part.reg f.reg ∉ [.collator, .reg .colDlCfg]) : (s.insertTimer n due).getF f i = s.getF f i := by
  unfold State.insertTimer
  extract_lets l _ y _
  split
  · exact State.getF_putF_apart _ F.colTim_miss f n i 1#1 hm
  · exact (insertDelay_only l _ (.refl _ y) (sub_self _)).getF f i hf

end Sys2Proof.Machine
end

section
/-!
Proofs of the collator family, 2: the delay lists and timers (R255, R257 to R260).
-/
namespace Sys2Proof.Machine

/-! ### A stored field that a write changes (R496) -/

theorem idleWrite_stored {w : Nat} (s : State) (f : Field w) (i : Nat) (v : BitVec 64)
    (h : f.reg.rwMask.extractLsb' f.lo w = BitVec.allOnes w) (hne : s.getF f i ≠ v.extractLsb' f.lo w) :
    s.idleWrite f.reg i v = false := by
  have hmask : v &&& f.reg.rwMask ≠ s.reg f.reg i &&& f.reg.rwMask := fun e => hne <| by
    have he := congrArg (BitVec.extractLsb' f.lo w) e
    rw [BitVec.extractLsb'_and, BitVec.extractLsb'_and, h, BitVec.and_allOnes, BitVec.and_allOnes] at he
    exact he.symm
  unfold State.idleWrite
  rw [beq_false_of_ne hmask, Bool.false_and]

/-! ### Entries of a calendar (R255, R257, R258) -/

section
variable {l : Fin 4} {s : State} {e : DelayEntry} {rest : List DelayEntry} (hcal : (s.delayList l).calendar = e :: rest)
include hcal

theorem delayEntryDue_item {id : Nat} (hw : e.what = .item id) :
    exec (.delayEntryDue l) s =
      .next (((s.removeDelay (.item id)).updDelay l fun d => { d with now := max d.now e.due }).rejoin id) := by
  change execDelayEntryDue l s = _
  unfold execDelayEntryDue
  rw [hcal]
  simp only [List.head?_cons, hw]

theorem delayEntryDue_timer {n : Nat} (hw : e.what = .timer n) : exec (.delayEntryDue l) s = .next s := by
  change execDelayEntryDue l s = _
  unfold execDelayEntryDue
  rw [hcal]
  simp only [List.head?_cons, hw]

theorem delayEntryDue_rejoins {id : Nat} (hw : e.what = .item id) : Completes (.delayEntryDue l) s fun t =>
    t.item? id = (s.item? id).map (fun x => { x.setRedo with pos := .queued }) ∧ e.due ≤ (t.delayList l).now ∧
      t.Undelayed (.item id) := by
  refine ⟨_, delayEntryDue_item hcal hw, ?_, ?_, ?_⟩
  · rw [item?_rejoin, item?_of_items (items_updDelay ..), item?_of_items (items_removeDelay ..)]
  · rw [delayList_of_delays (delays_rejoin ..)]
    exact le_now_updDelay ..
  · exact ((undelayed_removeDelay s _).setNow l e.due).of_delays (delays_rejoin ..)

end

theorem calendarWrap_moves (l : Fin 4) (s : State) : Completes (.calendarWrap l) s fun t =>
    let now := (s.tickNow l + 4095) / 4096 * 4096
    (t.delayList l).now = now ∧ (∀ e ∈ (s.delayList l).calendar, e ∈ (t.delayList l).calendar) ∧
    ∀ e ∈ (s.delayList l).tail,
      if e.due < now + 4096 then e ∈ (t.delayList l).calendar else e ∈ (t.delayList l).tail := by
  refine ⟨_, rfl, ?_⟩
  dsimp only
  rw [delayList_updDelay, if_pos rfl]
  refine ⟨rfl, fun e he => (mem_foldl_insertDue _ _).mpr (.inr he), fun e he => ?_⟩
  split
  · next hdue => exact (mem_foldl_insertDue _ _).mpr (.inl (List.mem_filter.mpr ⟨he, decide_eq_true hdue⟩))
  · next hlater => exact List.mem_filter.mpr ⟨he, by rw [decide_eq_false hlater]; rfl⟩

/-! ### A timer that falls due (R258, R260) -/

/-- A timer's entry taken off its list and its source raised. -/
def State.timerRaised (s : State) (n l due : Nat) : State :=
  ((s.removeDelay (.timer n)).updDelay l fun d => { d with now := max d.now due }).raise (704 + n)

section
variable (s : State) (n l due : Nat)

theorem timerRaised_only : State.Only [.collator, .reg .colDlCfg, .reg .colEv] s (s.timerRaised n l due) :=
  raise_only _ (updDelay_only _ _ (removeDelay_only _ (.refl _ s) (by decide)) (by decide)) (by decide)

theorem raises_timerRaised : (s.timerRaised n l due).getN F.colEv_raises (704 + n) =
    min (s.getN F.colEv_raises (704 + n) + 1) (2 ^ 24 - 1) := by
  have htaken : State.Only [.collator, .reg .colDlCfg] s
      ((s.removeDelay (.timer n)).updDelay l fun d => { d with now := max d.now due }) :=
    updDelay_only _ _ (removeDelay_only _ (.refl _ s) (by decide)) (by decide)
  rw [State.timerRaised, raises_raise_self, htaken.getN F.colEv_raises _ (by decide)]

theorem undelayed_timerRaised : (s.timerRaised n l due).Undelayed (.timer n) :=
  ((undelayed_removeDelay s _).setNow l due).of_delays (delays_raise ..)

end

section
variable {n : TimerId} {s : State} {l due : Nat} (h : s.timerEntry n = some (l, due))
include h

theorem timerDue_next : exec (.timerDue n) s = .next (
    if s.bitF F.colTim_periodic n then (s.timerRaised n l due).insertTimer n (due + s.getN F.colTim_interval n)
    else (s.timerRaised n l due).clrF F.colTim_en n) := by
  have hkept := timerRaised_only s n l due
  rw [← hkept.bitF F.colTim_periodic n (by decide), ← hkept.getN F.colTim_interval n (by decide)]
  change execTimerDue n s = _
  unfold execTimerDue
  rw [h]
  rfl

theorem timerDue_periodic (hp : s.bitF F.colTim_periodic n = true) : Completes (.timerDue n) s fun t =>
    t.getN F.colEv_raises (704 + n) = min (s.getN F.colEv_raises (704 + n) + 1) (2 ^ 24 - 1) ∧
    ∃ full, TimerInserted full n (s.getN F.colTim_list n) (due + s.getN F.colTim_interval n) t := by
  refine ⟨_, timerDue_next h, ?_⟩
  rw [if_pos hp]
  refine ⟨?_, ?_⟩
  · rw [(insertTimer_only _ _ (.refl _ (s.timerRaised n l due)) (sub_self _)).getN F.colEv_raises _ (by decide)]
    exact raises_timerRaised ..
  · have hins := insertTimer_inserted (s.timerRaised n l due) n (due + s.getN F.colTim_interval n)
    rw [(timerRaised_only s n l due).getN F.colTim_list n (by decide)] at hins
    exact ⟨_, hins⟩

theorem timerDue_once (hp : s.bitF F.colTim_periodic n = false) : Completes (.timerDue n) s fun t =>
    t.getN F.colEv_raises (704 + n) = min (s.getN F.colEv_raises (704 + n) + 1) (2 ^ 24 - 1) ∧
    t.bitF F.colTim_en n = false ∧ t.Undelayed (.timer n) := by
  refine ⟨_, timerDue_next h, ?_⟩
  rw [if_neg (by simp [hp])]
  refine ⟨?_, State.bitF_clrF_self _ F.colTim_en n (by decide), ?_⟩
  · rw [getN_clrF_apart _ F.colEv_raises F.colTim_en n _ (by decide)]
    exact raises_timerRaised ..
  · exact (undelayed_timerRaised s n l due).of_delays (congrArg CollState.delays (State.clrF_col ..))

end

/-! ### A timer that is armed (R260, R266) -/

/-- What an accepted write of COL_TIM stores. -/
def State.storedTim (s : State) (n : Nat) (v : BitVec 64) : State := (s.clearW1c .colTim n v).storeRw .colTim n v

section
variable (s : State) (n : Nat) (v : BitVec 64)

theorem storedTim_only : State.Only [.reg .colTim] s (s.storedTim n v) :=
  only_storeRw (only_clearW1c (.refl _ s) .colTim n v (by decide)) .colTim n v (by decide)

theorem getF_storedTim {w : Nat} (f : Field w) (hr : f.reg = .colTim)
    (h : f.reg.rwMask.extractLsb' f.lo w = BitVec.allOnes w) : (s.storedTim n v).getF f n = v.extractLsb' f.lo w := by
  unfold State.storedTim
  rw [← hr]
  exact getF_storeRw _ f n v h

theorem list_storedTim : (s.storedTim n v).getN F.colTim_list n = fieldOf F.colTim_list v :=
  congrArg BitVec.toNat (getF_storedTim s n v F.colTim_list rfl (by decide))

theorem interval_storedTim : (s.storedTim n v).getN F.colTim_interval n = fieldOf F.colTim_interval v :=
  congrArg BitVec.toNat (getF_storedTim s n v F.colTim_interval rfl (by decide))

variable {v} (hen : fieldOf F.colTim_en v = 1)
include hen

theorem en_storedTim : (s.storedTim n v).bitF F.colTim_en n = true := by
  unfold State.bitF
  rw [getF_storedTim s n v F.colTim_en rfl (by decide)]
  exact beq_iff_eq.mpr (BitVec.eq_of_toNat_eq hen)

variable {s n}

theorem idleWrite_arming (hoff : s.bitF F.colTim_en n = false) : s.idleWrite .colTim n v = false := by
  refine idleWrite_stored s F.colTim_en n v (by decide) fun e => ?_
  have hon : s.bitF F.colTim_en n = true := by
    unfold State.bitF
    rw [e]
    exact beq_iff_eq.mpr (BitVec.eq_of_toNat_eq hen)
  rw [hon] at hoff
  cases hoff

end

section
variable {n : TimerId} {v : BitVec 64} {s : State} (hopen : s.barOpen (RegId.colTim.offset n) = true)
  (hoff : s.bitF F.colTim_en n = false) (hen : fieldOf F.colTim_en v = 1)
include hopen hoff hen

/-- A write of EN with an interval stores the fields and inserts the timer an interval ahead. -/
theorem timerArm_next (hint : fieldOf F.colTim_interval v ≠ 0) : exec (.timerArm n v) s =
    .next ((s.storedTim n v).insertTimer n (s.tickNow (fieldOf F.colTim_list v) + fieldOf F.colTim_interval v)) := by
  have hset := en_storedTim s n hen
  rw [← tickNow_frame (storedTim_only s n v), ← list_storedTim s n v, ← interval_storedTim s n v]
  change Host.Outcome.next (s.bar .colTim n fun s => s.writeTim 0 n v) = _
  rw [bar_open hopen]
  unfold State.writeTim
  rw [if_pos rfl, hoff, beq_false_of_ne hint, writeReg_accepted (idleWrite_arming hen hoff)]
  unfold State.storedTim at hset ⊢
  rw [hset]

theorem timerArm_arms (hint : fieldOf F.colTim_interval v ≠ 0) : Completes (.timerArm n v) s fun t =>
    t.bitF F.colTim_en n = true ∧ t.getN F.colTim_interval n = fieldOf F.colTim_interval v ∧
    TimerInserted (s.delayFull (fieldOf F.colTim_list v)) n (fieldOf F.colTim_list v)
      (s.tickNow (fieldOf F.colTim_list v) + fieldOf F.colTim_interval v) t := by
  refine ⟨_, timerArm_next hopen hoff hen hint, ?_, ?_, ?_⟩
  · rw [State.bitF, getF_insertTimer _ _ _ F.colTim_en n (by decide) (by decide)]
    exact en_storedTim s n hen
  · rw [State.getN, getF_insertTimer _ _ _ F.colTim_interval n (by decide) (by decide)]
    exact interval_storedTim s n v
  · have hins := insertTimer_inserted (s.storedTim n v) n
      (s.tickNow (fieldOf F.colTim_list v) + fieldOf F.colTim_interval v)
    rw [list_storedTim, delayFull_frame (storedTim_only s n v)] at hins
    exact hins

/-- A write of EN without an interval is refused. -/
theorem timerArm_refused (hint : fieldOf F.colTim_interval v = 0) : Completes (.timerArm n v) s fun t =>
    t.bitF F.colTim_en n = false ∧ t.bitF F.colStatus_rej 0 = true := by
  have hrun : exec (.timerArm n v) s =
      .next ((s.clearW1c .colTim n v).logRefused 0 (RegId.colTim.offset n)).colRej := by
    change Host.Outcome.next (s.bar .colTim n fun s => s.writeTim 0 n v) = _
    rw [bar_open hopen]
    unfold State.writeTim
    rw [if_pos rfl, hint, beq_self_eq_true, writeReg_refused (idleWrite_arming hen hoff)]
  refine ⟨_, hrun, ?_, State.bitF_setF_self _ F.colStatus_rej 0 (by decide)⟩
  have hen' : (s.clearW1c .colTim n v).bitF F.colTim_en n = s.bitF F.colTim_en n :=
    congrArg (· == 1#1) (getF_clearW1c s F.colTim_en n n v (by decide))
  have hrej : State.Only [.log, .collator, .reg .colStatus, .reg .colEv, .reg .logCtl] (s.clearW1c .colTim n v)
      ((s.clearW1c .colTim n v).logRefused 0 (RegId.colTim.offset n)).colRej :=
    colRej_only (logRefused_only _ _ (.refl _ _) (by decide)) (by decide)
  rw [hrej.bitF F.colTim_en n (by decide), hen', hoff]

end

theorem timerInsertRetry_inserts {n : TimerId} {s : State} {due : Nat}
    (h : (s.col.missed.find? fun m => m.1 == n.val) = some (n.val, due)) :
    Completes (.timerInsertRetry n) s fun t =>
      TimerInserted (s.delayFull (s.getN F.colTim_list n)) n (s.getN F.colTim_list n) due t := by
  have hrun : exec (.timerInsertRetry n) s = .next (s.insertTimer n due) := by
    change execTimerInsertRetry n s = _
    unfold execTimerInsertRetry
    rw [h]
  exact ⟨_, hrun, insertTimer_inserted s n due⟩

/-- Settles O36: the calendar by its first entry, a timer by what its insertion leaves. -/
theorem delaysAndTimers : Obligations.DelaysAndTimers := by
  refine ⟨fun l s e rest hcal => ⟨fun id hw => delayEntryDue_rejoins hcal hw, fun n hw => delayEntryDue_timer hcal hw⟩,
    calendarWrap_moves, fun n s l due h => ?_,
    fun n v s hopen hoff hen => ⟨fun hint => ?_, timerArm_refused hopen hoff hen⟩,
    fun n s due h => timerInsertRetry_inserts h⟩
  · cases hp : s.bitF F.colTim_periodic n with
    | true =>
      obtain ⟨t, ht, hraises, full, hins⟩ := timerDue_periodic h hp
      refine ⟨t, ht, hraises, ?_⟩
      rw [if_pos rfl]
      cases full with
      | true => exact .inr hins
      | false => exact .inl hins.1
    | false =>
      obtain ⟨t, ht, hraises, hen, hnone⟩ := timerDue_once h hp
      exact ⟨t, ht, hraises, by rw [if_neg (by decide)]; exact ⟨hen, hnone⟩⟩
  · obtain ⟨t, ht, hen', hivl, hins⟩ := timerArm_arms hopen hoff hen hint
    refine ⟨t, ht, hen', hivl, ?_⟩
    unfold TimerInserted at hins
    split at hins
    · next hfull => rw [if_pos hfull]; exact hins
    · next hroom => rw [if_neg hroom]; exact hins.1

end Sys2Proof.Machine
end

section
/-!
Proofs of the collator family, 3: yields, lock waits and stalled streams (R255, R256, R263).
-/
namespace Sys2Proof.Machine

/-! ### A level that becomes READY (R255) -/

/-- A level that becomes READY changes in its state alone; the event that its core may raise is the Collator's. -/
theorem level_setLevelState_ready (s : State) (c v : Nat) :
    (s.setLevelState c v .ready).level c v = { s.level c v with state := .ready } := by
  unfold State.setLevelState
  extract_lets was y l
  have hy : y.level c v = { s.level c v with state := .ready } := by
    unfold State.level
    rw [core_updCore, if_pos rfl]
    dsimp only
    rw [Sparse.at_upd, if_pos rfl]
    simp
  have hraise : (y.raise 921).level c v = y.level c v := by
    unfold State.level State.core
    rw [show (y.raise 921).awl = y.awl from (raise_only 921 (.refl _ y) (sub_self _)).same .cores (by decide)]
  split
  · exact hraise.trans hy
  · exact hy

theorem yieldReady_ready {c : CoreId} {lv : LevelId} {s : State} {r : Nat}
    (h : (s.level c lv).state = .wait .yielded ∨ (s.level c lv).state = .wait (.collator 6 r)) :
    Completes (.yieldReady c lv) s fun t => (t.level c lv).state = .ready := by
  have hrun : exec (.yieldReady c lv) s = .next (s.setLevelState c lv .ready) := by
    change execYieldReady c lv s = _
    unfold execYieldReady
    rcases h with h | h
    · rw [h]
    · rw [h]
      rfl
  exact ⟨_, hrun, congrArg Level.state (level_setLevelState_ready s c lv)⟩

/-! ### A lock wait that times out (R263) -/

theorem lockWaiters_of_waiters {s t : State} (h : t.col.waiters = s.col.waiters) (l : Nat) :
    t.lockWaiters l = s.lockWaiters l := by
  unfold State.lockWaiters
  rw [h]

theorem lockWaiters_setWaiters (s : State) (l k : Nat) (ws : List Nat) :
    (s.setWaiters l ws).lockWaiters k = if l = k then ws else s.lockWaiters k := Sparse.at_put ..

@[simp] theorem waiters_setLevelState (s : State) (c v : Nat) (st : LevelState) :
    (s.setLevelState c v st).col.waiters = s.col.waiters := by
  unfold State.setLevelState
  extract_lets was y
  have hy : y.col.waiters = s.col.waiters := congrArg CollState.waiters (State.setCore_col ..)
  split
  · exact (waiters_raise y 921).trans hy
  · exact hy

theorem waiters_updLevel (s : State) (c v : Nat) (f : Level → Level) : (s.updLevel c v f).col.waiters = s.col.waiters :=
  congrArg CollState.waiters (State.setCore_col ..)

/-- The answer to a request that waits for its lock. -/
theorem answerLock_waiting {s : State} {a r : Nat} (rd : Nat) (h : (s.level (a / 8) (a % 8)).state = .wait (.lock r)) :
    s.answerLock a rd = (s.updLevel (a / 8) (a % 8) fun l =>
      (l.gWrite r (gen (BitVec.ofNat 40 rd))).setZ (rd == 0)).setLevelState (a / 8) (a % 8) .ready := by
  unfold State.answerLock
  dsimp only
  rw [h]

theorem lockWaitTimeout_withdraws {c : CoreId} {lv : LevelId} {s : State} {l r : Nat}
    (hw : s.waitsOn (8 * c.val + lv.val) = some l) (hto : s.getN F.colCtl_lock_to_us 0 ≠ 0)
    (hst : (s.level c lv).state = .wait (.lock r)) :
    Completes (.lockWaitTimeout c lv) s fun t => t.lockWaiters l = (s.lockWaiters l).erase (8 * c.val + lv.val) ∧
      t.level c lv = { ((s.level c lv).gWrite r (gen 2)).setZ false with state := .ready } := by
  have hc : (8 * c.val + lv.val) / 8 = c := by omega
  have hv : (8 * c.val + lv.val) % 8 = lv := by omega
  have hrun : exec (.lockWaitTimeout c lv) s =
      .next ((s.withdraw (8 * c.val + lv.val)).answerLock (8 * c.val + lv.val) 2) := by
    change execLockWaitTimeout c lv s = _
    unfold execLockWaitTimeout
    dsimp only
    rw [hw]
    exact congrArg _ (if_neg hto)
  have hout : s.withdraw (8 * c.val + lv.val) = s.setWaiters l ((s.lockWaiters l).erase (8 * c.val + lv.val)) := by
    unfold State.withdraw
    rw [hw]
  have hlevel : ∀ ws, (s.setWaiters l ws).level c lv = s.level c lv := fun _ => rfl
  refine ⟨_, hrun, ?_⟩
  rw [hout, answerLock_waiting 2 (r := r) (by rw [hc, hv, hlevel]; exact hst), hc, hv]
  refine ⟨?_, ?_⟩
  · rw [lockWaiters_of_waiters ((waiters_setLevelState ..).trans (waiters_updLevel ..)), lockWaiters_setWaiters, if_pos rfl]
  · rw [level_setLevelState_ready, level_updLevel, if_pos rfl, hlevel]
    rfl

/-! ### What a stream reports (R249, R256) -/

/-- A field without stored bits keeps its value. -/
theorem getF_storeRw_kept {w : Nat} (s : State) (f : Field w) (i j : Nat) (v : BitVec 64)
    (h : f.reg.rwMask.extractLsb' f.lo w = 0#w) : (s.storeRw f.reg i v).getF f j = s.getF f j := by
  unfold State.storeRw State.getF
  rw [State.reg_setReg]
  split
  · next e =>
    obtain ⟨-, rfl⟩ := e
    ext k hk
    have hm := getLsbD_of_extract h hk
    rw [BitVec.getLsbD_zero] at hm
    simp only [BitVec.getElem_extractLsb', BitVec.getLsbD_or, BitVec.getLsbD_and, BitVec.getLsbD_not, hm, Bool.and_false,
      Bool.not_false, Bool.or_false]
    by_cases hlt : f.lo + k < 64
    · rw [decide_eq_true hlt, Bool.and_true, Bool.and_true]
    · rw [BitVec.getLsbD_of_ge _ _ (Nat.le_of_not_lt hlt), Bool.false_and]
  · rfl

/-- Refreshing a stream writes STATE, QUEUED and INFLIGHT alone. -/
theorem getF_refreshStream (s : State) (st : Nat) {w : Nat} (f : Field w) (i : Nat) (h0 : F.colStrStat_state.apart f = true)
    (h1 : F.colStrStat_queued.apart f = true) (h2 : F.colStrStat_inflight.apart f = true) :
    (s.refreshStream st).getF f i = s.getF f i := by
  unfold State.refreshStream State.putN
  dsimp only
  rw [State.getF_putF_apart _ _ f _ _ _ h2, State.getF_putF_apart _ _ f _ _ _ h1, State.getF_putF_apart _ _ f _ _ _ h0]

theorem faults_refreshStream (s : State) (st j : Nat) :
    (s.refreshStream st).getN F.colStrStat_faults j = s.getN F.colStrStat_faults j :=
  congrArg BitVec.toNat (getF_refreshStream s st F.colStrStat_faults j (by decide) (by decide) (by decide))

/-- A stream that is not STALLED does not become so by being refreshed. -/
theorem state_refreshStream_ne {s : State} {j : Nat} (h : s.getN F.colStrStat_state j ≠ 2) (st : Nat) :
    (s.refreshStream st).getN F.colStrStat_state j ≠ 2 := by
  unfold State.refreshStream
  extract_lets blocked code mine queued
  rw [State.getN_putN_apart _ F.colStrStat_inflight F.colStrStat_state _ _ _ (by decide),
    State.getN_putN_apart _ F.colStrStat_queued F.colStrStat_state _ _ _ (by decide)]
  by_cases hj : st = j
  · subst hj
    rw [State.getN_putN_self _ _ _ _ (by decide)]
    simp only [code, if_neg h]
    split
    · decide
    split <;> decide
  · rw [State.getN_putN_index _ _ _ _ hj]
    exact h

/-- The stream is not STALLED and has no fault counted. -/
def State.Resumed (s : State) (st : Nat) : Prop :=
  s.getN F.colStrStat_state st ≠ 2 ∧ s.getN F.colStrStat_faults st = 0

theorem State.Resumed.refreshStream {s : State} {st : Nat} (h : s.Resumed st) (j : Nat) : (s.refreshStream j).Resumed st :=
  ⟨state_refreshStream_ne h.1 j, (faults_refreshStream s j st).trans h.2⟩

theorem State.Resumed.settle {s : State} {st : Nat} (h : s.Resumed st) : s.settle.Resumed st :=
  List.foldlRecOn (motive := fun s : State => s.Resumed st) _ _
    (⟨(State.getN_regs rfl _ _).trans_ne h.1, (State.getN_regs rfl _ _).trans h.2⟩ : s.refreshReady.Resumed st)
    fun _ hz j _ => hz.refreshStream j

theorem resumed_resumeStream (s : State) (st : Nat) : (s.resumeStream st).Resumed st := by
  refine State.Resumed.refreshStream (State.Resumed.settle ⟨?_, ?_⟩) st
  · rw [State.getN_putN_self _ F.colStrStat_state st _ (by decide)]
    decide
  · rw [State.getN_putN_apart _ F.colStrStat_state F.colStrStat_faults _ _ _ (by decide),
      State.getN_putN_self _ F.colStrStat_faults st _ (by decide)]
    rfl

theorem items_resumeStream (s : State) (st : Nat) : (s.resumeStream st).col.items = s.col.items := by
  unfold State.resumeStream
  rw [col_refreshStream, items_settle]
  rfl

/-! ### The faulted item of a cancelled stream (R248, R256) -/

/-- The item of a number is completed with a result, or holds its result until the older items are recorded. -/
def State.EndedWith (s : State) (id : Nat) (result : BitVec 16) : Prop :=
  ∃ y, s.item? id = some y ∧ y.result = result ∧ (y.pos = .completed ∨ y.pos = .early)

theorem State.EndedWith.of_items {s t : State} {id : Nat} {result : BitVec 16} (h : s.EndedWith id result)
    (hi : t.col.items = s.col.items) : t.EndedWith id result := by
  unfold State.EndedWith
  rw [item?_of_items hi]
  exact h

theorem State.EndedWith.recordDone {s : State} {id : Nat} {result : BitVec 16} (h : s.EndedWith id result) (k : Nat) :
    (s.recordDone k).EndedWith id result := by
  obtain ⟨y, hy, hr, hp⟩ := h
  by_cases hk : id = k
  · subst hk
    exact ⟨_, item?_updItem_self hy fun _ => rfl, hr, .inl rfl⟩
  · refine ⟨y, ?_, hr, hp⟩
    rw [← hy]
    exact item?_updItem_ne hk fun _ => rfl

theorem State.EndedWith.recordEarly {s : State} {id : Nat} {result : BitVec 16} (h : s.EndedWith id result) (st : Nat) :
    (s.recordEarly st).EndedWith id result :=
  List.foldlRecOn (motive := fun s : State => s.EndedWith id result) _ _ h fun z hz _ _ => by
    split
    · exact hz.recordDone _
    · exact hz

theorem endedWith_complete {s : State} {id : Nat} {x : Item} (result : BitVec 16) (hx : s.item? id = some x)
    (he : x.event = false) : (s.complete id result).EndedWith id result := by
  unfold State.complete
  rw [hx]
  dsimp -zeta only
  extract_lets st y z u
  rw [he, if_neg (by decide)]
  have hy : y.item? id = some x := by
    rw [← hx]
    refine item?_of_items ?_ id
    simp only [y]
    split <;> rfl
  have hz : z.item? id = some { x with result, xstaged := y.staged x } := by
    exact item?_updItem_self hy fun _ => rfl
  have hu : u.EndedWith id result := by
    simp only [u]
    split
    · exact ⟨_, item?_updItem_self hz fun _ => rfl, rfl, .inr rfl⟩
    · exact ⟨_, item?_updItem_self hz fun _ => rfl, rfl, .inl rfl⟩
  refine (hu.recordEarly x.stream).of_items ?_
  rw [col_refreshStream, items_settle]

/-! ### RESUME and CANCEL (R256, R265) -/

section
variable {fn : FnId} {st : StreamId} {s : State} (hopen : s.barOpen (RegId.colStrStat.offset st) = true)
  (hown : s.ownsStream fn st = true) (hstalled : s.getN F.colStrStat_state st = 2)

/-- A write of COL_STRs_STAT as it finds the stream: the register has no stored field. -/
def State.writtenStat (s : State) (st : Nat) (v : BitVec 64) : State :=
  (s.clearW1c .colStrStat st v).storeRw .colStrStat st v

theorem state_writtenStat (s : State) (st : Nat) (v : BitVec 64) :
    (s.writtenStat st v).getN F.colStrStat_state st = s.getN F.colStrStat_state st :=
  congrArg BitVec.toNat ((getF_storeRw_kept _ F.colStrStat_state st st v (by decide)).trans
    (getF_clearW1c s F.colStrStat_state st st v (by decide)))

include hopen hown hstalled

/-- A write of a stalled stream's register that asks for an action. -/
theorem bar_writeStrStat {v : BitVec 64} (h : s.idleWrite .colStrStat st v = false) :
    (s.bar .colStrStat st fun s => s.writeStrStat fn st v) =
      if v.getLsbD 55 then ((s.writtenStat st v).cancelFaulted st).resumeStream st
      else if v.getLsbD 54 then (s.writtenStat st v).resumeStream st else s.writtenStat st v := by
  rw [bar_open hopen]
  unfold State.writeStrStat
  rw [if_pos hown, writeReg_accepted h]
  exact if_neg (by rw [ne_eq, not_not]; exact (state_writtenStat s st v).trans hstalled)

theorem streamResume_resumes {v : BitVec 64} (hres : v.getLsbD 54 = true) (hcan : v.getLsbD 55 = false) :
    Completes (.streamResume fn st v) s fun t => t.Resumed st := by
  refine ⟨_, rfl, ?_⟩
  rw [bar_writeStrStat hopen hown hstalled (idleWrite_action s st v (k := 54) (by decide) hres), hcan, if_neg (by decide),
    if_pos hres]
  exact resumed_resumeStream ..

theorem streamCancel_cancels {v : BitVec 64} (hcan : v.getLsbD 55 = true) :
    Completes (.streamCancel fn st v) s fun t => t.Resumed st ∧
      ∀ x, (s.col.items.find? fun x => x.stream == st.val && !x.event && x.faultCore.isSome && x.pos == .queued) = some x →
        s.item? x.id = some x → t.EndedWith x.id 0xFFFF := by
  refine ⟨_, rfl, ?_⟩
  rw [bar_writeStrStat hopen hown hstalled (idleWrite_action s st v (k := 55) (by decide) hcan), if_pos hcan]
  refine ⟨resumed_resumeStream .., fun x hfind hx => ?_⟩
  have he : x.event = false := by
    have hp := List.find?_some hfind
    simp only [Bool.and_eq_true, Bool.not_eq_true'] at hp
    exact hp.1.1.2
  have hcancel : (s.writtenStat st v).cancelFaulted st = (s.writtenStat st v).complete x.id 0xFFFF := by
    unfold State.cancelFaulted
    rw [show (s.writtenStat st v).col = s.col from rfl, hfind]
  rw [hcancel]
  have hx' : (s.writtenStat st v).item? x.id = some x := hx
  exact (endedWith_complete 0xFFFF hx' he).of_items (items_resumeStream ..)

end

end Sys2Proof.Machine
end

section
/-!
Proofs of the collator family, 4: the recovery of the hub's tables (R238, R242, R297, R302).
-/
namespace Sys2Proof.Machine

/-! ### The entries that the rebuild finds (R302) -/

theorem redo_setRedo (x : Item) : D.redo x.setRedo.desc = true := by
  unfold D.redo Item.setRedo
  rw [getLsbD_putBits]
  rfl

theorem id_rebuilt (x : Item) : x.rebuilt.id = x.id := by
  unfold Item.rebuilt
  split <;> rfl

theorem pos_rebuilt_ne_flight (x : Item) (c v : Nat) : x.rebuilt.pos ≠ .flight c v := by
  unfold Item.rebuilt
  split
  · exact ItemPos.noConfusion
  · exact ItemPos.noConfusion
  · next h _ => exact h c v

theorem pos_of_rebuilt_retired {x : Item} (h : x.rebuilt.pos = .retired) : x.pos = .retired := by
  unfold Item.rebuilt at h
  split at h
  · cases h
  · cases h
  · exact h

/-- What the recovery asks of an item: its number, where it stands, whether it counts as in flight, and REDO. -/
def Item.standing (x : Item) : Nat × ItemPos × Bool × Bool := (x.id, x.pos, x.inFlight, D.redo x.desc)

theorem standing_rebuilt_flight {x : Item} {c v : Nat} (h : x.pos = .flight c v) :
    x.rebuilt.standing = (x.id, .queued, true, true) := by
  unfold Item.rebuilt Item.standing
  rw [h]
  dsimp only
  rw [redo_setRedo]
  rfl

/-! ### The tables rebuilt (R238, R302) -/

/-- A lock is neither held nor waited for. -/
def State.LockFree (s : State) (l : Nat) : Prop := s.bitF F.colLock_held l = false ∧ s.lockWaiters l = []

theorem State.LockFree.holder {s : State} {l : Nat} (h : s.LockFree l) : s.lockHolder l = none := by
  unfold State.lockHolder
  rw [h.1, if_neg (by decide)]

/-- The lock given up and its waiters dropped. -/
def State.freeLock (s : State) (l : Nat) : State := (s.setWaiters l []).setHolder l none

theorem col_freeLock (s : State) (l : Nat) :
    (s.freeLock l).col = { s.col with waiters := s.col.waiters.put l [] } := by
  simp only [State.freeLock, State.setHolder, State.setWaiters, State.putN_col, State.clrF_col]

theorem held_freeLock (s : State) (i j : Nat) :
    (s.freeLock i).bitF F.colLock_held j = if i = j then false else s.bitF F.colLock_held j := by
  have hheld : (s.freeLock i).bitF F.colLock_held j = ((s.setWaiters i []).clrF F.colLock_held i).bitF F.colLock_held j :=
    (bitF_putN_apart _ F.colLock_hlvl F.colLock_held i j 0 (by decide)).trans
      (bitF_putN_apart _ F.colLock_hcore F.colLock_held i j 0 (by decide))
  rw [hheld]
  split
  · next e => subst e; exact State.bitF_clrF_self _ F.colLock_held i (by decide)
  · next e =>
    rw [State.bitF, State.clrF, State.getF_putF_index _ F.colLock_held F.colLock_held _ e]
    exact bitF_putN_apart { s with col := { s.col with waiters := s.col.waiters.put i [] } } F.colLock_waiters F.colLock_held
      i j _ (by decide)

theorem lockWaiters_freeLock (s : State) (i j : Nat) :
    (s.freeLock i).lockWaiters j = if i = j then [] else s.lockWaiters j := by
  unfold State.lockWaiters
  rw [col_freeLock]
  exact Sparse.at_put ..

/-- The Collator's tables but for the locks' waiters. -/
def CollState.apartLocks (c : CollState) : CollState := { c with waiters := {} }

/-- The Collator's tables but for the delay lists and the timers that wait. -/
def CollState.apartDelays (c : CollState) : CollState := { c with delays := {}, missed := [] }

/-- The Collator's tables but for the items and the ready lists. -/
def CollState.apartItems (c : CollState) : CollState := { c with items := [], nextId := 0, ready := [] }

theorem CollState.of_apartLocks {c d : CollState} (h : c.apartLocks = d.apartLocks) :
    c.items = d.items ∧ c.acts = d.acts ∧ c.queueSets = d.queueSets :=
  ⟨(congrArg CollState.items h :), (congrArg CollState.acts h :), (congrArg CollState.queueSets h :)⟩

theorem CollState.of_apartDelays {c d : CollState} (h : c.apartDelays = d.apartDelays) :
    c.items = d.items ∧ c.acts = d.acts ∧ c.queueSets = d.queueSets ∧ c.waiters = d.waiters :=
  ⟨(congrArg CollState.items h :), (congrArg CollState.acts h :), (congrArg CollState.queueSets h :),
    (congrArg CollState.waiters h :)⟩

theorem CollState.of_apartItems {c d : CollState} (h : c.apartItems = d.apartItems) :
    c.acts = d.acts ∧ c.queueSets = d.queueSets ∧ c.waiters = d.waiters :=
  ⟨(congrArg CollState.acts h :), (congrArg CollState.queueSets h :), (congrArg CollState.waiters h :)⟩

/-- The tables as the rebuild finds them in the ledger, before it frees the locks. -/
def State.ledgerTables (s : State) : State :=
  let z := (s.col.items.filter Item.event).foldl (fun (s : State) x => s.clrF F.colEv_pend (D.src x.desc)) s
  { z with col := { z.col with
      items := (z.col.items.filter fun x => !x.event).map Item.rebuilt, ready := [], acts := {}, missed := [] } }

theorem rebuildItems_eq (s : State) : s.rebuildItems = (List.range 256).foldl State.freeLock s.ledgerTables := rfl

theorem col_ledgerTables (s : State) : s.ledgerTables.col = { s.col with
    items := (s.col.items.filter fun x => !x.event).map Item.rebuilt, ready := [], acts := {}, missed := [] } := by
  have hcol := foldl_keeps State.col (f := fun (s : State) (x : Item) => s.clrF F.colEv_pend (D.src x.desc))
    (fun s _ => State.clrF_col s _ _) (s.col.items.filter Item.event) s
  unfold State.ledgerTables
  dsimp only
  rw [hcol]

theorem tables_rebuildItems (s : State) :
    s.rebuildItems.col.items = (s.col.items.filter fun x => !x.event).map Item.rebuilt ∧ s.rebuildItems.col.acts = {} ∧
    s.rebuildItems.col.queueSets = s.col.queueSets := by
  have hlocks : s.rebuildItems.col.apartLocks = s.ledgerTables.col.apartLocks := by
    rw [rebuildItems_eq]
    refine foldl_keeps (f := State.freeLock) (fun s => s.col.apartLocks) (fun s l => ?_) _ _
    rw [col_freeLock]
    rfl
  obtain ⟨hi, ha, hq⟩ := CollState.of_apartLocks hlocks
  rw [hi, ha, hq, col_ledgerTables]
  exact ⟨rfl, rfl, rfl⟩

theorem lockFree_rebuildItems (s : State) {l : Nat} (hl : l < 256) : s.rebuildItems.LockFree l := by
  rw [rebuildItems_eq]
  refine ⟨?_, ?_⟩
  · rw [foldl_writes (fun s j => s.bitF F.colLock_held j) (fun _ => false) held_freeLock, if_pos (List.mem_range.mpr hl)]
  · rw [foldl_writes (fun s j => s.lockWaiters j) (fun _ => []) lockWaiters_freeLock, if_pos (List.mem_range.mpr hl)]

theorem apartDelays_insertTimer (s : State) (n due : Nat) : (s.insertTimer n due).col.apartDelays = s.col.apartDelays := by
  unfold State.insertTimer
  extract_lets
  split <;> rfl

theorem apartDelays_rebuildDelays (s : State) : s.rebuildDelays.col.apartDelays = s.col.apartDelays := by
  unfold State.rebuildDelays
  refine (foldl_keeps (fun s => s.col.apartDelays) (fun s t => ?_) _ _).trans
    (foldl_keeps (fun s => s.col.apartDelays) (fun s l => ?_) _ _)
  · split
    · exact apartDelays_insertTimer ..
    · rfl
  · rfl

/-! ### The queues' events raised again (R242) -/

theorem apartItems_raise (s : State) (m : Nat) : (s.raise m).col.apartItems = s.col.apartItems := by
  obtain ⟨_, _, _, h⟩ := col_raise s m
  rw [h]
  rfl

theorem apartItems_raiseQueues (s : State) : s.raiseQueues.col.apartItems = s.col.apartItems :=
  foldl_keeps (fun s => s.col.apartItems) (fun s _ => apartItems_raise s _) _ _

/-- From `xs` to `ys` no item of `xs` moves, and what is new is queued. -/
def QueuedMore (xs ys : List Item) : Prop :=
  ∃ more, (∀ p ∈ more, p.2.1 = ItemPos.queued) ∧ ys.map Item.standing = xs.map Item.standing ++ more

theorem QueuedMore.of_standing {xs ys : List Item} (h : ys.map Item.standing = xs.map Item.standing) : QueuedMore xs ys :=
  ⟨[], by simp, by rw [h, List.append_nil]⟩

theorem QueuedMore.trans {xs ys zs : List Item} (h : QueuedMore xs ys) (k : QueuedMore ys zs) : QueuedMore xs zs := by
  obtain ⟨m, hm, he⟩ := h
  obtain ⟨n, hn, hf⟩ := k
  exact ⟨m ++ n, fun p hp => (List.mem_append.mp hp).elim (hm p) (hn p), by rw [hf, he, List.append_assoc]⟩

/-- An item of the longer list stands as one of the shorter, or is queued. -/
theorem QueuedMore.standing {xs ys : List Item} (h : QueuedMore xs ys) {y : Item} (hy : y ∈ ys) :
    (∃ x ∈ xs, x.standing = y.standing) ∨ y.pos = .queued := by
  obtain ⟨more, hq, he⟩ := h
  have hmem := List.mem_map_of_mem (f := Item.standing) hy
  rw [he] at hmem
  rcases List.mem_append.mp hmem with hold | hnew
  · exact .inl (List.mem_map.mp hold)
  · exact .inr (hq _ hnew)

theorem QueuedMore.kept {xs ys : List Item} (h : QueuedMore xs ys) {x : Item} (hx : x ∈ xs) :
    ∃ y ∈ ys, y.standing = x.standing := by
  obtain ⟨more, -, he⟩ := h
  have hmem : x.standing ∈ ys.map Item.standing := by
    rw [he]
    exact List.mem_append_left _ (List.mem_map_of_mem hx)
  exact List.mem_map.mp hmem

theorem standing_setCount (x : Item) (v : BitVec 16) :
    Item.standing { x with desc := putBits x.desc 200 16 v } = x.standing := by
  unfold Item.standing D.redo
  dsimp only
  rw [getLsbD_putBits]
  rfl

theorem queuedMore_raise (s : State) (m : Nat) : QueuedMore s.col.items (s.raise m).col.items := by
  unfold State.raise
  extract_lets z
  split
  · exact .of_standing rfl
  split
  · next x _ =>
    refine .of_standing (List.map_map.trans (List.map_congr_left fun y _ => ?_))
    simp only [Function.comp]
    split
    · exact standing_setCount ..
    · rfl
  · exact ⟨[_], fun p hp => List.mem_singleton.mp hp ▸ rfl, List.map_append ..⟩

theorem queuedMore_raiseQueues (s : State) : QueuedMore s.col.items s.raiseQueues.col.items :=
  List.foldlRecOn (motive := fun t : State => QueuedMore s.col.items t.col.items) _ _ (.of_standing rfl)
    fun _ h _ _ => h.trans (queuedMore_raise ..)

/-! ### Retirements completed (R297) -/

/-- From `z` to `s` entries have left the ledger, but none of a number that satisfies `P`, and no record that waits ends the
retirement of one. -/
structure Retiring (P : Nat → Prop) (z s : State) : Prop where
  acts : s.col.acts = z.col.acts
  waiters : s.col.waiters = z.col.waiters
  sub : ∀ y ∈ s.col.items, y ∈ z.col.items
  kept : ∀ y ∈ z.col.items, P y.id → y ∈ s.col.items
  waits : ∀ m, ∀ r ∈ (s.hq m).rqWait, ∀ k, r.item = some k → ¬ P k

section
variable {P : Nat → Prop} {z s t : State} (h : Retiring P z s)
include h

theorem Retiring.of_col (hc : t.col = s.col) : Retiring P z t := by
  refine ⟨?_, ?_, ?_, ?_, ?_⟩
  · rw [hc]; exact h.acts
  · rw [hc]; exact h.waiters
  · rw [hc]; exact h.sub
  · rw [hc]; exact h.kept
  · unfold State.hq
    rw [hc]
    exact h.waits

theorem Retiring.updHq (m : Nat) (f : QueueSet → QueueSet)
    (hf : ∀ r ∈ (f (s.hq m)).rqWait, ∀ k, r.item = some k → ¬ P k) : Retiring P z (s.updHq m f) := by
  refine ⟨h.acts, h.waiters, h.sub, h.kept, fun n => ?_⟩
  unfold State.hq State.updHq
  dsimp only
  rw [Sparse.at_upd]
  split
  · next e => subst e; exact hf
  · exact h.waits n

theorem Retiring.freeEntry {k : Nat} (hk : ¬ P k) : Retiring P z (s.freeEntry k) := by
  unfold State.freeEntry
  split
  · exact h
  · refine ⟨h.acts, h.waiters, fun y hy => h.sub y (List.mem_filter.mp hy).1, fun y hy hp => ?_, h.waits⟩
    exact List.mem_filter.mpr ⟨h.kept y hy hp, bne_iff_ne.mpr fun e => hk (e ▸ hp)⟩

theorem Retiring.signal (fn vec : Nat) : Retiring P z (s.signal fn vec) := by
  unfold State.signal
  split <;> exact h.of_col rfl

theorem Retiring.signalRing (m vec : Nat) : Retiring P z (s.signalRing m vec) := by
  unfold State.signalRing
  split
  · exact h.signal ..
  split
  · exact h.updHq m _ (h.waits m)
  · exact (h.signal ..).updHq m _ ((h.signal ..).waits m)

theorem Retiring.writeRq (m : Nat) {r : RqRecord} (hr : ∀ k, r.item = some k → ¬ P k) : Retiring P z (s.writeRq m r) := by
  unfold State.writeRq
  extract_lets i next record y
  have hy : Retiring P z y := by
    have hout := h.of_col (State.emit_col s (.hostWrite (s.hqFn m) (s.slotAddr .hubHqRq m i 16) (leBytes record 16)))
    have htail := hout.of_col (State.putN_col _ F.hubHqStat_rqtail m next)
    exact (htail.updHq m _ (htail.waits m)).signalRing m _
  split
  · next k hk => exact hy.freeEntry (hr k hk)
  · exact hy

theorem Retiring.drainRq (m : Nat) : Retiring P z (s.drainRq m) :=
  List.foldlRecOn (motive := fun t : State => Retiring P z t) _ _ h fun t ht _ _ => by
    split
    · exact ht
    · next r rest hw =>
      have hrest : ∀ q ∈ r :: rest, ∀ k, q.item = some k → ¬ P k := hw ▸ ht.waits m
      split
      · exact (ht.updHq m _ fun q hq => hrest q (List.mem_cons_of_mem _ hq)).writeRq m (hrest r List.mem_cons_self)
      · exact ht

theorem Retiring.sendRq (m : Nat) {r : RqRecord} (hr : ∀ k, r.item = some k → ¬ P k) : Retiring P z (s.sendRq m r) := by
  refine (h.updHq m _ fun q hq => ?_).drainRq m
  rcases List.mem_append.mp hq with hold | hnew
  · exact h.waits m q hold
  · obtain rfl := List.mem_singleton.mp hnew
    exact hr

end

theorem retiring_finishRetired {P : Nat → Prop} {s : State}
    (hw : ∀ m, ∀ r ∈ (s.hq m).rqWait, ∀ k, r.item = some k → ¬ P k)
    (hr : ∀ x ∈ s.col.items, x.pos = .retired → ¬ P x.id) : Retiring P s s.finishRetired := by
  refine List.foldlRecOn (motive := fun t : State => Retiring P s t) _ _
    ⟨rfl, rfl, fun _ hy => hy, fun _ hy _ => hy, hw⟩ fun t ht x hx => ?_
  obtain ⟨hmem, hpos⟩ := List.mem_filter.mp hx
  have hx' : ¬ P x.id := hr x hmem (beq_iff_eq.mp hpos)
  split
  · exact ht.freeEntry hx'
  split
  · exact ht
  · refine ht.sendRq _ fun k hk => ?_
    obtain rfl := Option.some.inj hk
    exact hx'

/-! ### The whole recovery (R302) -/

/-- The ready lists and the streams brought up to date; from here on the Collator dispatches. -/
def State.goneLive (z : State) : State :=
  { z.settle.refreshStreams with col := { z.settle.refreshStreams.col with live := true } }

theorem goneLive_only (z : State) : State.Only [.collator, .reg .colStrStat] z z.goneLive :=
  only_col (refreshStreams_only (settle_only (.refl _ z) (by decide)) (by decide)) _ (by decide)

/-- Going live changes no table but the ready lists. -/
theorem tables_goneLive (z : State) : z.goneLive.col.live = true ∧ z.goneLive.col.items = z.col.items ∧
    z.goneLive.col.acts = z.col.acts ∧ z.goneLive.col.waiters = z.col.waiters := by
  have hcol : z.settle.refreshStreams.col = z.refreshReady.col :=
    (foldl_keeps State.col col_refreshStream _ _).trans (col_settle z)
  unfold State.goneLive
  dsimp only
  rw [hcol]
  exact ⟨rfl, rfl, rfl, rfl⟩

/-- The tables as the rebuild and the queues' events leave them, before the retirements are completed. -/
def State.rebuilt (s : State) : State := s.rebuildItems.rebuildDelays.raiseQueues

section
variable (s : State)

/-- The rebuilt tables but for items, delay lists and waiters. -/
theorem tables_rebuilt : s.rebuilt.col.acts = {} ∧ s.rebuilt.col.queueSets = s.col.queueSets ∧
    s.rebuilt.col.waiters = s.rebuildItems.col.waiters := by
  obtain ⟨ha, hq, hw⟩ := CollState.of_apartItems (apartItems_raiseQueues s.rebuildItems.rebuildDelays)
  obtain ⟨-, ha', hq', hw'⟩ := CollState.of_apartDelays (apartDelays_rebuildDelays s.rebuildItems)
  obtain ⟨-, ha'', hq''⟩ := tables_rebuildItems s
  unfold State.rebuilt
  rw [ha, ha', ha'', hq, hq', hq'', hw, hw']
  exact ⟨rfl, rfl, rfl⟩

theorem lockFree_rebuilt {l : Nat} (hl : l < 256) : s.rebuilt.LockFree l := by
  obtain ⟨hheld, hwait⟩ := lockFree_rebuildItems s hl
  have hkept : State.Only [.collator, .reg .colDlCfg, .reg .colTim, .reg .colEv] s.rebuildItems s.rebuilt :=
    raiseQueues_only (rebuildDelays_only (.refl _ _) (by decide)) (by decide)
  obtain ⟨-, -, hw⟩ := tables_rebuilt s
  exact ⟨(hkept.bitF F.colLock_held l (by decide)).trans hheld, (lockWaiters_of_waiters hw l).trans hwait⟩

/-- The rebuilt items are those of the ledger, as the rebuild finds them, and events that are queued. -/
theorem queuedMore_rebuilt :
    QueuedMore ((s.col.items.filter fun x => !x.event).map Item.rebuilt) s.rebuilt.col.items := by
  obtain ⟨hd, -⟩ := CollState.of_apartDelays (apartDelays_rebuildDelays s.rebuildItems)
  obtain ⟨hi, -⟩ := tables_rebuildItems s
  unfold State.rebuilt
  rw [← hi, ← hd]
  exact queuedMore_raiseQueues _

theorem pos_rebuilt_tables {y : Item} (hy : y ∈ s.rebuilt.col.items) (c v : Nat) : y.pos ≠ .flight c v := by
  rcases (queuedMore_rebuilt s).standing hy with ⟨x, hx, he⟩ | hq
  · obtain ⟨x, -, rfl⟩ := List.mem_map.mp hx
    rw [← show x.rebuilt.pos = y.pos from congrArg (·.2.1) he]
    exact pos_rebuilt_ne_flight x c v
  · rw [hq]
    exact ItemPos.noConfusion

/-- A retirement that is to be completed is one of the ledger. -/
theorem retired_rebuilt {y : Item} (hy : y ∈ s.rebuilt.col.items) (hp : y.pos = .retired) :
    ∃ u ∈ s.col.items, u.id = y.id ∧ u.pos = .retired := by
  rcases (queuedMore_rebuilt s).standing hy with ⟨w, hw, hst⟩ | hq
  · obtain ⟨u, hu, rfl⟩ := List.mem_map.mp hw
    exact ⟨u, (List.mem_filter.mp hu).1, (id_rebuilt u).symm.trans (congrArg (·.1) hst),
      pos_of_rebuilt_retired ((congrArg (·.2.1) hst).trans hp)⟩
  · rw [hq] at hp
    cases hp

/-- An entry that was in flight is rebuilt as one that waits again with REDO. -/
theorem requeued_rebuilt {x : Item} {c v : Nat} (hx : x ∈ s.col.items) (he : x.event = false) (hpos : x.pos = .flight c v) :
    ∃ y ∈ s.rebuilt.col.items, y.standing = (x.id, .queued, true, true) := by
  have hmem : x.rebuilt ∈ (s.col.items.filter fun x => !x.event).map Item.rebuilt :=
    List.mem_map_of_mem (List.mem_filter.mpr ⟨hx, by rw [he]; rfl⟩)
  rw [← standing_rebuilt_flight hpos]
  exact (queuedMore_rebuilt s).kept hmem

theorem retiring_rebuilt : Retiring (fun _ => False) s.rebuilt s.rebuilt.finishRetired :=
  retiring_finishRetired (fun _ _ _ _ _ => id) fun _ _ _ => id

theorem restoreCollator_eq : s.restoreCollator = s.rebuilt.finishRetired.goneLive := by
  unfold State.restoreCollator State.goneLive State.rebuilt
  rfl

theorem lockFree_recovered {l : Nat} (hl : l < 256) : s.rebuilt.finishRetired.goneLive.LockFree l := by
  obtain ⟨hheld, hwait⟩ := lockFree_rebuilt s hl
  obtain ⟨-, -, -, hw⟩ := tables_goneLive s.rebuilt.finishRetired
  have hkept : State.Only [.outs, .collator, .reg .hubHqStat, .reg .hubMsixPba, .reg .colLedger, .reg .colStrStat]
      s.rebuilt s.rebuilt.finishRetired.goneLive :=
    (goneLive_only _).mono' (finishRetired_only (.refl _ s.rebuilt) (by decide)) (by decide)
  exact ⟨(hkept.bitF F.colLock_held l (by decide)).trans hheld,
    (lockWaiters_of_waiters (hw.trans (retiring_rebuilt s).waiters) l).trans hwait⟩

end

/-- After the recovery nothing runs, and no lock holds (R302). -/
theorem recovered_idle (s : State) : s.rebuilt.finishRetired.goneLive.col.live = true ∧
    (∀ c v, s.rebuilt.finishRetired.goneLive.act c v = none) ∧
    (∀ l < 256, s.rebuilt.finishRetired.goneLive.lockHolder l = none ∧
      s.rebuilt.finishRetired.goneLive.lockWaiters l = []) ∧
    ∀ x ∈ s.rebuilt.finishRetired.goneLive.col.items, ∀ c v, x.pos ≠ .flight c v := by
  obtain ⟨hacts, -, -⟩ := tables_rebuilt s
  obtain ⟨hlive, hi, ha, -⟩ := tables_goneLive s.rebuilt.finishRetired
  have hret := retiring_rebuilt s
  refine ⟨hlive, fun c v => ?_, fun l hl => ?_, fun x hx => ?_⟩
  · unfold State.act
    rw [ha, hret.acts, hacts]
    rfl
  · have hfree := lockFree_recovered s hl
    exact ⟨hfree.holder, hfree.2⟩
  · rw [hi] at hx
    exact pos_rebuilt_tables s (hret.sub x hx)

/-- What was in flight waits again with REDO (R302), unless a record that waits ends its retirement. -/
theorem recovered_requeues {s : State} {x : Item} {c v : Nat} (hx : x ∈ s.col.items) (he : x.event = false)
    (hpos : x.pos = .flight c v) (hids : (s.col.items.map Item.id).Nodup)
    (hwait : ∀ m, ∀ r ∈ (s.hq m).rqWait, r.item ≠ some x.id) :
    ∃ y ∈ s.rebuilt.finishRetired.goneLive.col.items,
      y.id = x.id ∧ y.pos = .queued ∧ y.inFlight = true ∧ D.redo y.desc = true := by
  have hret : Retiring (· = x.id) s.rebuilt s.rebuilt.finishRetired := by
    refine retiring_finishRetired (fun m r hr k hk e => ?_) fun y hy hretired e => ?_
    · obtain ⟨-, hq, -⟩ := tables_rebuilt s
      rw [State.hq, hq] at hr
      exact hwait m r hr (e ▸ hk)
    · obtain ⟨u, hu, hid, hp⟩ := retired_rebuilt s hy hretired
      rw [List.inj_on_of_nodup_map hids hu hx (hid.trans e), hpos] at hp
      cases hp
  obtain ⟨y, hy, hst⟩ := requeued_rebuilt s hx he hpos
  have hid : y.id = x.id := congrArg (·.1) hst
  obtain ⟨-, hi, -, -⟩ := tables_goneLive s.rebuilt.finishRetired
  refine ⟨y, ?_, hid, congrArg (·.2.1) hst, congrArg (·.2.2.1) hst, congrArg (·.2.2.2) hst⟩
  rw [hi]
  exact hret.kept y hy hid

section
variable {s : State}

theorem hubLogicRecovery_waits (h : s.sys.ledgerLost = true ∨ s.domOn 2 = false) : exec .hubLogicRecovery s = .next s := by
  have hcond : (s.sys.ledgerLost || s.getN F.pwrDom_state 2 != 2) = true := by
    rcases h with h | h
    · rw [h, Bool.true_or]
    · rw [show (s.getN F.pwrDom_state 2 != 2) = !s.domOn 2 from rfl, h]
      exact Bool.or_true _
  change execHubLogicRecovery s = _
  unfold execHubLogicRecovery
  rw [if_pos hcond]

theorem hubLogicRecovery_restores (hl : s.sys.ledgerLost = false) (hd : s.domOn 2 = true) :
    exec .hubLogicRecovery s = .next s.rebuilt.finishRetired.goneLive := by
  have hcond : (s.sys.ledgerLost || s.getN F.pwrDom_state 2 != 2) = false := by
    rw [hl, show (s.getN F.pwrDom_state 2 != 2) = !s.domOn 2 from rfl, hd]
    rfl
  change execHubLogicRecovery s = _
  unfold execHubLogicRecovery
  rw [if_neg (Bool.eq_false_iff.mp hcond), restoreCollator_eq]

end

/-- Settles O37: the level and the lock by the command that answers them, the stream by the write that acts, the recovery by
what each of its parts leaves of the tables. -/
theorem yieldsLocksStreams : Obligations.YieldsLocksStreams := by
  refine ⟨fun c lv s r h => yieldReady_ready h, fun c lv s l r hw hto hst => lockWaitTimeout_withdraws hw hto hst,
    fun fn st s hopen hown hst => ⟨fun v hres hcan => streamResume_resumes hopen hown hst hres hcan, fun v hcan => ?_⟩,
    fun s => ⟨hubLogicRecovery_waits, fun hl hd => ⟨_, hubLogicRecovery_restores hl hd, ?_⟩⟩⟩
  · obtain ⟨t, ht, ⟨hstate, hfaults⟩, hitem⟩ := streamCancel_cancels hopen hown hst hcan
    exact ⟨t, ht, hstate, hfaults, hitem⟩
  · obtain ⟨hlive, hacts, hlocks, hnone⟩ := recovered_idle s
    exact ⟨hlive, hacts, hlocks, hnone, fun x hx c v he hpos hids hwait => recovered_requeues hx he hpos hids hwait⟩

end Sys2Proof.Machine
end

section
/-!
Proofs of the collator family, 5: the request that a dispatch sends (R250, R253).
-/
namespace Sys2Proof.Machine

/-- With the tables restored the first placeable item of the highest level is dispatched. -/
theorem collatorPlace_dispatches {s : State} {x : Item} {c v : Nat} (hlive : s.settle.col.live = true)
    (hfirst : ((List.range 8).findSome? fun i => (s.settle.placeable (7 - i)).map fun p => (p, 7 - i)) = some ((x, c), v)) :
    exec .collatorPlace s = .next (s.settle.dispatch x c v) := by
  change execCollatorPlace s = _
  unfold execCollatorPlace
  dsimp only
  rw [if_neg (by simp [hlive]), hfirst]

/-! ### The counterexample -/

/-- A work item of stream 0 with catchword 1. -/
def readyItem : Item := { id := 1, desc := 1, fn := 0, srcq := none, pos := .queued }

/-- A booted device whose stream 0 and task 0 are enabled, with core 0 out of reset and open to the task; the item is ready,
and no request has been sent. -/
def oneReady : State :=
  { ((((State.reset.putN F.hubBoot_state 0 2).setF F.colStrCfg_en 0).setF F.colTskCfg_en 0).setReg .colTskCores 0 1).clrF
      F.awlCtl_holdrst 0 with
    col := { live := true, items := [readyItem], nextId := 2, ready := [1] } }

/-- The same device, but its station still holds a request with the number that the ring gives next: the one that the
dispatch of the item is about to send. -/
def numberInUse : State :=
  oneReady.updStation 4 fun x => { x with out := ((oneReady.settle.dispatch readyItem 0 0).station 4).out }

/-- The dispatch sends nothing that its station does not hold already. -/
theorem out_dispatch_numberInUse :
    ∀ r ∈ ((numberInUse.settle.dispatch readyItem 0 0).station 4).out, r ∈ (numberInUse.settle.station 4).out := by
  decide +kernel

/-- Refutes O35: the statement asks for a request that the Collator's station did not hold before. The request of a dispatch is
told apart by its number alone, the ring's next (`ring.sent`), and the statement is about every state, also one whose station
holds a request of that number: there the request sent is equal to one held before. -/
theorem not_collatorPlaces : ¬ Obligations.CollatorPlaces := by
  intro h
  obtain ⟨hplace, -, -⟩ := h numberInUse
  obtain ⟨-, -, -, -, -, t, ht, -, -, -, -, -, -, r, hr, hnew, -⟩ :=
    hplace 0 (by decide) readyItem 0 (by decide +kernel) (by decide +kernel) (by decide +kernel)
  rw [collatorPlace_dispatches (x := readyItem) (c := 0) (v := 0) (by decide +kernel) (by decide +kernel)] at ht
  obtain rfl := Host.Outcome.next.inj ht
  exact hnew (out_dispatch_numberInUse r hr)

end Sys2Proof.Machine
end
